-- ==== Sys2Proof/Word.lean ====
section
/-! DEFINITION. Word.lean: the word types of the device (R6, R46) and the sparse table type in which memories, register
files and tables are held. -/

namespace Sys2Proof

/-- One byte of memory (R6). -/
abbrev Byte := BitVec 8

/-- A 16-bit half word: a format register (R58), a packed element (R39). -/
abbrev Half := BitVec 16

/-- A 32-bit register: one vector or scalar register (R46). -/
abbrev Word := BitVec 32

/-- A 64-bit value: a register pair, an address, a system register (R47, R177). -/
abbrev DWord := BitVec 64

/-- A 48-bit accumulator mantissa (R204). -/
abbrev Mant := BitVec 48

/-- A table from keys to values, held as plain data: pairs in strictly rising key order. What an unlisted key reads as is
the default of the table's own readers. -/
abbrev Sparse (α : Type) := List (Nat × α)

end Sys2Proof
end

