-- ==== Sys2Proof/Syntax.lean ====
section
/-! DEFINITION. Syntax.lean: the instructions and events of the device as data (R13 to R25 and the entries of every chapter).
One constructor of `Instr` per row of the opcode table: the rows with a mnemonic of the assembly language are instructions,
the others are events of the hardware or of its surroundings, each whole and indivisible. -/

namespace Sys2Proof

/-! ### Operand fields shared by every instruction -/

/-- The guard (R16): predicate number and negation. -/
structure Guard where
  neg : Bool
  p : BitVec 3
  deriving DecidableEq, Repr

/-- The length form and the bits it adds (R14). -/
inductive Ext where
  | e64
  | e96 (imm : Word)
  | e128 (lo hi : Word)
  deriving DecidableEq, Repr

/-- A destination (R17). -/
inductive Dst where
  | v (n : BitVec 8)
  | s (n : BitVec 6)
  | p (n : BitVec 3)
  | j (n : BitVec 3)
  | discard
  deriving DecidableEq, Repr

/-- The specials (R20), in index order from 0x50. -/
inductive Special where
  | lane | home | wf (k : Fin 6) | widLo | widHi | bundle | core | cluster | die | pkg | clkLo | clkHi | active
  deriving DecidableEq, Repr

/-- A source (R19, R21). -/
inductive Src where
  | v (n : BitVec 8)
  | s (n : BitVec 6)
  | p (n : BitVec 3)
  | j (n : BitVec 3)
  | special (x : Special)
  | null
  | inline (k : BitVec 6)
  | imm (sel : Fin 3)
  deriving DecidableEq, Repr

/-- The fields that every instruction has (R13). -/
structure Opnds where
  g : Guard
  ext : Ext
  d : Dst
  a : Src
  b : Src
  c : Src
  deriving DecidableEq, Repr

/-! ### Types and modifiers -/

/-- Integer types (R77). -/
inductive ITy where
  | s32 | n32 | s64 | n64 | s16 | n16 | s8 | n8 | b32 | b64 | b128
  deriving DecidableEq, Repr

/-- Integer comparisons (R78). -/
inductive Cc where
  | eq | ne | lt | le | gt | ge
  deriving DecidableEq, Repr

/-- Floating-point types (R81). -/
inductive FTy where
  | f32 | f16 | bf16 | f16x2 | bf16x2
  deriving DecidableEq, Repr

/-- A scalar floating-point format (R54). -/
inductive FFmt where
  | f32 | f16 | bf16
  deriving DecidableEq, Repr

/-- Rounding modes (R56). -/
inductive Rnd where
  | rn | rz | rm | rp
  deriving DecidableEq, Repr

/-- The modifiers of the floating-point instructions (R81). -/
structure FMods where
  rnd : Rnd
  sat : Bool
  absa : Bool
  nega : Bool
  negb : Bool
  negc : Bool
  deriving DecidableEq, Repr

/-- Floating-point comparisons (R85). -/
inductive Fcc where
  | eq | ne | lt | le | gt | ge | ord | uno
  deriving DecidableEq, Repr

/-- The types of `cvt` (R87): the integer codes 0 to 7 and the three FP formats. -/
inductive CTy where
  | s32 | n32 | s64 | n64 | s16 | n16 | s8 | n8 | f32 | f16 | bf16
  deriving DecidableEq, Repr

/-- The types of `pack` (R93). -/
inductive PackTy where
  | b16 | f16x2 | bf16x2
  deriving DecidableEq, Repr

/-- The types of `unpack` (R93). -/
inductive UnpTy where
  | n16 | s16 | f16x2 | bf16x2
  deriving DecidableEq, Repr

/-- The block length of `cvt.nfb` and of a scaled record: 8, 16, 32 or 64 (R89, R213). -/
inductive BlkLen where
  | b8 | b16 | b32 | b64
  deriving DecidableEq, Repr

/-- The modes of `agree` (R156). -/
inductive AgreeMode where
  | every | some | same | none
  deriving DecidableEq, Repr

/-- The modes of `xlane` (R157). -/
inductive XMode where
  | pick | rot | flip | rev
  deriving DecidableEq, Repr

/-- The segment widths of `xlane` (R157). -/
inductive Seg where
  | w128 | w64 | w32 | w16 | w8
  deriving DecidableEq, Repr

/-- The operations of `lred` (R158). -/
inductive RedOp where
  | add | min | max | and | or | xor | fadd | fmin | fmax
  deriving DecidableEq, Repr

/-- The widths of memory accesses (R102). -/
inductive MWidth where
  | n8 | s8 | n16 | s16 | b32 | b64 | b128
  deriving DecidableEq, Repr

/-- The allocation hint of `ld` and `st` (R102). -/
inductive Hint where
  | none | nl1 | lu
  deriving DecidableEq, Repr

/-- The types of atomics (R163, R280). -/
inductive ATy where
  | s32 | n32 | s64 | n64 | b32 | b64 | f32 | b128
  deriving DecidableEq, Repr

/-- The operations of atomics (R163, R280). -/
inductive AOp where
  | add | min | max | and | or | xor | exch | cas | fadd
  deriving DecidableEq, Repr

/-- The ordering of an atomic (R280, R284). -/
inductive AOrd where
  | none | acq | rel | ar
  deriving DecidableEq, Repr

/-- The types of bank commands (R310). -/
inductive BkTy where
  | f32 | f16 | bf16 | s32 | b32 | b16 | b8
  deriving DecidableEq, Repr

/-- The reductions of `bk.red` (R310). -/
inductive BkRedOp where
  | add | min | max
  deriving DecidableEq, Repr

/-- The element kinds of `cpy.x` and `cpy.c` (R294). -/
inductive CpElem where
  | bf16 | f16 | s8 | m8
  deriving DecidableEq, Repr

/-- The forms of `acc.ld` and `acc.st` (R223). -/
inductive AccForm where
  | f32 | bf16 | raw
  deriving DecidableEq, Repr

/-- The uses of a key (R355). -/
inductive KeyUse where
  | seal | ide | mem
  deriving DecidableEq, Repr

/-- The modes of `fault.cancel` (R277). -/
inductive CancelMode where
  | none | all | core
  deriving DecidableEq, Repr

/-- The modes of `tlbinv` (R278). -/
inductive TlbMode where
  | all | dom | as | va
  deriving DecidableEq, Repr

/-! ### Data carried by events -/

/-- A rank of the election (R402): term, priority and serial, compared in that order. -/
structure Rank where
  term : Word
  prio : Byte
  serial : DWord
  deriving DecidableEq, Repr

/-- An atomic step as it goes to where it is performed (R282, R391): type, operation and operands. -/
structure PeerStep where
  ty : ATy
  op : AOp
  b : Nat
  c : Nat
  deriving DecidableEq, Repr

/-- What a peer asks for in a page of its lease beside the translation (R391, R392): nothing, n bytes from an offset, bytes to be written
there, or an atomic step. -/
inductive PeerAsk where
  | page
  | read (off n : Nat)
  | write (off : Nat) (bytes : List Byte)
  | atomic (off : Nat) (step : PeerStep)
  deriving DecidableEq, Repr

/-- A packet of the fabric, with what it brings the package (R389): what a peer, a switch or a beacon sends. -/
inductive Packet where
  | request (port id gen inc page tag : Nat) (what : PeerAsk)
  | reply (slot page inc : Nat) (phys : Option Nat)
  | dataReply (slot tag inc : Nat) (ok : Bool)
  | recalled (slot : Nat)
  | confirmed (slot : Nat)
  | accepted (k : Nat)
  | declined (k : Nat)
  | acknowledged (k : Nat)
  | heartbeat (r : Rank) (sender : Nat)
  | voteRequest (r : Rank) (sender : Nat)
  | voteGrant (term : Word) (sender : Nat)
  | refusal (r : Rank)
  | manifest (bytes : List Byte)
  | chunk (n : Nat) (bytes : List Byte)
  | bitmap (sender : Nat) (answer : Option (List Nat))
  | linkState (a b : Nat) (live : Bool) (seq : Word)
  | probe (source round : Nat) (tags : List Nat)
  deriving DecidableEq, Repr

/-- A packet with its number in its source's sequence (R389). -/
structure Numbered where
  seq : BitVec 24
  packet : Packet
  deriving DecidableEq, Repr

/-- A command of a die's bank-compute units, and which of its elements are performed: those picked, in their order, or else the next so many, 0
for all that are left (R311). -/
structure BankTurn where
  cmd : Nat
  count : Nat
  pick : List Nat
  deriving DecidableEq, Repr

/-- A temperature reading in °C by one of a die's sensors: 0 the die's own, 1 and 2 those of its stacks (R360). -/
structure Reading where
  sensor : Nat
  celsius : Nat
  deriving DecidableEq, Repr

/-- The end of a drain round of a link, with the tags that destinations have refused in round 4 (R406). -/
structure DrainEnd where
  link : Nat
  refused : List Nat
  deriving DecidableEq, Repr

/-- A port's rate in GT/s, and whether its partner has identified itself as a Vexdun part (R11, R385). -/
structure Training where
  rate : Nat
  vexdun : Bool
  deriving DecidableEq, Repr

/-- A beacon that reads the chunk bitmap here, or a follower's answer to this package as beacon (R404). -/
structure BitmapRead where
  sender : Nat
  answer : Option (List Nat)
  deriving DecidableEq, Repr

/-- The kinds of access a walk is made for (R269 `pf.acc`, and the translations of R293 that set no bit). -/
inductive Access where
  | read | write | atomic | fetch | maint
  deriving DecidableEq, Repr

/-- The fields of a launch queue's configuration record (R314). -/
structure QueueCfg where
  ring : DWord
  lsize : Nat
  die : Nat
  en : Bool
  pmax : Nat
  dom : Nat
  asn : Nat
  wptr : DWord
  rptr : DWord
  root : Nat
  shdw : DWord
  hwsave : Nat
  hwsz : Nat
  deriving DecidableEq, Repr

/-- A borrow-table entry's lasting fields as the package kernel fills them (R395). -/
structure BorrowFill where
  size : Nat
  dom : Nat
  port : Nat
  gen : Nat
  inc : Nat
  id : Nat
  left : Nat
  deriving DecidableEq, Repr

/-- A register of the hub configuration space that has no behaviour of its own when written (R347): the register and its
new value. -/
inductive CfgWrite where
  /-- `svcdom` of a die (R279). -/
  | svcdom (die : Nat) (mask : Half)
  /-- A launch queue's configuration record with `q.en` unchanged (R314). -/
  | queue (q : Nat) (c : QueueCfg)
  /-- The owner of a work queue (R327); `none` leaves it unassigned. -/
  | workQueue (die q : Nat) (owner : Option (Nat × Nat))
  /-- The next slot table (R354). -/
  | slotTable (owners : List Nat)
  /-- The migration threshold `migthr` (R399). -/
  | migthr (v : Half)
  /-- The journal spill area of a core (R145, R177). -/
  | journal (core : Nat) (base : DWord) (size : Word)
  /-- A change of a granule's owner; the snuff engine zeroes the granule (R353). -/
  | owner (granule code : Nat)
  /-- The frames of a die's shadow pool (R304). -/
  | shadowPool (die : Nat) (frames : List Nat)
  /-- The package's election priority, and the pod's membership as a beacon last distributed it (R402). -/
  | prio (p : Nat)
  | roster (ids : List Nat)
  /-- The corrected-error threshold `bankthr` (R358). -/
  | bankthr (n : Nat)
  /-- The package's port-based-routing identifier (R385). -/
  | pkgId (id : Nat)
  /-- A byte of memory written by P, on a coherent page or at its home, and a sector read by it through its caches (R348, R379). -/
  | memory (pa : Nat) (b : Byte) (coherent : Bool)
  | memoryRead (pa : Nat)
  /-- A byte read by P at its home, past its caches; P's FENCE of reads and writes; and an AMO of P on a coherent page or at its home, with
  `rl` as it says (R379). -/
  | homeRead (pa : Nat)
  | fence
  | amo (pa : Nat) (step : PeerStep) (coherent release : Bool)
  /-- A copy that P has a bulk engine of a die make for the package kernel, by physical address: source, destination and length
  (R349, R397, R408). -/
  | kernelCopy (die src dst n : Nat)
  /-- A persistent range of a CXL device (R292). -/
  | persistent (base size : Nat)
  /-- A borrow-table entry whose lender's offer the package kernel accepts (R395, R396). -/
  | borrow (slot : Nat) (f : BorrowFill)
  /-- The package kernel's restart, which activates a kernel that is staged and verified (R404). -/
  | kernelRestart
  /-- The handle of a port's IDE key, 0 for none (R355, R386). -/
  | portIde (port handle : Nat)
  /-- An FM API command to a switch, which a beacon alone issues (R386, R402). -/
  | fmCommand (switch : Nat) (command : List Byte)
  /-- A kernel image that the package distributes as beacon: its manifest and the chunks that it has; and its reading of the followers'
  bitmaps (R404). -/
  | distribute (manifest : List Byte) (chunks : List (Nat × List Byte))
  | readBitmaps
  deriving DecidableEq, Repr

/-- The content of an SPDM message (R356, R358). -/
inductive Spdm where
  /-- An attestation request. -/
  | attest (request : List Byte)
  /-- The end of a key establishment for a domain's transport key. -/
  | transport (domain : Nat) (session : List Byte)
  deriving DecidableEq, Repr

/-- An image presented for update (R361): its version, its bytes and its signature. -/
structure Image where
  version : Nat
  bytes : List Byte
  signature : List Byte
  deriving DecidableEq, Repr

/-! ### The instructions and events -/

/-- One constructor per row of the opcode table. -/
inductive Instr where
  -- common and integer (R27, R78 to R80)
  | nop (x : Opnds)
  | iadd (x : Opnds) (t : ITy) (sat : Bool)
  | isub (x : Opnds) (t : ITy) (sat : Bool)
  | imul (x : Opnds) (t : ITy) (sat : Bool)
  | imulhi (x : Opnds) (t : ITy)
  | imad (x : Opnds) (t : ITy) (sat : Bool)
  | imin (x : Opnds) (t : ITy)
  | imax (x : Opnds) (t : ITy)
  | iabs (x : Opnds) (t : ITy) (sat : Bool)
  | ineg (x : Opnds) (t : ITy) (sat : Bool)
  | shl (x : Opnds) (t : ITy) (clamp : Bool)
  | shr (x : Opnds) (t : ITy) (clamp : Bool)
  | sar (x : Opnds) (t : ITy) (clamp : Bool)
  | rot (x : Opnds) (t : ITy)
  | and (x : Opnds) (t : ITy)
  | or (x : Opnds) (t : ITy)
  | xor (x : Opnds) (t : ITy)
  | not (x : Opnds) (t : ITy)
  | lut3 (x : Opnds) (wide : Bool) (tbl : BitVec 8)
  | popc (x : Opnds) (t : ITy)
  | clz (x : Opnds) (t : ITy)
  | brev (x : Opnds) (t : ITy)
  | bfe (x : Opnds) (t : ITy)
  | bfi (x : Opnds) (t : ITy)
  | icmp (x : Opnds) (t : ITy) (cc : Cc)
  | sel (x : Opnds) (t : ITy)
  | mov (x : Opnds) (t : ITy)
  | iaddc (x : Opnds) (t : ITy) (cp : BitVec 3)
  | lea (x : Opnds) (t : ITy) (sh : BitVec 3)
  | imadWide (x : Opnds) (t : ITy) (sat : Bool)
  | prmt (x : Opnds)
  | isad (x : Opnds) (t : ITy) (sat : Bool)
  -- floating point (R82 to R86)
  | fadd (x : Opnds) (t : FTy) (m : FMods)
  | fsub (x : Opnds) (t : FTy) (m : FMods)
  | fmul (x : Opnds) (t : FTy) (m : FMods)
  | ffma (x : Opnds) (t : FTy) (m : FMods)
  | fmin (x : Opnds) (t : FTy) (m : FMods)
  | fmax (x : Opnds) (t : FTy) (m : FMods)
  | fcmp (x : Opnds) (t : FFmt) (cc : Fcc) (sig absa : Bool)
  | frcp (x : Opnds) (t : FTy) (m : FMods)
  | frsq (x : Opnds) (t : FTy) (m : FMods)
  | fsqrt (x : Opnds) (t : FTy) (m : FMods)
  | fex2 (x : Opnds) (t : FTy) (m : FMods)
  | flg2 (x : Opnds) (t : FTy) (m : FMods)
  | fsin (x : Opnds) (t : FTy) (m : FMods)
  | fcos (x : Opnds) (t : FTy) (m : FMods)
  | fdiv (x : Opnds) (t : FTy) (m : FMods)
  | ffrac (x : Opnds) (t : FTy) (m : FMods)
  | fround (x : Opnds) (t : FTy) (m : FMods)
  | fclass (x : Opnds) (t : FFmt)
  | fscale (x : Opnds) (t : FTy) (m : FMods)
  | fdot2 (x : Opnds) (t : FTy) (m : FMods)
  -- conversion (R87 to R93)
  | cvt (x : Opnds) (d s : CTy) (rnd : Rnd) (sat : Bool)
  | cvtNfEnc (x : Opnds) (f : BitVec 4) (t : FFmt) (sc : Bool) (k : BitVec 3)
  | cvtNfDec (x : Opnds) (f : BitVec 4) (t : FFmt) (sc : Bool) (k : BitVec 3)
  | cvtNfb (x : Opnds) (b : BlkLen) (f : BitVec 4) (t : FFmt)
  | unpkNf (x : Opnds) (f : BitVec 4) (bf : Bool) (sc : Bool) (k : BitVec 2)
  | fmtSet (x : Opnds) (f : BitVec 4)
  | fmtGet (x : Opnds) (f : BitVec 4)
  | flagsGet (x : Opnds)
  | flagsClr (x : Opnds)
  | pack (x : Opnds) (t : PackTy) (rnd : Rnd)
  | unpack (x : Opnds) (hi : Bool) (t : UnpTy)
  -- uniform scalar (R152)
  | sadd (x : Opnds) (t : ITy) (sat : Bool)
  | ssub (x : Opnds) (t : ITy) (sat : Bool)
  | smul (x : Opnds) (t : ITy) (sat : Bool)
  | sand (x : Opnds) (t : ITy)
  | sor (x : Opnds) (t : ITy)
  | sxor (x : Opnds) (t : ITy)
  | sshl (x : Opnds) (t : ITy) (clamp : Bool)
  | sshr (x : Opnds) (t : ITy) (clamp arith : Bool)
  | scmp (x : Opnds) (t : ITy) (cc : Cc)
  | smov (x : Opnds) (t : ITy)
  | sld (x : Opnds) (w : MWidth)
  -- cross-lane (R154 to R158)
  | rfl (x : Opnds) (wide : Bool)
  | ballot (x : Opnds)
  | agree (x : Opnds) (m : AgreeMode)
  | xlane (x : Opnds) (m : XMode) (w : Seg) (wide : Bool)
  | lred (x : Opnds) (op : RedOp) (t : ITy)
  -- control (R94 to R98, R109 to R111, R159, R160)
  | bra (x : Opnds)
  | brx (x : Opnds)
  | call (x : Opnds)
  | ret (x : Opnds)
  | exit (x : Opnds)
  | jenr (x : Opnds)
  | jenrSet (x : Opnds)
  | jpark (x : Opnds)
  | jstrike (x : Opnds)
  | jstrikeAll (x : Opnds)
  | reform (x : Opnds)
  | brd (x : Opnds)
  | yield (x : Opnds)
  | trap (x : Opnds) (n : Byte)
  | brk (x : Opnds)
  | nap (x : Opnds)
  | napExpiry (blk thr : Nat)
  -- memory (R104 to R108)
  | ld (x : Opnds) (w : MWidth) (zx : Bool) (hint : Hint)
  | st (x : Opnds) (w : MWidth) (zx : Bool) (hint : Hint)
  | ldl (x : Opnds) (w : MWidth)
  | stl (x : Opnds) (w : MWidth)
  | ldc (x : Opnds) (w : MWidth)
  | pref (x : Opnds) (zx : Bool) (l1 : Bool)
  -- scratchpad (R161 to R164) and cluster (R243, R244)
  | lds (x : Opnds) (w : MWidth) (zx : Bool)
  | sts (x : Opnds) (w : MWidth) (zx : Bool)
  | atoms (x : Opnds) (t : ATy) (op : AOp)
  | spstat (x : Opnds) (sel : BitVec 4)
  | ldsRem (x : Opnds) (w : MWidth) (zx : Bool) (peer : BitVec 2) (xr : Bool)
  | stsRem (x : Opnds) (w : MWidth) (zx : Bool) (peer : BitVec 2) (xr : Bool)
  | stsRemArr (x : Opnds) (zx : Bool) (peer : BitVec 2) (xr : Bool)
  -- die: atomics and ordering (R280 to R293)
  | atom (x : Opnds) (t : ATy) (op : AOp) (ord : AOrd)
  | red (x : Opnds) (t : ATy) (op : AOp) (ord : AOrd)
  | waitcmp (x : Opnds) (t : ATy) (cc : Cc)
  | fence (x : Opnds) (m : BitVec 3)
  | pbar (x : Opnds) (wait : Bool)
  | cleanR (x : Opnds)
  | invR (x : Opnds)
  | flushR (x : Opnds)
  | fhz (x : Opnds)
  -- barriers and rings (R169 to R175)
  | bbind (x : Opnds) (n : BitVec 4) (all : Bool)
  | bunbind (x : Opnds) (n : BitVec 4)
  | barr (x : Opnds) (n : BitVec 4)
  | barrb (x : Opnds) (n : BitVec 4)
  | bwait (x : Opnds) (n : BitVec 4)
  | btest (x : Opnds) (n : BitVec 4)
  | bwaitt (x : Opnds) (n : BitVec 4)
  | bwaittTimeout (blk thr : Nat)
  | bblk (x : Opnds)
  | bexp (x : Opnds) (n : BitVec 4) (now clrt : Bool)
  | ringBind (x : Opnds) (n : BitVec 4) (d : BitVec 3)
  | ringAcq (x : Opnds) (n : BitVec 4)
  | ringPut (x : Opnds) (n : BitVec 4)
  | ringGet (x : Opnds) (n : BitVec 4)
  | ringRel (x : Opnds) (n : BitVec 4)
  -- copies and shadows (R294 to R309)
  | cpy (x : Opnds) (n : BitVec 4) (ns s2g : Bool)
  | cpyX (x : Opnds) (n : BitVec 4) (ns : Bool) (e : CpElem)
  | cpyC (x : Opnds) (n : BitVec 4) (ns : Bool) (e : CpElem)
  | cpyGl (x : Opnds)
  | cpyFan (x : Opnds) (n : BitVec 4) (ns : Bool)
  | publ (x : Opnds)
  | publDrop (x : Opnds)
  | scbdCnt (x : Opnds)
  | scbdQ (x : Opnds)
  | scbdWait (x : Opnds)
  | shdwOpen (x : Opnds)
  | cpySealEnc (x : Opnds)
  | cpySealDec (x : Opnds)
  -- bank compute (R310 to R312)
  | bkAdd (x : Opnds) (t : BkTy) (rnd : Rnd)
  | bkMul (x : Opnds) (t : BkTy) (rnd : Rnd)
  | bkFma (x : Opnds) (t : BkTy) (rnd : Rnd)
  | bkRed (x : Opnds) (t : BkTy) (rnd : Rnd) (op : BkRedOp)
  | bkScale (x : Opnds) (t : BkTy) (rnd : Rnd)
  | bkCmp (x : Opnds) (t : BkTy) (rnd : Rnd) (cc : Cc)
  | bkFill (x : Opnds) (t : BkTy)
  | bkWait (x : Opnds)
  -- matrix (R215 to R231)
  | obres (x : Opnds) (n : BitVec 3)
  | obrel (x : Opnds) (n : BitVec 3)
  | obld (x : Opnds) (n : BitVec 3)
  | obldX (x : Opnds) (n : BitVec 3)
  | mma (x : Opnds) (t : BitVec 1) (ra rb : BitVec 3)
  | mmas (x : Opnds) (t : BitVec 1) (ra rb rm : BitVec 3)
  | accZero (x : Opnds) (t : BitVec 1) (all : Bool)
  | accLd (x : Opnds) (t : BitVec 1) (k : AccForm) (n : BitVec 7)
  | accSt (x : Opnds) (t : BitVec 1) (k : AccForm) (ninf : Bool) (n : BitVec 7)
  | accStat (x : Opnds) (t : BitVec 1) (sel : BitVec 3)
  | accRenorm (x : Opnds) (t : BitVec 1)
  | accTmask (x : Opnds) (t : BitVec 1)
  | accScale (x : Opnds) (t : BitVec 1)
  | accRmax (x : Opnds) (t : BitVec 1) (n : BitVec 7)
  | accMode (x : Opnds) (t : BitVec 1)
  -- early exit, work queues, launch (R324 to R338)
  | conftest (x : Opnds) (e : BitVec 4)
  | bkfill (x : Opnds) (e : BitVec 4)
  | bkfillReg (x : Opnds) (e : BitVec 4)
  | bkwait (x : Opnds) (e : BitVec 4)
  | wqPush (x : Opnds) (q : BitVec 5) (nw : Bool) (pd : BitVec 3)
  | wqPull (x : Opnds) (q : BitVec 5) (nw : Bool) (pd : BitVec 3)
  | wqStatCnt (x : Opnds) (q : BitVec 5)
  | wqStatClose (x : Opnds) (q : BitVec 5)
  | wqStatOpen (x : Opnds) (q : BitVec 5)
  | launch (x : Opnds) (n : BitVec 4)
  | launchArr (x : Opnds) (n : BitVec 4)
  | lqStat (x : Opnds)
  -- fabric and keys (R357, R400, R401)
  | leaseQStat (x : Opnds)
  | leaseQWait (x : Opnds)
  | leaseQRel (x : Opnds)
  | keyhGen (x : Opnds) (u : KeyUse)
  | keyhImp (x : Opnds) (u : KeyUse)
  | keyhRev (x : Opnds)
  | keyhQry (x : Opnds)
  | migAckTake (x : Opnds)
  | migAckRearm (x : Opnds)
  | migAckQuiet (x : Opnds)
  -- system (R178 to R181, R275 to R278, R353, R363, R366)
  | sysrd (x : Opnds) (r : BitVec 10)
  | syswr (x : Opnds) (r : BitVec 10)
  | tret (x : Opnds)
  | tretNext (x : Opnds)
  | tretStrike (x : Opnds)
  | presig (x : Opnds)
  | oplogRd (x : Opnds) (e : BitVec 3) (w : BitVec 4)
  | faultRdSeq (x : Opnds)
  | faultRdTake (x : Opnds)
  | faultRdFree (x : Opnds)
  | faultCancel (x : Opnds) (m : CancelMode)
  | tlbinv (x : Opnds) (m : TlbMode)
  | diectlReset (x : Opnds)
  | diectlStat (x : Opnds)
  | snuff (x : Opnds)
  | haltOff (x : Opnds)
  | haltReboot (x : Opnds)
  -- EVENTS THAT THE DEVICE'S OWN HARDWARE BRINGS ABOUT IN TIME
  -- events: the core's scratchpad (R186 to R199)
  | bankPass (core : Nat)
  | rowRebuild (core group row : Nat)
  | rowZeroing (blk : Nat)
  -- events: blocks (R120 to R150)
  | blockPlacement (grid : Nat)
  | blockCompletion (blk : Nat)
  | preemptionTrap (blk : Nat)
  | preemptionSave (blk : Nat)
  | preemptionTimeout (blk : Nat)
  | blockRestore (blk : Nat)
  | rollback (blk : Nat)
  | afterglowRelease (blk : Nat)
  | binDraw (part bin : Nat)
  | forcedDissolution (blk k : Nat)
  -- events: copies, fills, remote accesses (R212, R240 to R248, R296)
  | copyAccept (blk : Nat)
  | copyBytesLand (blk n : Nat)
  | obFillComplete (part n : Nat)
  | heldAccessRelease (core : Nat)
  | swapEntryValid (blk : Nat)
  -- events: translation, faults and caches (R255 to R286, R348)
  | waitcmpRecheck (blk thr : Nat)
  | waitcmpPoll (blk thr : Nat)
  | waitcmpTimeout (blk thr : Nat)
  -- events: launch, queues, engines (R299 to R336)
  | launchPacketTake (q : Nat)
  | dependenceResolved (grid : Nat)
  | priorityRise (grid : Nat)
  | gridCompletion (grid : Nat)
  | wqWaitServed (die q : Nat)
  | bulkCommandPerform (die k : Nat)
  | bankCommandPerform (die : Nat) (turn : BankTurn)
  | shadowCopyComplete (die k : Nat)
  | snuffEngineZero (granule : Nat)
  | backfillBatchForm (die e : Nat)
  -- events: the borrower's leases (R392 to R399)
  | migrationEventDeferred (k : Nat)
  -- events: configuration and the memory model (R314, R322, R347, R370, R292, R401)
  | writeDelivery (agent : Nat)
  | persistentStoreComplete (k : Nat)
  | leaseQWaitTimeout (blk thr : Nat)
  | warmResetRetrain (ok : Bool)
  | faultRecordDeferred
  | slotBoundary
  | coldBoot
  -- EVENTS FROM OUTSIDE, ERRORS AND THE OTHERS
  -- events: the core's scratchpad (R186 to R199)
  | bankRetirement (core bank : Nat)
  -- events: blocks (R120 to R150)
  | forceAfterglow (byDie : Bool) (n : Nat)
  -- events: copies, fills, remote accesses (R212, R240 to R248, R296)
  | remoteAccessAtTarget (core : Nat)
  | clusterFlitRetry (cluster link : Nat)
  -- events: translation, faults and caches (R255 to R286, R348)
  | translationWalk (core dom asn : Nat) (va : DWord) (acc : Access)
  | l2Eviction (die line : Nat)
  | directoryEntryDrop (line : Nat)
  -- events: the lender's leases (R352, R393)
  | leaseOffer (k size port id base : Nat) (expiry : Nat)
  | leaseAccept (k : Nat)
  | leaseDecline (k : Nat)
  | offerTimeout (k : Nat)
  | leaseExpiry (k : Nat)
  | recallTimeout (k : Nat)
  | extentZeroed (k : Nat)
  | leaseRecall (k : Nat)
  | borrowerAck (k : Nat)
  -- events: the borrower's leases (R392 to R399)
  | bisnpReceived (slot : Nat)
  | releaseConfirmed (slot : Nat)
  | borrowEntryClear (slot : Nat)
  | peerTranslationRequest (port id gen inc page tag : Nat) (what : PeerAsk)
  | peerTranslationReply (slot page inc : Nat) (phys : Option Nat)
  | lenderLost (port : Nat)
  -- events: management (R354 to R364, R292)
  | slotFrameBoundary
  | powerInterval (watts : Nat)
  | thermalTrip (die : Nat) (r : Reading)
  | imageUpdate (image : Image)
  | imageConfirm
  | powerLoss
  | warmResetWriteBack
  | warmResetReadmit
  | birluxLinkDown (link : Nat)
  | portTrainingFail (port : Nat)
  -- events: the fabric (R389, R402 to R406)
  | reorderRelease (source : Nat) (p : Numbered)
  | heartbeatSend
  | heartbeatReceived (r : Rank) (sender : Nat)
  | electionTimeout
  | voteRequest (r : Rank) (sender : Nat)
  | voteGrant (term : Word) (sender : Nat)
  | candidateTimeout
  | fmRefusal (r : Rank)
  | manifestReceived (bytes : List Byte)
  | chunkReceived (chunk : Nat) (bytes : List Byte)
  | linkStateUpdate (a b : Nat) (live : Bool) (seq : Word)
  | drainRound (e : DrainEnd)
  | drainProbe (source round : Nat) (tags : List Nat)
  -- events: configuration and the memory model (R314, R322, R347, R370, R292, R401)
  | queueEnable (q : Nat)
  | domainHandlerWrite (dom : Nat) (pc : DWord)
  | configWrite (w : CfgWrite)
  | warmResetByP (die : Nat)
  | spdmMessage (m : Spdm)
  | portRetrain (port : Nat) (t : Training)
  | chunkBitmapRead (m : BitmapRead)
  | shadowDrop (die k : Nat)
  deriving DecidableEq, Repr

end Sys2Proof
end

