-- ==== Sys2Proof/WellFormed.lean ====
section
/-! DEFINITION. WellFormed.lean: which instructions are legal encodings, whatever the launch (R17 to R26 and each entry's own
operand table). `formOk` is item 4 of R29 (ILLEGAL_OPCODE), `operandsOk` is item 5 (ILLEGAL_OPERAND). -/

namespace Sys2Proof

/-! ### Widths -/

/-- Width in bits (R77). -/
def ITy.bits : ITy → Nat
  | .s32 | .n32 | .b32 => 32
  | .s64 | .n64 | .b64 => 64
  | .s16 | .n16 => 16
  | .s8 | .n8 => 8
  | .b128 => 128

/-- Registers that an operand of the type spans (R75). -/
def ITy.regs : ITy → Nat
  | .s64 | .n64 | .b64 => 2
  | .b128 => 4
  | _ => 1

/-- Signed types (R79). -/
def ITy.signed : ITy → Bool
  | .s32 | .s64 | .s16 | .s8 => true
  | _ => false

/-- Registers of a memory access (R102). -/
def MWidth.regs : MWidth → Nat
  | .b64 => 2
  | .b128 => 4
  | _ => 1

/-- Bytes of a memory access (R102). -/
def MWidth.size : MWidth → Nat
  | .n8 | .s8 => 1
  | .n16 | .s16 => 2
  | .b32 => 4
  | .b64 => 8
  | .b128 => 16

/-- Registers of an atomic operand (R163, R280). -/
def ATy.regs : ATy → Nat
  | .s64 | .n64 | .b64 => 2
  | .b128 => 4
  | _ => 1

/-- Registers of a conversion operand (R87). -/
def CTy.regs : CTy → Nat
  | .s64 | .n64 => 2
  | _ => 1

/-- Integer codes of `cvt` (R87). -/
def CTy.isInt : CTy → Bool
  | .f32 | .f16 | .bf16 => false
  | _ => true

/-- Bits of a system register (R177, R123, R279, R304); none for a reserved number. -/
def sysBits (r : Nat) : Option Nat :=
  match r with
  | 0x000 | 0x001 | 0x002 | 0x003 | 0x004 | 0x005 | 0x006 | 0x008 | 0x00C | 0x00E | 0x010 | 0x011 | 0x012 => some 64
  | 0x007 => some 4
  | 0x009 | 0x00A | 0x00B | 0x00D => some 32
  | 0x00F => some 16
  | _ => none

/-- Registers that a system register spans (R178: a 64-bit register uses a pair). -/
def sysRegs (r : BitVec 10) : Nat := if sysBits r.toNat = some 64 then 2 else 1

/-! ### Operand kinds -/

/-- What one operand field accepts (R18, R23): the classes, the registers it spans, the alignment of its register number, and
whether `imm64` fits it (R21). -/
structure Kind where
  v : Bool := false
  s : Bool := false
  p : Bool := false
  j : Bool := false
  special : Bool := false
  /-- Null for a source, discard for a destination. -/
  none : Bool := false
  inline : Bool := false
  imm : Bool := false
  span : Nat := 1
  align : Nat := 1
  deriving DecidableEq, Repr

namespace Kind

/-- The field must be null, or discard. -/
def null : Kind := { none := true }
/-- Every kind of R19 that fits `w` registers. -/
def any (w : Nat) : Kind :=
  { v := true, s := true, p := true, special := true, none := true, inline := true, imm := true, span := w, align := w }
/-- Every uniform kind (R151). -/
def uniform (w : Nat) : Kind :=
  { s := true, p := true, special := true, none := true, inline := true, imm := true, span := w, align := w }
/-- A v register or group. -/
def vec (w : Nat) : Kind := { v := true, span := w, align := w }
/-- A v register or group, or null; a v destination or discard. -/
def vecNull (w : Nat) : Kind := { v := true, none := true, span := w, align := w }
/-- An s register or group. -/
def sca (w : Nat) : Kind := { s := true, span := w, align := w }
/-- An s register or group, or null; an s destination or discard. -/
def scaNull (w : Nat) : Kind := { s := true, none := true, span := w, align := w }
/-- A v or an s register or group. -/
def vecSca (w : Nat) : Kind := { v := true, s := true, span := w, align := w }
/-- A v or s destination, or discard; a v or s source, or null. -/
def vecScaNull (w : Nat) : Kind := { v := true, s := true, none := true, span := w, align := w }
/-- An s register or an inline constant. -/
def scaInl (w : Nat) : Kind := { s := true, inline := true, span := w, align := w }
/-- An s register, an inline constant or an immediate. -/
def scaImm : Kind := { s := true, inline := true, imm := true }
/-- An s register, an inline constant, an immediate or null. -/
def scaImmNull : Kind := { s := true, inline := true, imm := true, none := true }
/-- Uniform of R219: an s register, an inline constant or null. -/
def matUni : Kind := { s := true, inline := true, none := true }
/-- A store's data (R104). -/
def data (w : Nat) : Kind :=
  { v := true, s := true, none := true, inline := w != 4, span := w, align := w }
/-- A v, s or p destination, or discard (R156, R170). -/
def flag : Kind := { v := true, s := true, p := true, none := true }
/-- A p destination or discard. -/
def pred : Kind := { p := true, none := true }
/-- A rejoin mask. -/
def mask : Kind := { j := true }
/-- A predicate, an s register or an inline constant (R170). -/
def phase : Kind := { p := true, s := true, inline := true }
/-- The containers of a narrow format: the `.nf` row of R22. -/
def nf : Kind := { v := true, s := true, p := true, special := true, none := true, imm := true }

/-- The value of the immediate selector is one that the form has (R21). -/
def immOk (e : Ext) (span : Nat) (k : Fin 3) : Bool :=
  match e with
  | .e64 => false
  | .e96 _ => k == 0
  | .e128 .. => k != 2 || span == 2

/-- The source is of a kind that the field accepts (R23). -/
def okSrc (k : Kind) (e : Ext) : Src → Bool
  | .v n => k.v && n.toNat % k.align == 0
  | .s n => k.s && n.toNat % k.align == 0
  | .p _ => k.p
  | .j _ => false
  | .special _ => k.special
  | .null => k.none
  | .inline _ => k.inline && k.span ≤ 2
  | .imm sel => k.imm && k.span ≤ 2 && immOk e k.span sel

/-- The destination is of a class that the entry accepts (R18). -/
def okDst (k : Kind) : Dst → Bool
  | .v n => k.v && n.toNat % k.align == 0
  | .s n => k.s && n.toNat % k.align == 0
  | .p _ => k.p
  | .j _ => k.j
  | .discard => k.none

end Kind

/-- The kinds of the four operand fields of an instruction. -/
structure Sig where
  d : Kind := Kind.null
  a : Kind := Kind.null
  b : Kind := Kind.null
  c : Kind := Kind.null
  deriving DecidableEq, Repr

/-- Operand b of `atom` and `red` (R280): for `cas` a register group that holds b and c. -/
def atomSrc (t : ATy) (op : AOp) : Kind :=
  if op == .cas then { v := true, s := true, span := 2 * t.regs, align := 2 * t.regs }
  else { v := true, s := true, inline := t.regs != 4, span := t.regs, align := t.regs }

/-- An operand of `atoms` (R163). -/
def atomsSrc (t : ATy) : Kind := { v := true, s := true, inline := true, span := t.regs, align := t.regs }

/-- A destination that may be an s register, a p register, or discard: that of `scmp` (R152). -/
def scmpDst : Kind := { s := true, p := true, none := true }

/-- The operand fields of each instruction, as its entry gives them. Discard is legal wherever the entry has a destination (R18), unless the
entry calls every other value of `dst` ILLEGAL_OPERAND (R276, R400, R401) or its own table names 0x1FF for another form and not for this one
(R309, R328): DEDUCED, log entry 44. Events have none. -/
def Instr.sig : Instr → Sig
  | .nop _ => {}
  | .iadd _ t _ | .isub _ t _ | .imul _ t _ | .imulhi _ t | .imin _ t | .imax _ t =>
    { d := .vecNull t.regs, a := .any t.regs, b := .any t.regs }
  | .imad _ t _ => { d := .vecNull t.regs, a := .any t.regs, b := .any t.regs, c := .any t.regs }
  | .iabs _ t _ | .ineg _ t _ | .not _ t | .brev _ t => { d := .vecNull t.regs, a := .any t.regs }
  | .shl _ t _ | .shr _ t _ | .sar _ t _ | .rot _ t => { d := .vecNull t.regs, a := .any t.regs, b := .any 1 }
  | .and _ t | .or _ t | .xor _ t => { d := .vecNull t.regs, a := .any t.regs, b := .any t.regs }
  | .lut3 _ w _ =>
    let r := if w then 2 else 1
    { d := .vecNull r, a := .any r, b := .any r, c := .any r }
  | .popc _ t | .clz _ t => { d := .vecNull 1, a := .any t.regs }
  | .bfe _ t => { d := .vecNull t.regs, a := .any t.regs, b := .any 1, c := .any 1 }
  | .bfi _ t => { d := .vecNull t.regs, a := .any t.regs, b := .any 1, c := .any t.regs }
  | .icmp _ t _ => { d := { v := true, p := true, none := true }, a := .any t.regs, b := .any t.regs }
  | .sel _ t => { d := .vecNull t.regs, a := .any t.regs, b := .any t.regs, c := .any 1 }
  | .mov _ t =>
    { d := .vecNull t.regs, a := if t == .b128 then .vecScaNull 4 else .any t.regs }
  | .iaddc _ t _ => { d := .vecNull t.regs, a := .any t.regs, b := .any t.regs }
  | .lea _ _ _ => { d := .vecNull 2, a := .any 2, b := .any 1 }
  | .imadWide _ _ _ => { d := .vecNull 2, a := .any 1, b := .any 1, c := .any 2 }
  | .prmt _ | .isad _ _ _ => { d := .vecNull 1, a := .any 1, b := .any 1, c := .any 1 }
  | .fadd _ _ _ | .fsub _ _ _ | .fmul _ _ _ | .fmin _ _ _ | .fmax _ _ _ | .fdiv _ _ _ | .fscale _ _ _ =>
    { d := .vecNull 1, a := .any 1, b := .any 1 }
  | .ffma _ _ _ | .fdot2 _ _ _ => { d := .vecNull 1, a := .any 1, b := .any 1, c := .any 1 }
  | .frcp _ _ _ | .frsq _ _ _ | .fsqrt _ _ _ | .fex2 _ _ _ | .flg2 _ _ _ | .fsin _ _ _ | .fcos _ _ _ | .ffrac _ _ _
  | .fround _ _ _ => { d := .vecNull 1, a := .any 1 }
  | .fcmp _ _ _ _ _ => { d := { v := true, p := true, none := true }, a := .any 1, b := .any 1 }
  | .fclass x _ =>
    { d := { v := true, p := true, none := true }, a := .any 1, b := match x.d with | .v _ => .null | _ => .any 1 }
  | .cvt _ d s _ _ => { d := .vecNull d.regs, a := .any s.regs }
  | .cvtNfEnc _ _ _ sc _ => { d := .vecNull 1, a := .any 1, b := if sc then .any 1 else .null, c := .any 1 }
  | .cvtNfDec _ _ _ sc _ | .unpkNf _ _ _ sc _ =>
    { d := .vecNull 1, a := .nf, b := if sc then .any 1 else .null }
  | .cvtNfb _ _ _ _ => { d := .vecNull 1, a := .any 1, b := .scaImm }
  | .fmtSet _ _ => { a := .scaImm }
  | .fmtGet _ _ => { d := .vecScaNull 1 }
  | .flagsGet _ => { d := .vecNull 1 }
  | .flagsClr _ => { a := .any 1 }
  | .pack _ _ _ => { d := .vecNull 1, a := .any 1, b := .any 1 }
  | .unpack _ _ _ => { d := .vecNull 1, a := .any 1 }
  | .sadd _ t _ | .ssub _ t _ | .smul _ t _ | .sand _ t | .sor _ t | .sxor _ t =>
    { d := .scaNull t.regs, a := .uniform t.regs, b := .uniform t.regs }
  | .sshl _ t _ | .sshr _ t _ _ => { d := .scaNull t.regs, a := .uniform t.regs, b := .uniform 1 }
  | .scmp _ t _ => { d := scmpDst, a := .uniform t.regs, b := .uniform t.regs }
  | .smov _ t => { d := .scaNull t.regs, a := .uniform t.regs }
  | .sld _ w => { d := .scaNull w.regs, a := .sca 2 }
  | .rfl _ w => let r := if w then 2 else 1; { d := .scaNull r, a := .vec r }
  | .ballot _ => { d := .scaNull 4, a := { v := true, p := true } }
  | .agree _ _ => { d := .flag, a := { v := true, p := true } }
  | .xlane _ m _ w =>
    let r := if w then 2 else 1
    { d := .vecNull r, a := .vec r, b := if m == .rev then .null else .any 1, c := .vecNull r }
  | .lred _ _ t =>
    { d := .vecScaNull t.regs
      a := { v := true, s := true, inline := true, imm := true, span := t.regs, align := t.regs } }
  | .bra _ | .exit _ | .reform _ | .brd _ | .yield _ | .trap _ _ | .brk _ => {}
  | .brx _ | .ret _ => { a := .vecSca 2 }
  | .call _ => { d := .vecNull 2 }
  | .jenr _ | .jenrSet _ | .jpark _ | .jstrike _ => { d := .mask }
  | .jstrikeAll _ => {}
  | .nap _ => { a := .any 1 }
  | .ld _ w _ _ => { d := .vecNull w.regs, a := .scaNull 2, b := .vecNull 1 }
  | .st _ w _ _ => { a := .scaNull 2, b := .vecNull 1, c := .data w.regs }
  | .ldl _ w => { d := .vecNull w.regs, b := .vecNull 1 }
  | .stl _ w => { b := .vecNull 1, c := .data w.regs }
  | .ldc x w =>
    { d := .vecScaNull w.regs, a := .scaNull 2, b := match x.d with | .s _ => .null | _ => .vecNull 1 }
  | .pref _ _ _ => { a := .scaNull 2, b := .vecNull 1 }
  | .lds _ w _ => { d := .vecNull w.regs, a := .scaNull 2, b := .vecNull 1 }
  | .sts _ w _ => { a := .scaNull 2, b := .vecNull 1, c := .data w.regs }
  | .atoms _ t op =>
    { d := .vecNull t.regs, a := { v := true, s := true, span := 1, align := 1 }
      b := atomsSrc t, c := if op == .cas then atomsSrc t else .null }
  | .spstat _ k => { d := .scaNull (if k.toNat < 3 then 2 else 1) }
  | .ldsRem _ w _ _ _ => { d := .vecNull w.regs, a := .scaNull 2, b := .vecNull 1 }
  | .stsRem _ w _ _ _ => { a := .scaNull 2, b := .vecNull 1, c := .data w.regs }
  | .stsRemArr _ _ _ _ => {}
  | .atom _ t op _ => { d := .vecNull t.regs, a := .scaNull 2, b := .vecNull 1, c := atomSrc t op }
  | .red _ t op _ => { a := .scaNull 2, b := .vecNull 1, c := atomSrc t op }
  | .waitcmp _ t _ =>
    { d := .pred, a := .sca 2, b := .scaInl t.regs, c := { s := true, inline := true, none := true } }
  | .fence _ _ | .pbar _ _ => {}
  | .cleanR _ | .invR _ | .flushR _ => { a := .sca 2, b := .scaInl 1 }
  | .fhz _ => { d := .vecScaNull 1 }
  | .bbind _ _ _ => { a := .scaImm }
  | .bunbind _ _ | .bblk _ | .ringBind _ _ _ | .ringRel _ _ => {}
  | .barr _ _ | .barrb _ _ | .ringPut _ _ => { a := .scaImmNull }
  | .bwait _ _ => { a := .phase }
  | .btest _ _ => { d := .flag }
  | .bwaitt _ _ => { d := .pred, a := .phase, b := .scaImm }
  | .bexp _ _ _ _ => { a := .scaImm }
  | .ringAcq _ _ | .ringGet _ _ => { d := .vecScaNull 1 }
  | .cpy _ _ _ _ | .cpyX _ _ _ _ | .cpyC _ _ _ _ => { a := .sca 2, b := .scaImm, c := .sca 4 }
  | .cpyGl _ => { a := .sca 2, b := .scaImm, c := .sca 2 }
  | .cpyFan _ _ _ => { a := .vec 2, b := .vec 2, c := .sca 4 }
  | .publ _ | .publDrop _ => { a := .sca 1 }
  | .scbdCnt _ => { d := .sca 1 }
  | .scbdWait _ => { d := .scaNull 1 }
  | .scbdQ _ => { d := .vecSca 1, a := { v := true, s := true, inline := true, imm := true } }
  | .shdwOpen _ => { d := .scaNull 1, a := .sca 2, b := { s := true, imm := true } }
  | .cpySealEnc _ | .cpySealDec _ => { a := .sca 2 }
  | .bkAdd _ _ _ | .bkMul _ _ _ | .bkFma _ _ _ | .bkRed _ _ _ _ | .bkCmp _ _ _ _ => { a := .sca 8, b := .scaImm }
  | .bkScale _ _ _ | .bkFill _ _ => { a := .sca 8, b := .scaImm, c := .scaImm }
  | .bkWait _ => { d := .scaNull 1 }
  | .obres _ _ => { a := .sca 4 }
  | .obrel _ _ | .obld _ _ => {}
  | .obldX _ _ => { a := .sca 2 }
  | .mma _ _ _ _ | .mmas _ _ _ _ _ => { a := .matUni, b := .matUni }
  | .accZero _ _ _ => {}
  | .accLd _ _ _ _ | .accSt _ _ _ _ _ => { a := .sca 2, b := .vecNull 1, c := .matUni }
  | .accStat _ _ _ => { d := .vecScaNull 1 }
  | .accRenorm _ _ | .accScale _ _ => { a := { v := true, s := true, inline := true, imm := true, none := true } }
  | .accTmask _ _ => { a := .vec 2, b := .matUni }
  | .accRmax _ _ _ => { d := .vecNull 1, a := .matUni }
  | .accMode _ _ => { a := .scaImmNull }
  | .conftest _ _ => { d := .pred, a := .vec 2, b := .vec 1, c := .sca 2 }
  | .bkfill _ _ => { d := .scaNull 1 }
  | .bkfillReg _ _ => { d := .scaNull 1, a := .sca 2 }
  | .bkwait _ _ => { d := .scaNull 1, a := .scaImm }
  | .wqPush _ _ _ _ => { a := .vecSca 2 }
  | .wqPull _ _ _ _ => { d := .vecSca 2 }
  | .wqStatCnt _ _ | .wqStatClose _ _ | .wqStatOpen _ _ => { d := .scaNull 1 }
  | .launch _ _ | .launchArr _ _ => { d := .scaNull 2, a := .sca 2 }
  | .lqStat _ => { d := .scaNull 4, a := .scaImm }
  | .leaseQStat _ => { d := .sca 4, a := .scaImm }
  | .leaseQWait _ => { d := .sca 4, a := .scaImm, b := .scaImmNull }
  | .leaseQRel _ => { d := .scaNull 1, a := .scaImm }
  | .keyhGen _ _ => { d := .scaNull 2 }
  | .keyhImp _ _ => { d := .scaNull 2, a := .sca 2 }
  | .keyhRev _ | .keyhQry _ => { d := .scaNull 2, a := { s := true, imm := true } }
  | .migAckTake _ => { d := .sca 8 }
  | .migAckRearm _ | .migAckQuiet _ => { d := .scaNull 1, a := .scaImm }
  | .sysrd _ r => { d := .vecScaNull (sysRegs r) }
  | .syswr _ r => { a := .any (sysRegs r) }
  | .tret _ | .tretNext _ | .tretStrike _ | .presig _ => {}
  | .oplogRd _ _ _ => { d := .vecNull 1 }
  | .faultRdSeq _ | .faultRdTake _ | .faultRdFree _ =>
    { d := { s := true, span := 12, align := 4 }, a := .scaImmNull }
  | .faultCancel _ m => { d := .scaNull 1, a := .scaImmNull, b := if m == .core then .sca 2 else .null }
  | .tlbinv _ m =>
    match m with
    | .all => {}
    | .dom | .as => { a := .scaImm }
    | .va => { a := .sca 2, b := .sca 2, c := .scaImm }
  | .diectlReset _ | .diectlStat _ => { d := .scaNull 1, a := .scaInl 1 }
  | .snuff _ => { d := .scaNull 2, a := .sca 2, b := .scaInl 1, c := .scaImm }
  | .haltOff _ | .haltReboot _ => {}
  | _ => {}

/-- The operand fields of an instruction; none for an event. -/
def Instr.opnds? : Instr → Option Opnds
  | .nop x | .iadd x _ _ | .isub x _ _ | .imul x _ _ | .imulhi x _ | .imad x _ _ | .imin x _ | .imax x _ | .iabs x _ _
  | .ineg x _ _ | .shl x _ _ | .shr x _ _ | .sar x _ _ | .rot x _ | .and x _ | .or x _ | .xor x _ | .not x _ | .lut3 x _ _
  | .popc x _ | .clz x _ | .brev x _ | .bfe x _ | .bfi x _ | .icmp x _ _ | .sel x _ | .mov x _ | .iaddc x _ _ | .lea x _ _
  | .imadWide x _ _ | .prmt x | .isad x _ _ => some x
  | .fadd x _ _ | .fsub x _ _ | .fmul x _ _ | .ffma x _ _ | .fmin x _ _ | .fmax x _ _ | .fcmp x _ _ _ _ | .frcp x _ _
  | .frsq x _ _ | .fsqrt x _ _ | .fex2 x _ _ | .flg2 x _ _ | .fsin x _ _ | .fcos x _ _ | .fdiv x _ _ | .ffrac x _ _
  | .fround x _ _ | .fclass x _ | .fscale x _ _ | .fdot2 x _ _ => some x
  | .cvt x _ _ _ _ | .cvtNfEnc x _ _ _ _ | .cvtNfDec x _ _ _ _ | .cvtNfb x _ _ _ | .unpkNf x _ _ _ _ | .fmtSet x _
  | .fmtGet x _ | .flagsGet x | .flagsClr x | .pack x _ _ | .unpack x _ _ => some x
  | .sadd x _ _ | .ssub x _ _ | .smul x _ _ | .sand x _ | .sor x _ | .sxor x _ | .sshl x _ _ | .sshr x _ _ _ | .scmp x _ _
  | .smov x _ | .sld x _ | .rfl x _ | .ballot x | .agree x _ | .xlane x _ _ _ | .lred x _ _ => some x
  | .bra x | .brx x | .call x | .ret x | .exit x | .jenr x | .jenrSet x | .jpark x | .jstrike x | .jstrikeAll x | .reform x
  | .brd x | .yield x | .trap x _ | .brk x | .nap x => some x
  | .ld x _ _ _ | .st x _ _ _ | .ldl x _ | .stl x _ | .ldc x _ | .pref x _ _ | .lds x _ _ | .sts x _ _ | .atoms x _ _
  | .spstat x _ | .ldsRem x _ _ _ _ | .stsRem x _ _ _ _ | .stsRemArr x _ _ _ => some x
  | .atom x _ _ _ | .red x _ _ _ | .waitcmp x _ _ | .fence x _ | .pbar x _ | .cleanR x | .invR x | .flushR x | .fhz x => some x
  | .bbind x _ _ | .bunbind x _ | .barr x _ | .barrb x _ | .bwait x _ | .btest x _ | .bwaitt x _ | .bblk x | .bexp x _ _ _
  | .ringBind x _ _ | .ringAcq x _ | .ringPut x _ | .ringGet x _ | .ringRel x _ => some x
  | .cpy x _ _ _ | .cpyX x _ _ _ | .cpyC x _ _ _ | .cpyGl x | .cpyFan x _ _ | .publ x | .publDrop x | .scbdCnt x | .scbdQ x
  | .scbdWait x | .shdwOpen x | .cpySealEnc x | .cpySealDec x => some x
  | .bkAdd x _ _ | .bkMul x _ _ | .bkFma x _ _ | .bkRed x _ _ _ | .bkScale x _ _ | .bkCmp x _ _ _ | .bkFill x _
  | .bkWait x => some x
  | .obres x _ | .obrel x _ | .obld x _ | .obldX x _ | .mma x _ _ _ | .mmas x _ _ _ _ | .accZero x _ _ | .accLd x _ _ _
  | .accSt x _ _ _ _ | .accStat x _ _ | .accRenorm x _ | .accTmask x _ | .accScale x _ | .accRmax x _ _
  | .accMode x _ => some x
  | .conftest x _ | .bkfill x _ | .bkfillReg x _ | .bkwait x _ | .wqPush x _ _ _ | .wqPull x _ _ _ | .wqStatCnt x _
  | .wqStatClose x _ | .wqStatOpen x _ | .launch x _ | .launchArr x _ | .lqStat x => some x
  | .leaseQStat x | .leaseQWait x | .leaseQRel x | .keyhGen x _ | .keyhImp x _ | .keyhRev x | .keyhQry x | .migAckTake x
  | .migAckRearm x | .migAckQuiet x => some x
  | .sysrd x _ | .syswr x _ | .tret x | .tretNext x | .tretStrike x | .presig x | .oplogRd x _ _ | .faultRdSeq x
  | .faultRdTake x | .faultRdFree x | .faultCancel x _ | .tlbinv x _ | .diectlReset x | .diectlStat x | .snuff x | .haltOff x
  | .haltReboot x => some x
  | _ => none

/-! ### Lengths (R14, R15, R26) -/

/-- Some source names an immediate. -/
def Opnds.namesImm (x : Opnds) : Bool :=
  [x.a, x.b, x.c].any fun s => match s with | .imm _ => true | _ => false

/-- 64 bits and the widening to 96 (R15). -/
def Opnds.short (x : Opnds) : Bool := match x.ext with | .e128 .. => false | _ => true

/-- 64 and 96 bits, and 128 when a source names an immediate (R76). -/
def Opnds.immForm (x : Opnds) : Bool := x.short || x.namesImm

/-- 64 and 96 bits, and 128 when a source names an immediate in a field that the entry leaves open to one (R410). -/
def Opnds.openForm (x : Opnds) (k : Sig) : Bool :=
  let is (s : Src) : Bool := match s with | .imm _ => true | _ => false
  x.short || (is x.a && k.a.imm) || (is x.b && k.b.imm) || (is x.c && k.c.imm)

/-- 96 bits only (R94, R96, R159). -/
def Opnds.only96 (x : Opnds) : Bool := match x.ext with | .e96 _ => true | _ => false

/-! ### Rows of the entries' tables -/

/-- The types S of R78. -/
def ITy.isS : ITy → Bool
  | .s32 | .n32 | .s64 | .n64 | .s16 | .n16 | .s8 | .n8 => true
  | _ => false

/-- The types B of R78. -/
def ITy.isB : ITy → Bool
  | .b32 | .b64 => true
  | _ => false

/-- The 32- and 64-bit .s and .n types. -/
def ITy.isW : ITy → Bool
  | .s32 | .n32 | .s64 | .n64 => true
  | _ => false

/-- B types compare for equality only (R78). -/
def Cc.equality : Cc → Bool
  | .eq | .ne => true
  | _ => false

/-- The modifiers of R82 that a row does not give must be 0. -/
def FMods.within (m : FMods) (rnd sat negb negc : Bool) : Bool :=
  (rnd || m.rnd == .rn) && (sat || !m.sat) && (negb || !m.negb) && (negc || !m.negc)

/-- The widths that stores accept (R102). -/
def MWidth.storable : MWidth → Bool
  | .s8 | .s16 => false
  | _ => true

/-- The combinations of R163; `b128` those that R280 adds. -/
def AOp.okFor (op : AOp) (t : ATy) (b128 : Bool) : Bool :=
  match op with
  | .add | .min | .max => t == .s32 || t == .n32 || t == .s64 || t == .n64
  | .and | .or | .xor => t == .b32 || t == .b64
  | .exch | .cas => t == .b32 || t == .b64 || (b128 && t == .b128)
  | .fadd => t == .f32

/-- FP types of bank commands (R310). -/
def BkTy.isF : BkTy → Bool
  | .f32 | .f16 | .bf16 => true
  | _ => false

/-- `bk.rnd` is 0 for the types that are not FP (R310). -/
def BkTy.rndOk (t : BkTy) (r : Rnd) : Bool := t.isF || r == .rn

/-- Reserved extension bits of `mma` and `mmas` (R220). -/
def mmaExtOk : Ext → Bool
  | .e128 lo hi => lo.toNat / 128 % 2 == 0 && lo.toNat / 2 ^ 14 == 0 && hi == 0
  | _ => false

/-- The extension bits of `sts.rem` (R243): `rm.only` is `only`, and needs `rm.arr`. -/
def remExtOk (only : Bool) : Ext → Bool
  | .e128 _ hi =>
    hi.toNat / 64 == 0 && (hi.toNat / 32 % 2 == 1) == only && (!only || hi.toNat / 16 % 2 == 1)
  | _ => !only

/-- The instruction's opcode, `fn`, length and extension bits are ones that its entry lists (R26). Events have no form. -/
def Instr.formOk (i : Instr) : Bool :=
  match i with
  | .nop _ => true
  | .iadd x t _ | .isub x t _ | .imul x t _ | .imulhi x t | .imad x t _ | .imin x t | .imax x t => x.immForm && t.isS
  | .iabs x t _ | .ineg x t _ => x.immForm && t.isS && t.signed
  | .shl x t _ | .shr x t _ | .rot x t | .and x t | .or x t | .xor x t | .not x t | .popc x t | .clz x t | .brev x t
  | .bfi x t | .sel x t => x.immForm && t.isB
  | .sar x t _ => x.immForm && (t == .s32 || t == .s64)
  | .lut3 x _ _ | .prmt x => x.immForm
  | .bfe x t => x.immForm && t.isW
  | .icmp x t cc => x.immForm && (t.isS || (t.isB && cc.equality))
  | .mov x t => x.immForm && (t.isB || t == .b128)
  | .iaddc x t _ => x.immForm && (t == .n32 || t == .n64)
  | .lea x t _ | .imadWide x t _ => x.immForm && (t == .s32 || t == .n32)
  | .isad x t _ => x.immForm && t.isS && t.bits != 64
  | .fadd x _ m | .fsub x _ m | .fmul x _ m | .fdiv x _ m => x.immForm && m.within true true true false
  | .ffma x _ m => x.immForm && m.within true true true true
  | .fmin x _ m | .fmax x _ m => x.immForm && m.within false false true false
  | .frcp x _ m | .frsq x _ m | .fsqrt x _ m | .fex2 x _ m | .flg2 x _ m | .fsin x _ m | .fcos x _ m | .fscale x _ m =>
    x.immForm && m.within true true false false
  | .ffrac x _ m => x.immForm && m.within false false false false
  | .fround x _ m => x.immForm && m.within true false false false
  | .fdot2 x t m => x.immForm && (t == .f16x2 || t == .bf16x2) && m.within true true true true
  | .fcmp x _ _ _ _ | .fclass x _ => x.immForm
  | .cvt x d s rnd sat =>
    x.openForm i.sig && (if s.isInt && d.isInt then rnd == .rn else if d.isInt then !sat else true)
  | .cvtNfEnc x _ _ _ _ | .cvtNfDec x _ _ _ _ | .cvtNfb x _ _ _ | .unpkNf x _ _ _ _ | .fmtSet x _ | .fmtGet x _
  | .flagsGet x | .flagsClr x | .unpack x _ _ => x.openForm i.sig
  | .pack x t rnd => x.openForm i.sig && (t != .b16 || rnd == .rn)
  | .sadd _ t _ | .ssub _ t _ | .smul _ t _ => t.isW
  | .sand _ t | .sor _ t | .sxor _ t | .sshl _ t _ | .sshr _ t _ _ | .smov _ t => t.isB
  | .scmp _ t cc => t.isW || (t.isB && cc.equality)
  | .sld x _ | .rfl x _ | .ballot x | .agree x _ => x.short
  | .xlane x _ _ _ => x.openForm i.sig
  | .lred x op t =>
    x.immForm && (match op with
      | .add | .min | .max => t.isW
      | .and | .or | .xor => t.isB
      | .fadd | .fmin | .fmax => t == .s32)
  | .bra x | .call x | .brd x => x.only96
  | .brx x | .ret x | .exit x | .jenr x | .jenrSet x | .jpark x | .jstrike x | .jstrikeAll x | .reform x | .yield x
  | .trap x _ | .brk x => x.short
  | .nap x => x.immForm
  | .ld x _ _ _ | .ldl x _ | .ldc x _ | .pref x _ _ | .lds x _ _ | .ldsRem x _ _ _ _ => x.short
  | .st x w _ _ | .stl x w | .sts x w _ => x.short && w.storable
  | .atoms x t op => x.short && op.okFor t false
  | .spstat x k => x.short && k.toNat ≤ 4
  | .stsRem x w _ _ _ => w.storable && remExtOk false x.ext
  | .stsRemArr x _ _ _ => remExtOk true x.ext
  | .atom x t op _ => x.short && op.okFor t true
  | .red x t op ord =>
    x.short && op.okFor t false && op != .exch && op != .cas && (ord == .none || ord == .rel)
  | .waitcmp x t cc =>
    x.short && (t == .s32 || t == .n32 || t == .s64 || t == .n64 || ((t == .b32 || t == .b64) && cc.equality))
  | .fence x m => x.short && m.toNat ≤ 5
  | .pbar x _ | .cleanR x | .invR x | .flushR x | .fhz x => x.short
  | .bbind x _ _ | .bunbind x _ | .barr x _ | .barrb x _ | .bwait x _ | .btest x _ | .bwaitt x _ | .bblk x | .bexp x _ _ _
  | .ringBind x _ _ | .ringAcq x _ | .ringPut x _ | .ringGet x _ | .ringRel x _ => x.short
  | .cpy x n ns _ | .cpyX x n ns _ | .cpyC x n ns _ => x.short && (!ns || n == 0)
  | .cpyGl x | .cpyFan x _ _ | .publ x | .publDrop x | .scbdCnt x | .scbdQ x | .scbdWait x | .shdwOpen x | .cpySealEnc x
  | .cpySealDec x => x.short
  | .bkAdd x t r | .bkMul x t r | .bkCmp x t r _ => x.short && (t.isF || t == .s32) && t.rndOk r
  | .bkFma x t _ | .bkScale x t _ => x.short && t.isF
  | .bkRed x t r _ => x.short && (t == .f32 || t == .s32) && t.rndOk r
  | .bkFill x t => x.short && (t == .b32 || t == .b16 || t == .b8)
  | .bkWait x => x.short
  | .obres x _ | .obrel x _ | .obld x _ | .obldX x _ | .accZero x _ _ | .accLd x _ _ _ | .accSt x _ _ _ _ | .accStat x _ _
  | .accRenorm x _ | .accTmask x _ | .accScale x _ | .accRmax x _ _ | .accMode x _ => x.short
  | .mma x _ _ _ | .mmas x _ _ _ _ => mmaExtOk x.ext
  | .conftest x _ | .bkfill x _ | .bkfillReg x _ | .bkwait x _ | .wqPush x _ _ _ | .wqPull x _ _ _ | .wqStatCnt x _
  | .wqStatClose x _ | .wqStatOpen x _ | .launch x _ | .launchArr x _ => x.short
  | .lqStat x => x.openForm i.sig
  | .leaseQStat x | .leaseQWait x | .leaseQRel x | .keyhGen x _ | .keyhImp x _ | .keyhRev x | .keyhQry x | .migAckTake x
  | .migAckRearm x | .migAckQuiet x => x.short
  | .sysrd x r | .syswr x r => x.short && (sysBits r.toNat).isSome
  | .tret x | .tretNext x | .tretStrike x | .presig x | .oplogRd x _ _ | .faultRdSeq x | .faultRdTake x | .faultRdFree x
  | .faultCancel x _ | .tlbinv x _ | .diectlReset x | .diectlStat x | .snuff x | .haltOff x | .haltReboot x => x.short
  | _ => false

/-- The offset of a branch is a multiple of 4 (R94). -/
def Ext.offsetOk : Ext → Bool
  | .e96 imm => imm.toNat % 4 == 0
  | _ => true

/-- Operand checks beyond the kinds of the fields. -/
def Instr.extraOk : Instr → Bool
  | .bra x | .call x | .brd x => x.ext.offsetOk
  | .faultRdSeq x | .faultRdTake x | .faultRdFree x => match x.d with | .s n => n.toNat + 11 ≤ 63 | _ => false
  | .atoms x _ _ => match x.a with | .s n => n.toNat % 2 == 0 | _ => true
  | _ => true

/-- Every operand field holds a value that the entry accepts (R29 item 5), but for the checks that depend on the launch. -/
def Instr.operandsOk (i : Instr) : Bool :=
  match i.opnds? with
  | none => false
  | some x =>
    let k := i.sig
    k.d.okDst x.d && k.a.okSrc x.ext x.a && k.b.okSrc x.ext x.b && k.c.okSrc x.ext x.c && i.extraOk

/-- A legal instruction. -/
def Instr.wf (i : Instr) : Bool := i.formOk && i.operandsOk

end Sys2Proof
end

