-- ==== Sys2Proof/Decode.lean ====
section
/-! DEFINITION. Decode.lean: the decoder, total on any bytes, and after it the encoder, both written from the encoding tables
(R12 to R30 and each entry's `fn` layout). All instruction bits are numbered from bit 0 of the lowest-addressed byte (R6, R13),
so an instruction is held here as one number, its bytes read little-endian. -/

namespace Sys2Proof

/-! ### Field codes -/

/-- Integer types (R77). -/
def ITy.code : ITy → Nat
  | .s32 => 0 | .n32 => 1 | .s64 => 2 | .n64 => 3 | .s16 => 4 | .n16 => 5 | .s8 => 6 | .n8 => 7 | .b32 => 8 | .b64 => 9
  | .b128 => 10

/-- Reading of R77. -/
def ityOf : Nat → Option ITy
  | 0 => some .s32 | 1 => some .n32 | 2 => some .s64 | 3 => some .n64 | 4 => some .s16 | 5 => some .n16 | 6 => some .s8
  | 7 => some .n8 | 8 => some .b32 | 9 => some .b64 | 10 => some .b128 | _ => none

/-- Comparisons (R78). -/
def Cc.code : Cc → Nat
  | .eq => 0 | .ne => 1 | .lt => 2 | .le => 3 | .gt => 4 | .ge => 5

/-- Reading of R78's cc. -/
def ccOf : Nat → Option Cc
  | 0 => some .eq | 1 => some .ne | 2 => some .lt | 3 => some .le | 4 => some .gt | 5 => some .ge | _ => none

/-- FP types (R81). -/
def FTy.code : FTy → Nat
  | .f32 => 0 | .f16 => 1 | .bf16 => 2 | .f16x2 => 3 | .bf16x2 => 4

/-- Reading of R81. -/
def ftyOf : Nat → Option FTy
  | 0 => some .f32 | 1 => some .f16 | 2 => some .bf16 | 3 => some .f16x2 | 4 => some .bf16x2 | _ => none

/-- Scalar FP types (R85, R88). -/
def FFmt.code : FFmt → Nat
  | .f32 => 0 | .f16 => 1 | .bf16 => 2

/-- Reading of a scalar FP type. -/
def ffmtOf : Nat → Option FFmt
  | 0 => some .f32 | 1 => some .f16 | 2 => some .bf16 | _ => none

/-- Rounding modes (R56). -/
def Rnd.code : Rnd → Nat
  | .rn => 0 | .rz => 1 | .rm => 2 | .rp => 3

/-- Reading of R56; every two-bit code is a mode. -/
def rndOf : Nat → Rnd
  | 0 => .rn | 1 => .rz | 2 => .rm | _ => .rp

/-- FP comparisons (R85). -/
def Fcc.code : Fcc → Nat
  | .eq => 0 | .ne => 1 | .lt => 2 | .le => 3 | .gt => 4 | .ge => 5 | .ord => 6 | .uno => 7

/-- Reading of R85's cc; every three-bit code is one. -/
def fccOf : Nat → Fcc
  | 0 => .eq | 1 => .ne | 2 => .lt | 3 => .le | 4 => .gt | 5 => .ge | 6 => .ord | _ => .uno

/-- Conversion types (R87). -/
def CTy.code : CTy → Nat
  | .s32 => 0 | .n32 => 1 | .s64 => 2 | .n64 => 3 | .s16 => 4 | .n16 => 5 | .s8 => 6 | .n8 => 7 | .f32 => 8 | .f16 => 9
  | .bf16 => 10

/-- Reading of R87. -/
def ctyOf : Nat → Option CTy
  | 0 => some .s32 | 1 => some .n32 | 2 => some .s64 | 3 => some .n64 | 4 => some .s16 | 5 => some .n16 | 6 => some .s8
  | 7 => some .n8 | 8 => some .f32 | 9 => some .f16 | 10 => some .bf16 | _ => none

/-- Types of `pack` (R93). -/
def PackTy.code : PackTy → Nat
  | .b16 => 0 | .f16x2 => 3 | .bf16x2 => 4

/-- Reading of `pack`'s type. -/
def packTyOf : Nat → Option PackTy
  | 0 => some .b16 | 3 => some .f16x2 | 4 => some .bf16x2 | _ => none

/-- Types of `unpack` (R93). -/
def UnpTy.code : UnpTy → Nat
  | .n16 => 0 | .s16 => 1 | .f16x2 => 3 | .bf16x2 => 4

/-- Reading of `unpack`'s type. -/
def unpTyOf : Nat → Option UnpTy
  | 0 => some .n16 | 1 => some .s16 | 3 => some .f16x2 | 4 => some .bf16x2 | _ => none

/-- Block lengths (R89). -/
def BlkLen.code : BlkLen → Nat
  | .b8 => 0 | .b16 => 1 | .b32 => 2 | .b64 => 3

/-- Reading of a block length. -/
def blkLenOf : Nat → BlkLen
  | 0 => .b8 | 1 => .b16 | 2 => .b32 | _ => .b64

/-- Modes of `agree` (R156). -/
def AgreeMode.code : AgreeMode → Nat
  | .every => 0 | .some => 1 | .same => 2 | .none => 3

/-- Reading of `agree`'s mode. -/
def agreeOf : Nat → AgreeMode
  | 0 => .every | 1 => .some | 2 => .same | _ => .none

/-- Modes of `xlane` (R157). -/
def XMode.code : XMode → Nat
  | .pick => 0 | .rot => 1 | .flip => 2 | .rev => 3

/-- Reading of `xlane`'s mode. -/
def xmodeOf : Nat → XMode
  | 0 => .pick | 1 => .rot | 2 => .flip | _ => .rev

/-- Segments of `xlane` (R157). -/
def Seg.code : Seg → Nat
  | .w128 => 0 | .w64 => 1 | .w32 => 2 | .w16 => 3 | .w8 => 4

/-- Reading of a segment. -/
def segOf : Nat → Option Seg
  | 0 => some .w128 | 1 => some .w64 | 2 => some .w32 | 3 => some .w16 | 4 => some .w8 | _ => none

/-- Operations of `lred` (R158). -/
def RedOp.code : RedOp → Nat
  | .add => 0 | .min => 1 | .max => 2 | .and => 3 | .or => 4 | .xor => 5 | .fadd => 6 | .fmin => 7 | .fmax => 8

/-- Reading of `lred`'s operation. -/
def redOpOf : Nat → Option RedOp
  | 0 => some .add | 1 => some .min | 2 => some .max | 3 => some .and | 4 => some .or | 5 => some .xor | 6 => some .fadd
  | 7 => some .fmin | 8 => some .fmax | _ => none

/-- Widths of accesses (R102). -/
def MWidth.code : MWidth → Nat
  | .n8 => 0 | .s8 => 1 | .n16 => 2 | .s16 => 3 | .b32 => 4 | .b64 => 5 | .b128 => 6

/-- Reading of R102's width. -/
def mwidthOf : Nat → Option MWidth
  | 0 => some .n8 | 1 => some .s8 | 2 => some .n16 | 3 => some .s16 | 4 => some .b32 | 5 => some .b64 | 6 => some .b128
  | _ => none

/-- Hints (R102). -/
def Hint.code : Hint → Nat
  | .none => 0 | .nl1 => 1 | .lu => 2

/-- Reading of a hint. -/
def hintOf : Nat → Option Hint
  | 0 => some .none | 1 => some .nl1 | 2 => some .lu | _ => none

/-- Types of atomics (R163, R280). -/
def ATy.code : ATy → Nat
  | .s32 => 0 | .n32 => 1 | .s64 => 2 | .n64 => 3 | .b32 => 4 | .b64 => 5 | .f32 => 6 | .b128 => 7

/-- Reading of an atomic's type; every three-bit code is one. -/
def atyOf : Nat → ATy
  | 0 => .s32 | 1 => .n32 | 2 => .s64 | 3 => .n64 | 4 => .b32 | 5 => .b64 | 6 => .f32 | _ => .b128

/-- Operations of atomics (R163, R280). -/
def AOp.code : AOp → Nat
  | .add => 0 | .min => 1 | .max => 2 | .and => 3 | .or => 4 | .xor => 5 | .exch => 6 | .cas => 7 | .fadd => 8

/-- Reading of an atomic's operation. -/
def aopOf : Nat → Option AOp
  | 0 => some .add | 1 => some .min | 2 => some .max | 3 => some .and | 4 => some .or | 5 => some .xor | 6 => some .exch
  | 7 => some .cas | 8 => some .fadd | _ => none

/-- Orderings of atomics (R280). -/
def AOrd.code : AOrd → Nat
  | .none => 0 | .acq => 1 | .rel => 2 | .ar => 3

/-- Reading of an ordering. -/
def aordOf : Nat → AOrd
  | 0 => .none | 1 => .acq | 2 => .rel | _ => .ar

/-- Types of bank commands (R310). -/
def BkTy.code : BkTy → Nat
  | .f32 => 0 | .f16 => 1 | .bf16 => 2 | .s32 => 3 | .b32 => 4 | .b16 => 5 | .b8 => 6

/-- Reading of a bank command's type. -/
def bkTyOf : Nat → Option BkTy
  | 0 => some .f32 | 1 => some .f16 | 2 => some .bf16 | 3 => some .s32 | 4 => some .b32 | 5 => some .b16 | 6 => some .b8
  | _ => none

/-- Reductions of `bk.red` (R310). -/
def BkRedOp.code : BkRedOp → Nat
  | .add => 0 | .min => 1 | .max => 2

/-- Reading of a bank reduction. -/
def bkRedOf : Nat → Option BkRedOp
  | 0 => some .add | 1 => some .min | 2 => some .max | _ => none

/-- Elements of `cpy.x` and `cpy.c` (R294). -/
def CpElem.code : CpElem → Nat
  | .bf16 => 0 | .f16 => 1 | .s8 => 2 | .m8 => 3

/-- Reading of an element kind. -/
def cpElemOf : Nat → CpElem
  | 0 => .bf16 | 1 => .f16 | 2 => .s8 | _ => .m8

/-- Forms of `acc.ld` and `acc.st` (R223). -/
def AccForm.code : AccForm → Nat
  | .f32 => 0 | .bf16 => 1 | .raw => 2

/-- Reading of an accumulator form. -/
def accFormOf : Nat → Option AccForm
  | 0 => some .f32 | 1 => some .bf16 | 2 => some .raw | _ => none

/-- Uses of a key (R355). -/
def KeyUse.code : KeyUse → Nat
  | .seal => 0 | .ide => 1 | .mem => 2

/-- Reading of a use. -/
def keyUseOf : Nat → Option KeyUse
  | 0 => some .seal | 1 => some .ide | 2 => some .mem | _ => none

/-- Modes of `fault.cancel` (R277). -/
def CancelMode.code : CancelMode → Nat
  | .none => 0 | .all => 1 | .core => 2

/-- Reading of `fault.cancel`'s mode. -/
def cancelOf : Nat → Option CancelMode
  | 0 => some .none | 1 => some .all | 2 => some .core | _ => none

/-- Modes of `tlbinv` (R278). -/
def TlbMode.code : TlbMode → Nat
  | .all => 0 | .dom => 1 | .as => 2 | .va => 3

/-- Reading of `tlbinv`'s mode. -/
def tlbOf : Nat → TlbMode
  | 0 => .all | 1 => .dom | 2 => .as | _ => .va

/-- Specials by index from 0x50 (R20). -/
def Special.code : Special → Nat
  | .lane => 0 | .home => 1 | .wf k => 2 + k.val | .widLo => 8 | .widHi => 9 | .bundle => 10 | .core => 11 | .cluster => 12
  | .die => 13 | .pkg => 14 | .clkLo => 15 | .clkHi => 16 | .active => 17

/-- Reading of R20. -/
def specialOf (n : Nat) : Option Special :=
  match n with
  | 0 => some .lane | 1 => some .home | 2 => some (.wf 0) | 3 => some (.wf 1) | 4 => some (.wf 2) | 5 => some (.wf 3)
  | 6 => some (.wf 4) | 7 => some (.wf 5) | 8 => some .widLo | 9 => some .widHi | 10 => some .bundle | 11 => some .core
  | 12 => some .cluster | 13 => some .die | 14 => some .pkg | 15 => some .clkLo | 16 => some .clkHi | 17 => some .active
  | _ => none

/-- The 9-bit destination field (R17). -/
def Dst.code : Dst → Nat
  | .v n => n.toNat
  | .s n => 0x100 + n.toNat
  | .p n => 0x140 + n.toNat
  | .j n => 0x148 + n.toNat
  | .discard => 0x1FF

/-- Reading of R17. -/
def dstOf (n : Nat) : Option Dst :=
  if n < 0x100 then some (.v (.ofNat 8 n))
  else if n < 0x140 then some (.s (.ofNat 6 (n - 0x100)))
  else if n < 0x148 then some (.p (.ofNat 3 (n - 0x140)))
  else if n < 0x150 then some (.j (.ofNat 3 (n - 0x148)))
  else if n = 0x1FF then some .discard
  else none

/-- The 10-bit source field (R19, R21). -/
def Src.code : Src → Nat
  | .v n => n.toNat
  | .s n => 0x100 + n.toNat
  | .p n => 0x140 + n.toNat
  | .j n => 0x148 + n.toNat
  | .special x => 0x150 + x.code
  | .null => 0x1FF
  | .inline k => 0x200 + k.toNat
  | .imm sel => 0x300 + sel.val

/-- Reading of R19 and R21. -/
def srcOf (n : Nat) : Option Src :=
  if n < 0x100 then some (.v (.ofNat 8 n))
  else if n < 0x140 then some (.s (.ofNat 6 (n - 0x100)))
  else if n < 0x148 then some (.p (.ofNat 3 (n - 0x140)))
  else if n < 0x150 then some (.j (.ofNat 3 (n - 0x148)))
  else if n < 0x162 then (specialOf (n - 0x150)).map .special
  else if n = 0x1FF then some .null
  else if n < 0x200 then none
  else if n < 0x240 then some (.inline (.ofNat 6 (n - 0x200)))
  else if n < 0x300 then none
  else if n = 0x300 then some (.imm 0)
  else if n = 0x301 then some (.imm 1)
  else if n = 0x302 then some (.imm 2)
  else none

/-! ### The first word and the extension (R13, R14) -/

/-- An instruction's fields, and its extension words. -/
structure Raw where
  op : Nat
  guard : Nat
  dst : Nat
  sa : Nat
  sb : Nat
  sc : Nat
  fn : Nat
  ext : Ext
  deriving DecidableEq, Repr

/-- Bytes of an instruction of the form (R13). -/
def Ext.bytes : Ext → Nat
  | .e64 => 8
  | .e96 _ => 12
  | .e128 .. => 16

/-- The `len` field (R13). -/
def Ext.len : Ext → Nat
  | .e64 => 0
  | .e96 _ => 1
  | .e128 .. => 2

/-- Bytes that `len` announces (R13); none for 0b11. -/
def lenBytes : Nat → Option Nat
  | 0 => some 8 | 1 => some 12 | 2 => some 16 | _ => none

/-- The extension words above the first 64 bits (R14); none for `len` = 0b11. -/
def extOf (len hi : Nat) : Option Ext :=
  match len with
  | 0 => some .e64
  | 1 => some (.e96 (.ofNat 32 hi))
  | 2 => some (.e128 (.ofNat 32 hi) (.ofNat 32 (hi / 2 ^ 32)))
  | _ => none

/-- Bits of the extension words. -/
def Ext.hi : Ext → Nat
  | .e64 => 0
  | .e96 w => w.toNat
  | .e128 lo hi => lo.toNat + 2 ^ 32 * hi.toNat

/-- The fields of R13, read from an instruction's bits. -/
def rawOf (n : Nat) : Option Raw :=
  match extOf (n % 4) (n / 2 ^ 64) with
  | none => none
  | some e =>
    some { op := n / 4 % 256, guard := n / 1024 % 16, dst := n / 2 ^ 14 % 512, sa := n / 2 ^ 23 % 1024
           sb := n / 2 ^ 33 % 1024, sc := n / 2 ^ 43 % 1024, fn := n / 2 ^ 53 % 2048, ext := e }

/-- The bits of the fields of R13. -/
def Raw.bits (r : Raw) : Nat :=
  r.ext.len + 4 * r.op + 1024 * r.guard + 2 ^ 14 * r.dst + 2 ^ 23 * r.sa + 2 ^ 33 * r.sb + 2 ^ 43 * r.sc + 2 ^ 53 * r.fn
    + 2 ^ 64 * r.ext.hi

/-- The guard (R16). -/
def guardOf (n : Nat) : Guard := { neg := n / 8 % 2 == 1, p := .ofNat 3 n }

/-- The guard's code. -/
def Guard.code (g : Guard) : Nat := g.p.toNat + (if g.neg then 8 else 0)

/-- A bit as a number. -/
def bitOf (b : Bool) : Nat := if b then 1 else 0

/-- The FP modifiers of `fn` (R81). -/
def fmodsOf (fn : Nat) : FMods :=
  { rnd := rndOf (fn / 8 % 4), sat := fn / 32 % 2 == 1, absa := fn / 64 % 2 == 1, nega := fn / 128 % 2 == 1
    negb := fn / 256 % 2 == 1, negc := fn / 512 % 2 == 1 }

/-- The bits of the FP modifiers. -/
def FMods.code (m : FMods) : Nat :=
  8 * m.rnd.code + 32 * bitOf m.sat + 64 * bitOf m.absa + 128 * bitOf m.nega + 256 * bitOf m.negb + 512 * bitOf m.negc

/-! ### Parsing `fn` -/

/-- Instructions 0x01 to 0x1F of the layout of R76 (R78); the sub-code must be one that the row gives. -/
def parseInt (op fn : Nat) (x : Opnds) : Option Instr :=
  match ityOf (fn % 16) with
  | none => none
  | some t =>
    let sat := fn / 16 % 2 == 1
    let sub := fn / 32 % 8
    let cp := fn / 256 % 8
    let plain (i : Instr) : Option Instr := if !sat && sub == 0 && cp == 0 then some i else none
    let withSat (f : Bool → Instr) : Option Instr := if sub == 0 && cp == 0 then some (f sat) else none
    let withClamp (f : Bool → Instr) : Option Instr :=
      if !sat && sub / 2 == 0 && cp == 0 then some (f (sub == 1)) else none
    match op with
    | 0x01 => withSat (.iadd x t)
    | 0x02 => withSat (.isub x t)
    | 0x03 => withSat (.imul x t)
    | 0x04 => plain (.imulhi x t)
    | 0x05 => withSat (.imad x t)
    | 0x06 => plain (.imin x t)
    | 0x07 => plain (.imax x t)
    | 0x08 => withSat (.iabs x t)
    | 0x09 => withSat (.ineg x t)
    | 0x0A => withClamp (.shl x t)
    | 0x0B => withClamp (.shr x t)
    | 0x0C => withClamp (.sar x t)
    | 0x0D => plain (.rot x t)
    | 0x0E => plain (.and x t)
    | 0x0F => plain (.or x t)
    | 0x10 => plain (.xor x t)
    | 0x11 => plain (.not x t)
    | 0x13 => plain (.popc x t)
    | 0x14 => plain (.clz x t)
    | 0x15 => plain (.brev x t)
    | 0x16 => plain (.bfe x t)
    | 0x17 => plain (.bfi x t)
    | 0x18 => if !sat && cp == 0 then (ccOf sub).map (.icmp x t) else none
    | 0x19 => plain (.sel x t)
    | 0x1A => plain (.mov x t)
    | 0x1B => if !sat && sub == 0 then some (.iaddc x t (.ofNat 3 cp)) else none
    | 0x1C => if !sat && cp == 0 then some (.lea x t (.ofNat 3 sub)) else none
    | 0x1D => withSat (.imadWide x t)
    | 0x1E => if t == .b32 then plain (.prmt x) else none
    | 0x1F => withSat (.isad x t)
    | _ => none

/-- Instructions 0x20 to 0x33 (R81 to R86). -/
def parseFp (op fn : Nat) (x : Opnds) : Option Instr :=
  match op with
  | 0x26 =>
    match ffmtOf (fn % 8) with
    | some t => if fn / 256 == 0 then some (.fcmp x t (fccOf (fn / 8 % 8)) (fn / 64 % 2 == 1) (fn / 128 % 2 == 1)) else none
    | none => none
  | 0x31 =>
    match ffmtOf (fn % 8) with
    | some t => if fn / 8 == 0 then some (.fclass x t) else none
    | none => none
  | _ =>
    match ftyOf (fn % 8) with
    | none => none
    | some t =>
      if fn / 1024 != 0 then none else
      let m := fmodsOf fn
      match op with
      | 0x20 => some (.fadd x t m)
      | 0x21 => some (.fsub x t m)
      | 0x22 => some (.fmul x t m)
      | 0x23 => some (.ffma x t m)
      | 0x24 => some (.fmin x t m)
      | 0x25 => some (.fmax x t m)
      | 0x27 => some (.frcp x t m)
      | 0x28 => some (.frsq x t m)
      | 0x29 => some (.fsqrt x t m)
      | 0x2A => some (.fex2 x t m)
      | 0x2B => some (.flg2 x t m)
      | 0x2C => some (.fsin x t m)
      | 0x2D => some (.fcos x t m)
      | 0x2E => some (.fdiv x t m)
      | 0x2F => some (.ffrac x t m)
      | 0x30 => some (.fround x t m)
      | 0x32 => some (.fscale x t m)
      | 0x33 => some (.fdot2 x t m)
      | _ => none

/-- Instructions 0x40 to 0x49 (R87 to R93). -/
def parseCvt (op fn : Nat) (x : Opnds) : Option Instr :=
  match op with
  | 0x40 =>
    match ctyOf (fn % 16), ctyOf (fn / 16 % 16) with
    | some d, some s => some (.cvt x d s (rndOf (fn / 256 % 4)) (fn / 1024 % 2 == 1))
    | _, _ => none
  | 0x41 =>
    match ffmtOf (fn / 32 % 4) with
    | some t =>
      if fn / 16 % 2 == 0 then some (.cvtNfEnc x (.ofNat 4 fn) t (fn / 128 % 2 == 1) (.ofNat 3 (fn / 256)))
      else some (.cvtNfDec x (.ofNat 4 fn) t (fn / 128 % 2 == 1) (.ofNat 3 (fn / 256)))
    | none => none
  | 0x42 =>
    match ffmtOf (fn / 64 % 4) with
    | some t => if fn / 256 == 0 then some (.cvtNfb x (blkLenOf (fn % 4)) (.ofNat 4 (fn / 4)) t) else none
    | none => none
  | 0x43 =>
    if fn / 256 == 0 then
      some (.unpkNf x (.ofNat 4 fn) (fn / 16 % 2 == 1) (fn / 32 % 2 == 1) (.ofNat 2 (fn / 64)))
    else none
  | 0x44 => if fn / 16 == 0 then some (.fmtSet x (.ofNat 4 fn)) else none
  | 0x45 => if fn / 16 == 0 then some (.fmtGet x (.ofNat 4 fn)) else none
  | 0x46 => if fn == 0 then some (.flagsGet x) else none
  | 0x47 => if fn == 0 then some (.flagsClr x) else none
  | 0x48 =>
    match packTyOf (fn % 8) with
    | some t => if fn / 32 == 0 then some (.pack x t (rndOf (fn / 8 % 4))) else none
    | none => none
  | 0x49 =>
    match unpTyOf (fn % 8) with
    | some t => if fn / 16 == 0 then some (.unpack x (fn / 8 % 2 == 1) t) else none
    | none => none
  | _ => none

/-- Instructions 0x50 to 0x5F (R151 to R158). -/
def parseScalar (op fn : Nat) (x : Opnds) : Option Instr :=
  match op with
  | 0x5A =>
    match mwidthOf (fn % 8) with
    | some w => if fn / 8 == 0 then some (.sld x w) else none
    | none => none
  | 0x5B => if fn == 8 then some (.rfl x false) else if fn == 9 then some (.rfl x true) else none
  | 0x5C => if fn == 0 then some (.ballot x) else none
  | 0x5D => if fn / 4 == 0 then some (.agree x (agreeOf (fn % 4))) else none
  | 0x5E =>
    match segOf (fn / 4 % 8) with
    | some w => if fn / 64 == 0 then some (.xlane x (xmodeOf (fn % 4)) w (fn / 32 % 2 == 1)) else none
    | none => none
  | 0x5F =>
    match ityOf (fn % 16), redOpOf (fn / 16 % 16) with
    | some t, some o => if fn / 256 == 0 then some (.lred x o t) else none
    | _, _ => none
  | _ =>
    match ityOf (fn % 16) with
    | none => none
    | some t =>
      let sat := fn / 16 % 2 == 1
      let sub := fn / 32 % 8
      if fn / 256 != 0 then none else
      let plain (i : Instr) : Option Instr := if !sat && sub == 0 then some i else none
      let withSat (f : Bool → Instr) : Option Instr := if sub == 0 then some (f sat) else none
      match op with
      | 0x50 => withSat (.sadd x t)
      | 0x51 => withSat (.ssub x t)
      | 0x52 => withSat (.smul x t)
      | 0x53 => plain (.sand x t)
      | 0x54 => plain (.sor x t)
      | 0x55 => plain (.sxor x t)
      | 0x56 => if !sat && sub / 2 == 0 then some (.sshl x t (sub == 1)) else none
      | 0x57 => if !sat && sub / 4 == 0 then some (.sshr x t (sub % 2 == 1) (sub / 2 == 1)) else none
      | 0x58 => if !sat then (ccOf sub).map (.scmp x t) else none
      | 0x59 => plain (.smov x t)
      | _ => none

/-- Instructions 0x60 to 0x6E (R94 to R98, R109 to R111, R159, R160). -/
def parseCtl (op fn : Nat) (x : Opnds) : Option Instr :=
  let plain (i : Instr) : Option Instr := if fn == 0 then some i else none
  match op with
  | 0x60 => plain (.bra x)
  | 0x61 => plain (.brx x)
  | 0x62 => plain (.call x)
  | 0x63 => plain (.ret x)
  | 0x64 => plain (.exit x)
  | 0x65 => if fn == 1 then some (.jenrSet x) else plain (.jenr x)
  | 0x66 => plain (.jpark x)
  | 0x67 => if fn == 1 then some (.jstrikeAll x) else plain (.jstrike x)
  | 0x68 => plain (.reform x)
  | 0x69 => plain (.brd x)
  | 0x6A => plain (.yield x)
  | 0x6B => if fn / 256 == 0 then some (.trap x (.ofNat 8 fn)) else none
  | 0x6C => plain (.brk x)
  | 0x6E => plain (.nap x)
  | _ => none

/-- The arrival-only form of `sts.rem` is named by an extension bit (R243). -/
def Ext.remOnly : Ext → Bool
  | .e128 _ hi => hi.toNat / 32 % 2 == 1
  | _ => false

/-- Instructions 0x70 to 0x7D (R102, R161 to R164, R243). -/
def parseMem (op fn : Nat) (x : Opnds) : Option Instr :=
  let zx := fn / 8 % 2 == 1
  match op with
  | 0x7D => if fn / 16 == 0 then some (.spstat x (.ofNat 4 fn)) else none
  | 0x7A =>
    match aopOf (fn / 8 % 16) with
    | some o => if fn / 128 == 0 then some (.atoms x (atyOf (fn % 8)) o) else none
    | none => none
  | 0x75 =>
    if fn % 8 == 0 && fn / 16 % 4 ≤ 1 && fn / 64 == 0 then some (.pref x zx (fn / 16 % 4 == 1)) else none
  | _ =>
    match mwidthOf (fn % 8) with
    | none => none
    | some w =>
      match op with
      | 0x70 => if fn / 64 == 0 then (hintOf (fn / 16 % 4)).map (.ld x w zx) else none
      | 0x71 => if fn / 64 == 0 then (hintOf (fn / 16 % 4)).map (.st x w zx) else none
      | 0x72 => if fn / 8 == 0 then some (.ldl x w) else none
      | 0x73 => if fn / 8 == 0 then some (.stl x w) else none
      | 0x74 => if fn / 8 == 0 then some (.ldc x w) else none
      | 0x78 => if fn / 16 == 0 then some (.lds x w zx) else none
      | 0x79 => if fn / 16 == 0 then some (.sts x w zx) else none
      | 0x7B => if fn / 128 == 0 then some (.ldsRem x w zx (.ofNat 2 (fn / 16)) (fn / 64 % 2 == 1)) else none
      | 0x7C =>
        if fn / 128 != 0 then none
        else if x.ext.remOnly then
          if fn % 8 == 0 then some (.stsRemArr x zx (.ofNat 2 (fn / 16)) (fn / 64 % 2 == 1)) else none
        else some (.stsRem x w zx (.ofNat 2 (fn / 16)) (fn / 64 % 2 == 1))
      | _ => none

/-- Instructions 0x80 to 0x88 (R280 to R293). -/
def parseDie (op fn : Nat) (x : Opnds) : Option Instr :=
  let plain (i : Instr) : Option Instr := if fn == 0 then some i else none
  match op with
  | 0x80 =>
    match aopOf (fn / 8 % 16) with
    | some o => if fn / 512 == 0 then some (.atom x (atyOf (fn % 8)) o (aordOf (fn / 128 % 4))) else none
    | none => none
  | 0x81 =>
    match aopOf (fn / 8 % 16) with
    | some o => if fn / 512 == 0 then some (.red x (atyOf (fn % 8)) o (aordOf (fn / 128 % 4))) else none
    | none => none
  | 0x82 => if fn / 64 == 0 then (ccOf (fn / 8 % 8)).map (.waitcmp x (atyOf (fn % 8))) else none
  | 0x83 => if fn / 8 == 0 then some (.fence x (.ofNat 3 fn)) else none
  | 0x84 => if fn / 2 == 0 then some (.pbar x (fn == 1)) else none
  | 0x85 => plain (.cleanR x)
  | 0x86 => plain (.invR x)
  | 0x87 => plain (.flushR x)
  | 0x88 => plain (.fhz x)
  | _ => none

/-- Instructions 0x90 to 0x9D (R168 to R175). -/
def parseBar (op fn : Nat) (x : Opnds) : Option Instr :=
  let n : BitVec 4 := .ofNat 4 fn
  let plain (i : Instr) : Option Instr := if fn / 16 == 0 then some i else none
  match op with
  | 0x90 => if fn / 32 == 0 then some (.bbind x n (fn / 16 % 2 == 1)) else none
  | 0x91 => plain (.bunbind x n)
  | 0x92 => plain (.barr x n)
  | 0x93 => plain (.barrb x n)
  | 0x94 => plain (.bwait x n)
  | 0x95 => plain (.btest x n)
  | 0x96 => plain (.bwaitt x n)
  | 0x97 => if fn == 0 then some (.bblk x) else none
  | 0x98 => if fn / 64 == 0 then some (.bexp x n (fn / 16 % 2 == 1) (fn / 32 % 2 == 1)) else none
  | 0x99 => if fn / 128 == 0 then some (.ringBind x n (.ofNat 3 (fn / 16))) else none
  | 0x9A => plain (.ringAcq x n)
  | 0x9B => plain (.ringPut x n)
  | 0x9C => plain (.ringGet x n)
  | 0x9D => plain (.ringRel x n)
  | _ => none

/-- Instructions 0xA0 to 0xA8 (R294 to R309). -/
def parseCpy (op fn : Nat) (x : Opnds) : Option Instr :=
  let n : BitVec 4 := .ofNat 4 fn
  let ns := fn / 16 % 2 == 1
  let s2g := fn / 32 % 2 == 1
  let e := fn / 64 % 4
  match op with
  | 0xA0 => if fn / 64 == 0 then some (.cpy x n ns s2g) else none
  | 0xA1 => if fn / 256 == 0 && !s2g then some (.cpyX x n ns (cpElemOf e)) else none
  | 0xA2 => if fn / 256 == 0 && s2g then some (.cpyC x n ns (cpElemOf e)) else none
  | 0xA3 => if fn == 0 then some (.cpyGl x) else none
  | 0xA4 => if fn / 32 == 0 then some (.cpyFan x n ns) else none
  | 0xA5 => if fn == 0 then some (.publ x) else if fn == 1 then some (.publDrop x) else none
  | 0xA6 =>
    if fn == 0 then some (.scbdCnt x) else if fn == 1 then some (.scbdQ x) else if fn == 2 then some (.scbdWait x) else none
  | 0xA7 => if fn == 0 then some (.shdwOpen x) else none
  | 0xA8 => if fn == 0 then some (.cpySealEnc x) else if fn == 1 then some (.cpySealDec x) else none
  | _ => none

/-- Instructions 0xB0 to 0xB7 (R310, R312). -/
def parseBank (op fn : Nat) (x : Opnds) : Option Instr :=
  if op == 0xB6 then (if fn == 0 then some (.bkWait x) else none) else
  match bkTyOf (fn % 8) with
  | none => none
  | some t =>
    let r := rndOf (fn / 8 % 4)
    let sub := fn / 32 % 8
    if fn / 256 != 0 then none else
    let plain (i : Instr) : Option Instr := if sub == 0 then some i else none
    match op with
    | 0xB0 => plain (.bkAdd x t r)
    | 0xB1 => plain (.bkMul x t r)
    | 0xB2 => plain (.bkFma x t r)
    | 0xB3 => (bkRedOf sub).map (.bkRed x t r)
    | 0xB4 => plain (.bkScale x t r)
    | 0xB5 => (ccOf sub).map (.bkCmp x t r)
    | 0xB7 => if r == .rn then plain (.bkFill x t) else none
    | _ => none

/-- Instructions 0xC0 to 0xCD (R215 to R231). -/
def parseMat (op fn : Nat) (x : Opnds) : Option Instr :=
  let t : BitVec 1 := .ofNat 1 fn
  let plainT (i : Instr) : Option Instr := if fn / 2 == 0 then some i else none
  match op with
  | 0xC0 => if fn / 8 == 0 then some (.obres x (.ofNat 3 fn)) else none
  | 0xC1 => if fn / 8 == 0 then some (.obrel x (.ofNat 3 fn)) else none
  | 0xC2 =>
    if fn / 16 != 0 then none
    else if fn / 8 % 2 == 1 then some (.obldX x (.ofNat 3 fn)) else some (.obld x (.ofNat 3 fn))
  | 0xC3 => if fn / 128 == 0 then some (.mma x t (.ofNat 3 (fn / 2)) (.ofNat 3 (fn / 16))) else none
  | 0xC4 =>
    if fn / 1024 == 0 then some (.mmas x t (.ofNat 3 (fn / 2)) (.ofNat 3 (fn / 16)) (.ofNat 3 (fn / 128))) else none
  | 0xC5 => if fn / 4 == 0 then some (.accZero x t (fn / 2 % 2 == 1)) else none
  | 0xC6 =>
    if fn / 8 % 2 == 0 then (accFormOf (fn / 2 % 4)).map fun k => .accLd x t k (.ofNat 7 (fn / 16)) else none
  | 0xC7 => (accFormOf (fn / 2 % 4)).map fun k => .accSt x t k (fn / 8 % 2 == 1) (.ofNat 7 (fn / 16))
  | 0xC8 => if fn / 16 == 0 then some (.accStat x t (.ofNat 3 (fn / 2))) else none
  | 0xC9 => plainT (.accRenorm x t)
  | 0xCA => plainT (.accTmask x t)
  | 0xCB => plainT (.accScale x t)
  | 0xCC => if fn / 256 == 0 then some (.accRmax x t (.ofNat 7 (fn / 2))) else none
  | 0xCD => plainT (.accMode x t)
  | _ => none

/-- Instructions 0xD0 to 0xE4 (R324 to R338, R357, R400, R401). -/
def parseQueue (op fn : Nat) (x : Opnds) : Option Instr :=
  let e : BitVec 4 := .ofNat 4 fn
  let q : BitVec 5 := .ofNat 5 fn
  match op with
  | 0xD0 => if fn / 16 == 0 then some (.conftest x e) else none
  | 0xD1 => if fn / 32 != 0 then none else if fn / 16 % 2 == 1 then some (.bkfillReg x e) else some (.bkfill x e)
  | 0xD2 => if fn / 16 == 0 then some (.bkwait x e) else none
  | 0xD3 => if fn / 512 == 0 then some (.wqPush x q (fn / 32 % 2 == 1) (.ofNat 3 (fn / 64))) else none
  | 0xD4 => if fn / 512 == 0 then some (.wqPull x q (fn / 32 % 2 == 1) (.ofNat 3 (fn / 64))) else none
  | 0xD5 =>
    match fn / 32 with
    | 0 => some (.wqStatCnt x q)
    | 1 => some (.wqStatClose x q)
    | 2 => some (.wqStatOpen x q)
    | _ => none
  | 0xE0 => if fn / 32 != 0 then none else if fn / 16 % 2 == 1 then some (.launchArr x e) else some (.launch x e)
  | 0xE1 => if fn == 0 then some (.lqStat x) else none
  | 0xE2 =>
    match fn with
    | 0 => some (.leaseQStat x)
    | 1 => some (.leaseQWait x)
    | 2 => some (.leaseQRel x)
    | _ => none
  | 0xE3 =>
    if fn / 16 != 0 then none else
    match keyUseOf (fn / 4 % 4) with
    | none => none
    | some u =>
      match fn % 4 with
      | 0 => some (.keyhGen x u)
      | 1 => some (.keyhImp x u)
      | 2 => if u == .seal then some (.keyhRev x) else none
      | _ => if u == .seal then some (.keyhQry x) else none
  | 0xE4 =>
    match fn with
    | 0 => some (.migAckTake x)
    | 1 => some (.migAckRearm x)
    | 2 => some (.migAckQuiet x)
    | _ => none
  | _ => none

/-- Instructions 0xF0 to 0xFA (R178 to R181, R275 to R278, R353, R363, R366). -/
def parseSys (op fn : Nat) (x : Opnds) : Option Instr :=
  match op with
  | 0xF0 => if fn / 1024 == 0 then some (.sysrd x (.ofNat 10 fn)) else none
  | 0xF1 => if fn / 1024 == 0 then some (.syswr x (.ofNat 10 fn)) else none
  | 0xF2 =>
    match fn with
    | 0 => some (.tret x)
    | 1 => some (.tretNext x)
    | 2 => some (.tretStrike x)
    | _ => none
  | 0xF3 => if fn == 0 then some (.presig x) else none
  | 0xF4 => if fn / 128 == 0 then some (.oplogRd x (.ofNat 3 fn) (.ofNat 4 (fn / 8))) else none
  | 0xF5 =>
    match fn with
    | 0 => some (.faultRdSeq x)
    | 1 => some (.faultRdTake x)
    | 2 => some (.faultRdFree x)
    | _ => none
  | 0xF6 => if fn / 4 == 0 then (cancelOf fn).map (.faultCancel x) else none
  | 0xF7 => match fn with
    | 0 => some (.diectlReset x)
    | 1 => some (.diectlStat x)
    | _ => none
  | 0xF8 => if fn == 0 then some (.snuff x) else none
  | 0xF9 => if fn / 4 == 0 then some (.tlbinv x (tlbOf fn)) else none
  | 0xFA => if fn == 0 then some (.haltOff x) else if fn == 1 then some (.haltReboot x) else none
  | _ => none

/-- The instruction that an opcode and `fn` name (R25, R26); none for what no entry lists. -/
def parse (op fn : Nat) (x : Opnds) : Option Instr :=
  if op == 0 then (if fn == 0 then some (.nop x) else none)
  else if op == 0x12 then
    (if fn / 2 % 4 == 0 then some (.lut3 x (fn % 2 == 1) (.ofNat 8 (fn / 8))) else none)
  else if op < 0x20 then parseInt op fn x
  else if op < 0x40 then parseFp op fn x
  else if op < 0x50 then parseCvt op fn x
  else if op < 0x60 then parseScalar op fn x
  else if op < 0x70 then parseCtl op fn x
  else if op < 0x80 then parseMem op fn x
  else if op < 0x90 then parseDie op fn x
  else if op < 0xA0 then parseBar op fn x
  else if op < 0xB0 then parseCpy op fn x
  else if op < 0xC0 then parseBank op fn x
  else if op < 0xD0 then parseMat op fn x
  else if op < 0xF0 then parseQueue op fn x
  else parseSys op fn x

/-! ### Decoding -/

/-- What the decoder answers: an instruction, or the first encoding trap of R29 that its bits alone show. An illegal operand
comes with the opcode, whose role check stands before it (R126). -/
inductive Decoded where
  | ok (i : Instr)
  | illegalLen
  | illegalOpcode
  | illegalOperand (op : Nat)
  deriving DecidableEq, Repr

/-- A source field for the opcode check alone: a selector counts as an immediate, whatever it names. -/
def srcLax (n : Nat) : Src := if 0x300 ≤ n then .imm 0 else (srcOf n).getD .null

/-- The operand fields for the opcode check alone. -/
def Raw.lax (r : Raw) : Opnds :=
  { g := guardOf r.guard, ext := r.ext, d := (dstOf r.dst).getD .discard, a := srcLax r.sa, b := srcLax r.sb
    c := srcLax r.sc }

/-- The operand fields; none if one holds a value that names nothing (R17, R19, R21). -/
def Raw.opnds? (r : Raw) : Option Opnds :=
  match dstOf r.dst, srcOf r.sa, srcOf r.sb, srcOf r.sc with
  | some d, some a, some b, some c => some { g := guardOf r.guard, ext := r.ext, d := d, a := a, b := b, c := c }
  | _, _, _, _ => none

/-- Items 4 and 5 of R29. -/
def Raw.decode (r : Raw) : Decoded :=
  match parse r.op r.fn r.lax with
  | none => .illegalOpcode
  | some j =>
    if !j.formOk then .illegalOpcode else
    match r.opnds? with
    | none => .illegalOperand r.op
    | some x =>
      match parse r.op r.fn x with
      | none => .illegalOpcode
      | some i => if i.operandsOk then .ok i else .illegalOperand r.op

/-- The decoder on the bits of an instruction. -/
def decodeBits (n : Nat) : Decoded :=
  match rawOf n with
  | none => .illegalLen
  | some r => r.decode

/-- Bytes as a little-endian number (R6). -/
def leNat : List Byte → Nat
  | [] => 0
  | b :: bs => b.toNat + 256 * leNat bs

/-- The decoder on bytes in memory order. It reads the bytes that `len` announces, and bytes past the end as zero. -/
def decode (bs : List Byte) : Decoded :=
  match lenBytes (leNat (bs.take 1) % 4) with
  | none => .illegalLen
  | some n => decodeBits (leNat (bs.take n))

/-! ### Encoding -/

/-- The opcode and `fn` of an instruction, from the same tables; none for an event. -/
def Instr.opFn : Instr → Option (Nat × Nat)
  | .nop _ => some (0x00, 0)
  | .iadd _ t s => some (0x01, t.code + 16 * bitOf s)
  | .isub _ t s => some (0x02, t.code + 16 * bitOf s)
  | .imul _ t s => some (0x03, t.code + 16 * bitOf s)
  | .imulhi _ t => some (0x04, t.code)
  | .imad _ t s => some (0x05, t.code + 16 * bitOf s)
  | .imin _ t => some (0x06, t.code)
  | .imax _ t => some (0x07, t.code)
  | .iabs _ t s => some (0x08, t.code + 16 * bitOf s)
  | .ineg _ t s => some (0x09, t.code + 16 * bitOf s)
  | .shl _ t c => some (0x0A, t.code + 32 * bitOf c)
  | .shr _ t c => some (0x0B, t.code + 32 * bitOf c)
  | .sar _ t c => some (0x0C, t.code + 32 * bitOf c)
  | .rot _ t => some (0x0D, t.code)
  | .and _ t => some (0x0E, t.code)
  | .or _ t => some (0x0F, t.code)
  | .xor _ t => some (0x10, t.code)
  | .not _ t => some (0x11, t.code)
  | .lut3 _ w tbl => some (0x12, bitOf w + 8 * tbl.toNat)
  | .popc _ t => some (0x13, t.code)
  | .clz _ t => some (0x14, t.code)
  | .brev _ t => some (0x15, t.code)
  | .bfe _ t => some (0x16, t.code)
  | .bfi _ t => some (0x17, t.code)
  | .icmp _ t cc => some (0x18, t.code + 32 * cc.code)
  | .sel _ t => some (0x19, t.code)
  | .mov _ t => some (0x1A, t.code)
  | .iaddc _ t cp => some (0x1B, t.code + 256 * cp.toNat)
  | .lea _ t sh => some (0x1C, t.code + 32 * sh.toNat)
  | .imadWide _ t s => some (0x1D, t.code + 16 * bitOf s)
  | .prmt _ => some (0x1E, 8)
  | .isad _ t s => some (0x1F, t.code + 16 * bitOf s)
  | .fadd _ t m => some (0x20, t.code + m.code)
  | .fsub _ t m => some (0x21, t.code + m.code)
  | .fmul _ t m => some (0x22, t.code + m.code)
  | .ffma _ t m => some (0x23, t.code + m.code)
  | .fmin _ t m => some (0x24, t.code + m.code)
  | .fmax _ t m => some (0x25, t.code + m.code)
  | .fcmp _ t cc sig ab => some (0x26, t.code + 8 * cc.code + 64 * bitOf sig + 128 * bitOf ab)
  | .frcp _ t m => some (0x27, t.code + m.code)
  | .frsq _ t m => some (0x28, t.code + m.code)
  | .fsqrt _ t m => some (0x29, t.code + m.code)
  | .fex2 _ t m => some (0x2A, t.code + m.code)
  | .flg2 _ t m => some (0x2B, t.code + m.code)
  | .fsin _ t m => some (0x2C, t.code + m.code)
  | .fcos _ t m => some (0x2D, t.code + m.code)
  | .fdiv _ t m => some (0x2E, t.code + m.code)
  | .ffrac _ t m => some (0x2F, t.code + m.code)
  | .fround _ t m => some (0x30, t.code + m.code)
  | .fclass _ t => some (0x31, t.code)
  | .fscale _ t m => some (0x32, t.code + m.code)
  | .fdot2 _ t m => some (0x33, t.code + m.code)
  | .cvt _ d s r sat => some (0x40, d.code + 16 * s.code + 256 * r.code + 1024 * bitOf sat)
  | .cvtNfEnc _ f t sc k => some (0x41, f.toNat + 32 * t.code + 128 * bitOf sc + 256 * k.toNat)
  | .cvtNfDec _ f t sc k => some (0x41, f.toNat + 16 + 32 * t.code + 128 * bitOf sc + 256 * k.toNat)
  | .cvtNfb _ b f t => some (0x42, b.code + 4 * f.toNat + 64 * t.code)
  | .unpkNf _ f bf sc k => some (0x43, f.toNat + 16 * bitOf bf + 32 * bitOf sc + 64 * k.toNat)
  | .fmtSet _ f => some (0x44, f.toNat)
  | .fmtGet _ f => some (0x45, f.toNat)
  | .flagsGet _ => some (0x46, 0)
  | .flagsClr _ => some (0x47, 0)
  | .pack _ t r => some (0x48, t.code + 8 * r.code)
  | .unpack _ hi t => some (0x49, t.code + 8 * bitOf hi)
  | .sadd _ t s => some (0x50, t.code + 16 * bitOf s)
  | .ssub _ t s => some (0x51, t.code + 16 * bitOf s)
  | .smul _ t s => some (0x52, t.code + 16 * bitOf s)
  | .sand _ t => some (0x53, t.code)
  | .sor _ t => some (0x54, t.code)
  | .sxor _ t => some (0x55, t.code)
  | .sshl _ t c => some (0x56, t.code + 32 * bitOf c)
  | .sshr _ t c a => some (0x57, t.code + 32 * bitOf c + 64 * bitOf a)
  | .scmp _ t cc => some (0x58, t.code + 32 * cc.code)
  | .smov _ t => some (0x59, t.code)
  | .sld _ w => some (0x5A, w.code)
  | .rfl _ w => some (0x5B, 8 + bitOf w)
  | .ballot _ => some (0x5C, 0)
  | .agree _ m => some (0x5D, m.code)
  | .xlane _ m w wide => some (0x5E, m.code + 4 * w.code + 32 * bitOf wide)
  | .lred _ o t => some (0x5F, t.code + 16 * o.code)
  | .bra _ => some (0x60, 0)
  | .brx _ => some (0x61, 0)
  | .call _ => some (0x62, 0)
  | .ret _ => some (0x63, 0)
  | .exit _ => some (0x64, 0)
  | .jenr _ => some (0x65, 0)
  | .jenrSet _ => some (0x65, 1)
  | .jpark _ => some (0x66, 0)
  | .jstrike _ => some (0x67, 0)
  | .jstrikeAll _ => some (0x67, 1)
  | .reform _ => some (0x68, 0)
  | .brd _ => some (0x69, 0)
  | .yield _ => some (0x6A, 0)
  | .trap _ n => some (0x6B, n.toNat)
  | .brk _ => some (0x6C, 0)
  | .nap _ => some (0x6E, 0)
  | .ld _ w zx h => some (0x70, w.code + 8 * bitOf zx + 16 * h.code)
  | .st _ w zx h => some (0x71, w.code + 8 * bitOf zx + 16 * h.code)
  | .ldl _ w => some (0x72, w.code)
  | .stl _ w => some (0x73, w.code)
  | .ldc _ w => some (0x74, w.code)
  | .pref _ zx l1 => some (0x75, 8 * bitOf zx + 16 * bitOf l1)
  | .lds _ w zx => some (0x78, w.code + 8 * bitOf zx)
  | .sts _ w zx => some (0x79, w.code + 8 * bitOf zx)
  | .atoms _ t o => some (0x7A, t.code + 8 * o.code)
  | .ldsRem _ w zx p xr => some (0x7B, w.code + 8 * bitOf zx + 16 * p.toNat + 64 * bitOf xr)
  | .stsRem _ w zx p xr => some (0x7C, w.code + 8 * bitOf zx + 16 * p.toNat + 64 * bitOf xr)
  | .stsRemArr _ zx p xr => some (0x7C, 8 * bitOf zx + 16 * p.toNat + 64 * bitOf xr)
  | .spstat _ k => some (0x7D, k.toNat)
  | .atom _ t o r => some (0x80, t.code + 8 * o.code + 128 * r.code)
  | .red _ t o r => some (0x81, t.code + 8 * o.code + 128 * r.code)
  | .waitcmp _ t cc => some (0x82, t.code + 8 * cc.code)
  | .fence _ m => some (0x83, m.toNat)
  | .pbar _ w => some (0x84, bitOf w)
  | .cleanR _ => some (0x85, 0)
  | .invR _ => some (0x86, 0)
  | .flushR _ => some (0x87, 0)
  | .fhz _ => some (0x88, 0)
  | .bbind _ n all => some (0x90, n.toNat + 16 * bitOf all)
  | .bunbind _ n => some (0x91, n.toNat)
  | .barr _ n => some (0x92, n.toNat)
  | .barrb _ n => some (0x93, n.toNat)
  | .bwait _ n => some (0x94, n.toNat)
  | .btest _ n => some (0x95, n.toNat)
  | .bwaitt _ n => some (0x96, n.toNat)
  | .bblk _ => some (0x97, 0)
  | .bexp _ n now clrt => some (0x98, n.toNat + 16 * bitOf now + 32 * bitOf clrt)
  | .ringBind _ n d => some (0x99, n.toNat + 16 * d.toNat)
  | .ringAcq _ n => some (0x9A, n.toNat)
  | .ringPut _ n => some (0x9B, n.toNat)
  | .ringGet _ n => some (0x9C, n.toNat)
  | .ringRel _ n => some (0x9D, n.toNat)
  | .cpy _ n ns s2g => some (0xA0, n.toNat + 16 * bitOf ns + 32 * bitOf s2g)
  | .cpyX _ n ns e => some (0xA1, n.toNat + 16 * bitOf ns + 64 * e.code)
  | .cpyC _ n ns e => some (0xA2, n.toNat + 16 * bitOf ns + 32 + 64 * e.code)
  | .cpyGl _ => some (0xA3, 0)
  | .cpyFan _ n ns => some (0xA4, n.toNat + 16 * bitOf ns)
  | .publ _ => some (0xA5, 0)
  | .publDrop _ => some (0xA5, 1)
  | .scbdCnt _ => some (0xA6, 0)
  | .scbdQ _ => some (0xA6, 1)
  | .scbdWait _ => some (0xA6, 2)
  | .shdwOpen _ => some (0xA7, 0)
  | .cpySealEnc _ => some (0xA8, 0)
  | .cpySealDec _ => some (0xA8, 1)
  | .bkAdd _ t r => some (0xB0, t.code + 8 * r.code)
  | .bkMul _ t r => some (0xB1, t.code + 8 * r.code)
  | .bkFma _ t r => some (0xB2, t.code + 8 * r.code)
  | .bkRed _ t r o => some (0xB3, t.code + 8 * r.code + 32 * o.code)
  | .bkScale _ t r => some (0xB4, t.code + 8 * r.code)
  | .bkCmp _ t r cc => some (0xB5, t.code + 8 * r.code + 32 * cc.code)
  | .bkWait _ => some (0xB6, 0)
  | .bkFill _ t => some (0xB7, t.code)
  | .obres _ n => some (0xC0, n.toNat)
  | .obrel _ n => some (0xC1, n.toNat)
  | .obld _ n => some (0xC2, n.toNat)
  | .obldX _ n => some (0xC2, n.toNat + 8)
  | .mma _ t a b => some (0xC3, t.toNat + 2 * a.toNat + 16 * b.toNat)
  | .mmas _ t a b m => some (0xC4, t.toNat + 2 * a.toNat + 16 * b.toNat + 128 * m.toNat)
  | .accZero _ t all => some (0xC5, t.toNat + 2 * bitOf all)
  | .accLd _ t k n => some (0xC6, t.toNat + 2 * k.code + 16 * n.toNat)
  | .accSt _ t k ninf n => some (0xC7, t.toNat + 2 * k.code + 8 * bitOf ninf + 16 * n.toNat)
  | .accStat _ t s => some (0xC8, t.toNat + 2 * s.toNat)
  | .accRenorm _ t => some (0xC9, t.toNat)
  | .accTmask _ t => some (0xCA, t.toNat)
  | .accScale _ t => some (0xCB, t.toNat)
  | .accRmax _ t n => some (0xCC, t.toNat + 2 * n.toNat)
  | .accMode _ t => some (0xCD, t.toNat)
  | .conftest _ e => some (0xD0, e.toNat)
  | .bkfill _ e => some (0xD1, e.toNat)
  | .bkfillReg _ e => some (0xD1, e.toNat + 16)
  | .bkwait _ e => some (0xD2, e.toNat)
  | .wqPush _ q nw pd => some (0xD3, q.toNat + 32 * bitOf nw + 64 * pd.toNat)
  | .wqPull _ q nw pd => some (0xD4, q.toNat + 32 * bitOf nw + 64 * pd.toNat)
  | .wqStatCnt _ q => some (0xD5, q.toNat)
  | .wqStatClose _ q => some (0xD5, q.toNat + 32)
  | .wqStatOpen _ q => some (0xD5, q.toNat + 64)
  | .launch _ n => some (0xE0, n.toNat)
  | .launchArr _ n => some (0xE0, n.toNat + 16)
  | .lqStat _ => some (0xE1, 0)
  | .leaseQStat _ => some (0xE2, 0)
  | .leaseQWait _ => some (0xE2, 1)
  | .leaseQRel _ => some (0xE2, 2)
  | .keyhGen _ u => some (0xE3, 4 * u.code)
  | .keyhImp _ u => some (0xE3, 1 + 4 * u.code)
  | .keyhRev _ => some (0xE3, 2)
  | .keyhQry _ => some (0xE3, 3)
  | .migAckTake _ => some (0xE4, 0)
  | .migAckRearm _ => some (0xE4, 1)
  | .migAckQuiet _ => some (0xE4, 2)
  | .sysrd _ r => some (0xF0, r.toNat)
  | .syswr _ r => some (0xF1, r.toNat)
  | .tret _ => some (0xF2, 0)
  | .tretNext _ => some (0xF2, 1)
  | .tretStrike _ => some (0xF2, 2)
  | .presig _ => some (0xF3, 0)
  | .oplogRd _ e w => some (0xF4, e.toNat + 8 * w.toNat)
  | .faultRdSeq _ => some (0xF5, 0)
  | .faultRdTake _ => some (0xF5, 1)
  | .faultRdFree _ => some (0xF5, 2)
  | .faultCancel _ m => some (0xF6, m.code)
  | .diectlReset _ => some (0xF7, 0)
  | .diectlStat _ => some (0xF7, 1)
  | .snuff _ => some (0xF8, 0)
  | .tlbinv _ m => some (0xF9, m.code)
  | .haltOff _ => some (0xFA, 0)
  | .haltReboot _ => some (0xFA, 1)
  | _ => none

/-- The fields of an encoded instruction. -/
def Opnds.raw (x : Opnds) (op fn : Nat) : Raw :=
  { op := op, guard := x.g.code, dst := x.d.code, sa := x.a.code, sb := x.b.code, sc := x.c.code, fn := fn, ext := x.ext }

/-- The bits of an instruction; none for an event. -/
def encodeBits (i : Instr) : Option Nat :=
  match i.opFn, i.opnds? with
  | some (op, fn), some x => some (x.raw op fn).bits
  | _, _ => none

/-- A number as `n` little-endian bytes (R6). -/
def leBytes : Nat → Nat → List Byte
  | 0, _ => []
  | n + 1, v => .ofNat 8 v :: leBytes n (v / 256)

/-- The bytes of an instruction in memory order; none for an event. -/
def encode (i : Instr) : Option (List Byte) :=
  match encodeBits i, i.opnds? with
  | some v, some x => some (leBytes x.ext.bytes v)
  | _, _ => none

/-- The instruction that the decoder reads from an instruction whose first `nbits` bits are `w`, the bits above them zero. The
lowest-addressed byte holds bits 7..0, as the hardware stores them (R6, R13). -/
def decodeTableWord (nbits w : Nat) : Option Instr :=
  match decode (leBytes 16 (w % 2 ^ nbits)) with
  | .ok i => some i
  | _ => none

end Sys2Proof
end

