-- ==== Sys2Proof/Config.lean ====
section
/-! DEFINITION. Config.lean: what the implementation fixes and the spec gives no number for (free values: opaque, no body),
and the constants the spec does give for every device. -/

namespace Sys2Proof.Config

/-- A free value: what the spec leaves without a value (a key drawn by Shutter's generator, a value that two agents may
give in either order). Drawn with a plain counter of State, so every draw is a fresh unknown (log entry 12). -/
opaque freeDraw : Nat → DWord

/-- The first trial scale of `cvt.nfb` for the format without magnitude bits, whose largest magnitude is 0 (R68 divides by it;
log entry 12). -/
opaque freeScale : BitVec 16 → Nat

/-- The RSA-3072 modulus of the Vexdun key fused in the hub (R361). The manual does not give the key (log entry 12). -/
opaque vexdunModulus : Nat

/-- The public exponent of the Vexdun key (R361). -/
opaque vexdunExponent : Nat

/-- The RSA-3072 modulus of the kernel key that the first stage carries (R404). -/
opaque kernelModulus : Nat

/-- The public exponent of the kernel key (R404). -/
opaque kernelExponent : Nat

/-- The first stage's minimum kernel image version (R404). -/
opaque firstStageMinVersion : Nat

/-- The length in bytes of the salt of the RSASSA-PSS signatures (R361, R404; RFC 8017 leaves it to the application). -/
opaque pssSaltLength : Nat

/-- The second of the two keys of XTS that goes with a 256-bit key: a slot of Shutter holds one AES-256 key (R355), and the manual
does not say how the other is made (R302; log entry 12). -/
opaque tweakKey : Nat → Nat

/-- The module serial number, fused (R402). -/
opaque serial : DWord

/-- The modulus and the private exponent of the RSA-3072 identity key that Shutter derives (R358, R360; log entry 12). -/
opaque identityModulus : Nat

/-- The private exponent of the identity key (R358). -/
opaque identityExponent : Nat

/-- The SPDM 1.3 message that answers an attestation request, as far as the device signs it (R358): SPDM and the device's certificates and
measurements give it, not the manual (log entry 12). -/
opaque spdmAnswer : List Byte → List Byte

/-- The version of the image that a bank holds which no update has written (R361; log entry 12). -/
opaque deliveredVersion : Nat

/-- The transport key that Shutter and a tenant derive over an SPDM 1.3 secured session (R356). -/
opaque transportKey : List Byte → Nat

end Sys2Proof.Config
end

