-- ==== Sys2Proof/Machine/Bits.lean ====
section
/-! DEFINITION. Bits.lean: bit fields, sign extension, two's complement and byte order (R6, R75, R77). Values of up to 128 bits
are held here as natural numbers below 2^w. -/

namespace Sys2Proof

/-- Bits [lo + n − 1 : lo] of a number. -/
def field (x lo n : Nat) : Nat := x / 2 ^ lo % 2 ^ n

/-- Bit i of a number. -/
def bitAt (x i : Nat) : Bool := x / 2 ^ i % 2 == 1

/-- The low w bits of an integer, as a number (R79: x mod 2^w). -/
def wrap (w : Nat) (i : Int) : Nat := (i % (2 ^ w : Nat)).toNat

/-- The low w bits of a number read as a signed or an unsigned integer (R77, R79). -/
def readInt (w : Nat) (signed : Bool) (x : Nat) : Int :=
  let y := x % 2 ^ w
  if signed && bitAt y (w - 1) then (y : Int) - (2 ^ w : Nat) else y

/-- The least value of an integer type. -/
def minInt (w : Nat) (signed : Bool) : Int := if signed then -((2 ^ (w - 1) : Nat) : Int) else 0

/-- The greatest value of an integer type. -/
def maxInt (w : Nat) (signed : Bool) : Int := if signed then ((2 ^ (w - 1) : Nat) : Int) - 1 else ((2 ^ w : Nat) : Int) - 1

/-- An integer held to the range of a type. -/
def clampInt (w : Nat) (signed : Bool) (i : Int) : Int := max (minInt w signed) (min (maxInt w signed) i)

/-- `fit` of R79: saturation under `.sat`, the low w bits otherwise. -/
def fit (w : Nat) (signed sat : Bool) (i : Int) : Nat := if sat then wrap w (clampInt w signed i) else wrap w i

/-- A narrow value extended into a register (R75): copies of the sign bit for the signed types, zeros otherwise. -/
def extend (w : Nat) (signed : Bool) (x : Nat) : Nat := wrap 64 (readInt w signed x)

/-- A 32-bit word sign-extended to 64 bits. -/
def sext32 (x : Word) : DWord := x.signExtend 64

/-- The 64-bit value of a pair, low half first (R47). -/
def pair (lo hi : Word) : DWord := hi ++ lo

/-- Word k of a wide value. -/
def wordOf (x k : Nat) : Word := .ofNat 32 (x / 2 ^ (32 * k))

/-- A wide value from its words, low word first (R47). -/
def ofWords : List Word → Nat
  | [] => 0
  | w :: ws => w.toNat + 2 ^ 32 * ofWords ws

/-- The n words of a wide value, low word first. -/
def toWords : Nat → Nat → List Word
  | 0, _ => []
  | n + 1, x => .ofNat 32 x :: toWords n (x / 2 ^ 32)

/-- A number from its bytes, the first byte lowest (R6). -/
def ofBytes : List Byte → Nat
  | [] => 0
  | b :: bs => b.toNat + 256 * ofBytes bs

/-- The n bytes of a number, the lowest first (R6). -/
def toBytes : Nat → Nat → List Byte
  | 0, _ => []
  | n + 1, x => .ofNat 8 x :: toBytes n (x / 256)

/-- The number of 1 bits among the low n bits. -/
def popcount (x : Nat) : Nat → Nat
  | 0 => 0
  | n + 1 => (if bitAt x n then 1 else 0) + popcount x n

/-- The number of significant bits: 0 for 0. -/
def bitlen (n : Nat) : Nat := if n = 0 then 0 else Nat.log2 n + 1

/-- The low n bits in reverse order. -/
def reverseBits (x : Nat) : Nat → Nat
  | 0 => 0
  | n + 1 => (if bitAt x 0 then 2 ^ n else 0) + reverseBits (x / 2) n

/-- An address is canonical: bits [63:56] equal bit 56 (R48, R103). -/
def canonical (a : DWord) : Bool := a.toNat / 2 ^ 56 == 0 || a.toNat / 2 ^ 56 == 255

/-- ⌈a ÷ b⌉. -/
def ceilDiv (a b : Nat) : Nat := (a + b - 1) / b

/-- The bits of a mask, as the numbers of its set bits below n, ascending. -/
def bitsOf (x n : Nat) : List Nat := (List.range n).filter (bitAt x)

/-- The mask of a list of bit numbers. -/
def maskOf (l : List Nat) : Nat := l.foldl (fun m i => if bitAt m i then m else m + 2 ^ i) 0

end Sys2Proof
end

