-- ==== Sys2Proof/Machine/Fp.lean ====
section
/-! DEFINITION. Fp.lean: IEEE 754 arithmetic on exact values with one rounding (R54 to R57, R81 to R86). A finite nonzero value
is held as a sign, a natural mantissa and a binary exponent; a result that is not a dyadic number carries a sticky mark, which
says that the true magnitude lies strictly between the mantissa and the next one. -/

namespace Sys2Proof.Fp

/-- Flags in the bit order of `nflags` (R69). -/
abbrev Flags := BitVec 6

/-- Invalid operation (R69). -/
def inv : Flags := 1
/-- Division by zero (R69). -/
def dz : Flags := 2
/-- Overflow (R69). -/
def ovf : Flags := 4
/-- Underflow (R69). -/
def unf : Flags := 8
/-- Inexact (R69). -/
def inx : Flags := 16
/-- Discarded accumulator bits (R69). -/
def trc : Flags := 32

/-- Fraction bits (R54). -/
def fracBits : FFmt → Nat
  | .f32 => 23
  | .f16 => 10
  | .bf16 => 7

/-- Exponent bits (R54). -/
def expBits : FFmt → Nat
  | .f32 | .bf16 => 8
  | .f16 => 5

/-- Bias (R54). -/
def bias (f : FFmt) : Nat := 2 ^ (expBits f - 1) - 1

/-- Width of a format (R54). -/
def width (f : FFmt) : Nat := 1 + expBits f + fracBits f

/-- The exponent of the smallest subnormal (R54). -/
def qmin (f : FFmt) : Int := 1 - (bias f : Int) - (fracBits f : Int)

/-- The bits of an infinity without its sign (R54). -/
def infBits (f : FFmt) : Nat := (2 ^ expBits f - 1) * 2 ^ fracBits f

/-- The canonical NaN (R54). -/
def nanBits (f : FFmt) : Nat := infBits f + 2 ^ (fracBits f - 1)

/-- The sign bit. -/
def signBit (f : FFmt) (neg : Bool) : Nat := if neg then 2 ^ (expBits f + fracBits f) else 0

/-- An operand's value (R54). -/
inductive Val where
  | nan (signalling : Bool)
  | inf (neg : Bool)
  | zero (neg : Bool)
  | num (neg : Bool) (m : Nat) (e : Int)
  deriving DecidableEq, Repr

/-- The value of a bit pattern (R54). -/
def unpack (f : FFmt) (bits : Nat) : Val :=
  let fb := fracBits f
  let frac := bits % 2 ^ fb
  let ex := bits / 2 ^ fb % 2 ^ expBits f
  let neg := bits / 2 ^ (fb + expBits f) % 2 == 1
  if ex == 2 ^ expBits f - 1 then
    if frac == 0 then .inf neg else .nan (frac / 2 ^ (fb - 1) == 0)
  else if ex == 0 then
    if frac == 0 then .zero neg else .num neg frac (qmin f)
  else .num neg (2 ^ fb + frac) (qmin f + (ex - 1 : Nat))

/-- An exact result before rounding. `num` with `sticky` is a magnitude strictly between m and m + 1 units of 2^e. -/
inductive Exact where
  | nan
  | inf (neg : Bool)
  | zero (neg : Bool)
  | num (neg : Bool) (m : Nat) (e : Int) (sticky : Bool)
  deriving DecidableEq, Repr

/-- Number of bits of a natural number: 0 for 0 (R205's bitlen). -/
def bitlen (n : Nat) : Nat := if n = 0 then 0 else Nat.log2 n + 1

/-- Whether a magnitude of quotient `n`, remainder `rem` out of `den` and sticky mark rounds away from zero (R56). -/
def roundsUp (r : Rnd) (neg : Bool) (n rem den : Nat) (sticky : Bool) : Bool :=
  match r with
  | .rn => decide (2 * rem > den) || (2 * rem == den && (sticky || n % 2 == 1))
  | .rz => false
  | .rm => neg && (rem != 0 || sticky)
  | .rp => !neg && (rem != 0 || sticky)

/-- A magnitude m (with sticky) times 2^e, rounded to a multiple of 2^q: the quotient and whether it was inexact. -/
def quantise (r : Rnd) (neg : Bool) (m : Nat) (e q : Int) (sticky : Bool) : Nat × Bool :=
  if q ≤ e then
    let n := m * 2 ^ (e - q).toNat
    ((if sticky && roundsUp r neg n 0 2 true then n + 1 else n), sticky)
  else
    let den := 2 ^ (q - e).toNat
    let n := m / den
    let rem := m % den
    ((if roundsUp r neg n rem den sticky then n + 1 else n), rem != 0 || sticky)

/-- The result of an overflow (R55, R56). -/
def overflowBits (f : FFmt) (r : Rnd) (neg : Bool) : Nat :=
  let toInf := match r with
    | .rn => true
    | .rz => false
    | .rm => neg
    | .rp => !neg
  signBit f neg + (if toInf then infBits f else infBits f - 1)

/-- A finite nonzero magnitude rounded once (R55, R56): the bits and the flags. -/
def roundNum (f : FFmt) (r : Rnd) (neg : Bool) (m : Nat) (e : Int) (sticky : Bool) : Nat × Flags :=
  let fb := fracBits f
  let top : Int := e + (bitlen m : Int) - 1
  let emin : Int := 1 - (bias f : Int)
  if top > (bias f : Int) then (overflowBits f r neg, ovf ||| inx)
  else
    -- a magnitude far below the smallest subnormal keeps only its sticky mark
    let far := decide (top < qmin f - 2)
    let m' := if far then 1 else m
    let e' := if far then qmin f - 3 else e
    let st := if far then true else sticky
    let q := max (top - fb) (qmin f)
    let (n, inexact) := quantise r neg m' e' q st
    let bits := (q - qmin f).toNat * 2 ^ fb + n
    if bits ≥ infBits f then (overflowBits f r neg, ovf ||| inx)
    else
      -- tininess after rounding, with an unbounded exponent range
      let tiny := decide (top < emin)
        && !(decide (top = emin - 1) && (quantise r neg m e (top - fb) sticky).1 == 2 ^ (fb + 1))
      (signBit f neg + bits, (if inexact then inx else 0) ||| (if tiny && inexact then unf else 0))

/-- An exact result rounded once to a format (R55). -/
def round (f : FFmt) (r : Rnd) : Exact → Nat × Flags
  | .nan => (nanBits f, 0)
  | .inf neg => (signBit f neg + infBits f, 0)
  | .zero neg => (signBit f neg, 0)
  | .num neg m e st => if m = 0 && !st then (signBit f neg, 0) else roundNum f r neg m e st

/-- The operand as an exact result. -/
def Val.exact : Val → Exact
  | .nan _ => .nan
  | .inf n => .inf n
  | .zero n => .zero n
  | .num n m e => .num n m e false

/-- The operand is a signalling NaN. -/
def Val.snan : Val → Bool
  | .nan s => s
  | _ => false

/-- The operand is a NaN. -/
def Val.isNan : Val → Bool
  | .nan _ => true
  | _ => false

/-- The operand is a zero. -/
def Val.isZero : Val → Bool
  | .zero _ => true
  | _ => false

/-- The operand is an infinity. -/
def Val.isInf : Val → Bool
  | .inf _ => true
  | _ => false

/-- The sign of an operand; a NaN's counts as positive. -/
def Val.neg : Val → Bool
  | .nan _ => false
  | .inf n => n
  | .zero n => n
  | .num n _ _ => n

/-- Invalid where some operand is a signalling NaN (R55). -/
def snanFlags (vs : List Val) : Flags := if vs.any Val.snan then inv else 0

/-- A dyadic number: an integer times 2^e. -/
structure Dyadic where
  m : Int
  e : Int
  deriving DecidableEq, Repr

/-- The sum of two dyadic numbers. -/
def Dyadic.add (a b : Dyadic) : Dyadic :=
  let e := min a.e b.e
  { m := a.m * 2 ^ (a.e - e).toNat + b.m * 2 ^ (b.e - e).toNat, e := e }

/-- The product of two dyadic numbers. -/
def Dyadic.mul (a b : Dyadic) : Dyadic := { m := a.m * b.m, e := a.e + b.e }

/-- Comparison of two dyadic numbers. -/
def Dyadic.lt (a b : Dyadic) : Bool :=
  let e := min a.e b.e
  decide (a.m * 2 ^ (a.e - e).toNat < b.m * 2 ^ (b.e - e).toNat)

/-- A finite operand as a dyadic number; 0 for what is not finite. -/
def Val.dyadic : Val → Dyadic
  | .num n m e => { m := if n then -(m : Int) else m, e := e }
  | _ => { m := 0, e := 0 }

/-- A dyadic number as an exact result; an exact zero takes the sign given. -/
def Dyadic.exact (d : Dyadic) (zeroNeg : Bool) : Exact :=
  if d.m = 0 then .zero zeroNeg else .num (decide (d.m < 0)) d.m.natAbs d.e false

/-- The sign of an exact zero sum of operands of opposite signs (R55). -/
def zeroSum (r : Rnd) : Bool := r == .rm

/-- a + b (R55). -/
def add (r : Rnd) (a b : Val) : Exact × Flags :=
  let fl := snanFlags [a, b]
  match a, b with
  | .nan _, _ => (.nan, fl)
  | _, .nan _ => (.nan, fl)
  | .inf x, .inf y => if x == y then (.inf x, fl) else (.nan, inv)
  | .inf x, _ => (.inf x, fl)
  | _, .inf y => (.inf y, fl)
  | .zero x, .zero y => (.zero (if x == y then x else zeroSum r), fl)
  | a, b => ((a.dyadic.add b.dyadic).exact (zeroSum r), fl)

/-- The operand with its sign inverted (R81). -/
def Val.negate : Val → Val
  | .nan s => .nan s
  | .inf n => .inf !n
  | .zero n => .zero !n
  | .num n m e => .num (!n) m e

/-- The operand with its sign cleared (R81). -/
def Val.abs : Val → Val
  | .nan s => .nan s
  | .inf _ => .inf false
  | .zero _ => .zero false
  | .num _ m e => .num false m e

/-- a × b as a value: exact, or a NaN with invalid for a product of a zero and an infinity (R55). -/
def mulVal (a b : Val) : Val × Flags :=
  let fl := snanFlags [a, b]
  let n := a.neg != b.neg
  match a, b with
  | .nan _, _ => (.nan false, fl)
  | _, .nan _ => (.nan false, fl)
  | .inf _, .zero _ | .zero _, .inf _ => (.nan false, inv)
  | .inf _, _ | _, .inf _ => (.inf n, fl)
  | .zero _, _ | _, .zero _ => (.zero n, fl)
  | .num _ m e, .num _ m' e' => (.num n (m * m') (e + e'), fl)

/-- a × b (R55). -/
def mul (a b : Val) : Exact × Flags :=
  let (v, fl) := mulVal a b
  (v.exact, fl)

/-- a × b + c with one rounding (R55). A zero times an infinity is invalid even beside a quiet NaN. -/
def fma (r : Rnd) (a b c : Val) : Exact × Flags :=
  let (p, fl) := mulVal a b
  let (s, fl') := add r p c
  (s, fl ||| fl' ||| snanFlags [a, b, c])

/-- a0 × b0 + a1 × b1 + c with one rounding (R82). -/
def dot2 (r : Rnd) (a0 b0 a1 b1 c : Val) : Exact × Flags :=
  let (p, f0) := mulVal a0 b0
  let (q, f1) := mulVal a1 b1
  let fl := f0 ||| f1 ||| snanFlags [a0, b0, a1, b1, c]
  if p.isNan || q.isNan || c.isNan then (.nan, fl)
  else
    let infs := [p, q, c].filter Val.isInf
    match infs with
    | i :: is => if is.all fun j => j.neg == i.neg then (.inf i.neg, fl) else (.nan, fl ||| inv)
    | [] =>
      let allZero := p.isZero && q.isZero && c.isZero
      let same := p.neg == q.neg && q.neg == c.neg
      (((p.dyadic.add q.dyadic).add c.dyadic).exact (if allZero && same then p.neg else zeroSum r), fl)

/-- The integer square root of `n`, found bit by bit from bit `k` downward: the largest r built on `r` with r² ≤ n. -/
def isqrtFrom (n : Nat) : Nat → Nat → Nat
  | 0, r => r
  | k + 1, r =>
    let r' := r + 2 ^ k
    isqrtFrom n k (if r' * r' ≤ n then r' else r)

/-- The integer square root. -/
def isqrt (n : Nat) : Nat := isqrtFrom n (bitlen n / 2 + 1) 0

/-- a / b (R83 and IEEE 754): a finite nonzero value over zero sets dz. -/
def div (a b : Val) : Exact × Flags :=
  let fl := snanFlags [a, b]
  let n := a.neg != b.neg
  match a, b with
  | .nan _, _ => (.nan, fl)
  | _, .nan _ => (.nan, fl)
  | .inf _, .inf _ | .zero _, .zero _ => (.nan, inv)
  | .inf _, _ => (.inf n, fl)
  | _, .inf _ => (.zero n, fl)
  | .zero _, _ => (.zero n, fl)
  | .num .., .zero _ => (.inf n, dz)
  | .num _ m e, .num _ m' e' =>
    let k := 40 + bitlen m'
    let x := m * 2 ^ k
    (.num n (x / m') (e - e' - k) (x % m' != 0), fl)

/-- √a (R83). -/
def sqrt (a : Val) : Exact × Flags :=
  match a with
  | .nan s => (.nan, if s then inv else 0)
  | .zero n => (.zero n, 0)
  | .inf false => (.inf false, 0)
  | .inf true => (.nan, inv)
  | .num true _ _ => (.nan, inv)
  | .num false m e =>
    let odd := e % 2 != 0
    let m' := (if odd then 2 * m else m) * 2 ^ 64
    let e' := (if odd then e - 1 else e) - 64
    let s := isqrt m'
    (.num false s (e' / 2) (s * s != m'), 0)

/-- 1 / √a (R83). -/
def rsqrt (a : Val) : Exact × Flags :=
  match a with
  | .nan s => (.nan, if s then inv else 0)
  | .zero n => (.inf n, dz)
  | .inf false => (.zero false, 0)
  | .inf true => (.nan, inv)
  | .num true _ _ => (.nan, inv)
  | .num false m e =>
    let odd := e % 2 != 0
    let m' := if odd then 2 * m else m
    let e' := if odd then e - 1 else e
    let k := 48 + bitlen m'
    let s := isqrt (2 ^ (2 * k) / m')
    (.num false s (-(e' / 2) - k) (s * s * m' != 2 ^ (2 * k)), 0)

/-- An integral value of a in a rounding mode: the signed integer and whether it is inexact (R57, R82). -/
def toInt (r : Rnd) (neg : Bool) (m : Nat) (e : Int) : Int × Bool :=
  let (n, inexact) := quantise r neg m e 0 false
  ((if neg then -(n : Int) else n), inexact)

/-- `fround`: a rounded to an integral value (R82). -/
def roundInt (r : Rnd) (a : Val) : Exact × Flags :=
  match a with
  | .num neg m e => if e ≥ 0 then (.num neg m e false, 0) else (.num neg (quantise r neg m e 0 false).1 0 false, 0)
  | v => (v.exact, snanFlags [v])

/-- `ffrac`: a − trunc(a), exact, with a's sign (R82). -/
def frac (a : Val) : Exact × Flags :=
  match a with
  | .nan s => (.nan, if s then inv else 0)
  | .inf _ => (.nan, inv)
  | .zero n => (.zero n, 0)
  | .num neg m e =>
    if e ≥ 0 then (.zero neg, 0)
    else
      let m' := m % 2 ^ (-e).toNat
      if m' = 0 then (.zero neg, 0) else (.num neg m' e false, 0)

/-- `fscale`: a × 2^b (R82). -/
def scale (a : Val) (b : Int) : Exact × Flags :=
  match a with
  | .num neg m e => (.num neg m (e + b) false, 0)
  | v => (v.exact, snanFlags [v])

/-! ### Order (R84, R85) -/

/-- The value of a finite operand, comparable beside the infinities: −1, 0 or 1 for −∞, finite, +∞. -/
def Val.rank : Val → Int
  | .inf true => -1
  | .inf false => 1
  | _ => 0

/-- a < b for operands that are not NaN; zeros of either sign are equal. -/
def lt (a b : Val) : Bool := a.rank < b.rank || (a.rank == 0 && b.rank == 0 && a.dyadic.lt b.dyadic)

/-- a = b for operands that are not NaN. -/
def eq (a b : Val) : Bool := !lt a b && !lt b a

/-- The smaller operand with −0 below +0, for operands that are not NaN: whether the first is chosen (R84). -/
def minFirst (a b : Val) : Bool := lt a b || (eq a b && (a.neg || !b.neg))

/-- `fmin` and `fmax` of two operands: which is returned, the canonical NaN if both are NaN (R84). -/
def minMax (isMax : Bool) (a b : Val) : Exact × Flags :=
  let fl := snanFlags [a, b]
  if a.isNan && b.isNan then (.nan, fl)
  else if a.isNan then (b.exact, fl)
  else if b.isNan then (a.exact, fl)
  else if minFirst a b != isMax then (a.exact, fl) else (b.exact, fl)

/-- `fcmp` (R85). -/
def cmp (cc : Fcc) (sig : Bool) (a b : Val) : Bool × Flags :=
  let un := a.isNan || b.isNan
  let loud := sig || (match cc with | .lt | .le | .gt | .ge => true | _ => false)
  let fl := if (un && loud) || a.snan || b.snan then inv else 0
  let v := match cc with
    | .eq => !un && eq a b
    | .ne => un || !eq a b
    | .lt => !un && lt a b
    | .le => !un && !lt b a
    | .gt => !un && lt b a
    | .ge => !un && !lt a b
    | .ord => !un
    | .uno => un
  (v, fl)

/-- `fclass` (R86). -/
def classOf (f : FFmt) (bits : Nat) : Nat :=
  match unpack f bits with
  | .nan true => 1
  | .nan false => 2
  | .inf true => 4
  | .inf false => 512
  | .zero true => 32
  | .zero false => 64
  | .num neg m _ => if m < 2 ^ fracBits f then (if neg then 16 else 128) else (if neg then 8 else 256)

/-! ### Transcendental functions (R82, R83)

Fixed-point integers at `p` bits. Each function gives an approximation whose error is below 2^20 units; the result is decided
when both ends of that interval round to the same bits, and the precision grows until it is. -/

/-- The error bound of every approximation below, in units of the last place. -/
def slack : Int := 2 ^ 20

/-- Terms z^(2k+1) / (2k+1) of the series of artanh (alternating: arctan), `z2` the square of z. -/
def oddSeries (alternate : Bool) (p : Nat) (z2 : Int) : Nat → Nat → Int → Int → Int
  | 0, _, _, acc => acc
  | fuel + 1, k, zk, acc =>
    let t := zk / (2 * k + 1 : Nat)
    let acc' := if alternate && k % 2 == 1 then acc - t else acc + t
    oddSeries alternate p z2 fuel (k + 1) (zk * z2 / 2 ^ p) acc'

/-- ln 2 = 2 artanh(1/3). -/
def ln2 (p : Nat) : Int :=
  let z : Int := 2 ^ p / 3
  2 * oddSeries false p (z * z / 2 ^ p) (p / 3 + 8) 0 z 0

/-- π = 16 arctan(1/5) − 4 arctan(1/239). -/
def pi (p : Nat) : Int :=
  let a : Int := 2 ^ p / 5
  let b : Int := 2 ^ p / 239
  16 * oddSeries true p (a * a / 2 ^ p) (p / 4 + 8) 0 a 0 - 4 * oddSeries true p (b * b / 2 ^ p) (p / 8 + 8) 0 b 0

/-- The series Σ y^k / k! of exp. -/
def expSeries (p : Nat) (y : Int) : Nat → Nat → Int → Int → Int
  | 0, _, _, acc => acc
  | fuel + 1, k, t, acc => expSeries p y fuel (k + 1) (t * y / ((k + 1 : Nat) * 2 ^ p)) (acc + t)

/-- exp(y) for a fixed-point y of magnitude below 1. -/
def expFix (p : Nat) (y : Int) : Int := expSeries p y (p / 4 + 24) 0 (2 ^ p) 0

/-- Terms of the series of sin (start 1) and cos (start 0). -/
def trigSeries (p : Nat) (y2 : Int) : Nat → Nat → Int → Int → Int
  | 0, _, _, acc => acc
  | fuel + 1, k, t, acc => trigSeries p y2 fuel (k + 2) (-(t * y2 / ((k + 1 : Nat) * (k + 2 : Nat) * 2 ^ p))) (acc + t)

/-- sin(y) for a fixed-point y. -/
def sinFix (p : Nat) (y : Int) : Int := trigSeries p (y * y / 2 ^ p) (p / 8 + 24) 1 y 0

/-- cos(y) for a fixed-point y. -/
def cosFix (p : Nat) (y : Int) : Int := trigSeries p (y * y / 2 ^ p) (p / 8 + 24) 0 (2 ^ p) 0

/-- A dyadic number as a fixed-point integer at `p` bits, rounded down. -/
def Dyadic.fix (d : Dyadic) (p : Nat) : Int :=
  let k := d.e + p
  if k ≥ 0 then d.m * 2 ^ k.toNat else d.m / 2 ^ (-k).toNat

/-- An exact result from one end of an interval at `p` bits, scaled by 2^k. -/
def endpoint (x : Int) (p : Nat) (k : Int) : Exact :=
  if x = 0 then .num false 0 (k - p) true else .num (decide (x < 0)) x.natAbs (k - p) true

/-- Rounds an irrational value given by ever closer approximations: `approx p` at precision p, scaled by 2^k. -/
def decideRound (f : FFmt) (r : Rnd) (approx : Nat → Int × Int) : Nat → Nat → Nat × Flags
  | 0, p =>
    let (x, k) := approx p
    round f r (endpoint x p k)
  | fuel + 1, p =>
    let (x, k) := approx p
    let lo := round f r (endpoint (x - slack) p k)
    let hi := round f r (endpoint (x + slack) p k)
    if lo == hi && decide (slack < x.natAbs) then lo else decideRound f r approx fuel (2 * p)

/-- Just above (or below) a finite value: the value moved by less than any rounding can see. -/
def nudge (neg : Bool) (m : Nat) (e : Int) (up : Bool) : Exact :=
  let m' := m * 2 ^ 64
  if up then .num neg m' (e - 64) true else .num neg (m' - 1) (e - 64) true

/-- 2^a (R83): exact for an integral a. -/
def ex2 (f : FFmt) (r : Rnd) (a : Val) : Nat × Flags :=
  match a with
  | .nan s => (nanBits f, if s then inv else 0)
  | .inf true => (signBit f false, 0)
  | .inf false => (infBits f, 0)
  | .zero _ => round f r (.num false 1 0 false)
  | .num neg m e =>
    let top := e + (bitlen m : Int) - 1
    if top ≥ 10 then round f r (.num false 1 (if neg then -2000 else 2000) false)
    else if top < -40 then round f r (nudge false 1 0 (!neg))
    else
      let d : Dyadic := { m := if neg then -(m : Int) else m, e := e }
      let n : Int := d.fix 0
      if e ≥ 0 || m % 2 ^ (-e).toNat = 0 then round f r (.num false 1 n false)
      else decideRound f r (fun p => (expFix p (((d.fix p - n * 2 ^ p) * ln2 p) / 2 ^ p), n)) 5 128

/-- log2 a (R83): exact for a power of two. -/
def lg2 (f : FFmt) (r : Rnd) (a : Val) : Nat × Flags :=
  match a with
  | .nan s => (nanBits f, if s then inv else 0)
  | .inf true => (nanBits f, inv)
  | .inf false => (infBits f, 0)
  | .zero _ => (signBit f true + infBits f, dz)
  | .num true _ _ => (nanBits f, inv)
  | .num false m e =>
    let n : Int := e + (bitlen m : Int) - 1
    let one : Nat := 2 ^ (bitlen m - 1)
    if m = one then
      (if n = 0 then round f r (.zero false) else round f r (.num (decide (n < 0)) n.natAbs 0 false))
    else
      decideRound f r (fun p =>
        let z : Int := ((m - one : Nat) * 2 ^ p) / (m + one : Nat)
        let ln := 2 * oddSeries false p (z * z / 2 ^ p) (p / 3 + 8) 0 z 0
        (n * 2 ^ p + ln * 2 ^ p / ln2 p, 0)) 5 128

/-- sin a and cos a of a finite nonzero a, reduced by multiples of π/2: the approximation at precision p. -/
def trigApprox (cosine : Bool) (d : Dyadic) (p : Nat) : Int × Int :=
  let q := p + 320
  let half := pi q / 2
  let x := d.fix q
  let k := (2 * x + half) / (2 * half)
  let y := (x - k * half) / 2 ^ 320
  let quad := ((k + (if cosine then 1 else 0)) % 4).toNat
  let v := match quad with
    | 0 => sinFix p y
    | 1 => cosFix p y
    | 2 => -(sinFix p y)
    | _ => -(cosFix p y)
  (v, 0)

/-- sin a (R83). -/
def sin (f : FFmt) (r : Rnd) (a : Val) : Nat × Flags :=
  match a with
  | .nan s => (nanBits f, if s then inv else 0)
  | .inf _ => (nanBits f, inv)
  | .zero n => round f r (.zero n)
  | .num neg m e =>
    if e + (bitlen m : Int) - 1 < -20 then round f r (nudge neg m e false)
    else decideRound f r (trigApprox false { m := if neg then -(m : Int) else m, e := e }) 5 128

/-- cos a (R83). -/
def cos (f : FFmt) (r : Rnd) (a : Val) : Nat × Flags :=
  match a with
  | .nan s => (nanBits f, if s then inv else 0)
  | .inf _ => (nanBits f, inv)
  | .zero _ => round f r (.num false 1 0 false)
  | .num neg m e =>
    if e + (bitlen m : Int) - 1 < -20 then round f r (nudge false 1 0 false)
    else decideRound f r (trigApprox true { m := if neg then -(m : Int) else m, e := e }) 5 128

/-- exp(d) ≥ t for a dyadic d and a positive dyadic t (R334), decided on the exact reals: the two are equal only for d = 0. -/
def expGe (d t : Dyadic) : Nat → Nat → Bool
  | 0, _ => false
  | fuel + 1, p =>
    let y := d.fix p
    let k := y / ln2 p
    let x := expFix p (y - k * ln2 p)
    let lo : Dyadic := { m := x - slack, e := k - p }
    let hi : Dyadic := { m := x + slack, e := k - p }
    if !lo.lt t then true else if hi.lt t then false else expGe d t fuel (2 * p)

/-- exp(d) ≥ t for any dyadic t (R334). -/
def expAtLeast (d t : Dyadic) : Bool :=
  let one : Dyadic := { m := 1, e := 0 }
  let tiny (x : Dyadic) : Bool := ({ m := x.m.natAbs, e := x.e } : Dyadic).lt { m := 1, e := -40 }
  if t.m ≤ 0 then true
  else if d.m = 0 then !one.lt t
  else if !d.lt { m := 200, e := 0 } then true
  else if d.lt { m := -200, e := 0 } then false
  else if tiny d then (if t.lt one then true else if one.lt t then false else decide (0 < d.m))
  else expGe d t 6 128

/-! ### Conversions (R57, R81, R87) -/

/-- `.sat`: the result clamped to [+0, 1.0] after rounding (R81). -/
def saturate (f : FFmt) (bits : Nat) : Nat :=
  match unpack f bits with
  | .nan _ => 0
  | v => if v.neg || v.isZero then 0
    else if lt (.num false 1 0) v then (bias f) * 2 ^ fracBits f else bits

/-- An integer as an exact value. -/
def ofInt (x : Int) : Exact := if x = 0 then .zero false else .num (decide (x < 0)) x.natAbs 0 false

/-- An FP value as an integer between `lo` and `hi` (R57): saturation and NaN set invalid. -/
def toIntSat (r : Rnd) (v : Val) (lo hi : Int) : Int × Flags :=
  match v with
  | .nan _ => (0, inv)
  | .inf true => (lo, inv)
  | .inf false => (hi, inv)
  | .zero _ => (0, 0)
  | .num neg m e =>
    if e + (bitlen m : Int) > 70 then ((if neg then lo else hi), inv)
    else
      let (n, inexact) := toInt r neg m e
      if n < lo then (lo, inv) else if n > hi then (hi, inv) else (n, if inexact then inx else 0)

end Sys2Proof.Fp
end

