-- ==== Sys2Proof/Machine/Nf.lean ====
section
/-! DEFINITION. Nf.lean: narrow formats and block scales (R58 to R68). -/

namespace Sys2Proof.Nf

open Sys2Proof.Fp (Val Flags)

/-- The fields of a format register (R58). -/
structure Fmt where
  m : Nat
  e : Nat
  s : Bool
  bias : Int
  sp : Bool
  deriving DecidableEq, Repr

/-- A format register read by its fields (R58). -/
def fmtOf (w : Half) : Fmt :=
  let x := w.toNat
  { m := field x 0 3, e := field x 3 3, s := bitAt x 6, bias := readInt 8 true (field x 7 8), sp := bitAt x 15 }

/-- Sign bits of the format. -/
def Fmt.sbits (f : Fmt) : Nat := if f.s then 1 else 0

/-- The code width n = s + e + m (R58). -/
def Fmt.width (f : Fmt) : Nat := f.sbits + f.e + f.m

/-- The contents that R59 admits. -/
def Fmt.legal (f : Fmt) : Bool :=
  decide (f.width ≤ 8) && decide (0 < f.width) && !(f.e == 0 && f.sp) && !(f.e == 1 && f.m == 0 && f.sp)

/-- Container width in bits (R62). -/
def Fmt.container (f : Fmt) : Nat := if f.width ≤ 4 then 4 else 8

/-- The largest finite magnitude L (R61). -/
def Fmt.largest (f : Fmt) : Fp.Dyadic :=
  if f.e = 0 then { m := (2 ^ f.m : Nat) - 1, e := -f.bias }
  else if !f.sp then { m := (2 ^ (f.m + 1) : Nat) - 1, e := (2 ^ f.e : Nat) - 1 - f.bias - f.m }
  else if 0 < f.m then { m := (2 ^ (f.m + 1) : Nat) - 2, e := (2 ^ f.e : Nat) - 1 - f.bias - f.m }
  else { m := 1, e := (2 ^ f.e : Nat) - 2 - f.bias }

/-- The code of L, without a sign (R60, R61). -/
def Fmt.largestCode (f : Fmt) : Nat :=
  if f.e = 0 then 2 ^ f.m - 1
  else if !f.sp then 2 ^ (f.e + f.m) - 1
  else 2 ^ (f.e + f.m) - 2

/-- The sign bit of a code. -/
def Fmt.sign (f : Fmt) : Nat := if f.s then 2 ^ (f.m + f.e) else 0

/-- The NaN code with S = 0 (R60). -/
def Fmt.nanCode (f : Fmt) : Nat := 2 ^ (f.e + f.m) - 1

/-- The code that a NaN scale gives every element (R68, R88). -/
def Fmt.nanOrZero (f : Fmt) : Nat := if f.sp then f.nanCode else 0

/-- The code of the most negative finite value of a format with a sign (R61). -/
def Fmt.lowestCode (f : Fmt) : Nat := if f.e = 0 then 2 ^ f.m else f.sign + f.largestCode

/-- The value of a code (R60). -/
def value (f : Fmt) (code : Nat) : Val :=
  let mm := code % 2 ^ f.m
  let ee := field code f.m f.e
  let neg := f.s && bitAt code (f.m + f.e)
  if f.e = 0 then
    let i := if neg then (mm : Int) - (2 ^ f.m : Nat) else mm
    if i = 0 then .zero false else .num (decide (i < 0)) i.natAbs (-f.bias)
  else if f.sp && ee == 2 ^ f.e - 1 && mm == 2 ^ f.m - 1 then .nan false
  else if ee = 0 then
    if mm = 0 then .zero neg else .num neg mm (1 - f.bias - f.m)
  else .num neg (2 ^ f.m + mm) ((ee : Int) - f.bias - f.m)

/-- What rounding into a narrow format gives: code, flags, underflow to zero, saturation (R63, R68). -/
structure Rounded where
  code : Nat
  flags : Flags
  toZero : Bool
  saturated : Bool
  deriving DecidableEq, Repr

/-- m × 2^e rounded to the nearest integer, ties away from zero, and whether that is exact. -/
def rna (m : Nat) (e : Int) : Nat × Bool :=
  if 0 ≤ e then (m * 2 ^ e.toNat, true)
  else
    let den := 2 ^ (-e).toNat
    ((2 * m + den) / (2 * den), m % den == 0)

/-- `nf_round` (R63) of the finite nonzero value (−1)^neg × m × 2^e. -/
def roundNum (f : Fmt) (neg : Bool) (m : Nat) (e : Int) : Rounded :=
  let k : Int := if f.e = 0 then 0 else max (e + (bitlen m : Int) - 1) (1 - f.bias)
  let unit : Int := if f.e = 0 then -f.bias else k - f.m
  let (q, exact) := rna m (e - unit)
  let y : Fp.Dyadic := { m := q, e := unit }
  let inexact := if exact then 0 else Fp.inx
  if q = 0 then
    { code := if neg && 0 < f.e then f.sign else 0, flags := Fp.unf ||| Fp.inx, toZero := true, saturated := false }
  else if neg && !f.s then { code := 0, flags := Fp.inv, toZero := false, saturated := false }
  else if f.e = 0 then
    if neg then
      if 2 ^ f.m < q then { code := 2 ^ f.m, flags := Fp.ovf ||| Fp.inx, toZero := false, saturated := true }
      else { code := wrap (f.m + 1) (-(q : Int)), flags := inexact, toZero := false, saturated := false }
    else if 2 ^ f.m ≤ q then
      { code := 2 ^ f.m - 1, flags := Fp.ovf ||| Fp.inx, toZero := false, saturated := true }
    else { code := q, flags := inexact, toZero := false, saturated := false }
  else
    let sg := if neg then f.sign else 0
    if f.largest.lt y then
      { code := sg + f.largestCode, flags := Fp.ovf ||| Fp.inx, toZero := false, saturated := true }
    else
      let (q', k') := if 2 ^ (f.m + 1) ≤ q then (q / 2, k + 1) else (q, k)
      let sub := decide (q' < 2 ^ f.m)
      let code := if sub then q' else (k' + f.bias).toNat * 2 ^ f.m + (q' - 2 ^ f.m)
      { code := sg + code, flags := inexact ||| (if sub && !exact then Fp.unf else 0), toZero := false, saturated := false }

/-- Conversion of any value into a narrow format (R63, R64), scaled by 2^k first. -/
def encode (f : Fmt) (v : Val) (k : Int) : Nat × Flags :=
  match v with
  | .num neg m e => let r := roundNum f neg m (e + k); (r.code, r.flags)
  | .zero neg => ((if neg && 0 < f.e then f.sign else 0), 0)
  | .nan s => if f.sp then (f.nanCode, if s then Fp.inv else 0) else (0, Fp.inv)
  | .inf false => (f.largestCode, Fp.ovf ||| Fp.inx)
  | .inf true => if f.s then (f.lowestCode, Fp.ovf ||| Fp.inx) else (0, Fp.inv)

/-- Conversion out of a narrow format (R65): the code's value times 2^(x − 127), rounded to nearest even. A NaN code or scale
gives the canonical NaN and no flag. -/
def decode (f : Fmt) (code x : Nat) (t : FFmt) : Nat × Flags :=
  if x = 255 then (Fp.nanBits t, 0)
  else
    match value f code with
    | .num neg m e => Fp.round t .rn (.num neg m (e + x - 127) false)
    | v => Fp.round t .rn v.exact

/-- `counts` (R68) over the considered elements at the trial scale s. -/
def counts (f : Fmt) (s : Int) : List Val → Nat × Nat
  | [] => (0, 0)
  | v :: vs =>
    let (u, t) := counts f s vs
    match v with
    | .num neg m e =>
      let r := roundNum f neg m (e - s)
      ((if r.toZero then u + 1 else u), (if r.saturated then t + 1 else t))
    | _ => (u, t)

/-- The larger of two magnitudes. -/
def maxMag (a b : Fp.Dyadic) : Fp.Dyadic := if a.lt b then b else a

/-- ⌈log2(a ÷ l)⌉ for positive a and l. -/
def ceilLog2 (a l : Fp.Dyadic) : Int :=
  let d : Int := (a.e + bitlen a.m.natAbs) - (l.e + bitlen l.m.natAbs)
  if ({ m := l.m, e := l.e + d } : Fp.Dyadic).lt a then d + 1 else d

/-- `choose_scale` (R68): the scale and the underflow count. Where L is 0 (the format with no bit but its sign) the quotient
amax ÷ L has no value, and the trial scale is a free value (log entry 12). -/
def chooseScale (w : Half) (vs : List Val) (satlimit : Nat) : Nat × Nat :=
  let f := fmtOf w
  if vs.any (fun v => v.isNan || v.isInf) then (255, 0)
  else
    let amax := vs.foldl (fun a v => maxMag a v.abs.dyadic) { m := 0, e := 0 }
    if amax.m = 0 then (127, 0)
    else
      let l := f.largest
      let s0 : Int := if l.m = 0 then (Config.freeScale w % 255 : Nat) - 127 else max (-127) (min 127 (ceilLog2 amax l))
      let (u, _) := counts f s0 vs
      if s0 - 1 ≥ -127 then
        let (u1, t1) := counts f (s0 - 1) vs
        if u1 < u && t1 ≤ satlimit then ((s0 - 1 + 127).toNat, min u1 255) else ((s0 + 127).toNat, min u 255)
      else ((s0 + 127).toNat, min u 255)

end Sys2Proof.Nf
end

