-- ==== Sys2Proof/Machine/Sparse.lean ====
section
/-! DEFINITION. Sparse.lean: reading and writing the sparse tables in which memories, register files and tables are held.
Keys rise strictly; a table whose readers have a default lists no entry equal to it. -/

namespace Sys2Proof

/-- The entry under a key. -/
def Sparse.look {α : Type} : Sparse α → Nat → Option α
  | [], _ => none
  | (a, v) :: r, k => if k = a then some v else Sparse.look r k

/-- The entry under a key, or the default. -/
def Sparse.getOr {α : Type} (m : Sparse α) (k : Nat) (d : α) : α := (Sparse.look m k).getD d

/-- The table with an entry set. -/
def Sparse.put {α : Type} : Sparse α → Nat → α → Sparse α
  | [], k, v => [(k, v)]
  | (a, w) :: r, k, v =>
    if k = a then (a, v) :: r else if k < a then (k, v) :: (a, w) :: r else (a, w) :: Sparse.put r k v

/-- The table without an entry. -/
def Sparse.del {α : Type} : Sparse α → Nat → Sparse α
  | [], _ => []
  | (a, w) :: r, k => if k = a then Sparse.del r k else (a, w) :: Sparse.del r k

/-- The table with an entry set, or removed where it equals the default. -/
def Sparse.putOr {α : Type} [DecidableEq α] (m : Sparse α) (k : Nat) (v d : α) : Sparse α :=
  if v = d then Sparse.del m k else Sparse.put m k v

/-- The keys of a table. -/
def Sparse.keys {α : Type} (m : Sparse α) : List Nat := m.map (·.1)

/-- Keys rise strictly, all of them above `lo`. -/
def Sparse.above {α : Type} : Nat → Sparse α → Bool
  | _, [] => true
  | lo, (a, _) :: r => decide (lo < a) && Sparse.above a r

/-- Keys rise strictly. -/
def Sparse.sorted {α : Type} : Sparse α → Bool
  | [] => true
  | (a, _) :: r => Sparse.above a r

/-- The canonical form of a table whose readers have a default: keys rise strictly and no entry equals the default. -/
def Sparse.canon {α : Type} [DecidableEq α] (d : α) (m : Sparse α) : Bool :=
  Sparse.sorted m && m.all fun e => decide (e.2 ≠ d)

/-- Update of one element of a list by index. -/
def modAt {α : Type} (f : α → α) : Nat → List α → List α
  | _, [] => []
  | 0, x :: xs => f x :: xs
  | n + 1, x :: xs => x :: modAt f n xs

/-- An element put after those whose key is not greater. -/
def insertBy {α : Type} (f : α → Nat) (x : α) : List α → List α
  | [] => [x]
  | y :: ys => if f x < f y then x :: y :: ys else y :: insertBy f x ys

/-- A list in ascending order of a key, equal keys in the order in which they stand. -/
def sortBy {α : Type} (f : α → Nat) (l : List α) : List α := l.foldl (fun acc x => insertBy f x acc) []

end Sys2Proof
end

