-- ==== Sys2Proof/Machine/StateThread.lean ====
section
/-! DEFINITION. StateThread.lean: the state of threads, bundles and blocks as plain data (R46, R116, R119 to R150, R165 to R177).
Each field's comment gives the rule that names it and its value at reset or at the start of the thing that holds it. -/

namespace Sys2Proof.Machine

/-- The state of a thread (R116). -/
inductive LaneStatus where
  | running
  /-- Parked on a rejoin mask. -/
  | parked (mask : Nat)
  /-- Waiting in a reform bin of its partition. -/
  | binned (bin : Nat)
  | faulted
  | struck
  | exited
  deriving DecidableEq, Repr

/-- What a lane's access has given: value, flags and fence scope (R288), a lane fault with its cause and address, or a restartable fault
with `pf.why`, `pf.level` and its address (R113, R265). -/
inductive Made where
  | done (val : Nat) (flags : BitVec 6) (share : Nat)
  | faulted (cause : Nat) (addr : DWord)
  | missed (cause why level : Nat) (va : DWord)
  deriving DecidableEq, Repr

/-- What a lane that waits inside an instruction keeps: its arrival, its wait condition and its clock (R174). -/
inductive Wait where
  | none
  /-- A memory access of which some lane is not served yet: what this lane's own has given, once it has been made. -/
  | access (made : Option Made)
  /-- `barrb` after its arrival; released once the phase it arrived in completes (R170). -/
  | barrb (slot : Nat) (released : Bool)
  /-- `bwait`; released once a phase has completed (R170). -/
  | bwait (slot : Nat) (released : Bool)
  /-- `bwaitt`: the clock at which the bound ends, and the outcome once known (R170). -/
  | bwaitt (slot : Nat) (due : Nat) (outcome : Option Bool)
  /-- At a `bblk` (R172). -/
  | bblk
  /-- `waitcmp`: the clock at which the bound ends, the outcome once known, and what a re-check reads and compares: the page's
  entry, the virtual and the physical address, type, cc and value (R285, R286). -/
  | waitcmp (due : Option Nat) (outcome : Option Bool) (pte : DWord) (va pa : Nat) (t : ATy) (cc : Cc) (v : Nat)
  /-- Past a `fence` whose scope is fixed, before it completes (R289). -/
  | fence (e : Nat)
  /-- A push or pull waiting at a work queue (R329). -/
  | workQueue
  /-- A remote access held at its target (R246). -/
  | remote
  /-- `shdw.open` waiting for the shadow's copy, with the handle once it is complete (R305). -/
  | shadow (handle : Option Word)
  /-- `lease.q.wait`: the entry's state at issue, the package time at which the bound ends, and whether it ended (R401). -/
  | lease (state : Nat) (due : Option Nat) (ended : Bool)
  /-- `bkwait` on a record of an exit list, chosen at its issue, with the outcome once its batch completes (R338). -/
  | exits (list rec_ : Nat) (outcome : Option Nat)
  /-- A fetch, or a read that an instruction makes once per issue, that waits on a fault-buffer record (R265). -/
  | record (seq : Word)
  /-- An access of the fault shadow that was dropped: it issues again once the faults before it are replayed (R266, R274). -/
  | replay
  /-- An operation of a block in afterglow mode in the release queue, and whether the trailer has caught up with it (R143). -/
  | outgoing (released : Bool)
  /-- A barrier wait that a pre-emption has interrupted, whose slot has been unbound meanwhile: BARRIER_STATE is raised at the waiting
  instruction once the lane returns to it (R412). -/
  | unbound (slot : Nat)
  deriving DecidableEq, Repr

/-- The context in which a thread issues: its home bundle or a drawn bundle of its block (R135). -/
inductive Ctx where
  | home (b : Nat)
  | drawn (k : Nat)
  deriving DecidableEq, Repr

/-- What pre-emption keeps of an interrupted thread (R138, R139). -/
structure Interrupted where
  pc : DWord
  status : LaneStatus
  level : Nat
  ctx : Option Nat
  wait : Wait
  group : Nat
  parkLen : Nat
  napUntil : Nat
  deriving DecidableEq, Repr

/-- A thread (R46). Values at thread start, which R46 gives. -/
structure Thread where
  /-- Program counter (R46, R48): `hdr.entry`. -/
  pc : DWord
  /-- Vector registers v0 to v254 (R46, R47): 0. -/
  v : Sparse Word
  /-- Vector registers whose stored word has an uncorrectable error (R146): none. -/
  bad : List Nat
  /-- Predicates p0 to p6 (R46): 0. -/
  p : BitVec 7
  /-- Numeric flags (R69): 0. -/
  nflags : BitVec 6
  /-- Lane status (R116): running. -/
  status : LaneStatus
  /-- The drawn bundle that the thread issues in, if any (R135): none. -/
  ctx : Option Nat
  /-- Fence horizon (R288): 0. -/
  h : Nat
  /-- Handler level, `hstat` [1:0] (R177): 0. -/
  level : Nat
  /-- `tcause` (R177): 0. -/
  tcause : DWord
  /-- `epc` (R177): 0. -/
  epc : DWord
  /-- `tval` (R177): 0. -/
  tval : DWord
  /-- `tscr` (R177): 0. -/
  tscr : DWord
  /-- The kept length of the instruction that faulted (R179): 0. -/
  faultLen : Nat
  /-- The length of the `jpark` or `bblk` at which the lane last parked or waited (R99, R172): 0. -/
  parkLen : Nat
  /-- What pre-emption interrupted, while the pre-emption handler runs (R139): none. -/
  intr : Option Interrupted
  /-- Has executed `presig` (R180): no. -/
  signalled : Bool
  /-- What the lane waits for inside an instruction (R170, R174): none. -/
  wait : Wait
  /-- The issue that the lane is still inside, by its number; 0 when the lane is between instructions (R127, R170): 0. -/
  group : Nat
  /-- The clock before which the lane's subset does not issue, set by `nap` (R111): 0. -/
  napUntil : Nat
  deriving DecidableEq, Repr

/-- One lane's part of an operand-log entry (R267). -/
structure OplogLane where
  thr : Nat
  addr : DWord
  data : BitVec 128
  data2 : BitVec 128
  replayed : Bool
  cancelled : Bool
  cause : Half
  seq : Word
  deriving DecidableEq, Repr

/-- The access that a logged lane makes again at replay (R273). -/
inductive LogAcc where
  /-- `ld` and `sld`. -/
  | load (w : MWidth)
  /-- `ldc`. -/
  | const (w : MWidth)
  | store (w : MWidth)
  /-- `ldl` and `stl`: words 512 bytes apart (R106). -/
  | loadLocal (w : MWidth)
  | storeLocal (w : MWidth)
  /-- `atom` and `red`: whether the old value is returned, and whether flags are set (R281). -/
  | atomic (t : ATy) (op : AOp) (ord : AOrd) (returns flags : Bool)
  /-- `clean.r` 0, `inv.r` 1, `flush.r` 2, on a length. -/
  | range (k len : Nat)
  /-- An instruction that acts once per issue and reads memory first: it issues again. -/
  | reissue
  deriving DecidableEq, Repr

/-- An operand-log entry (R267), with the pending destination that the scoreboard keeps for it (R131, R265). -/
structure OplogEntry where
  pc : DWord
  bits : BitVec 128
  len : Nat
  acc : LogAcc
  /-- The pending destination and the registers it spans. -/
  dst : Dst
  span : Nat
  /-- The hint that the access was issued with (R102). -/
  hint : Hint
  lanes : List OplogLane
  deriving DecidableEq, Repr

/-- A home bundle (R46, R119). Values at block start. -/
structure Bundle where
  /-- Scalar registers s0 to s63 (R46): 0. -/
  s : Sparse Word
  /-- Scalar registers whose stored word has an uncorrectable error (R146): none. -/
  bad : List Nat
  /-- Rejoin masks j0 to j7 (R46, R98): 0. -/
  j : Sparse (BitVec 128)
  /-- Format registers f0 to f15 (R46, R58): 0x0000. -/
  f : Sparse Half
  /-- Operand log, 8 entries (R267): empty. -/
  oplog : Sparse OplogEntry
  /-- Bank status (R312): 0. -/
  bankStatus : Word
  /-- The stamps of the bank commands performed since the last `bk.wait`, joined (R378, R379): none. -/
  bankSeen : List Nat
  /-- Producer and consumer counts of each ring, by first slot (R175): 0. -/
  rings : Sparse (Nat × Nat)
  /-- Slices supplied to collective copies so far (R296): 0. -/
  slices : Nat
  /-- Age of the bundle, the clock of placement, restore or `yield` (R127, R160). -/
  age : Nat
  /-- The clock since which the bundle has been ready without issuing (R127). -/
  readySince : Option Nat
  /-- Leader of the current PC subset, and the threads that last issued as it (R129): none. -/
  leader : Option Nat
  cur : List Nat
  /-- Instructions issued from the current subset since it was chosen (R129): 0. -/
  turn : Nat
  deriving DecidableEq, Repr

/-- A clock that covers no write (R378). -/
def Bundle.unseen : List Nat := [0, 0, 0, 0, 0, 0]

/-- A drawn bundle (R135, R136). -/
structure Drawn where
  part : Nat
  donor : Nat
  members : List Nat
  s : Sparse Word
  /-- Its scalar registers whose stored word has an uncorrectable error (R146). -/
  bad : List Nat
  f : Sparse Half
  /-- Its operand log (R267). -/
  oplog : Sparse OplogEntry
  drawnAt : Nat
  /-- Age for the ordering of R127: the draw time, or the clock of the last `yield` (R160). -/
  age : Nat
  firstIssue : Option Nat
  readySince : Option Nat
  leader : Option Nat
  cur : List Nat
  turn : Nat
  deriving DecidableEq, Repr

/-- The launch header (R122). -/
structure Header where
  entry : DWord
  handler : DWord
  last : DWord
  w : List Nat
  regs : Nat
  ncopy : Nat
  nmat : Nat
  nvec : Nat
  scratch : Nat
  barriers : Nat
  afterglow : Bool
  lanefault : Nat
  prio : Nat
  domain : Nat
  depth : Nat
  param : DWord
  done : DWord
  deriving DecidableEq, Repr

/-- A bound barrier slot (R165 to R167): the record's scratch address, the member set, the members whose arrived mark is
set, whether an update has been applied since the phase began, and the phases completed since a ring was bound. -/
structure Slot where
  addr : Nat
  members : List Nat
  arrived : List Nat
  updated : Bool
  phases : Nat
  /-- The base phase of a ring's slot: its `bar.phase` at the `ring.bind` (R175). -/
  base : Bool
  deriving DecidableEq, Repr

/-- A stage ring (R175): its first slot and its depth. -/
structure Ring where
  first : Nat
  depth : Nat
  deriving DecidableEq, Repr

/-- The kinds of collective copy (R294). -/
inductive CopyKind where
  | plain
  | expand (e : CpElem)
  | compact (e : CpElem)
  deriving DecidableEq, Repr

/-- One slice of a collective copy (R294, R296): its bundle, its copy's number and its shape. -/
structure Slice where
  bundle : Nat
  thr : Nat
  k : Nat
  kind : CopyKind
  s2g : Bool
  slot : Option Nat
  g : DWord
  sc : Nat
  len : Nat
  rows : Nat
  gstride : Int
  sstride : Nat
  deriving DecidableEq, Repr

/-- A collective copy accepted and not yet retired (R296). -/
structure Copy where
  k : Nat
  kind : CopyKind
  s2g : Bool
  slot : Option Nat
  slices : List Slice
  /-- Rows of the slices, in slice order, that have landed. -/
  landed : Nat
  /-- The engine record that the copy waits on (R297). -/
  waitSeq : Option Word
  cancelled : Bool
  deriving DecidableEq, Repr

/-- One row of an accumulator tile (R204): mantissas by column (reset 0), mask bits (0), exponent (no meaning while empty),
`acc.empty` (1), `acc.rtrc` (0), `acc.rren` (0), `acc.rinv` (0). -/
structure AccRow where
  m : Sparse Mant
  mask : BitVec 128
  e : Int
  empty : Bool
  rtrc : Bool
  rren : Bool
  rinv : Bool
  deriving DecidableEq, Repr

/-- An accumulator tile (R204): rows by number, `acc.rcount` (0), `acc.event` (invalid, all zero), `acc.arm` (0). -/
structure Tile where
  rows : Sparse AccRow
  rcount : Nat
  event : BitVec 128
  arm : Bool
  deriving DecidableEq, Repr

/-- A unit of the interval journal with its old value (R145). -/
inductive JEntry where
  | vrow (bundle k : Nat) (old : List Word)
  | srow (row : Nat) (old : List Word) (bad : List Nat)
  | trow (part tile row : Nat) (old : AccRow)
  | obuf (part kib : Nat) (old : List Byte) (bad : List Nat)
  /-- An arrival from outside the block, applied again after a rollback: slot and byte count (R145, R148). -/
  | external (slot : Nat) (bytes : Int) (arrives : Bool)
  deriving DecidableEq, Repr

/-- The states of an operand-buffer record (R212). -/
inductive ObState where
  | free | reserved | filling | ready | failed
  deriving DecidableEq, Repr

/-- An operand-buffer record (R213, R215): its state, the descriptor and the format captured at `obres`. -/
structure ObRec where
  state : ObState
  desc : BitVec 128
  fmt : Half
  deriving DecidableEq, Repr

/-- The checkpoint of an interval (R145): the control context with the scalar, predicate, format and flag state. -/
structure Checkpoint where
  threads : List Thread
  bundles : List Bundle
  drawn : Sparse Drawn
  slots : Sparse Slot
  rings : List Ring
  records : Sparse (Sparse ObRec)
  seqs : Sparse Nat
  /-- Slices then supplied to copies not yet accepted (R296). -/
  slices : List Slice
  /-- The checkpoint, or the journal beside it, has an uncorrectable error (R150): no. -/
  bad : Bool
  deriving DecidableEq, Repr

/-- The states of a block (R150). -/
inductive BlockState where
  | placed | running | preempting | saved | restored | rollingBack | killed | completed
  deriving DecidableEq, Repr

/-- An instruction that the leader has issued and the trailer is still to issue (R143): its context, program counter and active
lanes, and the numeric flags that the leader read. Where the leader obtained its values from outside the bundle they stand in the
load-value queue, as destination value and flags by lane. -/
structure TrailItem where
  ctx : Ctx
  pc : DWord
  act : List Nat
  i : Instr
  flags : List (BitVec 6)
  vals : Option (List (Nat × Nat × BitVec 6))
  deriving DecidableEq, Repr

/-- The trailing copies of a block in afterglow mode (R143): the registers, predicates, flags and masks of its threads and home
bundles, and the instructions not yet issued, oldest first. Everything else is the leader's: the trailer has the same subsets. -/
structure Trail where
  threads : List Thread
  bundles : List Bundle
  todo : List TrailItem
  deriving DecidableEq, Repr

/-- A partition's matrix state and a scratchpad image, as the hardware save keeps them (R140, R233), with the poison that they
carry (R185, R217). -/
structure SavedData where
  scratch : List Word
  poison : List Nat
  bufPoison : Sparse (Sparse Unit)
  buffers : Sparse (Sparse Byte)
  tiles : Sparse (Sparse Tile)
  deriving DecidableEq, Repr

/-- A block (R5, R52, R138 to R150, R177). -/
structure Block where
  /-- The grid (launch) that the block belongs to, and its position in placement order (R321, R323). -/
  grid : Nat
  pos : Nat
  /-- Placement: core of the package, 48 × die + 4 × cluster + core in cluster (R120). -/
  core : Nat
  /-- Launch header, the launch engine's own copy (R122). -/
  hdr : Header
  /-- Work identifier with field 0 zero (R50). -/
  wid : DWord
  /-- Block state (R150). -/
  state : BlockState
  /-- Threads by index (R52). -/
  threads : List Thread
  /-- Home bundles (R52). -/
  bundles : List Bundle
  /-- Drawn bundles by number (R135). -/
  drawn : Sparse Drawn
  /-- Bound slots b0 to b15 (R165). -/
  slots : Sparse Slot
  /-- Stage rings (R175). -/
  rings : List Ring
  /-- Row map: physical row of each logical scratchpad row (R184). -/
  rows : List Nat
  /-- Partitions (0 to 3) whose matrix unit the block owns (R120). -/
  mats : List Nat
  /-- Address space: isolation domain is `hdr.domain`; address-space number and translation root (R253, R257). -/
  asn : Nat
  root : Nat
  /-- `tvec` (R177): the domain handler table's entry (R322). -/
  tvec : DWord
  /-- `savebase` (R177, R321). -/
  savebase : DWord
  /-- `hwsave` (R177, R321). -/
  hwsave : DWord
  /-- `locbase` and `locsz` (R106, R321). -/
  locbase : DWord
  locsz : Word
  /-- `dbgctl` (R177): 0. -/
  dbgctl : Word
  /-- `shdwwin` (R304, R321). -/
  shdwwin : DWord
  /-- Slices not yet taken into an accepted copy, and copies in flight (R296). -/
  slices : List Slice
  copies : List Copy
  /-- The number of copies accepted so far (R296). -/
  accepted : Nat
  /-- The interval's checkpoint, journal, journalled bytes, irrevocability and rollback count (R145 to R148). -/
  check : Option Checkpoint
  journal : List JEntry
  logged : Nat
  irrevocable : Bool
  rollbacks : Nat
  /-- The consumption being rolled back: its trigger code and address (R270). -/
  trig : Nat
  trigAddr : DWord
  /-- The clock at which the pre-emption timer ends (R139): none. -/
  preemptDue : Option Nat
  /-- A pre-emption request held until the block runs (R150). -/
  preemptHeld : Bool
  /-- Saved by hardware under R140 (yes) or after `presig` under R139 (no). -/
  savedByHw : Bool
  /-- Being swapped out, or saved, alone because its bundles all wait on `waitcmp` (R138, R242, R287). -/
  swapOut : Bool
  /-- Threads in the supervisor handler that take the pre-emption trap after their `tret` (R139). -/
  trapDue : List Nat
  /-- What the hardware save keeps of scratchpad, tiles and operand buffers (R140). -/
  saved : Option SavedData
  /-- Matrix records and sequence numbers saved with the control context (R209, R233). -/
  savedRecords : Sparse (Sparse ObRec)
  savedSeqs : Sparse Nat
  /-- Tile fields `acc.rcount`, `acc.event`, `acc.arm` saved by hardware, by partition and tile (R233). -/
  savedTiles : Sparse (Nat × BitVec 128 × Bool)
  /-- Arrivals of children held while the block is saved (R325). -/
  heldArrivals : List Nat
  /-- Lanes struck so far (R114). -/
  struck : Nat
  /-- Killed, with engine commands and copies still to complete before its resources are released (R114, R149, R150): no. -/
  draining : Bool
  /-- Afterglow: the trailing copy (R143); none outside afterglow mode. -/
  trail : Option Trail
  /-- The clock of placement, which orders pre-emption (R320). -/
  placedAt : Nat
  deriving DecidableEq, Repr

end Sys2Proof.Machine
end

