-- ==== Sys2Proof/Machine/StateDie.lean ====
section
/-! DEFINITION. StateDie.lean: the state of cores, partitions, clusters and dies as plain data (R119, R183 to R200, R201 to R218,
R240 to R279, R285 to R338). Each field's comment gives the rule that names it and its value at reset. -/

namespace Sys2Proof.Machine

/-- What issues now: the block, the context, the chosen program counter and the active lanes as thread indices in ascending
home-lane order (R72); whether it turned out that it cannot issue (R127, R129). -/
structure Sel where
  blk : Nat
  ctx : Ctx
  pc : DWord
  act : List Nat
  stalled : Bool := false
  /-- Lanes whose requests of scratchpad are served in later passes, after other requesters' (R186). -/
  later : List Nat := []
  deriving DecidableEq, Repr

/-- The error state of a stored scratchpad word (R185, R194). -/
inductive Ecc where
  | single | double
  deriving DecidableEq, Repr

/-- A core's scratchpad (R183). Data words are keyed 256 × row + bank, parity words 16 × row + group. -/
structure Scratchpad where
  /-- Data words (R183): 0. -/
  data : Sparse Word
  /-- Poison markers by data word (R185): none. -/
  poison : Sparse Unit
  /-- Words whose check bits show an error, by data word (R194): none. -/
  ecc : Sparse Ecc
  /-- Parity words (R183): 0. -/
  parity : Sparse Word
  /-- Parity words found uncorrectable when next read (R195): none. -/
  parityUe : Sparse Unit
  /-- Parity queues by group, oldest first: row and delta (R191): empty. -/
  queue : Sparse (List (Nat × Word))
  /-- Lost group rows (R193): none. -/
  lost : Sparse Unit
  /-- Retired bank of each degraded group (R197): none. -/
  retired : Sparse Nat
  /-- Corrected words to be rewritten (R194): none. -/
  rewrites : List Nat
  /-- Counters of `spstat` 0 to 3 (R164, R200): 0. -/
  reconstructed : Nat
  staleWaits : Nat
  queueStalls : Nat
  reconFaults : Nat
  /-- Corrected-error counts by bank (R194, R358): 0. -/
  corrected : Sparse Nat
  deriving DecidableEq, Repr

/-- A reform bin (R134): its key and its threads with the clock at which each was filed. -/
structure Bin where
  blk : Nat
  pc : DWord
  donorRole : Nat
  threads : List (Nat × Nat)
  deriving DecidableEq, Repr

/-- A fill of an operand-buffer record in progress (R212, R217): the bytes read at issue, or the peer source still to be
read. -/
structure Fill where
  blk : Nat
  ob : Nat
  bytes : List Byte
  poison : List Nat
  remote : Option (Nat × Nat)
  /-- Its bytes in number. -/
  len : Nat
  /-- The lanes that issued it: their later stores to the peer wait for it (R217). -/
  thrs : List Nat
  deriving DecidableEq, Repr

/-- A partition (R119, R201): reform bins, tiles, records, operand buffer, sequence number. Keyed 4 × core + partition. -/
structure Partition where
  /-- Reform bins, 16 (R134): none open. -/
  bins : Sparse Bin
  /-- Accumulator tiles a0, a1 (R204): reset rows. -/
  tiles : Sparse Tile
  /-- Operand-buffer records o0 to o7 (R212): FREE. -/
  records : Sparse ObRec
  /-- Operand buffer bytes, 256 KiB (R201): 0. -/
  buf : Sparse Byte
  /-- Poisoned operand-buffer bytes (R217): none. -/
  bufPoison : Sparse Unit
  /-- Partition sequence number (R209): 0. -/
  seq : Nat
  /-- Block that owns the matrix unit (R120): none. -/
  owner : Option Nat
  /-- Fills in progress (R212): none. -/
  fills : List Fill
  deriving DecidableEq, Repr

/-- A range-scoreboard entry (R256). -/
structure SbEntry where
  blk : Nat
  copy : Nat
  s2g : Bool
  lo : Nat
  hi : Nat
  deriving DecidableEq, Repr

/-- A line held in a core's L1 (R253): its tag, the page it came from with the page's sharing scope, and the bytes held. -/
structure L1Line where
  dom : Nat
  asn : Nat
  line : Nat
  page : Nat
  size : Nat
  share : Nat
  pa : Nat
  /-- Bytes held, by offset in the line, and those of them that were filled poisoned (R253). -/
  bytes : Sparse Byte
  bad : List Nat
  /-- Its stored words have an uncorrectable error (R253): no. -/
  ue : Bool
  /-- Its last use has been announced: it is a preferred victim (R102). -/
  lu : Bool
  deriving DecidableEq, Repr

/-- An aligned block of 32 bytes of the instruction stream held in a core's instruction cache (R278, log entry 11): its key, its page and
its bytes. -/
structure ILine where
  dom : Nat
  asn : Nat
  unit : Nat
  page : Nat
  size : Nat
  pa : Nat
  bytes : List Byte
  deriving DecidableEq, Repr

/-- A cached leaf or pointer (R262): its key, what it maps, the entry's 64 bits and the address of the entry, of a leaf's first replica (R258). -/
structure TlbLeaf where
  dom : Nat
  asn : Nat
  va : Nat
  size : Nat
  pte : DWord
  level : Nat
  leaf : Nat
  deriving DecidableEq, Repr

/-- A remote scratchpad access held at its target's port (R246): the issue and the instruction. -/
structure RemoteReq where
  sel : Sel
  i : Instr
  target : Nat
  /-- The lanes with their scratch addresses, data and whether the data is poisoned, as of the issue (R132, R246). -/
  lanes : List (Nat × Nat × Nat × List Nat)
  deriving DecidableEq, Repr

/-- A core (R119). Keyed 48 × die + 4 × cluster + core in cluster. -/
structure Core where
  scratch : Scratchpad
  /-- Range scoreboard, 32 entries (R256): empty. -/
  sb : List SbEntry
  /-- L1 lines (R253): none. -/
  l1 : List L1Line
  /-- Translation cache, 512 leaves (R262): empty. -/
  tlb : List TlbLeaf
  /-- Instruction cache (R278): empty. -/
  icache : List ILine
  /-- `specdrop` (R274, R279): 0. -/
  specdrop : DWord
  /-- `jrnbase`, `jrnsize` (R177): set by the package kernel; DESIGN CHOICE 0, log entry 6. -/
  jrnbase : DWord
  jrnsize : Word
  /-- In service (R197): yes. -/
  inService : Bool
  /-- Remote accesses held at the cluster port, oldest first (R246): none. -/
  port : List RemoteReq
  deriving DecidableEq, Repr

/-- A swap-table entry (R248) with its valid and restoring bits. -/
structure SwapEntry where
  blk : Nat
  valid : Bool
  restoring : Bool
  core : Nat
  nbar : Nat
  bound : Half
  cohort : Word
  bars : Nat
  deriving DecidableEq, Repr

/-- A cluster (R240, R248, R250). Keyed 12 × die + cluster. -/
structure Cluster where
  /-- Swap table, 64 entries (R248): empty. -/
  swap : List SwapEntry
  /-- The network is down (R251): no. -/
  down : Bool
  /-- Failures of the flit now being retried, by link (R240): 0. -/
  retries : Sparse Nat
  /-- Merge entries for remote fills, 8 (R250): empty. Each names the peer core, address and length. -/
  merges : List (Nat × Nat × Nat)
  deriving DecidableEq, Repr

/-- A byte held in an L2: its value and whether its write-mask bit is set (R255). -/
structure L2Byte where
  val : Byte
  masked : Bool
  /-- The blocks and threads whose stores the mask bit stands for: the writer list of R398 and the fences of R289 read it. -/
  writers : List (Nat × Nat)
  deriving DecidableEq, Repr

/-- A die's L2, or the caches of the processor chiplet (R254, R255, R348, R413): bytes by physical address; the valid and the poisoned
sectors by sector number. -/
structure L2Cache where
  bytes : Sparse L2Byte
  valid : Sparse Unit
  poison : Sparse Unit
  deriving DecidableEq, Repr

/-- Why an access is not performed now. -/
inductive Stop where
  /-- A lane fault (R103). -/
  | lane (cause : Nat)
  /-- A restartable fault (R264) with `pf.why` and `pf.level` (R269). -/
  | restart (cause why level : Nat)
  /-- The access waits: no slot of its charge domain (R354), or no answer from a peer yet (R392). -/
  | wait
  /-- A poison read, with the physical address (R146). -/
  | poison (pa : Nat)
  deriving DecidableEq, Repr

/-- A request in a die's walk queue or at one of its walkers (R262): the cores that wait for it, its page in units of 4 KiB, its
address space, and what the first access would do; once its walk has failed, why, for the accesses that asked for it. -/
structure WalkReq where
  cores : List Nat
  dom : Nat
  asn : Nat
  page : Nat
  root : Nat
  acc : Access
  /-- The bytes of the access that asked. -/
  size : Nat
  failed : Option Stop
  deriving DecidableEq, Repr

/-- A lane fault record (R115). -/
structure LaneRec where
  cause : Half
  lane : Nat
  bundle : Nat
  policy : Nat
  code : Byte
  width : Nat
  store : Bool
  slot : Nat
  core : Nat
  die : Nat
  pc : DWord
  addr : DWord
  wid : DWord
  deriving DecidableEq, Repr

/-- A restartable record (R269). -/
structure RestartRec where
  cause : Half
  why : Nat
  acc : Nat
  level : Nat
  engine : Bool
  domain : Nat
  asn : Nat
  count : Nat
  va : DWord
  cores : BitVec 48
  pc : DWord
  deriving DecidableEq, Repr

/-- A rollback or fatal record (R270). -/
structure BlockRec where
  cause : Half
  trig : Nat
  count : Nat
  core : Nat
  die : Nat
  wid : DWord
  addr : DWord
  done : DWord
  deriving DecidableEq, Repr

/-- A fault-buffer record of one of the four kinds (R268). -/
inductive FbRec where
  | lane (r : LaneRec)
  | restart (r : RestartRec)
  | rollback (r : BlockRec)
  | fatal (r : BlockRec)
  deriving DecidableEq, Repr

/-- A fault-buffer entry (R268): `fb.seq`, the record, and `fb.state` taken. -/
structure FbEntry where
  seq : Word
  body : FbRec
  taken : Bool
  deriving DecidableEq, Repr

/-- Who waits on a restartable fault (R265, R273). -/
inductive Waiter where
  /-- Lanes of one entry of a bundle's operand log. -/
  | lanes (blk bundle entry : Nat) (thrs : List Nat)
  /-- A fetch of the lanes named. -/
  | fetch (blk : Nat) (thrs : List Nat)
  /-- A collective copy. -/
  | copy (blk k : Nat)
  /-- A bulk command of the die, by its number. -/
  | bulk (k : Nat)
  /-- The launch engine's read of a queue's packet. -/
  | packet (q : Nat)
  /-- The launch engine's write of a grid's completion record. -/
  | completion (g : Nat)
  /-- The backfill engine's read of a batch's packet or header, by exit list. -/
  | batch (e : Nat)
  /-- A write that its target's home has refused (R364), by its target and stamp. -/
  | write (target : Nat) (stamp : List Nat)
  /-- An engine's store for a launch queue, or, from 64, for an exit list. -/
  | store (key : Nat)
  deriving DecidableEq, Repr

/-- Who makes an access: its die, the core whose translation cache and L1 serve it (none for an engine of the die), its
address space, its shadow window and the owner code that it carries (R262, R304, R349). -/
structure Who where
  die : Nat
  core : Option Nat
  dom : Nat
  asn : Nat
  root : Nat
  win : Nat
  code : Nat
  deriving DecidableEq, Repr

/-- A store that an engine makes for no block: a read count, an exit list's record or status block (R315, R333); by launch queue, or
from 64 by exit list; what it waits on. -/
structure EngStore where
  key : Nat
  who : Who
  va : Nat
  bytes : List Byte
  waitSeq : Option Word
  deriving DecidableEq, Repr

/-- A restartable fault that waits for a free entry (R271). -/
structure Deferred where
  body : RestartRec
  who : Waiter
  deriving DecidableEq, Repr

/-- Who waits at a work queue (R329, R336): an issue, or the engine of an exit list. -/
inductive WqWaiter where
  | issue (sel : Sel) (i : Instr)
  | batch (e : Nat)
  deriving DecidableEq, Repr

/-- A work queue (R327): assignment, open or closed, items oldest first, waiting issues oldest first (R329). -/
structure WorkQueue where
  /-- The (domain, asn) pair it is assigned to (R327): none. -/
  owner : Option (Nat × Nat)
  closed : Bool
  items : List DWord
  waiting : List WqWaiter
  deriving DecidableEq, Repr

/-- A batch of the backfill engine (R336): first record and count, fixed as it is formed; its packet once read; whether its item is
pushed; its grid once launched; the record that a read of it waits on, and whether that was cancelled. -/
structure Batch where
  first : Nat
  count : Nat
  pkt : Option Nat
  pushed : Bool
  grid : Option Nat
  waitSeq : Option Word
  cancelled : Bool
  deriving DecidableEq, Repr

/-- An exit list (R333). -/
structure ExitList where
  /-- Registration: domain, asn and queue (R333): none. -/
  owner : Option (Nat × Nat × Nat)
  base : DWord
  lcap : Nat
  bmax : Nat
  bmin : Nat
  bwait : Nat
  pkt : DWord
  wq : Nat
  stat : DWord
  /-- fill, handed, done, dropped appends, failed batches (R333): 0. -/
  fill : Nat
  handed : Nat
  done : Nat
  dropped : Nat
  failed : Nat
  /-- Appended records by index: token and layer (R333). -/
  recs : Sparse (Word × Half)
  /-- First record of each group handed and the package time at which it was (R336). -/
  handedAt : List (Nat × Nat)
  /-- First record and count of each failed batch (R338). -/
  failedBatches : List (Nat × Nat)
  batch : Option Batch
  deriving DecidableEq, Repr

/-- A shadow-table entry (R304): generation, and while open its buffer, page frames and the page attributes. -/
structure Shadow where
  gen : Nat
  opened : Bool
  dom : Nat
  asn : Nat
  base : DWord
  len : Nat
  /-- Pages: virtual base, page size in bytes, frame base, and the physical address of the leaf's first replica with the
  replica count (R305, R307). -/
  pages : List (Nat × Nat × Nat × Nat × Nat)
  pte : DWord
  /-- The block and threads that wait for the initial copy (R305). -/
  copying : Option (Nat × List Nat)
  deriving DecidableEq, Repr

/-- A pilot-table entry (R286): slice, block, thread of the waiting issue, and granule. -/
structure Pilot where
  slice : Nat
  blk : Nat
  thr : Nat
  granule : Nat
  deriving DecidableEq, Repr

/-- The bulk engine's command kinds (R299 to R305). -/
inductive BulkKind where
  | gather (list : DWord) (n : Nat) (status : DWord)
  /-- Source and destination base of each lane, length, count, stride, slot (R301). -/
  | fan (lanes : List (DWord × DWord)) (len count : Nat) (stride : Int) (slot : Option Nat)
  | sealed (dec : Bool) (desc : DWord)
  deriving DecidableEq, Repr

/-- A queued bulk command (R299): its issuing block and threads; what its engine has read of its list or descriptor (R303), the
entries or data units done, the code once it has ended and its status word is still to be written, and the record it waits on. -/
structure BulkCmd where
  k : Nat
  blk : Nat
  thrs : List Nat
  kind : BulkKind
  buf : Option (List Byte)
  done : Nat
  code : Option Nat
  waitSeq : Option Word
  cancelled : Bool
  /-- Issued before its block's interval opened (R145). -/
  pre : Bool
  deriving DecidableEq, Repr

/-- The bank commands (R310). -/
inductive BankOp where
  | add | mul | fma | red (op : BkRedOp) | scale | cmp (cc : Cc) | fill
  deriving DecidableEq, Repr

/-- A queued bank command (R310, R311), with the pages that its ranges were found in at issue: virtual base, size and physical
base. -/
structure BankCmd where
  k : Nat
  blk : Nat
  bundle : Nat
  thrs : List Nat
  pages : List (Nat × Nat × Nat)
  op : BankOp
  t : BkTy
  rnd : Rnd
  n : Nat
  d : DWord
  a : DWord
  b : DWord
  c : DWord
  scalar : Word
  /-- Elements performed already, in any order, and the lanes, by operand log and entry, of earlier memory-side atomic steps of the bundle that
  overlap the command and awaited replay at its issue (R311). -/
  done : List Nat
  after : List (Nat × Nat × Nat)
  deriving DecidableEq, Repr

/-- A copy that the package kernel has a bulk engine make (R349, R397): its number, source and destination by physical address, and the bytes left. -/
structure KernelCopy where
  k : Nat
  src : Nat
  dst : Nat
  left : Nat
  deriving DecidableEq, Repr

/-- The warm-reset state of a die (R363, R364): 0 admitted, 1 to 5 the highest step begun, 6 out of service. -/
structure ResetState where
  step : Nat
  tries : Nat
  deriving DecidableEq, Repr

/-- A compute die (R254 to R279, R299 to R338). Keyed 0 to 3. -/
structure Die where
  /-- Die clock counter (R20, R414): 0. -/
  clk : Nat
  /-- The clock at which the current slot began (R354, log entry 1): 0. -/
  slotAt : Nat
  /-- Core clock in MHz (R4, R359): 2200. -/
  mhz : Nat
  /-- The sensors that hold it at 1.0 GHz (R360): 0 its own, 1 and 2 those of its stacks: none. -/
  hot : List Nat
  /-- The L2 (R254, R255, R413): empty. -/
  l2 : L2Cache
  /-- Die translation cache, 16,384 leaves and pointers (R262): empty. -/
  tlb : List TlbLeaf
  /-- Walk queue, 256 requests, behind 64 walkers (R262), oldest first: empty. -/
  walks : List WalkReq
  /-- Fault buffer in sequence order (R268): empty. -/
  fb : List FbEntry
  /-- The next sequence number (R268, R414): 1. -/
  fbNext : Word
  /-- Overflow count (R271, R276): 0. -/
  overflow : Word
  /-- Faults waiting for a free entry (R271): none. -/
  deferred : List Deferred
  /-- `svcdom` (R279): 0. -/
  svcdom : Half
  /-- Work queues 0 to 31 (R327): unassigned, open, empty. -/
  wqs : Sparse WorkQueue
  /-- Exit lists 0 to 15 (R333): unregistered. -/
  exits : Sparse ExitList
  /-- Shadow table, 256 entries (R304): none open. -/
  shadows : Sparse Shadow
  /-- Free frames of the shadow pool, by 4 KiB frame number (R304): none. -/
  pool : List Nat
  /-- Pilot table, 64 entries in each slice (R286): empty. -/
  pilots : List Pilot
  /-- Issues of `waitcmp` that found no free entry: block, thread, and the clock of their last look (R286): none. -/
  polls : List (Nat × Nat × Nat)
  /-- Bulk command queue, 64 commands (R299): empty; and the number of the next command. -/
  bulk : List BulkCmd
  bulkNext : Nat
  /-- The package kernel's own copies (R397): none. -/
  kcopies : List KernelCopy
  /-- Bank commands issued and not performed (R311): none. -/
  bank : List BankCmd
  bankNext : Nat
  /-- Stores of the engines that are still to be made, in order (R315, R333): none. -/
  stores : List EngStore
  /-- Warm-reset state (R363): admitted. -/
  warm : ResetState
  /-- Incarnation number (R363, R364): the manual gives no first value; DESIGN CHOICE 0, log entry 6. -/
  incarnation : Half
  deriving DecidableEq, Repr

end Sys2Proof.Machine
end

