-- ==== Sys2Proof/Machine/StateHub.lean ====
section
/-! DEFINITION. StateHub.lean: the state of the hub and of the package as plain data (R314 to R323, R345 to R366, R368 to R378,
R385 to R406). Each field's comment gives the rule that names it and its value at reset. -/

namespace Sys2Proof.Machine

/-- The life of an accepted launch (R318 to R323). -/
inductive GridState where
  /-- Waiting for its dependences (R319). -/
  | waiting
  /-- Placing or running. -/
  | active
  /-- Complete, with bytes 8 to 31 of its completion record written (R323). -/
  | recorded
  | complete
  deriving DecidableEq, Repr

/-- A grid: an accepted launch (R318 to R325). Keyed by acceptance number. -/
structure Grid where
  queue : Nat
  seq : Nat
  die : Nat
  hdr : Header
  /-- Fields of the launch packet (R317). -/
  locbase : DWord
  locsz : Word
  save : DWord
  savesz : Nat
  /-- The dependences: queue and sequence number (R317, R319). -/
  deps : List (Nat × Nat)
  /-- Translation root, address-space number and shadow window of the queue at acceptance (R321). -/
  root : Nat
  asn : Nat
  shdw : DWord
  state : GridState
  /-- The number of blocks, and how many are placed in the order of R53. -/
  total : Nat
  placed : Nat
  /-- Blocks ended and blocks killed (R323). -/
  ended : Nat
  killed : Nat
  struck : Nat
  children : Nat
  /-- Children not yet complete, and whether one completed with another status than OK. -/
  openChildren : Nat
  childFailed : Bool
  /-- Sequence number of the first fatal record (R323). -/
  fault : Word
  nofrc : Bool
  /-- The priority that its effective priority starts as, at acceptance (R320). -/
  prio : Nat
  /-- Package time of acceptance, and levels risen while waiting (R320). -/
  since : Nat
  rise : Nat
  /-- Passed over at effective priority 7 (R320). -/
  passed : Bool
  /-- Parent: grid, block and slot of `.arr` (R324, R325). -/
  parent : Option (Nat × Nat × Option Nat)
  /-- The exit list of a backfill batch (R336). -/
  batch : Option Nat
  status : Nat
  /-- The domain in which its completion record is written; refused at acceptance (R318). -/
  dom : Nat
  refused : Bool
  /-- The enabling of its queue in which it was accepted (R314). -/
  era : Nat
  /-- The record that the write of its completion record waits on, and whether that was cancelled (R269, R323). -/
  waitSeq : Option Word
  cancelled : Bool
  deriving DecidableEq, Repr

/-- A launch queue (R314, R315, R318, R326). -/
structure Queue where
  cfg : QueueCfg
  /-- Read count (R315): 0. -/
  read : DWord
  /-- The largest write count observed (R315): 0. -/
  seen : DWord
  /-- Next sequence number (R318): 1; whether it has wrapped; how often the queue has been enabled (R314). -/
  seqNext : Word
  wrapped : Bool
  era : Nat
  halted : Bool
  /-- Refused packets (R326): 0; status of the last refusal: 0. -/
  refused : Word
  lastRefusal : Nat
  /-- Statuses of the last 4,096 sequence numbers (R319); none while the launch is not complete. -/
  history : List (Nat × Option Nat)
  /-- The record that the read of the packet waits on (R315). -/
  waitSeq : Option Word
  /-- The packet's read was cancelled (R315). -/
  cancelled : Bool
  /-- Bytes of the `q.hwsave` pool in use, by block (R321). -/
  hwUsed : List (Nat × Nat × Nat)
  deriving DecidableEq, Repr

/-- A lease-table entry (R351) with the times and the sharers that its moves use (R352, R392). -/
structure Lease where
  state : Nat
  size : Nat
  port : Nat
  gen : Nat
  id : Nat
  base : Nat
  expiry : Nat
  since : Nat
  sharers : List Nat
  deriving DecidableEq, Repr

/-- A borrow-table entry (R395). Its writer list (R398) is read from the mask bits in the L2s. -/
structure Borrow where
  state : Nat
  size : Nat
  dom : Nat
  wide : Bool
  port : Nat
  gen : Nat
  inc : Nat
  id : Nat
  /-- Package time of expiry in nanoseconds; none for no expiry. -/
  expiry : Option Nat
  /-- In RECALLING, the back-invalidation has been answered (R396); in RELEASING, the acknowledgement of R393 has been sent. -/
  acked : Bool
  deriving DecidableEq, Repr

/-- The state of a migration counter (R399, R400). -/
inductive MigState where
  | counting
  /-- Frozen at the threshold, waiting for a free record. -/
  | unposted
  /-- Frozen and posted as the event of that number. -/
  | posted (seq : Nat)
  /-- Frozen by `.quiet` until eviction or invalidation. -/
  | quiet
  deriving DecidableEq, Repr

/-- A peer translation cache entry (R392, R399). -/
structure PeerEntry where
  slot : Nat
  page : Nat
  phys : Nat
  inc : Nat
  count : Nat
  mig : MigState
  /-- What an event on this counter reports (R399): domain, asn, offset, size and virtual address. -/
  dom : Nat
  asn : Nat
  xoff : Nat
  size : Nat
  va : DWord
  deriving DecidableEq, Repr

/-- A migration event record (R399). -/
structure MigEvent where
  seq : Nat
  port : Nat
  dom : Nat
  asn : Nat
  slot : Nat
  xoff : Nat
  size : Nat
  va : DWord
  count : Nat
  deriving DecidableEq, Repr

/-- A general key slot of Shutter (R355). The generation stays when the slot is revoked. -/
structure KeySlot where
  live : Bool
  dom : Nat
  use : Nat
  gen : Nat
  key : Nat
  deriving DecidableEq, Repr

/-- A line of the package directory (R348): the cache that owns it, modified or exclusive, and the caches that hold a copy: dies 0 to 3, or 5
for P. -/
structure DirLine where
  owner : Option Nat
  holders : List Nat
  deriving DecidableEq, Repr

/-- A write on its way from one agent to another (R370, R378): its writer (an engine where `external`), its target, its bytes
and its stamp. -/
structure Delivery where
  external : Bool
  src : Nat
  blk : Nat
  thr : Nat
  target : Nat
  pa : Nat
  bytes : List Byte
  stamp : List Nat
  /-- The incarnation of the target that it carries (R365), and the HOME_RESET record that it waits on (R364). -/
  inc : Half
  waitSeq : Option Word
  /-- Its bytes are poisoned data of an engine (R413). -/
  poison : Bool
  /-- The virtual address that it was stored at and the PC of its instruction, 0 for an engine, for the record of a refusal (R269). -/
  va : Option DWord
  pc : DWord
  deriving DecidableEq, Repr

/-- Masked bytes on their way out of an L2 that their home does not serve yet (R354, R364): the cache, the address, the byte, whose
stores they are, and the lanes whose range maintenance sent them (R289, R293). -/
structure Held where
  holder : Nat
  pa : Nat
  val : Byte
  writers : List (Nat × Nat)
  maint : List (Nat × Nat)
  deriving DecidableEq, Repr

/-- A key of the write that a view holds for a byte (R375): the agent, the address, the stamp and the writer. -/
structure Applied where
  agent : Nat
  pa : Nat
  stamp : List Nat
  writer : Nat
  deriving DecidableEq, Repr

/-- A store to persistent memory not yet complete at its device (R292). -/
structure Persist where
  k : Nat
  blk : Nat
  thr : Nat
  pa : Nat
  bytes : List Byte
  /-- The `pbar`s of its lane since. -/
  age : Nat
  deriving DecidableEq, Repr

/-- What the Lamplighter logs (R346, R358 to R361, R315, R366). -/
inductive LogEvent where
  | bankRetired | forced | coreOut | power | thermal | image | linkDown | queueHalt | halt | networkDown | noForce
  deriving DecidableEq, Repr

/-- An event-log record (R358): sequence number, package time, event and data. -/
structure LogRec where
  seq : Nat
  time : Nat
  agent : Nat
  event : LogEvent
  data : List Nat
  deriving DecidableEq, Repr

/-- The two roles beside follower that a package can hold in the election (R403). -/
inductive ElectionRole where
  | follower | candidate | beacon
  deriving DecidableEq, Repr

/-- A kernel image with its manifest (R404): the manifest's bytes and the chunks by number. -/
structure Kernel where
  manifest : List Byte
  chunks : Sparse (List Byte)
  deriving DecidableEq, Repr

/-- A kernel being staged (R404): its manifest, the base of its extent of the pool, and the bitmap of the chunks that lie in it, with their
lengths. -/
structure Staging where
  manifest : List Byte
  base : Nat
  got : Sparse Nat
  deriving DecidableEq, Repr

/-- A CXL port (R11, R385, R386): rate in GT/s, in service or down, whether its partner has identified itself as a Vexdun part, and the
handle of its IDE key. -/
structure Port where
  rate : Nat
  down : Bool
  vexdun : Bool
  ide : Option Nat
  deriving DecidableEq, Repr

/-- The reorder buffer's part for one source (R389): the next sequence number to release, and the packets that wait. -/
structure Reorder where
  next : BitVec 24
  held : List (BitVec 24 × Packet)
  deriving DecidableEq, Repr

/-- The last link-state update held for a link (R405). -/
structure LinkState where
  a : Nat
  b : Nat
  live : Bool
  seq : Word
  deriving DecidableEq, Repr

/-- What a fabric request asks of a lender (R391, R392): the translation of a page; n bytes from an offset in the extent, for a die or P; bytes
to be written, by offset, whose stores they are (R398); an atomic step, with the thread that makes it. -/
inductive Asked where
  | page
  | read (agent off n : Nat)
  | write (bytes : List (Nat × Byte)) (writers : List (Nat × Nat))
  | atomic (agent : Nat) (lane : Nat × Nat) (off : Nat) (step : PeerStep)
  deriving DecidableEq, Repr

/-- A data request that its lender has answered, and that the access which waits for it has still to take up (R392): its borrow slot, what was
asked, and whether an access of this step has taken it up. -/
structure Answered where
  slot : Nat
  what : Asked
  used : Bool
  deriving DecidableEq, Repr

/-- A peer's request that waits for its slot (R354): what PEER_TRANSLATION_REQUEST brings. -/
structure PeerWait where
  port : Nat
  id : Nat
  gen : Nat
  inc : Nat
  page : Nat
  tag : Nat
  what : PeerAsk
  deriving DecidableEq, Repr

/-- A fabric request outstanding at its requester (R392, R406): tag and destination. -/
structure FabricReq where
  tag : Nat
  dest : Nat
  /-- Borrow slot, page, and what is asked for (R392). -/
  slot : Nat
  page : Nat
  what : Asked
  /-- The link whose drain lists it, with the round begun, and the package time at which it began (R406). -/
  drain : Option (Nat × Nat)
  since : Nat
  /-- It has completed with an error reply: the lender is lost, or no live path is left (R394, R406). An engine had sent it. -/
  lost : Bool
  engine : Bool
  deriving DecidableEq, Repr

/-- Where the package stands in power (R360, R366). -/
inductive Power where
  | on
  /-- Off until the board restores it (`halt.off`, a thermal trip, power loss). -/
  | off
  /-- Off for one second, then a cold boot (`halt.reboot`). -/
  | reboot
  deriving DecidableEq, Repr

/-- What the package sends: to the pod, to the board, and to its own P (R352, R358, R361, R366, R392 to R406). -/
inductive Sent where
  /-- A heartbeat, a vote request, and the rank that a new beacon registers at every switch (R403). -/
  | heartbeat (r : Rank)
  | voteRequest (r : Rank)
  | voteGrant (term : Word) (candidate : Nat)
  | register (r : Rank)
  /-- The answer or refusal of a translation request: borrower, page, physical page where answered, incarnation (R392). -/
  | translation (port page : Nat) (phys : Option Nat) (inc : Nat)
  /-- A translation request to a lender (R392). -/
  | ask (tag dest id gen inc page : Nat)
  /-- Requests for data to a lender, with the lease, its generation and the page: a read of n bytes, a write of bytes by offset in the extent,
  an atomic step (R391, R392). -/
  | peerRead (tag dest id gen inc page off n : Nat)
  | peerWrite (tag dest id gen inc : Nat) (bytes : List (Nat × Byte))
  | peerAtomic (tag dest id gen inc page off : Nat) (step : PeerStep)
  /-- The answer to a borrower's read or atomic step, with the bytes (R392). -/
  | peerData (dest page off : Nat) (bytes : List Byte)
  /-- Back-invalidation of a lease at its borrower (R352), and a borrower's answer to one (R396). -/
  | backInvalidate (port id : Nat)
  | backInvalidated (slot : Nat)
  /-- A borrower's acknowledgement (R393). -/
  | leaseAck (slot : Nat)
  /-- A link-state update, made or flooded on (R405, R366). -/
  | linkState (a b : Nat) (live : Bool) (seq : Word)
  /-- A drain probe, and the answer to one (R406). -/
  | probe (dest round : Nat) (tags : List Nat)
  | probeAnswer (source round : Nat) (done resent refused : List Nat)
  /-- The bitmap of staged chunks; what a beacon multicasts of a kernel image, and its request for a follower's bitmap (R404). -/
  | bitmap (sender : Nat) (chunks : List Nat)
  | manifest (r : Rank) (bytes : List Byte)
  | chunk (r : Rank) (n : Nat) (bytes : List Byte)
  | bitmapAsk (r : Rank) (follower : Nat)
  /-- An FM API command, with the beacon's rank (R386, R402). -/
  | fm (r : Rank) (switch : Nat) (command : List Byte)
  /-- An attestation answer (R358). -/
  | attestation (answer : List Byte)
  /-- Global Persistent Flush on every port (R292, R366). -/
  | flush
  deriving DecidableEq, Repr

/-- A request that this package has performed for a peer, with its responses kept 50 µs for drain probes (R406), or refused for good. -/
structure Performed where
  source : Nat
  tag : Nat
  time : Nat
  refused : Bool
  answer : List Sent
  deriving DecidableEq, Repr

/-- The hub and the package (R345 to R406). -/
structure Hub where
  /-- Package time in nanoseconds (R351): 0. -/
  time : Nat
  /-- Owner codes by 64 KiB granule (R349); an unlisted granule reads as 0x12, or 0x14 in the reserved range. -/
  owner : Sparse Nat
  /-- Owner codes of the 4 KiB frames that shadows have exchanged (R304, R307, log entry 24): none. -/
  frames : Sparse Nat
  /-- Granules waiting for the snuff engine, with the code each then takes (R353): none. -/
  zeroing : List (Nat × Nat)
  /-- 4 KiB frames of a published buffer that wait for zeroing, with the die whose pool they then join (R307): none. -/
  zeroFrames : List (Nat × Nat)
  /-- Lease table, 65,536 entries (R351): all FREE. -/
  leases : Sparse Lease
  /-- Borrow table, 65,536 entries (R395): all EMPTY. -/
  borrows : Sparse Borrow
  /-- Lease events posted to the package kernel (R396): none. Slot and new state. -/
  leaseEvents : List (Nat × Nat)
  /-- Peer translation cache, 4,096 entries (R392): empty. -/
  peers : List PeerEntry
  /-- `migthr` (R399): the manual gives no reset value; DESIGN CHOICE 0 (disabled), log entry 6. -/
  migthr : Nat
  /-- Migration event queue, 256 records (R399): empty; the next event number: 1. -/
  mig : List MigEvent
  mgNext : Nat
  /-- Slot table in force (R354): 16 in every slot; a rewritten table that waits for the frame boundary: none; the
  current slot: 0. -/
  slots : List Nat
  slotsNext : Option (List Nat)
  slot : Nat
  /-- Memory-key slots by domain, and 256 general key slots (R355): empty. -/
  memKeys : Sparse KeySlot
  keys : Sparse KeySlot
  /-- The package memory key (R350, R362): a fresh draw at each cold boot. -/
  pkgKey : Nat
  /-- Transport keys by domain (R356): none. -/
  transport : Sparse Nat
  /-- Domain handler table (R322): 0. -/
  dh : Sparse DWord
  /-- Launch queues (R314): every field 0. -/
  queues : Sparse Queue
  /-- Directory (R348): empty. -/
  dir : Sparse DirLine
  /-- Birlux and UCIe links declared down (R346): none. -/
  linksDown : List Nat
  /-- `%pkg` (R20, R385): the manual gives no reset value; DESIGN CHOICE 0, log entry 6. -/
  pkgId : Nat
  /-- CXL ports (R385): untrained. -/
  ports : Sparse Port
  /-- Reorder buffer by source (R389): empty. -/
  reorder : Sparse Reorder
  /-- Link states (R405): none held. -/
  links : List LinkState
  /-- Outstanding fabric requests and the next tag; requests performed for peers (R406): none. -/
  reqs : List FabricReq
  tagNext : Nat
  performed : List Performed
  /-- Data requests answered and not yet taken up (R392): none; peers' requests that wait for their slot (R354): none. -/
  answered : List Answered
  asks : List PeerWait
  /-- Election (R402, R403): term 0, no vote, priority 0 (DESIGN CHOICE, log entry 6), roster empty, follower. -/
  term : Word
  vote : Option Nat
  prio : Byte
  roster : List Nat
  role : ElectionRole
  votes : List Nat
  /-- Package time of the last heartbeat heard or sent, or of the candidacy. -/
  heard : Nat
  /-- The highest rank that this package knows registered at the switches (R402). -/
  rank : Rank
  /-- Lamplighter: event log with its next sequence number (R358): empty. -/
  log : List LogRec
  logNext : Nat
  /-- Image banks A and B, the active one (false for A), whether the other is pending, whether the active one is a pending
  image being tried, and how often its boot has failed (R361). -/
  bankA : Option Image
  bankB : Option Image
  activeB : Bool
  pending : Bool
  trying : Bool
  bootFails : Nat
  /-- Rollback counter (R361): 0. -/
  rollback : Nat
  /-- Package incarnation number (R392): 1 after the first cold boot. -/
  incarnation : Nat
  /-- Kernel store (R404): empty; the running kernel's version; the kernel being staged: none. -/
  store : Option Kernel
  running : Option Nat
  staging : Option Staging
  /-- The kernel image that this package distributes as beacon (R404): none. -/
  image : Option Kernel
  /-- A kernel fully verified that waits for the package kernel's restart (R404). -/
  ready : Bool
  /-- `bankthr` (R358): 64. -/
  bankthr : Nat
  /-- Afterglow forced for domains and dies (R143): none. -/
  forcedDoms : List Nat
  forcedDies : List Nat
  power : Power
  /-- Persistent ranges of CXL devices: base and size (R292): none; stores pending by thread: none; the next number. -/
  ranges : List (Nat × Nat)
  persists : List Persist
  persistNext : Nat
  /-- What a device durably holds where a store that has been made is not yet durable (R292): none. -/
  durable : Sparse Byte
  /-- Vector clocks of the six agents (R378): all zero. -/
  clocks : List (List Nat)
  /-- Writes on their way (R370): none; keys of the writes applied by delivery (R375): none. -/
  inflight : List Delivery
  applied : List Applied
  /-- Masked bytes that have left their line and wait for their home (R354, R364): none. -/
  heldEvict : List Held
  /-- The caches of the processor chiplet, for lines of coherent pages (R348): empty. -/
  pcache : L2Cache
  /-- What has been sent to the outside, oldest first (the model's own, log entry 28): nothing. -/
  sent : List Sent
  deriving DecidableEq, Repr

end Sys2Proof.Machine
end

