-- ==== Sys2Proof/Machine/State.lean ====
section
/-! DEFINITION. State.lean: the whole machine as plain data, the reasons a step can stop, and the machine right after reset. -/

namespace Sys2Proof.Machine

/-- One choice of the outside world or of the hardware's own freedom: which partition of which core issues next, while which
threads' subsets the latency of their operands still holds back (block and thread, R127, R131), or which event happens next. -/
inductive Move where
  | issue (core part : Nat)
  | issueHeld (core part : Nat) (held : List (Nat × Nat))
  /-- An issue whose passes over the scratchpad serve, for now, all lanes but those named: blocks and threads (R186). -/
  | issuePart (core part : Nat) (later : List (Nat × Nat))
  /-- A core of a block fills its caches ahead of demand (R274). -/
  | ahead (blk va : Nat) (l1 : Bool)
  /-- A walk that a core has asked for is made (R262). -/
  | walk (core dom asn va : Nat) (acc : Access)
  /-- A die's engines make the stores that are still to be made (R315, R333). -/
  | stores (die : Nat)
  /-- A packet has left the reorder buffer (R389). -/
  | packet (p : Packet)
  | event (e : Instr)
  deriving DecidableEq, Repr

/-- Physical memory: bytes by 52-bit physical address in canonical form (R6, R347). -/
abbrev Memory := Sparse Byte

/-- The machine (R5). -/
structure State where
  /-- What issues now. -/
  sel : Sel
  /-- Blocks by number; the next number (R5, R150): none. -/
  blocks : Sparse Block
  blockNext : Nat
  /-- Cores 0 to 191, 48 × die + 4 × cluster + core in cluster (R119): reset cores. -/
  cores : Sparse Core
  /-- Partitions, 4 × core + partition (R119): reset partitions. -/
  parts : Sparse Partition
  /-- Clusters, 12 × die + cluster (R240): reset clusters. -/
  clusters : Sparse Cluster
  /-- Compute dies 0 to 3 (R254): reset dies. -/
  dies : Sparse Die
  hub : Hub
  /-- Physical memory at its homes (R347). -/
  mem : Memory
  /-- Poisoned 64-byte sectors at their homes (R413): none. -/
  poison : Sparse Unit
  /-- Grids by acceptance number; the next number (R323): none. -/
  grids : Sparse Grid
  gridNext : Nat
  /-- The model's own: the choices still to be made, in order; whether the default policy looks at events next, and at which it begins; the
  partitions that have issued in the current clock (R127, log entry 1); the draw counter of free values (log entries 2 and 12). -/
  agenda : List Move
  evTurn : Bool
  evNext : Nat
  clocked : List Nat
  nextFree : Nat
  deriving DecidableEq, Repr

/-- The reasons for which the machine stops. -/
inductive Fault where
  /-- Raised by `step` when the agenda, the model's own list of outside choices, names an instruction where only an event
  may stand. Safe: no hardware does this. -/
  | badAgenda
  deriving DecidableEq, Repr

/-- The reasons for which a step is refused. -/
inductive Refusal where
  /-- An instruction without a meaning in this model. Safe: nothing is claimed of it. -/
  | notModelled (mnemonic : String)
  deriving DecidableEq, Repr

/-! ### Reset -/

/-- A cache that holds nothing. -/
def L2Cache.empty : L2Cache := { bytes := [], valid := [], poison := [] }

/-- A scratchpad after die reset (R183, R193). Its data and parity words are 0 (DESIGN CHOICE, log entry 53). -/
def Scratchpad.reset : Scratchpad :=
  { data := [], poison := [], ecc := [], parity := [], parityUe := [], queue := [], lost := [], retired := [], rewrites := []
    reconstructed := 0, staleWaits := 0, queueStalls := 0, reconFaults := 0, corrected := [] }

/-- A core after reset (R119, R279). -/
def Core.reset : Core :=
  { scratch := Scratchpad.reset, sb := [], l1 := [], tlb := [], icache := [], specdrop := 0, jrnbase := 0, jrnsize := 0
    inService := true, port := [] }

/-- A partition after reset (R119, R204, R212). -/
def Partition.reset : Partition :=
  { bins := [], tiles := [], records := [], buf := [], bufPoison := [], seq := 0, owner := none, fills := [] }

/-- A cluster after reset (R240, R248). -/
def Cluster.reset : Cluster :=
  { swap := [], down := false, retries := [], merges := [] }

/-- A compute die after die reset (R414, R359). -/
def Die.reset : Die :=
  { clk := 0, slotAt := 0, mhz := 2200, hot := [], l2 := L2Cache.empty, tlb := [], walks := [], fb := [], fbNext := 1, overflow := 0
    deferred := [], svcdom := 0, wqs := [], exits := [], shadows := [], pool := [], pilots := [], polls := [], bulk := [], bulkNext := 0, kcopies := []
    bank := [], bankNext := 0, stores := [], warm := { step := 0, tries := 0 }, incarnation := 0 }

/-- The hub right after a cold boot (R362). -/
def Hub.reset : Hub :=
  { time := 0, owner := [], frames := [], zeroing := [], zeroFrames := [], leases := [], borrows := [], leaseEvents := [], peers := [], migthr := 0, mig := []
    mgNext := 1, slots := List.replicate 64 16, slotsNext := none, slot := 0, memKeys := [], keys := [], pkgKey := 0
    transport := [], dh := [], queues := [], dir := [], linksDown := [], pkgId := 0, ports := [], reorder := [], links := []
    reqs := [], tagNext := 0, performed := [], answered := [], asks := [], term := 0, vote := none, prio := 0, roster := [], role := .follower, votes := []
    heard := 0, rank := { term := 0, prio := 0, serial := 0 }, log := [], logNext := 0, bankA := none, bankB := none
    activeB := false, pending := false, trying := false, bootFails := 0, rollback := 0, incarnation := 1, store := none, running := none
    staging := none, image := none, ready := false, bankthr := 64, forcedDoms := [], forcedDies := [], power := .on, ranges := []
    persists := [], persistNext := 0, durable := [], clocks := List.replicate 6 (List.replicate 6 0), inflight := [], applied := []
    heldEvict := [], pcache := L2Cache.empty, sent := [] }

/-- The machine right after a cold boot, before the package kernel has configured anything (R362, R314): no block is
resident and every queue is disabled. -/
def State.reset : State :=
  { sel := { blk := 0, ctx := .home 0, pc := 0, act := [] }, blocks := [], blockNext := 0, cores := [], parts := []
    clusters := [], dies := [], hub := Hub.reset, mem := [], poison := [], grids := [], gridNext := 0, agenda := []
    evTurn := false, evNext := 0, clocked := [], nextFree := 0 }

end Sys2Proof.Machine
end

