-- ==== Sys2Proof/Machine/Scratch.lean ====
section
/-! DEFINITION. Scratch.lean: the parity-banked scratchpad (R183 to R200). An access is served to completion, pass after pass;
what a pass grants, what it leaves in the parity queues and what it counts follow R186 to R200. A data word is named
256 × row + bank. -/

namespace Sys2Proof.Machine

/-- The bank of a word (R183). -/
def bankOf (w : Nat) : Nat := w % 256
/-- The physical row of a word (R183). -/
def rowOf (w : Nat) : Nat := w / 256
/-- The parity group of a word (R183). -/
def groupOf (w : Nat) : Nat := w % 256 / 16
/-- The group row of a word (R183): 16 × row + group. -/
def groupRow (w : Nat) : Nat := 16 * rowOf w + groupOf w
/-- The words of a group row. -/
def groupWords (gr : Nat) : List Nat := (List.range 16).map fun k => 256 * (gr / 16) + 16 * (gr % 16) + k

namespace Scratchpad

/-- A stored data word. -/
def raw (sp : Scratchpad) (w : Nat) : Word := Sparse.getOr sp.data w 0
/-- A stored parity word. -/
def par (sp : Scratchpad) (gr : Nat) : Word := Sparse.getOr sp.parity gr 0
/-- A group's parity queue (R191). -/
def pq (sp : Scratchpad) (g : Nat) : List (Nat × Word) := Sparse.getOr sp.queue g []
/-- The word lies in a retired bank (R197). -/
def inRetired (sp : Scratchpad) (w : Nat) : Bool := Sparse.look sp.retired (groupOf w) == some (bankOf w)
/-- The group is degraded (R198). -/
def degraded (sp : Scratchpad) (g : Nat) : Bool := (Sparse.look sp.retired g).isSome
/-- The group row has a queue entry (R193). -/
def queued (sp : Scratchpad) (gr : Nat) : Bool := (sp.pq (gr % 16)).any fun e => e.1 == gr / 16
/-- The group row is lost (R193). -/
def isLost (sp : Scratchpad) (gr : Nat) : Bool := (Sparse.look sp.lost gr).isSome
/-- The word's check bits show an uncorrectable error (R194). -/
def bad (sp : Scratchpad) (w : Nat) : Bool := Sparse.look sp.ecc w == some .double
/-- The word carries a poison marker (R185). -/
def poisoned (sp : Scratchpad) (w : Nat) : Bool := (Sparse.look sp.poison w).isSome

/-- Exclusive OR of the group row's parity word, with its queued delta, and of its other 15 data words (R188). -/
def rebuilt (sp : Scratchpad) (w : Nat) : Word :=
  let gr := groupRow w
  let delta := ((sp.pq (gr % 16)).find? fun e => e.1 == gr / 16).map (·.2) |>.getD 0
  (groupWords gr).foldl (fun x k => if k == w then x else x ^^^ sp.raw k) (sp.par gr ^^^ delta)

/-- Reconstruction of the word can give the right data (R196). -/
def canRebuild (sp : Scratchpad) (w : Nat) : Bool :=
  let gr := groupRow w
  !sp.isLost gr && (Sparse.look sp.parityUe gr).isNone
    && (groupWords gr).all fun k => k == w || (!sp.bad k && !sp.inRetired k)

/-- What a read of a word returns: its data, with its poison marker, or nothing on a reconstruction fault (R185, R194,
R196). -/
def read (sp : Scratchpad) (w : Nat) : Option (Word × Bool) :=
  if sp.inRetired w || sp.bad w then
    if sp.canRebuild w then some (sp.rebuilt w, sp.poisoned w) else none
  else some (sp.raw w, sp.poisoned w)

/-- The word's data whatever its state, for what no fault can stop. -/
def peek (sp : Scratchpad) (w : Nat) : Word := ((sp.read w).map (·.1)).getD (sp.raw w)

end Scratchpad

/-- A load's pending word requests (R187): the words that must be granted together, the key, the words that have been denied
reconstruction for a stale row (R200), the words whose direct read has found an uncorrectable error (R194), whether it recovers an old
word for a store (R185), and whether the access is a load, as R200 counts them, or an update. -/
structure SpReq where
  words : List Nat
  key : Nat
  denied : List Nat
  found : List Nat
  forStore : Bool
  ofLoad : Bool
  deriving DecidableEq, Repr

/-- A store's pending word request (R187, R189): the word, its new bytes with their byte mask and poison, its key, and
whether it has been withheld (R200). -/
structure SpStore where
  word : Nat
  value : Word
  mask : Nat
  poison : Bool
  key : Nat
  held : Bool
  deriving DecidableEq, Repr

namespace Scratchpad

/-- One entry of each parity queue drains, but for the groups whose parity bank the pass used (R191). -/
def drain (sp : Scratchpad) (busy : List Nat) : Scratchpad :=
  (List.range 16).foldl (fun sp g =>
    if busy.contains g then sp
    else
      match sp.pq g with
      | [] => sp
      | (r, d) :: rest =>
        let gr := 16 * r + g
        { sp with parity := Sparse.putOr sp.parity gr (sp.par gr ^^^ d) 0, queue := Sparse.putOr sp.queue g rest [] }) sp

/-- The word must be reconstructed in order to be read (R194, R198). -/
def mustRebuild (sp : Scratchpad) (w : Nat) : Bool := sp.inRetired w || sp.bad w

/-- A direct read: a correctable error is counted, and its rewrite is queued (R194). -/
def noteRead (sp : Scratchpad) (w : Nat) : Scratchpad :=
  if Sparse.look sp.ecc w == some .single then
    { sp with
      rewrites := if sp.rewrites.contains w then sp.rewrites else sp.rewrites ++ [w]
      corrected := Sparse.put sp.corrected (bankOf w) (Sparse.getOr sp.corrected (bankOf w) 0 + 1) }
  else sp

/-- A group row is lost (R193). -/
def lose (sp : Scratchpad) (gr : Nat) : Scratchpad :=
  { sp with parityUe := Sparse.del sp.parityUe gr, lost := Sparse.put sp.lost gr () }

/-- A reconstruction fault is counted (R196, R200); a word that only a store needs raises none (R185). -/
def fault (sp : Scratchpad) (q : SpReq) : Scratchpad :=
  if q.forStore then sp else { sp with reconFaults := (sp.reconFaults + 1) % 2 ^ 32 }

/-- A reconstruction of a word of a request, and whether the word is completed by it: with its data, which is written back where its bank
has an error (R194), or with a fault where it must be reconstructed and cannot be (R196). A parity word found uncorrectable makes its row
lost (R195). The recovery of an old word for a store counts for selector 0 too, and for selectors 1 and 3 it does not (DESIGN CHOICE, log
entry 53). -/
def attempt (sp : Scratchpad) (q : SpReq) (w : Nat) (must : Bool) : Scratchpad × Bool :=
  if sp.canRebuild w then
    let sp' := { sp with reconstructed := (sp.reconstructed + 1) % 2 ^ 64 }
    (if sp.bad w && !sp.inRetired w then { sp' with data := Sparse.putOr sp.data w (sp.rebuilt w) 0, ecc := Sparse.del sp.ecc w } else sp', true)
  else
    let sp' := if (Sparse.look sp.parityUe (groupRow w)).isSome then sp.lose (groupRow w) else sp
    (if must then sp'.fault q else sp', must)

/-- The words granted directly in a pass (R188): for each bank that is not retired those of the request with the lowest key, both words of
a pair or none. `pend` stands in ascending key order. -/
def direct (sp : Scratchpad) : List SpReq → List Nat → List Nat
  | [], _ => []
  | q :: qs, taken =>
    let ws := q.words.filter fun w => !sp.inRetired w && !q.found.contains w
    if ws.any fun w => taken.contains (bankOf w) then sp.direct qs taken else ws ++ sp.direct qs (ws.map bankOf ++ taken)

/-- What a group that has no retired bank reconstructs in a pass, of the words not granted, in key order: the words that a stale row
denies on the way, and the word chosen (R188). -/
def choose (sp : Scratchpad) (g : Nat) (granted : List Nat) : List (SpReq × Nat × Bool) → List Nat × Option (SpReq × Nat × Bool)
  | [] => ([], none)
  | e :: es =>
    let w := e.2.1
    if granted.any fun k => groupOf k == g && bankOf k != bankOf w then sp.choose g granted es
    else if sp.queued (groupRow w) || sp.isLost (groupRow w) then
      let r := sp.choose g granted es
      (w :: r.1, r.2)
    else ([], some e)

/-- One pass of a load (R188, R194 to R198). -/
def loadPass (sp : Scratchpad) (pend : List SpReq) : Scratchpad × List SpReq :=
  let all := pend.flatMap fun q => q.words.map fun w => (q, w)
  let groups := (all.map fun e => groupOf e.2).eraseDups
  -- in a degraded group the lowest-keyed request of the retired bank, in place of the direct grants
  let retired := groups.filterMap fun g => (all.find? fun e => groupOf e.2 == g && sp.inRetired e.2).map fun e => (e.1, e.2, true)
  let granted := (sp.direct pend []).filter fun w => !(retired.any fun e => groupOf e.2.1 == groupOf w)
  let must (e : SpReq × Nat) : Bool := e.1.found.contains e.2 || (granted.contains e.2 && sp.bad e.2)
  let cands (g : Nat) : List (SpReq × Nat × Bool) := (all.filter fun e => groupOf e.2 == g
    && (must e || (e.1.words.length == 1 && !granted.contains e.2))).map fun e => (e.1, e.2, must e)
  let tried := (groups.filter fun g => !sp.degraded g).map fun g => sp.choose g granted (cands g)
  let picks := retired ++ tried.filterMap (·.2)
  let denied := tried.flatMap (·.1)
  -- what must be reconstructed in a degraded group or in a lost row is completed with a fault
  let dead := all.filter fun e => must e && (sp.degraded (groupOf e.2) || sp.isLost (groupRow e.2))
  let good := granted.filter fun w => !sp.bad w
  let sp1 := good.foldl noteRead sp
  let (sp2, built) := picks.foldl (fun (acc : Scratchpad × List Nat) e =>
    let (s', ok) := acc.1.attempt e.1 e.2.1 e.2.2
    (s', if ok then e.2.1 :: acc.2 else acc.2)) (sp1, [])
  let sp3 := dead.foldl (fun sp e => sp.fault e.1) sp2
  let newly := pend.flatMap fun q => if q.ofLoad then q.words.filter fun w => denied.contains w && !q.denied.contains w else []
  let sp4 := { sp3 with staleWaits := (sp3.staleWaits + newly.length) % 2 ^ 64 }
  let done := good ++ built ++ dead.map (·.2)
  let bad := granted.filter sp.bad
  let rest := (pend.map fun q => { q with
    words := q.words.filter fun w => !done.contains w, denied := q.denied ++ q.words.filter denied.contains
    found := q.found ++ q.words.filter bad.contains }).filter fun q => !q.words.isEmpty
  (sp4.drain ((picks.map fun e => groupOf e.2.1).eraseDups), rest)

/-- A load's passes. -/
def loadPasses : Nat → Scratchpad → List SpReq → Scratchpad
  | 0, sp, _ => sp
  | _, sp, [] => sp
  | fuel + 1, sp, pend =>
    let (sp', pend') := sp.loadPass pend
    loadPasses fuel sp' pend'

/-- A load of the requests named, in ascending key order, served to completion. -/
def load (sp : Scratchpad) (reqs : List SpReq) : Scratchpad := loadPasses (4 * reqs.length + 64) sp reqs

/-- The bytes of `new` under a byte mask, the others of `old`. -/
def merge (old new : Word) (mask : Nat) : Word :=
  .ofNat 32 (ofBytes ((List.range 4).map fun k =>
    .ofNat 8 ((if bitAt mask k then new.toNat else old.toNat) / 2 ^ (8 * k))))

/-- The new word that a granted store makes, from the old word as it stands or as it is recovered, and its poison marker (R185). -/
def newWord (sp : Scratchpad) (r : SpStore) : Word × Bool :=
  (merge (sp.peek r.word) r.value r.mask, r.poison || (r.mask != 15 && (sp.poisoned r.word || (sp.read r.word).isNone)))

/-- A word is written in its bank, with its poison marker and fresh check bits. In a retired bank only the marker is kept, since the
parity holds the data. -/
def put (sp : Scratchpad) (w : Nat) (new : Word × Bool) : Scratchpad :=
  { sp with
    data := if sp.inRetired w then sp.data else Sparse.putOr sp.data w new.1 0
    poison := if new.2 then Sparse.put sp.poison w () else Sparse.del sp.poison w
    ecc := Sparse.del sp.ecc w, rewrites := sp.rewrites.filter (· != w) }

/-- A group row's entry leaves its parity queue. -/
def dropEntry (sp : Scratchpad) (gr : Nat) : Scratchpad :=
  { sp with queue := Sparse.putOr sp.queue (gr % 16) ((sp.pq (gr % 16)).filter fun e => e.1 != gr / 16) [] }

/-- The granted words are all 16 of their group row, whole: a full-row write (R192). -/
def fullRow (rs : List SpStore) : Bool := (rs.map (·.word)).eraseDups.length == 16 && rs.all fun r => r.mask == 15

/-- A row's granted words are written, each from its old word before the pass, and the row's parity is updated: from the new data (R192,
R198), at once (R189 step 1), or by a queue entry (R189 step 2). Where an old word cannot be had, the parity no longer tells anything and
the row is lost (DESIGN CHOICE, log entry 51). -/
def writeRow (sp : Scratchpad) (gr : Nat) (sync : Bool) (rs : List SpStore) : Scratchpad :=
  let g := gr % 16
  let whole := fullRow rs
  let hitsRetired := rs.any fun r => sp.inRetired r.word
  let unknown := rs.any fun r => !sp.inRetired r.word && (sp.read r.word).isNone
  let sp' := rs.foldl (fun (t : Scratchpad) r => t.put r.word (sp.newWord r)) sp
  if whole || hitsRetired then
    let fresh (k : Nat) : Word := if sp.inRetired k then ((rs.find? fun r => r.word == k).map fun r => (sp.newWord r).1).getD 0 else sp'.raw k
    ({ sp' with
      parity := Sparse.putOr sp'.parity gr ((groupWords gr).foldl (fun x k => x ^^^ fresh k) 0) 0
      lost := Sparse.del sp'.lost gr, parityUe := Sparse.del sp'.parityUe gr } : Scratchpad).dropEntry gr
  else if unknown then (sp'.lose gr).dropEntry gr
  else
    let delta := rs.foldl (fun (x : Word) r => x ^^^ (sp.peek r.word ^^^ (sp.newWord r).1)) 0
    if sync then
      let old := ((sp'.pq g).find? fun e => e.1 == gr / 16).map (·.2) |>.getD 0
      ({ sp' with parity := Sparse.putOr sp'.parity gr (sp'.par gr ^^^ old ^^^ delta) 0 } : Scratchpad).dropEntry gr
    else
      let q := sp'.pq g
      let q' := if q.any fun e => e.1 == gr / 16 then q.map fun e => if e.1 == gr / 16 then (e.1, e.2 ^^^ delta) else e
        else q ++ [(gr / 16, delta)]
      { sp' with queue := Sparse.putOr sp'.queue g q' [] }

/-- Candidates of a store's pass: for each bank the request with the lowest key (R189). -/
def candidates : List SpStore → List Nat → List SpStore
  | [], _ => []
  | r :: rs, taken =>
    if taken.contains (bankOf r.word) then candidates rs taken else r :: candidates rs (bankOf r.word :: taken)

/-- One group's part of a store's pass: the pad and the granted words (R189, R192, R198). In a degraded group a row with a store to the retired
bank goes before the row of the lowest key (DESIGN CHOICE, log entry 53). -/
def storeGroup (sp : Scratchpad) (g : Nat) (cands : List SpStore) : Scratchpad × List Nat :=
  let mine := cands.filter fun r => groupOf r.word == g
  let retiredRow := (mine.find? fun r => sp.inRetired r.word).map fun r => rowOf r.word
  match mine with
  | [] => (sp, [])
  | c :: _ =>
    let syncRow := if sp.degraded g then retiredRow.getD (rowOf c.word) else rowOf c.word
    let rows := (mine.map fun r => rowOf r.word).eraseDups
    rows.foldl (fun (acc : Scratchpad × List Nat) row =>
      let rs := mine.filter fun r => rowOf r.word == row
      let gr := 16 * row + g
      -- a synchronous update that finds the parity word uncorrectable makes the row lost and becomes a queued entry (R195)
      let found := row == syncRow && (Sparse.look acc.1.parityUe gr).isSome
      let sp := if found then acc.1.lose gr else acc.1
      if row == syncRow && (!found || acc.1.degraded g || fullRow rs) then (sp.writeRow gr true rs, acc.2 ++ rs.map (·.word))
      else if acc.1.degraded g then acc
      else if acc.1.queued gr || decide ((acc.1.pq g).length < 32) then
        (sp.writeRow gr false rs, acc.2 ++ rs.map (·.word))
      else (sp, acc.2)) (sp, [])

/-- One pass of a store (R189). -/
def storePass (sp : Scratchpad) (pend : List SpStore) : Scratchpad × List SpStore :=
  let cands := candidates pend []
  let groups := (cands.map fun r => groupOf r.word).eraseDups
  let (sp', granted) := groups.foldl (fun (acc : Scratchpad × List Nat) g =>
    let (s', ws) := acc.1.storeGroup g cands
    (s', acc.2 ++ ws)) (sp, [])
  let withheld := cands.filter fun r => !granted.contains r.word && !sp.degraded (groupOf r.word)
  let newly := withheld.filter fun r => !r.held
  let rest := (pend.filter fun r => !granted.contains r.word).map fun r =>
    if withheld.any (fun q => q.word == r.word) then { r with held := true } else r
  (({ sp' with queueStalls := (sp'.queueStalls + newly.length) % 2 ^ 64 } : Scratchpad).drain groups, rest)

/-- A store's passes. -/
def storePasses : Nat → Scratchpad → List SpStore → Scratchpad
  | 0, sp, _ => sp
  | _, sp, [] => sp
  | fuel + 1, sp, pend =>
    let (sp', pend') := sp.storePass pend
    storePasses fuel sp' pend'

/-- The old words that a store must recover first: those found uncorrectable, but in a group row that it covers whole (R185, R192). -/
def recoveries (sp : Scratchpad) (rs : List SpStore) : List SpReq :=
  (rs.filter fun r => sp.bad r.word && !sp.inRetired r.word
      && !((groupWords (groupRow r.word)).all fun k => rs.any fun q => q.word == k && q.mask == 15)).map fun r =>
    { words := [r.word], key := r.key, denied := [], found := [r.word], forStore := true, ofLoad := false }

/-- A store of distinct words, in ascending key order, served to completion. -/
def store (sp : Scratchpad) (rs : List SpStore) : Scratchpad :=
  storePasses (4 * rs.length + 64) (if sp.ecc.isEmpty then sp else sp.load (sp.recoveries rs)) rs

/-- A physical row is zeroed by full-row writes (R192, R199). -/
def zeroRow (sp : Scratchpad) (row : Nat) : Scratchpad :=
  let inRow (k : Nat) : Bool := rowOf k == row
  let inGr (k : Nat) : Bool := k / 16 == row
  { sp with
    data := sp.data.filter fun e => !inRow e.1
    poison := sp.poison.filter fun e => !inRow e.1
    ecc := sp.ecc.filter fun e => !inRow e.1
    rewrites := sp.rewrites.filter fun w => !inRow w
    parity := sp.parity.filter fun e => !inGr e.1
    parityUe := sp.parityUe.filter fun e => !inGr e.1
    lost := sp.lost.filter fun e => !inGr e.1
    queue := (sp.queue.map fun e => (e.1, e.2.filter fun q => q.1 != row)).filter fun e => !e.2.isEmpty }

/-- A physical row is restored by full-row writes of its words, those named with the poison marker (R148, R185, R192). -/
def restoreRow (sp : Scratchpad) (row : Nat) (ws : List Word) (bad : List Nat) : Scratchpad :=
  (sp.zeroRow row).store ((List.range 256).map fun b =>
    { word := 256 * row + b, value := ws.getD b 0, mask := 15, poison := bad.contains b, key := b, held := false })

/-- The 256 words of a physical row. -/
def rowWords (sp : Scratchpad) (row : Nat) : List Word := (List.range 256).map fun b => sp.peek (256 * row + b)

/-- The banks whose words of a physical row cannot be kept as sound data: poisoned ones, and those that cannot be reconstructed, which take the
marker too, as under a partial store (R185; DESIGN CHOICE, log entry 53). -/
def rowBad (sp : Scratchpad) (row : Nat) : List Nat :=
  if sp.poison.isEmpty && sp.ecc.isEmpty && sp.retired.isEmpty then []
  else (List.range 256).filter fun b => sp.poisoned (256 * row + b) || (sp.read (256 * row + b)).isNone

end Scratchpad

/-! ### A block's scratch addresses (R184) -/

/-- Bytes of the block's allocation (R161). -/
def Block.scratchSize (b : Block) : Nat := b.hdr.scratch * 1024

/-- The physical word that holds a scratch address (R184). -/
def Block.word (b : Block) (a : Nat) : Nat := 256 * b.rows.getD (a / 1024) 0 + a % 1024 / 4

/-- A byte of a block's scratchpad, read without an access of its own. -/
def scratchByte (sp : Scratchpad) (b : Block) (a : Nat) : Byte := .ofNat 8 ((sp.peek (b.word a)).toNat / 2 ^ (8 * (a % 4)))

/-- Bytes of a block's scratchpad. -/
def scratchBytes (sp : Scratchpad) (b : Block) (a n : Nat) : List Byte := (List.range n).map fun k => scratchByte sp b (a + k)

/-- The words that bytes [a, a + n) touch, as scratch addresses of the words. -/
def wordsOf (a n : Nat) : List Nat := if n = 0 then [] else (List.range ((a + n - 1) / 4 + 1 - a / 4)).map fun k => 4 * (a / 4 + k)

/-- Store requests for bytes at a scratch address; `bad` numbers those of their words that poisoned data marks (R185). -/
def storeReqs (b : Block) (a : Nat) (bytes : List Byte) (bad : List Nat) (key : Nat) : List SpStore :=
  (wordsOf a bytes.length).map fun w =>
    let mask := maskOf ((List.range 4).filter fun k => a ≤ w + k && w + k < a + bytes.length)
    let value := ofBytes ((List.range 4).map fun k => if a ≤ w + k then bytes.getD (w + k - a) 0 else 0)
    { word := b.word w, value := .ofNat 32 value, mask := mask, poison := bad.contains (w / 4 - a / 4), key := key, held := false }

/-- Two requests to one word become one, the later one's bytes over the earlier one's (R104); the later one clears the earlier one's poison
marker where it stores all four bytes (R185). -/
def mergeReqs : List SpStore → List SpStore
  | [] => []
  | r :: rs =>
    let later := mergeReqs rs
    match later.find? fun q => q.word == r.word with
    | none => r :: later
    | some q =>
      { word := r.word, value := Scratchpad.merge r.value q.value q.mask, mask := r.mask ||| q.mask
        poison := q.poison || (r.poison && q.mask != 15), key := r.key, held := false } :: later.filter fun q => q.word != r.word

/-- Load requests for accesses of `size` bytes at scratch addresses with their keys, ascending: one request for each
distinct word, or pair of words (R187). -/
def loadReqs (b : Block) (size : Nat) : List (Nat × Nat) → List (List Nat) → List SpReq
  | [], _ => []
  | (a, key) :: as, seen =>
    let units : List (List Nat) := if size = 16 then [[b.word a, b.word (a + 4)], [b.word (a + 8), b.word (a + 12)]]
      else if size = 8 then [[b.word a, b.word (a + 4)]] else [[b.word a]]
    let new := units.filter fun u => !seen.contains u
    (new.map fun u => { words := u, key := key, denied := [], found := [], forStore := false, ofLoad := true }) ++ loadReqs b size as (seen ++ new)

/-- The requests by which an update, of `atoms` or of a barrier record, reads its words (R186, R190): no loads (R200). -/
def updateReqs (b : Block) (size : Nat) (as : List (Nat × Nat)) : List SpReq := (loadReqs b size as []).map fun q => { q with ofLoad := false }

end Sys2Proof.Machine
end

