-- ==== Sys2Proof/Machine/Access.lean ====
section
/-! DEFINITION. Access.lean: reading and updating the parts of the state. -/

namespace Sys2Proof.Machine

/-! ### Values of things that start -/

/-- A thread that does not exist. -/
def Thread.start (pc : DWord) : Thread :=
  { pc := pc, v := [], bad := [], p := 0, nflags := 0, status := .running, ctx := none, h := 0, level := 0, tcause := 0, epc := 0
    tval := 0, tscr := 0, faultLen := 0, parkLen := 0, intr := none, signalled := false, wait := .none, group := 0, napUntil := 0 }

/-- A home bundle at the start of its block (R46). -/
def Bundle.start (age : Nat) : Bundle :=
  { s := [], bad := [], j := [], f := [], oplog := [], bankStatus := 0, bankSeen := Bundle.unseen, rings := [], slices := 0, age := age, readySince := none
    leader := none, cur := [], turn := 0 }

/-- A launch header with every field 0. -/
def Header.zero : Header :=
  { entry := 0, handler := 0, last := 0, w := [0, 0, 0, 0, 0, 0], regs := 0, ncopy := 0, nmat := 0, nvec := 0, scratch := 0
    barriers := 0, afterglow := false, lanefault := 0, prio := 0, domain := 0, depth := 0, param := 0, done := 0 }

/-- A block without threads: what an unlisted number reads as. -/
def Block.absent : Block :=
  { grid := 0, pos := 0, core := 0, hdr := Header.zero, wid := 0, state := .completed, threads := [], bundles := []
    drawn := [], slots := [], rings := [], rows := [], mats := [], asn := 0, root := 0, tvec := 0, savebase := 0, hwsave := 0
    locbase := 0, locsz := 0, dbgctl := 0, shdwwin := 0, slices := [], copies := [], accepted := 0, check := .none
    journal := [], logged := 0, irrevocable := false, rollbacks := 0, trig := 0, trigAddr := 0, preemptDue := .none
    preemptHeld := false, savedByHw := false, swapOut := false, trapDue := [], saved := .none, savedRecords := [], savedSeqs := [], savedTiles := []
    heldArrivals := [], struck := 0, draining := false, trail := .none, placedAt := 0 }

/-! ### Parts of the state -/

namespace State

/-- A block by its number. -/
def blk (s : State) (n : Nat) : Block := Sparse.getOr s.blocks n Block.absent
/-- Update of a block. -/
def modBlk (s : State) (n : Nat) (f : Block → Block) : State := { s with blocks := Sparse.put s.blocks n (f (s.blk n)) }
/-- A core (R119). -/
def core (s : State) (c : Nat) : Core := Sparse.getOr s.cores c Core.reset
/-- Update of a core. -/
def modCore (s : State) (c : Nat) (f : Core → Core) : State := { s with cores := Sparse.put s.cores c (f (s.core c)) }
/-- A partition (R119): 4 × core + partition. -/
def part (s : State) (p : Nat) : Partition := Sparse.getOr s.parts p Partition.reset
/-- Update of a partition. -/
def modPart (s : State) (p : Nat) (f : Partition → Partition) : State := { s with parts := Sparse.put s.parts p (f (s.part p)) }
/-- A cluster (R240). -/
def cluster (s : State) (c : Nat) : Cluster := Sparse.getOr s.clusters c Cluster.reset
/-- Update of a cluster. -/
def modCluster (s : State) (c : Nat) (f : Cluster → Cluster) : State :=
  { s with clusters := Sparse.put s.clusters c (f (s.cluster c)) }
/-- A compute die (R254). -/
def die (s : State) (d : Nat) : Die := Sparse.getOr s.dies d Die.reset
/-- Update of a die. -/
def modDie (s : State) (d : Nat) (f : Die → Die) : State := { s with dies := Sparse.put s.dies d (f (s.die d)) }
/-- Update of the hub. -/
def modHub (s : State) (f : Hub → Hub) : State := { s with hub := f s.hub }
/-- Update of a grid. -/
def modGrid (s : State) (g : Nat) (f : Grid → Grid) : State :=
  match Sparse.look s.grids g with
  | some x => { s with grids := Sparse.put s.grids g (f x) }
  | none => s
/-- Update of a core's scratchpad. -/
def modPad (s : State) (c : Nat) (f : Scratchpad → Scratchpad) : State := s.modCore c fun k => { k with scratch := f k.scratch }

/-- The issuing block. -/
def cb (s : State) : Block := s.blk s.sel.blk
/-- Update of the issuing block. -/
def modCb (s : State) (f : Block → Block) : State := s.modBlk s.sel.blk f
/-- The issuing core, as a core of the package. -/
def cc (s : State) : Nat := s.cb.core
/-- The issuing die. -/
def cd (s : State) : Nat := s.cb.core / 48

/-- A message leaves the package (log entry 28). -/
def send (s : State) (m : Sent) : State := s.modHub fun h => { h with sent := h.sent ++ [m] }

/-- A fresh free value (log entry 12). -/
def draw (s : State) : State × DWord := ({ s with nextFree := s.nextFree + 1 }, Config.freeDraw s.nextFree)

end State

/-- The die clock counter, as seen at the issuing core (R20). -/
def State.clk (s : State) : Nat := (s.die s.cd).clk

/-! ### Threads of a block -/

/-- A thread of a block by its index (R52). -/
def Block.thr (b : Block) (t : Nat) : Thread := b.threads.getD t (Thread.start 0)
/-- Update of a thread. -/
def Block.modThr (b : Block) (t : Nat) (f : Thread → Thread) : Block := { b with threads := modAt f t b.threads }
/-- Update of several threads. -/
def Block.modThrs (b : Block) (ts : List Nat) (f : Nat → Thread → Thread) : Block :=
  { b with threads := b.threads.mapIdx fun i t => if ts.contains i then f i t else t }
/-- A home bundle. -/
def Block.bundle (b : Block) (n : Nat) : Bundle := b.bundles.getD n (Bundle.start 0)
/-- Update of a home bundle. -/
def Block.modBundle (b : Block) (n : Nat) (f : Bundle → Bundle) : Block := { b with bundles := modAt f n b.bundles }
/-- Update of a drawn bundle. -/
def Block.modDrawn (b : Block) (k : Nat) (f : Drawn → Drawn) : Block :=
  match Sparse.look b.drawn k with
  | some d => { b with drawn := Sparse.put b.drawn k (f d) }
  | none => b

/-- The access is a write for `pf.acc` (R269). -/
def LogAcc.code : LogAcc → Nat
  | .store _ | .storeLocal _ | .atomic .. => 1
  | _ => 0

/-- The number of a context's operand log: the home bundles' first, then the drawn bundles' (R267). -/
def Ctx.log : Ctx → Nat
  | .home n => n
  | .drawn k => 16 + k

/-- An operand log of a block by its number (R267). -/
def Block.oplog (b : Block) (n : Nat) : Sparse OplogEntry :=
  if n < 16 then (b.bundle n).oplog else ((Sparse.look b.drawn (n - 16)).map (·.oplog)).getD []
/-- Update of an operand log. -/
def Block.modOplog (b : Block) (n : Nat) (f : Sparse OplogEntry → Sparse OplogEntry) : Block :=
  if n < 16 then b.modBundle n fun x => { x with oplog := f x.oplog } else b.modDrawn (n - 16) fun x => { x with oplog := f x.oplog }
/-- The numbers of a block's operand logs. -/
def Block.logs (b : Block) : List Nat := List.range b.bundles.length ++ b.drawn.map (16 + ·.1)

/-- The home lane of a thread (R52). -/
def homeLane (t : Nat) : Nat := t % 128
/-- The home bundle of a thread (R52). -/
def homeBundle (t : Nat) : Nat := t / 128

/-- The lanes of an entry that still wait for their replay (R267, R273). -/
def OplogEntry.pending (e : OplogEntry) : List OplogLane := e.lanes.filter fun l => !l.replayed && !l.cancelled

/-- What still waits in the operand log of a drawn bundle that dissolves goes to the logs of its lanes' home bundles (DESIGN CHOICE, log
entry 53). -/
def Block.homeLogs (b : Block) (d : Drawn) : Block :=
  d.oplog.foldl (fun b e =>
    ((e.2.pending.map fun l => homeBundle l.thr).eraseDups).foldl (fun b n =>
      b.modOplog n fun log =>
        let k := ((List.range (log.length + 1)).find? fun k => (Sparse.look log k).isNone).getD 0
        Sparse.put log k { e.2 with lanes := e.2.pending.filter fun l => homeBundle l.thr == n }) b) b

/-- Accesses issued but not made, and slices of copies not yet accepted (R265, R296). -/
def Block.unfinished (b : Block) : Bool := (b.logs.any fun n => !(b.oplog n).isEmpty) || !b.slices.isEmpty

/-- A terminal status (R116). -/
def LaneStatus.terminal : LaneStatus → Bool
  | .struck | .exited => true
  | _ => false

/-- A lane that can issue when chosen: running, or faulted and running the supervisor handler (R116, R176). -/
def Thread.live (t : Thread) : Bool :=
  match t.status with
  | .running => !t.signalled
  | .faulted => t.level == 2
  | _ => false

/-- The issuing threads of a home bundle that are not terminal. -/
def Block.open (b : Block) : List Nat := (List.range b.threads.length).filter fun t => !(b.thr t).status.terminal

/-- The block holds resources of its core (R150). -/
def BlockState.resident : BlockState → Bool
  | .placed | .running | .preempting | .restored | .rollingBack => true
  | _ => false

/-- The block may issue (R150). -/
def BlockState.issues : BlockState → Bool
  | .running | .preempting => true
  | _ => false

/-- The resident blocks of a core, with their numbers. -/
def State.residents (s : State) (c : Nat) : List (Nat × Block) :=
  s.blocks.filter fun e => e.2.core == c && (e.2.state.resident || e.2.draining)

/-! ### Work identifiers (R50, R51) -/

/-- The lowest bit of field k. -/
def Header.offset (h : Header) (k : Nat) : Nat := (h.w.take k).sum
/-- Field k of an identifier. -/
def Header.wfield (h : Header) (wid k : Nat) : Nat := field wid (h.offset k) (h.w.getD k 0)
/-- The extent of field k (R122 `hdr.last`). -/
def Header.extent (h : Header) (k : Nat) : Nat := 1 + h.wfield h.last.toNat k
/-- The work identifier of a thread: field 0 is its index. -/
def Block.widOf (b : Block) (t : Nat) : DWord := b.wid + .ofNat 64 t

/-! ### Roles (R122, R125) -/

/-- The block is unroled (R125). -/
def Header.unroled (h : Header) : Bool := h.ncopy == 0 && h.nmat == 0
/-- The role of a bundle: 0 copy, 1 matrix, 2 vector (R122). -/
def Header.role (h : Header) (bundle : Nat) : Nat :=
  if bundle < h.ncopy then 0 else if bundle < h.ncopy + h.nmat then 1 else 2

/-- The partition of the issuing context: bundle b is on partition b mod 4 (R120). -/
def Block.partOf (b : Block) : Ctx → Nat
  | .home n => 4 * b.core + n % 4
  | .drawn k => ((Sparse.look b.drawn k).map (·.part)).getD 0

/-- The home bundle whose role the context has: its own, or its donor (R136). -/
def Block.roleBundle (b : Block) : Ctx → Nat
  | .home n => n
  | .drawn k => ((Sparse.look b.drawn k).map (·.donor)).getD 0

end Sys2Proof.Machine
end

