-- ==== Sys2Proof/Machine/Ops.lean ====
section
/-! DEFINITION. Ops.lean: the named operations over the machine that every meaning shares: the interval journal (R145), the
scratchpad of a block, barrier records (R165 to R167), the fault buffer (R268 to R272), the end of threads and blocks, lane faults
and the supervisor handler (R112 to R115, R176, R179), rejoin masks (R98 to R101), and the advance of an issue (R73). -/

namespace Sys2Proof.Machine

/-! ### Interval journal (R145) -/

/-- Bytes logged by the blocks resident on a core. -/
def State.coreLogged (s : State) (c : Nat) : Nat := ((s.residents c).map fun e => e.2.logged).sum

/-- Two entries log the same unit. -/
def JEntry.sameUnit : JEntry → JEntry → Bool
  | .vrow b k _, .vrow b' k' _ => b == b' && k == k'
  | .srow r .., .srow r' .. => r == r'
  | .trow p t r _, .trow p' t' r' _ => p == p' && t == t' && r == r'
  | .obuf p k _ _, .obuf p' k' _ _ => p == p' && k == k'
  | _, _ => false

/-- The size logged for a unit (R145). -/
def JEntry.size : JEntry → Nat
  | .vrow .. => 512
  | .srow .. => 1024
  | .trow .. => 800
  | .obuf .. => 1024
  | .external .. => 0

/-- The first write to a unit in the interval logs its old value; where the journal and its spill area are full the interval
is unjournaled and so irrevocable (R145). -/
def State.log (s : State) (bid : Nat) (e : JEntry) : State :=
  let b := s.blk bid
  if b.check.isNone || b.journal.any e.sameUnit then s
  else if 262144 + (s.core b.core).jrnsize.toNat < s.coreLogged b.core + e.size then
    s.modBlk bid fun b => { b with irrevocable := true }
  else s.modBlk bid fun b => { b with journal := e :: b.journal, logged := b.logged + e.size }

/-- A register row of a home bundle: register k in all 128 lanes (R145). -/
def Block.regRow (b : Block) (bundle k : Nat) : List Word :=
  (List.range 128).map fun h => Sparse.getOr (b.thr (128 * bundle + h)).v k 0

/-- The register rows that a write of `span` registers from v(n) in the threads named logs. -/
def State.logRegs (s : State) (bid n span : Nat) (ts : List Nat) : State :=
  ((ts.map homeBundle).eraseDups).foldl (fun s hb =>
    (List.range span).foldl (fun s k => s.log bid (.vrow hb (n + k) ((s.blk bid).regRow hb (n + k)))) s) s

/-- An operation of R147 has been performed: the interval is irrevocable. -/
def State.irrevoke (s : State) (bid : Nat) : State := s.modBlk bid fun b => { b with irrevocable := true }

/-! ### A block's scratchpad -/

/-- A store of words into a block's scratchpad: its rows are logged and the words are served (R145, R189). -/
def State.padStore (s : State) (bid : Nat) (rs : List SpStore) : State :=
  let c := (s.blk bid).core
  let rows := (rs.map fun r => rowOf r.word).eraseDups
  let s := rows.foldl (fun s r => s.log bid (.srow r ((s.core c).scratch.rowWords r) ((s.core c).scratch.rowBad r))) s
  s.modPad c fun sp => sp.store rs

/-- A read access of a block's scratchpad is served (R187, R188): the trigger of the consumption, where a word is poisoned, 0, or cannot be
reconstructed, 2 (R185, R196, R270). -/
def State.padServe (s : State) (b : Block) (reqs : List SpReq) (words : List Nat) : State × Option Nat :=
  let sp := (s.core b.core).scratch
  (s.modPad b.core fun sp => sp.load reqs,
    if words.any fun w => (sp.read w).isNone then some 2 else if words.any sp.poisoned then some 0 else none)

/-- A byte of a block's scratchpad as it stands. -/
def State.padByte (s : State) (bid a : Nat) : Byte := scratchByte (s.core (s.blk bid).core).scratch (s.blk bid) a

/-- Bytes of a block's scratchpad as they stand. -/
def State.padBytes (s : State) (bid a n : Nat) : List Byte := scratchBytes (s.core (s.blk bid).core).scratch (s.blk bid) a n

/-! ### Barrier records (R165 to R167) -/

/-- The fields of a barrier record (R165), with its reserved bits. -/
structure BarRec where
  expected : Nat
  pending : Nat
  bytes : Int
  phase : Bool
  bound : Bool
  tmo : Bool
  slot : Nat
  rsvd : Bool
  deriving DecidableEq, Repr

/-- A barrier record from its 128 bits (R165). -/
def BarRec.of (x : Nat) : BarRec :=
  { expected := field x 0 20, pending := field x 32 20, bytes := readInt 32 true (field x 64 32), phase := bitAt x 96
    bound := bitAt x 97, tmo := bitAt x 98, slot := field x 104 4
    rsvd := field x 20 12 != 0 || field x 52 12 != 0 || field x 99 5 != 0 || field x 108 20 != 0 }

/-- The 128 bits of a record whose reserved bits are 0 (R165). -/
def BarRec.bits (r : BarRec) : Nat :=
  let bit (b : Bool) (k : Nat) : Nat := if b then 2 ^ k else 0
  r.expected + r.pending * 2 ^ 32 + wrap 32 r.bytes * 2 ^ 64 + bit r.phase 96 + bit r.bound 97 + bit r.tmo 98
    + r.slot * 2 ^ 104

/-- The record at a scratch address of a block, as the barrier unit has it: no access of the scratchpad, which counts and corrects nothing
(DESIGN CHOICE, log entry 53). -/
def State.barAt (s : State) (bid a : Nat) : BarRec := BarRec.of (ofBytes (s.padBytes bid a 16))

/-- The record is rewritten. -/
def State.setBar (s : State) (bid a : Nat) (r : BarRec) : State :=
  s.padStore bid (storeReqs (s.blk bid) a (toBytes 16 r.bits) [] 0)

/-- The address in memory of a saved block's record of a slot (R248 `swp.bars`): at the head of the block's `hwsave` area
(log entry 25). -/
def Block.savedBar (b : Block) (n : Nat) : Nat := b.hwsave.toNat + 16 * n

/-- The bound record of a slot: in scratchpad, or in memory while the block is saved (R138, R248). -/
def State.barOf (s : State) (bid n : Nat) : Option (Slot × BarRec) :=
  let b := s.blk bid
  match Sparse.look b.slots n with
  | some sl =>
    if b.state == .saved then some (sl, BarRec.of (ofBytes ((List.range 16).map fun k => Sparse.getOr s.mem (b.savedBar n + k) 0)))
    else some (sl, s.barAt bid sl.addr)
  | none => none

/-- The bound record of a slot is rewritten where it lives. -/
def State.putBar (s : State) (bid n : Nat) (sl : Slot) (r : BarRec) : State :=
  let b := s.blk bid
  if b.state == .saved then
    { s with mem := (toBytes 16 r.bits).zipIdx.foldl (fun (m : Memory) e => Sparse.putOr m (b.savedBar n + e.2) e.1 0) s.mem }
  else s.setBar bid sl.addr r

/-- A bound record overlaps the bytes [a, a + n) of the block's scratchpad (R173). -/
def Block.clobbers (b : Block) (a n : Nat) : Bool := b.slots.any fun e => a < e.2.addr + 16 && e.2.addr < a + n

/-- The fields of an update stay in the ranges of R168. -/
def BarRec.inRange (expected pending bytes : Int) : Bool :=
  decide (0 ≤ expected) && decide (expected < 2 ^ 20) && decide (0 ≤ pending) && decide (pending < 2 ^ 20)
    && decide (-(2 ^ 31) ≤ bytes) && decide (bytes < 2 ^ 31)

/-! ### The fault buffer (R268 to R271) -/

/-- The next sequence number (R268): past 0xFFFF_FFFF it wraps to 1. -/
def nextSeq (q : Word) : Word := if q = 0xFFFFFFFF then 1 else q + 1

/-- A lane, rollback or fatal record enters the buffer, or is dropped and counted where no entry is free (R271). -/
def State.report (s : State) (d : Nat) (r : FbRec) : State :=
  let die := s.die d
  if die.fb.length < 1024 then
    s.modDie d fun die =>
      { die with fb := die.fb ++ [{ seq := die.fbNext, body := r, taken := false }], fbNext := nextSeq die.fbNext }
  else s.modDie d fun die => { die with overflow := if die.overflow = 0xFFFFFFFF then die.overflow else die.overflow + 1 }

/-! ### The end of a block (R121, R149, R150) -/

/-- The remote accesses that a block has at the ports of its cluster are dropped (R246, R251). -/
def State.dropRequests (s : State) (bid : Nat) : State :=
  (List.range 4).foldl (fun s k =>
    let c := (s.blk bid).core / 4 * 4 + k
    if (s.core c).port.any fun r => r.sel.blk == bid then
      s.modCore c fun x => { x with port := x.port.filter fun r => r.sel.blk != bid }
    else s) s

/-- What waits at a work queue is an issue of a block. -/
def WqWaiter.ofBlock (w : WqWaiter) (bid : Nat) : Bool :=
  match w with
  | .issue sel _ => sel.blk == bid
  | .batch _ => false

/-- A block's threads wait no longer in the pilot table and at work queues. -/
def State.dropWaiters (s : State) (bid : Nat) : State :=
  s.modDie ((s.blk bid).core / 48) fun d => { d with
    pilots := d.pilots.filter fun e => e.blk != bid
    polls := d.polls.filter fun e => e.1 != bid
    wqs := d.wqs.map fun e => (e.1, { e.2 with waiting := e.2.waiting.filter fun w => !w.ofBlock bid }) }

/-- Merge entries that no fill of the cluster waits for are free (R250). -/
def State.tidyMerges (s : State) (cl : Nat) : State :=
  if (s.cluster cl).merges.isEmpty then s
  else
    let wanted (e : Nat × Nat × Nat) : Bool := (List.range 16).any fun k =>
      let p := s.part (16 * cl + k)
      p.fills.any fun f => f.remote == some (e.1, e.2.1) && f.len == e.2.2
    s.modCluster cl fun c => { c with merges := c.merges.filter wanted }

/-- A block leaves its core: its partitions, bins, pilot entries, held accesses and copies are released (R120, R150, R287). -/
def State.releaseBlock (s : State) (bid : Nat) : State :=
  let b := s.blk bid
  let c := b.core
  let s := (List.range 4).foldl (fun s q => s.modPart (4 * c + q) fun p => { p with
    owner := if p.owner == some bid then none else p.owner
    records := if p.owner == some bid then [] else p.records
    seq := if p.owner == some bid then 0 else p.seq
    fills := p.fills.filter fun f => f.blk != bid
    bins := p.bins.filter fun e => e.2.blk != bid }) s
  let s := s.modCore c fun k => { k with sb := k.sb.filter fun e => e.blk != bid }
  ((s.dropRequests bid).dropWaiters bid).tidyMerges (c / 4)

/-- The block that waits. -/
def Waiter.blk : Waiter → Option Nat
  | .lanes b .. | .fetch b _ | .copy b _ => some b
  | .bulk _ | .packet _ | .completion _ | .batch _ | .write .. | .store _ => none

/-- The swap entry of a member is freed (R248). -/
def State.freeSwap (s : State) (bid : Nat) : State :=
  let die := (s.blk bid).core / 48
  (List.range 12).foldl (fun s k =>
    if (s.cluster (12 * die + k)).swap.any fun e => e.blk == bid then
      s.modCluster (12 * die + k) fun x => { x with swap := x.swap.filter fun e => e.blk != bid }
    else s) s

/-- A block is over: its `hwsave` area, its swap entry and its faults that wait unrecorded are given back (R140, R248, R271). -/
def State.freeBlock (s : State) (bid : Nat) : State :=
  let c := (s.blk bid).core
  let s := if s.hub.queues.any fun q => q.2.hwUsed.any fun u => u.1 == bid then
      s.modHub fun h => { h with queues := h.queues.map fun q => (q.1, { q.2 with hwUsed := q.2.hwUsed.filter fun u => u.1 != bid }) }
    else s
  let s := s.freeSwap bid
  s.modDie (c / 48) fun d => { d with deferred := d.deferred.filter fun e => e.who.blk != some bid }

/-- The engine commands and copies of a block in flight; with `held`, those that wait on a record do not count (R273). -/
def State.engineWork (s : State) (bid : Nat) (held : Bool) : Bool :=
  let b := s.blk bid
  let d := s.die (b.core / 48)
  b.copies.any (fun c => !(held && c.waitSeq.isSome))
    || d.bulk.any (fun c => c.blk == bid && !(held && c.waitSeq.isSome))
    || d.bank.any (fun c => c.blk == bid)
    || (List.range 4).any fun q => (s.part (4 * b.core + q)).fills.any fun f => f.blk == bid

/-- What a block has issued that is not complete (R114): its engine commands and copies, accesses that wait for their replay, and slices. -/
def State.unfinished (s : State) (bid : Nat) : Bool := s.engineWork bid false || (s.blk bid).unfinished

/-- A killed block is drained: its resources are released and its grid counts it (R149, R150). -/
def State.endKilled (s : State) (bid : Nat) : State :=
  let b := s.blk bid
  (((s.releaseBlock bid).freeBlock bid).modBlk bid fun b => { b with draining := false, copies := [] }).modGrid b.grid fun g => { g with
    ended := g.ended + 1, killed := g.killed + 1, struck := g.struck + b.struck }

/-- A block is killed: every thread exits and a fatal record is written. Instructions already issued complete before its resources are
released: stores of other lanes that wait for their replay, what its engines have been given, and copies some of whose slices had been
supplied, to which the bundles, which have ended, supply empty ones (R114, R149, R150, R270, R296). -/
def State.kill (s : State) (bid cause trig : Nat) (addr : DWord) : State :=
  let b := s.blk bid
  if !b.state.resident && b.state != .saved then s
  else
    let room := decide ((s.die (b.core / 48)).fb.length < 1024)
    let s := s.report (b.core / 48) (.fatal
      { cause := .ofNat 16 cause, trig := trig, count := b.rollbacks, core := b.core % 48, die := b.core / 48, wid := b.wid
        addr := addr, done := b.hdr.done })
    let s := s.modBlk bid fun b => b.drawn.foldl (fun b d => b.homeLogs d.2) b
    let s := s.modBlk bid fun b => { b with
      state := .killed, draining := true
      threads := b.threads.map fun t =>
        if t.status.terminal then t else { t with status := .exited, wait := .none, group := 0, ctx := none, level := 0 }
      bundles := b.bundles.map fun x => { x with oplog := x.oplog.filter fun e => e.2.acc != .reissue && !e.2.pending.isEmpty }
      drawn := []
      preemptDue := none, preemptHeld := false, savedByHw := false, trapDue := [], journal := [], check := none }
    let seq := if room then ((s.die (b.core / 48)).fb.getLast?.map (·.seq)).getD 0 else 0
    let s := s.modGrid b.grid fun g => { g with fault := if g.fault = 0 then seq else g.fault }
    if s.unfinished bid then (s.dropWaiters bid).dropRequests bid else s.endKilled bid

/-- A block consumes an uncorrectable error (R146, R142): it rolls back where its interval is revocable and has rolled back
fewer than three times, and is killed otherwise. Codes of the trigger are those of `br.trig` (R270). -/
def State.consume (s : State) (bid trig : Nat) (addr : DWord) : State :=
  let b := s.blk bid
  if !b.state.issues then s
  else if b.irrevocable then s.kill bid 0x40 trig addr
  else if 3 ≤ b.rollbacks then s.kill bid 0x41 trig addr
  else s.modBlk bid fun b => { b with
    state := .rollingBack, trig := trig, trigAddr := addr, preemptHeld := b.preemptHeld || b.state == .preempting
    preemptDue := none, savedByHw := false, trapDue := [] }

/-! ### Updates of barrier records (R166, R167) -/

/-- Threads that wait on a slot's completed phase are released (R166, R170). While the clocks of a `bwaitt` do not count, its bound
is what remains of it. -/
def Wait.release (clk n : Nat) : Wait → Wait
  | .barrb k r => if k == n then .barrb k true else .barrb k r
  | .bwait k r => if k == n then .bwait k true else .bwait k r
  | .bwaitt k due Option.none => if k == n then .bwaitt k due (some (decide (clk ≤ due))) else .bwaitt k due Option.none
  | w => w

/-- The bound of a `bwaitt` on a slot has passed: the phase completes too late for it (R170). -/
def Wait.late (clk n : Nat) : Wait → Bool
  | .bwaitt k due Option.none => k == n && decide (due < clk)
  | _ => false

/-- The read of a bound record that an update makes first, as an access of its own (R186): the trigger of a consumption (R146, R185, R196). -/
def State.barRead (s : State) (bid a : Nat) : State × Option Nat :=
  let b := s.blk bid
  s.padServe b (updateReqs b 16 [(a, 0)]) ((wordsOf a 16).map b.word)

/-- What goes on once a block's record has been read: a reconstruction fault or a poisoned word is an error that the block consumes (R146,
R185, R196). -/
def State.barAccess (s : State) (bid a : Nat) (go : State → State) : State :=
  if (s.blk bid).state == .saved then go s
  else
    match s.barRead bid a with
    | (s1, some trig) => s1.consume bid trig 0
    | (s1, none) => go s1

/-- One indivisible update of a bound record, and the test of R166: if nothing is pending the phase completes, the arrived
marks are cleared and the waiting threads are released. -/
def State.barUpdate (s : State) (bid n : Nat) (f : BarRec → BarRec) (g : Slot → Slot) : State :=
  match s.barOf bid n with
  | none => s
  | some (sl, r) => s.barAccess bid sl.addr fun s =>
    let r := f r
    let sl := g sl
    if r.pending = 0 ∧ r.bytes = 0 then
      let clk := (s.die ((s.blk bid).core / 48)).clk
      let late := (s.blk bid).state != .saved && (s.blk bid).threads.any fun t => t.wait.late clk n
      let s := s.putBar bid n sl { r with phase := !r.phase, pending := r.expected, tmo := r.tmo || late }
      s.modBlk bid fun b => { b with
        slots := Sparse.put b.slots n { sl with arrived := [], updated := false, phases := sl.phases + 1 }
        threads := b.threads.map fun t => { t with
          wait := t.wait.release (if (s.blk bid).state == .saved then 0 else clk) n
          intr := t.intr.map fun i => { i with wait := i.wait.release 0 n } } }
    else
      let s := s.putBar bid n sl r
      s.modBlk bid fun b => { b with slots := Sparse.put b.slots n { sl with updated := true } }

/-- An arrival that is no member's, with a count of bytes: copies, rings, remote arrivals, children (R166, R167, R296). It is
logged where it comes from outside the block (R145). The caller has checked the ranges of R168. A count of 0 pending stays 0: R166 gives no arrival beyond it (DESIGN CHOICE, log entry
45). -/
def State.arrive (s : State) (bid n : Nat) (bytes : Int) (external : Bool) : State :=
  let s := if external then s.modBlk bid fun b =>
      { b with journal := if b.check.isSome then .external n bytes true :: b.journal else b.journal }
    else s
  s.barUpdate bid n (fun r => { r with pending := r.pending - 1, bytes := r.bytes + bytes }) id

/-- The arrival of another block's access at a record of this one (R244, R247): where the record cannot be read, the error is the issuer's and
nothing arrives (R196). -/
def State.arriveFrom (s : State) (who bid n : Nat) (bytes : Int) : State :=
  match s.barOf bid n with
  | none => s
  | some (sl, _) =>
    match s.barRead bid sl.addr with
    | (s1, some trig) => if (s.blk bid).state == .saved then s.arrive bid n bytes (who != bid) else s1.consume who trig 0
    | _ => s.arrive bid n bytes (who != bid)

/-- Landed bytes lower a slot's byte count (R296). A count that they would take below −2^31 stays there (DESIGN CHOICE, log entry 53: R168
speaks of instructions alone). -/
def State.landBytes (s : State) (bid n : Nat) (bytes : Nat) (external : Bool) : State :=
  let s := if external then s.modBlk bid fun b =>
      { b with journal := if b.check.isSome then .external n (-(bytes : Int)) false :: b.journal else b.journal }
    else s
  s.barUpdate bid n (fun r => { r with bytes := max (-(2 ^ 31)) (r.bytes - bytes) }) id

/-- Whether an arrival with bytes keeps the ranges of R168. -/
def State.arriveOk (s : State) (bid n : Nat) (bytes : Int) : Bool :=
  match s.barOf bid n with
  | some (_, r) => BarRec.inRange r.expected (r.pending - 1) (r.bytes + bytes)
  | none => false

/-- A departing member lowers the counts of each bound barrier, each field held at 0 (R167). -/
def State.departBarriers (s : State) (bid t : Nat) : State :=
  (s.blk bid).slots.foldl (fun s e =>
    if e.2.members.contains t then
      let marked := e.2.arrived.contains t
      s.barUpdate bid e.1
        (fun r => { r with expected := r.expected - 1, pending := if marked then r.pending else r.pending - 1 })
        (fun sl => { sl with members := sl.members.filter (· != t), arrived := sl.arrived.filter (· != t) })
    else s) s

/-! ### Rejoin masks (R98 to R101) -/

/-- A mask of a home bundle. -/
def Block.mask (b : Block) (bundle n : Nat) : Nat := (Sparse.getOr (b.bundle bundle).j n 0).toNat

/-- A mask is set. -/
def Block.setMask (b : Block) (bundle n m : Nat) : Block :=
  b.modBundle bundle fun x => { x with j := Sparse.putOr x.j n (BitVec.ofNat 128 m) 0 }

/-- The release condition of a mask holds: it is not empty and every lane in it is parked on it (R99). -/
def Block.canRelease (b : Block) (bundle n : Nat) : Bool :=
  let m := b.mask bundle n
  m != 0 && (bitsOf m 128).all fun h => (b.thr (128 * bundle + h)).status == .parked n

/-- `try_release` (R99). A length of the `jpark` is kept with the lane parked at it. -/
def Block.tryRelease (b : Block) (bundle n : Nat) : Block :=
  if b.canRelease bundle n then
    let ts := (bitsOf (b.mask bundle n) 128).map fun h => 128 * bundle + h
    (b.modThrs ts fun _ t => { t with status := .running, pc := t.pc + .ofNat 64 t.parkLen }).setMask bundle n 0
  else b

/-- Every mask of a bundle is tried (R99, R100). -/
def Block.releaseMasks (b : Block) (bundle : Nat) : Block := (List.range 8).foldl (fun b n => b.tryRelease bundle n) b

/-- A terminal lane leaves every mask of its home bundle (R100). -/
def Block.leaveMasks (b : Block) (t : Nat) : Block :=
  let h := homeLane t
  b.modBundle (homeBundle t) fun x => { x with
    j := (x.j.map fun e => (e.1, e.2 &&& ~~~(BitVec.ofNat 128 (2 ^ h)))).filter fun e => e.2 != 0 }

/-! ### Lane faults and the supervisor handler (R112 to R115, R176 to R179) -/

/-- A lane fault (R112, R115, R177). -/
structure LF where
  cause : Nat
  n : Nat := 0
  width : Nat := 0
  store : Bool := false
  slot : Nat := 0
  addr : DWord := 0
  deriving DecidableEq, Repr

/-- `tcause` (R177). -/
def LF.tcause (f : LF) : DWord :=
  .ofNat 64 (f.cause + f.n * 2 ^ 16 + f.width * 2 ^ 24 + (if f.store then 2 ^ 27 else 0) + f.slot * 2 ^ 32)

/-- The lane fault record (R115). -/
def LF.record (f : LF) (b : Block) (t : Nat) (pc : DWord) : LaneRec :=
  { cause := .ofNat 16 f.cause, lane := homeLane t, bundle := homeBundle t, policy := b.hdr.lanefault, code := .ofNat 8 f.n
    width := f.width, store := f.store, slot := f.slot, core := b.core % 48, die := b.core / 48, pc := pc, addr := f.addr
    wid := b.widOf t }

/-- TAKING A LANE FAULT: the thread enters faulted and runs the supervisor handler at `tvec` at level 2, with its PC saved in
`epc`, its cause in `tcause` and its address in `tval` (R114, R176, R177). The length of the faulting instruction is kept
(R179), and the lane leaves a drawn bundle (log entry 20). -/
def Thread.enterHandler (t : Thread) (tvec pc : DWord) (len : Nat) (f : LF) : Thread :=
  { t with status := .faulted, level := 2, epc := pc, tcause := f.tcause, tval := f.addr, faultLen := len, pc := tvec
           ctx := none, wait := .none, group := 0 }

/-- Where a return from the handler goes (R179). -/
def Thread.returnPc (t : Thread) (past : Bool) : DWord := if past then t.epc + .ofNat 64 t.faultLen else t.epc

/-- RETURN FROM THE HANDLER: the thread is running at `epc`, or past the instruction that faulted, at the level at which it
ran before (R179). -/
def Thread.leaveHandler (t : Thread) (past : Bool) : Thread :=
  { t with status := .running, level := if t.intr.isSome then 1 else 0
           pc := t.returnPc past, wait := .none, group := 0 }

/-- A thread becomes terminal: it leaves its masks, its bound barriers and its drawn bundle (R97, R100, R114, R167). -/
def State.endThread (s : State) (bid t : Nat) (st : LaneStatus) : State :=
  let s := s.modBlk bid fun b =>
    { (b.modThr t fun x => { x with status := st, ctx := none, wait := .none, group := 0, level := 0 }).leaveMasks t with
      trapDue := b.trapDue.filter (· != t) }
  s.departBarriers bid t

/-- A thread is struck (R114). -/
def State.strike (s : State) (bid t : Nat) : State :=
  (s.modBlk bid fun b => { b with struck := b.struck + 1 }).endThread bid t .struck

/-- Lanes stop being live: the turns that they had are over (R129). -/
def Block.leaveTurns (b : Block) (ts : List Nat) : Block :=
  { b with
    bundles := b.bundles.map fun x => if x.cur.any ts.contains then { x with cur := x.cur.filter fun t => !ts.contains t } else x
    drawn := b.drawn.map fun e =>
      (e.1, if e.2.cur.any ts.contains then { e.2 with cur := e.2.cur.filter fun t => !ts.contains t } else e.2) }

/-- Lane faults of one instruction at `pc` (R114, R115, R176): each writes its record; then the policy decides. `BRK` enters
faulted under any policy (R110, R117), and where `tvec` is 0 it is handled as under `kill` under `trap` alone, as R176 has it. The lanes'
turn is over (R129). Lanes stand in ascending home-lane order. -/
def State.laneFaults (s : State) (bid : Nat) (pc : DWord) (len : Nat) (fs : List (Nat × LF)) : State :=
  match fs.filter fun e => !((s.blk bid).thr e.1).status.terminal with
  | [] => s
  | f :: fs =>
    let fs := f :: fs
    let b := s.blk bid
    if !b.state.issues && b.state != .restored then s
    else
      let s := fs.foldl (fun s e => s.report (b.core / 48) (.lane (e.2.record b e.1 pc))) s
      if fs.any fun e => (b.thr e.1).level == 2 then s.kill bid 0x43 0 0
      else if fs.any fun e => (b.hdr.lanefault == 0 && b.tvec == 0) || (e.2.cause != 0x21 && b.hdr.lanefault == 2) then s.kill bid 0x42 0 0
      else
        let s := s.modBlk bid fun b => b.leaveTurns (fs.map (·.1))
        fs.foldl (fun s e =>
          if e.2.cause == 0x21 || b.hdr.lanefault == 0 then
            s.modBlk bid fun b => b.modThr e.1 fun t => t.enterHandler b.tvec pc len e.2
          else s.strike bid e.1) s

/-- The lanes whose waits on a slot are of a kind raise BARRIER_STATE at their waiting instructions (R412). -/
def State.faultWaits (s : State) (bid n : Nat) (p : Wait → Bool) : State :=
  let b := s.blk bid
  let ts := (List.range b.threads.length).filter fun t => p (b.thr t).wait
  let keys := (ts.map fun t => (homeBundle t, (b.thr t).ctx, (b.thr t).pc, (b.thr t).group, (b.thr t).parkLen)).eraseDups
  keys.foldl (fun s k =>
    let mine := ts.filter fun t => (homeBundle t, (b.thr t).ctx, (b.thr t).pc, (b.thr t).group, (b.thr t).parkLen) == k
    let mine := (sortBy homeLane mine).filter fun t => (s.blk bid).state.issues && p ((s.blk bid).thr t).wait
    s.laneFaults bid k.2.2.1 k.2.2.2.2 (mine.map fun t => (t, { cause := 0x18, slot := n }))) s

/-- The lanes that have returned to a wait whose slot is gone (R412). -/
def State.faultUnbound (s : State) (bid : Nat) : State :=
  let slots := ((s.blk bid).threads.filterMap fun t => match t.wait with
    | .unbound n => some n
    | _ => none).eraseDups
  slots.foldl (fun s n => s.faultWaits bid n fun w => w == .unbound n) s

/-! ### What follows a change of status (R99, R101, R136, R172) -/

/-- Drawn bundles keep the members that still issue in them; one without members dissolves (R136). -/
def Block.tidyDrawn (b : Block) : Block :=
  let stay (e : Nat × Drawn) : List Nat := e.2.members.filter fun t =>
    ((b.thr t).ctx == some e.1 || (b.thr t).intr.any fun i => i.ctx == some e.1) && !(b.thr t).status.terminal
  let b1 := (b.drawn.filter fun e => (stay e).isEmpty).foldl (fun b e => b.homeLogs e.2) b
  { b1 with drawn := b.drawn.filterMap fun e =>
      if (stay e).isEmpty then none else some (e.1, { e.2 with members := stay e }) }

/-- Whether the bundle's parked lanes are deadlocked (R101): some lane is parked, every other lane that is not terminal is
parked or waits at a `bblk` (R172), and no mask can release. -/
def Block.deadlocked (b : Block) (bundle : Nat) : Bool :=
  let ts := b.open.filter fun t => homeBundle t == bundle
  ts.any (fun t => match (b.thr t).status with | .parked _ => true | _ => false)
    && ts.all (fun t => match (b.thr t).status with
      | .parked _ => true
      | .running => (b.thr t).wait == .bblk
      | _ => false)
    && (List.range 8).all fun n => !b.canRelease bundle n

/-- Parked lanes of a deadlocked bundle raise JOIN_DEADLOCK at their `jpark` (R101). -/
def State.deadlock (s : State) (bid bundle : Nat) : State :=
  let b := s.blk bid
  if b.deadlocked bundle then
    let ts := b.open.filter fun t => homeBundle t == bundle && match (b.thr t).status with | .parked _ => true | _ => false
    let pcs := (ts.map fun t => (b.thr t).pc).eraseDups
    pcs.foldl (fun s pc =>
      let at_ := ts.filter fun t => (b.thr t).pc == pc
      s.laneFaults bid pc ((at_.head?.map fun t => (b.thr t).parkLen).getD 8) (at_.map fun t => (t, { cause := 0x16 }))) s
  else s

/-- The clocks of a `bwaitt` stop counting: its bound becomes what remains of it, and one that has passed stays so (R170, R174). -/
def Wait.stopClock (clk : Nat) : Wait → Wait
  | .bwaitt n due o => .bwaitt n (due - clk) (o.or (if due < clk then some false else Option.none))
  | w => w

/-- The clocks of a `bwaitt` count again. -/
def Wait.startClock (clk : Nat) : Wait → Wait
  | .bwaitt n due o => .bwaitt n (due + clk) o
  | w => w

/-- The control context that a checkpoint records (R145, R138): threads, bundles, drawn bundles, bound slots, rings, and the
matrix records and sequence numbers of the block's partitions (R209, R212). -/
def State.checkpointOf (s : State) (bid : Nat) : Checkpoint :=
  let b := s.blk bid
  let clk := (s.die (b.core / 48)).clk
  { threads := b.threads.map fun t => { t with wait := t.wait.stopClock clk }, bundles := b.bundles, drawn := b.drawn, slots := b.slots, rings := b.rings
    records := b.mats.map fun q => (q, (s.part (4 * b.core + q)).records)
    seqs := b.mats.map fun q => (q, (s.part (4 * b.core + q)).seq)
    slices := b.slices, bad := false }

/-- An interval opens: the journal is empty and the checkpoint is taken (R145). -/
def State.openInterval (s : State) (bid : Nat) : State :=
  let c := s.checkpointOf bid
  let s := s.modDie ((s.blk bid).core / 48) fun d => { d with
    bulk := d.bulk.map fun q => if q.blk == bid then { q with pre := true } else q }
  s.modBlk bid fun b => { b with check := some c, journal := [], logged := 0, irrevocable := false, rollbacks := 0 }

/-- A `bblk` completes once every thread that is not terminal waits at one: each runs in its home bundle after its own
`bblk`, and a new interval opens (R172). -/
def State.blockBarrier (s : State) (bid : Nat) : State :=
  let b := s.blk bid
  if b.state == .running && !b.open.isEmpty && b.open.all (fun t => (b.thr t).status == .running && (b.thr t).wait == .bblk) then
    let s := s.modBlk bid fun b =>
      { b.modThrs b.open (fun _ t =>
          { t with pc := t.pc + .ofNat 64 t.parkLen, wait := .none, group := 0, ctx := none }) with drawn := [] }
    s.openInterval bid
  else s

/-- What follows a change of lane status, wait or mask in a block: releases, deadlocks, dissolutions, the block barrier. -/
def State.settle (s : State) (bid : Nat) : State :=
  let n := (s.blk bid).bundles.length
  let s := s.modBlk bid fun b => (List.range n).foldl (fun b k => b.releaseMasks k) b
  let s := (List.range n).foldl (fun s k => s.deadlock bid k) s
  let s := s.modBlk bid fun b => (List.range n).foldl (fun b k => b.releaseMasks k) b
  let s := s.modBlk bid Block.tidyDrawn
  s.blockBarrier bid

/-! ### The lanes of an issue (R16, R72, R73) -/

/-- A thread's predicate; p7 reads 1 (R46). -/
def Thread.pred (t : Thread) (n : BitVec 3) : Bool := n == 7 || t.p.getLsbD n.toNat

/-- A predicate is written; p7 discards the write (R18). -/
def Thread.setPred (t : Thread) (n : BitVec 3) (v : Bool) : Thread :=
  if n = 7 then t
  else { t with p := (t.p &&& ~~~(1#7 <<< n.toNat)) ||| (if v then 1#7 <<< n.toNat else 0) }

/-- A vector register; 0 until written (R47). -/
def Thread.vreg (t : Thread) (n : Nat) : Word := Sparse.getOr t.v n 0

/-- A vector register is written. -/
def Thread.setV (t : Thread) (n : Nat) (w : Word) : Thread := { t with v := Sparse.putOr t.v n w 0, bad := t.bad.filter (· != n) }

/-- Consecutive vector registers are written. -/
def Thread.setVs (t : Thread) (n : Nat) : List Word → Thread
  | [] => t
  | w :: ws => (t.setV n w).setVs (n + 1) ws

/-- The guard holds in a thread (R16). -/
def Thread.guarded (t : Thread) (g : Guard) : Bool := t.pred g.p != g.neg

/-- The executing lanes: the active lanes whose guard holds (R16), in ascending home-lane order. -/
def State.exe (s : State) (g : Guard) : List Nat := s.sel.act.filter fun t => (s.cb.thr t).guarded g

/-- The active lanes advance past the instruction (R73). -/
def State.advance (s : State) (len : Nat) : State :=
  s.modCb fun b => b.modThrs s.sel.act fun _ t => { t with pc := s.sel.pc + .ofNat 64 len, wait := .none, group := 0 }

/-- The active lanes advance, but for those named, which stay at the instruction (R73, R113). -/
def State.advanceBut (s : State) (len : Nat) (bad : List Nat) : State :=
  s.modCb fun b => b.modThrs s.sel.act fun i t =>
    { t with pc := if bad.contains i then s.sel.pc else s.sel.pc + .ofNat 64 len, wait := .none, group := 0 }

/-- The numeric flags of a thread are set: bits are ORed in (R69). -/
def Thread.flag (t : Thread) (f : BitVec 6) : Thread := { t with nflags := t.nflags ||| f }

/-- An encoding trap: raised in every active lane (R28, R31). -/
def State.trapAll (s : State) (len cause : Nat) : State :=
  (s.laneFaults s.sel.blk s.sel.pc len (s.sel.act.map fun t => (t, { cause := cause }))).settle s.sel.blk

/-- Lane faults of the issuing instruction in the lanes named. -/
def State.fault (s : State) (len : Nat) (fs : List (Nat × LF)) : State := s.laneFaults s.sel.blk s.sel.pc len fs

/-- The end of an instruction that some executing lanes fault at: the others advance, the faults are raised, and what follows
from changes of status happens (R113, R114). -/
def State.finishFaults (s : State) (len : Nat) (fs : List (Nat × LF)) : State :=
  match fs with
  | [] => s
  | _ :: _ => (s.fault len fs).settle s.sel.blk

/-- The issue ends the current subset's turn at the fair lane scheduler (R129). -/
def State.endTurn (s : State) : State :=
  match s.sel.ctx with
  | .home n => s.modCb fun b => b.modBundle n fun x => { x with turn := 64 }
  | .drawn k => s.modCb fun b => b.modDrawn k fun x => { x with turn := 64 }

/-- It turns out that the subset cannot issue: its turn ends, and the partition may issue another (R127, R129). -/
def State.noIssue (s : State) : State := { s.endTurn with sel := { s.sel with stalled := true } }

end Sys2Proof.Machine
end

