-- ==== Sys2Proof/Machine/Operands.lean ====
section
/-! DEFINITION. Operands.lean: every operand form (R17 to R24, R75): reading a source under a type, writing a destination, and
the checks and waits that stand before an instruction's own effect (R28, R29, R126, R265, R266). -/

namespace Sys2Proof

/-! ### Constants (R22, R24) -/

/-- An inline constant of the integer part of the table (R24). -/
def inlineInt (k : Nat) : Int := if k ≤ 32 then k else -((k : Int) - 32)

/-- An inline constant of the FP-only part of the table, as an FP32 pattern (R24). -/
def inlineFp32 (k : Nat) : Nat :=
  match k with
  | 49 => 0x3F000000 | 50 => 0x3E800000 | 51 => 0x3E000000 | 52 => 0x3D800000 | 53 => 0x3EAAAAAB | 54 => 0x3E4CCCCD
  | 55 => 0x3E2AAAAB | 56 => 0x3E124925 | 57 => 0x3B808081 | 58 => 0x3FB8AA3B | 59 => 0x3F317218 | 60 => 0x40490FDB
  | 61 => 0x3EA2F983 | 62 => 0x3F3504F3 | _ => 0x7F800000

/-- The type under which an operand is read (R22, R75). -/
inductive OpTy where
  /-- An integer or bit operand of `w` bits; an immediate of a 64-bit operand is sign-extended, or zero-extended (.n64). -/
  | int (w : Nat) (signed : Bool)
  | fp (t : FTy)
  /-- A register of narrow containers, or an immediate code (the .nf row of R22). -/
  | nf
  deriving DecidableEq, Repr

/-- An operand of an integer type. -/
def ITy.op (t : ITy) : OpTy := .int t.bits (match t with | .n64 => false | _ => true)

/-- A 32-bit operand. -/
def OpTy.b32 : OpTy := .int 32 true
/-- A 64-bit operand whose immediates are sign-extended. -/
def OpTy.b64 : OpTy := .int 64 true

/-- The format of an FP type's element. -/
def FTy.fmt : FTy → FFmt
  | .f32 => .f32
  | .f16 | .f16x2 => .f16
  | .bf16 | .bf16x2 => .bf16

/-- Packed FP types (R55). -/
def FTy.packed : FTy → Bool
  | .f16x2 | .bf16x2 => true
  | _ => false

/-- Bits of an operand. -/
def OpTy.bits : OpTy → Nat
  | .int w _ => w
  | .fp .f16 | .fp .bf16 => 16
  | .fp _ => 32
  | .nf => 32

/-- An inline constant fitted to a type (R22). -/
def inlineBits (ty : OpTy) (k : Nat) : Nat :=
  match ty with
  | .int w _ => if k ≤ 48 then wrap w (inlineInt k) else inlineFp32 k % 2 ^ w
  | .nf => inlineFp32 k
  | .fp t =>
    let v := if k ≤ 48 then Fp.ofInt (inlineInt k) else (Fp.unpack .f32 (inlineFp32 k)).exact
    let e := (Fp.round t.fmt .rn v).1
    if t.packed then e + e * 65536 else e

/-- An immediate fitted to a type (R21, R22). -/
def immBits (ty : OpTy) (e : Ext) (sel : Fin 3) : Nat :=
  let fit32 (w : Word) : Nat :=
    match ty with
    | .int 64 s => if s then (sext32 w).toNat else w.toNat
    | .nf => w.toNat % 256
    | t => w.toNat % 2 ^ t.bits
  match e, sel with
  | .e96 w, _ => fit32 w
  | .e128 lo _, 0 => fit32 lo
  | .e128 _ hi, 1 => fit32 hi
  | .e128 lo hi, _ => (pair lo hi).toNat
  | .e64, _ => 0

/-! ### What an instruction names -/

/-- The opcode of an instruction; 0 for an event. -/
def Instr.opcode (i : Instr) : Nat := (i.opFn.map (·.1)).getD 0

/-- The barrier slots that an instruction names (R168, R175, R294, R243, R324). -/
def Instr.slots : Instr → List Nat
  | .bbind _ n _ | .bunbind _ n | .barr _ n | .barrb _ n | .bwait _ n | .btest _ n | .bwaitt _ n | .bexp _ n _ _
  | .ringAcq _ n | .ringPut _ n | .ringGet _ n | .ringRel _ n | .launchArr _ n => [n.toNat]
  | .ringBind _ n d => (List.range (2 * (d.toNat + 1))).map (n.toNat + ·)
  | .cpy _ n ns _ | .cpyX _ n ns _ | .cpyC _ n ns _ | .cpyFan _ n ns => if ns then [] else [n.toNat]
  | .stsRem x _ _ _ _ | .stsRemArr x _ _ _ =>
    match x.ext with
    | .e128 _ hi => [hi.toNat % 16]
    | _ => []
  | _ => []

/-- The instruction names tile a1, which a block in afterglow mode may not (R143). -/
def Instr.tileOne : Instr → Bool
  | .mma _ t _ _ | .mmas _ t _ _ _ | .accZero _ t _ | .accLd _ t _ _ | .accSt _ t _ _ _ | .accStat _ t _ | .accRenorm _ t
  | .accTmask _ t | .accScale _ t | .accRmax _ t _ | .accMode _ t => t == 1
  | _ => false

/-- The format register that an instruction reads and checks at issue (R59); `obres` checks its own (R215). -/
def Instr.format? : Instr → Option Nat
  | .cvtNfEnc _ f _ _ _ | .cvtNfDec _ f _ _ _ | .cvtNfb _ _ f _ | .unpkNf _ f _ _ _ => some f.toNat
  | _ => none

/-- The registers of a destination: class (0 v, 1 s, 2 p, 3 j), first number and span. -/
def Dst.regs (d : Dst) (span : Nat) : Option (Nat × Nat × Nat) :=
  match d with
  | .v n => some (0, n.toNat, span)
  | .s n => some (1, n.toNat, span)
  | .p n => some (2, n.toNat, 1)
  | .j n => some (3, n.toNat, 1)
  | .discard => none

/-- The registers of a source. -/
def Src.regs (a : Src) (span : Nat) : Option (Nat × Nat × Nat) :=
  match a with
  | .v n => some (0, n.toNat, span)
  | .s n => some (1, n.toNat, span)
  | .p n => some (2, n.toNat, 1)
  | .j n => some (3, n.toNat, 1)
  | _ => none

/-- The instructions that may issue in a fault shadow (R266): those that access no memory, scratchpad, barrier, ring, engine
or system state and are not `exit`, `jpark`, `reform`, `brd`, `fence` or a matrix instruction; `ldl` and `ldc`; `ld` and
`sld`, whose page is looked at when they act. -/
def opInShadow (op : Nat) : Bool :=
  decide (op ≤ 0x5F) || (0x60 ≤ op && op ≤ 0x6E && !(op == 0x64 || op == 0x66 || op == 0x68 || op == 0x69))
    || op == 0x70 || op == 0x72 || op == 0x74 || op == 0x88

/-- The instruction may issue in a fault shadow (R266). -/
def Instr.inShadow (i : Instr) : Bool := opInShadow i.opcode

/-- The instruction reads the numeric flags (R71). -/
def Instr.readsFlags : Instr → Bool
  | .flagsGet _ => true
  | _ => false

/-- Operations whose effect leaves the bundle: in afterglow mode they pass through the release queue (R143). -/
def Instr.leavesBundle (i : Instr) : Bool :=
  let op := i.opcode
  op == 0x97 || op == 0x9A || op == 0x9C || op == 0x71 || op == 0x73 || op == 0x79 || op == 0x7A || op == 0x7C || op == 0x80 || op == 0x81 || (0x84 ≤ op && op ≤ 0x87)
    || (0x90 ≤ op && op ≤ 0x93) || op == 0x98 || op == 0x99 || op == 0x9B || op == 0x9D || (0xA0 ≤ op && op ≤ 0xA8 && op != 0xA6)
    || (0xB0 ≤ op && op ≤ 0xB7 && op != 0xB6) || (0xC0 ≤ op && op ≤ 0xC2) || op == 0xC7
    || (0xD0 ≤ op && op ≤ 0xD5 && op != 0xD2) || (0xE0 ≤ op && op ≤ 0xE4 && op != 0xE1) || op == 0xF1 || (0xF5 ≤ op && op ≤ 0xFA)

/-- A source that varies over time (R20). -/
def Src.timed : Src → Bool
  | .special .clkLo | .special .clkHi => true
  | _ => false

/-- The instruction takes nothing from outside its bundle: in afterglow mode the trailer computes it for itself (R143). -/
def Instr.ownValues (i : Instr) : Bool :=
  let op := i.opcode
  decide (op ≤ 0x6E) && op != 0x5A && match i.opnds? with
    | some x => !(x.a.timed || x.b.timed || x.c.timed)
    | none => true

/-- A matrix instruction on a tile: in afterglow mode each copy works on its own tile (R143). -/
def Instr.onTile (i : Instr) : Bool :=
  let op := i.opcode
  0xC3 ≤ op && op ≤ 0xCD && op != 0xC7

/-- The event can happen while the package has no power (R360, R366). -/
def Instr.unpowered : Instr → Bool
  | .coldBoot => true
  | _ => false

/-- `sts.rem` stores poisoned data with its poison marker, and does not consume it (R185, R247; DEDUCED, log entry 39). -/
def Instr.sendsPoison : Instr → Bool
  | .stsRem .. => true
  | _ => false

/-- Instructions that can raise a restartable fault in their lanes (R265). -/
def Instr.mayFault (i : Instr) : Bool :=
  let op := i.opcode
  op == 0x5A || (0x70 ≤ op && op ≤ 0x74) || (0x80 ≤ op && op ≤ 0x82) || (0x85 ≤ op && op ≤ 0x87) || op == 0xA7
    || (0xB0 ≤ op && op ≤ 0xB7 && op != 0xB6) || op == 0xD1 || op == 0xE0 || op == 0xE3

end Sys2Proof

namespace Sys2Proof.Machine

/-! ### Sources -/

/-- The scalar file of the issuing context: its home bundle's, or the drawn bundle's copy (R136). -/
def State.sfile (s : State) : Sparse Word :=
  match s.sel.ctx with
  | .home n => (s.cb.bundle n).s
  | .drawn k => ((Sparse.look s.cb.drawn k).map (·.s)).getD []

/-- The scalar registers of the issuing context that have an uncorrectable error (R146). -/
def State.sbad (s : State) : List Nat :=
  match s.sel.ctx with
  | .home n => (s.cb.bundle n).bad
  | .drawn k => ((Sparse.look s.cb.drawn k).map (·.bad)).getD []

/-- A scalar register. -/
def State.sreg (s : State) (n : Nat) : Word := Sparse.getOr s.sfile n 0

/-- The 64-bit value of an s pair. -/
def State.spair (s : State) (n : Nat) : DWord := pair (s.sreg n) (s.sreg (n + 1))

/-- The format register file of the issuing context (R136). -/
def State.ffile (s : State) : Sparse Half :=
  match s.sel.ctx with
  | .home n => (s.cb.bundle n).f
  | .drawn k => ((Sparse.look s.cb.drawn k).map (·.f)).getD []

/-- A format register. -/
def State.freg (s : State) (n : Nat) : Half := Sparse.getOr s.ffile n 0

/-- Consecutive registers of a thread as one number. -/
def Thread.vwide (t : Thread) (n span : Nat) : Nat := ofWords ((List.range span).map fun k => t.vreg (n + k))

/-- Consecutive scalar registers as one number. -/
def State.swide (s : State) (n span : Nat) : Nat := ofWords ((List.range span).map fun k => s.sreg (n + k))

/-- A special as a number: 32 bits, or the whole field of a work identifier (R20). -/
def State.special (s : State) (t : Nat) : Special → Nat
  | .lane => homeLane t % 32
  | .home => homeLane t
  | .wf k => s.cb.hdr.wfield (s.cb.widOf t).toNat k
  | .widLo => (s.cb.widOf t).toNat % 2 ^ 32
  | .widHi => (s.cb.widOf t).toNat / 2 ^ 32
  | .bundle => homeBundle t
  | .core => s.cc % 4
  | .cluster => s.cc / 4 % 12
  | .die => s.cd
  | .pkg => s.hub.pkgId % 4096
  | .clkLo => s.clk % 2 ^ 32
  | .clkHi => s.clk / 2 ^ 32 % 2 ^ 32
  | .active => maskOf ((s.sel.act.filter fun u => homeLane u / 32 == homeLane t / 32).map fun u => homeLane u % 32)

/-- A source read under a type in a thread: the low bits of its registers, a broadcast scalar, a predicate, a special, null or
a constant (R19 to R22, R75). -/
def State.src (s : State) (e : Ext) (ty : OpTy) (t : Nat) (a : Src) : Nat :=
  let w := ty.bits
  let span := (w + 31) / 32
  match a with
  | .v n => (s.cb.thr t).vwide n.toNat span % 2 ^ w
  | .s n => s.swide n.toNat span % 2 ^ w
  | .p n => if (s.cb.thr t).pred n then 1 else 0
  | .j _ => 0
  | .special x => s.special t x % 2 ^ (if w = 64 then 64 else 32) % 2 ^ w
  | .null => 0
  | .inline k => inlineBits ty k.toNat
  | .imm sel => immBits ty e sel

/-- The lowest-numbered executing lane, whose values an instruction that acts once per issue reads (R20). -/
def State.first (s : State) (g : Guard) : Option Nat := (s.exe g).head?

/-! ### Destinations (R17, R18, R75) -/

/-- Scalar registers of the issuing context are written. -/
def State.setSregs (s : State) (n : Nat) (ws : List Word) : State :=
  let put (f : Sparse Word) : Sparse Word :=
    (ws.zipIdx).foldl (fun f e => Sparse.putOr f (n + e.2) e.1 0) f
  let sound (l : List Nat) : List Nat := l.filter fun k => !(n ≤ k && k < n + ws.length)
  match s.sel.ctx with
  | .home b => s.modCb fun x => x.modBundle b fun y => { y with s := put y.s, bad := sound y.bad }
  | .drawn k => s.modCb fun x => x.modDrawn k fun y => { y with s := put y.s, bad := sound y.bad }

/-- A format register of the issuing context is written (R91). -/
def State.setFreg (s : State) (n : Nat) (w : Half) : State :=
  match s.sel.ctx with
  | .home b => s.modCb fun x => x.modBundle b fun y => { y with f := Sparse.putOr y.f n w 0 }
  | .drawn k => s.modCb fun x => x.modDrawn k fun y => { y with f := Sparse.putOr y.f n w 0 }

/-- A destination is written: each lane's value in a v register or group or in a p register; the first lane's value once in
an s register or group. Discard writes nothing. -/
def State.write (s : State) (d : Dst) (span : Nat) (vals : List (Nat × Nat)) : State :=
  match d with
  | .v n =>
    let s := s.logRegs s.sel.blk n.toNat span (vals.map (·.1))
    s.modCb fun b => vals.foldl (fun b e => b.modThr e.1 fun t => t.setVs n.toNat (toWords span e.2)) b
  | .p n => s.modCb fun b => vals.foldl (fun b e => b.modThr e.1 fun t => t.setPred n (e.2 != 0)) b
  | .s n =>
    match vals with
    | [] => s
    | e :: _ => s.setSregs n.toNat (toWords span e.2)
  | .j _ | .discard => s

/-- Numeric flags of the lanes named are set (R69, R70). -/
def State.flagLanes (s : State) (fs : List (Nat × BitVec 6)) : State :=
  s.modCb fun b => fs.foldl (fun b e => if e.2 = 0 then b else b.modThr e.1 fun t => t.flag e.2) b

/-! ### Checks that depend on the launch (R18, R23, R28, R126, R143) -/

/-- The engine class of an opcode: 0 copy, 1 matrix, 2 vector, 3 common (R125). -/
def engineClass (op : Nat) : Nat :=
  if op ≤ 0x1F then 3
  else if op ≤ 0x49 then 2
  else if op ≤ 0x6E then 3
  else if op ≤ 0x82 then 2
  else if op = 0x83 || op = 0x88 then 3
  else if op ≤ 0x87 then 2
  else if op ≤ 0x9D then 3
  else if op ≤ 0xA8 then 0
  else if op ≤ 0xB7 then 2
  else if op ≤ 0xCD then 1
  else if op ≤ 0xE4 then 2
  else 3

/-- The role of the issuing bundle permits the opcode's class (R125, R126). -/
def State.roleOk (s : State) (op : Nat) : Bool :=
  let b := s.cb
  let c := engineClass op
  c == 3 || b.hdr.unroled || b.hdr.role (b.roleBundle s.sel.ctx) == c

/-- A v source stays below the register count (R23). -/
def srcRegsOk (regs : Nat) (k : Kind) : Src → Bool
  | .v n => decide (n.toNat + k.span ≤ regs)
  | _ => true

/-- A v destination stays below the register count (R18). -/
def dstRegsOk (regs : Nat) (k : Kind) : Dst → Bool
  | .v n => decide (n.toNat + k.span ≤ regs)
  | _ => true

/-- The run-time operand checks of R28. -/
def State.launchOk (s : State) (i : Instr) (x : Opnds) : Bool :=
  let h := s.cb.hdr
  let k := i.sig
  dstRegsOk h.regs k.d x.d && srcRegsOk h.regs k.a x.a && srcRegsOk h.regs k.b x.b && srcRegsOk h.regs k.c x.c
    && i.slots.all (fun n => decide (n < h.barriers)) && !(s.cb.trail.isSome && i.tileOne)

/-- The source names a vector register that the thread cannot read for an uncorrectable error (R146). -/
def Thread.readsBad (t : Thread) (a : Src) (span : Nat) : Bool :=
  match a with
  | .v n => t.bad.any fun k => decide (n.toNat ≤ k ∧ k < n.toNat + span)
  | _ => false

/-- The source names a scalar register with an uncorrectable error (R146). -/
def State.readsBadScalar (s : State) (a : Src) (span : Nat) : Bool :=
  match a with
  | .s n => s.sbad.any fun k => decide (n.toNat ≤ k ∧ k < n.toNat + span)
  | _ => false

/-- The registers of a source, counted from its first, that have an uncorrectable error (R146, R247). -/
def State.badRegs (s : State) (t : Nat) (a : Src) (span : Nat) : List Nat :=
  (List.range span).filter fun k => match a with
    | .v n => (s.cb.thr t).bad.contains (n.toNat + k)
    | .s n => s.sbad.contains (n.toNat + k)
    | _ => false

/-- An issue that no check stops reads, for an executing lane, a register with an uncorrectable error (R146). -/
def State.badRead (s : State) (i : Instr) : Bool :=
  match i.opnds? with
  | none => false
  | some x =>
    let k := i.sig
    s.roleOk i.opcode && s.launchOk i x && !(i.format?.any fun f => !(Nf.fmtOf (s.freg f)).legal)
      && (s.exe x.g).any fun l =>
        let t := s.cb.thr l
        let meets (a : Src) (span : Nat) : Bool := t.readsBad a span || s.readsBadScalar a span
        meets x.a k.a.span || meets x.b k.b.span || (!i.sendsPoison && meets x.c k.c.span)

/-! ### The operand log and the fault shadow (R265, R266) -/

/-- Lanes of the issue that wait for a replay, with the entries they wait in. -/
def State.pendingLog (s : State) : List OplogEntry :=
  s.cb.logs.flatMap fun n => ((s.cb.oplog n).map (·.2)).filter fun e =>
    e.lanes.any fun l => s.sel.act.contains l.thr && !l.replayed && !l.cancelled

/-- Entries whose pending destination is a scalar register of the issuing context, which its other lanes share (R131, R265). -/
def State.pendingScalars (s : State) : List OplogEntry :=
  s.cb.logs.flatMap fun n => ((s.cb.oplog n).map (·.2)).filter fun e =>
    (match e.dst with | .s _ => true | _ => false) && e.lanes.any fun l => !l.replayed && !l.cancelled
      && (match (s.cb.thr l.thr).ctx with | some k => .drawn k | none => .home (homeBundle l.thr)) == s.sel.ctx

/-- Two register ranges overlap. -/
def regsMeet (a b : Option (Nat × Nat × Nat)) : Bool :=
  match a, b with
  | some (k, n, w), some (k', n', w') => k == k' && decide (n < n' + w') && decide (n' < n + w)
  | _, _ => false

/-- The instruction depends on a pending result (R131): it reads or writes a pending register, or reads flags that a pending
atomic is still to set (R71). -/
def OplogEntry.blocks (e : OplogEntry) (i : Instr) (x : Opnds) : Bool :=
  let k := i.sig
  let p := e.dst.regs e.span
  regsMeet (x.d.regs k.d.span) p || regsMeet (x.a.regs k.a.span) p || regsMeet (x.b.regs k.b.span) p
    || regsMeet (x.c.regs k.c.span) p || regsMeet (some (2, x.g.p.toNat, 1)) p
    || (match i, e.acc with
      | .flagsGet _, .atomic .. | .flagsClr _, .atomic .. => true
      | .iaddc _ _ cp, _ => regsMeet (some (2, cp.toNat, 1)) p
      | _, _ => false)

/-- The operand log of the issuing bundle has no free entry (R265). -/
def State.logFull (s : State) : Bool := decide (8 ≤ (s.cb.oplog s.sel.ctx.log).length)

/-! ### Issue -/

/-- The issue is counted in the sequence number of the partition whose matrix unit the block owns (R209), or uncounted: lanes
that are still inside an issue count no other. -/
def State.countIssue (s : State) (d : Int) : State :=
  let p := s.cb.partOf s.sel.ctx
  if (s.part p).owner == some s.sel.blk && (s.cb.thr (s.sel.act.headD 0)).group == 0 then
    s.modPart p fun x => { x with seq := wrap 32 ((x.seq : Int) + d) }
  else s

/-- An instruction that waits: the subset's turn ends (R129), and it stays where it is, not yet counted as issued. -/
def State.stall (s : State) : State := (s.countIssue (-1)).noIssue

/-- What stands before an instruction's own effect: the waits of R265 and R266, then the checks of R126, R28 and R59 in the
order of R29. The effect is given the operand fields and the state before the issue. -/
def State.issue (s : State) (i : Instr) (effect : Opnds → State → State) : Host.Outcome State Fault Refusal :=
  match i.opnds?, s.sel.act with
  | none, _ | _, [] => .next s
  | some x, _ :: _ =>
    let pend := s.pendingLog
    if !pend.isEmpty && (!i.inShadow || (pend.any fun e => e.blocks i x)
        || s.sel.act.any fun t => (s.cb.thr t).wait == .replay) then .next s.noIssue
    else if s.pendingScalars.any fun e => e.blocks i x then .next s.noIssue
    else if i.mayFault && s.logFull then .next s.noIssue
    else
      let s := s.countIssue 1
      if !s.roleOk i.opcode then .next (s.trapAll x.ext.bytes 6)
      else if !s.launchOk i x then .next (s.trapAll x.ext.bytes 2)
      else if i.format?.any fun f => !(Nf.fmtOf (s.freg f)).legal then .next (s.trapAll x.ext.bytes 5)
      else if s.badRead i then .next (s.consume s.sel.blk 1 0)
      else .next (effect x s)

/-- An instruction that computes a value and flags in each executing lane from what the lanes hold at issue, and does nothing
else but advance (R73, R74). -/
def State.alu (s : State) (i : Instr) (span : Nat) (f : Opnds → State → Nat → Nat × BitVec 6) :
    Host.Outcome State Fault Refusal :=
  s.issue i fun x s =>
    let rs := (s.exe x.g).map fun t => (t, f x s t)
    ((s.advance x.ext.bytes).write x.d span (rs.map fun r => (r.1, r.2.1))).flagLanes (rs.map fun r => (r.1, r.2.2))

end Sys2Proof.Machine
end

