-- ==== Sys2Proof/Machine/Integer.lean ====
section
/-! DEFINITION. Integer.lean: the integer and logic instructions (R76 to R80) and `nop` (R27). -/

namespace Sys2Proof.Machine

/-! ### Values (R79) -/

/-- The integer that bits name under a type (R79). -/
def ival (t : ITy) (a : Nat) : Int := readInt t.bits t.signed a

/-- A result as its register bits (R75): extended to the register's width. -/
def iout (t : ITy) (x : Nat) : Nat := extend t.bits t.signed x

/-- `fit` under a type (R79). -/
def ifit (t : ITy) (sat : Bool) (x : Int) : Nat := iout t (fit t.bits t.signed sat x)

/-- `shl` (R79). -/
def shlVal (w : Nat) (clamp : Bool) (a n : Nat) : Nat :=
  if clamp && decide (w ≤ n) then 0 else a * 2 ^ (n % w) % 2 ^ w

/-- `shr` (R79). -/
def shrVal (w : Nat) (clamp : Bool) (a n : Nat) : Nat :=
  if clamp && decide (w ≤ n) then 0 else a / 2 ^ (n % w)

/-- `sar` (R79). -/
def sarVal (w : Nat) (clamp : Bool) (a n : Nat) : Nat :=
  let k := if clamp && decide (w ≤ n) then w else n % w
  wrap w (readInt w true a / (2 ^ k : Nat))

/-- `rot` (R79). -/
def rotVal (w a n : Nat) : Nat := (a * 2 ^ (n % w) + a / 2 ^ (w - n % w)) % 2 ^ w

/-- `clz` (R79). -/
def clzVal (w a : Nat) : Nat := w - bitlen a

/-- `bfe` (R79). -/
def bfeVal (t : ITy) (a pos len : Nat) : Nat :=
  let w := t.bits
  let p := min (pos % 256) w
  let q := min (len % 256) (w - p)
  if q = 0 then 0 else wrap w (readInt q t.signed (field a p q))

/-- `bfi` (R79). -/
def bfiVal (w a pl c : Nat) : Nat :=
  let p := min (pl % 256) w
  let q := min (field pl 8 8) (w - p)
  c % 2 ^ p + a % 2 ^ q * 2 ^ p + c / 2 ^ (p + q) * 2 ^ (p + q)

/-- The comparison of two integers (R78). -/
def cmpInt (cc : Cc) (a b : Int) : Bool :=
  match cc with
  | .eq => decide (a = b)
  | .ne => decide (a ≠ b)
  | .lt => decide (a < b)
  | .le => decide (a ≤ b)
  | .gt => decide (b < a)
  | .ge => decide (b ≤ a)

/-- `lut3` on n bits (R80): a is the least significant index bit. -/
def lut3Val (tbl a b c : Nat) : Nat → Nat
  | 0 => 0
  | n + 1 =>
    let bit (x : Nat) : Nat := x / 2 ^ n % 2
    (if bitAt tbl (bit a + 2 * bit b + 4 * bit c) then 2 ^ n else 0) + lut3Val tbl a b c n

/-- `prmt` (R79). -/
def prmtVal (a b c : Nat) : Nat :=
  let all := a + 2 ^ 32 * b
  ((List.range 4).map fun k =>
    let sel := field c (4 * k) 4
    let y := field all (8 * (sel % 8)) 8
    (if bitAt sel 3 then (if bitAt y 7 then 255 else 0) else y) * 2 ^ (8 * k)).sum

/-! ### Operand readers -/

/-- The three sources read under one type. -/
def src3 (s : State) (x : Opnds) (ty : OpTy) (t : Nat) : Nat × Nat × Nat :=
  (s.src x.ext ty t x.a, s.src x.ext ty t x.b, s.src x.ext ty t x.c)

/-- An instruction on the integer values of a and b. -/
def intOp2 (s : State) (i : Instr) (t : ITy) (f : Int → Int → Nat) : Host.Outcome State Fault Refusal :=
  s.alu i t.regs fun x s l => (f (ival t (s.src x.ext t.op l x.a)) (ival t (s.src x.ext t.op l x.b)), 0)

/-- An instruction on the bits of a and b. -/
def bitOp2 (s : State) (i : Instr) (t : ITy) (f : Nat → Nat → Nat) : Host.Outcome State Fault Refusal :=
  s.alu i t.regs fun x s l => (f (s.src x.ext t.op l x.a) (s.src x.ext t.op l x.b), 0)

/-- An instruction on the bits of a alone. -/
def bitOp1 (s : State) (i : Instr) (t : ITy) (span : Nat) (f : Nat → Nat) : Host.Outcome State Fault Refusal :=
  s.alu i span fun x s l => (f (s.src x.ext t.op l x.a), 0)

/-- An instruction on the bits of a and a 32-bit count (R78). -/
def shiftOp (s : State) (i : Instr) (t : ITy) (f : Nat → Nat → Nat) : Host.Outcome State Fault Refusal :=
  s.alu i t.regs fun x s l => (f (s.src x.ext t.op l x.a) (s.src x.ext .b32 l x.b), 0)

/-! ### Meanings -/

/-- `nop` (R27). -/
def execNop (x : Opnds) (s : State) : Host.Outcome State Fault Refusal :=
  s.issue (.nop x) fun x s => s.advance x.ext.bytes

/-- `iadd` (R79). -/
def execIadd (x : Opnds) (t : ITy) (sat : Bool) (s : State) : Host.Outcome State Fault Refusal :=
  intOp2 s (.iadd x t sat) t fun a b => ifit t sat (a + b)

/-- `isub` (R79). -/
def execIsub (x : Opnds) (t : ITy) (sat : Bool) (s : State) : Host.Outcome State Fault Refusal :=
  intOp2 s (.isub x t sat) t fun a b => ifit t sat (a - b)

/-- `imul` (R79). -/
def execImul (x : Opnds) (t : ITy) (sat : Bool) (s : State) : Host.Outcome State Fault Refusal :=
  intOp2 s (.imul x t sat) t fun a b => ifit t sat (a * b)

/-- `imulhi` (R79): bits [2w − 1 : w] of the product. -/
def execImulhi (x : Opnds) (t : ITy) (s : State) : Host.Outcome State Fault Refusal :=
  intOp2 s (.imulhi x t) t fun a b => iout t (wrap t.bits (a * b / (2 ^ t.bits : Nat)))

/-- `imad` (R79). -/
def execImad (x : Opnds) (t : ITy) (sat : Bool) (s : State) : Host.Outcome State Fault Refusal :=
  s.alu (.imad x t sat) t.regs fun x s l =>
    let (a, b, c) := src3 s x t.op l
    (ifit t sat (ival t a * ival t b + ival t c), 0)

/-- `imin` (R79). -/
def execImin (x : Opnds) (t : ITy) (s : State) : Host.Outcome State Fault Refusal :=
  intOp2 s (.imin x t) t fun a b => ifit t false (min a b)

/-- `imax` (R79). -/
def execImax (x : Opnds) (t : ITy) (s : State) : Host.Outcome State Fault Refusal :=
  intOp2 s (.imax x t) t fun a b => ifit t false (max a b)

/-- `iabs` (R79). -/
def execIabs (x : Opnds) (t : ITy) (sat : Bool) (s : State) : Host.Outcome State Fault Refusal :=
  bitOp1 s (.iabs x t sat) t t.regs fun a => ifit t sat (ival t a).natAbs

/-- `ineg` (R79). -/
def execIneg (x : Opnds) (t : ITy) (sat : Bool) (s : State) : Host.Outcome State Fault Refusal :=
  bitOp1 s (.ineg x t sat) t t.regs fun a => ifit t sat (-(ival t a))

/-- `shl` (R79). -/
def execShl (x : Opnds) (t : ITy) (clamp : Bool) (s : State) : Host.Outcome State Fault Refusal :=
  shiftOp s (.shl x t clamp) t (shlVal t.bits clamp)

/-- `shr` (R79). -/
def execShr (x : Opnds) (t : ITy) (clamp : Bool) (s : State) : Host.Outcome State Fault Refusal :=
  shiftOp s (.shr x t clamp) t (shrVal t.bits clamp)

/-- `sar` (R79). -/
def execSar (x : Opnds) (t : ITy) (clamp : Bool) (s : State) : Host.Outcome State Fault Refusal :=
  shiftOp s (.sar x t clamp) t (sarVal t.bits clamp)

/-- `rot` (R79). -/
def execRot (x : Opnds) (t : ITy) (s : State) : Host.Outcome State Fault Refusal :=
  shiftOp s (.rot x t) t (rotVal t.bits)

/-- `and` (R79). -/
def execAnd (x : Opnds) (t : ITy) (s : State) : Host.Outcome State Fault Refusal := bitOp2 s (.and x t) t (· &&& ·)

/-- `or` (R79). -/
def execOr (x : Opnds) (t : ITy) (s : State) : Host.Outcome State Fault Refusal := bitOp2 s (.or x t) t (· ||| ·)

/-- `xor` (R79). -/
def execXor (x : Opnds) (t : ITy) (s : State) : Host.Outcome State Fault Refusal := bitOp2 s (.xor x t) t (· ^^^ ·)

/-- `not` (R79). -/
def execNot (x : Opnds) (t : ITy) (s : State) : Host.Outcome State Fault Refusal :=
  bitOp1 s (.not x t) t t.regs fun a => 2 ^ t.bits - 1 - a

/-- `lut3` (R80). -/
def execLut3 (x : Opnds) (wide : Bool) (tbl : BitVec 8) (s : State) : Host.Outcome State Fault Refusal :=
  let t : ITy := if wide then .b64 else .b32
  s.alu (.lut3 x wide tbl) t.regs fun x s l =>
    let (a, b, c) := src3 s x t.op l
    (lut3Val tbl.toNat a b c t.bits, 0)

/-- `popc` (R79). -/
def execPopc (x : Opnds) (t : ITy) (s : State) : Host.Outcome State Fault Refusal :=
  bitOp1 s (.popc x t) t 1 fun a => popcount a t.bits

/-- `clz` (R79). -/
def execClz (x : Opnds) (t : ITy) (s : State) : Host.Outcome State Fault Refusal :=
  bitOp1 s (.clz x t) t 1 (clzVal t.bits)

/-- `brev` (R79). -/
def execBrev (x : Opnds) (t : ITy) (s : State) : Host.Outcome State Fault Refusal :=
  bitOp1 s (.brev x t) t t.regs fun a => reverseBits a t.bits

/-- `bfe` (R79). -/
def execBfe (x : Opnds) (t : ITy) (s : State) : Host.Outcome State Fault Refusal :=
  s.alu (.bfe x t) t.regs fun x s l =>
    (bfeVal t (s.src x.ext t.op l x.a) (s.src x.ext .b32 l x.b) (s.src x.ext .b32 l x.c), 0)

/-- `bfi` (R79). -/
def execBfi (x : Opnds) (t : ITy) (s : State) : Host.Outcome State Fault Refusal :=
  s.alu (.bfi x t) t.regs fun x s l =>
    (bfiVal t.bits (s.src x.ext t.op l x.a) (s.src x.ext .b32 l x.b) (s.src x.ext t.op l x.c), 0)

/-- `icmp` (R78, R79): 1 or 0 into a p or v register. -/
def execIcmp (x : Opnds) (t : ITy) (cc : Cc) (s : State) : Host.Outcome State Fault Refusal :=
  s.alu (.icmp x t cc) 1 fun x s l =>
    ((if cmpInt cc (ival t (s.src x.ext t.op l x.a)) (ival t (s.src x.ext t.op l x.b)) then 1 else 0), 0)

/-- `sel` (R79). -/
def execSel (x : Opnds) (t : ITy) (s : State) : Host.Outcome State Fault Refusal :=
  s.alu (.sel x t) t.regs fun x s l =>
    ((if s.src x.ext .b32 l x.c != 0 then s.src x.ext t.op l x.a else s.src x.ext t.op l x.b), 0)

/-- `mov` (R79). -/
def execMov (x : Opnds) (t : ITy) (s : State) : Host.Outcome State Fault Refusal :=
  bitOp1 s (.mov x t) t t.regs id

/-- `iaddc` (R79): the carry predicate is read and written; p7 gives 1 and discards. -/
def execIaddc (x : Opnds) (t : ITy) (cp : BitVec 3) (s : State) : Host.Outcome State Fault Refusal :=
  s.issue (.iaddc x t cp) fun x s =>
    let rs := (s.exe x.g).map fun l =>
      (l, s.src x.ext t.op l x.a + s.src x.ext t.op l x.b + (if (s.cb.thr l).pred cp then 1 else 0))
    ((s.advance x.ext.bytes).write x.d t.regs (rs.map fun r => (r.1, r.2 % 2 ^ t.bits))).write (.p cp) 1
      (rs.map fun r => (r.1, r.2 / 2 ^ t.bits))

/-- `lea` (R79). -/
def execLea (x : Opnds) (t : ITy) (sh : BitVec 3) (s : State) : Host.Outcome State Fault Refusal :=
  s.alu (.lea x t sh) 2 fun x s l =>
    (wrap 64 ((s.src x.ext .b64 l x.a : Nat) + ival t (s.src x.ext .b32 l x.b) * (2 ^ sh.toNat : Nat)), 0)

/-- `imad.wide` (R79). -/
def execImadWide (x : Opnds) (t : ITy) (sat : Bool) (s : State) : Host.Outcome State Fault Refusal :=
  s.alu (.imadWide x t sat) 2 fun x s l =>
    let a := ival t (s.src x.ext t.op l x.a)
    let b := ival t (s.src x.ext t.op l x.b)
    let c := readInt 64 t.signed (s.src x.ext (.int 64 t.signed) l x.c)
    (fit 64 t.signed sat (a * b + c), 0)

/-- `prmt` (R79). -/
def execPrmt (x : Opnds) (s : State) : Host.Outcome State Fault Refusal :=
  s.alu (.prmt x) 1 fun x s l =>
    let (a, b, c) := src3 s x .b32 l
    (prmtVal a b c, 0)

/-- `isad` (R79). -/
def execIsad (x : Opnds) (t : ITy) (sat : Bool) (s : State) : Host.Outcome State Fault Refusal :=
  s.alu (.isad x t sat) 1 fun x s l =>
    let (a, b, c) := src3 s x t.op l
    (ifit t sat ((ival t a - ival t b).natAbs + ival t c), 0)

end Sys2Proof.Machine
end

