-- ==== Sys2Proof/Machine/Scalar.lean ====
section
/-! DEFINITION. Scalar.lean: the uniform scalar instructions (R151, R152). -/

namespace Sys2Proof.Machine

/-- An instruction that acts once per issue: its value comes from the lowest-numbered executing lane, and every executing lane
of a p destination receives it (R16, R132, R151). A predicate that it reads is that lane's: R151 speaks of per-lane specials alone (DESIGN
CHOICE, log entry 45). -/
def State.once (s : State) (i : Instr) (span : Nat) (f : Opnds → State → Nat → Nat) : Host.Outcome State Fault Refusal :=
  s.issue i fun x s =>
    match s.first x.g with
    | none => s.advance x.ext.bytes
    | some l =>
      let v := f x s l
      (s.advance x.ext.bytes).write x.d span ((s.exe x.g).map fun u => (u, v))

/-- A scalar instruction on the integer values of a and b. -/
def scalInt (s : State) (i : Instr) (t : ITy) (f : Int → Int → Nat) : Host.Outcome State Fault Refusal :=
  s.once i t.regs fun x s l => f (ival t (s.src x.ext t.op l x.a)) (ival t (s.src x.ext t.op l x.b))

/-- A scalar instruction on the bits of a and b. -/
def scalBits (s : State) (i : Instr) (t : ITy) (f : Nat → Nat → Nat) : Host.Outcome State Fault Refusal :=
  s.once i t.regs fun x s l => f (s.src x.ext t.op l x.a) (s.src x.ext t.op l x.b)

/-- A scalar shift: the count is a 32-bit source (R78, R152). -/
def scalShift (s : State) (i : Instr) (t : ITy) (f : Nat → Nat → Nat) : Host.Outcome State Fault Refusal :=
  s.once i t.regs fun x s l => f (s.src x.ext t.op l x.a) (s.src x.ext .b32 l x.b)

/-- `sadd` (R152). -/
def execSadd (x : Opnds) (t : ITy) (sat : Bool) (s : State) : Host.Outcome State Fault Refusal :=
  scalInt s (.sadd x t sat) t fun a b => ifit t sat (a + b)

/-- `ssub` (R152). -/
def execSsub (x : Opnds) (t : ITy) (sat : Bool) (s : State) : Host.Outcome State Fault Refusal :=
  scalInt s (.ssub x t sat) t fun a b => ifit t sat (a - b)

/-- `smul` (R152). -/
def execSmul (x : Opnds) (t : ITy) (sat : Bool) (s : State) : Host.Outcome State Fault Refusal :=
  scalInt s (.smul x t sat) t fun a b => ifit t sat (a * b)

/-- `sand` (R152). -/
def execSand (x : Opnds) (t : ITy) (s : State) : Host.Outcome State Fault Refusal := scalBits s (.sand x t) t (· &&& ·)

/-- `sor` (R152). -/
def execSor (x : Opnds) (t : ITy) (s : State) : Host.Outcome State Fault Refusal := scalBits s (.sor x t) t (· ||| ·)

/-- `sxor` (R152). -/
def execSxor (x : Opnds) (t : ITy) (s : State) : Host.Outcome State Fault Refusal := scalBits s (.sxor x t) t (· ^^^ ·)

/-- `sshl` (R152). -/
def execSshl (x : Opnds) (t : ITy) (clamp : Bool) (s : State) : Host.Outcome State Fault Refusal :=
  scalShift s (.sshl x t clamp) t (shlVal t.bits clamp)

/-- `sshr` (R152): arithmetic under `.a`. -/
def execSshr (x : Opnds) (t : ITy) (clamp arith : Bool) (s : State) : Host.Outcome State Fault Refusal :=
  scalShift s (.sshr x t clamp arith) t (if arith then sarVal t.bits clamp else shrVal t.bits clamp)

/-- `scmp` (R152): an s register, or a p register in every executing lane. -/
def execScmp (x : Opnds) (t : ITy) (cc : Cc) (s : State) : Host.Outcome State Fault Refusal :=
  s.once (.scmp x t cc) 1 fun x s l =>
    if cmpInt cc (ival t (s.src x.ext t.op l x.a)) (ival t (s.src x.ext t.op l x.b)) then 1 else 0

/-- `smov` (R152). -/
def execSmov (x : Opnds) (t : ITy) (s : State) : Host.Outcome State Fault Refusal :=
  s.once (.smov x t) t.regs fun x s l => s.src x.ext t.op l x.a

end Sys2Proof.Machine
end

