-- ==== Sys2Proof/Machine/CrossLane.lean ====
section
/-! DEFINITION. CrossLane.lean: exchanges between lanes (R154 to R158). -/

namespace Sys2Proof.Machine

open Sys2Proof.Fp (Val Exact Flags)

/-- `rfl` (R154): a of the lowest-numbered executing lane. -/
def execRfl (x : Opnds) (wide : Bool) (s : State) : Host.Outcome State Fault Refusal :=
  s.once (.rfl x wide) (if wide then 2 else 1) fun x s l => s.src x.ext (if wide then .b64 else .b32) l x.a

/-- `ballot` (R155): bit h is 1 when home lane h executes and its a is nonzero. -/
def execBallot (x : Opnds) (s : State) : Host.Outcome State Fault Refusal :=
  s.once (.ballot x) 4 fun x s _ =>
    maskOf (((s.exe x.g).filter fun l => s.src x.ext .b32 l x.a != 0).map homeLane)

/-- The result of `agree` over the values of the executing lanes (R156). -/
def agreeVal (m : AgreeMode) (vs : List Nat) : Bool :=
  match m with
  | .every => vs.all (· != 0)
  | .some => vs.any (· != 0)
  | .same => vs.all fun v => vs.head? == some v
  | .none => vs.all (· == 0)

/-- `agree` (R156). -/
def execAgree (x : Opnds) (m : AgreeMode) (s : State) : Host.Outcome State Fault Refusal :=
  s.once (.agree x m) 1 fun x s _ =>
    if agreeVal m ((s.exe x.g).map fun l => s.src x.ext .b32 l x.a) then 1 else 0

/-- The segment width of a code (R157). -/
def segWidth : Seg → Nat
  | .w128 => 128
  | .w64 => 64
  | .w32 => 32
  | .w16 => 16
  | .w8 => 8

/-- The source position within a segment (R157). -/
def xlanePos (m : XMode) (w i b : Nat) : Nat :=
  match m with
  | .pick => b % w
  | .rot => (i + b) % w
  | .flip => i ^^^ (b % w)
  | .rev => w - 1 - i

/-- `xlane` (R157). -/
def execXlane (x : Opnds) (m : XMode) (w : Seg) (wide : Bool) (s : State) : Host.Outcome State Fault Refusal :=
  let ty : OpTy := if wide then .b64 else .b32
  s.alu (.xlane x m w wide) (if wide then 2 else 1) fun x s l =>
    let h := homeLane l
    let wd := segWidth w
    let from_ := h / wd * wd + xlanePos m wd (h % wd) (s.src x.ext .b32 l x.b)
    match (s.exe x.g).find? fun u => homeLane u == from_ with
    | some u => (s.src x.ext ty u x.a, 0)
    | none => (s.src x.ext ty l x.c, 0)

/-- The exact sum of FP values, rounded once (R158): infinities of both signs set invalid, whatever else there is. -/
def fsumVal (vs : List Val) : Nat × Flags :=
  let infs := vs.filter Val.isInf
  let both := infs.any (·.neg) && infs.any (!·.neg)
  let fl := Fp.snanFlags vs ||| if both then Fp.inv else 0
  if vs.any Val.isNan || both then (Fp.nanBits .f32, fl)
  else
    match infs with
    | i :: _ => (Fp.signBit .f32 i.neg + Fp.infBits .f32, fl)
    | [] =>
      let d : Fp.Dyadic := vs.foldl (fun (a : Fp.Dyadic) v => a.add v.dyadic) { m := 0, e := 0 }
      let (b, g) := Fp.round .f32 .rn (d.exact (vs.all fun v => v.isZero && v.neg))
      (b, fl ||| g)

/-- `fmin` or `fmax` across values (R158): the least or greatest that is not a NaN, the canonical NaN if all are. -/
def fextVal (isMax : Bool) (vs : List Val) : Nat × Flags :=
  let fl := Fp.snanFlags vs
  match vs.filter fun v => !v.isNan with
  | [] => (Fp.nanBits .f32, fl)
  | v :: rest =>
    let best := rest.foldl (fun a b => if Fp.minFirst a b != isMax then a else b) v
    ((Fp.round .f32 .rn best.exact).1, fl)

/-- The integer and bit reductions (R158). -/
def lredInt (op : RedOp) (t : ITy) (vs : List Nat) : Nat :=
  let is := vs.map (ival t)
  match op with
  | .add => ifit t false is.sum
  | .min => ifit t false (is.foldl min (is.headD 0))
  | .max => ifit t false (is.foldl max (is.headD 0))
  | .and => vs.foldl (· &&& ·) (2 ^ t.bits - 1)
  | .or => vs.foldl (· ||| ·) 0
  | .xor => vs.foldl (· ^^^ ·) 0
  | .fadd | .fmin | .fmax => 0

/-- The value and flags of `lred` (R158). -/
def lredVal (op : RedOp) (t : ITy) (vs : List Nat) : Nat × Flags :=
  match op with
  | .fadd => fsumVal (vs.map (Fp.unpack .f32))
  | .fmin => fextVal false (vs.map (Fp.unpack .f32))
  | .fmax => fextVal true (vs.map (Fp.unpack .f32))
  | _ => (lredInt op t vs, 0)

/-- `lred` (R158): flags are set in the lowest-numbered executing lane only. -/
def execLred (x : Opnds) (op : RedOp) (t : ITy) (s : State) : Host.Outcome State Fault Refusal :=
  s.issue (.lred x op t) fun x s =>
    let ty : OpTy := match op with | .fadd | .fmin | .fmax => .fp .f32 | _ => t.op
    match s.exe x.g with
    | [] => s.advance x.ext.bytes
    | l :: ls =>
      let (v, fl) := lredVal op t ((l :: ls).map fun u => s.src x.ext ty u x.a)
      ((s.advance x.ext.bytes).write x.d t.regs ((l :: ls).map fun u => (u, v))).flagLanes [(l, fl)]

end Sys2Proof.Machine
end

