-- ==== Sys2Proof/Machine/Flags.lean ====
section
/-! DEFINITION. Flags.lean: results with their numeric flags (R55, R69, R70, R81): one element, packed elements, the operand
modifiers and saturation. -/

namespace Sys2Proof.Machine

open Sys2Proof.Fp (Val Exact Flags)

/-- An FP operand of a type. -/
def FTy.op (t : FTy) : OpTy := .fp t

/-- `.absa` and `.nega` on one element: the sign bit is cleared, then inverted (R81). -/
def signMods (f : FFmt) (abs neg : Bool) (bits : Nat) : Nat :=
  let top := 2 ^ (Fp.width f - 1)
  let b := if abs then bits % top else bits
  if neg then (if b / top % 2 = 1 then b - top else b + top) else b

/-- Element k of an operand: the operand itself where the type is not packed (R55, R75). -/
def elem (t : FTy) (x k : Nat) : Nat := if t.packed then field x (16 * k) 16 else x % 2 ^ Fp.width t.fmt

/-- A result of each element, with the elements' flags ORed (R55). -/
def perElem (t : FTy) (f : Nat → Nat × Flags) : Nat × Flags :=
  if t.packed then
    let (a, fa) := f 0
    let (b, fb) := f 1
    (a + 65536 * b, fa ||| fb)
  else f 0

/-- An exact result rounded under the modifiers (R81): `.sat` acts after rounding and keeps the flags. -/
def finish (f : FFmt) (rnd : Rnd) (sat : Bool) (r : Exact × Flags) : Nat × Flags :=
  let (b, fl) := Fp.round f rnd r.1
  ((if sat then Fp.saturate f b else b), r.2 ||| fl)

/-- An instruction of one FP operand. -/
def fpOp1 (s : State) (i : Instr) (t : FTy) (m : FMods) (f : Val → Exact × Flags) : Host.Outcome State Fault Refusal :=
  s.alu i 1 fun x s l =>
    let a := s.src x.ext (.fp t) l x.a
    perElem t fun k => finish t.fmt m.rnd m.sat (f (Fp.unpack t.fmt (signMods t.fmt m.absa m.nega (elem t a k))))

/-- An instruction of one FP operand whose function rounds its own result. -/
def fpFun (s : State) (i : Instr) (t : FTy) (m : FMods) (f : FFmt → Rnd → Val → Nat × Flags) :
    Host.Outcome State Fault Refusal :=
  s.alu i 1 fun x s l =>
    let a := s.src x.ext (.fp t) l x.a
    perElem t fun k =>
      let (b, fl) := f t.fmt m.rnd (Fp.unpack t.fmt (signMods t.fmt m.absa m.nega (elem t a k)))
      ((if m.sat then Fp.saturate t.fmt b else b), fl)

/-- An instruction of two FP operands. -/
def fpOp2 (s : State) (i : Instr) (t : FTy) (m : FMods) (f : Val → Val → Exact × Flags) :
    Host.Outcome State Fault Refusal :=
  s.alu i 1 fun x s l =>
    let a := s.src x.ext (.fp t) l x.a
    let b := s.src x.ext (.fp t) l x.b
    perElem t fun k =>
      finish t.fmt m.rnd m.sat (f (Fp.unpack t.fmt (signMods t.fmt m.absa m.nega (elem t a k)))
        (Fp.unpack t.fmt (signMods t.fmt false m.negb (elem t b k))))

/-- An instruction of three FP operands. -/
def fpOp3 (s : State) (i : Instr) (t : FTy) (m : FMods) (f : Val → Val → Val → Exact × Flags) :
    Host.Outcome State Fault Refusal :=
  s.alu i 1 fun x s l =>
    let a := s.src x.ext (.fp t) l x.a
    let b := s.src x.ext (.fp t) l x.b
    let c := s.src x.ext (.fp t) l x.c
    perElem t fun k =>
      finish t.fmt m.rnd m.sat (f (Fp.unpack t.fmt (signMods t.fmt m.absa m.nega (elem t a k)))
        (Fp.unpack t.fmt (signMods t.fmt false m.negb (elem t b k)))
        (Fp.unpack t.fmt (signMods t.fmt false m.negc (elem t c k))))

end Sys2Proof.Machine
end

