-- ==== Sys2Proof/Machine/Home.lean ====
section
/-! DEFINITION. Home.lean: physical memory at its homes, the L2s in front of it, ownership, the directory and the vector clocks
(R254, R255, R347 to R350, R354, R364, R370 to R378, R387, R413). -/

namespace Sys2Proof.Machine

/-! ### The physical address space (R347, R387) -/

/-- What serves a physical address. -/
inductive PlaceOf where
  | hbm (die : Nat)
  | pool
  /-- A peer alias: borrow slot and offset in the extent. -/
  | peerAlias (slot off : Nat)
  /-- A type-3 device on a port. -/
  | device (port : Nat)
  /-- Unmapped, configuration space, or reserved by the hub: refused to compute dies. -/
  | refused
  deriving DecidableEq, Repr

/-- The map of R347 and R387. -/
def placeOf (pa : Nat) : PlaceOf :=
  if pa < 2 ^ 39 then .hbm (pa / 2 ^ 37)
  else if 2 ^ 41 ≤ pa && pa < 2 ^ 42 - 2 ^ 26 then .pool
  else if 2 ^ 48 ≤ pa && pa < 5 * 2 ^ 48 then .peerAlias ((pa - 2 ^ 48) / 2 ^ 34) (pa % 2 ^ 34)
  else if 5 * 2 ^ 48 ≤ pa && pa < 5 * 2 ^ 48 + 24 * 2 ^ 44 then .device ((pa - 5 * 2 ^ 48) / 2 ^ 44)
  else .refused

/-- The agent that is an address's home: a die, or 4 for the hub (R347, R368). -/
def homeAgent (pa : Nat) : Nat :=
  match placeOf pa with
  | .hbm d => d
  | _ => 4

/-- The physical base of a peer alias (R387). -/
def aliasBase (slot : Nat) : Nat := 2 ^ 48 + slot * 2 ^ 34

/-- The owner code of a granule (R349): an entry never written reads as free, the reserved range as 0x14. -/
def State.granuleOwner (s : State) (g : Nat) : Nat :=
  if 2 ^ 42 - 2 ^ 26 ≤ 65536 * g && 65536 * g < 2 ^ 42 then 0x14 else Sparse.getOr s.hub.owner g 0x12

/-- The owner code of an address: its granule's, but for a frame that a shadow has exchanged (R304 to R307, log entry 24). -/
def State.owner (s : State) (pa : Nat) : Nat :=
  Sparse.getOr s.hub.frames (pa / 4096) (s.granuleOwner (pa / 65536))

/-- The owner check of an access that carries a code (R349). Fabric addresses have no granules. -/
def State.ownerOk (s : State) (code pa : Nat) : Bool :=
  match placeOf pa with
  | .hbm _ | .pool => s.owner pa == code
  | .peerAlias .. | .device _ => true
  | .refused => false

/-- The borrow entry of a slot (R395). -/
def State.borrow (s : State) (slot : Nat) : Borrow :=
  Sparse.getOr s.hub.borrows slot { state := 0, size := 0, dom := 0, wide := false, port := 0, gen := 0, inc := 0, id := 0, expiry := none, acked := false }

/-- The owner of the slot that a code is charged to (R354): codes from 0x10 are the package kernel's. -/
def slotOwner (code : Nat) : Nat := min code 16

/-- The current slot belongs to the charge domain of a request (R354): the owner of its granule, or the issuing domain for fabric
traffic. -/
def State.slotOk (s : State) (code pa : Nat) : Bool :=
  let c := match placeOf pa with
    | .hbm _ | .pool => s.owner pa
    | _ => code
  s.hub.slots.getD s.hub.slot 31 == slotOwner c

/-- The code to which a write-back is charged that no access asks for (R354): the owner of its granule; at a peer, the domain of the
borrow entry; at a device, the package kernel (DESIGN CHOICE, log entry 46). -/
def State.chargeOf (s : State) (pa : Nat) : Nat :=
  match placeOf pa with
  | .peerAlias slot _ => (s.borrow slot).dom
  | _ => 0x10

/-- The home refuses requests: a die from the end of step 2 of its warm reset, or out of service (R364). -/
def State.refuses (s : State) (pa : Nat) : Bool :=
  match placeOf pa with
  | .hbm d => 3 ≤ (s.die d).warm.step
  | _ => false

/-- The incarnation that a request to an agent carries (R365). -/
def State.incOf (s : State) (a : Nat) : Half := if a < 4 then (s.die a).incarnation else 0

/-- A write in flight can be applied at its target: where that is its home, the home does not refuse it, it bears the home's incarnation, and
its slot is the current one (R354, R364, R365). -/
def State.mayApply (s : State) (d : Delivery) : Bool :=
  homeAgent d.pa != d.target || (!s.refuses d.pa && d.inc == s.incOf d.target && s.slotOk (s.chargeOf d.pa) d.pa)

/-! ### Memory at its home -/

/-- A byte at its home: what nothing has written reads 0 (log entry 3). -/
def Memory.byte (m : Memory) (pa : Nat) : Byte := Sparse.getOr m pa 0

/-- A byte is written at its home. -/
def Memory.setByte (m : Memory) (pa : Nat) (b : Byte) : Memory := Sparse.putOr m pa b 0

/-- Bytes are written at their home. -/
def Memory.setBytes (m : Memory) (pa : Nat) : List Byte → Memory
  | [] => m
  | b :: bs => (m.setByte pa b).setBytes (pa + 1) bs

/-- Bytes at their home. -/
def Memory.bytes (m : Memory) (pa n : Nat) : List Byte := (List.range n).map fun k => m.byte (pa + k)

/-- The canonical form of the memory: addresses strictly rising, no byte equal to what an unlisted address reads as. -/
def Memory.wf (m : Memory) : Bool := Sparse.canon (0 : Byte) m

/-! ### Vector clocks and deliveries (R370, R373, R375, R378) -/

/-- Componentwise maximum. -/
def clockMax (a b : List Nat) : List Nat := a.zipWith max b
/-- Componentwise order. -/
def clockLe (a b : List Nat) : Bool := (a.zip b).all fun e => decide (e.1 ≤ e.2)

/-- An agent's clock. -/
def State.vclock (s : State) (a : Nat) : List Nat := s.hub.clocks.getD a [0, 0, 0, 0, 0, 0]

/-- An agent's clock is set. -/
def State.setClock (s : State) (a : Nat) (c : List Nat) : State :=
  s.modHub fun h => { h with clocks := modAt (fun _ => c) a h.clocks }

/-- An agent sends a write: its own component advances, and the write is stamped (R378). -/
def State.stamp (s : State) (a : Nat) : State × List Nat :=
  let c := modAt (· + 1) a (s.vclock a)
  (s.setClock a c, c)

/-- The key by which concurrent writes are ordered (R375): the sum of the stamp, then the writer's agent. -/
def keyLt (s1 : List Nat) (w1 : Nat) (s2 : List Nat) (w2 : Nat) : Bool :=
  s1.sum < s2.sum || (s1.sum == s2.sum && w1 < w2)

/-- A view holds, for a byte, a write that is the same, a later or a greater concurrent one (R375). -/
def State.stale (s : State) (a pa : Nat) (st : List Nat) (writer : Nat) : Bool :=
  match s.hub.applied.find? fun e => e.agent == a && e.pa == pa with
  | some e => clockLe st e.stamp || (!clockLe e.stamp st && keyLt st writer e.stamp e.writer)
  | none => false

/-- A view holds a write at the bytes named (R375). -/
def State.note (s : State) (a : Nat) (pas : List Nat) (st : List Nat) (writer : Nat) : State :=
  s.modHub fun h => { h with
    applied := (pas.map fun pa => { agent := a, pa := pa, stamp := st, writer := writer })
      ++ h.applied.filter fun e => !(e.agent == a && pas.contains e.pa) }

/-! ### The L2s and the caches of P (R254, R255, R348, R413) -/

/-- The agents that have caches: the dies, and P. -/
def caches : List Nat := [0, 1, 2, 3, 5]

/-- A die's L2, or P's caches. -/
def State.cache (s : State) (a : Nat) : L2Cache := if a = 5 then s.hub.pcache else (s.die a).l2

/-- Update of a die's L2, or of P's caches. -/
def State.modCache (s : State) (a : Nat) (f : L2Cache → L2Cache) : State :=
  if a = 5 then s.modHub fun h => { h with pcache := f h.pcache } else s.modDie a fun x => { x with l2 := f x.l2 }

/-- A byte held in a cache. -/
def State.l2 (s : State) (d pa : Nat) : Option L2Byte := Sparse.look (s.cache d).bytes pa

/-- The first address of a byte's line, and of its sector. -/
def lineOf (pa : Nat) : Nat := pa / 256 * 256
/-- The first address of a byte's sector. -/
def sectorOf (pa : Nat) : Nat := pa / 64 * 64

/-- The sectors that a range overlaps, by number. -/
def sectorsOf (pa n : Nat) : List Nat := if n = 0 then [] else (List.range ((pa + n - 1) / 64 + 1 - pa / 64)).map (pa / 64 + ·)

/-- The sectors all of whose bytes are among those named. -/
def wholeSectors (pas : List Nat) : List Nat :=
  ((pas.map (· / 64)).eraseDups).filter fun k => (List.range 64).all fun j => pas.contains (64 * k + j)

/-- The slice of a line (R254): the exclusive or of the 5-bit groups of address bits [51:8]. -/
def sliceOf (pa : Nat) : Nat := ((List.range 9).map fun k => pa % 2 ^ 52 / 2 ^ (8 + 5 * k) % 32).foldl (· ^^^ ·) 0

/-- Numbers of a list, each once where equal ones stand together. -/
def runs : List Nat → List Nat
  | [] => []
  | [x] => [x]
  | x :: y :: r => if x = y then runs (y :: r) else x :: runs (y :: r)

/-- The lines that a cache holds, by number. -/
def L2Cache.lines (c : L2Cache) : List Nat := runs (c.bytes.map (·.1 / 256))

/-- The lines of 256 bytes in a slice of 3 MiB (R254). -/
def sliceLines : Nat := 12288

/-- A die's L2 holds a line, or its slice has room for one more (R254). P's caches have no stated size. -/
def State.l2Room (s : State) (d pa : Nat) : Bool :=
  let c := s.cache d
  d == 5 || c.bytes.length < sliceLines
    || c.lines.contains (pa / 256) || (c.lines.filter fun k => sliceOf (256 * k) == sliceOf pa).length < sliceLines

/-- The masked bytes of a range in a cache. -/
def State.maskedIn (s : State) (d lo n : Nat) : List (Nat × L2Byte) :=
  (s.cache d).bytes.filter fun e => lo ≤ e.1 && e.1 < lo + n && e.2.masked

/-- A sector is poisoned at its home. -/
def State.homePoison (s : State) (pa : Nat) : Bool := (Sparse.look s.poison (pa / 64)).isSome

/-- The message in which a request to a lender goes out: its lease, its generation, and the incarnation that this package knows of the
lender (R392). -/
def State.asking (s : State) (tag slot page : Nat) (what : Asked) : Sent :=
  let b := s.borrow slot
  match what with
  | .page => .ask tag b.port b.id b.gen b.inc page
  | .read _ off n => .peerRead tag b.port b.id b.gen b.inc (off / 4096) (off % 4096) n
  | .write bytes _ => .peerWrite tag b.port b.id b.gen b.inc bytes
  | .atomic _ _ off step => .peerAtomic tag b.port b.id b.gen b.inc (off / 4096) (off % 4096) step

/-- A request goes out to a lender, and is outstanding until it is answered (R392, R406). -/
def State.request (s : State) (slot page : Nat) (what : Asked) (engine : Bool) : State :=
  let tag := s.hub.tagNext
  (s.modHub fun h => { h with
    reqs := h.reqs ++ [{ tag := tag, dest := (s.borrow slot).port, slot := slot, page := page, what := what, drain := none, since := 0
                         lost := false, engine := engine }]
    tagNext := tag + 1 }).send (s.asking tag slot page what)

/-- Bytes for a lender go out to it, a request for each sector (R392); whose stores they are is known to the hub (R398). -/
def State.tellLender (s : State) (es : List (Nat × Byte)) (writers : Nat → List (Nat × Nat)) : State :=
  let far (pa : Nat) : Bool := match placeOf pa with
    | .peerAlias .. => true
    | _ => false
  let es := es.filter fun e => far e.1
  ((es.map (·.1 / 64)).eraseDups).foldl (fun s k =>
    match placeOf (64 * k) with
    | .peerAlias slot off =>
      let mine := es.filter fun e => e.1 / 64 == k
      s.request slot (off / 4096) (.write (mine.map fun e => (off + e.1 % 64, e.2)) ((mine.flatMap fun e => writers e.1).eraseDups)) false
    | _ => s) s

/-- Bytes stand at their homes; the poison of sectors that they cover is cleared (R413). -/
def State.homeSet (s : State) (es : List (Nat × Byte)) : State :=
  { s with
    mem := es.foldl (fun (m : Memory) (e : Nat × Byte) => m.setByte e.1 e.2) s.mem
    poison := (wholeSectors (es.map (·.1))).foldl (fun (p : Sparse Unit) k => Sparse.del p k) s.poison }

/-- Bytes are written at their homes, which for a lender's are told (R392, R413): by whom, the last argument says for each address. -/
def State.homePut (s : State) (es : List (Nat × Byte)) (writers : Nat → List (Nat × Nat) := fun _ => []) : State :=
  (s.homeSet es).tellLender es writers

/-- The sectors of a range are poisoned at their home (R413). -/
def State.poisonHome (s : State) (pa n : Nat) : State :=
  { s with poison := (sectorsOf pa n).foldl (fun (p : Sparse Unit) k => Sparse.put p k ()) s.poison }

/-- Bytes are written at their home; a write of whole sectors clears their poison, or sets it where the data is poisoned
(R413). -/
def State.homeWrite (s : State) (pa : Nat) (bytes : List Byte) (poison : Bool) : State :=
  let s := s.homePut (bytes.zipIdx.map fun e => (pa + e.2, e.1))
  if poison then s.poisonHome pa bytes.length else s

/-- A sector that a cache holds bytes of is poisoned there: those that poisoned data has reached read as poison (R413). -/
def State.l2Taint (s : State) (d : Nat) (es : List (Nat × Byte)) : State :=
  s.modCache d fun c =>
    let held := ((es.filter fun e => (Sparse.look c.bytes e.1).isSome).map (·.1 / 64)).eraseDups
    { c with poison := held.foldl (fun (p : Sparse Unit) k => Sparse.put p k ()) c.poison }

/-- Bytes that a cache holds take new values, with their mask bits clear; a sector of which all is new is poisoned no more. A byte of a
sector that stays poisoned keeps its mask bit, so that it reads as written (R413). -/
def State.l2Refresh (s : State) (d : Nat) (es : List (Nat × Byte)) : State :=
  s.modCache d fun c =>
    let p := (wholeSectors (es.map (·.1))).foldl (fun (p : Sparse Unit) k => Sparse.del p k) c.poison
    { c with
      poison := p
      bytes := es.foldl (fun (l : Sparse L2Byte) e =>
        match Sparse.look l e.1 with
        | some x =>
          if x.masked && (Sparse.look p (e.1 / 64)).isSome then Sparse.put l e.1 { x with val := e.2 }
          else Sparse.put l e.1 { val := e.2, masked := false, writers := [] }
        | none => l) c.bytes }

/-! ### Writes between agents (R370, R375, R378) -/

/-- The mask bits of a delivered write are clear once the home holds it, unless the byte was written again, or lies in a sector that is
poisoned. -/
def State.unmask (s : State) (d : Delivery) (pa : Nat) (b : Byte) : State :=
  if homeAgent pa == d.target && d.src < 4 then
    match s.l2 d.src pa with
    | some x =>
      if x.masked && x.val == b && (Sparse.look (s.cache d.src).poison (pa / 64)).isNone
          && !(s.hub.inflight.any fun e => e.src == d.src && e.target == d.target && e.pa ≤ pa && pa < e.pa + e.bytes.length) then
        s.modCache d.src fun c => { c with bytes := Sparse.put c.bytes pa { x with masked := false, writers := [] } }
      else s
    | none => s
  else s

/-- A write in flight is applied at its target: the bytes that are not stale there take their place in its view, at the home and in the
copy that it holds (R370, R375, R378). -/
def State.deliver (s : State) (d : Delivery) : State :=
  let s := s.modHub fun h => { h with inflight := h.inflight.erase d }
  let all := d.bytes.zipIdx.map fun e => (d.pa + e.2, e.1)
  let es := all.filter fun e => !s.stale d.target e.1 d.stamp d.src
  let s := s.note d.target (es.map (·.1)) d.stamp d.src
  let s := if homeAgent d.pa != d.target then s
    else
      let s := s.homePut es fun _ => if d.external then [] else [(d.blk, d.thr)]
      if d.poison then es.foldl (fun s e => s.poisonHome e.1 1) s else s
  let s := if d.target < 4 then s.l2Refresh d.target es else s
  let s := if d.target < 4 && d.poison then s.l2Taint d.target es else s
  let s := all.foldl (fun s e => s.unmask d e.1 e.2) s
  s.setClock d.target (clockMax (s.vclock d.target) d.stamp)

/-- Writes bound for an agent that a clock covers are applied there, in causal order, but for those that cannot be applied yet (R378): what an
agent does before it answers a request that carries the clock. -/
def State.settleFor : Nat → State → Nat → List Nat → State
  | 0, s, _, _ => s
  | fuel + 1, s, a, c =>
    let mine := s.hub.inflight.filter fun d => d.target == a && clockLe d.stamp c
    match mine.find? fun d => s.mayApply d && mine.all fun e => e == d || !(clockLe e.stamp d.stamp && e.stamp != d.stamp) with
    | some d => settleFor fuel (s.deliver d) a c
    | none => s

/-- An agent cannot answer a request that carries a clock: some covered write bound for it cannot be applied yet (R354, R364, R365, R378). -/
def State.blocked (s : State) (a : Nat) (c : List Nat) : Bool :=
  s.hub.inflight.any fun d => d.target == a && clockLe d.stamp c && !s.mayApply d

/-- An agent answers a request that carries a clock: covered writes are applied first (R378). -/
def State.answer (s : State) (a : Nat) (c : List Nat) : State := State.settleFor (s.hub.inflight.length + 1) s a c

/-- Writes in flight that a test picks are applied at their targets, in causal order. -/
def State.settleWhere (s : State) (p : Delivery → Bool) : State :=
  (s.hub.inflight.filter p).foldl (fun s d => s.answer d.target d.stamp) s

/-- An agent applies a write that bears a stamp: covered writes are applied first, and its clock joins the stamp (R378). -/
def State.absorb (s : State) (a : Nat) (c : List Nat) : State :=
  let s := s.answer a c
  s.setClock a (clockMax (s.vclock a) c)

/-- An agent reads bytes as another's view holds them: what it reads from enters its own view, with all that precedes it (R371, R373,
R378). -/
def State.takeView (s : State) (d h : Nat) (pas : List Nat) : State :=
  if d = h then s
  else
    let es := s.hub.applied.filter fun e => e.agent == h && pas.contains e.pa
    let s := s.modHub fun x => { x with
      applied := (es.map fun e => { e with agent := d }) ++ x.applied.filter fun e => !(e.agent == d && pas.contains e.pa) }
    ((es.map (·.stamp)).eraseDups).foldl (fun s st => s.absorb d st) s

/-- A request of an agent for bytes at their home, and the answer. -/
def State.ask (s : State) (d pa n : Nat) : State :=
  let h := homeAgent pa
  if h = d then s else (s.answer h (s.vclock d)).takeView d h ((List.range n).map (pa + ·))

/-- Bytes of one agent's write, stamped, are applied at their homes: what is stale there is dropped; where the home is a die, the copy that its
own L2 holds takes them, but for bytes that it has written itself (R370, R373, R375, R378). -/
def State.applyHome (s : State) (w : Nat) (st : List Nat) (es : List (Nat × Byte)) (writers : Nat → List (Nat × Nat)) : State :=
  ((es.map fun e => homeAgent e.1).eraseDups).foldl (fun s h =>
    let s := s.absorb h st
    let mine := (es.filter fun e => homeAgent e.1 == h).filter fun e => !s.stale h e.1 st w
    let s := (s.note h (mine.map (·.1)) st w).homePut mine writers
    if h < 4 && h != w then s.l2Refresh h (mine.filter fun e => !((s.l2 h e.1).any (·.masked))) else s) s

/-- The addresses of bytes from an address on. -/
def located (pa : Nat) (bytes : List Byte) : List (Nat × Byte) := bytes.zipIdx.map fun e => (pa + e.2, e.1)

/-- A write goes from its agent to every other agent (R370): one delivery for each. -/
def State.spread (s : State) (a pa : Nat) (bytes : List Byte) (writer : List (Nat × Nat)) : State :=
  let (s, st) := s.stamp a
  let targets := (List.range 5).filter fun k => k != a && (k < 4 || homeAgent pa == 4)
  (s.note a ((located pa bytes).map (·.1)) st a).modHub fun h => { h with
    inflight := h.inflight ++ targets.map fun k =>
      { src := a, blk := (writer.head?.map (·.1)).getD 0, thr := (writer.head?.map (·.2)).getD 0, target := k, pa := pa
        bytes := bytes, stamp := st, external := writer.isEmpty, inc := s.incOf k, waitSeq := none, poison := false, va := none, pc := 0 } }

/-- The writes that a die has just sent were stored at this virtual address, by the instruction at this PC (R269). -/
def State.nameSent (s : State) (d : Nat) (va pc : DWord) : State :=
  s.modHub fun h => { h with
    inflight := h.inflight.map fun f => if f.src == d && f.va.isNone then { f with va := some va, pc := pc } else f }

/-- A write of scope 4 or 5 on a page that is not coherent goes from its agent to every other agent (R370). Where the agent is the home, the
home has it at once. -/
def State.sendWrite (s : State) (a pa : Nat) (bytes : List Byte) (writer : List (Nat × Nat)) : State :=
  let s := s.spread a pa bytes writer
  if homeAgent pa = a then
    let s := s.homePut (located pa bytes)
    if a < 4 then s.l2Refresh a (located pa bytes) else s
  else s

/-- The write of an atomic step that the home's memory-side unit has performed: the home has it, and it goes on to every agent as if the home had
written it (R282, R370). -/
def State.stepWrite (s : State) (pa : Nat) (bytes : List Byte) (writer : List (Nat × Nat)) : State :=
  let h := homeAgent pa
  let s := (s.spread h pa bytes writer).homeSet (located pa bytes)
  if h < 4 then s.l2Refresh h (located pa bytes) else s

/-- A write that no cache of its agent holds: its home has it at once; where it is of scope 4 or 5, every agent that holds a copy has it
later (R370, R391). -/
def State.sendHome (s : State) (a pa : Nat) (bytes : List Byte) (wide : Bool) (writer : List (Nat × Nat)) : State :=
  if wide then
    let s := s.sendWrite a pa bytes writer
    s.absorb (homeAgent pa) (s.vclock a)
  else
    let (s, st) := s.stamp a
    s.applyHome a st (located pa bytes) fun _ => writer

/-! ### Write-backs (R255, R293, R354, R364) -/

/-- A write in flight from an agent to its home carries a byte of this value. -/
def Delivery.carries (f : Delivery) (d : Nat) (e : Nat × Byte) : Bool :=
  f.src == d && f.target == homeAgent e.1 && f.pa ≤ e.1 && e.1 < f.pa + f.bytes.length && f.bytes.getD (e.1 - f.pa) 0 == e.2

/-- Masked bytes reach their homes from a cache. A byte of a write that is on its way there already arrives as that write, under its own stamp;
the others are stamped now (R373, R375, R378). -/
def State.sendMasked (s : State) (d : Nat) (es : List (Nat × Byte)) (writers : Nat → List (Nat × Nat)) : State :=
  let inflight := s.hub.inflight
  let s := s.settleWhere fun f => es.any (f.carries d)
  match es.filter fun e => !(inflight.any fun f => f.carries d e) with
  | [] => s
  | x :: xs =>
    let (s, st) := s.stamp d
    s.applyHome d st (x :: xs) writers

/-- Bytes of a cache lose their mask bits; a poisoned sector whose every byte was written is poisoned no more (R413). -/
def L2Cache.clean (c : L2Cache) (ms : List (Nat × L2Byte)) : L2Cache :=
  { c with
    bytes := ms.foldl (fun (l : Sparse L2Byte) e => Sparse.put l e.1 { e.2 with masked := false, writers := [] }) c.bytes
    poison := (wholeSectors (ms.map (·.1))).foldl (fun (p : Sparse Unit) k => Sparse.del p k) c.poison }

/-- Masked bytes of a range are written back to their homes and their mask bits cleared (R255, R293). While a home refuses, its bytes
stay (R364). -/
def State.writeBack (s : State) (d lo n : Nat) : State :=
  let ms := (s.maskedIn d lo n).filter fun e => !s.refuses e.1
  match ms with
  | [] => s
  | _ :: _ => (s.sendMasked d (ms.map fun e => (e.1, e.2.val)) fun pa => (ms.find? fun e => e.1 == pa).elim [] (·.2.writers)).modCache d
      fun c => c.clean ms

/-- The home of an address serves a write-back of a cache now (R354, R364): it does not refuse, the slot is the one charged, and it can apply what
precedes the write (R378). -/
def State.served (s : State) (d pa : Nat) : Bool :=
  !s.refuses pa && s.slotOk (s.chargeOf pa) pa && !s.blocked (homeAgent pa) (s.vclock d)

/-- Bytes that wait for their homes, and that a test picks, are written there. -/
def State.sendHeld (s : State) (p : Held → Bool) : State :=
  let go := s.hub.heldEvict.filter p
  match go with
  | [] => s
  | _ :: _ =>
    let s := s.modHub fun h => { h with heldEvict := h.heldEvict.filter fun e => !p e }
    caches.foldl (fun s k =>
      let mine := go.filter fun e => e.holder == k
      s.sendMasked k (mine.map fun e => (e.pa, e.val)) fun pa => (mine.find? fun e => e.pa == pa).elim [] (·.writers)) s

/-- The masked bytes of a range leave their cache for their homes, one write-back at the next slot that serves them (R354), or once the home is admitted again (R364 step 3). -/
def State.holdMasked (s : State) (d lo n : Nat) (maint : List (Nat × Nat)) : State :=
  let ms := s.maskedIn d lo n
  (s.modHub fun h => { h with
    heldEvict := h.heldEvict.filter (fun e => !(e.holder == d && ms.any fun m => m.1 == e.pa))
      ++ ms.map fun e => { holder := d, pa := e.1, val := e.2.val, writers := e.2.writers, maint := maint } }).modCache d
    fun c => c.clean ms

/-- Masked bytes of a range are written back as soon as their homes serve them: what they do not serve now is held (R293, R354). -/
def State.cleanRange (s : State) (d lo n : Nat) (maint : List (Nat × Nat)) : State :=
  if (s.maskedIn d lo n).all fun e => s.served d e.1 then s.writeBack d lo n else s.holdMasked d lo n maint

/-- The bytes of a range leave a cache. -/
def State.dropL2 (s : State) (d lo n : Nat) : State :=
  s.modCache d fun c =>
    let out (k : Nat) : Bool := lo ≤ 64 * k && 64 * k < lo + n
    { bytes := c.bytes.filter fun e => !(lo ≤ e.1 && e.1 < lo + n)
      valid := c.valid.filter fun e => !out e.1, poison := c.poison.filter fun e => !out e.1 }

/-- Bytes of a range whose mask bit is clear leave a cache, and its sectors are invalid (R293). -/
def State.dropClean (s : State) (d lo n : Nat) : State :=
  s.modCache d fun c =>
    let out (k : Nat) : Bool := lo ≤ 64 * k && 64 * k < lo + n
    { bytes := c.bytes.filter fun e => !(lo ≤ e.1 && e.1 < lo + n && !e.2.masked)
      valid := c.valid.filter fun e => !out e.1, poison := c.poison.filter fun e => !out e.1 }

/-! ### The directory (R348, R374) -/

/-- A cache owns a line of a coherent page: it holds it modified or exclusive. -/
def State.owns (s : State) (d pa : Nat) : Bool := ((Sparse.look s.hub.dir (pa / 256)).bind (·.owner)) == some d

/-- A cache holds bytes of a line. -/
def State.holdsLine (s : State) (d pa : Nat) : Bool := (s.cache d).bytes.any fun e => lineOf pa ≤ e.1 && e.1 < lineOf pa + 256

/-- A coherent access of a cache to a line that it does not own (R348, R374): other caches' dirty bytes are written home; for a write every
other copy is invalidated and the cache becomes the owner; a read takes the line in S, or in E where no other cache holds it. What the
home then holds precedes the access (R378). -/
def State.cohere (s : State) (d pa : Nat) (write : Bool) : State :=
  if s.owns d pa then s
  else
    let line := lineOf pa
    let s := s.sendHeld fun e => line ≤ e.pa && e.pa < line + 256
    let others := caches.filter fun k => k != d && s.holdsLine k pa
    let s := others.foldl (fun s k =>
      let s := s.writeBack k line 256
      if write then s.dropL2 k line 256 else s) s
    let entry : DirLine := if write || others.isEmpty then { owner := some d, holders := [d] } else { owner := none, holders := d :: others }
    (s.ask d line 256).modHub fun h => { h with dir := Sparse.put h.dir (line / 256) entry }

/-- A cache no longer holds a line, as the directory has it. -/
def State.leaveDir (s : State) (d line : Nat) : State :=
  match Sparse.look s.hub.dir line with
  | none => s
  | some e =>
    let hs := e.holders.filter (· != d)
    s.modHub fun h => { h with
      dir := if hs.isEmpty then Sparse.del h.dir line else Sparse.put h.dir line { owner := e.owner.filter (· != d), holders := hs } }

/-- A line leaves a die's L2, its masked bytes for their home at its next slot (R255, R354). -/
def State.evictLine (s : State) (d line : Nat) : State :=
  ((s.cleanRange d (256 * line) 256 []).dropL2 d (256 * line) 256).leaveDir d line

/-- A full slice gives up a line to an access that needs one (R254, R255): which, the manual leaves open (DESIGN CHOICE, log entry 41: the
one of the lowest address). -/
def State.makeRoom (s : State) (d pa : Nat) : State :=
  if s.l2Room d pa then s
  else match (s.cache d).lines.find? fun k => sliceOf (256 * k) == sliceOf pa with
    | some k => s.evictLine d k
    | none => s

/-! ### Reading and writing a cache -/

/-- The sector of an address is fetched into a cache from its home: masked bytes keep their values, and the others take the home's data
(R255, R370). -/
def State.fetchSector (s : State) (d pa : Nat) : State :=
  let base := sectorOf pa
  let s := s.sendHeld fun e => e.holder == d && e.pa / 64 == pa / 64
  let h := homeAgent pa
  let s := if h = d then s else s.answer h (s.vclock d)
  let fresh := ((List.range 64).map (base + ·)).filter fun a => !((s.l2 d a).any (·.masked))
  let mem := s.mem
  let bad := s.homePoison pa
  (s.modCache d fun c =>
    { bytes := fresh.foldl (fun l a => Sparse.put l a { val := mem.byte a, masked := false, writers := [] }) c.bytes
      valid := Sparse.put c.valid (pa / 64) ()
      poison := if bad then Sparse.put c.poison (pa / 64) () else Sparse.del c.poison (pa / 64) }).takeView d h fresh

/-- Every sector of a range is valid in a cache (R255). -/
def State.l2Valid (s : State) (d pa n : Nat) : Bool := (sectorsOf pa n).all fun k => (Sparse.look (s.cache d).valid k).isSome

/-- The bytes of a range as a cache holds them. -/
def State.l2Bytes (s : State) (d pa n : Nat) : List Byte :=
  (List.range n).map fun k => ((s.l2 d (pa + k)).map (·.val)).getD 0

/-- A load of a range that the cache holds reads poison: an unmasked byte of a poisoned sector (R413). -/
def State.l2PoisonRead (s : State) (d pa n : Nat) : Bool :=
  (List.range n).any fun k =>
    (Sparse.look (s.cache d).poison ((pa + k) / 64)).isSome && !((s.l2 d (pa + k)).any (·.masked))

/-- Bytes are stored into a cache with their mask bits set (R255); the writers of each byte stay known (R289, R398). -/
def State.l2Store (s : State) (d pa : Nat) (bytes : List Byte) (writer : List (Nat × Nat)) : State :=
  s.modCache d fun c => { c with
    bytes := bytes.zipIdx.foldl (fun (l : Sparse L2Byte) e =>
      let old := match Sparse.look l (pa + e.2) with
        | some o => if o.masked then o.writers else []
        | none => []
      Sparse.put l (pa + e.2) { val := e.1, masked := true, writers := old ++ writer.filter fun w => !old.contains w }) c.bytes }

/-- A write of an agent that every agent holds at one point (R370, R374): stamped, and noted in every view. -/
def State.everywhere (s : State) (d : Nat) (pas : List Nat) : State :=
  let (s, st) := s.stamp d
  (List.range 6).foldl (fun s a => s.note a pas st d) s

/-- A store to a line that its cache owns is applied at every agent at one point (R370, R374). -/
def State.coherentStore (s : State) (d pa : Nat) (bytes : List Byte) (writer : List (Nat × Nat)) : State :=
  (s.l2Store d pa bytes writer).everywhere d ((List.range bytes.length).map (pa + ·))

/-- What precedes an access at its home cannot all be applied yet (R354, R364, R365, R378): a write that the home must apply before it answers
the cache, or before it takes a write-back of the line from one; a write that the reader's agent must apply with what it reads; masked bytes of
the line that wait for their home. -/
def State.unsettled (s : State) (d pa : Nat) : Bool :=
  let h := homeAgent pa
  (!s.hub.inflight.isEmpty && ((caches.any fun k => (k == d || s.holdsLine k pa) && s.blocked h (s.vclock k))
    || s.hub.applied.any fun e => e.agent == h && e.pa / 256 == pa / 256 && s.blocked d e.stamp))
  || s.hub.heldEvict.any fun e => e.pa / 256 == pa / 256 && !s.served e.holder e.pa

end Sys2Proof.Machine
end

