-- ==== Sys2Proof/Machine/Mem.lean ====
section
/-! DEFINITION. Mem.lean: translation (R257 to R263, R306, R349, R390), the accesses of memory by page (R253 to R255, R282, R348,
R354, R364, R370, R391, R399, R413), and the restartable faults that they record (R264 to R272). -/

namespace Sys2Proof

/-- Bits of an atomic's type. -/
def ATy.bits (t : ATy) : Nat := 32 * t.regs

/-- The type is signed. -/
def ATy.signed : ATy → Bool
  | .s32 | .s64 => true
  | _ => false

end Sys2Proof

namespace Sys2Proof.Machine

/-! ### The atomic step (R163, R281) -/

/-- The new value of an atomic step, none where `cas` fails, and the flags of `fadd` (R163, R281). -/
def atomStep (t : ATy) (op : AOp) (old b c : Nat) : Option Nat × BitVec 6 :=
  let w := t.bits
  let i (x : Nat) : Int := readInt w t.signed x
  match op with
  | .add => (some ((old + b) % 2 ^ w), 0)
  | .min => (some (if i b < i old then b else old), 0)
  | .max => (some (if i old < i b then b else old), 0)
  | .and => (some (old &&& b), 0)
  | .or => (some (old ||| b), 0)
  | .xor => (some (old ^^^ b), 0)
  | .exch => (some b, 0)
  | .cas => (if old = b then some c else none, 0)
  | .fadd =>
    let r := Fp.add .rn (Fp.unpack .f32 old) (Fp.unpack .f32 b)
    let q := Fp.round .f32 .rn r.1
    (some q.1, q.2 ||| r.2)

/-- What a step makes of the old bytes: none where it writes nothing. -/
def stepBytes (p : PeerStep) (old : List Byte) : Option (List Byte) :=
  (atomStep p.ty p.op (ofBytes old) p.b p.c).1.map (toBytes (4 * p.ty.regs))

/-! ### Who accesses, and through what page -/

/-- A block's own accesses. -/
def Block.who (b : Block) : Who :=
  { die := b.core / 48, core := some b.core, dom := b.hdr.domain, asn := b.asn, root := b.root, win := b.shdwwin.toNat
    code := b.hdr.domain }

/-- A page that an access goes through: its virtual base, its size, its physical base and its leaf entry (R258 to R260), the
table address of the replica read, and whether it is a shadow's alias (R306). -/
structure Page where
  va : Nat
  size : Nat
  pa : Nat
  pte : Nat
  leaf : Nat
  shadow : Bool
  deriving DecidableEq, Repr

/-- Fields of a leaf (R259, R260). -/
def Page.r (p : Page) : Bool := bitAt p.pte 3
def Page.w (p : Page) : Bool := bitAt p.pte 4
def Page.x (p : Page) : Bool := bitAt p.pte 5
def Page.peer (p : Page) : Bool := bitAt p.pte 2
def Page.l1 (p : Page) : Bool := bitAt p.pte 6 && !p.shadow
def Page.coh (p : Page) : Bool := bitAt p.pte 7
def Page.msd (p : Page) : Bool := bitAt p.pte 8 && !p.shadow
def Page.share (p : Page) : Nat := field p.pte 9 3
def Page.mode (p : Page) : Nat := field p.pte 18 2
def Page.lslot (p : Page) : Nat := field p.pte 32 16
def Page.xoff (p : Page) : Nat := field p.pte 48 16
/-- A peer page whose lines no cache of this package holds (R391). -/
def Page.direct (p : Page) : Bool := p.peer && p.mode != 1

/-! ### Page tables (R257 to R261) -/

/-- The bytes that one leaf entry of level L spans. -/
def levelSpan (level : Nat) : Nat := 2 ^ (12 + 9 * level)

/-- The level at which R258 maps a page of size z. -/
def levelOfSize (z : Nat) : Nat := if z ≤ 4 then 0 else if z ≤ 8 then 1 else 2

/-- The bytes of a page of size z. -/
def pageBytes (z : Nat) : Nat := 4096 * 4 ^ z

/-- A valid entry is malformed at its level (R261). -/
def malformed (pte level : Nat) : Bool :=
  let leaf := bitAt pte 1
  let peer := bitAt pte 2
  let z := field pte 14 4
  if !leaf then level == 0 || peer || field pte 3 15 != 0 || field pte 18 2 != 0 || field pte 60 4 != 0
  else
    decide (12 ≤ z) || level == 4 || level != levelOfSize z || decide (6 ≤ field pte 9 3)
      || (if peer then field pte 18 2 == 3
          else field pte 18 2 != 0 || field pte 60 4 != 0 || (4096 * field pte 20 40) % pageBytes z != 0)

/-- Replicas of a leaf (R258). -/
def replicasOf (pte level : Nat) : Nat := pageBytes (field pte 14 4) / levelSpan level

/-- The first replica of a leaf that a walk for an address has found (R258). -/
def firstReplica (at_ va pte level : Nat) : Nat := at_ - 8 * (field va (12 + 9 * level) 9 % replicasOf pte level)

/-- A byte as the coherent order of the package has it: the walker's own written byte, another die's, or the home's (R261). -/
def State.coherentByte (s : State) (d pa : Nat) : Byte :=
  let own := s.l2 d pa
  match own.filter (·.masked) with
  | some x => x.val
  | none =>
    match (caches.filterMap fun k => (s.l2 k pa).filter (·.masked)).head? with
    | some x => x.val
    | none => s.mem.byte pa

/-- A table entry as a walker reads it (R261, R263), or why the walk stops. -/
def State.readEntry (s : State) (d pa : Nat) (level : Nat) : Except Stop Nat :=
  if s.refuses pa then .error (.restart 0x53 0 0)
  else if !s.ownerOk 0x10 pa then .error (.restart 0x50 3 level)
  else if !s.slotOk 0x10 pa then .error .wait
  else if s.homePoison pa then .error (.restart 0x50 2 level)
  else .ok (ofBytes ((List.range 8).map fun k => s.coherentByte d (pa + k)))

/-- A walk from a table of a level downward (R257, R258, R261): the leaf, its level and its address. -/
def State.walk (s : State) (d va : Nat) : Nat → Nat → Except Stop (Nat × Nat × Nat)
  | level, table =>
    let at_ := table + 8 * field va (12 + 9 * level) 9
    match s.readEntry d at_ level with
    | .error e => .error e
    | .ok pte =>
      if !bitAt pte 0 then .error (.restart 0x50 0 level)
      else if malformed pte level then .error (.restart 0x50 1 level)
      else if bitAt pte 1 then .ok (pte, level, at_)
      else match level with
        | 0 => .error (.restart 0x50 1 0)
        | l + 1 => State.walk s d va l (4096 * field pte 20 40)

/-- A walker sets a bit of an 8-byte entry in memory, in every copy of the byte: a write that every agent holds at one point (R261, R368,
R378). -/
def State.orEntry (s : State) (d at_ bit : Nat) : State :=
  let pa := at_ + bit / 8
  let f (b : Byte) : Byte := b ||| BitVec.ofNat 8 (2 ^ (bit % 8))
  let s := State.everywhere { s with mem := s.mem.setByte pa (f (s.mem.byte pa)) } d [pa]
  caches.foldl (fun s k =>
    match s.l2 k pa with
    | some x => s.modCache k fun c => { c with bytes := Sparse.put c.bytes pa { x with val := f x.val } }
    | none => s) s

/-! ### Translation caches (R262, R263) -/

/-- A cached entry maps an address of an address space. -/
def TlbLeaf.covers (e : TlbLeaf) (w : Who) (va : Nat) : Bool :=
  e.dom == w.dom && e.asn == w.asn && e.va ≤ va && va < e.va + e.size

/-- A cached leaf serves an address of an address space. -/
def TlbLeaf.serves (e : TlbLeaf) (w : Who) (va : Nat) : Bool := bitAt e.pte.toNat 1 && e.covers w va

/-- The cached leaf for an address that a test admits: the core's, or the die's. -/
def State.cachedLeaf (s : State) (w : Who) (va : Nat) (ok : TlbLeaf → Bool) : Option TlbLeaf :=
  match w.core.bind fun c => (s.core c).tlb.find? fun e => e.serves w va && ok e with
  | some e => some e
  | none => (s.die w.die).tlb.find? fun e => e.serves w va && ok e

/-- An entry enters a translation cache of n entries, in place of the one of the same key and level, or of the oldest. -/
def tlbPut (n : Nat) (l : List TlbLeaf) (e : TlbLeaf) : List TlbLeaf :=
  (e :: l.filter fun x => !(x.dom == e.dom && x.asn == e.asn && x.va == e.va && x.level == e.level)).take n

/-- A leaf enters the translation caches of the core and of the die, and the pointers on the way to it that of the die. -/
def State.installLeaf (s : State) (w : Who) (e : TlbLeaf) (ptrs : List TlbLeaf) : State :=
  let s := s.modDie w.die fun d => { d with tlb := tlbPut 16384 (ptrs.foldl (tlbPut 16384) d.tlb) e }
  match w.core with
  | some c => s.modCore c fun k => { k with tlb := tlbPut 512 k.tlb e }
  | none => s

/-- A cached leaf has been used: it is the youngest of its core's cache, which takes it from the die's where it has it not. -/
def State.useLeaf (s : State) (w : Who) (e : TlbLeaf) : State :=
  match w.core with
  | some c => if (s.core c).tlb.contains e then s.modCore c fun k => { k with tlb := tlbPut 512 k.tlb e } else s.installLeaf w e []
  | none => s.installLeaf w e []

/-- Where a walk for an address begins: at the table that the cached pointer of the lowest level names, or at the root. -/
def State.walkStart (s : State) (w : Who) (va : Nat) : Nat × Nat :=
  let ps := (s.die w.die).tlb.filter fun e => !bitAt e.pte.toNat 1 && e.covers w va
  ps.foldl (fun (b : Nat × Nat) e => if e.level ≤ b.1 then (e.level - 1, 4096 * field e.pte.toNat 20 40) else b) (4, w.root)

/-- The pointers that a walk from a table downward passes, as they are cached. -/
def State.pointers (s : State) (w : Who) (va : Nat) : Nat → Nat → List TlbLeaf
  | 0, _ => []
  | l + 1, table =>
    match s.readEntry w.die (table + 8 * field va (12 + 9 * (l + 1)) 9) (l + 1) with
    | .error _ => []
    | .ok pte =>
      if !bitAt pte 0 || malformed pte (l + 1) || bitAt pte 1 then []
      else
        let span := levelSpan (l + 1)
        { dom := w.dom, asn := w.asn, va := va / span * span, size := span, pte := .ofNat 64 pte, level := l + 1, leaf := 0 }
          :: State.pointers s w va l (4096 * field pte 20 40)

/-- A miss whose walk must wait enters the die's walk queue; misses for one page of an address space share one walk, and a full queue
holds further misses at their cores (R262). -/
def State.queueWalk (s : State) (w : Who) (va n : Nat) (acc : Access) : State :=
  let same (r : WalkReq) : Bool := r.dom == w.dom && r.asn == w.asn && r.page == va / 4096 && r.failed.isNone
  let cs := w.core.toList
  s.modDie w.die fun d =>
    if d.walks.any same then
      { d with walks := d.walks.map fun r => if same r then { r with cores := r.cores ++ cs.filter fun c => !r.cores.contains c } else r }
    else if d.walks.length < 320 then
      { d with walks := d.walks ++ [{ cores := cs, dom := w.dom, asn := w.asn, page := va / 4096, root := w.root, acc := acc, size := n
                                      failed := none }] }
    else d


/-- A die forgets the walks that have failed: whoever needs the page has it walked again (R273, log entry 41). -/
def State.dropFailed (s : State) (d : Nat) : State :=
  if (s.die d).walks.any fun r => r.failed.isSome then s.modDie d fun x => { x with walks := x.walks.filter fun r => r.failed.isNone } else s

/-- The page that a leaf gives an address. -/
def pageOf (pte va leaf : Nat) : Page :=
  let size := pageBytes (field pte 14 4)
  let pa := if bitAt pte 2 then aliasBase (field pte 32 16) + field pte 48 16 * size else 4096 * field pte 20 40
  { va := va / size * size, size := size, pa := pa, pte := pte, leaf := leaf, shadow := false }

/-! ### Checks of a translated access -/

/-- The permission that an access needs (R103, R259, R263, R281, R293). -/
def Page.permits (p : Page) : Access → Bool
  | .read => p.r
  | .write => p.w
  | .atomic => p.r && p.w
  | .fetch => p.x
  | .maint => true

/-- Where an atomic step is performed (R282). -/
inductive AtomPlace where
  | home | coherent | l2
  deriving DecidableEq, Repr

/-- The place of an atomic step, by the page (R282). -/
def Page.atomPlace (p : Page) : AtomPlace :=
  if p.peer || p.msd || (!p.coh && 4 ≤ p.share) then .home else if p.coh then .coherent else .l2

/-- A 128-bit step is refused on this page (R282). -/
def Page.no128 (p : Page) : Bool := p.peer || p.atomPlace != .home

/-- An access is a 128-bit step that the page refuses with BANK_PAGE (R282). -/
def Page.bankPage (p : Page) (n : Nat) (acc : Access) : Bool := acc == .atomic && n == 16 && p.no128

/-- What was asked of a lender concerns a sector of an extent, for an agent. -/
def Asked.reaches (agent sector : Nat) : Asked → Bool
  | .read a off _ | .atomic a _ off _ => a == agent && off / 64 == sector
  | _ => false

/-- An access of a sector has been sent to its lender, or answered, for a die (R397). -/
def State.onItsWay (s : State) (slot agent sector : Nat) : Bool :=
  s.hub.reqs.any (fun r => r.slot == slot && !r.lost && r.what.reaches agent sector)
    || s.hub.answered.any fun a => a.slot == slot && a.what.reaches agent sector

/-- The checks of R390 on a peer access. One that has been sent already goes on under a lease that is recalled (R397). -/
def State.peerCheck (s : State) (w : Who) (p : Page) (va n : Nat) : Option Stop :=
  let bw := s.borrow p.lslot
  let kernel := w.code == 0x10
  let o := p.xoff * p.size + (va - p.va)
  let sent := s.onItsWay p.lslot w.die (o / 64)
  if bw.state == 0 then some (.restart 0x52 0 0)
  else if pageBytes bw.size < o + n || field p.pte 20 12 != bw.port || (bw.dom != w.dom && !kernel) then some (.lane 0x13)
  else if ((bw.state == 2 && !kernel) || bw.state == 3) && !sent then some (.restart 0x52 0 0)
  else if bw.state == 4 then some (.restart 0x51 0 0)
  else none

/-- The checks on a translated access: permission bits, then the domain: the owner of the granule for a local page (R349), the
borrow entry for a peer page (R390); last the place of a 128-bit step (R282), before the walk writes anything (R113). -/
def State.checkPage (s : State) (w : Who) (p : Page) (va n : Nat) (acc : Access) : Option Stop :=
  if !p.permits acc then some (.lane 0x13)
  else if p.peer then (s.peerCheck w p va n).or (if p.bankPage n acc then some (.lane 0x1D) else none)
  else if !s.ownerOk w.code (p.pa + (va - p.va)) then some (.lane 0x13)
  else if p.bankPage n acc then some (.lane 0x1D) else none

/-! ### Shadow windows (R304, R306) -/

/-- The die and index of the shadow whose alias an address lies in, with the offset. -/
def aliasOf (win va : Nat) : Option (Nat × Nat × Nat) :=
  if win ≤ va && va < win + 2 ^ 36 then some ((va - win) / 2 ^ 34, (va - win) / 2 ^ 26 % 256, (va - win) % 2 ^ 26) else none

/-- The shadow's frame page for an alias access: pages are (virtual base, size, frame base, leaf address, replicas). -/
def State.shadowPage (s : State) (w : Who) (va n : Nat) (acc : Access) : Except Stop Page :=
  match aliasOf w.win va with
  | none => .error (.lane 0x13)
  | some (k, i, x) =>
    match Sparse.look (s.die k).shadows i with
    | none => .error (.lane 0x13)
    | some sh =>
      if !sh.opened || sh.copying.isSome || sh.dom != w.dom || sh.asn != w.asn || sh.len < x + n then .error (.lane 0x13)
      else
        match sh.pages.find? fun p => p.1 ≤ sh.base.toNat + x && sh.base.toNat + x < p.1 + p.2.1 with
        | none => .error (.lane 0x13)
        | some (pva, size, frame, _, _) =>
          let p : Page := { va := va - (sh.base.toNat + x - pva), size := size, pa := frame, pte := sh.pte.toNat, leaf := 0
                            shadow := true }
          if !p.permits acc then .error (.lane 0x13) else if p.bankPage n acc then .error (.lane 0x1D) else .ok p

/-! ### Translation (R103, R261 to R263, R274) -/

/-- The machine as a walker sees it whose slot never ends. -/
def State.kernelServed (s : State) : State := s.modHub fun h => { h with slots := List.replicate 64 (slotOwner 0x10) }

/-- Why the walk that an access asked for has failed (R262), while the tables as they now stand still refuse the access: one made after an
entry has become valid finds the new entry. -/
def State.failedWalk (s : State) (w : Who) (va n : Nat) (acc : Access) : Option Stop :=
  let from_ := s.walkStart w va
  let refused := match s.kernelServed.walk w.die va from_.1 from_.2 with
    | .error _ => true
    | .ok (pte, level, at_) => (s.checkPage w (pageOf pte va (firstReplica at_ va pte level)) va n acc).isSome
  if refused then
    ((s.die w.die).walks.find? fun r =>
      r.dom == w.dom && r.asn == w.asn && r.page == va / 4096 && r.acc == acc && r.size == n && r.failed.isSome).bind (·.failed)
  else none

/-- A walk for an access that is not speculative (R261, R262): the leaf, checked, with the bits that the access sets, enters the
caches. One that waits for its slot stays in the walk queue, and where it fails, its outcome does until the next slot for walks. -/
def State.walkFor (s : State) (w : Who) (va n : Nat) (acc : Access) : State × Except Stop Page :=
  let write := acc == .write || acc == .atomic
  let from_ := s.walkStart w va
  match s.walk w.die va from_.1 from_.2 with
  | .error .wait =>
    match s.failedWalk w va n acc with
    | some x => (s, .error x)
    | none => (s.queueWalk w va n acc, .error .wait)
  | .error x => (s, .error x)
  | .ok (pte, level, at_) =>
    let p := pageOf pte va (firstReplica at_ va pte level)
    match s.checkPage w p va n acc with
    | some x => (s, .error x)
    | none =>
      let ptrs := s.pointers w va from_.1 from_.2
      let setA := acc != .maint && !bitAt pte 12
      let setD := write && !bitAt pte 13
      let s := if setA then s.orEntry w.die at_ 12 else s
      let s := if setD then s.orEntry w.die at_ 13 else s
      let pte' := (if setA then pte + 2 ^ 12 else pte) + (if setD then 2 ^ 13 else 0)
      let s := s.installLeaf w { dom := w.dom, asn := w.asn, va := p.va, size := p.size, pte := .ofNat 64 pte', level := level, leaf := p.leaf } ptrs
      (s, .ok { p with pte := pte' })

/-- The translation of an access of n bytes (R103 steps 3 and 4): the page, or why not. A speculative access uses the caches
alone and sets nothing (R274). -/
def State.translate (s : State) (w : Who) (va n : Nat) (acc : Access) (spec : Bool) : State × Except Stop Page :=
  if (aliasOf w.win va).isSome then (s, s.shadowPage w va n acc)
  else
    let write := acc == .write || acc == .atomic
    let usable (e : TlbLeaf) : Bool :=
      acc == .maint || spec || (bitAt e.pte.toNat 12 && (!write || bitAt e.pte.toNat 13))
    match s.cachedLeaf w va usable with
    | some e =>
      let p := pageOf e.pte.toNat va e.leaf
      match s.checkPage w p va n acc with
      | some x => (s, .error x)
      | none => (s.useLeaf w e, .ok p)
    | none => if spec then (s, .error (.restart 0x50 0 0)) else s.walkFor w va n acc

/-! ### Peer translation (R392, R399) -/

/-- The page that an address now has, with nothing changed by the look. -/
def State.pageAt (s : State) (w : Who) (va : Nat) : Option Page :=
  let pte := match s.cachedLeaf w va fun _ => true with
    | some e => some e.pte.toNat
    | none => match s.kernelServed.walk w.die va 4 w.root with
      | .ok (pte, _, _) => some pte
      | .error _ => none
  pte.map fun pte => pageOf pte va 0

/-- The lender has answered for the page of a peer access. The page is numbered in 4 KiB units of the extent. -/
def State.peerKnown (s : State) (p : Page) : Bool :=
  s.hub.peers.any fun e => e.slot == p.lslot && e.page == p.xoff * (p.size / 4096)

/-- A mode 2 request counts at its peer translation cache entry; at the threshold the counter freezes and an event is posted
while the queue has room (R399). -/
def State.countPeer (s : State) (w : Who) (p : Page) (va : Nat) : State :=
  if s.hub.migthr = 0 || p.mode != 2 then s
  else
    let pg := p.xoff * (p.size / 4096)
    match s.hub.peers.find? fun e => e.slot == p.lslot && e.page == pg && e.mig == .counting with
    | none => s
    | some e =>
      let n := e.count + 1
      let e1 := { e with count := n, dom := w.dom, asn := w.asn, xoff := p.xoff, size := field p.pte 14 4, va := .ofNat 64 va }
      let put (x : PeerEntry) (h : Hub) : Hub :=
        { h with peers := h.peers.map fun y => if y.slot == x.slot && y.page == x.page then x else y }
      if n < s.hub.migthr then s.modHub (put e1)
      else if s.hub.mig.length < 256 then
        s.modHub fun h => { put { e1 with mig := .posted h.mgNext } h with
          mig := h.mig ++ [{ seq := h.mgNext, port := (s.borrow p.lslot).port, dom := w.dom, asn := w.asn, slot := p.lslot
                             xoff := p.xoff, size := field p.pte 14 4, va := .ofNat 64 va, count := n }]
          mgNext := if h.mgNext = 2 ^ 32 - 1 then 1 else h.mgNext + 1 }
      else s.modHub (put { e1 with mig := .unposted })

/-! ### Accesses at the die (R254, R255, R282, R348, R370, R391) -/

/-- A request for the page of a peer access is outstanding (R392, R406). -/
def State.peerReq (s : State) (p : Page) : Option FabricReq :=
  s.hub.reqs.find? fun e => e.what == .page && e.slot == p.lslot && e.page == p.xoff * (p.size / 4096)

/-- Why a peer access cannot be sent: the lender has not answered for its page, or no path to it is left (R392, R406). -/
def State.peerStop (s : State) (p : Page) : Option Stop :=
  if !p.peer || s.peerKnown p then none
  else if (s.peerReq p).any (·.lost) then some (.restart 0x51 0 0)
  else some .wait

/-- An access that waits for its lender's answer has the hub ask for it, once (R392). -/
def State.askPeer (s : State) (w : Who) (p : Page) : State :=
  if !p.peer || s.peerKnown p then s
  else if (s.peerReq p).isSome then
    if w.core.isNone then s.modHub fun h => { h with
      reqs := h.reqs.map fun r => if r.slot == p.lslot && r.page == p.xoff * (p.size / 4096) && !r.lost then { r with engine := true } else r }
    else s
  else s.request p.lslot (p.xoff * (p.size / 4096)) .page w.core.isNone

/-- Whether a request can be sent to the home of an address: the home's state, the owner check that the home makes, the charge domain's
slot, what must be applied before it, and the lender's answer for the page (R349, R354, R364, R378, R392). -/
def State.homeStop (s : State) (w : Who) (p : Page) (pa : Nat) : Option Stop :=
  if s.refuses pa then some (.restart 0x53 0 0)
  else if !s.ownerOk w.code pa then some (.lane 0x13)
  else if !s.slotOk w.code pa || s.unsettled w.die pa then some .wait
  else s.peerStop p

/-- A lender has answered a data request that no access has taken up (R392). -/
def State.hasAnswer (s : State) (slot : Nat) (what : Asked) : Bool := s.hub.answered.any fun a => a.slot == slot && a.what == what

/-- A data request that is outstanding, or was lost (R392, R406). -/
def State.dataReq (s : State) (slot : Nat) (what : Asked) : Option FabricReq := s.hub.reqs.find? fun r => r.slot == slot && r.what == what

/-- Why an access of a sector at its home cannot be performed now: one at a lender waits for its answer, or finds that no path to it is left
(R392, R394, R406). -/
def State.dataStop (s : State) (w : Who) (p : Page) (pa : Nat) (what : Asked) : Option Stop :=
  if !p.peer then s.homeStop w p pa
  else if s.hasAnswer p.lslot what then none
  else match s.dataReq p.lslot what with
    | some r => some (if r.lost then .restart 0x51 0 0 else .wait)
    | none => (s.homeStop w p pa).or (some .wait)

/-- An access that waits for its lender has the hub ask it, once: first for the page, then for the data (R392). -/
def State.askData (s : State) (w : Who) (p : Page) (pa : Nat) (what : Asked) : State :=
  if !p.peer || s.hasAnswer p.lslot what || (s.dataReq p.lslot what).isSome then s
  else match s.homeStop w p pa with
    | none => s.request p.lslot ((pa - aliasBase p.lslot) / 4096) what w.core.isNone
    | some _ => s.askPeer w p

/-- An access takes up a lender's answer. -/
def State.takeAnswer (s : State) (p : Page) (what : Asked) : State :=
  if !p.peer then s
  else s.modHub fun h => { h with
    answered := h.answered.map fun a => if a.slot == p.lslot && a.what == what then { a with used := true } else a }

/-- The answers that an access has taken up are gone once it is over, and stay for its next try where it waits. -/
def State.closeAnswers (s : State) (keep : Bool) : State :=
  if s.hub.answered.any (·.used) then
    s.modHub fun h => { h with answered := if keep then h.answered.map fun a => { a with used := false } else h.answered.filter (!·.used) }
  else s

/-- The sector that an access asks a lender for, for an agent (R391, R392). -/
def sectorAsked (agent pa : Nat) : Asked :=
  match placeOf pa with
  | .peerAlias _ off => .read agent (off / 64 * 64) 64
  | _ => .read agent (sectorOf pa) 64

/-- An access through a page passes every cache of this package: by its mode, or because its lease is recalled (R391, R396). -/
def State.past (s : State) (p : Page) : Bool := p.direct || (p.peer && (s.borrow p.lslot).state != 1)

/-- n bytes of one sector at a physical address as an observer of a die reads them through a page (R255, R370, R374, R391). -/
def State.loadAt (s : State) (w : Who) (p : Page) (pa n : Nat) : State × Except Stop (List Byte) :=
  let what := sectorAsked w.die pa
  if s.past p then
    match s.dataStop w p pa what with
    | some x => (s.askData w p pa what, .error x)
    | none =>
      let s := (s.takeAnswer p what).ask w.die pa n
      if s.homePoison pa then (s, .error (.poison pa)) else (s, .ok (s.mem.bytes pa n))
  else
    let fetch := !s.l2Valid w.die pa n
    match (if fetch then s.dataStop w p pa what else none) with
    | some x => (s.askData w p pa what, .error x)
    | none =>
      let s := if fetch then (s.takeAnswer p what).makeRoom w.die pa else s
      let s := if fetch then (if p.coh then s.cohere w.die pa false else s).fetchSector w.die pa else s
      if s.l2PoisonRead w.die pa n then (s, .error (.poison pa)) else (s, .ok (s.l2Bytes w.die pa n))

/-- A store to a persistent range is pending at its device until it completes there; until then the device durably holds what it held
before (R292). -/
def State.persist (s : State) (pa : Nat) (bytes : List Byte) (writer : List (Nat × Nat)) : State :=
  if s.hub.ranges.any fun r => r.1 ≤ pa && pa < r.1 + r.2 then
    let mem := s.mem
    s.modHub fun h => { h with
      persists := h.persists ++ writer.map fun x => { k := h.persistNext, blk := x.1, thr := x.2, pa := pa, bytes := bytes, age := 0 }
      persistNext := h.persistNext + 1
      durable := (List.range bytes.length).foldl (fun (m : Sparse Byte) k =>
        if (Sparse.look m (pa + k)).isSome then m else Sparse.put m (pa + k) (mem.byte (pa + k))) h.durable }
  else s

/-- The threads whose store, atomic step or copy a request to a lender makes. -/
def Asked.writers : Asked → List (Nat × Nat)
  | .write _ ws => ws
  | .atomic _ w _ _ => [w]
  | _ => []

/-- The blocks on a lease's writer list (R398): those whose stores still hold a mask bit, or are on their way to the lender and not yet
acknowledged. -/
def State.leaseWriters (s : State) (slot : Nat) : List Nat :=
  let lo := aliasBase slot
  let inL2 := (caches.flatMap fun d => (s.maskedIn d lo (2 ^ 34)).flatMap fun e => e.2.writers.map (·.1))
    ++ (s.hub.heldEvict.filter fun e => lo ≤ e.pa && e.pa < lo + 2 ^ 34).flatMap fun e => e.writers.map (·.1)
  let sent := (s.hub.inflight.filter fun e => e.target == 4 && lo ≤ e.pa && e.pa < lo + 2 ^ 34 && !e.external).map (·.blk)
  let asked := (s.hub.reqs.filter fun r => r.slot == slot && !r.lost).flatMap fun r => r.what.writers.map (·.1)
  (inL2 ++ sent ++ asked).eraseDups

/-- A seventeenth writer of a lease sets `bw.wide` (R398). -/
def State.noteWriters (s : State) (slot : Nat) : State :=
  if 16 < (s.leaseWriters slot).length then
    s.modHub fun h => { h with borrows := Sparse.put h.borrows slot { s.borrow slot with wide := true } }
  else s

/-- Of an access of a die that waits only the requests sent to lenders (R392) and to the walkers (R262) stand; a block whose atomic step is among
them joins its lease's writers (R398). -/
def State.asked (s : State) (d : Nat) (tried : State) : State :=
  let slots := ((tried.hub.reqs.filter fun r => s.hub.tagNext ≤ r.tag && !r.what.writers.isEmpty).map (·.slot)).eraseDups
  slots.foldl State.noteWriters
    ((s.modHub fun h => { h with reqs := tried.hub.reqs, tagNext := tried.hub.tagNext, sent := tried.hub.sent }).modDie d fun x =>
      { x with walks := (tried.die d).walks })

/-- A store through this page goes on to every agent that holds a copy (R370). -/
def Page.wide (p : Page) : Bool := !p.coh && decide (4 ≤ p.share) && !p.msd

/-- Why a store cannot be made now (R253, R348, R349, R354, R364, R370, R391): a page past the caches, a line of a coherent page that the die
does not own, and a store that its die is the home of need the home; any other that goes on to it needs it not to refuse. -/
def State.storeStop (s : State) (w : Who) (p : Page) (pa : Nat) : Option Stop :=
  if s.past p then s.homeStop w p pa
  else if (p.coh && !s.owns w.die pa) || (p.wide && homeAgent pa == w.die) then s.homeStop w p pa
  else if p.wide && s.refuses pa then some (.restart 0x53 0 0)
  else if p.wide && !s.ownerOk w.code pa then some (.lane 0x13)
  else s.peerStop p

/-- Bytes are stored at a physical address through a page, into a cache or past it (R255, R370, R374, R391). -/
def State.putAt (s : State) (w : Who) (p : Page) (pa : Nat) (bytes : List Byte) (writer : List (Nat × Nat)) : State :=
  let s := s.persist pa bytes writer
  let s :=
    if s.past p then s.sendHome w.die pa bytes (decide (4 ≤ p.share)) writer
    else
      let s := s.makeRoom w.die pa
      if p.coh then (s.cohere w.die pa true).coherentStore w.die pa bytes writer
      else if p.wide then (s.l2Store w.die pa bytes writer).sendWrite w.die pa bytes writer
      else s.l2Store w.die pa bytes writer
  if p.peer then s.noteWriters p.lslot else s

/-- Bytes are stored at a physical address through a page, or why not. -/
def State.storeAt (s : State) (w : Who) (p : Page) (pa : Nat) (bytes : List Byte) (writer : List (Nat × Nat)) :
    State × Option Stop :=
  match s.storeStop w p pa with
  | some x => (s.askPeer w p, some x)
  | none => (s.putAt w p pa bytes writer, none)

/-- A cache writes back its own masked bytes of a sector and invalidates it, as it does before it sends a step to a memory-side unit (R282,
R391). -/
def State.ownBack (s : State) (d pa : Nat) : State := (s.cleanRange d (sectorOf pa) 64 []).dropL2 d (sectorOf pa) 64

/-- Before it sends steps to lenders, a die writes back and invalidates its own sectors that they address (R391). -/
def State.preClean (s : State) (w : Who) (vas : List Nat) : State :=
  if s.hub.borrows.isEmpty then s
  else vas.foldl (fun s va => match s.pageAt w va with
    | some p =>
      let pa := p.pa + (va - p.va)
      if p.peer && !(s.maskedIn w.die (sectorOf pa) 64).isEmpty then s.ownBack w.die pa else s
    | none => s) s

/-- A step at the home's memory-side unit, once nothing stands before it (R282, R370, R374): the old bytes. On a coherent page every other
copy goes first, and every agent holds the write at one point. -/
def State.stepHome (s : State) (d pa n : Nat) (coh quiet : Bool) (f : List Byte → Option (List Byte)) (writer : List (Nat × Nat)) :
    State × Except Stop (List Byte) :=
  let h := homeAgent pa
  let s := if coh then s.cohere d pa true else s.sendHeld fun e => e.holder == d && e.pa / 64 == pa / 64
  let s := ((s.writeBack d (sectorOf pa) 64).dropL2 d (sectorOf pa) 64).answer h (s.vclock d)
  if s.homePoison pa && !quiet then (s, .error (.poison pa))
  else
    let old := s.mem.bytes pa n
    let pas := (List.range n).map (pa + ·)
    match f old with
    | none => (s.takeView d h pas, .ok old)
    | some new =>
      let (s, st) := (s.persist pa new writer).stamp d
      let s := s.absorb h st
      ((if coh then (s.homeSet (located pa new)).everywhere h pas else s.stepWrite pa new writer).takeView d h pas, .ok old)

/-- What an atomic step asks of a lender (R391). -/
def stepAsked (agent pa : Nat) (step : PeerStep) (writer : List (Nat × Nat)) : Asked :=
  .atomic agent (writer.headD (0, 0)) (match placeOf pa with | .peerAlias _ off => off | _ => 0) step

/-- An atomic step on n bytes (R281 to R283). A step that returns nothing consumes no poison; the sector stays poisoned (R146, R413). -/
def State.atomicAt (s : State) (w : Who) (p : Page) (pa n : Nat) (step : PeerStep) (quiet : Bool) (writer : List (Nat × Nat)) :
    State × Except Stop (List Byte) :=
  match p.atomPlace with
  | .home =>
    let what := stepAsked w.die pa step writer
    match s.dataStop w p pa what with
    | some x =>
      let s := if p.peer && (s.dataReq p.lslot what).isNone then s.ownBack w.die pa else s
      let s := s.askData w p pa what
      (if p.peer then s.noteWriters p.lslot else s, .error x)
    | none =>
      match (s.takeAnswer p what).stepHome w.die pa n p.coh quiet (stepBytes step) writer with
      | (s, r) => (if p.peer then s.noteWriters p.lslot else s, r)
  | k =>
    let fetch := !s.l2Valid w.die pa n
    match (if fetch || (k == .coherent && !s.owns w.die pa) then s.homeStop w p pa else none) with
    | some x => (s.askPeer w p, .error x)
    | none =>
      let s := s.makeRoom w.die pa
      let s := if k == .coherent then s.cohere w.die pa true else s
      let s := if fetch then s.fetchSector w.die pa else s
      if s.l2PoisonRead w.die pa n && !quiet then (s, .error (.poison pa))
      else
        let old := s.l2Bytes w.die pa n
        match stepBytes step old with
        | none => (s, .ok old)
        | some new =>
          let s := s.persist pa new writer
          (if k == .coherent then s.coherentStore w.die pa new writer else s.l2Store w.die pa new writer, .ok old)

/-! ### L1 (R253, R377) -/

/-- The L1 line of an address. -/
def State.l1Line (s : State) (c : Nat) (w : Who) (va : Nat) : Option L1Line :=
  (s.core c).l1.find? fun l => l.dom == w.dom && l.asn == w.asn && l.line == va / 256

/-- The bytes of an access that hits L1, with the line's sharing scope; and the physical address of a byte among them that was filled
poisoned (R253). -/
def State.l1Hit (s : State) (w : Who) (va n : Nat) : Option (List Byte × Nat × Option Nat) :=
  match w.core.bind fun c => s.l1Line c w va with
  | none => none
  | some l =>
    let ks := (List.range n).map (va % 256 + ·)
    let bs := ks.map fun k => Sparse.look l.bytes k
    if bs.all (·.isSome) then some (bs.map fun b => b.getD 0, l.share, (ks.find? fun k => l.bad.contains k).map (l.pa + ·)) else none

/-- A line that an access finds uncorrectable is discarded; the access misses, and fetches it again from the L2 (R253). -/
def State.l1Sound (s : State) (w : Who) (va : Nat) : State :=
  match w.core with
  | none => s
  | some c =>
    if (s.l1Line c w va).any (·.ue) then
      s.modCore c fun k => { k with l1 := k.l1.filter fun l => !(l.dom == w.dom && l.asn == w.asn && l.line == va / 256) }
    else s

/-- The line that leaves a full L1: one whose last use has been announced (R102), otherwise the oldest. -/
def dropVictim (ls : List L1Line) : List L1Line :=
  match ls.reverse.find? (·.lu) with
  | some v => ls.erase v
  | none => ls.dropLast

/-- A load's sector enters L1, with what of it the L2 holds poisoned (R253). -/
def State.l1Fill (s : State) (w : Who) (p : Page) (va : Nat) : State :=
  match w.core with
  | none => s
  | some c =>
    let pa := p.pa + (sectorOf va - p.va)
    if !p.l1 || p.direct || !s.l2Valid w.die pa 64 then s
    else
      let ks := (List.range 64).map fun k => (sectorOf va % 256 + k, pa + k)
      let old := (s.l1Line c w va).getD { dom := w.dom, asn := w.asn, line := va / 256, page := p.va, size := p.size, share := p.share
                                          pa := p.pa + (lineOf va - p.va), bytes := [], bad := [], ue := false, lu := false }
      let line := { old with
        bytes := ks.foldl (fun (b : Sparse Byte) k => Sparse.put b k.1 (((s.l2 w.die k.2).map (·.val)).getD 0)) old.bytes
        bad := (old.bad.filter fun k => !(sectorOf va % 256 ≤ k && k < sectorOf va % 256 + 64))
          ++ (ks.filter fun k => s.l2PoisonRead w.die k.2 1).map (·.1) }
      s.modCore c fun k =>
        let ls := k.l1.filter fun l => !(l.dom == w.dom && l.asn == w.asn && l.line == va / 256)
        { k with l1 := line :: if ls.length < 1024 then ls else dropVictim ls }

/-- The last use of a line is announced (R102). -/
def State.l1Last (s : State) (w : Who) (va : Nat) : State :=
  match w.core with
  | none => s
  | some c => s.modCore c fun k => { k with
      l1 := k.l1.map fun l => if l.dom == w.dom && l.asn == w.asn && l.line == va / 256 then { l with lu := true } else l }

/-- A store that hits updates the L1 copy (R253). -/
def State.l1Update (s : State) (w : Who) (va : Nat) (bytes : List Byte) : State :=
  match w.core with
  | none => s
  | some c => s.modCore c fun k => { k with
      l1 := k.l1.map fun l =>
        if l.dom == w.dom && l.asn == w.asn && l.line == va / 256 then
          { l with
            bytes := bytes.zipIdx.foldl (fun (b : Sparse Byte) e =>
              if (Sparse.look b (va % 256 + e.2)).isSome then Sparse.put b (va % 256 + e.2) e.1 else b) l.bytes
            bad := l.bad.filter fun k => !(va % 256 ≤ k && k < va % 256 + bytes.length) }
        else l }

/-! ### Whole accesses -/

/-- What an access gives: data and the scope that raises the fence horizon (R288), or why it stops. -/
abbrev Got (α : Type) := Except Stop (α × Nat)

/-- A load of n bytes at a virtual address. `l1` asks for the allocation of R253; a poisoned sector is filled too. -/
def State.load (s : State) (w : Who) (va n : Nat) (l1 spec : Bool) : State × Got (List Byte) :=
  let s := s.l1Sound w va
  match s.l1Hit w va n with
  | some (bs, sh, none) => (s, .ok (bs, sh))
  | some (_, _, some pa) => (s, .error (.poison pa))
  | none =>
    match s.translate w va n .read spec with
    | (s, .error x) => (s, .error x)
    | (s, .ok p) =>
      match s.loadAt w p (p.pa + (va - p.va)) n with
      | (s, .error (.poison pa)) => (if l1 then s.l1Fill w p va else s, .error (.poison pa))
      | (s, .error x) => (s, .error x)
      | (s, .ok bs) => (if l1 then s.l1Fill w p va else s, .ok (bs, p.share))

/-- The requests of an issue to pages of mode 2 count, one for each 64-byte sector that they reach (R399). -/
def State.countSectors (s : State) (w : Who) (vas : List Nat) : State :=
  if s.hub.migthr = 0 then s
  else
    ((vas.map (· / 64)).eraseDups).foldl (fun s k =>
      match s.translate w (64 * k) 1 .maint true with
      | (_, .ok p) => s.countPeer w p (((vas.find? fun a => a / 64 == k)).getD (64 * k))
      | _ => s) s

/-- A store to a page in peer form makes its block's interval irrevocable (R147). -/
def State.peerStore (s : State) (p : Page) (writer : List (Nat × Nat)) : State :=
  if p.peer then writer.foldl (fun s x => s.irrevoke x.1) s else s

/-- A store of bytes at a virtual address. -/
def State.store (s : State) (w : Who) (va : Nat) (bytes : List Byte) (writer : List (Nat × Nat)) : State × Got Unit :=
  match s.translate w va bytes.length .write false with
  | (s, .error x) => (s, .error x)
  | (s, .ok p) =>
    match s.storeAt w p (p.pa + (va - p.va)) bytes writer with
    | (s, some x) => (s, .error x)
    | (s, none) => (((s.nameSent w.die (.ofNat 64 va) s.sel.pc).peerStore p writer).l1Update w va bytes, .ok ((), p.share))

/-- An atomic step at a virtual address: the old bytes. -/
def State.atomic (s : State) (w : Who) (va n : Nat) (step : PeerStep) (quiet : Bool) (writer : List (Nat × Nat)) :
    State × Got (List Byte) :=
  match s.translate w va n .atomic false with
  | (s, .error x) => (s, .error x)
  | (s, .ok p) =>
    match s.atomicAt w p (p.pa + (va - p.va)) n step quiet writer with
    | (s, .error x) => (s, .error x)
    | (s, .ok old) =>
      let s := s.peerStore p writer
      let s := match stepBytes step old with
        | some new => s.l1Update w va new
        | none => s
      (s, .ok (old, p.share))

/-- A read at the L2, bypassing L1 (R285), or by an engine (R297). -/
def State.loadL2 (s : State) (w : Who) (va n : Nat) : State × Got (List Byte) :=
  match s.translate w va n .read false with
  | (s, .error x) => (s, .error x)
  | (s, .ok p) =>
    match s.loadAt w p (p.pa + (va - p.va)) n with
    | (s, .error x) => (s, .error x)
    | (s, .ok bs) => (s.countPeer w p va, .ok (bs, p.share))

/-! ### Restartable faults enter the buffer (R265, R271, R272) -/

/-- The number of restartable records in a fault buffer. -/
def Die.restarts (d : Die) : Nat :=
  (d.fb.filter fun e => match e.body with | .restart _ => true | _ => false).length

/-- A fault joins a record of its key (R272). -/
def RestartRec.sameKey (a b : RestartRec) : Bool :=
  a.cause == b.cause && a.domain == b.domain && a.asn == b.asn && a.va.toNat / 4096 == b.va.toNat / 4096 && a.acc == b.acc

/-- A restartable fault coalesces into a record or makes one; where no entry is free it is not recorded (R271, R272). -/
def State.recordFault (s : State) (d : Nat) (r : RestartRec) : State × Option Word :=
  let die := s.die d
  match die.fb.find? fun e => match e.body with | .restart x => x.sameKey r | _ => false with
  | some e =>
    (s.modDie d fun die => { die with
      fb := die.fb.map fun x => if x.seq == e.seq then
        { x with body := match x.body with
          | .restart y => .restart { y with count := min 0xFFFF (y.count + r.count), cores := y.cores ||| r.cores }
          | b => b }
        else x }, some e.seq)
  | none =>
    if die.restarts < 960 && die.fb.length < 1024 then
      (s.modDie d fun die => { die with
        fb := die.fb ++ [{ seq := die.fbNext, body := .restart r, taken := false }], fbNext := nextSeq die.fbNext }, some die.fbNext)
    else (s, none)

/-- A restartable fault is recorded, or waits unrecorded with those that wait on it (R271). -/
def State.raiseRestart (s : State) (d : Nat) (r : RestartRec) (who : Waiter) : State × Word :=
  match s.recordFault d r with
  | (s, some seq) => (s, seq)
  | (s, none) => (s.modDie d fun die => { die with deferred := die.deferred ++ [{ body := r, who := who }] }, 0)

/-- `pf.acc` of an access (R269). -/
def accCode : Access → Nat
  | .read | .maint => 0
  | .write | .atomic => 1
  | .fetch => 2

/-- The fields of a restartable record (R269) of a block's access. -/
def Block.restartRec (b : Block) (cause why level acc count : Nat) (va pc : DWord) (engine : Bool) : RestartRec :=
  { cause := .ofNat 16 cause, why := why, acc := acc, level := level, engine := engine, domain := b.hdr.domain, asn := b.asn
    count := count, va := va, cores := .ofNat 48 (2 ^ (b.core % 48)), pc := pc }

/-- A lane's restartable fault: its cause, `pf.why`, `pf.level` and address. -/
structure RF where
  thr : Nat
  cause : Nat
  why : Nat
  level : Nat
  va : DWord
  /-- The effective address of the whole access, which the log keeps. -/
  ea : DWord
  data : Nat
  data2 : Nat
  deriving DecidableEq, Repr

end Sys2Proof.Machine

/-- The hint of an access (R102). -/
def Sys2Proof.Instr.hint : Sys2Proof.Instr → Sys2Proof.Hint
  | .ld _ _ _ h | .st _ _ _ h => h
  | _ => .none

namespace Sys2Proof.Machine

/-- Two lanes' faults share one record (R265). -/
def RF.same (a b : RF) : Bool := a.cause == b.cause && a.va.toNat / 4096 == b.va.toNat / 4096

/-- The faulting lanes of an issue enter one entry of the issuing bundle's operand log, and each group of lanes on one page makes or
joins one record, in ascending order of its lowest home lane (R265, R267, R272). A bundle whose log is full has been held
before (R265). -/
def State.logFaults (s : State) (i : Instr) (len acc : Nat) (a : LogAcc) (dst : Dst) (span : Nat) (fs : List RF) : State :=
  match fs with
  | [] => s
  | _ :: _ =>
    let b := s.cb
    let bid := s.sel.blk
    let log := s.sel.ctx.log
    let e := ((List.range 8).find? fun k => (Sparse.look (b.oplog log) k).isNone).getD 7
    let lanes := fs.map fun f => ({ thr := f.thr, addr := f.ea, data := .ofNat 128 f.data, data2 := .ofNat 128 f.data2, replayed := false
                                    cancelled := false, cause := .ofNat 16 f.cause, seq := 0 } : OplogLane)
    let entry : OplogEntry := { pc := s.sel.pc, bits := .ofNat 128 ((encodeBits i).getD 0), len := len, acc := a, dst := dst, span := span
                                hint := i.hint, lanes := lanes }
    let s := s.modCb fun b => b.modOplog log fun x => Sparse.put x e entry
    let heads := fs.filter fun f => (fs.find? fun g => g.same f).any fun g => g.thr == f.thr
    heads.foldl (fun s h =>
      let ts := (fs.filter fun f => f.same h).map (·.thr)
      let r := b.restartRec h.cause h.why h.level acc ts.length h.va s.sel.pc false
      let (s, seq) := s.raiseRestart (b.core / 48) r (.lanes bid log e ts)
      s.modCb fun b => b.modOplog log fun x => x.map fun y => if y.1 == e then
        (y.1, { y.2 with lanes := y.2.lanes.map fun l => if ts.contains l.thr then { l with seq := seq } else l }) else y) s

end Sys2Proof.Machine
end

