-- ==== Sys2Proof/Machine/Perform.lean ====
section
/-! DEFINITION. Perform.lean: one lane's access of memory, as it is made at issue and made again at replay (R104 to R107, R265, R273,
R281, R293); fences (R284, R288 to R290); and the accesses of a whole issue. -/

namespace Sys2Proof

/-- A loaded value in its registers (R75). -/
def MWidth.extended (w : MWidth) (x : Nat) : Nat :=
  match w with
  | .s8 => wrap 32 (readInt 8 true x)
  | .s16 => wrap 32 (readInt 16 true x)
  | _ => x

end Sys2Proof

namespace Sys2Proof.Machine

/-! ### Fences (R288 to R290, R376) -/

/-- The fence horizon of a thread rises (R288). -/
def Block.raise (b : Block) (t h : Nat) : Block := b.modThr t fun x => { x with h := max x.h h }

/-- A lane's stores that other agents have not yet applied (R289). -/
def State.unsent (s : State) (bid t : Nat) : Bool :=
  s.hub.inflight.any fun d => d.blk == bid && d.thr == t && !d.external

/-- The lines that hold masked bytes of a lane's stores (R289, R376). -/
def State.maskedLines (s : State) (d bid t : Nat) : List Nat :=
  (((s.die d).l2.bytes.filter fun e => e.2.masked && e.2.writers.contains (bid, t)).map fun e => lineOf e.1).eraseDups

/-- A lender has not acknowledged a write or an atomic step of a lane (R289). -/
def State.unacknowledged (s : State) (bid t : Nat) : Bool := s.hub.reqs.any fun r => r.what.writers.contains (bid, t)

/-- Bytes of a lane's stores (at scope 4 and wider), or of its range maintenance (at any scope), wait for their homes (R289, R376). -/
def State.heldFor (s : State) (bid t e : Nat) : Bool :=
  s.hub.heldEvict.any fun h => h.maint.contains (bid, t) || (decide (4 ≤ e) && h.writers.contains (bid, t))

/-- Every L1 line of a core whose page has `pte.share` ≥ 2 is discarded (R289, R377). -/
def State.acquirePoint (s : State) (c : Nat) : State := s.modCore c fun k => { k with l1 := k.l1.filter fun l => l.share < 2 }

/-- A fence of a lane at scope 4 or wider writes back what the lane's stores left masked and its home serves (R289, R376). -/
def State.fenceBack (s : State) (bid t e : Nat) : State :=
  let d := (s.blk bid).core / 48
  if 4 ≤ e then ((s.maskedLines d bid t).filter fun l => s.served d l).foldl (fun s l => s.writeBack d l 256) s else s

/-- An access of a lane is not yet performed at scope e (R289). -/
def State.unperformed (s : State) (bid t e : Nat) : Bool :=
  (decide (4 ≤ e) && (s.unsent bid t || !(s.maskedLines ((s.blk bid).core / 48) bid t).isEmpty)) || s.heldFor bid t e
    || (decide (5 ≤ e) && s.unacknowledged bid t)

/-- The fence of a lane at scope e completes, or cannot yet (R289): every access of the lane is performed at scope e; the L1
lines of R289 are discarded; the horizon becomes 0. -/
def State.completeFence (s : State) (bid t e : Nat) : Option State :=
  let s := s.fenceBack bid t e
  if s.unperformed bid t e then none
  else
    let s := if 2 ≤ e then s.acquirePoint (s.blk bid).core else s
    some (s.modBlk bid fun b => b.modThr t fun x => { x with h := 0, wait := .none })

/-- The scope that a lane waits to be fenced at. -/
def Wait.fenceScope : Wait → Option Nat
  | .fence e => some e
  | _ => Option.none

/-- The fences that an issue's lanes are still in are completed where they can be; once all are, the lanes go on together. -/
def State.completeFences (s : State) (bid : Nat) (ts : List Nat) : State :=
  let s := ts.foldl (fun s t =>
    match ((s.blk bid).thr t).wait.fenceScope with
    | some e => (s.completeFence bid t e).getD (s.fenceBack bid t e)
    | none => s) s
  if ts.any fun t => ((s.blk bid).thr t).wait.fenceScope.isSome then s
  else s.modBlk bid fun b => b.modThrs ts fun _ x => { x with group := 0 }

/-- A fence of minimum scope m by the lanes `ts` of an issue whose active lanes are `act`, which have advanced: it completes at
once, or holds them (R289). -/
def State.fenceLanes (s : State) (bid : Nat) (act ts : List Nat) (m : Nat → Nat) : State :=
  let g := 1 + act.headD 0
  let s := s.modBlk bid fun b =>
    (b.modThrs act fun _ x => { x with group := g }).modThrs ts fun t x => { x with wait := .fence (max x.h (m t)) }
  s.completeFences bid act

/-- The fence effect before a step (R284 `.rel`, R330, R372): none while it cannot complete. -/
def State.fenceFirst (s : State) (bid : Nat) (ts : List Nat) (m : Nat) : Option State :=
  ts.foldl (fun (o : Option State) t => o.bind fun s => s.completeFence bid t (max ((s.blk bid).thr t).h m)) (some s)

/-- What such a fence has set going while it cannot complete: write-backs on their way. -/
def State.fenceBegin (s : State) (bid : Nat) (ts : List Nat) (m : Nat) : State :=
  ts.foldl (fun s t => s.fenceBack bid t (max ((s.blk bid).thr t).h m)) s

/-! ### One lane's access -/

/-- What an access gives a lane: value, flags, and the scope that raises the fence horizon (R288). -/
structure Done where
  val : Nat
  flags : BitVec 6
  share : Nat
  deriving DecidableEq, Repr

/-- Why a lane's access stopped, with the address at which it did. -/
abbrev Tried := Except (Stop × Nat) Done

/-- The words of a local access: addresses and sizes (R106). -/
def localParts (ea n : Nat) : List (Nat × Nat) :=
  if n ≤ 4 then [(ea, n)] else (List.range (n / 4)).map fun k => (ea + 512 * k, 4)

/-- The words of a local load, one by one, with the largest scope of their pages. -/
def State.loadParts (s : State) (w : Who) (spec : Bool) : List (Nat × Nat) → State × Except (Stop × Nat) (List Byte × Nat)
  | [] => (s, .ok ([], 0))
  | (va, n) :: r =>
    match s.load w va n true spec with
    | (s, .error x) => (s, .error (x, va))
    | (s, .ok (bs, sh)) =>
      match State.loadParts s w spec r with
      | (s, .ok (rest, h)) => (s, .ok (bs ++ rest, max sh h))
      | (s, .error x) => (s, .error x)

/-- The words of a local store, one by one; each is checked before any is written. -/
def State.storeParts (s : State) (w : Who) (bid t : Nat) : List (Nat × List Byte) → State × Option (Stop × Nat)
  | [] => (s, none)
  | (va, bs) :: r =>
    match s.store w va bs [(bid, t)] with
    | (s, .error x) => (s, some (x, va))
    | (s, .ok (_, sh)) => State.storeParts (s.modBlk bid fun b => b.raise t sh) w bid t r

/-- Bytes cut into the parts of a local access. -/
def cutParts (bytes : List Byte) : List (Nat × Nat) → List (Nat × List Byte)
  | [] => []
  | (va, n) :: r => (va, bytes.take n) :: cutParts (bytes.drop n) r

/-- The first page of a list of words that does not translate for writing. -/
def State.checkParts (s : State) (w : Who) : List (Nat × Nat) → State × Option (Stop × Nat)
  | [] => (s, none)
  | (va, n) :: r =>
    match s.translate w va n .write false with
    | (s, .error x) => (s, some (x, va))
    | (s, .ok _) => State.checkParts s w r

/-- Range maintenance of one line by a lane (R293). 0 clean, 1 inv, 2 flush. -/
def State.maintainLine (s : State) (d k pa : Nat) (lane : Nat × Nat) : State :=
  let s := if k == 1 then s.dropClean d pa 256 else s.cleanRange d pa 256 [lane]
  if k == 2 then s.dropClean d pa 256 else s

/-- The virtual addresses of the lines that a range overlaps. -/
def rangeLines (va len : Nat) : List Nat :=
  if len = 0 then [] else (List.range ((va + len - 1) / 256 + 1 - va / 256)).map fun k => 256 * (va / 256 + k)

/-- The pages of a range, translated line by line as a load is for presence and domain (R293), before any line is handled (R113). -/
def State.rangePages (s : State) (w : Who) (k : Nat) : List Nat → State × Except (Stop × Nat) (List (Nat × Page))
  | [] => (s, .ok [])
  | va :: r =>
    let va := va % 2 ^ 64
    match s.translate w va 1 .maint false with
    | (s, .error x) => (s, .error (x, va))
    | (s, .ok p) =>
      if k != 1 && s.refuses (p.pa + (va - p.va)) then (s, .error (.restart 0x53 0 0, va))
      else match State.rangePages s w k r with
        | (s, .ok ps) => (s, .ok ((va, p) :: ps))
        | (s, .error x) => (s, .error x)

/-- Range maintenance (R293): the lines in the L2, then every L1 of the die. It answers the largest scope of the pages (R288). -/
def State.maintain (s : State) (w : Who) (k : Nat) (vas : List Nat) (lane : Nat × Nat) : State × Except (Stop × Nat) Nat :=
  match s.rangePages w k vas with
  | (s, .error x) => (s, .error x)
  | (s, .ok ps) =>
    let s := ps.foldl (fun s e => s.maintainLine w.die k (e.2.pa + (e.1 - e.2.va)) lane) s
    let s := if k == 0 then s else
      (List.range 48).foldl (fun s c => if (Sparse.look s.cores (48 * w.die + c)).isNone then s else
        s.modCore (48 * w.die + c) fun y => { y with
          l1 := y.l1.filter fun l => !(l.dom == w.dom && l.asn == w.asn && ps.any fun e => l.line == e.1 / 256) }) s
    (s, .ok ((ps.map fun e => e.2.share).foldl max 0))

/-- The access of one lane, with its fence horizon raised (R288). -/
def State.perform (s : State) (bid t : Nat) (acc : LogAcc) (ea data data2 : Nat) (l1 spec : Bool) : State × Tried :=
  let w := (s.blk bid).who
  let raise (s : State) (sh : Nat) : State := s.modBlk bid fun b => b.raise t sh
  match acc with
  | .load m =>
    match s.load w ea m.size l1 spec with
    | (s, .error x) => (s, .error (x, ea))
    | (s, .ok (bs, sh)) => (raise s sh, .ok { val := m.extended (ofBytes bs), flags := 0, share := sh })
  | .const m =>
    match s.translate w ea m.size .read spec with
    | (s, .error x) => (s, .error (x, ea))
    | (s, .ok p) =>
      match s.loadAt w p (p.pa + (ea - p.va)) m.size with
      | (s, .error x) => (s, .error (x, ea))
      | (s, .ok bs) => (raise s p.share, .ok { val := m.extended (ofBytes bs), flags := 0, share := p.share })
  | .store m =>
    match s.store w ea (toBytes m.size data) [(bid, t)] with
    | (s, .error x) => (s, .error (x, ea))
    | (s, .ok (_, sh)) => (raise s sh, .ok { val := 0, flags := 0, share := 0 })
  | .loadLocal m =>
    match s.loadParts w spec (localParts ea m.size) with
    | (s, .error x) => (s, .error x)
    | (s, .ok (bs, sh)) => (raise s sh, .ok { val := m.extended (ofBytes bs), flags := 0, share := sh })
  | .storeLocal m =>
    match s.checkParts w (localParts ea m.size) with
    | (s, some x) => (s, .error x)
    | (s, none) =>
      match s.storeParts w bid t (cutParts (toBytes m.size data) (localParts ea m.size)) with
      | (s, some x) => (s, .error x)
      | (s, none) => (s, .ok { val := 0, flags := 0, share := 0 })
  | .atomic ty op _ returns flags =>
    match s.atomic w ea (4 * ty.regs) { ty := ty, op := op, b := data, c := data2 } (!returns) [(bid, t)] with
    | (s, .error x) => (s, .error (x, ea))
    | (s, .ok (old, sh)) =>
      (raise (s.irrevoke bid) sh,
        .ok { val := ofBytes old, flags := if flags then (atomStep ty op (ofBytes old) data data2).2 else 0
              share := sh })
  | .range k len =>
    match s.maintain w k (rangeLines ea len) (bid, t) with
    | (s, .error x) => (s, .error x)
    | (s, .ok sh) => (raise s sh, .ok { val := 0, flags := 0, share := sh })
  | .reissue => (s, .ok { val := 0, flags := 0, share := 0 })

/-- The ordering of an access asks for a fence of its lane before the step (R284). -/
def LogAcc.releases : LogAcc → Bool
  | .atomic _ _ ord .. => ord == .rel || ord == .ar
  | _ => false

/-- The access of one lane, with the fence that R284 puts before its step; a step that cannot be made has no fence either (R113). -/
def State.performOrdered (s : State) (bid t : Nat) (acc : LogAcc) (ea data data2 : Nat) (l1 : Bool) : State × Tried :=
  match s.perform bid t acc ea data data2 l1 false with
  | (s1, .ok v) =>
    if acc.releases then
      match s.fenceFirst bid [t] 0 with
      | none => (s.fenceBegin bid [t] 0, .error (.wait, ea))
      | some s => s.perform bid t acc ea data data2 l1 false
    else (s1, .ok v)
  | r => r

/-! ### The accesses of an issue -/

/-- A lane's access: thread, effective address, operands, and a lane fault that its checks already found (R103, R106). -/
structure Req where
  thr : Nat
  ea : DWord
  data : Nat
  data2 : Nat
  bad : Option LF
  deriving DecidableEq, Repr

/-- What the accesses of an issue have given so far. -/
structure Gathered where
  st : State
  vals : List (Nat × Done)
  faults : List (Nat × LF)
  restarts : List RF
  /-- The issue waits (none), or consumes poison at a physical address (R146). -/
  stopped : Option (Option Nat)

/-- What a lane's access gives, or has given while another lane of the issue waited. -/
def State.attempt (s : State) (bid : Nat) (acc : LogAcc) (l1 spec : Bool) (r : Req) : State × Tried :=
  match ((s.blk bid).thr r.thr).wait with
  | .access (some (.done v f h)) => (s, .ok { val := v, flags := f, share := h })
  | .access (some (.faulted c a)) => (s, .error (.lane c, a.toNat))
  | .access (some (.missed c w l a)) => (s, .error (.restart c w l, a.toNat))
  | _ => s.perform bid r.thr acc r.ea.toNat r.data r.data2 l1 spec

/-- The lane's access has not been made yet. -/
def Wait.unmade : Wait → Bool
  | .access (some _) => false
  | _ => true

/-- One more lane's access. -/
def Gathered.add (g : Gathered) (bid : Nat) (acc : LogAcc) (l1 spec : Bool) (lf : LF) (r : Req) : Gathered :=
  if g.stopped.isSome then g
  else
    match r.bad with
    | some f => { g with faults := g.faults ++ [(r.thr, f)] }
    | none =>
      match g.st.attempt bid acc l1 spec r with
      | (s, .ok d) => { g with st := s, vals := g.vals ++ [(r.thr, d)] }
      | (s, .error (.lane c, va)) =>
        { g with st := s, faults := g.faults ++ [(r.thr, { lf with cause := c, addr := .ofNat 64 va })] }
      | (s, .error (.restart c w l, va)) =>
        { g with st := s, restarts := g.restarts ++ [{ thr := r.thr, cause := c, why := w, level := l, va := .ofNat 64 va, ea := r.ea
                                                       data := r.data, data2 := r.data2 }] }
      | (s, .error (.wait, _)) => { g with st := g.st.asked (s.blk bid).who.die s, stopped := some none }
      | (s, .error (.poison pa, _)) => { g with st := s, stopped := some (some pa) }

/-- A lane's access that must wait has its requests sent. -/
def State.askFor (s : State) (bid : Nat) (acc : LogAcc) (r : Req) : State :=
  match r.bad, s.attempt bid acc false false r with
  | none, (t, .error (.wait, _)) => s.asked (s.blk bid).who.die t
  | _, _ => s

/-- The lanes of an atomic that address one location: their fences, for those whose step passes its checks (R113, R284), then their steps, one
after another with nothing between them (R283): where one must wait, none is made. -/
def Gathered.addTogether (g : Gathered) (bid : Nat) (acc : LogAcc) (lf : LF) (rs : List Req) : Gathered :=
  if g.stopped.isSome then g
  else
    let fenced := if acc.releases then rs.filter fun r => r.bad.isNone && ((g.st.blk bid).thr r.thr).wait.unmade
      && (match g.st.perform bid r.thr acc r.ea.toNat r.data r.data2 false false with | (_, .ok _) => true | _ => false) else []
    match g.st.fenceFirst bid (fenced.map (·.thr)) 0 with
    | none => { g with st := g.st.fenceBegin bid (fenced.map (·.thr)) 0, stopped := some none }
    | some s =>
      let g1 := rs.foldl (fun g r => g.add bid acc false false lf r) { g with st := s }
      if g1.stopped == some none then { g with st := rs.foldl (fun s r => s.askFor bid acc r) g.st, stopped := some none } else g1

/-- What has been gathered, in ascending home-lane order. -/
def Gathered.inOrder (g : Gathered) : Gathered :=
  { g with vals := sortBy (fun v => homeLane v.1) g.vals, faults := sortBy (fun f => homeLane f.1) g.faults
           restarts := sortBy (fun r => homeLane r.thr) g.restarts }

/-- The accesses of an issue, made in ascending lane order (R104); those of an atomic location by location (R283). -/
def State.collect (s : State) (acc : LogAcc) (l1 spec : Bool) (lf : LF) (rs : List Req) : Gathered :=
  let g : Gathered := { st := s, vals := [], faults := [], restarts := [], stopped := none }
  match acc with
  | .atomic .. =>
    let eas := (rs.map (·.ea)).eraseDups
    let g : Gathered := { g with st := s.preClean s.cb.who (eas.map BitVec.toNat) }
    (eas.foldl (fun g a => g.addTogether s.sel.blk acc lf (rs.filter fun r => r.ea == a)) g).inOrder
  | _ => rs.foldl (fun g r => g.add s.sel.blk acc l1 spec lf r) g

/-- What a lane's access has given so far, for those of `rs` whose own checks found no fault (R103). -/
def Gathered.made (g : Gathered) (rs : List Req) (t : Nat) : Option Made :=
  match g.vals.find? fun v => v.1 == t with
  | some v => some (.done v.2.val v.2.flags v.2.share)
  | none =>
    match g.restarts.find? fun r => r.thr == t with
    | some r => some (.missed r.cause r.why r.level r.va)
    | none => if rs.any fun r => r.thr == t && r.bad.isNone then
        (g.faults.find? fun f => f.1 == t).map fun f => .faulted f.2.cause f.2.addr
      else none

/-- A lane of the issue is not served yet: it is tried again, with what has been made of the issue's accesses. -/
def Gathered.hold (g : Gathered) (rs : List Req) : State :=
  if rs.all fun r => (g.made rs r.thr).isNone then g.st.stall
  else
    (g.st.modCb fun b => b.modThrs g.st.sel.act fun i t =>
      { t with wait := .access (g.made rs i), group := 1 + g.st.sel.act.headD 0 }).noIssue

/-- Some lane of the issue waits for a replay: later accesses are in the fault shadow (R266). -/
def State.inShadow (s : State) : Bool := !s.pendingLog.isEmpty

/-- The page of an access as the caches have it is thread-private: `ld` and `sld` in the shadow reach no other (R266). -/
def State.threadPage (s : State) (va : Nat) : Bool :=
  let w := s.cb.who
  match s.l1Hit w va 1 with
  | some (_, sh, _) => sh == 0
  | none => match s.translate w va 1 .read true with
    | (_, .ok p) => p.share == 0
    | _ => true

/-- An issue in the shadow waits until the faults before it are replayed (R266). -/
def State.awaitReplay (s : State) : State :=
  ((s.countIssue (-1)).modCb fun b => b.modThrs s.sel.act fun _ t => { t with wait := .replay }).endTurn

/-- An access of the shadow is dropped and counted (R274). -/
def State.dropSpec (s : State) : State := (s.modCore s.cc fun k => { k with specdrop := k.specdrop + 1 }).awaitReplay

/-- The bytes that an access names: addresses and sizes (R105, R106). -/
def LogAcc.bytesAt (acc : LogAcc) (ea : Nat) : List (Nat × Nat) :=
  match acc with
  | .load w | .const w | .store w => [(ea, w.size)]
  | .loadLocal w | .storeLocal w => localParts ea w.size
  | .atomic t .. => [(ea, 4 * t.regs)]
  | .range .. | .reissue => []

/-- A lane's access of the shadow reads a byte that an earlier store of its thread, which waits for its replay, is to write (R105). -/
def State.readsPending (s : State) (acc : LogAcc) (rs : List Req) : Bool :=
  s.pendingLog.any fun e => e.acc.code == 1 && e.lanes.any fun l => !l.replayed && !l.cancelled && rs.any fun r =>
    r.thr == l.thr && (e.acc.bytesAt l.addr.toNat).any fun x => (acc.bytesAt r.ea.toNat).any fun y =>
      decide (x.1 < y.1 + y.2 ∧ y.1 < x.1 + x.2)

/-- How an issue that accesses memory runs: the accesses in ascending lane order (R104, R283), then the advance, the results, the
records of restartable faults and the lane faults (R113, R265). While a lane is not served the issue waits. `own`: in the shadow only thread-only pages (R266). `uni`: an access
made once per issue, whose faults every executing lane takes (R107, R153). -/
def State.access (s : State) (i : Instr) (len : Nat) (acc : LogAcc) (l1 own : Bool) (uni : Option (List Nat)) (lf : LF) (d : Dst) (span : Nat) (rs : List Req)
    (after : State → List (Nat × Done) → State) : State :=
  let spec := s.inShadow
  let g := s.collect acc l1 spec lf rs
  let every (e : Nat × LF) : List (Nat × LF) := match uni with | some ts => ts.map fun t => (t, e.2) | none => [e]
  let everyR (e : RF) : List RF := match uni with | some ts => ts.map fun t => { e with thr := t } | none => [e]
  let g := { g with faults := g.faults.flatMap every, restarts := g.restarts.flatMap everyR }
  if spec && own && rs.any (fun r => r.bad.isNone && !s.threadPage r.ea.toNat) then s.awaitReplay
  else if spec && s.readsPending acc rs then s.awaitReplay
  else if spec && (!g.faults.isEmpty || !g.restarts.isEmpty) then s.dropSpec
  else match g.stopped with
  | some none => if spec then (s.asked s.cd g.st).stall else g.hold rs
  | some (some pa) => g.st.consume s.sel.blk 0 (.ofNat 64 pa)
  | none =>
    let reached := if spec then [] else (rs.filter fun r => g.vals.any fun v => v.1 == r.thr).flatMap fun r => (acc.bytesAt r.ea.toNat).map (·.1)
    let s1 := (g.st.countSectors s.cb.who reached).advanceBut len (g.faults.map (·.1))
    let s1 := match uni, g.vals with
      | some ts, v :: _ => s1.modCb fun b => ts.foldl (fun b t => b.raise t v.2.share) b
      | _, _ => s1
    let s2 := (s1.write d span (g.vals.map fun v => (v.1, v.2.val))).flagLanes (g.vals.map fun v => (v.1, v.2.flags))
    (after (s2.logFaults i len acc.code acc d span g.restarts) g.vals).finishFaults len g.faults

end Sys2Proof.Machine
end

