-- ==== Sys2Proof/Machine/MemoryOps.lean ====
section
/-! DEFINITION. MemoryOps.lean: the thread memory instructions (R102 to R108, R153), atomics (R280 to R284), `waitcmp` (R285 to R287),
fences and durability (R288 to R292) and range maintenance (R293). -/

namespace Sys2Proof

/-- The code of a width in `fn` (R102), as lane fault records hold it (R115). -/
def MWidth.num : MWidth → Nat
  | .n8 => 0 | .s8 => 1 | .n16 => 2 | .s16 => 3 | .b32 => 4 | .b64 => 5 | .b128 => 6

end Sys2Proof

namespace Sys2Proof.Machine

/-! ### Addresses (R103, R106) -/

/-- The signed displacement of a memory instruction (R102). -/
def disp (e : Ext) : DWord :=
  match e with
  | .e96 i => sext32 i
  | _ => 0

/-- base + offset + sext(disp), modulo 2^64 (R103). -/
def State.memAddr (s : State) (x : Opnds) (zx : Bool) (t : Nat) : DWord :=
  let off : DWord := match x.b with
    | .v n => if zx then ((s.cb.thr t).vreg n.toNat).zeroExtend 64 else sext32 ((s.cb.thr t).vreg n.toNat)
    | _ => 0
  .ofNat 64 (s.src x.ext .b64 t x.a) + off + disp x.ext

/-- The first two checks of R103. -/
def addrCheck (a : DWord) (size : Nat) (lf : LF) : Option LF :=
  if !canonical a then some { lf with cause := 0x11, addr := a }
  else if a.toNat % size != 0 then some { lf with cause := 0x10, addr := a }
  else none

/-- A lane's request, its address checked. -/
def State.req (s : State) (x : Opnds) (zx : Bool) (size : Nat) (lf : LF) (data data2 : Nat → Nat) (t : Nat) : Req :=
  let a := s.memAddr x zx t
  { thr := t, ea := a, data := data t, data2 := data2 t, bad := addrCheck a size lf }

/-- The fields of a lane fault that an access of a width gives (R115). -/
def widthLF (w : MWidth) (store : Bool) : LF := { cause := 0, width := w.num, store := store }

/-! ### Loads and stores (R104 to R108, R153) -/

/-- Under `.lu` the lines of the lanes whose access was performed become preferred victims (R102). -/
def State.lastUse (s : State) (hint : Hint) (rs : List Req) (vs : List (Nat × Done)) : State :=
  if hint == .lu then
    rs.foldl (fun s r => if vs.any fun v => v.1 == r.thr then s.l1Last s.cb.who r.ea.toNat else s) s
  else s

/-- `ld` (R104). -/
def execLd (x : Opnds) (w : MWidth) (zx : Bool) (hint : Hint) (s : State) : Host.Outcome State Fault Refusal :=
  s.issue (.ld x w zx hint) fun x s =>
    let rs := (s.exe x.g).map (s.req x zx w.size (widthLF w false) (fun _ => 0) fun _ => 0)
    s.access (.ld x w zx hint) x.ext.bytes (.load w) (hint != .nl1) true none (widthLF w false) x.d w.regs rs (·.lastUse hint rs)

/-- `st` (R104). -/
def execSt (x : Opnds) (w : MWidth) (zx : Bool) (hint : Hint) (s : State) : Host.Outcome State Fault Refusal :=
  s.issue (.st x w zx hint) fun x s =>
    let rs := (s.exe x.g).map
      (s.req x zx w.size (widthLF w true) (fun t => s.src x.ext (.int (8 * w.size) true) t x.c) fun _ => 0)
    s.access (.st x w zx hint) x.ext.bytes (.store w) false false none (widthLF w true) .discard 1 rs (·.lastUse hint rs)

/-- The virtual address of a local address's first word (R106). -/
def Block.localVa (b : Block) (t a : Nat) : DWord :=
  b.locbase + .ofNat 64 (homeBundle t * (b.locsz.toNat * 128) + a / 4 * 512 + homeLane t * 4 + a % 4)

/-- A lane's local request (R106). The address that MISALIGNED records is the local address, as that of LOCAL_RANGE is (DESIGN CHOICE: R115
names it for LOCAL_RANGE alone; log entry 53). -/
def State.localReq (s : State) (x : Opnds) (w : MWidth) (store : Bool) (data : Nat → Nat) (t : Nat) : Req :=
  let off : Word := match x.b with
    | .v n => (s.cb.thr t).vreg n.toNat
    | _ => 0
  let a := (off.zeroExtend 64 + disp x.ext).toNat % 2 ^ 32
  let lf := widthLF w store
  let bad : Option LF :=
    if s.cb.locsz.toNat < a + w.size then some { lf with cause := 0x15, addr := .ofNat 64 a }
    else if a % w.size != 0 then some { lf with cause := 0x10, addr := .ofNat 64 a }
    else none
  { thr := t, ea := s.cb.localVa t a, data := data t, data2 := 0, bad := bad }

/-- `ldl` (R106). -/
def execLdl (x : Opnds) (w : MWidth) (s : State) : Host.Outcome State Fault Refusal :=
  s.issue (.ldl x w) fun x s =>
    s.access (.ldl x w) x.ext.bytes (.loadLocal w) true false none (widthLF w false) x.d w.regs
      ((s.exe x.g).map (s.localReq x w false fun _ => 0)) fun s _ => s

/-- `stl` (R106). -/
def execStl (x : Opnds) (w : MWidth) (s : State) : Host.Outcome State Fault Refusal :=
  s.issue (.stl x w) fun x s =>
    s.access (.stl x w) x.ext.bytes (.storeLocal w) false false none (widthLF w true) .discard 1
      ((s.exe x.g).map (s.localReq x w true fun t => s.src x.ext (.int (8 * w.size) true) t x.c)) fun s _ => s

/-- The destination is scalar: the access is made once per issue (R107). -/
def Dst.isScalar : Dst → Bool
  | .s _ => true
  | _ => false

/-- The executing lanes that make an access: all, or the lowest-numbered for all. -/
def uniLanes (uni : Bool) (ts : List Nat) : List Nat := if uni then ts.take 1 else ts

/-- `ldc` (R107): the bytes as they now stand at the die, read past the L1: of the values that the rule allows after a write, the new one
(DESIGN CHOICE, log entry 45). -/
def execLdc (x : Opnds) (w : MWidth) (s : State) : Host.Outcome State Fault Refusal :=
  s.issue (.ldc x w) fun x s =>
    let uni := Dst.isScalar x.d
    let rs := (uniLanes uni (s.exe x.g)).map (s.req x false w.size (widthLF w false) (fun _ => 0) fun _ => 0)
    s.access (.ldc x w) x.ext.bytes (.const w) false false (if uni then some (s.exe x.g) else none) (widthLF w false) x.d w.regs rs
      fun s _ => s

/-- `sld` (R153). -/
def execSld (x : Opnds) (w : MWidth) (s : State) : Host.Outcome State Fault Refusal :=
  s.issue (.sld x w) fun x s =>
    let rs := (uniLanes true (s.exe x.g)).map (s.req x false w.size (widthLF w false) (fun _ => 0) fun _ => 0)
    s.access (.sld x w) x.ext.bytes (.load w) true true (some (s.exe x.g)) (widthLF w false) x.d w.regs rs fun s _ => s

/-- A prefetch (R108, R274): one that misses translation or would fail a check is dropped and counted; otherwise the sectors named of the address's
line are brought to the die's L2, and under `.l1` the L1 takes the address's own. What its home or its slice does not serve now is not
brought. -/
def State.prefetch (s : State) (w : Who) (va : Nat) (l1 : Bool) (sectors : List Nat := List.range 4) : State :=
  let drop := s.modCore (w.core.getD 0) fun k => { k with specdrop := k.specdrop + 1 }
  if !canonical (.ofNat 64 va) then drop
  else
    match s.translate w va 1 .read true with
    | (_, .error _) => drop
    | (_, .ok p) =>
      let s := sectors.foldl (fun s k =>
        let pa := p.pa + (lineOf va - p.va) + 64 * k
        if p.direct || p.peer && !s.peerKnown p then s
        else match s.loadAt w p pa 64 with
          | (t, .ok _) | (t, .error (.poison _)) => t
          | _ => s) s
      if l1 then s.l1Fill w p va else s

/-- `pref` (R108): its effects are those of a prefetch (R274). -/
def execPref (x : Opnds) (zx l1 : Bool) (s : State) : Host.Outcome State Fault Refusal :=
  s.issue (.pref x zx l1) fun x s =>
    (((s.exe x.g).map fun t => (s.memAddr x zx t).toNat).foldl (fun s va => s.prefetch s.cb.who va l1) s).advance x.ext.bytes

/-! ### Atomics (R280 to R284) -/

/-- The source that follows another: operand c of `cas` (R280). -/
def srcAfter (a : Src) (n : Nat) : Src :=
  match a with
  | .v k => .v (k + .ofNat 8 n)
  | .s k => .s (k + .ofNat 6 n)
  | a => a

/-- `atom` and `red` with their ordering (R281, R284). The whole subset waits for the fence after the step (R289). -/
def State.atomOp (s : State) (i : Instr) (t : ATy) (op : AOp) (ord : AOrd) (returns flags : Bool) :
    Host.Outcome State Fault Refusal :=
  s.issue i fun x s =>
    let ex := s.exe x.g
    let ty : OpTy := if t == .f32 then .fp .f32 else .int t.bits true
    let rs := ex.map (s.req x false (4 * t.regs) { cause := 0 } (fun l => s.src x.ext ty l x.c) fun l =>
      if op == .cas then s.src x.ext ty l (srcAfter x.c t.regs) else 0)
    let acq := ord == .acq || ord == .ar
    s.access i x.ext.bytes (.atomic t op ord returns flags) false false none { cause := 0 } x.d t.regs rs fun s2 vs =>
      if acq && !vs.isEmpty then
        let past (l : Nat) : Bool := (s2.cb.thr l).live && (s2.cb.thr l).pc == s.sel.pc + .ofNat 64 x.ext.bytes
        s2.fenceLanes s.sel.blk (s.sel.act.filter past) (vs.map (·.1)) fun l =>
          ((vs.find? fun v => v.1 == l).map fun v => v.2.share).getD 0
      else s2

/-- `atom` (R281): it sets the flags of `fadd` whether or not its result is discarded. -/
def execAtom (x : Opnds) (t : ATy) (op : AOp) (ord : AOrd) (s : State) : Host.Outcome State Fault Refusal :=
  s.atomOp (.atom x t op ord) t op ord (x.d != .discard) true

/-- `red` (R281). -/
def execRed (x : Opnds) (t : ATy) (op : AOp) (ord : AOrd) (s : State) : Host.Outcome State Fault Refusal :=
  s.atomOp (.red x t op ord) t op ord false false

/-! ### Waiting at an instruction -/

/-- Active lanes wait at the instruction, together: `f` gives the wait of each executing lane (R127, R170). -/
def State.hold (s : State) (ex : List Nat) (w : Wait) : State :=
  let g := 1 + s.sel.act.headD 0
  (s.modCb fun b => (b.modThrs s.sel.act fun _ t => { t with group := g }).modThrs ex fun _ t => { t with wait := w }).endTurn

/-- An instruction that acts once per issue meets a restartable fault: its executing lanes enter the operand log, and it issues
again after the replay (R265, R273). -/
def State.reissue (s : State) (i : Instr) (len acc : Nat) (ex : List Nat) (cause why level : Nat) (va : Nat) : State :=
  let fs := ex.map fun t => ({ thr := t, cause := cause, why := why, level := level, va := .ofNat 64 va, ea := .ofNat 64 va, data := 0
                               data2 := 0 } : RF)
  let s1 := s.logFaults i len acc .reissue .discard 1 fs
  let seqOf (t : Nat) : Word :=
    let ls := ((s1.cb.oplog s.sel.ctx.log).flatMap fun e => e.2.lanes).filter fun l => l.thr == t && !l.replayed && !l.cancelled
    (ls.head?.map (·.seq)).getD 0
  let g := 1 + s.sel.act.headD 0
  (s1.modCb fun b => (b.modThrs s.sel.act fun _ t => { t with group := g }).modThrs ex fun t x =>
    { x with wait := .record (seqOf t) }).endTurn

/-- What an instruction that acts once per issue does where one of its accesses stops. -/
def State.onceStop (s : State) (i : Instr) (len acc : Nat) (ex : List Nat) (va : Nat) (lf : LF) : Stop → State
  | .lane c => (s.advanceBut len ex).finishFaults len (ex.map fun t => (t, { lf with cause := c, addr := .ofNat 64 va }))
  | .restart c w l => s.reissue i len acc ex c w l va
  | .wait => s.stall
  | .poison pa => s.consume s.sel.blk 0 (.ofNat 64 pa)

/-! ### `waitcmp` (R285 to R287) -/

/-- The condition of a `waitcmp`. -/
def waitHolds (t : ATy) (cc : Cc) (x v : Nat) : Bool := cmpInt cc (readInt t.bits t.signed x) (readInt t.bits t.signed v)

/-- A waiting issue takes a free entry of its slice's pilot table; where none is free, its look is noted, and the next is 2 µs later (R286). -/
def State.pilotTake (s : State) (d pa blk thr : Nat) : State :=
  let ps := (s.die d).pilots
  if ps.any fun e => e.blk == blk && e.thr == thr then s
  else
    let rest (x : Die) : List (Nat × Nat × Nat) := x.polls.filter fun e => !(e.1 == blk && e.2.1 == thr)
    if 64 ≤ (ps.filter fun e => e.slice == sliceOf pa).length then s.modDie d fun x => { x with polls := rest x ++ [(blk, thr, x.clk)] }
    else s.modDie d fun x => { x with
      pilots := x.pilots ++ [{ slice := sliceOf pa, blk := blk, thr := thr, granule := pa / 8 }], polls := rest x }

/-- The entry of a waiting issue is freed (R286). -/
def State.pilotFree (s : State) (d blk thr : Nat) : State :=
  s.modDie d fun x => { x with pilots := x.pilots.filter fun e => !(e.blk == blk && e.thr == thr)
                               polls := x.polls.filter fun e => !(e.1 == blk && e.2.1 == thr) }

/-- The outcome that a waiting `waitcmp` has, if it has one. -/
def Wait.waitcmpDone (clk : Nat) : Wait → Option Bool
  | .waitcmp _ (some o) _ _ _ _ _ _ => some o
  | .waitcmp (some due) _ _ _ _ _ _ _ => if due ≤ clk then some false else Option.none
  | _ => Option.none

/-- `waitcmp` ends: pD in every executing lane. -/
def State.waitcmpEnd (s : State) (x : Opnds) (r : Bool) : State :=
  let ex := s.exe x.g
  let s := match ex with
    | t :: _ => s.pilotFree s.cd s.sel.blk t
    | [] => s
  ((s.advance x.ext.bytes).write x.d 1 (ex.map fun t => (t, if r then 1 else 0))).endTurn

/-- `waitcmp` (R285). -/
def execWaitcmp (x : Opnds) (t : ATy) (cc : Cc) (s : State) : Host.Outcome State Fault Refusal :=
  s.issue (.waitcmp x t cc) fun x s =>
    let i := Instr.waitcmp x t cc
    let ex := s.exe x.g
    let len := x.ext.bytes
    match ex with
    | [] => (s.advance len).endTurn
    | l :: _ =>
      match (s.cb.thr l).wait.waitcmpDone s.clk with
      | some r => s.waitcmpEnd x r
      | none =>
        let n := 4 * t.regs
        let a := .ofNat 64 (s.src x.ext .b64 l x.a) + disp x.ext
        let va := a.toNat
        match addrCheck a n { cause := 0 } with
        | some f => (s.advanceBut len ex).endTurn.finishFaults len (ex.map fun u => (u, f))
        | none =>
          match s.translate s.cb.who va n .read false with
          | (s, .error e) => (s.onceStop i len 0 ex va { cause := 0 } e).endTurn
          | (s, .ok p) =>
            let pa := p.pa + (va - p.va)
            match s.loadAt s.cb.who p pa n with
            | (s, .error e) => (s.onceStop i len 0 ex va { cause := 0 } e).endTurn
            | (s, .ok bs) =>
              let s := s.modCb fun b => ex.foldl (fun b u => b.raise u p.share) b
              let v := s.src x.ext (.int t.bits true) l x.b
              if waitHolds t cc (ofBytes bs) v then s.waitcmpEnd x true
              else
                let due := match x.c with
                  | .null => none
                  | c => some (s.clk + s.src x.ext .b32 l c)
                if due == some s.clk then s.waitcmpEnd x false
                else (s.hold ex (.waitcmp due none (.ofNat 64 p.pte) p.va pa t cc v)).pilotTake s.cd pa s.sel.blk l

/-- The waiting `waitcmp` of a thread, with the PC and the group of its issue: its own, or the one that a swap-out interrupted
(R287). -/
def Thread.watching (t : Thread) : Wait × DWord × Nat :=
  match t.intr with
  | some i => (i.wait, i.pc, i.group)
  | none => (t.wait, t.pc, t.group)

/-- The outcome of a `waitcmp` is known. -/
def Wait.settleCmp (o : Bool) : Wait → Wait
  | .waitcmp d Option.none pte va pa t cc v => .waitcmp d (some o) pte va pa t cc v
  | w => w

/-- The outcome of a thread's waiting issue is known to all its lanes; its entry is freed. -/
def State.cmpKnown (s : State) (blk thr : Nat) (o : Bool) : State :=
  let me := ((s.blk blk).thr thr).watching
  (s.modBlk blk fun b => { b with threads := b.threads.map fun x =>
    if x.watching.2 == me.2 then
      { x with wait := if x.intr.isNone then x.wait.settleCmp o else x.wait
               intr := x.intr.map fun i => { i with wait := i.wait.settleCmp o } }
    else x }).pilotFree ((s.blk blk).core / 48) blk thr

/-- Waiting issues whose page is no longer to be used free their entries and read afresh (R278, R287, R353, log entry 48): `hit` is given the
block, and the page's virtual base, size and physical base. -/
def State.unwatch (s : State) (hit : Block → Nat → Nat → Nat → Bool) : State :=
  s.blocks.foldl (fun s (e : Nat × Block) =>
    let out (t : Thread) : Bool := match t.watching.1 with
      | .waitcmp _ none pte va pa _ _ _ =>
        let size := pageBytes (field pte.toNat 14 4)
        hit e.2 va size (pa / size * size)
      | _ => false
    match (List.range e.2.threads.length).filter fun t => out (e.2.thr t) with
    | [] => s
    | ts => (ts.foldl (fun s t => s.pilotFree (e.2.core / 48) e.1 t) s).modBlk e.1 fun b => b.modThrs ts fun _ t =>
        match t.intr with
        | none => { t with wait := .none }
        | some i => { t with intr := some { i with wait := .none } }) s

/-- A re-check of a waiting `waitcmp` (R286): the location is read at the die; where the condition holds the issue is readied. -/
def State.recheck (s : State) (blk thr : Nat) : State :=
  let b := s.blk blk
  match (b.thr thr).watching.1 with
  | .waitcmp _ none pte va pa t cc v =>
    let p := { pageOf pte.toNat va 0 with pa := pa / pageBytes (field pte.toNat 14 4) * pageBytes (field pte.toNat 14 4) }
    match s.loadAt b.who p pa (4 * t.regs) with
    | (s, .ok bs) => if waitHolds t cc (ofBytes bs) v then s.cmpKnown blk thr true else s
    | (s, .error _) => s
  | _ => s

/-- WAITCMP_RECHECK (R286): a write to the granule has become visible at the die; the entry is armed. -/
def execWaitcmpRecheck (blk thr : Nat) (s : State) : Host.Outcome State Fault Refusal :=
  .next (if (s.die ((s.blk blk).core / 48)).pilots.any fun e => e.blk == blk && e.thr == thr then s.recheck blk thr else s)

/-- WAITCMP_POLL (R286): the 2 µs poll of an issue that found no entry; it takes one that has freed. -/
def execWaitcmpPoll (blk thr : Nat) (s : State) : Host.Outcome State Fault Refusal :=
  let d := (s.blk blk).core / 48
  .next (if (s.die d).pilots.any fun e => e.blk == blk && e.thr == thr then s
    else
      let s := s.recheck blk thr
      match ((s.blk blk).thr thr).watching.1 with
      | .waitcmp _ none _ _ pa _ _ _ => s.pilotTake d pa blk thr
      | _ => s)

/-- WAITCMP_TIMEOUT (R285, R287): the bound has passed without the condition, in clocks of residence. -/
def execWaitcmpTimeout (blk thr : Nat) (s : State) : Host.Outcome State Fault Refusal :=
  let b := s.blk blk
  let clk := (s.die (b.core / 48)).clk
  match (b.thr thr).watching.1 with
  | .waitcmp (some due) none _ _ _ _ _ _ =>
    if due ≤ clk && b.state.issues && !b.savedByHw && (b.thr thr).intr.isNone then .next (s.cmpKnown blk thr false) else .next s
  | _ => .next s

/-! ### Fences and durability (R289 to R292) -/

/-- `fence` (R289): each executing lane is held past the instruction until its fence completes. -/
def execFence (x : Opnds) (m : BitVec 3) (s : State) : Host.Outcome State Fault Refusal :=
  s.issue (.fence x m) fun x s =>
    match s.exe x.g with
    | [] => s.advance x.ext.bytes
    | ex => (s.advance x.ext.bytes).fenceLanes s.sel.blk s.sel.act ex fun _ => m.toNat

/-- `pbar` (R292). -/
def execPbar (x : Opnds) (wait : Bool) (s : State) : Host.Outcome State Fault Refusal :=
  s.issue (.pbar x wait) fun x s =>
    match s.exe x.g with
    | [] => s.advance x.ext.bytes
    | ex =>
      let mine (e : Persist) : Bool := e.blk == s.sel.blk && ex.contains e.thr
      if wait && s.hub.persists.any mine then s.stall
      else
        let s := s.modHub fun h => { h with persists := h.persists.map fun e => if mine e then { e with age := e.age + 1 } else e }
        ((s.advance x.ext.bytes).modCb fun b => b.modThrs ex fun _ t => { t with h := 5 }).irrevoke s.sel.blk

/-- `fhz` (R291). -/
def execFhz (x : Opnds) (s : State) : Host.Outcome State Fault Refusal :=
  s.alu (.fhz x) 1 fun _ s t => ((s.cb.thr t).h, 0)

/-! ### Range maintenance (R293) -/

/-- The three range instructions: once per issue, the faults taken by every executing lane. -/
def State.rangeOp (s : State) (i : Instr) (k : Nat) : Host.Outcome State Fault Refusal :=
  s.issue i fun x s =>
    let ex := s.exe x.g
    let rs := (ex.take 1).map fun t =>
      ({ thr := t, ea := .ofNat 64 (s.src x.ext .b64 t x.a) + disp x.ext, data := 0, data2 := 0, bad := none } : Req)
    let n := match ex with
      | t :: _ => s.src x.ext .b32 t x.b
      | [] => 0
    if n = 0 then s.advance x.ext.bytes
    else s.access i x.ext.bytes (.range k n) false false (some ex) { cause := 0 } .discard 1 rs fun s _ => s

/-- `clean.r` (R293). -/
def execCleanR (x : Opnds) (s : State) : Host.Outcome State Fault Refusal := s.rangeOp (.cleanR x) 0

/-- `inv.r` (R293). -/
def execInvR (x : Opnds) (s : State) : Host.Outcome State Fault Refusal := s.rangeOp (.invR x) 1

/-- `flush.r` (R293). -/
def execFlushR (x : Opnds) (s : State) : Host.Outcome State Fault Refusal := s.rangeOp (.flushR x) 2

end Sys2Proof.Machine
end

