-- ==== Sys2Proof/Machine/ScratchOps.lean ====
section
/-! DEFINITION. ScratchOps.lean: the instructions that reach scratchpad: those of the core (R161 to R164) and those that reach a
cohort member's (R243 to R249). -/

namespace Sys2Proof.Machine

/-! ### Checks and accesses shared by every form -/

/-- The scratch address of a lane (R161): bits [31:0] of base + offset + displacement. -/
def State.spAddr (s : State) (x : Opnds) (zx : Bool) (t : Nat) : Nat := (s.memAddr x zx t).toNat % 2 ^ 32

/-- The checks of R161 against an allocation, in their order. -/
def Block.padCheck (b : Block) (a size : Nat) (clob : Bool) (lf : LF) : Option LF :=
  let lf := { lf with addr := .ofNat 64 a }
  if b.scratchSize < a + size then some { lf with cause := 0x17 }
  else if a % size != 0 then some { lf with cause := 0x10 }
  else if clob && b.clobbers a size then some { lf with cause := 0x19 }
  else none

/-- Bytes of a block's scratchpad lie in a range that the scoreboard holds for a copy in flight (R162, R256). -/
def State.sbBusy (s : State) (bid a size : Nat) : Bool :=
  (s.core (s.blk bid).core).sb.any fun e => e.blk == bid && decide (a ≤ e.hi) && decide (e.lo < a + size)

/-- A load of `size` bytes in each thread named, served to completion (R187, R188): the values, or the trigger of the
consumption: 2 a reconstruction fault, 0 poison (R185, R196, R270). -/
def State.padLoad (s : State) (bid size : Nat) (as : List (Nat × Nat)) : State × Except Nat (List (Nat × Nat)) :=
  let b := s.blk bid
  let sp := (s.core b.core).scratch
  let words := ((as.flatMap fun e => wordsOf e.2 size).eraseDups).map b.word
  match s.padServe b (loadReqs b size (as.map fun e => (e.2, homeLane e.1)) []) words with
  | (s1, some trig) => (s1, .error trig)
  | (s1, none) => (s1, .ok (as.map fun e => (e.1, ofBytes (scratchBytes sp b e.2 size))))

/-- A store by each thread named, a later lane's bytes over an earlier lane's, with the numbers of the data's poisoned words (R104, R185, R189). -/
def State.padPut (s : State) (bid : Nat) (as : List (Nat × Nat × List Byte × List Nat)) : State :=
  match as with
  | [] => s
  | _ => s.padStore bid (mergeReqs (as.flatMap fun e => storeReqs (s.blk bid) e.2.1 e.2.2.1 e.2.2.2 (homeLane e.1)))

/-- A store of sound data by each thread named. -/
def State.padStores (s : State) (bid : Nat) (as : List (Nat × Nat × List Byte)) : State :=
  s.padPut bid (as.map fun e => (e.1, e.2.1, e.2.2, []))

/-- The accesses of threads raise their fence horizons (R288). -/
def State.raiseAll (s : State) (ts : List Nat) (h : Nat) : State := s.modCb fun b => ts.foldl (fun b t => b.raise t h) b

/-- Lanes with a checked scratch address. -/
structure PadReq where
  thr : Nat
  addr : Nat
  bad : Option LF
  deriving DecidableEq, Repr

/-- The lanes that pass their checks, with their addresses. -/
def PadReq.good (rs : List PadReq) : List (Nat × Nat) := rs.filterMap fun r => if r.bad.isNone then some (r.thr, r.addr) else none

/-- The lanes that fail a check. -/
def PadReq.faults (rs : List PadReq) : List (Nat × LF) := rs.filterMap fun r => r.bad.map fun f => (r.thr, f)

/-! ### An access of a partition, over as many passes as it needs (R186) -/

/-- What a lane's access of scratchpad has given in an earlier pass: its value and its flags. -/
def State.padHas (s : State) (t : Nat) : Option (Nat × BitVec 6) :=
  match (s.cb.thr t).wait with
  | .access (some (.done v f _)) => some (v, f)
  | _ => none

/-- The issue's access is served in one go: no lane is put off, and none was served before. -/
def State.padWhole (s : State) : Bool := s.sel.later.isEmpty && s.sel.act.all fun t => (s.padHas t).isNone

/-- A lane's check of R161; a lane that an earlier pass has served has passed it. -/
def State.padTest (s : State) (t a size : Nat) (clob : Bool) (lf : LF) : Option LF :=
  if !s.padWhole && (s.padHas t).isSome then none else s.cb.padCheck a size clob lf

/-- The lanes whose requests are served now, and whether they are all that are left: lanes put off wait, but for one whose word is that of a lane
served now (R186, R187). -/
def State.padTurn (s : State) (size : Nat) (good : List (Nat × Nat)) : List (Nat × Nat) × Bool :=
  if s.padWhole then (good, true)
  else
    let todo := good.filter fun e => (s.padHas e.1).isNone
    let unit (a : Nat) : Nat := a / max 4 size
    let now := todo.filter fun e => !s.sel.later.contains e.1 || todo.any fun f => !s.sel.later.contains f.1 && unit f.2 == unit e.2
    (now, now.length == todo.length)

/-- What all lanes have been given, in the order of `good`: `vs` now, the others in earlier passes. -/
def State.padBack {α : Type} (s : State) (good : List (Nat × Nat)) (vs : List (Nat × α)) (old : Nat × BitVec 6 → α) : List (Nat × α) :=
  if s.padWhole then vs
  else good.filterMap fun e => (((vs.find? fun v => v.1 == e.1).map (·.2)).or ((s.padHas e.1).map old)).map fun v => (e.1, v)

/-- The issue is not served whole: its lanes stay inside it, with what they have been given. -/
def State.padHold (s : State) (vs : List (Nat × Nat × BitVec 6)) : State :=
  (s.modCb fun b => b.modThrs s.sel.act fun t x => { x with
    group := 1 + s.sel.act.headD 0
    wait := match vs.find? fun v => v.1 == t with
      | some v => .access (some (.done v.2.1 v.2.2 0))
      | none => match x.wait with
        | .access m => .access m
        | _ => .access none }).endTurn

/-! ### `lds`, `sts`, `atoms`, `spstat` (R161 to R164) -/

/-- The end of a load of the threads `ex` at a scratchpad that answered `got`: the values, then the lane faults. -/
def State.padLoaded (s : State) (x : Opnds) (w : MWidth) (rs : List PadReq) (h : Nat) (got : Except Nat (List (Nat × Nat))) : State :=
  let len := x.ext.bytes
  match got with
  | .error trig => s.consume s.sel.blk trig 0
  | .ok vs =>
    let fs := PadReq.faults rs
    (((s.advanceBut len (fs.map (·.1))).write x.d w.regs (vs.map fun v => (v.1, w.extended v.2))).raiseAll (vs.map (·.1)) h).finishFaults len fs

/-- `lds` (R161, R162). -/
def execLds (x : Opnds) (w : MWidth) (zx : Bool) (s : State) : Host.Outcome State Fault Refusal :=
  s.issue (.lds x w zx) fun x s =>
    let rs := (s.exe x.g).map fun t =>
      let a := s.spAddr x zx t
      ({ thr := t, addr := a, bad := s.padTest t a w.size false (widthLF w false) } : PadReq)
    let good := PadReq.good rs
    if good.any fun e => s.sbBusy s.sel.blk e.2 w.size then s.stall
    else
      let turn := s.padTurn w.size good
      match s.padLoad s.sel.blk w.size turn.1 with
      | (s1, .ok vs) =>
        if turn.2 then s1.padLoaded x w rs 1 (.ok (s.padBack good vs (·.1))) else s1.padHold (vs.map fun v => (v.1, v.2, 0))
      | (s1, .error trig) => s1.padLoaded x w rs 1 (.error trig)

/-- `sts` (R161, R162, R173). -/
def execSts (x : Opnds) (w : MWidth) (zx : Bool) (s : State) : Host.Outcome State Fault Refusal :=
  s.issue (.sts x w zx) fun x s =>
    let rs := (s.exe x.g).map fun t =>
      let a := s.spAddr x zx t
      ({ thr := t, addr := a, bad := s.padTest t a w.size true (widthLF w true) } : PadReq)
    let good := PadReq.good rs
    if good.any fun e => s.sbBusy s.sel.blk e.2 w.size then s.stall
    else
      let turn := s.padTurn w.size good
      let s1 := s.padStores s.sel.blk
        (turn.1.map fun e => (e.1, e.2, toBytes w.size (s.src x.ext (.int (8 * w.size) true) e.1 x.c)))
      let fs := PadReq.faults rs
      if !turn.2 then s1.padHold (turn.1.map fun e => (e.1, 0, 0))
      else ((s1.advanceBut x.ext.bytes (fs.map (·.1))).raiseAll (good.map (·.1)) 1).finishFaults x.ext.bytes fs

/-- What the lanes of an `atoms` have done so far: the words they have changed, by address, and each lane's old value and
flags. -/
structure AtomsAcc where
  words : Sparse Word
  olds : List (Nat × Nat × BitVec 6)

/-- One more lane's step of an `atoms` (R163): a later lane sees the earlier lanes' results. -/
def AtomsAcc.add (acc : AtomsAcc) (t : ATy) (op : AOp) (held : Nat → Word) (thr a b c : Nat) : AtomsAcc :=
  let ws := (List.range t.regs).map fun k => (acc.words.look (a + 4 * k)).getD (held (a + 4 * k))
  let old := ofWords ws
  let r := atomStep t op old b c
  { olds := acc.olds ++ [(thr, old, r.2)]
    words := match r.1 with
      | none => acc.words
      | some v => ((toWords t.regs v).zipIdx).foldl (fun (m : Sparse Word) e => m.put (a + 4 * e.2) e.1) acc.words }

/-- The addresses whose words an `atoms` must reconstruct before it can read them (R190, R194). -/
def State.atomsRebuilt (s : State) (size : Nat) (good : List (Nat × Nat)) : List Nat :=
  (good.flatMap fun e => (wordsOf e.2 size).filter fun a => (s.core s.cc).scratch.mustRebuild (s.cb.word a)).eraseDups

/-- The lanes of an `atoms` one after another, in home-lane order (R163). -/
def State.atomsAcc (s : State) (x : Opnds) (t : ATy) (op : AOp) (good : List (Nat × Nat)) : AtomsAcc :=
  let ty : OpTy := if t == .f32 then .fp .f32 else .int t.bits true
  good.foldl (fun (acc : AtomsAcc) e =>
    acc.add t op (fun a => (s.core s.cc).scratch.peek (s.cb.word a)) e.1 e.2 (s.src x.ext ty e.1 x.b) (s.src x.ext ty e.1 x.c))
    { words := [], olds := [] }

/-- The words that an `atoms` reads: those it must reconstruct first, then each in its own bank (R190, R194). -/
def State.atomsRead (s : State) (size : Nat) (good : List (Nat × Nat)) : State :=
  let rebuilt := s.atomsRebuilt size good
  let words := ((good.flatMap fun e => wordsOf e.2 size).eraseDups).filter fun a => !rebuilt.contains a
  s.modPad s.cc fun sp =>
    (words.map s.cb.word).foldl Scratchpad.noteRead (sp.load (updateReqs s.cb 4 (rebuilt.map fun a => (a, 0))))

/-- The store requests of an `atoms`: one for each word that its lanes name, under the key of the first of them, with what the lanes have
made of it (R187, R190). -/
def State.atomsStores (s : State) (size : Nat) (good : List (Nat × Nat)) (acc : AtomsAcc) : List SpStore :=
  let key (a : Nat) : Nat := ((good.find? fun e => (wordsOf e.2 size).contains a).map fun e => homeLane e.1).getD 0
  sortBy (·.key) (((good.flatMap fun e => wordsOf e.2 size).eraseDups).map fun a =>
    ({ word := s.cb.word a, value := (acc.words.look a).getD ((s.core s.cc).scratch.peek (s.cb.word a)), mask := 15, poison := false
       key := key a, held := false } : SpStore))

/-- `atoms` (R163, R190). A lane fault of it records width 0 and no store: its `fn` has no width field, and R177 does not say (DESIGN CHOICE,
log entry 45). -/
def execAtoms (x : Opnds) (t : ATy) (op : AOp) (s : State) : Host.Outcome State Fault Refusal :=
  s.issue (.atoms x t op) fun x s =>
    let size := 4 * t.regs
    let bid := s.sel.blk
    let rs := (s.exe x.g).map fun l =>
      let a := (s.src x.ext .b32 l x.a + (disp x.ext).toNat) % 2 ^ 32
      ({ thr := l, addr := a, bad := s.padTest l a size true { cause := 0 } } : PadReq)
    let good := PadReq.good rs
    if good.any fun e => s.sbBusy bid e.2 size then s.stall
    else
      let b := s.cb
      let sp := (s.core b.core).scratch
      let turn := s.padTurn size good
      let s1 := s.atomsRead size turn.1
      let words := ((turn.1.flatMap fun e => wordsOf e.2 size).eraseDups).map b.word
      if words.any fun w => (sp.read w).isNone then s1.consume bid 2 0
      else if words.any sp.poisoned then s1.consume bid 0 0
      else
        let acc := s.atomsAcc x t op turn.1
        let s2 := s1.padStore bid (s.atomsStores size turn.1 acc)
        let fs := PadReq.faults rs
        let olds := s.padBack good acc.olds id
        let s3 := (s2.advanceBut x.ext.bytes (fs.map (·.1))).write x.d t.regs (olds.map fun o => (o.1, o.2.1))
        if !turn.2 then s2.padHold acc.olds
        else ((s3.flagLanes (olds.map fun o => (o.1, o.2.2))).raiseAll (good.map (·.1)) 1).finishFaults x.ext.bytes fs

/-- A counter of the core's scratchpad by its selector (R164, R200). -/
def Scratchpad.counter (sp : Scratchpad) (sel : Nat) : Nat :=
  match sel with
  | 0 => sp.reconstructed
  | 1 => sp.staleWaits
  | 2 => sp.queueStalls
  | 3 => sp.reconFaults
  | _ => maskOf ((List.range 16).filter sp.degraded)

/-- `spstat` (R164). -/
def execSpstat (x : Opnds) (sel : BitVec 4) (s : State) : Host.Outcome State Fault Refusal :=
  s.once (.spstat x sel) (if sel.toNat < 3 then 2 else 1) fun _ s _ => (s.core s.cc).scratch.counter sel.toNat

/-! ### Remote accesses (R243 to R249) -/

/-- A remote instruction's parts: its operands, width, offset extension, whether it stores, the slot it arrives on, and whether it
only arrives. -/
structure Rem where
  x : Opnds
  w : MWidth
  zx : Bool
  store : Bool
  slot : Option Nat
  only : Bool
  deriving DecidableEq, Repr

/-- `rm.arr` and `rm.slot` (R243). -/
def remSlot (e : Ext) : Option Nat :=
  match e with
  | .e128 _ hi => if bitAt hi.toNat 4 then some (hi.toNat % 16) else none
  | _ => none

/-- The parts of a remote instruction. -/
def Rem.of : Instr → Option Rem
  | .ldsRem x w zx _ _ => some { x := x, w := w, zx := zx, store := false, slot := none, only := false }
  | .stsRem x w zx _ _ => some { x := x, w := w, zx := zx, store := true, slot := remSlot x.ext, only := false }
  | .stsRemArr x _ _ _ => some { x := x, w := .n8, zx := false, store := false, slot := remSlot x.ext, only := true }
  | _ => none

/-- The scratch address of a remote access (R243): `rm.disp` stands in the 128-bit form too. -/
def State.remAddr (s : State) (r : Rem) (t : Nat) : Nat :=
  let d : DWord := match r.x.ext with
    | .e128 lo _ => sext32 lo
    | _ => 0
  (s.memAddr r.x r.zx t + d).toNat % 2 ^ 32

/-- The target core of a remote access (R243): core k, or %core xor k, of the issuer's cluster. -/
def State.peerCore (s : State) (peer : BitVec 2) (xr : Bool) : Nat :=
  s.cc / 4 * 4 + (if xr then (s.cc % 4) ^^^ peer.toNat else peer.toNat)

/-- Two blocks are of one cohort (R241): of one launch, with equal fields 2 to 5. -/
def Block.sameCohort (a b : Block) : Bool :=
  a.grid == b.grid && a.wid.toNat / 2 ^ a.hdr.offset 2 == b.wid.toNat / 2 ^ b.hdr.offset 2

/-- The resident or saved member of a block's cohort on a core (R245). -/
def State.memberAt (s : State) (bid c : Nat) : Option Nat :=
  (s.blocks.find? fun e => e.2.core == c && (e.2.state.resident || e.2.state == .saved) && e.2.sameCohort (s.blk bid)).map (·.1)

/-- A saved member has a valid swap entry (R248). -/
def State.swapValid (s : State) (bid : Nat) : Bool :=
  (s.cluster ((s.blk bid).core / 4)).swap.any fun e => e.blk == bid && e.valid && !e.restoring

/-- The remote access can be performed now, as far as the state of its target goes (R246, R248). -/
def State.remoteGo (s : State) (r : Rem) (tgt : Nat) : Bool :=
  (s.blk tgt).state.issues || ((s.blk tgt).state == .saved && r.only && s.swapValid tgt)

/-- A lane fault in every executing lane, with no effect. -/
def State.uniformFault (s : State) (x : Opnds) (lf : LF) : State :=
  let ex := s.exe x.g
  (s.advanceBut x.ext.bytes ex).finishFaults x.ext.bytes (ex.map fun t => (t, lf))

/-- The lanes of a remote access with their scratch addresses, their data and which of its registers are poisoned, all as of the issue (R132, R247). -/
def State.remLanes (s : State) (r : Rem) : List (Nat × Nat × Nat × List Nat) :=
  (s.exe r.x.g).map fun t =>
    (t, s.remAddr r t, if r.store then s.src r.x.ext (.int (8 * r.w.size) true) t r.x.c else 0,
      if r.store then s.badRegs t r.x.c r.w.regs else [])

/-- A remote access is performed at its target (R244, R245 steps 2 to 4, R247): nothing where a range scoreboard holds it. -/
def State.remoteDo (s : State) (r : Rem) (tgt : Nat) (ls : List (Nat × Nat × Nat × List Nat)) : Option State :=
  let x := r.x
  let len := x.ext.bytes
  let ex := ls.map (·.1)
  let tb := s.blk tgt
  let lf := widthLF r.w r.store
  match r.slot.filter fun n => (Sparse.look tb.slots n).isNone with
  | some n => some (s.uniformFault x { lf with cause := 0x18, slot := n })
  | none =>
    let rs : List PadReq := if r.only then [] else ls.map fun e => { thr := e.1, addr := e.2.1, bad := tb.padCheck e.2.1 r.w.size r.store lf }
    let good := PadReq.good rs
    let fs := PadReq.faults rs
    if good.any fun e => s.sbBusy tgt e.2 r.w.size then none
    else if !r.store && !r.only then
      let (s1, got) := s.padLoad tgt r.w.size good
      some (s1.padLoaded x r.w rs 2 got)
    else
      let s1 := s.padPut tgt ((ls.filter fun e => good.any fun g => g.1 == e.1).map fun e => (e.1, e.2.1, toBytes r.w.size e.2.2.1, e.2.2.2))
      let s1 := if good.isEmpty then s1 else s1.irrevoke tgt
      let s1 := (if good.isEmpty && r.slot.isNone then s1 else s1.irrevoke s.sel.blk).raiseAll
        (if r.slot.isSome then ex else good.map (·.1)) 2
      match r.slot with
      | none => some ((s1.advanceBut len (fs.map (·.1))).finishFaults len fs)
      | some n =>
        let bytes : Int := if r.only then 0 else -((good.length * r.w.size : Nat) : Int)
        if s1.arriveOk tgt n bytes then
          let s2 := s1.arriveFrom s.sel.blk tgt n bytes
          some (if s2.cb.state.issues then (s2.advanceBut len (fs.map (·.1))).finishFaults len fs else s2)
        else
          some ((s1.advanceBut len ex).finishFaults len (ex.map fun t =>
            (t, ((fs.find? fun f => f.1 == t).map (·.2)).getD { lf with cause := 0x18, slot := n })))

/-- The flits of an access that has come through, and of its reply: the failures on their links count no more (R240). Links of a cluster
are numbered 4 × sending core + receiving core. -/
def State.linkGood (s : State) (a c : Nat) : State :=
  if (s.cluster (a / 4)).retries.isEmpty then s
  else
    let out := 4 * (a % 4) + c % 4
    let back := 4 * (c % 4) + a % 4
    s.modCluster (a / 4) fun k => { k with retries := Sparse.del (Sparse.del k.retries out) back }

/-- A remote access that has come through. -/
def State.remoteSent (s : State) (r : Rem) (tgt : Nat) (ls : List (Nat × Nat × Nat × List Nat)) : Option State :=
  (s.remoteDo r tgt ls).map fun t => t.linkGood s.cc (s.blk tgt).core

/-- A remote fill of an executing lane has still to read bytes of its peer that a store would change: it observes no later store of its
own lanes (R217). -/
def State.fillAhead (s : State) (r : Rem) (c : Nat) (ls : List (Nat × Nat × Nat × List Nat)) : Bool :=
  r.store && (List.range 4).any fun q =>
    let p := s.part (4 * s.cc + q)
    p.fills.any fun f => f.blk == s.sel.blk && match f.remote with
      | some (peer, a) => peer == c % 4 && ls.any fun e => f.thrs.contains e.1 && e.2.1 < a + f.len && a < e.2.1 + r.w.size
      | none => false

/-- A request of the same bundle stands at a port before this one (R246, R249). -/
def portBehind (port : List RemoteReq) (sel : Sel) : Bool := port.any fun q => q.sel.blk == sel.blk && q.sel.ctx == sel.ctx

/-- A remote instruction at its issue (R245, R246). -/
def State.remoteOp (s : State) (i : Instr) (peer : BitVec 2) (xr : Bool) : Host.Outcome State Fault Refusal :=
  s.issue i fun x s =>
    match Rem.of i with
    | none => s
    | some r =>
      let r := { r with x := x }
      let ex := s.exe x.g
      let c := s.peerCore peer xr
      if ex.isEmpty then s.advance x.ext.bytes
      else
        match s.memberAt s.sel.blk c with
        | none => s.uniformFault x { widthLF r.w r.store with cause := 0x1B }
        | some tgt =>
          let ls := s.remLanes r
          if s.fillAhead r c ls then s.stall
          else if s.remoteGo r tgt && !portBehind (s.core c).port s.sel then (s.remoteSent r tgt ls).getD s.stall
          else (s.hold ex .remote).modCore c fun k => { k with port := k.port ++ [{ sel := s.sel, i := i, target := tgt, lanes := ls }] }

/-- `lds.rem` (R243, R244). -/
def execLdsRem (x : Opnds) (w : MWidth) (zx : Bool) (peer : BitVec 2) (xr : Bool) (s : State) : Host.Outcome State Fault Refusal :=
  s.remoteOp (.ldsRem x w zx peer xr) peer xr

/-- `sts.rem` (R243, R244). -/
def execStsRem (x : Opnds) (w : MWidth) (zx : Bool) (peer : BitVec 2) (xr : Bool) (s : State) : Host.Outcome State Fault Refusal :=
  s.remoteOp (.stsRem x w zx peer xr) peer xr

/-- `sts.rem.arr` (R243, R244). -/
def execStsRemArr (x : Opnds) (zx : Bool) (peer : BitVec 2) (xr : Bool) (s : State) : Host.Outcome State Fault Refusal :=
  s.remoteOp (.stsRemArr x zx peer xr) peer xr

/-- A held request is performed, if it can be: its target is gone and the issuer faults, or the target takes it (R246). -/
def State.remoteServe (s : State) (q : RemoteReq) : Option State :=
  let old := s.sel
  let s1 := { s with sel := q.sel }
  let back (t : State) : State := { t with sel := old }
  if !(s.blk q.sel.blk).state.issues then none
  else
    match Rem.of q.i with
    | none => none
    | some r =>
      let tb := s.blk q.target
      if !tb.state.resident && tb.state != .saved then
        some (back (s1.uniformFault r.x { widthLF r.w r.store with cause := 0x1B }))
      else if s1.remoteGo r q.target then (s1.remoteSent r q.target q.lanes).map back
      else none

/-- The requests of a port in order: each that has none of its bundle waiting before it is performed if it can be, up to `n` of
them (R246, R249). -/
def State.servePort (c : Nat) : Nat → List RemoteReq → List RemoteReq → State → State
  | _, [], _, s => s
  | 0, _, _, s => s
  | n + 1, q :: qs, kept, s =>
    if portBehind kept q.sel then State.servePort c (n + 1) qs (kept ++ [q]) s
    else
      match s.remoteServe q with
      | some s' => State.servePort c n qs kept (s'.modCore c fun k => { k with port := k.port.erase q })
      | none => State.servePort c (n + 1) qs (kept ++ [q]) s

/-- REMOTE_ACCESS_AT_TARGET (R244): the oldest access that can be performed at a core's port is performed there. -/
def execRemoteAccessAtTarget (core : Nat) (s : State) : Host.Outcome State Fault Refusal :=
  .next (State.servePort core 1 (s.core core).port [] s)

/-- HELD_ACCESS_RELEASE (R246): the accesses held at a core's port proceed, in order. -/
def execHeldAccessRelease (core : Nat) (s : State) : Host.Outcome State Fault Refusal :=
  .next (State.servePort core (s.core core).port.length (s.core core).port [] s)

end Sys2Proof.Machine
end

