-- ==== Sys2Proof/Machine/Barrier.lean ====
section
/-! DEFINITION. Barrier.lean: barrier objects (R165 to R174, R412) and stage rings (R175). An operation that waits stands at its
instruction and is executed again once its wait has ended; its arrival is not made again (R170, log entry 8). -/

namespace Sys2Proof.Machine

/-- BARRIER_STATE of a slot (R168, R177). -/
def slotLF (n : Nat) : LF := { cause := 0x18, slot := n }

/-- The signed byte count or delta of a barrier instruction. -/
def State.barBytes (s : State) (x : Opnds) : Int :=
  match s.first x.g with
  | some l => readInt 32 true (s.src x.ext .b32 l x.a)
  | none => 0

/-- Lanes wait at the instruction, which is `len` bytes long, with a wait of their own each. -/
def State.holdEach (s : State) (len : Nat) (ex : List Nat) (w : Nat → Wait) : State :=
  let g := 1 + s.sel.act.headD 0
  (s.modCb fun b => (b.modThrs s.sel.act fun _ t => { t with group := g }).modThrs ex fun i t =>
    { t with wait := w i, parkLen := len }).endTurn

/-- `bbind` (R168, R169). Its faults record width 0 and no store, since it makes no store (DESIGN CHOICE, log entry 53). -/
def execBbind (x : Opnds) (n : BitVec 4) (all : Bool) (s : State) : Host.Outcome State Fault Refusal :=
  s.issue (.bbind x n all) fun x s =>
    let ex := s.exe x.g
    let bid := s.sel.blk
    match ex with
    | [] => s.advance x.ext.bytes
    | l :: _ =>
      let a := s.src x.ext .b32 l x.a
      let b := s.cb
      match b.padCheck a 16 false { cause := 0 } with
      | some f => s.uniformFault x f
      | none =>
        if s.sbBusy bid a 16 then s.stall
        else
        match s.padLoad bid 16 [(l, a)] with
        | (s1, .error trig) => s1.consume bid trig 0
        | (s1, .ok _) =>
          let r := s.barAt bid a
          if (Sparse.look b.slots n.toNat).isSome || r.bound || r.rsvd || r.expected < r.pending then s1.uniformFault x (slotLF n.toNat)
          else
            let s2 := s1.setBar bid a { r with bound := true, slot := n.toNat, tmo := false }
            let members := if all then b.open else []
            ((s2.modCb fun b => { b with
              slots := Sparse.put b.slots n.toNat { addr := a, members := members, arrived := [], updated := false, phases := 0, base := false } }).advance
                x.ext.bytes).raiseAll ex 1

/-- A lane waits on a slot whose phase has not completed. -/
def Wait.onSlot (n : Nat) : Wait → Bool
  | .barrb k r | .bwait k r => k == n && !r
  | .bwaitt k _ o => k == n && o.isNone
  | _ => false

/-- The lanes that wait on a slot when it is unbound raise BARRIER_STATE at their waiting instructions; one whose wait a pre-emption has
interrupted does so when it returns to it (R412). -/
def State.endWaits (s : State) (bid n : Nat) : State :=
  (s.modBlk bid fun b => { b with threads := b.threads.map fun t => { t with
    intr := t.intr.map fun i => if i.wait.onSlot n then { i with wait := .unbound n } else i } }).faultWaits bid n (Wait.onSlot n)

/-- A copy that names the slot is in flight (R169). -/
def State.copyNames (s : State) (bid n : Nat) : Bool :=
  (s.blk bid).copies.any (fun c => c.slot == some n)
    || (s.die ((s.blk bid).core / 48)).bulk.any fun c => c.blk == bid && (match c.kind with | .fan _ _ _ _ k => k == some n | _ => false)

/-- `bunbind` (R169, R412). -/
def execBunbind (x : Opnds) (n : BitVec 4) (s : State) : Host.Outcome State Fault Refusal :=
  s.issue (.bunbind x n) fun x s =>
    let ex := s.exe x.g
    let bid := s.sel.blk
    if ex.isEmpty then s.advance x.ext.bytes
    else
      match s.barOf bid n.toNat with
      | none => s.uniformFault x (slotLF n.toNat)
      | some (sl, r) =>
        if s.copyNames bid n.toNat then s.stall
        else
          let s1 := (s.barAccess bid sl.addr fun s => s.setBar bid sl.addr { r with bound := false, slot := 0 }).modCb fun b => { b with
            slots := Sparse.del b.slots n.toNat
            rings := b.rings.filter fun g => !(g.first ≤ n.toNat && n.toNat < g.first + 2 * g.depth) }
          (((s1.advance x.ext.bytes).raiseAll ex 1).endWaits bid n.toNat).settle bid

/-- The update of `barr` and `barrb` (R166 to R168, R170): the lanes that arrived, and the lane faults of the others. -/
def State.barrive (s : State) (bid n : Nat) (ex : List Nat) (bytes : Int) : State × List Nat × List (Nat × LF) :=
  let all := (s, [], ex.map fun t => (t, slotLF n))
  match s.barOf bid n with
  | none => all
  | some (sl, r) =>
    let good := ex.filter fun t => !sl.arrived.contains t
    let bad := ex.filter fun t => sl.arrived.contains t
    if good.isEmpty || !BarRec.inRange r.expected (r.pending - good.length) (r.bytes + bytes) then all
    else
      (s.barUpdate bid n (fun r => { r with pending := r.pending - good.length, bytes := r.bytes + bytes })
        (fun sl => { sl with
          members := sl.members ++ good.filter fun t => !sl.members.contains t
          arrived := sl.arrived ++ good }), good, bad.map fun t => (t, slotLF n))

/-- `barr` (R170). -/
def execBarr (x : Opnds) (n : BitVec 4) (s : State) : Host.Outcome State Fault Refusal :=
  s.issue (.barr x n) fun x s =>
    let ex := s.exe x.g
    if ex.isEmpty then s.advance x.ext.bytes
    else
      let (s1, good, bad) := s.barrive s.sel.blk n.toNat ex (s.barBytes x)
      ((s1.advanceBut x.ext.bytes (bad.map (·.1))).raiseAll good 1).finishFaults x.ext.bytes bad

/-- The phases that a slot has completed. -/
def State.phasesOf (s : State) (bid n : Nat) : Nat := ((s.barOf bid n).map fun e => e.1.phases).getD 0

/-- `barrb` (R170): lanes that have arrived wait; executed again when the phase has completed, they go on. -/
def execBarrb (x : Opnds) (n : BitVec 4) (s : State) : Host.Outcome State Fault Refusal :=
  s.issue (.barrb x n) fun x s =>
    let ex := s.exe x.g
    let len := x.ext.bytes
    if ex.isEmpty || ex.all fun t => (s.cb.thr t).wait == .barrb n.toNat true then s.advance len
    else
      let (s1, good, bad) := s.barrive s.sel.blk n.toNat ex (s.barBytes x)
      let s2 := s1.raiseAll good 1
      if good.isEmpty || s1.phasesOf s.sel.blk n.toNat != s.phasesOf s.sel.blk n.toNat then
        (s2.advanceBut len (bad.map (·.1))).finishFaults len bad
      else (s2.holdEach len good fun _ => .barrb n.toNat false).finishFaults len bad

/-- q of `bwait` in a lane (R170): bit 0 of its source. -/
def State.waitPhase (s : State) (x : Opnds) (t : Nat) : Bool := bitAt (s.src x.ext .b32 t x.a) 0

/-- `bwait` (R170). -/
def execBwait (x : Opnds) (n : BitVec 4) (s : State) : Host.Outcome State Fault Refusal :=
  s.issue (.bwait x n) fun x s =>
    let ex := s.exe x.g
    let len := x.ext.bytes
    if ex.isEmpty then s.advance len
    else if ex.all fun t => (s.cb.thr t).wait == .bwait n.toNat true then s.advance len
    else
      match s.barOf s.sel.blk n.toNat with
      | none => s.uniformFault x (slotLF n.toNat)
      | some (_, r) =>
        let s1 := s.raiseAll ex 1
        if ex.all fun t => r.phase != s.waitPhase x t then s1.advance len
        else s1.holdEach len ex fun t => .bwait n.toNat (r.phase != s.waitPhase x t)

/-- `btest` (R170). -/
def execBtest (x : Opnds) (n : BitVec 4) (s : State) : Host.Outcome State Fault Refusal :=
  s.issue (.btest x n) fun x s =>
    let ex := s.exe x.g
    if ex.isEmpty then s.advance x.ext.bytes
    else
      match s.barOf s.sel.blk n.toNat with
      | none => s.uniformFault x (slotLF n.toNat)
      | some (_, r) =>
        ((s.advance x.ext.bytes).write x.d 1 (ex.map fun t => (t, if r.phase then 1 else 0))).raiseAll ex 1

/-- The timeout sticky of a bound record is set (R165, R170). -/
def State.setTmo (s : State) (bid n : Nat) : State :=
  match s.barOf bid n with
  | some (sl, r) => s.barAccess bid sl.addr fun s => s.putBar bid n sl { r with tmo := true }
  | none => s

/-- The outcome of a waiting `bwaitt` at a clock (R170). -/
def Wait.boundDone (clk : Nat) : Wait → Option Bool
  | .bwaitt _ due o => match o with
    | some r => some r
    | Option.none => if due ≤ clk then some false else Option.none
  | _ => Option.none

/-- `bwaitt` ends: pD in every executing lane, and the timeout sticky where a lane's bound ends here. -/
def State.bwaittEnd (s : State) (x : Opnds) (n : Nat) (late : Bool) (rs : List (Nat × Bool)) : State :=
  let s1 := (s.advance x.ext.bytes).write x.d 1 (rs.map fun r => (r.1, if r.2 then 1 else 0))
  if late then s1.setTmo s.sel.blk n else s1

/-- `bwaitt` (R170). -/
def execBwaitt (x : Opnds) (n : BitVec 4) (s : State) : Host.Outcome State Fault Refusal :=
  s.issue (.bwaitt x n) fun x s =>
    let ex := s.exe x.g
    match ex with
    | [] => s.advance x.ext.bytes
    | l :: _ =>
      let ws := ex.map fun t => (t, (s.cb.thr t).wait.boundDone s.clk)
      if ws.all fun w => w.2.isSome then
        s.bwaittEnd x n.toNat (ws.any fun w => w.2 == some false)
          (ws.map fun w => (w.1, w.2.getD false))
      else
        match s.barOf s.sel.blk n.toNat with
        | none => s.uniformFault x (slotLF n.toNat)
        | some (_, r) =>
          let s1 := s.raiseAll ex 1
          let bound := s.src x.ext .b32 l x.b
          let now (t : Nat) : Bool := r.phase != s.waitPhase x t
          if bound == 0 || ex.all now then
            s1.bwaittEnd x n.toNat (ex.any fun t => !now t) (ex.map fun t => (t, now t))
          else s1.holdEach x.ext.bytes ex fun t => .bwaitt n.toNat (s.clk + bound) (if now t then some true else none)

/-- BWAITT_TIMEOUT (R170): the bound of a waiting issue has ended; its lanes that still wait get 0, and the sticky is set. -/
def execBwaittTimeout (blk thr : Nat) (s : State) : Host.Outcome State Fault Refusal :=
  let b := s.blk blk
  let clk := (s.die (b.core / 48)).clk
  match (b.thr thr).wait with
  | .bwaitt n due none =>
    if due ≤ clk && b.state.issues then
      let g := (b.thr thr).group
      let pc := (b.thr thr).pc
      .next ((s.modBlk blk fun b => { b with threads := b.threads.map fun t =>
        match t.wait with
        | .bwaitt k d none => if t.group == g && t.pc == pc && k == n then { t with wait := .bwaitt k d (some false) } else t
        | _ => t }).setTmo blk n)
    else .next s
  | _ => .next s

/-- `bexp` (R169). -/
def execBexp (x : Opnds) (n : BitVec 4) (now clrt : Bool) (s : State) : Host.Outcome State Fault Refusal :=
  s.issue (.bexp x n now clrt) fun x s =>
    let ex := s.exe x.g
    if ex.isEmpty then s.advance x.ext.bytes
    else
      match s.barOf s.sel.blk n.toNat with
      | none => s.uniformFault x (slotLF n.toNat)
      | some (_, r) =>
        let d := s.barBytes x
        let p : Int := if now then r.pending + d else r.pending
        if !BarRec.inRange (r.expected + d) p r.bytes then s.uniformFault x (slotLF n.toNat)
        else
          ((s.barUpdate s.sel.blk n.toNat (fun r => { r with
            expected := (r.expected + d).toNat, pending := p.toNat, tmo := r.tmo && !clrt }) id).advance x.ext.bytes).raiseAll ex 1

/-- `bblk` (R172): each executing lane waits at it, with its horizon raised as by every barrier operation (R288); lanes that do not execute go on. -/
def execBblk (x : Opnds) (s : State) : Host.Outcome State Fault Refusal :=
  s.issue (.bblk x) fun x s =>
    let ex := s.exe x.g
    let len := x.ext.bytes
    if ex.isEmpty then s.advance len
    else
      ((((s.advanceBut len ex).modCb fun b => b.modThrs ex fun _ t =>
        { t with wait := .bblk, parkLen := len, group := 1 + s.sel.act.headD 0 }).raiseAll ex 1).endTurn).settle s.sel.blk

/-! ### Stage rings (R175) -/

/-- The bundle whose counts an issue uses: its home bundle, or a drawn bundle's donor (log entry 26). -/
def State.ringBundle (s : State) : Nat := s.cb.roleBundle s.sel.ctx

/-- `ring.bind` (R175). -/
def execRingBind (x : Opnds) (n : BitVec 4) (d : BitVec 3) (s : State) : Host.Outcome State Fault Refusal :=
  s.issue (.ringBind x n d) fun x s =>
    let ex := s.exe x.g
    if ex.isEmpty then s.advance x.ext.bytes
    else
      let depth := d.toNat + 1
      let b := s.cb
      let slots := (List.range (2 * depth)).map (n.toNat + ·)
      let inRing (k : Nat) : Bool := b.rings.any fun g => g.first ≤ k && k < g.first + 2 * g.depth
      match slots.find? fun k => (Sparse.look b.slots k).isNone || inRing k with
      | some k => s.uniformFault x (slotLF k)
      | none =>
        ((s.modCb fun b => { b with
          rings := b.rings ++ [{ first := n.toNat, depth := depth }]
          slots := b.slots.map fun e => if slots.contains e.1 then (e.1, { e.2 with base := (s.barAt s.sel.blk e.2.addr).phase }) else e
          bundles := b.bundles.map fun u => { u with rings := Sparse.del u.rings n.toNat } }).advance x.ext.bytes).raiseAll ex 1

/-- A ring instruction: the ring whose first slot it names, with its bundle's producer and consumer counts. -/
def State.ringOp (s : State) (i : Instr) (n : Nat) (f : Opnds → State → Nat → Nat → Nat → State) : Host.Outcome State Fault Refusal :=
  s.issue i fun x s =>
    if (s.exe x.g).isEmpty then s.advance x.ext.bytes
    else
      match s.cb.rings.find? fun g => g.first == n with
      | none => s.uniformFault x (slotLF n)
      | some g =>
        let c := Sparse.getOr (s.cb.bundle s.ringBundle).rings n (0, 0)
        f x s g.depth c.1 c.2

/-- A slot of a ring has completed u phases since the bind: its `bar.phase` against its base phase, which no waiter can see run more than
one ahead (R175). -/
def State.ringPhase (s : State) (slot u : Nat) : Bool :=
  match s.barOf s.sel.blk slot with
  | some (sl, r) => (r.phase != sl.base) == decide (u % 2 = 1)
  | none => false

/-- A stage of a ring is waited for, until its slot has completed u phases, and its number is the result (R175). -/
def State.ringWait (s : State) (x : Opnds) (slot u k : Nat) : State :=
  if u != 0 && !s.ringPhase slot u then s.stall
  else ((s.advance x.ext.bytes).write x.d 1 ((s.exe x.g).map fun t => (t, k))).raiseAll (s.exe x.g) 1

/-- An arrival at a stage's slot, after which a count of the bundle rises (R175). -/
def State.ringArrive (s : State) (x : Opnds) (n slot : Nat) (bytes : Int) (next : Nat × Nat) : State :=
  if !s.arriveOk s.sel.blk slot bytes then s.uniformFault x (slotLF slot)
  else
    (((s.arrive s.sel.blk slot bytes false).modCb fun b => b.modBundle s.ringBundle fun u => { u with
      rings := Sparse.put u.rings n next }).advance x.ext.bytes).raiseAll (s.exe x.g) 1

/-- `ring.acq` (R175). -/
def execRingAcq (x : Opnds) (n : BitVec 4) (s : State) : Host.Outcome State Fault Refusal :=
  s.ringOp (.ringAcq x n) n.toNat fun x s d pc _ => s.ringWait x (n.toNat + 2 * (pc % d) + 1) (pc / d) (pc % d)

/-- `ring.put` (R175). -/
def execRingPut (x : Opnds) (n : BitVec 4) (s : State) : Host.Outcome State Fault Refusal :=
  s.ringOp (.ringPut x n) n.toNat fun x s d pc cc =>
    s.ringArrive x n.toNat (n.toNat + 2 * (pc % d)) (s.barBytes x) (pc + 1, cc)

/-- `ring.get` (R175). -/
def execRingGet (x : Opnds) (n : BitVec 4) (s : State) : Host.Outcome State Fault Refusal :=
  s.ringOp (.ringGet x n) n.toNat fun x s d _ cc => s.ringWait x (n.toNat + 2 * (cc % d)) (cc / d + 1) (cc % d)

/-- `ring.rel` (R175). -/
def execRingRel (x : Opnds) (n : BitVec 4) (s : State) : Host.Outcome State Fault Refusal :=
  s.ringOp (.ringRel x n) n.toNat fun x s d pc cc =>
    s.ringArrive x n.toNat (n.toNat + 2 * (cc % d) + 1) 0 (pc, cc + 1)

end Sys2Proof.Machine
end

