-- ==== Sys2Proof/Machine/Crypto.lean ====
section
/-! DEFINITION. Crypto.lean: the published algorithms that Shutter, the engines and the boot stages use: AES-256 with its XTS mode and key
wrap (R302, R355, R356), SHA-256 (R361, R404), and RSASSA-PSS signatures, made and verified (R358, R361, R404). -/

namespace Sys2Proof.Crypto

/-! ### AES-256 -/

/-- The substitution table, 32 bytes to a row, the first lowest. -/
def sboxRows : List Nat :=
  [0xc072a49cafa2d4adf04759fa7dc982ca76abd7fe2b670130c56f6bf27b777c63,
   0x75b227ebe28012079a059618c323c7041531d871f1e5a534ccf73f362693fdb7,
   0xcf584c4a39becb6a5bb1fc20ed00d153842fe329b3d63b52a05a6e1b1a2c8309,
   0xd2f3ff1021dab6bcf5389d928f40a351a89f3c507f02f94585334d43fbaaefd0,
   0xdb0b5ede14b8ee4688902a22dc4f816073195d643d7ea7c41744975fec130ccd,
   0x8ae7a65eaf4566ca94ed58d6d37c8e779e4959162acd3c25c2406490a3a32e0,
   0x9e1dc186b95735610ef6034866b53e708a8bbd4b1f74dde8c6b4a61c2e2578ba,
   0x16bb54b00f2d99416842e6bf0d89a18cdf2855cee9871e9b948ed9691198f8e1]

/-- The inverse substitution table. -/
def invRows : List Nat :=
  [0xcbe9dec444438e3487ff2f9b8239e37cfbd7f3819ea340bf38a53630d56a0952,
   0x25d18b6d49a25b76b224d92866a12e084ec3fa420b954cee3d23c2a632947b54,
   0x849d8da75746155edab9edfd5048706c92b6655dcc5ca4d41698688664f6f872,
   0x6b8a130103bdafc1020f3fca8f1e2cd00645b3b80558e4f70ad3bc8c00abd890,
   0x6edf751ce837f9e28535ade72274ac9673e6b4f0cecff297eadc674f4111913a,
   0xf45acd78fec0db9a2079d2c64b3e56fc1bbe18aa0e62b76f89c5291d711af147,
   0xef9cc9939f7ae52d0d4ab519a97f51605fec8027591012b131c7078833a8dd1f,
   0x7d0c2155631469e126d677ba7e042b17619953833cbbebc8b0f52aae4d3be0a0]

/-- An entry of a table of bytes. -/
def tableAt (rows : List Nat) (x : Nat) : Nat := field (rows.getD (x / 32) 0) (8 * (x % 32)) 8

/-- Substitution of a byte. -/
def subByte (x : Nat) : Nat := tableAt sboxRows x
/-- Inverse substitution of a byte. -/
def invByte (x : Nat) : Nat := tableAt invRows x

/-- Multiplication by x in the field. -/
def xtime (b : Nat) : Nat := if b < 128 then 2 * b else (2 * b) ^^^ 0x11B

/-- Multiplication in the field by a constant of at most 4 bits. -/
def gmul (b k : Nat) : Nat :=
  let b2 := xtime b
  let b4 := xtime b2
  let b8 := xtime b4
  (if bitAt k 0 then b else 0) ^^^ (if bitAt k 1 then b2 else 0) ^^^ (if bitAt k 2 then b4 else 0) ^^^ (if bitAt k 3 then b8 else 0)

/-- Exclusive OR of two byte lists. -/
def xorBytes (a b : List Nat) : List Nat := a.zipWith (· ^^^ ·) b

/-- The next words of the key schedule: `prev` holds those made, the last first. -/
def expand : Nat → Nat → List (List Nat) → List (List Nat)
  | 0, _, prev => prev
  | n + 1, i, prev =>
    let t := prev.headD []
    let t := if i % 8 = 0 then
        match (t.drop 1 ++ t.take 1).map subByte with
        | b :: bs => (b ^^^ (List.range (i / 8 - 1)).foldl (fun r _ => xtime r) 1) :: bs
        | [] => []
      else if i % 8 = 4 then t.map subByte
      else t
    expand n (i + 1) (xorBytes (prev.getD 7 []) t :: prev)

/-- The 15 round keys, each 16 bytes. -/
def roundKeys (key : List Nat) : List (List Nat) :=
  let ws := (expand 52 8 ((List.range 8).map fun k => (key.drop (4 * k)).take 4).reverse).reverse
  (List.range 15).map fun r => ((ws.drop (4 * r)).take 4).flatten

/-- The state with its rows shifted by `k` places for row 1, `2k` for row 2 and so on. -/
def shiftRows (k : Nat) (s : List Nat) : List Nat :=
  (List.range 16).map fun i => s.getD ((i + 4 * k * (i % 4)) % 16) 0

/-- Each column multiplied by the circulant of four constants. -/
def mixColumns (m : List Nat) (s : List Nat) : List Nat :=
  (List.range 16).map fun i =>
    (List.range 4).foldl (fun x j => x ^^^ gmul (s.getD (i / 4 * 4 + j) 0) (m.getD ((j + 4 - i % 4) % 4) 0)) 0

/-- Encryption of a block of 16 bytes under round keys. -/
def aesEnc (ks : List (List Nat)) (b : List Nat) : List Nat :=
  match ks with
  | [] => b
  | k :: rest =>
    let s := rest.dropLast.foldl (fun s k => xorBytes (mixColumns [2, 3, 1, 1] (shiftRows 1 (s.map subByte))) k) (xorBytes b k)
    xorBytes (shiftRows 1 (s.map subByte)) (rest.getLastD [])

/-- Decryption of a block of 16 bytes under round keys. -/
def aesDec (ks : List (List Nat)) (b : List Nat) : List Nat :=
  match ks.reverse with
  | [] => b
  | k :: rest =>
    let s := rest.dropLast.foldl (fun s k => mixColumns [14, 11, 13, 9] (xorBytes ((shiftRows 3 s).map invByte) k)) (xorBytes b k)
    xorBytes ((shiftRows 3 s).map invByte) (rest.getLastD [])

/-- The 32 bytes of a key held as a number. -/
def keyBytes (key : Nat) : List Nat := (toBytes 32 key).map (·.toNat)

/-- The next block's tweak: multiplication by the primitive element (IEEE 1619). -/
def nextTweak (t : List Nat) : List Nat :=
  let x := (List.range 16).foldr (fun k x => t.getD k 0 + 256 * x) 0
  let y := if x < 2 ^ 127 then 2 * x else (2 * x - 2 ^ 128) ^^^ 0x87
  (toBytes 16 y).map (·.toNat)

/-- The blocks of a data unit in XTS mode. -/
def xtsBlocks (dec : Bool) (ks : List (List Nat)) : Nat → List Nat → List Nat → List Nat
  | 0, _, _ => []
  | n + 1, t, data =>
    let p := xorBytes (data.take 16) t
    xorBytes (if dec then aesDec ks p else aesEnc ks p) t ++ xtsBlocks dec ks n (nextTweak t) (data.drop 16)

/-- AES-256-XTS of a data unit whose length is a multiple of 16 (IEEE 1619, R302): `key1` for the data, `key2` for the tweak. -/
def xts (dec : Bool) (key1 key2 tweak : Nat) (data : List Byte) : List Byte :=
  let t := aesEnc (roundKeys (keyBytes key2)) ((toBytes 16 tweak).map (·.toNat))
  (xtsBlocks dec (roundKeys (keyBytes key1)) (data.length / 16) t (data.map (·.toNat))).map (.ofNat 8 ·)

/-- One round of the key unwrap (RFC 3394, section 2.2.2): register A and the n registers, step t. -/
def unwrapStep (ks : List (List Nat)) (a : List Nat) (rs : List (List Nat)) (t i : Nat) : List Nat × List (List Nat) :=
  let big := ((toBytes 8 t).map (·.toNat)).reverse
  let b := aesDec ks (xorBytes a big ++ rs.getD i [])
  (b.take 8, modAt (fun _ => b.drop 8) i rs)

/-- The steps of the unwrap from step t = 6n down to 1. -/
def unwrapLoop (ks : List (List Nat)) (n : Nat) : Nat → List Nat → List (List Nat) → List Nat × List (List Nat)
  | 0, a, rs => (a, rs)
  | t + 1, a, rs =>
    let (a, rs) := unwrapStep ks a rs (t + 1) (t % n)
    unwrapLoop ks n t a rs

/-- Key unwrap of a 40-byte blob (RFC 3394): the key, where the integrity check holds. -/
def unwrap (kek : Nat) (blob : List Byte) : Option Nat :=
  let bs := blob.map (·.toNat)
  let rs := (List.range 4).map fun k => (bs.drop (8 + 8 * k)).take 8
  let (a, rs) := unwrapLoop (roundKeys (keyBytes kek)) 4 24 (bs.take 8) rs
  if a.all (· == 0xA6) then some (ofBytes (rs.flatten.map (.ofNat 8 ·))) else none

/-! ### SHA-256 (FIPS 180-4) -/

/-- The round constants. -/
def shaK : List Nat :=
  [0x428A2F98, 0x71374491, 0xB5C0FBCF, 0xE9B5DBA5, 0x3956C25B, 0x59F111F1, 0x923F82A4, 0xAB1C5ED5] ++
  [0xD807AA98, 0x12835B01, 0x243185BE, 0x550C7DC3, 0x72BE5D74, 0x80DEB1FE, 0x9BDC06A7, 0xC19BF174] ++
  [0xE49B69C1, 0xEFBE4786, 0x0FC19DC6, 0x240CA1CC, 0x2DE92C6F, 0x4A7484AA, 0x5CB0A9DC, 0x76F988DA] ++
  [0x983E5152, 0xA831C66D, 0xB00327C8, 0xBF597FC7, 0xC6E00BF3, 0xD5A79147, 0x06CA6351, 0x14292967] ++
  [0x27B70A85, 0x2E1B2138, 0x4D2C6DFC, 0x53380D13, 0x650A7354, 0x766A0ABB, 0x81C2C92E, 0x92722C85] ++
  [0xA2BFE8A1, 0xA81A664B, 0xC24B8B70, 0xC76C51A3, 0xD192E819, 0xD6990624, 0xF40E3585, 0x106AA070] ++
  [0x19A4C116, 0x1E376C08, 0x2748774C, 0x34B0BCB5, 0x391C0CB3, 0x4ED8AA4A, 0x5B9CCA4F, 0x682E6FF3] ++
  [0x748F82EE, 0x78A5636F, 0x84C87814, 0x8CC70208, 0x90BEFFFA, 0xA4506CEB, 0xBEF9A3F7, 0xC67178F2]

/-- The initial hash value. -/
def shaInit : List Word := ([0x6A09E667, 0xBB67AE85, 0x3C6EF372, 0xA54FF53A, 0x510E527F, 0x9B05688C, 0x1F83D9AB, 0x5BE0CD19] : List Nat).map (.ofNat 32 ·)

/-- Rotation right. -/
def rotr (n : Nat) (x : Word) : Word := x.rotateRight n

/-- The 64 words of the message schedule: `prev` holds those made, the last first. -/
def schedule : Nat → List Word → List Word
  | 0, prev => prev
  | n + 1, prev =>
    let a := prev.getD 1 0
    let b := prev.getD 14 0
    let s1 := rotr 17 a ^^^ rotr 19 a ^^^ (a >>> 10)
    let s0 := rotr 7 b ^^^ rotr 18 b ^^^ (b >>> 3)
    schedule n ((s1 + prev.getD 6 0 + s0 + prev.getD 15 0) :: prev)

/-- One round of the compression. -/
def shaRound (h : List Word) (kw : Word) : List Word :=
  let g (k : Nat) : Word := h.getD k 0
  let e := g 4
  let a := g 0
  let t1 := g 7 + (rotr 6 e ^^^ rotr 11 e ^^^ rotr 25 e) + ((e &&& g 5) ^^^ (~~~e &&& g 6)) + kw
  let t2 := (rotr 2 a ^^^ rotr 13 a ^^^ rotr 22 a) + ((a &&& g 1) ^^^ (a &&& g 2) ^^^ (g 1 &&& g 2))
  [t1 + t2, a, g 1, g 2, g 3 + t1, e, g 5, g 6]

/-- Big-endian bytes of a word. -/
def beBytes (n x : Nat) : List Byte := (toBytes n x).reverse

/-- A number from big-endian bytes. -/
def ofBe (bs : List Byte) : Nat := ofBytes bs.reverse

/-- Compression of one block of 64 bytes. -/
def shaBlock (h : List Word) (b : List Byte) : List Word :=
  let w0 := (List.range 16).map fun k => BitVec.ofNat 32 (ofBe ((b.drop (4 * k)).take 4))
  let ws := (schedule 48 w0.reverse).reverse
  let r := (ws.zip shaK).foldl (fun h e => shaRound h (e.1 + .ofNat 32 e.2)) h
  h.zipWith (· + ·) r

/-- The blocks of a padded message. -/
def shaBlocks : Nat → List Word → List Byte → List Word
  | 0, h, _ => h
  | n + 1, h, m => shaBlocks n (shaBlock h (m.take 64)) (m.drop 64)

/-- SHA-256. -/
def sha256 (m : List Byte) : List Byte :=
  let pad := 1 + (119 - m.length % 64) % 64
  let padded := m ++ (0x80 :: List.replicate (pad - 1) 0) ++ beBytes 8 (8 * m.length)
  ((shaBlocks (padded.length / 64) shaInit padded).map fun w => beBytes 4 w.toNat).flatten

/-! ### RSASSA-PSS (RFC 8017, section 8.1.2) -/

/-- b^e mod m, `n` bits of the exponent. -/
def powMod : Nat → Nat → Nat → Nat → Nat → Nat
  | 0, _, _, _, acc => acc
  | n + 1, b, e, m, acc => powMod n (b * b % m) (e / 2) m (if e % 2 = 1 then acc * b % m else acc)

/-- MGF1 over SHA-256. -/
def mgf1 (seed : List Byte) (n : Nat) : List Byte :=
  ((List.range ((n + 31) / 32)).flatMap fun k => sha256 (seed ++ beBytes 4 k)).take n

/-- A signature of RSA-3072 over SHA-256 verifies: the encoded message has 384 bytes, of which the first bit is 0. -/
def pssVerify (modulus exponent salt : Nat) (m sig : List Byte) : Bool :=
  let sg := ofBe sig
  if sig.length != 384 || modulus ≤ sg then false
  else
    let em := beBytes 384 (powMod 3072 (sg % modulus) exponent modulus 1)
    let masked := em.take 351
    let h := (em.drop 351).take 32
    let db := (masked.zip (mgf1 h 351)).map fun e => e.1 ^^^ e.2
    let db := match db with
      | b :: bs => (b &&& 0x7F) :: bs
      | [] => []
    let ps := 351 - salt - 1
    (em.headD 0).toNat < 128 && em.getLastD 0 == 0xBC && salt + 1 ≤ 351 && (db.take ps).all (· == 0) && db.getD ps 0 == 1
      && sha256 (List.replicate 8 0 ++ sha256 m ++ db.drop (ps + 1)) == h

/-- The signature of RSA-3072 over SHA-256 of a message, with a salt (RFC 8017, section 8.1.1). -/
def pssSign (modulus exponent : Nat) (salt m : List Byte) : List Byte :=
  let h := sha256 (List.replicate 8 0 ++ sha256 m ++ salt)
  let db := List.replicate (351 - salt.length - 1) (0 : Byte) ++ (1 :: salt)
  let masked := (db.zip (mgf1 h 351)).map fun e => e.1 ^^^ e.2
  let masked := match masked with
    | b :: bs => (b &&& 0x7F) :: bs
    | [] => []
  beBytes 384 (powMod 3072 (ofBe (masked ++ h ++ [0xBC])) exponent modulus 1)

end Sys2Proof.Crypto
end

