-- ==== Sys2Proof/Machine/Engine.lean ====
section
/-! DEFINITION. Engine.lean: the accesses of memory that the transfer unit and the bulk engines make, with the poison that they carry
on (R297, R300, R303, R413), and their restartable faults (R269, R273, R297). -/

namespace Sys2Proof.Machine

/-- A byte on its way through an engine, with whether it is poisoned. -/
abbrev EByte := Byte × Bool

/-- The thread number under which an engine's stores stand on writer lists: no thread has it. -/
def engineThr : Nat := 2 ^ 32

/-- Why an engine's access stops. -/
inductive EngStop where
  /-- It waits for a slot or for a peer's answer (R354, R392). -/
  | wait
  /-- A restartable fault: cause, `pf.why`, `pf.level`, `pf.acc` and address. -/
  | fault (cause why level acc va : Nat)
  /-- A failure with a code of R299: 1 CANCELLED, 2 PROTECTION, 3 NONCANONICAL. -/
  | fail (code : Nat)
  deriving DecidableEq, Repr

/-- A stop of one access as its engine takes it. -/
def Stop.engine (acc va : Nat) : Stop → EngStop
  | .lane c => .fail (if c = 0x11 then 3 else 2)
  | .restart c w l => .fault c w l acc va
  | .wait => .wait
  | .poison _ => .fail 2

/-- Who an engine's accesses for a block are made for. -/
def Block.engine (b : Block) : Who := { b.who with core := none }

/-- The bytes [va, va + n) cut at sector boundaries, addresses modulo 2^64. -/
def sectorParts (va n : Nat) : List (Nat × Nat) :=
  if n = 0 then []
  else
    (List.range ((va + n - 1) / 64 + 1 - va / 64)).map fun k =>
      let lo := max va (64 * (va / 64 + k))
      let hi := min (va + n) (64 * (va / 64 + k) + 64)
      (lo % 2 ^ 64, hi - lo)

/-- A copy to pages in peer form, sent to its engine, makes its block's interval irrevocable (R147). -/
def State.irrevokePeer (s : State) (bid : Nat) (vas : List Nat) : State :=
  if vas.any fun va => (s.pageAt (s.blk bid).engine va).any (·.peer) then s.irrevoke bid else s

/-- The request that an engine has in flight for a page, or for data of it, has completed with an error reply (R394). -/
def State.lostInFlight (s : State) (w : Who) (va : Nat) : Option Nat :=
  match s.pageAt w va with
  | none => none
  | some p =>
    let page := p.xoff * (p.size / 4096)
    let o := p.xoff * p.size + (va - p.va)
    (s.hub.reqs.find? fun r => r.slot == p.lslot && r.lost && r.engine
      && ((r.what == .page && r.page == page) || r.what.reaches w.die (o / 64))).map (·.tag)

/-- A stop of one access as its engine takes it: a request in flight to a lender that is lost fails late, as if its fault had been
cancelled (R297, R300, R394, log entry 47). -/
def State.engStop (s : State) (w : Who) (acc va : Nat) (x : Stop) : State × EngStop :=
  match x with
  | .restart 0x51 _ _ =>
    match s.lostInFlight w va with
    | none => (s, x.engine acc va)
    | some tag => (s.modHub fun h => { h with
        reqs := h.reqs.map fun r => if r.tag == tag then { r with engine := false } else r }, .fail 1)
  | _ => (s, x.engine acc va)

/-- The translation of one part of an engine's access. -/
def State.engPage (s : State) (w : Who) (va n : Nat) (acc : Access) : State × Except EngStop Page :=
  if !canonical (.ofNat 64 va) then (s, .error (.fail 3))
  else
    match s.translate w va n acc false with
    | (s, .error x) =>
      let (s, e) := s.engStop w (accCode acc) va x
      (s, .error e)
    | (s, .ok p) => (s, .ok p)

/-- One part read through its page, poisoned or not (R297, R413). -/
def State.engReadPage (s : State) (w : Who) (p : Page) (va n : Nat) : State × Except EngStop (List EByte) :=
  let pa := p.pa + (va - p.va)
  match s.loadAt w p pa n with
  | (s, .ok bs) => (s.countPeer w p va, .ok (bs.map fun b => (b, false)))
  | (s, .error (.poison _)) =>
    if s.past p then (s, .ok ((s.mem.bytes pa n).map fun b => (b, true)))
    else (s, .ok ((s.l2Bytes w.die pa n).zipIdx.map fun e => (e.1, s.l2PoisonRead w.die (pa + e.2) 1)))
  | (s, .error x) =>
    let (s, e) := s.engStop w 0 va x
    (s, .error e)

/-- One part read. -/
def State.engReadPart (s : State) (w : Who) (va n : Nat) : State × Except EngStop (List EByte) :=
  match s.engPage w va n .read with
  | (s, .error x) => (s, .error x)
  | (s, .ok p) => s.engReadPage w p va n

/-- The physical address of a byte that has been read. -/
def State.physOf (s : State) (w : Who) (va : Nat) : Nat :=
  match (s.translate w va 1 .read false).2 with
  | .ok p => p.pa + (va - p.va)
  | .error _ => va

/-- An engine's access that waits keeps the answers that its parts have taken up (R392). -/
def State.engWaits (s : State) (x : EngStop) : State := s.closeAnswers (x == .wait)

/-- Parts read in order. -/
def State.engRead (s : State) (w : Who) : List (Nat × Nat) → State × Except EngStop (List EByte)
  | [] => (s, .ok [])
  | (va, n) :: r =>
    match s.engReadPart w va n with
    | (s, .error x) => (s.engWaits x, .error x)
    | (s, .ok bs) =>
      match State.engRead s w r with
      | (s, .error x) => (s, .error x)
      | (s, .ok rest) => (s, .ok (bs ++ rest))

/-- Whether parts can be written, before any is. Poisoned data goes on to its home (R297, R413, log entry 46). -/
def State.engCanWrite (s : State) (w : Who) (bad : Bool) : List (Nat × Nat) → State × Option EngStop
  | [] => (s, none)
  | (va, n) :: r =>
    match s.engPage w va n .write with
    | (s, .error x) => (s.engWaits x, some x)
    | (s, .ok p) =>
      let pa := p.pa + (va - p.va)
      match (s.storeStop w p pa).or (if bad then s.homeStop w p pa else none) with
      | some x =>
        let (s, e) := (s.askPeer w p).engStop w 1 va x
        (s.engWaits e, some e)
      | none => State.engCanWrite s w bad r

/-- A line leaves a core's L1. -/
def State.l1Drop (s : State) (w : Who) (va : Nat) : State :=
  match w.core with
  | none => s
  | some c => s.modCore c fun k => { k with l1 := k.l1.filter fun l => !(l.dom == w.dom && l.asn == w.asn && l.line == va / 256) }

/-- The write that an agent has just sent from an address carries poisoned data (R413). -/
def State.taintSent (s : State) (a pa : Nat) : State :=
  let st := s.vclock a
  s.modHub fun h => { h with
    inflight := h.inflight.map fun f => if f.src == a && f.pa == pa && f.stamp == st then { f with poison := true } else f }

/-- One part stored through its page (R297); a poisoned byte makes its sector poisoned data, at its home (R413). -/
def State.engStorePage (s : State) (w : Who) (p : Page) (va : Nat) (bs : List EByte) (writer : List (Nat × Nat)) : State × Option Stop :=
  let pa := p.pa + (va - p.va)
  match s.storeAt w p pa (bs.map (·.1)) writer with
  | (s, some x) => (s, some x)
  | (s, none) =>
    let s := ((s.nameSent w.die (.ofNat 64 va) 0).countPeer w p va).peerStore p writer
    if bs.any (·.2) then
      let s := if p.wide then s.taintSent w.die pa else s
      (((s.writeBack w.die (sectorOf pa) 64).poisonHome pa bs.length).dropL2 w.die (sectorOf pa) 64, none)
    else (s, none)

/-- One part written, and with it the copy in the L1 of the core that the engine works for (R171, R253, R377). -/
def State.engWritePart (s : State) (w : Who) (bid va : Nat) (bs : List EByte) : State :=
  match s.engPage w va bs.length .write with
  | (s, .error _) => s
  | (s, .ok p) =>
    match s.engStorePage w p va bs [(bid, engineThr)] with
    | (s, some _) => s
    | (s, none) =>
      let own := { w with core := (Sparse.look s.blocks bid).map (·.core) }
      if bs.any (·.2) then s.l1Drop own va else s.l1Update own va (bs.map (·.1))

/-- Parts written in order. -/
def State.engWriteParts (s : State) (w : Who) (bid : Nat) : List (Nat × Nat) → List EByte → State
  | [], _ => s
  | (va, n) :: r, bs => State.engWriteParts (s.engWritePart w bid va (bs.take n)) w bid r (bs.drop n)

/-- Bytes written at a virtual address, after every part has been found writable. -/
def State.engWrite (s : State) (w : Who) (bid va : Nat) (bs : List EByte) : State × Option EngStop :=
  let parts := sectorParts va bs.length
  match s.engCanWrite w (bs.any (·.2)) parts with
  | (s, some x) => (s, some x)
  | (s, none) => (s.engWriteParts w bid parts bs, none)

/-- An engine's restartable fault makes or joins a record (R265, R269, R297). -/
def State.engineFault (s : State) (bid cause why level acc va : Nat) (who : Waiter) : State × Word :=
  let b := s.blk bid
  s.raiseRestart (b.core / 48) (b.restartRec cause why level acc 1 (.ofNat 64 va) 0 true) who

/-- A copy or command fails for good: its block is killed (R297, R299, R301, R303). -/
def State.copyFault (s : State) (bid : Nat) : State := s.kill bid 0x45 0 0

end Sys2Proof.Machine
end

