-- ==== Sys2Proof/Machine/Bank.lean ====
section
/-! DEFINITION. Bank.lean: bank compute (R310 to R312): commands performed on DRAM at its home, past every cache. -/

namespace Sys2Proof

/-- Bytes of an element (R310). -/
def BkTy.size : BkTy → Nat
  | .f32 | .s32 | .b32 => 4
  | .f16 | .bf16 | .b16 => 2
  | .b8 => 1

/-- The floating-point format of a type. -/
def BkTy.fp : BkTy → Option FFmt
  | .f32 => some .f32
  | .f16 => some .f16
  | .bf16 => some .bf16
  | _ => none

/-- The comparison of floating-point values (R85, R310). -/
def Cc.fcc : Cc → Fcc
  | .eq => .eq | .ne => .ne | .lt => .lt | .le => .le | .gt => .gt | .ge => .ge

end Sys2Proof

namespace Sys2Proof.Machine

open Sys2Proof.Fp (Val Exact Flags)

/-! ### Ranges and their pages (R311) -/

/-- Two ranges share a byte. -/
def overlap (a m b n : Nat) : Bool := a < b + n && b < a + m

/-- The ranges that a command uses: address, length in bytes and whether it is D. -/
def bankRanges (op : BankOp) (t : BkTy) (n : Nat) (d a b c : Nat) : List (Nat × Nat × Bool) :=
  let es := t.size
  match op with
  | .add | .mul => [(a, n * es, false), (b, n * es, false), (d, n * es, true)]
  | .fma => [(a, n * es, false), (b, n * es, false), (c, n * es, false), (d, n * es, true)]
  | .red _ => [(a, n * es, false), (d, es, true)]
  | .scale => [(a, n * es, false), (d, n * es, true)]
  | .cmp _ => [(a, n * es, false), (b, n * es, false), (d, n, true)]
  | .fill => [(d, n * es, true)]

/-- The alignment of a range: the element size, 1 for the bytes that `bk.cmp` writes. -/
def bankAlign (op : BankOp) (t : BkTy) (isD : Bool) : Nat :=
  match op, isD with
  | .cmp _, true => 1
  | _, _ => t.size

/-- Why a bank command is not issued. -/
inductive BankStop where
  | lane (f : LF)
  | stop (x : Stop) (acc va : Nat)
  deriving DecidableEq, Repr

/-- The pages of a range, each checked (R311); where a home refuses, the command is held at issue (R364 step 3). -/
def State.bankPages (s : State) (w : Who) (hi : Nat) (isD : Bool) : Nat → Nat → State × Except BankStop (List (Nat × Nat × Nat))
  | 0, _ => (s, .ok [])
  | fuel + 1, va =>
    if hi ≤ va then (s, .ok [])
    else
      match s.translate w va 1 (if isD then .write else .read) false with
      | (s, .error x) => (s, .error (.stop x (if isD then 1 else 0) va))
      | (s, .ok p) =>
        let hbm := match placeOf p.pa with
          | .hbm _ => true
          | _ => false
        if p.peer || !p.msd || p.coh || !hbm then (s, .error (.lane { cause := 0x1D, addr := .ofNat 64 va }))
        else if s.refuses p.pa then (s, .error (.stop (.restart 0x53 0 0) (if isD then 1 else 0) va))
        else
          match State.bankPages s w hi isD fuel (p.va + p.size) with
          | (s, .error x) => (s, .error x)
          | (s, .ok ps) => (s, .ok ((p.va, p.size, p.pa) :: ps))

/-- The pages of every range. -/
def State.bankAllPages (s : State) (w : Who) : List (Nat × Nat × Bool) → State × Except BankStop (List (Nat × Nat × Nat))
  | [] => (s, .ok [])
  | (va, n, isD) :: r =>
    match s.bankPages w (va + n) isD (n / 4096 + 2) va with
    | (s, .error x) => (s, .error x)
    | (s, .ok ps) =>
      match State.bankAllPages s w r with
      | (s, .error x) => (s, .error x)
      | (s, .ok qs) => (s, .ok (ps ++ qs))

/-- The lanes of the issuing bundle's atomic steps that await their replay and overlap some range: earlier than what issues now (R311). -/
def State.earlierSteps (s : State) (rs : List (Nat × Nat × Bool)) : List (Nat × Nat × Nat) :=
  let b := s.cb
  let n := b.roleBundle s.sel.ctx
  (b.logs.filter fun k => b.roleBundle (if k < 16 then .home k else .drawn (k - 16)) == n).flatMap fun k => (b.oplog k).flatMap fun e =>
    match e.2.acc with
    | .atomic t .. => (e.2.pending.filter fun l => rs.any fun r => Machine.overlap l.addr.toNat (4 * t.regs) r.1 r.2.1).map fun l => (k, e.1, l.thr)
    | _ => []

/-- A bank command (R310, R311): once per issue. R310 reads the scalar x both as 32 bits and, for `bk.scale`, as .f32: an inline integer is
taken as its 32 bits, and those as an .f32 pattern (DESIGN CHOICE, log entry 45). -/
def State.bankOp (s : State) (i : Instr) (op : BankOp) (t : BkTy) (rnd : Rnd) : Host.Outcome State Fault Refusal :=
  s.issue i fun x s =>
    let len := x.ext.bytes
    match s.exe x.g with
    | [] => s.advance len
    | l :: ts =>
      let q := match x.a with
        | .s m => m.toNat
        | _ => 0
      let n := s.src x.ext .b32 l x.b
      let d := (s.spair q).toNat
      let a := (s.spair (q + 2)).toNat
      let b := (s.spair (q + 4)).toNat
      let c := (s.spair (q + 6)).toNat
      let rs := bankRanges op t n d a b c
      let far := rs.find? fun r => !canonical (.ofNat 64 r.1) || (r.2.1 != 0 && !canonical (.ofNat 64 (r.1 + r.2.1 - 1)))
      let odd := rs.find? fun r => r.1 % bankAlign op t r.2.2 != 0
      if 2 ^ 24 < n then s.uniformFault x { cause := 2 }
      else if far.isSome then s.uniformFault x { cause := 0x11, addr := .ofNat 64 (far.map (·.1) |>.getD 0) }
      else if odd.isSome then s.uniformFault x { cause := 0x10, addr := .ofNat 64 (odd.map (·.1) |>.getD 0) }
      else if n = 0 then s.advance len
      else
        match s.bankAllPages s.cb.who rs with
        | (s, .error (.lane f)) => s.uniformFault x f
        | (s, .error (.stop e acc va)) => s.onceStop i len acc (l :: ts) va { cause := 0 } e
        | (s, .ok ps) =>
          (((s.advance len).modDie s.cd fun y => { y with
            bank := y.bank ++ [{ k := y.bankNext, blk := s.sel.blk, bundle := s.cb.roleBundle s.sel.ctx, thrs := l :: ts, pages := ps, op := op
                                 t := t, rnd := rnd, n := n, d := .ofNat 64 d, a := .ofNat 64 a, b := .ofNat 64 b, c := .ofNat 64 c
                                 scalar := .ofNat 32 (s.src x.ext .b32 l x.c), done := [], after := s.earlierSteps rs }]
            bankNext := y.bankNext + 1 })).irrevoke s.sel.blk

/-- `bk.add` (R310). -/
def execBkAdd (x : Opnds) (t : BkTy) (rnd : Rnd) (s : State) : Host.Outcome State Fault Refusal := s.bankOp (.bkAdd x t rnd) .add t rnd

/-- `bk.mul` (R310). -/
def execBkMul (x : Opnds) (t : BkTy) (rnd : Rnd) (s : State) : Host.Outcome State Fault Refusal := s.bankOp (.bkMul x t rnd) .mul t rnd

/-- `bk.fma` (R310). -/
def execBkFma (x : Opnds) (t : BkTy) (rnd : Rnd) (s : State) : Host.Outcome State Fault Refusal := s.bankOp (.bkFma x t rnd) .fma t rnd

/-- `bk.red` (R310). -/
def execBkRed (x : Opnds) (t : BkTy) (rnd : Rnd) (op : BkRedOp) (s : State) : Host.Outcome State Fault Refusal :=
  s.bankOp (.bkRed x t rnd op) (.red op) t rnd

/-- `bk.scale` (R310). -/
def execBkScale (x : Opnds) (t : BkTy) (rnd : Rnd) (s : State) : Host.Outcome State Fault Refusal :=
  s.bankOp (.bkScale x t rnd) .scale t rnd

/-- `bk.cmp` (R310). -/
def execBkCmp (x : Opnds) (t : BkTy) (rnd : Rnd) (cc : Cc) (s : State) : Host.Outcome State Fault Refusal :=
  s.bankOp (.bkCmp x t rnd cc) (.cmp cc) t rnd

/-- `bk.fill` (R310). -/
def execBkFill (x : Opnds) (t : BkTy) (s : State) : Host.Outcome State Fault Refusal := s.bankOp (.bkFill x t) .fill t .rn

/-- `bk.wait` (R312). -/
def execBkWait (x : Opnds) (s : State) : Host.Outcome State Fault Refusal :=
  s.issue (.bkWait x) fun x s =>
    match s.exe x.g with
    | [] => s.advance x.ext.bytes
    | ex =>
      let n := s.cb.roleBundle s.sel.ctx
      if ((s.die s.cd).bank.any fun c => c.blk == s.sel.blk && c.bundle == n) || s.blocked s.cd (s.cb.bundle n).bankSeen then s.stall
      else
        let v := (s.cb.bundle n).bankStatus
        (((s.absorb s.cd (s.cb.bundle n).bankSeen).advance x.ext.bytes).modCb fun b => b.modBundle n fun u =>
          { u with bankStatus := 0, bankSeen := Bundle.unseen }).write x.d 1 (ex.map fun t => (t, v.toNat))

/-! ### Performing (R310, R311) -/

/-- The physical address that a command's page gives a virtual one. -/
def BankCmd.phys (c : BankCmd) (va : Nat) : Nat :=
  match c.pages.find? fun p => p.1 ≤ va && va < p.1 + p.2.1 with
  | some p => p.2.2 + (va - p.1)
  | none => 0

/-- The ranges of a command. -/
def BankCmd.ranges (c : BankCmd) : List (Nat × Nat × Bool) := bankRanges c.op c.t c.n c.d.toNat c.a.toNat c.b.toNat c.c.toNat

/-- The physical pieces of a command's ranges. -/
def BankCmd.pieces (c : BankCmd) : List (Nat × Nat) :=
  c.ranges.flatMap fun r => c.pages.filterMap fun p =>
    let lo := max r.1 p.1
    let hi := min (r.1 + r.2.1) (p.1 + p.2.1)
    if lo < hi then some (p.2.2 + (lo - p.1), hi - lo) else none

/-- Two commands touch one byte. -/
def BankCmd.overlaps (a b : BankCmd) : Bool := a.pieces.any fun p => b.pieces.any fun q => p.1 < q.1 + q.2 && q.1 < p.1 + p.2

/-- An element as memory holds it, with whether it is poisoned. -/
def bankElem (mem : Memory) (poison : Sparse Unit) (c : BankCmd) (va es : Nat) : Nat × Bool :=
  let pa := c.phys va
  (ofBytes (mem.bytes pa es), (Sparse.look poison (pa / 64)).isSome)

/-- The element that a command computes from its sources (R310). -/
def bankValue (op : BankOp) (t : BkTy) (rnd : Rnd) (x a b c : Nat) : Nat × Flags :=
  match t.fp with
  | some f =>
    let v := Fp.unpack f
    match op with
    | .add => finish f rnd false (Fp.add rnd (v a) (v b))
    | .mul => finish f rnd false (Fp.mul (v a) (v b))
    | .fma => finish f rnd false (Fp.fma rnd (v a) (v b) (v c))
    | .scale => finish f rnd false (Fp.mul (v a) (Fp.unpack .f32 x))
    | .cmp cc =>
      let r := Fp.cmp cc.fcc false (v a) (v b)
      ((if r.1 then 1 else 0), r.2)
    | .fill | .red _ => (x, 0)
  | none =>
    match op with
    | .add => ((a + b) % 2 ^ 32, 0)
    | .mul => (a * b % 2 ^ 32, 0)
    | .cmp cc => ((if cmpInt cc (readInt 32 true a) (readInt 32 true b) then 1 else 0), 0)
    | _ => (x % 2 ^ (8 * t.size), 0)

/-- The exact sum of values, rounded once (R310). -/
def bankSum (rnd : Rnd) (vs : List Val) : Nat × Flags :=
  let fl := Fp.snanFlags vs
  let infs := vs.filter Val.isInf
  if vs.any Val.isNan then (Fp.nanBits .f32, fl)
  else
    match infs with
    | i :: is => if is.all fun j => j.neg == i.neg then (Fp.signBit .f32 i.neg + Fp.infBits .f32, fl)
      else (Fp.nanBits .f32, fl ||| Fp.inv)
    | [] =>
      let d : Fp.Dyadic := vs.foldl (fun (a : Fp.Dyadic) v => a.add v.dyadic) { m := 0, e := 0 }
      let zeroNeg := vs.all (fun v => v.isZero && v.neg) || (Fp.zeroSum rnd && !(vs.all fun v => v.isZero && !v.neg))
      let r := Fp.round .f32 rnd (d.exact zeroNeg)
      (r.1, fl ||| r.2)

/-- The value of a reduction (R310). -/
def bankRed (op : BkRedOp) (t : BkTy) (rnd : Rnd) (xs : List Nat) : Nat × Flags :=
  match t, op with
  | .f32, .add => bankSum rnd (xs.map (Fp.unpack .f32))
  | .f32, .min => fextVal false (xs.map (Fp.unpack .f32))
  | .f32, .max => fextVal true (xs.map (Fp.unpack .f32))
  | _, .add => (lredInt .add .s32 xs, 0)
  | _, .min => (lredInt .min .s32 xs, 0)
  | _, .max => (lredInt .max .s32 xs, 0)

/-- Flags and the poison bit enter the bank status of the command's bundle (R312). -/
def State.bankNote (s : State) (c : BankCmd) (fl : Flags) (poison : Bool) : State :=
  s.modBlk c.blk fun b => b.modBundle c.bundle fun u => { u with
    bankStatus := u.bankStatus ||| .ofNat 32 (fl.toNat % 32 + (if poison then 256 else 0)) }

/-- A command's result reaches its home, and no copy (R370, R379): the write follows all that the home holds and all that the issuing die
holds, and `bk.wait` hands its stamp to the issuing die. -/
def State.bankWrite (s : State) (c : BankCmd) (va : Nat) (bytes : List Byte) (bad : Bool) : State :=
  let pa := c.phys va
  let h := homeAgent pa
  let (s, st) := s.stamp h
  ((s.note h ((List.range bytes.length).map (pa + ·)) st h).homeWrite pa bytes bad).modBlk c.blk fun b =>
    b.modBundle c.bundle fun u => { u with bankSeen := clockMax u.bankSeen st }

/-- One element of a command: its sources read from a memory, its result written at its home (R310, R311). -/
def State.bankElement (s : State) (c : BankCmd) (mem : Memory) (poison : Sparse Unit) (i : Nat) : State :=
  let es := c.t.size
  let e (base : DWord) : Nat × Bool := bankElem mem poison c (base.toNat + i * es) es
  let none_ : Nat × Bool := (0, false)
  let a := if c.op == .fill then none_ else e c.a
  let b := match c.op with
    | .add | .mul | .fma | .cmp _ => e c.b
    | _ => none_
  let cc := if c.op == .fma then e c.c else none_
  let r := bankValue c.op c.t c.rnd c.scalar.toNat a.1 b.1 cc.1
  let bad := a.2 || b.2 || cc.2
  let size := match c.op with
    | .cmp _ => 1
    | _ => es
  (s.bankWrite c (c.d.toNat + i * size) (toBytes size r.1) bad).bankNote c r.2 bad

/-- D overlaps a source other than element for element (R311). -/
def BankCmd.tangled (c : BankCmd) : Bool :=
  let n := c.ranges
  let cmp := match c.op with
    | .cmp _ => true
    | _ => false
  n.any fun d => d.2.2 && n.any fun r => !r.2.2 && (cmp || r.1 != d.1) && r.1 < d.1 + d.2.1 && d.1 < r.1 + r.2.1

/-- The elements of a command whose D overlaps a source: in an order that is free, each reading either what memory held before or
what it holds by then (R311). -/
def State.bankTangled (s : State) (c : BankCmd) (mem : Memory) (poison : Sparse Unit) : List Nat → State
  | [] => s
  | i :: is =>
    let (s, f) := s.draw
    State.bankTangled (if f.toNat % 2 = 0 then s.bankElement c mem poison i else s.bankElement c s.mem s.poison i) c mem poison is

/-- What a command's home still has to do, in one event for the reductions and for the commands whose elements are tangled. -/
def BankCmd.whole (c : BankCmd) : Bool :=
  match c.op with
  | .red _ => true
  | _ => c.tangled

/-- Elements of a command are performed (R310, R311), all of them where it is performed as a whole. -/
def State.bankPerform (s : State) (c : BankCmd) (es : List Nat) : State :=
  match c.op with
  | .red op =>
    let es := c.t.size
    let d := bankElem s.mem s.poison c c.d.toNat es
    let xs := (List.range c.n).map fun i => bankElem s.mem s.poison c (c.a.toNat + i * es) es
    let r := bankRed op c.t c.rnd (d.1 :: xs.map (·.1))
    let bad := d.2 || xs.any (·.2)
    (s.bankWrite c c.d.toNat (toBytes es r.1) bad).bankNote c r.2 bad
  | _ =>
    if c.tangled then
      let base := s.nextFree
      let order := sortBy (fun i => (Config.freeDraw (base + i)).toNat) (List.range c.n)
      State.bankTangled { s with nextFree := base + c.n } c s.mem s.poison order
    else es.foldl (fun s i => s.bankElement c s.mem s.poison i) s

/-- The elements of a command that are still to be performed. -/
def BankCmd.rest (c : BankCmd) : List Nat := (List.range c.n).filter fun i => !c.done.contains i

/-- The elements that a turn performs (R311): elements are unordered. -/
def BankCmd.turn (c : BankCmd) (t : BankTurn) : List Nat :=
  if c.whole then c.rest
  else if t.pick.isEmpty then (if t.count = 0 then c.rest else c.rest.take t.count)
  else (t.pick.filter c.rest.contains).eraseDups

/-- A command waits for an earlier one of its bundle, or for an earlier memory-side step, that overlaps it (R311). -/
def State.bankWaits (s : State) (die : Nat) (c : BankCmd) : Bool :=
  ((s.die die).bank.any fun e => decide (e.k < c.k) && e.blk == c.blk && e.bundle == c.bundle && e.overlaps c)
    || c.after.any fun a => (Sparse.look ((s.blk c.blk).oplog a.1) a.2.1).any fun e => e.pending.any fun l => l.thr == a.2.2

/-- A piece of a command can be read or written now: its home does not refuse, its charge domain has the slot, and the home can apply what
precedes it (R311, R354, R364, R378). -/
def State.bankServed (s : State) (die : Nat) (c : BankCmd) (pa : Nat) : Bool :=
  !s.refuses pa && s.slotOk (s.blk c.blk).hdr.domain pa && !s.blocked (homeAgent pa) (s.vclock die)

/-- BANK_COMMAND_PERFORM (R311): some elements of a command, or the rest of it, are performed at the home once earlier, overlapping
commands and memory-side steps of its bundle have been, its homes serve it, and its charge domain has the slot (R354). -/
def execBankCommandPerform (die : Nat) (turn : BankTurn) (s : State) : Host.Outcome State Fault Refusal :=
  let k := turn.cmd
  match (s.die die).bank.find? fun c => c.k == k with
  | none => .next s
  | some c =>
    let es := c.turn turn
    if s.bankWaits die c || c.pieces.any (fun p => !s.bankServed die c p.1) || es.isEmpty then .next s
    else
      let t := ((c.pieces.map fun p => homeAgent p.1).eraseDups).foldl (fun s h => s.absorb h (s.vclock die)) s
      .next ((t.bankPerform c es).modDie die fun x => { x with
        bank := if es.length = c.rest.length then x.bank.filter fun e => e.k != k
          else x.bank.map fun e => if e.k = k then { e with done := c.done ++ es } else e })

end Sys2Proof.Machine
end

