-- ==== Sys2Proof/Machine/Copy.lean ====
section
/-! DEFINITION. Copy.lean: collective copies (R294 to R298), the scoreboard query (R309) and what happens to copies by themselves
(R256, R296, R297). One row of a slice lands at a time (log entry 27). -/

namespace Sys2Proof

/-- The bytes of an element (R294, R298). -/
def CpElem.size : CpElem → Nat
  | .bf16 | .f16 => 2
  | .s8 | .m8 => 1

end Sys2Proof

namespace Sys2Proof.Machine

/-! ### Slices (R294 to R296) -/

/-- The bytes of one row on the global side (R294). -/
def Slice.globalLen (c : Slice) : Nat :=
  match c.kind with
  | .plain => c.len
  | .expand e | .compact e => c.len / 2 + c.len / (8 * e.size)

/-- The slice moves nothing. -/
def Slice.empty (c : Slice) : Bool := c.len == 0 || c.rows == 0

/-- The global address of a row. -/
def Slice.rowVa (c : Slice) (r : Nat) : Nat := wrap 64 (c.g.toNat + r * c.gstride)

/-- The scratch address of a row. -/
def Slice.rowPad (c : Slice) (r : Nat) : Nat := c.sc + r * c.sstride

/-- One past the last scratch byte of a slice. -/
def Slice.padEnd (c : Slice) : Nat := c.rowPad (c.rows - 1) + c.len

/-- The two slices have one opcode and one `fn` (R296). -/
def Slice.sameForm (a b : Slice) : Bool := a.kind == b.kind && a.s2g == b.s2g && a.slot == b.slot

/-- The checks of R295 on a slice, in their order. -/
def State.sliceCheck (s : State) (bid : Nat) (c : Slice) : Option LF :=
  let b := s.blk bid
  let n := c.globalLen
  let shape := c.rows ≤ 65535
    && (if c.kind == .plain then c.len ≤ 65536 else (c.len % 16 == 0 && (c.empty || (n ≤ c.gstride.natAbs && c.len ≤ c.sstride))))
  if !shape then some { cause := 0x1C }
  else if !c.empty && b.scratchSize < c.padEnd then some { cause := 0x17, addr := .ofNat 64 c.sc }
  else if c.g.toNat % 4 != 0 then some { cause := 0x10, addr := c.g }
  else if c.sc % 4 != 0 || c.len % 4 != 0 || c.gstride % 4 != 0 || c.sstride % 4 != 0 then some { cause := 0x10, addr := .ofNat 64 c.sc }
  else if !c.empty && (List.range c.rows).any (fun r =>
      !canonical (.ofNat 64 (c.rowVa r)) || !canonical (.ofNat 64 (c.rowVa r + n - 1))) then some { cause := 0x11, addr := c.g }
  else if c.slot.any fun k => (Sparse.look b.slots k).isNone then some (slotLF (c.slot.getD 0))
  else if !c.s2g && !c.empty && (List.range c.rows).any (fun r => b.clobbers (c.rowPad r) c.len) then
    some { cause := 0x19, addr := .ofNat 64 c.sc }
  else none

/-- The bundles that can issue collective copies (R125, R296). -/
def Block.copyBundles (b : Block) : List Nat :=
  (List.range b.bundles.length).filter fun k => b.hdr.unroled || b.hdr.role k == 0

/-- A bundle has ended (R121). -/
def Block.ended (b : Block) (k : Nat) : Bool :=
  (List.range b.threads.length).all fun t => homeBundle t != k || (b.thr t).status.terminal

/-- A copy instruction supplies its bundle's slice (R295, R296). -/
def State.supply (s : State) (i : Instr) (kind : CopyKind) (s2g : Bool) (slot : Option Nat) : Host.Outcome State Fault Refusal :=
  s.issue i fun x s =>
    let ex := s.exe x.g
    let len := x.ext.bytes
    let bid := s.sel.blk
    let b := s.cb
    let n := b.roleBundle s.sel.ctx
    let k := (b.bundle n).slices
    if 4 ≤ k - b.accepted then s.stall
    else
      let l := ex.headD (s.sel.act.headD 0)
      let q := match x.c with
        | .s m => m.toNat
        | _ => 0
      let full : Slice :=
        { bundle := n, thr := l, k := k, kind := kind, s2g := s2g, slot := slot, g := .ofNat 64 (s.src x.ext .b64 l x.a)
          sc := s.src x.ext .b32 l x.b, len := (s.sreg q).toNat, rows := (s.sreg (q + 1)).toNat
          gstride := (s.sreg (q + 2)).toInt, sstride := (s.sreg (q + 3)).toNat }
      let none_ : Slice := { full with g := 0, sc := 0, len := 0, rows := 0, gstride := 0, sstride := 0 }
      let first := b.slices.find? fun c => c.k == k
      let bad : Option LF :=
        if ex.isEmpty then none
        else if first.any fun c => !c.sameForm full then some { cause := 0x1C }
        else s.sliceCheck bid full
      let slice := if ex.isEmpty || bad.isSome then none_ else full
      let s1 := s.modCb fun b =>
        { b.modBundle n (fun u => { u with slices := u.slices + 1 }) with slices := b.slices ++ [slice] }
      match bad with
      | none => s1.advance len
      | some f => s1.uniformFault x f

/-- `cpy` (R294). -/
def execCpy (x : Opnds) (n : BitVec 4) (ns s2g : Bool) (s : State) : Host.Outcome State Fault Refusal :=
  s.supply (.cpy x n ns s2g) .plain s2g (if ns then none else some n.toNat)

/-- `cpy.x` (R294, R298). -/
def execCpyX (x : Opnds) (n : BitVec 4) (ns : Bool) (e : CpElem) (s : State) : Host.Outcome State Fault Refusal :=
  s.supply (.cpyX x n ns e) (.expand e) false (if ns then none else some n.toNat)

/-- `cpy.c` (R294, R298). -/
def execCpyC (x : Opnds) (n : BitVec 4) (ns : Bool) (e : CpElem) (s : State) : Host.Outcome State Fault Refusal :=
  s.supply (.cpyC x n ns e) (.compact e) true (if ns then none else some n.toNat)

/-! ### Acceptance (R256, R296) -/

/-- Every copy-capable bundle has supplied its slice of the block's next copy, or has ended, and some slice was supplied. -/
def Block.copyReady (b : Block) : Bool :=
  b.slices.any (fun c => c.k == b.accepted)
    && b.copyBundles.all fun n => decide (b.accepted < (b.bundle n).slices) || b.ended n

/-- The copies that were supplied whole before the block's interval opened: their arrivals come from outside it (R145). -/
def Block.preIssued (b : Block) (k : Nat) : Bool :=
  match b.check with
  | none => false
  | some c => b.copyBundles.all fun n =>
      decide (k < (c.bundles.getD n (Bundle.start 0)).slices)
        || (List.range c.threads.length).all fun t => homeBundle t != n || (c.threads.getD t (Thread.start 0)).status.terminal

/-- An engine's arrival on a slot of a block that still holds its scratchpad (R166, R296). -/
def State.engineArrive (s : State) (bid : Nat) (slot : Option Nat) (external : Bool) : State :=
  match slot with
  | some n => if (s.blk bid).state.resident then s.arrive bid n 0 external else s
  | none => s

/-- Bytes of an engine have landed (R296, R301). -/
def State.engineLand (s : State) (bid : Nat) (slot : Option Nat) (n : Nat) (external : Bool) : State :=
  match slot with
  | some k => if (s.blk bid).state.resident then s.landBytes bid k n external else s
  | none => s

/-- COPY_ACCEPT (R296): the block's next copy is accepted: its scoreboard entry, its arrival, its start. -/
def execCopyAccept (blk : Nat) (s : State) : Host.Outcome State Fault Refusal :=
  let b := s.blk blk
  if !(b.state.resident || b.draining) || !b.copyReady || 32 ≤ (s.core b.core).sb.length then .next s
  else
    let k := b.accepted
    let mine := b.slices.filter fun c => c.k == k
    let none_ : Slice := { bundle := 0, thr := 0, k := k, kind := .plain, s2g := false, slot := none, g := 0, sc := 0, len := 0, rows := 0
                           gstride := 0, sstride := 0 }
    let c0 := mine.headD none_
    let work := mine.filter fun c => !c.empty
    let s1 := s.modBlk blk fun (b : Block) => { b with
      accepted := b.accepted + 1
      slices := b.slices.filter fun c => c.k != k
      copies := if work.isEmpty then b.copies else b.copies ++
        [({ k := k, kind := c0.kind, s2g := c0.s2g, slot := c0.slot, slices := work, landed := 0, waitSeq := none, cancelled := false } : Copy)] }
    let s2 : State := match work with
      | [] => s1
      | w :: ws => s1.modCore b.core fun y => { y with
          sb := y.sb ++ [{ blk := blk, copy := k, s2g := c0.s2g, lo := ws.foldl (fun m c => min m c.sc) w.sc
                           hi := (ws.foldl (fun m c => max m c.padEnd) w.padEnd) - 1 }] }
    let ends (c : Slice) : List Nat := (List.range c.rows).flatMap fun r => [c.rowVa r, (c.rowVa r + c.globalLen - 1) % 2 ^ 64]
    .next ((s2.irrevokePeer blk (if c0.s2g then work.flatMap ends else [])).engineArrive blk c0.slot (b.preIssued k))

/-! ### 2:4 data (R218, R298) -/

/-- Elements of `size` bytes, each poisoned where one of its bytes is. -/
def elements (size : Nat) : Nat → List EByte → List (List Byte × Bool)
  | 0, _ => []
  | n + 1, bs => ((bs.take size).map (·.1), (bs.take size).any (·.2)) :: elements size n (bs.drop size)

/-- An element's bytes. -/
def elemBytes (e : List Byte × Bool) : List EByte := e.1.map fun b => (b, e.2)

/-- The dense row of a compressed one (R298). -/
def expandRow (size len : Nat) (row : List EByte) : List EByte :=
  let groups := len / (4 * size)
  let els := elements size (2 * groups) row
  let meta_ := row.drop (len / 2)
  let zero : List Byte := List.replicate size 0
  (List.range groups).flatMap fun g =>
    let m := meta_.getD (g / 2) (0, false)
    let nib := m.1.toNat / (if g % 2 = 0 then 1 else 16) % 16
    let i0 := nib % 4
    let i1 := nib / 4
    (List.range 4).flatMap fun p =>
      let v : List Byte × Bool :=
        if i0 < i1 then
          (if p = i0 then els.getD (2 * g) (zero, false) else if p = i1 then els.getD (2 * g + 1) (zero, false) else (zero, false))
        else (zero, false)
      elemBytes (v.1, v.2 || m.2)

/-- The magnitude key of an element (R298). -/
def magKey (e : CpElem) (v : Nat) : Nat :=
  match e with
  | .bf16 | .f16 => v % 2 ^ 15
  | .m8 => v % 2 ^ 7
  | .s8 => (readInt 8 true v).natAbs

/-- The compressed row of a dense one (R298). -/
def compactRow (e : CpElem) (len : Nat) (row : List EByte) : List EByte :=
  let size := e.size
  let groups := len / (4 * size)
  let els := elements size (4 * groups) row
  let zero : List Byte × Bool := ([], false)
  let kept (g : Nat) : List Nat :=
    let key (p : Nat) : Nat := magKey e (ofBytes (els.getD (4 * g + p) zero).1)
    (List.range 4).filter fun p =>
      ((List.range 4).filter fun q => key p < key q || (key q == key p && q < p)).length < 2
  let bad (g : Nat) : Bool := (List.range 4).any fun p => (els.getD (4 * g + p) zero).2
  let data := (List.range groups).flatMap fun g => (kept g).flatMap fun p => elemBytes ((els.getD (4 * g + p) zero).1, bad g)
  let nib (g : Nat) : Nat := (kept g).getD 0 0 + 4 * (kept g).getD 1 0
  data ++ (List.range (groups / 2)).map fun k => (.ofNat 8 (nib (2 * k) + 16 * nib (2 * k + 1)), bad (2 * k) || bad (2 * k + 1))

/-! ### Landing (R296, R297) -/

/-- The slice and row that land as number n of a copy. -/
def rowAt : List Slice → Nat → Option (Slice × Nat)
  | [], _ => none
  | c :: cs, n => if n < c.rows then some (c, n) else rowAt cs (n - c.rows)

/-- Words of a copy written into scratchpad, each with its own poison (R185). -/
def padReqs (b : Block) : Nat → Nat → List EByte → List SpStore
  | 0, _, _ => []
  | n + 1, a, bs =>
    let w := bs.take (4 - a % 4)
    storeReqs b a (w.map (·.1)) (if w.any (·.2) then [0] else []) a ++ padReqs b n (a + w.length) (bs.drop (4 - a % 4))

/-- Bytes of a block's scratchpad as the transfer unit reads them, with their poison, or a reconstruction fault (R196, R297). -/
def State.engPad (s : State) (bid a n : Nat) : State × Option (List EByte) :=
  let b := s.blk bid
  let sp := (s.core b.core).scratch
  let ws := wordsOf a n
  let s1 := s.modPad b.core fun sp => sp.load (loadReqs b 4 (ws.map fun w => (w, w)) [])
  if ws.any fun w => (sp.read (b.word w)).isNone then (s1, none)
  else (s1, some ((List.range n).map fun k => (scratchByte sp b (a + k), sp.poisoned (b.word (a + k)))))

/-- Update of a copy of a block. -/
def Block.modCopy (b : Block) (k : Nat) (f : Copy → Copy) : Block :=
  { b with copies := b.copies.map fun c => if c.k == k then f c else c }

/-- A copy fails: it is over, and its block is killed (R297). -/
def State.copyFails (s : State) (bid k : Nat) : State :=
  ((s.modBlk bid fun b => { b with copies := b.copies.filter fun c => c.k != k }).modCore (s.blk bid).core fun y => { y with
    sb := y.sb.filter fun e => !(e.blk == bid && e.copy == k) }).copyFault bid

/-- A copy stops at a row (R297). -/
def State.copyStop (s : State) (bid k : Nat) : EngStop → State
  | .wait => s
  | .fail _ => s.copyFails bid k
  | .fault cause why level acc va =>
    if cause = 0x50 && why = 2 then s.copyFails bid k
    else
      let (s, seq) := s.engineFault bid cause why level acc va (.copy bid k)
      s.modBlk bid fun b => b.modCopy k fun c => { c with waitSeq := some seq }

/-- A row has landed: its bytes lower the slot's count, and a copy whose rows have all landed retires (R296). -/
def State.rowLanded (s : State) (bid : Nat) (c : Copy) (bytes : Nat) : State :=
  let s := s.engineLand bid c.slot bytes ((s.blk bid).preIssued c.k)
  if c.landed + 1 < (c.slices.map (·.rows)).sum then s.modBlk bid fun b => b.modCopy c.k fun x => { x with landed := x.landed + 1 }
  else
    (s.modBlk bid fun b => { b with copies := b.copies.filter fun x => x.k != c.k }).modCore (s.blk bid).core fun y => { y with
      sb := y.sb.filter fun e => !(e.blk == bid && e.copy == c.k) }

/-- COPY_BYTES_LAND (R296 to R298): the next row of a copy in flight lands. A row that cannot be reconstructed is suppressed where its block no
longer issues (R148). -/
def execCopyBytesLand (blk n : Nat) (s : State) : Host.Outcome State Fault Refusal :=
  let b := s.blk blk
  match b.copies.find? fun c => c.k == n with
  | none => .next s
  | some c =>
    if c.cancelled then .next (s.copyFails blk n)
    else if c.waitSeq.isSome || !(b.state.resident || b.draining) then .next s
    else
      match rowAt c.slices c.landed with
      | none => .next s
      | some (sl, r) =>
        let w := b.engine
        if !c.s2g then
          if b.clobbers (sl.rowPad r) sl.len then .next (s.copyFails blk n)
          else
            match s.engRead w (sectorParts (sl.rowVa r) sl.globalLen) with
            | (s1, .error x) => .next (s1.copyStop blk n x)
            | (s1, .ok bs) =>
              let row := match sl.kind with
                | .expand e => expandRow e.size sl.len bs
                | _ => bs
              .next ((s1.padStore blk (mergeReqs (padReqs b (sl.len / 4 + 2) (sl.rowPad r) row))).rowLanded blk c sl.len)
        else
          match s.engPad blk (sl.rowPad r) sl.len with
          | (s1, none) => .next (if b.state.issues then s1.consume blk 2 0 else s1.rowLanded blk c sl.globalLen)
          | (s1, some bs) =>
            let row := match sl.kind with
              | .compact e => compactRow e sl.len bs
              | _ => bs
            match s1.engWrite w blk (sl.rowVa r) row with
            | (s2, some x) => .next (s2.copyStop blk n x)
            | (s2, none) => .next (s2.rowLanded blk c sl.globalLen)

/-! ### `scbd` (R309) -/

/-- The scoreboard entries that a block holds. -/
def State.sbOf (s : State) (bid : Nat) : List SbEntry := (s.core (s.blk bid).core).sb.filter fun e => e.blk == bid

/-- `scbd.cnt` (R309). -/
def execScbdCnt (x : Opnds) (s : State) : Host.Outcome State Fault Refusal :=
  s.once (.scbdCnt x) 1 fun _ s _ => s.cb.copies.length

/-- `scbd.q` (R309). -/
def execScbdQ (x : Opnds) (s : State) : Host.Outcome State Fault Refusal :=
  s.alu (.scbdQ x) 1 fun x s t =>
    let a := s.src x.ext .b32 t x.a
    (if (s.sbOf s.sel.blk).any fun e => e.lo ≤ a && a ≤ e.hi then 1 else 0, 0)

/-- `scbd.wait` (R309). -/
def execScbdWait (x : Opnds) (s : State) : Host.Outcome State Fault Refusal :=
  s.issue (.scbdWait x) fun x s =>
    match s.exe x.g with
    | [] => s.advance x.ext.bytes
    | ex =>
      if !(s.sbOf s.sel.blk).isEmpty then s.stall
      else (s.advance x.ext.bytes).write x.d 1 (ex.map fun t => (t, 0))

end Sys2Proof.Machine
end

