-- ==== Sys2Proof/Machine/Bulk.lean ====
section
/-! DEFINITION. Bulk.lean: the bulk engine's commands (R299 to R303): gather lists, fan-out copies, sealing. A command is performed in
one event, but for what it waits for. -/

namespace Sys2Proof.Machine

/-! ### Issue -/

/-- A bulk command enters its die's queue (R299). -/
def State.queueBulk (s : State) (ts : List Nat) (kind : BulkKind) : State :=
  s.modDie s.cd fun d => { d with
    bulk := d.bulk ++ [{ k := d.bulkNext, blk := s.sel.blk, thrs := ts, kind := kind, buf := none, done := 0, code := none
                         waitSeq := none, cancelled := false, pre := false }]
    bulkNext := d.bulkNext + 1 }

/-- The die's queue is full (R299). -/
def State.bulkFull (s : State) : Bool := decide (64 ≤ (s.die s.cd).bulk.length)

/-- An address that must be canonical and aligned. -/
def alignedAt (a : DWord) (n : Nat) : Option LF :=
  if !canonical a then some { cause := 0x11, addr := a } else if a.toNat % n != 0 then some { cause := 0x10, addr := a } else none

/-- A list entry (R300): source, destination, length and whether its reserved bits are 0. -/
def glEntry (buf : List Byte) (j : Nat) : Nat × Nat × Nat × Bool :=
  let e := (buf.drop (32 * j)).take 32
  (ofBytes (e.take 8), ofBytes ((e.drop 8).take 8), ofBytes ((e.drop 16).take 4), (e.drop 20).all (· == 0))

/-- The addresses that a gather list now names as its destinations (R147, R300). -/
def State.glDests (s : State) (list n : Nat) : List Nat :=
  match (s.engRead s.cb.engine (sectorParts list (32 * n))).2 with
  | .error _ => []
  | .ok bs => (List.range n).flatMap fun j =>
    let (_, dst, len, _) := glEntry (bs.map (·.1)) j
    [dst, (dst + len - 1) % 2 ^ 64]

/-- `cpy.gl` (R300, R303). -/
def execCpyGl (x : Opnds) (s : State) : Host.Outcome State Fault Refusal :=
  s.issue (.cpyGl x) fun x s =>
    match s.exe x.g with
    | [] => s.advance x.ext.bytes
    | l :: ts =>
      let list : DWord := .ofNat 64 (s.src x.ext .b64 l x.a)
      let status : DWord := .ofNat 64 (s.src x.ext .b64 l x.c)
      let n := s.src x.ext .b32 l x.b
      if 65536 < n then s.uniformFault x { cause := 2 }
      else
        match (alignedAt list 32).orElse fun _ => alignedAt status 8 with
        | some f => s.uniformFault x f
        | none => if s.bulkFull then s.stall else
          ((s.advance x.ext.bytes).queueBulk (l :: ts) (.gather list n status)).irrevokePeer s.sel.blk (status.toNat :: s.glDests list.toNat n)

/-- A lane's addresses in a fan-out copy: its source and every destination are canonical (R301). -/
def fanCanonical (src dst : DWord) (len count : Nat) (stride : Int) : Bool :=
  let ok (a : Nat) : Bool := canonical (.ofNat 64 a) && (len == 0 || canonical (.ofNat 64 (a + len - 1)))
  ok src.toNat && (List.range count).all fun i => ok (wrap 64 (dst.toNat + i * stride))

/-- `cpy.fan` (R301). -/
def execCpyFan (x : Opnds) (n : BitVec 4) (ns : Bool) (s : State) : Host.Outcome State Fault Refusal :=
  s.issue (.cpyFan x n ns) fun x s =>
    let ex := s.exe x.g
    let len := x.ext.bytes
    let q := match x.c with
      | .s m => m.toNat
      | _ => 0
    let size := (s.sreg q).toNat
    let count := (s.sreg (q + 1)).toNat
    let stride := (s.sreg (q + 2)).toInt
    let slot := if ns then none else some n.toNat
    let addrs (t : Nat) : DWord × DWord := (.ofNat 64 (s.src x.ext .b64 t x.a), .ofNat 64 (s.src x.ext .b64 t x.b))
    let check (t : Nat) : Option LF :=
      if 65536 < size || count == 0 || 64 < count || s.sreg (q + 3) != 0 then some { cause := 0x1C }
      else if !fanCanonical (addrs t).1 (addrs t).2 size count stride then some { cause := 0x11, addr := (addrs t).1 }
      else if slot.any fun k => !s.arriveOk s.sel.blk k 0 then some (slotLF n.toNat)
      else none
    let fs := ex.filterMap fun t => (check t).map fun f => (t, f)
    let good := ex.filter fun t => (check t).isNone
    if good.isEmpty then (s.advanceBut len (fs.map (·.1))).finishFaults len fs
    else if s.bulkFull then s.stall
    else
      let dests := good.flatMap fun t => (List.range count).flatMap fun (i : Nat) =>
        let d := wrap 64 ((addrs t).2.toNat + i * stride)
        [d, (d + size - 1) % 2 ^ 64]
      (((((s.advanceBut len (fs.map (·.1))).queueBulk good (.fan (good.map addrs) size count stride slot)).irrevokePeer s.sel.blk
        dests).engineArrive s.sel.blk slot false).finishFaults len fs)

/-- The two forms of `cpy.seal` (R302, R303). -/
def State.sealOp (s : State) (i : Instr) (dec : Bool) : Host.Outcome State Fault Refusal :=
  s.issue i fun x s =>
    match s.exe x.g with
    | [] => s.advance x.ext.bytes
    | l :: ts =>
      let a : DWord := .ofNat 64 (s.src x.ext .b64 l x.a) + disp x.ext
      match alignedAt a 64 with
      | some f => s.uniformFault x f
      | none =>
        if s.bulkFull then s.stall
        else ((s.advance x.ext.bytes).queueBulk (l :: ts) (.sealed dec a)).irrevoke s.sel.blk

/-- `cpy.seal.enc` (R302). -/
def execCpySealEnc (x : Opnds) (s : State) : Host.Outcome State Fault Refusal := s.sealOp (.cpySealEnc x) false

/-- `cpy.seal.dec` (R302). -/
def execCpySealDec (x : Opnds) (s : State) : Host.Outcome State Fault Refusal := s.sealOp (.cpySealDec x) true

/-! ### Performing -/

/-- Update of a bulk command. -/
def State.modBulk (s : State) (d k : Nat) (f : BulkCmd → BulkCmd) : State :=
  s.modDie d fun x => { x with bulk := x.bulk.map fun c => if c.k == k then f c else c }

/-- A bulk command has finished. -/
def State.dropBulk (s : State) (d k : Nat) : State :=
  s.modDie d fun x => { x with bulk := x.bulk.filter fun c => c.k != k }

/-- A command that cannot say how it ended kills its block (R299, R301, R303). -/
def State.bulkFault (s : State) (d : Nat) (c : BulkCmd) : State := (s.dropBulk d c.k).copyFault c.blk

/-- A restartable fault of a bulk command: it waits on the record. -/
def State.bulkWait (s : State) (d : Nat) (c : BulkCmd) (cause why level acc va : Nat) : State :=
  let (s, seq) := s.engineFault c.blk cause why level acc va (.bulk c.k)
  s.modBulk d c.k fun x => { x with waitSeq := some seq }

/-- The command has ended with a code; its status word is next (R299). -/
def State.bulkCode (s : State) (d : Nat) (c : BulkCmd) (done code : Nat) : State :=
  s.modBulk d c.k fun x => { x with done := done, code := some code }

/-- The command's stores, and those of the lanes that issued it, are performed before its status word (R284, R299): none while
they cannot be. -/
def State.bulkRelease (s : State) (d : Nat) (c : BulkCmd) : Option State :=
  let ts := engineThr :: c.thrs
  if ts.any fun t => s.unsent c.blk t then none
  else
    let lines := (ts.flatMap fun t => s.maskedLines d c.blk t).eraseDups
    if lines.any (fun l => !s.served d l) || ts.any (fun t => s.heldFor c.blk t 4) then none else some (lines.foldl (fun s l => s.writeBack d l 256) s)

/-- The status word is stored and the command leaves the queue (R299). -/
def State.bulkStatus (s : State) (d : Nat) (c : BulkCmd) (va code : Nat) : State :=
  match s.bulkRelease d c with
  | none => s
  | some s1 =>
    let word := c.done + code * 2 ^ 32 + 2 ^ 63
    if va % 8 != 0 then s1.bulkFault d c
    else
      match s1.engWrite (s.blk c.blk).engine c.blk va ((toBytes 8 word).map fun b => (b, false)) with
      | (s2, none) => s2.dropBulk d c.k
      | (s2, some .wait) => s2
      | (s2, some (.fail _)) => s2.bulkFault d c
      | (s2, some (.fault cause why level acc a)) => s2.bulkWait d c cause why level acc a

/-- One entry's bytes are copied. -/
def State.copyBytes (s : State) (w : Who) (bid src dst n : Nat) : State × Option EngStop :=
  match s.engRead w (sectorParts src n) with
  | (s, .error x) => (s, some x)
  | (s, .ok bs) =>
    match s.engWrite w bid dst bs with
    | (s, none) => (s.closeAnswers false, none)
    | r => r

/-- After a list has stopped, each entry from there on may be unwritten, partly written or complete (R300): how far it came is a
free value. -/
def State.looseEntries (s : State) (w : Who) (bid : Nat) (buf : List Byte) : List Nat → State
  | [] => s
  | j :: js =>
    let (src, dst, n, ok) := glEntry buf j
    let (s, f) := s.draw
    let s := if ok then (s.copyBytes w bid src dst (f.toNat % (n + 1))).1 else s
    State.looseEntries s w bid buf js

/-- The entries of a list in order, from entry j on, `fuel` of them (R300). -/
def State.gatherRun (d : Nat) (c : BulkCmd) (buf : List Byte) (n : Nat) : Nat → Nat → State → State
  | 0, j, s => s.bulkCode d c j 0
  | fuel + 1, j, s =>
    let w := (s.blk c.blk).engine
    let (src, dst, len, ok) := glEntry buf j
    let rest := (List.range n).drop j
    if !ok then (s.looseEntries w c.blk buf rest).bulkCode d c j 4
    else
      match s.copyBytes w c.blk src dst len with
      | (s, none) => State.gatherRun d c buf n fuel (j + 1) s
      | (s, some .wait) => s.modBulk d c.k fun x => { x with done := j }
      | (s, some (.fail code)) => (s.looseEntries w c.blk buf rest).bulkCode d c j code
      | (s, some (.fault cause why level acc va)) => (s.modBulk d c.k fun x => { x with done := j }).bulkWait d c cause why level acc va

/-- A gather list is performed (R300, R303). -/
def State.gather (s : State) (d : Nat) (c : BulkCmd) (list n : Nat) : State :=
  match c.buf with
  | some buf => State.gatherRun d c buf n (n - c.done) c.done s
  | none =>
    match s.engRead (s.blk c.blk).engine (sectorParts list (32 * n)) with
    | (s, .error .wait) => s
    | (s, .error (.fail code)) => s.bulkCode d c 0 code
    | (s, .error (.fault cause why level acc va)) => s.bulkWait d c cause why level acc va
    | (s, .ok bs) =>
      if bs.any (·.2) then s.bulkCode d c 0 6
      else
        let buf := bs.map (·.1)
        State.gatherRun d c buf n n 0 (s.modBulk d c.k fun x => { x with buf := some buf })

/-- One lane's fan-out: every destination is written once all can be (R301). -/
def State.fanLane (s : State) (w : Who) (bid : Nat) (src dst : DWord) (len count : Nat) (stride : Int) : State × Option EngStop :=
  match s.engRead w (sectorParts src.toNat len) with
  | (s, .error x) => (s, some x)
  | (s, .ok bs) =>
    let dests := (List.range count).map fun (i : Nat) => sectorParts (wrap 64 (dst.toNat + i * stride)) len
    match s.engCanWrite w (bs.any (·.2)) dests.flatten with
    | (s, some x) => (s, some x)
    | (s, none) => (dests.foldl (fun s ps => s.engWriteParts w bid ps bs) s, none)

/-- The lanes of a fan-out copy in order (R301). -/
def State.fanRun (d : Nat) (c : BulkCmd) (len count : Nat) (stride : Int) (slot : Option Nat) : List (DWord × DWord) → Nat → State → State
  | [], _, s => s.dropBulk d c.k
  | (src, dst) :: r, j, s =>
    match s.fanLane (s.blk c.blk).engine c.blk src dst len count stride with
    | (s, none) => State.fanRun d c len count stride slot r (j + 1) (s.engineLand c.blk slot (count * len) c.pre)
    | (s, some .wait) => s.modBulk d c.k fun x => { x with done := j }
    | (s, some (.fail _)) => s.bulkFault d c
    | (s, some (.fault cause why level acc va)) =>
      if cause = 0x50 && why = 2 then s.bulkFault d c
      else (s.modBulk d c.k fun x => { x with done := j }).bulkWait d c cause why level acc va

/-- A key that a handle names for a use in a domain (R355); a memory key's slot is its domain's (log entry 29). -/
def State.keyOf (s : State) (h dom : Nat) (use : Option Nat) : Option KeySlot :=
  match Sparse.look (if field h 12 2 = 2 then s.hub.memKeys else s.hub.keys) (h % 256) with
  | none => none
  | some k =>
    if k.live && k.dom == dom && field h 8 4 == dom && field h 12 2 == k.use && field h 14 2 == 0 && h / 65536 == k.gen && k.gen != 0
        && use.all (· == k.use) then some k else none

/-- A data unit's output, with the poison of its sectors carried over (R302). -/
def sealUnit (dec : Bool) (key tweak : Nat) (bs : List EByte) : List EByte :=
  let out := Crypto.xts dec key (Config.tweakKey key) (tweak % 2 ^ 128) (bs.map (·.1))
  out.zipIdx.map fun e => (e.1, ((bs.drop (e.2 / 64 * 64)).take 64).any (·.2))

/-- The data units of a sealing command from unit j on (R302). -/
def State.sealRun (d : Nat) (c : BulkCmd) (dec : Bool) (key src dst len tweak : Nat) : Nat → Nat → State → State
  | 0, j, s => s.bulkCode d c j 0
  | fuel + 1, j, s =>
    let w := (s.blk c.blk).engine
    let n := min 4096 (len - 4096 * j)
    let stop (s : State) (x : EngStop) : State :=
      match x with
      | .wait => s.modBulk d c.k fun x => { x with done := j }
      | .fail code => s.bulkCode d c j code
      | .fault cause why level acc va => (s.modBulk d c.k fun x => { x with done := j }).bulkWait d c cause why level acc va
    match s.engRead w (sectorParts (src + 4096 * j) n) with
    | (s, .error x) => stop s x
    | (s, .ok bs) =>
      match s.engWrite w c.blk ((dst + 4096 * j) % 2 ^ 64) (sealUnit dec key (tweak + j) bs) with
      | (s, some x) => stop s x
      | (s, none) => State.sealRun d c dec key src dst len tweak fuel (j + 1) s

/-- A sealing command's descriptor (R302). -/
def State.sealStart (s : State) (d : Nat) (c : BulkCmd) (dec : Bool) (buf : List Byte) : State :=
  let f (lo n : Nat) : Nat := ofBytes ((buf.drop lo).take n)
  let src := f 0 8
  let dst := f 8 8
  let len := f 16 4
  let bad := !(buf.drop 40).all (· == 0) || len % 16 != 0 || len < 16 || 2 ^ 31 < len || src % 16 != 0 || dst % 16 != 0
    || (src != dst && src < dst + len && dst < src + len)
  if bad then s.bulkCode d c 0 4
  else
    match s.keyOf (f 20 4) (s.blk c.blk).hdr.domain (some 0) with
    | none => s.bulkCode d c 0 5
    | some k => State.sealRun d c dec k.key src dst len (f 24 8) ((len + 4095) / 4096 - c.done) c.done s

/-- A sealing command is performed (R302, R303). -/
def State.sealing (s : State) (d : Nat) (c : BulkCmd) (dec : Bool) (desc : Nat) : State :=
  match c.buf with
  | some buf => s.sealStart d c dec buf
  | none =>
    match s.engRead (s.blk c.blk).engine (sectorParts desc 64) with
    | (s, .error .wait) => s
    | (s, .error (.fail _)) => s.bulkFault d c
    | (s, .error (.fault cause why level acc va)) => s.bulkWait d c cause why level acc va
    | (s, .ok bs) =>
      if bs.any (·.2) then s.bulkFault d c
      else
        let buf := bs.map (·.1)
        (s.modBulk d c.k fun x => { x with buf := some buf }).sealStart d c dec buf

/-- The address of a command's status word, where it has one. -/
def BulkCmd.status (c : BulkCmd) : Nat :=
  match c.kind with
  | .gather _ _ st => st.toNat
  | .fan .. => 0
  | .sealed .. => match c.buf with
    | some buf => ofBytes ((buf.drop 32).take 8)
    | none => 0

/-! ### The package kernel's copies (R349, R390, R397, R408) -/

/-- Who a bulk engine works for that the package kernel uses: owner code 0x10 (R349). -/
def kernelWho (die : Nat) : Who := { die := die, core := none, dom := 0, asn := 0, root := 0, win := 2 ^ 64, code := 0x10 }

/-- The page by which the package kernel names a physical address (DESIGN CHOICE, log entry 53): in a peer alias direct access, 1 MiB of
the extent at a time; elsewhere 4 KiB of package scope. -/
def State.kernelPage (s : State) (pa : Nat) : Page :=
  match placeOf pa with
  | .peerAlias slot off =>
    let base := pa / 2 ^ 20 * 2 ^ 20
    { va := base, size := 2 ^ 20, pa := base, leaf := 0, shadow := false
      pte := 0x301F + 5 * 2 ^ 9 + 4 * 2 ^ 14 + (s.borrow slot).port * 2 ^ 20 + slot * 2 ^ 32 + off / 2 ^ 20 * 2 ^ 48 }
  | _ =>
    let base := pa / 4096 * 4096
    { va := base, size := 4096, pa := base, leaf := 0, shadow := false, pte := 0x301B + 4 * 2 ^ 9 + pa / 4096 * 2 ^ 20 }

/-- A copy of the package kernel goes on, or ends. -/
def State.setKcopy (s : State) (d : Nat) (c : KernelCopy) (n : Nat) : State :=
  s.modDie d fun x => { x with
    kcopies := if c.left ≤ n then x.kcopies.filter fun y => y.k != c.k
      else x.kcopies.map fun y => if y.k == c.k then { y with src := c.src + n, dst := c.dst + n, left := c.left - n } else y }

/-- The next bytes of a copy of the package kernel, within one sector of each range. One that is refused ends there: the manual names no one who is
told (DESIGN CHOICE, log entry 53). -/
def State.kcopyStep (s : State) (d : Nat) (c : KernelCopy) : State :=
  let w := kernelWho d
  let n := min c.left (min (64 - c.src % 64) (64 - c.dst % 64))
  let src := s.kernelPage c.src
  let dst := s.kernelPage c.dst
  let drop (s : State) : State := s.setKcopy d c c.left
  if (s.checkPage w src c.src n .read).isSome || (s.checkPage w dst c.dst n .write).isSome then drop s
  else
    match s.storeStop w dst c.dst with
    | some .wait => s.askPeer w dst
    | some _ => drop s
    | none =>
      match s.engReadPage w src c.src n with
      | (s, .error .wait) => s
      | (s, .error _) => drop s
      | (s, .ok bs) => (s.engStorePage w dst c.dst bs []).1.setKcopy d c n

/-- BULK_COMMAND_PERFORM (R299): a bulk engine performs a queued command, or goes on with it. -/
def execBulkCommandPerform (die k : Nat) (s : State) : Host.Outcome State Fault Refusal :=
  match (s.die die).bulk.find? fun c => c.k == k with
  | none => .next (((s.die die).kcopies.find? fun c => c.k == k).elim s (s.kcopyStep die))
  | some c =>
    if c.waitSeq.isSome then .next s
    else
      let known := match c.kind with
        | .gather .. => true
        | .fan .. => false
        | .sealed .. => c.buf.isSome
      match c.code with
      | some code => .next (if c.cancelled then s.bulkFault die c else s.bulkStatus die c c.status code)
      | none =>
        if c.cancelled then .next (if known then (s.bulkCode die c c.done 1).modBulk die k fun x => { x with cancelled := false }
          else s.bulkFault die c)
        else
          .next (match c.kind with
            | .gather list n _ => s.gather die c list.toNat n
            | .fan lanes len count stride slot => State.fanRun die c len count stride slot (lanes.drop c.done) c.done s
            | .sealed dec desc => s.sealing die c dec desc.toNat)

end Sys2Proof.Machine
end

