-- ==== Sys2Proof/Machine/Control.lean ====
section
/-! DEFINITION. Control.lean: branches, calls and exit, rejoin masks, regrouping, traps and `nap` (R94 to R101, R109 to R111,
R134, R159, R160). -/

namespace Sys2Proof.Machine

/-- Executing lanes go each to its target: one that is not canonical takes FETCH at the branch (R48). -/
def State.jump (s : State) (len : Nat) (ts : List (Nat × DWord)) : State :=
  let bad := ts.filter fun e => !canonical e.2
  let good := ts.filter fun e => canonical e.2
  ((s.advanceBut len (bad.map (·.1))).modCb fun b =>
    good.foldl (fun b e => b.modThr e.1 fun t => { t with pc := e.2 }) b).finishFaults len
      (bad.map fun e => (e.1, { cause := 0x12, addr := e.2 }))

/-- Executing lanes branch: a taken backward branch ends the turn (R129). -/
def State.branch (s : State) (len : Nat) (ts : List (Nat × DWord)) : State :=
  (if ts.any fun e => canonical e.2 && decide (e.2.toNat ≤ s.sel.pc.toNat) then s.endTurn else s).jump len ts

/-- The target of a PC-relative branch (R94). -/
def relTarget (pc : DWord) (e : Ext) : DWord :=
  match e with
  | .e96 imm => pc + sext32 imm
  | _ => pc

/-- `bra` (R94). -/
def execBra (x : Opnds) (s : State) : Host.Outcome State Fault Refusal :=
  s.issue (.bra x) fun x s => s.branch x.ext.bytes ((s.exe x.g).map fun l => (l, relTarget s.sel.pc x.ext))

/-- The targets of an indirect branch (R95). -/
def indirect (x : Opnds) (s : State) : List (Nat × DWord) :=
  (s.exe x.g).map fun l => (l, .ofNat 64 (s.src x.ext .b64 l x.a))

/-- `brx` (R95). -/
def execBrx (x : Opnds) (s : State) : Host.Outcome State Fault Refusal :=
  s.issue (.brx x) fun x s => s.branch x.ext.bytes (indirect x s)

/-- `ret` (R95): the effect of `brx`. -/
def execRet (x : Opnds) (s : State) : Host.Outcome State Fault Refusal :=
  s.issue (.ret x) fun x s => s.branch x.ext.bytes (indirect x s)

/-- `call` (R96): PC + 12 into d, then the jump, which ends no turn (R129). -/
def execCall (x : Opnds) (s : State) : Host.Outcome State Fault Refusal :=
  s.issue (.call x) fun x s =>
    let ts := (s.exe x.g).map fun l => (l, relTarget s.sel.pc x.ext)
    let good := ts.filter fun e => canonical e.2
    (s.write x.d 2 (good.map fun e => (e.1, (s.sel.pc + 12).toNat))).jump x.ext.bytes ts

/-- `exit` (R97). A lane in the supervisor handler passes on: R117 lists no way from faulted to exited (log entry 21). -/
def execExit (x : Opnds) (s : State) : Host.Outcome State Fault Refusal :=
  s.issue (.exit x) fun x s =>
    let ends := (s.exe x.g).filter fun l => (s.cb.thr l).status == .running
    (ends.foldl (fun s l => s.endThread s.sel.blk l .exited) (s.advanceBut x.ext.bytes ends)).settle s.sel.blk

/-! ### Rejoin masks (R98 to R101) -/

/-- The mask that a destination names. -/
def maskNo : Dst → Nat
  | .j n => n.toNat
  | _ => 0

/-- The lanes of a list that live in a home bundle, as a mask. -/
def laneMask (ts : List Nat) (bundle : Nat) : Nat := maskOf ((ts.filter fun t => homeBundle t == bundle).map homeLane)

/-- A mask of each home bundle of the executing lanes is changed, then releases are tried (R98, R99, R136). -/
def State.changeMasks (s : State) (len : Nat) (ts : List Nat) (n : Nat) (f : Nat → Nat → Nat) : State :=
  ((s.advance len).modCb fun b => ((ts.map homeBundle).eraseDups).foldl (fun b k =>
    b.setMask k n (f (b.mask k n) (laneMask ts k))) b).settle s.sel.blk

/-- Lanes of m that are not in e. -/
def maskDiff (m e : Nat) : Nat := maskOf ((bitsOf m 128).filter fun h => !bitAt e h)

/-- `jenr` (R98). -/
def execJenr (x : Opnds) (s : State) : Host.Outcome State Fault Refusal :=
  s.issue (.jenr x) fun x s => s.changeMasks x.ext.bytes (s.exe x.g) (maskNo x.d) fun m e => m ||| e

/-- `jenr.set` (R98). -/
def execJenrSet (x : Opnds) (s : State) : Host.Outcome State Fault Refusal :=
  s.issue (.jenrSet x) fun x s => s.changeMasks x.ext.bytes (s.exe x.g) (maskNo x.d) fun _ e => e

/-- `jpark` (R98, R99): each executing lane in the mask parks, at its `jpark`, and leaves its drawn bundle (R136); where the mask
releases at once, the lane does not park and issues on where it was. A lane in the supervisor handler passes
on (R117, log entry 21). -/
def execJpark (x : Opnds) (s : State) : Host.Outcome State Fault Refusal :=
  s.issue (.jpark x) fun x s =>
    let n := maskNo x.d
    let len := x.ext.bytes
    let b0 := s.cb
    let ps := (s.exe x.g).filter fun l =>
      bitAt (b0.mask (homeBundle l) n) (homeLane l) && (b0.thr l).status == .running
    let s1 := (s.advanceBut len ps).modCb fun b =>
      b.modThrs ps fun _ t => { t with status := .parked n, parkLen := len }
    let s2 := s1.modCb fun b => ((ps.map homeBundle).eraseDups).foldl (fun b k => b.tryRelease k n) b
    (s2.modCb fun b => b.modThrs ps fun _ t =>
      { t with ctx := if t.status == .parked n then none else t.ctx }).settle s.sel.blk

/-- `jstrike` (R98). -/
def execJstrike (x : Opnds) (s : State) : Host.Outcome State Fault Refusal :=
  s.issue (.jstrike x) fun x s => s.changeMasks x.ext.bytes (s.exe x.g) (maskNo x.d) maskDiff

/-- `jstrike.all` (R98). -/
def execJstrikeAll (x : Opnds) (s : State) : Host.Outcome State Fault Refusal :=
  s.issue (.jstrikeAll x) fun x s =>
    ((s.advance x.ext.bytes).modCb fun b => (s.exe x.g).foldl (fun b l => b.leaveMasks l) b).settle s.sel.blk

/-! ### Regrouping (R134, R159) -/

/-- The partition of a thread's home bundle (R120). -/
def Block.homePart (b : Block) (t : Nat) : Nat := 4 * b.core + homeBundle t % 4

/-- The clock at which a bin was opened: its oldest entry. -/
def Bin.opened (b : Bin) : Nat := (b.threads.map (·.2)).foldl min ((b.threads.map (·.2)).headD 0)

/-- The bin into which a thread is filed (R134, R136): the oldest open bin of the key and role with a free slot for its home
lane, otherwise a free bin. -/
def State.pickBin (s : State) (bid t : Nat) (pc : DWord) : Option Nat :=
  let b := s.blk bid
  let role := if b.hdr.unroled then 2 else b.hdr.role (homeBundle t)
  let bins := (s.part (b.homePart t)).bins
  let fits := bins.filter fun e =>
    e.2.blk == bid && e.2.pc == pc && e.2.donorRole == role && e.2.threads.all fun u => homeLane u.1 != homeLane t
  match fits with
  | e :: es => some ((es.foldl (fun best e => if e.2.opened < best.2.opened then e else best) e).1)
  | [] => (List.range 16).find? fun k => (Sparse.look bins k).isNone

/-- A thread is filed under its next PC, or, where it cannot be, runs on as the unregrouped form leaves it (R134, R159). A lane in the supervisor
handler, and every lane in afterglow mode, is not filed. -/
def State.file (s : State) (bid t : Nat) (pc : DWord) : State :=
  let b := s.blk bid
  let stay (s : State) : State := s.modBlk bid fun b =>
    b.modThr t fun x => { x with pc := pc, wait := .none, group := 0 }
  if b.trail.isSome || (b.thr t).status != .running then stay s
  else
    match s.pickBin bid t pc with
    | none => stay s
    | some k =>
      let role := if b.hdr.unroled then 2 else b.hdr.role (homeBundle t)
      let clk := (s.die (b.core / 48)).clk
      let s := s.modPart (b.homePart t) fun p =>
        let old := (Sparse.look p.bins k).getD { blk := bid, pc := pc, donorRole := role, threads := [] }
        { p with bins := Sparse.put p.bins k { old with threads := old.threads ++ [(t, clk)] } }
      s.modBlk bid fun b => b.modThr t fun x =>
        { x with status := .binned k, pc := pc, ctx := none, wait := .none, group := 0 }

/-- `reform` (R159). -/
def execReform (x : Opnds) (s : State) : Host.Outcome State Fault Refusal :=
  s.issue (.reform x) fun x s =>
    let next := s.sel.pc + .ofNat 64 x.ext.bytes
    ((s.exe x.g).foldl (fun s l => s.file s.sel.blk l next) (s.advance x.ext.bytes)).settle s.sel.blk

/-- `brd` (R159): every active lane is filed, executing lanes under the target. -/
def execBrd (x : Opnds) (s : State) : Host.Outcome State Fault Refusal :=
  s.issue (.brd x) fun x s =>
    let target := relTarget s.sel.pc x.ext
    let next := s.sel.pc + 12
    let ex := s.exe x.g
    let s1 := if canonical target && !ex.isEmpty && target.toNat ≤ s.sel.pc.toNat then s.endTurn else s
    let bad := if canonical target then [] else ex
    let s2 := s.sel.act.foldl (fun s l =>
      if bad.contains l then s else s.file s.sel.blk l (if ex.contains l then target else next))
      (s1.advanceBut x.ext.bytes bad)
    (s2.fault x.ext.bytes (bad.map fun l => (l, { cause := 0x12, addr := target }))).settle s.sel.blk

/-- `yield` (R160). -/
def execYield (x : Opnds) (s : State) : Host.Outcome State Fault Refusal :=
  s.issue (.yield x) fun x s =>
    match s.first x.g with
    | none => s.advance x.ext.bytes
    | some _ =>
      let s1 := (s.advance x.ext.bytes).endTurn
      match s.sel.ctx with
      | .home n => s1.modCb fun b => b.modBundle n fun y => { y with age := s.clk }
      | .drawn k => s1.modCb fun b => b.modDrawn k fun y => { y with age := s.clk }

/-! ### Traps and nap (R109 to R111) -/

/-- `trap` (R109). -/
def execTrap (x : Opnds) (n : Byte) (s : State) : Host.Outcome State Fault Refusal :=
  s.issue (.trap x n) fun x s =>
    (s.advanceBut x.ext.bytes (s.exe x.g)).finishFaults x.ext.bytes
      ((s.exe x.g).map fun l => (l, { cause := 0x20, n := n.toNat }))

/-- `brk` (R110). -/
def execBrk (x : Opnds) (s : State) : Host.Outcome State Fault Refusal :=
  s.issue (.brk x) fun x s =>
    if s.cb.dbgctl.toNat % 2 = 0 then s.advance x.ext.bytes
    else (s.advanceBut x.ext.bytes (s.exe x.g)).finishFaults x.ext.bytes
      ((s.exe x.g).map fun l => (l, { cause := 0x21 }))

/-- `nap` (R111): the subset does not issue again for the largest bound of its executing lanes. -/
def execNap (x : Opnds) (s : State) : Host.Outcome State Fault Refusal :=
  s.issue (.nap x) fun x s =>
    let t := ((s.exe x.g).map fun l => min (s.src x.ext .b32 l x.a) (2 ^ 20)).foldl max 0
    let s1 := (s.advance x.ext.bytes).endTurn
    if t = 0 then s1
    else s1.modCb fun b => b.modThrs s.sel.act fun _ th => { th with napUntil := s.clk + t }

/-- NAP_EXPIRY (R111): the bound of a nap has passed. -/
def execNapExpiry (blk thr : Nat) (s : State) : Host.Outcome State Fault Refusal :=
  let b := s.blk blk
  if (b.thr thr).napUntil ≤ (s.die (b.core / 48)).clk then
    .next (s.modBlk blk fun b => b.modThr thr fun t => { t with napUntil := 0 })
  else .next s

end Sys2Proof.Machine
end

