-- ==== Sys2Proof/Machine/Convert.lean ====
section
/-! DEFINITION. Convert.lean: conversion and narrow-format instructions (R87 to R93, R410). -/

namespace Sys2Proof.Machine

open Sys2Proof.Fp (Val Exact Flags)

/-- The integer type of a conversion code, and the FP format of one (R87). -/
def ctyInt : CTy → Option ITy
  | .s32 => some .s32 | .n32 => some .n32 | .s64 => some .s64 | .n64 => some .n64 | .s16 => some .s16 | .n16 => some .n16
  | .s8 => some .s8 | .n8 => some .n8 | .f32 | .f16 | .bf16 => none

/-- The FP type of a conversion code. -/
def ctyFp : CTy → FTy
  | .f16 => .f16
  | .bf16 => .bf16
  | _ => .f32

/-- The operand type of a conversion code. -/
def ctyOp (t : CTy) : OpTy :=
  match ctyInt t with
  | some i => i.op
  | none => .fp (ctyFp t)

/-- The value of `cvt` (R57, R87). -/
def cvtVal (d s : CTy) (rnd : Rnd) (sat : Bool) (a : Nat) : Nat × Flags :=
  match ctyInt s, ctyInt d with
  | some i, some o => (extend o.bits o.signed (fit o.bits o.signed sat (readInt i.bits i.signed a)), 0)
  | some i, none => finish (ctyFp d).fmt rnd sat (Fp.ofInt (readInt i.bits i.signed a), 0)
  | none, some o =>
    let (n, fl) := Fp.toIntSat rnd (Fp.unpack (ctyFp s).fmt a) (minInt o.bits o.signed) (maxInt o.bits o.signed)
    (extend o.bits o.signed (wrap o.bits n), fl)
  | none, none =>
    let v := Fp.unpack (ctyFp s).fmt a
    finish (ctyFp d).fmt rnd sat (v.exact, Fp.snanFlags [v])

/-- The FP type of a scalar format. -/
def ffmtTy : FFmt → FTy
  | .f32 => .f32
  | .f16 => .f16
  | .bf16 => .bf16

/-- `cvt` (R87). -/
def execCvt (x : Opnds) (d src : CTy) (rnd : Rnd) (sat : Bool) (s : State) : Host.Outcome State Fault Refusal :=
  s.alu (.cvt x d src rnd sat) d.regs fun x s l => cvtVal d src rnd sat (s.src x.ext (ctyOp src) l x.a)

/-- The scale code of a scaled conversion; 127, the scale 2^0, without `.sc` (R88). -/
def scaleOf (s : State) (x : Opnds) (sc : Bool) (l : Nat) : Nat := if sc then s.src x.ext .b32 l x.b % 256 else 127

/-- The container index is legal for the format (R88, R90). -/
def containerOk (f : Nf.Fmt) (last : Nat) : Bool := decide (last * f.container + f.container ≤ 32)

/-- `cvt.nf.enc` (R88). -/
def execCvtNfEnc (x : Opnds) (f : BitVec 4) (t : FFmt) (sc : Bool) (k : BitVec 3) (s : State) :
    Host.Outcome State Fault Refusal :=
  s.issue (.cvtNfEnc x f t sc k) fun x s =>
    let fm := Nf.fmtOf (s.freg f.toNat)
    if !containerOk fm k.toNat then s.trapAll x.ext.bytes 2
    else
      let w := fm.container
      let rs := (s.exe x.g).map fun l =>
        let sx := scaleOf s x sc l
        let (code, fl) : Nat × Flags := if sc && sx == 255 then (fm.nanOrZero, Fp.inv)
          else Nf.encode fm (Fp.unpack t (s.src x.ext (.fp (ffmtTy t)) l x.a)) (127 - (sx : Int))
        let c := s.src x.ext .b32 l x.c
        (l, c - field c (w * k.toNat) w * 2 ^ (w * k.toNat) + code * 2 ^ (w * k.toNat), fl)
      ((s.advance x.ext.bytes).write x.d 1 (rs.map fun r => (r.1, r.2.1))).flagLanes (rs.map fun r => (r.1, r.2.2))

/-- `cvt.nf.dec` (R88). -/
def execCvtNfDec (x : Opnds) (f : BitVec 4) (t : FFmt) (sc : Bool) (k : BitVec 3) (s : State) :
    Host.Outcome State Fault Refusal :=
  s.issue (.cvtNfDec x f t sc k) fun x s =>
    let fm := Nf.fmtOf (s.freg f.toNat)
    if !containerOk fm k.toNat then s.trapAll x.ext.bytes 2
    else
      let w := fm.container
      let rs := (s.exe x.g).map fun l =>
        (l, Nf.decode fm (field (s.src x.ext .nf l x.a) (w * k.toNat) w) (scaleOf s x sc l) t)
      ((s.advance x.ext.bytes).write x.d 1 (rs.map fun r => (r.1, r.2.1))).flagLanes (rs.map fun r => (r.1, r.2.2))

/-- The block length of a code. -/
def blkLen : BlkLen → Nat
  | .b8 => 8
  | .b16 => 16
  | .b32 => 32
  | .b64 => 64

/-- `cvt.nfb` (R89): each block of B home lanes takes the scale chosen from its executing lanes. -/
def execCvtNfb (x : Opnds) (b : BlkLen) (f : BitVec 4) (t : FFmt) (s : State) : Host.Outcome State Fault Refusal :=
  s.issue (.cvtNfb x b f t) fun x s =>
    let w := s.freg f.toNat
    let fm := Nf.fmtOf w
    let ts := s.exe x.g
    let blockOf (l : Nat) : Nat := homeLane l / blkLen b
    let val (l : Nat) : Val := Fp.unpack t (s.src x.ext (.fp (ffmtTy t)) l x.a)
    let limit := min (s.src x.ext .b32 (ts.headD 0) x.b) 255
    let rs := (ts.map blockOf).eraseDups.flatMap fun k =>
      let ls := ts.filter fun l => blockOf l == k
      let (scale, u) := Nf.chooseScale w (ls.map val) limit
      let tag := (scale + 256 * u) * 65536
      ls.map fun l =>
        if scale = 255 then (l, fm.nanOrZero + tag, if some l == ls.head? then Fp.inv else 0)
        else
          let (code, fl) := Nf.encode fm (val l) (127 - (scale : Int))
          (l, code + tag, fl)
    ((s.advance x.ext.bytes).write x.d 1 (rs.map fun r => (r.1, r.2.1))).flagLanes (rs.map fun r => (r.1, r.2.2))

/-- `unpk.nf` (R90). -/
def execUnpkNf (x : Opnds) (f : BitVec 4) (bf sc : Bool) (k : BitVec 2) (s : State) : Host.Outcome State Fault Refusal :=
  s.issue (.unpkNf x f bf sc k) fun x s =>
    let fm := Nf.fmtOf (s.freg f.toNat)
    let t : FFmt := if bf then .bf16 else .f16
    if !containerOk fm (2 * k.toNat + 1) then s.trapAll x.ext.bytes 2
    else
      let w := fm.container
      let rs := (s.exe x.g).map fun l =>
        let a := s.src x.ext .nf l x.a
        let (e0, f0) := Nf.decode fm (field a (w * (2 * k.toNat)) w) (scaleOf s x sc l) t
        let (e1, f1) := Nf.decode fm (field a (w * (2 * k.toNat + 1)) w) (scaleOf s x sc l) t
        (l, e0 + 65536 * e1, f0 ||| f1)
      ((s.advance x.ext.bytes).write x.d 1 (rs.map fun r => (r.1, r.2.1))).flagLanes (rs.map fun r => (r.1, r.2.2))

/-- `fmt.set` (R91): once per issue, without any check. -/
def execFmtSet (x : Opnds) (f : BitVec 4) (s : State) : Host.Outcome State Fault Refusal :=
  s.issue (.fmtSet x f) fun x s =>
    match s.first x.g with
    | none => s.advance x.ext.bytes
    | some l => (s.advance x.ext.bytes).setFreg f.toNat (.ofNat 16 (s.src x.ext .b32 l x.a))

/-- `fmt.get` (R91). -/
def execFmtGet (x : Opnds) (f : BitVec 4) (s : State) : Host.Outcome State Fault Refusal :=
  s.alu (.fmtGet x f) 1 fun _ s _ => ((s.freg f.toNat).toNat, 0)

/-- `flags.get` (R92). -/
def execFlagsGet (x : Opnds) (s : State) : Host.Outcome State Fault Refusal :=
  s.alu (.flagsGet x) 1 fun _ s l => ((s.cb.thr l).nflags.toNat, 0)

/-- `flags.clr` (R92). -/
def execFlagsClr (x : Opnds) (s : State) : Host.Outcome State Fault Refusal :=
  s.issue (.flagsClr x) fun x s =>
    let rs := (s.exe x.g).map fun l => (l, s.src x.ext .b32 l x.a)
    (s.advance x.ext.bytes).modCb fun b =>
      rs.foldl (fun b r => b.modThr r.1 fun t => { t with nflags := t.nflags &&& ~~~(BitVec.ofNat 6 r.2) }) b

/-- `pack` (R93). -/
def execPack (x : Opnds) (t : PackTy) (rnd : Rnd) (s : State) : Host.Outcome State Fault Refusal :=
  s.alu (.pack x t rnd) 1 fun x s l =>
    match t with
    | .b16 => (s.src x.ext .b32 l x.b % 65536 * 65536 + s.src x.ext .b32 l x.a % 65536, 0)
    | .f16x2 | .bf16x2 =>
      let f : FFmt := if t == .f16x2 then .f16 else .bf16
      let half (a : Src) : Nat × Flags :=
        let v := Fp.unpack .f32 (s.src x.ext (.fp .f32) l a)
        finish f rnd false (v.exact, Fp.snanFlags [v])
      ((half x.a).1 + 65536 * (half x.b).1, (half x.a).2 ||| (half x.b).2)

/-- `unpack` (R93). -/
def execUnpack (x : Opnds) (hi : Bool) (t : UnpTy) (s : State) : Host.Outcome State Fault Refusal :=
  s.alu (.unpack x hi t) 1 fun x s l =>
    let ty : OpTy := match t with | .f16x2 => .fp .f16x2 | .bf16x2 => .fp .bf16x2 | _ => .b32
    let e := field (s.src x.ext ty l x.a) (if hi then 16 else 0) 16
    match t with
    | .n16 => (e, 0)
    | .s16 => (extend 16 true e, 0)
    | .f16x2 | .bf16x2 =>
      let v := Fp.unpack (if t == .f16x2 then .f16 else .bf16) e
      finish .f32 .rn false (v.exact, Fp.snanFlags [v])

end Sys2Proof.Machine
end

