-- ==== Sys2Proof/Machine/Matrix.lean ====
section
/-! DEFINITION. Matrix.lean: operand-buffer records and their fills, accumulator tiles in block floating point, and the matrix
instructions (R201 to R234). -/

namespace Sys2Proof

/-- Bytes of an element, of the header, and the alignment of a form (R223). -/
def AccForm.sizes : AccForm → Nat × Nat × Nat
  | .f32 => (4, 0, 4)
  | .bf16 => (2, 0, 2)
  | .raw => (8, 16, 16)

/-- The bytes that a row of N elements takes (R223). -/
def AccForm.length (k : AccForm) (n : Nat) : Nat := k.sizes.2.1 + k.sizes.1 * n

end Sys2Proof

namespace Sys2Proof.Machine

open Sys2Proof.Fp (Val Flags)

/-! ### Tiles (R204, R205) -/

/-- A row's reset state (R204). `acc.e`, for which the table gives no reset value, is 0 (DESIGN CHOICE, log entry 53). -/
def AccRow.reset : AccRow := { m := [], mask := 0, e := 0, empty := true, rtrc := false, rren := false, rinv := false }

/-- A tile's reset state (R204). -/
def Tile.reset : Tile := { rows := [], rcount := 0, event := 0, arm := false }

/-- A tile of a partition. -/
def Partition.tile (p : Partition) (t : Nat) : Tile := Sparse.getOr p.tiles t Tile.reset

/-- Update of a tile. -/
def Partition.modTile (p : Partition) (t : Nat) (f : Tile → Tile) : Partition :=
  { p with tiles := Sparse.putOr p.tiles t (f (p.tile t)) Tile.reset }

/-- A row of a tile. -/
def Tile.row (t : Tile) (i : Nat) : AccRow := Sparse.getOr t.rows i AccRow.reset

/-- A mantissa as an integer (R204). -/
def AccRow.mant (r : AccRow) (j : Nat) : Int := (Sparse.getOr r.m j 0).toInt

/-- A mantissa is set. -/
def AccRow.setMant (r : AccRow) (j : Nat) (x : Int) : AccRow := { r with m := Sparse.putOr r.m j (.ofInt 48 x) 0 }

/-- An element's mask bit. -/
def AccRow.masked (r : AccRow) (j : Nat) : Bool := r.mask.getLsbD j

/-- An element's mask bit is set. -/
def AccRow.setMask (r : AccRow) (j : Nat) (b : Bool) : AccRow :=
  { r with mask := (r.mask &&& ~~~(1#128 <<< j)) ||| (if b then 1#128 <<< j else 0) }

/-- The largest magnitude among the mantissas. -/
def AccRow.maxAbs (r : AccRow) : Nat := r.m.foldl (fun a e => max a e.2.toInt.natAbs) 0

/-- Headroom H (R205). -/
def AccRow.headroom (r : AccRow) : Nat := if r.empty then 47 else 47 - bitlen r.maxAbs

/-! ### Alignment, preparation and renormalisation (R206 to R208) -/

/-- `align` (R206): the magnitude truncated toward zero at 2^e, and whether bits were discarded. -/
def align (p : Fp.Dyadic) (e : Int) : Int × Bool :=
  let a := p.m.natAbs
  let q := if e ≤ p.e then a * 2 ^ (p.e - e).toNat else a / 2 ^ (e - p.e).toNat
  (if p.m < 0 then -(q : Int) else q, decide (p.e < e) && a % 2 ^ (e - p.e).toNat != 0)

/-- m ÷ 2^s to the nearest integer, ties to even (R207). -/
def rneShift (m : Int) (s : Nat) : Int :=
  let a := m.natAbs
  let q := a / 2 ^ s
  let r := a % 2 ^ s
  let q := if 2 ^ s < 2 * r || (2 * r == 2 ^ s && q % 2 == 1) then q + 1 else q
  if m < 0 then -(q : Int) else q

/-- need(x) (R207) for pmax < 2^t and c = ⌈log2 Kp⌉. -/
def need (t x : Int) (c : Nat) : Nat := (max 0 (t - x)).toNat + c + 1

/-- A shift leaves the headroom that the instruction needs. -/
def shiftFits (mx : Nat) (e t : Int) (c s : Nat) : Bool :=
  decide (need t (e + s) c ≤ 47 - bitlen (rneShift mx s).natAbs)

/-- The largest shift below 2^n that does not fit, counted on from `lo`: a larger shift fits wherever a smaller one does. -/
def lastUnfit (fits : Nat → Bool) : Nat → Nat → Nat
  | 0, lo => lo
  | n + 1, lo => lastUnfit fits n (if fits (lo + 2 ^ n) then lo else lo + 2 ^ n)

/-- The shift by which a row renormalises before an instruction adds to it (R207): 0 where it does not. -/
def AccRow.shift (r : AccRow) (t : Int) (c : Nat) : Nat :=
  if r.empty || decide (need t r.e c ≤ r.headroom) then 0 else lastUnfit (shiftFits r.maxAbs r.e t c) 17 0 + 1

/-- `renormalise` (R208) of one row: the row and its lane's flags. -/
def AccRow.renormalise (r : AccRow) (s : Nat) : AccRow × Flags :=
  let ys := (r.m.map fun x => (x.1, x.2.toInt, rneShift x.2.toInt s))
  let lost := ys.any fun y => y.2.2 * (2 ^ s : Nat) != y.2.1
  let big := decide (32767 < r.e + s)
  ({ r with
      m := (ys.map fun y => (y.1, BitVec.ofInt 48 y.2.2)).filter fun y => y.2 != 0
      e := if big then 32767 else r.e + s, rtrc := r.rtrc || lost, rren := true },
    (if lost then Fp.trc else 0) ||| (if big then Fp.inv else 0))

/-- The event record of R209. -/
def eventRec (seq row bundle op shift : Nat) (e : Int) (count : Nat) : BitVec 128 :=
  .ofNat 128 (seq + row * 2 ^ 32 + bundle * 2 ^ 40 + op * 2 ^ 44 + min shift 65535 * 2 ^ 48 + wrap 16 e * 2 ^ 64
    + count * 2 ^ 80 + 2 ^ 96)

/-! ### The issuing partition -/

/-- The issuing partition's number, 4 × core + partition. -/
def State.mp (s : State) : Nat := s.cb.partOf s.sel.ctx

/-- A row of a tile of the issuing partition. -/
def State.accRow (s : State) (t i : Nat) : AccRow := ((s.part s.mp).tile t).row i

/-- A row of a tile is rewritten; its old value is logged first (R145). -/
def State.setRow (s : State) (t i : Nat) (r : AccRow) : State :=
  let p := s.mp
  (s.log s.sel.blk (.trow (p % 4) t i (s.accRow t i))).modPart p fun x => x.modTile t fun y => { y with
    rows := Sparse.putOr y.rows i r AccRow.reset }

/-- A row renormalises (R208): its row, its lane's flags, the tile's count and event. -/
def State.renormRow (s : State) (tile thr shift op : Nat) : State :=
  let i := homeLane thr
  let (r, fl) := (s.accRow tile i).renormalise shift
  ((s.setRow tile i r).modPart s.mp fun p => p.modTile tile fun y =>
    let n := min (y.rcount + 1) 65535
    { y with rcount := n, event := eventRec p.seq i (homeBundle thr) op shift r.e n }).flagLanes [(thr, fl)]

/-- The tile and row changes of each executing lane, none of which faults. -/
def State.eachRow (s : State) (i : Instr) (f : Opnds → State → Nat → State) : Host.Outcome State Fault Refusal :=
  s.issue i fun x s => ((s.exe x.g).foldl (f x) s).advance x.ext.bytes

/-! ### Records (R212 to R214) -/

namespace ObRec

/-- A field of the descriptor (R213). -/
def fld (r : ObRec) (lo n : Nat) : Nat := field r.desc.toNat lo n
/-- `ob.base` in 256-byte units. -/
def base (r : ObRec) : Nat := r.fld 0 10
/-- `ob.len`: the length in 256-byte units, minus 1. -/
def len (r : ObRec) : Nat := r.fld 10 10
/-- Bytes of the record. -/
def size (r : ObRec) : Nat := 256 * (r.len + 1)
/-- `ob.type`. -/
def type (r : ObRec) : Nat := r.fld 24 4
/-- Block length in elements: `ob.blk`. -/
def blkLen (r : ObRec) : Nat := 8 * 2 ^ r.fld 28 2
/-- `ob.stride`. -/
def stride (r : ObRec) : Nat := r.fld 32 16
/-- `ob.sstride`. -/
def sstride (r : ObRec) : Nat := r.fld 48 16
/-- `ob.soff`. -/
def soff (r : ObRec) : Nat := r.fld 64 18
/-- `ob.bv`. -/
def backed (r : ObRec) : Bool := bitAt r.desc.toNat 96
/-- `ob.bcore`. -/
def bcore (r : ObRec) : Nat := r.fld 97 2
/-- `ob.baddr`. -/
def baddr (r : ObRec) : Nat := r.fld 100 20
/-- Narrow types. -/
def narrow (r : ObRec) : Bool := r.type == 2 || r.type == 3

/-- Bits of an element's container (R214). -/
def elemBits (r : ObRec) : Nat := if r.narrow then (Nf.fmtOf r.fmt).container else 16

/-- The first bit of an element's container within the record (R214). -/
def elemBit (r : ObRec) (i e : Nat) : Nat := i * r.stride * 8 + e * r.elemBits

/-- The byte of an element's scale within the record (R214). -/
def scaleByte (r : ObRec) (i e : Nat) : Nat := r.soff + i * r.sstride + e / r.blkLen

/-- An element and its scale are in range (R214). -/
def fits (r : ObRec) (i e : Nat) : Bool :=
  decide ((r.elemBit i e + r.elemBits - 1) / 8 < r.size) && (r.type != 3 || decide (r.scaleByte i e < r.size))

/-- The bytes of the record that an element is read from. -/
def elemAt (r : ObRec) (i e : Nat) : List Nat :=
  let lo := r.elemBit i e / 8
  (List.range ((r.elemBits + 7) / 8)).map (lo + ·) ++ (if r.type = 3 then [r.scaleByte i e] else [])

end ObRec

/-- A record of a partition; FREE where none is listed (R212). -/
def Partition.ob (p : Partition) (n : Nat) : ObRec := Sparse.getOr p.records n { state := .free, desc := 0, fmt := 0 }

/-- A record's state changes; a FREE record keeps nothing. -/
def Partition.setOb (p : Partition) (n : Nat) (r : ObRec) : Partition :=
  { p with records := if r.state == .free then Sparse.del p.records n else Sparse.put p.records n r }

/-- A byte of a record's buffer range. -/
def Partition.obByte (p : Partition) (r : ObRec) (k : Nat) : Nat := (Sparse.getOr p.buf (256 * r.base + k) 0).toNat

/-- The value of an element (R214): none where it makes products non-finite (R210). -/
def Partition.elem (p : Partition) (r : ObRec) (i e : Nat) : Option Fp.Dyadic :=
  let bit := r.elemBit i e
  let raw := (p.obByte r (bit / 8) + 256 * (if r.elemBits = 16 then p.obByte r (bit / 8 + 1) else 0)) / 2 ^ (bit % 8) % 2 ^ r.elemBits
  let v : Val :=
    if r.type = 0 then Fp.unpack .bf16 raw
    else if r.type = 1 then Fp.unpack .f16 raw
    else Nf.value (Nf.fmtOf r.fmt) raw
  let x := if r.type = 3 then p.obByte r (r.scaleByte i e) else 127
  if v.isNan || v.isInf || x == 255 then none else some { m := v.dyadic.m, e := v.dyadic.e + x - 127 }

/-- Some byte of an element is poisoned (R217). -/
def Partition.elemPoison (p : Partition) (r : ObRec) (i e : Nat) : Bool :=
  !p.bufPoison.isEmpty && (r.elemAt i e).any fun k => (Sparse.look p.bufPoison (256 * r.base + k)).isSome

/-! ### `obres`, `obrel`, `obld` (R215 to R217) -/

/-- The descriptor fails a check of R215 item 3. -/
def State.obDescBad (s : State) (n : Nat) (r : ObRec) : Bool :=
  let d := r.desc.toNat
  let remote := r.bcore != s.cc % 4
  let others := (s.part s.mp).records.filter fun e => e.1 != n && e.2.state != .free
  field d 30 2 != 0 || field d 82 14 != 0 || field d 99 1 != 0 || field d 120 8 != 0
    || (4 ≤ r.type && r.type ≤ 14) || (r.type == 15 && r.len != 0) || (r.stride == 0 && r.type != 15)
    || decide (1023 < r.base + r.len)
    || (others.any fun e => decide (r.base ≤ e.2.base + e.2.len) && decide (e.2.base ≤ r.base + r.len))
    || (r.backed && r.baddr % (if r.type = 15 then 256 else 16) != 0)
    || (r.type == 15 && (!r.backed || remote))
    || (s.cb.trail.isSome && decide (511 < r.base + r.len))

/-- `obres` (R215). An illegal format is met, as R59 has it, in every lane of the issuing subset, whether or not one executes (DEDUCED, log
entry 45). -/
def execObres (x : Opnds) (n : BitVec 3) (s : State) : Host.Outcome State Fault Refusal :=
  s.issue (.obres x n) fun x s =>
    let desc := s.src x.ext (.int 128 false) (s.sel.act.headD 0) x.a
    let fmt := s.freg (field desc 20 4)
    let r : ObRec := { state := .reserved, desc := .ofNat 128 desc, fmt := fmt }
    let r := if r.type = 15 then { r with state := .ready } else r
    let free := ((s.part s.mp).ob n.toNat).state == .free
    if free && r.narrow && !(Nf.fmtOf fmt).legal then s.trapAll x.ext.bytes 5
    else
      match s.exe x.g with
      | [] => s.advance x.ext.bytes
      | _ :: _ =>
        if !free then s.uniformFault x { cause := 0x30 }
        else if s.obDescBad n.toNat r then s.uniformFault x { cause := 0x31 }
        else (s.modPart s.mp fun p => p.setOb n.toNat r).advance x.ext.bytes

/-- `obrel` (R216): it waits for a fill of the record to end (R212). -/
def execObrel (x : Opnds) (n : BitVec 3) (s : State) : Host.Outcome State Fault Refusal :=
  s.issue (.obrel x n) fun x s =>
    let r := (s.part s.mp).ob n.toNat
    if (s.exe x.g).isEmpty then s.advance x.ext.bytes
    else if r.state == .free then s.uniformFault x { cause := 0x30 }
    else if r.state == .filling then s.stall
    else (s.modPart s.mp fun p => p.setOb n.toNat { r with state := .free }).advance x.ext.bytes

/-- The checks of R161 with a length and an alignment of their own. -/
def Block.padRange (b : Block) (a len align : Nat) (clob : Bool) (lf : LF) : Option LF :=
  let lf := { lf with addr := .ofNat 64 a }
  if b.scratchSize < a + len then some { lf with cause := 0x17 }
  else if a % align != 0 then some { lf with cause := 0x10 }
  else if clob && b.clobbers a len then some { lf with cause := 0x19 }
  else none

/-- The fill path reads a block's scratchpad (R186, R217): the bytes with their poisoned offsets, or a reconstruction fault. -/
def State.fillRead (s : State) (bid a n : Nat) : State × Option (List Byte × List Nat) :=
  let b := s.blk bid
  let sp := (s.core b.core).scratch
  let s1 := s.modPad b.core fun sp => sp.load (loadReqs b 16 ((List.range (n / 16)).map fun i => (a + 16 * i, i)) [])
  if (wordsOf a n).any fun w => (sp.read (b.word w)).isNone then (s1, none)
  else (s1, some (scratchBytes sp b a n, (List.range n).filter fun k => sp.poisoned (b.word (a + k))))

/-- A record begins to fill. -/
def State.startFill (s : State) (n : Nat) (f : Fill) : State :=
  s.modPart s.mp fun p => { p.setOb n { p.ob n with state := .filling } with fills := p.fills ++ [f] }

/-- A remote fill joins a merge entry of the cluster, or takes a free one (R250). -/
def State.joinMerge (s : State) (peer a n : Nat) : State :=
  s.modCluster (s.cc / 4) fun c =>
    if c.merges.contains (peer, a, n) || 8 ≤ c.merges.length then c else { c with merges := c.merges ++ [(peer, a, n)] }

/-- A fill from the block's own scratchpad, read at issue (R217). -/
def State.localFill (s : State) (x : Opnds) (n a size : Nat) : State :=
  let bid := s.sel.blk
  match s.cb.padRange a size 16 false { cause := 0 } with
  | some f => s.uniformFault x f
  | none =>
    if s.sbBusy bid a size then s.stall
    else
      match s.fillRead bid a size with
      | (s1, none) => s1.consume bid 2 0
      | (s1, some (bs, bad)) =>
        ((s1.startFill n { blk := bid, ob := n, bytes := bs, poison := bad, remote := none, len := size, thrs := s.exe x.g }).raiseAll (s.exe x.g) 1).advance x.ext.bytes

/-- `obld` in both forms: `src` is the local address of `.x`. -/
def State.fillOp (s : State) (i : Instr) (n : Nat) (src : Opnds → State → Nat → Option Nat) : Host.Outcome State Fault Refusal :=
  s.issue i fun x s =>
    match s.first x.g with
    | none => s.advance x.ext.bytes
    | some l =>
      let r := (s.part s.mp).ob n
      if r.state == .free || r.type == 15 then s.uniformFault x { cause := 0x30 }
      else if r.state == .filling then s.stall
      else
        match src x s l with
        | some a => s.localFill x n a r.size
        | none =>
          if !r.backed then s.uniformFault x { cause := 0x30 }
          else if r.bcore == s.cc % 4 then s.localFill x n r.baddr r.size
          else
            ((s.joinMerge r.bcore r.baddr r.size).startFill n
              { blk := s.sel.blk, ob := n, bytes := [], poison := [], remote := some (r.bcore, r.baddr), len := r.size
                thrs := s.exe x.g }).advance x.ext.bytes

/-- `obld` (R217). -/
def execObld (x : Opnds) (n : BitVec 3) (s : State) : Host.Outcome State Fault Refusal :=
  s.fillOp (.obld x n) n.toNat fun _ _ _ => none

/-- `obld.x` (R217). -/
def execObldX (x : Opnds) (n : BitVec 3) (s : State) : Host.Outcome State Fault Refusal :=
  s.fillOp (.obldX x n) n.toNat fun x s l =>
    some ((s.src x.ext .b64 l x.a + (disp x.ext).toNat) % 2 ^ 32)

/-- Bytes put into a sparse buffer at an offset. -/
def putRange (m : Sparse Byte) (lo : Nat) (bs : List Byte) : Sparse Byte :=
  (m.filter fun e => e.1 < lo) ++ ((bs.zipIdx lo).filterMap fun e => if e.1 = 0 then none else some (e.2, e.1))
    ++ m.filter fun e => lo + bs.length ≤ e.1

/-- Bytes of a sparse buffer. -/
def getRange (m : Sparse Byte) (lo n : Nat) : List Byte := (List.range n).map fun k => Sparse.getOr m (lo + k) 0

/-- The offsets of a range of the buffer that are poisoned. -/
def badRange (m : Sparse Unit) (lo n : Nat) : List Nat := ((m.filter fun e => lo ≤ e.1 && e.1 < lo + n).map (·.1 - lo))

/-- The poison of a range of the buffer is replaced. -/
def putBad (m : Sparse Unit) (lo n : Nat) (bad : List Nat) : Sparse Unit :=
  (m.filter fun e => e.1 < lo) ++ bad.map (fun k => (lo + k, ())) ++ m.filter fun e => lo + n ≤ e.1

/-- Bytes reach an operand buffer at an offset, with those that are poisoned; what they overwrite is logged (R145, R233). -/
def State.fillBuf (s : State) (p blk lo : Nat) (bs : List Byte) (bad : List Nat) : State :=
  let pt := s.part p
  let kibs := (List.range ((lo + bs.length - 1) / 1024 + 1 - lo / 1024)).map (lo / 1024 + ·)
  let s := kibs.foldl (fun s k => s.log blk (.obuf (p % 4) k (getRange pt.buf (1024 * k) 1024) (badRange pt.bufPoison (1024 * k) 1024))) s
  s.modPart p fun p => { p with buf := putRange p.buf lo bs, bufPoison := putBad p.bufPoison lo bs.length bad }

/-- The end of a fill (R212): the record is READY with its bytes, or FAILED. The bytes reach the trailer's half of the buffer too, where the
block has a trailer (R143, R233). -/
def State.fillDone (s : State) (p : Nat) (f : Fill) (got : Option (List Byte × List Nat)) : State :=
  let r := (s.part p).ob f.ob
  let s := (s.modPart p fun p => { p with fills := p.fills.filter fun g => g.ob != f.ob }).tidyMerges (p / 16)
  match got with
  | none => s.modPart p fun p => p.setOb f.ob { r with state := .failed }
  | some (bs, bad) =>
    let lo := 256 * r.base
    let s := s.fillBuf p f.blk lo bs bad
    let s := if (s.blk f.blk).trail.isSome then s.fillBuf p f.blk (lo + 131072) bs bad else s
    s.modPart p fun p => p.setOb f.ob { r with state := .ready }

/-- The bytes of a merged read go to every fill that has joined it and reads the same member (R217, R250); they have come through on the links
of its core too (R240). -/
def State.shareMerge (s : State) (peer a n tgt : Nat) (got : List Byte × List Nat) : State :=
  let cl := (s.blk tgt).core / 4
  if !(s.cluster cl).merges.contains (peer, a, n) then s
  else
    let s := s.modCluster cl fun c => { c with merges := c.merges.filter (· != (peer, a, n)) }
    (List.range 16).foldl (fun s k =>
      let p := 16 * cl + k
      let joins (f : Fill) : Bool := f.remote == some (peer, a) && f.len == n && s.memberAt f.blk (4 * cl + peer) == some tgt
      if (s.part p).fills.any joins then
        (s.linkGood (p / 4) (4 * cl + peer)).modPart p fun x => { x with
          fills := x.fills.map fun f => if joins f then { f with remote := none, bytes := got.1, poison := got.2 } else f }
      else s) s

/-- OB_FILL_COMPLETE (R212, R217): a fill of partition `part` into record n ends. A remote one waits while its peer cannot be read yet
(R246). -/
def execObFillComplete (part n : Nat) (s : State) : Host.Outcome State Fault Refusal :=
  match (s.part part).fills.find? fun f => f.ob == n with
  | none => .next s
  | some f =>
    match f.remote with
    | none => .next (s.fillDone part f (some (f.bytes, f.poison)))
    | some (peer, a) =>
      let c := part / 16 * 4 + peer
      let size := f.len
      if (s.cluster (part / 16)).down then .next (s.fillDone part f none)
      else
        match s.memberAt f.blk c with
        | none => .next (s.fillDone part f none)
        | some tgt =>
          let tb := s.blk tgt
          let own := s.linkGood (part / 4) c
          if !tb.state.resident || (tb.padRange a size 16 false { cause := 0 }).isSome then .next (own.fillDone part f none)
          else if !tb.state.issues || s.sbBusy tgt a size then .next s
          else
            match own.fillRead tgt a size with
            | (s1, none) => .next ((s1.fillDone part f none).consume f.blk 2 0)
            | (s1, some got) => .next ((s1.shareMerge peer a size tgt got).fillDone part f (some got))

/-! ### `mma` and `mmas` (R220, R221) -/

/-- A matrix product's parts: tile, records, N, K, kofs, col0. -/
structure MmaReq where
  tile : Nat
  ra : Nat
  rb : Nat
  rm : Option Nat
  n : Nat
  k : Nat
  kofs : Nat
  col0 : Nat
  deriving DecidableEq, Repr

/-- The dense groups of a sparse product. -/
def MmaReq.groups (q : MmaReq) : List Nat := (List.range (q.k / 4)).map (q.kofs / 4 + ·)

/-- The element of A last read in a row: compressed under `mmas`. -/
def MmaReq.lastA (q : MmaReq) : Nat := if q.rm.isSome then (q.kofs + q.k) / 2 - 1 else q.kofs + q.k - 1

/-- The metadata bytes of a row, as scratch addresses (R218). -/
def MmaReq.metaBytes (q : MmaReq) (m : ObRec) (i : Nat) : List Nat :=
  (q.groups.map fun g => m.baddr + i * m.stride + g / 2).eraseDups

/-- The pairs of elements of A and of B's column that a row multiplies; idx0 and idx1 of each group come from its nibble. -/
def MmaReq.pairs (q : MmaReq) (nibble : Nat → Nat) : List (Nat × Nat) :=
  if q.rm.isSome then q.groups.flatMap fun g =>
    [(2 * g, 4 * g + nibble g % 4), (2 * g + 1, 4 * g + nibble g / 4)]
  else (List.range q.k).map fun k => (q.kofs + k, q.kofs + k)

/-- What a lane adds: its columns' finite products, and whether a product was non-finite (R210). -/
structure LaneProds where
  thr : Nat
  cols : List (List Fp.Dyadic)
  bad : Bool

/-- The products of a row. -/
def laneProds (p : Partition) (a b : ObRec) (n thr : Nat) (ps : List (Nat × Nat)) : LaneProds :=
  let cols := (List.range n).map fun j => ps.map fun e =>
    match p.elem a (homeLane thr) e.1, p.elem b j e.2 with
    | some x, some y => some (x.mul y)
    | _, _ => none
  { thr := thr, cols := cols.map fun c => c.filterMap id, bad := cols.any fun c => c.any Option.isNone }

/-- t = ⌊log2 pmax⌋ + 1, none where pmax = 0 (R207). -/
def LaneProds.top (l : LaneProds) : Option Int :=
  ((l.cols.flatMap id).filter fun d => d.m != 0).foldl (fun (acc : Option Int) d =>
    let t : Int := d.e + bitlen d.m.natAbs
    some (match acc with | some u => max u t | none => t)) none

/-- A lane's part of a product (R221): preparation, aligned sums, flags. -/
def State.addLane (s : State) (tile c col0 op : Nat) (l : LaneProds) : State :=
  let i := homeLane l.thr
  let s := if l.bad then
      (s.setRow tile i { s.accRow tile i with rinv := true }).flagLanes [(l.thr, Fp.inv)]
    else s
  match l.top with
  | none => s
  | some t =>
    let r := s.accRow tile i
    let sh := r.shift t c
    let s := if 0 < sh then s.renormRow tile l.thr sh op else s
    let r := s.accRow tile i
    let r := if r.empty then { r with e := max (-32768) (min 32767 (t + c - 39)), empty := false } else r
    let sums := l.cols.map fun ps => (ps.map fun p => align p r.e)
    let lost := sums.any fun ps => ps.any (·.2)
    let r := (sums.zipIdx col0).foldl (fun (r : AccRow) e => r.setMant e.2 (r.mant e.2 + (e.1.map (·.1)).sum)) r
    (s.setRow tile i { r with rtrc := r.rtrc || lost }).flagLanes [(l.thr, if lost then Fp.trc else 0)]

/-- The sums of the lanes that pass (R221): a row that would renormalise while `acc.arm` is set raises ACC_RENORM instead, and the
arm is cleared (R231). -/
def State.addLanes (s : State) (x : Opnds) (q : MmaReq) (fs : List (Nat × LF)) (ls : List LaneProds) : State :=
  let c := bitlen ((if q.rm.isSome then q.k / 2 else q.k) - 1)
  let op := if q.rm.isSome then 1 else 0
  let renorms (l : LaneProds) : Bool :=
    match l.top with
    | some t => decide (0 < (s.accRow q.tile (homeLane l.thr)).shift t c)
    | none => false
  let traps := if ((s.part s.mp).tile q.tile).arm then ls.filter renorms else []
  let fs := fs ++ traps.map fun l => (l.thr, ({ cause := 0x35 } : LF))
  let fs := sortBy (fun e => homeLane e.1) fs
  let s1 := if traps.isEmpty then s else s.modPart s.mp fun p => p.modTile q.tile fun t => { t with arm := false }
  let go := ls.filter fun l => !fs.any fun f => f.1 == l.thr
  ((go.foldl (fun s l => s.addLane q.tile c q.col0 op l) s1).advanceBut x.ext.bytes (fs.map (·.1))).finishFaults x.ext.bytes fs

/-- A lane's own check (R221 items 5 and 6). -/
def MmaReq.laneCheck (q : MmaReq) (b : Block) (a : ObRec) (m : Option ObRec) (nibble : Nat → Nat → Nat) (thr : Nat) : Option LF :=
  let i := homeLane thr
  if !a.fits i q.lastA then some { cause := 0x34 }
  else
    match m with
    | none => none
    | some m =>
      match (q.metaBytes m i).find? fun k => b.scratchSize ≤ k with
      | some k => some { cause := 0x17, addr := .ofNat 64 k }
      | none => if q.groups.any fun g => nibble i g / 4 ≤ nibble i g % 4 then some { cause := 0x33 } else none

/-- `mma` and `mmas` once their uniform checks are past (R221). -/
def State.mmaGo (s : State) (x : Opnds) (q : MmaReq) (a b : ObRec) (m : Option ObRec) : State :=
  let bid := s.sel.blk
  let p := s.part s.mp
  let blk := s.cb
  let ex := s.exe x.g
  let sp := (s.core blk.core).scratch
  let nibble (i g : Nat) : Nat := match m with
    | some m => (scratchByte sp blk (m.baddr + i * m.stride + g / 2)).toNat / 16 ^ (g % 2) % 16
    | none => 4
  let rs := ex.map fun t => (t, q.laneCheck blk a m nibble t)
  let good := (rs.filter fun r => r.2.isNone).map (·.1)
  let fs := rs.filterMap fun r => r.2.map fun f => (r.1, f)
  let readers := ex.filter fun t => ((q.laneCheck blk a m (fun _ _ => 4) t).isNone)
  let metas : List (Nat × Nat) := match m with
    | some m => readers.flatMap fun t => (q.metaBytes m (homeLane t)).map fun k => (t, k)
    | none => []
  if metas.any fun e => s.sbBusy bid e.2 1 then s.stall
  else
    match s.padLoad bid 1 metas with
    | (s1, .error trig) => s1.consume bid trig 0
    | (s1, .ok _) =>
      let pairs (t : Nat) : List (Nat × Nat) := q.pairs (nibble (homeLane t))
      let poisoned := good.any fun t => (pairs t).any fun e =>
        p.elemPoison a (homeLane t) e.1 || (List.range q.n).any fun j => p.elemPoison b j e.2
      if poisoned then s1.consume bid 0 0
      else (s1.addLanes x q fs (good.map fun t => laneProds p a b q.n t (pairs t))).raiseAll (metas.map (·.1)).eraseDups 1

/-- The fields of the extension (R220): N and K. -/
def mmShape (e : Ext) : Nat × Nat :=
  match e with
  | .e128 lo _ => (lo.toNat % 128 + 1, 16 * (lo.toNat / 256 % 64 + 1))
  | _ => (1, 16)

/-- A matrix product (R221). -/
def State.mmaOp (s : State) (i : Instr) (tile ra rb : Nat) (rm : Option Nat) : Host.Outcome State Fault Refusal :=
  s.issue i fun x s =>
    match s.first x.g with
    | none => s.advance x.ext.bytes
    | some l =>
      let sh := mmShape x.ext
      let q : MmaReq := { tile := tile, ra := ra, rb := rb, rm := rm, n := sh.1, k := sh.2
                          kofs := s.src x.ext .b32 l x.a, col0 := s.src x.ext .b32 l x.b }
      let p := s.part s.mp
      let a := p.ob ra
      let b := p.ob rb
      let m := rm.map p.ob
      let open_ (r : ObRec) : Bool := r.state == .free || r.state == .reserved
      if a.state == .filling || b.state == .filling || m.any (fun r => r.state == .filling) then s.stall
      else if open_ a || open_ b || m.any open_ || a.type == 15 || b.type == 15 || m.any (fun r => r.type != 15) then
        s.uniformFault x { cause := 0x30 }
      else if a.state == .failed || b.state == .failed then s.uniformFault x { cause := 0x32 }
      else if 128 < q.col0 + q.n || (m.isSome && q.kofs % 4 != 0) then s.uniformFault x { cause := 0x34 }
      else if !(List.range q.n).all fun j => b.fits j (q.kofs + q.k - 1) then s.uniformFault x { cause := 0x34 }
      else s.mmaGo x q a b m

/-- `mma` (R220, R221). -/
def execMma (x : Opnds) (t : BitVec 1) (ra rb : BitVec 3) (s : State) : Host.Outcome State Fault Refusal :=
  s.mmaOp (.mma x t ra rb) t.toNat ra.toNat rb.toNat none

/-- `mmas` (R220, R221). -/
def execMmas (x : Opnds) (t : BitVec 1) (ra rb rm : BitVec 3) (s : State) : Host.Outcome State Fault Refusal :=
  s.mmaOp (.mmas x t ra rb rm) t.toNat ra.toNat rb.toNat (some rm.toNat)

/-! ### Rows zeroed, loaded and stored (R222 to R225) -/

/-- `acc.zero` (R222). -/
def execAccZero (x : Opnds) (t : BitVec 1) (all : Bool) (s : State) : Host.Outcome State Fault Refusal :=
  s.issue (.accZero x t all) fun x s =>
    let ex := s.exe x.g
    let rows := if all && !ex.isEmpty then List.range 128 else ex.map homeLane
    (rows.foldl (fun s i => s.setRow t.toNat i AccRow.reset) s).advance x.ext.bytes

/-- The addresses of `acc.ld` and `acc.st`, with their checks (R223, R224). -/
def State.accReqs (s : State) (x : Opnds) (k : AccForm) (n col0 : Nat) (store : Bool) : List PadReq :=
  (s.exe x.g).map fun t =>
    let a := s.spAddr x false t
    { thr := t, addr := a
      bad := match s.cb.padRange a (k.length n) k.sizes.2.2 store { cause := 0, store := store } with
        | some f => some f
        | none => if 128 < col0 + n then some { cause := 0x34 } else none }

/-- A row loaded from the values of its columns, starting at col0 (R223): the row and its flags. -/
def loadValues (col0 : Nat) (vs : List Val) : AccRow × Flags :=
  let bad := vs.any fun v => v.isNan || v.isInf
  let ds := vs.map fun v => if v.isNan || v.isInf then ({ m := 0, e := 0 } : Fp.Dyadic) else v.dyadic
  let top := (ds.filter fun d => d.m != 0).foldl (fun (acc : Option Int) d =>
    let t : Int := d.e + bitlen d.m.natAbs
    some (match acc with | some u => max u t | none => t)) none
  let fl := if bad then Fp.inv else 0
  match top with
  | none => (AccRow.reset, fl)
  | some t =>
    let ms := ds.map fun d => align d (t - 39)
    let lost := ms.any (·.2)
    ((ms.zipIdx col0).foldl (fun (r : AccRow) e => r.setMant e.2 e.1.1)
      { AccRow.reset with e := t - 39, empty := false, rtrc := lost }, fl ||| (if lost then Fp.trc else 0))

/-- A row loaded from its raw image (R223, R225); none where the image is not one. -/
def loadRaw (r : AccRow) (col0 n img : Nat) : Option AccRow :=
  let el (j : Nat) : Nat := field img (128 + 64 * j) 64
  if field img 20 108 != 0 || (List.range n).any fun j => field (el j) 49 15 != 0 || field (el j) 0 48 == 2 ^ 47 then none
  else
    let r := { r with e := readInt 16 true (field img 0 16), empty := bitAt img 16, rtrc := bitAt img 17, rren := bitAt img 18
                      rinv := bitAt img 19 }
    some ((List.range n).foldl (fun (r : AccRow) j =>
      (r.setMant (col0 + j) (readInt 48 true (field (el j) 0 48))).setMask (col0 + j) (bitAt (el j) 48)) r)

/-- `acc.ld` (R223). -/
def execAccLd (x : Opnds) (t : BitVec 1) (k : AccForm) (n : BitVec 7) (s : State) : Host.Outcome State Fault Refusal :=
  s.issue (.accLd x t k n) fun x s =>
    match s.first x.g with
    | none => s.advance x.ext.bytes
    | some l =>
      let num := n.toNat + 1
      let col0 := s.src x.ext .b32 l x.c
      let size := k.length num
      let rs := s.accReqs x k num col0 false
      let good := PadReq.good rs
      if good.any fun e => s.sbBusy s.sel.blk e.2 size then s.stall
      else
        match s.padLoad s.sel.blk 1 (good.flatMap fun e => (List.range size).map fun b => (e.1, e.2 + b)) with
        | (s1, .error trig) => s1.consume s.sel.blk trig 0
        | (s1, .ok _) =>
          let img (e : Nat × Nat) : Nat := ofBytes (s.padBytes s.sel.blk e.2 size)
          let row (e : Nat × Nat) : Option (AccRow × Flags) := match k with
            | .raw => (loadRaw (s.accRow t.toNat (homeLane e.1)) col0 num (img e)).map fun r => (r, 0)
            | .f32 => some (loadValues col0 ((List.range num).map fun j => Fp.unpack .f32 (field (img e) (32 * j) 32)))
            | .bf16 => some (loadValues col0 ((List.range num).map fun j => Fp.unpack .bf16 (field (img e) (16 * j) 16)))
          let bad := (good.filter fun e => (row e).isNone).map fun e => (e.1, ({ cause := 0x34 } : LF))
          let fs := sortBy (fun e => homeLane e.1) (PadReq.faults rs ++ bad)
          let s2 := good.foldl (fun s e => match row e with
            | some (r, fl) => (s.setRow t.toNat (homeLane e.1) r).flagLanes [(e.1, fl)]
            | none => s) s1
          ((s2.advanceBut x.ext.bytes (fs.map (·.1))).raiseAll (good.map (·.1)) 1).finishFaults x.ext.bytes fs

/-- One element of a row converted out (R224). -/
def AccRow.out (r : AccRow) (f : FFmt) (ninf : Bool) (j : Nat) : Nat × Flags :=
  if r.masked j then (if ninf then Fp.signBit f true + Fp.infBits f else 0, 0)
  else if r.rinv then (Fp.nanBits f, 0)
  else if r.empty || r.mant j == 0 then (0, 0)
  else Fp.round f .rn (.num (decide (r.mant j < 0)) (r.mant j).natAbs r.e false)

/-- The header of a row's raw image (R225). -/
def AccRow.header (r : AccRow) : Nat :=
  let bit (b : Bool) (k : Nat) : Nat := if b then 2 ^ k else 0
  wrap 16 r.e + bit r.empty 16 + bit r.rtrc 17 + bit r.rren 18 + bit r.rinv 19

/-- The bytes that `acc.st` writes for a row, and its flags (R224, R225). -/
def AccRow.image (r : AccRow) (k : AccForm) (ninf : Bool) (col0 n : Nat) : List Byte × Flags :=
  let cols := (List.range n).map (col0 + ·)
  let conv (f : FFmt) (w : Nat) : List Byte × Flags :=
    let os := cols.map (r.out f ninf)
    (os.flatMap fun o => toBytes w o.1, os.foldl (fun (a : Flags) o => a ||| o.2) 0)
  match k with
  | .f32 => conv .f32 4
  | .bf16 => conv .bf16 2
  | .raw => (toBytes 16 r.header ++ cols.flatMap fun j =>
      toBytes 8 (wrap 48 (r.mant j) + (if r.masked j then 2 ^ 48 else 0)), 0)

/-- `acc.st` (R224). -/
def execAccSt (x : Opnds) (t : BitVec 1) (k : AccForm) (ninf : Bool) (n : BitVec 7) (s : State) : Host.Outcome State Fault Refusal :=
  s.issue (.accSt x t k ninf n) fun x s =>
    match s.first x.g with
    | none => s.advance x.ext.bytes
    | some l =>
      let num := n.toNat + 1
      let col0 := s.src x.ext .b32 l x.c
      let rs := s.accReqs x k num col0 true
      let good := PadReq.good rs
      if good.any fun e => s.sbBusy s.sel.blk e.2 (k.length num) then s.stall
      else
        let outs := good.map fun e => (e.1, e.2, (s.accRow t.toNat (homeLane e.1)).image k ninf col0 num)
        let fs := PadReq.faults rs
        let s1 := (s.padStores s.sel.blk (outs.map fun o => (o.1, o.2.1, o.2.2.1))).flagLanes (outs.map fun o => (o.1, o.2.2.2))
        ((s1.advanceBut x.ext.bytes (fs.map (·.1))).raiseAll (good.map (·.1)) 1).finishFaults x.ext.bytes fs

/-! ### Rows inspected and adjusted (R226 to R231) -/

/-- The value of `acc.stat` (R226). -/
def statVal (t : Tile) (r : AccRow) (sel : Nat) : Nat :=
  let bit (b : Bool) (k : Nat) : Nat := if b then 2 ^ k else 0
  match sel with
  | 0 => r.headroom
  | 1 => if r.empty then 0 else wrap 32 r.e
  | 2 => bit r.empty 0 + bit r.rtrc 1 + bit r.rren 2 + bit r.rinv 3
  | 3 => t.rcount
  | k => field t.event.toNat (32 * (k - 4)) 32

/-- `acc.stat` (R226). -/
def execAccStat (x : Opnds) (t : BitVec 1) (sel : BitVec 3) (s : State) : Host.Outcome State Fault Refusal :=
  s.alu (.accStat x t sel) 1 fun _ s l =>
    (statVal ((s.part s.mp).tile t.toNat) (s.accRow t.toNat (homeLane l)) sel.toNat, 0)

/-- `acc.renorm` (R227). -/
def execAccRenorm (x : Opnds) (t : BitVec 1) (s : State) : Host.Outcome State Fault Refusal :=
  s.eachRow (.accRenorm x t) fun x s l =>
    let k := s.src x.ext .b32 l x.a
    if (s.accRow t.toNat (homeLane l)).empty || k == 0 then s else s.renormRow t.toNat l (min k 65535) 2

/-- `acc.tmask` (R228). -/
def execAccTmask (x : Opnds) (t : BitVec 1) (s : State) : Host.Outcome State Fault Refusal :=
  s.issue (.accTmask x t) fun x s =>
    match s.first x.g with
    | none => s.advance x.ext.bytes
    | some l =>
      let col0 := s.src x.ext .b32 l x.b
      if 127 < col0 then s.uniformFault x { cause := 0x34 }
      else
        ((s.exe x.g).foldl (fun s u =>
          let anc := s.src x.ext .b64 u x.a
          s.setRow t.toNat (homeLane u) ((List.range (min 64 (128 - col0))).foldl (fun (r : AccRow) j =>
            r.setMask (col0 + j) (!bitAt anc j)) (s.accRow t.toNat (homeLane u)))) s).advance x.ext.bytes

/-- `acc.scale` (R229). -/
def execAccScale (x : Opnds) (t : BitVec 1) (s : State) : Host.Outcome State Fault Refusal :=
  s.eachRow (.accScale x t) fun x s l =>
    let i := homeLane l
    let r := s.accRow t.toNat i
    if r.empty then s
    else
      let e := r.e + readInt 32 true (s.src x.ext .b32 l x.a)
      let held := max (-32768) (min 32767 e)
      (s.setRow t.toNat i { r with e := held }).flagLanes [(l, if held = e then 0 else Fp.inv)]

/-- The largest unmasked element of columns of a row, as FP32 (R230). -/
def AccRow.maxOut (r : AccRow) (col0 n : Nat) : Nat × Flags :=
  match ((List.range n).map (col0 + ·)).filter fun j => !r.masked j with
  | [] => (Fp.signBit .f32 true + Fp.infBits .f32, 0)
  | j :: js =>
    if r.rinv then (Fp.nanBits .f32, 0)
    else
      let m := js.foldl (fun (a : Int) k => max a (r.mant k)) (r.mant j)
      if r.empty || m == 0 then (0, 0) else Fp.round .f32 .rn (.num (decide (m < 0)) m.natAbs r.e false)

/-- `acc.rmax` (R230). -/
def execAccRmax (x : Opnds) (t : BitVec 1) (n : BitVec 7) (s : State) : Host.Outcome State Fault Refusal :=
  s.issue (.accRmax x t n) fun x s =>
    match s.first x.g with
    | none => s.advance x.ext.bytes
    | some l =>
      let col0 := s.src x.ext .b32 l x.a
      let num := n.toNat + 1
      if 128 < col0 + num then s.uniformFault x { cause := 0x34 }
      else
        let rs := (s.exe x.g).map fun u => (u, (s.accRow t.toNat (homeLane u)).maxOut col0 num)
        ((s.advance x.ext.bytes).write x.d 1 (rs.map fun r => (r.1, r.2.1))).flagLanes (rs.map fun r => (r.1, r.2.2))

/-- `acc.mode` (R231): bit 1 acts after bit 0. -/
def execAccMode (x : Opnds) (t : BitVec 1) (s : State) : Host.Outcome State Fault Refusal :=
  s.issue (.accMode x t) fun x s =>
    match s.first x.g with
    | none => s.advance x.ext.bytes
    | some l =>
      let m := s.src x.ext .b32 l x.a
      (s.modPart s.mp fun p => p.modTile t.toNat fun y =>
        { y with
          arm := (y.arm || bitAt m 0) && !bitAt m 1
          rcount := if bitAt m 2 then 0 else y.rcount
          event := if bitAt m 3 then 0 else y.event }).advance x.ext.bytes

end Sys2Proof.Machine
end

