-- ==== Sys2Proof/Machine/Shadow.lean ====
section
/-! DEFINITION. Shadow.lean: shadows and publication (R304 to R308). -/

namespace Sys2Proof.Machine

/-! ### Pages and frames -/

/-- A page of a buffer as a shadow keeps it: virtual base, size, frame base, address of the first replica of its leaf, replicas. -/
abbrev ShadowPg := Nat × Nat × Nat × Nat × Nat

/-- The pages of a buffer, each translated as a store (R305 step 2): none where the range covers only part of a page. The frame base of each
is that of the buffer. -/
def State.bufferPages (s : State) (w : Who) (lo hi : Nat) : Nat → Nat → State × Except (Stop × Nat) (Option (List ShadowPg × Nat))
  | 0, _ => (s, .ok none)
  | fuel + 1, va =>
    match s.translate w va 1 .write false with
    | (s, .error x) => (s, .error (x, va))
    | (s, .ok p) =>
      if p.peer || p.shadow then (s, .error (.lane 0x13, va))
      else if p.va < lo || hi < p.va + p.size then (s, .ok none)
      else
        let here : ShadowPg := (p.va, p.size, p.pa, p.leaf, replicasOf p.pte (levelOfSize (field p.pte 14 4)))
        if p.va + p.size = hi then (s, .ok (some ([here], p.pte)))
        else
          match State.bufferPages s w lo hi fuel (p.va + p.size) with
          | (s, .ok (some (rest, _))) => (s, .ok (some (here :: rest, p.pte)))
          | r => r

/-- A run of n free frames, aligned to its length. -/
def takeRun (pool : List Nat) (n : Nat) : Option Nat :=
  pool.find? fun f => f % n == 0 && (List.range n).all fun k => pool.contains (f + k)

/-- Frames for each page of a buffer: a contiguous run aligned to the page's size (R305). -/
def takeFrames (pool : List Nat) : List ShadowPg → Option (List ShadowPg × List Nat)
  | [] => some ([], pool)
  | (va, size, _, leaf, reps) :: r =>
    let n := size / 4096
    match takeRun pool n with
    | none => none
    | some f =>
      match takeFrames (pool.filter fun k => !(f ≤ k && k < f + n)) r with
      | none => none
      | some (ps, pool') => some ((va, size, 4096 * f, leaf, reps) :: ps, pool')

/-- The 4 KiB frame numbers of a shadow's pages. -/
def framesOf (ps : List ShadowPg) : List Nat := ps.flatMap fun p => (List.range (p.2.1 / 4096)).map (p.2.2.1 / 4096 + ·)

/-- Frames leave every L2, and writes on their way to them are discarded. -/
def State.forgetFrames (s : State) (fs : List Nat) : State :=
  let s := caches.foldl (fun s d => fs.foldl (fun s f => s.dropL2 d (4096 * f) 4096) s) s
  s.modHub fun h => { h with
    inflight := h.inflight.filter fun e => !fs.contains (e.pa / 4096)
    heldEvict := h.heldEvict.filter fun e => !fs.contains (e.pa / 4096) }

/-- Bytes with their poison written at physical pages, at their homes. -/
def State.fillFrames (s : State) : List ShadowPg → List EByte → State
  | [], _ => s
  | (_, size, pa, _, _) :: r, bs =>
    let s := (List.range (size / 64)).foldl (fun s k =>
      let c := (bs.drop (64 * k)).take 64
      s.homeWrite (pa + 64 * k) (c.map (·.1)) (c.any (·.2))) s
    State.fillFrames s r (bs.drop size)

/-! ### `shdw.open` (R305) -/

/-- A handle (R304). -/
def shadowHandle (die i gen : Nat) : Nat := i + 256 * die + 65536 * gen

/-- The open shadow of an address space's buffer (R305 step 3): die, index and entry. -/
def State.openShadow (s : State) (dom asn base len : Nat) : Option (Nat × Nat × Shadow) :=
  ((List.range 4).flatMap fun d => (s.die d).shadows.map fun e => (d, e.1, e.2)).find? fun e =>
    e.2.2.opened && e.2.2.dom == dom && e.2.2.asn == asn && e.2.2.base.toNat == base && e.2.2.len == len

/-- A free entry of a die's shadow table (R304). -/
def State.freeShadow (s : State) (d : Nat) : Option Nat :=
  (List.range 256).find? fun i => !(((Sparse.look (s.die d).shadows i).map (·.opened)).getD false)

/-- An entry and frames are taken and the buffer is copied into them (R305 step 5): the lanes wait until the copy is complete. -/
def State.makeShadow (s : State) (ex : List Nat) (i base len pte : Nat) (ps : List ShadowPg) (pool : List Nat) (bs : List EByte) : State :=
  let d := s.cd
  let b := s.cb
  let gen := (((Sparse.look (s.die d).shadows i).map (·.gen)).getD 0) % 0xFFFF + 1
  let fs := framesOf ps
  let s := (s.forgetFrames fs).fillFrames ps bs
  let s := s.modHub fun h => { h with frames := fs.foldl (fun (m : Sparse Nat) f => Sparse.put m f b.hdr.domain) h.frames }
  let s := s.modDie d fun x => { x with
    pool := pool
    shadows := Sparse.put x.shadows i
      { gen := gen, opened := true, dom := b.hdr.domain, asn := b.asn, base := .ofNat 64 base, len := len, pages := ps, pte := .ofNat 64 pte
        copying := some (s.sel.blk, ex) } }
  s.hold ex (.shadow none)

/-- `shdw.open` (R305). -/
def execShdwOpen (x : Opnds) (s : State) : Host.Outcome State Fault Refusal :=
  s.issue (.shdwOpen x) fun x s =>
    let ex := s.exe x.g
    let len := x.ext.bytes
    let give (s : State) (h : Nat) : State := (s.advance len).write x.d 1 (ex.map fun t => (t, h))
    match ex with
    | [] => s.advance len
    | l :: _ =>
      match (s.cb.thr l).wait with
      | .shadow (some h) => give s h.toNat
      | _ =>
        let base := s.src x.ext .b64 l x.a
        let n := s.src x.ext .b32 l x.b
        let w := s.cb.who
        if base % 4096 != 0 || n == 0 || n % 4096 != 0 || 2 ^ 26 < n then s.uniformFault x { cause := 0x1E }
        else if !canonical (.ofNat 64 base) || !canonical (.ofNat 64 (base + n - 1)) then
          s.uniformFault x { cause := 0x11, addr := .ofNat 64 base }
        else
          match s.bufferPages w base (base + n) (n / 4096) base with
          | (s, .error (e, va)) => s.onceStop (.shdwOpen x) len 1 ex va { cause := 0 } e
          | (s, .ok none) => s.uniformFault x { cause := 0x1E }
          | (s, .ok (some (ps, _))) =>
            match s.openShadow w.dom w.asn base n with
            | some (d, i, sh) => if sh.copying.isSome then s.stall else give s (shadowHandle d i sh.gen)
            | none =>
              match s.freeShadow s.cd, takeFrames (s.die s.cd).pool ps with
              | some i, some (fs, pool) =>
                match s.translate w base 1 .read false with
                | (s, .error e) => s.onceStop (.shdwOpen x) len 0 ex base { cause := 0 } e
                | (s, .ok p) =>
                  match s.engRead w (sectorParts base n) with
                  | (s, .ok bs) => s.makeShadow ex i base n p.pte fs pool bs
                  | (s, .error .wait) => s.stall
                  | (s, .error (.fail _)) => s.uniformFault x { cause := 0x13, addr := .ofNat 64 base }
                  | (s, .error (.fault c why level acc va)) => s.reissue (.shdwOpen x) len acc ex c why level va
              | _, _ => give s 0

/-- SHADOW_COPY_COMPLETE (R305): the initial copy is complete and the waiting lanes get the handle. -/
def execShadowCopyComplete (die k : Nat) (s : State) : Host.Outcome State Fault Refusal :=
  match Sparse.look (s.die die).shadows k with
  | none => .next s
  | some sh =>
    match sh.copying with
    | none => .next s
    | some (blk, ts) =>
      let h : Word := .ofNat 32 (shadowHandle die k sh.gen)
      .next ((s.modDie die fun x => { x with shadows := Sparse.put x.shadows k { sh with copying := none } }).modBlk blk fun b =>
        b.modThrs ts fun _ t => if t.wait == .shadow none then { t with wait := .shadow (some h) } else t)

/-! ### Publication (R307, R308) -/

/-- The open shadow of the block's address space that a handle names. -/
def State.namedShadow (s : State) (h : Nat) : Option (Nat × Nat × Shadow) :=
  let d := h / 256 % 4
  let i := h % 256
  match Sparse.look (s.die d).shadows i with
  | none => none
  | some sh =>
    if sh.opened && sh.copying.isNone && h / 65536 == sh.gen && field h 10 6 == 0 && sh.dom == s.cb.hdr.domain && sh.asn == s.cb.asn then
      some (d, i, sh)
    else none

/-- Bytes [va, va + n) meet an alias range. -/
def meets (lo len va n : Nat) : Bool := va < lo + len && lo < va + n

/-- What a command has read of its list or descriptor, or what it would read now. -/
def State.bulkText (s : State) (c : BulkCmd) (va n : Nat) : List Byte :=
  match c.buf with
  | some buf => buf
  | none => match (s.engRead (s.blk c.blk).engine (sectorParts va n)).2 with
    | .ok bs => bs.map (·.1)
    | .error _ => []

/-- The ranges that a bulk command has still to write, its status word apart (R300 to R302). -/
def State.bulkDests (s : State) (c : BulkCmd) : List (Nat × Nat) :=
  match c.kind with
  | .fan lanes len count stride _ => (lanes.drop c.done).flatMap fun l =>
      (List.range count).map fun (i : Nat) => (wrap 64 (l.2.toNat + i * stride), len)
  | .gather list n _ =>
    let buf := s.bulkText c list.toNat (32 * n)
    if c.code.isSome then [] else ((List.range (buf.length / 32)).drop c.done).map fun j => let e := glEntry buf j; (e.2.1, e.2.2.1)
  | .sealed _ desc =>
    let buf := s.bulkText c desc.toNat 64
    if c.code.isSome then [] else [(ofBytes ((buf.drop 8).take 8), ofBytes ((buf.drop 16).take 4))]

/-- The address of a command's status word, where it has one (R300, R302). -/
def State.bulkWord (s : State) (c : BulkCmd) : Option Nat :=
  match c.kind with
  | .gather _ _ st => some st.toNat
  | .fan .. => none
  | .sealed _ desc =>
    let buf := s.bulkText c desc.toNat 64
    if buf.isEmpty then none else some (ofBytes ((buf.drop 32).take 8))

/-- An accepted copy or bulk command has still to write the alias (R307 step 1). -/
def State.aliasBusy (s : State) (sh : Shadow) (lo : Nat) : Bool :=
  let mine (b : Block) : Bool := b.hdr.domain == sh.dom && b.asn == sh.asn
  (s.blocks.any fun e => mine e.2 && e.2.copies.any fun c => c.s2g && c.slices.any fun sl =>
      (List.range sl.rows).any fun r => meets lo sh.len (sl.rowVa r) sl.globalLen)
    || (List.range 4).any fun d => (s.die d).bulk.any fun c => mine (s.blk c.blk)
      && (((s.bulkDests c).any fun r => r.2 != 0 && meets lo sh.len r.1 r.2) || (s.bulkWord c).any fun a => meets lo sh.len a 8)

/-- A shadow is closed: its alias is unmapped and its handle retired. -/
def State.closeShadow (s : State) (d i : Nat) (sh : Shadow) : State :=
  s.modDie d fun x => { x with shadows := Sparse.put x.shadows i { sh with opened := false, pages := [], copying := none } }

/-- A shadow is dropped: its frames return to the pool (R305, R307). -/
def State.dropShadow (s : State) (d i : Nat) (sh : Shadow) : State :=
  let fs := framesOf sh.pages
  let s := (s.forgetFrames fs).closeShadow d i sh
  let s := s.modHub fun h => { h with frames := fs.foldl (fun (m : Sparse Nat) f => Sparse.put m f 0x10) h.frames }
  s.modDie d fun x => { x with pool := x.pool ++ fs }

/-- A leaf is made to map a frame, in every replica and in every copy of its bytes: a write of the publishing die that every agent holds at one
point (R307 step 3, R379). -/
def State.remap (s : State) (d leaf reps frame : Nat) : State :=
  (List.range reps).foldl (fun s r =>
    let at_ := leaf + 8 * r
    let old := ofBytes ((List.range 8).map fun k => s.coherentByte d (at_ + k))
    let new := old - field old 20 40 * 2 ^ 20 + frame / 4096 * 2 ^ 20
    let s := s.everywhere d ((List.range 8).map (at_ + ·))
    (toBytes 8 new).zipIdx.foldl (fun s e =>
      let s := { s with mem := s.mem.setByte (at_ + e.2) e.1 }
      caches.foldl (fun s k =>
        match s.l2 k (at_ + e.2) with
        | some x => s.modCache k fun c => { c with bytes := Sparse.put c.bytes (at_ + e.2) { x with val := e.1 } }
        | none => s) s) s) s

/-- Cached translations and L1 lines of a range of an address space are gone from every die (R307). -/
def State.forgetRange (s : State) (dom asn lo len : Nat) : State :=
  let stale (e : TlbLeaf) : Bool := e.dom == dom && e.asn == asn && meets lo len e.va e.size
  let s := { s with dies := s.dies.map fun (e : Nat × Die) => (e.1, { e.2 with tlb := e.2.tlb.filter fun l => !stale l }) }
  { s with cores := s.cores.map fun (e : Nat × Core) => (e.1, { e.2 with
      tlb := e.2.tlb.filter fun l => !stale l
      l1 := e.2.l1.filter fun l => !(l.dom == dom && l.asn == asn && meets lo len (256 * l.line) 256) }) }

/-- A bank command that has still elements to perform reaches the published frames from the publication point on (R308). -/
def BankCmd.repoint (c : BankCmd) (sh : Shadow) : BankCmd :=
  { c with pages := c.pages.map fun p => match sh.pages.find? fun q => q.1 == p.1 with
    | some q => (p.1, p.2.1, q.2.2.1)
    | none => p }

/-- Waiting commands and watches of a shadow's address space look at the published frames (R308). -/
def State.observePoint (s : State) (sh : Shadow) : State :=
  let mine (b : Block) : Bool := b.hdr.domain == sh.dom && b.asn == sh.asn
  let blk := s.blk
  let s := { s with dies := s.dies.map fun (e : Nat × Die) =>
    (e.1, { e.2 with bank := e.2.bank.map fun (c : BankCmd) => if mine (blk c.blk) then c.repoint sh else c }) }
  s.unwatch fun b va size _ => mine b && meets sh.base.toNat sh.len va size

/-- The publication point (R307 step 3, R308): the write of every byte of the buffer, which every agent applies at this point (R379, log
entry 53). -/
def State.publish (s : State) (d i : Nat) (sh : Shadow) : State :=
  let s := (s.stamp s.cd).1
  let c := s.vclock s.cd
  let s := (List.range 6).foldl (fun s a => s.absorb a c) s
  let fs := framesOf sh.pages
  let s := (s.sendHeld fun e => fs.contains (e.pa / 4096)).settleWhere fun e => fs.contains (e.pa / 4096)
  let s := caches.foldl (fun s k => fs.foldl (fun s f => (s.writeBack k (4096 * f) 4096).dropClean k (4096 * f) 4096) s) s
  let old := sh.pages.flatMap fun p =>
    let pte := ofBytes ((List.range 8).map fun k => s.coherentByte d (p.2.2.2.1 + k))
    (List.range (p.2.1 / 4096)).map (field pte 20 40 + ·)
  let s := sh.pages.foldl (fun s p => s.remap d p.2.2.2.1 p.2.2.2.2 p.2.2.1) s
  let s := ((s.forgetRange sh.dom sh.asn sh.base.toNat sh.len).observePoint sh).closeShadow d i sh
  s.modHub fun h => { h with
    frames := old.foldl (fun (m : Sparse Nat) f => Sparse.put m f 0x10) h.frames
    zeroFrames := h.zeroFrames ++ old.map fun f => (d, f) }

/-- The two forms of `publ` (R307). -/
def State.publOp (s : State) (i : Instr) (drop : Bool) : Host.Outcome State Fault Refusal :=
  s.issue i fun x s =>
    match s.exe x.g with
    | [] => s.advance x.ext.bytes
    | l :: ts =>
      match s.namedShadow (s.src x.ext .b32 l x.a) with
      | none => s.uniformFault x { cause := 0x1E }
      | some (d, k, sh) =>
        let fs := framesOf sh.pages
        let lo := s.cb.shdwwin.toNat + (256 * d + k) * 2 ^ 26
        let sent := s.hub.inflight.any fun e => e.blk == s.sel.blk && !e.external && (l :: ts).contains e.thr && fs.contains (e.pa / 4096)
        if sent || s.aliasBusy sh lo || fs.any (fun f => s.refuses (4096 * f)) || (!drop && (List.range 6).any fun a => s.blocked a (s.vclock s.cd)) then
          s.stall
        else
          let s1 := (s.advance x.ext.bytes).irrevoke s.sel.blk
          if drop then s1.dropShadow d k sh else s1.publish d k sh

/-- `publ` (R307). -/
def execPubl (x : Opnds) (s : State) : Host.Outcome State Fault Refusal := s.publOp (.publ x) false

/-- `publ.drop` (R307). -/
def execPublDrop (x : Opnds) (s : State) : Host.Outcome State Fault Refusal := s.publOp (.publDrop x) true

/-- SHADOW_DROP (R305): the package kernel drops an open shadow. -/
def execShadowDrop (die k : Nat) (s : State) : Host.Outcome State Fault Refusal :=
  .next (match Sparse.look (s.die die).shadows k with
    | some sh => if sh.opened && sh.copying.isNone then s.dropShadow die k sh else s
    | none => s)

end Sys2Proof.Machine
end

