-- ==== Sys2Proof/Machine/Queues.lean ====
section
/-! DEFINITION. Queues.lean: work queues (R327 to R331), exit lists (R333 to R338) and the status of launch queues (R326). -/

namespace Sys2Proof.Machine

open Sys2Proof.Fp (Val)

/-! ### Launch queues (R314) -/

/-- A queue's configuration after reset (R314). -/
def QueueCfg.reset : QueueCfg :=
  { ring := 0, lsize := 0, die := 0, en := false, pmax := 0, dom := 0, asn := 0, wptr := 0, rptr := 0, root := 0, shdw := 0
    hwsave := 0, hwsz := 0 }

/-- A queue after reset (R314). -/
def Queue.reset : Queue :=
  { cfg := QueueCfg.reset, read := 0, seen := 0, seqNext := 1, wrapped := false, era := 0, halted := false, refused := 0
    lastRefusal := 0, history := [], waitSeq := none, cancelled := false, hwUsed := [] }

/-- A launch queue. -/
def State.queue (s : State) (q : Nat) : Queue := Sparse.getOr s.hub.queues q Queue.reset

/-- Update of a launch queue. -/
def State.modQueue (s : State) (q : Nat) (f : Queue → Queue) : State :=
  s.modHub fun h => { h with queues := Sparse.put h.queues q (f (Sparse.getOr h.queues q Queue.reset)) }

/-- A grid is not complete. -/
def GridState.open : GridState → Bool
  | .complete => false
  | _ => true

/-- The queue of a block's grid. -/
def State.queueOf (s : State) (b : Block) : Nat := ((Sparse.look s.grids b.grid).map (·.queue)).getD 0

/-- The executing lanes may use a service instruction (R275, R326): at handler level 2, or in a domain of `svcdom`. -/
def State.service (s : State) (ex : List Nat) : Bool :=
  (s.die s.cd).svcdom.getLsbD s.cb.hdr.domain || ex.all fun t => (s.cb.thr t).level == 2

/-- The four words of `lq.stat` (R326). -/
def State.lqWords (s : State) (q : Nat) : Nat :=
  let k := s.queue q
  let live := (s.grids.filter fun e => e.2.queue == q && e.2.state.open && !e.2.refused).length
  let st := if !k.cfg.en then 0 else if k.halted then 2 else 1
  k.read.toNat % 2 ^ 32 + live * 2 ^ 32 + (st + k.cfg.pmax * 4 + q * 32 + k.lastRefusal * 65536) * 2 ^ 64 + k.refused.toNat * 2 ^ 96

/-! ### Exit lists and their batches (R333, R336) -/

/-- An exit list after die reset (R333). -/
def ExitList.reset : ExitList :=
  { owner := none, base := 0, lcap := 4, bmax := 1, bmin := 1, bwait := 0, pkt := 0, wq := 0, stat := 0, fill := 0, handed := 0
    done := 0, dropped := 0, failed := 0, recs := [], handedAt := [], failedBatches := [], batch := none }

/-- An exit list of a die. -/
def State.exitList (s : State) (d e : Nat) : ExitList := Sparse.getOr (s.die d).exits e ExitList.reset

/-- Update of an exit list. -/
def State.modExit (s : State) (d e : Nat) (f : ExitList → ExitList) : State :=
  s.modDie d fun x => { x with exits := Sparse.put x.exits e (f (Sparse.getOr x.exits e ExitList.reset)) }

/-- The list is registered to a block's domain and address space (R334). -/
def ExitList.mine (l : ExitList) (b : Block) : Bool := l.owner.any fun o => o.1 == b.hdr.domain && o.2.1 == b.asn

/-- Who a list's engine accesses memory for: its queue's address space (R333). -/
def State.exitWho (s : State) (d : Nat) (l : ExitList) : Who :=
  let (dom, asn, q) := l.owner.getD (0, 0, 0)
  let c := (s.queue q).cfg
  { die := d, core := none, dom := dom, asn := asn, root := c.root, win := c.shdw.toNat, code := dom }

/-- A restartable record of an engine that acts for no block (R269). -/
def Who.engineRec (w : Who) (cause why level acc va : Nat) : RestartRec :=
  { cause := .ofNat 16 cause, why := why, acc := acc, level := level, engine := true, domain := w.dom, asn := w.asn, count := 1
    va := .ofNat 64 va, cores := 0, pc := 0 }

/-- One of the stores to be made, unless one before it for the same queue or list is not: what is still to be made is kept (R273). -/
def State.storeTry (d : Nat) (acc : State × List EngStore) (x : EngStore) : State × List EngStore :=
  if x.waitSeq.isSome || acc.2.any (·.key == x.key) then (acc.1, acc.2 ++ [x])
  else
    match acc.1.engWrite x.who 0 x.va (x.bytes.map fun b => (b, false)) with
    | (s, none) | (s, some (.fail _)) => (s, acc.2)
    | (s, some .wait) => (s, acc.2 ++ [x])
    | (s, some (.fault c y lv a va)) =>
      let (s, seq) := s.raiseRestart d (x.who.engineRec c y lv a va) (.store x.key)
      (s, acc.2 ++ [{ x with waitSeq := some seq }])

/-- The stores to be made that can be are (R315, R333), unless the die's links carry nothing (R364). -/
def State.runStores (s : State) (d : Nat) : State :=
  if 2 ≤ (s.die d).warm.step then s
  else
    let r := (s.die d).stores.foldl (State.storeTry d) (s, [])
    r.1.modDie d fun x => { x with stores := r.2 }

/-- A store of an engine that acts for no block. -/
def State.looseWrite (s : State) (d key : Nat) (w : Who) (va : Nat) (bs : List Byte) : State :=
  (s.modDie d fun x => { x with stores := x.stores ++ [{ key := key, who := w, va := va, bytes := bs, waitSeq := none }] }).runStores d

/-- A store for an exit list is still to be made. -/
def State.storing (s : State) (d e : Nat) : Bool := (s.die d).stores.any fun x => x.key == 64 + e

/-- The status block is rewritten (R333). -/
def State.exitStatus (s : State) (d e : Nat) : State :=
  let l := s.exitList d e
  s.looseWrite d (64 + e) (s.exitWho d l) l.stat.toNat
    ([l.fill, l.handed, l.done, l.dropped, l.failed, 0, 0, 0].flatMap fun n => toBytes 4 n)

/-- The waiting `bkwait`s on the records of a batch learn its outcome (R338). -/
def Wait.batchOver (e lo n code : Nat) : Wait → Wait
  | .exits l k Option.none => if l = e && lo ≤ k && k < lo + n then .exits l k (some code) else .exits l k Option.none
  | w => w

/-- The batch of an exit list has completed, or has failed (R336 step 3). -/
def State.batchDone (s : State) (d e count : Nat) (ok : Bool) : State :=
  let l := s.exitList d e
  let s := s.modExit d e fun l => { l with
    done := l.done + count, failed := if ok then l.failed else l.failed + 1, batch := none
    handedAt := l.handedAt.filter fun h => decide (l.done + count ≤ h.1) || l.handedAt.all fun k => k == h || k.1 < h.1 || l.done + count < k.1
    failedBatches := if ok then l.failedBatches else l.failedBatches ++ [(l.done, count)] }
  let f := Wait.batchOver e l.done count (if ok then 0 else 1)
  let tell (x : Nat × Block) : Nat × Block :=
    if x.2.core / 48 == d then (x.1, { x.2 with threads := x.2.threads.map fun t => { t with wait := f t.wait } }) else x
  State.exitStatus { s with blocks := s.blocks.map tell } d e

/-! ### Work queues (R327 to R331) -/

/-- A work queue after die reset (R327). -/
def WorkQueue.reset : WorkQueue := { owner := none, closed := false, items := [], waiting := [] }

/-- A work queue of a die. -/
def State.wq (s : State) (d q : Nat) : WorkQueue := Sparse.getOr (s.die d).wqs q WorkQueue.reset

/-- Update of a work queue. -/
def State.modWq (s : State) (d q : Nat) (f : WorkQueue → WorkQueue) : State :=
  s.modDie d fun x => { x with wqs := Sparse.put x.wqs q (f (Sparse.getOr x.wqs q WorkQueue.reset)) }

/-- What becomes of an issue at a work queue. -/
inductive WqGot where
  /-- It acts. -/
  | acts (s : State)
  /-- It must wait in the queue, having taken or placed nothing. -/
  | waits
  /-- Its fence cannot complete yet (R330). -/
  | fencing

/-- The end of a push or pull: pD in every executing lane, and the interval irrevocable (R147, R329). -/
def State.wqEnd (s : State) (x : Opnds) (pd : BitVec 3) (served : List Nat) : State :=
  ((s.advance x.ext.bytes).write (.p pd) 1 ((s.exe x.g).map fun t => (t, if served.contains t then 1 else 0))).irrevoke s.sel.blk

/-- `wq.push` at the queue (R329, R330); `behind`: an earlier push waits there. -/
def State.pushAct (s : State) (x : Opnds) (q : Nat) (nw behind : Bool) (pd : BitVec 3) : WqGot :=
  let w := s.wq s.cd q
  let ex := s.exe x.g
  let free := 1024 - w.items.length
  let put (ts : List Nat) : WqGot :=
    if ts.isEmpty then .acts (s.wqEnd x pd [])
    else
      match s.fenceFirst s.sel.blk ex 3 with
      | none => .fencing
      | some s1 =>
        .acts ((s1.modWq s.cd q fun y => { y with
          items := y.items ++ ts.map fun t => .ofNat 64 (s.src x.ext .b64 t x.a) }).wqEnd x pd ts)
  if w.closed then .acts (s.wqEnd x pd [])
  else if behind then (if nw then .acts (s.wqEnd x pd []) else .waits)
  else if ex.length ≤ free then put ex
  else if nw then put (ex.take free)
  else .waits

/-- `wq.pull` at the queue (R329, R330); `behind`: an earlier pull waits there. -/
def State.pullAct (s : State) (x : Opnds) (q : Nat) (nw behind : Bool) (pd : BitVec 3) : WqGot :=
  let w := s.wq s.cd q
  let ex := s.exe x.g
  let once := Dst.isScalar x.d
  let n := if once then 1 else ex.length
  let give (k : Nat) : WqGot :=
    if k = 0 then .acts (s.wqEnd x pd [])
    else
      let got := w.items.take k
      let served := if once then ex else ex.take k
      let vals := (served.zip got).map fun e => (e.1, e.2.toNat)
      let s1 := ((s.modWq s.cd q fun y => { y with items := y.items.drop k }).wqEnd x pd served).write x.d 2 vals
      .acts (s1.fenceLanes s.sel.blk s.sel.act ex fun _ => 3)
  if behind then (if nw then .acts (s.wqEnd x pd []) else .waits)
  else if n ≤ w.items.length then give n
  else if nw || w.closed then give (min n w.items.length)
  else .waits

/-- A push or a pull. -/
def Instr.isPush : Instr → Bool
  | .wqPush _ _ _ _ => true
  | _ => false

/-- The kind of what waits at a queue: a push or a pull. -/
def WqWaiter.isPush : WqWaiter → Bool
  | .issue _ i => Instr.isPush i
  | .batch _ => true

/-- A push or a pull acts at its queue, or waits. -/
def State.wqAct (s : State) (i : Instr) (behind : Bool) : WqGot :=
  match i with
  | .wqPush x q nw pd => s.pushAct x q.toNat nw behind pd
  | .wqPull x q nw pd => s.pullAct x q.toNat nw behind pd
  | _ => .waits

/-- The queue is assigned to the issuing block's domain and address space (R327). -/
def State.wqOwned (s : State) (q : Nat) : Bool := (s.wq s.cd q).owner == some (s.cb.hdr.domain, s.cb.asn)

/-- What waits at a queue, oldest first: an issue whose block rolls back or is killed waits no longer. -/
def State.wqWaiters (s : State) (d q : Nat) : List WqWaiter :=
  (s.wq d q).waiting.filter fun w => match w with
    | .issue sel _ => (s.blk sel.blk).state.issues
    | .batch _ => true

/-- A push or pull at its issue (R329). -/
def State.wqOp (s : State) (i : Instr) (q : Nat) : Host.Outcome State Fault Refusal :=
  s.issue i fun x s =>
    let ex := s.exe x.g
    if ex.isEmpty then s.advance x.ext.bytes
    else if !s.wqOwned q then s.uniformFault x { cause := 0x1F }
    else
      let behind := (s.wqWaiters s.cd q).any fun e => e.isPush == Instr.isPush i
      match s.wqAct i behind with
      | .acts s1 => s1
      | .fencing => (s.fenceBegin s.sel.blk ex 3).stall
      | .waits => (s.hold ex .workQueue).modWq s.cd q fun w => { w with waiting := w.waiting ++ [.issue s.sel i] }

/-- `wq.push` (R328, R329). -/
def execWqPush (x : Opnds) (q : BitVec 5) (nw : Bool) (pd : BitVec 3) (s : State) : Host.Outcome State Fault Refusal :=
  s.wqOp (.wqPush x q nw pd) q.toNat

/-- `wq.pull` (R328, R329). -/
def execWqPull (x : Opnds) (q : BitVec 5) (nw : Bool) (pd : BitVec 3) (s : State) : Host.Outcome State Fault Refusal :=
  s.wqOp (.wqPull x q nw pd) q.toNat

/-- The item that names a batch (R336 step 1). -/
def batchItem (first count e : Nat) : DWord := .ofNat 64 (first % 2 ^ 32 + count * 2 ^ 32 + e * 2 ^ 48)

/-- The item of an exit list's batch reaches its work queue (R336 step 1): pushed where there is room and no earlier push waits; the batch fails
where the queue is closed or not the list's; none while it must wait. -/
def State.batchPush (s : State) (d e : Nat) (behind : Bool) : Option State :=
  let l := s.exitList d e
  let w := s.wq d l.wq
  match l.batch with
  | none => some s
  | some b =>
    if w.closed || l.owner.all (fun o => w.owner != some (o.1, o.2.1)) then some (s.batchDone d e b.count false)
    else if behind || 1024 ≤ w.items.length then none
    else some ((s.modWq d l.wq fun w => { w with items := w.items ++ [batchItem b.first b.count e] }).modExit d e fun l => { l with
        batch := some { b with pushed := true } })

/-- The oldest that waits at a queue is served, if it can be (R329). -/
def State.wqServe (s : State) (d q : Nat) : Option State :=
  match s.wqWaiters d q with
  | [] => none
  | w :: rest =>
    let s0 := s.modWq d q fun w => { w with waiting := rest }
    match w with
    | .issue sel i =>
      match ({ s0 with sel := sel }).wqAct i false with
      | .acts s1 => some { s1 with sel := s.sel }
      | _ => none
    | .batch e => s0.batchPush d e false

/-- Waiting issues in order, until one cannot be served. -/
def State.wqServeAll (d q : Nat) : Nat → State → State
  | 0, s => s
  | n + 1, s =>
    match s.wqServe d q with
    | some s1 => State.wqServeAll d q n s1
    | none => s

/-- WQ_WAIT_SERVED (R329): the oldest waiting issue of a work queue acts. -/
def execWqWaitServed (die q : Nat) (s : State) : Host.Outcome State Fault Refusal := .next ((s.wqServe die q).getD s)

/-- The actions of `wq.stat` (R331): the count at the moment it acts, then the change. -/
def State.wqStat (s : State) (i : Instr) (q : Nat) (f : State → State) : Host.Outcome State Fault Refusal :=
  s.issue i fun x s =>
    let ex := s.exe x.g
    if ex.isEmpty then s.advance x.ext.bytes
    else if !s.wqOwned q then s.uniformFault x { cause := 0x1F }
    else
      let n := (s.wq s.cd q).items.length
      f ((s.advance x.ext.bytes).write x.d 1 (ex.map fun t => (t, n)))

/-- `wq.stat.cnt` (R331). -/
def execWqStatCnt (x : Opnds) (q : BitVec 5) (s : State) : Host.Outcome State Fault Refusal :=
  s.wqStat (.wqStatCnt x q) q.toNat id

/-- `wq.stat.close` (R331): every waiting issue is served under the closed rule. -/
def execWqStatClose (x : Opnds) (q : BitVec 5) (s : State) : Host.Outcome State Fault Refusal :=
  s.wqStat (.wqStatClose x q) q.toNat fun s =>
    let s1 := s.modWq s.cd q.toNat fun w => { w with closed := true }
    State.wqServeAll s.cd q.toNat (s1.wq s.cd q.toNat).waiting.length s1

/-- `wq.stat.open` (R331). -/
def execWqStatOpen (x : Opnds) (q : BitVec 5) (s : State) : Host.Outcome State Fault Refusal :=
  s.wqStat (.wqStatOpen x q) q.toNat fun s => s.modWq s.cd q.toNat fun w => { w with closed := false }

/-! ### Launch queues as instructions see them (R326) -/

/-- `lq.stat` (R326). -/
def execLqStat (x : Opnds) (s : State) : Host.Outcome State Fault Refusal :=
  s.issue (.lqStat x) fun x s =>
    match s.exe x.g with
    | [] => s.advance x.ext.bytes
    | l :: ts =>
      let own := s.queueOf s.cb
      let q := s.src x.ext .b32 l x.a
      let give (v : Nat) : State := (s.advance x.ext.bytes).write x.d 4 [(l, v)]
      if q = 0xFFFFFFFF then give (s.lqWords own)
      else if 64 ≤ q then give 0
      else if q = own || s.service (l :: ts) then give (s.lqWords q)
      else s.uniformFault x { cause := 0x1A }

/-! ### Exit lists (R333 to R335, R338) -/

/-- Whether a token passes, and the flags (R334). -/
def exitPass (m l t : Nat) : Bool × BitVec 6 :=
  let vs := [Fp.unpack .f32 m, Fp.unpack .f32 l, Fp.unpack .f32 t]
  let a := Fp.unpack .f32 m
  let b := Fp.unpack .f32 l
  let c := Fp.unpack .f32 t
  let fl := Fp.snanFlags vs
  if vs.any Val.isNan || (a.isInf && b.isInf && a.neg == b.neg) then (false, fl)
  else
    let low := (a.isInf && a.neg) || (b.isInf && !b.neg)
    let high := (a.isInf && !a.neg) || (b.isInf && b.neg)
    if c.isInf then (c.neg || high, 0)
    else if high then (true, 0)
    else if low then (decide (c.dyadic.m ≤ 0), 0)
    else (Fp.expAtLeast (a.dyadic.add { m := -b.dyadic.m, e := b.dyadic.e }) c.dyadic, 0)

/-- A record is appended, or dropped where the list is full (R334): whether it was appended. -/
def State.exitAppend (s : State) (d e token layer : Nat) : State × Bool :=
  let l := s.exitList d e
  let cap := 2 ^ l.lcap
  if l.fill - l.done = cap then (s.modExit d e fun l => { l with dropped := l.dropped + 1 }, false)
  else
    let s := s.looseWrite d (64 + e) (s.exitWho d l) (l.base.toNat + 8 * (l.fill % cap)) (toBytes 8 (token + layer * 2 ^ 32))
    (s.modExit d e fun l => { l with
      fill := l.fill + 1
      recs := Sparse.put (l.recs.filter fun r => l.fill < r.1 + cap) l.fill (.ofNat 32 token, .ofNat 16 layer) }, true)

/-- `conftest` (R334). -/
def execConftest (x : Opnds) (e : BitVec 4) (s : State) : Host.Outcome State Fault Refusal :=
  s.issue (.conftest x e) fun x s =>
    match s.exe x.g with
    | [] => s.advance x.ext.bytes
    | l :: ls =>
      if !(s.exitList s.cd e.toNat).mine s.cb then s.uniformFault x { cause := 0x22 }
      else
        let c := s.src x.ext .b64 l x.c
        let test (t : Nat) : Bool × BitVec 6 :=
          let v := s.src x.ext .b64 t x.a
          exitPass (v % 2 ^ 32) (v / 2 ^ 32) (c % 2 ^ 32)
        let rs := (l :: ls).map fun t => (t, test t)
        let (s1, ps) := rs.foldl (fun (acc : State × List (Nat × Nat)) r =>
          if r.2.1 then
            let (s', ok) := acc.1.exitAppend s.cd e.toNat (s.src x.ext .b32 r.1 x.b) (c / 2 ^ 32 % 2 ^ 16)
            (s', acc.2 ++ [(r.1, if ok then 1 else 0)])
          else (acc.1, acc.2 ++ [(r.1, 0)])) (s, [])
        let s2 := if ps.any fun p => p.2 == 1 then s1.irrevoke s.sel.blk else s1
        ((s2.advance x.ext.bytes).write x.d 1 ps).flagLanes (rs.map fun r => (r.1, r.2.2))

/-- The accesses of lanes are performed at scope 4 (R335, R277): their stores are with every agent and at their homes; none while
that cannot be. -/
def State.lanesPerformed (s : State) (bid : Nat) (ts : List Nat) : Option State :=
  let d := (s.blk bid).core / 48
  if ts.any fun t => s.unsent bid t then none
  else
    let lines := (ts.flatMap fun t => s.maskedLines d bid t).eraseDups
    if lines.any (fun l => !s.served d l) || ts.any (fun t => s.heldFor bid t 4) then none
    else some (lines.foldl (fun s l => s.writeBack d l 256) s)

/-- A descriptor of an exit list breaks no rule (R333, R335). -/
def exitDescOk (d : Nat) : Bool :=
  field d 69 11 == 0 && field d 197 59 == 0 && field d 320 192 == 0
    && 4 ≤ field d 64 5 && field d 64 5 ≤ 20 && 1 ≤ field d 80 16 && 1 ≤ field d 96 16 && field d 96 16 ≤ field d 80 16
    && field d 0 64 % 8 == 0 && field d 128 64 % 128 == 0 && field d 256 64 % 8 == 0

/-- The exit list that a descriptor registers (R333). -/
def exitOf (owner : Nat × Nat × Nat) (d : Nat) : ExitList :=
  { ExitList.reset with
    owner := some owner, base := .ofNat 64 (field d 0 64), lcap := field d 64 5, bmax := field d 80 16, bmin := field d 96 16
    bwait := field d 112 16, pkt := .ofNat 64 (field d 128 64), wq := field d 192 5, stat := .ofNat 64 (field d 256 64) }

/-- A list can be registered by a block (R335): nothing handed is unfinished, and it is not another domain's. -/
def ExitList.free (l : ExitList) (b : Block) : Bool :=
  decide (l.handed ≤ l.done) && (l.owner.all fun o => o.1 == b.hdr.domain)

/-- `bkfill.reg` (R335). -/
def execBkfillReg (x : Opnds) (e : BitVec 4) (s : State) : Host.Outcome State Fault Refusal :=
  s.issue (.bkfillReg x e) fun x s =>
    let i := Instr.bkfillReg x e
    let ex := s.exe x.g
    let len := x.ext.bytes
    match ex with
    | [] => s.advance len
    | l :: _ =>
      let va := s.src x.ext .b64 l x.a
      if !canonical (.ofNat 64 va) then s.uniformFault x { cause := 0x11, addr := .ofNat 64 va }
      else
        match s.engRead s.cb.who (sectorParts va 64) with
        | (s1, .error .wait) => s1.stall
        | (s1, .error (.fail k)) => s1.uniformFault x { cause := if k = 3 then 0x11 else 0x13, addr := .ofNat 64 va }
        | (s1, .error (.fault c w lv acc a)) => s1.reissue i len acc ex c w lv a
        | (s1, .ok bs) =>
          if bs.any (·.2) then s1.consume s.sel.blk 0 (.ofNat 64 (s1.physOf s.cb.who (va + bs.findIdx (·.2))))
          else
            let desc := ofBytes (bs.map (·.1))
            if !exitDescOk desc || !(s.exitList s.cd e.toNat).free s.cb then s1.uniformFault x { cause := 0x22 }
            else
              (((s1.modExit s.cd e.toNat fun _ => exitOf (s.cb.hdr.domain, s.cb.asn, s.queueOf s.cb) desc).advance len).write x.d 1
                [(l, 0)]).irrevoke s.sel.blk

/-- Engine work of lanes that a plain `bkfill` waits for (R335). -/
def State.engineBusy (s : State) (ex : List Nat) : Bool :=
  let b := s.cb
  let hs := (ex.map homeBundle).eraseDups
  (s.die s.cd).bulk.any (fun c => c.blk == s.sel.blk && c.thrs.any ex.contains)
    || b.slices.any (fun c => hs.contains c.bundle) || b.copies.any fun c => c.slices.any fun y => hs.contains y.bundle

/-- `bkfill` (R335). -/
def execBkfill (x : Opnds) (e : BitVec 4) (s : State) : Host.Outcome State Fault Refusal :=
  s.issue (.bkfill x e) fun x s =>
    let ex := s.exe x.g
    let d := s.cd
    match ex with
    | [] => s.advance x.ext.bytes
    | l :: _ =>
      let li := s.exitList d e.toNat
      if !li.mine s.cb then s.uniformFault x { cause := 0x22 }
      else if s.engineBusy ex || s.storing d e.toNat then s.stall
      else
        match s.lanesPerformed s.sel.blk ex with
        | none => s.stall
        | some s1 =>
          let n := li.fill - li.handed
          let s2 := s1.modExit d e.toNat fun y => { y with
            handed := y.fill, handedAt := if n = 0 then y.handedAt else y.handedAt ++ [(y.handed, s.hub.time)] }
          (((s2.exitStatus d e.toNat).advance x.ext.bytes).write x.d 1 [(l, n)]).irrevoke s.sel.blk

/-- The record of a token with the greatest index among the last C (R338). -/
def ExitList.find (l : ExitList) (token : Nat) : Option Nat :=
  ((l.recs.filter fun r => r.2.1.toNat == token && l.fill ≤ r.1 + 2 ^ l.lcap).map (·.1)).getLast?

/-- `bkwait` (R338): a wait is on the record found at its issue. -/
def execBkwait (x : Opnds) (e : BitVec 4) (s : State) : Host.Outcome State Fault Refusal :=
  s.issue (.bkwait x e) fun x s =>
    let ex := s.exe x.g
    match ex with
    | [] => s.advance x.ext.bytes
    | l :: _ =>
      let li := s.exitList s.cd e.toNat
      let give (v : Nat) : State := (s.advance x.ext.bytes).write x.d 1 [(l, v)]
      match (s.cb.thr l).wait with
      | .exits _ _ (some v) => give v
      | _ =>
        if !li.mine s.cb then s.uniformFault x { cause := 0x22 }
        else
          match li.find (s.src x.ext .b32 l x.a) with
          | none => give 3
          | some k =>
            if k < li.done then give (if li.failedBatches.any fun b => b.1 ≤ k && k < b.1 + b.2 then 1 else 0)
            else if k < li.handed then s.hold ex (.exits e.toNat k none)
            else give 2

end Sys2Proof.Machine
end

