-- ==== Sys2Proof/Machine/Launch.lean ====
section
/-! DEFINITION. Launch.lean: packets, headers and their acceptance (R122, R124, R314 to R319), child launches (R324, R325), the
completion of grids (R323) and the batches of the backfill engine (R336). -/

namespace Sys2Proof.Machine

/-! ### The Lamplighter's log (R358) -/

/-- A record is logged. The log holds 65,536 records of 64 bytes; when it is full the oldest 64 KiB go first. -/
def State.lampLog (s : State) (agent : Nat) (event : LogEvent) (data : List Nat) : State :=
  s.modHub fun h => { h with
    log := (if 65536 ≤ h.log.length then h.log.drop 1024 else h.log)
      ++ [{ seq := h.logNext, time := h.time, agent := agent, event := event, data := data }]
    logNext := h.logNext + 1 }

/-! ### The launch header (R122, R124) -/

/-- A header from its 512 bits (R122). -/
def Header.of (x : Nat) : Header :=
  { entry := .ofNat 64 (field x 0 64), handler := .ofNat 64 (field x 64 64), last := .ofNat 64 (field x 128 64)
    w := (List.range 6).map fun k => field x (192 + 7 * k) 7
    regs := field x 240 8, ncopy := field x 256 5, nmat := field x 261 5, nvec := field x 266 5, scratch := field x 272 11
    barriers := field x 283 5, afterglow := bitAt x 288, lanefault := field x 289 2, prio := field x 291 3
    domain := field x 294 4, depth := 1, param := .ofNat 64 (field x 320 64), done := .ofNat 64 (field x 384 64) }

/-- The threads of a block (R51). -/
def Header.threads (h : Header) : Nat := h.extent 0

/-- The bundles of a block (R52). -/
def Header.bundles (h : Header) : Nat := (h.threads + 127) / 128

/-- The blocks of a launch (R50, R53). -/
def Header.blocks (h : Header) : Nat := ((List.range 5).map fun k => h.extent (k + 1)).foldl (· * ·) 1

/-- Bundles of a block on partition q (R120). -/
def Header.onPart (h : Header) (q : Nat) : Nat := ((List.range h.bundles).filter fun b => b % 4 == q).length

/-- Partitions whose matrix unit a block owns: those with a matrix-role bundle (R120, R201). -/
def Header.matParts (h : Header) : List Nat :=
  (List.range 4).filter fun q => (List.range h.bundles).any fun b => b % 4 == q && (h.unroled || h.role b == 1)

/-- One block fits an empty core (R120, R124). -/
def Header.fitsEmpty (h : Header) (g : Nat) : Bool :=
  (List.range 4).all (fun q => decide (h.onPart q * g ≤ 24) && decide (h.onPart q * g * h.regs ≤ 1024)) && decide (h.scratch ≤ 1024)

/-- An address that is canonical and a multiple of n. -/
def goodAddr (a n : Nat) : Bool := canonical (.ofNat 64 a) && a % n == 0

/-- The header breaks a rule of R124, or holds an address that is not canonical or aligned (R318). -/
def headerBad (x : Nat) : Bool :=
  let h := Header.of x
  let sum := h.w.sum
  field x 448 8 != 1 || field x 234 6 != 0 || field x 248 8 != 0 || bitAt x 271 || field x 302 18 != 0 || field x 456 56 != 0
    || 11 < h.w.getD 0 0 || 2 < h.w.getD 1 0 || h.w.any (fun w => decide (64 < w)) || 64 < sum || h.last.toNat / 2 ^ sum != 0
    || h.ncopy + h.nmat + h.nvec != h.bundles || h.regs == 0 || 1024 < h.scratch || 16 < h.barriers || h.lanefault == 3
    || !goodAddr h.entry.toNat 4 || !(h.handler == 0 || goodAddr h.handler.toNat 4)
    || !goodAddr h.param.toNat 1 || !goodAddr h.done.toNat 32
    || !h.fitsEmpty (if h.afterglow then 2 else 1)

/-! ### Packets (R317) -/

/-- The dependences that a packet uses: sequence number and queue. -/
def packetDeps (p : Nat) : List (Nat × Nat) :=
  (List.range (min 4 (field p 8 3))).map fun k => (field p (320 + 64 * k) 32, field p (352 + 64 * k) 6)

/-- The packet holds a reserved value, or an address or size that is not canonical or aligned (R317, R318, R106). -/
def packetBad (p : Nat) : Bool :=
  field p 0 8 != 1 || 4 < field p 8 3 || field p 11 53 != 0 || field p 576 448 != 0
    || (List.range 4).any (fun k => field p (358 + 64 * k) 26 != 0)
    || !goodAddr (field p 64 64) 64 || !goodAddr (field p 128 64) 1 || !goodAddr (field p 256 64) 1
    || field p 192 32 % 16 != 0 || 65536 < field p 192 32 || field p 224 32 % 64 != 0

/-! ### Sequence numbers and statuses (R318, R319) -/

/-- A queue's next sequence number is taken (R318). -/
def State.takeSeq (s : State) (q : Nat) : State × Nat :=
  let n := (s.queue q).seqNext
  (s.modQueue q fun k => { k with
    seqNext := if n = 0xFFFFFFFF then 1 else n + 1, wrapped := k.wrapped || n == 0xFFFFFFFF
    history := ((n.toNat, none) :: k.history.filter fun e => e.1 != n.toNat).take 4096 }, n.toNat)

/-- The status of a sequence number is known (R319). -/
def State.setStatus (s : State) (q seq status : Nat) : State :=
  s.modQueue q fun k => { k with history := k.history.map fun e => if e.1 == seq then (seq, some status) else e }

/-- A sequence number has been issued by an enabled queue (R318). -/
def State.issued (s : State) (q seq : Nat) : Bool :=
  let k := s.queue q
  k.cfg.en && seq != 0 && (k.wrapped || decide (seq < k.seqNext.toNat))

/-- The status of a dependence: none while its launch is not complete; one that is no longer kept counts as OK (R319). -/
def State.depStatus (s : State) (d : Nat × Nat) : Option Nat :=
  match (s.queue d.2).history.find? fun e => e.1 == d.1 with
  | some e => e.2
  | none => some 0

/-- A refusal is counted (R318, R326). -/
def State.countRefusal (s : State) (q seq status : Nat) : State :=
  (s.setStatus q seq status).modQueue q fun k => { k with refused := k.refused + 1, lastRefusal := status }

/-! ### Acceptance (R318) -/

/-- Who requests a launch: the queue, the die, its address space and domain, the depth, and the parent with its slot. -/
structure Launcher where
  queue : Nat
  die : Nat
  who : Who
  depth : Nat
  parent : Option (Nat × Nat × Option Nat)
  batch : Option Nat

/-- A queue as a launcher. -/
def State.queueWho (s : State) (q : Nat) : Who :=
  let c := (s.queue q).cfg
  { die := c.die, core := none, dom := c.dom, asn := c.asn, root := c.root, win := c.shdw.toNat, code := c.dom }

/-- Children of a die's launches not yet complete (R318). -/
def State.openChildrenOn (s : State) (d : Nat) : Nat :=
  (s.grids.filter fun e => e.2.die == d && e.2.parent.isSome && e.2.state.open && !e.2.refused).length

/-- The status with which a request is refused, or 0 (R318): the first row that applies. -/
def State.refusal (s : State) (l : Launcher) (p : Nat) (hdr : Option Nat) : Nat :=
  let deps := packetDeps p
  if packetBad p || (match hdr with | some x => headerBad x | none => true) then 2
  else if 8 < l.depth then 3
  else if deps.any fun d => !s.issued d.2 d.1 then 4
  else if deps.all (fun d => (s.depStatus d).isSome) && deps.any fun d => s.depStatus d != some 0 then 5
  else if l.parent.isSome && 1024 ≤ s.openChildrenOn l.die then 6
  else if ((hdr.map fun x => (Header.of x).domain).getD 0) != l.who.dom then 7
  else 0

/-- The grid of a request. -/
def State.newGrid (s : State) (l : Launcher) (p : Nat) (h : Header) (seq status : Nat) : Grid :=
  let h := { h with depth := l.depth }
  { queue := l.queue, seq := seq, die := l.die, hdr := h, locbase := .ofNat 64 (field p 128 64), locsz := .ofNat 32 (field p 192 32)
    save := .ofNat 64 (field p 256 64), savesz := field p 224 32, deps := packetDeps p, root := l.who.root, asn := l.who.asn
    shdw := .ofNat 64 l.who.win, state := if status = 0 && !(packetDeps p).isEmpty then .waiting else .active
    total := if status = 0 then h.blocks else 0, placed := 0, ended := 0, killed := 0, struck := 0, children := 0
    openChildren := 0, childFailed := false, fault := 0, nofrc := false, since := s.hub.time
    prio := min h.prio (s.queue l.queue).cfg.pmax, rise := 0, passed := false
    parent := l.parent, batch := if status = 0 then l.batch else none, status := status, dom := l.who.dom, refused := status != 0
    era := (s.queue l.queue).era, waitSeq := none, cancelled := false }

/-- A packet or request is handled (R318): the status, the sequence number, and the grid's number. `hdr` is the header's bits, none
where it cannot be read. -/
def State.accept (s : State) (l : Launcher) (p : Nat) (hdr : Option Nat) : State × Nat × Nat :=
  let (s, seq) := s.takeSeq l.queue
  if field p 0 8 = 0 then (s.setStatus l.queue seq 0, 0, seq)
  else
    let st := s.refusal l p hdr
    let s := if st = 0 then s else s.countRefusal l.queue seq st
    match hdr with
    | none => (s, st, seq)
    | some x =>
      let h := Header.of x
      if st != 0 && !goodAddr h.done.toNat 32 then (s, st, seq)
      else
        let g := s.newGrid l p h seq st
        let s := { s with grids := Sparse.put s.grids s.gridNext g, gridNext := s.gridNext + 1 }
        match l.parent, st with
        | some (pg, _, _), 0 =>
          (s.modGrid pg fun g => { g with children := g.children + 1, openChildren := g.openChildren + 1 }, st, seq)
        | _, _ => (s, st, seq)

/-- The engine's read of a header (R318, R324): none where it cannot be read, and what else stands in the way. -/
def State.readHeader (s : State) (w : Who) (p : Nat) : State × Except EngStop (Option Nat) :=
  if field p 0 8 == 0 || !goodAddr (field p 64 64) 64 then (s, .ok none)
  else
    match s.engRead w (sectorParts (field p 64 64) 64) with
    | (s, .error .wait) => (s, .error .wait)
    | (s, .error (.fault c y lv acc a)) => (s, .error (.fault c y lv acc a))
    | (s, .error (.fail _)) => (s, .ok none)
    | (s, .ok bs) => (s, .ok (if bs.any (·.2) then none else some (ofBytes (bs.map (·.1)))))

/-! ### The launch engine takes packets (R314 to R316) -/

/-- QUEUE_ENABLE (R314): `q.en` is written 1: the read count and the sequence numbers start again. -/
def execQueueEnable (q : Nat) (s : State) : Host.Outcome State Fault Refusal :=
  .next (if 64 ≤ q then s else s.modQueue q fun k => { k with
    cfg := { k.cfg with en := true }, read := 0, seen := 0, seqNext := 1, wrapped := false, era := k.era + 1, halted := false
    history := [], waitSeq := none, cancelled := false })

/-- The queue halts (R315). -/
def State.haltQueue (s : State) (q : Nat) : State := (s.modQueue q fun k => { k with halted := true }).lampLog 4 .queueHalt [q]

/-- The read count advances past a packet (R315). -/
def State.packetTaken (s : State) (q : Nat) : State :=
  let k := s.queue q
  (s.modQueue q fun k => { k with read := k.read + 1, cancelled := false }).looseWrite k.cfg.die q (s.queueWho q) k.cfg.rptr.toNat
    (toBytes 8 (k.read + 1).toNat)

/-- A packet that cannot be read is refused (R315). -/
def State.packetLost (s : State) (q : Nat) : State :=
  let (s, seq) := s.takeSeq q
  (s.countRefusal q seq 2).packetTaken q

/-- The next packet of a queue is read and handled (R315, R318). -/
def State.takePacket (s : State) (q : Nat) : State :=
  let k := s.queue q
  let w := s.queueWho q
  if k.cancelled then s.packetLost q
  else
    let va := (k.cfg.ring.toNat + 128 * (k.read.toNat % 2 ^ k.cfg.lsize)) % 2 ^ 64
    match s.engRead w (sectorParts va 128) with
    | (s, .error .wait) => s
    | (s, .error (.fail _)) => s.packetLost q
    | (s, .error (.fault c y lv acc a)) =>
      let (s, seq) := s.raiseRestart w.die (w.engineRec c y lv acc a) (.packet q)
      s.modQueue q fun k => { k with waitSeq := some seq }
    | (s, .ok bs) =>
      if bs.any (·.2) then s.packetLost q
      else
        let p := ofBytes (bs.map (·.1))
        let l : Launcher := { queue := q, die := w.die, who := w, depth := 1, parent := none, batch := none }
        match s.readHeader w p with
        | (s, .error (.fault c y lv acc a)) =>
          let (s, seq) := s.raiseRestart w.die (w.engineRec c y lv acc a) (.packet q)
          s.modQueue q fun k => { k with waitSeq := some seq }
        | (s, .error _) => s
        | (s, .ok hdr) => (s.accept l p hdr).1.packetTaken q

/-- The write count as the engine reads it (R315). -/
def State.writeCount (s : State) (q : Nat) : State × Option Nat :=
  match s.engRead (s.queueWho q) (sectorParts (s.queue q).cfg.wptr.toNat 8) with
  | (s, .ok bs) => (s, if bs.any (·.2) then none else some (ofBytes (bs.map (·.1))))
  | (s, .error _) => (s, none)

/-- The die serves its launch queues: it is not in a warm reset. -/
def State.dieServes (s : State) (d : Nat) : Bool := (s.die d).warm.step == 0

/-- LAUNCH_PACKET_TAKE (R315): the engine looks at the write count, and takes the next packet if there is one; a look that finds none leaves no trace. -/
def execLaunchPacketTake (q : Nat) (s : State) : Host.Outcome State Fault Refusal :=
  let k := s.queue q
  if !k.cfg.en || k.halted || k.waitSeq.isSome || !s.dieServes k.cfg.die then .next s
  else
    match s.writeCount q with
    | (s1, none) => .next (s.asked k.cfg.die s1)
    | (s1, some w) =>
      if w < k.seen.toNat || k.read.toNat + 2 ^ k.cfg.lsize < w then .next (s1.haltQueue q)
      else
        .next (if k.read.toNat < w then (s1.modQueue q fun k => { k with seen := .ofNat 64 w }).takePacket q else s)

/-- DEPENDENCE_RESOLVED (R319): every launch that the grid depends on has completed. -/
def execDependenceResolved (grid : Nat) (s : State) : Host.Outcome State Fault Refusal :=
  match Sparse.look s.grids grid with
  | none => .next s
  | some g =>
    let sts := g.deps.map s.depStatus
    if g.state != .waiting || sts.any Option.isNone then .next s
    else .next (s.modGrid grid fun g => { g with
      state := .active, status := if sts.all (· == some 0) then 0 else 5
      total := if sts.all (· == some 0) then g.total else 0 })

/-- The effective priority of a launch (R320). -/
def Grid.effPrio (g : Grid) : Nat := min 7 (g.prio + g.rise)

/-- The launch has waited long enough with a block not yet placed to rise by one more level (R320). -/
def State.canRise (s : State) (g : Grid) : Bool :=
  (g.state == .waiting || g.state == .active) && decide (g.placed < g.total) && decide (g.effPrio < 7)
    && decide (g.since + (g.rise + 1) * 1000000 ≤ s.hub.time)

/-- PRIORITY_RISE (R320): one level for each 1 ms. -/
def execPriorityRise (grid : Nat) (s : State) : Host.Outcome State Fault Refusal :=
  .next (match Sparse.look s.grids grid with
    | some g => if s.canRise g then s.modGrid grid fun g => { g with rise := g.rise + 1 } else s
    | none => s)

/-! ### Completion (R323, R325) -/

/-- Every block and child of the grid has ended, or it was refused, or a dependence failed. -/
def Grid.finished (g : Grid) : Bool := g.state == .active && g.placed == g.total && g.ended == g.total && g.openChildren == 0

/-- The status of a finished grid (R318). -/
def Grid.finalStatus (g : Grid) : Nat := if g.status != 0 then g.status else if g.killed != 0 || g.childFailed then 1 else 0

/-- The completion record (R323). -/
def Grid.completion (g : Grid) : Nat :=
  g.finalStatus + g.queue * 2 ^ 16 + (if g.nofrc then 2 ^ 22 else 0) + 2 ^ 63 + g.seq * 2 ^ 64 + min g.struck 0xFFFFFFFF * 2 ^ 96
    + g.killed * 2 ^ 128 + g.children * 2 ^ 160 + g.fault.toNat * 2 ^ 192

/-- Every store of the blocks named is performed at package scope; none while it cannot be (R284, R323). -/
def State.blocksPerformed (s : State) (d : Nat) (ids : List Nat) : Option State :=
  if s.hub.inflight.any fun e => ids.contains e.blk && !e.external then none
  else
    let mine (ws : List (Nat × Nat)) : Bool := ws.any fun w => ids.contains w.1
    let lines := (((s.die d).l2.bytes.filter fun e => e.2.masked && mine e.2.writers).map fun e => lineOf e.1).eraseDups
    if lines.any (fun l => !s.served d l) || s.hub.heldEvict.any fun h => mine h.writers then none else some (lines.foldl (fun s l => s.writeBack d l 256) s)

/-- The name under which a grid's record is written: no block has it. -/
def recordWriter (gid : Nat) : Nat := 2 ^ 48 + gid

/-- The blocks of a grid. -/
def State.blocksOf (s : State) (gid : Nat) : List Nat := (s.blocks.filter fun e => e.2.grid == gid).map (·.1)

/-- A child's completion arrives on its parent's slot (R325). -/
def State.childArrival (s : State) (bid : Nat) (slot : Option Nat) : State :=
  match slot with
  | none => s
  | some n =>
    let b := s.blk bid
    match b.state with
    | .saved | .placed | .restored => s.modBlk bid fun b => { b with heldArrivals := b.heldArrivals ++ [n] }
    | .killed | .completed => s
    | _ => if (Sparse.look b.slots n).isSome then s.arrive bid n 0 true else s

/-- What follows a grid's completion: its status, its parent, its batch (R319, R323, R325, R336). -/
def State.gridDone (s : State) (gid : Nat) (g : Grid) : State :=
  let st := g.finalStatus
  let s := s.modGrid gid fun g => { g with state := .complete, status := st }
  if g.refused then s
  else
    let s := if (s.queue g.queue).era == g.era then s.setStatus g.queue g.seq st else s
    let s := match g.parent with
      | some (pg, pb, slot) =>
        (s.modGrid pg fun p => { p with openChildren := p.openChildren - 1, childFailed := p.childFailed || st != 0 }).childArrival pb slot
      | none => s
    match g.batch with
    | some e =>
      match (s.exitList g.die e).batch with
      | some b => if b.grid == some gid then s.batchDone g.die e b.count (st == 0) else s
      | none => s
    | none => s

/-- Part of the completion record is written (R323), or waits, or is given up. -/
def State.writeRecord (s : State) (gid : Nat) (g : Grid) (lo n : Nat) (next : State → State) : State :=
  let w : Who := { die := g.die, core := none, dom := g.dom, asn := g.asn, root := g.root, win := g.shdw.toNat, code := g.dom }
  let bs := ((toBytes 32 g.completion).drop lo).take n
  if g.cancelled then next s
  else
    match s.engWrite w (recordWriter gid) (g.hdr.done.toNat + lo) (bs.map fun b => (b, false)) with
    | (s, none) => next s
    | (s, some .wait) => s
    | (s, some (.fail _)) => next s
    | (s, some (.fault c y lv acc a)) =>
      let (s, seq) := s.raiseRestart g.die (w.engineRec c y lv acc a) (.completion gid)
      s.modGrid gid fun g => { g with waitSeq := some seq }

/-- The die's links carry no new request: from the end of step 1 of its warm reset, or out of service (R364). -/
def State.dieSilent (s : State) (d : Nat) : Bool := 2 ≤ (s.die d).warm.step

/-- GRID_COMPLETION (R323): a finished grid writes bytes 8 to 31 of its record, then, once all before is performed at package
scope, bytes 0 to 7, and is complete. A silent die writes none (R364). -/
def execGridCompletion (grid : Nat) (s : State) : Host.Outcome State Fault Refusal :=
  match Sparse.look s.grids grid with
  | none => .next s
  | some g =>
    if g.waitSeq.isSome || s.dieSilent g.die then .next s
    else if g.state == .recorded then
      .next (match s.blocksPerformed g.die (recordWriter grid :: s.blocksOf grid) with
        | none => s
        | some s1 => s1.writeRecord grid g 0 8 fun s => s.gridDone grid g)
    else if g.finished then
      .next (s.writeRecord grid g 8 24 fun s => s.modGrid grid fun g => { g with state := .recorded })
    else .next s

/-! ### Child launches (R324) -/

/-- `launch` and `launch.arr` (R324), after a fence of minimum scope 3 (R372). -/
def State.launchOp (s : State) (i : Instr) (slot : Option Nat) : Host.Outcome State Fault Refusal :=
  s.issue i fun x s =>
    let ex := s.exe x.g
    let len := x.ext.bytes
    match ex with
    | [] => s.advance len
    | l :: _ =>
      let va := s.src x.ext .b64 l x.a
      match alignedAt (.ofNat 64 va) 128 with
      | some f => s.uniformFault x f
      | none =>
        match slot.filter fun n => (Sparse.look s.cb.slots n).isNone with
        | some n => s.uniformFault x (slotLF n)
        | none =>
          let b := s.cb
          let w := b.who
          let who : Launcher :=
            { queue := s.queueOf b, die := s.cd, who := b.engine, depth := b.hdr.depth + 1, parent := some (b.grid, s.sel.blk, slot)
              batch := none }
          let answer (r : State × Nat × Nat) : State :=
            ((r.1.advance len).write x.d 2 [(l, r.2.1 + r.2.2 * 2 ^ 32)]).irrevoke s.sel.blk
          let lost (s : State) : State :=
            let (s, seq) := s.takeSeq who.queue
            answer (s.countRefusal who.queue seq 2, 2, seq)
          match s.fenceFirst s.sel.blk ex 3 with
          | none => (s.fenceBegin s.sel.blk ex 3).stall
          | some s =>
          match s.engRead w (sectorParts va 128) with
          | (s1, .error .wait) => s1.stall
          | (s1, .error (.fault c y lv acc a)) => s1.reissue i len acc ex c y lv a
          | (s1, .error (.fail _)) => lost s1
          | (s1, .ok bs) =>
            if bs.any (·.2) then lost s1
            else
              let p := ofBytes (bs.map (·.1))
              match s1.readHeader w p with
              | (s2, .error (.fault c y lv acc a)) => s2.reissue i len acc ex c y lv a
              | (s2, .error _) => s2.stall
              | (s2, .ok hdr) => answer (s2.accept who p hdr)

/-- `launch` (R324). -/
def execLaunch (x : Opnds) (n : BitVec 4) (s : State) : Host.Outcome State Fault Refusal := s.launchOp (.launch x n) none

/-- `launch.arr` (R324). -/
def execLaunchArr (x : Opnds) (n : BitVec 4) (s : State) : Host.Outcome State Fault Refusal :=
  s.launchOp (.launchArr x n) (some n.toNat)

/-! ### The backfill engine (R336) -/

/-- The package time at which the oldest handed record of a list was handed. -/
def ExitList.oldest (l : ExitList) : Nat :=
  (((l.handedAt.filter fun h => h.1 ≤ l.done).map (·.2)).getLast?).getD 0

/-- A batch of the list is due (R336). -/
def State.batchDue (s : State) (l : ExitList) : Bool :=
  l.owner.isSome && l.batch.isNone && decide (l.done < l.handed)
    && (decide (l.bmin ≤ l.handed - l.done) || decide (l.oldest + 1000 * l.bwait ≤ s.hub.time))

/-- A batch of the list is updated. -/
def State.modBatch (s : State) (d e : Nat) (f : Batch → Batch) : State := s.modExit d e fun l => { l with batch := l.batch.map f }

/-- A restartable fault of the backfill engine: the batch waits on the record. -/
def State.batchWait (s : State) (d e : Nat) (w : Who) (cause why level acc va : Nat) : State :=
  let (s, seq) := s.raiseRestart d (w.engineRec cause why level acc va) (.batch e)
  s.modBatch d e fun b => { b with waitSeq := some seq }

/-- The batch's launch is made, its item having been pushed (R336 step 2): its header is read, and it is accepted, or refused. -/
def State.batchLaunch (s : State) (d e : Nat) (b : Batch) (p : Nat) : State :=
  let l := s.exitList d e
  let (_, _, q) := l.owner.getD (0, 0, 0)
  let w := s.exitWho d l
  let who : Launcher := { queue := q, die := d, who := w, depth := 1, parent := none, batch := some e }
  let go (s : State) (hdr : Option Nat) : State :=
    let gid := s.gridNext
    let (s, st, _) := s.accept who p hdr
    if st = 0 then s.modBatch d e fun b => { b with grid := some gid } else s.batchDone d e b.count false
  if b.cancelled then go s none
  else
    match s.readHeader w p with
    | (s, .error .wait) => s
    | (s, .error (.fault c y lv acc a)) => s.batchWait d e w c y lv acc a
    | (s, .error (.fail _)) => go s none
    | (s, .ok hdr) => go s hdr

/-- The batch's item goes to its work queue, or waits there behind what else waits to push; with it pushed, the launch is made (R336). -/
def State.batchItemGo (s : State) (d e : Nat) (p : Nat) : State :=
  let q := (s.exitList d e).wq
  if (s.wq d q).waiting.contains (.batch e) then s
  else
    match s.batchPush d e ((s.wqWaiters d q).any WqWaiter.isPush) with
    | none => s.modWq d q fun w => { w with waiting := w.waiting ++ [.batch e] }
    | some s =>
      match (s.exitList d e).batch with
      | some b => if b.pushed then s.batchLaunch d e b p else s
      | none => s

/-- A formed batch goes on (R336): its packet is read, its item pushed, its launch made. -/
def State.batchStep (s : State) (d e : Nat) : State :=
  let l := s.exitList d e
  match l.batch with
  | none => s
  | some b =>
    match b.pkt with
    | some p => if b.pushed then s.batchLaunch d e b p else s.batchItemGo d e p
    | none =>
      let w := s.exitWho d l
      if b.cancelled then s.batchDone d e b.count false
      else
        match s.engRead w (sectorParts l.pkt.toNat 128) with
        | (s, .error .wait) => s
        | (s, .error (.fault c y lv acc a)) => s.batchWait d e w c y lv acc a
        | (s, .error (.fail _)) => s.batchDone d e b.count false
        | (s, .ok bs) =>
          let p := ofBytes (bs.map (·.1))
          if bs.any (·.2) || field p 0 8 != 1 then s.batchDone d e b.count false
          else (s.modBatch d e fun b => { b with pkt := some p }).batchItemGo d e p

/-- A batch of the records handed and not done, at most `ex.bmax` of them (R336). -/
def ExitList.nextBatch (l : ExitList) : Batch :=
  { first := l.done, count := min (l.handed - l.done) l.bmax, pkt := none, pushed := false, grid := none, waitSeq := none, cancelled := false }

/-- BACKFILL_BATCH_FORM (R336): a batch that is due is formed, and a formed one goes on until it is launched. -/
def execBackfillBatchForm (die e : Nat) (s : State) : Host.Outcome State Fault Refusal :=
  let l := s.exitList die e
  if s.dieSilent die then .next s
  else
    .next (match l.batch with
      | some b => if b.grid.isSome || b.waitSeq.isSome then s else s.batchStep die e
      | none => if s.batchDue l then (s.modExit die e fun l => { l with batch := some l.nextBatch }).batchStep die e else s)

end Sys2Proof.Machine
end

