-- ==== Sys2Proof/Machine/Replay.lean ====
section
/-! DEFINITION. Replay.lean: the release of restartable faults (R265, R271, R273, R277): replay, cancellation, and the recording of
faults that waited for a free entry. -/

namespace Sys2Proof.Machine

/-! ### Lanes of the operand log (R267, R273) -/

/-- Update of one lane's part of an entry of an operand log. -/
def State.modLog (s : State) (bid log entry thr : Nat) (f : OplogLane → OplogLane) : State :=
  s.modBlk bid fun b => b.modOplog log fun x => x.map fun e =>
    if e.1 == entry then (e.1, { e.2 with lanes := e.2.lanes.map fun l => if l.thr == thr then f l else l }) else e

/-- Entries whose lanes are all replayed or cancelled are freed (R267). -/
def State.tidyLogs (s : State) (bid : Nat) : State :=
  s.modBlk bid fun b => b.logs.foldl (fun b n => b.modOplog n fun x =>
    x.filter fun e => e.2.lanes.any fun l => !l.replayed && !l.cancelled) b

/-- A lane that waited on a record waits no longer. -/
def Thread.unrecord (t : Thread) : Thread :=
  match t.wait with
  | .record _ => { t with wait := .none }
  | _ => t

/-- The ordering of an atomic step takes effect after its replay (R284). -/
def State.replayOrder (s : State) (bid thr : Nat) (acc : LogAcc) (share : Nat) : State :=
  match acc with
  | .atomic _ _ .acq .. | .atomic _ _ .ar .. =>
    let e := max ((s.blk bid).thr thr).h share
    match s.completeFence bid thr e with
    | some s => s
    | none => s.modBlk bid fun b => b.modThr thr fun t => { t with wait := .fence e }
  | _ => s

/-- The fields of a lane fault that a logged access gives (R115). -/
def LogAcc.lf : LogAcc → LF
  | .load w | .const w | .loadLocal w => widthLF w false
  | .store w | .storeLocal w => widthLF w true
  | .atomic .. | .range .. | .reissue => { cause := 0 }

/-- A lane's logged access is made again with its logged data, after the fence that its ordering asks for (R284), and writes its pending
destination and flags (R273). A further restartable fault makes or joins a record; an access that waits stays pending. It answers the lane
fault, for those of the instruction to be taken together, or the addresses of the words reached, which count together (R399). -/
def State.replayLane (s : State) (bid log entry : Nat) (e : OplogEntry) (l : OplogLane) : State × Except LF (List Nat) :=
  let done (s : State) : State := s.modLog bid log entry l.thr fun x => { x with replayed := true }
  match e.acc with
  | .reissue => ((done s).modBlk bid fun b => b.modThr l.thr Thread.unrecord, .ok [])
  | acc =>
    let l1 := match acc with
      | .load _ => e.hint != .nl1
      | .loadLocal _ => true
      | _ => false
    let old := s.sel
    let (s1, tried) := { s with sel := { old with pc := e.pc } }.performOrdered bid l.thr acc l.addr.toNat l.data.toNat l.data2.toNat l1
    match { s1 with sel := old }, tried with
    | s1, .ok v =>
      let ctx : Ctx := match ((s1.blk bid).thr l.thr).ctx with
        | some k => .drawn k
        | none => .home (homeBundle l.thr)
      let s1 := if e.hint == .lu then s1.l1Last (s1.blk bid).who l.addr.toNat else s1
      let s2 := { s1 with sel := { blk := bid, ctx := ctx, pc := e.pc, act := [l.thr] } }
      let s3 := (s2.write e.dst e.span [(l.thr, v.val)]).flagLanes [(l.thr, v.flags)]
      ((done { s3 with sel := old }).replayOrder bid l.thr acc v.share, .ok ((acc.bytesAt l.addr.toNat).map (·.1)))
    | s1, .error (.lane c, va) => (done s1, .error { e.acc.lf with cause := c, addr := .ofNat 64 va })
    | s1, .error (.restart c w lv, va) =>
      let b := s1.blk bid
      let (s2, seq) := s1.raiseRestart (b.core / 48) (b.restartRec c w lv acc.code 1 (.ofNat 64 va) e.pc false)
        (.lanes bid log entry [l.thr])
      (s2.modLog bid log entry l.thr fun x => { x with seq := seq, cause := .ofNat 16 c }, .ok [])
    | s1, .error (.wait, _) => (s1, .ok [])
    | s1, .error (.poison pa, _) => ((done s1).consume bid 0 (.ofNat 64 pa), .ok [])

/-- Pending lanes of one instruction are replayed in ascending home-lane order, and their lane faults are taken together at the faulted
instruction (R113, R115, R273). -/
def State.replayLanes (s : State) (bid : Nat) (ls : List (Nat × Nat × OplogEntry × OplogLane)) : State :=
  match ls with
  | [] => s
  | x :: _ =>
    let e := x.2.2.1
    let r := (sortBy (fun (l : Nat × Nat × OplogEntry × OplogLane) => homeLane l.2.2.2.thr) ls).foldl
      (fun (r : State × List (Nat × LF) × List Nat) l =>
        match r.1.replayLane bid l.1 l.2.1 l.2.2.1 l.2.2.2 with
        | (s, .error f) => (s, r.2.1 ++ [(l.2.2.2.thr, f)], r.2.2)
        | (s, .ok vas) => (s, r.2.1, r.2.2 ++ vas)) (s, [], [])
    (r.1.countSectors (s.blk bid).who r.2.2).laneFaults bid e.pc e.len r.2.1

/-- Pending lanes of one instruction are cancelled: they take CANCELLED together at the faulted instruction (R113, R115, R273). -/
def State.cancelLanes (s : State) (bid : Nat) (ls : List (Nat × Nat × OplogEntry × OplogLane)) : State :=
  match ls with
  | [] => s
  | x :: _ =>
    let e := x.2.2.1
    let s := ls.foldl (fun s l => s.modLog bid l.1 l.2.1 l.2.2.2.thr fun y => { y with cancelled := true }) s
    s.laneFaults bid e.pc e.len (sortBy (fun (f : Nat × LF) => homeLane f.1) (ls.map fun l =>
      (l.2.2.2.thr, { e.acc.lf with cause := 0x14, addr := l.2.2.2.addr })))

/-- The pending lanes of a block's operand logs that a test picks, by log and entry. -/
def Block.logLanes (b : Block) (p : OplogLane → Bool) : List (Nat × Nat × OplogEntry × OplogLane) :=
  b.logs.flatMap fun n => (b.oplog n).flatMap fun e =>
    (e.2.lanes.filter fun l => !l.replayed && !l.cancelled && p l).map fun l => (n, e.1, e.2, l)

/-- The issue that a pending lane belongs to: its program counter, with its drawn bundle or its log entry. -/
def Block.issueOf (b : Block) (x : Nat × Nat × OplogEntry × OplogLane) : DWord × Option Nat × Nat × Nat :=
  match (b.thr x.2.2.2.thr).ctx with
  | some k => (x.2.2.1.pc, some k, 0, 0)
  | none => (x.2.2.1.pc, none, x.1, x.2.1)

/-- Pending lanes are handled instruction by instruction. -/
def State.byIssue (s : State) (bid : Nat) (ls : List (Nat × Nat × OplogEntry × OplogLane))
    (f : State → List (Nat × Nat × OplogEntry × OplogLane) → State) : State :=
  let b := s.blk bid
  ((ls.map b.issueOf).eraseDups).foldl (fun s k => f s (ls.filter fun l => b.issueOf l == k)) s

/-- A lane's record is in the buffer, or its fault waits to be recorded (R271, R273). -/
def State.recordHeld (s : State) (d bid : Nat) (l : OplogLane) : Bool :=
  if l.seq = 0 then (s.die d).deferred.any fun f => match f.who with
    | .lanes b _ _ ts => b == bid && ts.contains l.thr
    | _ => false
  else (s.die d).fb.any fun x => x.seq == l.seq

/-- Lanes whose record is no longer held are replayed: at a restore, after a rollback, and where a replay had to wait (R273). -/
def State.replayStale (s : State) (bid : Nat) (mine : OplogLane → Bool) : State :=
  let b := s.blk bid
  match b.logLanes fun l => mine l && !s.recordHeld (b.core / 48) bid l with
  | [] => s
  | x :: xs => ((s.byIssue bid (x :: xs) fun s ls => s.replayLanes bid ls).tidyLogs bid).settle bid

/-- The issue's bundles have lanes whose replay had to wait. -/
def State.staleHere (s : State) : Bool :=
  let b := s.cb
  !(b.logLanes fun l => (s.sel.act.map homeBundle).contains (homeBundle l.thr) && !s.recordHeld (b.core / 48) s.sel.blk l).isEmpty

/-- The bundles of an issue try what still waits for its replay. -/
def State.replayHere (s : State) : State :=
  let hs := s.sel.act.map homeBundle
  s.replayStale s.sel.blk fun l => hs.contains (homeBundle l.thr)

/-! ### Release of a record (R273, R277) -/

/-- The release reaches a block's lanes (R273): those on it are replayed, or cancelled instruction by instruction. -/
def State.releaseLanes (s : State) (bid : Nat) (x : Word) (cancel : Bool) : State :=
  let b := s.blk bid
  let ls := b.logLanes fun l => l.seq == x
  let fetchers := (List.range b.threads.length).filter fun t =>
    (b.thr t).wait == .record x && !(ls.any fun l => l.2.2.2.thr == t)
  if ls.isEmpty && fetchers.isEmpty then s
  else
    let s := s.byIssue bid ls fun s ls => if cancel then s.cancelLanes bid ls else s.replayLanes bid ls
    let s := if cancel then
        ((fetchers.map fun t => (b.thr t).pc).eraseDups).foldl (fun s pc =>
          s.laneFaults bid pc 4 ((fetchers.filter fun t => (b.thr t).pc == pc).map fun t => (t, { cause := 0x14 }))) s
      else s.modBlk bid fun b => b.modThrs fetchers fun _ t => t.unrecord
    (s.tidyLogs bid).settle bid

/-- The engine requests, and the writes on their way, that wait on a record are made again, or cancelled (R273, R364). -/
def State.releaseEngines (s : State) (d : Nat) (x : Word) (all : Bool) (core : Nat → Bool) : State :=
  let copy (b : Block) (c : Copy) : Copy :=
    if c.waitSeq == some x then { c with waitSeq := none, cancelled := core (b.core % 48) } else c
  let block (e : Nat × Block) : Nat × Block :=
    if e.2.core / 48 == d then (e.1, { e.2 with copies := e.2.copies.map (copy e.2) }) else e
  let s := { s with blocks := s.blocks.map block }
  let bulk (c : BulkCmd) : BulkCmd :=
    if c.waitSeq == some x then { c with waitSeq := none, cancelled := core ((s.blk c.blk).core % 48) } else c
  let queue (q : Nat × Queue) : Nat × Queue :=
    if q.2.cfg.die == d && q.2.waitSeq == some x then (q.1, { q.2 with waitSeq := none, cancelled := all }) else q
  let grid (g : Nat × Grid) : Nat × Grid :=
    if g.2.die == d && g.2.waitSeq == some x then (g.1, { g.2 with waitSeq := none, cancelled := all }) else g
  let exits (e : Nat × ExitList) : Nat × ExitList :=
    (e.1, { e.2 with batch := e.2.batch.map fun b => if b.waitSeq == some x then { b with waitSeq := none, cancelled := all } else b })
  let stores (y : Die) : List EngStore := (y.stores.filter fun e => !(all && e.waitSeq == some x)).map fun e =>
    if e.waitSeq == some x then { e with waitSeq := none } else e
  let mine (f : Delivery) : Bool := f.src == d && f.waitSeq == some x
  let inc := s.incOf
  let dropped (f : Delivery) : Bool := mine f && (all || core ((s.blk f.blk).core % 48))
  let s := (s.modDie d fun y => { y with bulk := y.bulk.map bulk, exits := y.exits.map exits, stores := stores y }).modHub fun h => { h with
    queues := h.queues.map queue
    inflight := (h.inflight.filter fun f => !dropped f).map fun f => if mine f then { f with waitSeq := none, inc := inc f.target } else f }
  { s with grids := s.grids.map grid }

/-- A restartable record is released (R273, R277): `core` says on which cores of the die waiters are cancelled. -/
def State.releaseRecord (s : State) (d : Nat) (x : Word) (all : Bool) (core : Nat → Bool) : State :=
  let s := (s.dropFailed d).modDie d fun y => { y with fb := y.fb.filter fun e => e.seq != x }
  let ids := (s.blocks.filter fun e => e.2.core / 48 == d && (e.2.state.resident || e.2.draining)).map (·.1)
  let s := ids.foldl (fun s bid => s.releaseLanes bid x (core ((s.blk bid).core % 48))) s
  s.releaseEngines d x all core

/-! ### Faults that waited for an entry (R271) -/

/-- Those who wait on a fault learn its record's number. -/
def State.tellWaiter (s : State) (d : Nat) (who : Waiter) (x : Word) : State :=
  let told (t : Thread) : Thread := if t.wait == .record 0 then { t with wait := .record x } else t
  match who with
  | .lanes bid log entry ts =>
    (s.modBlk bid fun b => (b.logs.filter fun n => n == log || 16 ≤ log).foldl (fun b n => b.modOplog n fun u => u.map fun e =>
        if e.1 == entry || 16 ≤ log then
          (e.1, { e.2 with lanes := e.2.lanes.map fun l => if ts.contains l.thr && l.seq == 0 then { l with seq := x } else l })
        else e) b).modBlk bid fun b => b.modThrs ts fun _ t => told t
  | .fetch bid ts => s.modBlk bid fun b => b.modThrs ts fun _ t => told t
  | .copy bid k => s.modBlk bid fun b => { b with
      copies := b.copies.map fun c => if c.k == k && c.waitSeq == some 0 then { c with waitSeq := some x } else c }
  | .bulk k => s.modDie d fun y => { y with
      bulk := y.bulk.map fun c => if c.k == k && c.waitSeq == some 0 then { c with waitSeq := some x } else c }
  | .packet q => s.modQueue q fun k => if k.waitSeq == some 0 then { k with waitSeq := some x } else k
  | .completion g => s.modGrid g fun y => if y.waitSeq == some 0 then { y with waitSeq := some x } else y
  | .batch e => s.modBatch d e fun b => if b.waitSeq == some 0 then { b with waitSeq := some x } else b
  | .store key => s.modDie d fun y => { y with
      stores := y.stores.map fun e => if e.key == key && e.waitSeq == some 0 then { e with waitSeq := some x } else e }
  | .write target stamp => s.modHub fun h => { h with
      inflight := h.inflight.map fun f =>
        if f.src == d && f.target == target && f.stamp == stamp && f.waitSeq == some 0 then { f with waitSeq := some x } else f }

/-- A die's fault that has waited longest for a free entry is recorded, if one is free (R271). -/
def State.recordDeferred (s : State) (die : Nat) : Option State :=
  match (s.die die).deferred with
  | [] => none
  | f :: rest =>
    match s.recordFault die f.body with
    | (_, none) => none
    | (s1, some x) => some ((s1.modDie die fun y => { y with deferred := rest }).tellWaiter die f.who x)

/-- FAULT_RECORD_DEFERRED (R271): on the lowest die where a fault waits and an entry is free, the fault is recorded. -/
def execFaultRecordDeferred (s : State) : Host.Outcome State Fault Refusal :=
  .next (((List.range 4).findSome? s.recordDeferred).getD s)

end Sys2Proof.Machine
end

