-- ==== Sys2Proof/Machine/Place.lean ====
section
/-! DEFINITION. Place.lean: residency and placement (R119 to R121, R143, R199, R204, R241, R320 to R322, R377), and the end of a
block (R121). -/

namespace Sys2Proof.Machine

/-! ### What a core has free (R119, R120) -/

/-- The bundles that each bundle of a block takes: two in afterglow mode (R120). -/
def Block.copiesOf (b : Block) : Nat := if b.trail.isSome then 2 else 1

/-- Bundle slots of partition q in use on a core. -/
def State.slotsUsed (s : State) (c q : Nat) : Nat := ((s.residents c).map fun e => e.2.hdr.onPart q * e.2.copiesOf).sum

/-- Register rows of partition q in use on a core. -/
def State.rowsUsed (s : State) (c q : Nat) : Nat := ((s.residents c).map fun e => e.2.hdr.onPart q * e.2.copiesOf * e.2.hdr.regs).sum

/-- Physical scratchpad rows of a core that no resident block holds. -/
def State.freeRows (s : State) (c : Nat) : List Nat :=
  let taken := (s.residents c).flatMap fun e => e.2.rows
  (List.range 1024).filter fun r => !taken.contains r

/-- A block with this header meets R120 on a core, with g bundles for each of its own. -/
def State.meets (s : State) (c : Nat) (h : Header) (g : Nat) : Bool :=
  (s.core c).inService && decide ((s.residents c).length < 32)
    && (List.range 4).all (fun q => decide (s.slotsUsed c q + h.onPart q * g ≤ 24)
      && decide (s.rowsUsed c q + h.onPart q * g * h.regs ≤ 1024))
    && decide (h.scratch ≤ (s.freeRows c).length)
    && h.matParts.all fun q => !((s.residents c).any fun e => e.2.mats.contains q)

/-- The size of a cohort (R51, R241). -/
def Header.cohort (h : Header) : Nat := h.extent 1

/-- The numbers of the candidate with the smallest count; ties go to the first. -/
def leastOf (f : Nat → Nat) : List Nat → Option Nat
  | [] => none
  | x :: xs => some (xs.foldl (fun best y => if f y < f best then y else best) x)

/-- The cores that the next cohort of a launch goes to (R241, R320): for a cohort of one the core that meets R120 with the fewest
resident blocks; otherwise the first cores of such a cluster. `g` is 2 in afterglow mode. -/
def State.spot (s : State) (die : Nat) (h : Header) (g : Nat) : Option (List Nat) :=
  let n := h.cohort
  if n ≤ 1 then
    (leastOf (fun c => (s.residents c).length) (((List.range 48).map (48 * die + ·)).filter fun c => s.meets c h g)).map fun c => [c]
  else
    let cores (k : Nat) : List Nat := (List.range n).map (4 * k + ·)
    let cls := ((List.range 12).map (12 * die + ·)).filter fun k => !(s.cluster k).down && (cores k).all fun c => s.meets c h g
    (leastOf (fun k => ((cores k).map fun c => (s.residents c).length).sum) cls).map cores

/-! ### Areas of the `q.hwsave` pool (R140, R321) -/

/-- The size of a block's `hwsave` area (R140). -/
def Header.areaSize (h : Header) : Nat :=
  65536 + h.bundles * 128 * h.regs * 4 + h.scratch * 1024 + 524288 * h.matParts.length

/-- The first place in a pool of n bytes at which `size` bytes are free. -/
def poolPlace (used : List (Nat × Nat × Nat)) (n size : Nat) : Option Nat :=
  let starts := 0 :: used.map fun u => u.2.1 + u.2.2
  let fits (a : Nat) : Bool := decide (a + size ≤ n) && used.all fun u => decide (a + size ≤ u.2.1) || decide (u.2.1 + u.2.2 ≤ a)
  leastOf id (starts.filter fits)

/-- `k` areas of a pool for the blocks numbered from `bid` on; none where the pool cannot supply them. -/
def poolTake (n size : Nat) : Nat → Nat → List (Nat × Nat × Nat) → Option (List (Nat × Nat × Nat))
  | 0, _, used => some used
  | k + 1, bid, used =>
    match poolPlace used n size with
    | none => none
    | some a => poolTake n size k (bid + 1) (used ++ [(bid, a, size)])

/-! ### Afterglow (R143) -/

/-- The Lamplighter has forced afterglow for the domain or the die of a launch. -/
def State.forced (s : State) (g : Grid) : Bool :=
  s.hub.forcedDoms.contains g.hdr.domain || s.hub.forcedDies.contains g.die

/-- The blocks of the launch that are placed now run in afterglow mode (R143): asked for, or forced where they can fit. -/
def State.glows (s : State) (g : Grid) : Bool := g.hdr.afterglow || (s.forced g && g.hdr.fitsEmpty 2)

/-- Bundles for each of a launch's own. -/
def State.glow (s : State) (g : Grid) : Nat := if s.glows g then 2 else 1

/-! ### Order of placement (R53, R320) -/

/-- The launches of a die with a block not yet placed: descending effective priority, then order of acceptance. -/
def State.waitingGrids (s : State) (die : Nat) : List (Nat × Grid) :=
  sortBy (fun (e : Nat × Grid) => 7 - e.2.effPrio)
    (s.grids.filter fun e => e.2.die == die && e.2.state == .active && decide (e.2.placed < e.2.total))

/-- Where the next cohort of a launch goes, with its `hwsave` areas; none where it fits nowhere or no area is free. -/
def State.gridSpot (s : State) (g : Grid) : Option (List Nat × List (Nat × Nat × Nat)) :=
  match s.spot g.die g.hdr (s.glow g) with
  | none => none
  | some cores =>
    let q := s.queue g.queue
    (poolTake q.cfg.hwsz g.hdr.areaSize cores.length s.blockNext q.hwUsed).map fun used => (cores, used)

/-- A launch that holds the die (R320). -/
def State.holder (s : State) (die : Nat) : Option (Nat × Grid) :=
  (s.waitingGrids die).find? fun e => e.2.passed && e.2.effPrio == 7

/-- The launch whose block is placed next on a die, if one fits: the holder alone, or the first that fits. -/
def State.nextGrid (s : State) (die : Nat) : Option (Nat × Grid) :=
  match s.holder die with
  | some h => if (s.gridSpot h.2).isSome then some h else none
  | none => (s.waitingGrids die).find? fun e => (s.gridSpot e.2).isSome

/-! ### Saved blocks (R141, R242, R287, R320) -/

/-- The lane, or what pre-emption keeps of it, waits at a `waitcmp` whose condition has not been found to hold. -/
def Thread.atWaitcmp (t : Thread) : Bool :=
  let w (x : Wait) : Bool := match x with
    | .waitcmp _ none _ _ _ _ _ _ => true
    | _ => false
  w t.wait || t.intr.any fun i => w i.wait

/-- Every lane of the block that is not terminal waits at a `waitcmp` (R138). -/
def Block.allWaitcmp (b : Block) : Bool := !b.open.isEmpty && b.open.all fun t => (b.thr t).atWaitcmp

/-- The members of a block's cohort that have not ended. -/
def State.members (s : State) (bid : Nat) : List Nat :=
  if (s.blk bid).hdr.cohort ≤ 1 then [bid]
  else (s.blocks.filter fun e => (e.2.state.resident || e.2.state == .saved) && e.2.sameCohort (s.blk bid)).map (·.1)

/-- Where a saved block is restored to, with the members restored with it (R141, R242): alone to its former core after a swap-out,
once a re-check has succeeded; otherwise with its whole cohort. -/
def State.restoreSpot (s : State) (bid : Nat) : Option (List (Nat × Nat)) :=
  let b := s.blk bid
  if b.state != .saved then none
  else if b.swapOut && decide (1 < b.hdr.cohort) then
    if b.allWaitcmp || (s.cluster (b.core / 4)).down || !s.meets b.core b.hdr b.copiesOf then none else some [(bid, b.core)]
  else if b.swapOut && b.allWaitcmp then none
  else
    let ms := s.members bid
    if ms.any fun m => (s.blk m).state != .saved then none
    else if b.hdr.cohort ≤ 1 then (s.spot (b.core / 48) b.hdr b.copiesOf).map fun cs => ms.zip cs
    else
      let die := b.core / 48
      let cores (k : Nat) : List (Nat × Nat) := ms.map fun m => (m, 4 * k + (s.blk m).core % 4)
      let cls := ((List.range 12).map (12 * die + ·)).filter fun k => !(s.cluster k).down
        && (cores k).all fun e => s.meets e.2 b.hdr b.copiesOf
      (leastOf (fun k => (((List.range b.hdr.cohort).map (4 * k + ·)).map fun c => (s.residents c).length).sum) cls).map cores

/-- The effective priority of a block's launch. -/
def State.blockPrio (s : State) (bid : Nat) : Nat := ((Sparse.look s.grids (s.blk bid).grid).map Grid.effPrio).getD 0

/-- The saved block that stands before every unplaced block of its priority (R320): the one of highest priority that has a place. -/
def State.nextSaved (s : State) (die : Nat) : Option Nat :=
  let ids := (s.blocks.filter fun e => e.2.state == .saved && e.2.core / 48 == die && (s.restoreSpot e.1).isSome).map (·.1)
  leastOf (fun b => 7 - s.blockPrio b) ids

/-- The block that is restored next, where nothing of higher priority is placed before it. -/
def State.restorable (s : State) (die : Nat) : Option Nat :=
  match s.nextSaved die with
  | none => none
  | some b =>
    let ahead : Bool := match s.holder die with
      | some h => decide (s.blockPrio b < h.2.effPrio)
      | none => (s.nextGrid die).any fun g => decide (s.blockPrio b < g.2.effPrio)
    if ahead then none else some b

/-- The launch whose block is placed next, where no saved block goes ahead of it. -/
def State.placeable (s : State) (die : Nat) : Option (Nat × Grid) :=
  match s.nextGrid die with
  | none => none
  | some g => if (s.nextSaved die).any fun b => decide (g.2.effPrio ≤ s.blockPrio b) then none else some g

/-! ### Placement (R46, R120, R321) -/

/-- The identifier of the block at a position in the order of R53, field 0 zero. -/
def Header.widAt (h : Header) (pos : Nat) : Nat :=
  ((List.range 5).foldl (fun (acc : Nat × Nat) i =>
    let k := i + 1
    (acc.1 + acc.2 % h.extent k * 2 ^ h.offset k, acc.2 / h.extent k)) (0, pos)).1

/-- A block takes a core: its scratchpad rows, its matrix units in their reset state (R204), and the L1 lines that placement
discards (R253, R377). -/
def State.takeCore (s : State) (bid : Nat) : State :=
  let b := s.blk bid
  let c := b.core
  let s := b.mats.foldl (fun s q => s.modPart (4 * c + q) fun p => { p with
    owner := some bid, tiles := [], records := [], buf := [], bufPoison := [], seq := 0, fills := [] }) s
  s.modCore c fun k => { k with l1 := k.l1.filter fun l => l.dom == b.hdr.domain && l.asn == b.asn && l.share < 2 }

/-- The block at a position of a launch, on a core (R46, R52, R321). -/
def State.newBlock (s : State) (gid : Nat) (g : Grid) (pos core area : Nat) : Block :=
  let h := g.hdr
  let clk := (s.die g.die).clk
  let ts := List.replicate h.threads (Thread.start h.entry)
  let bs := List.replicate h.bundles (Bundle.start clk)
  { Block.absent with
    grid := gid, pos := pos, core := core, hdr := h, wid := .ofNat 64 (h.widAt pos), state := .placed, threads := ts, bundles := bs
    rows := (s.freeRows core).take h.scratch, mats := h.matParts, asn := g.asn, root := g.root
    tvec := Sparse.getOr s.hub.dh h.domain 0
    savebase := g.save + .ofNat 64 (pos * g.savesz)
    hwsave := .ofNat 64 ((s.queue g.queue).cfg.hwsave + area)
    locbase := g.locbase + .ofNat 64 (pos * (h.bundles * 128) * g.locsz.toNat), locsz := g.locsz
    shdwwin := g.shdw, trail := if s.glows g then some { threads := ts, bundles := bs, todo := [] } else none, placedAt := clk }

/-- One block is placed. -/
def State.placeBlock (s : State) (gid : Nat) (g : Grid) (pos core area : Nat) : State :=
  let bid := s.blockNext
  let b := s.newBlock gid g pos core area
  ({ s with blocks := Sparse.put s.blocks bid b, blockNext := bid + 1 }).takeCore bid

/-- The next cohort of a launch is placed (R241, R320, R321). -/
def State.placeCohort (s : State) (gid : Nat) (g : Grid) (cores : List Nat) (used : List (Nat × Nat × Nat)) : State :=
  let areas := (used.drop (s.queue g.queue).hwUsed.length).map fun u => u.2.1
  let noForce := s.forced g && !s.glows g
  let s := s.modQueue g.queue fun q => { q with hwUsed := used }
  let s := ((cores.zip areas).zipIdx).foldl (fun s e => s.placeBlock gid g (g.placed + e.2) e.1.1 e.1.2) s
  let s := s.modGrid gid fun g => { g with placed := g.placed + cores.length, passed := false, nofrc := g.nofrc || noForce }
  if noForce && !g.nofrc then s.lampLog 4 .noForce [g.queue, g.seq] else s

/-- Launches at effective priority 7 that stand before a launch have been passed over (R320). -/
def State.passOver (s : State) (die gid : Nat) : State :=
  ((s.waitingGrids die).takeWhile fun e => e.1 != gid).foldl (fun s e =>
    if e.2.effPrio == 7 then s.modGrid e.1 fun g => { g with passed := true } else s) s

/-- BLOCK_PLACEMENT (R320): the launch engine places the next block or cohort of a launch, if that is what it places next. -/
def execBlockPlacement (grid : Nat) (s : State) : Host.Outcome State Fault Refusal :=
  match Sparse.look s.grids grid with
  | none => .next s
  | some g =>
    if !s.dieServes g.die || (s.placeable g.die).map (·.1) != some grid then .next s
    else match s.gridSpot g with
      | none => .next s
      | some (cores, used) => .next ((s.passOver g.die grid).placeCohort grid g cores used)

/-! ### The end of a block (R121) -/

/-- The end condition of R121: every bundle has ended, and nothing that the block issued is in flight. A store counts as performed once
the die's L2 has it (DESIGN CHOICE, log entry 45: the rule names no scope). -/
def State.blockEnded (s : State) (bid : Nat) : Bool :=
  let b := s.blk bid
  b.state.issues && b.open.isEmpty && b.slices.isEmpty && !s.engineWork bid false

/-- BLOCK_COMPLETION (R121, R150): the block ends, its resources are released and its completion is reported; a killed block is
drained, with the replays that had to wait tried again (R114, R273). -/
def execBlockCompletion (blk : Nat) (s : State) : Host.Outcome State Fault Refusal :=
  if (s.blk blk).draining then
    let s := s.replayStale blk fun _ => true
    .next (if s.unfinished blk then s else s.endKilled blk)
  else if !s.blockEnded blk then .next s
  else
    let b := s.blk blk
    let s1 := ((s.releaseBlock blk).freeBlock blk).modBlk blk fun b => { b with
      state := .completed, check := none, journal := [], logged := 0, preemptDue := none, preemptHeld := false, savedByHw := false }
    .next (s1.modGrid b.grid fun g => { g with ended := g.ended + 1, struck := g.struck + b.struck })

end Sys2Proof.Machine
end

