-- ==== Sys2Proof/Machine/Preempt.lean ====
section
/-! DEFINITION. Preempt.lean: pre-emption, saving and restoring (R138 to R142, R174, R233, R242, R248, R287), rollback (R148), and
the regrouping of threads in drawn bundles (R135, R136). -/

namespace Sys2Proof.Machine

/-! ### Waits that an interruption ends -/

/-- Pre-emption and rollback end the wait: the instruction issues again afterwards (R246, R287, R329, R338, R401). A `waitcmp` stays
armed through a swap-out. -/
def Wait.ends (swap : Bool) : Wait → Bool
  | .remote | .workQueue | .record _ | .replay | .outgoing _ | .lease .. | .exits .. => true
  | .waitcmp .. => !swap
  | _ => false

/-- The waits of a block's threads that an interruption ends are over, with what stands for them elsewhere. -/
def State.clearWaits (s : State) (bid : Nat) (swap : Bool) : State :=
  let b := s.blk bid
  let s := s.dropRequests bid
  let s := s.modDie (b.core / 48) fun d => { d with
    pilots := if swap then d.pilots else d.pilots.filter fun e => e.blk != bid
    polls := if swap then d.polls else d.polls.filter fun e => e.1 != bid
    wqs := d.wqs.map fun e => (e.1, { e.2 with waiting := e.2.waiting.filter fun w => !w.ofBlock bid }) }
  let hit := (b.threads.filter fun t => t.wait.ends swap).map fun t => (t.pc, t.group)
  s.modBlk bid fun b => { b with threads := b.threads.map fun t =>
    { t with wait := if t.wait.ends swap then .none else t.wait
             group := if hit.contains (t.pc, t.group) then 0 else t.group } }

/-- The reform bins of a block are emptied. -/
def State.dropBins (s : State) (bid : Nat) : State :=
  let c := (s.blk bid).core
  (List.range 4).foldl (fun s q => s.modPart (4 * c + q) fun p => { p with bins := p.bins.filter fun e => e.2.blk != bid }) s

/-! ### The pre-emption trap (R139) -/

/-- TAKING THE PRE-EMPTION TRAP: the thread runs the handler at level 1 in its home bundle; its PC, its status and what it waits
for are kept, and no register is changed (R139, R174). There is one saved PC and status: a second trap, taken by a lane still at level 1 in the
handler of a restored block, overwrites them (DESIGN CHOICE, log entry 53; R179). -/
def Thread.enterTrap (t : Thread) (handler : DWord) (clk : Nat) : Thread :=
  { t with
    intr := some { pc := t.pc, status := t.status, level := t.level, ctx := t.ctx, wait := t.wait.stopClock clk, group := t.group
                   parkLen := t.parkLen, napUntil := t.napUntil }
    pc := handler, status := .running, level := 1, ctx := none, wait := .none, group := 0, napUntil := 0, signalled := false }

/-- Threads of a block take the trap. -/
def State.trapThreads (s : State) (bid : Nat) (ts : List Nat) : State :=
  let clk := (s.die ((s.blk bid).core / 48)).clk
  s.modBlk bid fun b => b.modThrs ts fun _ t => t.enterTrap b.hdr.handler clk

/-- RETURN FROM THE PRE-EMPTION HANDLER: the thread is at its interrupted PC, in its interrupted status, and goes on with what it
waited for; a `waitcmp` is executed again; a thread that was binned is filed again (R141, R174, R287). -/
def State.leaveTrap (s : State) (bid t : Nat) : State :=
  let b := s.blk bid
  match (b.thr t).intr with
  | none => s
  | some i =>
    let clk := (s.die (b.core / 48)).clk
    let again := i.wait.ends false
    let x : Thread := { b.thr t with
      intr := none, pc := i.pc, status := i.status, level := i.level, parkLen := i.parkLen, napUntil := i.napUntil
      ctx := i.ctx.filter fun k => (Sparse.look b.drawn k).isSome
      wait := if again then .none else i.wait.startClock clk, group := if again then 0 else i.group, signalled := false }
    match i.status with
    | .binned _ => (s.modBlk bid fun b => b.modThr t fun _ => { x with status := .running }).file bid t i.pc
    | _ => s.modBlk bid fun b => b.modThr t fun _ => x

/-- The clocks of 100 µs (R139). -/
def Die.hundredMicros (d : Die) : Nat := 100 * d.mhz

/-- The trap is raised in every bundle of a running block; lanes in the supervisor handler take it after their `tret`. Without
a handler the hardware saves the block at once (R139). -/
def State.takePreempt (s : State) (bid : Nat) : State :=
  let b := s.blk bid
  let d := s.die (b.core / 48)
  let s := s.clearWaits bid b.swapOut
  if b.hdr.handler = 0 then
    s.modBlk bid fun b => { b with state := .preempting, preemptHeld := false, savedByHw := true, preemptDue := none, trapDue := [] }
  else
    let late := b.open.filter fun t => (b.thr t).level == 2
    let now := b.open.filter fun t => (b.thr t).level != 2
    ((s.dropBins bid).trapThreads bid now).modBlk bid fun b => { b with
      state := .preempting, preemptHeld := false, savedByHw := false, preemptDue := some (d.clk + d.hundredMicros), trapDue := late }

/-- A request to pre-empt a block (R142, R150): taken, merged with the one in progress, or held. A member that was saved alone,
or that rolls back out of its own swap-out, belongs to its cohort's pre-emption from then on (R242). -/
def State.requestPreempt (s : State) (bid : Nat) (swap : Bool) : State :=
  match (s.blk bid).state with
  | .running => (s.modBlk bid fun b => { b with swapOut := swap }).takePreempt bid
  | .preempting | .saved => if swap then s else s.modBlk bid fun b => { b with swapOut := false }
  | .placed | .restored | .rollingBack => s.modBlk bid fun b => { b with preemptHeld := true, swapOut := b.swapOut && swap }
  | .killed | .completed => s

/-- The state in which blocks would have left their cores. -/
def State.without (s : State) (ids : List Nat) : State :=
  { s with blocks := s.blocks.map fun e => if ids.contains e.1 then (e.1, { e.2 with state := .saved }) else e }

/-- The blocks to pre-empt, in order, until the launch's next block has room: none where it never has (R320). -/
def State.takeUntil (s : State) (g : Grid) : List Nat → List Nat → Option (List Nat)
  | acc, [] => if ((s.without acc).gridSpot g).isSome then some acc else none
  | acc, b :: bs => if ((s.without acc).gridSpot g).isSome then some acc
    else State.takeUntil s g (acc ++ (s.members b).filter fun m => !acc.contains m) bs

/-- The blocks whose pre-emption lets a launch's next block be placed (R320): of launches of lower effective priority, the lowest first, and
of one priority the most recently placed first. -/
def State.victimsFor (s : State) (die : Nat) (g : Grid) : Option (List Nat) :=
  let low := s.blocks.filter fun b => b.2.core / 48 == die && b.2.state.resident && decide (s.blockPrio b.1 < g.effPrio)
  let late := (sortBy (fun (b : Nat × Block) => b.2.placedAt) low).reverse
  s.takeUntil g [] ((sortBy (fun (b : Nat × Block) => s.blockPrio b.1) late).map (·.1))

/-- The blocks that the die's scheduler pre-empts: for the first launch that waits with no room, and that pre-emption gives room (R242,
R320). While a launch holds the die, for that one alone. -/
def State.victims (s : State) (die : Nat) : List Nat :=
  let waiting := ((s.holder die).map fun h => [h]).getD (s.waitingGrids die)
  ((waiting.filter fun e => (s.gridSpot e.2).isNone).findSome? fun e => s.victimsFor die e.2).getD []

/-- PREEMPTION_TRAP (R139): the scheduler pre-empts a block that it needs out of the way, with its cohort, or swaps out a block
whose bundles all wait on `waitcmp`. -/
def execPreemptionTrap (blk : Nat) (s : State) : Host.Outcome State Fault Refusal :=
  let b := s.blk blk
  if (s.victims (b.core / 48)).contains blk then .next ((s.members blk).foldl (fun s m => s.requestPreempt m false) s)
  else if b.state == .running && b.allWaitcmp then .next (s.requestPreempt blk true)
  else .next s

/-- PREEMPTION_TIMEOUT (R140): 100 µs have passed: the hardware stops every bundle where it stands, to save the whole context. -/
def execPreemptionTimeout (blk : Nat) (s : State) : Host.Outcome State Fault Refusal :=
  let b := s.blk blk
  if b.state == .preempting && b.preemptDue.any fun t => decide (t ≤ (s.die (b.core / 48)).clk) then
    .next ((s.clearWaits blk b.swapOut).modBlk blk fun b => { b with savedByHw := true, preemptDue := none, trapDue := [] })
  else .next s

/-! ### Saving (R138 to R140, R233, R248) -/

/-- Every occupied thread has signalled, or the hardware saves the whole block; and what the block issued is done (R139, R140). -/
def State.drained (s : State) (bid : Nat) : Bool :=
  let b := s.blk bid
  b.state == .preempting && !b.open.isEmpty && !s.engineWork bid true
    && (b.savedByHw || (b.trapDue.isEmpty && b.open.all fun t => (b.thr t).signalled))
    && !((s.die (b.core / 48)).shadows.any fun e => e.2.copying.any fun c => c.1 == bid)

/-- A swap-out that finds no swap entry is not made: the block runs on where it stands, after its `presig` (R248). -/
def State.stayResident (s : State) (bid : Nat) : State :=
  s.modBlk bid fun b => { b with
    state := .running, savedByHw := false, swapOut := false, preemptDue := none, trapDue := []
    threads := b.threads.map fun t => { t with signalled := false } }

/-- What the hardware keeps of a block's partitions: records, sequence numbers and tile fields always, and its data under R140. -/
def State.keepMatrix (s : State) (bid : Nat) : State :=
  let b := s.blk bid
  let part (q : Nat) : Partition := s.part (4 * b.core + q)
  let sp := (s.core b.core).scratch
  let words := b.rows.flatMap fun r => (List.range 256).map (256 * r + ·)
  s.modBlk bid fun b => { b with
    savedRecords := b.mats.map fun q => (q, (part q).records)
    savedSeqs := b.mats.map fun q => (q, (part q).seq)
    savedTiles := b.mats.flatMap fun q => (part q).tiles.map fun t => (2 * q + t.1, t.2.rcount, t.2.event, t.2.arm)
    saved := if b.savedByHw then some
        { scratch := words.map sp.peek, poison := (words.zipIdx.filter fun w => sp.poisoned w.1).map (·.2)
          buffers := b.mats.map fun q => (q, (part q).buf), bufPoison := b.mats.map fun q => (q, (part q).bufPoison)
          tiles := b.mats.map fun q => (q, (part q).tiles) }
      else none }

/-- What is not saved by the handler's own stores is gone after a save under R139 (R141). -/
def Block.loseData (b : Block) : Block :=
  let thread (t : Thread) : Thread := { t with v := [], bad := [], p := 0 }
  let bundle (x : Bundle) : Bundle := { x with s := [], bad := [], f := [] }
  { b with
    threads := b.threads.map thread, bundles := b.bundles.map bundle
    trail := b.trail.map fun t => { threads := t.threads.map thread, bundles := t.bundles.map bundle, todo := t.todo } }

/-- The clocks of a block's `bwaitt`s stop, or start again (R170). -/
def Block.mapWaits (b : Block) (f : Wait → Wait) : Block :=
  let thread (t : Thread) : Thread := { t with wait := f t.wait }
  { b with threads := b.threads.map thread, trail := b.trail.map fun t => { t with threads := t.threads.map thread } }

/-- The block's bound records are written to its area (R248 `swp.bars`). -/
def State.writeBars (s : State) (bid : Nat) : State :=
  let b := s.blk bid
  b.slots.foldl (fun s e => { s with mem := s.mem.setBytes (b.savedBar e.1) (s.padBytes bid e.2.addr 16) }) s

/-- A saved member of a cohort takes a swap entry, where one is free (R248). The cohort's tag is a free value that its members
share. -/
def State.takeSwap (s : State) (bid : Nat) : State :=
  let b := s.blk bid
  let cl := b.core / 4
  let tbl := (s.cluster cl).swap
  if b.hdr.cohort ≤ 1 || 64 ≤ tbl.length then s
  else
    let (s, fresh) := s.draw
    let tag : Word := ((tbl.find? fun e => (s.blk e.blk).sameCohort b).map (·.cohort)).getD (.ofNat 32 fresh.toNat)
    s.modCluster cl fun k => { k with
      swap := k.swap ++ [{ blk := bid, valid := false, restoring := false, core := b.core % 4, nbar := b.hdr.barriers
                           bound := .ofNat 16 (maskOf b.slots.keys), cohort := tag, bars := b.savedBar 0 }] }

/-- The block is saved, and its core's resources are released (R139, R140). -/
def State.saveBlock (s : State) (bid : Nat) : State :=
  let b := s.blk bid
  let d := b.core / 48
  let clk := (s.die d).clk
  let armed := if b.swapOut then (s.die d).pilots.filter fun e => e.blk == bid else []
  let s := (((s.writeBars bid).keepMatrix bid).takeSwap bid).releaseBlock bid
  let s := s.modDie d fun x => { x with pilots := x.pilots ++ armed }
  s.modBlk bid fun b =>
    let b := b.mapWaits (Wait.stopClock clk)
    let b := if b.savedByHw then b else b.loseData
    { b with state := .saved, rows := [], preemptDue := none, check := none, journal := [], logged := 0 }

/-- What the save reads of a block's scratchpad, where a read can go wrong: its bound records, and its rows where the hardware saves them (R140,
R248). A word that cannot be read is an error that the block consumes (R146, R196). -/
def State.saveReads (s : State) (bid : Nat) : State × Option Nat :=
  let b := s.blk bid
  let sp := (s.core b.core).scratch
  let bars := b.slots.foldl (fun (acc : State × Option Nat) e => if acc.2.isSome then acc else acc.1.barRead bid e.2.addr) (s, none)
  if bars.2.isSome || !b.savedByHw || (sp.ecc.isEmpty && sp.retired.isEmpty) then bars
  else
    let words := (b.rows.flatMap fun r => (List.range 256).map (256 * r + ·)).filter sp.mustRebuild
    (bars.1.modPad b.core fun sp => sp.load (words.map fun w => { words := [w], key := w, denied := [], found := [], forStore := false, ofLoad := true }),
      if words.any fun w => (sp.read w).isNone then some 2 else none)

/-- PREEMPTION_SAVE (R139, R140): the block has drained and is saved. -/
def execPreemptionSave (blk : Nat) (s : State) : Host.Outcome State Fault Refusal :=
  if !s.drained blk then .next s
  else match s.saveReads blk with
  | (s1, some trig) => .next (s1.consume blk trig 0)
  | (s, none) =>
    let b := s.blk blk
    if b.swapOut && 1 < b.hdr.cohort && 64 ≤ (s.cluster (b.core / 4)).swap.length then .next (s.stayResident blk)
    else .next (s.saveBlock blk)

/-- SWAP_ENTRY_VALID (R248): a saved member's records are written and its entry becomes valid; arrivals held at the port proceed. -/
def execSwapEntryValid (blk : Nat) (s : State) : Host.Outcome State Fault Refusal :=
  let b := s.blk blk
  if b.state != .saved then .next s
  else
    let s1 := s.modCluster (b.core / 4) fun k => { k with
      swap := k.swap.map fun e => if e.blk == blk then { e with valid := true } else e }
    .next (State.servePort b.core (s1.core b.core).port.length (s1.core b.core).port [] s1)

/-! ### Restoring (R141, R199, R204, R248, R325) -/

/-- A saved block takes a core again. Its drawn bundles come back with it, though the partition may then hold more than 8 (R135): R141 restores
them whole (DESIGN CHOICE, log entry 53). -/
def State.startRestore (s : State) (bid core : Nat) : State :=
  let clk := (s.die (core / 48)).clk
  let rows := s.freeRows core
  let s := (List.range 12).foldl (fun s k =>
    let cl := 12 * (core / 48) + k
    if (s.cluster cl).swap.any fun e => e.blk == bid then
      s.modCluster cl fun x => { x with swap := x.swap.map fun e => if e.blk == bid then { e with restoring := true } else e }
    else s) s
  (s.modBlk bid fun b => { b with
    state := .restored, core := core, rows := rows.take b.hdr.scratch, placedAt := clk
    bundles := b.bundles.map fun x => { x with age := clk, readySince := none }
    drawn := b.drawn.map fun e => (e.1, { e.2 with part := 4 * core + e.2.part % 4 }) }).takeCore bid

/-- BLOCK_RESTORE (R141): a saved block, or its whole cohort, is restored onto cores that meet R120, in its turn (R320). -/
def execBlockRestore (blk : Nat) (s : State) : Host.Outcome State Fault Refusal :=
  let die := (s.blk blk).core / 48
  match (s.restorable die).bind s.restoreSpot with
  | none => .next s
  | some spots =>
    if spots.any (fun e => e.1 == blk) && s.dieServes die then .next (spots.foldl (fun s e => s.startRestore e.1 e.2) s) else .next s

/-- The matrix state of a restored block (R209, R233). -/
def State.reloadMatrix (s : State) (bid : Nat) : State :=
  let b := s.blk bid
  b.mats.foldl (fun s q =>
    let fields (k : Nat) (t : Tile) : Tile := match Sparse.look b.savedTiles (2 * q + k) with
      | some f => { t with rcount := f.1, event := f.2.1, arm := f.2.2 }
      | none => t
    s.modPart (4 * b.core + q) fun p =>
      let p := { p with records := Sparse.getOr b.savedRecords q [], seq := Sparse.getOr b.savedSeqs q 0 }
      let p := match b.saved with
        | some d => { p with
            tiles := Sparse.getOr d.tiles q [], buf := Sparse.getOr d.buffers q [], bufPoison := Sparse.getOr d.bufPoison q [] }
        | none => p
      (List.range 2).foldl (fun p k => if (Sparse.look b.savedTiles (2 * q + k)).isSome then p.modTile k (fields k) else p) p) s

/-- The scratchpad of a restored block: zero, or the saved image; then its bound records with every arrival applied to them. -/
def State.reloadScratch (s : State) (bid : Nat) : State :=
  let b := s.blk bid
  let c := b.core
  let s := match b.saved with
    | none => s
    | some d =>
      let words := b.rows.flatMap fun r => (List.range 256).map (256 * r + ·)
      s.modPad c fun sp => sp.store ((words.zip d.scratch).zipIdx.filterMap fun e =>
        if e.1.2 == 0 && !d.poison.contains e.2 then none
        else some { word := e.1.1, value := e.1.2, mask := 15, poison := d.poison.contains e.2, key := e.2, held := false })
  b.slots.foldl (fun s e => s.padStore bid (storeReqs b e.2.addr (s.mem.bytes (b.savedBar e.1) 16) [] 0)) s

/-- The range-scoreboard entries of copies that wait through a pre-emption (R138). -/
def Copy.entry (c : Copy) (bid : Nat) : SbEntry :=
  let work := c.slices.filter fun x => !x.empty
  let lo := ((work.map (·.sc)).foldl min ((work.map (·.sc)).headD 0))
  { blk := bid, copy := c.k, s2g := c.s2g, lo := lo, hi := (work.map (·.padEnd)).foldl max 0 - 1 }

/-- Threads saved in a reform bin are filed again under its key. -/
def State.refile (s : State) (bid : Nat) : State :=
  (List.range (s.blk bid).threads.length).foldl (fun s t =>
    let x := (s.blk bid).thr t
    match x.status with
    | .binned _ => (s.modBlk bid fun b => b.modThr t fun t => { t with status := .running }).file bid t x.pc
    | _ => s) s

/-- The restored block's context is reloaded, the arrivals held for it are applied, and it runs (R141, R248, R325). -/
def State.reloadBlock (s : State) (bid : Nat) : State :=
  let b := s.blk bid
  let clk := (s.die (b.core / 48)).clk
  let s := (s.reloadMatrix bid).reloadScratch bid
  let s := s.modCore b.core fun k => { k with sb := k.sb ++ b.copies.map fun c => c.entry bid }
  let s := s.modBlk bid fun b =>
    { b.mapWaits (Wait.startClock clk) with
      state := .running, saved := none, savedRecords := [], savedSeqs := [], savedTiles := [], savedByHw := false, swapOut := false
      threads := (b.mapWaits (Wait.startClock clk)).threads.map fun t => { t with signalled := false } }
  let s := ((s.clearWaits bid false).freeSwap bid).refile bid
  let s := b.heldArrivals.foldl (fun s n => if (Sparse.look (s.blk bid).slots n).isSome then s.arrive bid n 0 true else s) s
  let s := s.modBlk bid fun b => { b with heldArrivals := [] }
  -- what was held at the port while the records were reloaded comes before the block's first issue (R248)
  let s := State.servePort b.core (s.core b.core).port.length (s.core b.core).port [] s
  (s.replayStale bid fun _ => true).settle bid

/-- A request that was held is taken on entry to running (R150). -/
def State.takeHeld (s : State) (bid : Nat) : State :=
  if (s.blk bid).preemptHeld && (s.blk bid).state == .running then s.takePreempt bid else s

/-- ROW_ZEROING (R199): the rows of a placed or restored block are zeroed; it is reloaded, its first interval opens, and it runs
(R121, R145, R150). -/
def execRowZeroing (blk : Nat) (s : State) : Host.Outcome State Fault Refusal :=
  let b := s.blk blk
  if b.state != .placed && b.state != .restored then .next s
  else
    let s1 := s.modPad b.core fun sp => b.rows.foldl (fun sp r => sp.zeroRow r) sp
    let s2 := if b.state == .placed then s1.modBlk blk fun b => { b with state := .running } else s1.reloadBlock blk
    .next (if (s2.blk blk).state == .running then (s2.openInterval blk).takeHeld blk else s2)

/-! ### Rollback (R148) -/

/-- A logged unit takes its old value again. -/
def State.undo (s : State) (bid : Nat) (e : JEntry) : State :=
  let b := s.blk bid
  match e with
  | .vrow bundle k old => s.modBlk bid fun b => b.modThrs ((List.range 128).map (128 * bundle + ·)) fun t x =>
      x.setV k (old.getD (homeLane t) 0)
  | .srow row old bad => s.modPad b.core fun sp => sp.restoreRow row old bad
  | .trow part tile row old => s.modPart (4 * b.core + part) fun p => p.modTile tile fun y => { y with
      rows := Sparse.putOr y.rows row old AccRow.reset }
  | .obuf part kib old bad => s.modPart (4 * b.core + part) fun p => { p with
      buf := putRange p.buf (1024 * kib) old, bufPoison := putBad p.bufPoison (1024 * kib) 1024 bad }
  | .external .. => s

/-- A logged external arrival is applied again. -/
def State.reapply (s : State) (bid : Nat) (e : JEntry) : State :=
  match e with
  | .external n bytes arrives =>
    if (Sparse.look (s.blk bid).slots n).isNone then s
    else s.barUpdate bid n (fun r => { r with
      pending := if arrives then r.pending - 1 else r.pending, bytes := max (-(2 ^ 31)) (r.bytes + bytes) }) id
  | _ => s

/-- The checkpoint is reloaded (R145, R148). A record that was FILLING at the checkpoint and whose fill has ended since is FILLING again, with
no fill in flight (DESIGN CHOICE, log entry 53; R233). What comes back: control context, scalar, predicate, format and flag state; vector registers are what
the journal has restored. Copies supplied in the interval are supplied again. -/
def State.reloadCheckpoint (s : State) (bid : Nat) (c : Checkpoint) : State :=
  let b := s.blk bid
  let clk := (s.die (b.core / 48)).clk
  let accepted := ((List.range b.accepted).filter b.preIssued).length
  let s := b.mats.foldl (fun s q => s.modPart (4 * b.core + q) fun p => { p with
    records := Sparse.getOr c.records q [], seq := Sparse.getOr c.seqs q 0 }) s
  s.modBlk bid fun b => { b with
    threads := (c.threads.zipIdx).map fun t => { t.1 with v := (b.thr t.2).v, bad := (b.thr t.2).bad, wait := t.1.wait.startClock clk }
    bundles := c.bundles, drawn := c.drawn, slots := c.slots, rings := c.rings
    slices := c.slices.filter fun x => decide (accepted ≤ x.k), accepted := accepted
    struck := (c.threads.filter fun t => t.status == .struck).length }

/-- The trailer's copies and tile follow the restored leader's (R143). -/
def State.retrail (s : State) (bid : Nat) : State :=
  let b := s.blk bid
  if b.trail.isNone then s
  else
    let s := b.mats.foldl (fun s q => s.modPart (4 * b.core + q) fun p => { p with
      tiles := match Sparse.look p.tiles 0 with
        | some t => [(0, t), (1, t)]
        | none => [] }) s
    s.modBlk bid fun b => { b with trail := some { threads := b.threads, bundles := b.bundles, todo := [] } }

/-- ROLLBACK (R148): the block's operations in flight have completed, and it goes back to its checkpoint and
runs; where checkpoint or journal has an uncorrectable error it is killed (R150). -/
def execRollback (blk : Nat) (s : State) : Host.Outcome State Fault Refusal :=
  let b := s.blk blk
  match b.check with
  | none => .next s
  | some c =>
    if b.state != .rollingBack || s.engineWork blk false then .next s
    else if c.bad then .next (s.kill blk 0x40 b.trig b.trigAddr)
    else
      let s1 := (s.clearWaits blk false).dropBins blk
      let s1 := s1.modDie (b.core / 48) fun d => { d with deferred := d.deferred.filter fun e => e.who.blk != some blk }
      let s2 := b.journal.foldl (fun s e => s.undo blk e) s1
      let s3 := (s2.reloadCheckpoint blk c).modBlk blk fun b => { b with check := none }
      let s4 := b.journal.reverse.foldl (fun s e => s.reapply blk e) s3
      let n := b.rollbacks + 1
      let s5 := (s4.report (b.core / 48) (.rollback
        { cause := 0x60, trig := b.trig, count := n, core := b.core % 48, die := b.core / 48, wid := b.wid, addr := b.trigAddr
          done := b.hdr.done })).retrail blk
      let again := s5.checkpointOf blk
      let s6 := s5.modBlk blk fun b => { b with
        state := .running, check := some again, journal := [], logged := 0, irrevocable := false, rollbacks := n }
      let s7 := ((s6.refile blk).replayStale blk fun _ => true).settle blk
      .next (s7.takeHeld blk)

/-! ### Reform bins and drawn bundles (R135, R136) -/

/-- The drawn bundles of a partition: block and number. -/
def State.drawnOn (s : State) (part : Nat) : List (Nat × Nat × Drawn) :=
  (s.residents (part / 4)).flatMap fun e => (e.2.drawn.filter fun d => d.2.part == part).map fun d => (e.1, d.1, d.2)

/-- A bin is due to be drawn (R135): full, 256 clk old, or no thread of its block running on the partition. -/
def State.binDue (s : State) (part : Nat) (x : Bin) : Bool :=
  let b := s.blk x.blk
  b.state.issues && !x.threads.isEmpty
    && (decide (128 ≤ x.threads.length) || decide (x.opened + 256 ≤ (s.die (part / 192)).clk)
      || !((List.range b.threads.length).any fun t => b.homePart t == part && (b.thr t).status == .running))

/-- The bins of a partition that are due, oldest first. -/
def State.binsDue (s : State) (part : Nat) : List (Nat × Bin) :=
  sortBy (fun (e : Nat × Bin) => e.2.opened) ((s.part part).bins.filter fun e => s.binDue part e.2)

/-- BIN_DRAW (R135, R136): a bin that is due becomes a drawn bundle, where a context is free for it. -/
def execBinDraw (part bin : Nat) (s : State) : Host.Outcome State Fault Refusal :=
  let free := 8 - (s.drawnOn part).length
  match ((s.binsDue part).take free).find? fun e => e.1 == bin with
  | none => .next s
  | some (_, x) =>
    let b := s.blk x.blk
    let clk := (s.die (b.core / 48)).clk
    let ts := sortBy homeLane (x.threads.map (·.1))
    let donor := b.bundle (homeBundle (ts.headD 0))
    let k := (b.drawn.keys.foldl max 0) + 1
    let dr : Drawn := { part := part, donor := homeBundle (ts.headD 0), members := ts, s := donor.s, bad := donor.bad, f := donor.f, oplog := [], drawnAt := clk, age := clk
                        firstIssue := none, readySince := none, leader := none, cur := [], turn := 0 }
    .next ((s.modPart part fun p => { p with bins := Sparse.del p.bins bin }).modBlk x.blk fun b =>
      { b.modThrs ts (fun _ t => { t with status := .running, ctx := some k, pc := x.pc, wait := .none, group := 0 }) with
        drawn := Sparse.put b.drawn k dr })

/-- The lane has begun an instruction that it has not ended: what it has still to do reads the registers of its context. -/
def Wait.within : Wait → Bool
  | .access _ | .outgoing _ | .remote | .workQueue | .shadow _ | .lease .. | .exits .. => true
  | _ => false

/-- The drawn bundle stands at an instruction boundary: none of its lanes is inside an instruction (R136). -/
def Block.atBoundary (b : Block) (k : Nat) : Bool :=
  b.threads.all fun t => t.ctx != some k || (!t.wait.within && !(t.group != 0 && t.wait matches .record _))

/-- The drawn bundle that forced dissolution takes first on a partition: a bin is due, no context is free, and it issued first
4,096 clk ago or earlier; the earliest drawn goes first, of those at an instruction boundary (R136). -/
def State.dissolvable (s : State) (part : Nat) : Option (Nat × Nat × Drawn) :=
  let all := s.drawnOn part
  let clk := (s.die (part / 192)).clk
  if (s.binsDue part).isEmpty || all.length < 8 then none
  else
    let old := all.filter fun e =>
      (e.2.2.firstIssue.any fun t => decide (t + 4096 ≤ clk)) && (s.blk e.1).atBoundary e.2.1
    (sortBy (fun (e : Nat × Nat × Drawn) => e.2.2.drawnAt) old).head?

/-- FORCED_DISSOLUTION (R136): the drawn bundle's lanes return to their home bundles. -/
def execForcedDissolution (blk k : Nat) (s : State) : Host.Outcome State Fault Refusal :=
  match Sparse.look (s.blk blk).drawn k with
  | none => .next s
  | some d =>
    if (s.dissolvable d.part).any fun e => e.1 == blk && e.2.1 == k then
      .next ((s.modBlk blk fun b =>
        let b := b.homeLogs d
        { b.modThrs d.members (fun _ t => if t.ctx == some k then { t with ctx := none } else t) with drawn := Sparse.del b.drawn k }).settle blk)
    else .next s

/-! ### The cluster network (R240, R251) -/

/-- The network goes down (R251). -/
def State.networkDown (s : State) (cl : Nat) : State :=
  let s := (s.modCluster cl fun k => { k with down := true, merges := [] }).lampLog 4 .networkDown [cl]
  let hit := (s.blocks.filter fun e => decide (1 < e.2.hdr.cohort)
    && ((e.2.core / 4 == cl && e.2.state.resident) || (e.2.state == .saved && (s.cluster cl).swap.any fun w => w.blk == e.1))).map (·.1)
  let s := hit.foldl (fun s b => s.kill b 0x44 0 0) s
  let s := (List.range 4).foldl (fun s k => s.modCore (4 * cl + k) fun c => { c with port := [] }) s
  (List.range 16).foldl (fun s k =>
    ((s.part (16 * cl + k)).fills.filter fun f => f.remote.isSome).foldl (fun s f => s.fillDone (16 * cl + k) f none) s) s

/-- CLUSTER_FLIT_RETRY (R240): a flit on a link fails its check: it is sent again, up to 16 times; the 17th failure puts the
network down. -/
def execClusterFlitRetry (cluster link : Nat) (s : State) : Host.Outcome State Fault Refusal :=
  let k := s.cluster cluster
  if k.down then .next s
  else
    let n := Sparse.getOr k.retries link 0 + 1
    let s1 := s.modCluster cluster fun k => { k with retries := Sparse.put k.retries link n }
    .next (if 17 ≤ n then s1.networkDown cluster else s1)

/-! ### Afterglow (R143, R144) -/

/-- FORCE_AFTERGLOW (R143): the Lamplighter forces afterglow for a domain or a die. -/
def execForceAfterglow (byDie : Bool) (n : Nat) (s : State) : Host.Outcome State Fault Refusal :=
  .next ((s.modHub fun h =>
    if byDie then { h with forcedDies := if h.forcedDies.contains n then h.forcedDies else h.forcedDies ++ [n] }
    else { h with forcedDoms := if h.forcedDoms.contains n then h.forcedDoms else h.forcedDoms ++ [n] }).lampLog 4 .forced
      [if byDie then 1 else 0, n])

/-- AFTERGLOW_RELEASE (R143): the trailers of a block have caught up with the operations in its release queues, which now issue
from both copies and are compared (R144). -/
def execAfterglowRelease (blk : Nat) (s : State) : Host.Outcome State Fault Refusal :=
  let free (t : Thread) : Thread := if t.wait == (.outgoing false) then { t with wait := .outgoing true } else t
  .next (s.modBlk blk fun b => { b with threads := b.threads.map free })

end Sys2Proof.Machine
end

