-- ==== Sys2Proof/Machine/System.lean ====
section
/-! DEFINITION. System.lean: system registers, the return from handlers, `presig` and the operand log (R123, R177 to R181, R279), the
fault buffer and the translation caches as instructions see them (R267 to R278). -/

namespace Sys2Proof.Machine

/-! ### System registers (R123, R177, R178, R279, R304) -/

/-- `hstat` (R177): the handler level, and whether a pre-emption of the block is pending. -/
def Block.hstat (b : Block) (t : Nat) : Nat := (b.thr t).level + (if b.state == .preempting then 4 else 0)

/-- The value of a system register in a thread. -/
def State.sysValue (s : State) (r t : Nat) : Nat :=
  let b := s.cb
  let th := b.thr t
  let c := s.core s.cc
  match r with
  | 0x000 => b.tvec.toNat
  | 0x001 => th.tcause.toNat
  | 0x002 => th.epc.toNat
  | 0x003 => th.tval.toNat
  | 0x004 => th.tscr.toNat
  | 0x005 => b.savebase.toNat
  | 0x006 => b.hwsave.toNat
  | 0x007 => b.hdr.domain
  | 0x008 => b.locbase.toNat
  | 0x009 => b.locsz.toNat
  | 0x00A => b.dbgctl.toNat
  | 0x00B => b.hstat t
  | 0x00C => c.jrnbase.toNat
  | 0x00D => c.jrnsize.toNat
  | 0x00E => c.specdrop.toNat
  | 0x00F => (s.die s.cd).svcdom.toNat
  | 0x010 => b.shdwwin.toNat
  | 0x011 => b.hdr.param.toNat
  | 0x012 => b.hdr.done.toNat
  | _ => 0

/-- Registers that a thread reads at level 2 alone: those marked — for the user in R177. -/
def sysHidden (r : Nat) : Bool := (1 ≤ r && r ≤ 4) || r == 0x00C || r == 0x00D

/-- Registers that a thread writes at level 2 (R177). -/
def sysWritable (r : Nat) : Bool := r ≤ 5 || (8 ≤ r && r ≤ 0x00A)

/-- A value is written to a writable register from a thread; reserved bits stay 0 (R177). -/
def Block.setSys (b : Block) (r t v : Nat) : Block :=
  let w : DWord := .ofNat 64 v
  match r with
  | 0x000 => { b with tvec := w }
  | 0x001 => b.modThr t fun x => { x with tcause := w &&& 0x0000000F0FFFFFFF }
  | 0x002 => b.modThr t fun x => { x with epc := w }
  | 0x003 => b.modThr t fun x => { x with tval := w }
  | 0x004 => b.modThr t fun x => { x with tscr := w }
  | 0x005 => { b with savebase := w }
  | 0x008 => { b with locbase := w }
  | 0x009 => { b with locsz := .ofNat 32 v }
  | 0x00A => { b with dbgctl := .ofNat 32 (v % 2) }
  | _ => b

/-- PRIVILEGE in the lanes named (R178, R179, R181). -/
def State.privilege (s : State) (len : Nat) (bad : List Nat) : State :=
  s.finishFaults len (bad.map fun t => (t, { cause := 0x1A }))

/-- `sysrd` (R178). -/
def execSysrd (x : Opnds) (r : BitVec 10) (s : State) : Host.Outcome State Fault Refusal :=
  s.issue (.sysrd x r) fun x s =>
    let n := r.toNat
    let ex := s.exe x.g
    let bad := ex.filter fun t => sysHidden n && (s.cb.thr t).level != 2
    let good := ex.filter fun t => !bad.contains t
    ((s.advanceBut x.ext.bytes bad).write x.d (sysRegs r) (good.map fun t => (t, s.sysValue n t))).privilege x.ext.bytes bad

/-- `syswr` (R178). -/
def execSyswr (x : Opnds) (r : BitVec 10) (s : State) : Host.Outcome State Fault Refusal :=
  s.issue (.syswr x r) fun x s =>
    let n := r.toNat
    let ex := s.exe x.g
    let ty : OpTy := if sysRegs r = 2 then .b64 else .b32
    let bad := ex.filter fun t => !sysWritable n || (s.cb.thr t).level != 2
    let good := ex.filter fun t => !bad.contains t
    let vals := good.map fun t => (t, s.src x.ext ty t x.a)
    let s1 := (s.advanceBut x.ext.bytes bad).modCb fun b => vals.foldl (fun b e => b.setSys n e.1 e.2) b
    (if good.isEmpty then s1 else s1.irrevoke s.sel.blk).privilege x.ext.bytes bad

/-! ### Return from the handlers (R139, R141, R179) -/

/-- A thread that has left the supervisor handler takes a pre-emption trap that waited for its `tret` (R139). -/
def State.lateTrap (s : State) (bid t : Nat) : State :=
  let b := s.blk bid
  if b.trapDue.contains t then
    let s := s.modBlk bid fun b => { b with trapDue := b.trapDue.filter (· != t) }
    if b.state == .preempting && !b.savedByHw && !(b.thr t).status.terminal then s.trapThreads bid [t] else s
  else s

/-- A thread returns from the supervisor handler, at the instruction that faulted or past it (R179). -/
def State.returnTo (s : State) (bid t : Nat) (past : Bool) : State :=
  (s.modBlk bid fun b => b.modThr t fun x => x.leaveHandler past).lateTrap bid t

/-- Lanes that return from the supervisor handler to a target that is not canonical: FETCH at the transferring instruction (R48). -/
def State.strays (s : State) (past : Bool) (ts : List Nat) : List (Nat × LF) :=
  (ts.filter fun t => (s.cb.thr t).level == 2 && !canonical ((s.cb.thr t).returnPc past)).map fun t =>
    (t, { cause := 0x12, addr := (s.cb.thr t).returnPc past })

/-- RETURN FROM A HANDLER (R179): each executing lane at level 2 leaves the supervisor handler as `f` says; at level 1 under mode 0 it
returns to what the pre-emption interrupted; any other lane takes PRIVILEGE. `stray`: the lanes that have nowhere to return. -/
def State.tretOp (s : State) (i : Instr) (mode0 : Bool) (stray : State → List Nat → List (Nat × LF)) (f : State → Nat → State) :
    Host.Outcome State Fault Refusal :=
  s.issue i fun x s =>
    let ex := s.exe x.g
    let bid := s.sel.blk
    let level (t : Nat) : Nat := (s.cb.thr t).level
    let bad := ex.filter fun t => !(level t == 2 || (level t == 1 && mode0))
    let lost := stray s ex
    let good := ex.filter fun t => !bad.contains t && !lost.any fun e => e.1 == t
    let s1 := good.foldl (fun s t => if level t == 2 then f s t else s.leaveTrap bid t) (s.advanceBut x.ext.bytes ex)
    let s1 := if mode0 && good.any (fun t => level t == 1) then s1.faultUnbound bid else s1
    (s1.fault x.ext.bytes (sortBy (fun (e : Nat × LF) => homeLane e.1) (lost ++ bad.map fun t => (t, { cause := 0x1A })))).settle bid

/-- `tret` (R179). -/
def execTret (x : Opnds) (s : State) : Host.Outcome State Fault Refusal :=
  s.tretOp (.tret x) true (·.strays false) fun s' t => s'.returnTo s.sel.blk t false

/-- `tret.next` (R179). -/
def execTretNext (x : Opnds) (s : State) : Host.Outcome State Fault Refusal :=
  s.tretOp (.tretNext x) false (·.strays true) fun s' t => s'.returnTo s.sel.blk t true

/-- `tret.strike` (R179). -/
def execTretStrike (x : Opnds) (s : State) : Host.Outcome State Fault Refusal :=
  s.tretOp (.tretStrike x) false (fun _ _ => []) fun s' t => s'.strike s.sel.blk t

/-- `presig` (R180): at level 1 with a pre-emption pending the lane stops issuing, at the next instruction. -/
def execPresig (x : Opnds) (s : State) : Host.Outcome State Fault Refusal :=
  s.issue (.presig x) fun x s =>
    let b := s.cb
    let done := (s.exe x.g).filter fun t => b.state == .preempting && !b.savedByHw && (b.thr t).level == 1
    (s.advance x.ext.bytes).modCb fun b => b.modThrs done fun _ t => { t with signalled := true }

/-! ### The operand log (R181, R267) -/

/-- A lane's part of entry e of a log, with the entry. -/
def Block.logPart (b : Block) (t e n : Nat) : Option (OplogEntry × OplogLane) :=
  (Sparse.look (b.oplog n) e).bind fun y => (y.lanes.find? fun l => l.thr == t).map fun l => (y, l)

/-- Word w of a lane's part of entry e of its bundle's operand log (R267): 0 where the lane has none. A lane that has left a drawn bundle for
the handler finds its part in that bundle's log (DESIGN CHOICE, log entry 53). -/
def Block.logWord (b : Block) (t e w : Nat) : Nat :=
  match (homeBundle t :: b.drawn.map (16 + ·.1)).findSome? (b.logPart t e) with
  | none => 0
  | some (y, l) =>
    if w < 2 then field l.addr.toNat (32 * w) 32
    else if w < 6 then field l.data.toNat (32 * (w - 2)) 32
    else if w < 8 then field l.data2.toNat (32 * (w - 6)) 32
    else if w < 10 then field y.pc.toNat (32 * (w - 8)) 32
    else if w < 14 then field y.bits.toNat (32 * (w - 10)) 32
    else if w = 14 then 1 + (if l.replayed then 2 else 0) + (if l.cancelled then 4 else 0) + l.cause.toNat * 2 ^ 16
    else l.seq.toNat

/-- `oplog.rd` (R181). -/
def execOplogRd (x : Opnds) (e : BitVec 3) (w : BitVec 4) (s : State) : Host.Outcome State Fault Refusal :=
  s.issue (.oplogRd x e w) fun x s =>
    let ex := s.exe x.g
    let bad := ex.filter fun t => (s.cb.thr t).level != 2
    let good := ex.filter fun t => !bad.contains t
    ((s.advanceBut x.ext.bytes bad).write x.d 1 (good.map fun t => (t, s.cb.logWord t e.toNat w.toNat))).privilege x.ext.bytes bad

/-! ### The fault buffer (R268 to R270, R275, R276) -/

/-- A lane fault record's 256 bits (R115). -/
def LaneRec.bits (r : LaneRec) : Nat :=
  r.cause.toNat + r.lane * 2 ^ 16 + r.bundle * 2 ^ 24 + r.policy * 2 ^ 28 + r.code.toNat * 2 ^ 32 + r.width * 2 ^ 40
    + (if r.store then 2 ^ 43 else 0) + r.slot * 2 ^ 44 + r.core * 2 ^ 48 + r.die * 2 ^ 54 + r.pc.toNat * 2 ^ 64
    + r.addr.toNat * 2 ^ 128 + r.wid.toNat * 2 ^ 192

/-- A restartable record's 256 bits (R269). -/
def RestartRec.bits (r : RestartRec) : Nat :=
  r.cause.toNat + r.why * 2 ^ 16 + r.acc * 2 ^ 18 + r.level * 2 ^ 20 + (if r.engine then 2 ^ 23 else 0) + r.domain * 2 ^ 24
    + r.asn * 2 ^ 32 + r.count * 2 ^ 40 + r.va.toNat * 2 ^ 64 + r.cores.toNat * 2 ^ 128 + r.pc.toNat * 2 ^ 192

/-- A rollback or fatal record's 256 bits (R270). -/
def BlockRec.bits (r : BlockRec) : Nat :=
  r.cause.toNat + r.trig * 2 ^ 16 + r.count * 2 ^ 20 + r.core * 2 ^ 22 + r.die * 2 ^ 28 + r.wid.toNat * 2 ^ 64
    + r.addr.toNat * 2 ^ 128 + r.done.toNat * 2 ^ 192

/-- `fb.kind` (R268). -/
def FbRec.kind : FbRec → Nat
  | .lane _ => 1
  | .restart _ => 2
  | .rollback _ => 3
  | .fatal _ => 4

/-- A record's 256 bits. -/
def FbRec.bits : FbRec → Nat
  | .lane r => r.bits
  | .restart r => r.bits
  | .rollback r => r.bits
  | .fatal r => r.bits

/-- A record with its tag: ten words (R268, R276). -/
def FbEntry.bits (e : FbEntry) : Nat :=
  e.body.bits + (e.seq.toNat + e.body.kind * 2 ^ 32 + (if e.taken then 2 ^ 35 else 0)) * 2 ^ 256

/-- `fault.rd` (R276): the twelve words, from the entry selected as it stood and the buffer after the action. -/
def State.faultRd (s : State) (i : Instr) (spend : Bool) (pick : Word → FbEntry → Bool) (f : FbEntry → Option FbEntry) :
    Host.Outcome State Fault Refusal :=
  s.issue i fun x s =>
    match s.exe x.g with
    | [] => s.advance x.ext.bytes
    | l :: ts =>
      if !s.service (l :: ts) then s.uniformFault x { cause := 0x1A }
      else
        let q : Word := .ofNat 32 (s.src x.ext .b32 l x.a)
        let hit := (s.die s.cd).fb.find? (pick q)
        let s1 := match hit with
          | none => s
          | some e => s.modDie s.cd fun d => { d with fb := d.fb.filterMap fun (y : FbEntry) => if y.seq == e.seq then f y else some y }
        let d := s1.die s.cd
        let v := (hit.map FbEntry.bits).getD 0 + d.fb.length * 2 ^ 320 + d.overflow.toNat * 2 ^ 352
        let s2 := (s1.advance x.ext.bytes).write x.d 12 [(l, v)]
        if spend then s2.irrevoke s.sel.blk else s2

/-- `fault.rd.seq` (R276). -/
def execFaultRdSeq (x : Opnds) (s : State) : Host.Outcome State Fault Refusal :=
  s.faultRd (.faultRdSeq x) false (fun q e => e.seq == q) some

/-- `fault.rd.take` (R276). -/
def execFaultRdTake (x : Opnds) (s : State) : Host.Outcome State Fault Refusal :=
  s.faultRd (.faultRdTake x) true (fun q e => !e.taken && decide (q.toNat ≤ e.seq.toNat)) fun e => some { e with taken := true }

/-- `fault.rd.free` (R276): a restartable entry is not freed. -/
def execFaultRdFree (x : Opnds) (s : State) : Host.Outcome State Fault Refusal :=
  s.faultRd (.faultRdFree x) true (fun q e => e.seq == q) fun e => if e.body.kind = 2 then some e else none

/-- `fault.cancel` (R273, R277). -/
def execFaultCancel (x : Opnds) (m : CancelMode) (s : State) : Host.Outcome State Fault Refusal :=
  s.issue (.faultCancel x m) fun x s =>
    match s.exe x.g with
    | [] => s.advance x.ext.bytes
    | l :: ts =>
      let len := x.ext.bytes
      if !s.service (l :: ts) then s.uniformFault x { cause := 0x1A }
      else
        match s.lanesPerformed s.sel.blk (l :: ts) with
        | none => s.stall
        | some s1 =>
          let q : Word := .ofNat 32 (s.src x.ext .b32 l x.a)
          let mask := s.src x.ext .b64 l x.b
          let ok := (s.die s.cd).fb.any fun e => e.seq == q && e.body.kind == 2
          let s2 := ((s1.advance len).write x.d 1 [(l, if ok then 0 else 1)]).irrevoke s.sel.blk
          if !ok then s2
          else s2.releaseRecord s.cd q (m == .all) fun c => m == .all || (m == .core && bitAt mask c)

/-! ### `tlbinv` (R278) -/

/-- What a `tlbinv` removes: entries of a domain, an address space, a page. -/
structure TlbPick where
  /-- A cached leaf or an L1 line's page, by domain, address space, virtual base and size. -/
  hits : Nat → Nat → Nat → Nat → Bool
  /-- A cached pointer, by domain and address space. -/
  ptr : Nat → Nat → Bool

/-- The entries that a mode names (R278). -/
def tlbPick (m : TlbMode) (a b c : Nat) : TlbPick :=
  { hits := fun dom asn va size =>
      match m with
      | .all => true
      | .dom => dom == a % 16
      | .as => dom == a % 16 && asn == a / 16 % 256
      | .va => dom == c % 16 && asn == c / 16 % 256 && decide (a < va + size) && decide (va < a + b) && decide (0 < b)
    ptr := fun dom asn =>
      match m with
      | .all => true
      | .dom => dom == a % 16
      | .as => dom == a % 16 && asn == a / 16 % 256
      | .va => dom == c % 16 && asn == c / 16 % 256 && decide (0 < b) }

/-- A cached leaf or pointer goes. -/
def TlbPick.takes (p : TlbPick) (e : TlbLeaf) : Bool :=
  if bitAt e.pte.toNat 1 then p.hits e.dom e.asn e.va e.size else p.ptr e.dom e.asn

/-- An access through a page that goes is still on its way: a bank command, or a write that an agent has not yet applied. -/
def State.usedPage (s : State) (d : Nat) (p : TlbPick) : Bool :=
  (s.die d).bank.any (fun k => k.pages.any fun g => p.hits (s.blk k.blk).hdr.domain (s.blk k.blk).asn g.1 g.2.1)
    || ((s.die d).tlb ++ (s.cores.filter fun k => k.1 / 48 == d).flatMap fun k => k.2.tlb).any fun e =>
      bitAt e.pte.toNat 1 && p.takes e &&
        (let g := pageOf e.pte.toNat e.va 0
         s.hub.inflight.any fun w => w.src == d && !w.external && decide (g.pa < w.pa + w.bytes.length) && decide (w.pa < g.pa + g.size))

/-- The entries are gone from every cache of a die, and the walks that could install one have dropped their results. A `waitcmp` of the die
that waits with one of them reads afresh. -/
def State.forgetPages (s : State) (d : Nat) (p : TlbPick) : State :=
  let core (k : Nat × Core) : Nat × Core :=
    if k.1 / 48 == d then
      (k.1, { k.2 with
        tlb := k.2.tlb.filter fun e => !p.takes e, l1 := k.2.l1.filter fun l => !p.hits l.dom l.asn l.page l.size
        icache := k.2.icache.filter fun l => !p.hits l.dom l.asn l.page l.size })
    else k
  let s := s.unwatch fun b va size _ => b.core / 48 == d && p.hits b.hdr.domain b.asn va size
  { s.modDie d fun x => { x with
      tlb := x.tlb.filter fun e => !p.takes e
      walks := x.walks.filter fun r => !(p.ptr r.dom r.asn || p.hits r.dom r.asn (4096 * r.page) 4096) } with
    cores := s.cores.map core }

/-- `tlbinv` (R278). -/
def execTlbinv (x : Opnds) (m : TlbMode) (s : State) : Host.Outcome State Fault Refusal :=
  s.issue (.tlbinv x m) fun x s =>
    match s.exe x.g with
    | [] => s.advance x.ext.bytes
    | l :: ts =>
      let wide := m == .va
      let a := s.src x.ext (if wide then .b64 else .b32) l x.a
      let b := s.src x.ext (.int 64 false) l x.b
      let c := s.src x.ext .b32 l x.c
      let illegal : Bool := match m with
        | .all => false
        | .dom => decide (16 ≤ a)
        | .as => decide (4096 ≤ a)
        | .va => decide (4096 ≤ c)
      let p := tlbPick m a b c
      if illegal then s.trapAll x.ext.bytes 2
      else if !s.service (l :: ts) then s.uniformFault x { cause := 0x1A }
      else if s.usedPage s.cd p then s.stall
      else ((s.advance x.ext.bytes).irrevoke s.sel.blk).forgetPages s.cd p

end Sys2Proof.Machine
end

