-- ==== Sys2Proof/Machine/Fabric.lean ====
section
/-! DEFINITION. Fabric.lean: the borrow table as instructions see it (R393 to R396, R401), migration events (R399, R400) and Shutter's
keys (R355 to R357). -/

namespace Sys2Proof.Machine

/-! ### The borrow table (R393, R395, R396) -/

/-- A wait on the borrow table ends, to look again (R401). -/
def Wait.endLease : Wait → Wait
  | .lease st due _ => .lease st due true
  | w => w

/-- A borrow entry changes: those that wait on the table look again, and a change of state is posted to the package kernel
(R396, R401). -/
def State.setBorrow (s : State) (slot : Nat) (b : Borrow) : State :=
  let moved := (s.borrow slot).state != b.state
  let s := s.modHub fun h => { h with
    borrows := if b.state = 0 then Sparse.del h.borrows slot else Sparse.put h.borrows slot b
    reqs := if b.state = 0 then h.reqs.filter fun r => r.slot != slot else h.reqs
    answered := if b.state = 0 || b.state = 4 then h.answered.filter fun a => a.slot != slot else h.answered
    leaseEvents := if moved then h.leaseEvents ++ [(slot, b.state)] else h.leaseEvents }
  if moved then
    { s with blocks := s.blocks.map fun e =>
        (e.1, { e.2 with threads := e.2.threads.map fun t => { t with wait := t.wait.endLease } }) }
  else s

/-- An address lies in the alias of a borrow slot. -/
def inAlias (slot pa : Nat) : Bool := aliasBase slot ≤ pa && pa < aliasBase slot + 2 ^ 34

/-- The package gives a lease back to its lender (R396): no translation of it stays, masked bytes are written back, each at a slot that serves
it (R354), and no cache holds a line of it. -/
def State.emptyLease (s : State) (slot : Nat) : State :=
  let lo := aliasBase slot
  let s := caches.foldl (fun s d => (s.cleanRange d lo (2 ^ 34) []).dropL2 d lo (2 ^ 34)) s
  let s := { s with cores := s.cores.map fun (e : Nat × Core) => (e.1, { e.2 with
    l1 := e.2.l1.filter fun l => !inAlias slot l.pa, icache := e.2.icache.filter fun l => !inAlias slot l.pa }) }
  s.modHub fun h => { h with
    peers := h.peers.filter fun e => e.slot != slot
    dir := h.dir.filter fun e => !inAlias slot (256 * e.1) }

/-- What R393 asks before the acknowledgement: no translation of the lease, no request under it on its way, no line of it in a cache. -/
def State.leaseClear (s : State) (slot : Nat) : Bool :=
  !(s.hub.peers.any fun e => e.slot == slot) && !(s.hub.reqs.any fun r => r.slot == slot && !r.lost)
    && !(s.hub.inflight.any fun e => inAlias slot e.pa) && !(s.hub.heldEvict.any fun e => inAlias slot e.pa)
    && caches.all fun d => !((s.cache d).bytes.any fun e => inAlias slot e.1)

/-- Masked bytes of a lease have still to go out to its lender. -/
def State.leaseOwing (s : State) (slot : Nat) : Bool :=
  (s.hub.inflight.any fun e => e.target == 4 && inAlias slot e.pa) || s.hub.heldEvict.any fun e => inAlias slot e.pa

/-- The back-invalidation of a lease is answered once its masked bytes are on their way (R396); the acknowledgement of one being released is
sent once every condition of R393 holds. -/
def State.tryAck (s : State) (slot : Nat) : State :=
  let b := s.borrow slot
  if b.state == 2 && !b.acked && !s.leaseOwing slot then
    (s.modHub fun h => { h with borrows := Sparse.put h.borrows slot { b with acked := true } }).send (.backInvalidated slot)
  else if b.state == 3 && !b.acked && s.leaseClear slot then
    (s.modHub fun h => { h with borrows := Sparse.put h.borrows slot { b with acked := true } }).send (.leaseAck slot)
  else s

/-- Every acknowledgement that can be sent is sent. -/
def State.tryAcks (s : State) : State := (s.hub.borrows.keys).foldl State.tryAck s

/-- The release of a lease starts (R396). -/
def State.releaseLease (s : State) (slot : Nat) : State :=
  ((s.setBorrow slot { s.borrow slot with state := 3, acked := false }).emptyLease slot).tryAck slot

/-- The 128 bits of a borrow entry (R395). -/
def State.borrowBits (s : State) (slot : Nat) : Nat :=
  let b := s.borrow slot
  let left := match b.expiry with
    | none => 2 ^ 32 - 1
    | some t => min (2 ^ 32 - 1) ((t - s.hub.time) / 1000)
  b.state + b.size * 2 ^ 3 + b.dom * 2 ^ 7 + (if b.wide then 2 ^ 11 else 0) + b.port * 2 ^ 12
    + min 16 (s.leaseWriters slot).length * 2 ^ 24 + b.gen * 2 ^ 32 + b.inc * 2 ^ 48 + b.id * 2 ^ 64 + left * 2 ^ 96

/-! ### `lease.q` (R401) -/

/-- Executing lanes may read and release an entry: their domain's, or any at handler level 2. -/
def State.leaseMine (s : State) (slot : Nat) (ex : List Nat) : Bool :=
  (s.borrow slot).dom == s.cb.hdr.domain || ex.all fun t => (s.cb.thr t).level == 2

/-- What a form of `lease.q` does for the lowest-numbered executing lane, once the privilege of R353 is checked. -/
def State.leaseOp (s : State) (i : Instr) (f : Opnds → State → Nat → List Nat → Nat → State) : Host.Outcome State Fault Refusal :=
  s.issue i fun x s =>
    match s.exe x.g with
    | [] => s.advance x.ext.bytes
    | l :: ts =>
      if !s.service (l :: ts) then s.uniformFault x { cause := 0x1A }
      else f x s l (l :: ts) (s.src x.ext .b32 l x.a % 2 ^ 16)

/-- An entry is written to d to d + 3, or four zeros (R401). -/
def State.leaseGive (s : State) (x : Opnds) (l : Nat) (ex : List Nat) (slot : Nat) : State :=
  ((s.advance x.ext.bytes).write x.d 4 [(l, if s.leaseMine slot ex then s.borrowBits slot else 0)]).irrevoke s.sel.blk

/-- `lease.q.stat` (R401). -/
def execLeaseQStat (x : Opnds) (s : State) : Host.Outcome State Fault Refusal :=
  s.leaseOp (.leaseQStat x) fun x s l ex slot => s.leaseGive x l ex slot

/-- `lease.q.wait` (R401): an issue that waits looks again when the table changes or its bound ends. -/
def execLeaseQWait (x : Opnds) (s : State) : Host.Outcome State Fault Refusal :=
  s.leaseOp (.leaseQWait x) fun x s l ex slot =>
    let now := (s.borrow slot).state
    let t := s.src x.ext .b32 l x.b
    let due : Option Nat := if x.b == .null then none else some (s.hub.time + 1000 * t)
    let (st, due) := match (s.cb.thr l).wait with
      | .lease st due _ => (st, due)
      | _ => (now, due)
    if !s.leaseMine slot ex || st != now || due.any (fun d => decide (d ≤ s.hub.time)) then s.leaseGive x l ex slot
    else s.hold ex (.lease st due false)

/-- `lease.q.rel` (R401). -/
def execLeaseQRel (x : Opnds) (s : State) : Host.Outcome State Fault Refusal :=
  s.leaseOp (.leaseQRel x) fun x s l ex slot =>
    let st := (s.borrow slot).state
    let ok := s.leaseMine slot ex && (st == 1 || st == 2)
    let s1 := ((s.advance x.ext.bytes).write x.d 1 [(l, if ok then 0 else 1)]).irrevoke s.sel.blk
    if ok then s1.releaseLease slot else s1

/-- LEASE_Q_WAIT_TIMEOUT (R401): the bound of a wait has passed. -/
def execLeaseQWaitTimeout (blk thr : Nat) (s : State) : Host.Outcome State Fault Refusal :=
  match ((s.blk blk).thr thr).wait with
  | .lease st (some due) false =>
    if due ≤ s.hub.time then .next (s.modBlk blk fun b => b.modThr thr fun t => { t with wait := .lease st (some due) true }) else .next s
  | _ => .next s

/-! ### Migration events (R399, R400) -/

/-- The 256 bits of an event (R399). -/
def MigEvent.bits (e : MigEvent) : Nat :=
  e.seq + e.port * 2 ^ 32 + e.dom * 2 ^ 44 + e.asn * 2 ^ 48 + e.slot * 2 ^ 64 + e.xoff * 2 ^ 80 + e.size * 2 ^ 96
    + e.va.toNat * 2 ^ 128 + e.count * 2 ^ 192

/-- `mig.ack.take` (R400). -/
def execMigAckTake (x : Opnds) (s : State) : Host.Outcome State Fault Refusal :=
  s.issue (.migAckTake x) fun x s =>
    match s.exe x.g with
    | [] => s.advance x.ext.bytes
    | l :: ts =>
      if !s.service (l :: ts) then s.uniformFault x { cause := 0x1A }
      else
        let v := (s.hub.mig.head?.map MigEvent.bits).getD 0
        (((s.modHub fun h => { h with mig := h.mig.drop 1 }).advance x.ext.bytes).write x.d 8 [(l, v)]).irrevoke s.sel.blk

/-- A counter frozen and posted as an event is acknowledged (R400). -/
def State.migAck (s : State) (i : Instr) (f : PeerEntry → PeerEntry) : Host.Outcome State Fault Refusal :=
  s.issue i fun x s =>
    match s.exe x.g with
    | [] => s.advance x.ext.bytes
    | l :: ts =>
      if !s.service (l :: ts) then s.uniformFault x { cause := 0x1A }
      else
        let n := s.src x.ext .b32 l x.a
        let ok := s.hub.peers.any fun e => e.mig == .posted n
        ((((s.modHub fun h => { h with peers := h.peers.map fun e => if e.mig == .posted n then f e else e }).advance x.ext.bytes).write
          x.d 1 [(l, if ok then 0 else 1)])).irrevoke s.sel.blk

/-- `mig.ack.rearm` (R400). -/
def execMigAckRearm (x : Opnds) (s : State) : Host.Outcome State Fault Refusal :=
  s.migAck (.migAckRearm x) fun e => { e with count := 0, mig := .counting }

/-- `mig.ack.quiet` (R400). -/
def execMigAckQuiet (x : Opnds) (s : State) : Host.Outcome State Fault Refusal :=
  s.migAck (.migAckQuiet x) fun e => { e with mig := .quiet }

/-- MIGRATION_EVENT_DEFERRED (R399): the frozen counter of a peer translation cache entry is posted, once a record is free. -/
def execMigrationEventDeferred (k : Nat) (s : State) : Host.Outcome State Fault Refusal :=
  match s.hub.peers[k]? with
  | none => .next s
  | some e =>
    if e.mig != .unposted || 256 ≤ s.hub.mig.length then .next s
    else .next (s.modHub fun h => { h with
      peers := modAt (fun y => { y with mig := .posted h.mgNext }) k h.peers
      mig := h.mig ++ [{ seq := h.mgNext, port := (s.borrow e.slot).port, dom := e.dom, asn := e.asn, slot := e.slot, xoff := e.xoff
                         size := e.size, va := e.va, count := e.count }]
      mgNext := if h.mgNext = 2 ^ 32 - 1 then 1 else h.mgNext + 1 })

/-! ### Keys (R355 to R357) -/

/-- The code of a use (R355). -/
def useCode : KeyUse → Nat
  | .seal => 0
  | .ide => 1
  | .mem => 2

/-- A handle (R355). -/
def handleOf (slot dom use gen : Nat) : Nat := slot + dom * 2 ^ 8 + use * 2 ^ 12 + gen * 2 ^ 16

/-- The generation after one that is retired: 1 to 0xFFFF (R355). -/
def nextGen (g : Nat) : Nat := if 0xFFFF ≤ g then 1 else g + 1

/-- A 256-bit draw of Shutter's generator (R356, log entry 12). -/
def State.drawKey (s : State) : State × Nat :=
  (List.range 4).foldl (fun (acc : State × Nat) k =>
    let (s', v) := acc.1.draw
    (s', acc.2 + v.toNat * 2 ^ (64 * k))) (s, 0)

/-- The general key slots that hold no live key (R355). -/
def State.freeKeySlots (s : State) : List Nat :=
  (List.range 256).filter fun k => !((Sparse.look s.hub.keys k).any (·.live))

/-- A key is installed for a domain: in a free slot, which one being left open, or as the domain's memory key (R355, R357). The
handle, or none where no slot is free. -/
def State.installKey (s : State) (dom : Nat) (u : KeyUse) (key : Nat) : State × Option Nat :=
  if u == .mem then
    let g := nextGen (((Sparse.look s.hub.memKeys dom).map (·.gen)).getD 0)
    (s.modHub fun h => { h with memKeys := Sparse.put h.memKeys dom { live := true, dom := dom, use := 2, gen := g, key := key } },
      some (handleOf dom dom 2 g))
  else
    let free := s.freeKeySlots
    match free with
    | [] => (s, none)
    | f :: _ =>
      let (s, v) := s.draw
      let k := free.getD (v.toNat % free.length) f
      let g := nextGen (((Sparse.look s.hub.keys k).map (·.gen)).getD 0)
      (s.modHub fun h => { h with
        keys := Sparse.put h.keys k { live := true, dom := dom, use := useCode u, gen := g, key := key } },
        some (handleOf k dom (useCode u) g))

/-- What stands before a new key (R357): 4 DENIED, 5 BUSY, or 0. -/
def State.keyBar (s : State) (u : KeyUse) (ex : List Nat) : Nat :=
  if u != .seal && !s.service ex then 4
  else if u == .mem && s.hub.owner.any (fun e => e.2 == s.cb.hdr.domain) then 5
  else 0

/-- The pair d, d + 1 (R357). -/
def State.keyGive (s : State) (x : Opnds) (l v status : Nat) : State :=
  ((s.advance x.ext.bytes).write x.d 2 [(l, v + status * 2 ^ 32)]).irrevoke s.sel.blk

/-- The end of `keyh.gen` and `keyh.imp`: a key is installed, or no slot is free. -/
def State.keyNew (s : State) (x : Opnds) (l : Nat) (u : KeyUse) (key : Nat) : State :=
  match s.installKey s.cb.hdr.domain u key with
  | (s, some h) => s.keyGive x l h 0
  | (s, none) => s.keyGive x l 0 1

/-- `keyh.gen` (R357). -/
def execKeyhGen (x : Opnds) (u : KeyUse) (s : State) : Host.Outcome State Fault Refusal :=
  s.issue (.keyhGen x u) fun x s =>
    match s.exe x.g with
    | [] => s.advance x.ext.bytes
    | l :: ts =>
      match s.keyBar u (l :: ts) with
      | 0 => let (s1, key) := s.drawKey; s1.keyNew x l u key
      | k => s.keyGive x l 0 k

/-- `keyh.imp` (R356, R357). -/
def execKeyhImp (x : Opnds) (u : KeyUse) (s : State) : Host.Outcome State Fault Refusal :=
  s.issue (.keyhImp x u) fun x s =>
    match s.exe x.g with
    | [] => s.advance x.ext.bytes
    | l :: ts =>
      let ex := l :: ts
      let len := x.ext.bytes
      let va := s.src x.ext .b64 l x.a
      match s.keyBar u ex with
      | 0 =>
        match addrCheck (.ofNat 64 va) 64 { cause := 0 } with
        | some f => s.uniformFault x f
        | none =>
          match s.load s.cb.who va 64 true false with
          | (s1, .error e) => s1.onceStop (.keyhImp x u) len 0 ex va { cause := 0 } e
          | (s1, .ok (bs, sh)) =>
            let s2 := (s1.countSectors s.cb.who [va]).modCb fun b => b.raise l sh
            let kek := Sparse.look s2.hub.transport s2.cb.hdr.domain
            match kek.bind fun k => Crypto.unwrap k (bs.take 40) with
            | none => s2.keyGive x l 0 2
            | some key =>
              if ofBytes ((bs.drop 40).take 2) != useCode u then s2.keyGive x l 0 2 else s2.keyNew x l u key
      | k => s.keyGive x l 0 k

/-- A sealing command has resolved a handle and has not finished, or the IDE engine of a port in service works with it (R355, R386). -/
def State.keyInUse (s : State) (h : Nat) : Bool :=
  s.hub.ports.any (fun p => !p.2.down && p.2.ide == some h) || (List.range 4).any fun d => (s.die d).bulk.any fun c =>
    match c.kind, c.buf with
    | .sealed _ _, some buf => c.code.isNone && ofBytes ((buf.drop 20).take 4) == h
    | _, _ => false

/-- A handle's slot is revoked: its generation is retired (R355). -/
def State.revokeKey (s : State) (h : Nat) : State :=
  let off (m : Sparse KeySlot) : Sparse KeySlot := m.map fun e => if e.1 == h % 256 then (e.1, { e.2 with live := false, key := 0 }) else e
  s.modHub fun y => if field h 12 2 = 2 then { y with memKeys := off y.memKeys } else { y with keys := off y.keys }

/-- `keyh.rev` (R357): it waits until every engine that resolved the slot has finished (R355). -/
def execKeyhRev (x : Opnds) (s : State) : Host.Outcome State Fault Refusal :=
  s.issue (.keyhRev x) fun x s =>
    match s.exe x.g with
    | [] => s.advance x.ext.bytes
    | l :: _ =>
      let h := s.src x.ext .b32 l x.a
      match s.keyOf h s.cb.hdr.domain none with
      | none => s.keyGive x l 0 3
      | some _ => if s.keyInUse h then s.stall else (s.revokeKey h).keyGive x l 0 0

/-- `keyh.qry` (R357). -/
def execKeyhQry (x : Opnds) (s : State) : Host.Outcome State Fault Refusal :=
  s.issue (.keyhQry x) fun x s =>
    match s.exe x.g with
    | [] => s.advance x.ext.bytes
    | l :: _ =>
      let h := s.src x.ext .b32 l x.a
      match s.keyOf h s.cb.hdr.domain none with
      | none => s.keyGive x l 0 3
      | some k => s.keyGive x l h (k.use * 2 ^ 16)

end Sys2Proof.Machine
end

