-- ==== Sys2Proof/Machine/Snuff.lean ====
section
/-! DEFINITION. Snuff.lean: changes of a granule's owner with their invalidation and zeroing (R349, R350, R353), and the snuff engine
(R307, R352, R353). -/

namespace Sys2Proof.Machine

/-- The first address of a granule (R349). -/
def granuleBase (g : Nat) : Nat := 65536 * g

/-- A granule of HBM4E or of the pool that the hub does not reserve (R347, R349). -/
def granuleReal (g : Nat) : Bool :=
  match placeOf (granuleBase g) with
  | .hbm _ | .pool => true
  | _ => false

/-- The physical range of a cached leaf's page. -/
def TlbLeaf.physical (e : TlbLeaf) : Nat × Nat :=
  let p := pageOf e.pte.toNat e.va 0
  (p.pa, p.size)

/-- A range of physical memory leaves every cache of the package, nothing of it being written back: cached lines of the range in the L2s, and
what is kept of any page that overlaps it (R353). -/
def State.purge (s : State) (lo n : Nat) : State :=
  let gone (e : TlbLeaf) : Bool := bitAt e.pte.toNat 1 && Machine.meets lo n e.physical.1 e.physical.2
  let s := { s with dies := s.dies.map fun (e : Nat × Die) => (e.1, { e.2 with tlb := e.2.tlb.filter fun l => !gone l }) }
  let s := { s with cores := s.cores.map fun (e : Nat × Core) => (e.1, { e.2 with
      tlb := e.2.tlb.filter fun l => !gone l
      l1 := e.2.l1.filter fun l => !Machine.meets lo n (l.pa - (256 * l.line - l.page)) l.size
      icache := e.2.icache.filter fun l => !Machine.meets lo n l.pa l.size }) }
  let s := s.unwatch fun _ _ size pa => Machine.meets lo n pa size
  let s := caches.foldl (fun s d => s.dropL2 d lo n) s
  s.modHub fun h => { h with
    dir := h.dir.filter fun e => !Machine.meets lo n (256 * e.1) 256
    inflight := h.inflight.filter fun e => !Machine.meets lo n e.pa e.bytes.length
    applied := h.applied.filter fun e => !(lo ≤ e.pa && e.pa < lo + n)
    heldEvict := h.heldEvict.filter fun e => !(lo ≤ e.pa && e.pa < lo + n) }

/-- A range of physical memory holds zeros, and no poison: a write of the hub (R353, R368, R379). Once it is purged every
view of it is its home's. -/
def State.zeroRange (s : State) (lo n : Nat) : State :=
  (State.stamp { s with
    mem := s.mem.filter fun e => !(lo ≤ e.1 && e.1 < lo + n)
    poison := s.poison.filter fun e => !(lo ≤ 64 * e.1 && 64 * e.1 < lo + n) } 4).1

/-- A granule is purged and zeroed, and takes its new owner (R353): what `snuff` and the snuff engine do with each. -/
def State.giveGranule (s : State) (g code : Nat) : State :=
  ((s.purge (granuleBase g) 65536).zeroRange (granuleBase g) 65536).modHub fun h => { h with
    owner := Sparse.putOr h.owner g code 0x12
    frames := h.frames.filter fun e => e.1 / 16 != g }

/-- The key of a sector's controller (R350): its owner's memory key, or the package memory key for the codes that name no domain; none where
the domain has none. -/
def State.sectorKey (s : State) (k : Nat) : Option Nat :=
  let o := s.owner (64 * k)
  if o < 16 then ((Sparse.look s.hub.memKeys o).filter (·.live)).map (·.key) else some s.hub.pkgKey

/-- A sector as DRAM holds it (R350): the model keeps the plaintext that every agent reads, and this is what stands behind it (log
entry 5). The tweak is address bits [51:6]. -/
def State.stored (s : State) (k : Nat) : Option (List Byte) :=
  (s.sectorKey k).map fun key => Crypto.xts false key (Config.tweakKey key) (k % 2 ^ 46) (s.mem.bytes (64 * k) 64)

/-- An access that used a cached translation of a page that overlaps a granule is still on its way. -/
def State.granuleBusy (s : State) (g : Nat) : Bool :=
  let leaves := (s.dies.flatMap fun e => e.2.tlb) ++ s.cores.flatMap fun e => e.2.tlb
  let pages := (granuleBase g, 65536) :: (leaves.filter fun e =>
    bitAt e.pte.toNat 1 && Machine.meets (granuleBase g) 65536 e.physical.1 e.physical.2).map TlbLeaf.physical
  s.hub.inflight.any (fun e => !e.external && pages.any fun p => Machine.meets p.1 p.2 e.pa e.bytes.length)
    || (List.range 4).any fun d => (s.die d).bank.any fun k => k.pages.any fun p => Machine.meets (granuleBase g) 65536 p.2.2 p.2.1

/-- The granules of a `snuff` from g on (R353): how many were done, and the status: 0 OK, 1 NOT_OWNER, 2 LEASED, 3 RANGE. -/
def State.snuffRun (q o : Nat) : Nat → Nat → Nat → State → State × Nat × Nat
  | 0, _, done, s => (s, done, 0)
  | n + 1, g, done, s =>
    if !granuleReal g then (s, done, 3)
    else
      let w := s.granuleOwner g
      if (w == q && o == 0x12) || (w == 0x12 && o == q) then State.snuffRun q o n (g + 1) (done + 1) (s.giveGranule g o)
      else (s, done, if w = 0x11 then 2 else 1)

/-- `snuff` (R353). -/
def execSnuff (x : Opnds) (s : State) : Host.Outcome State Fault Refusal :=
  s.issue (.snuff x) fun x s =>
    let ex := s.exe x.g
    let len := x.ext.bytes
    match ex with
    | [] => s.advance len
    | l :: _ =>
      let a := s.src x.ext .b64 l x.a
      let n := s.src x.ext .b32 l x.b
      let o := s.src x.ext .b32 l x.c
      if n < 1 || 65536 < n then s.uniformFault x { cause := 2 }
      else if !s.service ex then s.uniformFault x { cause := 0x1A }
      else if a % 65536 != 0 then s.uniformFault x { cause := 0x10, addr := .ofNat 64 a }
      else if (List.range n).any fun k => s.granuleBusy (a / 65536 + k) then s.stall
      else
        let (s1, done, st) := State.snuffRun s.cb.hdr.domain o n (a / 65536) 0 s
        ((s1.advance len).write x.d 2 [(l, done + st * 2 ^ 32)]).irrevoke s.sel.blk

/-- Frames that `publ` released are zeroed and rejoin a pool (R307). -/
def State.zeroFrame (s : State) (e : Nat × Nat) : State :=
  let s := (s.purge (4096 * e.2) 4096).zeroRange (4096 * e.2) 4096
  (s.modHub fun h => { h with zeroFrames := h.zeroFrames.erase e }).modDie e.1 fun d => { d with pool := d.pool ++ [e.2] }

/-- SNUFF_ENGINE_ZERO (R307, R353): the engine zeroes a granule that the package kernel reassigns, or the released frames in it. -/
def execSnuffEngineZero (granule : Nat) (s : State) : Host.Outcome State Fault Refusal :=
  if s.granuleBusy granule then .next s
  else
    match s.hub.zeroing.find? fun e => e.1 == granule with
    | some e => .next ((s.giveGranule granule e.2).modHub fun h => { h with zeroing := h.zeroing.erase e })
    | none => .next ((s.hub.zeroFrames.filter fun e => e.2 / 16 == granule).foldl State.zeroFrame s)

end Sys2Proof.Machine
end

