-- ==== Sys2Proof/Machine/Warm.lean ====
section
/-! DEFINITION. Warm.lean: the reset of one die (R363 to R365, R414). -/

namespace Sys2Proof.Machine

/-- The resident and the saved blocks that a test picks. -/
def State.liveBlocks (s : State) (p : Block → Bool) : List Nat :=
  (s.blocks.filter fun e => (e.2.state.resident || e.2.state == .saved) && p e.2).map (·.1)

/-- Blocks are killed with a fatal cause (R149). -/
def State.killAll (s : State) (ids : List Nat) (cause : Nat) : State := ids.foldl (fun s b => s.kill b cause 0 0) s

/-- The masked bytes of a die's L2 go home, each at a slot that serves it (R354), and its caches are lost (R364 step 1, R365). -/
def State.emptyCaches (s : State) (d : Nat) : State :=
  let s := (s.cleanRange d 0 (2 ^ 52) []).dropL2 d 0 (2 ^ 52)
  { s with cores := s.cores.map fun (e : Nat × Core) => if e.1 / 48 == d then (e.1, { e.2 with l1 := [], icache := [] }) else e }

/-- What the engines of a die had still to do for killed blocks is discarded, and the blocks are gone (R364 step 1). -/
def State.discardWork (s : State) (d : Nat) : State :=
  let s := s.modDie d fun x => { x with bulk := [], kcopies := [], bank := [], pilots := [], polls := [] }
  ((s.blocks.filter fun e => e.2.core / 48 == d && e.2.draining).map (·.1)).foldl (fun s b =>
    (s.modBlk b fun x => { x with copies := [], slices := [], bundles := x.bundles.map fun u => { u with oplog := [] } }).endKilled b) s

/-- THE WARM RESET OF A DIE BEGINS (R364 step 1): its blocks are killed and its engines' work is discarded. -/
def State.startReset (s : State) (d : Nat) : State :=
  let s := s.modDie d fun x => { x with warm := { step := 1, tries := 0 } }
  (s.killAll (s.liveBlocks fun b => b.core / 48 == d) 0x46).discardWork d

/-- A die of the package is under reset. -/
def State.resetting (s : State) : Bool := (List.range 4).any fun d => 1 ≤ (s.die d).warm.step && (s.die d).warm.step ≤ 5

/-- The die under reset; there is at most one (R363). -/
def State.underReset (s : State) : Option Nat := (List.range 4).find? fun d => 1 ≤ (s.die d).warm.step && (s.die d).warm.step ≤ 5

/-- The answer of `diectl.reset` (R363), in the order in which the rule lists its codes. -/
def State.resetAnswer (s : State) (d : Nat) : Nat :=
  if s.resetting then 1
  else if d = s.cd then 2
  else if d ≤ 3 && (s.die d).warm.step == 6 then 3
  else if 3 < d then 4
  else 0

/-- A form of `diectl` (R363). -/
def State.diectl (s : State) (i : Instr) (f : Opnds → State → Nat → Nat → State) : Host.Outcome State Fault Refusal :=
  s.issue i fun x s =>
    match s.exe x.g with
    | [] => s.advance x.ext.bytes
    | l :: ts =>
      if !s.service (l :: ts) then s.uniformFault x { cause := 0x1A }
      else (f x s l (s.src x.ext .b32 l x.a)).irrevoke s.sel.blk

/-- `diectl.reset` (R363). -/
def execDiectlReset (x : Opnds) (s : State) : Host.Outcome State Fault Refusal :=
  s.diectl (.diectlReset x) fun x s l d =>
    let k := s.resetAnswer d
    let s1 := (s.advance x.ext.bytes).write x.d 1 [(l, k)]
    if k = 0 then s1.startReset d else s1

/-- `diectl.stat` (R363). -/
def execDiectlStat (x : Opnds) (s : State) : Host.Outcome State Fault Refusal :=
  s.diectl (.diectlStat x) fun x s l d =>
    let k := s.die d
    (s.advance x.ext.bytes).write x.d 1 [(l, if d ≤ 3 then k.warm.step + k.incarnation.toNat * 2 ^ 16 else 0)]

/-- WARM_RESET_BY_P (R363): P starts the sequence, if no die is under reset and the die is in service. -/
def execWarmResetByP (die : Nat) (s : State) : Host.Outcome State Fault Refusal :=
  .next (if s.resetting || 3 < die || (s.die die).warm.step != 0 then s else s.startReset die)

/-- The HBM4E of a die (R347). -/
def hbmBase (d : Nat) : Nat := d * 2 ^ 37

/-- A line of a die's homes is invalidated wherever it is held (R364 step 2); masked bytes go home at a slot that serves them (R354). -/
def State.dropLine (s : State) (line : Nat) : State :=
  let s := caches.foldl (fun s k => (s.cleanRange k (256 * line) 256 []).dropL2 k (256 * line) 256) s
  s.modHub fun h => { h with dir := Sparse.del h.dir line }

/-- A step of a warm reset that writes bytes back is over once none of them waits for its slot (R354, R364); what a home refuses stays held. -/
def State.endStep (s : State) (die step : Nat) (p : Held → Bool) : State :=
  if s.hub.heldEvict.any fun e => p e && !s.refuses e.pa then s
  else s.modDie die fun x => { x with warm := { x.warm with step := step } }

/-- WARM_RESET_WRITE_BACK (R364 steps 1 to 3): step 1 is over once the die's L2 is written back, and step 2 begins; at its end the other dies and P have written back
what the die is the home of, its directory slice has invalidated its lines, and from then on its homes refuse. -/
def State.resetWriteBack (s : State) (die : Nat) : State :=
  let w := (s.die die).warm
  if w.step == 1 then (s.emptyCaches die).endStep die 2 fun e => e.holder == die
  else if w.step != 2 then s
  else
    let s := caches.foldl (fun s k => if k = die then s else s.cleanRange k (hbmBase die) (2 ^ 37) []) s
    let lines := (s.hub.dir.filter fun e => homeAgent (256 * e.1) == die).map (·.1)
    (lines.foldl State.dropLine s).endStep die 3 fun e => homeAgent e.pa == die

/-- WARM_RESET_WRITE_BACK, on the die under reset. -/
def execWarmResetWriteBack (s : State) : Host.Outcome State Fault Refusal := .next ((s.underReset.map s.resetWriteBack).getD s)

/-- A core after its die's reset: retired banks, and whether it is in service, stay until a cold boot (R365, R414); so do the registers
that the package kernel sets. -/
def Core.dieReset (k : Core) : Core :=
  { Core.reset with scratch := { Scratchpad.reset with retired := k.scratch.retired }, jrnbase := k.jrnbase, jrnsize := k.jrnsize
                    inService := k.inService }

/-- DIE RESET (R365, R414): what a die keeps is its clock rate, its work queues' assignments, its shadow pool, its shadows' generations
and its warm-reset state. -/
def Die.dieReset (d : Die) : Die :=
  { Die.reset with
    mhz := d.mhz, hot := d.hot, wqs := d.wqs.map fun e => (e.1, { WorkQueue.reset with owner := e.2.owner })
    shadows := d.shadows.map fun e => (e.1, { e.2 with opened := false, pages := [], copying := none })
    pool := d.pool, bulkNext := d.bulkNext, bankNext := d.bankNext
    stores := (d.stores.filter fun e => e.key < 64).map fun e => { e with waitSeq := none }, warm := d.warm, incarnation := d.incarnation }

/-- A die is reset (R414): its open shadows' frames go to the snuff engine (R365), and what waited on its records is tried again. -/
def State.dieReset (s : State) (d : Nat) : State :=
  let frames := (s.die d).shadows.flatMap fun e => if e.2.opened then framesOf e.2.pages else []
  let s := s.modDie d Die.dieReset
  let s := { s with
    cores := s.cores.map fun (e : Nat × Core) => if e.1 / 48 == d then (e.1, e.2.dieReset) else e
    parts := s.parts.filter fun e => e.1 / 192 != d
    clusters := s.clusters.filter fun e => e.1 / 12 != d
    grids := s.grids.map fun (e : Nat × Grid) =>
      if e.2.die == d then (e.1, { e.2 with batch := none, waitSeq := none, cancelled := false }) else e }
  s.modHub fun h => { h with
    zeroFrames := h.zeroFrames ++ frames.map fun f => (d, f)
    frames := frames.foldl (fun (m : Sparse Nat) f => Sparse.put m f 0x10) h.frames
    queues := h.queues.map fun (e : Nat × Queue) =>
      if e.2.cfg.die == d then (e.1, { e.2 with waitSeq := none, cancelled := false }) else e
    inflight := h.inflight.filter fun e => e.target != d || homeAgent e.pa == d
    applied := h.applied.filter fun e => e.agent != d
    dir := h.dir.map fun (e : Nat × DirLine) =>
      (e.1, { owner := e.2.owner.filter (· != d), holders := e.2.holders.filter (· != d) }) }

/-- WARM_RESET_RETRAIN (R364 step 4, R414): step 4 begins with the die's reset; then a try at retraining ends; the third that fails puts the
die out of service. -/
def State.resetRetrain (s : State) (ok : Bool) (die : Nat) : State :=
  let w := (s.die die).warm
  if w.step == 3 then (s.dieReset die).modDie die fun x => { x with warm := { w with step := 4 } }
  else if w.step != 4 then s
  else if ok then s.modDie die fun x => { x with warm := { step := 5, tries := 0 } }
  else s.modDie die fun x => { x with warm := { step := if w.tries = 2 then 6 else 4, tries := w.tries + 1 } }

/-- WARM_RESET_RETRAIN, on the die under reset. -/
def execWarmResetRetrain (ok : Bool) (s : State) : Host.Outcome State Fault Refusal :=
  .next ((s.underReset.map (s.resetRetrain ok)).getD s)

/-- Restartable faults of a cause that wait unrecorded on a die are released as if recorded (R271, R273). -/
def State.releaseDeferred (s : State) (d : Nat) (cause : Half) : State :=
  ((s.die d).deferred.filter fun f => f.body.cause == cause).foldl (fun s f =>
    let x := (s.die d).fbNext
    ((s.modDie d fun y => { y with deferred := y.deferred.erase f }).tellWaiter d f.who x).releaseRecord d x false fun _ => false) s

/-- Records of a cause on a die are released: what waited on them is replayed (R273). -/
def State.releaseCause (s : State) (d : Nat) (cause : Half) : State :=
  let xs := ((s.die d).fb.filter fun e => match e.body with
    | .restart r => r.cause == cause
    | _ => false).map (·.seq)
  (xs.foldl (fun s x => s.releaseRecord d x false fun _ => false) s).releaseDeferred d cause

/-- Every armed `waitcmp` whose line is homed on a die is re-checked once (R286). -/
def State.recheckHome (s : State) (die : Nat) : State :=
  ((List.range 4).flatMap fun d => (s.die d).pilots).foldl (fun s e =>
    match ((s.blk e.blk).thr e.thr).watching.1 with
    | .waitcmp _ none _ _ pa _ _ _ => if homeAgent pa == die then s.recheck e.blk e.thr else s
    | _ => s) s

/-- WARM_RESET_READMIT (R286, R364 step 5): a new incarnation; the clock is the maximum of the others'; held evictions are written; HOME_RESET
records are released; armed waits are re-checked; the die's queues resume. -/
def State.resetReadmit (s : State) (die : Nat) : State :=
  if (s.die die).warm.step != 5 then s
  else
    let s := s.modDie die fun x => { x with warm := { step := 0, tries := 0 }, incarnation := x.incarnation + 1 }
    let others := (List.range 6).filter (· != die)
    let s := s.setClock die (others.foldl (fun c a => clockMax c (s.vclock a)) (List.replicate 6 0))
    let s := s.sendHeld fun e => homeAgent e.pa == die && s.served e.holder e.pa
    ((List.range 4).foldl (fun s d => s.releaseCause d 0x53) s).recheckHome die

/-- WARM_RESET_READMIT, on the die under reset. -/
def execWarmResetReadmit (s : State) : Host.Outcome State Fault Refusal := .next ((s.underReset.map s.resetReadmit).getD s)

end Sys2Proof.Machine
end

