-- ==== Sys2Proof/Machine/Power.lean ====
section
/-! DEFINITION. Power.lean: the kernel store and its images (R404), `halt`, power and cold boot (R292, R359 to R362, R366), the links and
ports (R346, R385) and SPDM (R356, R358). -/

namespace Sys2Proof.Machine

/-! ### Ranks (R402) -/

/-- Ranks compare by term, then priority, then serial (R402). -/
def rankLt (a b : Rank) : Bool :=
  a.term < b.term || (a.term == b.term && (a.prio < b.prio || (a.prio == b.prio && a.serial < b.serial)))

/-- The package's own rank. -/
def Hub.ownRank (h : Hub) : Rank := { term := h.term, prio := h.prio, serial := Config.serial }

/-! ### The kernel image (R404) -/

/-- A little-endian field of a manifest. -/
def manifestField (m : List Byte) (lo n : Nat) : Nat := ofBytes ((m.drop lo).take n)

/-- The chunk count of a manifest. -/
def manifestChunks (m : List Byte) : Nat := manifestField m 20 4

/-- The version of a manifest. -/
def manifestVersion (m : List Byte) : Nat := manifestField m 4 4

/-- A manifest verifies and its version is not below the first stage's minimum (R404). -/
def manifestOk (m : List Byte) : Bool :=
  let n := manifestChunks m
  manifestField m 0 4 == 0x4D4B5856 && 1 ≤ n && n ≤ 4096 && 16 ≤ manifestField m 16 4 && manifestField m 16 4 ≤ 24
    && ((m.drop 24).take 40).all (· == 0) && m.length == 64 + 32 * n + 384
    && Crypto.pssVerify Config.kernelModulus Config.kernelExponent Config.pssSaltLength (m.take (64 + 32 * n)) (m.drop (64 + 32 * n))
    && decide (Config.firstStageMinVersion ≤ manifestVersion m)

/-- A chunk's bytes have the hash that the manifest gives it. -/
def chunkOk (m : List Byte) (i : Nat) (bs : List Byte) : Bool :=
  decide (i < manifestChunks m) && Crypto.sha256 bs == (m.drop (64 + 32 * i)).take 32

/-- Every chunk is there. -/
def Kernel.full (k : Kernel) : Bool := (List.range (manifestChunks k.manifest)).all fun i => (Sparse.look k.chunks i).isSome

/-- The package boots from a stored kernel (R404). -/
def Kernel.boots (k : Kernel) : Bool := manifestOk k.manifest && k.full && k.chunks.all fun e => chunkOk k.manifest e.1 e.2

/-- The bytes of a manifest's chunks (R404): 2^16 to 2^24. -/
def chunkSize (m : List Byte) : Nat := 2 ^ manifestField m 16 4

/-- The granules of a manifest's staging extent. -/
def stagingGranules (m : List Byte) : Nat := manifestChunks m * chunkSize m / 65536

/-- The first granule of a run of n free granules of the pool (DESIGN CHOICE, log entry 49: the lowest run that begins at the pool's base or
right after a granule with an owner). -/
def State.freeRun (s : State) (n : Nat) : Option Nat :=
  let lo := 2 ^ 41 / 65536
  let hi := (2 ^ 42 - 2 ^ 26) / 65536
  (lo :: s.hub.owner.keys.map (· + 1)).find? fun g =>
    lo ≤ g && g + n ≤ hi && !(s.hub.owner.any fun e => g ≤ e.1 && e.1 < g + n && e.2 != 0x12)

/-- A kernel is staged whole (R404). -/
def Staging.full (k : Staging) : Bool := (List.range (manifestChunks k.manifest)).all k.got.keys.contains

/-- A staged kernel as it lies in its extent. -/
def State.stagedKernel (s : State) (k : Staging) : Kernel :=
  { manifest := k.manifest, chunks := k.got.map fun e => (e.1, s.mem.bytes (k.base + e.1 * chunkSize k.manifest) e.2) }

/-- A kernel is activated, and stored if its image is at most 1 GiB long (R404). -/
def State.activate (s : State) (k : Staging) : State :=
  let store := s.stagedKernel k
  s.modHub fun h => { h with
    running := some (manifestVersion k.manifest), staging := none, ready := false
    store := if manifestField k.manifest 8 8 ≤ 2 ^ 30 then some store else h.store }

/-- MANIFEST_RECEIVED (R404): a manifest that verifies is accepted, and its chunks are then staged in an extent of the pool that the package
kernel owns; one staged already is kept. -/
def execManifestReceived (bytes : List Byte) (s : State) : Host.Outcome State Fault Refusal :=
  if !manifestOk bytes || s.hub.staging.any (fun k => k.manifest == bytes) then .next s
  else
    let n := stagingGranules bytes
    match s.freeRun n with
    | none => .next s
    | some g =>
      .next (((List.range n).foldl (fun s k => s.giveGranule (g + k) 0x10) s).modHub fun h => { h with
        staging := some { manifest := bytes, base := 65536 * g, got := [] }, ready := false })

/-- CHUNK_RECEIVED (R404): a chunk whose hash matches is written and its bit set. The last one makes the kernel ready: it is activated where
no kernel runs yet, and otherwise at the kernel's next restart. -/
def execChunkReceived (i : Nat) (bytes : List Byte) (s : State) : Host.Outcome State Fault Refusal :=
  match s.hub.staging with
  | none => .next s
  | some k =>
    if !chunkOk k.manifest i bytes || chunkSize k.manifest < bytes.length then .next s
    else
      let k := { k with got := Sparse.put k.got i bytes.length }
      let s := s.homeWrite (k.base + i * chunkSize k.manifest) bytes false
      if !k.full then .next (s.modHub fun h => { h with staging := some k })
      else if s.hub.running.isNone then .next (s.activate k)
      else .next (s.modHub fun h => { h with staging := some k, ready := true })

/-- The image that the package distributes as beacon (R404): the one that its kernel has given it, or, where it became beacon as a follower, what
it has staged or stored itself. -/
def State.beaconImage (s : State) : Option Kernel :=
  (s.hub.image.or (s.hub.staging.map s.stagedKernel)).or s.hub.store

/-- The beacon multicasts chunks of the image that it distributes (R404). -/
def State.multicast (s : State) (p : Nat → Bool) : State :=
  match s.beaconImage with
  | none => s
  | some k => (k.chunks.filter fun e => p e.1).foldl (fun s e => s.send (.chunk s.hub.ownRank e.1 e.2)) s

/-- CHUNK_BITMAP_READ (R404): a beacon reads the bitmap of the chunks staged here, and is answered; or a follower's answer reaches this
package, which as beacon multicasts the chunks that are missing there. -/
def execChunkBitmapRead (m : BitmapRead) (s : State) : Host.Outcome State Fault Refusal :=
  .next (match m.answer with
    | none => s.send (.bitmap m.sender ((s.hub.staging.map (·.got.keys)).getD []))
    | some got => if s.hub.role == .beacon then s.multicast fun i => !got.contains i else s)

/-- The package distributes an image as beacon: its manifest goes out, then the chunks that the package has (R404). -/
def State.distribute (s : State) (manifest : List Byte) (chunks : List (Nat × List Byte)) : State :=
  if s.hub.role != .beacon then s
  else
    let k : Kernel := { manifest := manifest, chunks := chunks.foldl (fun (m : Sparse (List Byte)) e => Sparse.put m e.1 e.2) [] }
    ((s.modHub fun h => { h with image := some k }).send (.manifest s.hub.ownRank manifest)).multicast fun _ => true

/-- A beacon asks every other package of the roster for its bitmap (R404). -/
def State.readBitmaps (s : State) : State :=
  if s.hub.role != .beacon then s
  else (s.hub.roster.filter (· != s.hub.pkgId)).foldl (fun s f => s.send (.bitmapAsk s.hub.ownRank f)) s

/-! ### Links and ports (R346, R385, R405) -/

/-- The name of the far end of a port's own link, above every package identifier. -/
def portEnd (port : Nat) : Nat := 4096 + port

/-- The sequence number that the package's next update of a link takes (R405). -/
def State.linkSeq (s : State) (a b : Nat) : Word := ((s.hub.links.find? fun l => l.a == a && l.b == b).map (·.seq + 1)).getD 1

/-- A link-state update is held and sent on (R405). -/
def State.holdLink (s : State) (a b : Nat) (live : Bool) (seq : Word) : State :=
  (s.modHub fun h => { h with
    links := { a := a, b := b, live := live, seq := seq } :: h.links.filter fun l => !(l.a == a && l.b == b) }).send (.linkState a b live seq)

/-- Every outstanding request starts its drain: any of them could have crossed the link (R406). -/
def State.startDrain (s : State) (link : Nat) : State :=
  s.modHub fun h => { h with reqs := h.reqs.map fun r => if r.drain.isNone && !r.lost then { r with drain := some (link, 0) } else r }

/-- A request is sent again under a tag of its own (R406). -/
def State.resend (s : State) (r : FabricReq) : State :=
  let tag := s.hub.tagNext
  (s.modHub fun h => { h with
    reqs := h.reqs.map fun x => if x.tag == r.tag then { x with tag := tag, drain := none, lost := false } else x
    tagNext := tag + 1 }).send (s.asking tag r.slot r.page r.what)

/-- A request carries a write. -/
def Asked.isWrite : Asked → Bool
  | .write .. => true
  | _ => false

/-- A path is there again: of the requests that were lost for want of one the writes are sent again, and the others may be made anew (R406). -/
def State.forgetLost (s : State) : State :=
  let gone (r : FabricReq) : Bool := r.lost && (s.borrow r.slot).state != 4
  let s1 := s.modHub fun h => { h with reqs := h.reqs.filter fun r => !gone r || r.what.isWrite }
  (s.hub.reqs.filter fun r => gone r && r.what.isWrite).foldl State.resend s1

/-- A port goes down (R385, R405, R406). -/
def State.portDown (s : State) (port : Nat) : State :=
  let s := s.modHub fun h => { h with ports := Sparse.put h.ports port { rate := 0, down := true, vexdun := false, ide := none } }
  (s.holdLink s.hub.pkgId (portEnd port) false (s.linkSeq s.hub.pkgId (portEnd port))).startDrain (portEnd port)

/-- PORT_TRAINING_FAIL (R385): a port whose training failed three times in a row is down. -/
def execPortTrainingFail (port : Nat) (s : State) : Host.Outcome State Fault Refusal :=
  if 24 ≤ port || (Sparse.look s.hub.ports port).any (·.down) then .next s else .next (s.portDown port)

/-- PORT_RETRAIN (R11, R385): the package kernel trains a port: it is in service at 128 GT/s where its partner has identified itself as a
Vexdun part, and otherwise at 64 or less. -/
def execPortRetrain (port : Nat) (t : Training) (s : State) : Host.Outcome State Fault Refusal :=
  let ok := if t.vexdun then t.rate == 128 else decide (0 < t.rate) && decide (t.rate ≤ 64)
  if 24 ≤ port || !ok || (Sparse.look s.hub.ports port).any (fun p => !p.down) then .next s
  else
    let s := (s.modHub fun h => { h with
      ports := Sparse.put h.ports port { rate := t.rate, down := false, vexdun := t.vexdun, ide := none } }).forgetLost
    .next (s.holdLink s.hub.pkgId (portEnd port) true (s.linkSeq s.hub.pkgId (portEnd port)))

/-- The IDE engine of a port in service takes a live IDE key by its handle, or none (R355, R386). -/
def State.portIde (s : State) (port handle : Nat) : State :=
  match Sparse.look s.hub.ports port with
  | none => s
  | some p =>
    if p.down || !(handle == 0 || (s.keyOf handle (field handle 8 4) (some 1)).isSome) then s
    else s.modHub fun h => { h with ports := Sparse.put h.ports port { p with ide := if handle = 0 then none else some handle } }

/-- The links of a die (R345): 0 to 3 are C0–C1, C2–C3, C0–C2 and C1–C3, 4 to 7 the hub's to C0 to C3. -/
def dieLinks (d : Nat) : List Nat :=
  match d with
  | 0 => [0, 2, 4]
  | 1 => [0, 3, 5]
  | 2 => [1, 2, 6]
  | _ => [1, 3, 7]

/-- A die that no link reaches is out of service, as after a warm reset that failed (R346, R364). -/
def State.cutOff (s : State) (d : Nat) : State :=
  if (dieLinks d).all (fun l => s.hub.linksDown.contains l) && (s.die d).warm.step != 6 then
    let s := s.killAll (s.liveBlocks fun b => b.core / 48 == d) 0x46
    let s := ((s.discardWork d).writeBack d (hbmBase d) (2 ^ 37)).emptyCaches d
    s.modDie d fun x => { x with warm := { step := 6, tries := 3 } }
  else s

/-- BIRLUX_LINK_DOWN (R346): the Lamplighter logs it; traffic goes through the hub, with no change to any result. -/
def execBirluxLinkDown (link : Nat) (s : State) : Host.Outcome State Fault Refusal :=
  if 8 ≤ link || s.hub.linksDown.contains link then .next s
  else
    let s := (s.modHub fun h => { h with linksDown := h.linksDown ++ [link] }).lampLog 4 .linkDown [link]
    .next ((List.range 4).foldl State.cutOff s)

/-! ### Power (R292, R359, R360, R366) -/

/-- Global Persistent Flush (R292): every store that has completed at its device is durable; of one that has not, nothing is (DESIGN CHOICE,
log entry 50). -/
def State.flushPersistent (s : State) : State :=
  let mem := s.hub.durable.foldl (fun (m : Memory) (e : Nat × Byte) => m.setByte e.1 e.2) s.mem
  (State.modHub { s with mem := mem } fun h => { h with persists := [], durable := [] }).send .flush

/-- HALT (R360, R366 steps 2 to 5): queues stop; every block is killed; borrowed extents are written back; Global Persistent Flush;
the ports go down; the Lamplighter logs it and removes power. -/
def State.haltPackage (s : State) (p : Power) (event : LogEvent) (data : List Nat) : State :=
  let s := s.modHub fun h => { h with queues := h.queues.map fun q => (q.1, { q.2 with halted := true }) }
  let s := s.killAll (s.liveBlocks fun _ => true) 0x47
  let s := s.sendHeld fun e => aliasBase 0 ≤ e.pa
  let s := caches.foldl (fun s d => s.writeBack d (aliasBase 0) (2 ^ 50)) s
  let s := s.flushPersistent
  let s := (s.hub.ports.keys).foldl (fun s k => if (Sparse.look s.hub.ports k).any (·.down) then s else s.portDown k) s
  (s.lampLog 4 event data).modHub fun h => { h with power := p }

/-- A form of `halt` (R366): handler level 2 and the domain's bit in `svcdom` are both needed. -/
def State.haltOp (s : State) (i : Instr) (p : Power) : Host.Outcome State Fault Refusal :=
  s.issue i fun x s =>
    let ex := s.exe x.g
    if ex.isEmpty then s.advance x.ext.bytes
    else if !((s.die s.cd).svcdom.getLsbD s.cb.hdr.domain && ex.all fun t => (s.cb.thr t).level == 2) then
      s.uniformFault x { cause := 0x1A }
    else
      match s.lanesPerformed s.sel.blk ex with
      | none => s.stall
      | some s1 => s1.haltPackage p .halt [if p == .off then 0 else 1]

/-- `halt.off` (R366). -/
def execHaltOff (x : Opnds) (s : State) : Host.Outcome State Fault Refusal := s.haltOp (.haltOff x) .off

/-- `halt.reboot` (R366). -/
def execHaltReboot (x : Opnds) (s : State) : Host.Outcome State Fault Refusal := s.haltOp (.haltReboot x) .reboot

/-- A die's core clock changes. Bounds in wall time do not change with it (R7, R359): the clocks left of a pre-emption timer are rescaled. -/
def State.setMhz (s : State) (d m : Nat) : State :=
  let x := s.die d
  let s := { s with blocks := s.blocks.map fun (e : Nat × Block) =>
    if e.2.core / 48 == d then
      (e.1, { e.2 with preemptDue := e.2.preemptDue.map fun t => x.clk + ceilDiv ((t - x.clk) * m) x.mhz })
    else e }
  s.modDie d fun y => { y with mhz := m }

/-- POWER_INTERVAL (R359): above 3,000 W every clock falls by 50 MHz, down to 1.0 GHz; below 2,900 W it rises, up to 2.2 GHz. A die held
by its temperature stays at 1.0 GHz (R360). -/
def execPowerInterval (watts : Nat) (s : State) : Host.Outcome State Fault Refusal :=
  let next (x : Die) : Nat :=
    if !x.hot.isEmpty then x.mhz
    else if 3000 < watts then max 1000 (x.mhz - 50)
    else if watts < 2900 then min 2200 (x.mhz + 50)
    else x.mhz
  let moved := (List.range 4).filter fun d => next (s.die d) != (s.die d).mhz
  let s1 := moved.foldl (fun s d => s.setMhz d (next (s.die d))) s
  .next (if moved.isEmpty then s1 else s1.lampLog 4 .power [watts])

/-- THERMAL_TRIP (R360): a temperature of a die, sensor 0, or of one of its stacks, 1 or 2. The die is held until every sensor that was above
105 °C has fallen below 100 °C. -/
def execThermalTrip (die : Nat) (r : Reading) (s : State) : Host.Outcome State Fault Refusal :=
  let sensor := r.sensor
  let celsius := r.celsius
  if 4 ≤ die || 3 ≤ sensor then .next s
  else if 115 < celsius then .next (s.haltPackage .off .thermal [die, sensor, celsius])
  else if 105 < celsius then
    if (s.die die).hot.contains sensor then .next s
    else .next (((s.modDie die fun x => { x with hot := x.hot ++ [sensor] }).setMhz die 1000).lampLog 4 .thermal [die, sensor, celsius])
  else if celsius < 100 then .next (s.modDie die fun x => { x with hot := x.hot.filter (· != sensor) })
  else .next s

/-- POWER_LOSS (R292, R360): the hub triggers Global Persistent Flush; then nothing runs. -/
def execPowerLoss (s : State) : Host.Outcome State Fault Refusal :=
  .next (s.flushPersistent.modHub fun h => { h with power := .off })

/-! ### Images and cold boot (R361, R362) -/

/-- An image is accepted (R361). -/
def Hub.imageOk (h : Hub) (i : Image) : Bool :=
  Crypto.pssVerify Config.vexdunModulus Config.vexdunExponent Config.pssSaltLength i.bytes i.signature
    && decide (h.rollback ≤ i.version)

/-- The active image verifies (R361, R362 step 1). A bank that no update has written holds the image that the package was delivered with (log
entry 49). -/
def Hub.bootOk (h : Hub) : Bool :=
  match if h.activeB then h.bankB else h.bankA with
  | some i => h.imageOk i
  | none => decide (h.rollback ≤ Config.deliveredVersion)

/-- IMAGE_UPDATE (R361): an accepted image is written to the inactive bank and marked pending. -/
def execImageUpdate (i : Image) (s : State) : Host.Outcome State Fault Refusal :=
  if !s.hub.imageOk i then .next s
  else
    let put (h : Hub) : Hub := if h.activeB then { h with bankA := some i } else { h with bankB := some i }
    .next ((s.modHub fun h => { put h with pending := true, trying := false, bootFails := 0 }).lampLog 4 .image [i.version])

/-- IMAGE_CONFIRM (R361): the package kernel confirms the image being tried, and the rollback counter advances. -/
def execImageConfirm (s : State) : Host.Outcome State Fault Refusal :=
  if s.hub.trying && s.hub.running.isSome then
    .next (s.modHub fun h => { h with trying := false, bootFails := 0, rollback := h.rollback + 1 })
  else .next s

/-- Which bank a cold boot starts from (R361): a pending one is tried; after three boots that failed to reach the package kernel the other
becomes active again. -/
def Hub.chooseBank (h : Hub) : Hub :=
  if h.pending then { h with activeB := !h.activeB, pending := false, trying := true, bootFails := 0 }
  else if h.trying && h.running.isNone then
    if h.bootFails = 2 then { h with activeB := !h.activeB, trying := false, bootFails := 0 } else { h with bootFails := h.bootFails + 1 }
  else h

/-- What a cold boot keeps of the hub: the stores of R360 and the fuses; every key is new (R362). -/
def Hub.coldBoot (h : Hub) (key : Nat) : Hub :=
  { Hub.reset with
    log := h.log, logNext := h.logNext, bankA := h.bankA, bankB := h.bankB, activeB := h.activeB, pending := h.pending
    trying := h.trying, bootFails := h.bootFails, rollback := h.rollback, store := h.store
    incarnation := if h.incarnation = 0xFFFF then 1 else h.incarnation + 1
    pkgKey := key, sent := h.sent
    running := (h.store.filter Kernel.boots).map fun k => manifestVersion k.manifest }

/-- COLD_BOOT (R2, R362): rails come up; where the active image verifies the package starts as at reset; what lay in its memories cannot be
read any more, and the devices on its ports keep theirs. An image that does not verify does not start: the boot has failed to reach the
package kernel (R361). -/
def execColdBoot (s : State) : Host.Outcome State Fault Refusal :=
  if s.hub.power == .on then .next s
  else if !s.hub.chooseBank.bootOk then .next (s.modHub fun h => { h.chooseBank with running := none, power := .off })
  else
    let (s, key) := s.drawKey
    let device (pa : Nat) : Bool := match placeOf pa with
      | .device _ => true
      | _ => false
    .next { State.reset with
      hub := s.hub.chooseBank.coldBoot key
      mem := s.mem.filter fun e => device e.1
      poison := s.poison.filter fun e => device (64 * e.1)
      blockNext := s.blockNext, gridNext := s.gridNext, agenda := s.agenda, nextFree := s.nextFree }

/-! ### SPDM (R356, R358) -/

/-- A salt of Shutter's generator for a signature (R356; RFC 8017 leaves its length to the application). -/
def State.drawSalt (s : State) : State × List Byte :=
  (List.range Config.pssSaltLength).foldl (fun (acc : State × List Byte) _ =>
    let (s', v) := acc.1.draw
    (s', acc.2 ++ [v.truncate 8])) (s, [])

/-- SPDM_MESSAGE (R356, R358): an attestation request is answered under the identity key; the end of a key establishment gives a domain its
transport key. -/
def execSpdmMessage (m : Spdm) (s : State) : Host.Outcome State Fault Refusal :=
  match m with
  | .attest r =>
    let (s1, salt) := s.drawSalt
    let text := Config.spdmAnswer r
    .next (s1.send (.attestation (text ++ Crypto.pssSign Config.identityModulus Config.identityExponent salt text)))
  | .transport d session =>
    .next (if d < 16 then s.modHub fun h => { h with transport := Sparse.put h.transport d (Config.transportKey session) } else s)

end Sys2Proof.Machine
end

