-- ==== Sys2Proof/Machine/EvCore.lean ====
section
/-! DEFINITION. EvCore.lean: what a core's scratchpad does by itself (R186, R191, R194, R195, R197), and what its die's walkers, L2 and
directory do (R255, R261, R348). -/

namespace Sys2Proof.Machine

/-! ### Scratchpad (R186 to R197) -/

/-- Corrected words are rewritten in their banks (R194). -/
def Scratchpad.rewrite (sp : Scratchpad) : Scratchpad :=
  { sp with
    ecc := sp.rewrites.foldl (fun (m : Sparse Ecc) w => if Sparse.look m w == some .single then Sparse.del m w else m) sp.ecc
    rewrites := [] }

/-- BANK_PASS (R186, R191, R194): a pass that serves no requester: every parity bank drains one entry of its queue, and corrected words are
rewritten. -/
def execBankPass (core : Nat) (s : State) : Host.Outcome State Fault Refusal :=
  .next (s.modPad core fun sp => (sp.drain []).rewrite)

/-- A lost row is rebuilt (R195): uncorrectable words are written with the poison marker, and the parity word is that of the data.
Single-bit errors that its reads meet are not counted, nor those that the 15 other reads of a reconstruction meet or a store's read of the old
word: R194 speaks of direct reads (DESIGN CHOICE, log entry 53). -/
def Scratchpad.rebuildRow (sp : Scratchpad) (gr : Nat) : Scratchpad :=
  let bad := (groupWords gr).filter sp.bad
  let sp := { sp with
    poison := bad.foldl (fun (m : Sparse Unit) w => Sparse.put m w ()) sp.poison
    ecc := bad.foldl (fun (m : Sparse Ecc) w => Sparse.del m w) sp.ecc }
  { sp with
    parity := Sparse.putOr sp.parity gr ((groupWords gr).foldl (fun (x : Word) w => x ^^^ sp.raw w) 0) 0
    parityUe := Sparse.del sp.parityUe gr, lost := Sparse.del sp.lost gr
    queue := Sparse.putOr sp.queue (gr % 16) ((sp.pq (gr % 16)).filter fun e => e.1 != gr / 16) [] }

/-- ROW_REBUILD (R195): in a degraded group a lost row stays lost. -/
def execRowRebuild (core group row : Nat) (s : State) : Host.Outcome State Fault Refusal :=
  let gr := 16 * row + group
  let sp := (s.core core).scratch
  if 16 ≤ group || !sp.isLost gr || sp.degraded group then .next s else .next (s.modPad core fun sp => (sp.rebuildRow gr).drain [group])

/-- A group's parity queue drains completely (R197 step 2). -/
def Scratchpad.drainGroup (sp : Scratchpad) (g : Nat) : Scratchpad :=
  { sp with
    parity := (sp.pq g).foldl (fun (m : Sparse Word) e => Sparse.putOr m (16 * e.1 + g) (Sparse.getOr m (16 * e.1 + g) 0 ^^^ e.2) 0) sp.parity
    queue := Sparse.del sp.queue g }

/-- BANK_RETIREMENT (R197, R358): a bank whose corrected errors have reached the threshold is retired once its group's queue is empty; in a
group that has a retired bank the core goes out of service instead. -/
def execBankRetirement (core bank : Nat) (s : State) : Host.Outcome State Fault Refusal :=
  let sp := (s.core core).scratch
  let g := bank / 16
  if 256 ≤ bank || Sparse.getOr sp.corrected bank 0 < s.hub.bankthr || Sparse.look sp.retired g == some bank then .next s
  else if sp.degraded g then
    if (s.core core).inService then .next ((s.modCore core fun k => { k with inService := false }).lampLog 4 .coreOut [core, bank])
    else .next s
  else
    .next ((s.modPad core fun sp =>
      let sp := sp.drainGroup g
      { sp with retired := Sparse.put sp.retired g bank }).lampLog 4 .bankRetired [core, bank])

/-! ### Walks and caches (R255, R261, R348, R364) -/

/-- A walk's result reaches every core that asked for it (R262). -/
def State.shareWalk (s : State) (w : Who) (va : Nat) (cores : List Nat) : State :=
  match (s.die w.die).tlb.find? fun e => e.serves w va with
  | none => s
  | some e => cores.foldl (fun s c => s.installLeaf { w with core := some c } e []) s

/-- TRANSLATION_WALK (R261, R262, R274): a walker takes a request of the die's walk queue, which an access waits for: the leaf, if the access
would be allowed, enters the translation caches of all that asked for it, with the bits that the access sets. -/
def execTranslationWalk (core dom asn : Nat) (va : DWord) (acc : Access) (s : State) : Host.Outcome State Fault Refusal :=
  let d := core / 48
  match (s.die d).walks.find? fun r =>
    r.dom == dom && r.asn == asn && r.page == va.toNat / 4096 && r.acc == acc && r.failed.isNone && (r.cores.isEmpty || r.cores.contains core) with
  | none => .next s
  | some r =>
    let w : Who := { die := d, core := r.cores.head?, dom := dom, asn := asn, root := r.root, win := 2 ^ 64, code := dom }
    let s := s.modDie d fun x => { x with walks := x.walks.filter (· != r) }
    match s.walkFor w va.toNat r.size acc with
    | (t, .error .wait) => .next (t.modDie d fun x => { x with walks := r :: (x.walks.filter fun y => !(y.dom == dom && y.asn == asn && y.page == r.page)) })
    | (t, .error x) => .next (t.modDie d fun y => { y with walks := y.walks ++ [{ r with failed := some x }] })
    | (t, .ok _) => .next (t.shareWalk w va.toNat r.cores)

/-- L2_EVICTION (R255, R354): the masked bytes of a line go to its home, at its next slot, and the line leaves the L2. -/
def execL2Eviction (die line : Nat) (s : State) : Host.Outcome State Fault Refusal :=
  .next (s.evictLine die line)

/-- DIRECTORY_ENTRY_DROP (R348): every holder's copy is invalidated, dirty bytes being written home first. -/
def execDirectoryEntryDrop (line : Nat) (s : State) : Host.Outcome State Fault Refusal :=
  if (Sparse.look s.hub.dir line).isNone || s.refuses (256 * line) then .next s else .next (s.dropLine line)

end Sys2Proof.Machine
end

