-- ==== Sys2Proof/Machine/EvLease.lean ====
section
/-! DEFINITION. EvLease.lean: leases at their lender (R351, R352, R392, R393) and at their borrower (R392 to R398), and requests drained off
a dead link (R405, R406). -/

namespace Sys2Proof.Machine

/-! ### The lender (R351, R352) -/

/-- A lease-table entry (R351): FREE until offered. -/
def State.lease (s : State) (k : Nat) : Lease :=
  Sparse.getOr s.hub.leases k
    { state := 0, size := 0, port := 0, gen := 0, id := 0, base := 0, expiry := 0, since := 0, sharers := [] }

/-- A lease-table entry moves; the time is kept for its bounds. -/
def State.moveLease (s : State) (k : Nat) (f : Lease → Lease) : State :=
  let e := f (s.lease k)
  s.modHub fun h => { h with leases := Sparse.put h.leases k { e with since := h.time } }

/-- The granules of an extent (R351): an extent smaller than 64 KiB holds its whole granule. -/
def Lease.granules (e : Lease) : List Nat := (List.range ((pageBytes e.size + 65535) / 65536)).map (e.base / 65536 + ·)

/-- The granules of an extent take an owner code. -/
def State.setOwners (s : State) (gs : List Nat) (code : Nat) : State :=
  s.modHub fun h => { h with owner := gs.foldl (fun (m : Sparse Nat) g => Sparse.putOr m g code 0x12) h.owner }

/-- LEASE_OFFER (R351, R352): an extent of the pool whose granules are free is offered. -/
def execLeaseOffer (k size port id base expiry : Nat) (s : State) : Host.Outcome State Fault Refusal :=
  let e : Lease := { s.lease k with state := 1, size := size, port := port, id := id, base := base, expiry := expiry, sharers := [] }
  let fits := k < 65536 && size < 12 && port < 4096 && id < 2 ^ 32 && expiry < 2 ^ 64 && base % pageBytes size == 0
    && 2 ^ 41 ≤ base && base + pageBytes size ≤ 2 ^ 42 - 2 ^ 26
  if (s.lease k).state != 0 || !fits || e.granules.any (fun g => s.granuleOwner g != 0x12) then .next s
  else .next ((s.moveLease k fun _ => e).setOwners e.granules 0x11)

/-- LEASE_ACCEPT (R352): the generation advances, and the lease is held. -/
def execLeaseAccept (k : Nat) (s : State) : Host.Outcome State Fault Refusal :=
  if (s.lease k).state != 1 then .next s
  else .next (s.moveLease k fun e => { e with state := 2, gen := nextGen e.gen })

/-- An offer ends without a lease (R352). -/
def State.endOffer (s : State) (k : Nat) : State :=
  (s.moveLease k fun e => { e with state := 0 }).setOwners (s.lease k).granules 0x12

/-- LEASE_DECLINE (R352). -/
def execLeaseDecline (k : Nat) (s : State) : Host.Outcome State Fault Refusal :=
  if (s.lease k).state != 1 then .next s else .next (s.endOffer k)

/-- OFFER_TIMEOUT (R352): 100 ms have passed. -/
def execOfferTimeout (k : Nat) (s : State) : Host.Outcome State Fault Refusal :=
  let e := s.lease k
  if e.state != 1 || s.hub.time < e.since + 100000000 then .next s else .next (s.endOffer k)

/-- A held lease is recalled: the hub back-invalidates the extent at the borrower (R352). -/
def State.recall (s : State) (k : Nat) : State :=
  let e := s.lease k
  (s.moveLease k fun e => { e with state := 3 }).send (.backInvalidate e.port e.id)

/-- LEASE_RECALL (R352). -/
def execLeaseRecall (k : Nat) (s : State) : Host.Outcome State Fault Refusal :=
  if (s.lease k).state != 2 then .next s else .next (s.recall k)

/-- LEASE_EXPIRY (R352): package time has reached the expiry. -/
def execLeaseExpiry (k : Nat) (s : State) : Host.Outcome State Fault Refusal :=
  let e := s.lease k
  if e.state != 2 || e.expiry = 0 || s.hub.time < e.expiry then .next s else .next (s.recall k)

/-- BORROWER_ACK (R352, R393): every sharer has acknowledged. -/
def execBorrowerAck (k : Nat) (s : State) : Host.Outcome State Fault Refusal :=
  if (s.lease k).state != 3 then .next s else .next (s.moveLease k fun e => { e with state := 4, sharers := [] })

/-- RECALL_TIMEOUT (R352): 10 ms have passed since the recall. -/
def execRecallTimeout (k : Nat) (s : State) : Host.Outcome State Fault Refusal :=
  let e := s.lease k
  if e.state != 3 || s.hub.time < e.since + 10000000 then .next s
  else .next (s.moveLease k fun e => { e with state := 4, sharers := [] })

/-- EXTENT_ZEROED (R352): the extent is zeroed as by `snuff`, and its granules are free. -/
def execExtentZeroed (k : Nat) (s : State) : Host.Outcome State Fault Refusal :=
  let e := s.lease k
  if e.state != 4 then .next s
  else .next ((e.granules.foldl (fun s g => s.giveGranule g 0x12) s).moveLease k fun e => { e with state := 0 })

/-- A peer's write is performed at the extent: it is written at its home, past every cache. -/
def State.peerWrite (s : State) (pa : Nat) (bs : List Byte) : State :=
  (caches.foldl (fun s d => s.dropL2 d (sectorOf pa) (pa + bs.length - sectorOf pa)) s).homeWrite pa bs false

/-- The bytes of a peer's request lie in its page. -/
def PeerAsk.inPage : PeerAsk → Bool
  | .page => true
  | .read off n => off + n ≤ 4096
  | .write off bs => off + bs.length ≤ 4096
  | .atomic off step => off + 4 * step.ty.regs ≤ 4096

/-- What a request that is answered does in its page, at a physical address, and the answers of its data (R391, R392). -/
def State.peerServe (s : State) (port page pa : Nat) : PeerAsk → State × List Sent
  | .page => (s, [])
  | .read off n => (s, [.peerData port page off (s.mem.bytes (pa + off) n)])
  | .write off bs => (s.peerWrite (pa + off) bs, [])
  | .atomic off step =>
    let old := s.mem.bytes (pa + off) (4 * step.ty.regs)
    (match stepBytes step old with
      | some new => s.peerWrite (pa + off) new
      | none => s, [.peerData port page off old])

/-- A peer's request is served in the current slot (R354): one for data is charged to the owner of its granule. -/
def State.askServed (s : State) (pa : Nat) (what : PeerAsk) : Bool := what == .page || s.slotOk 0x11 pa

/-- A peer's request waits no longer. -/
def State.dropAsk (s : State) (port tag : Nat) : State :=
  if s.hub.asks.any fun a => a.port == port && a.tag == tag then
    s.modHub fun h => { h with asks := h.asks.filter fun a => !(a.port == port && a.tag == tag) }
  else s

/-- A peer's request waits for its slot (R354). -/
def State.waitAsk (s : State) (a : PeerWait) : State :=
  if s.hub.asks.contains a then s else s.modHub fun h => { h with asks := h.asks ++ [a] }

/-- PEER_TRANSLATION_REQUEST (R392, R406): a peer's request for a page of a lease, or for data of it. It is answered if it carries this
package's incarnation and names a lease held or being recalled, by its borrower (R349); otherwise refused with the incarnation.
One for data waits for its slot (R354). A request that a drain round has refused for good, or that has been performed, is not performed. -/
def execPeerTranslationRequest (port id gen inc page tag : Nat) (what : PeerAsk) (s : State) : Host.Outcome State Fault Refusal :=
  if s.hub.performed.any fun p => p.source == port && p.tag == tag then .next (s.dropAsk port tag)
  else
    let hit := s.hub.leases.find? fun e => e.2.id == id && e.2.gen == gen && (e.2.state == 2 || e.2.state == 3) && e.2.port == port
    let ok (e : Lease) : Bool := inc == s.hub.incarnation && 4096 * page + 4096 ≤ pageBytes e.size && PeerAsk.inPage what
    match hit.filter fun e => ok e.2 with
    | none => .next ((s.dropAsk port tag).send (.translation port page none s.hub.incarnation))
    | some (k, e) =>
      let pa := e.base + 4096 * page
      if !s.askServed pa what then
        .next (s.waitAsk { port := port, id := id, gen := gen, inc := inc, page := page, tag := tag, what := what })
      else
        let r := (s.dropAsk port tag).peerServe port page pa what
        let out := r.2 ++ [.translation port page (some (e.base / 4096 + page)) s.hub.incarnation]
        .next (out.foldl State.send (r.1.modHub fun h => { h with
          leases := Sparse.put h.leases k { e with sharers := if e.sharers.contains port then e.sharers else e.sharers ++ [port] }
          performed := h.performed ++ [{ source := port, tag := tag, time := h.time, refused := false, answer := out }] }))

/-! ### The borrower (R392 to R398) -/

/-- BISNP_RECEIVED (R396): the lease is recalled: it is emptied, and the back-invalidation answered once its masked bytes are on their way. -/
def execBisnpReceived (slot : Nat) (s : State) : Host.Outcome State Fault Refusal :=
  if (s.borrow slot).state != 1 then .next s
  else .next (((s.setBorrow slot { s.borrow slot with state := 2, acked := false }).emptyLease slot).tryAck slot)

/-- The entry of an EMPTY slot (R395). -/
def Borrow.empty : Borrow :=
  { state := 0, size := 0, dom := 0, wide := false, port := 0, gen := 0, inc := 0, id := 0, expiry := none, acked := false }

/-- RELEASE_CONFIRMED (R396): the lender has confirmed the release that was acknowledged. -/
def execReleaseConfirmed (slot : Nat) (s : State) : Host.Outcome State Fault Refusal :=
  let b := s.borrow slot
  if b.state != 3 || !b.acked then .next s else .next (s.setBorrow slot Borrow.empty)

/-- BORROW_ENTRY_CLEAR (R396). -/
def execBorrowEntryClear (slot : Nat) (s : State) : Host.Outcome State Fault Refusal :=
  if (s.borrow slot).state != 4 then .next s else .next (s.setBorrow slot Borrow.empty)

/-- A BORROWED EXTENT IS LOST (R398): its masked bytes are discarded; its requests complete with an error reply (R394);
the blocks on its writer list are killed, or under `bw.wide` every block of its domain. -/
def State.loseBorrow (s : State) (slot : Nat) : State :=
  let b := s.borrow slot
  if b.state = 0 || b.state = 4 then s
  else
    let ws := s.leaseWriters slot
    let lo := aliasBase slot
    let s := caches.foldl (fun s d => s.dropL2 d lo (2 ^ 34)) s
    let s := { s with cores := s.cores.map fun (e : Nat × Core) => (e.1, { e.2 with
      l1 := e.2.l1.filter fun l => !inAlias slot l.pa, icache := e.2.icache.filter fun l => !inAlias slot l.pa }) }
    let s := s.modHub fun h => { h with
      peers := h.peers.filter fun e => e.slot != slot
      dir := h.dir.filter fun e => !inAlias slot (256 * e.1)
      inflight := h.inflight.filter fun e => !inAlias slot e.pa
      heldEvict := h.heldEvict.filter fun e => !inAlias slot e.pa
      reqs := h.reqs.map fun r => if r.slot == slot then { r with lost := true, drain := none } else r }
    let s := s.setBorrow slot { b with state := 4, acked := false }
    let ids := if b.wide then s.liveBlocks fun x => x.hdr.domain == b.dom else ws.filter fun k => (s.blk k).state.resident || (s.blk k).state == .saved
    s.killAll ids 0x48

/-- A LENDER IS LOST (R394): every translation of it goes, and every lease from it is lost. -/
def State.loseLender (s : State) (port : Nat) : State :=
  ((s.hub.borrows.filter fun e => e.2.port == port).map (·.1)).foldl State.loseBorrow s

/-- LENDER_LOST (R394). -/
def execLenderLost (port : Nat) (s : State) : Host.Outcome State Fault Refusal := .next (s.loseLender port)

/-- A PEER IS LOST (R352, R394, R405): as a lender, and as the borrower of leases being recalled. -/
def State.losePeer (s : State) (port : Nat) : State :=
  let s := s.loseLender port
  ((s.hub.leases.filter fun e => e.2.port == port && e.2.state == 3).map (·.1)).foldl (fun s k =>
    s.moveLease k fun e => { e with state := 4, sharers := [] }) s

/-- The request for a page ends (R406). -/
def State.endRequest (s : State) (slot page : Nat) : State :=
  s.modHub fun h => { h with reqs := h.reqs.filter fun r => !(r.what == .page && r.slot == slot && r.page == page) }

/-- An answer fills the peer translation cache (R392). -/
def State.learnPage (s : State) (slot page inc phys : Nat) : State :=
  let e : PeerEntry := { slot := slot, page := page, phys := phys, inc := inc, count := 0, mig := .counting, dom := 0, asn := 0
                         xoff := 0, size := 0, va := 0 }
  (s.endRequest slot page).modHub fun h => { h with
    peers := (e :: h.peers.filter fun x => !(x.slot == slot && x.page == page)).take 4096 }

/-- PEER_TRANSLATION_REPLY (R392, R393): an answer fills the peer translation cache; under a lease being released it only ends its request. A
refusal that carries a higher incarnation ends every lease of that lender; one that carries the lease's own says that the lender has taken
the lease back, before the acknowledgement or after it (R396). -/
def execPeerTranslationReply (slot page inc : Nat) (phys : Option Nat) (s : State) : Host.Outcome State Fault Refusal :=
  let b := s.borrow slot
  if b.state = 0 || b.state = 4 then .next (s.endRequest slot page)
  else
    match phys with
    | some p =>
      if inc != b.inc || !(s.hub.reqs.any fun r => r.what == .page && r.slot == slot && r.page == page) then .next s
      else .next (if b.state = 3 then (s.endRequest slot page).tryAck slot else s.learnPage slot page inc p)
    | none =>
      .next (if b.inc < inc then s.loseLender b.port
        else if inc = b.inc && !(b.state == 3 && b.acked) then s.loseBorrow slot
        else (s.endRequest slot page).tryAck slot)

/-- A data request ends, and what a read or an atomic step waits for is there (R392). -/
def State.endData (s : State) (r : FabricReq) : State :=
  s.modHub fun h => { h with
    reqs := h.reqs.filter fun y => y.tag != r.tag
    answered := match r.what with
      | .read a _ _ => if a < 4 then h.answered ++ [{ slot := r.slot, what := r.what, used := false }] else h.answered
      | .atomic a .. => if a < 4 then h.answered ++ [{ slot := r.slot, what := r.what, used := false }] else h.answered
      | _ => h.answered }

/-- A lender's answer to a data request, or its refusal with its incarnation (R392 to R394): checked as a request for a page is. -/
def State.dataReply (s : State) (slot tag inc : Nat) (ok : Bool) : State :=
  match s.hub.reqs.find? fun r => r.tag == tag && r.slot == slot && r.what != .page && !r.lost with
  | none => s
  | some r =>
    let b := s.borrow slot
    if ok then
      (match r.what with
        | .atomic 5 _ off step => ((s.endData r).stepHome 5 (aliasBase slot + off) (4 * step.ty.regs) false true (stepBytes step) []).1
        | _ => s.endData r).tryAck slot
    else if b.inc < inc then s.loseLender b.port
    else if inc = b.inc && !(b.state == 3 && b.acked) then s.loseBorrow slot
    else (s.modHub fun h => { h with reqs := h.reqs.filter fun y => y.tag != tag }).tryAck slot

/-! ### Dead links and drain rounds (R405, R406) -/

/-- A code for the link between two ends, above every port's own. -/
def linkCode (a b : Nat) : Nat := 2 ^ 13 * (a + 1) + b

/-- Each of a package's 24 ports has been declared dead (R405). -/
def State.allDead (s : State) (id : Nat) : Bool :=
  (List.range 24).all fun p => s.hub.links.any fun l => l.a == id && l.b == portEnd p && !l.live

/-- LINK_STATE_UPDATE (R405, R406): an update newer than the one held is held and flooded; a dead link starts a drain, and a package whose
last port is declared dead is lost. -/
def execLinkStateUpdate (a b : Nat) (live : Bool) (seq : Word) (s : State) : Host.Outcome State Fault Refusal :=
  if s.hub.links.any fun l => l.a == a && l.b == b && decide (seq ≤ l.seq) then .next s
  else
    let s := s.holdLink a b live seq
    if live then .next s.forgetLost
    else
      let s := s.startDrain (linkCode a b)
      .next (if a < 4096 && a != s.hub.pkgId && s.allDead a then s.losePeer a else s)

/-- Some port of the package is in service. -/
def State.pathLeft (s : State) : Bool := s.hub.ports.any fun p => !p.2.down

/-- A listed request meets the end of a round of its link's drain, `refused` naming the tags that destinations have refused in round 4
(R406). -/
def State.drainReq (s : State) (refused : List Nat) (r : FabricReq) : State :=
  let put (x : FabricReq) : State := s.modHub fun h => { h with reqs := h.reqs.map fun y => if y.tag == r.tag then x else y }
  match r.drain with
  | none => s
  | some (l, k) =>
    if k != 0 && s.hub.time < r.since + 10000 then s
    else if k < 4 then
      (put { r with drain := some (l, k + 1), since := s.hub.time }).send (.probe r.dest (k + 1) [r.tag])
    else if !s.pathLeft then put { r with drain := none, lost := true }
    else if refused.contains r.tag then s.resend r
    else s

/-- DRAIN_ROUND (R406): 10 µs after the last, the next round of a link's drain, with a probe to each destination; after round 4 a request that
has been refused is sent again over another path, or is lost where none is left. -/
def execDrainRound (e : DrainEnd) (s : State) : Host.Outcome State Fault Refusal :=
  .next ((s.hub.reqs.filter fun r => !r.lost && r.drain.any fun d => d.1 == e.link).foldl (fun s r => s.drainReq e.refused r) s)

/-- DRAIN_PROBE (R406): the answer names the requests that were performed, and sends again the responses still kept; in round 4 the others
are refused, and will never be performed. -/
def execDrainProbe (source round : Nat) (tags : List Nat) (s : State) : Host.Outcome State Fault Refusal :=
  let done := tags.filter fun t => s.hub.performed.any fun p => p.source == source && p.tag == t && !p.refused
  let held := s.hub.performed.filter fun p => p.source == source && done.contains p.tag && decide (s.hub.time ≤ p.time + 50000)
  let kept := done.filter fun t => held.any fun p => p.tag == t
  let bad := if round = 4 then tags.filter fun t => !done.contains t else []
  let s1 := (held.flatMap (·.answer)).foldl State.send s
  .next ((s1.modHub fun h => { h with
    performed := h.performed ++ (bad.filter fun t => !(h.performed.any fun p => p.source == source && p.tag == t)).map fun t =>
      { source := source, tag := t, time := h.time, refused := true, answer := [] } }).send (.probeAnswer source round done kept bad))

end Sys2Proof.Machine
end

