-- ==== Sys2Proof/Machine/EvPod.lean ====
section
/-! DEFINITION. EvPod.lean: the reorder buffer (R389), the election (R402, R403), and what the package kernel and the Lamplighter write in the
hub's configuration space (R279, R292, R304, R314, R322, R327, R347, R353, R354, R358, R370, R385, R395, R399, R402, R404). -/

namespace Sys2Proof.Machine

/-! ### The reorder buffer (R389) -/

/-- Packets that wait are released while their numbers follow on: what is left, and those released, in order. -/
def Reorder.run : Nat → Reorder → Reorder × List Packet
  | 0, r => (r, [])
  | n + 1, r =>
    match r.held.find? fun e => e.1 == r.next with
    | none => (r, [])
    | some e =>
      let t := Reorder.run n { next := r.next + 1, held := r.held.erase e }
      (t.1, e.2 :: t.2)

/-- REORDER_RELEASE (R389): a packet arrives; a duplicate is dropped, and none is taken, from any port, while the buffer is full. It and those that it makes
due are released to the package in sequence order, as the very next events. Numbers begin at 0 (log entry 30), and a number within half the
space before the next one has been released. -/
def execReorderRelease (source : Nat) (p : Numbered) (s : State) : Host.Outcome State Fault Refusal :=
  let r := (Sparse.look s.hub.reorder source).getD { next := 0, held := [] }
  let ahead := (p.seq - r.next).toNat
  let used := (s.hub.reorder.map fun e => e.2.held.length).sum
  if 2 ^ 23 ≤ ahead || r.held.any (fun e => e.1 == p.seq) || decide (4096 ≤ used) then .next s
  else
    let (r, out) := Reorder.run (r.held.length + 1) { r with held := r.held ++ [(p.seq, p.packet)] }
    .next ({ s with agenda := out.map Move.packet ++ s.agenda }.modHub fun h => { h with
      reorder := Sparse.put h.reorder source r })

/-! ### The election (R402, R403) -/

/-- A later term is adopted; its vote is open (R403). -/
def Hub.adopt (h : Hub) (t : Word) : Hub := if h.term < t then { h with term := t, vote := none, votes := [] } else h

/-- A higher rank is met: the package adopts its term and steps down (R403). -/
def Hub.stepDown (h : Hub) (r : Rank) : Hub :=
  if rankLt h.ownRank r then { h.adopt r.term with role := .follower, votes := [], rank := if rankLt h.rank r then r else h.rank } else h

/-- HEARTBEAT_SEND (R403): the beacon multicasts its rank every 1 ms. -/
def execHeartbeatSend (s : State) : Host.Outcome State Fault Refusal :=
  if s.hub.role == .beacon && decide (s.hub.heard + 1000000 ≤ s.hub.time) then
    .next ((s.modHub fun h => { h with heard := h.time }).send (.heartbeat s.hub.ownRank))
  else .next s

/-- HEARTBEAT_RECEIVED (R403). -/
def execHeartbeatReceived (r : Rank) (_sender : Nat) (s : State) : Host.Outcome State Fault Refusal :=
  let h := s.hub.stepDown r
  .next (s.modHub fun _ => if h.role == .follower then { h with heard := h.time } else h)

/-- The package stands in the next term, modulo 2^32: it votes for itself and asks for votes (R403 step 1). -/
def State.stand (s : State) : State :=
  let s := s.modHub fun h => { h with
    term := h.term + 1, vote := some h.pkgId, votes := [h.pkgId], role := .candidate, heard := h.time }
  s.send (.voteRequest s.hub.ownRank)

/-- A candidate with the votes of a majority of the roster becomes the beacon, and registers its rank first (R403 step 3). -/
def State.countVotes (s : State) : State :=
  let h := s.hub
  let n := (h.roster.filter h.votes.contains).length
  if h.role == .candidate && decide (h.roster.length / 2 + 1 ≤ n) then
    (s.modHub fun h => { h with role := .beacon, rank := h.ownRank, heard := h.time }).send (.register h.ownRank)
  else s

/-- The package stands, and counts its own vote. -/
def State.standCount (s : State) : State := s.stand.countVotes

/-- ELECTION_TIMEOUT (R403 step 1): a follower has heard no heartbeat for 10 ms + (serial mod 10) ms. -/
def execElectionTimeout (s : State) : Host.Outcome State Fault Refusal :=
  let h := s.hub
  if h.role == .follower && h.prio != 0 && decide (h.heard + (10 + Config.serial.toNat % 10) * 1000000 ≤ h.time) then .next s.standCount
  else .next s

/-- CANDIDATE_TIMEOUT (R403 step 4): a candidate has reached no majority within 10 ms: it begins again at step 1, where a package of priority
0 does not stand. -/
def execCandidateTimeout (s : State) : Host.Outcome State Fault Refusal :=
  let h := s.hub
  if h.role == .candidate && decide (h.heard + 10000000 ≤ h.time) then
    .next (if h.prio != 0 then s.standCount else s.modHub fun h => { h with role := .follower, votes := [], heard := h.time })
  else .next s

/-- VOTE_REQUEST (R403 step 2): a higher term raises the receiver's; one vote is granted in a term, to a member of the roster. -/
def execVoteRequest (r : Rank) (sender : Nat) (s : State) : Host.Outcome State Fault Refusal :=
  let s := s.modHub fun h => h.adopt r.term
  let h := s.hub
  if h.term ≤ r.term && h.vote.isNone && h.roster.contains sender then
    .next ((s.modHub fun h => { h with vote := some sender }).send (.voteGrant h.term sender))
  else .next s

/-- VOTE_GRANT (R403 step 3). -/
def execVoteGrant (term : Word) (sender : Nat) (s : State) : Host.Outcome State Fault Refusal :=
  let h := s.hub
  if h.role == .candidate && term == h.term && !h.votes.contains sender then
    .next (s.modHub fun h => { h with votes := h.votes ++ [sender] }).countVotes
  else .next s

/-- FM_REFUSAL (R402, R403): a switch has registered a higher rank. -/
def execFmRefusal (r : Rank) (s : State) : Host.Outcome State Fault Refusal := .next (s.modHub fun h => h.stepDown r)

/-! ### The configuration space (R347) -/

/-- DOMAIN_HANDLER_WRITE (R322): a value that is neither 0 nor canonical and a multiple of 4 is ignored. -/
def execDomainHandlerWrite (dom : Nat) (pc : DWord) (s : State) : Host.Outcome State Fault Refusal :=
  if 16 ≤ dom || (pc != 0 && (!canonical pc || pc.toNat % 4 != 0)) then .next s
  else .next (s.modHub fun h => { h with dh := Sparse.putOr h.dh dom pc 0 })

/-- P reaches a location now: the package kernel owns its granule, its slot is the current one, and its home does not refuse (R348, R349, R354,
R364). -/
def State.kernelReach (s : State) (pa : Nat) : Bool :=
  (match placeOf pa with
    | .refused => false
    | _ => true) && s.ownerOk 0x10 pa && !s.refuses pa && s.slotOk 0x10 pa && !s.unsettled 5 pa

/-- A byte written by P (R348, R370, R374, R379): on a coherent page in its own caches, at one point for every agent; otherwise at its home, from
where it goes on to every agent that holds a copy. -/
def State.kernelWrite (s : State) (pa : Nat) (b : Byte) (coherent : Bool) : State :=
  if !s.kernelReach pa then s
  else if coherent then (s.cohere 5 pa true).coherentStore 5 pa [b] []
  else s.sendHome 5 pa [b] true []

/-- P reads a sector of a coherent page through its caches (R348). -/
def State.kernelRead (s : State) (pa : Nat) : State :=
  if !s.kernelReach pa || s.l2Valid 5 pa 1 then s else (s.cohere 5 pa false).fetchSector 5 pa

/-- P reads a byte at its home, past its caches (R379): at a lender's by a request (R392). -/
def State.homeRead (s : State) (pa : Nat) : State :=
  if !s.kernelReach pa then s
  else
    (match placeOf pa with
      | .peerAlias slot off => s.request slot (off / 4096) (sectorAsked 5 pa) false
      | _ => s).ask 5 pa 1

/-- A FENCE of P whose sets both hold reads and writes (R379): a fence of scope 4; what cannot be applied yet is still on its way. -/
def State.kernelFence (s : State) : State := s.settleWhere fun d => d.src == 5

/-- An AMO of P (R379): on a coherent page in its own caches, otherwise at the home's memory-side unit, or the lender's. With `rl` it waits for
P's earlier writes. -/
def State.kernelAmo (s : State) (pa : Nat) (step : PeerStep) (coherent release : Bool) : State :=
  let n := 4 * step.ty.regs
  let t := if release then s.kernelFence else s
  if !t.kernelReach pa || pa % n != 0 || (release && t.hub.inflight.any fun d => d.src == 5) then t
  else if coherent then
    let t := (t.cohere 5 pa true)
    let t := if t.l2Valid 5 pa 1 then t else t.fetchSector 5 pa
    match stepBytes step (t.l2Bytes 5 pa n) with
    | some new => t.coherentStore 5 pa new []
    | none => t
  else match placeOf pa with
    | .peerAlias slot off => t.request slot (off / 4096) (stepAsked 5 pa step []) false
    | _ => (t.stepHome 5 pa n false true (stepBytes step) []).1

/-- The package kernel has a bulk engine of a die make a copy (R349, R397). -/
def State.kernelCopy (s : State) (die src dst n : Nat) : State :=
  if 4 ≤ die || n = 0 || (s.die die).warm.step != 0 then s
  else s.modDie die fun d => { d with
    kcopies := d.kcopies ++ [{ k := d.bulkNext, src := src, dst := dst, left := n }], bulkNext := d.bulkNext + 1 }

/-- The fields of a queue's configuration record, at their widths (R314). -/
def QueueCfg.trim (c : QueueCfg) : QueueCfg :=
  { c with lsize := c.lsize % 32, die := c.die % 4, pmax := c.pmax % 8, dom := c.dom % 16, asn := c.asn % 256, root := c.root % 2 ^ 64
           hwsave := c.hwsave % 2 ^ 64, hwsz := c.hwsz % 2 ^ 64 }

/-- A slot table as its rules read it (R354): 64 owners, codes above 16 being no owner. -/
def slotTableOf (owners : List Nat) : List Nat :=
  (List.range 64).map fun k => let o := owners.getD k 31; if o ≤ 16 then o else 31

/-- A borrow entry as the package kernel fills it (R395, R396). -/
def borrowEntry (f : BorrowFill) (now : Nat) : Borrow :=
  { state := 1, size := f.size % 16, dom := f.dom % 16, wide := false, port := f.port % 2 ^ 12, gen := f.gen % 2 ^ 16, inc := f.inc % 2 ^ 16
    id := f.id % 2 ^ 32, expiry := if f.left = 2 ^ 32 - 1 then none else some (now + 1000 * f.left), acked := false }

/-- The alias of a slot that takes a new lease shows the new extent, which its lender had zeroed (R352, R387). -/
def State.clearAlias (s : State) (slot : Nat) : State :=
  { s with mem := s.mem.filter fun e => !inAlias slot e.1, poison := s.poison.filter fun e => !inAlias slot (64 * e.1) }

/-- CONFIG_WRITE (R347): P or the Lamplighter writes a register of the hub's configuration space. -/
def execConfigWrite (w : CfgWrite) (s : State) : Host.Outcome State Fault Refusal :=
  .next (match w with
    | .svcdom die mask => if die < 4 then s.modDie die fun d => { d with svcdom := mask } else s
    | .queue q c => if q < 64 then s.modQueue q fun k => { k with cfg := { QueueCfg.trim c with en := c.en && k.cfg.en } } else s
    | .workQueue die q owner => if die < 4 && q < 32 then s.modWq die q fun k => { k with owner := owner } else s
    | .slotTable owners => s.modHub fun h => { h with slotsNext := some (slotTableOf owners) }
    | .migthr v => s.modHub fun h => { h with migthr := v.toNat }
    | .journal core base size => if core < 192 then s.modCore core fun k => { k with jrnbase := base, jrnsize := size } else s
    | .owner granule code =>
      if granuleReal granule && code ≤ 0x12 && code != 0x11 then
        s.modHub fun h => { h with
          owner := Sparse.put h.owner granule 0x13
          zeroing := (h.zeroing.filter fun e => e.1 != granule) ++ [(granule, code)] }
      else s
    | .shadowPool die frames => if die < 4 then s.modDie die fun d => { d with pool := frames } else s
    | .prio p => s.modHub fun h => { h with prio := .ofNat 8 p }
    | .roster ids => s.modHub fun h => { h with roster := (ids.filter (· < 4096)).eraseDups }
    | .bankthr n => s.modHub fun h => { h with bankthr := n }
    | .pkgId id => s.modHub fun h => { h with pkgId := id % 4096 }
    | .memory pa b coherent => s.kernelWrite pa b coherent
    | .memoryRead pa => s.kernelRead pa
    | .homeRead pa => s.homeRead pa
    | .fence => s.kernelFence
    | .amo pa step coherent release => s.kernelAmo pa step coherent release
    | .kernelCopy die src dst n => s.kernelCopy die src dst n
    | .portIde port handle => s.portIde port handle
    | .fmCommand switch command => if s.hub.role == .beacon then s.send (.fm s.hub.ownRank switch command) else s
    | .distribute manifest chunks => s.distribute manifest chunks
    | .readBitmaps => s.readBitmaps
    | .persistent base size => s.modHub fun h => { h with ranges := h.ranges ++ [(base, size)] }
    | .borrow slot f =>
      if slot < 65536 && (s.borrow slot).state == 0 then (s.setBorrow slot (borrowEntry f s.hub.time)).clearAlias slot else s
    | .kernelRestart => if s.hub.ready then (match s.hub.staging with
      | some k => s.activate k
      | none => s) else s)

/-! ### Deliveries and durable stores (R292, R364, R365, R370, R378) -/

/-- A write on its way is refused by its home: it waits on a HOME_RESET record of the die that sent it; the hub's and P's go on trying (R364, R365,
log entry 46). -/
def State.refuseDelivery (s : State) (d : Delivery) : State :=
  let put (s : State) (f : Delivery → Delivery) : State :=
    s.modHub fun h => { h with inflight := h.inflight.map fun e => if e == d then f e else e }
  if 4 ≤ d.src then put s fun e => { e with inc := s.incOf d.target }
  else
    let r := (s.blk d.blk).restartRec 0x53 0 0 1 1 (d.va.getD 0) d.pc (d.external || d.thr == engineThr)
    let (s, seq) := s.raiseRestart d.src r (.write d.target d.stamp)
    put s fun e => { e with waitSeq := some seq }

/-- A write reaches its target (R354, R364, R365, R370): at its home it may be refused, or wait for its slot. -/
def State.arriveDelivery (s : State) (d : Delivery) : State :=
  if homeAgent d.pa != d.target then s.deliver d
  else if s.refuses d.pa || d.inc != s.incOf d.target then (if s.refuses d.pa && 4 ≤ d.src then s else s.refuseDelivery d)
  else if s.mayApply d then s.deliver d
  else s

/-- WRITE_DELIVERY (R370, R378): the first write bound for an agent whose causal predecessors it has applied reaches it. -/
def execWriteDelivery (agent : Nat) (s : State) : Host.Outcome State Fault Refusal :=
  let mine := s.hub.inflight.filter fun d => d.target == agent
  match mine.find? fun d => d.waitSeq.isNone && mine.all fun e => e == d || !(clockLe e.stamp d.stamp && e.stamp != d.stamp) with
  | none => .next s
  | some d => .next (s.arriveDelivery d).tryAcks

/-- A pending store is complete at its device (R292): its bytes have reached it, and are durable. Bytes that a store still pending covers keep
what this one left. -/
def State.persistDone (s : State) (e : Persist) : State :=
  let s := (List.range e.bytes.length).foldl (fun s k => caches.foldl (fun s c => s.writeBack c (e.pa + k) 1) s) s
  s.modHub fun h =>
    let left := h.persists.filter fun f => f.k != e.k
    let covered (pa : Nat) : Bool := left.any fun f => f.pa ≤ pa && pa < f.pa + f.bytes.length
    { h with
      persists := left
      durable := e.bytes.zipIdx.foldl (fun (m : Sparse Byte) b =>
        if covered (e.pa + b.2) then Sparse.put m (e.pa + b.2) b.1 else Sparse.del m (e.pa + b.2)) h.durable }

/-- PERSISTENT_STORE_COMPLETE (R292): a store becomes durable at its device, after those that a `pbar` of its lane puts before it. -/
def execPersistentStoreComplete (k : Nat) (s : State) : Host.Outcome State Fault Refusal :=
  match s.hub.persists.find? fun e => e.k == k with
  | none => .next s
  | some e =>
    if (s.hub.persists.any fun f => f.blk == e.blk && f.thr == e.thr && decide (e.age < f.age)) || caches.any fun c => !s.served c e.pa then .next s
    else .next (s.persistDone e)

end Sys2Proof.Machine
end

