-- ==== Sys2Proof/Machine/EvTime.lean ====
section
/-! DEFINITION. EvTime.lean: the passing of time (R7, R20, R354): 250 ns slots in frames of 64 (log entry 1). -/

namespace Sys2Proof.Machine

/-- 250 ns have passed: package time goes on, each die's clock stands no earlier than the slot's end, and the next slot begins; at the end of a frame the table that the package
kernel has written takes effect. Write-backs that wait for the slot are served (R354). -/
def State.nextSlot (s : State) : State :=
  let s := { s with dies := (List.range 4).foldl (fun ds d =>
    let x := Sparse.getOr ds d Die.reset
    Sparse.put ds d { x with clk := max x.clk (x.slotAt + x.mhz / 4), slotAt := x.slotAt + x.mhz / 4 }) s.dies }
  let s : State := s.modHub fun h =>
    let frame := h.slot == 63
    { h with
      time := h.time + 250
      slot := (h.slot + 1) % 64
      slots := if frame then h.slotsNext.getD h.slots else h.slots
      slotsNext := if frame then none else h.slotsNext }
  let s := if s.hub.slots.getD s.hub.slot 31 == 0x10 then (List.range 4).foldl State.dropFailed s else s
  (s.sendHeld fun e => s.served e.holder e.pa).tryAcks

/-- SLOT_BOUNDARY (R354). -/
def execSlotBoundary (s : State) : Host.Outcome State Fault Refusal := .next s.nextSlot

/-- SLOT_FRAME_BOUNDARY (R354): the boundary between two frames. -/
def execSlotFrameBoundary (s : State) : Host.Outcome State Fault Refusal :=
  .next (if s.hub.slot == 63 then s.nextSlot else s)

end Sys2Proof.Machine
end

