-- ==== Sys2Proof/Machine/Float.lean ====
section
/-! DEFINITION. Float.lean: the floating-point instructions (R81 to R86). -/

namespace Sys2Proof.Machine

open Sys2Proof.Fp (Val Exact Flags)

/-- `fadd` (R82). -/
def execFadd (x : Opnds) (t : FTy) (m : FMods) (s : State) : Host.Outcome State Fault Refusal :=
  fpOp2 s (.fadd x t m) t m (Fp.add m.rnd)

/-- `fsub` (R82): a + (−b). -/
def execFsub (x : Opnds) (t : FTy) (m : FMods) (s : State) : Host.Outcome State Fault Refusal :=
  fpOp2 s (.fsub x t m) t m fun a b => Fp.add m.rnd a b.negate

/-- `fmul` (R82). -/
def execFmul (x : Opnds) (t : FTy) (m : FMods) (s : State) : Host.Outcome State Fault Refusal :=
  fpOp2 s (.fmul x t m) t m Fp.mul

/-- `ffma` (R82). -/
def execFfma (x : Opnds) (t : FTy) (m : FMods) (s : State) : Host.Outcome State Fault Refusal :=
  fpOp3 s (.ffma x t m) t m (Fp.fma m.rnd)

/-- `fmin` (R84). -/
def execFmin (x : Opnds) (t : FTy) (m : FMods) (s : State) : Host.Outcome State Fault Refusal :=
  fpOp2 s (.fmin x t m) t m (Fp.minMax false)

/-- `fmax` (R84). -/
def execFmax (x : Opnds) (t : FTy) (m : FMods) (s : State) : Host.Outcome State Fault Refusal :=
  fpOp2 s (.fmax x t m) t m (Fp.minMax true)

/-- `fcmp` (R85): `.absa` applies to both operands. -/
def execFcmp (x : Opnds) (t : FFmt) (cc : Fcc) (sig absa : Bool) (s : State) : Host.Outcome State Fault Refusal :=
  s.alu (.fcmp x t cc sig absa) 1 fun x s l =>
    let ty : OpTy := .fp (match t with | .f32 => .f32 | .f16 => .f16 | .bf16 => .bf16)
    let (v, fl) := Fp.cmp cc sig (Fp.unpack t (signMods t absa false (s.src x.ext ty l x.a)))
      (Fp.unpack t (signMods t absa false (s.src x.ext ty l x.b)))
    ((if v then 1 else 0), fl)

/-- `frcp` (R82, R83). -/
def execFrcp (x : Opnds) (t : FTy) (m : FMods) (s : State) : Host.Outcome State Fault Refusal :=
  fpOp1 s (.frcp x t m) t m fun a => Fp.div (.num false 1 0) a

/-- `frsq` (R82, R83). -/
def execFrsq (x : Opnds) (t : FTy) (m : FMods) (s : State) : Host.Outcome State Fault Refusal :=
  fpOp1 s (.frsq x t m) t m Fp.rsqrt

/-- `fsqrt` (R82, R83). -/
def execFsqrt (x : Opnds) (t : FTy) (m : FMods) (s : State) : Host.Outcome State Fault Refusal :=
  fpOp1 s (.fsqrt x t m) t m Fp.sqrt

/-- `fex2` (R82, R83). -/
def execFex2 (x : Opnds) (t : FTy) (m : FMods) (s : State) : Host.Outcome State Fault Refusal :=
  fpFun s (.fex2 x t m) t m Fp.ex2

/-- `flg2` (R82, R83). -/
def execFlg2 (x : Opnds) (t : FTy) (m : FMods) (s : State) : Host.Outcome State Fault Refusal :=
  fpFun s (.flg2 x t m) t m Fp.lg2

/-- `fsin` (R82, R83). -/
def execFsin (x : Opnds) (t : FTy) (m : FMods) (s : State) : Host.Outcome State Fault Refusal :=
  fpFun s (.fsin x t m) t m Fp.sin

/-- `fcos` (R82, R83). -/
def execFcos (x : Opnds) (t : FTy) (m : FMods) (s : State) : Host.Outcome State Fault Refusal :=
  fpFun s (.fcos x t m) t m Fp.cos

/-- `fdiv` (R82). -/
def execFdiv (x : Opnds) (t : FTy) (m : FMods) (s : State) : Host.Outcome State Fault Refusal :=
  fpOp2 s (.fdiv x t m) t m Fp.div

/-- `ffrac` (R82). -/
def execFfrac (x : Opnds) (t : FTy) (m : FMods) (s : State) : Host.Outcome State Fault Refusal :=
  fpOp1 s (.ffrac x t m) t m Fp.frac

/-- `fround` (R82). -/
def execFround (x : Opnds) (t : FTy) (m : FMods) (s : State) : Host.Outcome State Fault Refusal :=
  fpOp1 s (.fround x t m) t m (Fp.roundInt m.rnd)

/-- `fclass` (R86): the class with a v destination, the test of the mask with a p destination. -/
def execFclass (x : Opnds) (t : FFmt) (s : State) : Host.Outcome State Fault Refusal :=
  s.alu (.fclass x t) 1 fun x s l =>
    let ty : OpTy := .fp (match t with | .f32 => .f32 | .f16 => .f16 | .bf16 => .bf16)
    let c := Fp.classOf t (s.src x.ext ty l x.a)
    match x.d with
    | .p _ => ((if c &&& s.src x.ext .b32 l x.b != 0 then 1 else 0), 0)
    | _ => (c, 0)

/-- `fscale` (R82): b is a .s32 integer. -/
def execFscale (x : Opnds) (t : FTy) (m : FMods) (s : State) : Host.Outcome State Fault Refusal :=
  s.alu (.fscale x t m) 1 fun x s l =>
    let a := s.src x.ext (.fp t) l x.a
    let b := readInt 32 true (s.src x.ext .b32 l x.b)
    perElem t fun k =>
      finish t.fmt m.rnd m.sat (Fp.scale (Fp.unpack t.fmt (signMods t.fmt m.absa m.nega (elem t a k))) b)

/-- `fdot2` (R82): a and b packed, c and d .f32. -/
def execFdot2 (x : Opnds) (t : FTy) (m : FMods) (s : State) : Host.Outcome State Fault Refusal :=
  s.alu (.fdot2 x t m) 1 fun x s l =>
    let a := s.src x.ext (.fp t) l x.a
    let b := s.src x.ext (.fp t) l x.b
    let ea (k : Nat) : Val := Fp.unpack t.fmt (signMods t.fmt m.absa m.nega (elem t a k))
    let eb (k : Nat) : Val := Fp.unpack t.fmt (signMods t.fmt false m.negb (elem t b k))
    let c := Fp.unpack .f32 (signMods .f32 false m.negc (s.src x.ext (.fp .f32) l x.c))
    finish .f32 m.rnd m.sat (Fp.dot2 m.rnd (ea 0) (eb 0) (ea 1) (eb 1) c)

end Sys2Proof.Machine
end

