-- ==== Sys2Proof/Machine/Dispatch.lean ====
section
/-! DEFINITION. Dispatch.lean: one arm per constructor, each a call of that instruction's or event's meaning. -/

namespace Sys2Proof.Machine

def exec (i : Instr) (s : State) : Host.Outcome State Fault Refusal :=
  match i with
  | .nop x => Sys2Proof.Machine.execNop x s
  | .iadd x t sat => Sys2Proof.Machine.execIadd x t sat s
  | .isub x t sat => Sys2Proof.Machine.execIsub x t sat s
  | .imul x t sat => Sys2Proof.Machine.execImul x t sat s
  | .imulhi x t => Sys2Proof.Machine.execImulhi x t s
  | .imad x t sat => Sys2Proof.Machine.execImad x t sat s
  | .imin x t => Sys2Proof.Machine.execImin x t s
  | .imax x t => Sys2Proof.Machine.execImax x t s
  | .iabs x t sat => Sys2Proof.Machine.execIabs x t sat s
  | .ineg x t sat => Sys2Proof.Machine.execIneg x t sat s
  | .shl x t clamp => Sys2Proof.Machine.execShl x t clamp s
  | .shr x t clamp => Sys2Proof.Machine.execShr x t clamp s
  | .sar x t clamp => Sys2Proof.Machine.execSar x t clamp s
  | .rot x t => Sys2Proof.Machine.execRot x t s
  | .and x t => Sys2Proof.Machine.execAnd x t s
  | .or x t => Sys2Proof.Machine.execOr x t s
  | .xor x t => Sys2Proof.Machine.execXor x t s
  | .not x t => Sys2Proof.Machine.execNot x t s
  | .lut3 x wide tbl => Sys2Proof.Machine.execLut3 x wide tbl s
  | .popc x t => Sys2Proof.Machine.execPopc x t s
  | .clz x t => Sys2Proof.Machine.execClz x t s
  | .brev x t => Sys2Proof.Machine.execBrev x t s
  | .bfe x t => Sys2Proof.Machine.execBfe x t s
  | .bfi x t => Sys2Proof.Machine.execBfi x t s
  | .icmp x t cc => Sys2Proof.Machine.execIcmp x t cc s
  | .sel x t => Sys2Proof.Machine.execSel x t s
  | .mov x t => Sys2Proof.Machine.execMov x t s
  | .iaddc x t cp => Sys2Proof.Machine.execIaddc x t cp s
  | .lea x t sh => Sys2Proof.Machine.execLea x t sh s
  | .imadWide x t sat => Sys2Proof.Machine.execImadWide x t sat s
  | .prmt x => Sys2Proof.Machine.execPrmt x s
  | .isad x t sat => Sys2Proof.Machine.execIsad x t sat s
  | .fadd x t m => Sys2Proof.Machine.execFadd x t m s
  | .fsub x t m => Sys2Proof.Machine.execFsub x t m s
  | .fmul x t m => Sys2Proof.Machine.execFmul x t m s
  | .ffma x t m => Sys2Proof.Machine.execFfma x t m s
  | .fmin x t m => Sys2Proof.Machine.execFmin x t m s
  | .fmax x t m => Sys2Proof.Machine.execFmax x t m s
  | .fcmp x t cc sig absa => Sys2Proof.Machine.execFcmp x t cc sig absa s
  | .frcp x t m => Sys2Proof.Machine.execFrcp x t m s
  | .frsq x t m => Sys2Proof.Machine.execFrsq x t m s
  | .fsqrt x t m => Sys2Proof.Machine.execFsqrt x t m s
  | .fex2 x t m => Sys2Proof.Machine.execFex2 x t m s
  | .flg2 x t m => Sys2Proof.Machine.execFlg2 x t m s
  | .fsin x t m => Sys2Proof.Machine.execFsin x t m s
  | .fcos x t m => Sys2Proof.Machine.execFcos x t m s
  | .fdiv x t m => Sys2Proof.Machine.execFdiv x t m s
  | .ffrac x t m => Sys2Proof.Machine.execFfrac x t m s
  | .fround x t m => Sys2Proof.Machine.execFround x t m s
  | .fclass x t => Sys2Proof.Machine.execFclass x t s
  | .fscale x t m => Sys2Proof.Machine.execFscale x t m s
  | .fdot2 x t m => Sys2Proof.Machine.execFdot2 x t m s
  | .cvt x d src rnd sat => Sys2Proof.Machine.execCvt x d src rnd sat s
  | .cvtNfEnc x f t sc k => Sys2Proof.Machine.execCvtNfEnc x f t sc k s
  | .cvtNfDec x f t sc k => Sys2Proof.Machine.execCvtNfDec x f t sc k s
  | .cvtNfb x b f t => Sys2Proof.Machine.execCvtNfb x b f t s
  | .unpkNf x f bf sc k => Sys2Proof.Machine.execUnpkNf x f bf sc k s
  | .fmtSet x f => Sys2Proof.Machine.execFmtSet x f s
  | .fmtGet x f => Sys2Proof.Machine.execFmtGet x f s
  | .flagsGet x => Sys2Proof.Machine.execFlagsGet x s
  | .flagsClr x => Sys2Proof.Machine.execFlagsClr x s
  | .pack x t rnd => Sys2Proof.Machine.execPack x t rnd s
  | .unpack x hi t => Sys2Proof.Machine.execUnpack x hi t s
  | .sadd x t sat => Sys2Proof.Machine.execSadd x t sat s
  | .ssub x t sat => Sys2Proof.Machine.execSsub x t sat s
  | .smul x t sat => Sys2Proof.Machine.execSmul x t sat s
  | .sand x t => Sys2Proof.Machine.execSand x t s
  | .sor x t => Sys2Proof.Machine.execSor x t s
  | .sxor x t => Sys2Proof.Machine.execSxor x t s
  | .sshl x t clamp => Sys2Proof.Machine.execSshl x t clamp s
  | .sshr x t clamp arith => Sys2Proof.Machine.execSshr x t clamp arith s
  | .scmp x t cc => Sys2Proof.Machine.execScmp x t cc s
  | .smov x t => Sys2Proof.Machine.execSmov x t s
  | .sld x w => Sys2Proof.Machine.execSld x w s
  | .rfl x wide => Sys2Proof.Machine.execRfl x wide s
  | .ballot x => Sys2Proof.Machine.execBallot x s
  | .agree x m => Sys2Proof.Machine.execAgree x m s
  | .xlane x m w wide => Sys2Proof.Machine.execXlane x m w wide s
  | .lred x op t => Sys2Proof.Machine.execLred x op t s
  | .bra x => Sys2Proof.Machine.execBra x s
  | .brx x => Sys2Proof.Machine.execBrx x s
  | .call x => Sys2Proof.Machine.execCall x s
  | .ret x => Sys2Proof.Machine.execRet x s
  | .exit x => Sys2Proof.Machine.execExit x s
  | .jenr x => Sys2Proof.Machine.execJenr x s
  | .jenrSet x => Sys2Proof.Machine.execJenrSet x s
  | .jpark x => Sys2Proof.Machine.execJpark x s
  | .jstrike x => Sys2Proof.Machine.execJstrike x s
  | .jstrikeAll x => Sys2Proof.Machine.execJstrikeAll x s
  | .reform x => Sys2Proof.Machine.execReform x s
  | .brd x => Sys2Proof.Machine.execBrd x s
  | .yield x => Sys2Proof.Machine.execYield x s
  | .trap x n => Sys2Proof.Machine.execTrap x n s
  | .brk x => Sys2Proof.Machine.execBrk x s
  | .nap x => Sys2Proof.Machine.execNap x s
  | .napExpiry blk thr => Sys2Proof.Machine.execNapExpiry blk thr s
  | .ld x w zx hint => Sys2Proof.Machine.execLd x w zx hint s
  | .st x w zx hint => Sys2Proof.Machine.execSt x w zx hint s
  | .ldl x w => Sys2Proof.Machine.execLdl x w s
  | .stl x w => Sys2Proof.Machine.execStl x w s
  | .ldc x w => Sys2Proof.Machine.execLdc x w s
  | .pref x zx l1 => Sys2Proof.Machine.execPref x zx l1 s
  | .lds x w zx => Sys2Proof.Machine.execLds x w zx s
  | .sts x w zx => Sys2Proof.Machine.execSts x w zx s
  | .atoms x t op => Sys2Proof.Machine.execAtoms x t op s
  | .spstat x sel => Sys2Proof.Machine.execSpstat x sel s
  | .ldsRem x w zx peer xr => Sys2Proof.Machine.execLdsRem x w zx peer xr s
  | .stsRem x w zx peer xr => Sys2Proof.Machine.execStsRem x w zx peer xr s
  | .stsRemArr x zx peer xr => Sys2Proof.Machine.execStsRemArr x zx peer xr s
  | .atom x t op ord => Sys2Proof.Machine.execAtom x t op ord s
  | .red x t op ord => Sys2Proof.Machine.execRed x t op ord s
  | .waitcmp x t cc => Sys2Proof.Machine.execWaitcmp x t cc s
  | .fence x m => Sys2Proof.Machine.execFence x m s
  | .pbar x wait => Sys2Proof.Machine.execPbar x wait s
  | .cleanR x => Sys2Proof.Machine.execCleanR x s
  | .invR x => Sys2Proof.Machine.execInvR x s
  | .flushR x => Sys2Proof.Machine.execFlushR x s
  | .fhz x => Sys2Proof.Machine.execFhz x s
  | .bbind x n all => Sys2Proof.Machine.execBbind x n all s
  | .bunbind x n => Sys2Proof.Machine.execBunbind x n s
  | .barr x n => Sys2Proof.Machine.execBarr x n s
  | .barrb x n => Sys2Proof.Machine.execBarrb x n s
  | .bwait x n => Sys2Proof.Machine.execBwait x n s
  | .btest x n => Sys2Proof.Machine.execBtest x n s
  | .bwaitt x n => Sys2Proof.Machine.execBwaitt x n s
  | .bwaittTimeout blk thr => Sys2Proof.Machine.execBwaittTimeout blk thr s
  | .bblk x => Sys2Proof.Machine.execBblk x s
  | .bexp x n now clrt => Sys2Proof.Machine.execBexp x n now clrt s
  | .ringBind x n d => Sys2Proof.Machine.execRingBind x n d s
  | .ringAcq x n => Sys2Proof.Machine.execRingAcq x n s
  | .ringPut x n => Sys2Proof.Machine.execRingPut x n s
  | .ringGet x n => Sys2Proof.Machine.execRingGet x n s
  | .ringRel x n => Sys2Proof.Machine.execRingRel x n s
  | .cpy x n ns s2g => Sys2Proof.Machine.execCpy x n ns s2g s
  | .cpyX x n ns e => Sys2Proof.Machine.execCpyX x n ns e s
  | .cpyC x n ns e => Sys2Proof.Machine.execCpyC x n ns e s
  | .cpyGl x => Sys2Proof.Machine.execCpyGl x s
  | .cpyFan x n ns => Sys2Proof.Machine.execCpyFan x n ns s
  | .publ x => Sys2Proof.Machine.execPubl x s
  | .publDrop x => Sys2Proof.Machine.execPublDrop x s
  | .scbdCnt x => Sys2Proof.Machine.execScbdCnt x s
  | .scbdQ x => Sys2Proof.Machine.execScbdQ x s
  | .scbdWait x => Sys2Proof.Machine.execScbdWait x s
  | .shdwOpen x => Sys2Proof.Machine.execShdwOpen x s
  | .cpySealEnc x => Sys2Proof.Machine.execCpySealEnc x s
  | .cpySealDec x => Sys2Proof.Machine.execCpySealDec x s
  | .bkAdd x t rnd => Sys2Proof.Machine.execBkAdd x t rnd s
  | .bkMul x t rnd => Sys2Proof.Machine.execBkMul x t rnd s
  | .bkFma x t rnd => Sys2Proof.Machine.execBkFma x t rnd s
  | .bkRed x t rnd op => Sys2Proof.Machine.execBkRed x t rnd op s
  | .bkScale x t rnd => Sys2Proof.Machine.execBkScale x t rnd s
  | .bkCmp x t rnd cc => Sys2Proof.Machine.execBkCmp x t rnd cc s
  | .bkFill x t => Sys2Proof.Machine.execBkFill x t s
  | .bkWait x => Sys2Proof.Machine.execBkWait x s
  | .obres x n => Sys2Proof.Machine.execObres x n s
  | .obrel x n => Sys2Proof.Machine.execObrel x n s
  | .obld x n => Sys2Proof.Machine.execObld x n s
  | .obldX x n => Sys2Proof.Machine.execObldX x n s
  | .mma x t ra rb => Sys2Proof.Machine.execMma x t ra rb s
  | .mmas x t ra rb rm => Sys2Proof.Machine.execMmas x t ra rb rm s
  | .accZero x t all => Sys2Proof.Machine.execAccZero x t all s
  | .accLd x t k n => Sys2Proof.Machine.execAccLd x t k n s
  | .accSt x t k ninf n => Sys2Proof.Machine.execAccSt x t k ninf n s
  | .accStat x t sel => Sys2Proof.Machine.execAccStat x t sel s
  | .accRenorm x t => Sys2Proof.Machine.execAccRenorm x t s
  | .accTmask x t => Sys2Proof.Machine.execAccTmask x t s
  | .accScale x t => Sys2Proof.Machine.execAccScale x t s
  | .accRmax x t n => Sys2Proof.Machine.execAccRmax x t n s
  | .accMode x t => Sys2Proof.Machine.execAccMode x t s
  | .conftest x e => Sys2Proof.Machine.execConftest x e s
  | .bkfill x e => Sys2Proof.Machine.execBkfill x e s
  | .bkfillReg x e => Sys2Proof.Machine.execBkfillReg x e s
  | .bkwait x e => Sys2Proof.Machine.execBkwait x e s
  | .wqPush x q nw pd => Sys2Proof.Machine.execWqPush x q nw pd s
  | .wqPull x q nw pd => Sys2Proof.Machine.execWqPull x q nw pd s
  | .wqStatCnt x q => Sys2Proof.Machine.execWqStatCnt x q s
  | .wqStatClose x q => Sys2Proof.Machine.execWqStatClose x q s
  | .wqStatOpen x q => Sys2Proof.Machine.execWqStatOpen x q s
  | .launch x n => Sys2Proof.Machine.execLaunch x n s
  | .launchArr x n => Sys2Proof.Machine.execLaunchArr x n s
  | .lqStat x => Sys2Proof.Machine.execLqStat x s
  | .leaseQStat x => Sys2Proof.Machine.execLeaseQStat x s
  | .leaseQWait x => Sys2Proof.Machine.execLeaseQWait x s
  | .leaseQRel x => Sys2Proof.Machine.execLeaseQRel x s
  | .keyhGen x u => Sys2Proof.Machine.execKeyhGen x u s
  | .keyhImp x u => Sys2Proof.Machine.execKeyhImp x u s
  | .keyhRev x => Sys2Proof.Machine.execKeyhRev x s
  | .keyhQry x => Sys2Proof.Machine.execKeyhQry x s
  | .migAckTake x => Sys2Proof.Machine.execMigAckTake x s
  | .migAckRearm x => Sys2Proof.Machine.execMigAckRearm x s
  | .migAckQuiet x => Sys2Proof.Machine.execMigAckQuiet x s
  | .sysrd x r => Sys2Proof.Machine.execSysrd x r s
  | .syswr x r => Sys2Proof.Machine.execSyswr x r s
  | .tret x => Sys2Proof.Machine.execTret x s
  | .tretNext x => Sys2Proof.Machine.execTretNext x s
  | .tretStrike x => Sys2Proof.Machine.execTretStrike x s
  | .presig x => Sys2Proof.Machine.execPresig x s
  | .oplogRd x e w => Sys2Proof.Machine.execOplogRd x e w s
  | .faultRdSeq x => Sys2Proof.Machine.execFaultRdSeq x s
  | .faultRdTake x => Sys2Proof.Machine.execFaultRdTake x s
  | .faultRdFree x => Sys2Proof.Machine.execFaultRdFree x s
  | .faultCancel x m => Sys2Proof.Machine.execFaultCancel x m s
  | .tlbinv x m => Sys2Proof.Machine.execTlbinv x m s
  | .diectlReset x => Sys2Proof.Machine.execDiectlReset x s
  | .diectlStat x => Sys2Proof.Machine.execDiectlStat x s
  | .snuff x => Sys2Proof.Machine.execSnuff x s
  | .haltOff x => Sys2Proof.Machine.execHaltOff x s
  | .haltReboot x => Sys2Proof.Machine.execHaltReboot x s
  | .bankPass core => Sys2Proof.Machine.execBankPass core s
  | .rowRebuild core group row => Sys2Proof.Machine.execRowRebuild core group row s
  | .rowZeroing blk => Sys2Proof.Machine.execRowZeroing blk s
  | .blockPlacement grid => Sys2Proof.Machine.execBlockPlacement grid s
  | .blockCompletion blk => Sys2Proof.Machine.execBlockCompletion blk s
  | .preemptionTrap blk => Sys2Proof.Machine.execPreemptionTrap blk s
  | .preemptionSave blk => Sys2Proof.Machine.execPreemptionSave blk s
  | .preemptionTimeout blk => Sys2Proof.Machine.execPreemptionTimeout blk s
  | .blockRestore blk => Sys2Proof.Machine.execBlockRestore blk s
  | .rollback blk => Sys2Proof.Machine.execRollback blk s
  | .afterglowRelease blk => Sys2Proof.Machine.execAfterglowRelease blk s
  | .binDraw part bin => Sys2Proof.Machine.execBinDraw part bin s
  | .forcedDissolution blk k => Sys2Proof.Machine.execForcedDissolution blk k s
  | .copyAccept blk => Sys2Proof.Machine.execCopyAccept blk s
  | .copyBytesLand blk n => Sys2Proof.Machine.execCopyBytesLand blk n s
  | .obFillComplete part n => Sys2Proof.Machine.execObFillComplete part n s
  | .heldAccessRelease core => Sys2Proof.Machine.execHeldAccessRelease core s
  | .swapEntryValid blk => Sys2Proof.Machine.execSwapEntryValid blk s
  | .waitcmpRecheck blk thr => Sys2Proof.Machine.execWaitcmpRecheck blk thr s
  | .waitcmpPoll blk thr => Sys2Proof.Machine.execWaitcmpPoll blk thr s
  | .waitcmpTimeout blk thr => Sys2Proof.Machine.execWaitcmpTimeout blk thr s
  | .launchPacketTake q => Sys2Proof.Machine.execLaunchPacketTake q s
  | .dependenceResolved grid => Sys2Proof.Machine.execDependenceResolved grid s
  | .priorityRise grid => Sys2Proof.Machine.execPriorityRise grid s
  | .gridCompletion grid => Sys2Proof.Machine.execGridCompletion grid s
  | .wqWaitServed die q => Sys2Proof.Machine.execWqWaitServed die q s
  | .bulkCommandPerform die k => Sys2Proof.Machine.execBulkCommandPerform die k s
  | .bankCommandPerform die turn => Sys2Proof.Machine.execBankCommandPerform die turn s
  | .shadowCopyComplete die k => Sys2Proof.Machine.execShadowCopyComplete die k s
  | .snuffEngineZero granule => Sys2Proof.Machine.execSnuffEngineZero granule s
  | .backfillBatchForm die e => Sys2Proof.Machine.execBackfillBatchForm die e s
  | .migrationEventDeferred k => Sys2Proof.Machine.execMigrationEventDeferred k s
  | .writeDelivery agent => Sys2Proof.Machine.execWriteDelivery agent s
  | .persistentStoreComplete k => Sys2Proof.Machine.execPersistentStoreComplete k s
  | .leaseQWaitTimeout blk thr => Sys2Proof.Machine.execLeaseQWaitTimeout blk thr s
  | .warmResetRetrain ok => Sys2Proof.Machine.execWarmResetRetrain ok s
  | .faultRecordDeferred => Sys2Proof.Machine.execFaultRecordDeferred s
  | .slotBoundary => Sys2Proof.Machine.execSlotBoundary s
  | .coldBoot => Sys2Proof.Machine.execColdBoot s
  | .bankRetirement core bank => Sys2Proof.Machine.execBankRetirement core bank s
  | .forceAfterglow byDie n => Sys2Proof.Machine.execForceAfterglow byDie n s
  | .remoteAccessAtTarget core => Sys2Proof.Machine.execRemoteAccessAtTarget core s
  | .clusterFlitRetry cluster link => Sys2Proof.Machine.execClusterFlitRetry cluster link s
  | .translationWalk core dom asn va acc => Sys2Proof.Machine.execTranslationWalk core dom asn va acc s
  | .l2Eviction die line => Sys2Proof.Machine.execL2Eviction die line s
  | .directoryEntryDrop line => Sys2Proof.Machine.execDirectoryEntryDrop line s
  | .leaseOffer k size port id base expiry => Sys2Proof.Machine.execLeaseOffer k size port id base expiry s
  | .leaseAccept k => Sys2Proof.Machine.execLeaseAccept k s
  | .leaseDecline k => Sys2Proof.Machine.execLeaseDecline k s
  | .offerTimeout k => Sys2Proof.Machine.execOfferTimeout k s
  | .leaseExpiry k => Sys2Proof.Machine.execLeaseExpiry k s
  | .recallTimeout k => Sys2Proof.Machine.execRecallTimeout k s
  | .extentZeroed k => Sys2Proof.Machine.execExtentZeroed k s
  | .leaseRecall k => Sys2Proof.Machine.execLeaseRecall k s
  | .borrowerAck k => Sys2Proof.Machine.execBorrowerAck k s
  | .bisnpReceived slot => Sys2Proof.Machine.execBisnpReceived slot s
  | .releaseConfirmed slot => Sys2Proof.Machine.execReleaseConfirmed slot s
  | .borrowEntryClear slot => Sys2Proof.Machine.execBorrowEntryClear slot s
  | .peerTranslationRequest port id gen inc page tag what => Sys2Proof.Machine.execPeerTranslationRequest port id gen inc page tag what s
  | .peerTranslationReply slot page inc phys => Sys2Proof.Machine.execPeerTranslationReply slot page inc phys s
  | .lenderLost port => Sys2Proof.Machine.execLenderLost port s
  | .slotFrameBoundary => Sys2Proof.Machine.execSlotFrameBoundary s
  | .powerInterval watts => Sys2Proof.Machine.execPowerInterval watts s
  | .thermalTrip die r => Sys2Proof.Machine.execThermalTrip die r s
  | .imageUpdate image => Sys2Proof.Machine.execImageUpdate image s
  | .imageConfirm => Sys2Proof.Machine.execImageConfirm s
  | .powerLoss => Sys2Proof.Machine.execPowerLoss s
  | .warmResetWriteBack => Sys2Proof.Machine.execWarmResetWriteBack s
  | .warmResetReadmit => Sys2Proof.Machine.execWarmResetReadmit s
  | .birluxLinkDown link => Sys2Proof.Machine.execBirluxLinkDown link s
  | .portTrainingFail port => Sys2Proof.Machine.execPortTrainingFail port s
  | .reorderRelease source p => Sys2Proof.Machine.execReorderRelease source p s
  | .heartbeatSend => Sys2Proof.Machine.execHeartbeatSend s
  | .heartbeatReceived r sender => Sys2Proof.Machine.execHeartbeatReceived r sender s
  | .electionTimeout => Sys2Proof.Machine.execElectionTimeout s
  | .voteRequest r sender => Sys2Proof.Machine.execVoteRequest r sender s
  | .voteGrant term sender => Sys2Proof.Machine.execVoteGrant term sender s
  | .candidateTimeout => Sys2Proof.Machine.execCandidateTimeout s
  | .fmRefusal r => Sys2Proof.Machine.execFmRefusal r s
  | .manifestReceived bytes => Sys2Proof.Machine.execManifestReceived bytes s
  | .chunkReceived chunk bytes => Sys2Proof.Machine.execChunkReceived chunk bytes s
  | .linkStateUpdate a b live seq => Sys2Proof.Machine.execLinkStateUpdate a b live seq s
  | .drainRound e => Sys2Proof.Machine.execDrainRound e s
  | .drainProbe source round tags => Sys2Proof.Machine.execDrainProbe source round tags s
  | .queueEnable q => Sys2Proof.Machine.execQueueEnable q s
  | .domainHandlerWrite dom pc => Sys2Proof.Machine.execDomainHandlerWrite dom pc s
  | .configWrite w => Sys2Proof.Machine.execConfigWrite w s
  | .warmResetByP die => Sys2Proof.Machine.execWarmResetByP die s
  | .spdmMessage m => Sys2Proof.Machine.execSpdmMessage m s
  | .portRetrain port t => Sys2Proof.Machine.execPortRetrain port t s
  | .chunkBitmapRead m => Sys2Proof.Machine.execChunkBitmapRead m s
  | .shadowDrop die k => Sys2Proof.Machine.execShadowDrop die k s

end Sys2Proof.Machine
end

