-- ==== Sys2Proof/Machine/Sched.lean ====
section
/-! DEFINITION. Sched.lean: which bundle of a partition issues (R127), which of its program counters (R129), and the fetch and its
checks (R28, R29, R48, R263). -/

namespace Sys2Proof.Machine

/-! ### Readiness (R127, R131) -/

/-- What a lane waits for inside an instruction allows it to go on. -/
def Wait.passes (clk : Nat) : Wait → Bool
  | .none | .access _ => true
  | .barrb _ r | .bwait _ r => r
  | .bwaitt _ due o => o.isSome || decide (due ≤ clk)
  | .bblk => false
  | .waitcmp due o _ _ _ _ _ _ => o.isSome || (match due with | some d => decide (d ≤ clk) | Option.none => false)
  | .fence _ => true
  | .workQueue => false
  | .remote => false
  | .shadow h => h.isSome
  | .lease _ _ e => e
  | .exits _ _ o => o.isSome
  | .record _ => false
  | .replay => true
  | .outgoing r => r
  | .unbound _ => true

/-- A thread may issue now. -/
def Thread.ready (clk : Nat) (t : Thread) : Bool := t.live && decide (t.napUntil ≤ clk) && t.wait.passes clk

/-- The threads of an issue context: those of a home bundle that are in no drawn bundle, or a drawn bundle's members. -/
def Block.ctxThreads (b : Block) : Ctx → List Nat
  | .home n => (List.range b.threads.length).filter fun t => homeBundle t == n && (b.thr t).ctx.isNone
  | .drawn k => ((List.range b.threads.length).filter fun t => (b.thr t).ctx == some k)

/-- The PC subsets of a context: live threads grouped by PC, and by the issue that they are still inside. Each is ready when all
its threads are. Subsets stand in order of their leaders. -/
def Block.subsets (b : Block) (clk : Nat) (c : Ctx) : List (List Nat × Bool) :=
  let ts := (b.ctxThreads c).filter fun t => (b.thr t).live
  let sorted := (List.range 128).flatMap fun h => ts.filter fun t => homeLane t == h
  let same (u t : Nat) : Bool := (b.thr u).pc == (b.thr t).pc && (b.thr u).group == (b.thr t).group
  let heads := sorted.filter fun t => (sorted.find? fun u => same u t) == some t
  heads.map fun h =>
    let g := sorted.filter fun t => same t h
    (g, g.all fun t => (b.thr t).ready clk)

/-- The last leader, the threads of the last issue and the turn count of a context. -/
def Block.turnOf (b : Block) : Ctx → Option Nat × List Nat × Nat
  | .home n => ((b.bundle n).leader, (b.bundle n).cur, (b.bundle n).turn)
  | .drawn k => match Sparse.look b.drawn k with
    | some d => (d.leader, d.cur, d.turn)
    | none => (none, [], 0)

/-- The subset named, as it stands among the live subsets of a context: the one that holds a thread of the last issue. After a
split it is the one of the lowest leader (DESIGN CHOICE, log entry 45). -/
def Block.current (b : Block) (clk : Nat) (c : Ctx) : Option (List Nat × Bool) :=
  (b.subsets clk c).find? fun g => g.1.any (b.turnOf c).2.1.contains

/-- The subsets of a context that may issue, in the order in which the fair lane scheduler tries them, and whether each begins a new
turn (R129): the current subset while its turn lasts, then round from the leader above the last. -/
def Block.subsetOrder (b : Block) (clk : Nat) (c : Ctx) : List (List Nat × Bool) :=
  let subs := ((b.subsets clk c).filter (·.2)).map (·.1)
  let lead (g : List Nat) : Nat := homeLane (g.headD 0)
  let (leader, _, turn) := b.turnOf c
  match leader with
  | none => subs.map fun g => (g, true)
  | some l =>
    let now := match b.current clk c with
      | some (g, true) => if turn < 64 then [g] else []
      | _ => []
    now.map (fun g => (g, false))
      ++ (((subs.filter fun g => l < lead g) ++ subs.filter fun g => lead g ≤ l).filter fun g => !now.contains g).map fun g => (g, true)

/-- The contexts of a partition: home and drawn bundles of the blocks that may issue. -/
def State.contexts (s : State) (c q : Nat) : List (Nat × Ctx) :=
  (s.residents c).flatMap fun e =>
    if !e.2.state.issues || e.2.savedByHw then []
    else ((List.range e.2.bundles.length).filter fun n => n % 4 == q).map (fun n => (e.1, Ctx.home n))
      ++ ((e.2.drawn.filter fun d => d.2.part == 4 * c + q).map fun d => (e.1, Ctx.drawn d.1))

/-- When a context became ready, and its age. -/
def Block.ages (b : Block) : Ctx → Option Nat × Nat
  | .home n => ((b.bundle n).readySince, (b.bundle n).age)
  | .drawn k => match Sparse.look b.drawn k with
    | some d => (d.readySince, d.age)
    | none => (none, 0)

/-- The rank of a ready context (R127): class 0 urgent, 1 waiting drawn bundles, 2 the rest; then age. -/
def State.rank (s : State) (clk : Nat) (e : Nat × Ctx) : Nat × Nat :=
  let (since, age) := (s.blk e.1).ages e.2
  let waited := clk - since.getD clk
  if 2048 ≤ waited then (0, since.getD clk)
  else match e.2 with
    | .drawn _ => if 256 ≤ waited then (1, age) else (2, age)
    | .home _ => (2, age)

/-- The contexts of a partition with a subset that may issue, by rank. Ties go to the lower block number, and to home bundles before
drawn ones (DESIGN CHOICE, log entry 45: the manual gives bundles no slot numbers). -/
def State.ranked (s : State) (c q : Nat) : List (Nat × Ctx) :=
  let clk := (s.die (c / 48)).clk
  let ready := (s.contexts c q).filter fun e => !((s.blk e.1).subsetOrder clk e.2).isEmpty
  let byAge := sortBy (fun e => (s.rank clk e).2) ready
  (List.range 3).flatMap fun k => byAge.filter fun e => (s.rank clk e).1 == k

/-- Some bundle of the partition has a subset that may issue. -/
def State.partReady (s : State) (c q : Nat) : Bool :=
  (s.contexts c q).any fun e => !((s.blk e.1).subsetOrder (s.die (c / 48)).clk e.2).isEmpty

/-- Every context of the partition notes since when it has been ready without issuing (R127); `ok` says which of its subsets could issue
now: with no outstanding dependence, and accepted by their engines. -/
def State.noteReady (s : State) (c q : Nat) (ok : Nat → Ctx → List Nat → Bool) : State :=
  let clk := (s.die (c / 48)).clk
  (s.contexts c q).foldl (fun s e =>
    let r := ((s.blk e.1).subsetOrder clk e.2).any fun g => ok e.1 e.2 g.1
    let f (x : Option Nat) : Option Nat := if r then some (x.getD clk) else none
    s.modBlk e.1 fun b => match e.2 with
      | .home n => b.modBundle n fun y => { y with readySince := f y.readySince }
      | .drawn k => b.modDrawn k fun y => { y with readySince := f y.readySince }) s

/-- What one partition tries to issue: a block, a context, a subset, and whether it begins a turn. -/
structure Try where
  blk : Nat
  ctx : Ctx
  act : List Nat
  fresh : Bool
  deriving DecidableEq, Repr

/-- What a partition tries to issue in this clock, in order, but for what the latency of its operands holds back (R127, R129). -/
def State.tries (s : State) (c q : Nat) (held : List (Nat × Nat)) : List Try :=
  let clk := (s.die (c / 48)).clk
  ((s.ranked c q).flatMap fun e =>
    ((s.blk e.1).subsetOrder clk e.2).map fun g => { blk := e.1, ctx := e.2, act := g.1, fresh := g.2 }).filter fun x =>
      !x.act.any fun t => held.contains (x.blk, t)

/-- A subset issues, with its turn counted (R127, R129). -/
def State.choose (s : State) (c : Nat) (x : Try) : State :=
  let clk := (s.die (c / 48)).clk
  let s := { s with sel := { blk := x.blk, ctx := x.ctx, pc := ((s.blk x.blk).thr (x.act.headD 0)).pc, act := x.act } }
  let lead := x.act.head?.map homeLane
  s.modBlk x.blk fun b => match x.ctx with
    | .home n => b.modBundle n fun y => { y with
        leader := lead, cur := x.act, turn := if x.fresh then 1 else y.turn + 1, readySince := none }
    | .drawn k => b.modDrawn k fun y => { y with
        leader := lead, cur := x.act, turn := if x.fresh then 1 else y.turn + 1, readySince := none
        firstIssue := some (y.firstIssue.getD clk) }

/-- What was to be tried may still issue: what was tried before it may have changed that. -/
def State.stillReady (s : State) (c : Nat) (x : Try) : Bool :=
  let b := s.blk x.blk
  b.state.issues && (b.subsets (s.die (c / 48)).clk x.ctx).contains (x.act, true)

/-! ### Fetch (R28, R29, R48, R263) -/

/-- What a fetch gives. -/
inductive Fetched where
  | ok (i : Instr)
  /-- The machine after what happened instead: a trap, a fault, a wait. -/
  | stop (s : State)
  deriving DecidableEq, Repr

/-- The blocks of the instruction stream that a core's instruction cache holds (DESIGN CHOICE, log entry 11). -/
def icacheSize : Nat := 512

/-- A block of the instruction stream in the issuing core's instruction cache. -/
def State.codeLine (s : State) (w : Who) (va : Nat) : Option ILine :=
  (s.core s.cc).icache.find? fun e => e.dom == w.dom && e.asn == w.asn && e.unit == va / 32

/-- Bytes of a block of the instruction stream. -/
def ILine.code (e : ILine) (va n : Nat) : List Byte := (e.bytes.drop (va % 32)).take n

/-- A fetch meets a restartable fault: the subset waits on its record, without an entry of the operand log (R265). -/
def State.fetchFault (s : State) (cause why level : Nat) : State :=
  let b := s.cb
  let r := b.restartRec cause why level 2 s.sel.act.length s.sel.pc s.sel.pc false
  let (s, seq) := s.raiseRestart s.cd r (.fetch s.sel.blk s.sel.act)
  s.modCb fun b => b.modThrs s.sel.act fun _ t => { t with wait := .record seq }

/-- The block of the instruction stream at the selected PC: translated like a load, from the instruction cache, or else read through the L2 and
entered there in place of the oldest (R263, R278, log entry 11). -/
def State.fetchPage (s : State) : State × Except Stop ILine :=
  let va := s.sel.pc.toNat
  let base := va / 32 * 32
  let w := s.cb.who
  match s.translate w base 32 .fetch false with
  | (s, .error x) => (s, .error x)
  | (s, .ok p) =>
    match s.codeLine w va with
    | some e => (s, .ok e)
    | none =>
      match s.loadAt w p (p.pa + (base - p.va)) 32 with
      | (s, .error x) => (s, .error x)
      | (s, .ok bs) =>
        let e : ILine := { dom := w.dom, asn := w.asn, unit := va / 32, page := p.va, size := p.size, pa := p.pa, bytes := bs }
        (s.modCore s.cc fun c => { c with icache := (e :: c.icache).take icacheSize }, .ok e)

/-- An instruction that is ill encoded traps at its issue, which is counted (R28, R209). One that may not issue in a fault shadow waits there,
and raises nothing (R266). -/
def State.illEncoded (s : State) (op len cause : Nat) : State :=
  if !s.pendingLog.isEmpty && !opInShadow op then s.noIssue else (s.countIssue 1).trapAll len cause

/-- The instruction at the selected PC, or the first trap of R29 or fault that stands before it (R112, R126). -/
def State.fetchNow (s : State) : State × Fetched :=
  let pc := s.sel.pc
  let lanes (s : State) (cause : Nat) : Fetched :=
    .stop ((s.fault 4 (s.sel.act.map fun t => (t, { cause := cause, addr := pc }))).settle s.sel.blk)
  if !canonical pc then (s, lanes s 0x12)
  else if pc.toNat % 4 != 0 then (s, lanes (s.countIssue 1) 4)
  else
    match s.fetchPage with
    | (s, .error (.lane _)) => (s, lanes s 0x12)
    | (s, .error (.restart c w l)) => (s, .stop (s.fetchFault c w l))
    | (s, .error .wait) => (s, .stop s.noIssue)
    | (s, .error (.poison pa)) => (s, .stop (s.consume s.sel.blk 0 (.ofNat 64 pa)))
    | (s, .ok e) =>
      let op := leNat (e.code pc.toNat 2) / 4 % 256
      match lenBytes (leNat (e.code pc.toNat 1) % 4) with
      | none => (s, .stop (s.illEncoded op 4 3))
      | some n =>
        if 32 < pc.toNat % 32 + n then (s, .stop (s.illEncoded op n 4))
        else
          match decode (e.code pc.toNat n) with
          | .ok i => (s, .ok i)
          | .illegalLen => (s, .stop (s.illEncoded op 4 3))
          | .illegalOpcode => (s, .stop (s.illEncoded op n 1))
          | .illegalOperand op => (s, .stop (s.illEncoded op n (if s.roleOk op then 2 else 6)))

/-- The fetch of an issue whose lanes are past every fence (R289); where a fence cannot complete yet, the issue waits. -/
def State.fetch (s : State) : State × Fetched :=
  if s.sel.act.any fun t => (s.cb.thr t).wait.fenceScope.isSome then
    let s1 := s.completeFences s.sel.blk s.sel.act
    if s1.sel.act.any fun t => (s1.cb.thr t).wait.fenceScope.isSome then (s1, .stop s1.noIssue) else s1.fetchNow
  else s.fetchNow

/-! ### Time -/

/-- An outcome's next state is changed by a function. -/
def mapNext (f : State → State) : Host.Outcome State Fault Refusal → Host.Outcome State Fault Refusal
  | .next s => .next (f s)
  | .fault r => .fault r
  | .refused r => .refused r

/-- One clock passes on every die (log entry 1). -/
def State.tick (s : State) : State :=
  { s with dies := (List.range 4).foldl (fun ds d =>
      Sparse.put ds d { (Sparse.getOr ds d Die.reset) with clk := (Sparse.getOr ds d Die.reset).clk + 1 }) s.dies }

end Sys2Proof.Machine
end

