-- ==== Sys2Proof/Machine/Afterglow.lean ====
section
/-! DEFINITION. Afterglow.lean: the trailing copies of a block in afterglow mode: what they issue behind their leaders, the release
queue, and the comparison of the two copies (R143, R144). -/

namespace Sys2Proof.Machine

/-! ### The two copies -/

/-- A thread with another's registers, predicates and flags. -/
def Thread.withData (t d : Thread) : Thread := { t with v := d.v, bad := d.bad, p := d.p, nflags := d.nflags }

/-- A bundle with another's scalar registers, rejoin masks and format registers. -/
def Bundle.withData (t d : Bundle) : Bundle := { t with s := d.s, bad := d.bad, j := d.j, f := d.f }

/-- Bytes 0 to 131,071 of an operand buffer and bytes 131,072 to 262,143 change places. -/
def swapHalves {α : Type} (m : Sparse α) : Sparse α :=
  ((m.filter fun e => 131072 ≤ e.1).map fun e => (e.1 - 131072, e.2)) ++ (m.filter fun e => e.1 < 131072).map fun e => (e.1 + 131072, e.2)

/-- The trailer's tiles and buffer units in place of the leader's: it uses a1 and units 512 to 1023 (R143, R233). -/
def State.swapTiles (s : State) (bid : Nat) : State :=
  let b := s.blk bid
  b.mats.foldl (fun s q => s.modPart (4 * b.core + q) fun p => { p with
    tiles := sortBy (·.1) (p.tiles.map fun e => (1 - e.1, e.2)), buf := swapHalves p.buf, bufPoison := swapHalves p.bufPoison }) s

/-- The trailer's view: its own registers, predicates, flags, masks, tile and units in place of the leader's. -/
def State.asTrailer (s : State) (bid : Nat) : State :=
  match (s.blk bid).trail with
  | some t => (s.modBlk bid fun b => { b with
      threads := b.threads.zipIdx.map fun e => e.1.withData (t.threads.getD e.2 e.1)
      bundles := b.bundles.zipIdx.map fun e => e.1.withData (t.bundles.getD e.2 e.1) }).swapTiles bid
  | none => s

/-- The trailing copies of a block become what a trailer's view of it holds. -/
def State.keepTrail (s : State) (bid : Nat) (v : State) : State :=
  s.modBlk bid fun b => { b with trail := b.trail.map fun t => { t with
    threads := (v.blk bid).threads, bundles := (v.blk bid).bundles } }

/-- The state without what is private to the two copies. -/
def State.released (s : State) (bid : Nat) : State :=
  let b := s.blk bid
  (b.mats.foldl (fun s q => s.modPart (4 * b.core + q) fun p => { p with tiles := [], buf := [], bufPoison := [] }) s).modBlk bid fun b =>
    { b with
      threads := b.threads.map fun t => { t with v := [], bad := [], p := 0, nflags := 0 }
      bundles := b.bundles.map fun x => { x with s := [], bad := [], j := [], f := [] }
      journal := [], logged := 0, check := none, trail := none }

/-- The trailer has produced the leader's operation: the same addresses, data, masks and operands (R143, R144). -/
def State.agree (a b : State) (bid : Nat) : Bool := decide (a.released bid = b.released bid)

/-! ### What the trailer issues behind the leader -/

/-- The numeric flags that an instruction reads, in its executing lanes (R71). -/
def State.flagsRead (s : State) (i : Instr) : List (BitVec 6) :=
  match i.readsFlags, i.opnds? with
  | true, some x => (s.exe x.g).map fun t => (s.cb.thr t).nflags
  | _, _ => []

/-- The trailer issues an instruction (R143), whatever its block has come to meanwhile. A disagreement in the flags it reads is an afterglow
mismatch (R144); a register of its own may have an uncorrectable error (R146). -/
def State.trailIssue (s : State) (bid : Nat) (it : TrailItem) : State :=
  let v := { s.asTrailer bid with sel := { blk := bid, ctx := it.ctx, pc := it.pc, act := it.act } }
  let v := v.modBlk bid fun b => { b.modThrs it.act (fun _ t => { t with
      pc := it.pc, status := .running, wait := .none, group := 0 }) with
    state := .running, bundles := b.bundles.map fun x => { x with oplog := [] }
    drawn := b.drawn.map fun e => (e.1, { e.2 with oplog := [] }) }
  if v.flagsRead it.i != it.flags then s.consume bid 3 0
  else if v.badRead it.i then s.consume bid 1 0
  else
    match it.vals, it.i.opnds? with
    | some vs, some x =>
      s.keepTrail bid ((v.write x.d it.i.sig.d.span (vs.map fun e => (e.1, e.2.1))).flagLanes (vs.map fun e => (e.1, e.2.2)))
    | _, _ => match exec it.i v with
      | .next w => s.keepTrail bid w
      | _ => s

/-- The trailer of a context issues the oldest n instructions that it has not issued. -/
def State.trailRun (s : State) (bid : Nat) (ctx : Ctx) (n : Nat) : State :=
  match (s.blk bid).trail with
  | none => s
  | some t =>
    let mine := t.todo.filter fun e => e.ctx == ctx
    let s := (mine.take n).foldl (fun s e => s.trailIssue bid e) s
    s.modBlk bid fun b => { b with trail := b.trail.map fun x => { x with
      todo := (t.todo.filter fun e => e.ctx != ctx) ++ mine.drop n } }

/-- The trailers of a block catch up completely. -/
def State.catchUp (s : State) (bid : Nat) : State :=
  match (s.blk bid).trail with
  | none => s
  | some t => (t.todo.map (·.ctx)).eraseDups.foldl (fun s c => s.trailRun bid c t.todo.length) s

/-- The instruction that the leader has just issued, from s to a, as the trailer is to issue it: the lanes that are still inside it are not
done, and a destination that waits for a replay is written when the replay is. -/
def State.trailItem (s a : State) (i : Instr) : Option TrailItem :=
  let b := a.cb
  let done := s.sel.act.filter fun t => (b.thr t).wait == .none
  let pend := a.pendingLog
  match i.opnds? with
  | none => none
  | some x =>
    if done.isEmpty then none
    else
      let val (l : Nat) : Nat := match x.d with
        | .v n => (b.thr l).vwide n.toNat i.sig.d.span
        | .s n => a.swide n.toNat i.sig.d.span
        | .p n => if (b.thr l).pred n then 1 else 0
        | _ => 0
      let got := ((s.exe x.g).filter fun l => done.contains l && !pend.any fun e => e.lanes.any fun y => y.thr == l).map fun l =>
        (l, val l, (b.thr l).nflags &&& ~~~(s.cb.thr l).nflags)
      some { ctx := s.sel.ctx, pc := s.sel.pc, act := s.sel.act, i := i, flags := s.flagsRead i,
             vals := if i.ownValues then none else some got }

/-- The leader has issued an instruction whose effect stays in its bundle: the trailer keeps 8 instructions behind it, and catches up
where the leader waits or ends (R143). -/
def State.trailAfter (s a : State) (i : Instr) : State :=
  let bid := s.sel.blk
  let a1 : State := match s.trailItem a i with
    | some it => a.modBlk bid fun b => { b with trail := b.trail.map fun t => { t with todo := t.todo ++ [it] } }
    | none => a
  let b := a1.blk bid
  let mine := ((b.trail.map (·.todo)).getD []).filter fun e => e.ctx == s.sel.ctx
  let runs := s.sel.act.all fun t => (b.thr t).status == .running && (b.thr t).wait == .none
  a1.trailRun bid s.sel.ctx (if runs then mine.length - 8 else mine.length)

/-! ### The release queue -/

/-- The issue is new: none of its lanes is inside an instruction. -/
def State.freshIssue (s : State) : Bool := s.sel.act.all fun t => (s.cb.thr t).wait == .none && (s.cb.thr t).group == 0

/-- Operations of the issuing bundle in its release queue. -/
def State.heldOut (s : State) : Nat :=
  (((s.cb.ctxThreads s.sel.ctx).filter fun t => match (s.cb.thr t).wait with | .outgoing _ => true | _ => false).map fun t =>
    (s.cb.thr t).group).eraseDups.length

/-- In afterglow mode an operation that leaves its bundle enters the release queue, and its lanes wait until the trailer has caught
up with it; the leader stalls while the 32 entries are taken (R143). -/
def State.holdOut (s : State) : State :=
  if 32 ≤ s.heldOut then s.noIssue
  else s.modCb fun b => b.modThrs s.sel.act fun _ t => { t with wait := .outgoing false, group := 1 + s.sel.act.headD 0 }

/-- A released operation issues. -/
def State.clearOut (s : State) : State :=
  s.modCb fun b => b.modThrs s.sel.act fun _ t => if t.wait == .outgoing true then { t with wait := .none, group := 0 } else t

/-- A released operation that cannot issue yet stays released. -/
def State.stayOut (a s : State) : State :=
  a.modCb fun b => b.modThrs s.sel.act fun k t =>
    if (s.cb.thr k).wait == .outgoing true && t.wait == .none then { t with wait := .outgoing true, group := (s.cb.thr k).group } else t

/-- The joint effect of leader and trailer on a state: the leader's, with each copy's own registers and tile. Where the operation leaves
the bundle and the two disagree it is not performed: an afterglow mismatch (R144). -/
def State.joinTrail (s : State) (i : Instr) (a b : State) : State :=
  let bid := s.sel.blk
  if (s.asTrailer bid).badRead i then s.consume bid 1 0
  else if i.leavesBundle && !a.agree b bid then s.consume bid 3 0
  else
    let own := b.swapTiles bid
    (a.cb.mats.foldl (fun a q =>
      let p := 4 * a.cc + q
      a.modPart p fun x => { x with
        tiles := (x.tiles.filter fun e => e.1 == 0) ++ (own.part p).tiles.filter fun e => e.1 == 1 }) a).keepTrail bid b

/-- Both copies act together: a released operation, or an instruction on the tiles. -/
def runBoth (i : Instr) (s : State) : Host.Outcome State Fault Refusal :=
  let bid := s.sel.blk
  let s0 := s.clearOut.catchUp bid
  if !s0.cb.state.issues then .next s0
  else
    match exec i s0, exec i (s0.asTrailer bid) with
    | .next a, .next b => .next (if a.sel.stalled && (!i.leavesBundle || a.agree b bid) then a.stayOut s else s0.joinTrail i a b)
    | o, _ => o

/-- An issued instruction of a block in afterglow mode (R143). -/
def runGlow (i : Instr) (s : State) : Host.Outcome State Fault Refusal :=
  if i.leavesBundle then if s.freshIssue then .next s.holdOut else runBoth i s
  else if i.onTile then runBoth i s
  else match exec i s with
    | .next a => .next (if a.sel.stalled then a else s.trailAfter a i)
    | o => o

/-! ### What happens to a block outside its own issues -/

/-- The values that changed between two maps, in a third. -/
def Sparse.follow {n : Nat} (new old own : Sparse (BitVec n)) : Sparse (BitVec n) :=
  if new = old then own
  else ((new.keys ++ old.keys).eraseDups.filter fun k => Sparse.getOr new k 0 != Sparse.getOr old k 0).foldl
    (fun m k => Sparse.putOr m k (Sparse.getOr new k 0) 0) own

/-- The bits that changed between two words, in a third. -/
def followBits {n : Nat} (new old own : BitVec n) : BitVec n := (own &&& ~~~(new ^^^ old)) ||| (new &&& (new ^^^ old))

/-- What an event writes to a leader's registers its trailer, which `old` has caught up, takes too: results of replays, and what is lost or
restored. -/
def State.followOne (s old : State) (bid : Nat) : State :=
  let ob := old.blk bid
  s.modBlk bid fun b => { b with trail := ob.trail.map fun t => { t with
    threads := b.threads.zipIdx.map fun e =>
      let o := ob.thr e.2
      let own := t.threads.getD e.2 e.1
      { e.1 with v := Sparse.follow e.1.v o.v own.v, bad := if e.1.bad = o.bad then own.bad else e.1.bad
                 p := followBits e.1.p o.p own.p, nflags := followBits e.1.nflags o.nflags own.nflags }
    bundles := b.bundles.zipIdx.map fun e =>
      let o := ob.bundle e.2
      let own := t.bundles.getD e.2 e.1
      { e.1 with s := Sparse.follow e.1.s o.s own.s, bad := if e.1.bad = o.bad then own.bad else e.1.bad
                 j := Sparse.follow e.1.j o.j own.j, f := Sparse.follow e.1.f o.f own.f } } }

/-- The answers of lenders that the step has taken up are gone (R392). Trailing copies follow what happens to their leaders outside their own issues; the issuing block's are left. They catch up first with
what their leaders have issued (R143), and where that meets a mismatch it is consumed before what was to happen (R144). -/
def State.follow (new old : State) (skip : Option Nat) : State :=
  let new := new.closeAnswers false
  let mine (e : Nat × Block) : Bool := e.2.trail.isSome && skip != some e.1
    && !(e.2.threads = (old.blk e.1).threads && e.2.bundles = (old.blk e.1).bundles)
  match (new.blocks.filter mine).map (·.1) with
  | [] => new
  | bids =>
    let old1 := bids.foldl (fun s b => if (old.blk b).trail.isSome then s.catchUp b else s) old
    if bids.any fun b => (old.blk b).trail.isSome && (old.blk b).state.issues && !(old1.blk b).state.issues then old1
    else bids.foldl (fun s b => if (old.blk b).trail.isSome then s.followOne old1 b else s) new

end Sys2Proof.Machine
end

