-- ==== Sys2Proof/Machine/Policy.lean ====
section
/-! DEFINITION. Policy.lean: what happens next where the agenda, the model's list of outside choices, is empty (log entry 2): issues
and internal events take turns; each partition with a ready bundle issues once a clock (R127, log entry 1); where none is ready, time
passes between events. -/

namespace Sys2Proof.Machine

/-- What a thread's wait may lead to. -/
def Thread.events (bid k : Nat) (t : Thread) : List Instr :=
  (if t.napUntil = 0 then [] else [.napExpiry bid k]) ++
    match t.wait with
    | .bwaitt _ _ none => [.bwaittTimeout bid k]
    | .waitcmp _ none _ _ _ _ _ _ => [.waitcmpRecheck bid k, .waitcmpPoll bid k, .waitcmpTimeout bid k]
    | .lease _ (some _) false => [.leaseQWaitTimeout bid k]
    | _ => []

/-- What may happen to a block. -/
def Block.events (bid : Nat) (b : Block) : List Instr :=
  (match b.state with
    | .placed | .restored => [.rowZeroing bid]
    | .running => [.copyAccept bid, .afterglowRelease bid, .blockCompletion bid, .preemptionTrap bid]
    | .preempting => [.copyAccept bid, .afterglowRelease bid, .blockCompletion bid, .preemptionSave bid, .preemptionTimeout bid]
    | .saved => [.swapEntryValid bid, .blockRestore bid]
    | .rollingBack => [.copyAccept bid, .rollback bid]
    | .killed => if b.draining then [.blockCompletion bid] else []
    | .completed => [])
  ++ (b.copies.map fun c => .copyBytesLand bid c.k) ++ (b.drawn.map fun e => .forcedDissolution bid e.1)
  ++ if b.state.resident || b.state == .saved then b.threads.zipIdx.flatMap fun e => e.1.events bid e.2 else []

/-- What may happen in a core's scratchpad and at its port. -/
def Core.events (c : Nat) (k : Core) : List Instr :=
  (if k.port.isEmpty then [] else [.heldAccessRelease c])
  ++ (if k.scratch.queue.isEmpty && k.scratch.rewrites.isEmpty then [] else [.bankPass c])
  ++ k.scratch.lost.map fun e => .rowRebuild c (e.1 % 16) (e.1 / 16)

/-- Walks that are asked for, and stores that engines have still to make. -/
def Die.moves (d : Nat) (x : Die) : List Move :=
  ((x.walks.filter (·.failed.isNone)).map fun r => .walk (r.cores.headD (48 * d)) r.dom r.asn (4096 * r.page) r.acc)
    ++ if x.stores.isEmpty then [] else [.stores d]

/-- What may happen on a die. -/
def Die.events (d : Nat) (x : Die) : List Instr :=
  (if x.deferred.isEmpty then [] else [.faultRecordDeferred])
  ++ (x.bulk.map fun c => .bulkCommandPerform d c.k) ++ (x.kcopies.map fun c => .bulkCommandPerform d c.k) ++ (x.bank.map fun c => .bankCommandPerform d ⟨c.k, 0, []⟩)
  ++ (x.shadows.map fun e => .shadowCopyComplete d e.1) ++ (x.wqs.map fun e => .wqWaitServed d e.1)
  ++ (x.exits.map fun e => .backfillBatchForm d e.1)
  ++ if x.warm.step = 1 || x.warm.step = 2 then [.warmResetWriteBack]
    else if x.warm.step = 3 || x.warm.step = 4 then [.warmResetRetrain true]
    else if x.warm.step = 5 then [.warmResetReadmit] else []

/-- What may happen in the hub. -/
def Hub.events (h : Hub) : List Instr :=
  (if h.inflight.isEmpty then [] else (List.range 5).map .writeDelivery)
  ++ (h.persists.map fun e => .persistentStoreComplete e.k)
  ++ (h.zeroing.map fun e => .snuffEngineZero e.1) ++ (h.zeroFrames.map fun e => .snuffEngineZero (e.2 / 16))
  ++ (h.queues.map fun e => .launchPacketTake e.1)
  ++ h.peers.zipIdx.map fun e => .migrationEventDeferred e.2

/-- The events of the package's own hardware that may be due. What comes from outside, errors, and
the lender's steps of a lease stand on the agenda alone. -/
def State.mayHappen (s : State) : List Instr :=
  if s.hub.power == .reboot then [.coldBoot]
  else
    (s.blocks.flatMap fun e => e.2.events e.1)
    ++ (s.parts.flatMap fun e => (e.2.fills.map fun f => .obFillComplete e.1 f.ob) ++ e.2.bins.map fun b => .binDraw e.1 b.1)
    ++ (s.cores.flatMap fun e => e.2.events e.1) ++ (s.dies.flatMap fun e => e.2.events e.1) ++ s.hub.events
    ++ s.grids.flatMap fun e => [.dependenceResolved e.1, .gridCompletion e.1, .blockPlacement e.1, .priorityRise e.1]

/-- What a packet brings about once it is released to the package (R389): the event that its arrival is. -/
def Packet.run (s : State) : Packet → Host.Outcome State Fault Refusal
  | .request port id gen inc page tag what => execPeerTranslationRequest port id gen inc page tag what s
  | .reply slot page inc phys => execPeerTranslationReply slot page inc phys s
  | .dataReply slot tag inc ok => .next (s.dataReply slot tag inc ok)
  | .recalled slot => execBisnpReceived slot s
  | .confirmed slot => execReleaseConfirmed slot s
  | .accepted k => execLeaseAccept k s
  | .declined k => execLeaseDecline k s
  | .acknowledged k => execBorrowerAck k s
  | .heartbeat r sender => execHeartbeatReceived r sender s
  | .voteRequest r sender => execVoteRequest r sender s
  | .voteGrant term sender => execVoteGrant term sender s
  | .refusal r => execFmRefusal r s
  | .manifest bytes => execManifestReceived bytes s
  | .chunk n bytes => execChunkReceived n bytes s
  | .bitmap sender answer => execChunkBitmapRead ⟨sender, answer⟩ s
  | .linkState a b live seq => execLinkStateUpdate a b live seq s
  | .probe source round tags => execDrainProbe source round tags s

/-- What a move does that is no issue. -/
def State.happen (s : State) : Move → Host.Outcome State Fault Refusal
  | .event e => exec e s
  | .walk c dom asn va acc => execTranslationWalk c dom asn (.ofNat 64 va) acc s
  | .packet p => Packet.run s p
  | .stores d => .next (s.runStores d)
  | .ahead k va l1 => .next (if (s.blk k).state == .running then s.prefetch (s.blk k).who va l1 [va % 256 / 64] else s)
  | .issue .. | .issueHeld .. | .issuePart .. => .next s

/-- The internal events that may be due, in an order that turns. -/
def State.dueMoves (s : State) : List Move :=
  let asks := s.hub.asks.map fun a => Move.packet (.request a.port a.id a.gen a.inc a.page a.tag a.what)
  let ms := (s.mayHappen.map Move.event) ++ (s.dies.flatMap fun (e : Nat × Die) => e.2.moves e.1) ++ asks
  ms.rotateLeft (s.evNext % (ms.length + 1))

/-- The first internal event that changes something now. -/
def State.nextEvent (s : State) : Option Move :=
  s.dueMoves.find? fun m =>
    match s.happen m with
    | .next t => decide (t ≠ s)
    | _ => false

/-- The partitions of cores with resident blocks. -/
def State.issuable (s : State) : List Nat :=
  ((s.blocks.filter fun e => e.2.state.issues).map fun e => e.2.core).eraseDups.flatMap fun c => (List.range 4).map (4 * c + ·)

/-- Partitions that may still issue in this clock. -/
def State.toIssue (s : State) : List Nat :=
  s.issuable.filter fun p => !s.clocked.contains p && s.partReady (p / 4) (p % 4)

/-- Every partition with a ready bundle has issued in this clock, which may end (R127). -/
def State.roundDone (s : State) : Bool := s.toIssue.isEmpty

/-- The next clock begins. -/
def State.newClock (s : State) : State := { s.tick with clocked := [] }

/-- The partition that the default policy lets issue: one that has not issued in this clock, otherwise one that may in the next. -/
def State.nextPart (s : State) : Option Nat :=
  s.toIssue.head?.or (s.issuable.find? fun p => s.partReady (p / 4) (p % 4))

/-- The current slot has lasted 250 ns (R354). -/
def State.slotDue (s : State) : Bool :=
  (List.range 4).all fun d => decide ((s.die d).slotAt + (s.die d).mhz / 4 ≤ (s.die d).clk)

/-- The move of the default policy. -/
def State.defaultMove (s : State) : State × Move :=
  let event := if s.slotDue then some (.event .slotBoundary) else s.nextEvent
  let take (p : Nat) : State × Move := ({ s with evTurn := true }, .issue (p / 4) (p % 4))
  let happen (m : Move) : State × Move := ({ s with evTurn := false, evNext := s.evNext + 1 }, m)
  match s.nextPart, event with
  | some p, some e => if s.evTurn then happen e else take p
  | some p, none => take p
  | none, some e => if s.evTurn then happen e else ({ s with evTurn := true }, .event .slotBoundary)
  | none, none => ({ s with evTurn := true }, .event .slotBoundary)

/-- A bin of a partition whose draw, or the dissolution that makes room for it, has come due (R135 to R137). -/
def State.drawDue (s : State) (part : Nat) : Option Instr :=
  let free := 8 - (s.drawnOn part).length
  match ((s.binsDue part).take free).find? fun e => decide (e.2.opened + 256 ≤ (s.die (part / 192)).clk) with
  | some e => some (.binDraw part e.1)
  | none => if free = 0 then (s.dissolvable part).map fun e => .forcedDissolution e.1 e.2.1 else none

/-- A look of a `waitcmp` without a pilot entry whose 2 µs are over (R286). -/
def Die.pollDue (s : State) (x : Die) : Option Instr :=
  (x.polls.find? fun e => decide (e.2.2 + 2 * x.mhz ≤ x.clk)
    && match ((s.blk e.1).thr e.2.1).watching.1 with
      | .waitcmp _ none _ _ _ _ _ _ => true
      | _ => false).map fun e => .waitcmpPoll e.1 e.2.1

/-- What the hardware promises to have done by now (R137): draws of bins, re-checks, the end of a pre-emption, the rise of a launch. -/
def State.overdue (s : State) : Option Instr :=
  if s.hub.power != .on then none
  else
    (s.parts.findSome? fun e => s.drawDue e.1).or
      ((s.blocks.findSome? fun e => if e.2.state == .preempting
          && (e.2.preemptDue.any fun t => decide (t ≤ (s.die (e.2.core / 48)).clk)) then some (Instr.preemptionTimeout e.1) else none).or
        ((s.grids.findSome? fun e => if s.canRise e.2 then some (Instr.priorityRise e.1) else none).or
          (s.dies.findSome? fun e => Die.pollDue s e.2)))

/-- What comes before a move of the agenda: what is overdue; no partition issues twice, and no slot ends early, while a ready bundle of
another waits (R137). -/
def State.before (s : State) (m : Move) : Option Move :=
  match s.overdue with
  | some e => if m == .event e then none else some (.event e)
  | none => (match m with
    | .issue c q | .issueHeld c q _ | .issuePart c q _ => if s.clocked.contains (4 * c + q) then s.toIssue.head? else none
    | .event .slotBoundary | .event .slotFrameBoundary => if s.slotDue then none else s.nextPart
    | _ => none).map fun p => .issue (p / 4) (p % 4)

/-- The next move: what must come first, the agenda's head, or the default policy's. -/
def State.nextMove (s : State) : State × Move :=
  match s.agenda with
  | m :: r =>
    match s.before m with
    | some x => (s, x)
    | none => ({ s with agenda := r }, m)
  | [] =>
    match s.overdue with
    | some e => (s, .event e)
    | none => s.defaultMove

end Sys2Proof.Machine
end

