-- ==== Sys2Proof/Machine/Step.lean ====
section
/-! DEFINITION. Step.lean: one step of the machine, and how a program's instruction is placed for it. -/

namespace Sys2Proof.Machine

/-- An issued instruction: exec, where the block has one copy; leader and trailer in afterglow mode (R143). -/
def runInstr (i : Instr) (s : State) : Host.Outcome State Fault Refusal :=
  match s.cb.trail with
  | none => exec i s
  | some _ => runGlow i s

/-- A chosen subset issues: replays that had to wait are tried first (R273); then what the fetch met, or the instruction. -/
def runChosen (s : State) : Host.Outcome State Fault Refusal :=
  if s.staleHere then .next (s.replayHere.follow s none)
  else
    match s.fetch with
    | (_, .stop t) => .next (t.follow s none)
    | (t, .ok i) => mapNext (fun a => a.follow t (some t.sel.blk)) (runInstr i t)

/-- A subset could issue now: its fetch succeeds, nothing that it depends on is outstanding, and its engine accepts it (R127). -/
def canIssue (s : State) (c : Nat) (held : List (Nat × Nat)) (blk : Nat) (ctx : Ctx) (act : List Nat) : Bool :=
  !(act.any fun t => held.contains (blk, t))
    && match runChosen (s.choose c { blk := blk, ctx := ctx, act := act, fresh := false }) with
      | .next t => !t.sel.stalled
      | _ => true

/-- A partition's turn to issue begins: it has used this clock, and its bundles note since when they are ready (R127). -/
def beginIssue (c q : Nat) (held : List (Nat × Nat)) (s : State) : State :=
  let s := if s.clocked.contains (4 * c + q) then s.newClock else s
  let s := { s with clocked := (4 * c + q) :: s.clocked }
  s.noteReady c q (canIssue s c held)

/-- The lanes of the issue that its passes over the scratchpad put off (R186); in afterglow mode none. -/
def State.putOff (s : State) (later : List (Nat × Nat)) : State :=
  if later.isEmpty || s.cb.trail.isSome then s
  else { s with sel := { s.sel with later := s.sel.act.filter fun t => later.contains (s.sel.blk, t) } }

/-- Subsets are tried in order until one issues: one that turns out to wait on the scoreboard or on an engine is passed over (R127, R129). -/
def runTries (c : Nat) (later : List (Nat × Nat)) : List Try → State → Host.Outcome State Fault Refusal
  | [], s => .next s
  | x :: xs, s =>
    if !s.stillReady c x then runTries c later xs s
    else
      match runChosen ((s.choose c x).putOff later) with
      | .next t => if t.sel.stalled then runTries c later xs t else .next t
      | o => o

/-- A partition issues at most one instruction in a clock (R127). -/
def runIssue (c q : Nat) (held later : List (Nat × Nat)) (s : State) : Host.Outcome State Fault Refusal :=
  let s := beginIssue c q held s
  runTries c later (s.tries c q held) s

/-- A move that is no issue, in the next clock where this one is over. What is no event cannot stand on the agenda. -/
def runMove (m : Move) (s : State) : Host.Outcome State Fault Refusal :=
  let s := if s.roundDone then s.newClock else s
  mapNext (fun a => a.follow s none) (s.happen m)

/-- A move may be made without power: only what restores it (R360). -/
def Move.unpowered : Move → Bool
  | .event e => e.unpowered
  | _ => false

/-- One step: the next move of the agenda or of the default policy. Without power only what restores it happens (R360). -/
def step (s : State) : Host.Outcome State Fault Refusal :=
  match s.nextMove with
  | (s, m) =>
    if s.hub.power != .on && !m.unpowered then .next s
    else
      match m with
      | .issue c q => runIssue c q [] [] s
      | .issueHeld c q h => runIssue c q h [] s
      | .issuePart c q l => runIssue c q [] l s
      | .event e => if e.opFn.isSome then .fault .badAgenda else runMove m s
      | m => runMove m s

namespace State

/-- An 8-byte value at its home. -/
def poke (s : State) (pa : Nat) (v : Nat) : State := { s with mem := s.mem.setBytes pa (leBytes 8 v) }

/-- A program of one instruction on core 0 of C0, as a launch in domain 0 would leave it (log entry 4): one block of one thread
alone on the core, with a page of 1 GiB at virtual and physical address 0 whose three-level table in the pool has been walked; the code in it at
0x40_0000; the granules' owners and a slot table that serves the domain; the next move issues it. -/
def withFetchWord (s : State) (nbits w : Nat) : State :=
  let t := 2 ^ 41
  let leaf := 0x303B + 9 * 2 ^ 14
  let ptr (k : Nat) : Nat := 1 + (t / 4096 + k) * 2 ^ 20
  let entry : TlbLeaf := { dom := 0, asn := 0, va := 0, size := 2 ^ 30, pte := .ofNat 64 leaf, level := 2, leaf := t + 8192 }
  let s := { s with blocks := s.blocks.filter fun e => e.2.core != 0 }
  let s := s.modHub fun h => { h with
    owner := Sparse.put (Sparse.put (Sparse.put h.owner 0 0) 64 0) (t / 65536) 0x10, frames := [], dir := []
    slots := List.replicate 64 0, slot := 0, power := .on }
  let s := ((s.poke t (ptr 1)).poke (t + 4096) (ptr 2)).poke (t + 8192) leaf
  let s := { s with mem := s.mem.setBytes 0x400000 (leBytes 16 (w % 2 ^ nbits)), poison := [] }
  let s := { s with dies := Sparse.put s.dies 0 { s.die 0 with
    tlb := [entry], l2 := { bytes := [], valid := [], poison := [] }, warm := { step := 0, tries := 0 } } }
  let s := (s.modCore 0 fun k => { k with tlb := [entry], icache := [], l1 := [] }).modPart 0 fun _ =>
    { Partition.reset with owner := some s.blockNext }
  let b : Block := { Block.absent with
    hdr := { Header.zero with entry := 0x400000, w := [11, 0, 0, 0, 0, 0], regs := 255, nvec := 1, scratch := 1024, barriers := 16 }
    state := .running, threads := [Thread.start 0x400000], bundles := [Bundle.start 0], rows := List.range 1024, mats := [0]
    root := t, shdwwin := 0x7F0000000000 }
  { s with blocks := Sparse.put s.blocks s.blockNext b, blockNext := s.blockNext + 1, clocked := [], agenda := .issue 0 0 :: s.agenda }

end State

end Sys2Proof.Machine
end

