-- ==== Sys2Proof/Safety.lean ====
section
/-! DEFINITION. Safety.lean: what counts as a safe run, and the terms that claims about issues are stated in: when nothing stands
before an instruction's own effect, what an instruction that only computes leaves behind, and what it leaves alone. -/

namespace Sys2Proof

/-- A run of k steps is safe: it ends in a next state, with neither a fault nor a refusal. -/
def Safe (k : Nat) (s : Machine.State) : Prop := ∃ t, Host.Core.run core k s = .next t

end Sys2Proof

namespace Sys2Proof.Machine

/-- The selection is one that `select` makes: some lanes, each a thread of the issuing block, none twice. -/
def State.selOk (s : State) : Bool :=
  !s.sel.act.isEmpty && decide s.sel.act.Nodup && s.sel.act.all fun l => decide (l < s.cb.threads.length)

/-- Nothing stands before the instruction's own effect: no lane waits for a replay (R265, R266), no scalar register that it names is pending
for one (R131), the operand log has room for an
access (R265), and the checks of R126, R28 and R59 pass. -/
def State.ready (s : State) (i : Instr) : Bool :=
  match i.opnds? with
  | none => false
  | some x =>
    s.selOk && s.pendingLog.isEmpty && !(s.pendingScalars.any fun e => e.blocks i x) && !(i.mayFault && s.logFull) && s.roleOk i.opcode && s.launchOk i x
      && !(i.format?.any fun f => !(Nf.fmtOf (s.freg f)).legal) && !s.badRead i

/-- The state in which an instruction that has begun to issue acts: its issue is counted (R209). -/
def State.begun (s : State) : State := s.countIssue 1

/-- The issuing context holds scalar registers of its own: a home bundle of the block, or one of its drawn bundles (R136). -/
def State.ctxOk (s : State) : Bool :=
  match s.sel.ctx with
  | .home n => decide (n < s.cb.bundles.length)
  | .drawn k => (Sparse.look s.cb.drawn k).isSome

/-! ### What an instruction that only computes leaves alone -/

/-- A thread but for its program counter, its wait, and the registers, predicates and flags that an instruction may write. -/
def Thread.keeps (t u : Thread) : Prop :=
  u = { t with pc := u.pc, wait := u.wait, group := u.group, v := u.v, bad := u.bad, p := u.p, nflags := u.nflags }

/-- A block but for its threads, the registers of its bundles and its interval journal (R145). -/
def Block.keeps (b c : Block) : Prop :=
  c = { b with threads := c.threads, bundles := c.bundles, drawn := c.drawn, journal := c.journal, logged := c.logged
               irrevocable := c.irrevocable }

/-- Everything outside the issuing block: every byte of memory, every cache, every other block, the hub; of the partitions only
the issue counter may move (R209). -/
def State.keepsOutside (s t : State) : Prop :=
  (∀ a, t.mem.byte a = s.mem.byte a) ∧ t.poison = s.poison ∧ t.cores = s.cores ∧ t.clusters = s.clusters ∧ t.dies = s.dies
  ∧ t.hub = s.hub ∧ t.grids = s.grids ∧ t.sel = s.sel ∧ (∀ n, n ≠ s.sel.blk → t.blk n = s.blk n)
  ∧ ∀ p, t.part p = { s.part p with seq := (t.part p).seq }

/-- The registers of the vector file that an issue leaves alone: all but `span` registers from the destination in the executing
lanes; its predicates, all but the destination there. -/
def State.keepsLanes (s t : State) (x : Opnds) (span : Nat) : Prop :=
  (∀ l k, (∀ n : BitVec 8, x.d = .v n → l ∈ s.exe x.g → ¬(n.toNat ≤ k ∧ k < n.toNat + span)) →
    (t.cb.thr l).vreg k = (s.cb.thr l).vreg k ∧ (k ∈ (t.cb.thr l).bad ↔ k ∈ (s.cb.thr l).bad))
  ∧ (∀ l (q : BitVec 3), (x.d = .p q → l ∉ s.exe x.g) → (t.cb.thr l).pred q = (s.cb.thr l).pred q)
  ∧ (∀ l, l ∉ s.sel.act → t.cb.thr l = s.cb.thr l)
  ∧ (∀ l, (s.cb.thr l).keeps (t.cb.thr l))
  ∧ t.cb.threads.length = s.cb.threads.length

/-- The scalar registers of every context that an issue leaves alone: all but `span` registers from the destination in its own. -/
def State.keepsScalars (s t : State) (x : Opnds) (span : Nat) : Prop :=
  (∀ k, (∀ n : BitVec 6, x.d = .s n → s.exe x.g ≠ [] → ¬(n.toNat ≤ k ∧ k < n.toNat + span)) →
    t.sreg k = s.sreg k ∧ (k ∈ t.sbad ↔ k ∈ s.sbad))
  ∧ (∀ n, s.sel.ctx ≠ .home n → t.cb.bundle n = s.cb.bundle n)
  ∧ (∀ n, t.cb.bundle n = { s.cb.bundle n with s := (t.cb.bundle n).s, bad := (t.cb.bundle n).bad })
  ∧ (∀ k, Sparse.look t.cb.drawn k = (Sparse.look s.cb.drawn k).map fun d =>
      { d with s := if s.sel.ctx = .drawn k then t.sfile else d.s, bad := if s.sel.ctx = .drawn k then t.sbad else d.bad })

/-- The whole frame of an instruction that only computes. -/
def State.keeps (s t : State) (x : Opnds) (span : Nat) : Prop :=
  s.keepsOutside t ∧ s.cb.keeps t.cb ∧ s.keepsLanes t x span ∧ s.keepsScalars t x span

/-- The active lanes stand after the instruction, inside no wait (R73). -/
def State.movesOn (s t : State) (x : Opnds) : Prop :=
  ∀ l ∈ s.sel.act, (t.cb.thr l).pc = s.sel.pc + .ofNat 64 x.ext.bytes ∧ (t.cb.thr l).wait = .none

/-- The destination holds what the issue computed, `f` giving each executing lane's value: a v group in each lane, a p register in
each lane (p7 discards, R18), an s group once with the lowest-numbered lane's value (R17, R75). -/
def State.holds (s t : State) (x : Opnds) (span : Nat) (f : Nat → Nat) : Prop :=
  match x.d with
  | .v n => ∀ l ∈ s.exe x.g, ∀ k < span, (t.cb.thr l).vreg (n.toNat + k) = wordOf (f l) k
  | .p n => ∀ l ∈ s.exe x.g, (t.cb.thr l).pred n = (n == 7 || f l != 0)
  | .s n => ∀ l ∈ s.first x.g, ∀ k < span, t.sreg (n.toNat + k) = wordOf (f l) k
  | _ => True

/-- The numeric flags of each executing lane are ORed with what it computed; the other lanes keep theirs (R69). -/
def State.flagsRise (s t : State) (x : Opnds) (f : Nat → BitVec 6) : Prop :=
  (∀ l ∈ s.exe x.g, (t.cb.thr l).nflags = (s.cb.thr l).nflags ||| f l)
  ∧ ∀ l, l ∉ s.exe x.g → (t.cb.thr l).nflags = (s.cb.thr l).nflags

/-- An issue that computed `f` in each executing lane and did nothing else. -/
def State.computed (s t : State) (x : Opnds) (span : Nat) (f : Nat → Nat × BitVec 6) : Prop :=
  s.holds t x span (fun l => (f l).1) ∧ s.flagsRise t x (fun l => (f l).2) ∧ s.movesOn t x ∧ s.keeps t x span

/-! ### What an instruction that stays inside its core leaves alone -/

/-- What an issue may write of the registers of threads and bundles, and whether it may write accumulators and operand buffers: by
block, thread or bundle, and register. -/
structure Touch where
  v : Nat → Nat → Nat → Prop
  p : Nat → Nat → BitVec 3 → Prop
  flags : Nat → Nat → Prop
  s : Nat → Nat → Nat → Prop
  tiles : Prop

/-- What one instruction may write: its destination in its executing lanes, the s destination in its own home bundle, the flags of its
executing lanes where it raises any, and the matrix state where it works on that. -/
def State.touch (s : State) (x : Opnds) (span : Nat) (fl mx : Bool) : Touch where
  v m l k := ∃ r, x.d = .v r ∧ m = s.sel.blk ∧ l ∈ s.exe x.g ∧ r.toNat ≤ k ∧ k < r.toNat + span
  p m l q := x.d = .p q ∧ m = s.sel.blk ∧ l ∈ s.exe x.g
  flags m l := fl = true ∧ m = s.sel.blk ∧ l ∈ s.exe x.g
  s m b k := ∃ r, x.d = .s r ∧ m = s.sel.blk ∧ s.sel.ctx = .home b ∧ s.exe x.g ≠ [] ∧ r.toNat ≤ k ∧ k < r.toNat + span
  tiles := mx = true

/-- A block but for what may be written: the vector, predicate and scalar registers, flags and formats of all its threads and home
bundles read as before, and it is not saved meanwhile. -/
structure Block.leaves (w : Touch) (m : Nat) (b c : Block) : Prop where
  v : ∀ l k, ¬w.v m l k → (c.thr l).vreg k = (b.thr l).vreg k
  p : ∀ l q, ¬w.p m l q → (c.thr l).pred q = (b.thr l).pred q
  flags : ∀ l, ¬w.flags m l → (c.thr l).nflags = (b.thr l).nflags
  s : ∀ n k, ¬w.s m n k → Sparse.getOr (c.bundle n).s k 0 = Sparse.getOr (b.bundle n).s k 0
  f : ∀ n k, Sparse.getOr (c.bundle n).f k 0 = Sparse.getOr (b.bundle n).f k 0
  saved : b.state ≠ .saved → c.state ≠ .saved

/-- The same issue: whether it has been found to stall is no matter. -/
def Sel.same (a b : Sel) : Prop := a.blk = b.blk ∧ a.ctx = b.ctx ∧ a.pc = b.pc ∧ a.act = b.act

/-- Everything but what may be written: every byte of memory and of every L2 reads as before, with its poison; so do the registers of
every block; and accumulators and operand buffers where the instruction does not work on them. -/
structure State.leaves (w : Touch) (s t : State) : Prop where
  mem : ∀ a, t.mem.byte a = s.mem.byte a
  poison : t.poison = s.poison
  l2 : ∀ d a, t.l2 d a = s.l2 d a
  blocks : ∀ m, (s.blk m).leaves w m (t.blk m)
  tiles : ¬w.tiles → ∀ p, (t.part p).tiles = (s.part p).tiles ∧ (t.part p).buf = (s.part p).buf
  sel : t.sel.same s.sel

end Sys2Proof.Machine
end

