-- ==== Sys2Proof/Certificates/Slice0/Obligations.lean ====
section
/-! DEFINITION. Obligations.lean: the statements for the provers. Each docstring names the rule or the sections it formalises. -/

open Sys2Proof Sys2Proof.Machine
open Sys2Proof.Fp (Val)

namespace Sys2Proof.Machine

/-! ### What each computing instruction computes -/

/-- The integer and logic instructions (R78 to R80): registers written, and each lane's value from the sources as they stand. -/
def intResult (s : State) : Instr → Option (Opnds × Nat × (Nat → Nat))
  | .iadd x t sat => some (x, t.regs, fun l => ifit t sat (ival t (s.src x.ext t.op l x.a) + ival t (s.src x.ext t.op l x.b)))
  | .isub x t sat => some (x, t.regs, fun l => ifit t sat (ival t (s.src x.ext t.op l x.a) - ival t (s.src x.ext t.op l x.b)))
  | .imul x t sat => some (x, t.regs, fun l => ifit t sat (ival t (s.src x.ext t.op l x.a) * ival t (s.src x.ext t.op l x.b)))
  | .imulhi x t => some (x, t.regs, fun l =>
      iout t (wrap t.bits (ival t (s.src x.ext t.op l x.a) * ival t (s.src x.ext t.op l x.b) / (2 ^ t.bits : Nat))))
  | .imad x t sat => some (x, t.regs, fun l =>
      ifit t sat (ival t (s.src x.ext t.op l x.a) * ival t (s.src x.ext t.op l x.b) + ival t (s.src x.ext t.op l x.c)))
  | .imin x t => some (x, t.regs, fun l => ifit t false (min (ival t (s.src x.ext t.op l x.a)) (ival t (s.src x.ext t.op l x.b))))
  | .imax x t => some (x, t.regs, fun l => ifit t false (max (ival t (s.src x.ext t.op l x.a)) (ival t (s.src x.ext t.op l x.b))))
  | .iabs x t sat => some (x, t.regs, fun l => ifit t sat (ival t (s.src x.ext t.op l x.a)).natAbs)
  | .ineg x t sat => some (x, t.regs, fun l => ifit t sat (-(ival t (s.src x.ext t.op l x.a))))
  | .shl x t c => some (x, t.regs, fun l => shlVal t.bits c (s.src x.ext t.op l x.a) (s.src x.ext .b32 l x.b))
  | .shr x t c => some (x, t.regs, fun l => shrVal t.bits c (s.src x.ext t.op l x.a) (s.src x.ext .b32 l x.b))
  | .sar x t c => some (x, t.regs, fun l => sarVal t.bits c (s.src x.ext t.op l x.a) (s.src x.ext .b32 l x.b))
  | .rot x t => some (x, t.regs, fun l => rotVal t.bits (s.src x.ext t.op l x.a) (s.src x.ext .b32 l x.b))
  | .and x t => some (x, t.regs, fun l => s.src x.ext t.op l x.a &&& s.src x.ext t.op l x.b)
  | .or x t => some (x, t.regs, fun l => s.src x.ext t.op l x.a ||| s.src x.ext t.op l x.b)
  | .xor x t => some (x, t.regs, fun l => s.src x.ext t.op l x.a ^^^ s.src x.ext t.op l x.b)
  | .not x t => some (x, t.regs, fun l => 2 ^ t.bits - 1 - s.src x.ext t.op l x.a)
  | .lut3 x w tbl =>
    let t : ITy := if w then .b64 else .b32
    some (x, t.regs, fun l =>
      lut3Val tbl.toNat (s.src x.ext t.op l x.a) (s.src x.ext t.op l x.b) (s.src x.ext t.op l x.c) t.bits)
  | .popc x t => some (x, 1, fun l => popcount (s.src x.ext t.op l x.a) t.bits)
  | .clz x t => some (x, 1, fun l => clzVal t.bits (s.src x.ext t.op l x.a))
  | .brev x t => some (x, t.regs, fun l => reverseBits (s.src x.ext t.op l x.a) t.bits)
  | .bfe x t => some (x, t.regs, fun l => bfeVal t (s.src x.ext t.op l x.a) (s.src x.ext .b32 l x.b) (s.src x.ext .b32 l x.c))
  | .bfi x t => some (x, t.regs, fun l =>
      bfiVal t.bits (s.src x.ext t.op l x.a) (s.src x.ext .b32 l x.b) (s.src x.ext t.op l x.c))
  | .icmp x t cc => some (x, 1, fun l =>
      if cmpInt cc (ival t (s.src x.ext t.op l x.a)) (ival t (s.src x.ext t.op l x.b)) then 1 else 0)
  | .sel x t => some (x, t.regs, fun l =>
      if s.src x.ext .b32 l x.c = 0 then s.src x.ext t.op l x.b else s.src x.ext t.op l x.a)
  | .mov x t => some (x, t.regs, fun l => s.src x.ext t.op l x.a)
  | .lea x t sh => some (x, 2, fun l =>
      wrap 64 ((s.src x.ext .b64 l x.a : Nat) + ival t (s.src x.ext .b32 l x.b) * (2 ^ sh.toNat : Nat)))
  | .imadWide x t sat => some (x, 2, fun l =>
      fit 64 t.signed sat (ival t (s.src x.ext t.op l x.a) * ival t (s.src x.ext t.op l x.b)
        + readInt 64 t.signed (s.src x.ext (.int 64 t.signed) l x.c)))
  | .prmt x => some (x, 1, fun l => prmtVal (s.src x.ext .b32 l x.a) (s.src x.ext .b32 l x.b) (s.src x.ext .b32 l x.c))
  | .isad x t sat => some (x, 1, fun l =>
      ifit t sat ((ival t (s.src x.ext t.op l x.a) - ival t (s.src x.ext t.op l x.b)).natAbs + ival t (s.src x.ext t.op l x.c)))
  | _ => none

/-- Operand n of an FP instruction as a value of its format: element k, under `.absa` and a negation (R55, R81). -/
def fpArg (s : State) (x : Opnds) (t : FTy) (m : FMods) (l : Nat) (a : Src) (abs neg : Bool) (k : Nat) : Val :=
  Fp.unpack t.fmt (signMods t.fmt (abs && m.absa) neg (elem t (s.src x.ext (.fp t) l a) k))

/-- The floating-point instructions (R82 to R86): each lane's value and flags. Exact results are rounded once, under the
modifiers (R56, R81). -/
def fpResult (s : State) : Instr → Option (Opnds × (Nat → Nat × BitVec 6))
  | .fadd x t m => some (x, fun l => perElem t fun k => finish t.fmt m.rnd m.sat
      (Fp.add m.rnd (fpArg s x t m l x.a true m.nega k) (fpArg s x t m l x.b false m.negb k)))
  | .fsub x t m => some (x, fun l => perElem t fun k => finish t.fmt m.rnd m.sat
      (Fp.add m.rnd (fpArg s x t m l x.a true m.nega k) (fpArg s x t m l x.b false m.negb k).negate))
  | .fmul x t m => some (x, fun l => perElem t fun k => finish t.fmt m.rnd m.sat
      (Fp.mul (fpArg s x t m l x.a true m.nega k) (fpArg s x t m l x.b false m.negb k)))
  | .ffma x t m => some (x, fun l => perElem t fun k => finish t.fmt m.rnd m.sat
      (Fp.fma m.rnd (fpArg s x t m l x.a true m.nega k) (fpArg s x t m l x.b false m.negb k)
        (fpArg s x t m l x.c false m.negc k)))
  | .fmin x t m => some (x, fun l => perElem t fun k => finish t.fmt m.rnd m.sat
      (Fp.minMax false (fpArg s x t m l x.a true m.nega k) (fpArg s x t m l x.b false m.negb k)))
  | .fmax x t m => some (x, fun l => perElem t fun k => finish t.fmt m.rnd m.sat
      (Fp.minMax true (fpArg s x t m l x.a true m.nega k) (fpArg s x t m l x.b false m.negb k)))
  | .fdiv x t m => some (x, fun l => perElem t fun k => finish t.fmt m.rnd m.sat
      (Fp.div (fpArg s x t m l x.a true m.nega k) (fpArg s x t m l x.b false m.negb k)))
  | .frcp x t m => some (x, fun l => perElem t fun k => finish t.fmt m.rnd m.sat
      (Fp.div (.num false 1 0) (fpArg s x t m l x.a true m.nega k)))
  | .frsq x t m => some (x, fun l => perElem t fun k => finish t.fmt m.rnd m.sat (Fp.rsqrt (fpArg s x t m l x.a true m.nega k)))
  | .fsqrt x t m => some (x, fun l => perElem t fun k => finish t.fmt m.rnd m.sat (Fp.sqrt (fpArg s x t m l x.a true m.nega k)))
  | .ffrac x t m => some (x, fun l => perElem t fun k => finish t.fmt m.rnd m.sat (Fp.frac (fpArg s x t m l x.a true m.nega k)))
  | .fround x t m => some (x, fun l => perElem t fun k => finish t.fmt m.rnd m.sat
      (Fp.roundInt m.rnd (fpArg s x t m l x.a true m.nega k)))
  | .fscale x t m => some (x, fun l => perElem t fun k => finish t.fmt m.rnd m.sat
      (Fp.scale (fpArg s x t m l x.a true m.nega k) (readInt 32 true (s.src x.ext .b32 l x.b))))
  | .fex2 x t m => some (x, fun l => perElem t fun k =>
      let r := Fp.ex2 t.fmt m.rnd (fpArg s x t m l x.a true m.nega k)
      ((if m.sat then Fp.saturate t.fmt r.1 else r.1), r.2))
  | .flg2 x t m => some (x, fun l => perElem t fun k =>
      let r := Fp.lg2 t.fmt m.rnd (fpArg s x t m l x.a true m.nega k)
      ((if m.sat then Fp.saturate t.fmt r.1 else r.1), r.2))
  | .fsin x t m => some (x, fun l => perElem t fun k =>
      let r := Fp.sin t.fmt m.rnd (fpArg s x t m l x.a true m.nega k)
      ((if m.sat then Fp.saturate t.fmt r.1 else r.1), r.2))
  | .fcos x t m => some (x, fun l => perElem t fun k =>
      let r := Fp.cos t.fmt m.rnd (fpArg s x t m l x.a true m.nega k)
      ((if m.sat then Fp.saturate t.fmt r.1 else r.1), r.2))
  | .fdot2 x t m => some (x, fun l => finish .f32 m.rnd m.sat
      (Fp.dot2 m.rnd (fpArg s x t m l x.a true m.nega 0) (fpArg s x t m l x.b false m.negb 0)
        (fpArg s x t m l x.a true m.nega 1) (fpArg s x t m l x.b false m.negb 1)
        (Fp.unpack .f32 (signMods .f32 false m.negc (s.src x.ext (.fp .f32) l x.c)))))
  | .fcmp x t cc sig absa => some (x, fun l =>
      let r := Fp.cmp cc sig (Fp.unpack t (signMods t absa false (s.src x.ext (.fp (ffmtTy t)) l x.a)))
        (Fp.unpack t (signMods t absa false (s.src x.ext (.fp (ffmtTy t)) l x.b)))
      ((if r.1 then 1 else 0), r.2))
  | .fclass x t => some (x, fun l =>
      let c := Fp.classOf t (s.src x.ext (.fp (ffmtTy t)) l x.a)
      match x.d with
      | .p _ => ((if c &&& s.src x.ext .b32 l x.b = 0 then 0 else 1), 0)
      | _ => (c, 0))
  | _ => none

/-- The conversions (R87 to R93), but for `cvt.nfb`, whose lanes share a scale, and the queries of a lane's own (R226, R291, R309). The
two narrow conversions need a container that the format has (R88, R90). -/
def convResult (s : State) : Instr → Option (Opnds × Nat × (Nat → Nat × BitVec 6))
  | .cvt x d c rnd sat => some (x, d.regs, fun l => cvtVal d c rnd sat (s.src x.ext (ctyOp c) l x.a))
  | .cvtNfEnc x f t sc k =>
    let fm := Nf.fmtOf (s.freg f.toNat)
    if containerOk fm k.toNat then
      some (x, 1, fun l =>
        let sx := scaleOf s x sc l
        let r : Nat × BitVec 6 := if sc = true ∧ sx = 255 then (fm.nanOrZero, Fp.inv)
          else Nf.encode fm (Fp.unpack t (s.src x.ext (.fp (ffmtTy t)) l x.a)) (127 - (sx : Int))
        let c := s.src x.ext .b32 l x.c
        let at_ := 2 ^ (fm.container * k.toNat)
        (c - field c (fm.container * k.toNat) fm.container * at_ + r.1 * at_, r.2))
    else none
  | .cvtNfDec x f t sc k =>
    let fm := Nf.fmtOf (s.freg f.toNat)
    if containerOk fm k.toNat then
      some (x, 1, fun l =>
        Nf.decode fm (field (s.src x.ext .nf l x.a) (fm.container * k.toNat) fm.container) (scaleOf s x sc l) t)
    else none
  | .unpkNf x f bf sc k =>
    let fm := Nf.fmtOf (s.freg f.toNat)
    if containerOk fm (2 * k.toNat + 1) then
      some (x, 1, fun l =>
        let e (j : Nat) : Nat × BitVec 6 := Nf.decode fm
          (field (s.src x.ext .nf l x.a) (fm.container * (2 * k.toNat + j)) fm.container) (scaleOf s x sc l)
          (if bf then .bf16 else .f16)
        ((e 0).1 + 65536 * (e 1).1, (e 0).2 ||| (e 1).2))
    else none
  | .fmtGet x f => some (x, 1, fun _ => ((s.freg f.toNat).toNat, 0))
  | .flagsGet x => some (x, 1, fun l => ((s.cb.thr l).nflags.toNat, 0))
  | .pack x .b16 _ => some (x, 1, fun l => (s.src x.ext .b32 l x.b % 65536 * 65536 + s.src x.ext .b32 l x.a % 65536, 0))
  | .pack x t rnd =>
    let h (l : Nat) (a : Src) : Nat × BitVec 6 :=
      let v := Fp.unpack .f32 (s.src x.ext (.fp .f32) l a)
      finish (if t = .f16x2 then .f16 else .bf16) rnd false (v.exact, Fp.snanFlags [v])
    some (x, 1, fun l => ((h l x.a).1 + 65536 * (h l x.b).1, (h l x.a).2 ||| (h l x.b).2))
  | .unpack x hi .n16 => some (x, 1, fun l => (field (s.src x.ext .b32 l x.a) (if hi then 16 else 0) 16, 0))
  | .unpack x hi .s16 => some (x, 1, fun l => (extend 16 true (field (s.src x.ext .b32 l x.a) (if hi then 16 else 0) 16), 0))
  | .unpack x hi .f16x2 => some (x, 1, fun l =>
      let v := Fp.unpack .f16 (field (s.src x.ext (.fp .f16x2) l x.a) (if hi then 16 else 0) 16)
      finish .f32 .rn false (v.exact, Fp.snanFlags [v]))
  | .unpack x hi .bf16x2 => some (x, 1, fun l =>
      let v := Fp.unpack .bf16 (field (s.src x.ext (.fp .bf16x2) l x.a) (if hi then 16 else 0) 16)
      finish .f32 .rn false (v.exact, Fp.snanFlags [v]))
  | .xlane x m w wide =>
    let n := segWidth w
    some (x, if wide then 2 else 1, fun l =>
      match (s.exe x.g).find? fun u =>
        homeLane u == homeLane l / n * n + xlanePos m n (homeLane l % n) (s.src x.ext .b32 l x.b) with
      | some u => (s.src x.ext (if wide then .b64 else .b32) u x.a, 0)
      | none => (s.src x.ext (if wide then .b64 else .b32) l x.c, 0))
  | .fhz x => some (x, 1, fun l => ((s.cb.thr l).h, 0))
  | .scbdQ x => some (x, 1, fun l =>
      (if (s.core (s.blk s.sel.blk).core).sb.any fun e =>
        e.blk == s.sel.blk && (e.lo ≤ s.src x.ext .b32 l x.a && s.src x.ext .b32 l x.a ≤ e.hi) then 1 else 0, 0))
  | .accStat x t sel => some (x, 1, fun l =>
      (statVal ((s.part s.mp).tile t.toNat) (s.accRow t.toNat (homeLane l)) sel.toNat, 0))
  | _ => none

/-- The instructions that act once per issue on register values (R152, R154 to R156), and the two counters of a core (R164, R309): the
value from the lowest executing lane's view. -/
def onceResult (s : State) : Instr → Option (Opnds × Nat × (Nat → Nat))
  | .sadd x t sat => some (x, t.regs, fun l => ifit t sat (ival t (s.src x.ext t.op l x.a) + ival t (s.src x.ext t.op l x.b)))
  | .ssub x t sat => some (x, t.regs, fun l => ifit t sat (ival t (s.src x.ext t.op l x.a) - ival t (s.src x.ext t.op l x.b)))
  | .smul x t sat => some (x, t.regs, fun l => ifit t sat (ival t (s.src x.ext t.op l x.a) * ival t (s.src x.ext t.op l x.b)))
  | .sand x t => some (x, t.regs, fun l => s.src x.ext t.op l x.a &&& s.src x.ext t.op l x.b)
  | .sor x t => some (x, t.regs, fun l => s.src x.ext t.op l x.a ||| s.src x.ext t.op l x.b)
  | .sxor x t => some (x, t.regs, fun l => s.src x.ext t.op l x.a ^^^ s.src x.ext t.op l x.b)
  | .sshl x t c => some (x, t.regs, fun l => shlVal t.bits c (s.src x.ext t.op l x.a) (s.src x.ext .b32 l x.b))
  | .sshr x t c a => some (x, t.regs, fun l =>
      (if a then sarVal else shrVal) t.bits c (s.src x.ext t.op l x.a) (s.src x.ext .b32 l x.b))
  | .scmp x t cc => some (x, 1, fun l =>
      if cmpInt cc (ival t (s.src x.ext t.op l x.a)) (ival t (s.src x.ext t.op l x.b)) then 1 else 0)
  | .smov x t => some (x, t.regs, fun l => s.src x.ext t.op l x.a)
  | .rfl x w => some (x, if w then 2 else 1, fun l => s.src x.ext (if w then .b64 else .b32) l x.a)
  | .ballot x => some (x, 4, fun _ => maskOf (((s.exe x.g).filter fun u => s.src x.ext .b32 u x.a != 0).map homeLane))
  | .agree x m => some (x, 1, fun _ => if agreeVal m ((s.exe x.g).map fun u => s.src x.ext .b32 u x.a) then 1 else 0)
  | .spstat x sel => some (x, if sel.toNat < 3 then 2 else 1, fun _ => (s.core s.cc).scratch.counter sel.toNat)
  | .scbdCnt x => some (x, 1, fun _ => s.cb.copies.length)
  | _ => none

end Sys2Proof.Machine

/-- Every integer and logic instruction completes with its result in each executing lane's destination, flags untouched, and
changes nothing else (R78 to R80, R73). -/
def Obligations.IntegerResults : Prop :=
  ∀ (s : State) (i : Instr) (x : Opnds) (n : Nat) (f : Nat → Nat),
    intResult s i = some (x, n, f) → s.ready i = true → s.ctxOk = true →
    ∃ t, exec i s = .next t ∧ s.computed t x n fun l => (f l, 0)

/-- Every floating-point instruction completes with its result in each executing lane's destination and its flags ORed, and
changes nothing else (R69, R81 to R86). -/
def Obligations.FloatResults : Prop :=
  ∀ (s : State) (i : Instr) (x : Opnds) (f : Nat → Nat × BitVec 6),
    fpResult s i = some (x, f) → s.ready i = true → s.ctxOk = true → ∃ t, exec i s = .next t ∧ s.computed t x 1 f

/-- The conversions, `fmt.get`, `flags.get`, `pack`, `unpack`, `xlane` and the queries `fhz`, `scbd.q` and `acc.stat` complete with their
results and flags, and change nothing else (R87 to R93, R157, R226, R291, R309). -/
def Obligations.ConversionResults : Prop :=
  ∀ (s : State) (i : Instr) (x : Opnds) (n : Nat) (f : Nat → Nat × BitVec 6),
    convResult s i = some (x, n, f) → s.ready i = true → s.ctxOk = true → ∃ t, exec i s = .next t ∧ s.computed t x n f

/-- The uniform scalar instructions, `rfl`, `ballot`, `agree`, `spstat` and `scbd.cnt` complete with the one value of the lowest executing lane in their
destination, and change nothing else (R151 to R156, R164, R309). -/
def Obligations.UniformResults : Prop :=
  ∀ (s : State) (i : Instr) (x : Opnds) (n : Nat) (f : Nat → Nat),
    onceResult s i = some (x, n, f) → s.ready i = true → s.ctxOk = true →
    ∃ t, exec i s = .next t ∧ s.computed t x n fun _ => (((s.first x.g).map f).getD 0, 0)

/-- `nop`, `lred`, `cvt.nfb` and `iaddc` complete with their results: `lred` sets flags in the lowest executing lane only (R158); `cvt.nfb`
takes one scale for the executing lanes of each block of B home lanes (R89); `iaddc` writes its carry predicate beside its
destination (R79). -/
def Sys2Proof.Machine.SharedResults : Prop :=
  ∀ (s : State) (x : Opnds), s.ctxOk = true →
    (s.ready (.nop x) = true → ∃ t, exec (.nop x) s = .next t ∧ s.computed t { x with d := .discard } 1 fun _ => (0, 0))
    ∧ (∀ op ty, s.ready (.lred x op ty) = true →
        let o : OpTy := match op with | .fadd | .fmin | .fmax => .fp .f32 | _ => ty.op
        let r := lredVal op ty ((s.exe x.g).map fun u => s.src x.ext o u x.a)
        ∃ t, exec (.lred x op ty) s = .next t
          ∧ s.computed t x ty.regs fun l => (r.1, if s.first x.g = some l then r.2 else 0))
    ∧ (∀ b fr ty, s.ready (.cvtNfb x b fr ty) = true → (Instr.cvtNfb x b fr ty).wf = true →
        let fm := Nf.fmtOf (s.freg fr.toNat)
        let v (l : Nat) : Val := Fp.unpack ty (s.src x.ext (.fp (ffmtTy ty)) l x.a)
        let limit := min (s.src x.ext .b32 ((s.exe x.g).headD 0) x.b) 255
        let mates (l : Nat) : List Nat := (s.exe x.g).filter fun u => homeLane u / blkLen b == homeLane l / blkLen b
        let scale (l : Nat) : Nat × Nat := Nf.chooseScale (s.freg fr.toNat) ((mates l).map v) limit
        ∃ t, exec (.cvtNfb x b fr ty) s = .next t ∧ s.computed t x 1 fun l =>
          let tag := ((scale l).1 + 256 * (scale l).2) * 65536
          if (scale l).1 = 255 then (fm.nanOrZero + tag, if (mates l).head? = some l then Fp.inv else 0)
          else ((Nf.encode fm (v l) (127 - ((scale l).1 : Int))).1 + tag, (Nf.encode fm (v l) (127 - ((scale l).1 : Int))).2))
    ∧ (∀ ty cp, s.ready (.iaddc x ty cp) = true →
        let sum (l : Nat) : Nat :=
          s.src x.ext ty.op l x.a + s.src x.ext ty.op l x.b + (if (s.cb.thr l).pred cp then 1 else 0)
        ∃ t u, exec (.iaddc x ty cp) s = .next t ∧ s.computed u x ty.regs (fun l => (sum l % 2 ^ ty.bits, 0))
          ∧ t = u.write (.p cp) 1 ((s.exe x.g).map fun l => (l, sum l / 2 ^ ty.bits)))

/-- `fmt.set` writes the format register of the issuing context with the low half of the lowest executing lane's source (R91), and
`flags.clr` clears the flags that its source names in each executing lane (R92); neither changes memory or a register. -/
def Sys2Proof.Machine.FormatAndFlagWrites : Prop :=
  ∀ (s : State) (x : Opnds),
    (∀ f l, s.ready (.fmtSet x f) = true → s.ctxOk = true → s.first x.g = some l →
      ∃ t, exec (.fmtSet x f) s = .next t ∧ t.freg f.toNat = BitVec.ofNat 16 (s.src x.ext .b32 l x.a)
        ∧ (∀ k, k ≠ f.toNat → t.freg k = s.freg k) ∧ (∀ k, t.sreg k = s.sreg k) ∧ s.movesOn t x ∧ s.keepsOutside t
        ∧ ∀ l, (t.cb.thr l).v = (s.cb.thr l).v ∧ (t.cb.thr l).p = (s.cb.thr l).p ∧ (t.cb.thr l).nflags = (s.cb.thr l).nflags)
    ∧ (s.ready (.flagsClr x) = true →
      ∃ t, exec (.flagsClr x) s = .next t
        ∧ (∀ l ∈ s.exe x.g, (t.cb.thr l).nflags = (s.cb.thr l).nflags &&& ~~~(BitVec.ofNat 6 (s.src x.ext .b32 l x.a)))
        ∧ (∀ l, l ∉ s.exe x.g → (t.cb.thr l).nflags = (s.cb.thr l).nflags) ∧ s.movesOn t x ∧ s.keepsOutside t
        ∧ ∀ l, (t.cb.thr l).v = (s.cb.thr l).v ∧ (t.cb.thr l).p = (s.cb.thr l).p)

/-- What the lanes of an issue share, and the writes of formats and flags. The parts name their rules. -/
def Obligations.SharedAndFormatResults : Prop := Machine.SharedResults ∧ Machine.FormatAndFlagWrites

namespace Sys2Proof.Machine

/-- Where the executing lanes of a branch go (R94 to R96). -/
def branchTarget (s : State) : Instr → Option (Opnds × (Nat → DWord))
  | .bra x | .call x => some (x, fun _ => relTarget s.sel.pc x.ext)
  | .brx x | .ret x => some (x, fun l => .ofNat 64 (s.src x.ext .b64 l x.a))
  | _ => none

/-- Bundles and drawn bundles are as they were, but for the count of their turn (R129). -/
def State.keepsFiles (s t : State) : Prop :=
  (∀ n, t.cb.bundle n = { s.cb.bundle n with turn := (t.cb.bundle n).turn })
  ∧ ∀ k, ∃ m, Sparse.look t.cb.drawn k = (Sparse.look s.cb.drawn k).map fun d => { d with turn := m }

end Sys2Proof.Machine

/-- A branch with canonical targets: each executing lane goes to its target, the other active lanes go on; `call` leaves the address
after it in its destination; nothing else changes (R94 to R96, R73). -/
def Sys2Proof.Machine.BranchResults : Prop :=
  ∀ (s : State) (i : Instr) (x : Opnds) (f : Nat → DWord),
    branchTarget s i = some (x, f) → s.ready i = true → i.wf = true → (∀ l ∈ s.exe x.g, canonical (f l) = true) →
    ∃ t, exec i s = .next t
      ∧ (∀ l ∈ s.exe x.g, (t.cb.thr l).pc = f l)
      ∧ (∀ l ∈ s.sel.act, l ∉ s.exe x.g → (t.cb.thr l).pc = s.sel.pc + .ofNat 64 x.ext.bytes)
      ∧ (∀ l ∈ s.sel.act, (t.cb.thr l).wait = .none)
      ∧ (∀ n, x.d = .v n → ∀ l ∈ s.exe x.g, ∀ k < 2, (t.cb.thr l).vreg (n.toNat + k) = wordOf (s.sel.pc + 12).toNat k)
      ∧ s.keepsOutside t ∧ s.cb.keeps t.cb ∧ s.keepsLanes t x 2 ∧ s.keepsFiles t

/-- A lane whose branch target is not canonical stays at the branch and takes FETCH (0x12) there with the target as its address; the
other lanes branch (R48, R94, R112). -/
def Sys2Proof.Machine.BranchFetchFault : Prop :=
  ∀ (s : State) (i : Instr) (x : Opnds) (f : Nat → DWord) (l : Nat),
    branchTarget s i = some (x, f) → s.ready i = true → l ∈ s.exe x.g → canonical (f l) = false →
    ∃ u : State, exec i s = .next (u.finishFaults x.ext.bytes
        (((s.exe x.g).filter fun k => !canonical (f k)).map fun k => (k, { cause := 0x12, addr := f k })))
      ∧ (u.cb.thr l).pc = s.sel.pc ∧ ∀ k ∈ s.exe x.g, canonical (f k) = true → (u.cb.thr k).pc = f k

/-- Branches, calls and returns, and the fault at a target that no instruction can be fetched from. The parts name their rules. -/
def Obligations.ControlTransfers : Prop := Machine.BranchResults ∧ Machine.BranchFetchFault

/-- TAKING A LANE FAULT under the trap policy (R114, R115, R176, R177): each faulting thread is faulted at level 2 and runs the handler
at `tvec`, with the PC of the instruction in `epc`, the cause in `tcause` and the address in `tval`; every other thread, memory and
the scalar registers stay as they were, but that the faulting threads leave their subset's turn (R129); each fault has its record in the die's
buffer. -/
def Obligations.LaneFaultTaken : Prop :=
  ∀ (s : State) (b : Nat) (pc : DWord) (len : Nat) (fs : List (Nat × LF)),
    (s.blk b).state = .running → (s.blk b).hdr.lanefault = 0 → (s.blk b).tvec ≠ 0 → (fs.map (·.1)).Nodup →
    (∀ e ∈ fs, e.1 < (s.blk b).threads.length ∧ ((s.blk b).thr e.1).level ≠ 2 ∧ ((s.blk b).thr e.1).status.terminal = false) →
    (s.die ((s.blk b).core / 48)).fb.length + fs.length ≤ 1024 →
    let t := s.laneFaults b pc len fs
    (∀ e ∈ fs, (t.blk b).thr e.1 = { (s.blk b).thr e.1 with
        status := .faulted, level := 2, epc := pc, tcause := e.2.tcause, tval := e.2.addr, pc := (s.blk b).tvec, faultLen := len
        ctx := none, wait := .none, group := 0 })
    ∧ (∀ k, k ∉ fs.map (·.1) → (t.blk b).thr k = (s.blk b).thr k)
    ∧ ((t.die ((s.blk b).core / 48)).fb.map (·.body) = (s.die ((s.blk b).core / 48)).fb.map (·.body)
        ++ fs.map fun e => .lane (e.2.record (s.blk b) e.1 pc))
    ∧ (∀ n, (t.blk b).bundle n =
        { (s.blk b).bundle n with cur := ((s.blk b).bundle n).cur.filter fun k => !(fs.map (·.1)).contains k })
    ∧ (t.blk b).state = .running ∧ t.mem = s.mem

/-- Under the strike policy the faulting thread is struck: terminal, at level 0, out of every rejoin mask, with the block's count of
struck lanes raised (R100, R114, R116). -/
def Sys2Proof.Machine.LaneFaultStrikes : Prop :=
  ∀ (s : State) (b : Nat) (pc : DWord) (len k : Nat) (f : LF),
    (s.blk b).state = .running → (s.blk b).hdr.lanefault = 1 → f.cause ≠ 0x21 → k < (s.blk b).threads.length →
    ((s.blk b).thr k).level ≠ 2 → ((s.blk b).thr k).status.terminal = false →
    let t := s.laneFaults b pc len [(k, f)]
    ((t.blk b).thr k).status = .struck ∧ ((t.blk b).thr k).level = 0 ∧ (t.blk b).struck = (s.blk b).struck + 1
    ∧ ((∀ e ∈ (s.blk b).slots, k ∉ e.2.members) → (t.blk b).state = .running) ∧ ∀ n, bitAt ((t.blk b).mask (homeBundle k) n) (homeLane k) = false

/-- A lane fault in the supervisor handler kills the block with the fatal record DOUBLE_FAULT (0x43), and one whose policy is kill, or whose
policy is trap without a handler, with LANE_KILL (0x42); no thread of it is left to run, and the lane's record stands before the fatal one
(R114, R149, R150, R176). -/
def Sys2Proof.Machine.LaneFaultKills : Prop :=
  ∀ (s : State) (b : Nat) (pc : DWord) (len k : Nat) (f : LF),
    (s.blk b).state = .running → k < (s.blk b).threads.length → ((s.blk b).thr k).status.terminal = false →
    ((s.blk b).thr k).level = 2 ∨ (f.cause ≠ 0x21 ∧ (s.blk b).hdr.lanefault = 2) ∨
      ((s.blk b).hdr.lanefault = 0 ∧ (s.blk b).tvec = 0) →
    let t := s.laneFaults b pc len [(k, f)]
    (t.blk b).state = .killed ∧ (∀ j < (s.blk b).threads.length, ((t.blk b).thr j).status.terminal = true)
    ∧ ((s.die ((s.blk b).core / 48)).fb.length + 2 ≤ 1024 → ∃ r : BlockRec,
        (t.die ((s.blk b).core / 48)).fb.map (·.body) = (s.die ((s.blk b).core / 48)).fb.map (·.body)
          ++ [.lane (f.record (s.blk b) k pc), .fatal r]
        ∧ r.cause = (if ((s.blk b).thr k).level = 2 then 0x43 else 0x42) ∧ r.core = (s.blk b).core % 48 ∧ r.wid = (s.blk b).wid)

/-- What a lane fault ends: the lane under the strike policy, the block under the kill policy or in the handler. The parts name their rules. -/
def Obligations.LaneFaultEnds : Prop := Machine.LaneFaultStrikes ∧ Machine.LaneFaultKills

/-- RETURN FROM THE HANDLER (R179): the thread runs again at `epc`, or after the instruction that faulted, at the level at which it
ran before; nothing else of it changes but its place inside a wait. -/
def Sys2Proof.Machine.HandlerReturns : Prop :=
  ∀ (t : Thread) (past : Bool),
    let u := t.leaveHandler past
    u.status = .running ∧ u.level = (if t.intr.isSome then 1 else 0)
    ∧ u.pc = (if past then t.epc + .ofNat 64 t.faultLen else t.epc) ∧ u.v = t.v ∧ u.p = t.p ∧ u.nflags = t.nflags ∧ u.epc = t.epc
    ∧ u.tcause = t.tcause ∧ u.tval = t.tval ∧ u.tscr = t.tscr

/-- `trap`, `brk`, `exit`, `yield`, `nap` and the masks' instructions (R97 to R101, R109 to R111, R160): `trap` raises TRAP (0x20) with its n,
`fn` [7:0] of opcode 0x6B without operands, in its executing lanes (R109); `brk` raises BRK (0x21) where `dbgctl` [0] is set and only advances otherwise; `exit` ends its executing
lanes that run; a `nap` of n clocks keeps the subset from issuing; the mask of each home bundle gains, becomes or loses the executing
lanes. -/
def Sys2Proof.Machine.ThreadControlResults : Prop :=
  ∀ (s : State) (x : Opnds),
    let len := x.ext.bytes
    let ex := s.exe x.g
    (∀ n, (Instr.trap x n).opFn = some (0x6B, n.toNat)
      ∧ ((Instr.trap x n).wf = true → x.short = true ∧ x.d = .discard ∧ x.a = .null ∧ x.b = .null ∧ x.c = .null)
      ∧ (s.ready (.trap x n) = true → exec (.trap x n) s =
        .next ((s.begun.advanceBut len ex).finishFaults len (ex.map fun l => (l, { cause := 0x20, n := n.toNat })))))
    ∧ (s.ready (.brk x) = true → exec (.brk x) s = .next (if s.cb.dbgctl.toNat % 2 = 0 then s.begun.advance len
        else (s.begun.advanceBut len ex).finishFaults len (ex.map fun l => (l, { cause := 0x21 }))))
    ∧ (s.ready (.exit x) = true → (∀ l ∈ ex, (s.cb.thr l).status = .running) → exec (.exit x) s =
        .next ((ex.foldl (fun u l => u.endThread s.sel.blk l .exited) (s.begun.advanceBut len ex)).settle s.sel.blk))
    ∧ (s.ready (.jenr x) = true → exec (.jenr x) s = .next (s.begun.changeMasks len ex (maskNo x.d) fun m e => m ||| e))
    ∧ (s.ready (.jenrSet x) = true → exec (.jenrSet x) s = .next (s.begun.changeMasks len ex (maskNo x.d) fun _ e => e))
    ∧ (s.ready (.jstrike x) = true → exec (.jstrike x) s = .next (s.begun.changeMasks len ex (maskNo x.d) maskDiff))
    ∧ (s.ready (.jstrikeAll x) = true → exec (.jstrikeAll x) s =
        .next (((s.begun.advance len).modCb fun b => ex.foldl (fun b l => b.leaveMasks l) b).settle s.sel.blk))
    ∧ (s.ready (.nap x) = true →
        let n := (ex.map fun l => min (s.src x.ext .b32 l x.a) (2 ^ 20)).foldl max 0
        ∃ t, exec (.nap x) s = .next t ∧ s.movesOn t x ∧ s.keepsOutside t
          ∧ ∀ l ∈ s.sel.act, 0 < n → (t.cb.thr l).napUntil = s.clk + n)
    ∧ (s.ready (.yield x) = true → ex ≠ [] → ∃ t, exec (.yield x) s = .next t ∧ s.movesOn t x ∧ s.keepsOutside t
        ∧ ∀ n, s.sel.ctx = .home n → n < s.cb.bundles.length → (t.cb.bundle n).age = s.clk ∧ (t.cb.bundle n).turn = 64)

/-- `jpark` parks its executing lanes that the mask names and that run; the mask's release is tried at once (R98, R99). `reform` files
each executing lane of the issue under its next PC and `brd` every active lane, the executing ones under the target (R134, R159). -/
def Sys2Proof.Machine.RegroupResults : Prop :=
  ∀ (s : State) (x : Opnds),
    let len := x.ext.bytes
    let ex := s.exe x.g
    (s.ready (.jpark x) = true →
      let ps := ex.filter fun l => bitAt (s.cb.mask (homeBundle l) (maskNo x.d)) (homeLane l) && (s.cb.thr l).status == .running
      ∃ u : State, exec (.jpark x) s = .next (u.settle s.sel.blk)
        ∧ ∀ l ∈ ps, ∀ h ∈ bitsOf (s.cb.mask (homeBundle l) (maskNo x.d)) 128, 128 * homeBundle l + h ∉ ps →
            (s.cb.thr (128 * homeBundle l + h)).status ≠ .parked (maskNo x.d) →
            (u.cb.thr l).status = .parked (maskNo x.d) ∧ (u.cb.thr l).pc = s.sel.pc)
    ∧ (s.ready (.reform x) = true → exec (.reform x) s =
        .next ((ex.foldl (fun u l => u.file s.sel.blk l (s.sel.pc + .ofNat 64 len)) (s.begun.advance len)).settle s.sel.blk))
    ∧ (s.ready (.brd x) = true → canonical (relTarget s.sel.pc x.ext) = true → exec (.brd x) s =
        .next ((s.sel.act.foldl (fun u l => u.file s.sel.blk l (if ex.contains l then relTarget s.sel.pc x.ext else s.sel.pc + 12))
          ((if !ex.isEmpty && decide ((relTarget s.sel.pc x.ext).toNat ≤ s.sel.pc.toNat) then s.begun.endTurn
            else s.begun).advanceBut len [])).settle s.sel.blk))

/-- Traps, ends, naps, masks and regrouping. The parts name their rules. -/
def Obligations.ThreadResults : Prop := Machine.ThreadControlResults ∧ Machine.RegroupResults

namespace Sys2Proof.Machine

/-- The accesses of the lanes of a begun issue, one after another in the order of their requests (R104); those of an atomic location by
location (R283). -/
def State.accesses (s : State) (acc : LogAcc) (l1 : Bool) (lf : LF) (rs : List Req) : Gathered := s.begun.collect acc l1 false lf rs

/-- Every access of the issue was performed. -/
def Gathered.clean (g : Gathered) : Prop := g.stopped = none ∧ g.faults = [] ∧ g.restarts = []

/-- The state once all of an issue's accesses were performed: requests to pages of mode 2 are counted, one for each sector (R399). -/
def Gathered.counted (g : Gathered) (s : State) (acc : LogAcc) (rs : List Req) : State :=
  g.st.countSectors s.cb.who
    ((rs.filter fun r => g.vals.any fun v => v.1 == r.thr).flatMap fun r => (acc.bytesAt r.ea.toNat).map (·.1))

/-- The state after an issue whose accesses were all performed: the lanes go on, and their values and flags are written. -/
def Gathered.done (g : Gathered) (s : State) (acc : LogAcc) (rs : List Req) (x : Opnds) (d : Dst) (n : Nat) : State :=
  (((g.counted s acc rs).advanceBut x.ext.bytes []).write d n (g.vals.map fun v => (v.1, v.2.val))).flagLanes
    (g.vals.map fun v => (v.1, v.2.flags))

/-- The same after an access made once per issue: the horizon of every executing lane rises (R288). -/
def Gathered.doneAll (g : Gathered) (s : State) (acc : LogAcc) (rs : List Req) (x : Opnds) (ex : List Nat) (d : Dst) (n : Nat)
    (v : Nat × Done) : State :=
  (((((g.counted s acc rs).advanceBut x.ext.bytes []).modCb fun b => ex.foldl (fun b k => b.raise k v.2.share) b)).write d n
    [(v.1, v.2.val)]).flagLanes [(v.1, v.2.flags)]

/-- The per-lane loads and stores (R104 to R106): access, allocation, hint, fields of a fault, requests, destination and registers. -/
def laneAccess (s : State) : Instr → Option (Opnds × LogAcc × Bool × Hint × LF × List Req × Dst × Nat)
  | .ld x w zx h => some (x, .load w, h != .nl1, h, widthLF w false,
      (s.exe x.g).map (s.begun.req x zx w.size (widthLF w false) (fun _ => 0) fun _ => 0), x.d, w.regs)
  | .st x w zx h => some (x, .store w, false, h, widthLF w true,
      (s.exe x.g).map (s.begun.req x zx w.size (widthLF w true) (fun t => s.src x.ext (.int (8 * w.size) true) t x.c) fun _ => 0),
      .discard, 1)
  | .ldl x w => some (x, .loadLocal w, true, .none, widthLF w false,
      (s.exe x.g).map (s.begun.localReq x w false fun _ => 0), x.d, w.regs)
  | .stl x w => some (x, .storeLocal w, false, .none, widthLF w true,
      (s.exe x.g).map (s.begun.localReq x w true fun t => s.src x.ext (.int (8 * w.size) true) t x.c), .discard, 1)
  | .ldc x w => if Dst.isScalar x.d then none else some (x, .const w, false, .none, widthLF w false,
      (s.exe x.g).map (s.begun.req x false w.size (widthLF w false) (fun _ => 0) fun _ => 0), x.d, w.regs)
  | _ => none

/-- The loads made once per issue into scalar registers (R107, R153). -/
def uniformLoad (s : State) : Instr → Option (Opnds × LogAcc × Bool × LF × List Req × Nat)
  | .ldc x w => if Dst.isScalar x.d then some (x, .const w, false, widthLF w false,
      ((s.exe x.g).take 1).map (s.begun.req x false w.size (widthLF w false) (fun _ => 0) fun _ => 0), w.regs) else none
  | .sld x w => some (x, .load w, true, widthLF w false,
      ((s.exe x.g).take 1).map (s.begun.req x false w.size (widthLF w false) (fun _ => 0) fun _ => 0), w.regs)
  | _ => none

end Sys2Proof.Machine

/-- Loads and stores whose every lane's access is performed complete: the lanes go on and each executing lane's value is in its
destination (R104 to R107, R113, R153); under `.lu` the lines accessed become preferred victims (R102). A uniform load raises the fence
horizon of every executing lane (R288). -/
def Obligations.LoadsAndStoresComplete : Prop :=
  ∀ (s : State) (i : Instr),
    (∀ x acc l1 h lf rs d n, laneAccess s i = some (x, acc, l1, h, lf, rs, d, n) → s.ready i = true →
      (s.accesses acc l1 lf rs).clean →
      exec i s = .next (((s.accesses acc l1 lf rs).done s acc rs x d n).lastUse h rs (s.accesses acc l1 lf rs).vals))
    ∧ (∀ x acc l1 lf rs n v, uniformLoad s i = some (x, acc, l1, lf, rs, n) → s.ready i = true →
      (s.accesses acc l1 lf rs).clean → (s.accesses acc l1 lf rs).vals = [v] →
      exec i s = .next ((s.accesses acc l1 lf rs).doneAll s acc rs x (s.exe x.g) x.d n v))

/-- The first checks of an access (R103): an address whose bits [63:56] do not all equal bit 56 is NONCANONICAL (0x11); one that is not
a multiple of the access's size is MISALIGNED (0x10); the address is kept with the fault; any other passes both. -/
def Sys2Proof.Machine.AddressChecks : Prop :=
  ∀ (a : DWord) (n : Nat) (lf : LF),
    (canonical a = false → addrCheck a n lf = some { lf with cause := 0x11, addr := a })
    ∧ (canonical a = true → a.toNat % n ≠ 0 → addrCheck a n lf = some { lf with cause := 0x10, addr := a })
    ∧ (canonical a = true → a.toNat % n = 0 → addrCheck a n lf = none)

/-- A store to a page that is neither coherent nor a peer's, of a scope inside the die, enters the die's L2 with its mask bits, where its
slice has room for the line: the L2 then holds the stored bytes, every other byte of every L2 and every byte of memory stays as it was
(R254, R255, R370). -/
def Sys2Proof.Machine.StoreEntersL2 : Prop :=
  ∀ (s : State) (w : Who) (p : Page) (pa : Nat) (bytes : List Byte) (wr : List (Nat × Nat)),
    p.peer = false → p.coh = false → (p.share ≤ 3 ∨ p.msd = true) → w.die < 4 → s.l2Room w.die pa = true →
    let t := (s.storeAt w p pa bytes wr).1
    (s.storeAt w p pa bytes wr).2 = none ∧ t.l2Bytes w.die pa bytes.length = bytes
    ∧ (∀ k < bytes.length, ∃ x, t.l2 w.die (pa + k) = some x ∧ x.masked = true ∧ ∀ y ∈ wr, y ∈ x.writers)
    ∧ (∀ k a, ¬(k = w.die ∧ pa ≤ a ∧ a < pa + bytes.length) → t.l2 k a = s.l2 k a) ∧ (∀ k, k ≠ w.die → t.die k = s.die k)
    ∧ (∀ a, t.mem.byte a = s.mem.byte a) ∧ t.blocks = s.blocks ∧ t.cores = s.cores

/-- A store of scope 4 or 5 is sent from its die to every other agent that holds a view of memory, stamped with the writer's clock; a
home that is the writer's own has it at once (R370, R378). -/
def Sys2Proof.Machine.WideStoreIsSent : Prop :=
  ∀ (s : State) (a pa : Nat) (bytes : List Byte) (wr : List (Nat × Nat)),
    a < 4 → s.hub.clocks.length = 6 →
    let t := s.sendWrite a pa bytes wr
    (∀ k < 4, k ≠ a → ∃ d ∈ t.hub.inflight, d.target = k ∧ d.pa = pa ∧ d.bytes = bytes ∧ d.src = a ∧ d.stamp = t.vclock a)
    ∧ t.vclock a = modAt (· + 1) a (s.vclock a)

/-- Where a store goes: into its die's L2, and on to every agent that holds a view of memory. The parts name their rules. -/
def Obligations.StoresReachMemory : Prop := Machine.StoreEntersL2 ∧ Machine.WideStoreIsSent

/-- `atom`, `red` and the range instructions whose accesses are all performed complete (R281, R283, R293). A `red` writes no register; an
`atom` leaves the old value in its destination and sets the flags of `fadd`, whether or not it keeps the value. Under `.acq` and `.ar` each
lane is then fenced at least at its page's scope (R284). -/
def Sys2Proof.Machine.AtomicsAndRangesComplete : Prop :=
  ∀ (s : State) (x : Opnds),
    (∀ t op ord (i : Instr) (returns flags : Bool),
      (i = .atom x t op ord ∧ returns = (x.d != .discard) ∧ flags = true) ∨ (i = .red x t op ord ∧ returns = false ∧ flags = false) →
      s.ready i = true →
      let ty : OpTy := if t == .f32 then .fp .f32 else .int t.bits true
      let rs := (s.exe x.g).map (s.begun.req x false (4 * t.regs) { cause := 0 } (fun l => s.src x.ext ty l x.c) fun l =>
        if op == .cas then s.src x.ext ty l (srcAfter x.c t.regs) else 0)
      let acc : LogAcc := .atomic t op ord returns flags
      let g := s.accesses acc false { cause := 0 } rs
      let u := g.done s acc rs x x.d t.regs
      let on := s.sel.act.filter fun l => (u.cb.thr l).live && (u.cb.thr l).pc == s.sel.pc + .ofNat 64 x.ext.bytes
      g.clean → exec i s = .next (if (ord = .acq ∨ ord = .ar) ∧ g.vals ≠ [] then
        u.fenceLanes s.sel.blk on (g.vals.map (·.1)) fun l => ((g.vals.find? fun v => v.1 == l).map fun v => v.2.share).getD 0 else u))
    ∧ (∀ (i : Instr) (k l : Nat) (ls : List Nat) (v : Nat × Done),
      (i = .cleanR x ∧ k = 0) ∨ (i = .invR x ∧ k = 1) ∨ (i = .flushR x ∧ k = 2) → s.ready i = true → s.exe x.g = l :: ls →
      s.src x.ext .b32 l x.b ≠ 0 →
      let acc : LogAcc := .range k (s.src x.ext .b32 l x.b)
      let rs : List Req := [{ thr := l, ea := .ofNat 64 (s.src x.ext .b64 l x.a) + disp x.ext, data := 0, data2 := 0, bad := none }]
      let g := s.accesses acc false { cause := 0 } rs
      g.clean → g.vals = [v] → exec i s = .next (g.doneAll s acc rs x (s.exe x.g) .discard 1 v))

/-- The atomic step (R281) at every type and its width, 32, 64 or 128 bits: add wraps; min and max compare under the type's sign; exchange
stores b; compare-and-swap stores c where the old value equals b and nothing otherwise; `fadd` stores the sum of two f32 values rounded to
nearest even, with its flags, a sum of finite values exactly once rounded (R55, R56). -/
def Obligations.AtomicSteps : Prop :=
  (∀ (ty : ATy) (old b c : BitVec ty.bits),
    (atomStep ty .add old.toNat b.toNat c.toNat).1 = some (old + b).toNat
    ∧ (atomStep ty .min old.toNat b.toNat c.toNat).1 = some (if (if ty.signed then b.slt old else b.ult old) then b else old).toNat
    ∧ (atomStep ty .max old.toNat b.toNat c.toNat).1 = some (if (if ty.signed then old.slt b else old.ult b) then b else old).toNat
    ∧ (atomStep ty .and old.toNat b.toNat c.toNat).1 = some (old &&& b).toNat
    ∧ (atomStep ty .or old.toNat b.toNat c.toNat).1 = some (old ||| b).toNat
    ∧ (atomStep ty .xor old.toNat b.toNat c.toNat).1 = some (old ^^^ b).toNat
    ∧ (atomStep ty .exch old.toNat b.toNat c.toNat).1 = some b.toNat
    ∧ (atomStep ty .cas old.toNat b.toNat c.toNat).1 = (if old = b then some c.toNat else none)
    ∧ ∀ op, op ≠ .fadd → (atomStep ty op old.toNat b.toNat c.toNat).2 = 0)
  ∧ (∀ (old b c : BitVec 32),
      let r := finish .f32 .rn false (Fp.add .rn (Fp.unpack .f32 old.toNat) (Fp.unpack .f32 b.toNat))
      atomStep .f32 .fadd old.toNat b.toNat c.toNat = (some r.1, r.2))
  ∧ ATy.n32.bits = 32 ∧ ATy.s32.bits = 32 ∧ ATy.b32.bits = 32 ∧ ATy.f32.bits = 32 ∧ ATy.n64.bits = 64 ∧ ATy.s64.bits = 64 ∧ ATy.b64.bits = 64
  ∧ ATy.b128.bits = 128 ∧ ATy.s32.signed = true ∧ ATy.s64.signed = true ∧ ATy.n32.signed = false ∧ ATy.n64.signed = false

/-- Under `.rel` and `.ar` a step is made after a fence of its lane (R284): of one lane whose access passes every check (R113), the step is made
in the state that the completed fence leaves; while the fence cannot complete, nothing is. -/
def Sys2Proof.Machine.ReleaseBeforeStep : Prop :=
  ∀ (s : State) (acc : LogAcc) (r : Req) (c : State) (d : Done),
    acc.releases = true → r.bad = none → ((s.blk s.sel.blk).thr r.thr).wait = .none →
    let s0 := s.preClean s.cb.who [r.ea.toNat]
    s0.perform s.sel.blk r.thr acc r.ea.toNat r.data r.data2 false false = (c, .ok d) →
    (s0.fenceFirst s.sel.blk [r.thr] 0 = none →
      (s.collect acc false false { cause := 0 } [r]).vals = [] ∧ (s.collect acc false false { cause := 0 } [r]).stopped = some none)
    ∧ (∀ (u v : State) (e : Done), s0.fenceFirst s.sel.blk [r.thr] 0 = some u → ((u.blk s.sel.blk).thr r.thr).wait = .none →
      u.perform s.sel.blk r.thr acc r.ea.toNat r.data r.data2 false false = (v, .ok e) →
      s.collect acc false false { cause := 0 } [r] = { st := v, vals := [(r.thr, e)], faults := [], restarts := [], stopped := none })

/-- `fence`, `pbar`, `waitcmp` and `pref` (R108, R274, R285, R288 to R292): a fence holds its executing lanes at the larger of its scope and
their horizon; `pbar` orders its lanes' persistent stores before those that follow and raises their horizon to 5, and `pbar.wait` does so once
none of theirs is pending; a `waitcmp` whose location already meets its condition ends with its predicate set; a `pref` makes its lanes'
prefetches and goes on, writing no register, and those that miss translation are dropped and counted. -/
def Sys2Proof.Machine.OrderingResults : Prop :=
  ∀ (s : State) (x : Opnds),
    (∀ m, s.ready (.fence x m) = true → s.exe x.g ≠ [] → exec (.fence x m) s =
      .next ((s.begun.advance x.ext.bytes).fenceLanes s.sel.blk s.sel.act (s.exe x.g) fun _ => m.toNat))
    ∧ (∀ w, s.ready (.pbar x w) = true → s.exe x.g ≠ [] →
      let mine (e : Persist) : Bool := e.blk == s.sel.blk && (s.exe x.g).contains e.thr
      (w = true → s.hub.persists.any mine = false) →
      ∃ t, exec (.pbar x w) s = .next t ∧ s.movesOn t x ∧ (∀ l ∈ s.exe x.g, (t.cb.thr l).h = 5) ∧ t.cb.irrevocable = true
        ∧ t.hub = { s.hub with persists := s.hub.persists.map fun e => if mine e then { e with age := e.age + 1 } else e } ∧ t.mem = s.mem)
    ∧ (∀ (t : ATy) (cc : Cc) (l : Nat) (ls : List Nat) (s1 s2 : State) (p : Page) (bs : List Byte), s.ready (.waitcmp x t cc) = true →
      s.exe x.g = l :: ls → (s.cb.thr l).wait = .none →
      let va := (.ofNat 64 (s.src x.ext .b64 l x.a) + disp x.ext : DWord)
      let s3 := s2.modCb fun b => (s.exe x.g).foldl (fun b u => b.raise u p.share) b
      addrCheck va (4 * t.regs) { cause := 0 } = none →
      s.begun.translate s.cb.who va.toNat (4 * t.regs) .read false = (s1, .ok p) →
      s1.loadAt s1.cb.who p (p.pa + (va.toNat - p.va)) (4 * t.regs) = (s2, .ok bs) →
      waitHolds t cc (ofBytes bs) (s3.src x.ext (.int t.bits true) l x.b) = true →
      exec (.waitcmp x t cc) s = .next (s3.waitcmpEnd x true))
    ∧ (∀ zx l1, s.ready (.pref x zx l1) = true →
      let vas := (s.exe x.g).map fun l => (s.begun.memAddr x zx l).toNat
      ∃ t, exec (.pref x zx l1) s = .next t ∧ t = (vas.foldl (fun u va => u.prefetch s.cb.who va l1) s.begun).advance x.ext.bytes
        ∧ s.movesOn t x ∧ (∀ l k, (t.cb.thr l).vreg k = (s.cb.thr l).vreg k)
        ∧ ((∀ va ∈ vas, canonical (.ofNat 64 va) = false ∨ ∃ e, (s.begun.translate s.cb.who va 1 .read true).2 = .error e) →
          t.dies = s.dies ∧ t.hub = s.hub ∧ t.mem = s.mem
          ∧ t.core s.cc = { s.core s.cc with specdrop := (s.core s.cc).specdrop + .ofNat 64 vas.length }))

/-- Atomics, range maintenance, fences and waits on memory. The parts name their rules. -/
def Obligations.SynchronisationResults : Prop :=
  Machine.AtomicsAndRangesComplete ∧ Machine.ReleaseBeforeStep ∧ Machine.OrderingResults

namespace Sys2Proof.Machine

/-! ### Scratchpad, barriers and rings -/

/-- The executing lanes of a scratchpad access with their addresses (R161). -/
def State.padAt (s : State) (x : Opnds) (zx : Bool) : List (Nat × Nat) := (s.exe x.g).map fun t => (t, s.spAddr x zx t)

/-- Accesses of `size` bytes to a block's scratchpad pass the checks of R161 and no copy in flight holds their bytes (R162). -/
def State.padClear (s : State) (bid size : Nat) (clob : Bool) (rs : List (Nat × Nat)) : Prop :=
  ∀ e ∈ rs, (s.blk bid).padCheck e.2 size clob { cause := 0 } = none ∧ s.sbBusy bid e.2 size = false

/-- Every word of the accesses can be read and is not poisoned (R185, R194). -/
def State.padSound (s : State) (bid size : Nat) (rs : List (Nat × Nat)) : Prop :=
  ∀ e ∈ rs, ∀ w ∈ wordsOf e.2 size,
    ((s.core (s.blk bid).core).scratch.read ((s.blk bid).word w)).isSome = true
      ∧ (s.core (s.blk bid).core).scratch.poisoned ((s.blk bid).word w) = false

/-- The bytes that the lanes of a store write, each lane's at its address. -/
def State.padStored (s : State) (x : Opnds) (w : MWidth) (rs : List (Nat × Nat)) : List (Nat × Nat × List Byte) :=
  rs.map fun e => (e.1, e.2, toBytes w.size (s.src x.ext (.int (8 * w.size) true) e.1 x.c))

/-- The end of a load of scratchpad: each lane's value in its destination, its horizon raised to the scope `h`. -/
def State.padGot (s u : State) (x : Opnds) (w : MWidth) (bid h : Nat) (rs : List (Nat × Nat)) : State :=
  ((u.advanceBut x.ext.bytes []).write x.d w.regs (rs.map fun e => (e.1, w.extended (ofBytes (s.padBytes bid e.2 w.size))))).raiseAll
    (rs.map (·.1)) h

end Sys2Proof.Machine

/-- `lds`, `sts` and `atoms` that are served whole (R186) and whose every lane passes its checks complete: a load leaves each lane's bytes in its
destination; a store writes each lane's bytes, a later lane's over an earlier one's; an atomic acts in one lane after another and leaves each
lane's old value (R104, R161 to R163, R187 to R190). -/
def Sys2Proof.Machine.ScratchWhole : Prop :=
  ∀ (s : State) (x : Opnds), s.padWhole = true →
    (∀ w zx, s.ready (.lds x w zx) = true → s.padClear s.sel.blk w.size false (s.padAt x zx) →
      s.padSound s.sel.blk w.size (s.padAt x zx) →
      exec (.lds x w zx) s = .next (s.padGot (s.begun.padLoad s.sel.blk w.size (s.padAt x zx)).1 x w s.sel.blk 1 (s.padAt x zx)))
    ∧ (∀ w zx, s.ready (.sts x w zx) = true → s.padClear s.sel.blk w.size true (s.padAt x zx) →
      exec (.sts x w zx) s = .next (((s.begun.padStores s.sel.blk (s.padStored x w (s.padAt x zx))).advanceBut x.ext.bytes []).raiseAll
        ((s.padAt x zx).map (·.1)) 1))
    ∧ (∀ t op, s.ready (.atoms x t op) = true →
      let rs := (s.exe x.g).map fun l => (l, (s.src x.ext .b32 l x.a + (disp x.ext).toNat) % 2 ^ 32)
      let acc := s.atomsAcc x t op rs
      s.padClear s.sel.blk (4 * t.regs) true rs → s.padSound s.sel.blk (4 * t.regs) rs →
      exec (.atoms x t op) s = .next ((((((s.begun.atomsRead (4 * t.regs) rs).padStore s.sel.blk
            (s.atomsStores (4 * t.regs) rs acc)).advanceBut x.ext.bytes []).write x.d t.regs (acc.olds.map fun o => (o.1, o.2.1))).flagLanes
          (acc.olds.map fun o => (o.1, o.2.2))).raiseAll (rs.map (·.1)) 1))

/-- `lds` and `sts` that more than one pass serves (R186): the lanes served now are given their values, or store; while some are left, all stay
inside the instruction, and once none is left it ends as one served whole. -/
def Sys2Proof.Machine.ScratchPasses : Prop :=
  ∀ (s : State) (x : Opnds) (w : MWidth) (zx : Bool), s.padWhole = false →
    let rs := s.padAt x zx
    let now := (s.padTurn w.size rs).1
    let last := (s.padTurn w.size rs).2
    (s.ready (.lds x w zx) = true → s.padClear s.sel.blk w.size false rs → s.padSound s.sel.blk w.size now →
      let u := (s.begun.padLoad s.sel.blk w.size now).1
      let vs : List (Nat × Nat) := now.map fun e => (e.1, ofBytes (s.padBytes s.sel.blk e.2 w.size))
      exec (.lds x w zx) s = .next (if last then
          ((u.advanceBut x.ext.bytes []).write x.d w.regs ((s.padBack rs vs (·.1)).map fun v => (v.1, w.extended v.2))).raiseAll
            ((s.padBack rs vs (·.1)).map (·.1)) 1
        else u.padHold (vs.map fun v => (v.1, v.2, 0))))
    ∧ (s.ready (.sts x w zx) = true → s.padClear s.sel.blk w.size true rs →
      let u := s.begun.padStores s.sel.blk (s.padStored x w now)
      exec (.sts x w zx) s = .next (if last then (u.advanceBut x.ext.bytes []).raiseAll (rs.map (·.1)) 1
        else u.padHold (now.map fun e => (e.1, 0, 0))))

/-- Accesses of a core's scratchpad, served whole or over several passes. The parts name their rules. -/
def Obligations.ScratchAccesses : Prop := Machine.ScratchWhole ∧ Machine.ScratchPasses

/-- The checks of R161, in their order: bytes past the allocation raise SCRATCH_RANGE (0x17), a misaligned address MISALIGNED (0x10), and a
write of bytes of a bound record BARRIER_CLOBBER (0x19), each with the address as its fault address. -/
def Sys2Proof.Machine.ScratchChecks : Prop :=
  ∀ (b : Block) (a size : Nat) (clob : Bool) (lf : LF),
    (b.scratchSize < a + size → b.padCheck a size clob lf = some { lf with cause := 0x17, addr := .ofNat 64 a })
    ∧ (a + size ≤ b.scratchSize → a % size ≠ 0 → b.padCheck a size clob lf = some { lf with cause := 0x10, addr := .ofNat 64 a })
    ∧ (a + size ≤ b.scratchSize → a % size = 0 → (clob && b.clobbers a size) = true →
      b.padCheck a size clob lf = some { lf with cause := 0x19, addr := .ofNat 64 a })
    ∧ (a + size ≤ b.scratchSize → a % size = 0 → (clob && b.clobbers a size) = false → b.padCheck a size clob lf = none)

/-- The checks of accesses to memory and to scratchpad. The parts name their rules. -/
def Obligations.AccessChecks : Prop := Machine.AddressChecks ∧ Machine.ScratchChecks

/-- A store of one word whose old value has no uncorrectable error keeps the parity of its row (R189, R191): with every queued update, the parity word is the exclusive or of the
row's sixteen words afterwards as it was before, and no other word of the scratchpad changes. -/
def Obligations.StoreKeepsParity : Prop :=
  ∀ (sp : Scratchpad) (r : SpStore) (sync : Bool),
    let gr := groupRow r.word
    let queued (sp : Scratchpad) : Word := ((sp.pq (gr % 16)).filter fun e => e.1 == gr / 16).foldl (fun x e => x ^^^ e.2) 0
    let sum (sp : Scratchpad) : Word := (groupWords gr).foldl (fun x w => x ^^^ sp.raw w) 0
    sp.degraded (gr % 16) = false → Sparse.look sp.parityUe gr = none → sp.bad r.word = false → ((sp.pq (gr % 16)).filter fun e => e.1 == gr / 16).length ≤ 1 →
    sum sp = sp.par gr ^^^ queued sp →
    let t := sp.writeRow gr sync [r]
    sum t = t.par gr ^^^ queued t ∧ t.raw r.word = Scratchpad.merge (sp.peek r.word) r.value r.mask ∧ ∀ w, w ≠ r.word → t.raw w = sp.raw w

namespace Sys2Proof.Machine

/-- The parts of `lds.rem`, `sts.rem` and `sts.rem.arr` (R243). -/
def remInstr (s : State) : Instr → Option (Rem × Nat)
  | .ldsRem x w zx p xr => some ({ x := x, w := w, zx := zx, store := false, slot := none, only := false }, s.peerCore p xr)
  | .stsRem x w zx p xr => some ({ x := x, w := w, zx := zx, store := true, slot := remSlot x.ext, only := false }, s.peerCore p xr)
  | .stsRemArr x _ p xr => some ({ x := x, w := .n8, zx := false, store := false, slot := remSlot x.ext, only := true }, s.peerCore p xr)
  | _ => none

/-- What a remote access does at its target before its arrival (R244, R245, R247, R288): the bytes are stored, poisoned data with its marker;
the intervals of both blocks are
irrevocable, the horizons of the lanes rise to 2. -/
def State.remStored (s : State) (r : Rem) (tgt : Nat) (rs : List (Nat × Nat)) : State :=
  let u := s.padPut tgt (if r.only then [] else (s.remLanes r).map fun e => (e.1, e.2.1, toBytes r.w.size e.2.2.1, e.2.2.2))
  let u := if rs.isEmpty then u else u.irrevoke tgt
  (if rs.isEmpty && r.slot.isNone then u else u.irrevoke s.sel.blk).raiseAll (if r.slot.isSome then s.exe r.x.g else rs.map (·.1)) 2

end Sys2Proof.Machine

/-- `lds.rem`, `sts.rem` and `sts.rem.arr` to a member that runs, with nothing of their bundle before them at its port and no fill of their
lanes still to read what they store (R217), complete at once where their checks pass (R243 to R247): the load leaves each lane's bytes of the member's scratchpad in its destination; the store
writes them and then arrives, if it names a slot, with minus the bytes stored; the third arrives with none; where the record cannot be read
the issuer consumes the error, and no longer issues (R196). -/
def Sys2Proof.Machine.RemoteAccesses : Prop :=
  ∀ (s : State) (i : Instr) (r : Rem) (c tgt : Nat),
    remInstr s i = some (r, c) → s.ready i = true → s.exe r.x.g ≠ [] → s.memberAt s.sel.blk c = some tgt →
    (s.blk tgt).state.issues = true → portBehind (s.core c).port s.sel = false → s.fillAhead r c (s.remLanes r) = false →
    let rs := if r.only then [] else (s.exe r.x.g).map fun t => (t, s.remAddr r t)
    s.padClear tgt r.w.size r.store rs →
    (∀ n ∈ r.slot, (Sparse.look (s.blk tgt).slots n).isSome = true) →
    (r.store = false → r.only = false → r.slot = none → s.padSound tgt r.w.size rs →
      ∃ t, exec i s = .next t ∧ let u := s.padGot (s.begun.padLoad tgt r.w.size rs).1 r.x r.w tgt 2 rs
        t.blocks = u.blocks ∧ t.cores = u.cores ∧ t.mem = s.mem)
    ∧ (r.store = true ∨ r.only = true →
      let u := s.begun.remStored r tgt rs
      let bytes : Int := -((rs.length * r.w.size : Nat) : Int)
      (∀ n ∈ r.slot, u.arriveOk tgt n bytes = true) →
      ∃ t, exec i s = .next t ∧
        let v := match r.slot with
          | none => u.advanceBut r.x.ext.bytes []
          | some n =>
            let v := u.arriveFrom s.sel.blk tgt n bytes
            if v.cb.state.issues then v.advanceBut r.x.ext.bytes [] else v
        t.blocks = v.blocks ∧ t.cores = v.cores ∧ t.mem = v.mem)

/-- A remote access to a core that holds no member of the cohort raises REMOTE_PEER (0x1B) in its executing lanes, with no effect (R245). -/
def Sys2Proof.Machine.RemotePeerFault : Prop :=
  ∀ (s : State) (i : Instr) (r : Rem) (c : Nat),
    remInstr s i = some (r, c) → s.ready i = true → s.exe r.x.g ≠ [] → s.memberAt s.sel.blk c = none →
    exec i s = .next ((s.begun.advanceBut r.x.ext.bytes (s.exe r.x.g)).finishFaults r.x.ext.bytes
      ((s.exe r.x.g).map fun t => (t, { widthLF r.w r.store with cause := 0x1B })))

/-- Accesses to another member's scratchpad. The parts name their rules. -/
def Obligations.RemoteResults : Prop := Machine.RemoteAccesses ∧ Machine.RemotePeerFault

/-- `bbind`, `bunbind` and `bexp` (R168, R169, R412): a record that is not bound, whose reserved bits are 0 and whose pending count is not
above its expected count is bound to a free slot; a bound slot named by no copy is freed and the waits on it end; a change of the
expected count that keeps the ranges is made. -/
def Sys2Proof.Machine.BarrierBinding : Prop :=
  ∀ (s : State) (x : Opnds) (n : BitVec 4),
    (∀ all l ls, s.ready (.bbind x n all) = true → s.exe x.g = l :: ls →
      let a := s.src x.ext .b32 l x.a
      let r := s.barAt s.sel.blk a
      s.padClear s.sel.blk 16 false [(l, a)] → s.padSound s.sel.blk 16 [(l, a)] → (Sparse.look s.cb.slots n.toNat).isNone = true →
      r.bound = false → r.rsvd = false → r.pending ≤ r.expected →
      exec (.bbind x n all) s = .next (((((s.begun.padLoad s.sel.blk 16 [(l, a)]).1.setBar s.sel.blk a
          { r with bound := true, slot := n.toNat, tmo := false }).modCb fun b => { b with
            slots := Sparse.put b.slots n.toNat
              { addr := a, members := if all then s.cb.open else [], arrived := [], updated := false, phases := 0, base := false } }).advance
        x.ext.bytes).raiseAll (s.exe x.g) 1))
    ∧ (∀ sl r, s.ready (.bunbind x n) = true → s.exe x.g ≠ [] → s.barOf s.sel.blk n.toNat = some (sl, r) →
      s.copyNames s.sel.blk n.toNat = false →
      exec (.bunbind x n) s = .next (((((s.begun.barAccess s.sel.blk sl.addr fun u =>
            u.setBar s.sel.blk sl.addr { r with bound := false, slot := 0 }).modCb fun b => { b with
            slots := Sparse.del b.slots n.toNat
            rings := b.rings.filter fun g => !(g.first ≤ n.toNat && n.toNat < g.first + 2 * g.depth) }).advance x.ext.bytes).raiseAll
          (s.exe x.g) 1).endWaits s.sel.blk n.toNat |>.settle s.sel.blk))
    ∧ (∀ now clrt sl r, s.ready (.bexp x n now clrt) = true → s.exe x.g ≠ [] → s.barOf s.sel.blk n.toNat = some (sl, r) →
      let d := s.barBytes x
      let p : Int := if now then r.pending + d else r.pending
      BarRec.inRange (r.expected + d) p r.bytes = true →
      exec (.bexp x n now clrt) s = .next (((s.begun.barUpdate s.sel.blk n.toNat (fun r => { r with
        expected := (r.expected + d).toNat, pending := p.toNat, tmo := r.tmo && !clrt }) id).advance x.ext.bytes).raiseAll (s.exe x.g) 1))

/-- `barr`, `barrb`, `bwait`, `btest`, `bwaitt` and `bblk` (R166, R170, R172): lanes that have not yet arrived in this phase lower the pending
count by their number and change the byte count once; `barrb` then waits unless the phase has completed; the waits end at once
where the phase bit differs from their source; `btest` reads the bit; each executing lane waits at a `bblk`. -/
def Sys2Proof.Machine.BarrierOperations : Prop :=
  ∀ (s : State) (x : Opnds) (n : BitVec 4) (sl : Slot) (r : BarRec),
    let ex := s.exe x.g
    let len := x.ext.bytes
    ex ≠ [] → s.barOf s.sel.blk n.toNat = some (sl, r) → s.padSound s.sel.blk 16 [(0, sl.addr)] →
    let arrived := s.begun.barUpdate s.sel.blk n.toNat
      (fun r => { r with pending := r.pending - ex.length, bytes := r.bytes + s.barBytes x })
      (fun sl => { sl with members := sl.members ++ ex.filter fun t => !sl.members.contains t, arrived := sl.arrived ++ ex })
    ((∀ t ∈ ex, t ∉ sl.arrived) → BarRec.inRange r.expected (r.pending - ex.length) (r.bytes + s.barBytes x) = true →
      (s.ready (.barr x n) = true → exec (.barr x n) s = .next ((arrived.advanceBut len []).raiseAll ex 1))
      ∧ (s.ready (.barrb x n) = true → (∃ t ∈ ex, (s.cb.thr t).wait ≠ .barrb n.toNat true) → exec (.barrb x n) s = .next
        (if r.pending - ex.length = 0 ∧ r.bytes + s.barBytes x = 0 then (arrived.raiseAll ex 1).advanceBut len []
          else (arrived.raiseAll ex 1).holdEach len ex fun _ => .barrb n.toNat false)))
    ∧ (s.ready (.bwait x n) = true → (∀ t ∈ ex, r.phase ≠ s.waitPhase x t) → (∃ t ∈ ex, (s.cb.thr t).wait ≠ .bwait n.toNat true) →
      exec (.bwait x n) s = .next ((s.begun.raiseAll ex 1).advance len))
    ∧ (s.ready (.btest x n) = true →
      exec (.btest x n) s = .next (((s.begun.advance len).write x.d 1 (ex.map fun t => (t, if r.phase then 1 else 0))).raiseAll ex 1))
    ∧ (s.ready (.bwaitt x n) = true → (∀ t ∈ ex, r.phase ≠ s.waitPhase x t) → (∀ t ∈ ex, (s.cb.thr t).wait = .none) →
      exec (.bwaitt x n) s = .next (((s.begun.raiseAll ex 1).advance len).write x.d 1 (ex.map fun t => (t, 1))))
    ∧ (s.ready (.bblk x) = true → exec (.bblk x) s = .next ((((s.begun.advanceBut len ex).modCb fun b =>
        b.modThrs ex fun _ t => { t with wait := .bblk, parkLen := len, group := 1 + s.sel.act.headD 0 }).raiseAll ex 1).endTurn.settle
          s.sel.blk))

/-- A phase of a bound barrier, whose record can be read, completes when both counts reach 0 (R166): the phase bit inverts, the pending count
is the expected count again, the slot has completed one phase more, and every wait on it ends; where the bound of a `bwaitt` had passed
before, the timeout sticky is set (R170). -/
def Obligations.PhaseCompletes : Prop :=
  ∀ (s : State) (b n : Nat) (sl : Slot) (r : BarRec) (bytes : Int),
    s.barOf b n = some (sl, r) → r.pending = 1 → r.bytes + bytes = 0 → s.padSound b 16 [(0, sl.addr)] →
    let late := (s.blk b).state != .saved && (s.blk b).threads.any fun t => t.wait.late (s.die ((s.blk b).core / 48)).clk n
    let read := if (s.blk b).state = .saved then s
      else (s.barRead b sl.addr).1
    ∃ u, u = read.putBar b n sl { r with bytes := 0, phase := !r.phase, pending := r.expected, tmo := r.tmo || late }
      ∧ let t := s.arrive b n bytes false
        Sparse.look (t.blk b).slots n = some { sl with arrived := [], updated := false, phases := sl.phases + 1 }
        ∧ t.cores = u.cores ∧ t.mem = u.mem
        ∧ ∀ k, ((t.blk b).thr k).wait.onSlot n = false

/-- The ring instructions (R175): `ring.bind` on bound slots outside every ring makes a ring, takes each slot's base phase and restarts its
counts; acquire waits for the stage's empty slot and get for its full slot, judged by `bar.phase` against the base phase, and each gives the
stage's number; put arrives on the full slot and release on the
empty one, and raises the bundle's count. -/
def Sys2Proof.Machine.RingResults : Prop :=
  ∀ (s : State) (x : Opnds) (n : BitVec 4),
    let ex := s.exe x.g
    let bid := s.sel.blk
    let len := x.ext.bytes
    ex ≠ [] →
    (∀ d : BitVec 3, s.ready (.ringBind x n d) = true →
      (∀ k < 2 * (d.toNat + 1), (Sparse.look s.cb.slots (n.toNat + k)).isSome = true
        ∧ ∀ g ∈ s.cb.rings, ¬(g.first ≤ n.toNat + k ∧ n.toNat + k < g.first + 2 * g.depth)) →
      exec (.ringBind x n d) s = .next (((s.begun.modCb fun b => { b with
        rings := b.rings ++ [{ first := n.toNat, depth := d.toNat + 1 }]
        slots := b.slots.map fun e =>
          if ((List.range (2 * (d.toNat + 1))).map (n.toNat + ·)).contains e.1 then
            (e.1, { e.2 with base := (s.barAt s.sel.blk e.2.addr).phase }) else e
        bundles := b.bundles.map fun u => { u with rings := Sparse.del u.rings n.toNat } }).advance len).raiseAll ex 1))
    ∧ (∀ g pc cc, s.cb.rings.find? (fun g => g.first == n.toNat) = some g →
      Sparse.getOr (s.cb.bundle (s.cb.roleBundle s.sel.ctx)).rings n.toNat (0, 0) = (pc, cc) →
      (s.ready (.ringAcq x n) = true → pc / g.depth = 0 ∨ s.ringPhase (n.toNat + 2 * (pc % g.depth) + 1) (pc / g.depth) = true →
        exec (.ringAcq x n) s = .next (((s.begun.advance len).write x.d 1 (ex.map fun t => (t, pc % g.depth))).raiseAll ex 1))
      ∧ (s.ready (.ringGet x n) = true → s.ringPhase (n.toNat + 2 * (cc % g.depth)) (cc / g.depth + 1) = true →
        exec (.ringGet x n) s = .next (((s.begun.advance len).write x.d 1 (ex.map fun t => (t, cc % g.depth))).raiseAll ex 1))
      ∧ (s.ready (.ringPut x n) = true → s.arriveOk bid (n.toNat + 2 * (pc % g.depth)) (s.barBytes x) = true →
        exec (.ringPut x n) s = .next ((((s.begun.arrive bid (n.toNat + 2 * (pc % g.depth)) (s.barBytes x) false).modCb fun b =>
          b.modBundle (s.cb.roleBundle s.sel.ctx) fun u => { u with rings := Sparse.put u.rings n.toNat (pc + 1, cc) }).advance len).raiseAll
            ex 1))
      ∧ (s.ready (.ringRel x n) = true → s.arriveOk bid (n.toNat + 2 * (cc % g.depth) + 1) 0 = true →
        exec (.ringRel x n) s = .next ((((s.begun.arrive bid (n.toNat + 2 * (cc % g.depth) + 1) 0 false).modCb fun b =>
          b.modBundle (s.cb.roleBundle s.sel.ctx) fun u => { u with rings := Sparse.put u.rings n.toNat (pc, cc + 1) }).advance len).raiseAll
            ex 1)))

/-- Barriers and rings. The parts name their rules. -/
def Obligations.BarrierResults : Prop := Machine.BarrierBinding ∧ Machine.BarrierOperations ∧ Machine.RingResults

namespace Sys2Proof.Machine

/-! ### Copies, bulk commands, shadows, bank compute -/

/-- The kind, direction and slot of a collective copy (R294). -/
def copyForm : Instr → Option (Opnds × CopyKind × Bool × Option Nat)
  | .cpy x n ns s2g => some (x, .plain, s2g, if ns then none else some n.toNat)
  | .cpyX x n ns e => some (x, .expand e, false, if ns then none else some n.toNat)
  | .cpyC x n ns e => some (x, .compact e, true, if ns then none else some n.toNat)
  | _ => none

/-- The slice that an issue supplies (R295): the two addresses from the lowest executing lane, the rest from four scalar registers; one
that moves nothing where no lane executes. -/
def State.sliceOf (s : State) (x : Opnds) (kind : CopyKind) (s2g : Bool) (slot : Option Nat) : Slice :=
  let n := s.cb.roleBundle s.sel.ctx
  let l := (s.exe x.g).headD (s.sel.act.headD 0)
  let q := match x.c with
    | .s m => m.toNat
    | _ => 0
  let none_ : Slice := { bundle := n, thr := l, k := (s.cb.bundle n).slices, kind := kind, s2g := s2g, slot := slot, g := 0, sc := 0
                         len := 0, rows := 0, gstride := 0, sstride := 0 }
  if (s.exe x.g).isEmpty then none_
  else { none_ with g := .ofNat 64 (s.src x.ext .b64 l x.a), sc := s.src x.ext .b32 l x.b, len := (s.sreg q).toNat
                    rows := (s.sreg (q + 1)).toNat, gstride := (s.sreg (q + 2)).toInt, sstride := (s.sreg (q + 3)).toNat }

/-- A bulk command at issue (R300 to R302): its lanes, what it does, and the addresses that make the interval irrevocable where one stands on
a page in peer form; none where the command always does (R147). -/
def bulkIssue (s : State) : Instr → Option (Opnds × BulkKind × Option (List Nat))
  | .cpyGl x =>
    let l := (s.exe x.g).headD 0
    let list : DWord := .ofNat 64 (s.src x.ext .b64 l x.a)
    let status : DWord := .ofNat 64 (s.src x.ext .b64 l x.c)
    let n := s.src x.ext .b32 l x.b
    some (x, .gather list n status, some (status.toNat :: s.begun.glDests list.toNat n))
  | .cpySealEnc x => some (x, .sealed false (.ofNat 64 (s.src x.ext .b64 ((s.exe x.g).headD 0) x.a) + disp x.ext), none)
  | .cpySealDec x => some (x, .sealed true (.ofNat 64 (s.src x.ext .b64 ((s.exe x.g).headD 0) x.a) + disp x.ext), none)
  | _ => none

/-- The operands of a bulk command pass their checks (R299, R300, R302). -/
def bulkOk : BulkKind → Prop
  | .gather list n st => n ≤ 65536 ∧ canonical list = true ∧ list.toNat % 32 = 0 ∧ canonical st = true ∧ st.toNat % 8 = 0
  | .sealed _ a => canonical a = true ∧ a.toNat % 64 = 0
  | .fan .. => False

end Sys2Proof.Machine

/-- `cpy`, `cpy.x` and `cpy.c` complete by supplying their bundle's slice of the block's next copy, where fewer than four of its slices wait
and the slice passes its checks and has the form of those supplied before (R294 to R296); nothing is copied yet. `scbd.wait`
completes with 0 once the block holds no scoreboard entry (R309). -/
def Sys2Proof.Machine.CopiesAreSupplied : Prop :=
  ∀ (s : State),
    (∀ (i : Instr) x kind s2g slot, copyForm i = some (x, kind, s2g, slot) → s.ready i = true →
      let sl := s.sliceOf x kind s2g slot
      sl.k - s.cb.accepted < 4 →
      (s.exe x.g ≠ [] → s.sliceCheck s.sel.blk sl = none ∧ ∀ c, s.cb.slices.find? (fun c => c.k == sl.k) = some c → c.sameForm sl = true) →
      exec i s = .next ((s.begun.modCb fun b =>
        { b.modBundle sl.bundle (fun u => { u with slices := u.slices + 1 }) with slices := s.cb.slices ++ [sl] }).advance x.ext.bytes))
    ∧ (∀ x, s.ready (.scbdWait x) = true → s.exe x.g ≠ [] → s.sbOf s.sel.blk = [] →
      exec (.scbdWait x) s = .next ((s.begun.advance x.ext.bytes).write x.d 1 ((s.exe x.g).map fun t => (t, 0))))

/-- `cpy.gl`, `cpy.fan` and `cpy.seal` complete by entering their die's queue of bulk commands where it has room (R299 to R302): a fan-out
copy arrives on its slot as it enters; a sealing command makes the interval irrevocable, and so does a copy to a page in peer form (R147). -/
def Sys2Proof.Machine.BulkCommandsEnter : Prop :=
  ∀ (s : State),
    (∀ (i : Instr) x kind vas, bulkIssue s i = some (x, kind, vas) → s.ready i = true → s.exe x.g ≠ [] → bulkOk kind →
      (s.die s.cd).bulk.length < 64 →
      let t := (s.begun.advance x.ext.bytes).queueBulk (s.exe x.g) kind
      exec i s = .next (match vas with
        | none => t.irrevoke s.sel.blk
        | some vas => t.irrevokePeer s.sel.blk vas))
    ∧ (∀ x n ns q, s.ready (.cpyFan x n ns) = true → x.c = .s q → s.exe x.g ≠ [] → (s.die s.cd).bulk.length < 64 →
      let size := (s.sreg q.toNat).toNat
      let count := (s.sreg (q.toNat + 1)).toNat
      let stride := (s.sreg (q.toNat + 2)).toInt
      let slot := if ns then none else some n.toNat
      let addrs (t : Nat) : DWord × DWord := (.ofNat 64 (s.src x.ext .b64 t x.a), .ofNat 64 (s.src x.ext .b64 t x.b))
      size ≤ 65536 → 1 ≤ count → count ≤ 64 → s.sreg (q.toNat + 3) = 0 →
      (∀ t ∈ s.exe x.g, fanCanonical (addrs t).1 (addrs t).2 size count stride = true) → (∀ k ∈ slot, s.arriveOk s.sel.blk k 0 = true) →
      let dests := (s.exe x.g).flatMap fun t => (List.range count).flatMap fun (i : Nat) =>
        [wrap 64 ((addrs t).2.toNat + i * stride), (wrap 64 ((addrs t).2.toNat + i * stride) + size - 1) % 2 ^ 64]
      exec (.cpyFan x n ns) s = .next ((((s.begun.advanceBut x.ext.bytes []).queueBulk (s.exe x.g)
        (.fan ((s.exe x.g).map addrs) size count stride slot)).irrevokePeer s.sel.blk dests).engineArrive s.sel.blk slot false))

/-- Copies and bulk commands. The parts name their rules. -/
def Obligations.CopyResults : Prop := Machine.CopiesAreSupplied ∧ Machine.BulkCommandsEnter

/-- `shdw.open` (R305): a buffer that has an open shadow gives its handle; with no free entry or frames it gives 0; otherwise an entry and
frames are taken, the buffer is copied into them and the lanes wait, and once the copy is complete they get the handle. -/
def Sys2Proof.Machine.ShadowOpens : Prop :=
  ∀ (s : State) (x : Opnds) (l : Nat) (ls : List Nat),
    s.ready (.shdwOpen x) = true → s.exe x.g = l :: ls →
    let give (u : State) (h : Nat) : State := (u.advance x.ext.bytes).write x.d 1 ((l :: ls).map fun t => (t, h))
    let base := s.src x.ext .b64 l x.a
    let n := s.src x.ext .b32 l x.b
    (∀ h, (s.cb.thr l).wait = .shadow (some h) → exec (.shdwOpen x) s = .next (give s.begun h.toNat))
    ∧ (∀ (s1 : State) ps e, (s.cb.thr l).wait = .none → base % 4096 = 0 → n ≠ 0 → n % 4096 = 0 → n ≤ 2 ^ 26 →
      canonical (.ofNat 64 base) = true → canonical (.ofNat 64 (base + n - 1)) = true →
      s.begun.bufferPages s.cb.who base (base + n) (n / 4096) base = (s1, .ok (some (ps, e))) →
      (∀ d i sh, s1.openShadow s.cb.who.dom s.cb.who.asn base n = some (d, i, sh) → sh.copying = none →
        exec (.shdwOpen x) s = .next (give s1 (shadowHandle d i sh.gen)))
      ∧ (s1.openShadow s.cb.who.dom s.cb.who.asn base n = none →
        ((s1.freeShadow s1.cd = none ∨ takeFrames (s1.die s1.cd).pool ps = none) → exec (.shdwOpen x) s = .next (give s1 0))
        ∧ (∀ i fs pool s2 p s3 bs, s1.freeShadow s1.cd = some i → takeFrames (s1.die s1.cd).pool ps = some (fs, pool) →
          s1.translate s.cb.who base 1 .read false = (s2, .ok p) → s2.engRead s.cb.who (sectorParts base n) = (s3, .ok bs) →
          exec (.shdwOpen x) s = .next (s3.makeShadow (l :: ls) i base n p.pte fs pool bs))))

/-- `publ` and `publ.drop` of an open shadow to which nothing of the block is still on its way, while no agent waits for a write that precedes the
publication (R307): the shadow's frames become the buffer's pages, or go back to the pool; the interval becomes irrevocable. A handle that names
none raises SHADOW (0x1E). -/
def Sys2Proof.Machine.Publication : Prop :=
  ∀ (s : State) (x : Opnds) (l : Nat) (ls : List Nat) (i : Instr) (drop : Bool),
    (i = .publ x ∧ drop = false) ∨ (i = .publDrop x ∧ drop = true) → s.ready i = true → s.exe x.g = l :: ls →
    (∀ d k sh, s.namedShadow (s.src x.ext .b32 l x.a) = some (d, k, sh) →
      (∀ e ∈ s.hub.inflight, e.blk = s.sel.blk → e.external = false → e.thr ∈ l :: ls → e.pa / 4096 ∉ framesOf sh.pages) →
      s.begun.aliasBusy sh (s.cb.shdwwin.toNat + (256 * d + k) * 2 ^ 26) = false →
      (drop = false → ∀ a < 6, s.blocked a (s.vclock s.cd) = false) → (∀ f ∈ framesOf sh.pages, s.refuses (4096 * f) = false) →
      let u := (s.begun.advance x.ext.bytes).irrevoke s.sel.blk
      exec i s = .next (if drop then u.dropShadow d k sh else u.publish d k sh))
    ∧ (s.namedShadow (s.src x.ext .b32 l x.a) = none → exec i s =
      .next ((s.begun.advanceBut x.ext.bytes (l :: ls)).finishFaults x.ext.bytes ((l :: ls).map fun t => (t, { cause := 0x1E }))))

/-- Shadows and their publication. The parts name their rules. -/
def Obligations.ShadowResults : Prop := Machine.ShadowOpens ∧ Machine.Publication

namespace Sys2Proof.Machine

/-- The bank commands (R310). -/
def bankForm : Instr → Option (Opnds × BankOp × BkTy × Rnd)
  | .bkAdd x t r => some (x, .add, t, r)
  | .bkMul x t r => some (x, .mul, t, r)
  | .bkFma x t r => some (x, .fma, t, r)
  | .bkRed x t r op => some (x, .red op, t, r)
  | .bkScale x t r => some (x, .scale, t, r)
  | .bkCmp x t r cc => some (x, .cmp cc, t, r)
  | .bkFill x t => some (x, .fill, t, .rn)
  | _ => none

end Sys2Proof.Machine

/-- A bank command whose ranges are canonical, aligned and on pages that it may use enters its die's queue and makes the interval
irrevocable; one of no elements does nothing (R310, R311). `bk.wait` completes once none of its bundle's commands is left, with the
status gathered since the last, which it clears (R312). -/
def Sys2Proof.Machine.BankResults : Prop :=
  ∀ (s : State),
    (∀ (i : Instr) x op t rnd q l ls, bankForm i = some (x, op, t, rnd) → s.ready i = true → x.a = .s q → s.exe x.g = l :: ls →
      let n := s.src x.ext .b32 l x.b
      let d := (s.spair q.toNat).toNat
      let a := (s.spair (q.toNat + 2)).toNat
      let b := (s.spair (q.toNat + 4)).toNat
      let c := (s.spair (q.toNat + 6)).toNat
      let rs := bankRanges op t n d a b c
      n ≤ 2 ^ 24 →
      (∀ r ∈ rs, canonical (.ofNat 64 r.1) = true ∧ (r.2.1 ≠ 0 → canonical (.ofNat 64 (r.1 + r.2.1 - 1)) = true)
        ∧ r.1 % bankAlign op t r.2.2 = 0) →
      (n = 0 → exec i s = .next (s.begun.advance x.ext.bytes))
      ∧ (∀ s1 ps, n ≠ 0 → s.begun.bankAllPages s.cb.who rs = (s1, .ok ps) →
        exec i s = .next (((s1.advance x.ext.bytes).modDie s1.cd fun y => { y with
            bank := y.bank ++ [{ k := y.bankNext, blk := s1.sel.blk, bundle := s1.cb.roleBundle s1.sel.ctx, thrs := l :: ls, pages := ps, op := op
                                 t := t, rnd := rnd, n := n, d := .ofNat 64 d, a := .ofNat 64 a, b := .ofNat 64 b, c := .ofNat 64 c
                                 scalar := .ofNat 32 (s1.src x.ext .b32 l x.c), done := [], after := s1.earlierSteps rs }]
            bankNext := y.bankNext + 1 }).irrevoke s1.sel.blk)))
    ∧ (∀ x, s.ready (.bkWait x) = true → s.exe x.g ≠ [] →
      (∀ c ∈ (s.die s.cd).bank, c.blk = s.sel.blk → c.bundle ≠ s.cb.roleBundle s.sel.ctx) →
      s.blocked s.cd (s.cb.bundle (s.cb.roleBundle s.sel.ctx)).bankSeen = false →
      let n := s.cb.roleBundle s.sel.ctx
      exec (.bkWait x) s = .next ((((s.begun.absorb s.cd (s.cb.bundle n).bankSeen).advance x.ext.bytes).modCb fun b =>
        b.modBundle n fun u => { u with bankStatus := 0, bankSeen := Bundle.unseen }).write x.d 1 ((s.exe x.g).map fun t => (t, (s.cb.bundle n).bankStatus.toNat))))

/-- What a bank command but a reduction computes in one element (R310): an FP operation is the exact result rounded once, `bk.scale` reading x as
.f32; on .s32 a sum and a product keep their low 32 bits; a comparison gives 1 where it holds and 0 otherwise, and on FP elements an unordered
one holds only under `ne`; a fill gives the low bits of x. -/
def Sys2Proof.Machine.BankElements : Prop :=
  (∀ (a b c x : BitVec 32) (rnd : Rnd),
    bankValue .add .s32 rnd x.toNat a.toNat b.toNat c.toNat = ((a + b).toNat, 0)
    ∧ bankValue .mul .s32 rnd x.toNat a.toNat b.toNat c.toNat = ((a * b).toNat, 0)
    ∧ (∀ cc, bankValue (.cmp cc) .s32 rnd x.toNat a.toNat b.toNat c.toNat = (if cmpInt cc a.toInt b.toInt then 1 else 0, 0))
    ∧ bankValue .fill .b32 rnd x.toNat a.toNat b.toNat c.toNat = (x.toNat, 0)
    ∧ bankValue .fill .b16 rnd x.toNat a.toNat b.toNat c.toNat = ((x.setWidth 16).toNat, 0)
    ∧ bankValue .fill .b8 rnd x.toNat a.toNat b.toNat c.toNat = ((x.setWidth 8).toNat, 0))
  ∧ ∀ (a b c x : Nat) (rnd : Rnd) (t : BkTy) (f : FFmt), t.fp = some f →
    let v := Fp.unpack f
    bankValue .add t rnd x a b c = finish f rnd false (Fp.add rnd (v a) (v b))
    ∧ bankValue .mul t rnd x a b c = finish f rnd false (Fp.mul (v a) (v b))
    ∧ bankValue .fma t rnd x a b c = finish f rnd false (Fp.fma rnd (v a) (v b) (v c))
    ∧ bankValue .scale t rnd x a b c = finish f rnd false (Fp.mul (v a) (Fp.unpack .f32 x))
    ∧ ∀ cc, (v a).isNan = true ∨ (v b).isNan = true → (bankValue (.cmp cc) t rnd x a b c).1 = if cc = .ne then 1 else 0

/-- Bank commands, and what they compute. The parts name their rules. -/
def Obligations.BankCommandResults : Prop := Machine.BankResults ∧ Machine.BankElements

/-! ### Matrix -/

/-- `obres`, `obrel`, `obld` and `obld.x` (R212, R215 to R217): a FREE record is reserved with its descriptor and the format of its
register, ready at once where it stands for metadata; `obrel` frees a record, waits while it is filling and raises OB_STATE (0x30) where it
is FREE (R216); a fill of a record that is neither FREE, filling nor metadata starts, its bytes read now from the block's own
scratchpad, or later from a cohort member's. -/
def Sys2Proof.Machine.RecordResults : Prop :=
  ∀ (s : State) (x : Opnds) (n : BitVec 3) (l : Nat),
    s.first x.g = some l →
    let ob := (s.begun.part s.mp).ob n.toNat
    (s.ready (.obres x n) = true → ob.state = .free →
      let desc := s.src x.ext (.int 128 false) (s.sel.act.headD 0) x.a
      let fmt := s.freg (field desc 20 4)
      let r : ObRec := { state := .reserved, desc := .ofNat 128 desc, fmt := fmt }
      let r' : ObRec := if r.type = 15 then { r with state := .ready } else r
      (r'.narrow = true → (Nf.fmtOf fmt).legal = true) → s.begun.obDescBad n.toNat r' = false →
      exec (.obres x n) s = .next ((s.begun.modPart s.mp fun p => p.setOb n.toNat r').advance x.ext.bytes))
    ∧ (s.ready (.obrel x n) = true → ob.state ≠ .free → ob.state ≠ .filling →
      exec (.obrel x n) s = .next ((s.begun.modPart s.mp fun p => p.setOb n.toNat { ob with state := .free }).advance x.ext.bytes))
    ∧ (s.ready (.obrel x n) = true → ob.state = .filling → exec (.obrel x n) s = .next s.begun.stall)
    ∧ (s.ready (.obrel x n) = true → ob.state = .free → exec (.obrel x n) s = .next ((s.begun.advanceBut x.ext.bytes (s.exe x.g)).finishFaults
        x.ext.bytes ((s.exe x.g).map fun t => (t, { cause := 0x30 }))))
    ∧ (Instr.obrel x n).opFn = some (0xC1, n.toNat)
    ∧ ((Instr.obrel x n).wf = true → x.short = true ∧ x.d = .discard ∧ x.a = .null ∧ x.b = .null ∧ x.c = .null)
    ∧ (ob.state ≠ .free → ob.state ≠ .filling → ob.type ≠ 15 →
      let goes (u : State) (bs : List Byte) (bad : List Nat) : State :=
        ((u.startFill n.toNat { blk := s.sel.blk, ob := n.toNat, bytes := bs, poison := bad, remote := none, len := ob.size
                                thrs := s.exe x.g }).raiseAll (s.exe x.g) 1).advance x.ext.bytes
      let opens (a : Nat) : Prop := s.cb.padRange a ob.size 16 false { cause := 0 } = none ∧ s.sbBusy s.sel.blk a ob.size = false
      (∀ a u bs bad, s.ready (.obldX x n) = true → a = (s.src x.ext .b64 l x.a + (disp x.ext).toNat) % 2 ^ 32 → opens a →
        s.begun.fillRead s.sel.blk a ob.size = (u, some (bs, bad)) → exec (.obldX x n) s = .next (goes u bs bad))
      ∧ (∀ u bs bad, s.ready (.obld x n) = true → ob.backed = true → ob.bcore = s.cc % 4 → opens ob.baddr →
        s.begun.fillRead s.sel.blk ob.baddr ob.size = (u, some (bs, bad)) → exec (.obld x n) s = .next (goes u bs bad))
      ∧ (s.ready (.obld x n) = true → ob.backed = true → ob.bcore ≠ s.cc % 4 →
        exec (.obld x n) s = .next (((s.begun.joinMerge ob.bcore ob.baddr ob.size).startFill n.toNat
          { blk := s.sel.blk, ob := n.toNat, bytes := [], poison := [], remote := some (ob.bcore, ob.baddr), len := ob.size
            thrs := s.exe x.g }).advance x.ext.bytes)))

namespace Sys2Proof.Machine

/-- The nibble of a dense group in a row's metadata (R218). -/
def State.metaNibble (s : State) (m : ObRec) (i g : Nat) : Nat :=
  (scratchByte (s.core s.cc).scratch s.cb (m.baddr + i * m.stride + g / 2)).toNat / 16 ^ (g % 2) % 16

/-- The pairs of elements that a lane's row multiplies in a product (R221). -/
def State.mmaPairs (s : State) (q : MmaReq) (m : Option ObRec) (t : Nat) : List (Nat × Nat) :=
  q.pairs fun g => match m with
    | some m => s.metaNibble m (homeLane t) g
    | none => 4

/-- The records of a product are ready, its shape is in range, and no lane fails a check of its own (R221). -/
def State.mmaOk (s : State) (x : Opnds) (q : MmaReq) (a b : ObRec) (m : Option ObRec) : Prop :=
  a.state = .ready ∧ b.state = .ready ∧ a.type ≠ 15 ∧ b.type ≠ 15 ∧ (∀ r ∈ m, r.state = .ready ∧ r.type = 15) ∧ q.col0 + q.n ≤ 128
  ∧ (m.isSome = true → q.kofs % 4 = 0) ∧ (∀ j < q.n, b.fits j (q.kofs + q.k - 1) = true)
  ∧ ∀ t ∈ s.exe x.g, a.fits (homeLane t) q.lastA = true ∧ ∀ r ∈ m,
      (∀ k ∈ q.metaBytes r (homeLane t), k < s.cb.scratchSize)
      ∧ ∀ g ∈ q.groups, s.metaNibble r (homeLane t) g % 4 < s.metaNibble r (homeLane t) g / 4

end Sys2Proof.Machine

/-- `mma` and `mmas` whose records are ready, whose shape is in range and whose elements and metadata are sound complete: each lane's
row takes its aligned sums (R206 to R210, R220, R221). -/
def Sys2Proof.Machine.MatrixProducts : Prop :=
  ∀ (s : State) (x : Opnds) (i : Instr) (t : BitVec 1) (ra rb : BitVec 3) (rm : Option (BitVec 3)) (l : Nat),
    (i = .mma x t ra rb ∧ rm = none) ∨ (∃ k, i = .mmas x t ra rb k ∧ rm = some k) → s.ready i = true → s.first x.g = some l →
    let p := s.begun.part s.mp
    let a := p.ob ra.toNat
    let b := p.ob rb.toNat
    let m := rm.map fun k => p.ob k.toNat
    let q : MmaReq := { tile := t.toNat, ra := ra.toNat, rb := rb.toNat, rm := rm.map (·.toNat), n := (mmShape x.ext).1, k := (mmShape x.ext).2
                        kofs := s.src x.ext .b32 l x.a, col0 := s.src x.ext .b32 l x.b }
    s.mmaOk x q a b m →
    let metas := match m with
      | some m => (s.exe x.g).flatMap fun u => (q.metaBytes m (homeLane u)).map fun k => (u, k)
      | none => []
    (∀ e ∈ metas, s.sbBusy s.sel.blk e.2 1 = false) → s.padSound s.sel.blk 1 metas →
    (∀ u ∈ s.exe x.g, ∀ e ∈ s.mmaPairs q m u, p.elemPoison a (homeLane u) e.1 = false ∧ ∀ j < q.n, p.elemPoison b j e.2 = false) →
    exec i s = .next (((s.begun.padLoad s.sel.blk 1 metas).1.addLanes x q []
      ((s.exe x.g).map fun u => laneProds p a b q.n u (s.mmaPairs q m u))).raiseAll (metas.map (·.1)).eraseDups 1)

/-- Operand-buffer records and products. The parts name their rules. -/
def Obligations.MatrixResults : Prop := Machine.RecordResults ∧ Machine.MatrixProducts

/-- One row's part of a product with finite operands and no renormalisation (R206, R221): each of its mantissas gains the exact sum of
its products, each truncated toward zero at the row's exponent. -/
def Sys2Proof.Machine.RowTakesSums : Prop :=
  ∀ (s : State) (tile c col0 op : Nat) (l : LaneProds) (t : Int) (j : Nat),
    l.bad = false → l.top = some t → j < l.cols.length → col0 + l.cols.length ≤ 128 →
    let r := s.accRow tile (homeLane l.thr)
    r.shift t c = 0 → r.empty = false →
    let r' := (s.addLane tile c col0 op l).accRow tile (homeLane l.thr)
    r'.e = r.e ∧ r'.mant (col0 + j) = (BitVec.ofInt 48 (r.mant (col0 + j) + ((l.cols.getD j []).map fun p => (align p r.e).1).sum)).toInt
    ∧ ∀ k, (k < col0 ∨ col0 + l.cols.length ≤ k) → r'.mant k = r.mant k

/-- Alignment (R206) truncates toward zero: the aligned value times 2^e is never of greater magnitude than the value, is of its sign, and differs
from it by less than 2^e; bits are lost exactly where it differs. -/
def Sys2Proof.Machine.AlignTruncates : Prop :=
  ∀ (m : Int) (n k : Nat),
    let r := align { m := m, e := k } (k + n : Nat)
    r.1.natAbs * 2 ^ n ≤ m.natAbs ∧ (r.1 * (2 ^ n : Nat) - m).natAbs < 2 ^ n ∧ (0 ≤ m → 0 ≤ r.1) ∧ (m ≤ 0 → r.1 ≤ 0) ∧ (r.2 = true ↔ r.1 * (2 ^ n : Nat) ≠ m)
    ∧ align { m := m, e := (k + n : Nat) } k = (m * (2 ^ n : Nat), false)

/-- What a product adds to a row, and how it is aligned. The parts name their rules. -/
def Obligations.ProductSums : Prop := Machine.RowTakesSums ∧ Machine.AlignTruncates

/-- The accumulator's own instructions (R222, R227 to R231): rows are zeroed, renormalised, masked or rescaled, the largest element read, and
the tile's arm, count and event set; a first column past 127 raises MMA_RANGE (0x34) in `acc.tmask`. The encodings of `acc.zero`,
`acc.renorm` and `acc.scale` are stated with their effects. -/
def Sys2Proof.Machine.AccumulatorResults : Prop :=
  ∀ (s : State) (x : Opnds) (t : BitVec 1),
    let len := x.ext.bytes
    let ex := s.exe x.g
    let row (u : State) (k : Nat) : AccRow := u.accRow t.toNat (homeLane k)
    (∀ all, (Instr.accZero x t all).opFn = some (0xC5, t.toNat + 2 * bitOf all)
      ∧ (s.ready (.accZero x t all) = true → exec (.accZero x t all) s =
        .next (((if all ∧ ex ≠ [] then List.range 128 else ex.map homeLane).foldl (fun u i => u.setRow t.toNat i AccRow.reset)
          s.begun).advance len)))
    ∧ (Instr.accRenorm x t).opFn = some (0xC9, t.toNat) ∧ (Instr.accScale x t).opFn = some (0xCB, t.toNat)
    ∧ (s.ready (.accRenorm x t) = true → exec (.accRenorm x t) s = .next ((ex.foldl (fun u k =>
        if (row u k).empty || u.src x.ext .b32 k x.a == 0 then u else u.renormRow t.toNat k (min (u.src x.ext .b32 k x.a) 65535) 2)
        s.begun).advance len))
    ∧ (∀ l, s.first x.g = some l → s.ready (.accTmask x t) = true → 127 < s.src x.ext .b32 l x.b → exec (.accTmask x t) s =
      .next ((s.begun.advanceBut len ex).finishFaults len (ex.map fun k => (k, { cause := 0x34 }))))
    ∧ (∀ l col0, s.first x.g = some l → s.ready (.accTmask x t) = true → col0 = s.src x.ext .b32 l x.b → col0 ≤ 127 → exec (.accTmask x t) s =
      .next ((ex.foldl (fun u k => u.setRow t.toNat (homeLane k) ((List.range (min 64 (128 - col0))).foldl (fun (r : AccRow) j =>
        r.setMask (col0 + j) (!bitAt (u.src x.ext .b64 k x.a) j)) (row u k))) s.begun).advance len))
    ∧ (s.ready (.accScale x t) = true → exec (.accScale x t) s = .next ((ex.foldl (fun u k =>
        if (row u k).empty then u
        else
          let e := (row u k).e + readInt 32 true (u.src x.ext .b32 k x.a)
          let held := max (-32768) (min 32767 e)
          (u.setRow t.toNat (homeLane k) { row u k with e := held }).flagLanes [(k, if held = e then 0 else Fp.inv)]) s.begun).advance len))
    ∧ (∀ (n : BitVec 7) (l : Nat), s.first x.g = some l → s.ready (.accRmax x t n) = true → s.src x.ext .b32 l x.a + n.toNat + 1 ≤ 128 → exec (.accRmax x t n) s =
      .next (((s.begun.advance len).write x.d 1 (ex.map fun k => (k, ((row s.begun k).maxOut (s.src x.ext .b32 l x.a) (n.toNat + 1)).1))).flagLanes
        (ex.map fun k => (k, ((row s.begun k).maxOut (s.src x.ext .b32 l x.a) (n.toNat + 1)).2))))
    ∧ (∀ l, s.first x.g = some l → s.ready (.accMode x t) = true →
      let m := s.src x.ext .b32 l x.a
      exec (.accMode x t) s = .next ((s.begun.modPart s.mp fun p => p.modTile t.toNat fun y => { y with
        arm := (y.arm || bitAt m 0) && !bitAt m 1, rcount := if bitAt m 2 then 0 else y.rcount
        event := if bitAt m 3 then 0 else y.event }).advance len))

/-- `acc.ld` and `acc.st` whose every lane passes its checks complete (R223 to R225): each executing lane's row is loaded from the bytes at
its address, FP columns as one block-floating-point row, raw ones as their image; or its columns' bytes are stored there. -/
def Sys2Proof.Machine.RowTransfers : Prop :=
  ∀ (s : State) (x : Opnds) (t : BitVec 1) (k : AccForm) (n : BitVec 7) (l : Nat),
    s.first x.g = some l →
    let num := n.toNat + 1
    let col0 := s.src x.ext .b32 l x.c
    let rs := s.padAt x false
    let opens (store : Bool) : Prop := col0 + num ≤ 128 ∧ ∀ e ∈ rs,
      s.cb.padRange e.2 (k.length num) k.sizes.2.2 store { cause := 0 } = none ∧ s.sbBusy s.sel.blk e.2 (k.length num) = false
    (s.ready (.accLd x t k n) = true → opens false →
      let cells := rs.flatMap fun e => (List.range (k.length num)).map fun b => (e.1, e.2 + b)
      let img (e : Nat × Nat) : Nat := ofBytes (s.padBytes s.sel.blk e.2 (k.length num))
      let row (e : Nat × Nat) : Option (AccRow × BitVec 6) := match k with
        | .raw => (loadRaw (s.begun.accRow t.toNat (homeLane e.1)) col0 num (img e)).map fun r => (r, 0)
        | .f32 => some (loadValues col0 ((List.range num).map fun j => Fp.unpack .f32 (field (img e) (32 * j) 32)))
        | .bf16 => some (loadValues col0 ((List.range num).map fun j => Fp.unpack .bf16 (field (img e) (16 * j) 16)))
      s.padSound s.sel.blk 1 cells → (∀ e ∈ rs, (row e).isSome = true) →
      exec (.accLd x t k n) s = .next (((rs.foldl (fun u e => match row e with
        | some (r, fl) => (u.setRow t.toNat (homeLane e.1) r).flagLanes [(e.1, fl)]
        | none => u) (s.begun.padLoad s.sel.blk 1 cells).1).advanceBut x.ext.bytes []).raiseAll (rs.map (·.1)) 1))
    ∧ (∀ ninf, s.ready (.accSt x t k ninf n) = true → opens true →
      let out (e : Nat × Nat) : List Byte × BitVec 6 := (s.begun.accRow t.toNat (homeLane e.1)).image k ninf col0 num
      exec (.accSt x t k ninf n) s = .next ((((s.begun.padStores s.sel.blk (rs.map fun e => (e.1, e.2, (out e).1))).flagLanes
        (rs.map fun e => (e.1, (out e).2))).advanceBut x.ext.bytes []).raiseAll (rs.map (·.1)) 1))

/-- The accumulator tiles. The parts name their rules. -/
def Obligations.TileResults : Prop := Machine.AccumulatorResults ∧ Machine.RowTransfers

/-! ### Work queues, exit lists, launches -/

namespace Sys2Proof.Machine

/-- The end of an instruction that gives its lowest executing lane a value and makes the interval irrevocable (R147). -/
def State.gives (s : State) (x : Opnds) (n l v : Nat) : State := ((s.advance x.ext.bytes).write x.d n [(l, v)]).irrevoke s.sel.blk

/-- An issue that acts at its work queue (R329): what it does is decided by the queue as it stands. -/
def wqForm : Instr → Option (Opnds × Nat)
  | .wqPush x q _ _ | .wqPull x q _ _ => some (x, q.toNat)
  | _ => none

/-- Nothing of the same kind waits at the queue. -/
def State.wqFirst (s : State) (i : Instr) (q : Nat) : Prop := ∀ e ∈ s.wqWaiters s.cd q, e.isPush ≠ Instr.isPush i

end Sys2Proof.Machine

/-- `wq.push` and `wq.pull` (R328 to R330): on a closed queue a push places nothing and pD is 0; with room a push, its lanes fenced at
scope 3, appends one item from each executing lane in order and pD is 1; with items enough a pull takes the oldest, one for each lane,
and fences its lanes at scope 3. -/
def Sys2Proof.Machine.WorkQueueItems : Prop :=
  ∀ (s : State) (x : Opnds) (q : BitVec 5) (nw : Bool) (pd : BitVec 3),
    s.exe x.g ≠ [] → s.wqOwned q.toNat = true →
    let w := s.wq s.cd q.toNat
    let ex := s.exe x.g
    (s.ready (.wqPush x q nw pd) = true → w.closed = true → exec (.wqPush x q nw pd) s = .next (s.begun.wqEnd x pd []))
    ∧ (∀ u, s.ready (.wqPush x q nw pd) = true → s.wqFirst (.wqPush x q nw pd) q.toNat → w.closed = false →
      ex.length ≤ 1024 - w.items.length → s.begun.fenceFirst s.sel.blk ex 3 = some u →
      exec (.wqPush x q nw pd) s = .next ((u.modWq s.cd q.toNat fun y => { y with
        items := y.items ++ ex.map fun t => .ofNat 64 (s.src x.ext .b64 t x.a) }).wqEnd x pd ex))
    ∧ (∀ k, s.ready (.wqPull x q nw pd) = true → s.wqFirst (.wqPull x q nw pd) q.toNat →
      k = (if Dst.isScalar x.d then 1 else ex.length) → k ≤ w.items.length →
      exec (.wqPull x q nw pd) s = .next ((((s.begun.modWq s.cd q.toNat fun y => { y with items := y.items.drop k }).wqEnd x pd
        (if Dst.isScalar x.d then ex else ex.take k)).write x.d 2
          (((if Dst.isScalar x.d then ex else ex.take k).zip (w.items.take k)).map fun e => (e.1, e.2.toNat))).fenceLanes
            s.sel.blk s.sel.act ex fun _ => 3))

/-- `wq.stat` gives the number of items at the moment it acts, and then closes or opens the queue (R331). `lq.stat` gives the four words of the
block's own queue, or of a named one to a service thread, and zeros for a queue that does not exist (R326). -/
def Sys2Proof.Machine.QueueStatus : Prop :=
  ∀ (s : State) (x : Opnds) (q : BitVec 5),
    s.exe x.g ≠ [] →
    (s.wqOwned q.toNat = true →
      let read := (s.begun.advance x.ext.bytes).write x.d 1 ((s.exe x.g).map fun t => (t, (s.wq s.cd q.toNat).items.length))
      (s.ready (.wqStatCnt x q) = true → exec (.wqStatCnt x q) s = .next read)
      ∧ (s.ready (.wqStatOpen x q) = true →
        exec (.wqStatOpen x q) s = .next (read.modWq read.cd q.toNat fun w => { w with closed := false }))
      ∧ (s.ready (.wqStatClose x q) = true →
        let shut := read.modWq read.cd q.toNat fun w => { w with closed := true }
        exec (.wqStatClose x q) s = .next (State.wqServeAll read.cd q.toNat (shut.wq read.cd q.toNat).waiting.length shut)))
    ∧ (∀ l ls, s.ready (.lqStat x) = true → s.exe x.g = l :: ls →
      let n := s.src x.ext .b32 l x.a
      let give (v : Nat) : State := (s.begun.advance x.ext.bytes).write x.d 4 [(l, v)]
      (n = 0xFFFFFFFF → exec (.lqStat x) s = .next (give (s.lqWords (s.queueOf s.cb))))
      ∧ (64 ≤ n → n ≠ 0xFFFFFFFF → exec (.lqStat x) s = .next (give 0))
      ∧ (n < 64 → n = s.queueOf s.cb ∨ s.service (l :: ls) = true → exec (.lqStat x) s = .next (give (s.lqWords n))))

/-- Work queues and the launch queue's status. The parts name their rules. -/
def Obligations.QueueResults : Prop := Machine.WorkQueueItems ∧ Machine.QueueStatus

/-- `conftest`, `bkfill`, `bkfill.reg` and `bkwait` on a list of the block's own (R333 to R335, R338): tokens whose margin reaches the threshold are
appended; a hand-over of everything filled, once the lanes' stores are performed and the list's own, gives its number; a well-formed
descriptor is registered; a token's wait gives 0 once its batch is done, 1 if it failed, 2 if it is not handed over, 3 if it is not on
the list; one that has waited gives what came of the record that it found when it issued. -/
def Sys2Proof.Machine.ExitListResults : Prop :=
  ∀ (s : State) (x : Opnds) (e : BitVec 4) (l : Nat) (ls : List Nat),
    s.exe x.g = l :: ls →
    let d := s.cd
    let li := s.exitList d e.toNat
    (∀ b, s.ready (.bkfillReg x e) = true → canonical (.ofNat 64 (s.src x.ext .b64 l x.a)) = true →
      (∀ u, s.begun.engRead s.cb.who (sectorParts (s.src x.ext .b64 l x.a) 64) = (u, .ok b) → (∀ y ∈ b, y.2 = false) →
        exitDescOk (ofBytes (b.map (·.1))) = true → li.free s.cb = true →
        exec (.bkfillReg x e) s = .next ((u.modExit d e.toNat fun _ =>
          exitOf (s.cb.hdr.domain, s.cb.asn, s.queueOf s.cb) (ofBytes (b.map (·.1)))).gives x 1 l 0)))
    ∧ (li.mine s.cb = true →
      (∀ u, s.ready (.bkfill x e) = true → s.engineBusy (l :: ls) = false → s.storing d e.toNat = false →
        s.begun.lanesPerformed s.sel.blk (l :: ls) = some u →
        exec (.bkfill x e) s = .next (((u.modExit d e.toNat fun y => { y with
          handed := y.fill
          handedAt := if li.fill - li.handed = 0 then y.handedAt else y.handedAt ++ [(y.handed, s.hub.time)] }).exitStatus d e.toNat).gives x
            1 l (li.fill - li.handed)))
      ∧ (s.ready (.bkwait x e) = true →
        let give (v : Nat) : State := (s.begun.advance x.ext.bytes).write x.d 1 [(l, v)]
        (∀ n k v, (s.cb.thr l).wait = .exits n k (some v) → exec (.bkwait x e) s = .next (give v))
        ∧ ((s.cb.thr l).wait = .none → li.find (s.src x.ext .b32 l x.a) = none → exec (.bkwait x e) s = .next (give 3))
        ∧ ∀ k, (s.cb.thr l).wait = .none → li.find (s.src x.ext .b32 l x.a) = some k →
          (k < li.done → exec (.bkwait x e) s =
            .next (give (if li.failedBatches.any fun b => b.1 ≤ k && k < b.1 + b.2 then 1 else 0)))
          ∧ (li.done ≤ k → li.handed ≤ k → exec (.bkwait x e) s = .next (give 2)))
      ∧ (s.ready (.conftest x e) = true →
        let c := s.src x.ext .b64 l x.c
        let test (t : Nat) := exitPass (s.src x.ext .b64 t x.a % 2 ^ 32) (s.src x.ext .b64 t x.a / 2 ^ 32) (c % 2 ^ 32)
        let r := (l :: ls).foldl (fun (acc : State × List (Nat × Nat)) t =>
          if (test t).1 then
            let g := acc.1.exitAppend d e.toNat (s.src x.ext .b32 t x.b) (c / 2 ^ 32 % 2 ^ 16)
            (g.1, acc.2 ++ [(t, if g.2 then 1 else 0)])
          else (acc.1, acc.2 ++ [(t, 0)])) (s.begun, [])
        exec (.conftest x e) s = .next ((((if r.2.any fun p => p.2 == 1 then r.1.irrevoke s.sel.blk else r.1).advance x.ext.bytes).write
          x.d 1 r.2).flagLanes ((l :: ls).map fun t => (t, (test t).2)))))

/-- The test of `conftest` (R334): a NaN among the operands, or a margin of equal infinities, does not pass, and sets invalid only for a
signalling NaN; otherwise a token passes exactly where the exponential of its margin, computed without rounding, is at least the
threshold, with no flag: the exponential of +∞ is +∞ and that of −∞ is 0. The last two lines are the tokens 77 and 78 of R338's example. -/
def Sys2Proof.Machine.ExitTest : Prop :=
  (∀ m l t : BitVec 32,
    let a := Fp.unpack .f32 m.toNat
    let b := Fp.unpack .f32 l.toNat
    let c := Fp.unpack .f32 t.toNat
    let r := exitPass m.toNat l.toNat t.toNat
    let top := (a.isInf = true ∧ a.neg = false) ∨ (b.isInf = true ∧ b.neg = true)
    let bottom := (a.isInf = true ∧ a.neg = true) ∨ (b.isInf = true ∧ b.neg = false)
    ((a.isNan = true ∨ b.isNan = true ∨ c.isNan = true) → r = (false, Fp.snanFlags [a, b, c]))
    ∧ (a.isNan = false → b.isNan = false → c.isNan = false →
      (a.isInf = true ∧ b.isInf = true ∧ a.neg = b.neg → r = (false, 0))
      ∧ (¬(a.isInf = true ∧ b.isInf = true ∧ a.neg = b.neg) →
        (c.isInf = true → c.neg = true → r = (true, 0))
        ∧ (top → r = (true, 0))
        ∧ (¬top → c.isInf = true → c.neg = false → r = (false, 0))
        ∧ (bottom → c.isInf = false → r = (decide (c.dyadic.m ≤ 0), 0))
        ∧ (¬top → ¬bottom → c.isInf = false →
          r = (Fp.expAtLeast (a.dyadic.add { m := -b.dyadic.m, e := b.dyadic.e }) c.dyadic, 0)))))
  ∧ exitPass 0xBD4CCCCD 0 0x3F666666 = (true, 0) ∧ exitPass 0xBE99999A 0 0x3F666666 = (false, 0)

/-- Exit lists, and the test of a token. The parts name their rules. -/
def Obligations.ExitResults : Prop := Machine.ExitListResults ∧ Machine.ExitTest

/-- `launch` and `launch.arr` whose packet and header can be read, their lanes fenced at scope 3 (R372), hand the request to the launch engine as a child of the block's grid, one
level deeper, and give the status and sequence number that it answers (R318, R324). -/
def Obligations.ChildLaunches : Prop :=
  ∀ (s : State) (x : Opnds) (n : BitVec 4) (i : Instr) (slot : Option Nat) (l : Nat) (ls : List Nat) (f u v : State) (bs : List (Byte × Bool))
    (hdr : Option Nat),
    (i = .launch x n ∧ slot = none) ∨ (i = .launchArr x n ∧ slot = some n.toNat) → s.ready i = true → s.exe x.g = l :: ls →
    let va := s.src x.ext .b64 l x.a
    canonical (.ofNat 64 va) = true → va % 128 = 0 → va < 2 ^ 64 → (∀ k ∈ slot, (Sparse.look s.cb.slots k).isSome = true) →
    s.begun.fenceFirst s.sel.blk (l :: ls) 3 = some f → f.engRead s.cb.who (sectorParts va 128) = (u, .ok bs) → (∀ b ∈ bs, b.2 = false) →
    u.readHeader s.cb.who (ofBytes (bs.map (·.1))) = (v, .ok hdr) →
    let r := v.accept { queue := s.queueOf s.cb, die := s.cd, who := s.cb.engine, depth := s.cb.hdr.depth + 1
                        parent := some (s.cb.grid, s.sel.blk, slot), batch := none } (ofBytes (bs.map (·.1))) hdr
    exec i s = .next (r.1.gives x 2 l (r.2.1 + r.2.2 * 2 ^ 32))

/-- Each packet and request takes its queue's next sequence number, which advances by one and skips 0 (R318); the queue's count of refused
packets rises by one for a refused one and for no other, and no other queue changes. -/
def Sys2Proof.Machine.RequestCounted : Prop :=
  ∀ (s : State) (l : Launcher) (p : Nat) (hdr : Option Nat),
    let q := s.queue l.queue
    let st := (s.takeSeq l.queue).1.refusal l p hdr
    let r := s.accept l p hdr
    r.2.2 = q.seqNext.toNat ∧ (r.1.queue l.queue).seqNext = (if q.seqNext = 0xFFFFFFFF then 1 else q.seqNext + 1)
    ∧ (q.seqNext ≠ 0 → (r.1.queue l.queue).seqNext ≠ 0)
    ∧ (r.1.queue l.queue).refused = q.refused + (if field p 0 8 ≠ 0 ∧ st ≠ 0 then 1 else 0)
    ∧ ∀ k, k ≠ l.queue → r.1.queue k = s.queue k

/-- A skip packet is consumed and nothing else happens; a request whose header cannot be read, or whose header gives no canonical and aligned
address for its completion record, is refused with status 2 and leaves only the queue's count (R318). -/
def Sys2Proof.Machine.RequestWithoutGrid : Prop :=
  ∀ (s : State) (l : Launcher) (p : Nat),
    (∀ hdr, field p 0 8 = 0 → (s.accept l p hdr).2.1 = 0 ∧ (s.accept l p hdr).1.grids = s.grids)
    ∧ (field p 0 8 ≠ 0 → (s.accept l p none).2.1 = 2 ∧ (s.accept l p none).1.grids = s.grids)
    ∧ (∀ x, field p 0 8 ≠ 0 → goodAddr (Header.of x).done.toNat 32 = false →
      (s.accept l p (some x)).2.1 = 2 ∧ (s.accept l p (some x)).1.grids = s.grids)

/-- A request that breaks no rule becomes a grid, waiting on its dependences or active, with as many blocks as its header says and the priority
min(`hdr.prio`, `q.pmax`) of that moment (R318 to R320, R324); one that breaks a rule places no block. A child's parent counts it where it is
accepted. -/
def Sys2Proof.Machine.RequestBecomesGrid : Prop :=
  ∀ (s : State) (l : Launcher) (p x : Nat),
    field p 0 8 ≠ 0 → goodAddr (Header.of x).done.toNat 32 = true →
    let st := (s.takeSeq l.queue).1.refusal l p (some x)
    let r := s.accept l p (some x)
    r.2.1 = st
    ∧ ((∀ y ∈ l.parent, y.1 ≠ s.gridNext) → ∃ g, Sparse.look r.1.grids s.gridNext = some g ∧ g.queue = l.queue ∧ g.seq = r.2.2 ∧ g.status = st
      ∧ g.placed = 0 ∧ g.total = (if st = 0 then (Header.of x).blocks else 0) ∧ g.hdr.depth = l.depth ∧ g.parent = l.parent
      ∧ g.prio = min (Header.of x).prio (s.queue l.queue).cfg.pmax ∧ g.rise = 0
      ∧ g.state = (if st = 0 ∧ packetDeps p ≠ [] then .waiting else .active))
    ∧ ∀ y g, l.parent = some y → y.1 ≠ s.gridNext → Sparse.look s.grids y.1 = some g →
      Sparse.look r.1.grids y.1 = some (if st = 0 then { g with children := g.children + 1, openChildren := g.openChildren + 1 } else g)

/-- What becomes of a packet or request: its number and the refused count, what leaves no grid, and what becomes one. The parts name their
rules. -/
def Obligations.Acceptance : Prop := Machine.RequestCounted ∧ Machine.RequestWithoutGrid ∧ Machine.RequestBecomesGrid

/-! ### System, fabric and keys -/

/-- `sysrd` and `syswr` (R178): each executing lane that may read the register gets its value; each at level 2 writes a writable register; the
other lanes stay at the instruction and take PRIVILEGE (0x1A). `oplog.rd` gives a word of the lane's part of an entry to each lane at
level 2 (R181, R267). -/
def Obligations.SystemRegisters : Prop :=
  ∀ (s : State) (x : Opnds) (r : BitVec 10) (bad : List Nat),
    let ex := s.exe x.g
    let len := x.ext.bytes
    let good := ex.filter fun t => !bad.contains t
    let traps (u : State) : State := u.finishFaults len (bad.map fun t => (t, { cause := 0x1A }))
    (s.ready (.sysrd x r) = true → bad = (ex.filter fun t => sysHidden r.toNat && (s.cb.thr t).level != 2) →
      exec (.sysrd x r) s = .next (traps ((s.begun.advanceBut len bad).write x.d (sysRegs r) (good.map fun t => (t, s.sysValue r.toNat t)))))
    ∧ (s.ready (.syswr x r) = true → bad = (ex.filter fun t => !sysWritable r.toNat || (s.cb.thr t).level != 2) →
      let u := (s.begun.advanceBut len bad).modCb fun b => (good.map fun t =>
        (t, s.src x.ext (if sysRegs r = 2 then .b64 else .b32) t x.a)).foldl (fun b e => b.setSys r.toNat e.1 e.2) b
      exec (.syswr x r) s = .next (traps (if good.isEmpty then u else u.irrevoke s.sel.blk)))
    ∧ (∀ e w, s.ready (.oplogRd x e w) = true → bad = (ex.filter fun t => (s.cb.thr t).level != 2) →
      exec (.oplogRd x e w) s = .next (traps ((s.begun.advanceBut len bad).write x.d 1
        (good.map fun t => (t, s.cb.logWord t e.toNat w.toNat)))))

/-- `tret`, `tret.next`, `tret.strike` and `presig` (R179, R180): lanes in the supervisor handler return to the instruction that faulted,
past it, or are struck; `tret` at level 1 returns to what the pre-emption interrupted, where a wait whose slot is gone raises
BARRIER_STATE (R412); a lane of any other level takes PRIVILEGE (0x1A), and one whose target is not canonical FETCH (0x12, R48);
`presig` at level 1 with a pre-emption pending signals that the lane is done. -/
def Sys2Proof.Machine.HandlerInstructions : Prop :=
  ∀ (s : State) (x : Opnds),
    let ex := s.exe x.g
    let len := x.ext.bytes
    let level (t : Nat) : Nat := (s.cb.thr t).level
    let lost (past : Bool) : List (Nat × LF) :=
      (ex.filter fun t => level t == 2 && !canonical ((s.cb.thr t).returnPc past)).map fun t =>
        (t, { cause := 0x12, addr := (s.cb.thr t).returnPc past })
    let ends (at1 : Bool) (lost : List (Nat × LF)) (f : State → Nat → State) : State :=
      let bad := ex.filter fun t => !(level t == 2 || (level t == 1 && at1))
      let good := ex.filter fun t => !bad.contains t && !lost.any fun e => e.1 == t
      let u := good.foldl (fun u t => if level t == 2 then f u t else u.leaveTrap s.sel.blk t) (s.begun.advanceBut len ex)
      let w := if at1 && good.any (fun t => level t == 1) then u.faultUnbound s.sel.blk else u
      (w.fault len (sortBy (fun (e : Nat × LF) => homeLane e.1) (lost ++ bad.map fun t => (t, { cause := 0x1A })))).settle s.sel.blk
    (s.ready (.tret x) = true → exec (.tret x) s = .next (ends true (lost false) fun u t => u.returnTo s.sel.blk t false))
    ∧ (s.ready (.tretNext x) = true → exec (.tretNext x) s = .next (ends false (lost true) fun u t => u.returnTo s.sel.blk t true))
    ∧ (s.ready (.tretStrike x) = true → exec (.tretStrike x) s = .next (ends false [] fun u t => u.strike s.sel.blk t))
    ∧ (s.ready (.presig x) = true → exec (.presig x) s = .next ((s.begun.advance len).modCb fun b =>
        b.modThrs (ex.filter fun t => s.cb.state == .preempting && !s.cb.savedByHw && level t == 1) fun _ t => { t with signalled := true }))

/-- The return from the supervisor handler, and the instructions that make it. The parts name their rules. -/
def Obligations.HandlerResults : Prop := Machine.HandlerReturns ∧ Machine.HandlerInstructions

namespace Sys2Proof.Machine

/-- The operands of a `tlbinv` name no bit that must be 0 (R278). -/
def tlbIdOk (s : State) (x : Opnds) (m : TlbMode) : Bool :=
  let l := (s.exe x.g).headD 0
  match m with
  | .all => true
  | .dom => decide (s.src x.ext .b32 l x.a < 16)
  | .as => decide (s.src x.ext .b32 l x.a < 4096)
  | .va => decide (s.src x.ext .b32 l x.c < 4096)

/-- The service instructions (R275 to R278, R353, R363, R399 to R401). -/
def serviceOnly (s : State) : Instr → Option Opnds
  | .faultRdSeq x | .faultRdTake x | .faultRdFree x | .faultCancel x _ | .migAckTake x | .migAckRearm x | .migAckQuiet x
  | .leaseQStat x | .leaseQWait x | .leaseQRel x | .diectlReset x | .diectlStat x => some x
  | .tlbinv x m => if tlbIdOk s x m then some x else none
  | _ => none

end Sys2Proof.Machine

/-- A service instruction outside the domains of `svcdom`, in lanes that are not all at handler level 2, raises PRIVILEGE (0x1A) in its
executing lanes and has no effect (R275, R178). -/
def Obligations.ServicePrivilege : Prop :=
  ∀ (s : State) (i : Instr) (x : Opnds),
    serviceOnly s i = some x → s.ready i = true → s.exe x.g ≠ [] → s.service (s.exe x.g) = false →
    exec i s = .next ((s.begun.advanceBut x.ext.bytes (s.exe x.g)).finishFaults x.ext.bytes ((s.exe x.g).map fun t => (t, { cause := 0x1A })))

/-- The fault buffer and the translation caches as service lanes see them (R273, R276 to R278): `fault.rd` gives the twelve words of the entry
selected and of the buffer after its action; `fault.cancel` releases a restartable record once its lanes' stores are performed; `tlbinv`
removes the entries that its mode names. -/
def Obligations.FaultBufferResults : Prop :=
  ∀ (s : State) (x : Opnds) (l : Nat) (ls : List Nat),
    s.exe x.g = l :: ls → s.service (l :: ls) = true →
    let len := x.ext.bytes
    let q : Word := .ofNat 32 (s.src x.ext .b32 l x.a)
    let read (hit : Option FbEntry) (left : List FbEntry) : State :=
      let u := s.begun.modDie s.cd fun d => { d with fb := left }
      (u.advance len).write x.d 12 [(l, (hit.map FbEntry.bits).getD 0 + left.length * 2 ^ 320 + (s.die s.cd).overflow.toNat * 2 ^ 352)]
    (∀ e, s.ready (.faultRdSeq x) = true → (s.die s.cd).fb.find? (fun e => e.seq == q) = some e →
      ∃ t, exec (.faultRdSeq x) s = .next t ∧ t.blocks = (read (some e) (s.die s.cd).fb).blocks ∧ t.mem = s.mem
        ∧ ∀ k, (t.die k).fb = (s.die k).fb)
    ∧ (∀ e, s.ready (.faultRdTake x) = true →
      (s.die s.cd).fb.find? (fun e => !e.taken && decide (q.toNat ≤ e.seq.toNat)) = some e →
      exec (.faultRdTake x) s = .next ((s.begun.modDie s.cd fun d => { d with fb := d.fb.map fun y =>
        { y with taken := y.taken || y.seq == e.seq } }).advance len |>.write x.d 12
          [(l, e.bits + (s.die s.cd).fb.length * 2 ^ 320 + (s.die s.cd).overflow.toNat * 2 ^ 352)] |>.irrevoke s.sel.blk))
    ∧ (∀ e, s.ready (.faultRdFree x) = true → (s.die s.cd).fb.find? (fun e => e.seq == q) = some e →
      let left := (s.die s.cd).fb.filterMap fun y => if y.seq == e.seq then (if y.body.kind = 2 then some y else none) else some y
      exec (.faultRdFree x) s = .next ((read (some e) left).irrevoke s.sel.blk))
    ∧ (∀ m u, s.ready (.faultCancel x m) = true → s.begun.lanesPerformed s.sel.blk (l :: ls) = some u →
      let ok := (s.die s.cd).fb.any fun e => e.seq == q && e.body.kind == 2
      let mask := s.src x.ext .b64 l x.b
      let t := u.gives x 1 l (if ok then 0 else 1)
      exec (.faultCancel x m) s = .next (if !ok then t
        else t.releaseRecord s.cd q (m == .all) fun c => m == .all || (m == .core && bitAt mask c)))
    ∧ (∀ m, s.ready (.tlbinv x m) = true →
      let a := s.src x.ext (if m == .va then .b64 else .b32) l x.a
      let c := s.src x.ext .b32 l x.c
      let p := tlbPick m a (s.src x.ext (.int 64 false) l x.b) c
      (m = .dom → a < 16) → (m = .as → a < 4096) → (m = .va → c < 4096) → s.usedPage s.cd p = false →
      exec (.tlbinv x m) s = .next (((s.begun.advance len).irrevoke s.sel.blk).forgetPages s.cd p))

/-- Leases, migration events and the dies as service lanes see them (R363, R400, R401): `lease.q` gives an entry of the block's domain, waits for
it to change, or starts its release; `mig.ack` takes the oldest event or answers one; `diectl` gives a die's state, or starts its
warm reset where its answer is 0. -/
def Obligations.ServiceResults : Prop :=
  ∀ (s : State) (x : Opnds) (l : Nat) (ls : List Nat),
    s.exe x.g = l :: ls → s.service (l :: ls) = true →
    let len := x.ext.bytes
    let slot := s.src x.ext .b32 l x.a % 2 ^ 16
    let entry := if s.leaseMine slot (l :: ls) then s.borrowBits slot else 0
    (s.ready (.leaseQStat x) = true → exec (.leaseQStat x) s = .next (s.begun.gives x 4 l entry))
    ∧ (s.ready (.leaseQWait x) = true → x.b ≠ .null → s.src x.ext .b32 l x.b = 0 → (s.cb.thr l).wait = .none →
      exec (.leaseQWait x) s = .next (s.begun.gives x 4 l entry))
    ∧ (s.ready (.leaseQRel x) = true →
      let ok := s.leaseMine slot (l :: ls) && ((s.borrow slot).state == 1 || (s.borrow slot).state == 2)
      let u := s.begun.gives x 1 l (if ok then 0 else 1)
      exec (.leaseQRel x) s = .next (if ok then u.releaseLease slot else u))
    ∧ (s.ready (.migAckTake x) = true → exec (.migAckTake x) s =
      .next ((s.begun.modHub fun h => { h with mig := h.mig.drop 1 }).gives x 8 l ((s.hub.mig.head?.map MigEvent.bits).getD 0)))
    ∧ (∀ (i : Instr) (f : PeerEntry → PeerEntry),
      (i = .migAckRearm x ∧ f = fun e => { e with count := 0, mig := .counting }) ∨ (i = .migAckQuiet x ∧ f = fun e => { e with mig := .quiet }) →
      s.ready i = true →
      let n := s.src x.ext .b32 l x.a
      exec i s = .next ((s.begun.modHub fun h => { h with peers := h.peers.map fun e => if e.mig == .posted n then f e else e }).gives x 1 l
        (if s.hub.peers.any (fun e => e.mig == .posted n) then 0 else 1)))
    ∧ (s.ready (.diectlStat x) = true →
      let d := s.src x.ext .b32 l x.a
      exec (.diectlStat x) s = .next (s.begun.gives x 1 l
        (if d ≤ 3 then (s.die d).warm.step + (s.die d).incarnation.toNat * 2 ^ 16 else 0)))
    ∧ (s.ready (.diectlReset x) = true →
      let d := s.src x.ext .b32 l x.a
      let k := s.resetAnswer d
      let u := (s.begun.advance len).write x.d 1 [(l, k)]
      exec (.diectlReset x) s = .next ((if k = 0 then u.startReset d else u).irrevoke s.sel.blk))

/-- `snuff` moves granules between the block's domain and the free owner, each zeroed and out of every cache, and gives how many and why it
stopped (R349, R350, R353); `halt` from a service domain at handler level 2 stops the package once its lanes' stores are performed
(R366). -/
def Obligations.SnuffAndHalt : Prop :=
  ∀ (s : State) (x : Opnds) (l : Nat) (ls : List Nat),
    s.exe x.g = l :: ls →
    (let a := s.src x.ext .b64 l x.a
      let n := s.src x.ext .b32 l x.b
      let r := State.snuffRun s.cb.hdr.domain (s.src x.ext .b32 l x.c) n (a / 65536) 0 s.begun
      s.ready (.snuff x) = true → s.service (l :: ls) = true → 1 ≤ n → n ≤ 65536 → a % 65536 = 0 →
      (∀ k < n, s.granuleBusy (a / 65536 + k) = false) →
      exec (.snuff x) s = .next (r.1.gives x 2 l (r.2.1 + r.2.2 * 2 ^ 32)))
    ∧ (∀ (i : Instr) (p : Power) (u : State), (i = .haltOff x ∧ p = .off) ∨ (i = .haltReboot x ∧ p = .reboot) → s.ready i = true →
      (s.die s.cd).svcdom.getLsbD s.cb.hdr.domain = true → (∀ t ∈ l :: ls, (s.cb.thr t).level = 2) →
      s.begun.lanesPerformed s.sel.blk (l :: ls) = some u →
      exec i s = .next (u.haltPackage p .halt [if p == .off then 0 else 1])
        ∧ (u.haltPackage p .halt [if p == .off then 0 else 1]).hub.power = p)

/-- A granule that changes owner (R353): afterwards every byte of it reads 0, no cache of the package holds a byte of it, no write to it
is on its way, it has its new owner, memory outside it is unchanged, and so is every general register and program counter. -/
def Obligations.GranuleGiven : Prop :=
  ∀ (s : State) (g code : Nat),
    let t := s.giveGranule g code
    (∀ a, t.mem.byte a = if 65536 * g ≤ a ∧ a < 65536 * g + 65536 then 0 else s.mem.byte a)
    ∧ (∀ d ∈ caches, ∀ a, 65536 * g ≤ a → a < 65536 * g + 65536 → t.l2 d a = none)
    ∧ (∀ c ∈ t.cores, ∀ y ∈ c.2.l1, Machine.meets (65536 * g) 65536 (y.pa - (256 * y.line - y.page)) y.size = false)
    ∧ (∀ e ∈ t.hub.inflight, ¬(e.pa < 65536 * g + 65536 ∧ 65536 * g < e.pa + e.bytes.length))
    ∧ (granuleReal g = true → t.granuleOwner g = code) ∧ (∀ e ∈ t.hub.frames, e.1 / 16 ≠ g)
    ∧ ∀ b k, ((t.blk b).thr k).v = ((s.blk b).thr k).v ∧ ((t.blk b).thr k).p = ((s.blk b).thr k).p ∧ ((t.blk b).thr k).pc = ((s.blk b).thr k).pc

/-- Keys (R355 to R357): a key is made or imported for the block's domain, or the reason why not is given; a live handle of the domain is
described, or revoked once no engine uses it; any other handle gives status 3. -/
def Obligations.KeyResults : Prop :=
  ∀ (s : State) (x : Opnds) (l : Nat) (ls : List Nat),
    s.exe x.g = l :: ls →
    let dom := s.cb.hdr.domain
    let pair (u : State) (v status : Nat) : State := u.gives x 2 l (v + status * 2 ^ 32)
    let made (u : State) (k : KeyUse) (key : Nat) : State :=
      match u.installKey dom k key with
      | (v, some h) => pair v h 0
      | (v, none) => pair v 0 1
    (∀ k, s.ready (.keyhGen x k) = true → exec (.keyhGen x k) s = .next (if s.keyBar k (l :: ls) = 0
        then made s.begun.drawKey.1 k s.begun.drawKey.2 else pair s.begun 0 (s.keyBar k (l :: ls))))
    ∧ (∀ k, s.ready (.keyhImp x k) = true → s.keyBar k (l :: ls) ≠ 0 →
      exec (.keyhImp x k) s = .next (pair s.begun 0 (s.keyBar k (l :: ls))))
    ∧ (∀ k u bs sh key, s.ready (.keyhImp x k) = true → s.keyBar k (l :: ls) = 0 →
      addrCheck (.ofNat 64 (s.src x.ext .b64 l x.a)) 64 { cause := 0 } = none →
      s.begun.load s.cb.who (s.src x.ext .b64 l x.a) 64 true false = (u, .ok (bs, sh)) →
      let v := (u.countSectors s.cb.who [s.src x.ext .b64 l x.a]).modCb fun b => b.raise l sh
      ((Sparse.look v.hub.transport v.cb.hdr.domain).bind fun k => Crypto.unwrap k (bs.take 40)) = some key →
      ofBytes ((bs.drop 40).take 2) = useCode k →
      exec (.keyhImp x k) s = .next (v.keyNew x l k key))
    ∧ (let h := s.src x.ext .b32 l x.a
      (s.keyOf h dom none = none → (s.ready (.keyhRev x) = true → exec (.keyhRev x) s = .next (pair s.begun 0 3))
        ∧ (s.ready (.keyhQry x) = true → exec (.keyhQry x) s = .next (pair s.begun 0 3)))
      ∧ ∀ k, s.keyOf h dom none = some k →
        (s.ready (.keyhRev x) = true → s.keyInUse h = false → exec (.keyhRev x) s = .next (pair (s.begun.revokeKey h) 0 0))
        ∧ (s.ready (.keyhQry x) = true → exec (.keyhQry x) s = .next (pair s.begun h (k.use * 2 ^ 16))))

/-! ### What happens by itself: cores and blocks -/

/-- Scratchpad events (R186, R191, R194, R195, R197): a pass that serves nobody drains one entry of each parity queue; a lost row is rebuilt, in a pass that drains
the other groups' queues; a
bank whose corrected errors have reached the threshold is retired, or its core goes out of service where its group has one already. -/
def Obligations.ScratchEvents : Prop :=
  ∀ (s : State) (core : Nat),
    let sp := (s.core core).scratch
    (∃ t, exec (.bankPass core) s = .next t ∧ (t.core core).scratch = (sp.drain []).rewrite ∧ t.blocks = s.blocks ∧ t.mem = s.mem)
    ∧ (∀ g row, g < 16 → sp.isLost (16 * row + g) = true → sp.degraded g = false →
      ∃ t, exec (.rowRebuild core g row) s = .next t ∧ (t.core core).scratch = (sp.rebuildRow (16 * row + g)).drain [g]
        ∧ (t.core core).scratch.isLost (16 * row + g) = false ∧ t.blocks = s.blocks ∧ t.mem = s.mem)
    ∧ (∀ bank, bank < 256 → s.hub.bankthr ≤ Sparse.getOr sp.corrected bank 0 →
      (sp.degraded (bank / 16) = false → ∃ t, exec (.bankRetirement core bank) s = .next t
        ∧ Sparse.look (t.core core).scratch.retired (bank / 16) = some bank ∧ (t.core core).scratch.pq (bank / 16) = []
        ∧ t.blocks = s.blocks ∧ t.mem = s.mem)
      ∧ (sp.degraded (bank / 16) = true → Sparse.look sp.retired (bank / 16) ≠ some bank → (s.core core).inService = true →
        ∃ t, exec (.bankRetirement core bank) s = .next t ∧ (t.core core).inService = false ∧ t.blocks = s.blocks ∧ t.mem = s.mem))

/-- Blocks are placed, zeroed and completed (R53, R120, R121, R145, R199, R320, R321): the launch that is placed next gets its block or cohort
where it fits; a placed block's rows are zeroed, its first interval opens and it runs; a block all of whose bundles have ended, with
nothing in flight, is complete; a killed block gives up its core once everything that it issued has completed, and not before. -/
def Obligations.BlockEvents : Prop :=
  ∀ (s : State),
    (∀ gid g die cores used, Sparse.look s.grids gid = some g → g.die = die → s.dieServes die = true → s.placeable die = some (gid, g) →
      s.gridSpot g = some (cores, used) →
      exec (.blockPlacement gid) s = .next ((s.passOver die gid).placeCohort gid g cores used))
    ∧ (∀ b, (s.blk b).state = .placed → (s.blk b).preemptHeld = false →
      ∃ t, exec (.rowZeroing b) s = .next t ∧ (t.blk b).state = .running ∧ (t.blk b).check.isSome = true ∧ (t.blk b).irrevocable = false
        ∧ (t.blk b).threads = (s.blk b).threads ∧ t.mem = s.mem
        ∧ ∀ a, a / 1024 < (s.blk b).rows.length → (t.core (s.blk b).core).scratch.raw ((s.blk b).word a) = 0)
    ∧ (∀ b, (s.blk b).state = .restored → ((s.modPad (s.blk b).core fun sp => (s.blk b).rows.foldl (fun sp r => sp.zeroRow r) sp).reloadBlock b |>.blk
        b).state = .running →
      exec (.rowZeroing b) s = .next ((((s.modPad (s.blk b).core fun sp => (s.blk b).rows.foldl (fun sp r => sp.zeroRow r) sp).reloadBlock
        b).openInterval b).takeHeld b))
    ∧ (∀ b, (s.blk b).draining = true → let u := s.replayStale b fun _ => true
      exec (.blockCompletion b) s = .next (if u.unfinished b then u else u.endKilled b))
    ∧ (∀ b, (s.blk b).draining = false → s.blockEnded b = true → (Sparse.look s.grids (s.blk b).grid).isSome = true →
      ∃ t, exec (.blockCompletion b) s = .next t ∧ (t.blk b).state = .completed ∧ t.mem = s.mem
        ∧ (∀ g, Sparse.look s.grids (s.blk b).grid = some g →
          Sparse.look t.grids (s.blk b).grid = some { g with ended := g.ended + 1, struck := g.struck + (s.blk b).struck }))

/-- Pre-emption (R138 to R142, R242, R248): a block in the way of what is placed next is pre-empted with its cohort, and one whose bundles
all wait on `waitcmp` is swapped out; a block with a handler has 100 µs of its die's clock, after which the hardware stops it; once it has
drained it is saved, unless the save reads an error, which it consumes; a saved block whose turn it is is restored with its cohort; a saved
member's swap entry becomes valid. -/
def Obligations.PreemptionEvents : Prop :=
  ∀ (s : State) (b : Nat),
    ((s.victims ((s.blk b).core / 48)).contains b = true →
      exec (.preemptionTrap b) s = .next ((s.members b).foldl (fun s m => s.requestPreempt m false) s))
    ∧ ((s.victims ((s.blk b).core / 48)).contains b = false → (s.blk b).state = .running → (s.blk b).allWaitcmp = true →
      (s.blk b).hdr.handler ≠ 0 →
      ∃ t, exec (.preemptionTrap b) s = .next t ∧ (t.blk b).state = .preempting ∧ (t.blk b).swapOut = true
        ∧ ∀ k ∈ (s.blk b).open, ((s.blk b).thr k).level ≠ 2 → k < (s.blk b).threads.length →
          ((t.blk b).thr k).pc = (s.blk b).hdr.handler ∧ ((t.blk b).thr k).level = 1 ∧ ((t.blk b).thr k).v = ((s.blk b).thr k).v)
    ∧ (∀ due, (s.blk b).state = .preempting → (s.blk b).preemptDue = some due → due ≤ (s.die ((s.blk b).core / 48)).clk →
      ∃ t, exec (.preemptionTimeout b) s = .next t ∧ (t.blk b).savedByHw = true ∧ (t.blk b).preemptDue = none
        ∧ (t.blk b).state = .preempting ∧ t.mem = s.mem)
    ∧ (∀ swap, (s.blk b).state = .running → (s.blk b).hdr.handler ≠ 0 →
      ((s.requestPreempt b swap).blk b).state = .preempting
      ∧ ((s.requestPreempt b swap).blk b).preemptDue =
        some ((s.die ((s.blk b).core / 48)).clk + 100 * (s.die ((s.blk b).core / 48)).mhz))
    ∧ (∀ u, s.drained b = true →
      (s.saveReads b = (u, none) → (u.blk b).swapOut = false →
        ∃ t, exec (.preemptionSave b) s = .next t ∧ t = u.saveBlock b ∧ (t.blk b).state = .saved ∧ (t.blk b).rows = [])
      ∧ ∀ trig, s.saveReads b = (u, some trig) → exec (.preemptionSave b) s = .next (u.consume b trig 0))
    ∧ (∀ spots, (s.restorable ((s.blk b).core / 48)).bind s.restoreSpot = some spots → (∃ c, (b, c) ∈ spots) →
      s.dieServes ((s.blk b).core / 48) = true →
      exec (.blockRestore b) s = .next (spots.foldl (fun s e => s.startRestore e.1 e.2) s))
    ∧ ((s.blk b).state = .saved → (s.core (s.blk b).core).port = [] →
      ∃ t, exec (.swapEntryValid b) s = .next t ∧ t.blocks = s.blocks
        ∧ ∀ e ∈ (t.cluster ((s.blk b).core / 4)).swap, e.blk = b → e.valid = true)

/-- Consumption, rollback, regrouping and afterglow (R135, R136, R143, R146, R148, R150): an issue that reads a register with an uncorrectable error
consumes it; a consumption in a revocable interval starts a rollback, and any other, or the fourth, kills the block; a block whose operations
have completed goes back to its checkpoint and runs, its count raised, or is killed where checkpoint or journal is in error; a bin that is due becomes a drawn bundle; one that is dissolved by force gives its lanes back; afterglow is forced for
a domain or a die; operations that the trailers have caught up with are released. -/
def Sys2Proof.Machine.RegroupSteps : Prop :=
  ∀ (s : State) (b : Nat),
    (∀ c, (s.blk b).check = some c → (s.blk b).state = .rollingBack → s.engineWork b false = false → (s.blk b).preemptHeld = false →
      c.threads.all (fun t => t.wait == .none && t.status == .running) = true → (∀ n v a, .external n v a ∉ (s.blk b).journal) →
      (s.blk b).trail = none → c.bad = false → (∀ x ∈ c.bundles, x.oplog = [] ∧ x.j = []) → c.drawn = [] →
      let u := (s.blk b).journal.foldl (fun u e => u.undo b e) s
      ∃ t, exec (.rollback b) s = .next t ∧ (t.blk b).state = .running ∧ (t.blk b).rollbacks = (s.blk b).rollbacks + 1
        ∧ (t.blk b).bundles = c.bundles ∧ (t.blk b).threads.map (·.pc) = c.threads.map (·.pc) ∧ (t.blk b).irrevocable = false
        ∧ (∀ k < c.threads.length, ((t.blk b).thr k).v = ((u.blk b).thr k).v)
        ∧ (t.core (s.blk b).core).scratch = (u.core (s.blk b).core).scratch
        ∧ (∀ p, (t.part p).tiles = (u.part p).tiles ∧ (t.part p).buf = (u.part p).buf) ∧ t.mem = s.mem)
    ∧ (∀ c, (s.blk b).check = some c → (s.blk b).state = .rollingBack → s.engineWork b false = false → c.bad = true →
      exec (.rollback b) s = .next (s.kill b 0x40 (s.blk b).trig (s.blk b).trigAddr))
    ∧ (∀ (i : Instr) (x : Opnds), i.opnds? = some x → s.sel.act ≠ [] → s.pendingLog = [] →
      s.pendingScalars.any (fun e => e.blocks i x) = false → (i.mayFault = true → s.logFull = false) → s.badRead i = true → exec i s = .next (s.begun.consume s.sel.blk 1 0))
    ∧ (∀ trig a, (s.blk b).state.issues = true →
      ((s.blk b).irrevocable = false → (s.blk b).rollbacks < 3 → ((s.consume b trig a).blk b).state = .rollingBack
        ∧ ((s.consume b trig a).blk b).trig = trig ∧ ((s.consume b trig a).blk b).trigAddr = a ∧ (s.consume b trig a).mem = s.mem
        ∧ (s.consume b trig a).dies = s.dies)
      ∧ ((s.blk b).irrevocable = true → s.consume b trig a = s.kill b 0x40 trig a)
      ∧ ((s.blk b).irrevocable = false → 3 ≤ (s.blk b).rollbacks → s.consume b trig a = s.kill b 0x41 trig a))
    ∧ (∀ part bin x, ((s.binsDue part).take (8 - (s.drawnOn part).length)).find? (fun e => e.1 == bin) = some (bin, x) →
      ∃ t k d, exec (.binDraw part bin) s = .next t ∧ Sparse.look (t.blk x.blk).drawn k = some d ∧ d.part = part
        ∧ (∀ m, m ∈ d.members ↔ m ∈ x.threads.map (·.1))
        ∧ (∀ m ∈ d.members, m < (s.blk x.blk).threads.length →
          ((t.blk x.blk).thr m).ctx = some k ∧ ((t.blk x.blk).thr m).pc = x.pc ∧ ((t.blk x.blk).thr m).status = .running)
        ∧ Sparse.look (t.part part).bins bin = none)
    ∧ (∀ k d, Sparse.look (s.blk b).drawn k = some d → (∃ e, s.dissolvable d.part = some (b, k, e)) →
      exec (.forcedDissolution b k) s = .next ((s.modBlk b fun x =>
        { (x.homeLogs d).modThrs d.members (fun _ t => if t.ctx == some k then { t with ctx := none } else t) with
          drawn := Sparse.del (x.homeLogs d).drawn k }).settle b))
    ∧ (∀ n, (∃ t, exec (.forceAfterglow true n) s = .next t ∧ n ∈ t.hub.forcedDies ∧ t.hub.forcedDoms = s.hub.forcedDoms)
      ∧ ∃ t, exec (.forceAfterglow false n) s = .next t ∧ n ∈ t.hub.forcedDoms ∧ t.hub.forcedDies = s.hub.forcedDies)
    ∧ ((s.blk b).threads ≠ [] → ∃ t, exec (.afterglowRelease b) s = .next t ∧ ∀ k, (t.blk b).thr k =
      { (s.blk b).thr k with wait := if ((s.blk b).thr k).wait = .outgoing false then .outgoing true else ((s.blk b).thr k).wait })

/-- THE UNDO OF A JOURNAL ENTRY (R145, R148): a logged vector row gives every lane of its home bundle the old value of the register, and no other
register or thread changes; a tile's row, a KiB of an operand buffer and a row of scratchpad are as they were logged. -/
def Sys2Proof.Machine.UndoRestores : Prop :=
  ∀ (s : State) (b : Nat),
    (∀ n k old l, l < (s.blk b).threads.length → let x := ((s.undo b (.vrow n k old)).blk b).thr l
      (homeBundle l = n → x.vreg k = old.getD (homeLane l) 0 ∧ ∀ j, j ≠ k → x.vreg j = ((s.blk b).thr l).vreg j)
      ∧ (homeBundle l ≠ n → x = (s.blk b).thr l))
    ∧ (∀ q tile row old, let t := s.undo b (.trow q tile row old)
      let at_ (u : State) (i j : Nat) : AccRow := ((u.part (4 * (s.blk b).core + q)).tile i).row j
      at_ t tile row = old ∧ ∀ i j, ¬(i = tile ∧ j = row) → at_ t i j = at_ s i j)
    ∧ (∀ q kib old bad, old.length = 1024 → let t := s.undo b (.obuf q kib old bad)
      let at_ (u : State) (a : Nat) : Byte := Sparse.getOr (u.part (4 * (s.blk b).core + q)).buf a 0
      (∀ j < 1024, at_ t (1024 * kib + j) = old.getD j 0) ∧ ∀ a, a / 1024 ≠ kib → at_ t a = at_ s a)
    ∧ ∀ row old bad, let t := s.undo b (.srow row old bad)
      (t.core (s.blk b).core).scratch = (s.core (s.blk b).core).scratch.restoreRow row old bad ∧ t.blocks = s.blocks

/-- Regrouping and rollback, and what a rollback undoes. The parts name their rules. -/
def Obligations.RegroupEvents : Prop := Machine.RegroupSteps ∧ Machine.UndoRestores

/-- Copies, fills and remote accesses go on by themselves (R212, R240, R244, R246, R256, R296): a block's next copy is accepted with its scoreboard
entry; its next row lands; a fill, from memory or from a member's scratchpad, ends with its record READY and its bytes in the buffer; a fill from
a member ends FAILED where the network is down, the member is gone, its range is too short or a word cannot be read; a held access is
performed in its turn; the 17th failure of a flit puts the cluster's network down. -/
def Obligations.MovementEvents : Prop :=
  ∀ (s : State) (b : Nat),
    ((s.blk b).state.resident = true → (s.blk b).copyReady = true → (s.core (s.blk b).core).sb.length < 32 →
      let k := (s.blk b).accepted
      let mine := (s.blk b).slices.filter fun c => c.k == k
      ∀ c0 rest, mine = c0 :: rest →
        let work := mine.filter fun c => !c.empty
        let u := s.modBlk b fun (x : Block) => { x with
          accepted := x.accepted + 1
          slices := x.slices.filter fun c => c.k != k
          copies := if work.isEmpty then x.copies else x.copies ++
            [({ k := k, kind := c0.kind, s2g := c0.s2g, slot := c0.slot, slices := work, landed := 0, waitSeq := none
                cancelled := false } : Copy)] }
        (work = [] → exec (.copyAccept b) s = .next (u.engineArrive b c0.slot ((s.blk b).preIssued k)))
        ∧ ∀ x xs, work = x :: xs →
          let ends (c : Slice) : List Nat := (List.range c.rows).flatMap fun r => [c.rowVa r, (c.rowVa r + c.globalLen - 1) % 2 ^ 64]
          exec (.copyAccept b) s = .next (((u.modCore (s.blk b).core fun y => { y with
            sb := y.sb ++ [{ blk := b, copy := k, s2g := c0.s2g, lo := xs.foldl (fun m c => min m c.sc) x.sc
                             hi := (xs.foldl (fun m c => max m c.padEnd) x.padEnd) - 1 }] }).irrevokePeer b
              (if c0.s2g then (x :: xs).flatMap ends else [])).engineArrive b c0.slot ((s.blk b).preIssued k)))
    ∧ (∀ n c sl r u bs, (s.blk b).copies.find? (fun c => c.k == n) = some c → c.cancelled = false → c.waitSeq = none →
      (s.blk b).state.resident = true → rowAt c.slices c.landed = some (sl, r) → c.s2g = false → sl.kind = .plain →
      (s.blk b).clobbers (sl.rowPad r) sl.len = false →
      s.engRead (s.blk b).engine (sectorParts (sl.rowVa r) sl.globalLen) = (u, .ok bs) →
      exec (.copyBytesLand b n) s =
        .next ((u.padStore b (mergeReqs (padReqs (s.blk b) (sl.len / 4 + 2) (sl.rowPad r) bs))).rowLanded b c sl.len))
    ∧ (∀ part n f, (s.part part).fills.find? (fun f => f.ob == n) = some f → f.remote = none → (s.blk f.blk).check = none →
      let ob := (s.part part).ob n
      0 < f.bytes.length → f.bytes.length = ob.size → (s.blk f.blk).trail = none ∨ ob.size ≤ 131072 →
      ∃ t, exec (.obFillComplete part n) s = .next t ∧ (t.part part).ob n = { ob with state := .ready }
        ∧ ∀ k < ob.size, Sparse.getOr (t.part part).buf (256 * ob.base + k) 0 = f.bytes.getD k 0)
    ∧ (∀ part n f peer a, (s.part part).fills.find? (fun f => f.ob == n) = some f → f.remote = some (peer, a) →
      let c := part / 16 * 4 + peer
      let ob := (s.part part).ob n
      let own := s.linkGood (part / 4) c
      ((s.cluster (part / 16)).down = true ∨ s.memberAt f.blk c = none ∨ (∃ m, s.memberAt f.blk c = some m ∧
          ((s.blk m).state.resident = false ∨ ((s.blk m).padRange a f.len 16 false { cause := 0 }).isSome = true)) →
        ∃ t, exec (.obFillComplete part n) s = .next t ∧ (t.part part).ob n = { ob with state := .failed }
          ∧ (t.part part).buf = (s.part part).buf ∧ (∀ g ∈ (t.part part).fills, g.ob ≠ n) ∧ t.blocks = s.blocks ∧ t.mem = s.mem)
      ∧ ∀ m, (s.cluster (part / 16)).down = false → s.memberAt f.blk c = some m → (s.blk m).state.resident = true →
        ((s.blk m).padRange a f.len 16 false { cause := 0 }).isSome = false → (s.blk m).state.issues = true → s.sbBusy m a f.len = false →
        (∀ u, own.fillRead m a f.len = (u, none) →
          exec (.obFillComplete part n) s = .next ((u.fillDone part f none).consume f.blk 2 0)
          ∧ ((u.fillDone part f none).part part).ob n = { (u.part part).ob n with state := .failed })
        ∧ ∀ u bs bad, own.fillRead m a f.len = (u, some (bs, bad)) → (s.blk f.blk).check = none → (s.blk f.blk).trail = none →
          0 < bs.length → bs.length = ob.size →
          ∃ t, exec (.obFillComplete part n) s = .next t ∧ (t.part part).ob n = { ob with state := .ready }
            ∧ ∀ k < ob.size, Sparse.getOr (t.part part).buf (256 * ob.base + k) 0 = bs.getD k 0)
    ∧ (∀ c q t, (s.core c).port = [q] → s.remoteServe q = some t →
      exec (.remoteAccessAtTarget c) s = .next (t.modCore c fun k => { k with port := k.port.erase q })
      ∧ exec (.heldAccessRelease c) s = .next (t.modCore c fun k => { k with port := k.port.erase q }))
    ∧ (∀ cl link, (s.cluster cl).down = false →
      let n := Sparse.getOr (s.cluster cl).retries link 0 + 1
      let u := s.modCluster cl fun k => { k with retries := Sparse.put k.retries link n }
      exec (.clusterFlitRetry cl link) s = .next (if 17 ≤ n then u.networkDown cl else u))

/-- Waits end (R111, R170, R285, R286, R401): a nap whose bound has passed is over; a `waitcmp` whose location meets its condition at a re-check or
poll is readied with 1, and one whose bound has passed with 0; a `bwaitt` whose bound has passed ends with 0 and the timeout sticky; a wait on
the borrow table whose bound has passed looks again. -/
def Obligations.WaitEvents : Prop :=
  ∀ (s : State) (b k : Nat),
    k < (s.blk b).threads.length →
    let clk := (s.die ((s.blk b).core / 48)).clk
    (((s.blk b).thr k).napUntil ≤ clk → ∃ t, exec (.napExpiry b k) s = .next t ∧ (t.blk b).thr k = { (s.blk b).thr k with napUntil := 0 }
      ∧ ∀ j, j ≠ k → (t.blk b).thr j = (s.blk b).thr j)
    ∧ (∀ d pte va pa ty cc v u bs, ((s.blk b).thr k).watching.1 = .waitcmp d none pte va pa ty cc v →
      s.loadAt (s.blk b).who { pageOf pte.toNat va 0 with
        pa := pa / pageBytes (field pte.toNat 14 4) * pageBytes (field pte.toNat 14 4) } pa (4 * ty.regs) = (u, .ok bs) →
      waitHolds ty cc (ofBytes bs) v = true →
      ((s.die ((s.blk b).core / 48)).pilots.any (fun e => e.blk == b && e.thr == k) = true →
        exec (.waitcmpRecheck b k) s = .next (u.cmpKnown b k true))
      ∧ ((s.die ((s.blk b).core / 48)).pilots.any (fun e => e.blk == b && e.thr == k) = false → u.blocks = s.blocks →
        exec (.waitcmpPoll b k) s = .next (u.cmpKnown b k true)))
    ∧ (∀ due pte va pa ty cc v, ((s.blk b).thr k).watching.1 = .waitcmp (some due) none pte va pa ty cc v → due ≤ clk →
      (s.blk b).state.issues = true → (s.blk b).savedByHw = false → ((s.blk b).thr k).intr = none →
      exec (.waitcmpTimeout b k) s = .next (s.cmpKnown b k false)
      ∧ (s.cmpKnown b k false |>.blk b |>.thr k).watching.1 = .waitcmp (some due) (some false) pte va pa ty cc v)
    ∧ (∀ n due sl r, ((s.blk b).thr k).wait = .bwaitt n due none → due ≤ clk → (s.blk b).state.issues = true →
      let u := s.modBlk b fun x => { x with threads := x.threads.map fun t => match t.wait with
        | .bwaitt m d none => if t.group == ((s.blk b).thr k).group && t.pc == ((s.blk b).thr k).pc && m == n
            then { t with wait := .bwaitt m d (some false) } else t
        | _ => t }
      u.barOf b n = some (sl, r) →
      exec (.bwaittTimeout b k) s = .next (u.barAccess b sl.addr fun v => v.putBar b n sl { r with tmo := true })
        ∧ ((u.blk b).thr k).wait = .bwaitt n due (some false))
    ∧ (∀ st due, ((s.blk b).thr k).wait = .lease st (some due) false → due ≤ s.hub.time →
      ∃ t, exec (.leaseQWaitTimeout b k) s = .next t ∧ ((t.blk b).thr k).wait = .lease st (some due) true
        ∧ ∀ j, j ≠ k → (t.blk b).thr j = (s.blk b).thr j)

/-- Memory goes on by itself (R255, R261, R262, R271, R292, R348, R354, R370): a walk that an access has asked for gives its leaf to every
core that asked, waits on, or keeps why it failed; a line leaves the L2, its masked bytes reaching a home that serves them, or being held for it; a
directory entry that is dropped leaves no copy of its line; the oldest waiting fault is recorded; the first write of an agent that no other
precedes reaches it; a persistent store that no older one of its lane precedes is durable. -/
def Obligations.MemoryEvents : Prop :=
  ∀ (s : State),
    (∀ core dom asn va acc r, (s.die (core / 48)).walks.find? (fun r =>
        r.dom == dom && r.asn == asn && r.page == va.toNat / 4096 && r.acc == acc && r.failed.isNone
          && (r.cores.isEmpty || r.cores.contains core)) = some r →
      let w : Who := { die := core / 48, core := r.cores.head?, dom := dom, asn := asn, root := r.root, win := 2 ^ 64, code := dom }
      let u := s.modDie (core / 48) fun x => { x with walks := x.walks.filter (· != r) }
      (∀ t p, u.walkFor w va.toNat r.size acc = (t, .ok p) →
        exec (.translationWalk core dom asn va acc) s = .next (t.shareWalk w va.toNat r.cores))
      ∧ (∀ t, u.walkFor w va.toNat r.size acc = (t, .error .wait) →
        exec (.translationWalk core dom asn va acc) s = .next (t.modDie (core / 48) fun y => { y with
          walks := r :: (y.walks.filter fun z => !(z.dom == dom && z.asn == asn && z.page == r.page)) }))
      ∧ ∀ t x, u.walkFor w va.toNat r.size acc = (t, .error x) → x ≠ .wait →
        exec (.translationWalk core dom asn va acc) s = .next (t.modDie (core / 48) fun y => { y with
          walks := y.walks ++ [{ r with failed := some x }] }))
    ∧ (∀ die line, ∃ t, exec (.l2Eviction die line) s = .next t
      ∧ (∀ a, 256 * line ≤ a → a < 256 * line + 256 → t.l2 die a = none)
      ∧ (s.mem.wf = true → Sparse.sorted (s.cache die).bytes = true →
        ∀ a x, 256 * line ≤ a → a < 256 * line + 256 → s.l2 die a = some x → x.masked = true →
          ((∀ e ∈ s.maskedIn die (256 * line) 256, s.served die e.1 = true) → s.hub.inflight = [] → s.hub.applied = [] → t.mem.byte a = x.val)
          ∧ ((∃ e ∈ s.maskedIn die (256 * line) 256, s.served die e.1 = false) →
            ∃ h ∈ t.hub.heldEvict, h.holder = die ∧ h.pa = a ∧ h.val = x.val)))
    ∧ (∀ line, (Sparse.look s.hub.dir line).isSome = true → s.refuses (256 * line) = false →
      ∃ t, exec (.directoryEntryDrop line) s = .next t ∧ Sparse.look t.hub.dir line = none
        ∧ ∀ d ∈ caches, ∀ a, 256 * line ≤ a → a < 256 * line + 256 → t.l2 d a = none)
    ∧ (∀ die f rest u x, die < 4 → (∀ d < die, (s.die d).deferred = []) → (s.die die).deferred = f :: rest →
      s.recordFault die f.body = (u, some x) → exec .faultRecordDeferred s =
        .next ((u.modDie die fun y => { y with deferred := rest }).tellWaiter die f.who x))
    ∧ (∀ agent d, let mine := s.hub.inflight.filter fun d => d.target == agent
      mine.find? (fun d => d.waitSeq.isNone && mine.all fun e => e == d || !(clockLe e.stamp d.stamp && e.stamp != d.stamp)) = some d →
      (s.mayApply d = true → exec (.writeDelivery agent) s = .next (s.deliver d).tryAcks)
      ∧ (s.mayApply d = true ↔ homeAgent d.pa ≠ d.target ∨
        (s.refuses d.pa = false ∧ d.inc = s.incOf d.target ∧ s.slotOk (s.chargeOf d.pa) d.pa = true))
      ∧ (homeAgent d.pa = agent → d.src < 4 → s.refuses d.pa = true ∨ d.inc ≠ s.incOf agent →
        exec (.writeDelivery agent) s = .next (s.refuseDelivery d).tryAcks))
    ∧ (∀ k e, s.hub.persists.find? (fun e => e.k == k) = some e →
      (∀ f ∈ s.hub.persists, f.blk = e.blk → f.thr = e.thr → f.age ≤ e.age) → (∀ c ∈ caches, s.served c e.pa = true) →
      exec (.persistentStoreComplete k) s = .next (s.persistDone e))

/-- Launches go on by themselves (R314 to R325, R329, R336): an enabled queue starts again; a readable packet is accepted and counted as read,
and a write count out of range halts the queue; a grid whose dependences have completed is active, or refused; one that waits rises; one that has
finished writes its record and is complete; a domain's handler is written; a waiting push or pull acts; a due batch is formed, its item
pushed, and its kernel launched. -/
def Obligations.LaunchEvents : Prop :=
  ∀ (s : State),
    (∀ q, q < 64 → ∃ t, exec (.queueEnable q) s = .next t ∧ (t.queue q).cfg = { (s.queue q).cfg with en := true } ∧ (t.queue q).read = 0
      ∧ (t.queue q).seqNext = 1 ∧ (t.queue q).halted = false ∧ t.blocks = s.blocks ∧ t.mem = s.mem)
    ∧ (∀ q u w, (s.queue q).cfg.en = true → (s.queue q).halted = false → (s.queue q).waitSeq = none → s.dieServes (s.queue q).cfg.die = true →
      s.writeCount q = (u, some w) →
      let k := s.queue q
      (w < k.seen.toNat ∨ k.read.toNat + 2 ^ k.cfg.lsize < w → exec (.launchPacketTake q) s = .next (u.haltQueue q))
      ∧ (k.seen.toNat ≤ w → w = k.read.toNat → exec (.launchPacketTake q) s = .next s)
      ∧ (∀ v bs x hdr, k.seen.toNat ≤ w → k.read.toNat < w → w ≤ k.read.toNat + 2 ^ k.cfg.lsize →
        let m := u.modQueue q fun k => { k with seen := .ofNat 64 w }
        (m.queue q).cancelled = false →
        m.engRead (m.queueWho q)
          (sectorParts (((m.queue q).cfg.ring.toNat + 128 * ((m.queue q).read.toNat % 2 ^ (m.queue q).cfg.lsize)) % 2 ^ 64) 128) = (v, .ok bs) →
        (∀ b ∈ bs, b.2 = false) → v.readHeader (m.queueWho q) (ofBytes (bs.map (·.1))) = (x, .ok hdr) →
        exec (.launchPacketTake q) s = .next ((x.accept
          { queue := q, die := (m.queueWho q).die, who := m.queueWho q, depth := 1, parent := none, batch := none } (ofBytes (bs.map (·.1)))
          hdr).1.packetTaken q)))
    ∧ (∀ gid g, Sparse.look s.grids gid = some g →
      (g.state = .waiting → (∀ d ∈ g.deps, (s.depStatus d).isSome = true) →
        let ok := g.deps.all fun d => s.depStatus d == some 0
        ∃ t, exec (.dependenceResolved gid) s = .next t ∧ t.mem = s.mem ∧ t.blocks = s.blocks ∧ Sparse.look t.grids gid =
          some { g with state := .active, status := if ok then 0 else 5, total := if ok then g.total else 0 })
      ∧ (s.canRise g = true → ∃ t, exec (.priorityRise gid) s = .next t ∧ Sparse.look t.grids gid = some { g with rise := g.rise + 1 }
        ∧ t.blocks = s.blocks ∧ t.mem = s.mem)
      ∧ (g.waitSeq = none → s.dieSilent g.die = false →
        (g.finished = true → exec (.gridCompletion gid) s =
          .next (s.writeRecord gid g 8 24 fun u => u.modGrid gid fun y => { y with state := .recorded }))
        ∧ ∀ u, g.state = .recorded → s.blocksPerformed g.die (recordWriter gid :: s.blocksOf gid) = some u →
          exec (.gridCompletion gid) s = .next (u.writeRecord gid g 0 8 fun v => v.gridDone gid g)))
    ∧ (∀ dom pc, dom < 16 → pc = 0 ∨ (canonical pc = true ∧ pc.toNat % 4 = 0) →
      ∃ t, exec (.domainHandlerWrite dom pc) s = .next t ∧ Sparse.getOr t.hub.dh dom 0 = pc ∧ t.blocks = s.blocks ∧ t.mem = s.mem)
    ∧ (∀ die q w rest u, s.wqWaiters die q = w :: rest →
      let m := s.modWq die q fun y => { y with waiting := rest }
      (∀ sel i, w = .issue sel i → ({ m with sel := sel }).wqAct i false = .acts u → exec (.wqWaitServed die q) s = .next { u with sel := s.sel })
      ∧ ∀ e, w = .batch e → m.batchPush die e false = some u → exec (.wqWaitServed die q) s = .next u)
    ∧ (∀ die e, s.dieSilent die = false →
      (s.batchDue (s.exitList die e) = true →
        let m := s.modExit die e fun l => { l with batch := some l.nextBatch }
        ∀ u bs v b, m.engRead (m.exitWho die (m.exitList die e)) (sectorParts (m.exitList die e).pkt.toNat 128) = (u, .ok bs) →
          (∀ y ∈ bs, y.2 = false) → field (ofBytes (bs.map (·.1))) 0 8 = 1 →
          let r := u.modBatch die e fun b => { b with pkt := some (ofBytes (bs.map (·.1))) }
          (∀ w ∈ r.wqWaiters die (r.exitList die e).wq, w.isPush = false) → r.batchPush die e false = some v →
          (v.exitList die e).batch = some b → b.pushed = true →
          exec (.backfillBatchForm die e) s = .next (v.batchLaunch die e b (ofBytes (bs.map (·.1)))))
      ∧ (∀ b p, (s.exitList die e).batch = some b → b.grid = none → b.waitSeq = none → b.pkt = some p → b.pushed = true →
        exec (.backfillBatchForm die e) s = .next (s.batchLaunch die e b p))
      ∧ ∀ b, (s.exitList die e).batch = some b →
        let l := s.exitList die e
        let w := s.wq die l.wq
        (∀ o, l.owner = some o → w.owner = some (o.1, o.2.1) → w.closed = false → w.items.length < 1024 →
          s.batchPush die e false = some ((s.modWq die l.wq fun w => { w with
            items := w.items ++ [.ofNat 64 (b.first % 2 ^ 32 + b.count * 2 ^ 32 + e * 2 ^ 48)] }).modExit die e fun l => { l with
              batch := some { b with pushed := true } })))

/-- The engines of a die (R299, R305, R307, R311, R353): a queued bulk command goes on, or gives its status; a bank command with no earlier
command or step to wait for is performed at its homes, some of its elements, in any order, or all that are left, and then leaves the queue, and
one that an earlier command of its bundle overlaps waits; a shadow's first copy ends, and its waiters have the handle; an open shadow is dropped
and its frames return to the pool; the snuff engine gives a granule or zeroes the released frames in it. -/
def Obligations.EngineEvents : Prop :=
  ∀ (s : State) (die k : Nat),
    (∀ c, (s.die die).bulk.find? (fun c => c.k == k) = some c → c.waitSeq = none → c.cancelled = false →
      (∀ code, c.code = some code → exec (.bulkCommandPerform die k) s = .next (s.bulkStatus die c c.status code))
      ∧ (c.code = none →
        (∀ list n st, c.kind = .gather list n st → exec (.bulkCommandPerform die k) s = .next (s.gather die c list.toNat n))
        ∧ (∀ lanes len count stride slot, c.kind = .fan lanes len count stride slot → exec (.bulkCommandPerform die k) s =
            .next (State.fanRun die c len count stride slot (lanes.drop c.done) c.done s))
        ∧ ∀ dec desc, c.kind = .sealed dec desc → exec (.bulkCommandPerform die k) s = .next (s.sealing die c dec desc.toNat)))
    ∧ (∀ c n pick, (s.die die).bank.find? (fun c => c.k == k) = some c →
      let rest := (List.range c.n).filter fun i => !c.done.contains i
      let es := if c.whole = true ∨ (pick = [] ∧ n = 0) then rest
        else if pick = [] then rest.take n else (pick.filter rest.contains).eraseDups
      let seen := ((c.pieces.map fun p => homeAgent p.1).eraseDups).foldl (fun u h => u.absorb h (u.vclock die)) s
      es ≠ [] →
      ((∃ e ∈ (s.die die).bank, e.k < k ∧ e.blk = c.blk ∧ e.bundle = c.bundle ∧ e.overlaps c = true) →
        exec (.bankCommandPerform die ⟨k, n, pick⟩) s = .next s)
      ∧ (s.bankWaits die c = false → (∀ p ∈ c.pieces, s.bankServed die c p.1 = true) →
        exec (.bankCommandPerform die ⟨k, n, pick⟩) s = .next ((seen.bankPerform c es).modDie die fun x => { x with
          bank := if es.length = rest.length then x.bank.filter fun e => e.k != k
            else x.bank.map fun e => if e.k = k then { e with done := c.done ++ es } else e })))
    ∧ (∀ sh b ts, Sparse.look (s.die die).shadows k = some sh → sh.copying = some (b, ts) →
      ∃ t, exec (.shadowCopyComplete die k) s = .next t ∧ Sparse.look (t.die die).shadows k = some { sh with copying := none }
        ∧ t.mem = s.mem ∧ ∀ l ∈ ts, l < (s.blk b).threads.length → ((s.blk b).thr l).wait = .shadow none →
          (t.blk b).thr l = { (s.blk b).thr l with wait := .shadow (some (.ofNat 32 (shadowHandle die k sh.gen))) })
    ∧ (∀ sh, Sparse.look (s.die die).shadows k = some sh → sh.opened = true → sh.copying = none →
      ∃ t, exec (.shadowDrop die k) s = .next t ∧ (t.die die).pool = (s.die die).pool ++ framesOf sh.pages
        ∧ Sparse.look (t.die die).shadows k = some { sh with opened := false, pages := [], copying := none } ∧ t.mem = s.mem)
    ∧ ∀ g, s.granuleBusy g = false →
      (∀ e, s.hub.zeroing.find? (fun e => e.1 == g) = some e →
        exec (.snuffEngineZero g) s = .next ((s.giveGranule g e.2).modHub fun h => { h with zeroing := h.zeroing.erase e }))
      ∧ (s.hub.zeroing.find? (fun e => e.1 == g) = none →
        exec (.snuffEngineZero g) s = .next ((s.hub.zeroFrames.filter fun e => e.2 / 16 == g).foldl State.zeroFrame s))

/-- Leases at their lender (R351, R352, R392, R406): a free extent is offered; an offer is accepted, declined or lapses after 100 ms; a held
lease is recalled, by hand or at its expiry; a recall ends with the borrower's acknowledgement or after 10 ms; its extent is zeroed and free;
a peer's request for a page of a lease, or to read, write or step data in it, is performed and answered once its slot serves it, and any other
refused with this package's incarnation. -/
def Obligations.LenderEvents : Prop :=
  ∀ (s : State) (k : Nat),
    let e := s.lease k
    let only (t : State) : Prop := t.blocks = s.blocks ∧ t.mem = s.mem ∧ ∀ j, j ≠ k → t.lease j = s.lease j
    (∀ size port id base expiry, e.state = 0 → k < 65536 → size < 12 → port < 4096 → id < 2 ^ 32 → expiry < 2 ^ 64 →
      base % pageBytes size = 0 → 2 ^ 41 ≤ base → base + pageBytes size ≤ 2 ^ 42 - 2 ^ 26 →
      let e' : Lease := { e with state := 1, size := size, port := port, id := id, base := base, expiry := expiry, since := s.hub.time
                                 sharers := [] }
      (∀ g ∈ e'.granules, s.granuleOwner g = 0x12) →
      ∃ t, exec (.leaseOffer k size port id base expiry) s = .next t ∧ t.lease k = e' ∧ only t
        ∧ ∀ g ∈ e'.granules, t.granuleOwner g = 0x11)
    ∧ (e.state = 1 →
      (∃ t, exec (.leaseAccept k) s = .next t ∧ t.lease k = { e with state := 2, gen := nextGen e.gen, since := s.hub.time } ∧ only t)
      ∧ exec (.leaseDecline k) s = .next (s.endOffer k)
      ∧ (e.since + 100000000 ≤ s.hub.time → exec (.offerTimeout k) s = .next (s.endOffer k))
      ∧ (s.endOffer k).lease k = { e with state := 0, since := s.hub.time } ∧ only (s.endOffer k))
    ∧ (e.state = 2 →
      exec (.leaseRecall k) s = .next (s.recall k)
      ∧ (e.expiry ≠ 0 → e.expiry ≤ s.hub.time → exec (.leaseExpiry k) s = .next (s.recall k))
      ∧ (s.recall k).lease k = { e with state := 3, since := s.hub.time } ∧ only (s.recall k)
      ∧ (s.recall k).hub.sent = s.hub.sent ++ [.backInvalidate e.port e.id])
    ∧ (e.state = 3 → ∃ t, exec (.borrowerAck k) s = .next t ∧ t.lease k = { e with state := 4, sharers := [], since := s.hub.time } ∧ only t
      ∧ (e.since + 10000000 ≤ s.hub.time → exec (.recallTimeout k) s = .next t))
    ∧ (e.state = 4 → ∃ t, exec (.extentZeroed k) s = .next t ∧ (t.lease k).state = 0
      ∧ (∀ b j, ((t.blk b).thr j).v = ((s.blk b).thr j).v ∧ ((t.blk b).thr j).pc = ((s.blk b).thr j).pc)
      ∧ ∀ g ∈ e.granules, ∀ a, 65536 * g ≤ a → a < 65536 * g + 65536 → t.mem.byte a = 0)
    ∧ ∀ port id gen inc page tag, (∀ p ∈ s.hub.performed, ¬(p.source = port ∧ p.tag = tag)) →
      (∀ x, s.hub.leases.find? (fun e => e.2.id == id && e.2.gen == gen && (e.2.state == 2 || e.2.state == 3) && e.2.port == port) = some x →
        inc = s.hub.incarnation → 4096 * page + 4096 ≤ pageBytes x.2.size →
        let pa := x.2.base + 4096 * page
        let reply : Sent := .translation port page (some (x.2.base / 4096 + page)) s.hub.incarnation
        (∀ what, PeerAsk.inPage what = true → s.askServed pa what = false →
          exec (.peerTranslationRequest port id gen inc page tag what) s = .next (s.waitAsk
            { port := port, id := id, gen := gen, inc := inc, page := page, tag := tag, what := what }))
        ∧ ∀ what, PeerAsk.inPage what = true → s.askServed pa what = true →
          ∃ t, exec (.peerTranslationRequest port id gen inc page tag what) s = .next t ∧ t.blocks = s.blocks
            ∧ (∃ p ∈ t.hub.performed, p.source = port ∧ p.tag = tag ∧ p.refused = false)
            ∧ t.hub.sent.getLast? = some reply
            ∧ (what = .page → t.mem = s.mem ∧ t.hub.sent = s.hub.sent ++ [reply])
            ∧ (∀ off n, what = .read off n → t.mem = s.mem
              ∧ t.hub.sent = s.hub.sent ++ [.peerData port page off (s.mem.bytes (pa + off) n), reply])
            ∧ (∀ off bs, what = .write off bs → s.mem.wf = true → ∀ a, t.mem.byte a =
                if pa + off ≤ a ∧ a < pa + off + bs.length then bs.getD (a - (pa + off)) 0 else s.mem.byte a)
            ∧ ∀ off step, what = .atomic off step →
              let old := s.mem.bytes (pa + off) (4 * step.ty.regs)
              t.hub.sent = s.hub.sent ++ [.peerData port page off old, reply]
              ∧ (stepBytes step old = none → t.mem = s.mem)
              ∧ ∀ new, stepBytes step old = some new → s.mem.wf = true → ∀ a, t.mem.byte a =
                  if pa + off ≤ a ∧ a < pa + off + new.length then new.getD (a - (pa + off)) 0 else s.mem.byte a)
      ∧ ((∀ x ∈ s.hub.leases, ¬(x.2.id = id ∧ x.2.gen = gen ∧ (x.2.state = 2 ∨ x.2.state = 3) ∧ x.2.port = port)) →
        ∀ what, exec (.peerTranslationRequest port id gen inc page tag what) s =
          .next ((s.dropAsk port tag).send (.translation port page none s.hub.incarnation)))

/-- Leases at their borrower (R392 to R399): a recall empties the lease and is answered; a confirmed release, or the clearing of a lost entry,
frees the slot; an answer fills the peer translation cache, or under a lease being released only ends its request; an answer with data ends the
request for it, and what waits for it goes on; a refusal, of a page or of data, with the lease's own incarnation loses the lease, unless its
release has been acknowledged (log entry 33), and one with a higher incarnation, and a lender's loss, every lease of the lender; a frozen counter
is posted to the migration queue. -/
def Obligations.BorrowerEvents : Prop :=
  ∀ (s : State) (slot : Nat),
    let b := s.borrow slot
    (b.state = 1 → exec (.bisnpReceived slot) s =
      .next (((s.setBorrow slot { b with state := 2, acked := false }).emptyLease slot).tryAck slot))
    ∧ (b.state = 3 → b.acked = true → ∃ t, exec (.releaseConfirmed slot) s = .next t ∧ t.borrow slot = Borrow.empty ∧ t.mem = s.mem
      ∧ ∀ j, j ≠ slot → t.borrow j = s.borrow j)
    ∧ (b.state = 4 → ∃ t, exec (.borrowEntryClear slot) s = .next t ∧ t.borrow slot = Borrow.empty ∧ t.mem = s.mem
      ∧ ∀ j, j ≠ slot → t.borrow j = s.borrow j)
    ∧ (b.state ≠ 0 → b.state ≠ 4 → ∀ page,
      (∀ p, b.state = 3 → (∃ r ∈ s.hub.reqs, r.what = .page ∧ r.slot = slot ∧ r.page = page) →
        exec (.peerTranslationReply slot page b.inc (some p)) s = .next ((s.endRequest slot page).tryAck slot))
      ∧ (∀ p, b.state ≠ 3 → (∃ r ∈ s.hub.reqs, r.what = .page ∧ r.slot = slot ∧ r.page = page) →
        ∃ t, exec (.peerTranslationReply slot page b.inc (some p)) s = .next t ∧ t.mem = s.mem ∧ t.blocks = s.blocks
          ∧ (∃ e, t.hub.peers.head? = some e ∧ e.slot = slot ∧ e.page = page ∧ e.phys = p ∧ e.inc = b.inc)
          ∧ ∀ r ∈ t.hub.reqs, ¬(r.what = .page ∧ r.slot = slot ∧ r.page = page))
      ∧ (∀ inc, b.inc < inc → exec (.peerTranslationReply slot page inc none) s = .next (s.loseLender b.port))
      ∧ (¬(b.state = 3 ∧ b.acked = true) → exec (.peerTranslationReply slot page b.inc none) s = .next (s.loseBorrow slot))
      ∧ (b.state = 3 → b.acked = true →
        exec (.peerTranslationReply slot page b.inc none) s = .next ((s.endRequest slot page).tryAck slot)))
    ∧ (∀ tag r, s.hub.reqs.find? (fun r => r.tag == tag && r.slot == slot && r.what != .page && !r.lost) = some r →
      ((∀ p off step, r.what ≠ .atomic 5 p off step) → ∀ inc,
        Packet.run s (.dataReply slot tag inc true) = .next ((s.endData r).tryAck slot))
      ∧ (∀ inc, b.inc < inc → Packet.run s (.dataReply slot tag inc false) = .next (s.loseLender b.port))
      ∧ (¬(b.state = 3 ∧ b.acked = true) → Packet.run s (.dataReply slot tag b.inc false) = .next (s.loseBorrow slot)))
    ∧ (∀ port, exec (.lenderLost port) s =
      .next (((s.hub.borrows.filter fun e => e.2.port == port).map (·.1)).foldl State.loseBorrow s))
    ∧ ∀ k e, s.hub.peers[k]? = some e → e.mig = .unposted → s.hub.mig.length < 256 →
      ∃ t, exec (.migrationEventDeferred k) s = .next t ∧ t.hub.peers[k]? = some { e with mig := .posted s.hub.mgNext } ∧ t.mem = s.mem
        ∧ ∃ m, t.hub.mig = s.hub.mig ++ [m] ∧ m.seq = s.hub.mgNext ∧ m.slot = e.slot ∧ m.count = e.count ∧ m.dom = e.dom ∧ m.asn = e.asn

/-- Power, images and cold boot (R292, R359 to R362): the clocks follow the package's power; a hot die is held at 1.0 GHz, and the package halts
above 115 °C; a loss of power leaves in memory what has completed at its device; an accepted image goes to the inactive bank; a confirmed one
advances the rollback counter; a cold boot whose active image verifies starts an empty machine with its stores and devices, and one whose
image does not stays off. -/
def Obligations.PowerEvents : Prop :=
  ∀ (s : State),
    (∀ watts, ∃ t, exec (.powerInterval watts) s = .next t ∧ t.mem = s.mem ∧ t.cores = s.cores ∧ ∀ d < 4, (t.die d).mhz =
      if (s.die d).hot ≠ [] then (s.die d).mhz
      else if 3000 < watts then max 1000 ((s.die d).mhz - 50)
      else if watts < 2900 then min 2200 ((s.die d).mhz + 50)
      else (s.die d).mhz)
    ∧ (∀ die sensor c, die < 4 → sensor < 3 → (115 < c → exec (.thermalTrip die ⟨sensor, c⟩) s = .next (s.haltPackage .off .thermal [die, sensor, c]))
      ∧ (105 < c → c ≤ 115 → sensor ∉ (s.die die).hot →
        ∃ t, exec (.thermalTrip die ⟨sensor, c⟩) s = .next t ∧ (t.die die).hot = (s.die die).hot ++ [sensor] ∧ (t.die die).mhz = 1000 ∧ t.mem = s.mem)
      ∧ (c < 100 → ∃ t, exec (.thermalTrip die ⟨sensor, c⟩) s = .next t ∧ (t.die die).hot = (s.die die).hot.filter (· != sensor)
        ∧ (t.die die).mhz = (s.die die).mhz ∧ t.mem = s.mem))
    ∧ (∃ t, exec .powerLoss s = .next t ∧ t.hub.power = .off ∧ t.hub.persists = [] ∧ t.blocks = s.blocks
      ∧ t.mem = s.hub.durable.foldl (fun (m : Memory) (e : Nat × Byte) => m.setByte e.1 e.2) s.mem)
    ∧ (∀ i, ∃ t, exec (.imageUpdate i) s = .next t ∧ t.mem = s.mem ∧ (s.hub.imageOk i = false → t = s)
      ∧ (s.hub.imageOk i = true → t.hub.pending = true ∧ t.hub.activeB = s.hub.activeB
        ∧ t.hub.bankA = (if s.hub.activeB then some i else s.hub.bankA) ∧ t.hub.bankB = (if s.hub.activeB then s.hub.bankB else some i)))
    ∧ (s.hub.trying = true → s.hub.running.isSome = true → ∃ t, exec .imageConfirm s = .next t ∧ t.hub.trying = false
      ∧ t.hub.rollback = s.hub.rollback + 1 ∧ t.mem = s.mem)
    ∧ (s.hub.power ≠ .on → s.hub.chooseBank.bootOk = false → ∃ t, exec .coldBoot s = .next t ∧ t.hub.power = .off ∧ t.hub.running = none
      ∧ t.blocks = s.blocks ∧ t.mem = s.mem)
    ∧ (s.hub.power ≠ .on → s.hub.chooseBank.bootOk = true → ∃ t, exec .coldBoot s = .next t ∧ t.hub.power = .on ∧ t.blocks = [] ∧ t.cores = [] ∧ t.hub.log = s.hub.log
      ∧ t.hub.store = s.hub.store ∧ t.hub.rollback = s.hub.rollback
      ∧ ∀ a, t.mem.byte a = match placeOf a with
        | .device _ => s.mem.byte a
        | _ => 0)

/-- Warm resets, links, ports and slots (R345, R346, R354, R363 to R365, R385, R405): a die in service is put under reset; its homes refuse
once the others have written back; it is reset, and retrained, or the third failure puts it out of service; it is admitted again with a new
incarnation; a link goes down; a port goes down, or is in service at a rate, 128 GT/s with a Vexdun partner alone; each slot lasts 250 ns, and a written table takes effect at
the end of a frame. -/
def Obligations.ResetEvents : Prop :=
  ∀ (s : State) (d : Nat),
    let w := (s.die d).warm
    (d < 4 → s.resetting = false → w.step = 0 → exec (.warmResetByP d) s = .next (s.startReset d))
    ∧ (s.underReset = some d →
      (w.step = 1 → exec .warmResetWriteBack s = .next ((s.emptyCaches d).endStep d 2 fun e => e.holder == d))
      ∧ (w.step = 2 → ∃ u t, exec .warmResetWriteBack s = .next t ∧ t = u.endStep d 3 (fun e => homeAgent e.pa == d)
        ∧ t.blocks = s.blocks ∧ u.hub.dir.all (fun e => homeAgent (256 * e.1) != d) = true
        ∧ ((∀ e ∈ u.hub.heldEvict, homeAgent e.pa = d → u.refuses e.pa = true) →
          (t.die d).warm = { w with step := 3 } ∧ ∀ a, placeOf a = .hbm d → t.refuses a = true)
        ∧ ((∃ e ∈ u.hub.heldEvict, homeAgent e.pa = d ∧ u.refuses e.pa = false) → t = u))
      ∧ (w.step = 3 → ∀ ok, ∃ t, exec (.warmResetRetrain ok) s = .next t ∧ t.die d = { (s.die d).dieReset with warm := { w with step := 4 } }
        ∧ (t.die d).l2.bytes = [] ∧ (t.die d).incarnation = (s.die d).incarnation ∧ t.mem = s.mem ∧ t.blocks = s.blocks)
      ∧ (w.step = 4 →
        (∃ t, exec (.warmResetRetrain true) s = .next t ∧ (t.die d).warm = { step := 5, tries := 0 } ∧ t.mem = s.mem
          ∧ t.blocks = s.blocks ∧ (t.die d).incarnation = (s.die d).incarnation)
        ∧ ∃ t, exec (.warmResetRetrain false) s = .next t ∧ (t.die d).warm = { step := if w.tries = 2 then 6 else 4, tries := w.tries + 1 }
          ∧ t.mem = s.mem ∧ t.blocks = s.blocks)
      ∧ (w.step = 5 → ∃ t, exec .warmResetReadmit s = .next t ∧ (t.die d).warm.step = 0
        ∧ (t.die d).incarnation = (s.die d).incarnation + 1))
    ∧ (∀ l, l < 8 → l ∉ s.hub.linksDown → exec (.birluxLinkDown l) s = .next ((List.range 4).foldl State.cutOff
        ((s.modHub fun h => { h with linksDown := h.linksDown ++ [l] }).lampLog 4 .linkDown [l])))
    ∧ (∀ p, p < 24 → (∀ q, Sparse.look s.hub.ports p = some q → q.down = false) → ∃ t, exec (.portTrainingFail p) s = .next t
      ∧ Sparse.look t.hub.ports p = some { rate := 0, down := true, vexdun := false, ide := none } ∧ t.mem = s.mem ∧ t.blocks = s.blocks)
    ∧ (∀ p r v, p < 24 → (v = false ∧ 0 < r ∧ r ≤ 64) ∨ (v = true ∧ r = 128) → (∀ q, Sparse.look s.hub.ports p = some q → q.down = true) →
      ∃ t, exec (.portRetrain p ⟨r, v⟩) s = .next t
        ∧ Sparse.look t.hub.ports p = some { rate := r, down := false, vexdun := v, ide := none } ∧ t.mem = s.mem
        ∧ t.blocks = s.blocks)
    ∧ (∃ t, exec .slotBoundary s = .next t ∧ t.hub.time = s.hub.time + 250 ∧ t.hub.slot = (s.hub.slot + 1) % 64 ∧ t.blocks = s.blocks
      ∧ (s.hub.heldEvict = [] → t.mem = s.mem) ∧ (s.hub.slot ≠ 63 → t.hub.slots = s.hub.slots))
    ∧ (s.hub.slot = 63 → ∃ t, exec .slotFrameBoundary s = .next t ∧ t.hub.slot = 0
      ∧ t.hub.slots = s.hub.slotsNext.getD s.hub.slots ∧ t.hub.slotsNext = none ∧ t.blocks = s.blocks
      ∧ (s.hub.heldEvict = [] → t.mem = s.mem))

/-- The pod (R389, R402 to R406): packets of a source are released in sequence order, as the very next events, a duplicate being dropped and none
taken while the buffer is full; heartbeats, elections and votes; refusals by a higher rank; a kernel's manifest and chunks; link states and
drains. -/
def Sys2Proof.Machine.PodMessages : Prop :=
  ∀ (s : State),
    let h := s.hub
    (∀ src r p, Sparse.look h.reorder src = some r →
      (r.held = [] → (h.reorder.map fun e => e.2.held.length).sum < 4096 → ∃ t, exec (.reorderRelease src ⟨r.next, p⟩) s = .next t ∧ t.mem = s.mem ∧ t.agenda = .packet p :: s.agenda
        ∧ Sparse.look t.hub.reorder src = some { next := r.next + 1, held := [] })
      ∧ (∀ seq, (2 ^ 23 ≤ (seq - r.next).toNat ∨ (∃ e ∈ r.held, e.1 = seq) ∨ 4096 ≤ (h.reorder.map fun e => e.2.held.length).sum) → exec (.reorderRelease src ⟨seq, p⟩) s = .next s)
      ∧ ∀ seq, seq ≠ r.next → (seq - r.next).toNat < 2 ^ 23 → (∀ e ∈ r.held, e.1 ≠ seq ∧ e.1 ≠ r.next) →
        (h.reorder.map fun e => e.2.held.length).sum < 4096 →
        ∃ t, exec (.reorderRelease src ⟨seq, p⟩) s = .next t ∧ t.mem = s.mem ∧ t.agenda = s.agenda
          ∧ Sparse.look t.hub.reorder src = some { r with held := r.held ++ [(seq, p)] })
    ∧ (h.role = .beacon → h.heard + 1000000 ≤ h.time → ∃ t, exec .heartbeatSend s = .next t
      ∧ t.hub = { h with heard := h.time, sent := h.sent ++ [.heartbeat h.ownRank] } ∧ t.mem = s.mem)
    ∧ (∀ r n, rankLt h.ownRank r = true → (∃ t, exec (.heartbeatReceived r n) s = .next t ∧ t.hub.role = .follower
        ∧ t.hub.term = r.term ∧ t.hub.heard = h.time ∧ t.mem = s.mem)
      ∧ ∃ t, exec (.fmRefusal r) s = .next t ∧ t.hub.role = .follower ∧ t.hub.term = r.term ∧ t.mem = s.mem)
    ∧ ((h.role = .follower → h.prio ≠ 0 → h.heard + (10 + Config.serial.toNat % 10) * 1000000 ≤ h.time →
        exec .electionTimeout s = .next s.standCount)
      ∧ (h.role = .candidate → h.heard + 10000000 ≤ h.time →
        (h.prio ≠ 0 → exec .candidateTimeout s = .next s.standCount)
        ∧ (h.prio = 0 → exec .candidateTimeout s =
          .next (s.modHub fun h => { h with role := .follower, votes := [], heard := h.time })))
      ∧ s.standCount.hub.term = h.term + 1 ∧ s.standCount.hub.vote = some h.pkgId ∧ (.voteRequest s.stand.hub.ownRank) ∈ s.standCount.hub.sent
      ∧ s.standCount.mem = s.mem)
    ∧ (∀ r n, h.term < r.term → n ∈ h.roster → ∃ t, exec (.voteRequest r n) s = .next t ∧ t.hub.term = r.term ∧ t.hub.vote = some n
      ∧ t.hub.sent = h.sent ++ [.voteGrant r.term n] ∧ t.mem = s.mem)
    ∧ (∀ n, h.role = .candidate → n ∉ h.votes → exec (.voteGrant h.term n) s =
        .next (s.modHub fun h => { h with votes := h.votes ++ [n] }).countVotes)
    ∧ (∀ m,
      (manifestOk m = false ∨ (∃ k, h.staging = some k ∧ k.manifest = m) → exec (.manifestReceived m) s = .next s)
      ∧ ∀ g, manifestOk m = true → (∀ k, h.staging = some k → k.manifest ≠ m) → s.freeRun (stagingGranules m) = some g →
        exec (.manifestReceived m) s = .next (((List.range (stagingGranules m)).foldl (fun u k => u.giveGranule (g + k) 0x10) s).modHub
          fun h => { h with staging := some { manifest := m, base := 65536 * g, got := [] }, ready := false }))
    ∧ (∀ k i bs, h.staging = some k → chunkOk k.manifest i bs = true → bs.length ≤ chunkSize k.manifest →
      let k' : Staging := { k with got := Sparse.put k.got i bs.length }
      let u := s.homeWrite (k.base + i * chunkSize k.manifest) bs false
      exec (.chunkReceived i bs) s = .next (if k'.full = false then u.modHub fun h => { h with staging := some k' }
        else if u.hub.running = none then u.activate k'
        else u.modHub fun h => { h with staging := some k', ready := true }))
    ∧ (∀ n, exec (.chunkBitmapRead ⟨n, none⟩) s = .next (s.send (.bitmap n (match h.staging with
        | some k => k.got.keys
        | none => [])))
      ∧ ∀ got, h.role = .beacon → exec (.chunkBitmapRead ⟨n, some got⟩) s = .next (s.multicast fun i => !got.contains i))
    ∧ (∀ a b seq, (∀ l ∈ h.links, l.a = a → l.b = b → l.seq < seq) → ∃ t, exec (.linkStateUpdate a b true seq) s = .next t
      ∧ t.hub.links.head? = some { a := a, b := b, live := true, seq := seq } ∧ t.mem = s.mem ∧ t.blocks = s.blocks)
    ∧ (∀ link refused, exec (.drainRound ⟨link, refused⟩) s =
        .next ((h.reqs.filter fun r => !r.lost && r.drain.any fun d => d.1 == link).foldl (fun u r => u.drainReq refused r) s))
    ∧ (∀ refused r l k, r.drain = some (l, k) →
      let put (x : FabricReq) : State := s.modHub fun h => { h with reqs := h.reqs.map fun y => if y.tag == r.tag then x else y }
      (k < 4 → k = 0 ∨ r.since + 10000 ≤ h.time →
        s.drainReq refused r = (put { r with drain := some (l, k + 1), since := h.time }).send (.probe r.dest (k + 1) [r.tag]))
      ∧ (4 ≤ k → r.since + 10000 ≤ h.time →
        (s.pathLeft = false → s.drainReq refused r = put { r with drain := none, lost := true })
        ∧ (s.pathLeft = true → r.tag ∈ refused → s.drainReq refused r = s.resend r))
      ∧ (k ≠ 0 → h.time < r.since + 10000 → s.drainReq refused r = s))
    ∧ (∀ n tags, ∃ t ys, exec (.drainProbe n 4 tags) s = .next t ∧ t.hub.performed = h.performed ++ ys ∧ t.mem = s.mem
      ∧ (∀ g ∈ tags, ∃ p ∈ t.hub.performed, p.source = n ∧ p.tag = g)
      ∧ ∀ p ∈ h.performed, p.source = n → p.tag ∈ tags → p.refused = false → h.time ≤ p.time + 50000 → ∀ y ∈ p.answer, y ∈ t.hub.sent)

/-- The configuration space (R279, R314, R347, R348, R355, R356, R358, R370, R374, R379, R386, R399, R402, R404): the registers that the package
kernel and the Lamplighter write; a byte that P writes where it may reach it, on a coherent page at one point for every agent and
otherwise at its home and then at every other agent; what a beacon alone sends; SPDM, whose attestation is signed with the identity key. -/
def Sys2Proof.Machine.ConfigurationWrites : Prop :=
  ∀ (s : State),
    (∀ p v n, exec (.configWrite (.prio p)) s = .next (s.modHub fun h => { h with prio := .ofNat 8 p })
      ∧ exec (.configWrite (.migthr v)) s = .next (s.modHub fun h => { h with migthr := v.toNat })
      ∧ exec (.configWrite (.bankthr n)) s = .next (s.modHub fun h => { h with bankthr := n }))
    ∧ (∀ d m, d < 4 → exec (.configWrite (.svcdom d m)) s = .next (s.modDie d fun x => { x with svcdom := m }))
    ∧ (∀ q c, q < 64 → exec (.configWrite (.queue q c)) s =
        .next (s.modQueue q fun k => { k with cfg := { QueueCfg.trim c with en := c.en && k.cfg.en } }))
    ∧ (∀ d q o, d < 4 → q < 32 → exec (.configWrite (.workQueue d q o)) s = .next (s.modWq d q fun k => { k with owner := o }))
    ∧ (∀ c a n, c < 192 → exec (.configWrite (.journal c a n)) s = .next (s.modCore c fun k => { k with jrnbase := a, jrnsize := n }))
    ∧ (∀ pa b, s.kernelReach pa = true →
      exec (.configWrite (.memory pa b true)) s = .next ((s.cohere 5 pa true).coherentStore 5 pa [b] [])
      ∧ exec (.configWrite (.memory pa b false)) s = .next (s.sendHome 5 pa [b] true []))
    ∧ (∀ pa b c, s.kernelReach pa = false → exec (.configWrite (.memory pa b c)) s = .next s)
    ∧ (∀ f c, exec (.configWrite (.fmCommand f c)) s = .next (if s.hub.role = .beacon then s.send (.fm s.hub.ownRank f c) else s))
    ∧ (∀ r, exec (.spdmMessage (.attest r)) s = .next (s.drawSalt.1.send (.attestation (Config.spdmAnswer r
        ++ Crypto.pssSign Config.identityModulus Config.identityExponent s.drawSalt.2 (Config.spdmAnswer r)))))
    ∧ ∀ d k, d < 16 → exec (.spdmMessage (.transport d k)) s =
      .next (s.modHub fun h => { h with transport := Sparse.put h.transport d (Config.transportKey k) })

/-- The pod, and the configuration space. The parts name their rules. -/
def Obligations.PodEvents : Prop := Machine.PodMessages ∧ Machine.ConfigurationWrites

/-! ### What the instructions that stay inside a core leave alone -/

/-- The instructions that wait, regroup, trap, reach scratchpad, work on barriers, rings, copies, operand buffers and accumulators, or on
the supervisor's registers: operands, registers of the destination, whether it raises numeric flags, and whether it works on tiles. -/
def Sys2Proof.Machine.coreLocal : Instr → Option (Opnds × Nat × Bool × Bool)
  | .bra x | .brx x | .ret x | .exit x | .jenr x | .jenrSet x | .jpark x | .jstrike x | .jstrikeAll x => some (x, 0, false, false)
  | .call x => some (x, 2, false, false)
  | .reform x | .brd x | .yield x | .nap x | .trap x _ | .brk x => some (x, 0, false, false)
  | .lds x w _ => some (x, w.regs, false, false)
  | .sts x _ _ => some (x, 0, false, false)
  | .atoms x t _ => some (x, t.regs, true, false)
  | .ldsRem x w _ _ _ => some (x, w.regs, false, false)
  | .stsRem x _ _ _ _ => some (x, 0, false, false)
  | .bbind x _ _ | .bunbind x _ | .barr x _ | .barrb x _ | .bwait x _ | .bblk x | .bexp x _ _ _ => some (x, 0, false, false)
  | .btest x _ | .bwaitt x _ => some (x, 1, false, false)
  | .ringBind x _ _ | .ringPut x _ | .ringRel x _ => some (x, 0, false, false)
  | .ringAcq x _ | .ringGet x _ => some (x, 1, false, false)
  | .cpy x _ _ _ | .cpyX x _ _ _ | .cpyC x _ _ _ => some (x, 0, false, false)
  | .scbdWait x | .bkWait x => some (x, 1, false, false)
  | .obres x _ | .obrel x _ | .obld x _ | .obldX x _ => some (x, 0, false, false)
  | .mma x _ _ _ | .mmas x _ _ _ _ | .accLd x _ _ _ | .accRenorm x _ | .accScale x _ => some (x, 0, true, true)
  | .accZero x _ _ | .accTmask x _ | .accMode x _ => some (x, 0, false, true)
  | .accSt x _ _ _ _ => some (x, 0, true, false)
  | .accRmax x _ _ => some (x, 1, true, false)
  | .sysrd x r => some (x, sysRegs r, false, false)
  | .oplogRd x _ _ => some (x, 1, false, false)
  | .syswr x _ | .presig x | .tret x | .tretNext x | .tretStrike x => some (x, 0, false, false)
  | _ => none

/-- What the instructions above leave alone, in whichever way they end, a lane fault and a wait among them (R17, R69, R75, R161, R204):
every byte of memory and of every L2; every v, p and s register and every format register of every thread and home bundle of every
block, but the destination in the executing lanes; the flags of every other lane, and of all of them where the instruction raises none;
every accumulator and operand buffer but under the instructions that work on tiles. -/
def Obligations.InstructionFrames : Prop :=
  ∀ (s : State) (i : Instr) (x : Opnds) (n : Nat) (fl mx : Bool),
    coreLocal i = some (x, n, fl, mx) → s.ready i = true → s.cb.state.issues = true →
      ∃ t, exec i s = .next t ∧ s.leaves (s.touch x n fl mx) t

/-! ### Encodings, steps, reset and invariants -/

/-- ENCODING AND DECODING AGREE (R13 to R26): a well-formed instruction has a word of 8, 12 or 16 bytes, as its form says, and the decoder
reads the instruction back from it, whatever bytes follow. -/
def Obligations.DecodeInvertsEncode : Prop :=
  ∀ (i : Instr) (rest : List Byte), i.wf = true →
    ∃ bs x, encode i = some bs ∧ i.opnds? = some x ∧ bs.length = x.ext.bytes ∧ decode (bs ++ rest) = .ok i

/-- What the decoder accepts is well formed, and is the one encoding of the instruction it answers: no bit of it is dropped (R13 to
R28). -/
def Obligations.EncodeInvertsDecode : Prop :=
  ∀ (i : Instr) (bs : List Byte), 16 ≤ bs.length → decode bs = .ok i →
    i.wf = true ∧ ∃ x, i.opnds? = some x ∧ encode i = some (bs.take x.ext.bytes)

/-- THE FIELDS OF AN INSTRUCTION (R13, R17): bits [1:0] of an encoding are `len`, [9:2] the opcode, [12:10] and [13] the guard's predicate and
negation, [22:14] the destination, [32:23], [42:33] and [52:43] the sources, [63:53] `fn`; `len` = 0b11 is ILLEGAL_LEN. Every value of
the destination field names what R17's table says, and a value of 0x150 to 0x1FE is ILLEGAL_OPERAND in every instruction whose opcode,
`fn` and length are legal. The integer type codes and the inline constants are those of the tables of R77 and R24. -/
def Obligations.FieldEncodings : Prop :=
  (∀ (i : Instr) (x : Opnds) (op fn : Nat) (bs : List Byte), i.wf = true → encode i = some bs → i.opnds? = some x → i.opFn = some (op, fn) →
    let w := leNat bs
    field w 0 2 = x.ext.len ∧ field w 2 8 = op ∧ field w 10 3 = x.g.p.toNat ∧ field w 13 1 = bitOf x.g.neg ∧ field w 14 9 = x.d.code
    ∧ field w 23 10 = x.a.code ∧ field w 33 10 = x.b.code ∧ field w 43 10 = x.c.code ∧ field w 53 11 = fn)
  ∧ (∀ (b : Byte) (bs : List Byte), b.toNat % 4 = 3 → decode (b :: bs) = .illegalLen)
  ∧ (∀ n < 512, dstOf n =
      if n ≤ 0xFF then some (.v (.ofNat 8 n))
      else if n ≤ 0x13F then some (.s (.ofNat 6 (n - 0x100)))
      else if n ≤ 0x147 then some (.p (.ofNat 3 (n - 0x140)))
      else if n ≤ 0x14F then some (.j (.ofNat 3 (n - 0x148)))
      else if n ≤ 0x1FE then none
      else some .discard)
  ∧ (∀ (r : Raw) (i : Instr), 0x150 ≤ r.dst → r.dst ≤ 0x1FE → parse r.op r.fn r.lax = some i → i.formOk = true →
      r.decode = .illegalOperand r.op)
  ∧ (List.range 16).map ityOf = [some .s32, some .n32, some .s64, some .n64, some .s16, some .n16, some .s8, some .n8, some .b32, some .b64,
      some .b128, none, none, none, none, none]
  ∧ (∀ k : BitVec 6, srcOf (0x200 + k.toNat) = some (.inline k))
  ∧ (∀ k ≤ 48, inlineBits (.int 32 true) k = if k ≤ 32 then k else 2 ^ 32 - (k - 32))
  ∧ (List.range 15).map (fun k => inlineBits (.fp .f32) (49 + k)) = [0x3F000000, 0x3E800000, 0x3E000000, 0x3D800000, 0x3EAAAAAB,
      0x3E4CCCCD, 0x3E2AAAAB, 0x3E124925, 0x3B808081, 0x3FB8AA3B, 0x3F317218, 0x40490FDB, 0x3EA2F983, 0x3F3504F3, 0x7F800000]

/-- Words written out from the spec's encodings decode to what they stand for (R13, R17, R19, R21): `iadd.n32.sat v5, v6, s7` under `?!p2`;
the manual's own words for `barr b3`, `wq.pull p1, s8, 3`, `mma.k16.n5 a0, o0, o1, 0, 0` and `fault.rd.take s8`; a branch with its
displacement; and the word of zeros, whose operands `nop` does not take (R27). -/
def Obligations.SanityWords : Prop :=
  let g7 : Guard := { neg := false, p := 7 }
  decode [0x04, 0x68, 0x01, 0x03, 0x0E, 0xFA, 0x2F, 0x02] =
      .ok (.iadd { g := { neg := true, p := 2 }, ext := .e64, d := .v 5, a := .v 6, b := .s 7, c := .null } .n32 true)
    ∧ decode [0x48, 0xDE, 0xFF, 0xFF, 0xFE, 0xFB, 0x6F, 0x00] =
      .ok (.barr { g := g7, ext := .e64, d := .discard, a := .null, b := .null, c := .null } 3)
    ∧ decode [0x50, 0x1F, 0xC2, 0xFF, 0xFE, 0xFB, 0x6F, 0x08] =
      .ok (.wqPull { g := g7, ext := .e64, d := .s 8, a := .null, b := .null, c := .null } 3 false 1)
    ∧ decode [0x0E, 0xDF, 0x7F, 0x00, 0x01, 0xFC, 0x0F, 0x02, 0x04, 0, 0, 0, 0, 0, 0, 0] =
      .ok (.mma { g := g7, ext := .e128 4 0, d := .discard, a := .inline 0, b := .inline 0, c := .null } 0 0 1)
    ∧ decode [0xD4, 0x1F, 0x42, 0x00, 0xFF, 0xFB, 0x2F, 0x00] =
      .ok (.faultRdTake { g := g7, ext := .e64, d := .s 8, a := .inline 0, b := .null, c := .null })
    ∧ decode [0x81, 0xDD, 0xFF, 0xFF, 0xFE, 0xFB, 0x0F, 0x00, 0xF4, 0xFF, 0xFF, 0xFF] =
      .ok (.bra { g := g7, ext := .e96 0xFFFFFFF4, d := .discard, a := .null, b := .null, c := .null })
    ∧ decode [0, 0, 0, 0, 0, 0, 0, 0] = .illegalOperand 0

/-- A STEP RUNS THE DECODED INSTRUCTION (R13, R112, R126, R127): when a partition issues and the bytes at the program counter of the subset that
it tries first decode to an instruction, the step is that instruction's execution, followed by what the running machine keeps of the
choices beside it; a subset that turns out to wait on the scoreboard or on an engine is passed over; in a block with two copies leader
and trailer each run it (R143). An event on the agenda happens, in the next clock where every partition with a ready bundle has issued in
this one; what the hardware promises to have done by now comes before all else (R137). -/
def Obligations.StepRunsDecoded : Prop :=
  (∀ (s u w : State) (c q n : Nat) (i : Instr) (x : Try) (rest : List Try) (e : ILine),
    s.nextMove = (u, .issue c q) → u.hub.power = .on →
    let r := beginIssue c q [] u
    let v := r.choose c x
    r.tries c q [] = x :: rest → r.stillReady c x = true → v.staleHere = false →
    (∀ t ∈ v.sel.act, (v.cb.thr t).wait.fenceScope = none) → canonical v.sel.pc = true → v.sel.pc.toNat % 4 = 0 →
    v.fetchPage = (w, .ok e) → lenBytes (leNat (e.code v.sel.pc.toNat 1) % 4) = some n → v.sel.pc.toNat % 32 + n ≤ 32 →
    decode (e.code v.sel.pc.toNat n) = .ok i →
    ∀ a, (w.cb.trail = none ∧ exec i w = .next a) ∨ (w.cb.trail.isSome = true ∧ runGlow i w = .next a) →
      let t := a.follow w (some w.sel.blk)
      (t.sel.stalled = false → step s = .next t) ∧ (t.sel.stalled = true → step s = runTries c [] rest t))
  ∧ (∀ (s u : State) (e : Instr), s.nextMove = (u, .event e) → e.opFn = none → u.hub.power = .on ∨ e.unpowered = true →
      let v := if u.roundDone then u.newClock else u
      step s = mapNext (fun a => a.follow v none) (exec e v))
  ∧ ∀ (s : State), (∀ m rest, s.agenda = m :: rest → s.before m = none → s.nextMove = ({ s with agenda := rest }, m))
    ∧ ∀ e, s.overdue = some e → (∀ m rest, s.agenda = m :: rest → m ≠ .event e) → s.nextMove = (s, .event e)

/-- ENCODING TRAPS, in the order of R29 (R28 to R31, R59, R126): a program counter that is no multiple of 4, `len` = 0b11, a crossing of the
fetch block, an illegal opcode, a role that does not permit the class (ILLEGAL_ROLE, 0x6: R126), an illegal operand, an illegal format
register. Each is raised in every active lane, whatever the guard, with its cause, and goes to the launch's policy as every lane fault
does; the issue is counted (R209), and executing the decoded instruction has no other effect. An instruction that may not issue in a fault
shadow waits there instead (R266). -/
def Obligations.EncodingTraps : Prop :=
  (∀ (s : State), canonical s.sel.pc = true →
    (s.sel.pc.toNat % 4 ≠ 0 → (s.fetchNow).2 =
      .stop (((s.countIssue 1).fault 4 (s.sel.act.map fun t => (t, { cause := 4, addr := s.sel.pc }))).settle s.sel.blk))
    ∧ ∀ w e, s.sel.pc.toNat % 4 = 0 → s.fetchPage = (w, .ok e) →
      let trap (op len cause : Nat) : State × Fetched :=
        (w, .stop (if w.pendingLog ≠ [] ∧ opInShadow op = false then w.noIssue else (w.countIssue 1).trapAll len cause))
      let op := leNat (e.code s.sel.pc.toNat 2) / 4 % 256
      (leNat (e.code s.sel.pc.toNat 1) % 4 = 3 → s.fetchNow = trap op 4 3)
      ∧ ∀ n, lenBytes (leNat (e.code s.sel.pc.toNat 1) % 4) = some n →
        (32 < s.sel.pc.toNat % 32 + n → s.fetchNow = trap op n 4)
        ∧ (s.sel.pc.toNat % 32 + n ≤ 32 →
          (decode (e.code s.sel.pc.toNat n) = .illegalOpcode → s.fetchNow = trap op n 1)
          ∧ ∀ op, decode (e.code s.sel.pc.toNat n) = .illegalOperand op →
            s.fetchNow = trap op n (if w.roleOk op then 2 else 6)))
  ∧ ∀ (s : State) (i : Instr) (x : Opnds), i.opnds? = some x → s.sel.act ≠ [] → s.pendingLog = [] →
    s.pendingScalars.any (fun e => e.blocks i x) = false → (i.mayFault = true → s.logFull = false) →
    (s.roleOk i.opcode = false → exec i s = .next (s.begun.trapAll x.ext.bytes 6))
    ∧ (s.roleOk i.opcode = true → s.launchOk i x = false → exec i s = .next (s.begun.trapAll x.ext.bytes 2))
    ∧ (s.roleOk i.opcode = true → s.launchOk i x = true → i.format?.any (fun f => !(Nf.fmtOf (s.freg f)).legal) = true →
      exec i s = .next (s.begun.trapAll x.ext.bytes 5))

/-- AFTER RESET (R46, R121, R279, R314, R351, R354, R362, R395, R414): no block is resident and every queue is disabled; every granule is free but the
reserved ones; every slot belongs to the package kernel; package time is 0; the tables are empty; a die's counts restart, its fault
records begin at 1 and it runs at 2.2 GHz; a thread starts running at its entry. Memory is in its canonical form. -/
def Obligations.ResetValues : Prop :=
  let s := State.reset
  s.mem.wf = true ∧ s.blocks = [] ∧ (∀ q, (s.queue q).cfg.en = false)
  ∧ (∀ g, s.granuleOwner g = if 2 ^ 42 - 2 ^ 26 ≤ 65536 * g ∧ 65536 * g < 2 ^ 42 then 0x14 else 0x12)
  ∧ s.hub.slots = List.replicate 64 16 ∧ s.hub.time = 0
  ∧ (∀ k, (s.lease k).state = 0) ∧ (∀ k, (s.borrow k).state = 0 ∧ (s.borrow k).expiry = none) ∧ s.hub.mgNext = 1 ∧ s.hub.mig = []
  ∧ (∀ d, (s.die d).clk = 0 ∧ (s.die d).mhz = 2200 ∧ (s.die d).fbNext = 1 ∧ (s.die d).overflow = 0 ∧ (s.die d).fb = []
      ∧ (s.die d).svcdom = 0 ∧ ∀ q, (s.wq d q).items = [] ∧ (s.wq d q).closed = false)
  ∧ (∀ c, (s.core c).specdrop = 0 ∧ (s.core c).scratch.counter 0 = 0 ∧ ∀ w, (s.core c).scratch.raw w = 0)
  ∧ (∀ d, (s.die d).dieReset.clk = 0 ∧ (s.die d).dieReset.fbNext = 1 ∧ (s.die d).dieReset.overflow = 0)
  ∧ (∀ p t i, ((s.part p).ob i).state = .free ∧ s.accRow t i = AccRow.reset)
  ∧ ∀ pc, (Thread.start pc).pc = pc ∧ (Thread.start pc).status = .running ∧ (Thread.start pc).nflags = 0 ∧ (Thread.start pc).level = 0

/-- MEMORY KEEPS ITS CANONICAL FORM: from every state whose memory lists addresses in rising order and no byte that reads as the default, a
step leads to a state whose memory does (R6, R347). -/
def Obligations.MemoryStaysCanonical : Prop :=
  ∀ (s t : State), s.mem.wf = true → step s = .next t → t.mem.wf = true
end

