-- ==== Sys2Proof/Laws/Sparse.lean ====
section
/-! SUPPORT. Laws/Sparse.lean: read after write for the sparse tables, and that writing keeps their form. -/

namespace Sys2Proof

variable {α : Type}

@[simp] theorem Sparse.look_nil (k : Nat) : Sparse.look ([] : Sparse α) k = none := rfl

@[simp] theorem Sparse.getOr_nil (k : Nat) (d : α) : Sparse.getOr ([] : Sparse α) k d = d := rfl

@[simp] theorem Sparse.look_put_same (m : Sparse α) (k : Nat) (v : α) : Sparse.look (Sparse.put m k v) k = some v := by
  induction m with
  | nil => simp [Sparse.put, Sparse.look]
  | cons e r ih =>
    obtain ⟨a, w⟩ := e
    simp only [Sparse.put]
    split
    · simp [Sparse.look, *]
    · split <;> simp [Sparse.look, *]

theorem Sparse.look_put_ne (m : Sparse α) {j k : Nat} (h : j ≠ k) (v : α) :
    Sparse.look (Sparse.put m k v) j = Sparse.look m j := by
  induction m with
  | nil => simp [Sparse.put, Sparse.look, h]
  | cons e r ih =>
    obtain ⟨a, w⟩ := e
    simp only [Sparse.put]
    split
    · subst_vars; simp [Sparse.look, h]
    · split <;> simp [Sparse.look, h, ih]

theorem Sparse.look_put (m : Sparse α) (j k : Nat) (v : α) :
    Sparse.look (Sparse.put m k v) j = if j = k then some v else Sparse.look m j := by
  split
  · subst_vars; simp
  · exact Sparse.look_put_ne m ‹_› v

@[simp] theorem Sparse.look_del_same (m : Sparse α) (k : Nat) : Sparse.look (Sparse.del m k) k = none := by
  induction m with
  | nil => rfl
  | cons e r ih =>
    obtain ⟨a, w⟩ := e
    simp only [Sparse.del]
    split
    · subst_vars; exact ih
    · simp [Sparse.look, *]

theorem Sparse.look_del_ne (m : Sparse α) {j k : Nat} (h : j ≠ k) : Sparse.look (Sparse.del m k) j = Sparse.look m j := by
  induction m with
  | nil => rfl
  | cons e r ih =>
    obtain ⟨a, w⟩ := e
    simp only [Sparse.del]
    split
    · subst_vars; simp [Sparse.look, h, ih]
    · simp [Sparse.look, ih]

@[simp] theorem Sparse.getOr_put_same (m : Sparse α) (k : Nat) (v d : α) : Sparse.getOr (Sparse.put m k v) k d = v := by
  simp [Sparse.getOr]

theorem Sparse.getOr_put_ne (m : Sparse α) {j k : Nat} (h : j ≠ k) (v d : α) :
    Sparse.getOr (Sparse.put m k v) j d = Sparse.getOr m j d := by simp [Sparse.getOr, Sparse.look_put_ne m h]

@[simp] theorem Sparse.getOr_putOr_same [DecidableEq α] (m : Sparse α) (k : Nat) (v d : α) :
    Sparse.getOr (Sparse.putOr m k v d) k d = v := by
  unfold Sparse.putOr
  split <;> simp [Sparse.getOr, *]

theorem Sparse.getOr_putOr_ne [DecidableEq α] (m : Sparse α) {j k : Nat} (h : j ≠ k) (v d : α) :
    Sparse.getOr (Sparse.putOr m k v d) j d = Sparse.getOr m j d := by
  unfold Sparse.putOr
  split <;> simp [Sparse.getOr, Sparse.look_put_ne m h, Sparse.look_del_ne m h]

theorem Sparse.getOr_putOr [DecidableEq α] (m : Sparse α) (j k : Nat) (v d : α) :
    Sparse.getOr (Sparse.putOr m k v d) j d = if j = k then v else Sparse.getOr m j d := by
  split
  · subst_vars; simp
  · exact Sparse.getOr_putOr_ne m ‹_› v d

/-! ### The canonical form -/

/-- The form as a chain: what every proof about it uses. -/
theorem Sparse.sorted_iff (m : Sparse α) : Sparse.sorted m = true ↔ (m.map (·.1)).IsChain (· < ·) := by
  have key : ∀ (r : Sparse α) (lo : Nat), Sparse.above lo r = true ↔ (lo :: r.map (·.1)).IsChain (· < ·) := by
    intro r
    induction r with
    | nil => intro lo; simp [Sparse.above]
    | cons e r ih => intro lo; obtain ⟨a, w⟩ := e; simp [Sparse.above, ih]
  cases m with
  | nil => simp [Sparse.sorted]
  | cons e r => obtain ⟨a, w⟩ := e; simp [Sparse.sorted, key]

theorem Sparse.sorted_iff_pairwise (m : Sparse α) :
    Sparse.sorted m = true ↔ m.Pairwise fun x y => x.1 < y.1 := by
  rw [Sparse.sorted_iff, List.isChain_iff_pairwise, List.pairwise_map]

theorem Sparse.mem_put {m : Sparse α} {k : Nat} {v : α} {e : Nat × α} (h : e ∈ Sparse.put m k v) : e = (k, v) ∨ e ∈ m := by
  induction m with
  | nil => simpa [Sparse.put] using h
  | cons x r ih =>
    obtain ⟨a, w⟩ := x
    simp only [Sparse.put] at h
    split at h
    · subst_vars; simp at h ⊢; tauto
    · split at h <;> simp at h ⊢ <;> tauto

theorem Sparse.del_eq_filter (m : Sparse α) (k : Nat) : Sparse.del m k = m.filter fun e => e.1 != k := by
  induction m with
  | nil => rfl
  | cons x r ih =>
    obtain ⟨a, w⟩ := x
    simp only [Sparse.del]
    split
    · subst_vars; simp [ih]
    · have : a ≠ k := fun h => ‹¬k = a› h.symm
      simp [this, ih]

theorem Sparse.sorted_put {m : Sparse α} (h : Sparse.sorted m = true) (k : Nat) (v : α) :
    Sparse.sorted (Sparse.put m k v) = true := by
  rw [Sparse.sorted_iff_pairwise] at h ⊢
  induction m with
  | nil => simp [Sparse.put]
  | cons x r ih =>
    obtain ⟨a, w⟩ := x
    obtain ⟨h1, h2⟩ := List.pairwise_cons.1 h
    simp only [Sparse.put]
    split
    · subst_vars; exact List.pairwise_cons.2 ⟨h1, h2⟩
    · split
      · refine List.pairwise_cons.2 ⟨fun e he => ?_, h⟩
        rcases List.mem_cons.1 he with rfl | he
        · assumption
        · exact Nat.lt_trans ‹_› (h1 e he)
      · refine List.pairwise_cons.2 ⟨fun e he => ?_, ih h2⟩
        rcases Sparse.mem_put he with rfl | he
        · show a < k; omega
        · exact h1 e he

theorem Sparse.sorted_filter {m : Sparse α} (h : Sparse.sorted m = true) (p : Nat × α → Bool) :
    Sparse.sorted (m.filter p) = true := by
  rw [Sparse.sorted_iff_pairwise] at h ⊢
  exact h.filter p

theorem Sparse.canon_putOr [DecidableEq α] {d : α} {m : Sparse α} (h : Sparse.canon d m = true) (k : Nat) (v : α) :
    Sparse.canon d (Sparse.putOr m k v d) = true := by
  simp only [Sparse.canon, Bool.and_eq_true, List.all_eq_true, decide_eq_true_eq] at h ⊢
  unfold Sparse.putOr
  split
  · rw [Sparse.del_eq_filter]
    exact ⟨Sparse.sorted_filter h.1 _, fun e he => h.2 e (List.mem_filter.1 he).1⟩
  · refine ⟨Sparse.sorted_put h.1 _ _, fun e he => ?_⟩
    rcases Sparse.mem_put he with rfl | he
    · assumption
    · exact h.2 e he

theorem Sparse.canon_filter [DecidableEq α] {d : α} {m : Sparse α} (h : Sparse.canon d m = true) (p : Nat × α → Bool) :
    Sparse.canon d (m.filter p) = true := by
  simp only [Sparse.canon, Bool.and_eq_true, List.all_eq_true, decide_eq_true_eq] at h ⊢
  exact ⟨Sparse.sorted_filter h.1 _, fun e he => h.2 e (List.mem_filter.1 he).1⟩

@[simp] theorem Sparse.canon_nil [DecidableEq α] (d : α) : Sparse.canon d ([] : Sparse α) = true := rfl

end Sys2Proof
end

