-- ==== Sys2Proof/Laws/State.lean ====
section
/-! SUPPORT. Laws/State.lean: what each update of a part of the state leaves alone, and that a part reads as it was written. -/

namespace Sys2Proof.Machine

namespace State

variable (s : State)

/-! ### Fields that an update leaves alone -/

@[simp] theorem modBlk_sel (n : Nat) (f : Block → Block) : (s.modBlk n f).sel = s.sel := rfl
@[simp] theorem modBlk_blockNext (n : Nat) (f : Block → Block) : (s.modBlk n f).blockNext = s.blockNext := rfl
@[simp] theorem modBlk_cores (n : Nat) (f : Block → Block) : (s.modBlk n f).cores = s.cores := rfl
@[simp] theorem modBlk_parts (n : Nat) (f : Block → Block) : (s.modBlk n f).parts = s.parts := rfl
@[simp] theorem modBlk_clusters (n : Nat) (f : Block → Block) : (s.modBlk n f).clusters = s.clusters := rfl
@[simp] theorem modBlk_dies (n : Nat) (f : Block → Block) : (s.modBlk n f).dies = s.dies := rfl
@[simp] theorem modBlk_hub (n : Nat) (f : Block → Block) : (s.modBlk n f).hub = s.hub := rfl
@[simp] theorem modBlk_mem (n : Nat) (f : Block → Block) : (s.modBlk n f).mem = s.mem := rfl
@[simp] theorem modBlk_poison (n : Nat) (f : Block → Block) : (s.modBlk n f).poison = s.poison := rfl
@[simp] theorem modBlk_grids (n : Nat) (f : Block → Block) : (s.modBlk n f).grids = s.grids := rfl
@[simp] theorem modBlk_gridNext (n : Nat) (f : Block → Block) : (s.modBlk n f).gridNext = s.gridNext := rfl
@[simp] theorem modBlk_agenda (n : Nat) (f : Block → Block) : (s.modBlk n f).agenda = s.agenda := rfl
@[simp] theorem modBlk_evTurn (n : Nat) (f : Block → Block) : (s.modBlk n f).evTurn = s.evTurn := rfl
@[simp] theorem modBlk_evNext (n : Nat) (f : Block → Block) : (s.modBlk n f).evNext = s.evNext := rfl
@[simp] theorem modBlk_clocked (n : Nat) (f : Block → Block) : (s.modBlk n f).clocked = s.clocked := rfl
@[simp] theorem modBlk_nextFree (n : Nat) (f : Block → Block) : (s.modBlk n f).nextFree = s.nextFree := rfl

@[simp] theorem modCore_sel (c : Nat) (f : Core → Core) : (s.modCore c f).sel = s.sel := rfl
@[simp] theorem modCore_blocks (c : Nat) (f : Core → Core) : (s.modCore c f).blocks = s.blocks := rfl
@[simp] theorem modCore_blockNext (c : Nat) (f : Core → Core) : (s.modCore c f).blockNext = s.blockNext := rfl
@[simp] theorem modCore_parts (c : Nat) (f : Core → Core) : (s.modCore c f).parts = s.parts := rfl
@[simp] theorem modCore_clusters (c : Nat) (f : Core → Core) : (s.modCore c f).clusters = s.clusters := rfl
@[simp] theorem modCore_dies (c : Nat) (f : Core → Core) : (s.modCore c f).dies = s.dies := rfl
@[simp] theorem modCore_hub (c : Nat) (f : Core → Core) : (s.modCore c f).hub = s.hub := rfl
@[simp] theorem modCore_mem (c : Nat) (f : Core → Core) : (s.modCore c f).mem = s.mem := rfl
@[simp] theorem modCore_poison (c : Nat) (f : Core → Core) : (s.modCore c f).poison = s.poison := rfl
@[simp] theorem modCore_grids (c : Nat) (f : Core → Core) : (s.modCore c f).grids = s.grids := rfl
@[simp] theorem modCore_gridNext (c : Nat) (f : Core → Core) : (s.modCore c f).gridNext = s.gridNext := rfl
@[simp] theorem modCore_agenda (c : Nat) (f : Core → Core) : (s.modCore c f).agenda = s.agenda := rfl
@[simp] theorem modCore_evTurn (c : Nat) (f : Core → Core) : (s.modCore c f).evTurn = s.evTurn := rfl
@[simp] theorem modCore_evNext (c : Nat) (f : Core → Core) : (s.modCore c f).evNext = s.evNext := rfl
@[simp] theorem modCore_clocked (c : Nat) (f : Core → Core) : (s.modCore c f).clocked = s.clocked := rfl
@[simp] theorem modCore_nextFree (c : Nat) (f : Core → Core) : (s.modCore c f).nextFree = s.nextFree := rfl

@[simp] theorem modPart_sel (p : Nat) (f : Partition → Partition) : (s.modPart p f).sel = s.sel := rfl
@[simp] theorem modPart_blocks (p : Nat) (f : Partition → Partition) : (s.modPart p f).blocks = s.blocks := rfl
@[simp] theorem modPart_blockNext (p : Nat) (f : Partition → Partition) : (s.modPart p f).blockNext = s.blockNext := rfl
@[simp] theorem modPart_cores (p : Nat) (f : Partition → Partition) : (s.modPart p f).cores = s.cores := rfl
@[simp] theorem modPart_clusters (p : Nat) (f : Partition → Partition) : (s.modPart p f).clusters = s.clusters := rfl
@[simp] theorem modPart_dies (p : Nat) (f : Partition → Partition) : (s.modPart p f).dies = s.dies := rfl
@[simp] theorem modPart_hub (p : Nat) (f : Partition → Partition) : (s.modPart p f).hub = s.hub := rfl
@[simp] theorem modPart_mem (p : Nat) (f : Partition → Partition) : (s.modPart p f).mem = s.mem := rfl
@[simp] theorem modPart_poison (p : Nat) (f : Partition → Partition) : (s.modPart p f).poison = s.poison := rfl
@[simp] theorem modPart_grids (p : Nat) (f : Partition → Partition) : (s.modPart p f).grids = s.grids := rfl
@[simp] theorem modPart_gridNext (p : Nat) (f : Partition → Partition) : (s.modPart p f).gridNext = s.gridNext := rfl
@[simp] theorem modPart_agenda (p : Nat) (f : Partition → Partition) : (s.modPart p f).agenda = s.agenda := rfl
@[simp] theorem modPart_evTurn (p : Nat) (f : Partition → Partition) : (s.modPart p f).evTurn = s.evTurn := rfl
@[simp] theorem modPart_evNext (p : Nat) (f : Partition → Partition) : (s.modPart p f).evNext = s.evNext := rfl
@[simp] theorem modPart_clocked (p : Nat) (f : Partition → Partition) : (s.modPart p f).clocked = s.clocked := rfl
@[simp] theorem modPart_nextFree (p : Nat) (f : Partition → Partition) : (s.modPart p f).nextFree = s.nextFree := rfl

@[simp] theorem modCluster_sel (c : Nat) (f : Cluster → Cluster) : (s.modCluster c f).sel = s.sel := rfl
@[simp] theorem modCluster_blocks (c : Nat) (f : Cluster → Cluster) : (s.modCluster c f).blocks = s.blocks := rfl
@[simp] theorem modCluster_blockNext (c : Nat) (f : Cluster → Cluster) : (s.modCluster c f).blockNext = s.blockNext := rfl
@[simp] theorem modCluster_cores (c : Nat) (f : Cluster → Cluster) : (s.modCluster c f).cores = s.cores := rfl
@[simp] theorem modCluster_parts (c : Nat) (f : Cluster → Cluster) : (s.modCluster c f).parts = s.parts := rfl
@[simp] theorem modCluster_dies (c : Nat) (f : Cluster → Cluster) : (s.modCluster c f).dies = s.dies := rfl
@[simp] theorem modCluster_hub (c : Nat) (f : Cluster → Cluster) : (s.modCluster c f).hub = s.hub := rfl
@[simp] theorem modCluster_mem (c : Nat) (f : Cluster → Cluster) : (s.modCluster c f).mem = s.mem := rfl
@[simp] theorem modCluster_poison (c : Nat) (f : Cluster → Cluster) : (s.modCluster c f).poison = s.poison := rfl
@[simp] theorem modCluster_grids (c : Nat) (f : Cluster → Cluster) : (s.modCluster c f).grids = s.grids := rfl
@[simp] theorem modCluster_gridNext (c : Nat) (f : Cluster → Cluster) : (s.modCluster c f).gridNext = s.gridNext := rfl
@[simp] theorem modCluster_agenda (c : Nat) (f : Cluster → Cluster) : (s.modCluster c f).agenda = s.agenda := rfl
@[simp] theorem modCluster_evTurn (c : Nat) (f : Cluster → Cluster) : (s.modCluster c f).evTurn = s.evTurn := rfl
@[simp] theorem modCluster_evNext (c : Nat) (f : Cluster → Cluster) : (s.modCluster c f).evNext = s.evNext := rfl
@[simp] theorem modCluster_clocked (c : Nat) (f : Cluster → Cluster) : (s.modCluster c f).clocked = s.clocked := rfl
@[simp] theorem modCluster_nextFree (c : Nat) (f : Cluster → Cluster) : (s.modCluster c f).nextFree = s.nextFree := rfl

@[simp] theorem modDie_sel (d : Nat) (f : Die → Die) : (s.modDie d f).sel = s.sel := rfl
@[simp] theorem modDie_blocks (d : Nat) (f : Die → Die) : (s.modDie d f).blocks = s.blocks := rfl
@[simp] theorem modDie_blockNext (d : Nat) (f : Die → Die) : (s.modDie d f).blockNext = s.blockNext := rfl
@[simp] theorem modDie_cores (d : Nat) (f : Die → Die) : (s.modDie d f).cores = s.cores := rfl
@[simp] theorem modDie_parts (d : Nat) (f : Die → Die) : (s.modDie d f).parts = s.parts := rfl
@[simp] theorem modDie_clusters (d : Nat) (f : Die → Die) : (s.modDie d f).clusters = s.clusters := rfl
@[simp] theorem modDie_hub (d : Nat) (f : Die → Die) : (s.modDie d f).hub = s.hub := rfl
@[simp] theorem modDie_mem (d : Nat) (f : Die → Die) : (s.modDie d f).mem = s.mem := rfl
@[simp] theorem modDie_poison (d : Nat) (f : Die → Die) : (s.modDie d f).poison = s.poison := rfl
@[simp] theorem modDie_grids (d : Nat) (f : Die → Die) : (s.modDie d f).grids = s.grids := rfl
@[simp] theorem modDie_gridNext (d : Nat) (f : Die → Die) : (s.modDie d f).gridNext = s.gridNext := rfl
@[simp] theorem modDie_agenda (d : Nat) (f : Die → Die) : (s.modDie d f).agenda = s.agenda := rfl
@[simp] theorem modDie_evTurn (d : Nat) (f : Die → Die) : (s.modDie d f).evTurn = s.evTurn := rfl
@[simp] theorem modDie_evNext (d : Nat) (f : Die → Die) : (s.modDie d f).evNext = s.evNext := rfl
@[simp] theorem modDie_clocked (d : Nat) (f : Die → Die) : (s.modDie d f).clocked = s.clocked := rfl
@[simp] theorem modDie_nextFree (d : Nat) (f : Die → Die) : (s.modDie d f).nextFree = s.nextFree := rfl

@[simp] theorem modHub_sel (f : Hub → Hub) : (s.modHub f).sel = s.sel := rfl
@[simp] theorem modHub_blocks (f : Hub → Hub) : (s.modHub f).blocks = s.blocks := rfl
@[simp] theorem modHub_blockNext (f : Hub → Hub) : (s.modHub f).blockNext = s.blockNext := rfl
@[simp] theorem modHub_cores (f : Hub → Hub) : (s.modHub f).cores = s.cores := rfl
@[simp] theorem modHub_parts (f : Hub → Hub) : (s.modHub f).parts = s.parts := rfl
@[simp] theorem modHub_clusters (f : Hub → Hub) : (s.modHub f).clusters = s.clusters := rfl
@[simp] theorem modHub_dies (f : Hub → Hub) : (s.modHub f).dies = s.dies := rfl
@[simp] theorem modHub_mem (f : Hub → Hub) : (s.modHub f).mem = s.mem := rfl
@[simp] theorem modHub_poison (f : Hub → Hub) : (s.modHub f).poison = s.poison := rfl
@[simp] theorem modHub_grids (f : Hub → Hub) : (s.modHub f).grids = s.grids := rfl
@[simp] theorem modHub_gridNext (f : Hub → Hub) : (s.modHub f).gridNext = s.gridNext := rfl
@[simp] theorem modHub_agenda (f : Hub → Hub) : (s.modHub f).agenda = s.agenda := rfl
@[simp] theorem modHub_evTurn (f : Hub → Hub) : (s.modHub f).evTurn = s.evTurn := rfl
@[simp] theorem modHub_evNext (f : Hub → Hub) : (s.modHub f).evNext = s.evNext := rfl
@[simp] theorem modHub_clocked (f : Hub → Hub) : (s.modHub f).clocked = s.clocked := rfl
@[simp] theorem modHub_nextFree (f : Hub → Hub) : (s.modHub f).nextFree = s.nextFree := rfl

@[simp] theorem modGrid_sel (g : Nat) (f : Grid → Grid) : (s.modGrid g f).sel = s.sel := by
  unfold modGrid; split <;> rfl
@[simp] theorem modGrid_blocks (g : Nat) (f : Grid → Grid) : (s.modGrid g f).blocks = s.blocks := by
  unfold modGrid; split <;> rfl
@[simp] theorem modGrid_blockNext (g : Nat) (f : Grid → Grid) : (s.modGrid g f).blockNext = s.blockNext := by
  unfold modGrid; split <;> rfl
@[simp] theorem modGrid_cores (g : Nat) (f : Grid → Grid) : (s.modGrid g f).cores = s.cores := by
  unfold modGrid; split <;> rfl
@[simp] theorem modGrid_parts (g : Nat) (f : Grid → Grid) : (s.modGrid g f).parts = s.parts := by
  unfold modGrid; split <;> rfl
@[simp] theorem modGrid_clusters (g : Nat) (f : Grid → Grid) : (s.modGrid g f).clusters = s.clusters := by
  unfold modGrid; split <;> rfl
@[simp] theorem modGrid_dies (g : Nat) (f : Grid → Grid) : (s.modGrid g f).dies = s.dies := by
  unfold modGrid; split <;> rfl
@[simp] theorem modGrid_hub (g : Nat) (f : Grid → Grid) : (s.modGrid g f).hub = s.hub := by
  unfold modGrid; split <;> rfl
@[simp] theorem modGrid_mem (g : Nat) (f : Grid → Grid) : (s.modGrid g f).mem = s.mem := by
  unfold modGrid; split <;> rfl
@[simp] theorem modGrid_poison (g : Nat) (f : Grid → Grid) : (s.modGrid g f).poison = s.poison := by
  unfold modGrid; split <;> rfl
@[simp] theorem modGrid_gridNext (g : Nat) (f : Grid → Grid) : (s.modGrid g f).gridNext = s.gridNext := by
  unfold modGrid; split <;> rfl
@[simp] theorem modGrid_agenda (g : Nat) (f : Grid → Grid) : (s.modGrid g f).agenda = s.agenda := by
  unfold modGrid; split <;> rfl
@[simp] theorem modGrid_evTurn (g : Nat) (f : Grid → Grid) : (s.modGrid g f).evTurn = s.evTurn := by
  unfold modGrid; split <;> rfl
@[simp] theorem modGrid_evNext (g : Nat) (f : Grid → Grid) : (s.modGrid g f).evNext = s.evNext := by
  unfold modGrid; split <;> rfl
@[simp] theorem modGrid_clocked (g : Nat) (f : Grid → Grid) : (s.modGrid g f).clocked = s.clocked := by
  unfold modGrid; split <;> rfl
@[simp] theorem modGrid_nextFree (g : Nat) (f : Grid → Grid) : (s.modGrid g f).nextFree = s.nextFree := by
  unfold modGrid; split <;> rfl

@[simp] theorem modPad_sel (c : Nat) (f : Scratchpad → Scratchpad) : (s.modPad c f).sel = s.sel := rfl
@[simp] theorem modPad_blocks (c : Nat) (f : Scratchpad → Scratchpad) : (s.modPad c f).blocks = s.blocks := rfl
@[simp] theorem modPad_blockNext (c : Nat) (f : Scratchpad → Scratchpad) : (s.modPad c f).blockNext = s.blockNext := rfl
@[simp] theorem modPad_parts (c : Nat) (f : Scratchpad → Scratchpad) : (s.modPad c f).parts = s.parts := rfl
@[simp] theorem modPad_clusters (c : Nat) (f : Scratchpad → Scratchpad) : (s.modPad c f).clusters = s.clusters := rfl
@[simp] theorem modPad_dies (c : Nat) (f : Scratchpad → Scratchpad) : (s.modPad c f).dies = s.dies := rfl
@[simp] theorem modPad_hub (c : Nat) (f : Scratchpad → Scratchpad) : (s.modPad c f).hub = s.hub := rfl
@[simp] theorem modPad_mem (c : Nat) (f : Scratchpad → Scratchpad) : (s.modPad c f).mem = s.mem := rfl
@[simp] theorem modPad_poison (c : Nat) (f : Scratchpad → Scratchpad) : (s.modPad c f).poison = s.poison := rfl
@[simp] theorem modPad_grids (c : Nat) (f : Scratchpad → Scratchpad) : (s.modPad c f).grids = s.grids := rfl
@[simp] theorem modPad_gridNext (c : Nat) (f : Scratchpad → Scratchpad) : (s.modPad c f).gridNext = s.gridNext := rfl
@[simp] theorem modPad_agenda (c : Nat) (f : Scratchpad → Scratchpad) : (s.modPad c f).agenda = s.agenda := rfl
@[simp] theorem modPad_evTurn (c : Nat) (f : Scratchpad → Scratchpad) : (s.modPad c f).evTurn = s.evTurn := rfl
@[simp] theorem modPad_evNext (c : Nat) (f : Scratchpad → Scratchpad) : (s.modPad c f).evNext = s.evNext := rfl
@[simp] theorem modPad_clocked (c : Nat) (f : Scratchpad → Scratchpad) : (s.modPad c f).clocked = s.clocked := rfl
@[simp] theorem modPad_nextFree (c : Nat) (f : Scratchpad → Scratchpad) : (s.modPad c f).nextFree = s.nextFree := rfl

/-! ### The parts as they read after an update -/

@[simp] theorem blk_modBlk_same (k : Nat) (f : Block → Block) : (s.modBlk k f).blk k = f (s.blk k) := by
  simp [blk, modBlk]
theorem blk_modBlk_ne {j k : Nat} (h : j ≠ k) (f : Block → Block) : (s.modBlk k f).blk j = s.blk j := by
  simp [blk, modBlk, Sparse.getOr_put_ne _ h]
theorem blk_modBlk (j k : Nat) (f : Block → Block) : (s.modBlk k f).blk j = if j = k then f (s.blk k) else s.blk j := by
  split
  · subst_vars; simp
  · exact s.blk_modBlk_ne ‹_› f
@[simp] theorem blk_modCore (c : Nat) (k : Nat) (f : Core → Core) : (s.modCore c f).blk k = s.blk k := rfl
@[simp] theorem blk_modPart (p : Nat) (k : Nat) (f : Partition → Partition) : (s.modPart p f).blk k = s.blk k := rfl
@[simp] theorem blk_modCluster (c : Nat) (k : Nat) (f : Cluster → Cluster) : (s.modCluster c f).blk k = s.blk k := rfl
@[simp] theorem blk_modDie (d : Nat) (k : Nat) (f : Die → Die) : (s.modDie d f).blk k = s.blk k := rfl
@[simp] theorem blk_modHub (k : Nat) (f : Hub → Hub) : (s.modHub f).blk k = s.blk k := rfl
@[simp] theorem blk_modGrid (g : Nat) (k : Nat) (f : Grid → Grid) : (s.modGrid g f).blk k = s.blk k := by
  simp [blk]
@[simp] theorem blk_modPad (c : Nat) (k : Nat) (f : Scratchpad → Scratchpad) : (s.modPad c f).blk k = s.blk k := rfl

@[simp] theorem core_modBlk (n : Nat) (k : Nat) (f : Block → Block) : (s.modBlk n f).core k = s.core k := rfl
@[simp] theorem core_modCore_same (k : Nat) (f : Core → Core) : (s.modCore k f).core k = f (s.core k) := by
  simp [core, modCore]
theorem core_modCore_ne {j k : Nat} (h : j ≠ k) (f : Core → Core) : (s.modCore k f).core j = s.core j := by
  simp [core, modCore, Sparse.getOr_put_ne _ h]
theorem core_modCore (j k : Nat) (f : Core → Core) : (s.modCore k f).core j = if j = k then f (s.core k) else s.core j := by
  split
  · subst_vars; simp
  · exact s.core_modCore_ne ‹_› f
@[simp] theorem core_modPart (p : Nat) (k : Nat) (f : Partition → Partition) : (s.modPart p f).core k = s.core k := rfl
@[simp] theorem core_modCluster (c : Nat) (k : Nat) (f : Cluster → Cluster) : (s.modCluster c f).core k = s.core k := rfl
@[simp] theorem core_modDie (d : Nat) (k : Nat) (f : Die → Die) : (s.modDie d f).core k = s.core k := rfl
@[simp] theorem core_modHub (k : Nat) (f : Hub → Hub) : (s.modHub f).core k = s.core k := rfl
@[simp] theorem core_modGrid (g : Nat) (k : Nat) (f : Grid → Grid) : (s.modGrid g f).core k = s.core k := by
  simp [core]

@[simp] theorem part_modBlk (n : Nat) (k : Nat) (f : Block → Block) : (s.modBlk n f).part k = s.part k := rfl
@[simp] theorem part_modCore (c : Nat) (k : Nat) (f : Core → Core) : (s.modCore c f).part k = s.part k := rfl
@[simp] theorem part_modPart_same (k : Nat) (f : Partition → Partition) : (s.modPart k f).part k = f (s.part k) := by
  simp [part, modPart]
theorem part_modPart_ne {j k : Nat} (h : j ≠ k) (f : Partition → Partition) : (s.modPart k f).part j = s.part j := by
  simp [part, modPart, Sparse.getOr_put_ne _ h]
theorem part_modPart (j k : Nat) (f : Partition → Partition) : (s.modPart k f).part j = if j = k then f (s.part k) else s.part j := by
  split
  · subst_vars; simp
  · exact s.part_modPart_ne ‹_› f
@[simp] theorem part_modCluster (c : Nat) (k : Nat) (f : Cluster → Cluster) : (s.modCluster c f).part k = s.part k := rfl
@[simp] theorem part_modDie (d : Nat) (k : Nat) (f : Die → Die) : (s.modDie d f).part k = s.part k := rfl
@[simp] theorem part_modHub (k : Nat) (f : Hub → Hub) : (s.modHub f).part k = s.part k := rfl
@[simp] theorem part_modGrid (g : Nat) (k : Nat) (f : Grid → Grid) : (s.modGrid g f).part k = s.part k := by
  simp [part]
@[simp] theorem part_modPad (c : Nat) (k : Nat) (f : Scratchpad → Scratchpad) : (s.modPad c f).part k = s.part k := rfl

@[simp] theorem cluster_modBlk (n : Nat) (k : Nat) (f : Block → Block) : (s.modBlk n f).cluster k = s.cluster k := rfl
@[simp] theorem cluster_modCore (c : Nat) (k : Nat) (f : Core → Core) : (s.modCore c f).cluster k = s.cluster k := rfl
@[simp] theorem cluster_modPart (p : Nat) (k : Nat) (f : Partition → Partition) : (s.modPart p f).cluster k = s.cluster k := rfl
@[simp] theorem cluster_modCluster_same (k : Nat) (f : Cluster → Cluster) : (s.modCluster k f).cluster k = f (s.cluster k) := by
  simp [cluster, modCluster]
theorem cluster_modCluster_ne {j k : Nat} (h : j ≠ k) (f : Cluster → Cluster) : (s.modCluster k f).cluster j = s.cluster j := by
  simp [cluster, modCluster, Sparse.getOr_put_ne _ h]
theorem cluster_modCluster (j k : Nat) (f : Cluster → Cluster) : (s.modCluster k f).cluster j = if j = k then f (s.cluster k) else s.cluster j := by
  split
  · subst_vars; simp
  · exact s.cluster_modCluster_ne ‹_› f
@[simp] theorem cluster_modDie (d : Nat) (k : Nat) (f : Die → Die) : (s.modDie d f).cluster k = s.cluster k := rfl
@[simp] theorem cluster_modHub (k : Nat) (f : Hub → Hub) : (s.modHub f).cluster k = s.cluster k := rfl
@[simp] theorem cluster_modGrid (g : Nat) (k : Nat) (f : Grid → Grid) : (s.modGrid g f).cluster k = s.cluster k := by
  simp [cluster]
@[simp] theorem cluster_modPad (c : Nat) (k : Nat) (f : Scratchpad → Scratchpad) : (s.modPad c f).cluster k = s.cluster k := rfl

@[simp] theorem die_modBlk (n : Nat) (k : Nat) (f : Block → Block) : (s.modBlk n f).die k = s.die k := rfl
@[simp] theorem die_modCore (c : Nat) (k : Nat) (f : Core → Core) : (s.modCore c f).die k = s.die k := rfl
@[simp] theorem die_modPart (p : Nat) (k : Nat) (f : Partition → Partition) : (s.modPart p f).die k = s.die k := rfl
@[simp] theorem die_modCluster (c : Nat) (k : Nat) (f : Cluster → Cluster) : (s.modCluster c f).die k = s.die k := rfl
@[simp] theorem die_modDie_same (k : Nat) (f : Die → Die) : (s.modDie k f).die k = f (s.die k) := by
  simp [die, modDie]
theorem die_modDie_ne {j k : Nat} (h : j ≠ k) (f : Die → Die) : (s.modDie k f).die j = s.die j := by
  simp [die, modDie, Sparse.getOr_put_ne _ h]
theorem die_modDie (j k : Nat) (f : Die → Die) : (s.modDie k f).die j = if j = k then f (s.die k) else s.die j := by
  split
  · subst_vars; simp
  · exact s.die_modDie_ne ‹_› f
@[simp] theorem die_modHub (k : Nat) (f : Hub → Hub) : (s.modHub f).die k = s.die k := rfl
@[simp] theorem die_modGrid (g : Nat) (k : Nat) (f : Grid → Grid) : (s.modGrid g f).die k = s.die k := by
  simp [die]
@[simp] theorem die_modPad (c : Nat) (k : Nat) (f : Scratchpad → Scratchpad) : (s.modPad c f).die k = s.die k := rfl

@[simp] theorem core_modPad_same (c : Nat) (f : Scratchpad → Scratchpad) :
    ((s.modPad c f).core c).scratch = f (s.core c).scratch := by simp [modPad]

/-! ### The issuing block -/

@[simp] theorem cb_modCb (f : Block → Block) : (s.modCb f).cb = f s.cb := by simp [cb, modCb]
@[simp] theorem modCb_sel (f : Block → Block) : (s.modCb f).sel = s.sel := rfl
@[simp] theorem modCb_blockNext (f : Block → Block) : (s.modCb f).blockNext = s.blockNext := rfl
@[simp] theorem modCb_cores (f : Block → Block) : (s.modCb f).cores = s.cores := rfl
@[simp] theorem modCb_parts (f : Block → Block) : (s.modCb f).parts = s.parts := rfl
@[simp] theorem modCb_clusters (f : Block → Block) : (s.modCb f).clusters = s.clusters := rfl
@[simp] theorem modCb_dies (f : Block → Block) : (s.modCb f).dies = s.dies := rfl
@[simp] theorem modCb_hub (f : Block → Block) : (s.modCb f).hub = s.hub := rfl
@[simp] theorem modCb_mem (f : Block → Block) : (s.modCb f).mem = s.mem := rfl
@[simp] theorem modCb_poison (f : Block → Block) : (s.modCb f).poison = s.poison := rfl
@[simp] theorem modCb_grids (f : Block → Block) : (s.modCb f).grids = s.grids := rfl
@[simp] theorem modCb_gridNext (f : Block → Block) : (s.modCb f).gridNext = s.gridNext := rfl
@[simp] theorem modCb_agenda (f : Block → Block) : (s.modCb f).agenda = s.agenda := rfl
@[simp] theorem modCb_evTurn (f : Block → Block) : (s.modCb f).evTurn = s.evTurn := rfl
@[simp] theorem modCb_evNext (f : Block → Block) : (s.modCb f).evNext = s.evNext := rfl
@[simp] theorem modCb_clocked (f : Block → Block) : (s.modCb f).clocked = s.clocked := rfl
@[simp] theorem modCb_nextFree (f : Block → Block) : (s.modCb f).nextFree = s.nextFree := rfl
@[simp] theorem cb_modCore (c : Nat) (f : Core → Core) : (s.modCore c f).cb = s.cb := rfl
@[simp] theorem cb_modPart (p : Nat) (f : Partition → Partition) : (s.modPart p f).cb = s.cb := rfl
@[simp] theorem cb_modCluster (c : Nat) (f : Cluster → Cluster) : (s.modCluster c f).cb = s.cb := rfl
@[simp] theorem cb_modDie (d : Nat) (f : Die → Die) : (s.modDie d f).cb = s.cb := rfl
@[simp] theorem cb_modHub (f : Hub → Hub) : (s.modHub f).cb = s.cb := rfl
@[simp] theorem cb_modGrid (g : Nat) (f : Grid → Grid) : (s.modGrid g f).cb = s.cb := by
  simp [cb]
@[simp] theorem cb_modPad (c : Nat) (f : Scratchpad → Scratchpad) : (s.modPad c f).cb = s.cb := rfl

theorem blk_modCb_ne {n : Nat} (h : n ≠ s.sel.blk) (f : Block → Block) : (s.modCb f).blk n = s.blk n := by
  simp [modCb, blk_modBlk_ne _ h]

/-! ### Whole-field reads -/

@[simp] theorem modHub_hub (f : Hub → Hub) : (s.modHub f).hub = f s.hub := rfl

end State

/-! ### Threads and bundles of a block -/

@[simp] theorem length_modAt {α : Type} (f : α → α) (n : Nat) (l : List α) : (modAt f n l).length = l.length := by
  induction l generalizing n with
  | nil => cases n <;> rfl
  | cons x xs ih => cases n <;> simp [modAt, ih]

theorem getElem?_modAt {α : Type} (f : α → α) (n k : Nat) (l : List α) :
    (modAt f n l)[k]? = if k = n then l[k]?.map f else l[k]? := by
  induction l generalizing n k with
  | nil => cases n <;> simp [modAt]
  | cons x xs ih =>
    cases n with
    | zero => cases k <;> simp [modAt]
    | succ n => cases k <;> simp [modAt, ih]

namespace Block

variable (b : Block)

@[simp] theorem modThr_length (t : Nat) (f : Thread → Thread) : (b.modThr t f).threads.length = b.threads.length := by
  simp [modThr]

@[simp] theorem modThrs_length (ts : List Nat) (f : Nat → Thread → Thread) :
    (b.modThrs ts f).threads.length = b.threads.length := by simp [modThrs]

theorem thr_modThr (k t : Nat) (f : Thread → Thread) :
    (b.modThr t f).thr k = if k = t ∧ k < b.threads.length then f (b.thr k) else b.thr k := by
  simp only [thr, modThr, List.getD_eq_getElem?_getD, getElem?_modAt]
  by_cases h : k = t
  · subst h
    by_cases g : k < b.threads.length
    · simp [g]
    · simp [g]
  · simp [h]

theorem thr_modThrs (k : Nat) (ts : List Nat) (f : Nat → Thread → Thread) :
    (b.modThrs ts f).thr k = if k ∈ ts ∧ k < b.threads.length then f k (b.thr k) else b.thr k := by
  simp only [thr, modThrs, List.getD_eq_getElem?_getD, List.getElem?_mapIdx]
  by_cases g : k < b.threads.length
  · by_cases h : k ∈ ts <;> simp [g, h]
  · simp [g]

theorem bundle_modBundle (k n : Nat) (f : Bundle → Bundle) :
    (b.modBundle n f).bundle k = if k = n ∧ k < b.bundles.length then f (b.bundle k) else b.bundle k := by
  simp only [bundle, modBundle, List.getD_eq_getElem?_getD, getElem?_modAt]
  by_cases h : k = n
  · subst h
    by_cases g : k < b.bundles.length
    · simp [g]
    · simp [g]
  · simp [h]

@[simp] theorem modThr_grid (t : Nat) (f : Thread → Thread) : (b.modThr t f).grid = b.grid := rfl
@[simp] theorem modThr_pos (t : Nat) (f : Thread → Thread) : (b.modThr t f).pos = b.pos := rfl
@[simp] theorem modThr_core (t : Nat) (f : Thread → Thread) : (b.modThr t f).core = b.core := rfl
@[simp] theorem modThr_hdr (t : Nat) (f : Thread → Thread) : (b.modThr t f).hdr = b.hdr := rfl
@[simp] theorem modThr_wid (t : Nat) (f : Thread → Thread) : (b.modThr t f).wid = b.wid := rfl
@[simp] theorem modThr_state (t : Nat) (f : Thread → Thread) : (b.modThr t f).state = b.state := rfl
@[simp] theorem modThr_drawn (t : Nat) (f : Thread → Thread) : (b.modThr t f).drawn = b.drawn := rfl
@[simp] theorem modThr_slots (t : Nat) (f : Thread → Thread) : (b.modThr t f).slots = b.slots := rfl
@[simp] theorem modThr_rings (t : Nat) (f : Thread → Thread) : (b.modThr t f).rings = b.rings := rfl
@[simp] theorem modThr_rows (t : Nat) (f : Thread → Thread) : (b.modThr t f).rows = b.rows := rfl
@[simp] theorem modThr_mats (t : Nat) (f : Thread → Thread) : (b.modThr t f).mats = b.mats := rfl
@[simp] theorem modThr_asn (t : Nat) (f : Thread → Thread) : (b.modThr t f).asn = b.asn := rfl
@[simp] theorem modThr_root (t : Nat) (f : Thread → Thread) : (b.modThr t f).root = b.root := rfl
@[simp] theorem modThr_tvec (t : Nat) (f : Thread → Thread) : (b.modThr t f).tvec = b.tvec := rfl
@[simp] theorem modThr_savebase (t : Nat) (f : Thread → Thread) : (b.modThr t f).savebase = b.savebase := rfl
@[simp] theorem modThr_hwsave (t : Nat) (f : Thread → Thread) : (b.modThr t f).hwsave = b.hwsave := rfl
@[simp] theorem modThr_locbase (t : Nat) (f : Thread → Thread) : (b.modThr t f).locbase = b.locbase := rfl
@[simp] theorem modThr_locsz (t : Nat) (f : Thread → Thread) : (b.modThr t f).locsz = b.locsz := rfl
@[simp] theorem modThr_dbgctl (t : Nat) (f : Thread → Thread) : (b.modThr t f).dbgctl = b.dbgctl := rfl
@[simp] theorem modThr_shdwwin (t : Nat) (f : Thread → Thread) : (b.modThr t f).shdwwin = b.shdwwin := rfl
@[simp] theorem modThr_slices (t : Nat) (f : Thread → Thread) : (b.modThr t f).slices = b.slices := rfl
@[simp] theorem modThr_copies (t : Nat) (f : Thread → Thread) : (b.modThr t f).copies = b.copies := rfl
@[simp] theorem modThr_accepted (t : Nat) (f : Thread → Thread) : (b.modThr t f).accepted = b.accepted := rfl
@[simp] theorem modThr_check (t : Nat) (f : Thread → Thread) : (b.modThr t f).check = b.check := rfl
@[simp] theorem modThr_journal (t : Nat) (f : Thread → Thread) : (b.modThr t f).journal = b.journal := rfl
@[simp] theorem modThr_logged (t : Nat) (f : Thread → Thread) : (b.modThr t f).logged = b.logged := rfl
@[simp] theorem modThr_irrevocable (t : Nat) (f : Thread → Thread) : (b.modThr t f).irrevocable = b.irrevocable := rfl
@[simp] theorem modThr_rollbacks (t : Nat) (f : Thread → Thread) : (b.modThr t f).rollbacks = b.rollbacks := rfl
@[simp] theorem modThr_trig (t : Nat) (f : Thread → Thread) : (b.modThr t f).trig = b.trig := rfl
@[simp] theorem modThr_trigAddr (t : Nat) (f : Thread → Thread) : (b.modThr t f).trigAddr = b.trigAddr := rfl
@[simp] theorem modThr_preemptDue (t : Nat) (f : Thread → Thread) : (b.modThr t f).preemptDue = b.preemptDue := rfl
@[simp] theorem modThr_preemptHeld (t : Nat) (f : Thread → Thread) : (b.modThr t f).preemptHeld = b.preemptHeld := rfl
@[simp] theorem modThr_savedByHw (t : Nat) (f : Thread → Thread) : (b.modThr t f).savedByHw = b.savedByHw := rfl
@[simp] theorem modThr_swapOut (t : Nat) (f : Thread → Thread) : (b.modThr t f).swapOut = b.swapOut := rfl
@[simp] theorem modThr_trapDue (t : Nat) (f : Thread → Thread) : (b.modThr t f).trapDue = b.trapDue := rfl
@[simp] theorem modThr_saved (t : Nat) (f : Thread → Thread) : (b.modThr t f).saved = b.saved := rfl
@[simp] theorem modThr_savedRecords (t : Nat) (f : Thread → Thread) : (b.modThr t f).savedRecords = b.savedRecords := rfl
@[simp] theorem modThr_savedSeqs (t : Nat) (f : Thread → Thread) : (b.modThr t f).savedSeqs = b.savedSeqs := rfl
@[simp] theorem modThr_savedTiles (t : Nat) (f : Thread → Thread) : (b.modThr t f).savedTiles = b.savedTiles := rfl
@[simp] theorem modThr_heldArrivals (t : Nat) (f : Thread → Thread) : (b.modThr t f).heldArrivals = b.heldArrivals := rfl
@[simp] theorem modThr_struck (t : Nat) (f : Thread → Thread) : (b.modThr t f).struck = b.struck := rfl
@[simp] theorem modThr_trail (t : Nat) (f : Thread → Thread) : (b.modThr t f).trail = b.trail := rfl
@[simp] theorem modThr_placedAt (t : Nat) (f : Thread → Thread) : (b.modThr t f).placedAt = b.placedAt := rfl
@[simp] theorem modThr_bundles (t : Nat) (f : Thread → Thread) : (b.modThr t f).bundles = b.bundles := rfl
@[simp] theorem modThr_bundle (t : Nat) (f : Thread → Thread) (k : Nat) : (b.modThr t f).bundle k = b.bundle k := rfl

@[simp] theorem modThrs_grid (ts : List Nat) (f : Nat → Thread → Thread) : (b.modThrs ts f).grid = b.grid := rfl
@[simp] theorem modThrs_pos (ts : List Nat) (f : Nat → Thread → Thread) : (b.modThrs ts f).pos = b.pos := rfl
@[simp] theorem modThrs_core (ts : List Nat) (f : Nat → Thread → Thread) : (b.modThrs ts f).core = b.core := rfl
@[simp] theorem modThrs_hdr (ts : List Nat) (f : Nat → Thread → Thread) : (b.modThrs ts f).hdr = b.hdr := rfl
@[simp] theorem modThrs_wid (ts : List Nat) (f : Nat → Thread → Thread) : (b.modThrs ts f).wid = b.wid := rfl
@[simp] theorem modThrs_state (ts : List Nat) (f : Nat → Thread → Thread) : (b.modThrs ts f).state = b.state := rfl
@[simp] theorem modThrs_drawn (ts : List Nat) (f : Nat → Thread → Thread) : (b.modThrs ts f).drawn = b.drawn := rfl
@[simp] theorem modThrs_slots (ts : List Nat) (f : Nat → Thread → Thread) : (b.modThrs ts f).slots = b.slots := rfl
@[simp] theorem modThrs_rings (ts : List Nat) (f : Nat → Thread → Thread) : (b.modThrs ts f).rings = b.rings := rfl
@[simp] theorem modThrs_rows (ts : List Nat) (f : Nat → Thread → Thread) : (b.modThrs ts f).rows = b.rows := rfl
@[simp] theorem modThrs_mats (ts : List Nat) (f : Nat → Thread → Thread) : (b.modThrs ts f).mats = b.mats := rfl
@[simp] theorem modThrs_asn (ts : List Nat) (f : Nat → Thread → Thread) : (b.modThrs ts f).asn = b.asn := rfl
@[simp] theorem modThrs_root (ts : List Nat) (f : Nat → Thread → Thread) : (b.modThrs ts f).root = b.root := rfl
@[simp] theorem modThrs_tvec (ts : List Nat) (f : Nat → Thread → Thread) : (b.modThrs ts f).tvec = b.tvec := rfl
@[simp] theorem modThrs_savebase (ts : List Nat) (f : Nat → Thread → Thread) : (b.modThrs ts f).savebase = b.savebase := rfl
@[simp] theorem modThrs_hwsave (ts : List Nat) (f : Nat → Thread → Thread) : (b.modThrs ts f).hwsave = b.hwsave := rfl
@[simp] theorem modThrs_locbase (ts : List Nat) (f : Nat → Thread → Thread) : (b.modThrs ts f).locbase = b.locbase := rfl
@[simp] theorem modThrs_locsz (ts : List Nat) (f : Nat → Thread → Thread) : (b.modThrs ts f).locsz = b.locsz := rfl
@[simp] theorem modThrs_dbgctl (ts : List Nat) (f : Nat → Thread → Thread) : (b.modThrs ts f).dbgctl = b.dbgctl := rfl
@[simp] theorem modThrs_shdwwin (ts : List Nat) (f : Nat → Thread → Thread) : (b.modThrs ts f).shdwwin = b.shdwwin := rfl
@[simp] theorem modThrs_slices (ts : List Nat) (f : Nat → Thread → Thread) : (b.modThrs ts f).slices = b.slices := rfl
@[simp] theorem modThrs_copies (ts : List Nat) (f : Nat → Thread → Thread) : (b.modThrs ts f).copies = b.copies := rfl
@[simp] theorem modThrs_accepted (ts : List Nat) (f : Nat → Thread → Thread) : (b.modThrs ts f).accepted = b.accepted := rfl
@[simp] theorem modThrs_check (ts : List Nat) (f : Nat → Thread → Thread) : (b.modThrs ts f).check = b.check := rfl
@[simp] theorem modThrs_journal (ts : List Nat) (f : Nat → Thread → Thread) : (b.modThrs ts f).journal = b.journal := rfl
@[simp] theorem modThrs_logged (ts : List Nat) (f : Nat → Thread → Thread) : (b.modThrs ts f).logged = b.logged := rfl
@[simp] theorem modThrs_irrevocable (ts : List Nat) (f : Nat → Thread → Thread) : (b.modThrs ts f).irrevocable = b.irrevocable := rfl
@[simp] theorem modThrs_rollbacks (ts : List Nat) (f : Nat → Thread → Thread) : (b.modThrs ts f).rollbacks = b.rollbacks := rfl
@[simp] theorem modThrs_trig (ts : List Nat) (f : Nat → Thread → Thread) : (b.modThrs ts f).trig = b.trig := rfl
@[simp] theorem modThrs_trigAddr (ts : List Nat) (f : Nat → Thread → Thread) : (b.modThrs ts f).trigAddr = b.trigAddr := rfl
@[simp] theorem modThrs_preemptDue (ts : List Nat) (f : Nat → Thread → Thread) : (b.modThrs ts f).preemptDue = b.preemptDue := rfl
@[simp] theorem modThrs_preemptHeld (ts : List Nat) (f : Nat → Thread → Thread) : (b.modThrs ts f).preemptHeld = b.preemptHeld := rfl
@[simp] theorem modThrs_savedByHw (ts : List Nat) (f : Nat → Thread → Thread) : (b.modThrs ts f).savedByHw = b.savedByHw := rfl
@[simp] theorem modThrs_swapOut (ts : List Nat) (f : Nat → Thread → Thread) : (b.modThrs ts f).swapOut = b.swapOut := rfl
@[simp] theorem modThrs_trapDue (ts : List Nat) (f : Nat → Thread → Thread) : (b.modThrs ts f).trapDue = b.trapDue := rfl
@[simp] theorem modThrs_saved (ts : List Nat) (f : Nat → Thread → Thread) : (b.modThrs ts f).saved = b.saved := rfl
@[simp] theorem modThrs_savedRecords (ts : List Nat) (f : Nat → Thread → Thread) : (b.modThrs ts f).savedRecords = b.savedRecords := rfl
@[simp] theorem modThrs_savedSeqs (ts : List Nat) (f : Nat → Thread → Thread) : (b.modThrs ts f).savedSeqs = b.savedSeqs := rfl
@[simp] theorem modThrs_savedTiles (ts : List Nat) (f : Nat → Thread → Thread) : (b.modThrs ts f).savedTiles = b.savedTiles := rfl
@[simp] theorem modThrs_heldArrivals (ts : List Nat) (f : Nat → Thread → Thread) : (b.modThrs ts f).heldArrivals = b.heldArrivals := rfl
@[simp] theorem modThrs_struck (ts : List Nat) (f : Nat → Thread → Thread) : (b.modThrs ts f).struck = b.struck := rfl
@[simp] theorem modThrs_trail (ts : List Nat) (f : Nat → Thread → Thread) : (b.modThrs ts f).trail = b.trail := rfl
@[simp] theorem modThrs_placedAt (ts : List Nat) (f : Nat → Thread → Thread) : (b.modThrs ts f).placedAt = b.placedAt := rfl
@[simp] theorem modThrs_bundles (ts : List Nat) (f : Nat → Thread → Thread) : (b.modThrs ts f).bundles = b.bundles := rfl
@[simp] theorem modThrs_bundle (ts : List Nat) (f : Nat → Thread → Thread) (k : Nat) : (b.modThrs ts f).bundle k = b.bundle k := rfl

@[simp] theorem modBundle_grid (n : Nat) (f : Bundle → Bundle) : (b.modBundle n f).grid = b.grid := rfl
@[simp] theorem modBundle_pos (n : Nat) (f : Bundle → Bundle) : (b.modBundle n f).pos = b.pos := rfl
@[simp] theorem modBundle_core (n : Nat) (f : Bundle → Bundle) : (b.modBundle n f).core = b.core := rfl
@[simp] theorem modBundle_hdr (n : Nat) (f : Bundle → Bundle) : (b.modBundle n f).hdr = b.hdr := rfl
@[simp] theorem modBundle_wid (n : Nat) (f : Bundle → Bundle) : (b.modBundle n f).wid = b.wid := rfl
@[simp] theorem modBundle_state (n : Nat) (f : Bundle → Bundle) : (b.modBundle n f).state = b.state := rfl
@[simp] theorem modBundle_drawn (n : Nat) (f : Bundle → Bundle) : (b.modBundle n f).drawn = b.drawn := rfl
@[simp] theorem modBundle_slots (n : Nat) (f : Bundle → Bundle) : (b.modBundle n f).slots = b.slots := rfl
@[simp] theorem modBundle_rings (n : Nat) (f : Bundle → Bundle) : (b.modBundle n f).rings = b.rings := rfl
@[simp] theorem modBundle_rows (n : Nat) (f : Bundle → Bundle) : (b.modBundle n f).rows = b.rows := rfl
@[simp] theorem modBundle_mats (n : Nat) (f : Bundle → Bundle) : (b.modBundle n f).mats = b.mats := rfl
@[simp] theorem modBundle_asn (n : Nat) (f : Bundle → Bundle) : (b.modBundle n f).asn = b.asn := rfl
@[simp] theorem modBundle_root (n : Nat) (f : Bundle → Bundle) : (b.modBundle n f).root = b.root := rfl
@[simp] theorem modBundle_tvec (n : Nat) (f : Bundle → Bundle) : (b.modBundle n f).tvec = b.tvec := rfl
@[simp] theorem modBundle_savebase (n : Nat) (f : Bundle → Bundle) : (b.modBundle n f).savebase = b.savebase := rfl
@[simp] theorem modBundle_hwsave (n : Nat) (f : Bundle → Bundle) : (b.modBundle n f).hwsave = b.hwsave := rfl
@[simp] theorem modBundle_locbase (n : Nat) (f : Bundle → Bundle) : (b.modBundle n f).locbase = b.locbase := rfl
@[simp] theorem modBundle_locsz (n : Nat) (f : Bundle → Bundle) : (b.modBundle n f).locsz = b.locsz := rfl
@[simp] theorem modBundle_dbgctl (n : Nat) (f : Bundle → Bundle) : (b.modBundle n f).dbgctl = b.dbgctl := rfl
@[simp] theorem modBundle_shdwwin (n : Nat) (f : Bundle → Bundle) : (b.modBundle n f).shdwwin = b.shdwwin := rfl
@[simp] theorem modBundle_slices (n : Nat) (f : Bundle → Bundle) : (b.modBundle n f).slices = b.slices := rfl
@[simp] theorem modBundle_copies (n : Nat) (f : Bundle → Bundle) : (b.modBundle n f).copies = b.copies := rfl
@[simp] theorem modBundle_accepted (n : Nat) (f : Bundle → Bundle) : (b.modBundle n f).accepted = b.accepted := rfl
@[simp] theorem modBundle_check (n : Nat) (f : Bundle → Bundle) : (b.modBundle n f).check = b.check := rfl
@[simp] theorem modBundle_journal (n : Nat) (f : Bundle → Bundle) : (b.modBundle n f).journal = b.journal := rfl
@[simp] theorem modBundle_logged (n : Nat) (f : Bundle → Bundle) : (b.modBundle n f).logged = b.logged := rfl
@[simp] theorem modBundle_irrevocable (n : Nat) (f : Bundle → Bundle) : (b.modBundle n f).irrevocable = b.irrevocable := rfl
@[simp] theorem modBundle_rollbacks (n : Nat) (f : Bundle → Bundle) : (b.modBundle n f).rollbacks = b.rollbacks := rfl
@[simp] theorem modBundle_trig (n : Nat) (f : Bundle → Bundle) : (b.modBundle n f).trig = b.trig := rfl
@[simp] theorem modBundle_trigAddr (n : Nat) (f : Bundle → Bundle) : (b.modBundle n f).trigAddr = b.trigAddr := rfl
@[simp] theorem modBundle_preemptDue (n : Nat) (f : Bundle → Bundle) : (b.modBundle n f).preemptDue = b.preemptDue := rfl
@[simp] theorem modBundle_preemptHeld (n : Nat) (f : Bundle → Bundle) : (b.modBundle n f).preemptHeld = b.preemptHeld := rfl
@[simp] theorem modBundle_savedByHw (n : Nat) (f : Bundle → Bundle) : (b.modBundle n f).savedByHw = b.savedByHw := rfl
@[simp] theorem modBundle_swapOut (n : Nat) (f : Bundle → Bundle) : (b.modBundle n f).swapOut = b.swapOut := rfl
@[simp] theorem modBundle_trapDue (n : Nat) (f : Bundle → Bundle) : (b.modBundle n f).trapDue = b.trapDue := rfl
@[simp] theorem modBundle_saved (n : Nat) (f : Bundle → Bundle) : (b.modBundle n f).saved = b.saved := rfl
@[simp] theorem modBundle_savedRecords (n : Nat) (f : Bundle → Bundle) : (b.modBundle n f).savedRecords = b.savedRecords := rfl
@[simp] theorem modBundle_savedSeqs (n : Nat) (f : Bundle → Bundle) : (b.modBundle n f).savedSeqs = b.savedSeqs := rfl
@[simp] theorem modBundle_savedTiles (n : Nat) (f : Bundle → Bundle) : (b.modBundle n f).savedTiles = b.savedTiles := rfl
@[simp] theorem modBundle_heldArrivals (n : Nat) (f : Bundle → Bundle) : (b.modBundle n f).heldArrivals = b.heldArrivals := rfl
@[simp] theorem modBundle_struck (n : Nat) (f : Bundle → Bundle) : (b.modBundle n f).struck = b.struck := rfl
@[simp] theorem modBundle_trail (n : Nat) (f : Bundle → Bundle) : (b.modBundle n f).trail = b.trail := rfl
@[simp] theorem modBundle_placedAt (n : Nat) (f : Bundle → Bundle) : (b.modBundle n f).placedAt = b.placedAt := rfl
@[simp] theorem modBundle_threads (n : Nat) (f : Bundle → Bundle) : (b.modBundle n f).threads = b.threads := rfl
@[simp] theorem modBundle_thr (n : Nat) (f : Bundle → Bundle) (k : Nat) : (b.modBundle n f).thr k = b.thr k := rfl

end Block

end Sys2Proof.Machine
end

