-- ==== Sys2Proof/Laws/Issue.lean ====
section
/-! SUPPORT. Laws/Issue.lean: what an issue does before the instruction's own effect, and that nothing it counts is read by the
operands. -/

namespace Sys2Proof.Machine

namespace State

variable (s : State)

/-! ### Counting the issue -/

/-- The count touches the issuing partition alone. -/
theorem countIssue_cases (d : Int) : s.countIssue d = s ∨
    s.countIssue d = s.modPart (s.cb.partOf s.sel.ctx) fun x => { x with seq := wrap 32 ((x.seq : Int) + d) } := by
  simp only [countIssue]
  split
  · exact .inr rfl
  · exact .inl rfl

@[simp] theorem countIssue_sel (d : Int) : (s.countIssue d).sel = s.sel := by
  obtain h | h := s.countIssue_cases d <;> simp [h]
@[simp] theorem countIssue_blocks (d : Int) : (s.countIssue d).blocks = s.blocks := by
  obtain h | h := s.countIssue_cases d <;> simp [h]
@[simp] theorem countIssue_mem (d : Int) : (s.countIssue d).mem = s.mem := by
  obtain h | h := s.countIssue_cases d <;> simp [h]
@[simp] theorem countIssue_poison (d : Int) : (s.countIssue d).poison = s.poison := by
  obtain h | h := s.countIssue_cases d <;> simp [h]
@[simp] theorem countIssue_cores (d : Int) : (s.countIssue d).cores = s.cores := by
  obtain h | h := s.countIssue_cases d <;> simp [h]
@[simp] theorem countIssue_clusters (d : Int) : (s.countIssue d).clusters = s.clusters := by
  obtain h | h := s.countIssue_cases d <;> simp [h]
@[simp] theorem countIssue_dies (d : Int) : (s.countIssue d).dies = s.dies := by
  obtain h | h := s.countIssue_cases d <;> simp [h]
@[simp] theorem countIssue_hub (d : Int) : (s.countIssue d).hub = s.hub := by
  obtain h | h := s.countIssue_cases d <;> simp [h]
@[simp] theorem countIssue_grids (d : Int) : (s.countIssue d).grids = s.grids := by
  obtain h | h := s.countIssue_cases d <;> simp [h]
@[simp] theorem countIssue_blk (d : Int) (n : Nat) : (s.countIssue d).blk n = s.blk n := by simp [blk]
@[simp] theorem countIssue_cb (d : Int) : (s.countIssue d).cb = s.cb := by simp [cb]
@[simp] theorem countIssue_die (d : Int) (n : Nat) : (s.countIssue d).die n = s.die n := by simp [die]
@[simp] theorem countIssue_core (d : Int) (n : Nat) : (s.countIssue d).core n = s.core n := by simp [core]

theorem countIssue_part (d : Int) (p : Nat) :
    (s.countIssue d).part p = { s.part p with seq := ((s.countIssue d).part p).seq } := by
  obtain h | h := s.countIssue_cases d <;> rw [h]
  rw [part_modPart]
  split <;> simp_all

@[simp] theorem begun_sel : s.begun.sel = s.sel := s.countIssue_sel 1
@[simp] theorem begun_cb : s.begun.cb = s.cb := s.countIssue_cb 1
@[simp] theorem begun_blocks : s.begun.blocks = s.blocks := s.countIssue_blocks 1
@[simp] theorem begun_mem : s.begun.mem = s.mem := s.countIssue_mem 1
@[simp] theorem begun_poison : s.begun.poison = s.poison := s.countIssue_poison 1
@[simp] theorem begun_cores : s.begun.cores = s.cores := s.countIssue_cores 1
@[simp] theorem begun_clusters : s.begun.clusters = s.clusters := s.countIssue_clusters 1
@[simp] theorem begun_dies : s.begun.dies = s.dies := s.countIssue_dies 1
@[simp] theorem begun_hub : s.begun.hub = s.hub := s.countIssue_hub 1
@[simp] theorem begun_grids : s.begun.grids = s.grids := s.countIssue_grids 1
@[simp] theorem begun_blk (n : Nat) : s.begun.blk n = s.blk n := s.countIssue_blk 1 n
@[simp] theorem begun_die (n : Nat) : s.begun.die n = s.die n := s.countIssue_die 1 n
@[simp] theorem begun_core (n : Nat) : s.begun.core n = s.core n := s.countIssue_core 1 n

/-! ### What the operands read -/

@[simp] theorem countIssue_exe (d : Int) (g : Guard) : (s.countIssue d).exe g = s.exe g := by simp [exe]
@[simp] theorem countIssue_first (d : Int) (g : Guard) : (s.countIssue d).first g = s.first g := by simp [first]
@[simp] theorem countIssue_sfile (d : Int) : (s.countIssue d).sfile = s.sfile := by simp [sfile]
@[simp] theorem countIssue_sreg (d : Int) (n : Nat) : (s.countIssue d).sreg n = s.sreg n := by simp [sreg]
@[simp] theorem countIssue_swide (d : Int) (n k : Nat) : (s.countIssue d).swide n k = s.swide n k := by simp [swide]
@[simp] theorem countIssue_ffile (d : Int) : (s.countIssue d).ffile = s.ffile := by simp [ffile]
@[simp] theorem countIssue_freg (d : Int) (n : Nat) : (s.countIssue d).freg n = s.freg n := by simp [freg]
@[simp] theorem countIssue_cc (d : Int) : (s.countIssue d).cc = s.cc := by simp [cc]
@[simp] theorem countIssue_cd (d : Int) : (s.countIssue d).cd = s.cd := by simp [cd]
@[simp] theorem countIssue_clk (d : Int) : (s.countIssue d).clk = s.clk := by simp [clk]
@[simp] theorem countIssue_special (d : Int) (t : Nat) (x : Special) : (s.countIssue d).special t x = s.special t x := by
  cases x <;> simp [special]
@[simp] theorem countIssue_src (d : Int) (e : Ext) (ty : OpTy) (t : Nat) (a : Src) :
    (s.countIssue d).src e ty t a = s.src e ty t a := by
  cases a <;> simp [src]
@[simp] theorem countIssue_roleOk (d : Int) (op : Nat) : (s.countIssue d).roleOk op = s.roleOk op := by simp [roleOk]
@[simp] theorem countIssue_launchOk (d : Int) (i : Instr) (x : Opnds) : (s.countIssue d).launchOk i x = s.launchOk i x := by
  simp [launchOk]
@[simp] theorem countIssue_sbad (d : Int) : (s.countIssue d).sbad = s.sbad := by simp [sbad]
@[simp] theorem countIssue_readsBadScalar (d : Int) (a : Src) (n : Nat) :
    (s.countIssue d).readsBadScalar a n = s.readsBadScalar a n := by simp [readsBadScalar]
@[simp] theorem countIssue_badRead (d : Int) (i : Instr) : (s.countIssue d).badRead i = s.badRead i := by
  simp [badRead]

@[simp] theorem begun_exe (g : Guard) : s.begun.exe g = s.exe g := s.countIssue_exe 1 g
@[simp] theorem begun_first (g : Guard) : s.begun.first g = s.first g := s.countIssue_first 1 g
@[simp] theorem begun_src (e : Ext) (ty : OpTy) (t : Nat) (a : Src) : s.begun.src e ty t a = s.src e ty t a :=
  s.countIssue_src 1 e ty t a
@[simp] theorem begun_freg (n : Nat) : s.begun.freg n = s.freg n := s.countIssue_freg 1 n
@[simp] theorem begun_sreg (n : Nat) : s.begun.sreg n = s.sreg n := s.countIssue_sreg 1 n
@[simp] theorem begun_cc : s.begun.cc = s.cc := s.countIssue_cc 1
@[simp] theorem begun_cd : s.begun.cd = s.cd := s.countIssue_cd 1
@[simp] theorem begun_clk : s.begun.clk = s.clk := s.countIssue_clk 1

/-! ### The issue -/

/-- An issue always answers a next state. -/
theorem issue_next (i : Instr) (f : Opnds → State → State) : ∃ t, s.issue i f = .next t := by
  unfold issue
  repeat' split
  all_goals first
    | exact ⟨_, rfl⟩
    | (simp only []; repeat' split) <;> exact ⟨_, rfl⟩

/-- Where nothing stands before its effect, an instruction's effect is what happens. -/
theorem issue_ready {s : State} {i : Instr} {x : Opnds} (hx : i.opnds? = some x) (h : s.ready i = true)
    (f : Opnds → State → State) : s.issue i f = .next (f x s.begun) := by
  simp only [ready, hx, Bool.and_eq_true, Bool.not_eq_true'] at h
  obtain ⟨⟨⟨⟨⟨⟨⟨hsel, hp⟩, hq⟩, hl⟩, hr⟩, ho⟩, hf⟩, hb⟩ := h
  have hact : ∃ a as, s.sel.act = a :: as := by
    cases hs : s.sel.act with
    | nil => simp [selOk, hs] at hsel
    | cons a as => exact ⟨a, as, rfl⟩
  obtain ⟨a, as, ha⟩ := hact
  unfold issue
  rw [hx, ha]
  have hl' : ¬((i.mayFault && s.logFull) = true) := by simpa using hl
  have hf' : ¬((i.format?.any fun k => !(Nf.fmtOf (s.freg k)).legal) = true) := by simp [hf]
  have hq' : ¬((s.pendingScalars.any fun e => e.blocks i x) = true) := by simp [hq]
  dsimp only
  rw [if_neg (by simp [hp]), if_neg hq']
  simp [hr, ho, hl', hf', hb, begun]

/-- The form that every computing instruction has. -/
theorem alu_ready {s : State} {i : Instr} {x : Opnds} (hx : i.opnds? = some x) (h : s.ready i = true) (n : Nat)
    (f : Opnds → State → Nat → Nat × BitVec 6) :
    s.alu i n f = .next (((s.begun.advance x.ext.bytes).write x.d n ((s.exe x.g).map fun l => (l, (f x s.begun l).1))).flagLanes
      ((s.exe x.g).map fun l => (l, (f x s.begun l).2))) := by
  unfold alu
  rw [issue_ready hx h]
  simp [List.map_map, Function.comp_def]

end State

end Sys2Proof.Machine
end

