-- ==== Sys2Proof/Laws/Begun.lean ====
section
/-! SUPPORT. Laws/Begun.lean: the state in which an instruction acts reads as the state before its issue did: the count of the issue
touches one sequence number of a partition (R209). -/

namespace Sys2Proof.Machine

namespace State

variable (s : State)

/-- Only partitions differ. -/
theorem begun_eq : ∃ ps, s.begun = { s with parts := ps } := by
  obtain h | h := s.countIssue_cases 1
  · exact ⟨s.parts, h⟩
  · exact ⟨_, h⟩

@[simp] theorem begun_memAddr (x : Opnds) (zx : Bool) (t : Nat) : s.begun.memAddr x zx t = s.memAddr x zx t := by
  obtain ⟨_, h⟩ := s.begun_eq; rw [h]; rfl
@[simp] theorem begun_spAddr (x : Opnds) (zx : Bool) (t : Nat) : s.begun.spAddr x zx t = s.spAddr x zx t := by
  obtain ⟨_, h⟩ := s.begun_eq; rw [h]; rfl
@[simp] theorem begun_sbBusy (b a n : Nat) : s.begun.sbBusy b a n = s.sbBusy b a n := by
  obtain ⟨_, h⟩ := s.begun_eq; rw [h]; rfl
@[simp] theorem begun_padBytes (b a n : Nat) : s.begun.padBytes b a n = s.padBytes b a n := by
  obtain ⟨_, h⟩ := s.begun_eq; rw [h]; rfl
@[simp] theorem begun_barAt (b a : Nat) : s.begun.barAt b a = s.barAt b a := by
  obtain ⟨_, h⟩ := s.begun_eq; rw [h]; rfl
@[simp] theorem begun_barOf (b n : Nat) : s.begun.barOf b n = s.barOf b n := by
  obtain ⟨_, h⟩ := s.begun_eq; rw [h]; rfl
@[simp] theorem begun_copyNames (b n : Nat) : s.begun.copyNames b n = s.copyNames b n := by
  obtain ⟨_, h⟩ := s.begun_eq; rw [h]; rfl
@[simp] theorem begun_phasesOf (b n : Nat) : s.begun.phasesOf b n = s.phasesOf b n := by
  obtain ⟨_, h⟩ := s.begun_eq; rw [h]; rfl
@[simp] theorem begun_barBytes (x : Opnds) : s.begun.barBytes x = s.barBytes x := by
  obtain ⟨_, h⟩ := s.begun_eq; rw [h]; rfl
@[simp] theorem begun_waitPhase (x : Opnds) (t : Nat) : s.begun.waitPhase x t = s.waitPhase x t := by
  obtain ⟨_, h⟩ := s.begun_eq; rw [h]; rfl
@[simp] theorem begun_memberAt (b c : Nat) : s.begun.memberAt b c = s.memberAt b c := by
  obtain ⟨_, h⟩ := s.begun_eq; rw [h]; rfl
@[simp] theorem begun_peerCore (p : BitVec 2) (xr : Bool) : s.begun.peerCore p xr = s.peerCore p xr := by
  obtain ⟨_, h⟩ := s.begun_eq; rw [h]; rfl
@[simp] theorem begun_remAddr (r : Rem) (t : Nat) : s.begun.remAddr r t = s.remAddr r t := by
  obtain ⟨_, h⟩ := s.begun_eq; rw [h]; rfl
@[simp] theorem begun_remoteGo (r : Rem) (t : Nat) : s.begun.remoteGo r t = s.remoteGo r t := by
  obtain ⟨_, h⟩ := s.begun_eq; rw [h]; rfl
@[simp] theorem begun_arriveOk (b n : Nat) (k : Int) : s.begun.arriveOk b n k = s.arriveOk b n k := by
  obtain ⟨_, h⟩ := s.begun_eq; rw [h]; rfl
@[simp] theorem begun_ringBundle : s.begun.ringBundle = s.ringBundle := by
  obtain ⟨_, h⟩ := s.begun_eq; rw [h]; rfl
@[simp] theorem begun_atomsRebuilt (n : Nat) (rs : List (Nat × Nat)) : s.begun.atomsRebuilt n rs = s.atomsRebuilt n rs := by
  obtain ⟨_, h⟩ := s.begun_eq; rw [h]; rfl
@[simp] theorem begun_atomsAcc (x : Opnds) (t : ATy) (op : AOp) (rs : List (Nat × Nat)) : s.begun.atomsAcc x t op rs = s.atomsAcc x t op rs := by
  obtain ⟨_, h⟩ := s.begun_eq; rw [h]; rfl
@[simp] theorem begun_atomsStores (n : Nat) (rs : List (Nat × Nat)) (acc : AtomsAcc) : s.begun.atomsStores n rs acc = s.atomsStores n rs acc := by
  obtain ⟨_, h⟩ := s.begun_eq; rw [h]; rfl
@[simp] theorem begun_sbOf (b : Nat) : s.begun.sbOf b = s.sbOf b := by
  obtain ⟨_, h⟩ := s.begun_eq; rw [h]; rfl
@[simp] theorem begun_sliceCheck (b : Nat) (c : Slice) : s.begun.sliceCheck b c = s.sliceCheck b c := by
  obtain ⟨_, h⟩ := s.begun_eq; rw [h]; rfl
@[simp] theorem begun_bulkFull : s.begun.bulkFull = s.bulkFull := by
  obtain ⟨_, h⟩ := s.begun_eq; rw [h]; rfl
@[simp] theorem begun_spair (n : Nat) : s.begun.spair n = s.spair n := by
  obtain ⟨_, h⟩ := s.begun_eq; rw [h]; rfl
@[simp] theorem begun_openShadow (a b c d : Nat) : s.begun.openShadow a b c d = s.openShadow a b c d := by
  obtain ⟨_, h⟩ := s.begun_eq; rw [h]; rfl
@[simp] theorem begun_freeShadow (d : Nat) : s.begun.freeShadow d = s.freeShadow d := by
  obtain ⟨_, h⟩ := s.begun_eq; rw [h]; rfl
@[simp] theorem begun_namedShadow (h : Nat) : s.begun.namedShadow h = s.namedShadow h := by
  obtain ⟨_, h⟩ := s.begun_eq; rw [h]; rfl
@[simp] theorem begun_refuses (pa : Nat) : s.begun.refuses pa = s.refuses pa := by
  obtain ⟨_, h⟩ := s.begun_eq; rw [h]; rfl
@[simp] theorem begun_wq (d q : Nat) : s.begun.wq d q = s.wq d q := by
  obtain ⟨_, h⟩ := s.begun_eq; rw [h]; rfl
@[simp] theorem begun_wqOwned (q : Nat) : s.begun.wqOwned q = s.wqOwned q := by
  obtain ⟨_, h⟩ := s.begun_eq; rw [h]; rfl
@[simp] theorem begun_queue (q : Nat) : s.begun.queue q = s.queue q := by
  obtain ⟨_, h⟩ := s.begun_eq; rw [h]; rfl
@[simp] theorem begun_queueOf (b : Block) : s.begun.queueOf b = s.queueOf b := by
  obtain ⟨_, h⟩ := s.begun_eq; rw [h]; rfl
@[simp] theorem begun_service (ex : List Nat) : s.begun.service ex = s.service ex := by
  obtain ⟨_, h⟩ := s.begun_eq; rw [h]; rfl
@[simp] theorem begun_lqWords (q : Nat) : s.begun.lqWords q = s.lqWords q := by
  obtain ⟨_, h⟩ := s.begun_eq; rw [h]; rfl
@[simp] theorem begun_exitList (d e : Nat) : s.begun.exitList d e = s.exitList d e := by
  obtain ⟨_, h⟩ := s.begun_eq; rw [h]; rfl
@[simp] theorem begun_engineBusy (ex : List Nat) : s.begun.engineBusy ex = s.engineBusy ex := by
  obtain ⟨_, h⟩ := s.begun_eq; rw [h]; rfl
@[simp] theorem begun_unsent (b t : Nat) : s.begun.unsent b t = s.unsent b t := by
  obtain ⟨_, h⟩ := s.begun_eq; rw [h]; rfl
@[simp] theorem begun_maskedLines (d b t : Nat) : s.begun.maskedLines d b t = s.maskedLines d b t := by
  obtain ⟨_, h⟩ := s.begun_eq; rw [h]; rfl
@[simp] theorem begun_borrow (k : Nat) : s.begun.borrow k = s.borrow k := by
  obtain ⟨_, h⟩ := s.begun_eq; rw [h]; rfl
@[simp] theorem begun_leaseMine (k : Nat) (ex : List Nat) : s.begun.leaseMine k ex = s.leaseMine k ex := by
  obtain ⟨_, h⟩ := s.begun_eq; rw [h]; rfl
@[simp] theorem begun_borrowBits (k : Nat) : s.begun.borrowBits k = s.borrowBits k := by
  obtain ⟨_, h⟩ := s.begun_eq; rw [h]; rfl
@[simp] theorem begun_leaseWriters (k : Nat) : s.begun.leaseWriters k = s.leaseWriters k := by
  obtain ⟨_, h⟩ := s.begun_eq; rw [h]; rfl
@[simp] theorem begun_keyBar (u : KeyUse) (ex : List Nat) : s.begun.keyBar u ex = s.keyBar u ex := by
  obtain ⟨_, h⟩ := s.begun_eq; rw [h]; rfl
@[simp] theorem begun_keyOf (h d : Nat) (u : Option Nat) : s.begun.keyOf h d u = s.keyOf h d u := by
  obtain ⟨_, h⟩ := s.begun_eq; rw [h]; rfl
@[simp] theorem begun_keyInUse (h : Nat) : s.begun.keyInUse h = s.keyInUse h := by
  obtain ⟨_, h⟩ := s.begun_eq; rw [h]; rfl
@[simp] theorem begun_freeKeySlots : s.begun.freeKeySlots = s.freeKeySlots := by
  obtain ⟨_, h⟩ := s.begun_eq; rw [h]; rfl
@[simp] theorem begun_resetAnswer (d : Nat) : s.begun.resetAnswer d = s.resetAnswer d := by
  obtain ⟨_, h⟩ := s.begun_eq; rw [h]; rfl
@[simp] theorem begun_usedPage (d : Nat) (p : TlbPick) : s.begun.usedPage d p = s.usedPage d p := by
  obtain ⟨_, h⟩ := s.begun_eq; rw [h]; rfl
@[simp] theorem begun_granuleBusy (g : Nat) : s.begun.granuleBusy g = s.granuleBusy g := by
  obtain ⟨_, h⟩ := s.begun_eq; rw [h]; rfl
@[simp] theorem begun_granuleOwner (g : Nat) : s.begun.granuleOwner g = s.granuleOwner g := by
  obtain ⟨_, h⟩ := s.begun_eq; rw [h]; rfl
@[simp] theorem begun_sysValue (r t : Nat) : s.begun.sysValue r t = s.sysValue r t := by
  obtain ⟨_, h⟩ := s.begun_eq; rw [h]; rfl
@[simp] theorem begun_mp : s.begun.mp = s.mp := by
  obtain ⟨_, h⟩ := s.begun_eq; rw [h]; rfl
@[simp] theorem begun_ringPhase (k u : Nat) : s.begun.ringPhase k u = s.ringPhase k u := by
  obtain ⟨_, h⟩ := s.begun_eq; rw [h]; rfl
@[simp] theorem begun_remLanes (r : Rem) : s.begun.remLanes r = s.remLanes r := by
  obtain ⟨_, h⟩ := s.begun_eq; rw [h]; rfl
@[simp] theorem begun_storing (d e : Nat) : s.begun.storing d e = s.storing d e := by
  obtain ⟨_, h⟩ := s.begun_eq; rw [h]; rfl
@[simp] theorem begun_wqWaiters (d q : Nat) : s.begun.wqWaiters d q = s.wqWaiters d q := by
  obtain ⟨_, h⟩ := s.begun_eq; rw [h]; rfl
@[simp] theorem begun_incOf (a : Nat) : s.begun.incOf a = s.incOf a := by
  obtain ⟨_, h⟩ := s.begun_eq; rw [h]; rfl
@[simp] theorem begun_slotOk (c pa : Nat) : s.begun.slotOk c pa = s.slotOk c pa := by
  obtain ⟨_, h⟩ := s.begun_eq; rw [h]; rfl
@[simp] theorem begun_ownerOk (c pa : Nat) : s.begun.ownerOk c pa = s.ownerOk c pa := by
  obtain ⟨_, h⟩ := s.begun_eq; rw [h]; rfl
@[simp] theorem begun_exitWho (d : Nat) (l : ExitList) : s.begun.exitWho d l = s.exitWho d l := by
  obtain ⟨_, h⟩ := s.begun_eq; rw [h]; rfl
@[simp] theorem begun_issued (q n : Nat) : s.begun.issued q n = s.issued q n := by
  obtain ⟨_, h⟩ := s.begun_eq; rw [h]; rfl
@[simp] theorem begun_depStatus (d : Nat × Nat) : s.begun.depStatus d = s.depStatus d := by
  obtain ⟨_, h⟩ := s.begun_eq; rw [h]; rfl
@[simp] theorem begun_refusal (l : Launcher) (p : Nat) (h : Option Nat) : s.begun.refusal l p h = s.refusal l p h := by
  obtain ⟨_, h⟩ := s.begun_eq; rw [h]; rfl
@[simp] theorem begun_fills (p : Nat) : (s.begun.part p).fills = (s.part p).fills := by
  obtain h | h := s.countIssue_cases 1
  · exact congrArg (fun u : State => (u.part p).fills) h
  · refine (congrArg (fun u : State => (u.part p).fills) h).trans ?_
    by_cases hp : p = s.cb.partOf s.sel.ctx
    · subst hp; simp
    · rw [part_modPart_ne _ hp]

@[simp] theorem begun_fillAhead (r : Rem) (c : Nat) (ls : List (Nat × Nat × Nat × List Nat)) : s.begun.fillAhead r c ls = s.fillAhead r c ls := by
  simp [fillAhead]

end State

end Sys2Proof.Machine
end

