-- ==== Sys2Proof/Laws/Compute.lean ====
section
/-! SUPPORT. Laws/Compute.lean: everything that the advance, the writing of a destination and the raising of flags do, said once:
an instruction made of them computes and changes nothing else. -/

namespace Sys2Proof.Machine

/-! ### Lists of threads updated one by one -/

theorem Block.foldl_modThr_length {α : Type} (b : Block) (l : List α) (k : α → Nat) (g : α → Thread → Thread) :
    (l.foldl (fun b e => b.modThr (k e) (g e)) b).threads.length = b.threads.length := by
  induction l generalizing b with
  | nil => rfl
  | cons e l ih => simp [ih]

theorem Block.foldl_modThr_thr (b : Block) (L : List Nat) (hn : L.Nodup) (g : Nat → Thread → Thread) (k : Nat) :
    (L.foldl (fun b l => b.modThr l (g l)) b).thr k = if k ∈ L ∧ k < b.threads.length then g k (b.thr k) else b.thr k := by
  induction L generalizing b with
  | nil => simp
  | cons l L ih =>
    obtain ⟨hl, hn⟩ := List.nodup_cons.1 hn
    rw [List.foldl_cons, ih _ hn, Block.modThr_length, Block.thr_modThr]
    by_cases hk : k = l
    · subst hk; simp [hl]
    · simp [hk]

/-- A fold of thread updates changes the threads alone. -/
theorem Block.foldl_modThr_eq {α : Type} (b : Block) (l : List α) (k : α → Nat) (g : α → Thread → Thread) :
    l.foldl (fun b e => b.modThr (k e) (g e)) b =
      { b with threads := (l.foldl (fun b e => b.modThr (k e) (g e)) b).threads } := by
  induction l generalizing b with
  | nil => rfl
  | cons e l ih => rw [List.foldl_cons, ih]; rfl

/-! ### The interval journal (R145) -/

/-- Only what the interval journal of one block holds differs. -/
structure State.quiet (s t : State) (n : Nat) : Prop where
  sel : t.sel = s.sel
  mem : t.mem = s.mem
  poison : t.poison = s.poison
  cores : t.cores = s.cores
  parts : t.parts = s.parts
  clusters : t.clusters = s.clusters
  dies : t.dies = s.dies
  hub : t.hub = s.hub
  grids : t.grids = s.grids
  other : ∀ k, k ≠ n → t.blk k = s.blk k
  self : t.blk n = { s.blk n with
    journal := (t.blk n).journal, logged := (t.blk n).logged, irrevocable := (t.blk n).irrevocable }

theorem State.quiet.refl (s : State) (n : Nat) : s.quiet s n := by constructor <;> simp

theorem State.quiet.trans {s t u : State} {n : Nat} (h : s.quiet t n) (g : t.quiet u n) : s.quiet u n where
  sel := g.sel.trans h.sel
  mem := g.mem.trans h.mem
  poison := g.poison.trans h.poison
  cores := g.cores.trans h.cores
  parts := g.parts.trans h.parts
  clusters := g.clusters.trans h.clusters
  dies := g.dies.trans h.dies
  hub := g.hub.trans h.hub
  grids := g.grids.trans h.grids
  other k hk := (g.other k hk).trans (h.other k hk)
  self := by rw [g.self, h.self]

theorem State.quiet_log (s : State) (n : Nat) (e : JEntry) : s.quiet (s.log n e) n := by
  simp only [State.log]
  split
  · exact .refl s n
  · split <;>
      exact ⟨rfl, rfl, rfl, rfl, rfl, rfl, rfl, rfl, rfl, fun k hk => by simp [State.blk_modBlk_ne _ hk], by simp⟩

theorem State.quiet_foldl {α : Type} {n : Nat} (f : State → α → State) (hf : ∀ (s : State) e, s.quiet (f s e) n) (l : List α) (s : State) :
    s.quiet (l.foldl f s) n := by
  induction l generalizing s with
  | nil => exact .refl s n
  | cons e l ih => exact (hf s e).trans (ih _)

theorem State.quiet_logRegs (s : State) (n k w : Nat) (ts : List Nat) : s.quiet (s.logRegs n k w ts) n := by
  unfold State.logRegs
  exact State.quiet_foldl _ (fun s _ => State.quiet_foldl _ (fun s _ => s.quiet_log n _) _ s) _ s

/-! ### Registers of a thread -/

theorem Thread.vreg_setV (t : Thread) (n k : Nat) (w : Word) : (t.setV n w).vreg k = if k = n then w else t.vreg k := by
  simp [Thread.setV, Thread.vreg, Sparse.getOr_putOr]

theorem Thread.setVs_keeps (t : Thread) (n : Nat) (ws : List Word) : t.setVs n ws = { t with v := (t.setVs n ws).v, bad := (t.setVs n ws).bad } := by
  induction ws generalizing t n with
  | nil => rfl
  | cons w ws ih => simp only [Thread.setVs]; rw [ih]; rfl

theorem Thread.vreg_setVs (t : Thread) (n k : Nat) (ws : List Word) :
    (t.setVs n ws).vreg k = if n ≤ k ∧ k < n + ws.length then ws.getD (k - n) 0 else t.vreg k := by
  induction ws generalizing t n with
  | nil => simp [Thread.setVs, show ¬(n ≤ k ∧ k < n) by omega]
  | cons w ws ih =>
    simp only [Thread.setVs, ih, Thread.vreg_setV, List.length_cons]
    by_cases h : k = n
    · subst h; simp
    · by_cases h1 : n + 1 ≤ k ∧ k < n + 1 + ws.length
      · rw [if_pos h1, if_pos (by omega), show k - n = (k - (n + 1)) + 1 by omega]; simp
      · rw [if_neg h1, if_neg h, if_neg (by omega)]

theorem Thread.bad_setVs (t : Thread) (n k : Nat) (ws : List Word) (h : ¬(n ≤ k ∧ k < n + ws.length)) :
    k ∈ (t.setVs n ws).bad ↔ k ∈ t.bad := by
  induction ws generalizing t n with
  | nil => exact .rfl
  | cons w ws ih =>
    simp only [List.length_cons] at h
    simp only [Thread.setVs]
    rw [ih _ _ (by omega)]
    simp only [Thread.setV, List.mem_filter, bne_iff_ne, ne_eq, and_iff_left_iff_imp]
    rintro - rfl
    exact h (by omega)

@[simp] theorem length_toWords (n x : Nat) : (toWords n x).length = n := by
  induction n generalizing x with
  | zero => rfl
  | succ n ih => simp [toWords, ih]

theorem getD_toWords {n k : Nat} (h : k < n) (x : Nat) : (toWords n x).getD k 0 = wordOf x k := by
  induction n generalizing x k with
  | zero => omega
  | succ n ih =>
    cases k with
    | zero => simp [toWords, wordOf]
    | succ k =>
      simp only [toWords, List.getD_cons_succ]
      rw [ih (by omega), wordOf, wordOf, Nat.div_div_eq_div_mul, ← Nat.pow_add]
      congr 3; ring

theorem Thread.pred_setPred (t : Thread) (n q : BitVec 3) (v : Bool) :
    (t.setPred n v).pred q = if q = n then (n == 7 || v) else t.pred q := by
  by_cases h7 : n = 7
  · subst h7
    simp only [Thread.setPred, if_true, Thread.pred]
    split <;> simp_all
  · simp only [Thread.setPred, h7, if_false, Thread.pred]
    by_cases hq : q = n
    · subst hq
      have : (q == 7) = false := beq_eq_false_iff_ne.2 h7
      simp only [this, Bool.false_or, if_true]
      have hb : ∀ (q : BitVec 3) (p : BitVec 7) (v : Bool), q ≠ 7 →
          (p &&& ~~~(1#7 <<< q.toNat) ||| if v = true then 1#7 <<< q.toNat else 0).getLsbD q.toNat = v := by decide +kernel
      exact hb q t.p v h7
    · simp only [hq, if_false]
      have hb : ∀ (q n : BitVec 3) (p : BitVec 7) (v : Bool), q ≠ n →
          (p &&& ~~~(1#7 <<< n.toNat) ||| if v = true then 1#7 <<< n.toNat else 0).getLsbD q.toNat = p.getLsbD q.toNat := by
        decide +kernel
      rw [hb q n t.p v hq]

/-! ### The parts of a computing instruction -/

namespace State

/-- The advance. -/
theorem advance_thr (s : State) (len l : Nat) : (s.advance len).cb.thr l =
    if l ∈ s.sel.act ∧ l < s.cb.threads.length then
      { s.cb.thr l with pc := s.sel.pc + .ofNat 64 len, wait := .none, group := 0 }
    else s.cb.thr l := by
  simp [advance, Block.thr_modThrs]

/-- Scalar registers after a write of consecutive ones. -/
theorem getOr_putAll (f : Sparse Word) (n k : Nat) (ws : List Word) (o : Nat) :
    Sparse.getOr ((ws.zipIdx o).foldl (fun f e => Sparse.putOr f (n + e.2) e.1 0) f) k 0 =
      if n + o ≤ k ∧ k < n + o + ws.length then ws.getD (k - (n + o)) 0 else Sparse.getOr f k 0 := by
  induction ws generalizing f o with
  | nil => simp [show ¬(n + o ≤ k ∧ k < n + o) by omega]
  | cons w ws ih =>
    rw [List.zipIdx_cons, List.foldl_cons, ih, Sparse.getOr_putOr]
    simp only [List.length_cons]
    by_cases h : k = n + o
    · subst h; simp
    · by_cases h1 : n + (o + 1) ≤ k ∧ k < n + (o + 1) + ws.length
      · rw [if_pos h1, if_pos (by omega), show k - (n + o) = (k - (n + (o + 1))) + 1 by omega]; simp
      · rw [if_neg h1, if_neg h, if_neg (by omega)]

/-! ### Everything outside the issuing block -/

/-- Only the issuing block differs. -/
structure within (s t : State) : Prop where
  sel : t.sel = s.sel
  mem : t.mem = s.mem
  poison : t.poison = s.poison
  cores : t.cores = s.cores
  parts : t.parts = s.parts
  clusters : t.clusters = s.clusters
  dies : t.dies = s.dies
  hub : t.hub = s.hub
  grids : t.grids = s.grids
  other : ∀ k, k ≠ s.sel.blk → t.blk k = s.blk k

theorem within.refl (s : State) : s.within s := by constructor <;> simp

theorem within.trans {s t u : State} (h : s.within t) (g : t.within u) : s.within u where
  sel := g.sel.trans h.sel
  mem := g.mem.trans h.mem
  poison := g.poison.trans h.poison
  cores := g.cores.trans h.cores
  parts := g.parts.trans h.parts
  clusters := g.clusters.trans h.clusters
  dies := g.dies.trans h.dies
  hub := g.hub.trans h.hub
  grids := g.grids.trans h.grids
  other k hk := (g.other k (by rw [h.sel]; exact hk)).trans (h.other k hk)

theorem within_modCb (s : State) (f : Block → Block) : s.within (s.modCb f) :=
  ⟨rfl, rfl, rfl, rfl, rfl, rfl, rfl, rfl, rfl, fun _ hk => blk_modCb_ne s hk f⟩

theorem quiet.within {s t : State} (h : s.quiet t s.sel.blk) : s.within t :=
  ⟨h.sel, h.mem, h.poison, h.cores, h.parts, h.clusters, h.dies, h.hub, h.grids, h.other⟩

theorem within_setSregs (s : State) (n : Nat) (ws : List Word) : s.within (s.setSregs n ws) := by
  unfold setSregs
  cases s.sel.ctx <;> exact s.within_modCb _

theorem within_write (s : State) (d : Dst) (n : Nat) (vals : List (Nat × Nat)) : s.within (s.write d n vals) := by
  unfold write
  split
  · exact (s.quiet_logRegs _ _ _ _).within.trans (within_modCb _ _)
  · exact s.within_modCb _
  · split
    · exact .refl s
    · exact s.within_setSregs _ _
  · exact .refl s
  · exact .refl s

theorem within_flagLanes (s : State) (fs : List (Nat × BitVec 6)) : s.within (s.flagLanes fs) := s.within_modCb _

theorem within_advance (s : State) (len : Nat) : s.within (s.advance len) := s.within_modCb _

/-- What holds outside the issuing block of a begun issue. -/
theorem within.keepsOutside {s t : State} (h : s.begun.within t) : s.keepsOutside t := by
  refine ⟨fun a => by simp [h.mem], by simp [h.poison], by simp [h.cores], by simp [h.clusters], by simp [h.dies], by simp [h.hub],
    by simp [h.grids], by simp [h.sel], fun n hn => ?_, fun p => ?_⟩
  · rw [h.other n (by simpa using hn)]; simp
  · have : t.part p = s.begun.part p := by simp [part, h.parts]
    rw [this]
    exact s.countIssue_part 1 p

/-! ### The issuing block -/

/-- The threads after a destination is written (R17, R18, R75). -/
theorem write_thr (s : State) (d : Dst) (n : Nat) (L : List Nat) (hL : L.Nodup) (h : Nat → Nat) (l : Nat) :
    (s.write d n (L.map fun k => (k, h k))).cb.thr l =
      if l ∈ L ∧ l < s.cb.threads.length then
        match d with
        | .v m => (s.cb.thr l).setVs m.toNat (toWords n (h l))
        | .p m => (s.cb.thr l).setPred m (h l != 0)
        | _ => s.cb.thr l
      else s.cb.thr l := by
  unfold write
  cases d with
  | v m =>
    have hm : (L.map fun k => (k, h k)).map (·.1) = L := by simp [Function.comp_def]
    simp only [hm]
    have q := s.quiet_logRegs s.sel.blk m.toNat n L
    have hc : (s.logRegs s.sel.blk m.toNat n L).cb.threads = s.cb.threads := by
      simp only [cb, q.sel]; rw [q.self]
    have ht : ∀ k, (s.logRegs s.sel.blk m.toNat n L).cb.thr k = s.cb.thr k := fun k => by
      simp only [Block.thr, hc]
    simp only [cb_modCb, List.foldl_map]
    rw [Block.foldl_modThr_thr _ L hL (fun k t => t.setVs m.toNat (toWords n (h k)))]
    simp [hc, ht]
  | p m =>
    simp only [cb_modCb, List.foldl_map]
    rw [Block.foldl_modThr_thr _ L hL (fun k t => t.setPred m (h k != 0))]
  | s m =>
    cases L with
    | nil => simp
    | cons a as =>
      simp only [List.map_cons, setSregs]
      cases s.sel.ctx with
      | home b => simp
      | drawn k =>
        simp only [cb_modCb, Block.modDrawn]
        split <;> simp [Block.thr]
  | j m => simp
  | discard => simp

/-- The threads after flags are raised (R69). -/
theorem flagLanes_thr (s : State) (L : List Nat) (hL : L.Nodup) (h : Nat → BitVec 6) (l : Nat) :
    (s.flagLanes (L.map fun k => (k, h k))).cb.thr l =
      if l ∈ L ∧ l < s.cb.threads.length then (s.cb.thr l).flag (h l) else s.cb.thr l := by
  simp only [flagLanes, cb_modCb, List.foldl_map]
  generalize s.cb = b
  induction L generalizing b with
  | nil => simp
  | cons a L ih =>
    obtain ⟨ha, hL⟩ := List.nodup_cons.1 hL
    rw [List.foldl_cons, ih hL]
    by_cases h0 : h a = 0
    · simp only [h0, if_true]
      by_cases hk : l = a
      · subst hk
        simp only [ha, false_and, if_false, List.mem_cons, true_or, true_and]
        split
        · simp [Thread.flag, h0]
        · rfl
      · simp [hk]
    · simp only [h0, if_false, Block.modThr_length, Block.thr_modThr]
      by_cases hk : l = a
      · subst hk; simp [ha]
      · simp [hk]

theorem flagLanes_cb (s : State) (fs : List (Nat × BitVec 6)) :
    (s.flagLanes fs).cb = { s.cb with threads := (s.flagLanes fs).cb.threads } := by
  simp only [flagLanes, cb_modCb]
  generalize s.cb = b
  induction fs generalizing b with
  | nil => rfl
  | cons e fs ih =>
    rw [List.foldl_cons, ih]
    split <;> rfl

theorem advance_cb (s : State) (len : Nat) : (s.advance len).cb = { s.cb with threads := (s.advance len).cb.threads } := by
  simp only [advance, cb_modCb]; rfl

/-- The block after a destination is written, but for its threads. -/
theorem write_cb (s : State) (d : Dst) (n : Nat) (vals : List (Nat × Nat)) : s.cb.keeps (s.write d n vals).cb := by
  unfold write Block.keeps
  cases d with
  | v m =>
    have q := s.quiet_logRegs s.sel.blk m.toNat n (vals.map (·.1))
    simp only [cb_modCb]
    generalize s.logRegs s.sel.blk m.toNat n (vals.map (·.1)) = u at q ⊢
    rw [Block.foldl_modThr_eq]
    simp only [cb, q.sel]
    rw [q.self]
  | p m => simp only [cb_modCb]; rw [Block.foldl_modThr_eq]
  | s m =>
    cases vals with
    | nil => rfl
    | cons a as =>
      simp only [setSregs]
      cases s.sel.ctx with
      | home b => simp only [cb_modCb]; rfl
      | drawn k => simp only [cb_modCb, Block.modDrawn]; split <;> rfl
  | j m => rfl
  | discard => rfl

theorem write_length (s : State) (d : Dst) (n : Nat) (vals : List (Nat × Nat)) :
    (s.write d n vals).cb.threads.length = s.cb.threads.length := by
  unfold write
  cases d with
  | v m =>
    have q := s.quiet_logRegs s.sel.blk m.toNat n (vals.map (·.1))
    simp only [cb_modCb]
    rw [Block.foldl_modThr_length]
    simp only [cb, q.sel]; rw [q.self]
  | p m => simp only [cb_modCb]; rw [Block.foldl_modThr_length]
  | s m =>
    cases vals with
    | nil => rfl
    | cons a as =>
      simp only [setSregs]
      cases s.sel.ctx with
      | home b => simp
      | drawn k => simp only [cb_modCb, Block.modDrawn]; split <;> simp
  | j m => rfl
  | discard => rfl

/-- The bundles and drawn bundles after a destination is written: only an s destination touches them. -/
theorem write_files (s : State) (d : Dst) (n : Nat) (vals : List (Nat × Nat)) :
    ((s.write d n vals).cb.bundles = s.cb.bundles ∧ (s.write d n vals).cb.drawn = s.cb.drawn) ∨
    ∃ m v, d = .s m ∧ vals.head? = some v ∧ s.write d n vals = s.setSregs m.toNat (toWords n v.2) := by
  cases d with
  | v m =>
    left
    have q := s.quiet_logRegs s.sel.blk m.toNat n (vals.map (·.1))
    simp only [write, cb_modCb]
    rw [Block.foldl_modThr_eq]
    constructor <;> (simp only [cb, q.sel]; rw [q.self])
  | p m => left; simp only [write, cb_modCb]; rw [Block.foldl_modThr_eq]; exact ⟨rfl, rfl⟩
  | s m =>
    cases vals with
    | nil => exact .inl ⟨rfl, rfl⟩
    | cons v vs => exact .inr ⟨m, v, rfl, rfl, rfl⟩
  | j m => exact .inl ⟨rfl, rfl⟩
  | discard => exact .inl ⟨rfl, rfl⟩

/-! ### The whole -/

theorem exe_nodup {s : State} (h : s.selOk = true) (g : Guard) : (s.exe g).Nodup := by
  simp only [selOk, Bool.and_eq_true, decide_eq_true_eq] at h
  exact h.1.2.filter _

theorem act_lt {s : State} (h : s.selOk = true) {l : Nat} (hl : l ∈ s.sel.act) : l < s.cb.threads.length := by
  simp only [selOk, Bool.and_eq_true, List.all_eq_true, decide_eq_true_eq] at h
  exact h.2 l hl

theorem exe_sub {s : State} {g : Guard} {l : Nat} (hl : l ∈ s.exe g) : l ∈ s.sel.act := (List.mem_filter.1 hl).1

theorem setSregs_bundle (s : State) (n : Nat) (ws : List Word) (b : Nat) :
    (s.setSregs n ws).cb.bundle b =
      { s.cb.bundle b with s := ((s.setSregs n ws).cb.bundle b).s, bad := ((s.setSregs n ws).cb.bundle b).bad } := by
  unfold setSregs
  cases s.sel.ctx with
  | home k => simp only [cb_modCb, Block.bundle_modBundle]; split <;> rfl
  | drawn k => simp only [cb_modCb, Block.modDrawn]; split <;> rfl

theorem setSregs_bundle_other (s : State) (n : Nat) (ws : List Word) {b : Nat} (h : s.sel.ctx ≠ .home b) :
    (s.setSregs n ws).cb.bundle b = s.cb.bundle b := by
  unfold setSregs
  cases hc : s.sel.ctx with
  | home k =>
    simp only [cb_modCb, Block.bundle_modBundle]
    rw [if_neg]
    rintro ⟨rfl, -⟩
    exact h hc
  | drawn k => simp only [cb_modCb, Block.modDrawn]; split <;> rfl

theorem setSregs_drawn (s : State) (n : Nat) (ws : List Word) (k : Nat) :
    Sparse.look (s.setSregs n ws).cb.drawn k = (Sparse.look s.cb.drawn k).map fun d =>
      { d with s := if s.sel.ctx = .drawn k then (s.setSregs n ws).sfile else d.s
               bad := if s.sel.ctx = .drawn k then (s.setSregs n ws).sbad else d.bad } := by
  have hs : (s.setSregs n ws).sel = s.sel := (s.within_setSregs n ws).sel
  unfold setSregs at hs ⊢
  cases hc : s.sel.ctx with
  | home j => simp
  | drawn j =>
    simp only [hc] at hs ⊢
    simp only [sfile, sbad, cb_modCb, Block.modDrawn, modCb_sel]
    split
    · rename_i d hd
      simp only [Sparse.look_put]
      by_cases hk : k = j
      · subst hk; simp [hd, hc]
      · simp [hk, Ne.symm hk]
    · rename_i hd
      by_cases hk : k = j
      · subst hk; simp [hd]
      · simp [Ne.symm hk]

theorem setSregs_sbad (s : State) {n k : Nat} {ws : List Word} (h : ¬(n ≤ k ∧ k < n + ws.length)) :
    k ∈ (s.setSregs n ws).sbad ↔ k ∈ s.sbad := by
  have hs : (s.setSregs n ws).sel = s.sel := (s.within_setSregs n ws).sel
  have hf : ∀ l : List Nat, k ∈ l.filter (fun k => !(n ≤ k && k < n + ws.length)) ↔ k ∈ l := fun l => by
    simp only [List.mem_filter, Bool.not_eq_true', Bool.and_eq_false_iff, decide_eq_false_iff_not, and_iff_left_iff_imp]
    intro _; omega
  simp only [sbad, hs]
  unfold setSregs
  cases hx : s.sel.ctx with
  | home b =>
    simp only [cb_modCb, Block.bundle_modBundle]
    split
    · rename_i hb; exact hf _
    · exact .rfl
  | drawn j =>
    simp only [cb_modCb, Block.modDrawn]
    split
    · rename_i d hd; simp only [Sparse.look_put, hd, if_true, Option.map_some, Option.getD_some]; exact hf _
    · exact .rfl

theorem setSregs_sreg (s : State) (hc : s.ctxOk = true) (n k : Nat) (ws : List Word) :
    (s.setSregs n ws).sreg k = if n ≤ k ∧ k < n + ws.length then ws.getD (k - n) 0 else s.sreg k := by
  have hs : (s.setSregs n ws).sel = s.sel := (s.within_setSregs n ws).sel
  have key : (s.setSregs n ws).sfile = (ws.zipIdx).foldl (fun f e => Sparse.putOr f (n + e.2) e.1 0) s.sfile := by
    simp only [sfile, hs]
    unfold setSregs
    unfold ctxOk at hc
    cases hx : s.sel.ctx with
    | home b =>
      rw [hx] at hc
      simp only [decide_eq_true_eq] at hc
      simp [Block.bundle_modBundle, hc]
    | drawn j =>
      rw [hx] at hc
      obtain ⟨d, hd⟩ := Option.isSome_iff_exists.1 hc
      simp [Block.modDrawn, hd]
  simp only [sreg, key]
  have := getOr_putAll s.sfile n k ws 0
  simpa using this

/-- An issue that advances, writes a destination in its executing lanes and raises their flags has computed those values and done
nothing else. -/
theorem computes {s : State} (hsel : s.selOk = true) (hctx : s.ctxOk = true) (x : Opnds) (n : Nat) (f : Nat → Nat × BitVec 6) :
    s.computed (((s.begun.advance x.ext.bytes).write x.d n ((s.exe x.g).map fun l => (l, (f l).1))).flagLanes
      ((s.exe x.g).map fun l => (l, (f l).2))) x n f := by
  have hn := exe_nodup hsel x.g
  generalize ha : s.begun.advance x.ext.bytes = a
  generalize hu : a.write x.d n ((s.exe x.g).map fun l => (l, (f l).1)) = u
  generalize ht : u.flagLanes ((s.exe x.g).map fun l => (l, (f l).2)) = t
  have wa : s.begun.within a := ha ▸ within_advance _ _
  have wu : a.within u := hu ▸ within_write _ _ _ _
  have wt : u.within t := ht ▸ within_flagLanes _ _
  have w : s.begun.within t := (wa.trans wu).trans wt
  have la : a.cb.threads.length = s.cb.threads.length := by rw [← ha]; simp [advance]
  have lu : u.cb.threads.length = a.cb.threads.length := hu ▸ write_length _ _ _ _
  have lt_ : t.cb.threads.length = u.cb.threads.length := by
    rw [← ht]
    simp only [flagLanes, cb_modCb]
    generalize (s.exe x.g).map (fun l => (l, (f l).2)) = fs
    generalize u.cb = b
    induction fs generalizing b with
    | nil => rfl
    | cons e fs ih => rw [List.foldl_cons, ih]; split <;> simp
  have ta : ∀ l, a.cb.thr l = if l ∈ s.sel.act ∧ l < s.cb.threads.length then
      { s.cb.thr l with pc := s.sel.pc + .ofNat 64 x.ext.bytes, wait := .none, group := 0 } else s.cb.thr l := fun l => by
    rw [← ha]; simpa using s.begun.advance_thr x.ext.bytes l
  have tu := fun l => hu ▸ write_thr a x.d n (s.exe x.g) hn (fun l => (f l).1) l
  have tt := fun l => ht ▸ flagLanes_thr u (s.exe x.g) hn (fun l => (f l).2) l
  have ka : s.cb.keeps a.cb := by
    have := s.begun.advance_cb x.ext.bytes
    rw [ha, begun_cb] at this
    rw [this]; rfl
  have ku : a.cb.keeps u.cb := hu ▸ write_cb _ _ _ _
  have et : t.cb = { u.cb with threads := t.cb.threads } := ht ▸ flagLanes_cb _ _
  have act_of : ∀ {l}, l ∈ s.exe x.g → l ∈ s.sel.act ∧ l < s.cb.threads.length := fun hl =>
    ⟨exe_sub hl, act_lt hsel (exe_sub hl)⟩
  have files : t.cb.bundles = u.cb.bundles ∧ t.cb.drawn = u.cb.drawn := by rw [et]; exact ⟨rfl, rfl⟩
  have afiles : a.cb.bundles = s.cb.bundles ∧ a.cb.drawn = s.cb.drawn := by
    have := s.begun.advance_cb x.ext.bytes
    rw [ha, begun_cb] at this
    rw [this]; exact ⟨rfl, rfl⟩
  have selt : t.sel = s.sel := by rw [w.sel, begun_sel]
  have sela : a.sel = s.sel := by rw [wa.sel, begun_sel]
  have actx : a.ctxOk = true := by
    unfold ctxOk at hctx ⊢
    rw [sela, afiles.1, afiles.2]; exact hctx
  have sfile_t : t.sfile = u.sfile := by
    have : u.sel = t.sel := wt.sel.symm
    simp only [sfile, this, files.2, Block.bundle, files.1]
  have sreg_a : ∀ k, a.sreg k = s.sreg k := fun k => by
    simp only [sreg, sfile, sela, Block.bundle, afiles.1, afiles.2]
  have sreg_t : ∀ k, t.sreg k = u.sreg k := fun k => by simp only [sreg, sfile_t]
  have sbad_a : a.sbad = s.sbad := by simp only [sbad, sela, Block.bundle, afiles.1, afiles.2]
  have sbad_t : t.sbad = u.sbad := by
    have : u.sel = t.sel := wt.sel.symm
    simp only [sbad, this, files.2, Block.bundle, files.1]
  refine ⟨?_, ⟨?_, ?_⟩, ?_, w.keepsOutside, ?_, ⟨?_, ?_, ?_, ?_, ?_⟩, ?_, ?_, ?_, ?_⟩
  · -- the destination
    unfold holds
    cases hd : x.d with
    | v m =>
      intro l hl k hk
      rw [tt, if_pos ⟨hl, by rw [lu, la]; exact (act_of hl).2⟩, tu, if_pos ⟨hl, by rw [la]; exact (act_of hl).2⟩]
      simp only [hd, Thread.flag, Thread.vreg]
      have := Thread.vreg_setVs (a.cb.thr l) m.toNat (m.toNat + k) (toWords n (f l).1)
      simp only [Thread.vreg, length_toWords] at this
      rw [this, if_pos (by omega), Nat.add_sub_cancel_left, getD_toWords hk]
    | p m =>
      intro l hl
      rw [tt, if_pos ⟨hl, by rw [lu, la]; exact (act_of hl).2⟩, tu, if_pos ⟨hl, by rw [la]; exact (act_of hl).2⟩]
      simp only [hd]
      have := Thread.pred_setPred (a.cb.thr l) m m ((f l).1 != 0)
      simpa [Thread.flag, Thread.pred] using this
    | s m =>
      intro l hl k hk
      have hh : (s.exe x.g).head? = some l := hl
      obtain ⟨L, hL⟩ : ∃ L, s.exe x.g = l :: L := by
        cases he : s.exe x.g with
        | nil => simp [he] at hh
        | cons b L => simp [he] at hh; exact ⟨L, by rw [hh]⟩
      rw [sreg_t, ← hu, hL, hd]
      show (a.setSregs m.toNat (toWords n (f l).1)).sreg (m.toNat + k) = _
      rw [setSregs_sreg a actx, if_pos (by simp; omega), Nat.add_sub_cancel_left, getD_toWords hk]
    | j m => trivial
    | discard => trivial
  · -- flags of the executing lanes
    intro l hl
    rw [tt, if_pos ⟨hl, by rw [lu, la]; exact (act_of hl).2⟩]
    have : (u.cb.thr l).nflags = (s.cb.thr l).nflags := by
      rw [tu, if_pos ⟨hl, by rw [la]; exact (act_of hl).2⟩]
      have : (a.cb.thr l).nflags = (s.cb.thr l).nflags := by rw [ta]; split <;> rfl
      cases x.d with
      | v m => simp only []; rw [Thread.setVs_keeps]; exact this
      | p m => simp only [Thread.setPred]; split <;> exact this
      | s m => exact this
      | j m => exact this
      | discard => exact this
    simp only [Thread.flag, this]
  · -- flags of the others
    intro l hl
    rw [tt, if_neg (fun h => hl h.1), tu, if_neg (fun h => hl h.1), ta]
    split <;> rfl
  · -- the advance
    intro l hl
    have hb := act_lt hsel hl
    have base : (a.cb.thr l).pc = s.sel.pc + .ofNat 64 x.ext.bytes ∧ (a.cb.thr l).wait = .none := by
      rw [ta, if_pos ⟨hl, hb⟩]; exact ⟨rfl, rfl⟩
    have mid : (u.cb.thr l).pc = s.sel.pc + .ofNat 64 x.ext.bytes ∧ (u.cb.thr l).wait = .none := by
      rw [tu]
      split
      · cases x.d with
        | v m => simp only []; rw [Thread.setVs_keeps]; exact base
        | p m => simp only [Thread.setPred]; split <;> exact base
        | s m => exact base
        | j m => exact base
        | discard => exact base
      · exact base
    rw [tt]
    split <;> exact mid
  · -- the block
    unfold Block.keeps at ka ku ⊢
    rw [et, ku, ka]
  · -- vector registers
    intro l k hk
    have base : (a.cb.thr l).vreg k = (s.cb.thr l).vreg k ∧ (k ∈ (a.cb.thr l).bad ↔ k ∈ (s.cb.thr l).bad) := by
      rw [ta]; split <;> exact ⟨rfl, .rfl⟩
    have mid : (u.cb.thr l).vreg k = (s.cb.thr l).vreg k ∧ (k ∈ (u.cb.thr l).bad ↔ k ∈ (s.cb.thr l).bad) := by
      rw [tu]
      split
      · rename_i h
        cases hd : x.d with
        | v m =>
          simp only [Thread.vreg_setVs, length_toWords]
          rw [if_neg (hk m hd h.1), Thread.bad_setVs _ _ _ _ (by rw [length_toWords]; exact hk m hd h.1)]; exact base
        | p m => simp only [Thread.setPred]; split <;> exact base
        | s m => exact base
        | j m => exact base
        | discard => exact base
      · exact base
    rw [tt]
    split <;> exact mid
  · -- predicates
    intro l q hq
    have base : (a.cb.thr l).pred q = (s.cb.thr l).pred q := by rw [ta]; split <;> rfl
    have mid : (u.cb.thr l).pred q = (s.cb.thr l).pred q := by
      rw [tu]
      split
      · rename_i h
        cases hd : x.d with
        | v m => simp only []; rw [Thread.setVs_keeps]; exact base
        | p m =>
          simp only [Thread.pred_setPred]
          split
          · rename_i hqm; subst hqm; exact absurd h.1 (hq hd)
          · exact base
        | s m => exact base
        | j m => exact base
        | discard => exact base
      · exact base
    rw [tt]
    split <;> exact mid
  · -- other threads
    intro l hl
    have hne : l ∉ s.exe x.g := fun h => hl (exe_sub h)
    rw [tt, if_neg (fun h => hne h.1), tu, if_neg (fun h => hne h.1), ta, if_neg (fun h => hl h.1)]
  · -- the rest of each thread
    intro l
    have base : (s.cb.thr l).keeps (a.cb.thr l) := by rw [ta]; split <;> rfl
    have mid : (s.cb.thr l).keeps (u.cb.thr l) := by
      rw [tu]
      unfold Thread.keeps at base ⊢
      split
      · cases x.d with
        | v m => simp only []; rw [Thread.setVs_keeps, base]
        | p m => simp only [Thread.setPred]; split <;> rw [base]
        | s m => exact base
        | j m => exact base
        | discard => exact base
      · exact base
    rw [tt]
    unfold Thread.keeps at mid ⊢
    split
    · simp only [Thread.flag]; rw [mid]
    · exact mid
  · rw [lt_, lu, la]
  · -- scalar registers
    intro k hk
    rw [sreg_t, ← sreg_a k, sbad_t, ← sbad_a]
    obtain h | ⟨m, v, hd, hv, h⟩ := a.write_files x.d n ((s.exe x.g).map fun l => (l, (f l).1))
    · rw [hu] at h
      have : u.sel = a.sel := wu.sel
      simp only [sreg, sfile, sbad, this, Block.bundle, h.1, h.2]; exact ⟨trivial, trivial⟩
    · rw [hu] at h
      have out : ¬(m.toNat ≤ k ∧ k < m.toNat + (toWords n v.2).length) := by
        rw [length_toWords]
        refine hk m hd ?_
        rintro he
        simp [he] at hv
      rw [h, setSregs_sreg a actx, if_neg out, setSregs_sbad a out]
      exact ⟨rfl, .rfl⟩
  · intro b hb
    have : t.cb.bundle b = u.cb.bundle b := by simp only [Block.bundle, files.1]
    rw [this]
    have hab : a.cb.bundle b = s.cb.bundle b := by simp only [Block.bundle, afiles.1]
    obtain h | ⟨m, v, hd, hv, h⟩ := a.write_files x.d n ((s.exe x.g).map fun l => (l, (f l).1))
    · rw [hu] at h; simp only [Block.bundle, h.1, afiles.1]
    · rw [hu] at h; rw [h, setSregs_bundle_other a _ _ (by rw [sela]; exact hb), hab]
  · intro b
    have : t.cb.bundle b = u.cb.bundle b := by simp only [Block.bundle, files.1]
    rw [this]
    have hab : a.cb.bundle b = s.cb.bundle b := by simp only [Block.bundle, afiles.1]
    obtain h | ⟨m, v, hd, hv, h⟩ := a.write_files x.d n ((s.exe x.g).map fun l => (l, (f l).1))
    · rw [hu] at h
      have : u.cb.bundle b = s.cb.bundle b := by simp only [Block.bundle, h.1, afiles.1]
      rw [this]
    · rw [hu] at h; rw [h, setSregs_bundle, hab]
  · intro k
    rw [files.2, sfile_t, sbad_t]
    obtain h | ⟨m, v, hd, hv, h⟩ := a.write_files x.d n ((s.exe x.g).map fun l => (l, (f l).1))
    · rw [hu] at h
      rw [h.2, afiles.2]
      have hf : u.sfile = s.sfile := by
        have : u.sel = s.sel := by rw [wu.sel, sela]
        simp only [sfile, this, Block.bundle, h.1, h.2, afiles.1, afiles.2]
      have hg : u.sbad = s.sbad := by
        have : u.sel = s.sel := by rw [wu.sel, sela]
        simp only [sbad, this, Block.bundle, h.1, h.2, afiles.1, afiles.2]
      cases hk : Sparse.look s.cb.drawn k with
      | none => rfl
      | some d =>
        simp only [Option.map_some]
        split
        · rename_i hc
          rw [hf, hg]; simp only [sfile, sbad, hc, hk]; rfl
        · rfl
    · rw [hu] at h
      rw [h, setSregs_drawn, afiles.2, sela]

end State

end Sys2Proof.Machine
end

