-- ==== Sys2Proof/Laws/Dispatch.lean ====
section
/-! SUPPORT. Laws/Dispatch.lean: each instruction and event has its own meaning: one equation for each arm of `exec`. -/

namespace Sys2Proof.Machine

variable (s : State)

@[simp] theorem exec_nop (x : Opnds) :
    exec (.nop x) s = execNop x s := rfl
@[simp] theorem exec_iadd (x : Opnds) (t : ITy) (sat : Bool) :
    exec (.iadd x t sat) s = execIadd x t sat s := rfl
@[simp] theorem exec_isub (x : Opnds) (t : ITy) (sat : Bool) :
    exec (.isub x t sat) s = execIsub x t sat s := rfl
@[simp] theorem exec_imul (x : Opnds) (t : ITy) (sat : Bool) :
    exec (.imul x t sat) s = execImul x t sat s := rfl
@[simp] theorem exec_imulhi (x : Opnds) (t : ITy) :
    exec (.imulhi x t) s = execImulhi x t s := rfl
@[simp] theorem exec_imad (x : Opnds) (t : ITy) (sat : Bool) :
    exec (.imad x t sat) s = execImad x t sat s := rfl
@[simp] theorem exec_imin (x : Opnds) (t : ITy) :
    exec (.imin x t) s = execImin x t s := rfl
@[simp] theorem exec_imax (x : Opnds) (t : ITy) :
    exec (.imax x t) s = execImax x t s := rfl
@[simp] theorem exec_iabs (x : Opnds) (t : ITy) (sat : Bool) :
    exec (.iabs x t sat) s = execIabs x t sat s := rfl
@[simp] theorem exec_ineg (x : Opnds) (t : ITy) (sat : Bool) :
    exec (.ineg x t sat) s = execIneg x t sat s := rfl
@[simp] theorem exec_shl (x : Opnds) (t : ITy) (clamp : Bool) :
    exec (.shl x t clamp) s = execShl x t clamp s := rfl
@[simp] theorem exec_shr (x : Opnds) (t : ITy) (clamp : Bool) :
    exec (.shr x t clamp) s = execShr x t clamp s := rfl
@[simp] theorem exec_sar (x : Opnds) (t : ITy) (clamp : Bool) :
    exec (.sar x t clamp) s = execSar x t clamp s := rfl
@[simp] theorem exec_rot (x : Opnds) (t : ITy) :
    exec (.rot x t) s = execRot x t s := rfl
@[simp] theorem exec_and (x : Opnds) (t : ITy) :
    exec (.and x t) s = execAnd x t s := rfl
@[simp] theorem exec_or (x : Opnds) (t : ITy) :
    exec (.or x t) s = execOr x t s := rfl
@[simp] theorem exec_xor (x : Opnds) (t : ITy) :
    exec (.xor x t) s = execXor x t s := rfl
@[simp] theorem exec_not (x : Opnds) (t : ITy) :
    exec (.not x t) s = execNot x t s := rfl
@[simp] theorem exec_lut3 (x : Opnds) (wide : Bool) (tbl : BitVec 8) :
    exec (.lut3 x wide tbl) s = execLut3 x wide tbl s := rfl
@[simp] theorem exec_popc (x : Opnds) (t : ITy) :
    exec (.popc x t) s = execPopc x t s := rfl
@[simp] theorem exec_clz (x : Opnds) (t : ITy) :
    exec (.clz x t) s = execClz x t s := rfl
@[simp] theorem exec_brev (x : Opnds) (t : ITy) :
    exec (.brev x t) s = execBrev x t s := rfl
@[simp] theorem exec_bfe (x : Opnds) (t : ITy) :
    exec (.bfe x t) s = execBfe x t s := rfl
@[simp] theorem exec_bfi (x : Opnds) (t : ITy) :
    exec (.bfi x t) s = execBfi x t s := rfl
@[simp] theorem exec_icmp (x : Opnds) (t : ITy) (cc : Cc) :
    exec (.icmp x t cc) s = execIcmp x t cc s := rfl
@[simp] theorem exec_sel (x : Opnds) (t : ITy) :
    exec (.sel x t) s = execSel x t s := rfl
@[simp] theorem exec_mov (x : Opnds) (t : ITy) :
    exec (.mov x t) s = execMov x t s := rfl
@[simp] theorem exec_iaddc (x : Opnds) (t : ITy) (cp : BitVec 3) :
    exec (.iaddc x t cp) s = execIaddc x t cp s := rfl
@[simp] theorem exec_lea (x : Opnds) (t : ITy) (sh : BitVec 3) :
    exec (.lea x t sh) s = execLea x t sh s := rfl
@[simp] theorem exec_imadWide (x : Opnds) (t : ITy) (sat : Bool) :
    exec (.imadWide x t sat) s = execImadWide x t sat s := rfl
@[simp] theorem exec_prmt (x : Opnds) :
    exec (.prmt x) s = execPrmt x s := rfl
@[simp] theorem exec_isad (x : Opnds) (t : ITy) (sat : Bool) :
    exec (.isad x t sat) s = execIsad x t sat s := rfl
@[simp] theorem exec_fadd (x : Opnds) (t : FTy) (m : FMods) :
    exec (.fadd x t m) s = execFadd x t m s := rfl
@[simp] theorem exec_fsub (x : Opnds) (t : FTy) (m : FMods) :
    exec (.fsub x t m) s = execFsub x t m s := rfl
@[simp] theorem exec_fmul (x : Opnds) (t : FTy) (m : FMods) :
    exec (.fmul x t m) s = execFmul x t m s := rfl
@[simp] theorem exec_ffma (x : Opnds) (t : FTy) (m : FMods) :
    exec (.ffma x t m) s = execFfma x t m s := rfl
@[simp] theorem exec_fmin (x : Opnds) (t : FTy) (m : FMods) :
    exec (.fmin x t m) s = execFmin x t m s := rfl
@[simp] theorem exec_fmax (x : Opnds) (t : FTy) (m : FMods) :
    exec (.fmax x t m) s = execFmax x t m s := rfl
@[simp] theorem exec_fcmp (x : Opnds) (t : FFmt) (cc : Fcc) (sig absa : Bool) :
    exec (.fcmp x t cc sig absa) s = execFcmp x t cc sig absa s := rfl
@[simp] theorem exec_frcp (x : Opnds) (t : FTy) (m : FMods) :
    exec (.frcp x t m) s = execFrcp x t m s := rfl
@[simp] theorem exec_frsq (x : Opnds) (t : FTy) (m : FMods) :
    exec (.frsq x t m) s = execFrsq x t m s := rfl
@[simp] theorem exec_fsqrt (x : Opnds) (t : FTy) (m : FMods) :
    exec (.fsqrt x t m) s = execFsqrt x t m s := rfl
@[simp] theorem exec_fex2 (x : Opnds) (t : FTy) (m : FMods) :
    exec (.fex2 x t m) s = execFex2 x t m s := rfl
@[simp] theorem exec_flg2 (x : Opnds) (t : FTy) (m : FMods) :
    exec (.flg2 x t m) s = execFlg2 x t m s := rfl
@[simp] theorem exec_fsin (x : Opnds) (t : FTy) (m : FMods) :
    exec (.fsin x t m) s = execFsin x t m s := rfl
@[simp] theorem exec_fcos (x : Opnds) (t : FTy) (m : FMods) :
    exec (.fcos x t m) s = execFcos x t m s := rfl
@[simp] theorem exec_fdiv (x : Opnds) (t : FTy) (m : FMods) :
    exec (.fdiv x t m) s = execFdiv x t m s := rfl
@[simp] theorem exec_ffrac (x : Opnds) (t : FTy) (m : FMods) :
    exec (.ffrac x t m) s = execFfrac x t m s := rfl
@[simp] theorem exec_fround (x : Opnds) (t : FTy) (m : FMods) :
    exec (.fround x t m) s = execFround x t m s := rfl
@[simp] theorem exec_fclass (x : Opnds) (t : FFmt) :
    exec (.fclass x t) s = execFclass x t s := rfl
@[simp] theorem exec_fscale (x : Opnds) (t : FTy) (m : FMods) :
    exec (.fscale x t m) s = execFscale x t m s := rfl
@[simp] theorem exec_fdot2 (x : Opnds) (t : FTy) (m : FMods) :
    exec (.fdot2 x t m) s = execFdot2 x t m s := rfl
@[simp] theorem exec_cvt (x : Opnds) (d src : CTy) (rnd : Rnd) (sat : Bool) :
    exec (.cvt x d src rnd sat) s = execCvt x d src rnd sat s := rfl
@[simp] theorem exec_cvtNfEnc (x : Opnds) (f : BitVec 4) (t : FFmt) (sc : Bool) (k : BitVec 3) :
    exec (.cvtNfEnc x f t sc k) s = execCvtNfEnc x f t sc k s := rfl
@[simp] theorem exec_cvtNfDec (x : Opnds) (f : BitVec 4) (t : FFmt) (sc : Bool) (k : BitVec 3) :
    exec (.cvtNfDec x f t sc k) s = execCvtNfDec x f t sc k s := rfl
@[simp] theorem exec_cvtNfb (x : Opnds) (b : BlkLen) (f : BitVec 4) (t : FFmt) :
    exec (.cvtNfb x b f t) s = execCvtNfb x b f t s := rfl
@[simp] theorem exec_unpkNf (x : Opnds) (f : BitVec 4) (bf : Bool) (sc : Bool) (k : BitVec 2) :
    exec (.unpkNf x f bf sc k) s = execUnpkNf x f bf sc k s := rfl
@[simp] theorem exec_fmtSet (x : Opnds) (f : BitVec 4) :
    exec (.fmtSet x f) s = execFmtSet x f s := rfl
@[simp] theorem exec_fmtGet (x : Opnds) (f : BitVec 4) :
    exec (.fmtGet x f) s = execFmtGet x f s := rfl
@[simp] theorem exec_flagsGet (x : Opnds) :
    exec (.flagsGet x) s = execFlagsGet x s := rfl
@[simp] theorem exec_flagsClr (x : Opnds) :
    exec (.flagsClr x) s = execFlagsClr x s := rfl
@[simp] theorem exec_pack (x : Opnds) (t : PackTy) (rnd : Rnd) :
    exec (.pack x t rnd) s = execPack x t rnd s := rfl
@[simp] theorem exec_unpack (x : Opnds) (hi : Bool) (t : UnpTy) :
    exec (.unpack x hi t) s = execUnpack x hi t s := rfl
@[simp] theorem exec_sadd (x : Opnds) (t : ITy) (sat : Bool) :
    exec (.sadd x t sat) s = execSadd x t sat s := rfl
@[simp] theorem exec_ssub (x : Opnds) (t : ITy) (sat : Bool) :
    exec (.ssub x t sat) s = execSsub x t sat s := rfl
@[simp] theorem exec_smul (x : Opnds) (t : ITy) (sat : Bool) :
    exec (.smul x t sat) s = execSmul x t sat s := rfl
@[simp] theorem exec_sand (x : Opnds) (t : ITy) :
    exec (.sand x t) s = execSand x t s := rfl
@[simp] theorem exec_sor (x : Opnds) (t : ITy) :
    exec (.sor x t) s = execSor x t s := rfl
@[simp] theorem exec_sxor (x : Opnds) (t : ITy) :
    exec (.sxor x t) s = execSxor x t s := rfl
@[simp] theorem exec_sshl (x : Opnds) (t : ITy) (clamp : Bool) :
    exec (.sshl x t clamp) s = execSshl x t clamp s := rfl
@[simp] theorem exec_sshr (x : Opnds) (t : ITy) (clamp arith : Bool) :
    exec (.sshr x t clamp arith) s = execSshr x t clamp arith s := rfl
@[simp] theorem exec_scmp (x : Opnds) (t : ITy) (cc : Cc) :
    exec (.scmp x t cc) s = execScmp x t cc s := rfl
@[simp] theorem exec_smov (x : Opnds) (t : ITy) :
    exec (.smov x t) s = execSmov x t s := rfl
@[simp] theorem exec_sld (x : Opnds) (w : MWidth) :
    exec (.sld x w) s = execSld x w s := rfl
@[simp] theorem exec_rfl (x : Opnds) (wide : Bool) :
    exec (.rfl x wide) s = execRfl x wide s := rfl
@[simp] theorem exec_ballot (x : Opnds) :
    exec (.ballot x) s = execBallot x s := rfl
@[simp] theorem exec_agree (x : Opnds) (m : AgreeMode) :
    exec (.agree x m) s = execAgree x m s := rfl
@[simp] theorem exec_xlane (x : Opnds) (m : XMode) (w : Seg) (wide : Bool) :
    exec (.xlane x m w wide) s = execXlane x m w wide s := rfl
@[simp] theorem exec_lred (x : Opnds) (op : RedOp) (t : ITy) :
    exec (.lred x op t) s = execLred x op t s := rfl
@[simp] theorem exec_bra (x : Opnds) :
    exec (.bra x) s = execBra x s := rfl
@[simp] theorem exec_brx (x : Opnds) :
    exec (.brx x) s = execBrx x s := rfl
@[simp] theorem exec_call (x : Opnds) :
    exec (.call x) s = execCall x s := rfl
@[simp] theorem exec_ret (x : Opnds) :
    exec (.ret x) s = execRet x s := rfl
@[simp] theorem exec_exit (x : Opnds) :
    exec (.exit x) s = execExit x s := rfl
@[simp] theorem exec_jenr (x : Opnds) :
    exec (.jenr x) s = execJenr x s := rfl
@[simp] theorem exec_jenrSet (x : Opnds) :
    exec (.jenrSet x) s = execJenrSet x s := rfl
@[simp] theorem exec_jpark (x : Opnds) :
    exec (.jpark x) s = execJpark x s := rfl
@[simp] theorem exec_jstrike (x : Opnds) :
    exec (.jstrike x) s = execJstrike x s := rfl
@[simp] theorem exec_jstrikeAll (x : Opnds) :
    exec (.jstrikeAll x) s = execJstrikeAll x s := rfl
@[simp] theorem exec_reform (x : Opnds) :
    exec (.reform x) s = execReform x s := rfl
@[simp] theorem exec_brd (x : Opnds) :
    exec (.brd x) s = execBrd x s := rfl
@[simp] theorem exec_yield (x : Opnds) :
    exec (.yield x) s = execYield x s := rfl
@[simp] theorem exec_trap (x : Opnds) (n : Byte) :
    exec (.trap x n) s = execTrap x n s := rfl
@[simp] theorem exec_brk (x : Opnds) :
    exec (.brk x) s = execBrk x s := rfl
@[simp] theorem exec_nap (x : Opnds) :
    exec (.nap x) s = execNap x s := rfl
@[simp] theorem exec_napExpiry (blk thr : Nat) :
    exec (.napExpiry blk thr) s = execNapExpiry blk thr s := rfl
@[simp] theorem exec_ld (x : Opnds) (w : MWidth) (zx : Bool) (hint : Hint) :
    exec (.ld x w zx hint) s = execLd x w zx hint s := rfl
@[simp] theorem exec_st (x : Opnds) (w : MWidth) (zx : Bool) (hint : Hint) :
    exec (.st x w zx hint) s = execSt x w zx hint s := rfl
@[simp] theorem exec_ldl (x : Opnds) (w : MWidth) :
    exec (.ldl x w) s = execLdl x w s := rfl
@[simp] theorem exec_stl (x : Opnds) (w : MWidth) :
    exec (.stl x w) s = execStl x w s := rfl
@[simp] theorem exec_ldc (x : Opnds) (w : MWidth) :
    exec (.ldc x w) s = execLdc x w s := rfl
@[simp] theorem exec_pref (x : Opnds) (zx : Bool) (l1 : Bool) :
    exec (.pref x zx l1) s = execPref x zx l1 s := rfl
@[simp] theorem exec_lds (x : Opnds) (w : MWidth) (zx : Bool) :
    exec (.lds x w zx) s = execLds x w zx s := rfl
@[simp] theorem exec_sts (x : Opnds) (w : MWidth) (zx : Bool) :
    exec (.sts x w zx) s = execSts x w zx s := rfl
@[simp] theorem exec_atoms (x : Opnds) (t : ATy) (op : AOp) :
    exec (.atoms x t op) s = execAtoms x t op s := rfl
@[simp] theorem exec_spstat (x : Opnds) (sel : BitVec 4) :
    exec (.spstat x sel) s = execSpstat x sel s := rfl
@[simp] theorem exec_ldsRem (x : Opnds) (w : MWidth) (zx : Bool) (peer : BitVec 2) (xr : Bool) :
    exec (.ldsRem x w zx peer xr) s = execLdsRem x w zx peer xr s := rfl
@[simp] theorem exec_stsRem (x : Opnds) (w : MWidth) (zx : Bool) (peer : BitVec 2) (xr : Bool) :
    exec (.stsRem x w zx peer xr) s = execStsRem x w zx peer xr s := rfl
@[simp] theorem exec_stsRemArr (x : Opnds) (zx : Bool) (peer : BitVec 2) (xr : Bool) :
    exec (.stsRemArr x zx peer xr) s = execStsRemArr x zx peer xr s := rfl
@[simp] theorem exec_atom (x : Opnds) (t : ATy) (op : AOp) (ord : AOrd) :
    exec (.atom x t op ord) s = execAtom x t op ord s := rfl
@[simp] theorem exec_red (x : Opnds) (t : ATy) (op : AOp) (ord : AOrd) :
    exec (.red x t op ord) s = execRed x t op ord s := rfl
@[simp] theorem exec_waitcmp (x : Opnds) (t : ATy) (cc : Cc) :
    exec (.waitcmp x t cc) s = execWaitcmp x t cc s := rfl
@[simp] theorem exec_fence (x : Opnds) (m : BitVec 3) :
    exec (.fence x m) s = execFence x m s := rfl
@[simp] theorem exec_pbar (x : Opnds) (wait : Bool) :
    exec (.pbar x wait) s = execPbar x wait s := rfl
@[simp] theorem exec_cleanR (x : Opnds) :
    exec (.cleanR x) s = execCleanR x s := rfl
@[simp] theorem exec_invR (x : Opnds) :
    exec (.invR x) s = execInvR x s := rfl
@[simp] theorem exec_flushR (x : Opnds) :
    exec (.flushR x) s = execFlushR x s := rfl
@[simp] theorem exec_fhz (x : Opnds) :
    exec (.fhz x) s = execFhz x s := rfl
@[simp] theorem exec_bbind (x : Opnds) (n : BitVec 4) (all : Bool) :
    exec (.bbind x n all) s = execBbind x n all s := rfl
@[simp] theorem exec_bunbind (x : Opnds) (n : BitVec 4) :
    exec (.bunbind x n) s = execBunbind x n s := rfl
@[simp] theorem exec_barr (x : Opnds) (n : BitVec 4) :
    exec (.barr x n) s = execBarr x n s := rfl
@[simp] theorem exec_barrb (x : Opnds) (n : BitVec 4) :
    exec (.barrb x n) s = execBarrb x n s := rfl
@[simp] theorem exec_bwait (x : Opnds) (n : BitVec 4) :
    exec (.bwait x n) s = execBwait x n s := rfl
@[simp] theorem exec_btest (x : Opnds) (n : BitVec 4) :
    exec (.btest x n) s = execBtest x n s := rfl
@[simp] theorem exec_bwaitt (x : Opnds) (n : BitVec 4) :
    exec (.bwaitt x n) s = execBwaitt x n s := rfl
@[simp] theorem exec_bwaittTimeout (blk thr : Nat) :
    exec (.bwaittTimeout blk thr) s = execBwaittTimeout blk thr s := rfl
@[simp] theorem exec_bblk (x : Opnds) :
    exec (.bblk x) s = execBblk x s := rfl
@[simp] theorem exec_bexp (x : Opnds) (n : BitVec 4) (now clrt : Bool) :
    exec (.bexp x n now clrt) s = execBexp x n now clrt s := rfl
@[simp] theorem exec_ringBind (x : Opnds) (n : BitVec 4) (d : BitVec 3) :
    exec (.ringBind x n d) s = execRingBind x n d s := rfl
@[simp] theorem exec_ringAcq (x : Opnds) (n : BitVec 4) :
    exec (.ringAcq x n) s = execRingAcq x n s := rfl
@[simp] theorem exec_ringPut (x : Opnds) (n : BitVec 4) :
    exec (.ringPut x n) s = execRingPut x n s := rfl
@[simp] theorem exec_ringGet (x : Opnds) (n : BitVec 4) :
    exec (.ringGet x n) s = execRingGet x n s := rfl
@[simp] theorem exec_ringRel (x : Opnds) (n : BitVec 4) :
    exec (.ringRel x n) s = execRingRel x n s := rfl
@[simp] theorem exec_cpy (x : Opnds) (n : BitVec 4) (ns s2g : Bool) :
    exec (.cpy x n ns s2g) s = execCpy x n ns s2g s := rfl
@[simp] theorem exec_cpyX (x : Opnds) (n : BitVec 4) (ns : Bool) (e : CpElem) :
    exec (.cpyX x n ns e) s = execCpyX x n ns e s := rfl
@[simp] theorem exec_cpyC (x : Opnds) (n : BitVec 4) (ns : Bool) (e : CpElem) :
    exec (.cpyC x n ns e) s = execCpyC x n ns e s := rfl
@[simp] theorem exec_cpyGl (x : Opnds) :
    exec (.cpyGl x) s = execCpyGl x s := rfl
@[simp] theorem exec_cpyFan (x : Opnds) (n : BitVec 4) (ns : Bool) :
    exec (.cpyFan x n ns) s = execCpyFan x n ns s := rfl
@[simp] theorem exec_publ (x : Opnds) :
    exec (.publ x) s = execPubl x s := rfl
@[simp] theorem exec_publDrop (x : Opnds) :
    exec (.publDrop x) s = execPublDrop x s := rfl
@[simp] theorem exec_scbdCnt (x : Opnds) :
    exec (.scbdCnt x) s = execScbdCnt x s := rfl
@[simp] theorem exec_scbdQ (x : Opnds) :
    exec (.scbdQ x) s = execScbdQ x s := rfl
@[simp] theorem exec_scbdWait (x : Opnds) :
    exec (.scbdWait x) s = execScbdWait x s := rfl
@[simp] theorem exec_shdwOpen (x : Opnds) :
    exec (.shdwOpen x) s = execShdwOpen x s := rfl
@[simp] theorem exec_cpySealEnc (x : Opnds) :
    exec (.cpySealEnc x) s = execCpySealEnc x s := rfl
@[simp] theorem exec_cpySealDec (x : Opnds) :
    exec (.cpySealDec x) s = execCpySealDec x s := rfl
@[simp] theorem exec_bkAdd (x : Opnds) (t : BkTy) (rnd : Rnd) :
    exec (.bkAdd x t rnd) s = execBkAdd x t rnd s := rfl
@[simp] theorem exec_bkMul (x : Opnds) (t : BkTy) (rnd : Rnd) :
    exec (.bkMul x t rnd) s = execBkMul x t rnd s := rfl
@[simp] theorem exec_bkFma (x : Opnds) (t : BkTy) (rnd : Rnd) :
    exec (.bkFma x t rnd) s = execBkFma x t rnd s := rfl
@[simp] theorem exec_bkRed (x : Opnds) (t : BkTy) (rnd : Rnd) (op : BkRedOp) :
    exec (.bkRed x t rnd op) s = execBkRed x t rnd op s := rfl
@[simp] theorem exec_bkScale (x : Opnds) (t : BkTy) (rnd : Rnd) :
    exec (.bkScale x t rnd) s = execBkScale x t rnd s := rfl
@[simp] theorem exec_bkCmp (x : Opnds) (t : BkTy) (rnd : Rnd) (cc : Cc) :
    exec (.bkCmp x t rnd cc) s = execBkCmp x t rnd cc s := rfl
@[simp] theorem exec_bkFill (x : Opnds) (t : BkTy) :
    exec (.bkFill x t) s = execBkFill x t s := rfl
@[simp] theorem exec_bkWait (x : Opnds) :
    exec (.bkWait x) s = execBkWait x s := rfl
@[simp] theorem exec_obres (x : Opnds) (n : BitVec 3) :
    exec (.obres x n) s = execObres x n s := rfl
@[simp] theorem exec_obrel (x : Opnds) (n : BitVec 3) :
    exec (.obrel x n) s = execObrel x n s := rfl
@[simp] theorem exec_obld (x : Opnds) (n : BitVec 3) :
    exec (.obld x n) s = execObld x n s := rfl
@[simp] theorem exec_obldX (x : Opnds) (n : BitVec 3) :
    exec (.obldX x n) s = execObldX x n s := rfl
@[simp] theorem exec_mma (x : Opnds) (t : BitVec 1) (ra rb : BitVec 3) :
    exec (.mma x t ra rb) s = execMma x t ra rb s := rfl
@[simp] theorem exec_mmas (x : Opnds) (t : BitVec 1) (ra rb rm : BitVec 3) :
    exec (.mmas x t ra rb rm) s = execMmas x t ra rb rm s := rfl
@[simp] theorem exec_accZero (x : Opnds) (t : BitVec 1) (all : Bool) :
    exec (.accZero x t all) s = execAccZero x t all s := rfl
@[simp] theorem exec_accLd (x : Opnds) (t : BitVec 1) (k : AccForm) (n : BitVec 7) :
    exec (.accLd x t k n) s = execAccLd x t k n s := rfl
@[simp] theorem exec_accSt (x : Opnds) (t : BitVec 1) (k : AccForm) (ninf : Bool) (n : BitVec 7) :
    exec (.accSt x t k ninf n) s = execAccSt x t k ninf n s := rfl
@[simp] theorem exec_accStat (x : Opnds) (t : BitVec 1) (sel : BitVec 3) :
    exec (.accStat x t sel) s = execAccStat x t sel s := rfl
@[simp] theorem exec_accRenorm (x : Opnds) (t : BitVec 1) :
    exec (.accRenorm x t) s = execAccRenorm x t s := rfl
@[simp] theorem exec_accTmask (x : Opnds) (t : BitVec 1) :
    exec (.accTmask x t) s = execAccTmask x t s := rfl
@[simp] theorem exec_accScale (x : Opnds) (t : BitVec 1) :
    exec (.accScale x t) s = execAccScale x t s := rfl
@[simp] theorem exec_accRmax (x : Opnds) (t : BitVec 1) (n : BitVec 7) :
    exec (.accRmax x t n) s = execAccRmax x t n s := rfl
@[simp] theorem exec_accMode (x : Opnds) (t : BitVec 1) :
    exec (.accMode x t) s = execAccMode x t s := rfl
@[simp] theorem exec_conftest (x : Opnds) (e : BitVec 4) :
    exec (.conftest x e) s = execConftest x e s := rfl
@[simp] theorem exec_bkfill (x : Opnds) (e : BitVec 4) :
    exec (.bkfill x e) s = execBkfill x e s := rfl
@[simp] theorem exec_bkfillReg (x : Opnds) (e : BitVec 4) :
    exec (.bkfillReg x e) s = execBkfillReg x e s := rfl
@[simp] theorem exec_bkwait (x : Opnds) (e : BitVec 4) :
    exec (.bkwait x e) s = execBkwait x e s := rfl
@[simp] theorem exec_wqPush (x : Opnds) (q : BitVec 5) (nw : Bool) (pd : BitVec 3) :
    exec (.wqPush x q nw pd) s = execWqPush x q nw pd s := rfl
@[simp] theorem exec_wqPull (x : Opnds) (q : BitVec 5) (nw : Bool) (pd : BitVec 3) :
    exec (.wqPull x q nw pd) s = execWqPull x q nw pd s := rfl
@[simp] theorem exec_wqStatCnt (x : Opnds) (q : BitVec 5) :
    exec (.wqStatCnt x q) s = execWqStatCnt x q s := rfl
@[simp] theorem exec_wqStatClose (x : Opnds) (q : BitVec 5) :
    exec (.wqStatClose x q) s = execWqStatClose x q s := rfl
@[simp] theorem exec_wqStatOpen (x : Opnds) (q : BitVec 5) :
    exec (.wqStatOpen x q) s = execWqStatOpen x q s := rfl
@[simp] theorem exec_launch (x : Opnds) (n : BitVec 4) :
    exec (.launch x n) s = execLaunch x n s := rfl
@[simp] theorem exec_launchArr (x : Opnds) (n : BitVec 4) :
    exec (.launchArr x n) s = execLaunchArr x n s := rfl
@[simp] theorem exec_lqStat (x : Opnds) :
    exec (.lqStat x) s = execLqStat x s := rfl
@[simp] theorem exec_leaseQStat (x : Opnds) :
    exec (.leaseQStat x) s = execLeaseQStat x s := rfl
@[simp] theorem exec_leaseQWait (x : Opnds) :
    exec (.leaseQWait x) s = execLeaseQWait x s := rfl
@[simp] theorem exec_leaseQRel (x : Opnds) :
    exec (.leaseQRel x) s = execLeaseQRel x s := rfl
@[simp] theorem exec_keyhGen (x : Opnds) (u : KeyUse) :
    exec (.keyhGen x u) s = execKeyhGen x u s := rfl
@[simp] theorem exec_keyhImp (x : Opnds) (u : KeyUse) :
    exec (.keyhImp x u) s = execKeyhImp x u s := rfl
@[simp] theorem exec_keyhRev (x : Opnds) :
    exec (.keyhRev x) s = execKeyhRev x s := rfl
@[simp] theorem exec_keyhQry (x : Opnds) :
    exec (.keyhQry x) s = execKeyhQry x s := rfl
@[simp] theorem exec_migAckTake (x : Opnds) :
    exec (.migAckTake x) s = execMigAckTake x s := rfl
@[simp] theorem exec_migAckRearm (x : Opnds) :
    exec (.migAckRearm x) s = execMigAckRearm x s := rfl
@[simp] theorem exec_migAckQuiet (x : Opnds) :
    exec (.migAckQuiet x) s = execMigAckQuiet x s := rfl
@[simp] theorem exec_sysrd (x : Opnds) (r : BitVec 10) :
    exec (.sysrd x r) s = execSysrd x r s := rfl
@[simp] theorem exec_syswr (x : Opnds) (r : BitVec 10) :
    exec (.syswr x r) s = execSyswr x r s := rfl
@[simp] theorem exec_tret (x : Opnds) :
    exec (.tret x) s = execTret x s := rfl
@[simp] theorem exec_tretNext (x : Opnds) :
    exec (.tretNext x) s = execTretNext x s := rfl
@[simp] theorem exec_tretStrike (x : Opnds) :
    exec (.tretStrike x) s = execTretStrike x s := rfl
@[simp] theorem exec_presig (x : Opnds) :
    exec (.presig x) s = execPresig x s := rfl
@[simp] theorem exec_oplogRd (x : Opnds) (e : BitVec 3) (w : BitVec 4) :
    exec (.oplogRd x e w) s = execOplogRd x e w s := rfl
@[simp] theorem exec_faultRdSeq (x : Opnds) :
    exec (.faultRdSeq x) s = execFaultRdSeq x s := rfl
@[simp] theorem exec_faultRdTake (x : Opnds) :
    exec (.faultRdTake x) s = execFaultRdTake x s := rfl
@[simp] theorem exec_faultRdFree (x : Opnds) :
    exec (.faultRdFree x) s = execFaultRdFree x s := rfl
@[simp] theorem exec_faultCancel (x : Opnds) (m : CancelMode) :
    exec (.faultCancel x m) s = execFaultCancel x m s := rfl
@[simp] theorem exec_tlbinv (x : Opnds) (m : TlbMode) :
    exec (.tlbinv x m) s = execTlbinv x m s := rfl
@[simp] theorem exec_diectlReset (x : Opnds) :
    exec (.diectlReset x) s = execDiectlReset x s := rfl
@[simp] theorem exec_diectlStat (x : Opnds) :
    exec (.diectlStat x) s = execDiectlStat x s := rfl
@[simp] theorem exec_snuff (x : Opnds) :
    exec (.snuff x) s = execSnuff x s := rfl
@[simp] theorem exec_haltOff (x : Opnds) :
    exec (.haltOff x) s = execHaltOff x s := rfl
@[simp] theorem exec_haltReboot (x : Opnds) :
    exec (.haltReboot x) s = execHaltReboot x s := rfl
@[simp] theorem exec_bankPass (core : Nat) :
    exec (.bankPass core) s = execBankPass core s := rfl
@[simp] theorem exec_rowRebuild (core group row : Nat) :
    exec (.rowRebuild core group row) s = execRowRebuild core group row s := rfl
@[simp] theorem exec_rowZeroing (blk : Nat) :
    exec (.rowZeroing blk) s = execRowZeroing blk s := rfl
@[simp] theorem exec_blockPlacement (grid : Nat) :
    exec (.blockPlacement grid) s = execBlockPlacement grid s := rfl
@[simp] theorem exec_blockCompletion (blk : Nat) :
    exec (.blockCompletion blk) s = execBlockCompletion blk s := rfl
@[simp] theorem exec_preemptionTrap (blk : Nat) :
    exec (.preemptionTrap blk) s = execPreemptionTrap blk s := rfl
@[simp] theorem exec_preemptionSave (blk : Nat) :
    exec (.preemptionSave blk) s = execPreemptionSave blk s := rfl
@[simp] theorem exec_preemptionTimeout (blk : Nat) :
    exec (.preemptionTimeout blk) s = execPreemptionTimeout blk s := rfl
@[simp] theorem exec_blockRestore (blk : Nat) :
    exec (.blockRestore blk) s = execBlockRestore blk s := rfl
@[simp] theorem exec_rollback (blk : Nat) :
    exec (.rollback blk) s = execRollback blk s := rfl
@[simp] theorem exec_afterglowRelease (blk : Nat) :
    exec (.afterglowRelease blk) s = execAfterglowRelease blk s := rfl
@[simp] theorem exec_binDraw (part bin : Nat) :
    exec (.binDraw part bin) s = execBinDraw part bin s := rfl
@[simp] theorem exec_forcedDissolution (blk k : Nat) :
    exec (.forcedDissolution blk k) s = execForcedDissolution blk k s := rfl
@[simp] theorem exec_copyAccept (blk : Nat) :
    exec (.copyAccept blk) s = execCopyAccept blk s := rfl
@[simp] theorem exec_copyBytesLand (blk n : Nat) :
    exec (.copyBytesLand blk n) s = execCopyBytesLand blk n s := rfl
@[simp] theorem exec_obFillComplete (part n : Nat) :
    exec (.obFillComplete part n) s = execObFillComplete part n s := rfl
@[simp] theorem exec_heldAccessRelease (core : Nat) :
    exec (.heldAccessRelease core) s = execHeldAccessRelease core s := rfl
@[simp] theorem exec_swapEntryValid (blk : Nat) :
    exec (.swapEntryValid blk) s = execSwapEntryValid blk s := rfl
@[simp] theorem exec_waitcmpRecheck (blk thr : Nat) :
    exec (.waitcmpRecheck blk thr) s = execWaitcmpRecheck blk thr s := rfl
@[simp] theorem exec_waitcmpPoll (blk thr : Nat) :
    exec (.waitcmpPoll blk thr) s = execWaitcmpPoll blk thr s := rfl
@[simp] theorem exec_waitcmpTimeout (blk thr : Nat) :
    exec (.waitcmpTimeout blk thr) s = execWaitcmpTimeout blk thr s := rfl
@[simp] theorem exec_launchPacketTake (q : Nat) :
    exec (.launchPacketTake q) s = execLaunchPacketTake q s := rfl
@[simp] theorem exec_dependenceResolved (grid : Nat) :
    exec (.dependenceResolved grid) s = execDependenceResolved grid s := rfl
@[simp] theorem exec_priorityRise (grid : Nat) :
    exec (.priorityRise grid) s = execPriorityRise grid s := rfl
@[simp] theorem exec_gridCompletion (grid : Nat) :
    exec (.gridCompletion grid) s = execGridCompletion grid s := rfl
@[simp] theorem exec_wqWaitServed (die q : Nat) :
    exec (.wqWaitServed die q) s = execWqWaitServed die q s := rfl
@[simp] theorem exec_bulkCommandPerform (die k : Nat) :
    exec (.bulkCommandPerform die k) s = execBulkCommandPerform die k s := rfl
@[simp] theorem exec_bankCommandPerform (die : Nat) (turn : BankTurn) :
    exec (.bankCommandPerform die turn) s = execBankCommandPerform die turn s := rfl
@[simp] theorem exec_shadowCopyComplete (die k : Nat) :
    exec (.shadowCopyComplete die k) s = execShadowCopyComplete die k s := rfl
@[simp] theorem exec_snuffEngineZero (granule : Nat) :
    exec (.snuffEngineZero granule) s = execSnuffEngineZero granule s := rfl
@[simp] theorem exec_backfillBatchForm (die e : Nat) :
    exec (.backfillBatchForm die e) s = execBackfillBatchForm die e s := rfl
@[simp] theorem exec_migrationEventDeferred (k : Nat) :
    exec (.migrationEventDeferred k) s = execMigrationEventDeferred k s := rfl
@[simp] theorem exec_writeDelivery (agent : Nat) :
    exec (.writeDelivery agent) s = execWriteDelivery agent s := rfl
@[simp] theorem exec_persistentStoreComplete (k : Nat) :
    exec (.persistentStoreComplete k) s = execPersistentStoreComplete k s := rfl
@[simp] theorem exec_leaseQWaitTimeout (blk thr : Nat) :
    exec (.leaseQWaitTimeout blk thr) s = execLeaseQWaitTimeout blk thr s := rfl
@[simp] theorem exec_warmResetRetrain (ok : Bool) :
    exec (.warmResetRetrain ok) s = execWarmResetRetrain ok s := rfl
@[simp] theorem exec_faultRecordDeferred  :
    exec .faultRecordDeferred s = execFaultRecordDeferred s := rfl
@[simp] theorem exec_slotBoundary  :
    exec .slotBoundary s = execSlotBoundary s := rfl
@[simp] theorem exec_coldBoot  :
    exec .coldBoot s = execColdBoot s := rfl
@[simp] theorem exec_bankRetirement (core bank : Nat) :
    exec (.bankRetirement core bank) s = execBankRetirement core bank s := rfl
@[simp] theorem exec_forceAfterglow (byDie : Bool) (n : Nat) :
    exec (.forceAfterglow byDie n) s = execForceAfterglow byDie n s := rfl
@[simp] theorem exec_remoteAccessAtTarget (core : Nat) :
    exec (.remoteAccessAtTarget core) s = execRemoteAccessAtTarget core s := rfl
@[simp] theorem exec_clusterFlitRetry (cluster link : Nat) :
    exec (.clusterFlitRetry cluster link) s = execClusterFlitRetry cluster link s := rfl
@[simp] theorem exec_translationWalk (core dom asn : Nat) (va : DWord) (acc : Access) :
    exec (.translationWalk core dom asn va acc) s = execTranslationWalk core dom asn va acc s := rfl
@[simp] theorem exec_l2Eviction (die line : Nat) :
    exec (.l2Eviction die line) s = execL2Eviction die line s := rfl
@[simp] theorem exec_directoryEntryDrop (line : Nat) :
    exec (.directoryEntryDrop line) s = execDirectoryEntryDrop line s := rfl
@[simp] theorem exec_leaseOffer (k size port id base : Nat) (expiry : Nat) :
    exec (.leaseOffer k size port id base expiry) s = execLeaseOffer k size port id base expiry s := rfl
@[simp] theorem exec_leaseAccept (k : Nat) :
    exec (.leaseAccept k) s = execLeaseAccept k s := rfl
@[simp] theorem exec_leaseDecline (k : Nat) :
    exec (.leaseDecline k) s = execLeaseDecline k s := rfl
@[simp] theorem exec_offerTimeout (k : Nat) :
    exec (.offerTimeout k) s = execOfferTimeout k s := rfl
@[simp] theorem exec_leaseExpiry (k : Nat) :
    exec (.leaseExpiry k) s = execLeaseExpiry k s := rfl
@[simp] theorem exec_recallTimeout (k : Nat) :
    exec (.recallTimeout k) s = execRecallTimeout k s := rfl
@[simp] theorem exec_extentZeroed (k : Nat) :
    exec (.extentZeroed k) s = execExtentZeroed k s := rfl
@[simp] theorem exec_leaseRecall (k : Nat) :
    exec (.leaseRecall k) s = execLeaseRecall k s := rfl
@[simp] theorem exec_borrowerAck (k : Nat) :
    exec (.borrowerAck k) s = execBorrowerAck k s := rfl
@[simp] theorem exec_bisnpReceived (slot : Nat) :
    exec (.bisnpReceived slot) s = execBisnpReceived slot s := rfl
@[simp] theorem exec_releaseConfirmed (slot : Nat) :
    exec (.releaseConfirmed slot) s = execReleaseConfirmed slot s := rfl
@[simp] theorem exec_borrowEntryClear (slot : Nat) :
    exec (.borrowEntryClear slot) s = execBorrowEntryClear slot s := rfl
@[simp] theorem exec_peerTranslationRequest (port id gen inc page tag : Nat) (what : PeerAsk) :
    exec (.peerTranslationRequest port id gen inc page tag what) s = execPeerTranslationRequest port id gen inc page tag what s := rfl
@[simp] theorem exec_peerTranslationReply (slot page inc : Nat) (phys : Option Nat) :
    exec (.peerTranslationReply slot page inc phys) s = execPeerTranslationReply slot page inc phys s := rfl
@[simp] theorem exec_lenderLost (port : Nat) :
    exec (.lenderLost port) s = execLenderLost port s := rfl
@[simp] theorem exec_slotFrameBoundary  :
    exec .slotFrameBoundary s = execSlotFrameBoundary s := rfl
@[simp] theorem exec_powerInterval (watts : Nat) :
    exec (.powerInterval watts) s = execPowerInterval watts s := rfl
@[simp] theorem exec_thermalTrip (die : Nat) (r : Reading) :
    exec (.thermalTrip die r) s = execThermalTrip die r s := rfl
@[simp] theorem exec_imageUpdate (image : Image) :
    exec (.imageUpdate image) s = execImageUpdate image s := rfl
@[simp] theorem exec_imageConfirm  :
    exec .imageConfirm s = execImageConfirm s := rfl
@[simp] theorem exec_powerLoss  :
    exec .powerLoss s = execPowerLoss s := rfl
@[simp] theorem exec_warmResetWriteBack  :
    exec .warmResetWriteBack s = execWarmResetWriteBack s := rfl
@[simp] theorem exec_warmResetReadmit  :
    exec .warmResetReadmit s = execWarmResetReadmit s := rfl
@[simp] theorem exec_birluxLinkDown (link : Nat) :
    exec (.birluxLinkDown link) s = execBirluxLinkDown link s := rfl
@[simp] theorem exec_portTrainingFail (port : Nat) :
    exec (.portTrainingFail port) s = execPortTrainingFail port s := rfl
@[simp] theorem exec_reorderRelease (source : Nat) (p : Numbered) :
    exec (.reorderRelease source p) s = execReorderRelease source p s := rfl
@[simp] theorem exec_heartbeatSend  :
    exec .heartbeatSend s = execHeartbeatSend s := rfl
@[simp] theorem exec_heartbeatReceived (r : Rank) (sender : Nat) :
    exec (.heartbeatReceived r sender) s = execHeartbeatReceived r sender s := rfl
@[simp] theorem exec_electionTimeout  :
    exec .electionTimeout s = execElectionTimeout s := rfl
@[simp] theorem exec_voteRequest (r : Rank) (sender : Nat) :
    exec (.voteRequest r sender) s = execVoteRequest r sender s := rfl
@[simp] theorem exec_voteGrant (term : Word) (sender : Nat) :
    exec (.voteGrant term sender) s = execVoteGrant term sender s := rfl
@[simp] theorem exec_candidateTimeout  :
    exec .candidateTimeout s = execCandidateTimeout s := rfl
@[simp] theorem exec_fmRefusal (r : Rank) :
    exec (.fmRefusal r) s = execFmRefusal r s := rfl
@[simp] theorem exec_manifestReceived (bytes : List Byte) :
    exec (.manifestReceived bytes) s = execManifestReceived bytes s := rfl
@[simp] theorem exec_chunkReceived (chunk : Nat) (bytes : List Byte) :
    exec (.chunkReceived chunk bytes) s = execChunkReceived chunk bytes s := rfl
@[simp] theorem exec_linkStateUpdate (a b : Nat) (live : Bool) (seq : Word) :
    exec (.linkStateUpdate a b live seq) s = execLinkStateUpdate a b live seq s := rfl
@[simp] theorem exec_drainRound (e : DrainEnd) :
    exec (.drainRound e) s = execDrainRound e s := rfl
@[simp] theorem exec_drainProbe (source round : Nat) (tags : List Nat) :
    exec (.drainProbe source round tags) s = execDrainProbe source round tags s := rfl
@[simp] theorem exec_queueEnable (q : Nat) :
    exec (.queueEnable q) s = execQueueEnable q s := rfl
@[simp] theorem exec_domainHandlerWrite (dom : Nat) (pc : DWord) :
    exec (.domainHandlerWrite dom pc) s = execDomainHandlerWrite dom pc s := rfl
@[simp] theorem exec_configWrite (w : CfgWrite) :
    exec (.configWrite w) s = execConfigWrite w s := rfl
@[simp] theorem exec_warmResetByP (die : Nat) :
    exec (.warmResetByP die) s = execWarmResetByP die s := rfl
@[simp] theorem exec_spdmMessage (m : Spdm) :
    exec (.spdmMessage m) s = execSpdmMessage m s := rfl
@[simp] theorem exec_portRetrain (port : Nat) (t : Training) :
    exec (.portRetrain port t) s = execPortRetrain port t s := rfl
@[simp] theorem exec_chunkBitmapRead (m : BitmapRead) :
    exec (.chunkBitmapRead m) s = execChunkBitmapRead m s := rfl
@[simp] theorem exec_shadowDrop (die k : Nat) :
    exec (.shadowDrop die k) s = execShadowDrop die k s := rfl

end Sys2Proof.Machine
end

