-- ==== Sys2Proof/Laws/Frame.lean ====
section
/-! SUPPORT. Laws/Frame.lean: what the shared operations leave alone. Each lemma says, for every set of registers that may be written,
that an operation leaves the rest, memory and the caches as they were. -/

namespace Sys2Proof.Machine

variable {w : Touch} {n : Nat}

/-! ### Blocks -/

theorem Block.leaves.refl (b : Block) : b.leaves w n b :=
  ⟨fun _ _ _ => rfl, fun _ _ _ => rfl, fun _ _ => rfl, fun _ _ _ => rfl, fun _ _ => rfl, id⟩

theorem Block.leaves.trans {b c d : Block} (h : b.leaves w n c) (g : c.leaves w n d) : b.leaves w n d where
  v l k hk := (g.v l k hk).trans (h.v l k hk)
  p l q hq := (g.p l q hq).trans (h.p l q hq)
  flags l hl := (g.flags l hl).trans (h.flags l hl)
  s m k hk := (g.s m k hk).trans (h.s m k hk)
  f m k := (g.f m k).trans (h.f m k)
  saved hb := g.saved (h.saved hb)

/-- Registers, predicates and flags of a thread stay. -/
def Thread.same (t u : Thread) : Prop := u.v = t.v ∧ u.p = t.p ∧ u.nflags = t.nflags

/-- Threads keep their registers, home bundles theirs. -/
theorem Block.leaves.of_same {b c : Block} (ht : ∀ l, (b.thr l).same (c.thr l))
    (hb : ∀ k, (c.bundle k).s = (b.bundle k).s ∧ (c.bundle k).f = (b.bundle k).f) (hs : b.state ≠ .saved → c.state ≠ .saved) :
    b.leaves w n c where
  v l k _ := by simp [Thread.vreg, (ht l).1]
  p l q _ := by simp [Thread.pred, (ht l).2.1]
  flags l _ := (ht l).2.2
  s m k _ := by rw [(hb m).1]
  f m k := by rw [(hb m).2]
  saved := hs

theorem Block.leaves_modThr (b : Block) (k : Nat) (f : Thread → Thread) (hf : ∀ t : Thread, t.same (f t)) : b.leaves w n (b.modThr k f) := by
  refine .of_same (fun l => ?_) (fun k => ⟨rfl, rfl⟩) id
  rw [Block.thr_modThr]
  split
  · exact hf _
  · exact ⟨rfl, rfl, rfl⟩

theorem Block.leaves_modThrs (b : Block) (ts : List Nat) (f : Nat → Thread → Thread) (hf : ∀ (i : Nat) (t : Thread), t.same (f i t)) :
    b.leaves w n (b.modThrs ts f) := by
  refine .of_same (fun l => ?_) (fun k => ⟨rfl, rfl⟩) id
  rw [Block.thr_modThrs]
  split
  · exact hf _ _
  · exact ⟨rfl, rfl, rfl⟩

theorem Block.leaves.of_map {b c : Block} (f : Thread → Thread) (ht : c.threads = b.threads.map f) (hf : ∀ t : Thread, t.same (f t))
    (hb : ∀ k, (c.bundle k).s = (b.bundle k).s ∧ (c.bundle k).f = (b.bundle k).f) (hs : b.state ≠ .saved → c.state ≠ .saved) :
    b.leaves w n c := by
  refine .of_same (fun l => ?_) hb hs
  simp only [Block.thr, ht, List.getD_eq_getElem?_getD, List.getElem?_map]
  cases b.threads[l]? with
  | none => exact ⟨rfl, rfl, rfl⟩
  | some t => exact hf t

theorem Block.leaves_modBundle (b : Block) (k : Nat) (f : Bundle → Bundle) (hf : ∀ x, (f x).s = x.s ∧ (f x).f = x.f) :
    b.leaves w n (b.modBundle k f) := by
  refine .of_same (fun l => ⟨rfl, rfl, rfl⟩) (fun j => ?_) id
  rw [Block.bundle_modBundle]
  split
  · exact hf _
  · exact ⟨rfl, rfl⟩

theorem Block.leaves_mapBundles (b : Block) (f : Bundle → Bundle) (hf : ∀ x, (f x).s = x.s ∧ (f x).f = x.f) :
    b.leaves w n { b with bundles := b.bundles.map f } := by
  refine .of_same (fun l => ⟨rfl, rfl, rfl⟩) (fun j => ?_) id
  simp only [Block.bundle, List.getD_eq_getElem?_getD, List.getElem?_map]
  cases b.bundles[j]? with
  | none => exact ⟨rfl, rfl⟩
  | some x => exact hf x

theorem Block.leaves_modDrawn (b : Block) (k : Nat) (f : Drawn → Drawn) : b.leaves w n (b.modDrawn k f) := by
  simp only [Block.modDrawn]; split <;> exact .of_same (fun l => ⟨rfl, rfl, rfl⟩) (fun j => ⟨rfl, rfl⟩) id

/-- A record update of a block that names neither threads nor bundles nor its state. -/
theorem Block.leaves.of_parts {b c : Block} (ht : c.threads = b.threads) (hb : c.bundles = b.bundles) (hs : c.state = b.state) :
    b.leaves w n c :=
  .of_same (fun l => by simp [Block.thr, ht, Thread.same]) (fun k => by simp [Block.bundle, hb]) (by simp [hs])

theorem Block.leaves_foldl {α : Type} (f : Block → α → Block) (hf : ∀ (b : Block) e, b.leaves w n (f b e)) (l : List α) (b : Block) :
    b.leaves w n (l.foldl f b) := by
  induction l generalizing b with
  | nil => exact .refl b
  | cons e l ih => exact (hf b e).trans (ih _)

theorem Block.leaves_foldl_mem {α : Type} (f : Block → α → Block) (l : List α) (hf : ∀ b : Block, ∀ e ∈ l, b.leaves w n (f b e)) (b : Block) :
    b.leaves w n (l.foldl f b) := by
  induction l generalizing b with
  | nil => exact .refl b
  | cons e l ih => exact (hf b e (by simp)).trans (ih (fun b e h => hf b e (by simp [h])) _)

theorem Block.leaves_raise (b : Block) (t h : Nat) : b.leaves w n (b.raise t h) := by
  simp only [Block.raise]
  exact b.leaves_modThr t _ (by exact fun _ => ⟨rfl, rfl, rfl⟩)

theorem Block.leaves_leaveMasks (b : Block) (t : Nat) : b.leaves w n (b.leaveMasks t) := b.leaves_modBundle _ _ fun _ => ⟨rfl, rfl⟩

theorem Block.leaves_setMask (b : Block) (k j m : Nat) : b.leaves w n (b.setMask k j m) := b.leaves_modBundle _ _ fun _ => ⟨rfl, rfl⟩

theorem Block.leaves_tryRelease (b : Block) (k j : Nat) : b.leaves w n (b.tryRelease k j) := by
  simp only [Block.tryRelease]
  split
  · exact (b.leaves_modThrs _ _ (by exact fun _ _ => ⟨rfl, rfl, rfl⟩)).trans (Block.leaves_setMask _ _ _ _)
  · exact .refl b

theorem Block.leaves_releaseMasks (b : Block) (k : Nat) : b.leaves w n (b.releaseMasks k) :=
  Block.leaves_foldl _ (fun b _ => b.leaves_tryRelease k _) _ b

theorem Block.leaves_modOplog (b : Block) (k : Nat) (f : Sparse OplogEntry → Sparse OplogEntry) : b.leaves w n (b.modOplog k f) := by
  simp only [Block.modOplog]
  split
  · exact b.leaves_modBundle _ _ fun _ => ⟨rfl, rfl⟩
  · exact b.leaves_modDrawn _ _

theorem Block.leaves_homeLogs (b : Block) (d : Drawn) : b.leaves w n (b.homeLogs d) :=
  Block.leaves_foldl _ (fun b _ => Block.leaves_foldl _ (fun b k => b.leaves_modOplog k _) _ b) _ b

theorem Block.leaves_tidyDrawn (b : Block) : b.leaves w n b.tidyDrawn := by
  simp only [Block.tidyDrawn]
  exact (Block.leaves_foldl _ (fun b (e : Nat × Drawn) => b.leaves_homeLogs e.2) _ b).trans (.of_parts rfl rfl rfl)

theorem Block.leaves_leaveTurns (b : Block) (ts : List Nat) : b.leaves w n (b.leaveTurns ts) := by
  refine .of_same (fun l => ⟨rfl, rfl, rfl⟩) (fun j => ?_) id
  simp only [Block.leaveTurns, Block.bundle, List.getD_eq_getElem?_getD, List.getElem?_map]
  cases b.bundles[j]? with
  | none => exact ⟨rfl, rfl⟩
  | some x => simp only [Option.map_some, Option.getD_some]; split <;> exact ⟨rfl, rfl⟩

/-! ### The issue -/

theorem Sel.same.refl (a : Sel) : a.same a := ⟨rfl, rfl, rfl, rfl⟩

theorem Sel.same.trans {a b c : Sel} (h : a.same b) (g : b.same c) : a.same c :=
  ⟨h.1.trans g.1, h.2.1.trans g.2.1, h.2.2.1.trans g.2.2.1, h.2.2.2.trans g.2.2.2⟩

theorem Sel.same.blk {a b : Sel} (h : a.same b) : a.blk = b.blk := h.1

theorem Sel.same.ctx {a b : Sel} (h : a.same b) : a.ctx = b.ctx := h.2.1

theorem Sel.same.act {a b : Sel} (h : a.same b) : a.act = b.act := h.2.2.2

/-! ### The machine -/

namespace State

theorem leaves.refl (s : State) : s.leaves w s := ⟨fun _ => rfl, rfl, fun _ _ => rfl, fun _ => .refl _, fun _ _ => ⟨rfl, rfl⟩, .refl _⟩

theorem leaves.trans {s t u : State} (h : s.leaves w t) (g : t.leaves w u) : s.leaves w u where
  mem a := (g.mem a).trans (h.mem a)
  poison := g.poison.trans h.poison
  l2 d a := (g.l2 d a).trans (h.l2 d a)
  blocks m := (h.blocks m).trans (g.blocks m)
  tiles hw p := ⟨(g.tiles hw p).1.trans (h.tiles hw p).1, (g.tiles hw p).2.trans (h.tiles hw p).2⟩
  sel := g.sel.trans h.sel

theorem leaves.issues {s t : State} (h : s.leaves w t) {b : Nat} (hb : (s.blk b).state ≠ .saved) : (t.blk b).state ≠ .saved :=
  (h.blocks b).saved hb

theorem leaves_modBlk (s : State) (k : Nat) (f : Block → Block) (hf : ∀ b : Block, b.leaves w k (f b)) : s.leaves w (s.modBlk k f) where
  mem _ := rfl
  poison := rfl
  l2 _ _ := rfl
  blocks m := by
    rw [blk_modBlk]
    split
    · subst_vars; exact hf _
    · exact .refl _
  tiles _ _ := ⟨rfl, rfl⟩
  sel := .refl _

theorem leaves_modBlk_at (s : State) (k : Nat) (f : Block → Block) (hf : (s.blk k).leaves w k (f (s.blk k))) : s.leaves w (s.modBlk k f) where
  mem _ := rfl
  poison := rfl
  l2 _ _ := rfl
  blocks m := by
    rw [blk_modBlk]
    split
    · subst_vars; exact hf
    · exact .refl _
  tiles _ _ := ⟨rfl, rfl⟩
  sel := .refl _

theorem leaves_modCb (s : State) (f : Block → Block) (hf : ∀ b : Block, b.leaves w s.sel.blk (f b)) : s.leaves w (s.modCb f) :=
  s.leaves_modBlk _ f hf

theorem leaves_modCore (s : State) (c : Nat) (f : Core → Core) : s.leaves w (s.modCore c f) :=
  ⟨fun _ => rfl, rfl, fun _ _ => rfl, fun _ => .refl _, fun _ _ => ⟨rfl, rfl⟩, .refl _⟩

theorem leaves_modPad (s : State) (c : Nat) (f : Scratchpad → Scratchpad) : s.leaves w (s.modPad c f) := s.leaves_modCore c _

theorem leaves_modCluster (s : State) (c : Nat) (f : Cluster → Cluster) : s.leaves w (s.modCluster c f) :=
  ⟨fun _ => rfl, rfl, fun _ _ => rfl, fun _ => .refl _, fun _ _ => ⟨rfl, rfl⟩, .refl _⟩

theorem l2_of_hub (s : State) (f : Hub → Hub) (hf : (f s.hub).pcache = s.hub.pcache) (e a : Nat) : (s.modHub f).l2 e a = s.l2 e a := by
  simp only [l2, cache, die_modHub, modHub_hub, hf]

theorem leaves_modHub (s : State) (f : Hub → Hub) (hf : ∀ x, (f x).pcache = x.pcache := by exact fun _ => rfl) : s.leaves w (s.modHub f) :=
  ⟨fun _ => rfl, rfl, s.l2_of_hub f (hf _), fun _ => .refl _, fun _ _ => ⟨rfl, rfl⟩, .refl _⟩

theorem leaves_modGrid (s : State) (g : Nat) (f : Grid → Grid) : s.leaves w (s.modGrid g f) := by
  simp only [modGrid]; split
  · exact ⟨fun _ => rfl, rfl, fun _ _ => rfl, fun _ => .refl _, fun _ _ => ⟨rfl, rfl⟩, .refl _⟩
  · exact .refl s

theorem leaves_modPart (s : State) (p : Nat) (f : Partition → Partition)
    (hf : ¬w.tiles → ∀ x, (f x).tiles = x.tiles ∧ (f x).buf = x.buf) : s.leaves w (s.modPart p f) where
  mem _ := rfl
  poison := rfl
  l2 _ _ := rfl
  blocks _ := .refl _
  tiles hw q := by
    rw [part_modPart]
    split
    · subst_vars; exact hf hw _
    · exact ⟨rfl, rfl⟩
  sel := .refl _

theorem leaves_modDie (s : State) (d : Nat) (f : Die → Die) (hf : ∀ x, (f x).l2 = x.l2) : s.leaves w (s.modDie d f) where
  mem _ := rfl
  poison := rfl
  l2 e a := by
    simp only [l2, cache, die_modDie, modDie_hub]
    split
    · rfl
    · split
      · subst_vars; rw [hf]
      · rfl
  blocks _ := .refl _
  tiles _ _ := ⟨rfl, rfl⟩
  sel := .refl _

theorem leaves_foldl {α : Type} (f : State → α → State) (hf : ∀ (s : State) e, s.leaves w (f s e)) (l : List α) (s : State) :
    s.leaves w (l.foldl f s) := by
  induction l generalizing s with
  | nil => exact .refl s
  | cons e l ih => exact (hf s e).trans (ih _)

/-- A fold of operations that need a block to be out of the saved state. -/
theorem leaves_foldl_live {α : Type} {b : Nat} (f : State → α → State) (hf : ∀ (s : State) e, (s.blk b).state ≠ .saved → s.leaves w (f s e)) (l : List α)
    (s : State) (hs : (s.blk b).state ≠ .saved) : s.leaves w (l.foldl f s) := by
  induction l generalizing s with
  | nil => exact .refl s
  | cons e l ih => exact (hf s e hs).trans (ih _ ((hf s e hs).issues hs))

theorem quiet.leaves {s t : State} {k : Nat} (h : s.quiet t k) : s.leaves w t where
  mem _ := by rw [h.mem]
  poison := h.poison
  l2 d a := by simp [l2, cache, die, h.dies, h.hub]
  blocks m := by
    by_cases hm : m = k
    · subst hm; rw [h.self]; exact .of_parts rfl rfl rfl
    · rw [h.other m hm]; exact .refl _
  tiles _ p := by simp [part, h.parts]
  sel := by rw [h.sel]; exact .refl _

theorem leaves_log (s : State) (b : Nat) (e : JEntry) : s.leaves w (s.log b e) := (s.quiet_log b e).leaves

theorem leaves_logRegs (s : State) (b k m : Nat) (ts : List Nat) : s.leaves w (s.logRegs b k m ts) := (s.quiet_logRegs b k m ts).leaves

theorem leaves_irrevoke (s : State) (b : Nat) : s.leaves w (s.irrevoke b) := s.leaves_modBlk b _ fun _ => .of_parts rfl rfl rfl

theorem leaves_padStore (s : State) (b : Nat) (rs : List SpStore) : s.leaves w (s.padStore b rs) := by
  simp only [padStore]
  exact (leaves_foldl _ (fun s _ => s.leaves_log b _) _ s).trans (leaves_modPad _ _ _)

theorem leaves_padPut (s : State) (b : Nat) (as : List (Nat × Nat × List Byte × List Nat)) : s.leaves w (s.padPut b as) := by
  unfold padPut; split
  · exact .refl s
  · exact s.leaves_padStore _ _

theorem leaves_padStores (s : State) (b : Nat) (as : List (Nat × Nat × List Byte)) : s.leaves w (s.padStores b as) := s.leaves_padPut b _

theorem leaves_setBar (s : State) (b a : Nat) (r : BarRec) : s.leaves w (s.setBar b a r) := s.leaves_padStore _ _

theorem leaves_putBar (s : State) (b k : Nat) (sl : Slot) (r : BarRec) (h : (s.blk b).state ≠ .saved) : s.leaves w (s.putBar b k sl r) := by
  simp only [putBar, beq_iff_eq, h, if_false]
  exact s.leaves_setBar _ _ _

theorem leaves_report (s : State) (d : Nat) (r : FbRec) : s.leaves w (s.report d r) := by
  simp only [report]
  split <;> exact s.leaves_modDie _ _ fun _ => rfl

theorem leaves_dropRequests (s : State) (b : Nat) : s.leaves w (s.dropRequests b) := by
  simp only [dropRequests]
  refine leaves_foldl _ (fun s e => ?_) _ s
  split
  · exact s.leaves_modCore _ _
  · exact .refl s

theorem leaves_dropWaiters (s : State) (b : Nat) : s.leaves w (s.dropWaiters b) := s.leaves_modDie _ _ fun _ => rfl

theorem leaves_tidyMerges (s : State) (c : Nat) : s.leaves w (s.tidyMerges c) := by
  simp only [tidyMerges]
  split
  · exact .refl s
  · exact s.leaves_modCluster _ _

theorem leaves_releaseBlock (s : State) (b : Nat) : s.leaves w (s.releaseBlock b) := by
  simp only [releaseBlock]
  refine leaves.trans ?_ (leaves_tidyMerges _ _)
  refine leaves.trans ?_ (leaves_dropWaiters _ _)
  refine leaves.trans ?_ (leaves_dropRequests _ _)
  refine leaves.trans ?_ (leaves_modCore _ _ _)
  exact leaves_foldl _ (by exact fun u _ => u.leaves_modPart _ _ fun _ _ => ⟨rfl, rfl⟩) _ s

theorem leaves_freeBlock (s : State) (b : Nat) : s.leaves w (s.freeBlock b) := by
  simp only [freeBlock]
  have h1 : ∀ s : State, s.leaves w (s.freeSwap b) := fun s => by
    simp only [freeSwap]
    refine leaves_foldl _ (fun s e => ?_) _ s
    split
    · exact s.leaves_modCluster _ _
    · exact .refl s
  split
  · exact ((s.leaves_modHub _).trans (h1 _)).trans (leaves_modDie _ _ _ fun _ => rfl)
  · exact (h1 s).trans (leaves_modDie _ _ _ fun _ => rfl)

theorem leaves_endKilled (s : State) (b : Nat) : s.leaves w (s.endKilled b) := by
  simp only [endKilled]
  refine leaves.trans ?_ (leaves_modGrid _ _ _)
  refine leaves.trans ?_ (leaves_modBlk _ _ _ fun _ => .of_parts rfl rfl rfl)
  exact (s.leaves_releaseBlock _).trans (leaves_freeBlock _ _)

theorem leaves_kill (s : State) (b cause trig : Nat) (a : DWord) : s.leaves w (s.kill b cause trig a) := by
  simp only [kill]
  split
  · exact .refl s
  · have h : ∀ t : State, t.leaves w (if t.unfinished b then (t.dropWaiters b).dropRequests b else t.endKilled b) := fun t => by
      split
      · exact (t.leaves_dropWaiters b).trans (leaves_dropRequests _ _)
      · exact t.leaves_endKilled b
    refine leaves.trans ?_ (h _)
    refine leaves.trans ?_ (leaves_modGrid _ _ _)
    refine ((s.leaves_report _ _).trans (leaves_modBlk _ _ _ fun x => Block.leaves_foldl _ (fun x (e : Nat × Drawn) => x.leaves_homeLogs e.2) _ x)).trans
      (leaves_modBlk _ _ _ fun x => .of_map _ rfl (fun t => ?_) (fun k => ?_) (by simp))
    · split <;> exact ⟨rfl, rfl, rfl⟩
    · simp only [Block.bundle, List.getD_eq_getElem?_getD, List.getElem?_map]
      cases x.bundles[k]? <;> exact ⟨rfl, rfl⟩

theorem leaves_consume (s : State) (b trig : Nat) (a : DWord) : s.leaves w (s.consume b trig a) := by
  simp only [consume]
  split
  · exact .refl s
  · split
    · exact s.leaves_kill _ _ _ _
    · split
      · exact s.leaves_kill _ _ _ _
      · exact s.leaves_modBlk _ _ fun x => .of_same (fun _ => ⟨rfl, rfl, rfl⟩) (fun _ => ⟨rfl, rfl⟩) (by simp)

theorem leaves_padServe (s : State) (b : Block) (rs : List SpReq) (ws : List Nat) : s.leaves w (s.padServe b rs ws).1 := by
  simp only [padServe]
  exact s.leaves_modPad _ _

theorem leaves_barRead (s : State) (b a : Nat) : s.leaves w (s.barRead b a).1 := s.leaves_padServe _ _ _

/-- What an access of a record may do leaves alone what `go` leaves alone. -/
theorem leaves_barAccess (s : State) (b a : Nat) (go : State → State) (h : (s.blk b).state ≠ .saved)
    (hg : ∀ t : State, (t.blk b).state ≠ .saved → t.leaves w (go t)) : s.leaves w (s.barAccess b a go) := by
  simp only [barAccess]
  split
  · exact hg s h
  · rename_i e
    split
    · rename_i u trig hu
      have h1 : s.leaves w u := by have := s.leaves_barRead (w := w) b a; rwa [hu] at this
      exact h1.trans (u.leaves_consume _ _ _)
    · rename_i u hu
      have h1 : s.leaves w u := by have := s.leaves_barRead (w := w) b a; rwa [hu] at this
      exact h1.trans (hg u (h1.issues h))

/-- A wait that ends keeps the registers. -/
theorem leaves_barUpdate (s : State) (b k : Nat) (f : BarRec → BarRec) (g : Slot → Slot) (h : (s.blk b).state ≠ .saved) :
    s.leaves w (s.barUpdate b k f g) := by
  unfold barUpdate
  split
  · exact .refl s
  · refine s.leaves_barAccess _ _ _ h fun t ht => ?_
    simp only []
    split
    · exact (t.leaves_putBar _ _ _ _ ht).trans (leaves_modBlk _ _ _ fun x => .of_map _ rfl (fun _ => ⟨rfl, rfl, rfl⟩) (fun _ => ⟨rfl, rfl⟩) id)
    · exact (t.leaves_putBar _ _ _ _ ht).trans (leaves_modBlk _ _ _ fun x => .of_parts rfl rfl rfl)

theorem leaves_arrive (s : State) (b k : Nat) (v : Int) (ext : Bool) (h : (s.blk b).state ≠ .saved) : s.leaves w (s.arrive b k v ext) := by
  simp only [arrive]
  split
  · have h1 : s.leaves w (s.modBlk b fun x => { x with
        journal := if x.check.isSome then .external k v true :: x.journal else x.journal }) := s.leaves_modBlk b _ fun _ => .of_parts rfl rfl rfl
    exact h1.trans (leaves_barUpdate _ _ _ _ _ (h1.issues h))
  · exact s.leaves_barUpdate _ _ _ _ h

theorem leaves_arriveFrom (s : State) (c b k : Nat) (v : Int) (h : (s.blk b).state ≠ .saved) : s.leaves w (s.arriveFrom c b k v) := by
  simp only [arriveFrom]
  split
  · exact .refl s
  · rename_i sl r hb
    split
    · rename_i u trig hu
      have h1 : s.leaves w u := by have := s.leaves_barRead (w := w) b sl.addr; rwa [hu] at this
      split
      · exact s.leaves_arrive _ _ _ _ h
      · exact h1.trans (u.leaves_consume _ _ _)
    · exact s.leaves_arrive _ _ _ _ h

theorem leaves_departBarriers (s : State) (b t : Nat) (h : (s.blk b).state ≠ .saved) : s.leaves w (s.departBarriers b t) := by
  simp only [departBarriers]
  refine leaves_foldl_live (b := b) _ (fun s e hs => ?_) _ s h
  split
  · exact s.leaves_barUpdate _ _ _ _ hs
  · exact .refl s

theorem leaves_endThread (s : State) (b t : Nat) (st : LaneStatus) (h : (s.blk b).state ≠ .saved) : s.leaves w (s.endThread b t st) := by
  simp only [endThread]
  have h1 : s.leaves w (s.modBlk b fun b =>
      { (b.modThr t fun x => { x with status := st, ctx := none, wait := .none, group := 0, level := 0 }).leaveMasks t with
        trapDue := b.trapDue.filter (· != t) }) :=
    s.leaves_modBlk _ _ fun x => ((x.leaves_modThr t _ (by exact fun _ => ⟨rfl, rfl, rfl⟩)).trans (Block.leaves_leaveMasks _ _)).trans
      (.of_parts rfl rfl rfl)
  exact h1.trans (leaves_departBarriers _ _ _ (h1.issues h))

theorem leaves_strike (s : State) (b t : Nat) (h : (s.blk b).state ≠ .saved) : s.leaves w (s.strike b t) := by
  simp only [strike]
  have h1 : s.leaves w (s.modBlk b fun b => { b with struck := b.struck + 1 }) := s.leaves_modBlk _ _ fun _ => .of_parts rfl rfl rfl
  exact h1.trans (leaves_endThread _ _ _ _ (h1.issues h))

theorem leaves_laneFaults (s : State) (b : Nat) (pc : DWord) (len : Nat) (fs : List (Nat × LF)) (h : (s.blk b).state ≠ .saved) :
    s.leaves w (s.laneFaults b pc len fs) := by
  unfold laneFaults
  split
  · exact .refl s
  · simp only []
    split
    · exact .refl s
    · split
      · exact leaves.trans (leaves_foldl _ (by exact fun u _ => u.leaves_report _ _) _ s) (leaves_kill _ _ _ _ _)
      · split
        · exact leaves.trans (leaves_foldl _ (by exact fun u _ => u.leaves_report _ _) _ s) (leaves_kill _ _ _ _ _)
        · have h1 : ∀ l : List (Nat × LF), s.leaves w
              (l.foldl (fun u e => u.report ((s.blk b).core / 48) (.lane (e.2.record (s.blk b) e.1 pc))) s) :=
            fun l => leaves_foldl _ (fun u e => u.leaves_report _ _) l s
          have h2 : ∀ (u : State) (ts : List Nat), u.leaves w (u.modBlk b fun x => x.leaveTurns ts) := fun u ts =>
            u.leaves_modBlk _ _ fun x => x.leaves_leaveTurns ts
          refine ((h1 _).trans (h2 _ _)).trans (leaves_foldl_live (b := b) _ (fun u e hu => ?_) _ _ (((h1 _).trans (h2 _ _)).issues h))
          split
          · exact u.leaves_modBlk _ _ fun x => x.leaves_modThr _ _ (by exact fun _ => ⟨rfl, rfl, rfl⟩)
          · exact u.leaves_strike _ _ hu

theorem leaves_fault (s : State) (len : Nat) (fs : List (Nat × LF)) (h : s.cb.state ≠ .saved) : s.leaves w (s.fault len fs) :=
  s.leaves_laneFaults _ _ _ _ h

theorem leaves_deadlock (s : State) (b k : Nat) (h : (s.blk b).state ≠ .saved) : s.leaves w (s.deadlock b k) := by
  simp only [deadlock]
  split
  · exact leaves_foldl_live (b := b) _ (fun u e hu => u.leaves_laneFaults _ _ _ _ hu) _ s h
  · exact .refl s

theorem leaves_openInterval (s : State) (b : Nat) : s.leaves w (s.openInterval b) := by
  simp only [openInterval]
  refine leaves.trans ?_ (leaves_modBlk _ _ _ fun _ => .of_parts rfl rfl rfl)
  exact s.leaves_modDie _ _ fun _ => rfl

theorem leaves_blockBarrier (s : State) (b : Nat) : s.leaves w (s.blockBarrier b) := by
  simp only [blockBarrier]
  split
  · refine (s.leaves_modBlk _ _ fun x => ?_).trans (leaves_openInterval _ _)
    exact (x.leaves_modThrs _ _ (by exact fun _ _ => ⟨rfl, rfl, rfl⟩)).trans (.of_parts rfl rfl rfl)
  · exact .refl s

theorem leaves_settle (s : State) (b : Nat) (h : (s.blk b).state ≠ .saved) : s.leaves w (s.settle b) := by
  simp only [settle]
  have h1 : ∀ (l : List Nat) (s : State), s.leaves w (s.modBlk b fun x => l.foldl (fun x k => x.releaseMasks k) x) := fun l s =>
    s.leaves_modBlk _ _ fun x => Block.leaves_foldl _ (fun x k => x.leaves_releaseMasks k) l x
  have g1 := (h1 (List.range (s.blk b).bundles.length) s).issues h
  refine leaves.trans ?_ (leaves_blockBarrier _ _)
  refine leaves.trans ?_ (leaves_modBlk _ _ _ fun x => x.leaves_tidyDrawn)
  refine leaves.trans ?_ (h1 _ _)
  exact (h1 _ s).trans (leaves_foldl_live (b := b) _ (fun u e hu => u.leaves_deadlock _ _ hu) _ _ g1)

theorem leaves_advance (s : State) (len : Nat) : s.leaves w (s.advance len) := s.leaves_modCb _ fun b => b.leaves_modThrs _ _ (by exact fun _ _ => ⟨rfl, rfl, rfl⟩)

theorem leaves_advanceBut (s : State) (len : Nat) (bad : List Nat) : s.leaves w (s.advanceBut len bad) :=
  s.leaves_modCb _ fun b => b.leaves_modThrs _ _ (by exact fun _ _ => ⟨rfl, rfl, rfl⟩)

theorem leaves_finishFaults (s : State) (len : Nat) (fs : List (Nat × LF)) (h : s.cb.state ≠ .saved) : s.leaves w (s.finishFaults len fs) := by
  unfold finishFaults
  split
  · exact .refl s
  · exact (s.leaves_fault _ _ h).trans (leaves_settle _ _ ((s.leaves_fault (w := w) _ _ h).issues h))

theorem leaves_endTurn (s : State) : s.leaves w s.endTurn := by
  simp only [endTurn]
  split
  · exact s.leaves_modCb _ fun b => b.leaves_modBundle _ _ fun _ => ⟨rfl, rfl⟩
  · exact s.leaves_modCb _ fun b => b.leaves_modDrawn _ _

theorem leaves_countIssue (s : State) (d : Int) : s.leaves w (s.countIssue d) := by
  rcases s.countIssue_cases d with h | h
  · rw [h]; exact .refl s
  · rw [h]; exact s.leaves_modPart _ _ fun _ _ => ⟨rfl, rfl⟩

@[simp] theorem endTurn_sel (s : State) : s.endTurn.sel = s.sel := by simp only [endTurn]; split <;> rfl

theorem noIssue_sel (s : State) : s.noIssue.sel.same s.endTurn.sel := by
  rw [endTurn_sel]; exact ⟨rfl, rfl, rfl, rfl⟩

theorem leaves_noIssue (s : State) : s.leaves w s.noIssue := by
  refine s.leaves_endTurn.trans ?_
  exact ⟨fun _ => rfl, rfl, fun _ _ => rfl, fun _ => .refl _, fun _ _ => ⟨rfl, rfl⟩, s.noIssue_sel⟩

theorem leaves_stall (s : State) : s.leaves w s.stall := (s.leaves_countIssue _).trans (leaves_noIssue _)

theorem leaves_raiseAll (s : State) (ts : List Nat) (h : Nat) : s.leaves w (s.raiseAll ts h) :=
  s.leaves_modCb _ fun b => Block.leaves_foldl _ (fun b t => b.leaves_raise t h) ts b

theorem leaves_uniformFault (s : State) (x : Opnds) (lf : LF) (h : s.cb.state ≠ .saved) : s.leaves w (s.uniformFault x lf) := by
  simp only [uniformFault]
  have h1 := s.leaves_advanceBut (w := w) x.ext.bytes (s.exe x.g)
  exact h1.trans (leaves_finishFaults _ _ _ (h1.issues h))

/-! ### Steps that follow on -/

namespace leaves

variable {s t : State}

theorem live (h : s.leaves w t) (hs : s.cb.state ≠ .saved) : t.cb.state ≠ .saved := by
  simp only [cb, h.sel.blk]; exact h.issues hs

theorem advance (h : s.leaves w t) (n : Nat) : s.leaves w (t.advance n) := h.trans (t.leaves_advance n)
theorem advanceBut (h : s.leaves w t) (n : Nat) (bad : List Nat) : s.leaves w (t.advanceBut n bad) := h.trans (t.leaves_advanceBut n bad)
theorem noIssue (h : s.leaves w t) : s.leaves w t.noIssue := h.trans t.leaves_noIssue
theorem stall (h : s.leaves w t) : s.leaves w t.stall := h.trans t.leaves_stall
theorem endTurn (h : s.leaves w t) : s.leaves w t.endTurn := h.trans t.leaves_endTurn
theorem raiseAll (h : s.leaves w t) (ts : List Nat) (n : Nat) : s.leaves w (t.raiseAll ts n) := h.trans (t.leaves_raiseAll ts n)
theorem irrevoke (h : s.leaves w t) (b : Nat) : s.leaves w (t.irrevoke b) := h.trans (t.leaves_irrevoke b)
theorem consume (h : s.leaves w t) (b g : Nat) (a : DWord) : s.leaves w (t.consume b g a) := h.trans (t.leaves_consume b g a)
theorem padStore (h : s.leaves w t) (b : Nat) (rs : List SpStore) : s.leaves w (t.padStore b rs) := h.trans (t.leaves_padStore b rs)
theorem padStores (h : s.leaves w t) (b : Nat) (as : List (Nat × Nat × List Byte)) : s.leaves w (t.padStores b as) :=
  h.trans (t.leaves_padStores b as)
theorem setBar (h : s.leaves w t) (b a : Nat) (r : BarRec) : s.leaves w (t.setBar b a r) := h.trans (t.leaves_setBar b a r)
theorem log (h : s.leaves w t) (b : Nat) (e : JEntry) : s.leaves w (t.log b e) := h.trans (t.leaves_log b e)
theorem modCore (h : s.leaves w t) (c : Nat) (f : Core → Core) : s.leaves w (t.modCore c f) := h.trans (t.leaves_modCore c f)
theorem modPad (h : s.leaves w t) (c : Nat) (f : Scratchpad → Scratchpad) : s.leaves w (t.modPad c f) := h.trans (t.leaves_modPad c f)
theorem modCluster (h : s.leaves w t) (c : Nat) (f : Cluster → Cluster) : s.leaves w (t.modCluster c f) := h.trans (t.leaves_modCluster c f)
theorem modPart (h : s.leaves w t) (p : Nat) (f : Partition → Partition)
    (hf : ¬w.tiles → ∀ x, (f x).tiles = x.tiles ∧ (f x).buf = x.buf) : s.leaves w (t.modPart p f) := h.trans (t.leaves_modPart p f hf)
theorem modBlk (h : s.leaves w t) (k : Nat) (f : Block → Block) (hf : ∀ b : Block, b.leaves w k (f b)) : s.leaves w (t.modBlk k f) :=
  h.trans (t.leaves_modBlk k f hf)
theorem modCb (h : s.leaves w t) (f : Block → Block) (hf : ∀ (n : Nat) (b : Block), b.leaves w n (f b)) : s.leaves w (t.modCb f) :=
  h.trans (t.leaves_modCb f (hf _))

theorem finishFaults (h : s.leaves w t) (hs : s.cb.state ≠ .saved) (n : Nat) (fs : List (Nat × LF)) : s.leaves w (t.finishFaults n fs) :=
  h.trans (t.leaves_finishFaults n fs (h.live hs))
theorem fault (h : s.leaves w t) (hs : s.cb.state ≠ .saved) (n : Nat) (fs : List (Nat × LF)) : s.leaves w (t.fault n fs) :=
  h.trans (t.leaves_fault n fs (h.live hs))
theorem uniformFault (h : s.leaves w t) (hs : s.cb.state ≠ .saved) (x : Opnds) (lf : LF) : s.leaves w (t.uniformFault x lf) :=
  h.trans (t.leaves_uniformFault x lf (h.live hs))
theorem settle (h : s.leaves w t) {b : Nat} (hs : (s.blk b).state ≠ .saved) : s.leaves w (t.settle b) :=
  h.trans (t.leaves_settle b (h.issues hs))
theorem arrive (h : s.leaves w t) {b : Nat} (hs : (s.blk b).state ≠ .saved) (k : Nat) (v : Int) (e : Bool) : s.leaves w (t.arrive b k v e) :=
  h.trans (t.leaves_arrive b k v e (h.issues hs))
theorem putBar (h : s.leaves w t) {b : Nat} (hs : (s.blk b).state ≠ .saved) (k : Nat) (sl : Slot) (r : BarRec) :
    s.leaves w (t.putBar b k sl r) := h.trans (t.leaves_putBar b k sl r (h.issues hs))
theorem barUpdate (h : s.leaves w t) {b : Nat} (hs : (s.blk b).state ≠ .saved) (k : Nat) (f : BarRec → BarRec) (g : Slot → Slot) :
    s.leaves w (t.barUpdate b k f g) := h.trans (t.leaves_barUpdate b k f g (h.issues hs))
theorem laneFaults (h : s.leaves w t) {b : Nat} (hs : (s.blk b).state ≠ .saved) (pc : DWord) (n : Nat) (fs : List (Nat × LF)) :
    s.leaves w (t.laneFaults b pc n fs) := h.trans (t.leaves_laneFaults b pc n fs (h.issues hs))

end leaves

/-! ### What is written -/

theorem touch_tiles (s : State) (x : Opnds) (n : Nat) (fl mx : Bool) : (s.touch x n fl mx).tiles ↔ mx = true := .rfl

theorem leaves_touch_modThr {s : State} {x : Opnds} {n k l : Nat} {fl mx : Bool} (b : Block) (f : Thread → Thread) (hl : l ∈ s.exe x.g)
    (hk : k = s.sel.blk)
    (hv : ∀ t : Thread, (∀ i, (∀ r, x.d = .v r → ¬(r.toNat ≤ i ∧ i < r.toNat + n)) → (f t).vreg i = t.vreg i)
      ∧ (∀ q, x.d ≠ .p q → (f t).pred q = t.pred q) ∧ (fl = false → (f t).nflags = t.nflags)) :
    b.leaves (s.touch x n fl mx) k (b.modThr l f) where
  v m i hi := by
    rw [Block.thr_modThr]
    split
    · rename_i h
      obtain ⟨rfl, -⟩ := h
      exact (hv _).1 i fun r hr hb => hi ⟨r, hr, hk, hl, hb.1, hb.2⟩
    · rfl
  p m q hq := by
    rw [Block.thr_modThr]
    split
    · rename_i h
      obtain ⟨rfl, -⟩ := h
      exact (hv _).2.1 q fun hd => hq ⟨hd, hk, hl⟩
    · rfl
  flags m hm := by
    rw [Block.thr_modThr]
    split
    · rename_i h
      obtain ⟨rfl, -⟩ := h
      exact (hv _).2.2 (by cases fl <;> simp_all [touch])
    · rfl
  s m i _ := rfl
  f m i := rfl
  saved := id

theorem setSregs_home (b : Block) (k n : Nat) (ws : List Word) (g : Bundle → List Nat) (m i : Nat) (hi : ¬(m = k ∧ n ≤ i ∧ i < n + ws.length)) :
    Sparse.getOr ((b.modBundle k fun y =>
        { y with s := (ws.zipIdx).foldl (fun f e => Sparse.putOr f (n + e.2) e.1 0) y.s, bad := g y }).bundle m).s i 0
      = Sparse.getOr (b.bundle m).s i 0 := by
  rw [Block.bundle_modBundle]
  split
  · rename_i h
    simp only []
    have := getOr_putAll (b.bundle m).s n i ws 0
    rw [this, if_neg (by tauto)]
  · rfl

/-- Values written to an instruction's destination in its executing lanes. -/
theorem leaves.write {s t : State} {x : Opnds} {n : Nat} {fl mx : Bool} (h : s.leaves (s.touch x n fl mx) t) (vals : List (Nat × Nat))
    (hv : ∀ e ∈ vals, e.1 ∈ s.exe x.g) : s.leaves (s.touch x n fl mx) (t.write x.d n vals) := by
  refine h.trans ?_
  unfold State.write
  split
  · rename_i r hr
    have hl := t.leaves_logRegs (w := s.touch x n fl mx) t.sel.blk r.toNat n (vals.map (·.1))
    refine hl.trans (leaves_modCb _ _ fun b => Block.leaves_foldl_mem _ _ (fun b e he => ?_) b)
    refine leaves_touch_modThr b _ (hv e he) (by rw [hl.sel.blk, h.sel.blk]) fun u => ⟨fun i hi => ?_, fun q _ => ?_, fun _ => ?_⟩
    · rw [Thread.vreg_setVs, if_neg]
      rw [length_toWords]
      exact hi r hr
    · rw [Thread.setVs_keeps]; rfl
    · rw [Thread.setVs_keeps]
  · rename_i r hr
    refine leaves_modCb _ _ fun b => Block.leaves_foldl_mem _ _ (fun b e he => ?_) b
    refine leaves_touch_modThr b _ (hv e he) (by rw [h.sel.blk]) fun u => ⟨fun i _ => ?_, fun q hq => ?_, fun _ => ?_⟩
    · simp only [Thread.setPred]; split <;> rfl
    · rw [Thread.pred_setPred, if_neg]
      rintro rfl; exact hq hr
    · simp only [Thread.setPred]; split <;> rfl
  · rename_i r hr
    cases vals with
    | nil => exact .refl _
    | cons e es =>
      have hne : s.exe x.g ≠ [] := List.ne_nil_of_mem (hv e (by simp))
      simp only []
      unfold setSregs
      split
      · rename_i k hk
        refine leaves_modCb _ _ fun b => ?_
        exact { v := fun _ _ _ => rfl, p := fun _ _ _ => rfl, flags := fun _ _ => rfl, saved := id
                f := fun m i => by rw [Block.bundle_modBundle]; split <;> rfl
                s := fun m i hi => by
                  refine setSregs_home b k r.toNat (toWords n e.2) _ m i ?_
                  rintro ⟨rfl, h1, h2⟩
                  rw [length_toWords] at h2
                  exact hi ⟨r, hr, by rw [h.sel.blk], by rw [← h.sel.ctx]; exact hk, hne, h1, h2⟩ }
      · exact leaves_modCb _ _ fun b => b.leaves_modDrawn _ _
  · exact .refl _
  · exact .refl _

/-- Flags raised in executing lanes by an instruction that may. -/
theorem leaves.flagLanes {s t : State} {x : Opnds} {n : Nat} {mx : Bool} (h : s.leaves (s.touch x n true mx) t) (fs : List (Nat × BitVec 6))
    (hf : ∀ e ∈ fs, e.1 ∈ s.exe x.g) : s.leaves (s.touch x n true mx) (t.flagLanes fs) := by
  refine h.trans ?_
  unfold State.flagLanes
  refine leaves_modCb _ _ fun b => Block.leaves_foldl_mem _ _ (fun b e he => ?_) b
  split
  · exact .refl _
  · exact leaves_touch_modThr b _ (hf e he) (by rw [h.sel.blk]) fun u => ⟨fun i _ => rfl, fun q _ => rfl, fun h => by cases h⟩

theorem leaves_begun (s : State) : s.leaves w s.begun := s.leaves_countIssue 1

theorem not_saved {s : State} (h : s.cb.state.issues = true) : s.cb.state ≠ .saved := by
  intro e; rw [e] at h; cases h

end State

end Sys2Proof.Machine
end

