-- ==== Sys2Proof/Laws/FrameOps.lean ====
section
/-! SUPPORT. Laws/FrameOps.lean: what the operations that several instructions share leave alone, each following on from a state that has
left so much alone: scratchpad loads and stores, barriers, rings, copies, masks, bins, traps, operand buffers, tiles. -/

namespace Sys2Proof.Machine.State

variable {s t : State} {x : Opnds} {n : Nat} {fl mx : Bool} {w : Touch}

theorem frame {i : Instr} {f : Opnds → State → State} (hx : i.opnds? = some x) (hr : s.ready i = true) (hf : s.leaves w (f x s.begun))
    (h : s.issue i f = .next t) : s.leaves w t := by
  rw [issue_ready hx hr] at h
  cases h; exact hf

theorem good_mem {rs : List PadReq} {l : List Nat} (h : ∀ r ∈ rs, r.thr ∈ l) : ∀ e ∈ PadReq.good rs, e.1 ∈ l := by
  intro e he
  simp only [PadReq.good, List.mem_filterMap] at he
  obtain ⟨r, hr, h1⟩ := he
  split at h1
  · cases h1; exact h r hr
  · cases h1

theorem ite_leaves {c : Prop} [Decidable c] {a b : State} (h1 : s.leaves w a) (h2 : s.leaves w b) : s.leaves w (if c then a else b) := by
  split <;> assumption

theorem leaves.foldl {α : Type} (h : s.leaves w t) (f : State → α → State) (l : List α)
    (hf : ∀ (u : State) e, e ∈ l → s.leaves w u → s.leaves w (f u e)) :
    s.leaves w (l.foldl f t) := by
  induction l generalizing t with
  | nil => exact h
  | cons e l ih => exact ih (hf _ _ (by simp) h) fun u e he => hf u e (by simp [he])

theorem leaves.padServe (h : s.leaves w t) (b : Block) (rs : List SpReq) (ws : List Nat) : s.leaves w (t.padServe b rs ws).1 :=
  h.trans (t.leaves_padServe b rs ws)

theorem leaves.barAccess (h : s.leaves w t) {b : Nat} (a : Nat) (go : State → State)
    (hg : ∀ u : State, s.leaves w u → s.leaves w (go u)) : s.leaves w (t.barAccess b a go) := by
  unfold State.barAccess
  refine ite_leaves (hg _ h) ?_
  have h1 := h.trans (t.leaves_barRead b a)
  split <;> (rename_i e; rw [e] at h1)
  · exact h1.consume _ _ _
  · exact hg _ h1

theorem leaves.padPut (h : s.leaves w t) (b : Nat) (as : List (Nat × Nat × List Byte × List Nat)) : s.leaves w (t.padPut b as) :=
  h.trans (t.leaves_padPut b as)

theorem leaves.padLoad (h : s.leaves w t) (b k : Nat) (as : List (Nat × Nat)) : s.leaves w (t.padLoad b k as).1 := by
  simp only [State.padLoad]
  have h1 := h.padServe (t.blk b) (loadReqs (t.blk b) k (as.map fun e => (e.2, homeLane e.1)) [])
    ((as.flatMap fun e => wordsOf e.2 k).eraseDups.map (t.blk b).word)
  split <;> (rename_i e; rw [e] at h1; exact h1)

theorem padLoad_ok {b k : Nat} {as vs : List (Nat × Nat)} {l : List Nat} (ha : ∀ e ∈ as, e.1 ∈ l) (h : (t.padLoad b k as).2 = .ok vs) : ∀ e ∈ vs, e.1 ∈ l := by
  simp only [State.padLoad] at h
  repeat' split at h
  all_goals cases h
  intro e he
  simp only [List.mem_map] at he
  obtain ⟨a, h1, rfl⟩ := he
  exact ha a h1

theorem leaves.padLoaded (h : s.leaves (s.touch x n fl mx) t) (hs : s.cb.state ≠ .saved) (w : MWidth) (hw : w.regs = n) (rs : List PadReq) (k : Nat)
    (got : Except Nat (List (Nat × Nat))) (hg : ∀ vs, got = .ok vs → ∀ e ∈ vs, e.1 ∈ s.exe x.g) : s.leaves (s.touch x n fl mx) (t.padLoaded x w rs k got) := by
  subst hw
  unfold State.padLoaded
  split
  · exact h.consume _ _ _
  · rename_i vs
    refine leaves.finishFaults ?_ hs _ _
    refine leaves.raiseAll ?_ _ _
    refine leaves.write (h.advanceBut _ _) _ ?_
    intro e he
    simp only [List.mem_map] at he
    obtain ⟨a, h1, rfl⟩ := he
    exact hg vs rfl a h1

theorem olds_foldl {l : List Nat} (step : AtomsAcc → Nat × Nat → AtomsAcc) (hst : ∀ acc e, ∃ v, (step acc e).olds = acc.olds ++ [(e.1, v)])
    (good : List (Nat × Nat)) (hg : ∀ e ∈ good, e.1 ∈ l) (acc : AtomsAcc) (ha : ∀ o ∈ acc.olds, o.1 ∈ l) :
    ∀ o ∈ (good.foldl step acc).olds, o.1 ∈ l := by
  induction good generalizing acc with
  | nil => exact ha
  | cons e es ih =>
    refine ih (fun e he => hg e (by simp [he])) _ ?_
    intro o ho
    obtain ⟨v, hv⟩ := hst acc e
    rw [hv, List.mem_append, List.mem_singleton] at ho
    rcases ho with ho | rfl
    · exact ha o ho
    · exact hg e (by simp)

theorem atoms_acc {u : State} {l : List Nat} {good : List (Nat × Nat)} {ty : ATy} {op : AOp} (hg : ∀ e ∈ good, e.1 ∈ l) :
    ∀ o ∈ (u.atomsAcc x ty op good).olds, o.1 ∈ l := by
  unfold atomsAcc
  exact olds_foldl _ (fun acc e => ⟨_, rfl⟩) good hg _ (by simp)

theorem ite_some {α : Type} {c : Prop} [Decidable c] {a b u : α} (h : (if c then some a else some b) = some u) : a = u ∨ b = u := by
  split at h
  · exact .inl (Option.some.inj h)
  · exact .inr (Option.some.inj h)

theorem leaves.remoteDo {r : Rem} {k : Nat} {ls : List (Nat × Nat × Nat × List Nat)} (h : s.leaves (s.touch x n fl mx) t) (hs : s.cb.state ≠ .saved)
    (hr : r.x = x) (hw : r.store = false → r.w.regs = n) (honly : r.only = false) (ht : (s.blk k).state ≠ .saved) (hx : ∀ e ∈ ls, e.1 ∈ s.exe x.g)
    {u : State} (hu : t.remoteDo r k ls = some u) : s.leaves (s.touch x n fl mx) u := by
  subst hr
  simp only [State.remoteDo, honly, Bool.false_eq_true, if_false] at hu
  split at hu
  · cases hu; exact h.uniformFault hs _ _
  · split at hu
    · cases hu
    · split at hu
      · rename_i hst
        cases hu
        refine (h.padLoad _ _ _).padLoaded hs _ (hw (by simpa using hst)) _ _ _ fun vs hv => padLoad_ok (good_mem ?_) hv
        intro q hq
        obtain ⟨e, he, rfl⟩ := List.mem_map.1 hq
        exact hx e he
      · have h1 : ∀ (as : List (Nat × Nat × List Byte × List Nat)) (c d : Prop) [Decidable c] [Decidable d] (ts : List Nat),
            s.leaves (s.touch r.x n fl mx) (((fun s1 : State => (if c then s1 else s1.irrevoke t.sel.blk).raiseAll ts 2) (if d then t.padPut k as else (t.padPut k as).irrevoke k))) := by
          intro as c d _ _ ts
          have h2 : s.leaves (s.touch r.x n fl mx) (if d then t.padPut k as else (t.padPut k as).irrevoke k) :=
            ite_leaves (h.padPut _ _) ((h.padPut _ _).irrevoke _)
          exact (ite_leaves h2 (h2.irrevoke _)).raiseAll _ _
        split at hu
        · cases hu
          exact ((h1 _ _ _ _).advanceBut _ _).finishFaults hs _ _
        · rcases ite_some hu with rfl | rfl
          · have h2 : ∀ v : State, s.leaves (s.touch r.x n fl mx) v →
                ∀ (m : Nat) (b : Int), s.leaves (s.touch r.x n fl mx) (v.arriveFrom t.sel.blk k m b) :=
              fun v hv m b => hv.trans (v.leaves_arriveFrom _ _ _ _ (hv.issues ht))
            exact ite_leaves (((h2 _ (h1 _ _ _ _) _ _).advanceBut _ _).finishFaults hs _ _) (h2 _ (h1 _ _ _ _) _ _)
          · exact ((h1 _ _ _ _).advanceBut _ _).finishFaults hs _ _

theorem leaves.hold (h : s.leaves w t) (ex : List Nat) (v : Wait) : s.leaves w (t.hold ex v) := by
  simp only [State.hold]
  exact (h.modCb _ fun n b => (b.leaves_modThrs _ _ (by exact fun _ _ => ⟨rfl, rfl, rfl⟩)).trans (Block.leaves_modThrs _ _ _ (by exact fun _ _ => ⟨rfl, rfl, rfl⟩))).endTurn

theorem leaves.holdEach (h : s.leaves w t) (len : Nat) (ex : List Nat) (v : Nat → Wait) : s.leaves w (t.holdEach len ex v) := by
  simp only [State.holdEach]
  exact (h.modCb _ fun n b => (b.leaves_modThrs _ _ (by exact fun _ _ => ⟨rfl, rfl, rfl⟩)).trans (Block.leaves_modThrs _ _ _ (by exact fun _ _ => ⟨rfl, rfl, rfl⟩))).endTurn

theorem leaves.faultWaits (h : s.leaves w t) {b : Nat} (hs : (s.blk b).state ≠ .saved) (k : Nat) (p : Wait → Bool) : s.leaves w (t.faultWaits b k p) := by
  simp only [State.faultWaits]
  exact leaves.foldl h _ _ fun u e _ hu => hu.laneFaults hs _ _ _

theorem leaves.faultUnbound (h : s.leaves w t) {b : Nat} (hs : (s.blk b).state ≠ .saved) : s.leaves w (t.faultUnbound b) := by
  simp only [State.faultUnbound]
  exact leaves.foldl h _ _ fun u e _ hu => hu.faultWaits hs _ _

theorem leaves.endWaits (h : s.leaves w t) {b : Nat} (hs : (s.blk b).state ≠ .saved) (k : Nat) : s.leaves w (t.endWaits b k) := by
  unfold State.endWaits
  refine leaves.faultWaits ?_ hs _ _
  exact h.modBlk _ _ fun c => .of_map _ rfl (fun _ => ⟨rfl, rfl, rfl⟩) (fun _ => ⟨rfl, rfl⟩) id

theorem leaves.barrive (h : s.leaves w t) {b : Nat} (hs : (s.blk b).state ≠ .saved) (k : Nat) (ex : List Nat) (v : Int) : s.leaves w (t.barrive b k ex v).1 := by
  unfold State.barrive
  simp only []
  split
  · exact h
  · split
    · exact h
    · exact h.barUpdate hs _ _ _

theorem map_mem {l : List Nat} (f : Nat → Nat) : ∀ e ∈ l.map (fun t => (t, f t)), e.1 ∈ l := by
  intro e he; obtain ⟨a, h, rfl⟩ := List.mem_map.1 he; exact h

theorem leaves.bwaittEnd (h : s.leaves (s.touch x 1 fl mx) t) (hs : s.cb.state ≠ .saved) (k : Nat) (late : Bool) (rs : List (Nat × Bool)) (hrs : ∀ r ∈ rs, r.1 ∈ s.exe x.g) :
    s.leaves (s.touch x 1 fl mx) (t.bwaittEnd x k late rs) := by
  simp only [State.bwaittEnd]
  have h1 := (h.advance x.ext.bytes).write (rs.map fun r => (r.1, if r.2 then 1 else 0)) (by
    intro e he; obtain ⟨r, h, rfl⟩ := List.mem_map.1 he; exact hrs r h)
  split
  · unfold State.setTmo
    split
    · refine h1.barAccess _ _ fun u hu => hu.putBar (by rw [h.sel.blk]; exact hs) _ _ _
    · exact h1
  · exact h1

theorem frame_ring {i : Instr} {f : Opnds → State → Nat → Nat → Nat → State} (hx : i.opnds? = some x) (hr : s.ready i = true) (hs : s.cb.state ≠ .saved)
    (hf : ∀ d a b, s.leaves w (f x s.begun d a b)) (h : s.ringOp i k f = .next t) : s.leaves w t := by
  refine frame hx hr ?_ h
  have h0 : s.leaves w s.begun := s.leaves_begun
  simp only []
  split
  · exact h0.advance _
  · split
    · exact h0.uniformFault hs _ _
    · exact hf _ _ _

theorem leaves.ringWait (h : s.leaves (s.touch x 1 fl mx) t) (he : t.exe x.g = s.exe x.g) (a b c : Nat) : s.leaves (s.touch x 1 fl mx) (t.ringWait x a b c) := by
  unfold State.ringWait
  split
  · exact h.stall
  · rw [he]; exact ((h.advance _).write _ (map_mem _)).raiseAll _ _

theorem leaves.ringArrive (h : s.leaves w t) (hs : s.cb.state ≠ .saved) (a b : Nat) (v : Int) (c : Nat × Nat) : s.leaves w (t.ringArrive x a b v c) := by
  unfold State.ringArrive
  split
  · exact h.uniformFault hs _ _
  · refine leaves.raiseAll (leaves.advance (leaves.modCb (leaves.arrive h (by rw [h.sel.blk]; exact hs) _ _ _) _ fun n b => ?_) _) _ _
    exact b.leaves_modBundle _ _ fun _ => ⟨rfl, rfl⟩

theorem leaves.supply {i : Instr} (hx : i.opnds? = some x) (hr : s.ready i = true) (hs : s.cb.state ≠ .saved) (h : s.supply i kd g sl = .next t) : s.leaves w t := by
  refine frame hx hr ?_ h
  have h0 : s.leaves w s.begun := s.leaves_begun
  simp only []
  split
  · exact h0.stall
  · have h1 : ∀ c, s.leaves w (s.begun.modCb fun b =>
        { b.modBundle (s.begun.cb.roleBundle s.begun.sel.ctx) (fun u => { u with slices := u.slices + 1 }) with slices := b.slices ++ [c] }) := fun c =>
      h0.modCb _ fun n b => (b.leaves_modBundle _ _ (by exact fun _ => ⟨rfl, rfl⟩)).trans (.of_parts rfl rfl rfl)
    split
    · exact (h1 _).advance _
    · exact (h1 _).uniformFault hs _ _

theorem leaves.endThread (h : s.leaves w t) {b : Nat} (hs : (s.blk b).state ≠ .saved) (l : Nat) (st : LaneStatus) : s.leaves w (t.endThread b l st) :=
  h.trans (t.leaves_endThread b l st (h.issues hs))

theorem leaves.strike (h : s.leaves w t) {b : Nat} (hs : (s.blk b).state ≠ .saved) (l : Nat) : s.leaves w (t.strike b l) :=
  h.trans (t.leaves_strike b l (h.issues hs))

theorem leaves.changeMasks (h : s.leaves w t) (hs : s.cb.state ≠ .saved) (a : Nat) (b : List Nat) (c : Nat) (f : Nat → Nat → Nat) : s.leaves w (t.changeMasks a b c f) := by
  simp only [State.changeMasks]
  rw [h.sel.blk]
  exact leaves.settle (leaves.modCb (h.advance _) _ fun n b => Block.leaves_foldl _ (fun b _ => b.leaves_setMask _ _ _) _ b) hs

theorem leaves.file (h : s.leaves w t) (b l : Nat) (pc : DWord) : s.leaves w (t.file b l pc) := by
  simp only [State.file]
  have h1 : s.leaves w (t.modBlk b fun y => y.modThr l fun x => { x with pc := pc, wait := .none, group := 0 }) :=
    h.modBlk _ _ fun y => y.leaves_modThr _ _ (by exact fun _ => ⟨rfl, rfl, rfl⟩)
  split
  · exact h1
  · split
    · exact h1
    · refine leaves.modBlk (leaves.modPart h _ _ (by exact fun _ _ => ⟨rfl, rfl⟩)) _ _ fun y => ?_
      exact y.leaves_modThr _ _ (by exact fun _ => ⟨rfl, rfl, rfl⟩)

theorem setSys_leaves (b : Block) (m r l v : Nat) : b.leaves w m (b.setSys r l v) := by
  unfold Block.setSys
  repeat' split
  all_goals first
    | exact .refl _
    | exact .of_parts rfl rfl rfl
    | exact b.leaves_modThr _ _ (by exact fun _ => ⟨rfl, rfl, rfl⟩)

theorem leaves.leaveTrap (h : s.leaves w t) (b l : Nat) : s.leaves w (t.leaveTrap b l) := by
  unfold State.leaveTrap
  simp only []
  split
  · exact h
  · have key : ∀ f : Thread → Thread, ((t.blk b).thr l).same (f ((t.blk b).thr l)) → s.leaves w (t.modBlk b fun y => y.modThr l f) := by
      intro f hf
      refine h.trans (t.leaves_modBlk_at b _ ?_)
      refine .of_same (fun j => ?_) (fun k => ⟨rfl, rfl⟩) id
      rw [Block.thr_modThr]
      split
      · rename_i hj; obtain ⟨rfl, -⟩ := hj; exact hf
      · exact ⟨rfl, rfl, rfl⟩
    split
    · refine leaves.file (key _ ?_) _ _ _
      exact ⟨rfl, rfl, rfl⟩
    · refine key _ ?_
      exact ⟨rfl, rfl, rfl⟩

theorem enterTrap_same (u : Thread) (a : DWord) (c : Nat) : u.same (u.enterTrap a c) := by
  unfold Thread.enterTrap
  all_goals exact ⟨rfl, rfl, rfl⟩

theorem leaves.lateTrap (h : s.leaves w t) (b l : Nat) : s.leaves w (t.lateTrap b l) := by
  simp only [State.lateTrap]
  split
  · have h1 : s.leaves w (t.modBlk b fun y => { y with trapDue := (t.blk b).trapDue.filter (· != l) }) := by
      refine h.modBlk _ _ fun y => ?_
      exact .of_parts rfl rfl rfl
    split
    · simp only [State.trapThreads]
      refine leaves.modBlk h1 _ _ fun y => ?_
      exact y.leaves_modThrs _ _ fun _ u => enterTrap_same _ _ _
    · exact h1
  · exact h

theorem leaves.returnTo (h : s.leaves w t) (b l : Nat) (p : Bool) : s.leaves w (t.returnTo b l p) := by
  simp only [State.returnTo]
  refine leaves.lateTrap (leaves.modBlk h _ _ fun y => ?_) _ _
  exact y.leaves_modThr _ _ (by exact fun _ => ⟨rfl, rfl, rfl⟩)

theorem frame_tret {i : Instr} (hx : i.opnds? = some x) (hr : s.ready i = true) (hs : s.cb.state ≠ .saved) {f : State → Nat → State}
    {g : State → List Nat → List (Nat × LF)}
    (hf : ∀ (u : State) l, s.leaves w u → s.leaves w (f u l)) (h : s.tretOp i m g f = .next t) : s.leaves w t := by
  refine frame hx hr ?_ h
  have h0 : s.leaves w s.begun := s.leaves_begun
  have hsel : s.begun.sel.blk = s.sel.blk := by rw [begun_sel]
  simp only [hsel]
  have h1 : ∀ (good : List Nat) (p : Nat → Prop) [DecidablePred p] (n : Nat) (ex : List Nat), s.leaves w
      (good.foldl (fun u t => if p t then f u t else u.leaveTrap s.sel.blk t) (s.begun.advanceBut n ex)) := fun good p _ n ex =>
    leaves.foldl (h0.advanceBut _ _) _ _ fun u e _ hu => ite_leaves (hf _ _ hu) (leaves.leaveTrap hu _ _)
  exact leaves.settle (leaves.fault (ite_leaves ((h1 _ _ _ _).faultUnbound hs) (h1 _ _ _ _)) hs _ _) hs

theorem leaves.startFill (h : s.leaves w t) (k : Nat) (f : Fill) : s.leaves w (t.startFill k f) :=
  leaves.modPart h _ _ fun _ _ => ⟨rfl, rfl⟩

theorem leaves.fillRead (h : s.leaves w t) (b a k : Nat) : s.leaves w (t.fillRead b a k).1 := by
  simp only [State.fillRead]
  split <;> (dsimp only; exact h.modPad _ _)

theorem leaves.localFill (h : s.leaves w t) (hs : s.cb.state ≠ .saved) (a b c : Nat) : s.leaves w (t.localFill x a b c) := by
  unfold State.localFill
  simp only []
  split
  · exact h.uniformFault hs _ _
  · split
    · exact h.stall
    · have h1 := leaves.fillRead h t.sel.blk b c
      split
      · rename_i e; rw [e] at h1; exact leaves.consume h1 _ _ _
      · rename_i e; rw [e] at h1; exact ((leaves.startFill h1 _ _).raiseAll _ _).advance _

theorem frame_fill {i : Instr} (hx : i.opnds? = some x) (hr : s.ready i = true) (hs : s.cb.state ≠ .saved)
    (h : s.fillOp i k f = .next t) : s.leaves w t := by
  refine frame hx hr ?_ h
  have h0 : s.leaves w s.begun := s.leaves_begun
  simp only []
  repeat' split
  all_goals first
    | exact h0.advance _
    | exact h0.stall
    | exact h0.uniformFault hs _ _
    | exact leaves.localFill h0 hs _ _ _
    | exact leaves.advance (leaves.startFill (leaves.modCluster h0 _ _) _ _) _

theorem leaves.setRow (h : s.leaves (s.touch x n fl true) t) (a b : Nat) (r : AccRow) : s.leaves (s.touch x n fl true) (t.setRow a b r) := by
  simp only [State.setRow]
  exact (h.log _ _).modPart _ _ fun hn => absurd rfl hn

theorem leaves.tile (h : s.leaves (s.touch x n fl true) t) (p : Nat) (f : Partition → Partition) : s.leaves (s.touch x n fl true) (t.modPart p f) :=
  h.modPart _ _ fun hn => absurd rfl hn

theorem leaves.flag1 (h : s.leaves (s.touch x n true mx) t) {l : Nat} (hl : l ∈ s.exe x.g) (v : BitVec 6) : s.leaves (s.touch x n true mx) (t.flagLanes [(l, v)]) :=
  h.flagLanes _ (by simpa using hl)

theorem leaves.renormRow (h : s.leaves (s.touch x n true true) t) {l : Nat} (hl : l ∈ s.exe x.g) (a b c : Nat) : s.leaves (s.touch x n true true) (t.renormRow a l b c) := by
  simp only [State.renormRow]
  exact leaves.flag1 (leaves.tile (leaves.setRow h _ _ _) _ _) hl _

theorem leaves.addLane (h : s.leaves (s.touch x n true true) t) {l : LaneProds} (hl : l.thr ∈ s.exe x.g) (a b c d : Nat) : s.leaves (s.touch x n true true) (t.addLane a b c d l) := by
  simp only [State.addLane]
  have key : ∀ u : State, s.leaves (s.touch x n true true) u → s.leaves (s.touch x n true true) (match l.top with
      | none => u
      | some t =>
        let r := u.accRow a (homeLane l.thr)
        let sh := r.shift t b
        let s := if 0 < sh then u.renormRow a l.thr sh d else u
        let r := s.accRow a (homeLane l.thr)
        let r := if r.empty then { r with e := max (-32768) (min 32767 (t + b - 39)), empty := false } else r
        let sums := l.cols.map fun ps => (ps.map fun p => align p r.e)
        let lost := sums.any fun ps => ps.any (·.2)
        let r := (sums.zipIdx c).foldl (fun (r : AccRow) e => r.setMant e.2 (r.mant e.2 + (e.1.map (·.1)).sum)) r
        (s.setRow a (homeLane l.thr) { r with rtrc := r.rtrc || lost }).flagLanes [(l.thr, if lost then Fp.trc else 0)]) := by
    intro u hu
    split
    · exact hu
    · exact leaves.flag1 (leaves.setRow (ite_leaves (leaves.renormRow hu hl _ _ _) hu) _ _ _) hl _
  exact key _ (ite_leaves (leaves.flag1 (leaves.setRow h _ _ _) hl _) h)

theorem leaves.addLanes (h : s.leaves (s.touch x n true true) t) (hs : s.cb.state ≠ .saved) (q : MmaReq) (fs : List (Nat × LF)) {ls : List LaneProds} (hl : ∀ l ∈ ls, l.thr ∈ s.exe x.g) :
    s.leaves (s.touch x n true true) (t.addLanes x q fs ls) := by
  simp only [State.addLanes]
  refine leaves.finishFaults (leaves.advanceBut (leaves.foldl ?_ _ _ fun u e he hu => ?_) _ _) hs _ _
  · exact ite_leaves h (leaves.tile h _ _)
  · exact leaves.addLane hu (hl _ (List.mem_of_mem_filter he)) _ _ _ _

theorem padLoad_match (h : s.leaves w t) {b c d : Nat} {as : List (Nat × Nat)} {f : State → State} (hf : ∀ u : State, s.leaves w u → s.leaves w (f u)) :
    s.leaves w (match t.padLoad b c as with
      | (s1, .error trig) => s1.consume d trig 0
      | (s1, .ok _) => f s1) := by
  have h1 := h.padLoad b c as
  revert h1
  generalize t.padLoad b c as = p
  intro h1
  rcases p with ⟨s1, got⟩
  cases got with
  | error => exact leaves.consume h1 _ _ _
  | ok => exact hf _ h1

theorem leaves.mmaGo (h : s.leaves (s.touch x n true true) t) (hs : s.cb.state ≠ .saved) (he : t.exe x.g = s.exe x.g) (q : MmaReq) (a b : ObRec) (m : Option ObRec) :
    s.leaves (s.touch x n true true) (t.mmaGo x q a b m) := by
  simp only [State.mmaGo]
  refine ite_leaves h.stall ?_
  refine padLoad_match h ?_
  intro s1 h1
  refine ite_leaves (leaves.consume h1 _ _ _) ((leaves.addLanes h1 hs _ _ ?_).raiseAll _ _)
  intro l hl
  simp only [List.mem_map, List.mem_filter] at hl
  obtain ⟨t', ⟨r, ⟨⟨u, hu, rfl⟩, -⟩, rfl⟩, rfl⟩ := hl
  rw [← he]
  exact hu

theorem frame_mma {i : Instr} (hx : i.opnds? = some x) (hr : s.ready i = true) (hs : s.cb.state ≠ .saved)
    (h : s.mmaOp i a b c d = .next t) : s.leaves (s.touch x n true true) t := by
  refine frame hx hr ?_ h
  have h0 : s.leaves (s.touch x n true true) s.begun := s.leaves_begun
  simp only []
  split
  · exact h0.advance _
  · refine ite_leaves h0.stall (ite_leaves (h0.uniformFault hs _ _) (ite_leaves (h0.uniformFault hs _ _) (ite_leaves (h0.uniformFault hs _ _)
      (ite_leaves (h0.uniformFault hs _ _) ?_))))
    exact leaves.mmaGo h0 hs (by simp) _ _ _ _

theorem frame_rows {i : Instr} (hx : i.opnds? = some x) (hr : s.ready i = true) {f : Opnds → State → Nat → State}
    (hf : ∀ (u : State), ∀ l ∈ s.exe x.g, s.leaves w u → s.leaves w (f x u l)) (h : s.eachRow i f = .next t) : s.leaves w t := by
  refine frame hx hr ?_ h
  exact leaves.advance (leaves.foldl s.leaves_begun _ _ fun u e he hu => hf u e (by simpa using he) hu) _

theorem map_mem2 {α : Type} {l : List Nat} {m : List (Nat × α)} (h : ∀ e ∈ m, e.1 ∈ l) {β : Type} (f : Nat × α → β) : ∀ e ∈ m.map (fun o => (o.1, f o)), e.1 ∈ l := by
  intro e he; obtain ⟨a, h1, rfl⟩ := List.mem_map.1 he; exact h a h1

theorem leaves.jump (h : s.leaves w t) (hs : s.cb.state ≠ .saved) (len : Nat) (ts : List (Nat × DWord)) : s.leaves w (t.jump len ts) := by
  simp only [State.jump]
  refine leaves.finishFaults (leaves.modCb (h.advanceBut _ _) _ fun n b => Block.leaves_foldl _ (fun b e => ?_) _ b) hs _ _
  exact b.leaves_modThr _ _ (by exact fun _ => ⟨rfl, rfl, rfl⟩)

theorem leaves.branch (h : s.leaves w t) (hs : s.cb.state ≠ .saved) (len : Nat) (ts : List (Nat × DWord)) : s.leaves w (t.branch len ts) :=
  leaves.jump (ite_leaves h.endTurn h) hs _ _

end Sys2Proof.Machine.State
end

