-- ==== Sys2Proof/Laws/Memory.lean ====
section
/-! SUPPORT. Memory.lean: reading after writing, and that every way in which the machine writes memory keeps its canonical form. -/

namespace Sys2Proof.Machine

@[simp] theorem Memory.byte_setByte_same (m : Memory) (a : Nat) (b : Byte) : (m.setByte a b).byte a = b :=
  Sparse.getOr_putOr_same m a b 0

theorem Memory.byte_setByte_ne (m : Memory) {a c : Nat} (h : c ≠ a) (b : Byte) : (m.setByte a b).byte c = m.byte c :=
  Sparse.getOr_putOr_ne m h b 0

/-- Bytes outside the stored ones read as before. -/
theorem Memory.byte_setBytes_outside (bs : List Byte) (m : Memory) (a c : Nat) (h : c < a ∨ a + bs.length ≤ c) :
    (m.setBytes a bs).byte c = m.byte c := by
  induction bs generalizing m a with
  | nil => rfl
  | cons b bs ih =>
    simp only [List.length_cons] at h
    simp only [Memory.setBytes]
    rw [ih _ _ (by omega), Memory.byte_setByte_ne _ (by omega)]

/-- A stored byte is read back. -/
theorem Memory.byte_setBytes_inside (bs : List Byte) (m : Memory) (a k : Nat) (h : k < bs.length) :
    (m.setBytes a bs).byte (a + k) = bs.getD k 0 := by
  induction bs generalizing m a k with
  | nil => simp at h
  | cons b bs ih =>
    simp only [Memory.setBytes]
    cases k with
    | zero => rw [Memory.byte_setBytes_outside _ _ _ _ (by omega)]; simp
    | succ k =>
      have := ih (m.setByte a b) (a + 1) k (by simpa using h)
      rw [show a + (k + 1) = a + 1 + k by omega, this]
      simp

/-! ### The canonical form -/

theorem Memory.wf_nil : Memory.wf [] = true := rfl

theorem Memory.wf_setByte {m : Memory} (h : m.wf = true) (a : Nat) (b : Byte) : (m.setByte a b).wf = true :=
  Sparse.canon_putOr h a b

theorem Memory.wf_setBytes (bs : List Byte) {m : Memory} (h : m.wf = true) (a : Nat) : (m.setBytes a bs).wf = true := by
  induction bs generalizing m a with
  | nil => exact h
  | cons b bs ih => exact ih (Memory.wf_setByte h a b) (a + 1)

theorem Memory.wf_filter {m : Memory} (h : m.wf = true) (p : Nat × Byte → Bool) : Memory.wf (m.filter p) = true :=
  Sparse.canon_filter h p

theorem Memory.wf_foldl {α : Type} (l : List α) (f : Memory → α → Memory) (hf : ∀ m x, Memory.wf m = true → Memory.wf (f m x) = true) {m : Memory}
    (h : m.wf = true) : Memory.wf (l.foldl f m) = true := by
  induction l generalizing m with
  | nil => exact h
  | cons x l ih => exact ih (hf m x h)

/-- Memory right after reset. -/
theorem State.reset_mem_wf : State.reset.mem.wf = true := rfl

end Sys2Proof.Machine
end

