-- ==== Sys2Proof/Tests/Slice0.lean ====
section
/-! SUPPORT. Slice0.lean: tests of the package: each operand check refuses an ill-formed term; words written out from the spec decode; steps on
small states; and for each statement a state and operands that meet its hypotheses. -/

set_option maxRecDepth 100000
set_option Elab.async false

namespace Sys2Proof.Tests

open Sys2Proof Sys2Proof.Machine

/-! ### Small states -/

/-- The guard that selects every lane. -/
def g7 : Guard := { neg := false, p := 7 }

/-- Operand fields that name nothing. -/
def x0 : Opnds := { g := g7, ext := .e64, d := .discard, a := .null, b := .null, c := .null }

/-- The code page at 0x400000 and the data page at 0x401000, whose leaf entry is `pte`, as the tables and the translation caches hold them
(R258 to R262). -/
def paged (pte : Nat) (s : State) : State :=
  let t := 2 ^ 41
  let code := 0x303B + 0x400 * 2 ^ 20
  let ptr (k : Nat) : Nat := 1 + (t / 4096 + k) * 2 ^ 20
  let leaves : List TlbLeaf := [(0x400000, code, t + 16384), (0x401000, pte, t + 16392)].map fun (e : Nat × Nat × Nat) =>
    { dom := 0, asn := 0, va := e.1, size := 4096, pte := .ofNat 64 e.2.1, level := 4, leaf := e.2.2 }
  let s := (((s.poke (t + 8192) (ptr 3)).poke (t + 12288 + 16) (ptr 4)).poke (t + 16384) code).poke (t + 16392) pte
  (s.modCore 0 fun k => { k with tlb := leaves }).modDie 0 fun d => { d with tlb := leaves }

/-- One block of two threads on core 0, about to issue at its entry; its data page at 0x401000 lies at physical address 0x10000. -/
def base : State :=
  let s := paged (0x301B + 4 * 512 + 0x10 * 2 ^ 20) (State.reset.withFetchWord 64 0)
  let s := s.modHub fun h => { h with owner := Sparse.put h.owner 1 0 }
  let s := s.modBlk 0 fun b => { b with
    threads := List.replicate 2 (Thread.start 0x400000), hdr := { b.hdr with scratch := 2, handler := 0x400800 }, rows := [5, 3] }
  { s with sel := { blk := 0, ctx := .home 0, pc := 0x400000, act := [0, 1] }, agenda := [], grids := [] }

/-- Scalar registers set. -/
def sregs (l : List (Nat × Nat)) (s : State) : State :=
  s.modBlk 0 fun b => { b with bundles := b.bundles.map fun u => { u with
    s := l.foldl (fun m e => Sparse.putOr m e.1 (.ofNat 32 e.2) 0) u.s } }

/-- Every thread at a level. -/
def level (n : Nat) (s : State) : State :=
  s.modBlk 0 fun b => { b with threads := b.threads.map fun t => { t with level := n } }

/-- An answer is no error. -/
def okay {ε α : Type} : Except ε α → Bool
  | .ok _ => true
  | .error _ => false

/-- Vector registers of every thread set. -/
def vregs (l : List (Nat × Nat)) (s : State) : State :=
  s.modBlk 0 fun b => { b with threads := b.threads.map fun t => { t with
    v := l.foldl (fun m e => Sparse.putOr m e.1 (.ofNat 32 e.2) 0) t.v } }

/-- Format register 0 holds E4M3 with bias 7 (R58). -/
def withFmt (s : State) : State := s.modBlk 0 fun b => { b with bundles := b.bundles.map fun u => { u with f := [(0, 995)] } }

/-! ### Witnesses: states and operands that meet the hypotheses of the statements -/

theorem wit_IntegerResults :
    let i : Instr := .iadd { x0 with d := .v 254, a := .v 1, b := .inline 63 } .n32 true
    (intResult base i).isSome = true ∧ base.ready i = true ∧ base.ctxOk = true := by decide +kernel

theorem wit_FloatResults :
    let i : Instr := .fadd { x0 with d := .v 3, a := .v 1, b := .s 2 } .f32 { rnd := .rn, sat := false, absa := true, nega := true, negb := false, negc := false }
    (fpResult base i).isSome = true ∧ base.ready i = true ∧ base.ctxOk = true := by decide +kernel

theorem wit_ConversionResults :
    let i : Instr := .cvt { x0 with d := .v 3, a := .v 1 } .s32 .f32 .rz true
    let j : Instr := .cvtNfEnc { x0 with d := .v 3, a := .v 1, c := .v 2 } 0 .f32 false 0
    (convResult base i).isSome = true ∧ base.ready i = true ∧ base.ctxOk = true
    ∧ (convResult (withFmt base) j).isSome = true ∧ (withFmt base).ready j = true ∧ (withFmt base).ctxOk = true := by decide +kernel

theorem wit_UniformResults :
    let i : Instr := .sadd { x0 with d := .s 4, a := .s 2, b := .inline 1 } .n32 false
    (onceResult base i).isSome = true ∧ base.ready i = true ∧ base.ctxOk = true := by decide +kernel

theorem wit_SharedAndFormatResults :
    let x : Opnds := { x0 with d := .v 3, a := .v 1, b := .inline 4 }
    base.ctxOk = true ∧ base.ready (.nop x0) = true ∧ (withFmt base).ctxOk = true ∧ base.ready (.lred { x with b := .null } .fadd .b32) = true
    ∧ (withFmt base).ready (.cvtNfb x .b32 0 .f32) = true ∧ (Instr.cvtNfb x .b32 0 .f32).wf = true ∧ base.ready (.iaddc x .n32 1) = true
    ∧ base.ready (.fmtSet { x0 with a := .inline 5 } 1) = true ∧ base.first g7 = some 0
    ∧ base.ready (.flagsClr { x0 with a := .inline 5 }) = true := by decide +kernel

theorem wit_ControlTransfers :
    let x : Opnds := { x0 with ext := .e96 0x20 }
    let far := vregs [(3, 0x80000000)] base
    (branchTarget base (.bra x)).isSome = true ∧ base.ready (.bra x) = true ∧ (Instr.bra x).wf = true
    ∧ canonical (relTarget base.sel.pc x.ext) = true
    ∧ (branchTarget far (.brx { x0 with a := .v 2 })).isSome = true ∧ far.ready (.brx { x0 with a := .v 2 }) = true
    ∧ (0 : Nat) ∈ far.exe g7 ∧ canonical (.ofNat 64 (far.src .e64 .b64 0 (.v 2))) = false := by decide +kernel

theorem wit_LaneFaultTaken :
    let s := base.modBlk 0 fun b => { b with tvec := 0x400400 }
    (s.blk 0).state = .running ∧ (s.blk 0).hdr.lanefault = 0 ∧ (s.blk 0).tvec ≠ 0 ∧ [(0 : Nat), 1].Nodup
    ∧ (∀ e ∈ [(0 : Nat), 1], e < (s.blk 0).threads.length ∧ ((s.blk 0).thr e).level ≠ 2 ∧ ((s.blk 0).thr e).status.terminal = false)
    ∧ (s.die ((s.blk 0).core / 48)).fb.length + 2 ≤ 1024 := by decide +kernel

theorem wit_LaneFaultEnds :
    let s := base.modBlk 0 fun b => { b with hdr := { b.hdr with lanefault := 1 } }
    (s.blk 0).state = .running ∧ (s.blk 0).hdr.lanefault = 1 ∧ (1 : Nat) < (s.blk 0).threads.length ∧ ((s.blk 0).thr 1).level ≠ 2
    ∧ ((s.blk 0).thr 1).status.terminal = false ∧ (((level 2 base).blk 0).thr 1).status.terminal = false ∧ ((base.blk 0).thr 1).status.terminal = false
    ∧ ((level 2 base).blk 0).state = .running ∧ (((level 2 base).blk 0).thr 1).level = 2
    ∧ (base.blk 0).hdr.lanefault = 0 ∧ (base.blk 0).tvec = 0 := by decide +kernel

/-- The kill policy (R114): a lane's fault kills its block with LANE_KILL. -/
theorem wit_LaneFaultKills :
    let s := base.modBlk 0 fun b => { b with hdr := { b.hdr with lanefault := 2 }, tvec := 0x400400 }
    let t := s.laneFaults 0 0x400000 8 [(1, { cause := 0x10, addr := 0x401001 })]
    (s.blk 0).state = .running ∧ (1 : Nat) < (s.blk 0).threads.length ∧ ((s.blk 0).thr 1).status.terminal = false ∧ ((s.blk 0).thr 1).level ≠ 2
    ∧ (s.blk 0).hdr.lanefault = 2 ∧ (s.die ((s.blk 0).core / 48)).fb.length + 2 ≤ 1024
    ∧ (t.die 0).fb.map (fun e => match e.body with
      | .fatal r => r.cause
      | _ => 0) = [0, 0x42] := by decide +kernel

theorem wit_HandlerResults :
    let s := level 2 base
    s.ready (.tret x0) = true ∧ s.ready (.tretNext x0) = true ∧ s.ready (.tretStrike x0) = true
    ∧ (level 1 base).ready (.presig x0) = true := by decide +kernel

theorem wit_ThreadResults :
    let m : Opnds := { x0 with d := .j 1 }
    base.ready (.trap x0 7) = true ∧ base.ready (.brk x0) = true ∧ base.ready (.exit x0) = true ∧ base.ready (.jenr m) = true
    ∧ base.ready (.jenrSet m) = true ∧ base.ready (.jstrike m) = true ∧ base.ready (.jstrikeAll x0) = true
    ∧ base.ready (.nap { x0 with a := .inline 9 }) = true ∧ base.src .e64 .b32 0 (.inline 9) ≤ 2 ^ 20
    ∧ base.ready (.yield x0) = true ∧ base.exe g7 ≠ [] ∧ base.sel.ctx = .home 0 ∧ 0 < base.cb.bundles.length
    ∧ base.ready (.jpark m) = true ∧ base.ready (.reform x0) = true
    ∧ base.ready (.brd { x0 with ext := .e96 0x20 }) = true ∧ canonical (relTarget base.sel.pc (.e96 0x20)) = true := by
  decide +kernel

theorem wit_LoadsAndStoresComplete :
    let s := (sregs [(2, 0x401000)] base).poke 0x10000 77
    let x : Opnds := { x0 with d := .v 4, a := .s 2 }
    let r := s.accesses (.load .b32) true (widthLF .b32 false)
      ((s.exe g7).map (s.begun.req x false 4 (widthLF .b32 false) (fun _ => 0) fun _ => 0))
    let one := s.accesses (.load .b32) true (widthLF .b32 false)
      (((s.exe g7).take 1).map (s.begun.req x false 4 (widthLF .b32 false) (fun _ => 0) fun _ => 0))
    s.ready (.ld x .b32 false .none) = true ∧ r.stopped = none ∧ r.faults = [] ∧ r.restarts = [] ∧ r.vals.length = 2
    ∧ s.ready (.sld { x with d := .s 4 } .b32) = true ∧ one.stopped = none ∧ one.faults = [] ∧ one.restarts = []
    ∧ one.vals.length = 1 := by decide +kernel

theorem wit_AccessChecks :
    canonical 0x0100000000000000 = false ∧ canonical 0xFF00000000000002 = true ∧ (0xFF00000000000002 : DWord).toNat % 4 ≠ 0
    ∧ canonical 0x00FFFFFFFFFFFFFC = true ∧ (0x00FFFFFFFFFFFFFC : DWord).toNat % 4 = 0
    ∧ base.cb.scratchSize = 2048 ∧ base.cb.scratchSize < 2045 + 4 ∧ 2042 + 4 ≤ base.cb.scratchSize ∧ 2042 % 4 ≠ 0
    ∧ 2044 + 4 ≤ base.cb.scratchSize ∧ 2044 % 4 = 0 ∧ base.cb.clobbers 2044 4 = false
    ∧ (Block.clobbers { base.cb with slots := [(0, { addr := 16, members := [], arrived := [], updated := false, phases := 0, base := false })] } 16 4)
      = true := by decide +kernel

/-- A page of the small states (R259): two mebibytes long no longer than 4 KiB, of a scope. -/
def pageAt (share : Nat) : Page := { va := 0x401000, size := 4096, pa := 0x10000, pte := 0x1B + 512 * share, leaf := 0, shadow := false }

theorem wit_StoresReachMemory :
    (pageAt 3).peer = false ∧ (pageAt 3).coh = false ∧ (pageAt 3).share ≤ 3 ∧ base.l2Room 0 0x10000 = true ∧ base.hub.clocks.length = 6 := by
  decide +kernel

theorem wit_SynchronisationResults :
    let s := sregs [(2, 0x401000)] base
    let x : Opnds := { x0 with d := .v 4, a := .s 2, c := .inline 1 }
    let g (returns : Bool) := s.accesses (.atomic .n32 .add .none returns returns) false { cause := 0 }
      ((s.exe g7).map (s.begun.req x false 4 { cause := 0 } (fun l => s.src x.ext (.int 32 true) l x.c) fun _ => 0))
    let c : Opnds := { x0 with a := .s 2, b := .inline 32 }
    let r := s.accesses (.range 0 (s.src .e64 .b32 0 c.b)) false { cause := 0 }
      [{ thr := 0, ea := .ofNat 64 (s.src .e64 .b64 0 c.a) + disp .e64, data := 0, data2 := 0, bad := none }]
    let w : Opnds := { x0 with d := .p 1, a := .s 2, b := .inline 0 }
    let got := s.begun.translate s.cb.who 0x401000 4 .read false
    let val := got.1.loadAt s.cb.who (pageAt 4) 0x10000 4
    s.ready (.atom x .n32 .add .none) = true ∧ s.ready (.red { x with d := .discard } .n32 .add .none) = true
    ∧ (g true).stopped = none ∧ (g true).faults = [] ∧ (g true).restarts = []
    ∧ (g false).stopped = none ∧ (g false).faults = [] ∧ (g false).restarts = []
    ∧ s.ready (.cleanR c) = true ∧ s.ready (.invR c) = true ∧ s.ready (.flushR c) = true ∧ s.exe g7 = [0, 1]
    ∧ s.src .e64 .b32 0 c.b ≠ 0 ∧ r.stopped = none ∧ r.faults = [] ∧ r.restarts = [] ∧ r.vals.length = 1
    ∧ s.ready (.fence x0 5) = true ∧ s.ready (.pbar x0 false) = true ∧ s.hub.persists = []
    ∧ s.ready (.waitcmp w .n32 .eq) = true ∧ (s.cb.thr 0).wait = .none ∧ addrCheck 0x401000 4 { cause := 0 } = none
    ∧ got.2.toOption.isSome = true ∧ val.2.toOption = some [0, 0, 0, 0] ∧ waitHolds .n32 .eq (ofBytes [0, 0, 0, 0]) (s.src .e64 .b32 0 w.b) = true
    ∧ s.ready (.pref { x0 with a := .s 2 } false true) = true := by decide +kernel

theorem wit_ScratchAccesses :
    let x : Opnds := { x0 with d := .v 4, a := .s 2, b := .v 1, c := .v 5 }
    let y : Opnds := { x0 with d := .v 4, a := .s 2, b := .inline 3 }
    let s := sregs [(2, 2044)] base
    let rs := (s.exe g7).map fun l => (l, (s.src y.ext .b32 l y.a + (disp y.ext).toNat) % 2 ^ 32)
    s.padWhole = true ∧ s.ready (.lds x .b32 false) = true ∧ (s.padAt x false).map (·.2) = [2044, 2044]
    ∧ (∀ e ∈ s.padAt x false, (s.blk 0).padCheck e.2 4 true { cause := 0 } = none ∧ s.sbBusy 0 e.2 4 = false)
    ∧ (∀ e ∈ s.padAt x false, ∀ w ∈ wordsOf e.2 4,
        ((s.core 0).scratch.read ((s.blk 0).word w)).isSome = true ∧ (s.core 0).scratch.poisoned ((s.blk 0).word w) = false)
    ∧ s.ready (.sts x .b32 false) = true ∧ s.ready (.atoms y .n32 .add) = true
    ∧ (∀ e ∈ rs, (s.blk 0).padCheck e.2 4 true { cause := 0 } = none ∧ s.sbBusy 0 e.2 4 = false) := by decide +kernel

/-- Lane 1's request is put off: lane 0 is served now; then lane 0 has been served, and lane 1 is the last (R186). -/
theorem wit_ScratchPasses :
    let x : Opnds := { x0 with d := .v 4, a := .s 2, b := .v 1, c := .v 5 }
    let s := (sregs [(2, 64)] base).modBlk 0 fun b => b.modThr 1 fun t => { t with v := [(1, 4)] }
    let p := { s with sel := { s.sel with later := [1] } }
    let q := s.modBlk 0 fun b => b.modThr 0 fun t => { t with wait := .access (some (.done 5 0 0)) }
    p.padWhole = false ∧ p.ready (.lds x .b32 false) = true ∧ p.ready (.sts x .b32 false) = true
    ∧ (∀ e ∈ p.padAt x false, (p.blk 0).padCheck e.2 4 true { cause := 0 } = none ∧ p.sbBusy 0 e.2 4 = false)
    ∧ p.padTurn 4 (p.padAt x false) = ([(0, 64)], false)
    ∧ (∀ w ∈ wordsOf 64 8, ((s.core 0).scratch.read ((s.blk 0).word w)).isSome = true ∧ (s.core 0).scratch.poisoned ((s.blk 0).word w) = false)
    ∧ q.padWhole = false ∧ q.padTurn 4 (q.padAt x false) = ([(1, 68)], true) ∧ q.ready (.lds x .b32 false) = true := by decide +kernel

theorem wit_StoreKeepsParity :
    let sp := Scratchpad.reset
    let gr := groupRow 5
    sp.degraded (gr % 16) = false ∧ Sparse.look sp.parityUe gr = none ∧ ((sp.pq (gr % 16)).filter fun e => e.1 == gr / 16).length ≤ 1
    ∧ (groupWords gr).foldl (fun x w => x ^^^ sp.raw w) 0
      = sp.par gr ^^^ ((sp.pq (gr % 16)).filter fun e => e.1 == gr / 16).foldl (fun x e => x ^^^ e.2) 0 := by decide +kernel

/-- The record of a barrier of two lanes, bound to a slot (R168). -/
def barOf2 (slot : Nat) : BarRec :=
  { expected := 2, pending := 2, bytes := 0, phase := false, bound := true, tmo := false, slot := slot, rsvd := false }

/-- Slots 0 to 5 are bound; slots 2 and 3 form a ring whose first stage is full. -/
def bars : State :=
  let s := (List.range 6).foldl (fun s n => s.setBar 0 (16 * n) { barOf2 n with phase := n = 2 }) base
  s.modBlk 0 fun b => { b with
    slots := (List.range 6).map fun n => (n, { addr := 16 * n, members := [], arrived := [], updated := false
                                               phases := if n = 2 then 1 else 0, base := false })
    rings := [{ first := 2, depth := 1 }] }

/-- A member of the block's cohort on core 1. -/
def cohort : State := { base with blocks := base.blocks ++ [(1, { base.blk 0 with core := 1, slots := (bars.blk 0).slots, rows := [7, 9] })] }

theorem wit_RemoteResults :
    let s := (cohort.setBar 1 0 (barOf2 0)).modBlk 1 fun b => { b with hdr := { b.hdr with scratch := 2 } }
    let x : Opnds := { x0 with d := .v 4, a := .s 2, b := .v 1, c := .v 5 }
    let a : Instr := .stsRemArr { x0 with ext := .e128 0 0x30 } false 1 false
    let st : Instr := .stsRem { x with d := .discard, a := .null, b := .v 9 } .b32 false 1 false
    let far := vregs [(9, 512)] s
    let r : Rem := { x := x0, w := .n8, zx := false, store := false, slot := some 0, only := true }
    (remInstr s (.ldsRem x .b32 false 1 false)).isSome = true ∧ s.ready (.ldsRem x .b32 false 1 false) = true ∧ s.memberAt 0 (s.peerCore 1 false) = some 1
    ∧ (s.blk 1).state.issues = true ∧ portBehind (s.core 1).port s.sel = false
    ∧ (s.blk 1).padCheck 0 4 false { cause := 0 } = none ∧ s.sbBusy 1 0 4 = false ∧ (far.blk 1).padCheck 512 4 true { cause := 0 } = none
    ∧ far.sbBusy 1 512 4 = false ∧ (remInstr far st).isSome = true ∧ far.ready st = true
    ∧ ((remInstr far st).any fun e => !far.fillAhead e.1 e.2 (far.remLanes e.1)) = true
    ∧ (∀ w ∈ wordsOf 0 4, ((s.core 1).scratch.read ((s.blk 1).word w)).isSome = true ∧ (s.core 1).scratch.poisoned ((s.blk 1).word w) = false)
    ∧ (remInstr s a).isSome = true ∧ s.ready a = true ∧ (Sparse.look (s.blk 1).slots 0).isSome = true
    ∧ (s.begun.remStored r 1 []).arriveOk 1 0 0 = true
    ∧ base.ready (.ldsRem x .b32 false 1 false) = true ∧ base.memberAt 0 (base.peerCore 1 false) = none := by decide +kernel

theorem wit_BarrierResults :
    let s := bars
    let free := base.modBlk 0 fun b => { b with slots := [] }
    let ph : Opnds := { x0 with a := .inline 1 }
    let tm : Opnds := { ph with d := .p 1, b := .inline 9 }
    base.ready (.bbind { x0 with a := .inline 0 } 0 true) = true ∧ base.exe g7 = [0, 1] ∧ (base.barAt 0 0).bound = false ∧ (base.barAt 0 0).rsvd = false
    ∧ (base.barAt 0 0).pending ≤ (base.barAt 0 0).expected ∧ (base.blk 0).padCheck 0 16 false { cause := 0 } = none ∧ base.sbBusy 0 0 16 = false
    ∧ (∀ w ∈ wordsOf 0 16, ((base.core 0).scratch.read ((base.blk 0).word w)).isSome = true
        ∧ (base.core 0).scratch.poisoned ((base.blk 0).word w) = false)
    ∧ free.cb.slots = []
    ∧ s.ready (.bunbind x0 1) = true ∧ (s.barOf 0 1).isSome = true ∧ s.copyNames 0 1 = false
    ∧ s.ready (.bexp { x0 with a := .inline 1 } 1 true false) = true ∧ BarRec.inRange 3 3 0 = true ∧ s.barBytes { x0 with a := .inline 1 } = 1
    ∧ (∀ n < 6, ∀ w ∈ wordsOf (16 * n) 16, ((s.core 0).scratch.read ((s.blk 0).word w)).isSome = true
        ∧ (s.core 0).scratch.poisoned ((s.blk 0).word w) = false)
    ∧ s.ready (.barr x0 0) = true ∧ s.ready (.barrb x0 0) = true ∧ (s.barOf 0 0).isSome = true ∧ BarRec.inRange 2 0 0 = true
    ∧ (s.cb.thr 0).wait ≠ .barrb 0 true ∧ (s.cb.thr 0).wait = .none
    ∧ s.ready (.bwait ph 0) = true ∧ s.waitPhase ph 0 = true ∧ s.ready (.btest { x0 with d := .p 1 } 0) = true
    ∧ s.ready (.bwaitt tm 0) = true ∧ s.waitPhase tm 1 = true ∧ s.ready (.bblk x0) = true
    ∧ s.ready (.ringBind x0 4 0) = true ∧ (∀ k < 2, (Sparse.look s.cb.slots (4 + k)).isSome = true)
    ∧ (∀ g ∈ s.cb.rings, ¬(g.first ≤ 5 ∧ 4 < g.first + 2 * g.depth))
    ∧ (s.cb.rings.find? fun g => g.first == 2).isSome = true ∧ Sparse.getOr (s.cb.bundle 0).rings 2 (0, 0) = (0, 0)
    ∧ s.ready (.ringAcq { x0 with d := .s 4 } 2) = true ∧ s.ready (.ringGet { x0 with d := .v 4 } 2) = true ∧ s.ringPhase 2 1 = true
    ∧ s.ready (.ringPut x0 2) = true ∧ s.arriveOk 0 2 0 = true ∧ s.ready (.ringRel x0 2) = true ∧ s.arriveOk 0 3 0 = true := by
  decide +kernel

theorem wit_PhaseCompletes :
    let s := bars.setBar 0 16 { barOf2 1 with pending := 1 }
    (s.barOf 0 1).isSome = true ∧ (s.barAt 0 16).pending = 1 ∧ (s.barAt 0 16).bytes + 0 = 0
    ∧ ∀ w ∈ wordsOf 16 16, ((s.core 0).scratch.read ((s.blk 0).word w)).isSome = true ∧ (s.core 0).scratch.poisoned ((s.blk 0).word w) = false := by
  decide +kernel

theorem wit_CopyResults :
    let s := sregs [(2, 0x401000), (8, 16), (9, 1)] base
    let c : Opnds := { x0 with a := .s 2, b := .inline 0, c := .s 8 }
    let sl := s.sliceOf c .plain false none
    let v := vregs [(2, 0x401000), (4, 0x401100)] s
    let f : Opnds := { x0 with a := .v 2, b := .v 4, c := .s 8 }
    let gl : Opnds := { x0 with a := .s 2, b := .inline 1, c := .s 2 }
    (copyForm (.cpy c 0 true false)).isSome = true ∧ s.ready (.cpy c 0 true false) = true ∧ sl.k - s.cb.accepted < 4
    ∧ s.sliceCheck 0 sl = none ∧ s.cb.slices = [] ∧ s.ready (.scbdWait x0) = true ∧ s.sbOf 0 = [] ∧ s.exe g7 ≠ []
    ∧ (bulkIssue s (.cpyGl gl)).isSome = true ∧ s.ready (.cpyGl gl) = true
    ∧ (bulkIssue s (.cpySealEnc gl)).isSome = true ∧ s.ready (.cpySealEnc { x0 with a := .s 2 }) = true ∧ s.ready (.cpySealDec { x0 with a := .s 2 }) = true
    ∧ canonical 0x401000 = true ∧ (0x401000 : DWord).toNat % 64 = 0 ∧ (s.die s.cd).bulk.length < 64
    ∧ v.ready (.cpyFan f 0 true) = true ∧ (s.sreg 8).toNat ≤ 65536 ∧ 1 ≤ (s.sreg 9).toNat ∧ (s.sreg 9).toNat ≤ 64 ∧ s.sreg 11 = 0
    ∧ (∀ t ∈ v.exe g7, fanCanonical (.ofNat 64 (v.src f.ext .b64 t f.a)) (.ofNat 64 (v.src f.ext .b64 t f.b)) 16 1 0 = true) := by
  decide +kernel

/-- Operands of `shdw.open` on the data page. -/
def openX : Opnds := { x0 with ext := .e96 4096, d := .s 6, a := .s 2, b := .imm 0 }

/-- Two frames stand in the die's shadow pool. -/
def pooled : State := (sregs [(2, 0x401000)] base).modDie 0 fun d => { d with pool := [0x100, 0x101] }

/-- The data page's shadow is open and copied. -/
def shadowed : State := (sregs [(2, 0x401000), (5, 65536)] base).modDie 0 fun d => { d with
  shadows := [(0, { gen := 1, opened := true, dom := 0, asn := 0, base := 0x401000, len := 4096
                    pages := [(0x401000, 4096, 0x100000, 2 ^ 41 + 16384 + 8, 1)], pte := 0x1001B, copying := none })] }

/-- The copy of the buffer's first sector is read here; that of the other 63 is the same read at other addresses. -/
theorem wit_ShadowResults :
    let s := pooled
    let pages := s.begun.bufferPages s.cb.who 0x401000 0x402000 1 0x401000
    let got : List ShadowPg := [(0x401000, 4096, 0x10000, 2 ^ 41 + 16384 + 8, 1)]
    let w := s.modCb fun b => { b with threads := b.threads.map fun t => { t with wait := .shadow (some 0x10000) } }
    let p : Opnds := { x0 with a := .s 5 }
    s.ready (.shdwOpen openX) = true ∧ s.exe g7 = [0, 1] ∧ w.ready (.shdwOpen openX) = true ∧ (w.cb.thr 0).wait = .shadow (some 0x10000)
    ∧ s.src openX.ext .b64 0 openX.a = 0x401000 ∧ s.src openX.ext .b32 0 openX.b = 4096
    ∧ canonical 0x401000 = true ∧ canonical 0x401FFF = true
    ∧ (match pages.2 with | .ok (some e) => e.1 | _ => []) = got
    ∧ pages.1.openShadow 0 0 0x401000 4096 = none ∧ (pages.1.freeShadow 0).isSome = true
    ∧ (takeFrames (s.die 0).pool got).isSome = true ∧ (takeFrames [] got).isNone = true
    ∧ okay (pages.1.translate s.cb.who 0x401000 1 .read false).2 = true
    ∧ okay (pages.1.engRead s.cb.who (sectorParts 0x401000 64)).2 = true
    ∧ ((shadowed.openShadow 0 0 0x401000 4096).map fun e => e.2.2.copying.isNone) = some true
    ∧ shadowed.ready (.publ p) = true ∧ shadowed.ready (.publDrop p) = true
    ∧ (shadowed.namedShadow (shadowed.src .e64 .b32 0 p.a)).isSome = true ∧ shadowed.hub.inflight = []
    ∧ (∀ e ∈ shadowed.namedShadow (shadowed.src .e64 .b32 0 p.a),
        shadowed.aliasBusy e.2.2 (shadowed.cb.shdwwin.toNat + (256 * e.1 + e.2.1) * 2 ^ 26) = false
        ∧ ∀ f ∈ framesOf e.2.2.pages, shadowed.refuses (4096 * f) = false)
    ∧ s.ready (.publ p) = true ∧ s.namedShadow (s.src .e64 .b32 0 p.a) = none := by decide +kernel

theorem wit_BankCommandResults :
    let s := paged (0x301B + 256 + 4 * 512 + 0x10 * 2 ^ 20) (sregs [(8, 0x401000), (10, 0x401000), (12, 0x401040), (14, 0x401080)] base)
    let x : Opnds := { x0 with a := .s 8, b := .inline 4, c := .null }
    let rs := bankRanges .add .s32 4 0x401000 0x401000 0x401040 0x401080
    (bankForm (.bkAdd x .s32 .rn)).isSome = true ∧ s.ready (.bkAdd x .s32 .rn) = true ∧ s.ready (.bkAdd { x with b := .inline 0 } .s32 .rn) = true
    ∧ s.src .e64 .b32 0 (.inline 4) = 4 ∧ (s.spair 8).toNat = 0x401000 ∧ s.exe g7 = [0, 1]
    ∧ (∀ r ∈ rs, canonical (.ofNat 64 r.1) = true ∧ (r.2.1 ≠ 0 → canonical (.ofNat 64 (r.1 + r.2.1 - 1)) = true)
        ∧ r.1 % bankAlign .add .s32 r.2.2 = 0)
    ∧ okay (s.begun.bankAllPages s.cb.who rs).2 = true
    ∧ s.ready (.bkWait { x0 with d := .s 4 }) = true ∧ (s.die s.cd).bank = [] := by decide +kernel

/-- A record of dense columns, 32 bytes apart (R213). -/
def dense (base : Nat) : ObRec := { state := .ready, desc := .ofNat 128 (base + 32 * 2 ^ 32), fmt := 0 }

/-- Records 0 and 1 are ready. -/
def mats : State := base.modPart 0 fun p => { p with records := [(0, dense 0), (1, dense 1)] }

theorem wit_MatrixResults :
    let s := sregs [(4, 5), (5, 32), (16, 0x40)] base
    let desc := s.src .e64 (.int 128 false) 0 (.s 4)
    let r : ObRec := { state := .reserved, desc := .ofNat 128 desc, fmt := 0 }
    let on := base.modPart 0 fun p => { p with records := [(0, { dense 0 with state := .reserved })] }
    let fills := base.modPart 0 fun p => { p with records := [(0, { dense 0 with state := .filling })] }
    let backed := base.modPart 0 fun p => { p with records := [(0, { state := .reserved, desc := .ofNat 128 (32 * 2 ^ 32 + 2 ^ 96), fmt := 0 })] }
    let ob := (backed.part 0).ob 0
    let far := (base.modPart 0 fun p => { p with
      records := [(0, { state := .reserved, desc := .ofNat 128 (32 * 2 ^ 32 + 2 ^ 96 + 2 ^ 97), fmt := 0 })] })
    let x : Opnds := { x0 with ext := .e128 4 0, a := .inline 0, b := .inline 0 }
    let q : MmaReq := { tile := 0, ra := 0, rb := 1, rm := none, n := (mmShape x.ext).1, k := (mmShape x.ext).2, kofs := 0, col0 := 0 }
    let p := mats.begun.part mats.mp
    let sparse := (mats.modPad 0 fun sp => sp.put ((mats.blk 0).word 0) (0x44444444, false)).modPart 0 fun p => { p with
      records := p.records ++ [(2, { state := .ready, desc := .ofNat 128 (15 * 2 ^ 24), fmt := 0 })] }
    let m := (sparse.part 0).ob 2
    s.first g7 = some 0 ∧ s.ready (.obres { x0 with a := .s 4 } 3) = true ∧ ((s.begun.part s.mp).ob 3).state = .free
    ∧ s.sel.act.headD 0 = 0 ∧ r.narrow = false ∧ s.begun.obDescBad 3 r = false
    ∧ on.ready (.obrel x0 0) = true ∧ ((on.begun.part on.mp).ob 0).state = .reserved
    ∧ base.ready (.obrel x0 0) = true ∧ ((base.begun.part base.mp).ob 0).state = .free
    ∧ fills.ready (.obrel x0 0) = true ∧ ((fills.begun.part fills.mp).ob 0).state = .filling ∧ (Instr.obrel x0 0).wf = true
    ∧ ob.type ≠ 15 ∧ on.ready (.obldX { x0 with a := .s 2 } 0) = true
    ∧ on.cb.padRange 0 ((on.part 0).ob 0).size 16 false { cause := 0 } = none ∧ on.sbBusy 0 0 ((on.part 0).ob 0).size = false
    ∧ (on.begun.fillRead 0 0 ((on.part 0).ob 0).size).2.isSome = true
    ∧ backed.ready (.obld x0 0) = true ∧ ob.backed = true ∧ ob.bcore = backed.cc % 4 ∧ backed.cb.padRange ob.baddr ob.size 16 false { cause := 0 } = none
    ∧ (backed.begun.fillRead 0 ob.baddr ob.size).2.isSome = true
    ∧ far.ready (.obld x0 0) = true ∧ ((far.part 0).ob 0).backed = true ∧ ((far.part 0).ob 0).bcore ≠ far.cc % 4
    ∧ mats.ready (.mma x 0 0 1) = true ∧ (p.ob 0).state = .ready ∧ (p.ob 1).state = .ready ∧ (p.ob 0).type ≠ 15 ∧ (p.ob 1).type ≠ 15
    ∧ q.col0 + q.n ≤ 128 ∧ (∀ j < q.n, (p.ob 1).fits j (q.kofs + q.k - 1) = true)
    ∧ (∀ t ∈ mats.exe g7, (p.ob 0).fits (homeLane t) q.lastA = true)
    ∧ sparse.ready (.mmas x 0 0 1 2) = true ∧ m.state = .ready ∧ m.type = 15 ∧ q.kofs % 4 = 0
    ∧ (∀ t ∈ sparse.exe g7, (∀ k ∈ q.metaBytes m (homeLane t), k < sparse.cb.scratchSize ∧ sparse.sbBusy 0 k 1 = false)
        ∧ ∀ g ∈ q.groups, sparse.metaNibble m (homeLane t) g % 4 < sparse.metaNibble m (homeLane t) g / 4)
    ∧ (∀ t ∈ mats.exe g7, ∀ k ∈ [(0 : Nat), 1, 2, 3, 15], p.elemPoison (p.ob 0) (homeLane t) k = false ∧ ∀ j < q.n, p.elemPoison (p.ob 1) j k = false) := by
  decide +kernel

theorem wit_ProductSums :
    let s := base.modPart 0 fun p => p.modTile 0 fun t => { t with rows := [(0, { AccRow.reset with empty := false })] }
    let l : LaneProds := { thr := 0, cols := [[{ m := 5, e := 1 }]], bad := false }
    let r := s.accRow 0 (homeLane l.thr)
    l.bad = false ∧ (∃ e ∈ l.top, r.shift e 0 = 0) ∧ 0 < l.cols.length ∧ 127 + l.cols.length ≤ 128 ∧ r.empty = false := by decide +kernel

theorem wit_TileResults :
    let s := sregs [(8, 0)] base
    let v : Opnds := { x0 with a := .v 2 }
    let t : Opnds := { x0 with a := .s 8, b := .v 1, c := .inline 0 }
    let rs := s.padAt t false
    s.first g7 = some 0 ∧ s.ready (.accZero x0 1 true) = true ∧ s.ready (.accRenorm v 0) = true ∧ s.ready (.accTmask { v with b := .inline 0 } 0) = true
    ∧ s.src .e64 .b32 0 (.inline 0) ≤ 127
    ∧ (sregs [(8, 128)] base).ready (.accTmask { v with b := .s 8 } 0) = true ∧ 127 < (sregs [(8, 128)] base).src .e64 .b32 0 (.s 8)
    ∧ (sregs [(8, 128)] base).first g7 = some 0 ∧ s.ready (.accScale v 0) = true ∧ s.ready (.accRmax { x0 with d := .v 4, a := .inline 0 } 0 127) = true
    ∧ s.src .e64 .b32 0 (.inline 0) + 127 + 1 ≤ 128 ∧ s.ready (.accMode { x0 with a := .inline 1 } 0) = true
    ∧ s.ready (.accLd t 0 .f32 3) = true ∧ s.ready (.accSt t 0 .bf16 false 3) = true ∧ rs.map (·.2) = [0, 0]
    ∧ (∀ e ∈ rs, s.cb.padRange e.2 (AccForm.f32.length 4) AccForm.f32.sizes.2.2 false { cause := 0 } = none ∧ s.sbBusy 0 e.2 (AccForm.f32.length 4) = false)
    ∧ (∀ e ∈ rs, s.cb.padRange e.2 (AccForm.bf16.length 4) AccForm.bf16.sizes.2.2 true { cause := 0 } = none
        ∧ s.sbBusy 0 e.2 (AccForm.bf16.length 4) = false)
    ∧ (∀ k < 16, ∀ w ∈ wordsOf k 1, ((s.core 0).scratch.read ((s.blk 0).word w)).isSome = true
        ∧ (s.core 0).scratch.poisoned ((s.blk 0).word w) = false) := by decide +kernel

/-- Work queue 3 and exit list 2 are the block's own. -/
def owned : State :=
  ((sregs [(2, 0x401000), (4, 0x3F800000)] base).modWq 0 3 fun w => { w with owner := some (0, 0), items := [7, 8, 9] }).modExit 0 2 fun l =>
    { l with owner := some (0, 0, 0), lcap := 4, bmax := 4, bmin := 1, fill := 3, handed := 2, done := 1, base := 0x401000, stat := 0x401800
             recs := [(0, (5, 1)), (1, (6, 1)), (2, (7, 1))] }

theorem wit_QueueResults :
    let s := owned
    let shut := s.modWq 0 3 fun w => { w with closed := true }
    let x : Opnds := { x0 with a := .s 2 }
    let y : Opnds := { x0 with d := .v 4 }
    s.exe g7 ≠ [] ∧ s.wqOwned 3 = true ∧ shut.ready (.wqPush x 3 false 1) = true ∧ shut.wqOwned 3 = true ∧ (shut.wq shut.cd 3).closed = true
    ∧ s.ready (.wqPush x 3 false 1) = true ∧ s.wqWaiters s.cd 3 = [] ∧ (s.wq s.cd 3).closed = false
    ∧ (s.exe g7).length ≤ 1024 - (s.wq s.cd 3).items.length ∧ (s.begun.fenceFirst 0 (s.exe g7) 3).isSome = true
    ∧ s.ready (.wqPull y 3 false 1) = true ∧ (s.exe g7).length ≤ (s.wq s.cd 3).items.length
    ∧ s.ready (.wqStatCnt { x0 with d := .s 4 } 3) = true ∧ s.ready (.wqStatOpen { x0 with d := .s 4 } 3) = true
    ∧ s.ready (.wqStatClose { x0 with d := .s 4 } 3) = true
    ∧ s.ready (.lqStat { x0 with d := .s 4, ext := .e96 0xFFFFFFFF, a := .imm 0 }) = true ∧ s.exe g7 = [0, 1]
    ∧ s.src (.e96 0xFFFFFFFF) .b32 0 (.imm 0) = 0xFFFFFFFF ∧ s.src (.e96 64) .b32 0 (.imm 0) = 64
    ∧ s.ready (.lqStat { x0 with d := .s 4, a := .inline 0 }) = true ∧ s.src .e64 .b32 0 (.inline 0) = s.queueOf s.cb := by decide +kernel

theorem wit_ExitResults :
    let s := owned
    let x : Opnds := { x0 with d := .s 6, a := .s 2 }
    let w (n : BitVec 6) : Opnds := { x0 with d := .s 6, a := .inline n }
    let d := 5 * 2 ^ 64 + 4 * 2 ^ 80 + 1 * 2 ^ 96
    let reg := ((base.modBlk 0 fun b => { b with bundles := (s.blk 0).bundles }).poke 0x10008 (d / 2 ^ 64))
    let heard := s.modCb fun b => { b with threads := b.threads.map fun t => { t with wait := .exits 0 0 (some 1) } }
    s.exe g7 = [0, 1] ∧ reg.ready (.bkfillReg x 5) = true ∧ canonical 0x401000 = true
    ∧ (match (reg.begun.engRead reg.cb.who (sectorParts 0x401000 64)).2 with
      | .ok b => b.all (fun y => !y.2) && exitDescOk (ofBytes (b.map (·.1)))
      | .error _ => false) = true
    ∧ (reg.exitList 0 5).free reg.cb = true
    ∧ (s.exitList s.cd 2).mine s.cb = true ∧ s.ready (.bkfill { x0 with d := .s 6 } 2) = true ∧ s.engineBusy [0, 1] = false
    ∧ s.storing 0 2 = false ∧ (s.cb.thr 0).wait = .none ∧ heard.ready (.bkwait (w 5) 2) = true ∧ (heard.cb.thr 0).wait = .exits 0 0 (some 1)
    ∧ (s.begun.lanesPerformed 0 [0, 1]).isSome = true
    ∧ s.ready (.bkwait (w 9) 2) = true ∧ (s.exitList 0 2).find (s.src .e64 .b32 0 (w 9).a) = none
    ∧ s.ready (.bkwait (w 5) 2) = true ∧ (s.exitList 0 2).find (s.src .e64 .b32 0 (w 5).a) = some 0 ∧ 0 < (s.exitList 0 2).done
    ∧ (s.exitList 0 2).find (s.src .e64 .b32 0 (w 7).a) = some 2 ∧ (s.exitList 0 2).handed ≤ 2
    ∧ s.ready (.conftest { x0 with d := .p 1, a := .v 2, b := .v 4, c := .s 4 } 2) = true
    ∧ (Fp.unpack .f32 0x7FC00000).isNan = true := by decide +kernel

theorem wit_ChildLaunches :
    let s := sregs [(2, 0x401000)] base
    s.ready (.launch { x0 with d := .s 4, a := .s 2 } 0) = true ∧ bars.ready (.launchArr { x0 with d := .s 4, a := .s 2 } 1) = true
    ∧ s.exe g7 = [0, 1] ∧ s.src .e64 .b64 0 (.s 2) = 0x401000 ∧ canonical 0x401000 = true ∧ 0x401000 % 128 = 0
    ∧ (Sparse.look bars.cb.slots 1).isSome = true
    ∧ ((s.begun.fenceFirst 0 [0, 1] 3).any fun f =>
        let u := f.engRead s.cb.who (sectorParts 0x401000 128)
        match u.2 with
        | .ok b => b.all (fun y => !y.2) && okay (u.1.readHeader s.cb.who (ofBytes (b.map (·.1)))).2
        | .error _ => false) = true := by
  decide +kernel

/-- A launch of one block with one thread, whose scratchpad takes `rows` rows. -/
def grid1 (rows : Nat) : Grid :=
  { queue := 3, seq := 1, die := 0, hdr := { Header.zero with entry := 0x400000, w := [11, 0, 0, 0, 0, 0], regs := 8, nvec := 1, scratch := rows, prio := 2 }
    locbase := 0, locsz := 0, save := 0, savesz := 0, deps := [], root := 2 ^ 41, asn := 0, shdw := 0, state := .active, total := 1, placed := 0
    ended := 0, killed := 0, struck := 0, children := 0, openChildren := 0, childFailed := false, fault := 0, nofrc := false, since := 0, prio := 2, rise := 0
    passed := false, parent := none, batch := none, status := 0, dom := 0, refused := false, era := 0, waitSeq := none, cancelled := false }

/-- A packet and a header that are taken; a skip packet; a header whose completion record has no aligned address; a queue whose number wraps; a
request of block 0's grid. -/
theorem wit_Acceptance :
    let h := 0x400800 * 2 ^ 384
    let s := { base with grids := [(0, grid1 2)], gridNext := 1 }
    let l : Launcher := { queue := 3, die := 0, who := base.cb.who, depth := 2, parent := some (0, 0, none), batch := none }
    field 1 0 8 ≠ 0 ∧ goodAddr (Header.of h).done.toNat 32 = true ∧ field 256 0 8 = 0 ∧ goodAddr (Header.of (0x400801 * 2 ^ 384)).done.toNat 32 = false
    ∧ ((base.modQueue 3 fun q => { q with seqNext := 0xFFFFFFFF }).queue 3).seqNext = 0xFFFFFFFF ∧ (base.queue 3).seqNext ≠ 0
    ∧ (∀ y ∈ l.parent, y.1 ≠ s.gridNext) ∧ (Sparse.look s.grids 0).isSome = true := by decide +kernel

theorem wit_SystemRegisters :
    let s := level 2 base
    base.ready (.sysrd { x0 with d := .s 4 } 2) = true ∧ s.ready (.sysrd { x0 with d := .v 4 } 2) = true
    ∧ base.ready (.syswr { x0 with a := .s 4 } 3) = true ∧ s.ready (.syswr { x0 with a := .s 4 } 0) = true
    ∧ s.ready (.oplogRd { x0 with d := .v 4 } 7 15) = true ∧ base.ready (.oplogRd { x0 with d := .v 4 } 0 0) = true := by decide +kernel

theorem wit_ServicePrivilege :
    let x : Opnds := { x0 with d := .s 4, a := .inline 0 }
    let va : Opnds := { x0 with a := .s 2, b := .s 4, c := .inline 5 }
    (serviceOnly base (.tlbinv x0 .all)).isSome = true ∧ base.ready (.tlbinv x0 .all) = true
    ∧ (serviceOnly base (.tlbinv { x0 with a := .inline 15 } .dom)).isSome = true ∧ base.ready (.tlbinv { x0 with a := .inline 15 } .dom) = true
    ∧ (serviceOnly base (.tlbinv { x0 with a := .inline 7 } .as)).isSome = true ∧ base.ready (.tlbinv { x0 with a := .inline 7 } .as) = true
    ∧ (serviceOnly base (.tlbinv va .va)).isSome = true ∧ base.ready (.tlbinv va .va) = true
    ∧ (serviceOnly base (.diectlStat x)).isSome = true ∧ base.ready (.diectlStat x) = true ∧ base.exe g7 ≠ [] ∧ base.service (base.exe g7) = false := by
  decide +kernel

/-- A die whose fault buffer holds a restartable record and a lane's. -/
def recorded : State := (level 2 base).modDie 0 fun d => { d with
  fb := [{ seq := 1, body := .restart { cause := 0x50, why := 0, acc := 0, level := 0, engine := false, domain := 0, asn := 0, count := 1
                                        va := 0x402000, cores := 1, pc := 0 }, taken := false }]
  fbNext := 2 }

theorem wit_FaultBufferResults :
    let s := recorded
    let x : Opnds := { x0 with d := .s 16, a := .inline 1 }
    s.exe g7 = [0, 1] ∧ s.service [0, 1] = true ∧ s.ready (.faultRdSeq x) = true ∧ s.ready (.faultRdTake x) = true ∧ s.ready (.faultRdFree x) = true
    ∧ ((s.die s.cd).fb.find? fun e => e.seq == .ofNat 32 (s.src .e64 .b32 0 x.a)).isSome = true
    ∧ ((s.die s.cd).fb.find? fun e => !e.taken && decide ((.ofNat 32 (s.src .e64 .b32 0 x.a) : Word).toNat ≤ e.seq.toNat)).isSome = true
    ∧ s.ready (.faultCancel { x with d := .s 4, b := .s 2 } .core) = true ∧ (s.begun.lanesPerformed 0 [0, 1]).isSome = true
    ∧ s.ready (.tlbinv x0 .all) = true ∧ s.ready (.tlbinv { x0 with a := .inline 15 } .dom) = true ∧ s.src .e64 .b32 0 (.inline 15) < 16
    ∧ s.usedPage s.cd (tlbPick .all 0 0 0) = false := by decide +kernel

theorem wit_ServiceResults :
    let s := level 2 base
    let x : Opnds := { x0 with d := .s 16, a := .inline 1 }
    s.exe g7 = [0, 1] ∧ s.service [0, 1] = true ∧ s.ready (.leaseQStat x) = true ∧ s.ready (.leaseQWait { x with b := .inline 0 }) = true
    ∧ s.src .e64 .b32 0 (.inline 0) = 0 ∧ (s.cb.thr 0).wait = .none ∧ s.ready (.leaseQRel x) = true ∧ s.ready (.migAckTake x) = true
    ∧ s.ready (.migAckRearm x) = true ∧ s.ready (.migAckQuiet x) = true ∧ s.ready (.diectlStat x) = true ∧ s.ready (.diectlReset x) = true
    ∧ s.resetAnswer 1 = 0 := by decide +kernel

theorem wit_SnuffAndHalt :
    let s := (level 2 (sregs [(2, 0x20000)] base)).modDie 0 fun d => { d with svcdom := 1 }
    let x : Opnds := { x0 with d := .s 16, a := .s 2, b := .inline 1, c := .inline 18 }
    s.exe g7 = [0, 1] ∧ s.ready (.snuff x) = true ∧ s.service [0, 1] = true ∧ s.src .e64 .b32 0 x.b = 1 ∧ s.src .e64 .b64 0 x.a = 0x20000
    ∧ s.granuleBusy 2 = false ∧ s.ready (.haltOff x0) = true ∧ s.ready (.haltReboot x0) = true
    ∧ (s.die s.cd).svcdom.getLsbD s.cb.hdr.domain = true ∧ (∀ t ∈ [(0 : Nat), 1], (s.cb.thr t).level = 2)
    ∧ (s.begun.lanesPerformed 0 [0, 1]).isSome = true := by decide +kernel

/-- The keys of RFC 3394, section 4.6: its wrapped key stands on the data page, with the use of `seal` after it, and its key-encryption
key is the domain's transport key. -/
def wrapped : State :=
  let s := sregs [(2, 0x401000)] base
  let s := { s with mem := s.mem.setBytes 0x10000 ([0x28, 0xC9, 0xF4, 0x04, 0xC4, 0xB8, 0x10, 0xF4, 0xCB, 0xCC, 0xB3, 0x5C, 0xFB, 0x87, 0xF8, 0x26, 0x3F, 0x57, 0x86, 0xE2,
                                                    0xD8, 0x0E, 0xD3, 0x26, 0xCB, 0xC7, 0xF0, 0xE7, 0x1A, 0x99, 0xF4, 0x3B, 0xFB, 0x98, 0x8B, 0x9B, 0x7A, 0x02, 0xDD, 0x21]) }
  s.modHub fun h => { h with transport := [(0, ofBytes ((List.range 32).map (.ofNat 8 ·)))] }

theorem wit_KeyResults :
    let x : Opnds := { x0 with d := .s 10, a := .s 2 }
    let r := wrapped.begun.load wrapped.cb.who 0x401000 64 true false
    let held := (sregs [(2, 65536)] base).modHub fun h => { h with keys := [(0, { live := true, dom := 0, use := 0, gen := 1, key := 5 })] }
    wrapped.exe g7 = [0, 1] ∧ wrapped.ready (.keyhGen x .seal) = true ∧ wrapped.keyBar .seal [0, 1] = 0 ∧ wrapped.ready (.keyhImp x .seal) = true
    ∧ wrapped.ready (.keyhImp x .ide) = true ∧ wrapped.keyBar .ide [0, 1] = 4
    ∧ wrapped.src .e64 .b64 0 (.s 2) = 0x401000 ∧ addrCheck 0x401000 64 { cause := 0 } = none
    ∧ (match r.2 with
      | .ok (bs, sh) =>
        let u := (r.1.countSectors wrapped.cb.who [0x401000]).modCb fun b => b.raise 0 sh
        ((Sparse.look u.hub.transport u.cb.hdr.domain).bind fun k => Crypto.unwrap k (bs.take 40)).isSome && ofBytes ((bs.drop 40).take 2) == useCode .seal
      | .error _ => false) = true
    ∧ wrapped.keyOf 0x401000 0 none = none ∧ wrapped.ready (.keyhRev x) = true ∧ wrapped.ready (.keyhQry x) = true
    ∧ (held.keyOf (held.src .e64 .b32 0 (.s 2)) 0 none).isSome = true ∧ held.ready (.keyhRev x) = true ∧ held.keyInUse 65536 = false
    ∧ held.ready (.keyhQry x) = true := by decide +kernel

/-- Core 0's scratchpad is worn: row 3 of group 2 is lost, bank 40 has corrected 64 errors, and bank 56's group has a bank retired already. -/
def worn : State := base.modPad 0 fun sp => { sp with lost := [(50, ())], corrected := [(40, 64), (56, 64)], retired := [(3, 57)] }

theorem wit_ScratchEvents :
    let sp := (worn.core 0).scratch
    sp.isLost (16 * 3 + 2) = true ∧ sp.degraded 2 = false ∧ worn.hub.bankthr ≤ Sparse.getOr sp.corrected 40 0
    ∧ worn.hub.bankthr ≤ Sparse.getOr sp.corrected 56 0 ∧ sp.degraded (56 / 16) = true ∧ Sparse.look sp.retired (56 / 16) ≠ some 56
    ∧ (worn.core 0).inService = true := by decide +kernel

/-- Queue 3 is enabled, with the data page for its ring and its counters. -/
def queued : State := (base.modQueue 3 fun q => { q with cfg := { q.cfg with
  en := true, ring := 0x401000, wptr := 0x401800, rptr := 0x401808, lsize := 2, pmax := 7, root := 2 ^ 41, shdw := 0x7F0000000000, hwsz := 2 ^ 24 } })

theorem wit_BlockEvents :
    let s := { queued with grids := [(5, grid1 2)] }
    let g := grid1 2
    let placed := base.modBlk 0 fun b => { b with state := .placed }
    let back := base.modBlk 0 fun b => { b with state := .restored }
    let dead := base.modBlk 0 fun b => { b with state := .killed, draining := true }
    let fin := { (base.modBlk 0 fun b => { b with threads := b.threads.map fun t => { t with status := .exited } }) with grids := [(0, g)] }
    s.dieServes 0 = true ∧ s.placeable 0 = some (5, g) ∧ (s.gridSpot g).isSome = true
    ∧ (placed.blk 0).state = .placed ∧ (placed.blk 0).preemptHeld = false ∧ 0 < (placed.blk 0).rows.length
    ∧ ((back.modPad (back.blk 0).core fun sp => (back.blk 0).rows.foldl (fun sp r => sp.zeroRow r) sp).reloadBlock 0 |>.blk 0).state = .running
    ∧ (dead.blk 0).draining = true ∧ (dead.replayStale 0 fun _ => true).unfinished 0 = false ∧ (fin.blk 0).draining = false ∧ fin.blockEnded 0 = true ∧ (Sparse.look fin.grids (fin.blk 0).grid).isSome = true := by decide +kernel

/-- A lane waits at a `waitcmp` on the data page, bounded at clock 0. -/
def watch : Wait := .waitcmp (some 0) none 0x1001B 0x401000 0x10000 .n32 .eq 0

theorem wit_PreemptionEvents :
    let s := { (queued.modBlk 0 fun b => { b with grid := 9 }) with
      grids := [(5, grid1 1024)], cores := (List.range 48).map fun c => (c, { Core.reset with inService := c = 0 }) }
    let w := base.modBlk 0 fun b => { b with threads := b.threads.map fun t => { t with wait := watch } }
    let due := base.modBlk 0 fun b => { b with state := .preempting, preemptDue := some 0 }
    let sig := base.modBlk 0 fun b => { b with state := .preempting, threads := b.threads.map fun t => { t with signalled := true } }
    let gone := base.modBlk 0 fun b => { b with state := .saved, rows := [], mats := [] }
    let torn := (bars.modBlk 0 fun b => { b with
      state := .preempting, threads := b.threads.map fun t => { t with signalled := true } }).modPad 0 fun sp => { sp with
        poison := [((bars.blk 0).word 0, ())] }
    (s.victims 0).contains 0 = true
    ∧ (w.victims 0).contains 0 = false ∧ (w.blk 0).state = .running ∧ (w.blk 0).allWaitcmp = true ∧ (w.blk 0).hdr.handler ≠ 0
    ∧ (due.blk 0).state = .preempting ∧ (due.blk 0).preemptDue = some 0
    ∧ sig.drained 0 = true ∧ sig.saveReads 0 = (sig, none) ∧ (sig.blk 0).swapOut = false
    ∧ torn.drained 0 = true ∧ (torn.saveReads 0).2.isSome = true
    ∧ ((gone.restorable 0).bind gone.restoreSpot) = some [(0, 0)] ∧ gone.dieServes 0 = true
    ∧ (gone.blk 0).state = .saved ∧ (gone.core 0).port = [] := by decide +kernel

theorem wit_RegroupEvents :
    let b0 := base.blk 0
    let c : Checkpoint :=
      { threads := b0.threads, bundles := b0.bundles, drawn := [], slots := [], rings := [], records := [], seqs := [], slices := [], bad := false }
    let s := base.modBlk 0 fun b => { b with state := .rollingBack, check := some c }
    let x : Bin := { blk := 0, pc := 0x400010, donorRole := 2, threads := [(0, 0), (1, 0)] }
    let binned := (base.modBlk 0 fun b => { b with threads := b.threads.map fun t => { t with status := .binned 4 } }).modPart 0 fun p => { p with bins := [(4, x)] }
    let d : Drawn := { part := 0, donor := 0, members := [0, 1], s := [], bad := [], f := [], oplog := [], drawnAt := 0, age := 0, firstIssue := some 0, readySince := none
                       leader := none, cur := [], turn := 0 }
    let logged := (s.modBlk 0 fun b => { b with journal := [.vrow 0 2 [7, 8], .trow 0 1 5 AccRow.reset, .obuf 0 3 (List.replicate 1024 9) []] }).blk 0
    let lost := base.modBlk 0 fun b => { b with state := .rollingBack, check := some { c with bad := true } }
    let hurt := (base.modBlk 0 fun b => { b with threads := b.threads.map fun t => { t with bad := [2] } })
    let add : Instr := .iadd { x0 with d := .v 1, a := .v 2, b := .v 2 } .n32 false
    let full := (binned.modBlk 0 fun b => { b with drawn := (List.range 8).map fun k => (k, d) }).modDie 0 fun y => { y with clk := 4096 }
    (s.blk 0).state = .rollingBack ∧ s.engineWork 0 false = false ∧ (s.blk 0).preemptHeld = false
    ∧ b0.threads.all (fun t => t.wait == .none && t.status == .running) = true ∧ (s.blk 0).trail = none
    ∧ (∀ y ∈ b0.bundles, y.oplog = [] ∧ y.j = [])
    ∧ c.bad = false ∧ hurt.sel.act ≠ [] ∧ hurt.pendingLog = [] ∧ add.mayFault = false ∧ hurt.badRead add = true ∧ (hurt.blk 0).state.issues = true
    ∧ hurt.pendingScalars.any (fun e => e.blocks add { x0 with d := .v 1, a := .v 2, b := .v 2 }) = false
    ∧ logged.journal.length = 3 ∧ (logged.journal.all fun e => match e with
      | .external .. => false
      | _ => true) = true
    ∧ (hurt.blk 0).irrevocable = false ∧ (hurt.blk 0).rollbacks < 3
    ∧ ((lost.blk 0).check.any fun c => c.bad) = true ∧ (lost.blk 0).state = .rollingBack ∧ lost.engineWork 0 false = false
    ∧ ((hurt.modBlk 0 fun b => { b with rollbacks := 3 }).blk 0).irrevocable = false
    ∧ ((binned.binsDue 0).take (8 - (binned.drawnOn 0).length)).find? (fun e => e.1 == 4) = some (4, x)
    ∧ Sparse.look (full.blk 0).drawn 0 = some d ∧ full.dissolvable 0 = some (0, 0, d) ∧ b0.threads ≠ [] := by decide +kernel

theorem wit_MovementEvents :
    let sl : Slice := { bundle := 0, thr := 0, k := 0, kind := .plain, s2g := false, slot := none, g := 0x401000, sc := 16, len := 16, rows := 1
                        gstride := 0, sstride := 0 }
    let c : Copy := { k := 0, kind := .plain, s2g := false, slot := none, slices := [sl], landed := 0, waitSeq := none, cancelled := false }
    let s := base.modBlk 0 fun b => { b with slices := [sl], bundles := b.bundles.map fun u => { u with slices := 1 } }
    let t := base.modBlk 0 fun b => { b with copies := [c], accepted := 1 }
    let f : Fill := { blk := 0, ob := 0, bytes := List.replicate 256 1, poison := [], remote := none, len := 256, thrs := [0] }
    let p := mats.modPart 0 fun y => { y with fills := [f], records := [(0, { dense 0 with state := .filling })] }
    let q : RemoteReq := { sel := cohort.sel, i := .ldsRem { x0 with d := .v 4, a := .s 2 } .b32 false 1 false, target := 1, lanes := [(0, 0, 0, [])] }
    let held := cohort.modCore 1 fun k => { k with port := [q] }
    let rf : Fill := { f with bytes := [], remote := some (1, 0) }
    let remote (st : State) := (st.modBlk 1 fun b => { b with hdr := { b.hdr with scratch := 2 } }).modPart 0 fun y => { y with
      fills := [rf], records := [(0, { dense 0 with state := .filling })] }
    let ready := remote cohort
    let alone := remote base
    let torn := ready.modPad 1 fun sp => { sp with ecc := [((ready.blk 1).word 0, .double)], retired := [(0, 1)] }
    (s.blk 0).state.resident = true ∧ (s.blk 0).copyReady = true ∧ (s.core 0).sb.length < 32
    ∧ (t.blk 0).copies.find? (fun c => c.k == 0) = some c ∧ rowAt c.slices c.landed = some (sl, 0) ∧ (t.blk 0).clobbers (sl.rowPad 0) sl.len = false
    ∧ okay (t.engRead (t.blk 0).engine (sectorParts (sl.rowVa 0) sl.globalLen)).2 = true
    ∧ (p.part 0).fills.find? (fun f => f.ob == 0) = some f ∧ (p.blk 0).check = none ∧ (p.blk 0).trail = none ∧ 0 < f.bytes.length ∧ f.bytes.length = ((p.part 0).ob 0).size
    ∧ (ready.part 0).fills.find? (fun f => f.ob == 0) = some rf ∧ (ready.cluster 0).down = false ∧ ready.memberAt 0 1 = some 1
    ∧ (ready.blk 1).state.resident = true ∧ ((ready.blk 1).padRange 0 256 16 false { cause := 0 }).isSome = false ∧ (ready.blk 1).state.issues = true
    ∧ ready.sbBusy 1 0 256 = false ∧ (((ready.linkGood 0 1).fillRead 1 0 256).2.map fun g => g.1.length) = some ((ready.part 0).ob 0).size
    ∧ ((torn.linkGood 0 1).fillRead 1 0 256).2 = none ∧ alone.memberAt 0 1 = none ∧ ((ready.modCluster 0 fun k => { k with down := true }).cluster 0).down = true
    ∧ (held.core 1).port = [q] ∧ (held.remoteServe q).isSome = true ∧ (base.cluster 0).down = false := by decide +kernel

theorem wit_WaitEvents :
    let w := base.modBlk 0 fun b => { b with threads := b.threads.map fun t => { t with wait := watch } }
    let r := w.loadAt (w.blk 0).who { pageOf 0x1001B 0x401000 0 with pa := 0x10000 / pageBytes (field 0x1001B 14 4) * pageBytes (field 0x1001B 14 4) }
      0x10000 4
    let piloted := w.modDie 0 fun d => { d with pilots := [{ slice := 0, blk := 0, thr := 1, granule := 0 }] }
    let bt := bars.modBlk 0 fun b => { b with threads := b.threads.map fun t => { t with wait := .bwaitt 3 0 none } }
    let ls := base.modBlk 0 fun b => { b with threads := b.threads.map fun t => { t with wait := .lease 0 (some 0) false } }
    1 < (w.blk 0).threads.length ∧ ((w.blk 0).thr 1).napUntil ≤ 0 ∧ ((w.blk 0).thr 1).watching.1 = watch
    ∧ (match r.2 with | .ok bs => waitHolds .n32 .eq (ofBytes bs) 0 | .error _ => false) = true ∧ r.1.blocks = w.blocks
    ∧ (piloted.die 0).pilots.any (fun e => e.blk == 0 && e.thr == 1) = true ∧ (w.die 0).pilots.any (fun e => e.blk == 0 && e.thr == 1) = false
    ∧ ((bt.blk 0).thr 1).wait = .bwaitt 3 0 none ∧ (bt.blk 0).state.issues = true ∧ (bt.barOf 0 3).isSome = true
    ∧ ((ls.blk 0).thr 1).wait = .lease 0 (some 0) false ∧ 0 ≤ ls.hub.time := by decide +kernel

/-- A walk of the data page, and one of a page that the tables do not map, in the slot of the package kernel. -/
def walking : State :=
  let r : WalkReq := { cores := [0], dom := 0, asn := 0, page := 0x401, root := 2 ^ 41, acc := .read, size := 4, failed := none }
  (base.modHub fun h => { h with slots := List.replicate 64 0x10 }).modDie 0 fun d => { d with walks := [r, { r with page := 0x403 }], tlb := [] }

theorem wit_MemoryEvents_walks :
    let w : Who := { die := 0, core := some 0, dom := 0, asn := 0, root := 2 ^ 41, win := 2 ^ 64, code := 0 }
    let done (page : Nat) := walking.modDie 0 fun x => { x with walks := x.walks.filter fun r => r.page != page }
    ((walking.die 0).walks == [{ cores := [0], dom := 0, asn := 0, page := 0x401, root := 2 ^ 41, acc := .read, size := 4, failed := none },
        { cores := [0], dom := 0, asn := 0, page := 0x403, root := 2 ^ 41, acc := .read, size := 4, failed := none }]) = true
    ∧ okay ((done 0x401).walkFor w 0x401000 4 .read).2 = true
    ∧ (match ((done 0x403).walkFor w 0x403000 4 .read).2 with
      | .error x => x != .wait
      | .ok _ => false) = true := by decide +kernel

theorem wit_MemoryEvents :
    let s := { (base.modDie 0 fun d => { d with l2 := { valid := [], poison := [], bytes := [(0x10004, { val := 7, masked := true, writers := [(0, 0)] })] } }) with
      hub := { base.hub with dir := [(256, { owner := some 0, holders := [0] })] } }
    let shut := s.modDie 0 fun d => { d with warm := { step := 3, tries := 0 } }
    let f : RestartRec := { cause := 0x50, why := 0, acc := 0, level := 0, engine := false, domain := 0, asn := 0, count := 1
                            va := 0x402000, cores := 1, pc := 0 }
    let late := base.modDie 0 fun d => { d with deferred := [{ body := f, who := .copy 0 0 }] }
    let d : Delivery := { external := false, src := 1, blk := 0, thr := 0, target := 2, pa := 0x10000, bytes := [1], stamp := [1, 0, 0, 0, 0, 0], inc := 0, waitSeq := none
                          poison := false, va := none, pc := 0 }
    let e : Persist := { k := 4, blk := 0, thr := 0, pa := 0x10000, bytes := [1], age := 0 }
    Sparse.sorted (s.cache 0).bytes = true ∧ s.mem.wf = true ∧ ((s.l2 0 0x10004).map (·.masked)) = some true
    ∧ (∀ e ∈ s.maskedIn 0 65536 256, s.served 0 e.1 = true) ∧ (s.maskedIn 0 65536 256).length = 1 ∧ s.hub.inflight = [] ∧ s.hub.applied = []
    ∧ (∃ e ∈ shut.maskedIn 0 65536 256, shut.served 0 e.1 = false)
    ∧ (Sparse.look s.hub.dir 256).isSome = true ∧ s.refuses (256 * 256) = false
    ∧ (late.die 0).deferred.length = 1 ∧ (late.recordFault 0 f).2.isSome = true
    ∧ ([d].filter fun d => d.target == 2).find? (fun d => d.waitSeq.isNone && ([d].filter fun d => d.target == 2).all fun e =>
        e == d || !(clockLe e.stamp d.stamp && e.stamp != d.stamp)) = some d
    ∧ homeAgent d.pa ≠ 2 ∧ homeAgent d.pa = 0 ∧ d.inc = base.incOf 0 ∧ base.refuses d.pa = false ∧ base.mayApply d = true
    ∧ d.src < 4 ∧ shut.refuses d.pa = true ∧ ([e].find? fun e => e.k == 4) = some e ∧ (∀ c ∈ caches, base.served c e.pa = true) := by decide +kernel

/-- Queue 3 with a write count. -/
def packets (w : Nat) : State := queued.poke 0x10800 w

theorem wit_LaunchEvents :
    let q := packets 1
    let m := (q.writeCount 3).1.modQueue 3 fun k => { k with seen := 1 }
    let v := m.engRead (m.queueWho 3) (sectorParts 0x401000 128)
    let g := { grid1 2 with state := .waiting, deps := [(7, 3)] }
    let late := base.modHub fun h => { h with time := 1000000 }
    let fin := { grid1 2 with placed := 1, ended := 1 }
    let waiting := owned.modWq 0 3 fun w => { w with waiting := [.issue base.sel (.wqPull { x0 with d := .v 4 } 3 false 1)] }
    let due := (sregs [] owned).modExit 0 2 fun l => { l with pkt := 0x401000, wq := 3, owner := some (0, 0, 0), handedAt := [(1, 0)], done := 1, handed := 2 }
    let dueQ := (due.modQueue 0 fun q => { q with cfg := { q.cfg with root := 2 ^ 41, shdw := 0x7F0000000000 } }).poke 0x10000 1 |>.poke 0x10008 0x401040
    let formed := dueQ.modExit 0 2 fun l => { l with batch := some l.nextBatch }
    let u := formed.engRead (formed.exitWho 0 (formed.exitList 0 2)) (sectorParts 0x401000 128)
    let queuedB := formed.modWq 0 3 fun w => { w with waiting := [.batch 2] }
    let pushed := dueQ.modExit 0 2 fun l => { l with batch := some { l.nextBatch with pkt := some 1, pushed := true } }
    (q.queue 3).cfg.en = true ∧ (q.queue 3).halted = false ∧ (q.queue 3).waitSeq = none ∧ q.dieServes 0 = true ∧ (q.writeCount 3).2 = some 1
    ∧ ((packets 5).writeCount 3).2 = some 5 ∧ 0 + 2 ^ 2 < 5 ∧ ((packets 0).writeCount 3).2 = some 0 ∧ (m.queue 3).cancelled = false
    ∧ (match v.2 with
      | .ok bs => bs.all (fun b => !b.2) && okay (v.1.readHeader (m.queueWho 3) (ofBytes (bs.map (·.1)))).2
      | .error _ => false) = true
    ∧ (∀ d ∈ g.deps, (base.depStatus d).isSome = true) ∧ late.canRise (grid1 2) = true ∧ fin.finished = true ∧ fin.waitSeq = none
    ∧ (base.blocksPerformed 0 [recordWriter 5]).isSome = true ∧ canonical 0x400010 = true
    ∧ ({ waiting with sel := base.sel }.modWq 0 3 fun w => { w with waiting := [] }).cb.state.issues = true
    ∧ (match ({ waiting with sel := base.sel }.modWq 0 3 fun w => { w with waiting := [] }).wqAct (.wqPull { x0 with d := .v 4 } 3 false 1) false with
      | .acts _ => true
      | _ => false) = true
    ∧ dueQ.batchDue (dueQ.exitList 0 2) = true ∧ dueQ.dieSilent 0 = false ∧ base.dieSilent 0 = false
    ∧ (match u.2 with
      | .ok bs =>
        let r := u.1.modBatch 0 2 fun b => { b with pkt := some (ofBytes (bs.map (·.1))) }
        bs.all (fun b => !b.2) && field (ofBytes (bs.map (·.1))) 0 8 == 1 && (r.wqWaiters 0 (r.exitList 0 2).wq).isEmpty
          && (r.batchPush 0 2 false).any fun v => (v.exitList 0 2).batch.any fun b => b.pushed
      | .error _ => false) = true
    ∧ queuedB.wqWaiters 0 3 = [.batch 2] ∧ ((queuedB.modWq 0 3 fun w => { w with waiting := [] }).batchPush 0 2 false).isSome = true
    ∧ waiting.wqWaiters 0 3 = [.issue base.sel (.wqPull { x0 with d := .v 4 } 3 false 1)]
    ∧ ((pushed.exitList 0 2).batch.map fun b => (b.grid, b.waitSeq, b.pkt, b.pushed)) = some (none, none, some 1, true)
    ∧ (formed.wq 0 3).owner = (formed.exitList 0 2).owner.map (fun o => (o.1, o.2.1)) ∧ (formed.wq 0 3).closed = false
    ∧ (formed.wq 0 3).items.length < 1024 := by decide +kernel

theorem wit_EngineEvents :
    let c (k : Nat) (kind : BulkKind) (code : Option Nat) : BulkCmd :=
      { k := k, blk := 0, thrs := [0], kind := kind, buf := none, done := 0, code := code, waitSeq := none, cancelled := false, pre := false }
    let kinds : List BulkKind := [.gather 0x401000 1 0x401800, .fan [(0x401000, 0x401100)] 16 1 0 none, .sealed false 0x401000]
    let s := base.modDie 0 fun d => { d with bulk := c 3 (.gather 0x401000 1 0x401800) (some 0) :: kinds.zipIdx.map fun e => c e.2 e.1 none }
    let b : BankCmd := { k := 7, blk := 0, bundle := 0, thrs := [0], pages := [(0x401000, 4096, 0x10000)], op := .add, t := .s32, rnd := .rn, n := 1
                         d := 0x401000, a := 0x401000, b := 0x401040, c := 0, scalar := 0, done := [], after := [] }
    let bk := base.modDie 0 fun d => { d with bank := [b] }
    let cp := shadowed.modDie 0 fun d => { d with shadows := d.shadows.map fun e => (e.1, { e.2 with copying := some (0, [0]) }) }
    let z := base.modHub fun h => { h with zeroing := [(2, 18)] }
    (s.die 0).bulk.map (·.k) = [3, 0, 1, 2] ∧ (bk.die 0).bank.find? (fun c => c.k == 7) = some b
    ∧ b.rest = [0] ∧ bk.bankWaits 0 b = false ∧ (∀ p ∈ b.pieces, bk.bankServed 0 b p.1 = true)
    ∧ ([{ b with k := 6 }].any fun e => decide (e.k < 7) && e.blk == b.blk && e.bundle == b.bundle && e.overlaps b) = true
    ∧ ((Sparse.look (cp.die 0).shadows 0).bind (·.copying)) = some (0, [0])
    ∧ ((Sparse.look (shadowed.die 0).shadows 0).map fun e => (e.opened, e.copying)) = some (true, none)
    ∧ z.granuleBusy 2 = false ∧ (z.hub.zeroing.find? fun e => e.1 == 2) = some (2, 18) ∧ (base.hub.zeroing.find? fun e => e.1 == 2) = none := by
  decide +kernel

/-- Lease 5, of the pool's second granule, in a state. -/
def leased (n : Nat) : State := base.modHub fun h => { h with
  time := 100000000
  leases := [(5, { state := n, size := 1, port := 9, gen := 1, id := 77, base := 2 ^ 41 + 65536, expiry := 1, since := 0, sharers := [] })] }

theorem wit_LenderEvents :
    (base.lease 5).state = 0 ∧ (2 ^ 41 + 65536) % pageBytes 1 = 0 ∧ (∀ g ∈ ((leased 0).lease 5).granules, base.granuleOwner g = 0x12)
    ∧ (∀ n < 5, ((leased n).lease 5).state = n) ∧ 0 + 100000000 ≤ (leased 1).hub.time ∧ ((leased 2).lease 5).expiry = 1 ∧ 1 ≤ (leased 2).hub.time
    ∧ ((leased 2).hub.leases.find? fun e => e.2.id == 77 && e.2.gen == 1 && (e.2.state == 2 || e.2.state == 3) && e.2.port == 9).isSome = true
    ∧ (leased 2).hub.incarnation = 1 ∧ 4096 * 0 + 4096 ≤ pageBytes ((leased 2).lease 5).size ∧ (leased 2).hub.performed = []
    ∧ PeerAsk.inPage (.atomic 4092 { ty := .n32, op := .cas, b := 0, c := 0 }) = true ∧ (leased 2).askServed (2 ^ 41 + 65536) .page = true
    ∧ (leased 2).askServed (2 ^ 41 + 65536) (.read 0 8) = false
    ∧ ((leased 2).modHub fun h => { h with slots := List.replicate 64 0x10 }).askServed (2 ^ 41 + 65536) (.read 0 8) = true
    ∧ stepBytes { ty := .n32, op := .cas, b := 0, c := 0 } [0, 0, 0, 0] ≠ none ∧ stepBytes { ty := .n32, op := .cas, b := 1, c := 0 } [0, 0, 0, 0] = none
    ∧ PeerAsk.inPage .page = true ∧ PeerAsk.inPage (.read 0 4096) = true ∧ PeerAsk.inPage (.write 4095 [1]) = true
    ∧ (∀ x ∈ (leased 2).hub.leases, ¬(x.2.id = 78 ∧ x.2.gen = 1 ∧ (x.2.state = 2 ∨ x.2.state = 3) ∧ x.2.port = 9)) := by decide +kernel

/-- Borrow slot 6 in a state; its page 0 is asked for, and its page 1 has reached the threshold. -/
def borrowed (n : Nat) : State := base.modHub fun h => { h with
  borrows := [(6, { state := n, size := 1, dom := 0, wide := false, port := 9, gen := 1, inc := 1, id := 77, expiry := none, acked := n = 3 })]
  reqs := [{ tag := 0, dest := 9, slot := 6, page := 0, what := .page, drain := none, since := 0, lost := false, engine := false }]
  peers := [{ slot := 6, page := 1, phys := 5, inc := 1, count := 4, mig := .unposted, dom := 0, asn := 0, xoff := 0, size := 1, va := 0x401000 }] }

theorem wit_BorrowerEvents :
    let asks := (borrowed 1).modHub fun h => { h with
      reqs := [{ tag := 1, dest := 9, slot := 6, page := 0, what := .read 0 64 64, drain := none, since := 0, lost := false, engine := false }] }
    (∀ n < 5, ((borrowed n).borrow 6).state = n) ∧ ((borrowed 3).borrow 6).acked = true ∧ ((borrowed 1).borrow 6).acked = false
    ∧ (∃ r ∈ (borrowed 1).hub.reqs, r.what = .page ∧ r.slot = 6 ∧ r.page = 0)
    ∧ (asks.hub.reqs.find? fun r => r.tag == 1 && r.slot == 6 && r.what != .page && !r.lost).isSome = true ∧ ((borrowed 1).borrow 6).inc < 2
    ∧ ((borrowed 1).hub.peers[0]?.map (·.mig)) = some .unposted ∧ (borrowed 1).hub.mig.length < 256 := by decide +kernel

/-- The encoded message of a signature of the message 1, 2, 3 with an empty salt (RFC 8017, section 9.1.1), worked out beside the model; with the
exponent 1 it is its own signature. -/
def signed : List Byte := Crypto.beBytes 384
  0x451947DD82572BABD94DADA28CFACC5C951FAE12C2F79EDE08176884A40DC6B37F1A405D8180804BBEC6ACD2FD7BCEDEA16644682C9B6D1D97FF4C25059944AA0F481B6800228D8A554D1ACFE7599FC765B5CC032EEE7A90E18D248B47366904DF908A896E312FAD4EE2445AD01DE0F79FEF4E61443834EEB058BF01522DFD852A2ED835B581436C0F0204064FD2E5C598E9EE9FC0FBB4D2F37D2AD2F38EA0A9675C22F33644FAAC235D01C14FEAB4E05397F7868989491A867726A312EC3884836C1A4EE97227B4E50A6356AEA096948E07881E1CDECE17ADD396D5FC95945E6BFF13A46EF199DC3E1555F21845FF445C922FD05732F4BE7744699CEF8587D22FB9F6D680C8854B379D8514903B30FB91C765683EE09E4A5A192084BB7C05EEB8F3E7DAB16C7286F90874F9AF72D2521F062508D16FCC9DD882BB669678721CB330C4E435914A885000F21BEB59D82C0A235E3E229F6E8A1491A3F4FDEA1B087FA857EBC325112F89F60EC69311974109CFCEFB2A5FD6CF760D402CE8E1FEBC

/-- No modulus is a value of the model (log entry 12): a signature verifies here under a modulus of the test's own. -/
theorem wit_PowerEvents :
    let t := base.modHub fun h => { h with trying := true, running := some 3 }
    (base.die 0).hot = [] ∧ 115 < 116 ∧ 105 < 106 ∧ 99 < 100 ∧ t.hub.trying = true ∧ t.hub.running.isSome = true
    ∧ { base.hub with power := .off }.power ≠ .on ∧ Crypto.pssVerify (2 ^ 3072 - 1) 1 0 [1, 2, 3] signed = true
    ∧ Crypto.pssVerify (2 ^ 3072 - 1) 1 0 [1, 2, 4] signed = false := by decide +kernel

/-- A package as it was delivered boots; one whose active bank holds an older image than its rollback counter does not. -/
theorem wit_PowerEvents_boot :
    base.hub.chooseBank.bootOk = true
    ∧ { base.hub with rollback := 1, bankA := some { version := 0, bytes := [], signature := [] } }.chooseBank.bootOk = false := by
  have k : base.hub.activeB = false ∧ base.hub.bankA = none ∧ base.hub.rollback = 0 ∧ base.hub.pending = false ∧ base.hub.trying = false := by decide +kernel
  simp [Hub.bootOk, Hub.chooseBank, Hub.imageOk, k]

/-- Die 1 at a step of its warm reset. -/
def atStep (n : Nat) : State := base.modDie 1 fun d => { d with warm := { step := n, tries := 2 } }

theorem wit_ResetEvents :
    base.resetting = false ∧ (base.die 1).warm.step = 0 ∧ (∀ n < 6, ((atStep n).die 1).warm.step = n ∧ (atStep n).underReset = if n = 0 then none else some 1) ∧ placeOf 4096 = .hbm 0
    ∧ placeOf (2 ^ 37) = .hbm 1 ∧ ((atStep 2).resetWriteBack 1).hub.heldEvict = [] ∧ 7 ∉ base.hub.linksDown ∧ (Sparse.look base.hub.ports 23).all (·.down) = true
    ∧ (Sparse.look ({ base.hub with ports := [(23, { rate := 64, down := false, vexdun := false, ide := none })] } : Hub).ports 23).all (!·.down) = true
    ∧ { base.hub with slot := 63 }.slot = 63 := by decide +kernel

/-- The manifest's bytes of a kernel of one chunk, as far as a chunk's check reads them: the hash is that of the empty chunk (FIPS 180-4). -/
def manifest1 : List Byte :=
  List.replicate 20 0 ++ [1, 0, 0, 0] ++ List.replicate 40 0
    ++ [0xE3, 0xB0, 0xC4, 0x42, 0x98, 0xFC, 0x1C, 0x14, 0x9A, 0xFB, 0xF4, 0xC8, 0x99, 0x6F, 0xB9, 0x24, 0x27, 0xAE, 0x41, 0xE4, 0x64, 0x9B, 0x93, 0x4C,
        0xA4, 0x95, 0x99, 0x1B, 0x78, 0x52, 0xB8, 0x55]

theorem wit_PodEvents :
    let h (r : ElectionRole) : Hub := { base.hub with role := r, heard := 0, time := 20000000, prio := 1, roster := [4] }
    let r : Rank := { term := 1, prio := 0, serial := 0 }
    let s := base.modHub fun x => { x with reorder := [(3, { next := 2 ^ 24 - 1, held := [] })] }
    let port (d : Bool) : Hub := { base.hub with ports := [(0, { rate := 64, down := d, vexdun := false, ide := none })] }
    let p := base.modHub fun h => { h with slots := List.replicate 64 0x10 }
    let full := (List.range 4096).map fun k => ((BitVec.ofNat 24 (k + 1), Packet.recalled 0) : BitVec 24 × Packet)
    ((Sparse.look s.hub.reorder 3).map (·.held)) = some [] ∧ (s.hub.reorder.map fun e => e.2.held.length).sum < 4096 ∧ 4096 ≤ full.length ∧ (h .beacon).heard + 1000000 ≤ (h .beacon).time ∧ (h .follower).prio ≠ 0
    ∧ (h .candidate).heard + 10000000 ≤ (h .candidate).time ∧ rankLt { term := 0, prio := 1, serial := 0 } r = true
    ∧ (h .follower).term < r.term ∧ 4 ∈ (h .follower).roster ∧ 4 ∉ (h .candidate).votes ∧ chunkOk manifest1 0 [] = true
    ∧ (∀ l ∈ base.hub.links, l.a = 1 → l.b = 2 → l.seq < 1) ∧ p.kernelReach (2 ^ 41) = true ∧ base.kernelReach 0x10000 = false
    ∧ manifestOk [] = false ∧ (base.freeRun 1).isSome = true ∧ (0 : Nat) ≤ chunkSize manifest1
    ∧ { base with hub := port false }.pathLeft = true ∧ { base with hub := port true }.pathLeft = false := by decide +kernel

theorem wit_EncodingRoundTrips :
    let i : Instr := .mma { x0 with ext := .e128 0x3F7F 0, a := .inline 63, b := .s 63 } 1 7 7
    let bs := leBytes 16 0x000FFBFEFFFFDC00
    i.wf = true ∧ i.opnds?.isSome = true ∧ (encode i).isSome = true ∧ bs.length = 16 ∧ decode bs = .ok (.nop x0) := by decide +kernel

/-- The machine about to issue one word as its first instruction. -/
def first (w : Nat) : State := State.reset.withFetchWord 64 w

/-- The state in which partition 0 of core 0 makes its first try, and what it tries (R127). -/
def tried (s : State) : State × List Try :=
  let r := beginIssue 0 0 [] s.nextMove.1
  (r, r.tries 0 0 [])

/-- A first try that issues: what the statement asks of it. -/
def tries1 (s : State) (glow : Bool) : Bool :=
  let r := (tried s).1
  match (tried s).2 with
  | [x] =>
    let v := r.choose 0 x
    r.stillReady 0 x && !v.staleHere && v.sel.act.all (fun t => (v.cb.thr t).wait.fenceScope.isNone) && canonical v.sel.pc && v.sel.pc.toNat % 4 == 0
      && match v.fetchPage with
        | (w, .ok e) => lenBytes (leNat (e.code v.sel.pc.toNat 1) % 4) == some 8 && decide (v.sel.pc.toNat % 32 + 8 ≤ 32)
            && decode (e.code v.sel.pc.toNat 8) == .ok (.iadd { x0 with d := .v 3, a := .v 1, b := .inline 5 } .s32 false)
            && w.cb.trail.isSome == glow
        | _ => false
  | _ => false

theorem wit_StepRunsDecoded :
    let s := first 0x000FFC0A0080DC04
    let ev := { State.reset with agenda := [.event .slotBoundary] }
    let late := { base with agenda := [.issue 0 0] }.modBlk 0 fun b => { b with state := .preempting, preemptDue := some 0 }
    let glow := s.modBlk 0 fun b => { b with trail := some { threads := b.threads, bundles := b.bundles, todo := [] } }
    s.agenda = [.issue 0 0] ∧ s.before (.issue 0 0) = none ∧ s.nextMove.2 = .issue 0 0 ∧ s.nextMove.1.hub.power = .on
    ∧ tries1 s false = true ∧ tries1 glow true = true ∧ ev.nextMove.2 = .event .slotBoundary ∧ (Instr.slotBoundary).opFn = none
    ∧ ev.nextMove.1.hub.power = .on ∧ (late.overdue.any fun e => e == .preemptionTimeout 0) = true := by decide +kernel

/-- The base state about to issue at another place, with a word there. -/
def at' (pc : DWord) (w : Nat) : State := { base with sel := { base.sel with pc := pc } }.poke pc.toNat w

theorem wit_EncodingTraps :
    let met (pc : DWord) (w : Nat) (f : State → List Byte → Bool) : Bool := match (at' pc w).fetchPage with
      | (u, .ok e) => canonical pc && f u (e.code pc.toNat 8)
      | _ => false
    let n (bs : List Byte) := lenBytes (leNat (bs.take 1) % 4)
    let role := base.modBlk 0 fun b => { b with hdr := { b.hdr with ncopy := 1, nvec := 0 } }
    let small := base.modBlk 0 fun b => { b with hdr := { b.hdr with regs := 8 } }
    let i : Instr := .fadd { x0 with d := .v 1, a := .v 2, b := .v 8 } .f32 { rnd := .rn, sat := false, absa := false, nega := false, negb := false, negc := false }
    let c : Instr := .cvtNfDec { x0 with d := .v 1, a := .v 2 } 3 .f32 false 0
    canonical 0x400002 = true ∧ (0x400002 : DWord).toNat % 4 ≠ 0
    ∧ met 0x400000 3 (fun _ bs => leNat (bs.take 1) % 4 == 3) = true
    ∧ met 0x40001C 0 (fun _ bs => n bs == some 8 && decide (32 < 0x1C + 8)) = true
    ∧ met 0x400018 (255 * 4) (fun _ bs => n bs == some 8 && decode bs == .illegalOpcode) = true
    ∧ met 0x400018 0 (fun u bs => n bs == some 8 && decode bs == .illegalOperand 0 && u.roleOk 0) = true
    ∧ base.sel.act ≠ [] ∧ base.pendingLog = [] ∧ base.pendingScalars = [] ∧ base.logFull = false ∧ i.opnds?.isSome = true ∧ role.roleOk i.opcode = false
    ∧ small.roleOk i.opcode = true ∧ small.launchOk i { x0 with d := .v 1, a := .v 2, b := .v 8 } = false
    ∧ base.roleOk c.opcode = true ∧ base.launchOk c { x0 with d := .v 1, a := .v 2 } = true
    ∧ c.format?.any (fun f => !(Nf.fmtOf (base.freg f)).legal) = true := by decide +kernel

theorem wit_FieldEncodings :
    let i : Instr := .brx { x0 with a := .v 2 }
    let r : Raw := { op := 0, guard := 7, dst := 0x150, sa := 0x1FF, sb := 0x1FF, sc := 0x1FF, fn := 0, ext := .e64 }
    i.wf = true ∧ (encode i).isSome = true ∧ i.opFn = some (0x61, 0) ∧ (3 : Byte).toNat % 4 = 3
    ∧ parse r.op r.fn r.lax = some (.nop { x0 with g := g7 }) ∧ (Instr.nop { x0 with g := g7 }).formOk = true := by decide +kernel

theorem wit_MemoryStaysCanonical :
    (first 0x000FFC0A0080DC04).mem.wf = true ∧ (match step (first 0x000FFC0A0080DC04) with | .next t => t.mem.wf | _ => false) = true := by
  decide +kernel

/-! ### Well-formedness: one ill-formed term for each check -/

/-- No check of a type, a modifier, a length or the extension bits lets these through (R26). -/
theorem test_formOk_refuses :
    let e128 : Ext := .e128 0 0
    let m : FMods := { rnd := .rn, sat := false, absa := false, nega := false, negb := false, negc := false }
    let v2 : Opnds := { x0 with d := .v 2, a := .v 4, b := .v 6 }
    ([.iadd v2 .b32 false, .iabs v2 .n32 false, .shl v2 .s32 false, .sar v2 .n32 false, .bfe v2 .s16, .icmp v2 .b32 .lt, .mov v2 .s32, .iaddc v2 .s32 0,
      .lea v2 .b32 0, .isad v2 .s64 false, .iadd { v2 with ext := e128 } .s32 false, .fadd v2 .f32 { m with negc := true }, .fmin v2 .f32 { m with rnd := .rz },
      .ffrac v2 .f32 { m with sat := true }, .fdot2 v2 .f32 m, .cvt v2 .s32 .n32 .rz false, .cvt v2 .s32 .f32 .rz true, .pack v2 .b16 .rp,
      .sadd v2 .s16 false, .sand v2 .s32, .scmp v2 .b64 .ge, .lred v2 .and .s32, .lred v2 .fadd .n32, .bra x0, .brx { x0 with ext := e128, a := .v 2 },
      .ld { v2 with ext := e128 } .b32 false .none, .st v2 .s8 false .none, .atoms v2 .b32 .add, .atoms v2 .b128 .exch, .spstat v2 5, .stsRem v2 .s16 false 0 false,
      .stsRem { v2 with ext := .e128 0 0x20 } .b32 false 0 false, .stsRemArr { x0 with ext := .e128 0 0x20 } false 0 false, .red v2 .b32 .exch .none, .red v2 .n32 .add .acq, .waitcmp v2 .f32 .eq, .waitcmp v2 .b32 .lt,
      .fence x0 6, .barr { x0 with ext := e128 } 0, .cpy v2 1 true false, .bkAdd v2 .b8 .rn, .bkAdd v2 .s32 .rz, .bkFma v2 .s32 .rn, .bkRed v2 .f16 .rn .add,
      .bkFill v2 .f32, .mma x0 0 0 0, .mma { x0 with ext := .e128 0x80 0 } 0 0 0, .mma { x0 with ext := .e128 0 1 } 0 0 0, .obrel { x0 with ext := e128 } 0,
      .wqPull { x0 with ext := e128 } 0 false 0, .lqStat { x0 with ext := e128 }, .snuff { x0 with ext := e128 }, .sysrd x0 0x013, .tret { x0 with ext := e128 }] : List Instr).all (fun i => !i.formOk && !i.wf) = true := by decide +kernel

/-- No check of an operand field lets these through (R18, R19, R21, R23). -/
theorem test_operandsOk_refuses :
    let v2 : Opnds := { x0 with d := .v 2, a := .v 4, b := .v 6 }
    ([.iadd { v2 with d := .s 2 } .s32 false, .iadd { v2 with d := .v 3 } .s64 false, .iadd { v2 with b := .v 5 } .s64 false, .iadd { v2 with a := .j 1 } .s32 false,
      .iadd { v2 with c := .v 1 } .s32 false, .iadd { v2 with b := .imm 0 } .s32 false, .iadd { v2 with ext := .e96 1, b := .imm 1 } .s32 false,
      .iadd { v2 with ext := .e128 1 2, a := .imm 2 } .s32 false, .mov { v2 with d := .v 2, b := .null } .b128, .mov { x0 with d := .v 4, a := .inline 1 } .b128,
      .icmp { v2 with d := .s 1 } .s32 .eq, .sadd { v2 with d := .s 2 } .s32 false, .scbdCnt x0, .ballot { x0 with d := .s 2, a := .p 1 },
      .bra { x0 with ext := .e96 2 }, .jenr x0, .ld { x0 with d := .v 1, a := .s 3 } .b32 false .none, .ld { x0 with ext := .e96 0, d := .v 1, a := .imm 0 } .b32 false .none,
      .st { x0 with c := .inline 1 } .b128 false .none, .atom { x0 with d := .v 1, c := .inline 1 } .b32 .cas .none, .atom { x0 with d := .v 1, c := .v 3 } .b32 .cas .none,
      .atoms { x0 with d := .v 1, a := .s 3, b := .v 1 } .n32 .add, .waitcmp { x0 with d := .v 1, a := .s 2, b := .s 1 } .n32 .eq, .fmtSet { x0 with a := .v 1 } 0,
      .bwaitt { x0 with d := .v 1, a := .p 1, b := .s 1 } 0, .cpy { x0 with a := .s 2, b := .s 1, c := .s 6 } 0 false false, .bkAdd { x0 with a := .s 4, b := .s 1 } .f32 .rn,
      .obres { x0 with a := .s 2 } 0, .mma { x0 with ext := .e128 0 0, a := .v 1 } 0 0 0, .wqPush { x0 with a := .inline 1 } 0 false 0, .keyhRev { x0 with a := .inline 1 },
      .faultRdSeq { x0 with d := .s 56 }, .migAckTake { x0 with d := .s 4 }, .sysrd { x0 with d := .v 3 } 0, .nop { x0 with d := .v 0 }] : List Instr).all
      (fun i => i.formOk && !i.operandsOk && !i.wf) = true := by decide +kernel

/-! ### Words written out from the encodings of the spec: R13, R17, R19, R25 and each entry -/

/-- Operand fields by name. -/
def op (d : Dst) (a b c : Src) (e : Ext) : Opnds := { g := g7, ext := e, d := d, a := a, b := b, c := c }

/-- A first doubleword and the extension bits above it decode to an instruction. -/
def reads (w e : Nat) (i : Instr) : Bool := decode (leBytes 16 (w + 2 ^ 64 * e)) == .ok i

/-- Each instruction of the family, from its `fn` layout and its operand fields. -/
theorem word_integer :
    reads 0x000FFBFEFFFFDC00 0x0 (.nop (op .discard .null .null .null .e64))
    && reads 0x022FFA0E03015C04 0x0 (.iadd (op (.v 5) (.v 6) (.s 7) .null .e64) .n32 true)
    && reads 0x004FFA1003011C08 0x0 (.isub (op (.v 4) (.v 6) (.s 8) .null .e64) .s64 false)
    && reads 0x00AFFC0601005C0C 0x0 (.imul (op (.v 1) (.v 2) (.inline 3) .null .e64) .n16 false)
    && reads 0x006FF80C02009C10 0x0 (.imulhi (op (.v 2) (.v 4) (.v 6) .null .e64) .n64)
    && reads 0x02C0200601005C14 0x0 (.imad (op (.v 1) (.v 2) (.v 3) (.v 4) .e64) .s8 true)
    && reads 0x008FF806A1005C18 0x0 (.imin (op (.v 1) (.p 2) (.v 3) .null .e64) .s16)
    && reads 0x00EFF9FC9F805C1C 0x0 (.imax (op (.v 1) (.s 63) (.v 254) .null .e64) .n8)
    && reads 0x020FFBFE01005C20 0x0 (.iabs (op (.v 1) (.v 2) .null .null .e64) .s32 true)
    && reads 0x004FFBFE02009C24 0x0 (.ineg (op (.v 2) (.v 4) .null .null .e64) .s64 false)
    && reads 0x050FF80601005C28 0x0 (.shl (op (.v 1) (.v 2) (.v 3) .null .e64) .b32 true)
    && reads 0x012FF80602009C2C 0x0 (.shr (op (.v 2) (.v 4) (.v 3) .null .e64) .b64 false)
    && reads 0x044FF80602009C30 0x0 (.sar (op (.v 2) (.v 4) (.v 3) .null .e64) .s64 true)
    && reads 0x010FF80601005C34 0x0 (.rot (op (.v 1) (.v 2) (.v 3) .null .e64) .b32)
    && reads 0x012FF80C02009C38 0x0 (.and (op (.v 2) (.v 4) (.v 6) .null .e64) .b64)
    && reads 0x010FFE0001005C3D 0x12345678 (.or (op (.v 1) (.v 2) (.imm 0) .null (.e96 0x12345678)) .b32)
    && reads 0x010FFE0380005C42 0x2200000011 (.xor (op (.v 1) (.imm 0) (.imm 1) .null (.e128 0x11 0x22)) .b32)
    && reads 0x010FFBFE01005C44 0x0 (.not (op (.v 1) (.v 2) .null .null .e64) .b32)
    && reads 0xEA20400C02009C48 0x0 (.lut3 (op (.v 2) (.v 4) (.v 6) (.v 8) .e64) true 0xEA)
    && reads 0x012FFBFE01005C4C 0x0 (.popc (op (.v 1) (.v 2) .null .null .e64) .b64)
    && reads 0x010FFBFE01005C50 0x0 (.clz (op (.v 1) (.v 2) .null .null .e64) .b32)
    && reads 0x012FFBFE02009C54 0x0 (.brev (op (.v 2) (.v 4) .null .null .e64) .b64)
    && reads 0x0010440801005C58 0x0 (.bfe (op (.v 1) (.v 2) (.inline 4) (.inline 8) .e64) .s32)
    && reads 0x0120300A02009C5C 0x0 (.bfi (op (.v 2) (.v 4) (.v 5) (.v 6) .e64) .b64)
    && reads 0x10AFF80400D0DC60 0x0 (.icmp (op (.p 3) (.v 1) (.v 2) .null .e64) .n16 .gt)
    && reads 0x012A000C02009C64 0x0 (.sel (op (.v 2) (.v 4) (.v 6) (.p 0) .e64) .b64)
    && reads 0x014FFBFE84011C68 0x0 (.mov (op (.v 4) (.s 8) .null .null .e64) .b128)
    && reads 0xA06FF80C02009C6C 0x0 (.iaddc (op (.v 2) (.v 4) (.v 6) .null .e64) .n64 5)
    && reads 0x182FF80A02009C70 0x0 (.lea (op (.v 2) (.v 4) (.v 5) .null .e64) .n32 6)
    && reads 0x0200300A02009C74 0x0 (.imadWide (op (.v 2) (.v 4) (.v 5) (.v 6) .e64) .s32 true)
    && reads 0x0100200601005C78 0x0 (.prmt (op (.v 1) (.v 2) (.v 3) (.v 4) .e64))
    && reads 0x02E0200601005C7C 0x0 (.isad (op (.v 1) (.v 2) (.v 3) (.v 4) .e64) .n8 true) := by decide +kernel

/-- Each instruction of the family, from its `fn` layout and its operand fields. -/
theorem word_float :
    reads 0x210FF80601005C80 0x0 (.fadd (op (.v 1) (.v 2) (.v 3) .null .e64) .f32 { rnd := .rz, sat := false, absa := false, nega := false, negb := true, negc := false })
    && reads 0x022FF80601005C84 0x0 (.fsub (op (.v 1) (.v 2) (.v 3) .null .e64) .f16 { rnd := .rm, sat := false, absa := false, nega := false, negb := false, negc := false })
    && reads 0x134FF80601005C88 0x0 (.fmul (op (.v 1) (.v 2) (.v 3) .null .e64) .bf16 { rnd := .rp, sat := false, absa := false, nega := true, negb := false, negc := false })
    && reads 0x4060200601005C8C 0x0 (.ffma (op (.v 1) (.v 2) (.v 3) (.v 4) .e64) .f16x2 { rnd := .rn, sat := false, absa := false, nega := false, negb := false, negc := true })
    && reads 0x008FF80601005C90 0x0 (.fmin (op (.v 1) (.v 2) (.v 3) .null .e64) .bf16x2 { rnd := .rn, sat := false, absa := false, nega := false, negb := false, negc := false })
    && reads 0x080FF80601005C94 0x0 (.fmax (op (.v 1) (.v 2) (.v 3) .null .e64) .f32 { rnd := .rn, sat := false, absa := true, nega := false, negb := false, negc := false })
    && reads 0x000FFBFE01005C9C 0x0 (.frcp (op (.v 1) (.v 2) .null .null .e64) .f32 { rnd := .rn, sat := false, absa := false, nega := false, negb := false, negc := false })
    && reads 0x000FFBFE01005CA0 0x0 (.frsq (op (.v 1) (.v 2) .null .null .e64) .f32 { rnd := .rn, sat := false, absa := false, nega := false, negb := false, negc := false })
    && reads 0x000FFBFE01005CA4 0x0 (.fsqrt (op (.v 1) (.v 2) .null .null .e64) .f32 { rnd := .rn, sat := false, absa := false, nega := false, negb := false, negc := false })
    && reads 0x040FFBFE01005CA8 0x0 (.fex2 (op (.v 1) (.v 2) .null .null .e64) .f32 { rnd := .rn, sat := true, absa := false, nega := false, negb := false, negc := false })
    && reads 0x000FFBFE01005CAC 0x0 (.flg2 (op (.v 1) (.v 2) .null .null .e64) .f32 { rnd := .rn, sat := false, absa := false, nega := false, negb := false, negc := false })
    && reads 0x000FFBFE01005CB0 0x0 (.fsin (op (.v 1) (.v 2) .null .null .e64) .f32 { rnd := .rn, sat := false, absa := false, nega := false, negb := false, negc := false })
    && reads 0x100FFBFE01005CB4 0x0 (.fcos (op (.v 1) (.v 2) .null .null .e64) .f32 { rnd := .rn, sat := false, absa := false, nega := true, negb := false, negc := false })
    && reads 0x000FF80601005CB8 0x0 (.fdiv (op (.v 1) (.v 2) (.v 3) .null .e64) .f32 { rnd := .rn, sat := false, absa := false, nega := false, negb := false, negc := false })
    && reads 0x000FFBFE01005CBC 0x0 (.ffrac (op (.v 1) (.v 2) .null .null .e64) .f32 { rnd := .rn, sat := false, absa := false, nega := false, negb := false, negc := false })
    && reads 0x030FFBFE01005CC0 0x0 (.fround (op (.v 1) (.v 2) .null .null .e64) .f32 { rnd := .rp, sat := false, absa := false, nega := false, negb := false, negc := false })
    && reads 0x000FF80601005CC8 0x0 (.fscale (op (.v 1) (.v 2) (.v 3) .null .e64) .f32 { rnd := .rn, sat := false, absa := false, nega := false, negb := false, negc := false })
    && reads 0x0060200601005CCC 0x0 (.fdot2 (op (.v 1) (.v 2) (.v 3) (.v 4) .e64) .f16x2 { rnd := .rn, sat := false, absa := false, nega := false, negb := false, negc := false })
    && reads 0x0A2FF80601505C98 0x0 (.fcmp (op (.p 1) (.v 2) (.v 3) .null .e64) .f16 .lt true false)
    && reads 0x004FFC1201505CC4 0x0 (.fclass (op (.p 1) (.v 2) (.inline 9) .null .e64) .bf16)
    && reads 0x300FFBFE01005D00 0x0 (.cvt (op (.v 1) (.v 2) .null .null .e64) .s32 .f32 .rz false)
    && reads 0x5060200601005D04 0x0 (.cvtNfEnc (op (.v 1) (.v 2) (.v 3) (.v 4) .e64) 3 .f32 true 2)
    && reads 0xAA6FFBFE01005D04 0x0 (.cvtNfDec (op (.v 1) (.v 2) .null .null .e64) 3 .bf16 false 5)
    && reads 0x09CFFC1201005D08 0x0 (.cvtNfb (op (.v 1) (.v 2) (.inline 9) .null .e64) .b32 3 .f16)
    && reads 0x0E6FF80601005D0C 0x0 (.unpkNf (op (.v 1) (.v 2) (.v 3) .null .e64) 3 true true 1)
    && reads 0x00EFFBFE82FFDD10 0x0 (.fmtSet (op .discard (.s 5) .null .null .e64) 7)
    && reads 0x00EFFBFEFFC15D14 0x0 (.fmtGet (op (.s 5) .null .null .null .e64) 7)
    && reads 0x000FFBFEFF815D18 0x0 (.flagsGet (op (.v 5) .null .null .null .e64))
    && reads 0x000FFBFE02FFDD1C 0x0 (.flagsClr (op .discard (.v 5) .null .null .e64))
    && reads 0x016FF80601005D20 0x0 (.pack (op (.v 1) (.v 2) (.v 3) .null .e64) .f16x2 .rz)
    && reads 0x012FFBFE01005D24 0x0 (.unpack (op (.v 1) (.v 2) .null .null .e64) true .s16) := by decide +kernel

/-- Each instruction of the family, from its `fn` layout and its operand fields. -/
theorem word_uniform :
    reads 0x020FFC0681405D40 0x0 (.sadd (op (.s 1) (.s 2) (.inline 3) .null .e64) .s32 true)
    && reads 0x006FFA0C82409D44 0x0 (.ssub (op (.s 2) (.s 4) (.s 6) .null .e64) .n64 false)
    && reads 0x002FFA8681405D48 0x0 (.smul (op (.s 1) (.s 2) (.p 3) .null .e64) .n32 false)
    && reads 0x010FFA0681405D4C 0x0 (.sand (op (.s 1) (.s 2) (.s 3) .null .e64) .b32)
    && reads 0x012FFA0C82409D50 0x0 (.sor (op (.s 2) (.s 4) (.s 6) .null .e64) .b64)
    && reads 0x010FFA0681405D54 0x0 (.sxor (op (.s 1) (.s 2) (.s 3) .null .e64) .b32)
    && reads 0x050FFA0681405D58 0x0 (.sshl (op (.s 1) (.s 2) (.s 3) .null .e64) .b32 true)
    && reads 0x092FFA0682409D5C 0x0 (.sshr (op (.s 2) (.s 4) (.s 3) .null .e64) .b64 false true)
    && reads 0x084FFA0C82509D60 0x0 (.scmp (op (.p 2) (.s 4) (.s 6) .null .e64) .s64 .lt)
    && reads 0x012FFBFE82409D64 0x0 (.smov (op (.s 2) (.s 4) .null .null .e64) .b64)
    && reads 0x00AFFBFE82409D68 0x0 (.sld (op (.s 2) (.s 4) .null .null .e64) .b64)
    && reads 0x012FFBFE02409D6C 0x0 (.rfl (op (.s 2) (.v 4) .null .null .e64) true)
    && reads 0x000FFBFEA1411D70 0x0 (.ballot (op (.s 4) (.p 2) .null .null .e64))
    && reads 0x004FFBFE02505D74 0x0 (.agree (op (.p 1) (.v 4) .null .null .e64) .same)
    && reads 0x05C0340202009D78 0x0 (.xlane (op (.v 2) (.v 4) (.inline 1) (.v 6) .e64) .flip .w16 true)
    && reads 0x046FFBFE02009D7C 0x0 (.lred (op (.v 2) (.v 4) .null .null .e64) .max .n64) := by decide +kernel

/-- Each instruction of the family, from its `fn` layout and its operand fields. -/
theorem word_control :
    reads 0x000FFBFEFFFFDD81 0xFFFFFFF4 (.bra (op .discard .null .null .null (.e96 0xFFFFFFF4)))
    && reads 0x000FFBFE017FDD84 0x0 (.brx (op .discard (.v 2) .null .null .e64))
    && reads 0x000FFBFEFF809D89 0x40 (.call (op (.v 2) .null .null .null (.e96 0x40)))
    && reads 0x000FFBFE817FDD8C 0x0 (.ret (op .discard (.s 2) .null .null .e64))
    && reads 0x000FFBFEFFFFDD90 0x0 (.exit (op .discard .null .null .null .e64))
    && reads 0x000FFBFEFFD25D94 0x0 (.jenr (op (.j 1) .null .null .null .e64))
    && reads 0x002FFBFEFFD25D94 0x0 (.jenrSet (op (.j 1) .null .null .null .e64))
    && reads 0x000FFBFEFFD3DD98 0x0 (.jpark (op (.j 7) .null .null .null .e64))
    && reads 0x000FFBFEFFD21D9C 0x0 (.jstrike (op (.j 0) .null .null .null .e64))
    && reads 0x002FFBFEFFFFDD9C 0x0 (.jstrikeAll (op .discard .null .null .null .e64))
    && reads 0x000FFBFEFFFFDDA0 0x0 (.reform (op .discard .null .null .null .e64))
    && reads 0x000FFBFEFFFFDDA5 0x40 (.brd (op .discard .null .null .null (.e96 0x40)))
    && reads 0x000FFBFEFFFFDDA8 0x0 (.yield (op .discard .null .null .null .e64))
    && reads 0x1FEFFBFEFFFFDDAC 0x0 (.trap (op .discard .null .null .null .e64) 255)
    && reads 0x000FFBFEFFFFDDB0 0x0 (.brk (op .discard .null .null .null .e64))
    && reads 0x000FFBFE01FFDDB8 0x0 (.nap (op .discard (.v 3) .null .null .e64)) := by decide +kernel

/-- Each instruction of the family, from its `fn` layout and its operand fields. -/
theorem word_memory :
    reads 0x03AFF80282009DC0 0x0 (.ld (op (.v 2) (.s 4) (.v 1) .null .e64) .b64 true .nl1)
    && reads 0x04801802827FDDC5 0xFFFFFFF8 (.st (op .discard (.s 4) (.v 1) (.v 3) (.e96 0xFFFFFFF8)) .b32 false .lu)
    && reads 0x00CFF802FF811DC8 0x0 (.ldl (op (.v 4) .null (.v 1) .null .e64) .b128)
    && reads 0x00401802FFFFDDCC 0x0 (.stl (op .discard .null (.v 1) (.v 3) .e64) .n16)
    && reads 0x006FFBFE81405DD0 0x0 (.ldc (op (.s 1) (.s 2) .null .null .e64) .s16)
    && reads 0x020FFBFE817FDDD4 0x0 (.pref (op .discard (.s 2) .null .null .e64) false true)
    && reads 0x012FF80281011DE0 0x0 (.lds (op (.v 4) (.s 2) (.v 1) .null .e64) .s8 true)
    && reads 0x00C04002817FDDE4 0x0 (.sts (op .discard (.s 2) (.v 1) (.v 8) .e64) .b128 false)
    && reads 0x0790080C01011DE8 0x0 (.atoms (op (.v 4) (.v 2) (.v 6) (.inline 1) .e64) .b32 .cas)
    && reads 0x0A8FF80281011DEC 0x0 (.ldsRem (op (.v 4) (.s 2) (.v 1) .null .e64) .b32 false 1 true)
    && reads 0x02801804827FDDF0 0x0 (.stsRem (op .discard (.s 4) (.v 2) (.v 3) .e64) .b32 false 1 false)
    && reads 0x040FFBFEFFFFDDF2 0x3500000000 (.stsRemArr (op .discard .null .null .null (.e128 0x0 0x35)) false 2 false)
    && reads 0x006FFBFEFFC11DF4 0x0 (.spstat (op (.s 4) .null .null .null .e64) 3)
    && reads 0x1030080281011E00 0x0 (.atom (op (.v 4) (.s 2) (.v 1) (.inline 1) .e64) .n32 .add .acq)
    && reads 0x28C00BFE817FDE04 0x0 (.red (op .discard (.s 2) .null (.v 1) .e64) .f32 .fadd .rel)
    && reads 0x056FFC0281505E08 0x0 (.waitcmp (op (.p 1) (.s 2) (.inline 1) .null .e64) .n64 .ge)
    && reads 0x008FFBFEFFFFDE0C 0x0 (.fence (op .discard .null .null .null .e64) 4)
    && reads 0x002FFBFEFFFFDE10 0x0 (.pbar (op .discard .null .null .null .e64) true)
    && reads 0x000FFC02817FDE14 0x0 (.cleanR (op .discard (.s 2) (.inline 1) .null .e64))
    && reads 0x000FFA02817FDE18 0x0 (.invR (op .discard (.s 2) (.s 1) .null .e64))
    && reads 0x000FFA02817FDE1D 0x40 (.flushR (op .discard (.s 2) (.s 1) .null (.e96 0x40)))
    && reads 0x000FFBFEFF805E20 0x0 (.fhz (op (.v 1) .null .null .null .e64)) := by decide +kernel

/-- Each instruction of the family, from its `fn` layout and its operand fields. -/
theorem word_barrier :
    reads 0x026FFBFF007FDE40 0x0 (.bbind (op .discard (.inline 0) .null .null .e64) 3 true)
    && reads 0x006FFBFEFFFFDE44 0x0 (.bunbind (op .discard .null .null .null .e64) 3)
    && reads 0x006FFBFEFFFFDE48 0x0 (.barr (op .discard .null .null .null .e64) 3)
    && reads 0x01EFFBFE827FDE4C 0x0 (.barrb (op .discard (.s 4) .null .null .e64) 15)
    && reads 0x004FFBFEA0FFDE50 0x0 (.bwait (op .discard (.p 1) .null .null .e64) 2)
    && reads 0x004FFBFEFF805E54 0x0 (.btest (op (.v 1) .null .null .null .e64) 2)
    && reads 0x004FFA0900D05E58 0x0 (.bwaitt (op (.p 1) (.inline 1) (.s 4) .null .e64) 2)
    && reads 0x000FFBFEFFFFDE5C 0x0 (.bblk (op .discard .null .null .null .e64))
    && reads 0x064FFBFF10FFDE60 0x0 (.bexp (op .discard (.inline 33) .null .null .e64) 2 true true)
    && reads 0x048FFBFEFFFFDE64 0x0 (.ringBind (op .discard .null .null .null .e64) 4 2)
    && reads 0x008FFBFEFFC05E68 0x0 (.ringAcq (op (.s 1) .null .null .null .e64) 4)
    && reads 0x008FFBFF807FDE6D 0x1000 (.ringPut (op .discard (.imm 0) .null .null (.e96 0x1000)) 4)
    && reads 0x008FFBFEFF805E70 0x0 (.ringGet (op (.v 1) .null .null .null .e64) 4)
    && reads 0x008FFBFEFFFFDE74 0x0 (.ringRel (op .discard .null .null .null .e64) 4) := by decide +kernel

/-- Each instruction of the family, from its `fn` layout and its operand fields. -/
theorem word_copy :
    reads 0x04A84400817FDE80 0x0 (.cpy (op .discard (.s 2) (.inline 0) (.s 8) .e64) 5 false true)
    && reads 0x12084400817FDE84 0x0 (.cpyX (op .discard (.s 2) (.inline 0) (.s 8) .e64) 0 true .s8)
    && reads 0x0CA84202817FDE88 0x0 (.cpyC (op .discard (.s 2) (.s 1) (.s 8) .e64) 5 false .f16)
    && reads 0x00083408817FDE8C 0x0 (.cpyGl (op .discard (.s 2) (.inline 4) (.s 6) .e64))
    && reads 0x02084008017FDE90 0x0 (.cpyFan (op .discard (.v 2) (.v 4) (.s 8) .e64) 0 true)
    && reads 0x000FFBFE82FFDE94 0x0 (.publ (op .discard (.s 5) .null .null .e64))
    && reads 0x002FFBFE82FFDE94 0x0 (.publDrop (op .discard (.s 5) .null .null .e64))
    && reads 0x000FFBFEFFC15E98 0x0 (.scbdCnt (op (.s 5) .null .null .null .e64))
    && reads 0x002FFBFE00815E98 0x0 (.scbdQ (op (.v 5) (.v 1) .null .null .e64))
    && reads 0x004FFBFEFFFFDE98 0x0 (.scbdWait (op .discard .null .null .null .e64))
    && reads 0x000FFE0081415E9D 0x2000 (.shdwOpen (op (.s 5) (.s 2) (.imm 0) .null (.e96 0x2000)))
    && reads 0x000FFBFE817FDEA0 0x0 (.cpySealEnc (op .discard (.s 2) .null .null .e64))
    && reads 0x002FFBFE817FDEA0 0x0 (.cpySealDec (op .discard (.s 2) .null .null .e64))
    && reads 0x004FFE00887FDEC1 0x800 (.bkAdd (op .discard (.s 16) (.imm 0) .null (.e96 0x800)) .bf16 .rn)
    && reads 0x006FFC08847FDEC4 0x0 (.bkMul (op .discard (.s 8) (.inline 4) .null .e64) .s32 .rn)
    && reads 0x032FFC08847FDEC8 0x0 (.bkFma (op .discard (.s 8) (.inline 4) .null .e64) .f16 .rp)
    && reads 0x080FFC08847FDECC 0x0 (.bkRed (op .discard (.s 8) (.inline 4) .null .e64) .f32 .rn .max)
    && reads 0x01080C08847FDED0 0x0 (.bkScale (op .discard (.s 8) (.inline 4) (.s 1) .e64) .f32 .rz)
    && reads 0x146FFC08847FDED4 0x0 (.bkCmp (op .discard (.s 8) (.inline 4) .null .e64) .s32 .rn .ge)
    && reads 0x000FFBFEFFC0DED8 0x0 (.bkWait (op (.s 3) .null .null .null .e64))
    && reads 0x00D00C08847FDEDC 0x0 (.bkFill (op .discard (.s 8) (.inline 4) (.inline 1) .e64) .b8) := by decide +kernel

/-- Each instruction of the family, from its `fn` layout and its operand fields. -/
theorem word_matrix :
    reads 0x006FFBFE827FDF00 0x0 (.obres (op .discard (.s 4) .null .null .e64) 3)
    && reads 0x006FFBFEFFFFDF04 0x0 (.obrel (op .discard .null .null .null .e64) 3)
    && reads 0x006FFBFEFFFFDF08 0x0 (.obld (op .discard .null .null .null .e64) 3)
    && reads 0x016FFBFE827FDF08 0x0 (.obldX (op .discard (.s 4) .null .null .e64) 3)
    && reads 0x06AFFA03007FDF0E 0x3F04 (.mma (op .discard (.inline 0) (.s 1) .null (.e128 0x3F04 0x0)) 1 2 3)
    && reads 0x768FFA03007FDF12 0x17F (.mmas (op .discard (.inline 0) (.s 1) .null (.e128 0x17F 0x0)) 0 2 3 7)
    && reads 0x006FFBFEFFFFDF14 0x0 (.accZero (op .discard .null .null .null .e64) 1 true)
    && reads 0xFEB00002817FDF18 0x0 (.accLd (op .discard (.s 2) (.v 1) (.inline 0) .e64) 1 .raw 127)
    && reads 0x0F500002817FDF1C 0x0 (.accSt (op .discard (.s 2) (.v 1) (.inline 0) .e64) 0 .bf16 true 7)
    && reads 0x00EFFBFEFF805F20 0x0 (.accStat (op (.v 1) .null .null .null .e64) 1 3)
    && reads 0x002FFBFE00FFDF24 0x0 (.accRenorm (op .discard (.v 1) .null .null .e64) 1)
    && reads 0x002FFC06017FDF28 0x0 (.accTmask (op .discard (.v 2) (.inline 3) .null .e64) 1)
    && reads 0x000FFBFF10FFDF2C 0x0 (.accScale (op .discard (.inline 33) .null .null .e64) 0)
    && reads 0x1FCFFBFF00005F30 0x0 (.accRmax (op (.v 1) (.inline 0) .null .null .e64) 0 127)
    && reads 0x002FFBFF027FDF34 0x0 (.accMode (op .discard (.inline 4) .null .null .e64) 1) := by decide +kernel

/-- Each instruction of the family, from its `fn` layout and its operand fields. -/
theorem word_queue :
    reads 0x0048300801505F40 0x0 (.conftest (op (.p 1) (.v 2) (.v 4) (.s 6) .e64) 2)
    && reads 0x004FFBFEFFC05F44 0x0 (.bkfill (op (.s 1) .null .null .null .e64) 2)
    && reads 0x024FFBFE81405F44 0x0 (.bkfillReg (op (.s 1) (.s 2) .null .null .e64) 2)
    && reads 0x004FFBFE81405F48 0x0 (.bkwait (op (.s 1) (.s 2) .null .null .e64) 2)
    && reads 0x37EFFBFE017FDF4C 0x0 (.wqPush (op .discard (.v 2) .null .null .e64) 31 true 6)
    && reads 0x086FFBFEFFC21F50 0x0 (.wqPull (op (.s 8) .null .null .null .e64) 3 false 1)
    && reads 0x006FFBFEFFC21F54 0x0 (.wqStatCnt (op (.s 8) .null .null .null .e64) 3)
    && reads 0x046FFBFEFFC21F54 0x0 (.wqStatClose (op (.s 8) .null .null .null .e64) 3)
    && reads 0x086FFBFEFFC21F54 0x0 (.wqStatOpen (op (.s 8) .null .null .null .e64) 3)
    && reads 0x000FFBFE82409F80 0x0 (.launch (op (.s 2) (.s 4) .null .null .e64) 0)
    && reads 0x02AFFBFE82409F80 0x0 (.launchArr (op (.s 2) (.s 4) .null .null .e64) 5)
    && reads 0x000FFBFF80411F85 0xFFFFFFFF (.lqStat (op (.s 4) (.imm 0) .null .null (.e96 0xFFFFFFFF))) := by decide +kernel

/-- Each instruction of the family, from its `fn` layout and its operand fields. -/
theorem word_system :
    reads 0x000FFBFE81421F88 0x0 (.leaseQStat (op (.s 8) (.s 2) .null .null .e64))
    && reads 0x002FFC1281421F88 0x0 (.leaseQWait (op (.s 8) (.s 2) (.inline 9) .null .e64))
    && reads 0x004FFBFE81421F88 0x0 (.leaseQRel (op (.s 8) (.s 2) .null .null .e64))
    && reads 0x008FFBFEFFC29F8C 0x0 (.keyhGen (op (.s 10) .null .null .null .e64) .ide)
    && reads 0x012FFBFE81429F8C 0x0 (.keyhImp (op (.s 10) (.s 2) .null .null .e64) .mem)
    && reads 0x004FFBFE81C29F8C 0x0 (.keyhRev (op (.s 10) (.s 3) .null .null .e64))
    && reads 0x006FFBFF80429F8D 0x10000 (.keyhQry (op (.s 10) (.imm 0) .null .null (.e96 0x10000)))
    && reads 0x000FFBFEFFC21F90 0x0 (.migAckTake (op (.s 8) .null .null .null .e64))
    && reads 0x002FFBFE86401F90 0x0 (.migAckRearm (op (.s 0) (.s 12) .null .null .e64))
    && reads 0x004FFBFE86401F90 0x0 (.migAckQuiet (op (.s 0) (.s 12) .null .null .e64))
    && reads 0x006FFBFEFF811FC0 0x0 (.sysrd (op (.v 4) .null .null .null .e64) 3)
    && reads 0x006FFBFE827FDFC4 0x0 (.syswr (op .discard (.s 4) .null .null .e64) 3)
    && reads 0x000FFBFEFFFFDFC8 0x0 (.tret (op .discard .null .null .null .e64))
    && reads 0x002FFBFEFFFFDFC8 0x0 (.tretNext (op .discard .null .null .null .e64))
    && reads 0x004FFBFEFFFFDFC8 0x0 (.tretStrike (op .discard .null .null .null .e64))
    && reads 0x000FFBFEFFFFDFCC 0x0 (.presig (op .discard .null .null .null .e64))
    && reads 0x0FEFFBFEFF811FD0 0x0 (.oplogRd (op (.v 4) .null .null .null .e64) 7 15)
    && reads 0x000FFBFF00421FD4 0x0 (.faultRdSeq (op (.s 8) (.inline 0) .null .null .e64))
    && reads 0x002FFBFF00421FD4 0x0 (.faultRdTake (op (.s 8) (.inline 0) .null .null .e64))
    && reads 0x004FFBFEFFC21FD4 0x0 (.faultRdFree (op (.s 8) .null .null .null .e64))
    && reads 0x004FFA0500C21FD8 0x0 (.faultCancel (op (.s 8) (.inline 1) (.s 2) .null .e64) .core)
    && reads 0x00683208817FDFE4 0x0 (.tlbinv (op .discard (.s 2) (.s 4) (.s 6) .e64) .va)
    && reads 0x000FFBFF01411FDC 0x0 (.diectlReset (op (.s 4) (.inline 2) .null .null .e64))
    && reads 0x002FFBFF01419FDC 0x0 (.diectlStat (op (.s 6) (.inline 2) .null .null .e64))
    && reads 0x0008340281411FE0 0x0 (.snuff (op (.s 4) (.s 2) (.inline 1) (.s 6) .e64))
    && reads 0x000FFBFEFFFFDFE8 0x0 (.haltOff (op .discard .null .null .null .e64))
    && reads 0x002FFBFEFFFFDFE8 0x0 (.haltReboot (op .discard .null .null .null .e64)) := by decide +kernel

/-! ### One step on a small state: expected values are the spec's or worked out by hand from its rules -/

/-- The state after an instruction. -/
def run (i : Instr) (s : State) : State := match exec i s with
  | .next t => t
  | _ => State.reset

/-- A vector register of a thread after an instruction. -/
def after (i : Instr) (s : State) (t n : Nat) : Nat := (((run i s).blk 0).thr t).vreg n |>.toNat

/-- v1, v2, v3 hold three values in every lane; the result goes to v4. -/
def three (a b c : Nat) : State := vregs [(1, a), (2, b), (3, c)] base

/-- Operands d = v4, a = v1, b = v2, c = v3. -/
def abc : Opnds := { x0 with d := .v 4, a := .v 1, b := .v 2, c := .v 3 }
/-- The same without c. -/
def ab : Opnds := { abc with c := .null }
/-- The same without b and c. -/
def aOnly : Opnds := { ab with b := .null }
/-- No modifier (R81). -/
def plain : FMods := { rnd := .rn, sat := false, absa := false, nega := false, negb := false, negc := false }

/-- R79: wrapping, saturation, shifts by the width, the carry, byte selection and bit fields. -/
theorem test_integer :
    after (.iadd ab .n32 false) (three 0xFFFFFFFF 2 0) 0 4 = 1 ∧ after (.iadd ab .s32 true) (three 0x7FFFFFFF 1 0) 1 4 = 0x7FFFFFFF
    ∧ after (.isub ab .n32 true) (three 1 2 0) 0 4 = 0 ∧ after (.imulhi ab .s32) (three 0xFFFFFFFF 2 0) 0 4 = 0xFFFFFFFF
    ∧ after (.imad abc .n32 false) (three 3 4 5) 0 4 = 17 ∧ after (.iabs aOnly .s32 true) (three 0x80000000 0 0) 0 4 = 0x7FFFFFFF
    ∧ after (.shl ab .b32 true) (three 1 32 0) 0 4 = 0 ∧ after (.shl ab .b32 false) (three 1 33 0) 0 4 = 2
    ∧ after (.sar ab .s32 true) (three 0x80000000 40 0) 0 4 = 0xFFFFFFFF ∧ after (.rot ab .b32) (three 0x80000001 1 0) 0 4 = 3
    ∧ after (.lut3 abc false 0xEA) (three 1 6 3) 0 4 = 3 ∧ after (.clz aOnly .b32) (three 0 0 0) 0 4 = 32
    ∧ after (.brev aOnly .b32) (three 1 0 0) 0 4 = 0x80000000 ∧ after (.bfe abc .s32) (three 0xF0 4 4) 0 4 = 0xFFFFFFFF
    ∧ after (.bfi abc .b32) (three 0xAB 0x0804 0x11111111) 0 4 = 0x11111AB1 ∧ after (.prmt abc) (three 0x44332211 0 0x0123) 0 4 = 0x11223344
    ∧ after (.isad abc .n32 false) (three 3 10 1) 0 4 = 8
    ∧ after (.iaddc { ab with d := .v 4 } .n32 7) (three 0xFFFFFFFF 0 0) 0 4 = 0
    ∧ (((run (.iaddc ab .n32 2) (three 0xFFFFFFFF 1 0)).blk 0).thr 0).p = 4
    ∧ (((run (.icmp { ab with d := .p 3 } .s32 .lt) (three 0xFFFFFFFF 1 0)).blk 0).thr 0).p = 8 := by decide +kernel

/-- R55, R82, R85: IEEE 754 results, the canonical NaN and the flags (R69). -/
theorem test_float :
    after (.fadd ab .f32 plain) (three 0x3F800000 0x40000000 0) 0 4 = 0x40400000
    ∧ after (.ffma abc .f32 plain) (three 0x40000000 0x40400000 0x40800000) 0 4 = 0x41200000
    ∧ after (.fdiv ab .f32 plain) (three 0x3F800000 0x40400000 0) 0 4 = 0x3EAAAAAB ∧ after (.fsqrt aOnly .f32 plain) (three 0x40800000 0 0) 0 4 = 0x40000000
    ∧ after (.fadd ab .f32 plain) (three 0x7F800000 0xFF800000 0) 0 4 = 0x7FC00000
    ∧ (((run (.fadd ab .f32 plain) (three 0x7F800000 0xFF800000 0)).blk 0).thr 0).nflags.getLsbD 0 = true
    ∧ after (.fex2 aOnly .f32 plain) (three 0x40400000 0 0) 0 4 = 0x41000000 ∧ after (.cvt aOnly .s32 .f32 .rz false) (three 0xC0200000 0 0) 0 4 = 0xFFFFFFFE
    ∧ after (.cvt aOnly .s32 .f32 .rz false) (three 0x7FC00000 0 0) 0 4 = 0
    ∧ (((run (.fcmp { ab with d := .p 1 } .f32 .ne false false) (three 0x7FC00000 0 0)).blk 0).thr 0).p = 2 := by decide +kernel

/-- Eight lanes whose v1 holds 10 + i. -/
def eight : State := base.modBlk 0 fun b => { b with threads := (List.range 8).map fun k => (Thread.start 0x400000).setV 1 (.ofNat 32 (10 + k)) }

/-- The state about to issue for eight lanes. -/
def eightS : State := { eight with sel := { eight.sel with act := List.range 8 } }

/-- The example of R157. -/
theorem test_xlane :
    let x : Opnds := { x0 with d := .v 4, a := .v 1, b := .inline 3 }
    (List.range 8).map (after (.xlane x .rot .w8 false) eightS · 4) = [13, 14, 15, 16, 17, 10, 11, 12]
    ∧ (List.range 8).map (after (.xlane x .flip .w8 false) eightS · 4) = [13, 12, 11, 10, 17, 16, 15, 14] := by decide +kernel

/-- R155, R158: a bit for each executing lane with a nonzero operand; a sum over lanes. -/
theorem test_crossLane :
    ((run (.ballot { x0 with d := .s 4, a := .v 1 }) eightS).sreg 4).toNat = 0xFF
    ∧ after (.lred { x0 with d := .v 4, a := .v 1 } .add .n32) eightS 7 4 = 108 := by decide +kernel

/-- R104, R161: a byte loaded and extended; a stored word is read back; a scratchpad word. -/
theorem test_memory :
    let s := (sregs [(2, 0x401000)] base).poke 0x10000 0x80
    let st := run (.st { x0 with ext := .e96 8, a := .s 2, c := .inline 33 } .b32 false .none) s
    let sts := run (.sts { x0 with a := .s 4, c := .inline 33 } .b32 false) s
    after (.ld { x0 with d := .v 4, a := .s 2 } .s8 false .none) s 0 4 = 0xFFFFFF80
    ∧ after (.ld { x0 with ext := .e96 8, d := .v 4, a := .s 2 } .b32 false .none) { st with sel := s.sel } 0 4 = 0xFFFFFFFF
    ∧ ((sts.core 0).scratch.raw ((sts.blk 0).word 0)).toNat = 0xFFFFFFFF := by decide +kernel

/-- R94, R97, R109, R179: a branch, an exit, a trap taken by the handler and the return past it. -/
theorem test_control :
    let h := base.modBlk 0 fun b => { b with tvec := 0x400800 }
    let t := run (.trap x0 7) h
    let back := run (.tretNext x0) { t with sel := { h.sel with pc := 0x400800 } }
    (((run (.bra { x0 with ext := .e96 0xFFFFFFF8 }) base).blk 0).thr 0).pc = 0x3FFFF8
    ∧ (((run (.exit x0) base).blk 0).thr 0).status = .exited ∧ ((run (.exit x0) base).blk 0).state = .running
    ∧ ((t.blk 0).thr 0).pc = 0x400800 ∧ ((t.blk 0).thr 0).level = 2 ∧ ((t.blk 0).thr 0).epc = 0x400000
    ∧ field ((t.blk 0).thr 0).tcause.toNat 0 16 = 0x20 ∧ ((back.blk 0).thr 0).pc = 0x400008 ∧ ((back.blk 0).thr 0).level = 0 := by decide +kernel

/-- R166, R170: the last of two arrivals completes the phase. -/
theorem test_barrier :
    let t := run (.barr x0 0) bars
    (t.barAt 0 0).phase = true ∧ (t.barAt 0 0).pending = 2 ∧ (((run (.btest { x0 with d := .s 4 } 0) { t with sel := base.sel }).sreg 4)).toNat = 1 := by
  decide +kernel

/-- R329, R334, R357: two lanes pull the two oldest items; `.ide` keys need privilege. -/
theorem test_services :
    after (.wqPull { x0 with d := .v 4 } 3 false 1) owned 1 4 = 8
    ∧ ((run (.keyhGen { x0 with d := .s 10 } .ide) base).sreg 11).toNat = 4 := by decide +kernel

/-- Slots (R354), package time (R351) and the first fetch: `iadd.s32 v3, v1, 5` of R80's text. -/
theorem test_step :
    (match step (first 0x000FFC0A0080DC04) with
      | .next t => ((t.blk 0).thr 0).pc == 0x400008 && ((t.blk 0).thr 0).vreg 3 == 5
      | _ => false) = true
    ∧ (run .slotBoundary base).hub.time = 250 := by decide +kernel

/-- An instruction of each kind is ready on a block that issues. -/
theorem wit_InstructionFrames :
    let v : Opnds := { x0 with d := .v 4, a := .inline 0 }
    coreLocal (.accRmax v 0 127) = some (v, 1, true, false) ∧ base.ready (.accRmax v 0 127) = true
    ∧ coreLocal (.accZero x0 1 true) = some (x0, 0, false, true) ∧ base.ready (.accZero x0 1 true) = true
    ∧ base.cb.state.issues = true := by decide +kernel

end Sys2Proof.Tests
end

namespace Sys2Proof.Machine

/-- Memory in its canonical form: addresses in rising order, and no byte that reads as the default (R6, R347). -/
def State.MemWf (s : State) : Prop := s.mem.wf = true

/-- A next state, where there is one, has its memory in canonical form. -/
def OptionWf (o : Option State) : Prop := ∀ t, o = some t → t.MemWf

/-- What an instruction or event leads to has its memory in canonical form. -/
def OutcomeWf (o : Host.Outcome State Fault Refusal) : Prop := ∀ t, o = .next t → t.MemWf

section
variable {s t : State} {α : Type}

theorem State.MemWf.of_mem (h : s.MemWf) (e : t.mem = s.mem) : t.MemWf := by
  unfold State.MemWf; rw [e]; exact h

/-- A record update that keeps the memory. -/
theorem State.MemWf.update {sel : Sel} {blocks : Sparse Block} {blockNext : ℕ} {cores : Sparse Core} {parts : Sparse Partition} {clusters : Sparse Cluster}
    {dies : Sparse Die} {hub : Hub} {poison : Sparse Unit} {grids : Sparse Grid} {gridNext : ℕ} {agenda : List Move} {evTurn : Bool} {evNext : ℕ}
    {clocked : List ℕ} {nextFree : ℕ} (h : s.MemWf) :
    State.MemWf { sel, blocks, blockNext, cores, parts, clusters, dies, hub, mem := s.mem, poison, grids, gridNext, agenda, evTurn, evNext, clocked, nextFree } := h

theorem State.MemWf.ite {c : Prop} [Decidable c] (h : s.MemWf) (g : t.MemWf) : (if c then s else t).MemWf := by
  split <;> assumption

/-- A condition decides whether a change is made. -/
theorem State.MemWf.ite_then {c : Prop} [Decidable c] (h : s.MemWf) (g : s.MemWf → t.MemWf) : (if c then t else s).MemWf := .ite (g h) h

/-- A condition decides whether a change is left out. -/
theorem State.MemWf.ite_else {c : Prop} [Decidable c] (h : s.MemWf) (g : s.MemWf → t.MemWf) : (if c then s else t).MemWf := .ite h (g h)

theorem State.MemWf.foldl {f : State → α → State} {l : List α} (h : s.MemWf) (hf : ∀ u e, u.MemWf → (f u e).MemWf) : (l.foldl f s).MemWf := by
  induction l generalizing s with
  | nil => exact h
  | cons e l ih => exact ih (hf s e h)

theorem State.MemWf.of_fst {p : State × α} {r : α} (h : p.1.MemWf) (e : p = (t, r)) : t.MemWf := by
  subst e; exact h

theorem foldl_fst_wf {β : Type} {f : State × β → α → State × β} {l : List α} {p : State × β} (h : p.1.MemWf)
    (hf : ∀ q e, q.1.MemWf → (f q e).1.MemWf) : (l.foldl f p).1.MemWf := by
  induction l generalizing p with
  | nil => exact h
  | cons e l ih => exact ih (hf p e h)

theorem OptionWf.of_some {o : Option State} (h : OptionWf o) (e : o = some t) : t.MemWf := h t e

theorem OptionWf.none : OptionWf none := fun _ e => nomatch e

theorem OptionWf.some (h : s.MemWf) : OptionWf (some s) := fun _ e => Option.some.inj e ▸ h

theorem OptionWf.getD {o : Option State} (h : OptionWf o) (hs : s.MemWf) : (o.getD s).MemWf := by
  cases o with
  | none => exact hs
  | some t => exact h t rfl

theorem OptionWf.map {o : Option State} {f : State → State} (h : OptionWf o) (hf : ∀ u : State, u.MemWf → (f u).MemWf) : OptionWf (o.map f) := by
  cases o with
  | none => exact OptionWf.none
  | some t => exact OptionWf.some (hf t (h t rfl))

theorem OptionWf.bind {o : Option State} {f : State → Option State} (h : OptionWf o) (hf : ∀ u : State, u.MemWf → OptionWf (f u)) : OptionWf (o.bind f) := by
  cases o with
  | none => exact OptionWf.none
  | some t => exact hf t (h t rfl)

theorem OptionWf.foldl {f : Option State → α → Option State} {l : List α} {o : Option State} (h : OptionWf o) (hf : ∀ u e, OptionWf u → OptionWf (f u e)) :
    OptionWf (l.foldl f o) := by
  induction l generalizing o with
  | nil => exact h
  | cons e l ih => exact ih (hf o e h)

theorem OptionWf.ite {c : Prop} [Decidable c] {o p : Option State} (h : OptionWf o) (g : OptionWf p) : OptionWf (if c then o else p) := by
  split <;> assumption

theorem OutcomeWf.of_next {o : Host.Outcome State Fault Refusal} (h : OutcomeWf o) (e : o = .next t) : t.MemWf := h t e

theorem OutcomeWf.next (h : s.MemWf) : OutcomeWf (.next s) := fun _ e => Host.Outcome.next.inj e ▸ h

theorem OutcomeWf.fault (r : Fault) : OutcomeWf (.fault r) := fun _ e => nomatch e

theorem OutcomeWf.refused (r : Refusal) : OutcomeWf (.refused r) := fun _ e => nomatch e

theorem OutcomeWf.ite {c : Prop} [Decidable c] {o p : Host.Outcome State Fault Refusal} (h : OutcomeWf o) (g : OutcomeWf p) : OutcomeWf (if c then o else p) := by
  split <;> assumption

end
end Sys2Proof.Machine

namespace Sys2Proof.Machine
section
variable {s t : State}

/-! ### Machine/Access.lean: updates of one part of the state -/

theorem State.MemWf.modBlk (h : s.MemWf) (n : ℕ) (f : Block → Block) : (s.modBlk n f).MemWf := h.update

theorem State.MemWf.modCore (h : s.MemWf) (c : ℕ) (f : Core → Core) : (s.modCore c f).MemWf := h.update

theorem State.MemWf.modPart (h : s.MemWf) (p : ℕ) (f : Partition → Partition) : (s.modPart p f).MemWf := h.update

theorem State.MemWf.modCluster (h : s.MemWf) (c : ℕ) (f : Cluster → Cluster) : (s.modCluster c f).MemWf := h.update

theorem State.MemWf.modDie (h : s.MemWf) (d : ℕ) (f : Die → Die) : (s.modDie d f).MemWf := h.update

theorem State.MemWf.modHub (h : s.MemWf) (f : Hub → Hub) : (s.modHub f).MemWf := h.update

theorem State.MemWf.modGrid (h : s.MemWf) (g : ℕ) (f : Grid → Grid) : (s.modGrid g f).MemWf := by
  unfold State.modGrid
  split
  · exact h.update
  · exact h

theorem State.MemWf.modPad (h : s.MemWf) (c : ℕ) (f : Scratchpad → Scratchpad) : (s.modPad c f).MemWf := h.modCore _ _

theorem State.MemWf.modCb (h : s.MemWf) (f : Block → Block) : (s.modCb f).MemWf := h.modBlk _ _

theorem State.MemWf.send (h : s.MemWf) (m : Sent) : (s.send m).MemWf := h.modHub _

theorem State.MemWf.draw (h : s.MemWf) : s.draw.1.MemWf := h.update

/-! ### Machine/Ops.lean: operations that instructions share -/

theorem State.MemWf.log (h : s.MemWf) (bid : ℕ) (e : JEntry) : (s.log bid e).MemWf := .ite h (.ite (h.modBlk _ _) (h.modBlk _ _))

theorem State.MemWf.logRegs (h : s.MemWf) (bid n span : ℕ) (ts : List ℕ) : (s.logRegs bid n span ts).MemWf :=
  h.foldl fun _ _ hu => hu.foldl fun _ _ hv => hv.log _ _

theorem State.MemWf.irrevoke (h : s.MemWf) (bid : ℕ) : (s.irrevoke bid).MemWf := h.modBlk _ _

theorem State.MemWf.padStore (h : s.MemWf) (bid : ℕ) (rs : List SpStore) : (s.padStore bid rs).MemWf :=
  (h.foldl (fun _ _ hu => hu.log _ _)).modPad _ _

theorem State.MemWf.padServe (h : s.MemWf) (b : Block) (reqs : List SpReq) (words : List ℕ) : (s.padServe b reqs words).1.MemWf := h.modPad _ _

theorem State.MemWf.setBar (h : s.MemWf) (bid a : ℕ) (r : BarRec) : (s.setBar bid a r).MemWf := h.padStore _ _

theorem State.MemWf.putBar (h : s.MemWf) (bid n : ℕ) (sl : Slot) (r : BarRec) : (s.putBar bid n sl r).MemWf := by
  unfold State.putBar
  refine .ite ?_ (h.setBar _ _ _)
  exact Memory.wf_foldl _ _ (fun _ _ hm => Memory.wf_setByte hm _ _) h

theorem State.MemWf.report (h : s.MemWf) (d : ℕ) (r : FbRec) : (s.report d r).MemWf := .ite (h.modDie _ _) (h.modDie _ _)

theorem State.MemWf.dropRequests (h : s.MemWf) (bid : ℕ) : (s.dropRequests bid).MemWf := h.foldl fun _ _ hu => .ite (hu.modCore _ _) hu

theorem State.MemWf.dropWaiters (h : s.MemWf) (bid : ℕ) : (s.dropWaiters bid).MemWf := h.modDie _ _

theorem State.MemWf.tidyMerges (h : s.MemWf) (cl : ℕ) : (s.tidyMerges cl).MemWf := .ite h (h.modCluster _ _)

theorem State.MemWf.releaseBlock (h : s.MemWf) (bid : ℕ) : (s.releaseBlock bid).MemWf :=
  ((((h.foldl (fun _ _ hu => hu.modPart _ _)).modCore _ _).dropRequests _).dropWaiters _).tidyMerges _

theorem State.MemWf.freeSwap (h : s.MemWf) (bid : ℕ) : (s.freeSwap bid).MemWf := h.foldl fun _ _ hu => .ite (hu.modCluster _ _) hu

theorem State.MemWf.freeBlock (h : s.MemWf) (bid : ℕ) : (s.freeBlock bid).MemWf := by
  unfold State.freeBlock
  exact (State.MemWf.freeSwap (.ite (h.modHub _) h) _).modDie _ _

theorem State.MemWf.endKilled (h : s.MemWf) (bid : ℕ) : (s.endKilled bid).MemWf := by
  unfold State.endKilled
  exact (((h.releaseBlock _).freeBlock _).modBlk _ _).modGrid _ _

theorem State.MemWf.kill (h : s.MemWf) (bid cause trig : ℕ) (addr : DWord) : (s.kill bid cause trig addr).MemWf := by
  unfold State.kill
  refine .ite h (.ite ((((((h.report _ _).modBlk _ _).modBlk _ _).modGrid _ _).dropWaiters _).dropRequests _) ?_)
  exact ((((h.report _ _).modBlk _ _).modBlk _ _).modGrid _ _).endKilled _

theorem State.MemWf.consume (h : s.MemWf) (bid trig : ℕ) (addr : DWord) : (s.consume bid trig addr).MemWf :=
  .ite h (.ite (h.kill _ _ _ _) (.ite (h.kill _ _ _ _) (h.modBlk _ _)))

theorem State.MemWf.barRead (h : s.MemWf) (bid a : ℕ) : (s.barRead bid a).1.MemWf := h.padServe _ _ _

theorem State.MemWf.barAccess (h : s.MemWf) (bid a : ℕ) (go : State → State) (hgo : ∀ u, u.MemWf → (go u).MemWf) : (s.barAccess bid a go).MemWf := by
  unfold State.barAccess
  refine .ite (hgo _ h) ?_
  split
  · exact ((h.barRead _ _).of_fst ‹_›).consume _ _ _
  · exact hgo _ ((h.barRead _ _).of_fst ‹_›)

theorem State.MemWf.barUpdate (h : s.MemWf) (bid n : ℕ) (f : BarRec → BarRec) (g : Slot → Slot) : (s.barUpdate bid n f g).MemWf := by
  unfold State.barUpdate
  dsimp only
  split
  · exact h
  · exact h.barAccess _ _ _ fun _ hu => .ite ((hu.putBar _ _ _ _).modBlk _ _) ((hu.putBar _ _ _ _).modBlk _ _)

theorem State.MemWf.arrive (h : s.MemWf) (bid n : ℕ) (bytes : ℤ) (external : Bool) : (s.arrive bid n bytes external).MemWf :=
  State.MemWf.barUpdate (.ite (h.modBlk _ _) h) _ _ _ _

theorem State.MemWf.arriveFrom (h : s.MemWf) (who bid n : ℕ) (bytes : ℤ) : (s.arriveFrom who bid n bytes).MemWf := by
  unfold State.arriveFrom
  split
  · exact h
  · split
    · exact .ite (h.arrive _ _ _ _) (((h.barRead _ _).of_fst ‹_›).consume _ _ _)
    · exact h.arrive _ _ _ _

theorem State.MemWf.landBytes (h : s.MemWf) (bid n bytes : ℕ) (external : Bool) : (s.landBytes bid n bytes external).MemWf :=
  State.MemWf.barUpdate (.ite (h.modBlk _ _) h) _ _ _ _

theorem State.MemWf.departBarriers (h : s.MemWf) (bid t : ℕ) : (s.departBarriers bid t).MemWf := h.foldl fun _ _ hu => .ite (hu.barUpdate _ _ _ _) hu

theorem State.MemWf.endThread (h : s.MemWf) (bid t : ℕ) (st : LaneStatus) : (s.endThread bid t st).MemWf := (h.modBlk _ _).departBarriers _ _

theorem State.MemWf.strike (h : s.MemWf) (bid t : ℕ) : (s.strike bid t).MemWf := (h.modBlk _ _).endThread _ _ _

theorem State.MemWf.laneFaults (h : s.MemWf) (bid : ℕ) (pc : DWord) (len : ℕ) (fs : List (ℕ × LF)) : (s.laneFaults bid pc len fs).MemWf := by
  unfold State.laneFaults
  dsimp only
  split
  · exact h
  · refine .ite h (.ite ((h.foldl (fun _ _ hu => hu.report _ _)).kill _ _ _ _) ?_)
    refine .ite ((h.foldl (fun _ _ hu => hu.report _ _)).kill _ _ _ _) ?_
    exact ((h.foldl (fun _ _ hu => hu.report _ _)).modBlk _ _).foldl (fun _ _ hu => .ite (hu.modBlk _ _) (hu.strike _ _))

theorem State.MemWf.faultWaits (h : s.MemWf) (bid n : ℕ) (p : Wait → Bool) : (s.faultWaits bid n p).MemWf :=
  h.foldl fun _ _ hu => hu.laneFaults _ _ _ _

theorem State.MemWf.faultUnbound (h : s.MemWf) (bid : ℕ) : (s.faultUnbound bid).MemWf := h.foldl fun _ _ hu => hu.faultWaits _ _ _

theorem State.MemWf.deadlock (h : s.MemWf) (bid bundle : ℕ) : (s.deadlock bid bundle).MemWf := .ite (h.foldl (fun _ _ hu => hu.laneFaults _ _ _ _)) h

theorem State.MemWf.openInterval (h : s.MemWf) (bid : ℕ) : (s.openInterval bid).MemWf := (h.modDie _ _).modBlk _ _

theorem State.MemWf.blockBarrier (h : s.MemWf) (bid : ℕ) : (s.blockBarrier bid).MemWf := .ite ((h.modBlk _ _).openInterval _) h

theorem State.MemWf.settle (h : s.MemWf) (bid : ℕ) : (s.settle bid).MemWf :=
  ((((h.modBlk _ _).foldl (fun _ _ hu => hu.deadlock _ _)).modBlk _ _).modBlk _ _).blockBarrier _

theorem State.MemWf.advance (h : s.MemWf) (len : ℕ) : (s.advance len).MemWf := h.modCb _

theorem State.MemWf.advanceBut (h : s.MemWf) (len : ℕ) (bad : List ℕ) : (s.advanceBut len bad).MemWf := h.modCb _

theorem State.MemWf.trapAll (h : s.MemWf) (len cause : ℕ) : (s.trapAll len cause).MemWf := (h.laneFaults _ _ _ _).settle _

theorem State.MemWf.fault (h : s.MemWf) (len : ℕ) (fs : List (ℕ × LF)) : (s.fault len fs).MemWf := h.laneFaults _ _ _ _

theorem State.MemWf.finishFaults (h : s.MemWf) (len : ℕ) (fs : List (ℕ × LF)) : (s.finishFaults len fs).MemWf := by
  unfold State.finishFaults
  split
  · exact h
  · exact (h.fault _ _).settle _

theorem State.MemWf.endTurn (h : s.MemWf) : s.endTurn.MemWf := by
  unfold State.endTurn
  split <;> exact h.modCb _

theorem State.MemWf.noIssue (h : s.MemWf) : s.noIssue.MemWf := h.endTurn.update

/-! ### Machine/Operands.lean: operand handling and the frame of an issue -/

theorem State.MemWf.setSregs (h : s.MemWf) (n : ℕ) (ws : List Word) : (s.setSregs n ws).MemWf := by
  unfold State.setSregs
  dsimp only
  split <;> exact h.modCb _

theorem State.MemWf.setFreg (h : s.MemWf) (n : ℕ) (w : Half) : (s.setFreg n w).MemWf := by
  unfold State.setFreg
  split <;> exact h.modCb _

theorem State.MemWf.write (h : s.MemWf) (d : Dst) (span : ℕ) (vals : List (ℕ × ℕ)) : (s.write d span vals).MemWf := by
  unfold State.write
  dsimp only
  split
  · exact (h.logRegs _ _ _ _).modCb _
  · exact h.modCb _
  · split
    · exact h
    · exact h.setSregs _ _
  · exact h
  · exact h

theorem State.MemWf.flagLanes (h : s.MemWf) (fs : List (ℕ × BitVec 6)) : (s.flagLanes fs).MemWf := h.modCb _

theorem State.MemWf.countIssue (h : s.MemWf) (d : ℤ) : (s.countIssue d).MemWf := .ite (h.modPart _ _) h

theorem State.MemWf.stall (h : s.MemWf) : s.stall.MemWf := (h.countIssue _).noIssue

theorem State.MemWf.issue (h : s.MemWf) (i : Instr) (effect : Opnds → State → State) (heffect : ∀ e u, u.MemWf → (effect e u).MemWf) :
    OutcomeWf (s.issue i effect) := by
  unfold State.issue
  dsimp only
  split
  · exact .next h
  · exact .next h
  · refine .ite (.next h.noIssue) (.ite (.next h.noIssue) (.ite (.next h.noIssue) ?_))
    refine .ite (.next ((h.countIssue _).trapAll _ _)) (.ite (.next ((h.countIssue _).trapAll _ _)) ?_)
    refine .ite (.next ((h.countIssue _).trapAll _ _)) (.ite (.next ((h.countIssue _).consume _ _ _)) ?_)
    exact .next (heffect _ _ (h.countIssue _))

theorem State.MemWf.alu (h : s.MemWf) (i : Instr) (span : ℕ) (f : Opnds → State → ℕ → ℕ × BitVec 6) : OutcomeWf (s.alu i span f) :=
  h.issue _ _ fun _ _ hu => ((hu.advance _).write _ _ _).flagLanes _

/-! ### Machine/Integer.lean: integer results -/

theorem intOp2_wf (h : s.MemWf) (i : Instr) (t : ITy) (f : ℤ → ℤ → ℕ) : OutcomeWf (intOp2 s i t f) := h.alu _ _ _

theorem bitOp2_wf (h : s.MemWf) (i : Instr) (t : ITy) (f : ℕ → ℕ → ℕ) : OutcomeWf (bitOp2 s i t f) := h.alu _ _ _

theorem bitOp1_wf (h : s.MemWf) (i : Instr) (t : ITy) (span : ℕ) (f : ℕ → ℕ) : OutcomeWf (bitOp1 s i t span f) := h.alu _ _ _

theorem shiftOp_wf (h : s.MemWf) (i : Instr) (t : ITy) (f : ℕ → ℕ → ℕ) : OutcomeWf (shiftOp s i t f) := h.alu _ _ _

/-! ### Machine/Scalar.lean: scalar instructions -/

theorem State.MemWf.once (h : s.MemWf) (i : Instr) (span : ℕ) (f : Opnds → State → ℕ → ℕ) : OutcomeWf (s.once i span f) := by
  unfold State.once
  refine h.issue _ _ fun _ _ hu => ?_
  dsimp only
  split
  · exact hu.advance _
  · exact (hu.advance _).write _ _ _

theorem scalInt_wf (h : s.MemWf) (i : Instr) (t : ITy) (f : ℤ → ℤ → ℕ) : OutcomeWf (scalInt s i t f) := h.once _ _ _

theorem scalBits_wf (h : s.MemWf) (i : Instr) (t : ITy) (f : ℕ → ℕ → ℕ) : OutcomeWf (scalBits s i t f) := h.once _ _ _

theorem scalShift_wf (h : s.MemWf) (i : Instr) (t : ITy) (f : ℕ → ℕ → ℕ) : OutcomeWf (scalShift s i t f) := h.once _ _ _

/-! ### Machine/CrossLane.lean: cross-lane instructions -/

theorem execLred_wf (h : s.MemWf) (x : Opnds) (op : RedOp) (t : ITy) : OutcomeWf (execLred x op t s) := by
  unfold execLred
  refine h.issue _ _ fun _ _ hu => ?_
  dsimp only
  split
  · exact hu.advance _
  · exact ((hu.advance _).write _ _ _).flagLanes _

/-! ### Machine/Flags.lean: floating-point frames -/

theorem fpOp1_wf (h : s.MemWf) (i : Instr) (t : FTy) (m : FMods) (f : Fp.Val → Fp.Exact × Fp.Flags) : OutcomeWf (fpOp1 s i t m f) := h.alu _ _ _

theorem fpFun_wf (h : s.MemWf) (i : Instr) (t : FTy) (m : FMods) (f : FFmt → Rnd → Fp.Val → ℕ × Fp.Flags) : OutcomeWf (fpFun s i t m f) := h.alu _ _ _

theorem fpOp2_wf (h : s.MemWf) (i : Instr) (t : FTy) (m : FMods) (f : Fp.Val → Fp.Val → Fp.Exact × Fp.Flags) : OutcomeWf (fpOp2 s i t m f) :=
  h.alu _ _ _

theorem fpOp3_wf (h : s.MemWf) (i : Instr) (t : FTy) (m : FMods) (f : Fp.Val → Fp.Val → Fp.Val → Fp.Exact × Fp.Flags) :
    OutcomeWf (fpOp3 s i t m f) :=
  h.alu _ _ _

/-! ### Machine/Home.lean: lines at their home -/

theorem State.MemWf.setClock (h : s.MemWf) (a : ℕ) (c : List ℕ) : (s.setClock a c).MemWf := h.modHub _

theorem State.MemWf.stamp (h : s.MemWf) (a : ℕ) : (s.stamp a).1.MemWf := h.setClock _ _

theorem State.MemWf.note (h : s.MemWf) (a : ℕ) (pas st : List ℕ) (writer : ℕ) : (s.note a pas st writer).MemWf := h.modHub _

theorem State.MemWf.modCache (h : s.MemWf) (a : ℕ) (f : L2Cache → L2Cache) : (s.modCache a f).MemWf := .ite (h.modHub _) (h.modDie _ _)

theorem State.MemWf.request (h : s.MemWf) (slot page : ℕ) (what : Asked) (engine : Bool) : (s.request slot page what engine).MemWf :=
  (h.modHub _).send _

theorem State.MemWf.tellLender (h : s.MemWf) (es : List (ℕ × Byte)) (writers : ℕ → List (ℕ × ℕ)) : (s.tellLender es writers).MemWf := by
  unfold State.tellLender
  refine h.foldl fun _ _ hu => ?_
  dsimp only
  split
  · exact hu.request _ _ _ _
  · exact hu

theorem State.MemWf.homeSet (h : s.MemWf) (es : List (ℕ × Byte)) : (s.homeSet es).MemWf :=
  Memory.wf_foldl es _ (fun _ e hm => Memory.wf_setByte hm e.1 e.2) h

theorem State.MemWf.homePut (h : s.MemWf) (es : List (ℕ × Byte)) (writers : ℕ → List (ℕ × ℕ)) :
    (s.homePut es writers).MemWf :=
  (h.homeSet _).tellLender _ _

theorem State.MemWf.poisonHome (h : s.MemWf) (pa n : ℕ) : (s.poisonHome pa n).MemWf := h.update

theorem State.MemWf.homeWrite (h : s.MemWf) (pa : ℕ) (bytes : List Byte) (poison : Bool) : (s.homeWrite pa bytes poison).MemWf :=
  (h.homePut _ _).ite_then fun hu => hu.poisonHome _ _

theorem State.MemWf.l2Taint (h : s.MemWf) (d : ℕ) (es : List (ℕ × Byte)) : (s.l2Taint d es).MemWf := h.modCache _ _

theorem State.MemWf.l2Refresh (h : s.MemWf) (d : ℕ) (es : List (ℕ × Byte)) : (s.l2Refresh d es).MemWf := h.modCache _ _

theorem State.MemWf.unmask (h : s.MemWf) (d : Delivery) (pa : ℕ) (b : Byte) : (s.unmask d pa b).MemWf := by
  unfold State.unmask
  refine .ite ?_ h
  split
  · exact .ite (h.modCache _ _) h
  · exact h

theorem State.MemWf.deliver (h : s.MemWf) (d : Delivery) : (s.deliver d).MemWf :=
  ((((((h.modHub _).note _ _ _ _).ite_else (fun hu => (hu.homePut _ _).ite_then (fun hv => hv.foldl (fun _ _ hw => hw.poisonHome _ _)))).ite_then
    (fun hu => hu.l2Refresh _ _)).ite_then (fun hu => hu.l2Taint _ _)).foldl (fun _ _ hu => hu.unmask _ _ _)).setClock _ _

theorem State.MemWf.settleFor (h : s.MemWf) (fuel a : ℕ) (c : List ℕ) : (State.settleFor fuel s a c).MemWf := by
  induction fuel generalizing s with
  | zero => exact h
  | succ fuel ih =>
    unfold State.settleFor
    dsimp only
    split
    · exact ih (h.deliver _)
    · exact h

theorem State.MemWf.answer (h : s.MemWf) (a : ℕ) (c : List ℕ) : (s.answer a c).MemWf := h.settleFor _ _ _

theorem State.MemWf.settleWhere (h : s.MemWf) (p : Delivery → Bool) : (s.settleWhere p).MemWf := h.foldl fun _ _ hu => hu.answer _ _

theorem State.MemWf.absorb (h : s.MemWf) (a : ℕ) (c : List ℕ) : (s.absorb a c).MemWf := (h.answer _ _).setClock _ _

theorem State.MemWf.takeView (h : s.MemWf) (d home : ℕ) (pas : List ℕ) : (s.takeView d home pas).MemWf :=
  .ite h ((h.modHub _).foldl (fun _ _ hu => hu.absorb _ _))

theorem State.MemWf.ask (h : s.MemWf) (d pa n : ℕ) : (s.ask d pa n).MemWf := .ite h ((h.answer _ _).takeView _ _ _)

theorem State.MemWf.applyHome (h : s.MemWf) (w : ℕ) (st : List ℕ) (es : List (ℕ × Byte)) (writers : ℕ → List (ℕ × ℕ)) :
    (s.applyHome w st es writers).MemWf :=
  h.foldl fun _ _ hu => (((hu.absorb _ _).note _ _ _ _).homePut _ _).ite_then fun hv => hv.l2Refresh _ _

theorem State.MemWf.spread (h : s.MemWf) (a pa : ℕ) (bytes : List Byte) (writer : List (ℕ × ℕ)) : (s.spread a pa bytes writer).MemWf :=
  ((h.stamp _).note _ _ _ _).modHub _

theorem State.MemWf.nameSent (h : s.MemWf) (d : ℕ) (va pc : DWord) : (s.nameSent d va pc).MemWf := h.modHub _

theorem State.MemWf.sendWrite (h : s.MemWf) (a pa : ℕ) (bytes : List Byte) (writer : List (ℕ × ℕ)) : (s.sendWrite a pa bytes writer).MemWf :=
  (h.spread _ _ _ _).ite_then fun hu => (hu.homePut _ _).ite_then fun hv => hv.l2Refresh _ _

theorem State.MemWf.stepWrite (h : s.MemWf) (pa : ℕ) (bytes : List Byte) (writer : List (ℕ × ℕ)) : (s.stepWrite pa bytes writer).MemWf :=
  ((h.spread _ _ _ _).homeSet _).ite_then fun hu => hu.l2Refresh _ _

theorem State.MemWf.sendHome (h : s.MemWf) (a pa : ℕ) (bytes : List Byte) (wide : Bool) (writer : List (ℕ × ℕ)) :
    (s.sendHome a pa bytes wide writer).MemWf :=
  .ite ((h.sendWrite _ _ _ _).absorb _ _) ((h.stamp _).applyHome _ _ _ _)

theorem State.MemWf.sendMasked (h : s.MemWf) (d : ℕ) (es : List (ℕ × Byte)) (writers : ℕ → List (ℕ × ℕ)) : (s.sendMasked d es writers).MemWf := by
  unfold State.sendMasked
  dsimp only
  split
  · exact h.settleWhere _
  · exact ((h.settleWhere _).stamp _).applyHome _ _ _ _

theorem State.MemWf.writeBack (h : s.MemWf) (d lo n : ℕ) : (s.writeBack d lo n).MemWf := by
  unfold State.writeBack
  dsimp only
  split
  · exact h
  · exact (h.sendMasked _ _ _).modCache _ _

theorem State.MemWf.sendHeld (h : s.MemWf) (p : Held → Bool) : (s.sendHeld p).MemWf := by
  unfold State.sendHeld
  dsimp only
  split
  · exact h
  · exact (h.modHub _).foldl fun _ _ hu => hu.sendMasked _ _ _

theorem State.MemWf.holdMasked (h : s.MemWf) (d lo n : ℕ) (maint : List (ℕ × ℕ)) : (s.holdMasked d lo n maint).MemWf := (h.modHub _).modCache _ _

theorem State.MemWf.cleanRange (h : s.MemWf) (d lo n : ℕ) (maint : List (ℕ × ℕ)) : (s.cleanRange d lo n maint).MemWf :=
  .ite (h.writeBack _ _ _) (h.holdMasked _ _ _ _)

theorem State.MemWf.dropL2 (h : s.MemWf) (d lo n : ℕ) : (s.dropL2 d lo n).MemWf := h.modCache _ _

theorem State.MemWf.dropClean (h : s.MemWf) (d lo n : ℕ) : (s.dropClean d lo n).MemWf := h.modCache _ _

theorem State.MemWf.cohere (h : s.MemWf) (d pa : ℕ) (write : Bool) : (s.cohere d pa write).MemWf := by
  refine .ite h ?_
  exact (((h.sendHeld _).foldl (fun _ _ hu => (hu.writeBack _ _ _).ite_then (fun hv => hv.dropL2 _ _ _))).ask _ _ _).modHub _

theorem State.MemWf.leaveDir (h : s.MemWf) (d line : ℕ) : (s.leaveDir d line).MemWf := by
  unfold State.leaveDir
  dsimp only
  split
  · exact h
  · exact h.modHub _

theorem State.MemWf.evictLine (h : s.MemWf) (d line : ℕ) : (s.evictLine d line).MemWf := ((h.cleanRange _ _ _ _).dropL2 _ _ _).leaveDir _ _

theorem State.MemWf.makeRoom (h : s.MemWf) (d pa : ℕ) : (s.makeRoom d pa).MemWf := by
  unfold State.makeRoom
  refine .ite h ?_
  split
  · exact h.evictLine _ _
  · exact h

theorem State.MemWf.fetchSector (h : s.MemWf) (d pa : ℕ) : (s.fetchSector d pa).MemWf :=
  (((h.sendHeld _).ite_else (fun hu => hu.answer _ _)).modCache _ _).takeView _ _ _

theorem State.MemWf.l2Store (h : s.MemWf) (d pa : ℕ) (bytes : List Byte) (writer : List (ℕ × ℕ)) : (s.l2Store d pa bytes writer).MemWf :=
  h.modCache _ _

theorem State.MemWf.everywhere (h : s.MemWf) (d : ℕ) (pas : List ℕ) : (s.everywhere d pas).MemWf := (h.stamp _).foldl fun _ _ hu => hu.note _ _ _ _

theorem State.MemWf.coherentStore (h : s.MemWf) (d pa : ℕ) (bytes : List Byte) (writer : List (ℕ × ℕ)) :
    (s.coherentStore d pa bytes writer).MemWf :=
  (h.l2Store _ _ _ _).everywhere _ _

/-! ### Machine/Mem.lean: loads, stores and atomics -/

theorem State.MemWf.orEntry (h : s.MemWf) (d at_ bit : ℕ) : (s.orEntry d at_ bit).MemWf := by
  unfold State.orEntry
  refine (State.MemWf.everywhere ?_ _ _).foldl (fun u _ hu => ?_)
  · exact Memory.wf_setByte h _ _
  · dsimp only
    split
    · exact hu.modCache _ _
    · exact hu

theorem State.MemWf.installLeaf (h : s.MemWf) (w : Who) (e : TlbLeaf) (ptrs : List TlbLeaf) : (s.installLeaf w e ptrs).MemWf := by
  unfold State.installLeaf
  dsimp only
  split
  · exact (h.modDie _ _).modCore _ _
  · exact h.modDie _ _

theorem State.MemWf.useLeaf (h : s.MemWf) (w : Who) (e : TlbLeaf) : (s.useLeaf w e).MemWf := by
  unfold State.useLeaf
  split
  · exact .ite (h.modCore _ _) (h.installLeaf _ _ _)
  · exact h.installLeaf _ _ _

theorem State.MemWf.queueWalk (h : s.MemWf) (w : Who) (va n : ℕ) (acc : Access) : (s.queueWalk w va n acc).MemWf := h.modDie _ _

theorem State.MemWf.dropFailed (h : s.MemWf) (d : ℕ) : (s.dropFailed d).MemWf := .ite (h.modDie _ _) h

theorem State.MemWf.kernelServed (h : s.MemWf) : s.kernelServed.MemWf := h.modHub _

theorem State.MemWf.walkFor (h : s.MemWf) (w : Who) (va n : ℕ) (acc : Access) : (s.walkFor w va n acc).1.MemWf := by
  unfold State.walkFor
  dsimp only
  split
  · split
    · exact h
    · exact h.queueWalk _ _ _ _
  · exact h
  · split
    · exact h
    · exact (State.MemWf.ite_then (.ite (h.orEntry _ _ _) h) (fun hu => hu.orEntry _ _ _)).installLeaf _ _ _

theorem State.MemWf.translate (h : s.MemWf) (w : Who) (va n : ℕ) (acc : Access) (spec : Bool) : (s.translate w va n acc spec).1.MemWf := by
  unfold State.translate
  dsimp only
  split
  · exact h
  · split
    · split
      · exact h
      · exact h.useLeaf _ _
    · split
      · exact h
      · exact h.walkFor _ _ _ _

theorem State.MemWf.countPeer (h : s.MemWf) (w : Who) (p : Page) (va : ℕ) : (s.countPeer w p va).MemWf := by
  unfold State.countPeer
  refine .ite h ?_
  dsimp only
  split
  · exact h
  · exact .ite (h.modHub _) (.ite (h.modHub _) (h.modHub _))

theorem State.MemWf.askPeer (h : s.MemWf) (w : Who) (p : Page) : (s.askPeer w p).MemWf := .ite h (.ite (.ite (h.modHub _) h) (h.request _ _ _ _))

theorem State.MemWf.askData (h : s.MemWf) (w : Who) (p : Page) (pa : ℕ) (what : Asked) : (s.askData w p pa what).MemWf := by
  unfold State.askData
  refine .ite h ?_
  split
  · exact h.request _ _ _ _
  · exact h.askPeer _ _

theorem State.MemWf.takeAnswer (h : s.MemWf) (p : Page) (what : Asked) : (s.takeAnswer p what).MemWf := .ite h (h.modHub _)

theorem State.MemWf.closeAnswers (h : s.MemWf) (keep : Bool) : (s.closeAnswers keep).MemWf := .ite (h.modHub _) h

theorem State.MemWf.loadAt (h : s.MemWf) (w : Who) (p : Page) (pa n : ℕ) : (s.loadAt w p pa n).1.MemWf := by
  unfold State.loadAt
  dsimp only
  split
  · split
    · exact h.askData _ _ _ _
    · split <;> exact (h.takeAnswer _ _).ask _ _ _
  · split
    · exact h.askData _ _ _ _
    · split
      · split
        · split <;> exact (((h.takeAnswer _ _).makeRoom _ _).cohere _ _ _).fetchSector _ _
        · split <;> exact ((h.takeAnswer _ _).makeRoom _ _).fetchSector _ _
      · split <;> exact h

theorem State.MemWf.persist (h : s.MemWf) (pa : ℕ) (bytes : List Byte) (writer : List (ℕ × ℕ)) : (s.persist pa bytes writer).MemWf :=
  .ite (h.modHub _) h

theorem State.MemWf.noteWriters (h : s.MemWf) (slot : ℕ) : (s.noteWriters slot).MemWf := .ite (h.modHub _) h

theorem State.MemWf.asked (h : s.MemWf) (d : ℕ) (t : State) : (s.asked d t).MemWf :=
  ((h.modHub _).modDie _ _).foldl fun _ _ hu => hu.noteWriters _

theorem State.MemWf.putAt (h : s.MemWf) (w : Who) (p : Page) (pa : ℕ) (bytes : List Byte) (writer : List (ℕ × ℕ)) :
    (s.putAt w p pa bytes writer).MemWf :=
  State.MemWf.ite_then (.ite ((h.persist _ _ _).sendHome _ _ _ _ _) (.ite ((((h.persist _ _ _).makeRoom _ _).cohere _ _ _).coherentStore _ _ _ _)
    ((((h.persist _ _ _).makeRoom _ _).l2Store _ _ _ _).ite_then (fun hu => hu.sendWrite _ _ _ _)))) fun hu => hu.noteWriters _

theorem State.MemWf.storeAt (h : s.MemWf) (w : Who) (p : Page) (pa : ℕ) (bytes : List Byte) (writer : List (ℕ × ℕ)) :
    (s.storeAt w p pa bytes writer).1.MemWf := by
  unfold State.storeAt
  split
  · exact h.askPeer _ _
  · exact h.putAt _ _ _ _ _

theorem State.MemWf.ownBack (h : s.MemWf) (d pa : ℕ) : (s.ownBack d pa).MemWf := (h.cleanRange _ _ _ _).dropL2 _ _ _

theorem State.MemWf.preClean (h : s.MemWf) (w : Who) (vas : List ℕ) : (s.preClean w vas).MemWf := by
  unfold State.preClean
  refine .ite h (h.foldl (fun _ _ hu => ?_))
  dsimp only
  split
  · exact .ite (hu.ownBack _ _) hu
  · exact hu

theorem State.MemWf.stepHome (h : s.MemWf) (d pa n : ℕ) (coh quiet : Bool) (f : List Byte → Option (List Byte)) (writer : List (ℕ × ℕ)) :
    (s.stepHome d pa n coh quiet f writer).1.MemWf := by
  unfold State.stepHome
  dsimp only
  split
  · split
    · exact (((h.cohere _ _ _).writeBack _ _ _).dropL2 _ _ _).answer _ _
    · split
      · exact ((((h.cohere _ _ _).writeBack _ _ _).dropL2 _ _ _).answer _ _).takeView _ _ _
      · exact (((((((((h.cohere _ _ _).writeBack _ _ _).dropL2 _ _ _).answer _ _).persist _ _ _).stamp _).absorb _ _).homeSet _).everywhere _
          _).takeView _ _ _
  · split
    · exact (((h.sendHeld _).writeBack _ _ _).dropL2 _ _ _).answer _ _
    · split
      · exact ((((h.sendHeld _).writeBack _ _ _).dropL2 _ _ _).answer _ _).takeView _ _ _
      · exact ((((((((h.sendHeld _).writeBack _ _ _).dropL2 _ _ _).answer _ _).persist _ _ _).stamp _).absorb _ _).stepWrite _ _ _).takeView _ _ _

theorem State.MemWf.atomicAt (h : s.MemWf) (w : Who) (p : Page) (pa n : ℕ) (step : PeerStep) (quiet : Bool) (writer : List (ℕ × ℕ)) :
    (s.atomicAt w p pa n step quiet writer).1.MemWf := by
  unfold State.atomicAt
  dsimp only
  split
  · split
    · exact (State.MemWf.askData (.ite (h.ownBack _ _) h) _ _ _ _).ite_then fun hu => hu.noteWriters _
    · exact ((h.takeAnswer _ _).stepHome _ _ _ _ _ _ _).ite_then fun hu => hu.noteWriters _
  · split
    · exact h.askPeer _ _
    · split
      · split
        · split
          · exact ((h.makeRoom _ _).cohere _ _ _).fetchSector _ _
          · split
            · exact ((h.makeRoom _ _).cohere _ _ _).fetchSector _ _
            · exact ((((h.makeRoom _ _).cohere _ _ _).fetchSector _ _).persist _ _ _).coherentStore _ _ _ _
        · split
          · exact (h.makeRoom _ _).fetchSector _ _
          · split
            · exact (h.makeRoom _ _).fetchSector _ _
            · exact (((h.makeRoom _ _).fetchSector _ _).persist _ _ _).l2Store _ _ _ _
      · split
        · split
          · exact (h.makeRoom _ _).cohere _ _ _
          · split
            · exact (h.makeRoom _ _).cohere _ _ _
            · exact (((h.makeRoom _ _).cohere _ _ _).persist _ _ _).coherentStore _ _ _ _
        · split
          · exact h.makeRoom _ _
          · split
            · exact h.makeRoom _ _
            · exact ((h.makeRoom _ _).persist _ _ _).l2Store _ _ _ _

theorem State.MemWf.l1Sound (h : s.MemWf) (w : Who) (va : ℕ) : (s.l1Sound w va).MemWf := by
  unfold State.l1Sound
  split
  · exact h
  · exact .ite (h.modCore _ _) h

theorem State.MemWf.l1Fill (h : s.MemWf) (w : Who) (p : Page) (va : ℕ) : (s.l1Fill w p va).MemWf := by
  unfold State.l1Fill
  dsimp only
  split
  · exact h
  · exact .ite h (h.modCore _ _)

theorem State.MemWf.l1Last (h : s.MemWf) (w : Who) (va : ℕ) : (s.l1Last w va).MemWf := by
  unfold State.l1Last
  split
  · exact h
  · exact h.modCore _ _

theorem State.MemWf.l1Update (h : s.MemWf) (w : Who) (va : ℕ) (bytes : List Byte) : (s.l1Update w va bytes).MemWf := by
  unfold State.l1Update
  split
  · exact h
  · exact h.modCore _ _

theorem State.MemWf.load (h : s.MemWf) (w : Who) (va n : ℕ) (l1 spec : Bool) : (s.load w va n l1 spec).1.MemWf := by
  unfold State.load
  dsimp only
  split
  · exact h.l1Sound _ _
  · exact h.l1Sound _ _
  · split
    · exact ((h.l1Sound _ _).translate _ _ _ _ _).of_fst ‹_›
    · have h1 := ((h.l1Sound _ _).translate _ _ _ _ _).of_fst ‹_›
      split
      · have h2 := (h1.loadAt _ _ _ _).of_fst ‹_›
        exact .ite (h2.l1Fill _ _ _) h2
      · exact (h1.loadAt _ _ _ _).of_fst ‹_›
      · have h2 := (h1.loadAt _ _ _ _).of_fst ‹_›
        exact .ite (h2.l1Fill _ _ _) h2

theorem State.MemWf.countSectors (h : s.MemWf) (w : Who) (vas : List ℕ) : (s.countSectors w vas).MemWf := by
  unfold State.countSectors
  refine .ite h (h.foldl (fun _ _ hu => ?_))
  split
  · exact hu.countPeer _ _ _
  · exact hu

theorem State.MemWf.peerStore (h : s.MemWf) (p : Page) (writer : List (ℕ × ℕ)) : (s.peerStore p writer).MemWf :=
  .ite (h.foldl (fun _ _ hu => hu.irrevoke _)) h

theorem State.MemWf.store (h : s.MemWf) (w : Who) (va : ℕ) (bytes : List Byte) (writer : List (ℕ × ℕ)) : (s.store w va bytes writer).1.MemWf := by
  unfold State.store
  split
  · exact (h.translate _ _ _ _ _).of_fst ‹_›
  · have h1 := (h.translate _ _ _ _ _).of_fst ‹_›
    split
    · exact (h1.storeAt _ _ _ _ _).of_fst ‹_›
    · exact ((((h1.storeAt _ _ _ _ _).of_fst ‹_›).nameSent _ _ _).peerStore _ _).l1Update _ _ _

theorem State.MemWf.atomic (h : s.MemWf) (w : Who) (va n : ℕ) (step : PeerStep) (quiet : Bool) (writer : List (ℕ × ℕ)) :
    (s.atomic w va n step quiet writer).1.MemWf := by
  unfold State.atomic
  dsimp only
  split
  · exact (h.translate _ _ _ _ _).of_fst ‹_›
  · have h1 := (h.translate _ _ _ _ _).of_fst ‹_›
    split
    · exact (h1.atomicAt _ _ _ _ _ _ _).of_fst ‹_›
    · have h2 := (h1.atomicAt _ _ _ _ _ _ _).of_fst ‹_›
      dsimp only
      split
      · exact (h2.peerStore _ _).l1Update _ _ _
      · exact h2.peerStore _ _

theorem State.MemWf.recordFault (h : s.MemWf) (d : ℕ) (r : RestartRec) : (s.recordFault d r).1.MemWf := by
  unfold State.recordFault
  dsimp only
  split
  · exact h.modDie _ _
  · split
    · exact h.modDie _ _
    · exact h

theorem State.MemWf.raiseRestart (h : s.MemWf) (d : ℕ) (r : RestartRec) (who : Waiter) : (s.raiseRestart d r who).1.MemWf := by
  unfold State.raiseRestart
  split
  · exact (h.recordFault _ _).of_fst ‹_›
  · exact ((h.recordFault _ _).of_fst ‹_›).modDie _ _

theorem State.MemWf.logFaults (h : s.MemWf) (i : Instr) (len acc : ℕ) (a : LogAcc) (dst : Dst) (span : ℕ) (fs : List RF) :
    (s.logFaults i len acc a dst span fs).MemWf := by
  unfold State.logFaults
  dsimp only
  split
  · exact h
  · exact (h.modCb _).foldl fun _ _ hu => (hu.raiseRestart _ _ _).modCb _

/-! ### Machine/Perform.lean: logged and gathered accesses -/

theorem State.MemWf.acquirePoint (h : s.MemWf) (c : ℕ) : (s.acquirePoint c).MemWf := h.modCore _ _

theorem State.MemWf.fenceBack (h : s.MemWf) (bid t e : ℕ) : (s.fenceBack bid t e).MemWf := .ite (h.foldl (fun _ _ hu => hu.writeBack _ _ _)) h

theorem State.MemWf.completeFence (h : s.MemWf) (bid t e : ℕ) : OptionWf (s.completeFence bid t e) :=
  .ite .none (.some (((h.fenceBack _ _ _).ite_then (fun hu => hu.acquirePoint _)).modBlk _ _))

theorem State.MemWf.completeFences (h : s.MemWf) (bid : ℕ) (ts : List ℕ) : (s.completeFences bid ts).MemWf := by
  unfold State.completeFences
  refine (h.foldl (fun _ _ hu => ?_)).ite_else fun hu => hu.modBlk _ _
  split
  · exact (hu.completeFence _ _ _).getD (hu.fenceBack _ _ _)
  · exact hu

theorem State.MemWf.fenceLanes (h : s.MemWf) (bid : ℕ) (act ts : List ℕ) (m : ℕ → ℕ) : (s.fenceLanes bid act ts m).MemWf :=
  (h.modBlk _ _).completeFences _ _

theorem State.MemWf.fenceFirst (h : s.MemWf) (bid : ℕ) (ts : List ℕ) (m : ℕ) : OptionWf (s.fenceFirst bid ts m) :=
  (OptionWf.some h).foldl fun _ _ ho => ho.bind fun _ hu => hu.completeFence _ _ _

theorem State.MemWf.fenceBegin (h : s.MemWf) (bid : ℕ) (ts : List ℕ) (m : ℕ) : (s.fenceBegin bid ts m).MemWf :=
  h.foldl fun _ _ hu => hu.fenceBack _ _ _

theorem State.MemWf.loadParts (h : s.MemWf) (w : Who) (spec : Bool) (ps : List (ℕ × ℕ)) : (s.loadParts w spec ps).1.MemWf := by
  induction ps generalizing s with
  | nil => exact h
  | cons p r ih =>
    unfold State.loadParts
    split
    · exact (h.load _ _ _ _ _).of_fst ‹_›
    · have hl := ih ((h.load _ _ _ _ _).of_fst ‹_›)
      split <;> exact hl.of_fst ‹_›

theorem State.MemWf.storeParts (h : s.MemWf) (w : Who) (bid t : ℕ) (ps : List (ℕ × List Byte)) : (s.storeParts w bid t ps).1.MemWf := by
  induction ps generalizing s with
  | nil => exact h
  | cons p r ih =>
    unfold State.storeParts
    split
    · exact (h.store _ _ _ _).of_fst ‹_›
    · exact ih (((h.store _ _ _ _).of_fst ‹_›).modBlk _ _)

theorem State.MemWf.checkParts (h : s.MemWf) (w : Who) (ps : List (ℕ × ℕ)) : (s.checkParts w ps).1.MemWf := by
  induction ps generalizing s with
  | nil => exact h
  | cons p r ih =>
    unfold State.checkParts
    split
    · exact (h.translate _ _ _ _ _).of_fst ‹_›
    · exact ih ((h.translate _ _ _ _ _).of_fst ‹_›)

theorem State.MemWf.maintainLine (h : s.MemWf) (d k pa : ℕ) (lane : ℕ × ℕ) : (s.maintainLine d k pa lane).MemWf :=
  State.MemWf.ite_then (.ite (h.dropClean _ _ _) (h.cleanRange _ _ _ _)) fun hu => hu.dropClean _ _ _

theorem State.MemWf.rangePages (h : s.MemWf) (w : Who) (k : ℕ) (vas : List ℕ) : (s.rangePages w k vas).1.MemWf := by
  induction vas generalizing s with
  | nil => exact h
  | cons va r ih =>
    unfold State.rangePages
    dsimp only
    split
    · exact (h.translate _ _ _ _ _).of_fst ‹_›
    · have ht := (h.translate _ _ _ _ _).of_fst ‹_›
      split
      · exact ht
      · split <;> exact (ih ht).of_fst ‹_›

theorem State.MemWf.maintain (h : s.MemWf) (w : Who) (k : ℕ) (vas : List ℕ) (lane : ℕ × ℕ) : (s.maintain w k vas lane).1.MemWf := by
  unfold State.maintain
  dsimp only
  split
  · exact (h.rangePages _ _ _).of_fst ‹_›
  · exact (((h.rangePages _ _ _).of_fst ‹_›).foldl (fun _ _ hu => hu.maintainLine _ _ _ _)).ite_else fun hu => hu.foldl fun _ _ hv => .ite hv
      (hv.modCore _ _)

theorem State.MemWf.perform (h : s.MemWf) (bid t : ℕ) (acc : LogAcc) (ea data data2 : ℕ) (l1 spec : Bool) :
    (s.perform bid t acc ea data data2 l1 spec).1.MemWf := by
  unfold State.perform
  dsimp only
  split
  · split
    · exact (h.load _ _ _ _ _).of_fst ‹_›
    · exact ((h.load _ _ _ _ _).of_fst ‹_›).modBlk _ _
  · split
    · exact (h.translate _ _ _ _ _).of_fst ‹_›
    · have h1 := (h.translate _ _ _ _ _).of_fst ‹_›
      split
      · exact (h1.loadAt _ _ _ _).of_fst ‹_›
      · exact ((h1.loadAt _ _ _ _).of_fst ‹_›).modBlk _ _
  · split
    · exact (h.store _ _ _ _).of_fst ‹_›
    · exact ((h.store _ _ _ _).of_fst ‹_›).modBlk _ _
  · split
    · exact (h.loadParts _ _ _).of_fst ‹_›
    · exact ((h.loadParts _ _ _).of_fst ‹_›).modBlk _ _
  · split
    · exact (h.checkParts _ _).of_fst ‹_›
    · split <;> exact (((h.checkParts _ _).of_fst ‹_›).storeParts _ _ _ _).of_fst ‹_›
  · split
    · exact (h.atomic _ _ _ _ _ _).of_fst ‹_›
    · exact (((h.atomic _ _ _ _ _ _).of_fst ‹_›).irrevoke _).modBlk _ _
  · split
    · exact (h.maintain _ _ _ _).of_fst ‹_›
    · exact ((h.maintain _ _ _ _).of_fst ‹_›).modBlk _ _
  · exact h

theorem State.MemWf.performOrdered (h : s.MemWf) (bid t : ℕ) (acc : LogAcc) (ea data data2 : ℕ) (l1 : Bool) :
    (s.performOrdered bid t acc ea data data2 l1).1.MemWf := by
  unfold State.performOrdered
  split
  · split
    · split
      · exact h.fenceBegin _ _ _
      · exact ((h.fenceFirst _ _ _).of_some ‹_›).perform _ _ _ _ _ _ _ _
    · exact (h.perform _ _ _ _ _ _ _ _).of_fst ‹_›
  · exact h.perform _ _ _ _ _ _ _ _

theorem State.MemWf.attempt (h : s.MemWf) (bid : ℕ) (acc : LogAcc) (l1 spec : Bool) (r : Req) : (s.attempt bid acc l1 spec r).1.MemWf := by
  unfold State.attempt
  split
  · exact h
  · exact h
  · exact h
  · exact h.perform _ _ _ _ _ _ _ _

theorem State.MemWf.askFor (h : s.MemWf) (bid : ℕ) (acc : LogAcc) (r : Req) : (s.askFor bid acc r).MemWf := by
  unfold State.askFor
  split
  · exact h.asked _ _
  · exact h

theorem Gathered.hold_wf {g : Gathered} (h : g.st.MemWf) (rs : List Req) : (g.hold rs).MemWf :=
  .ite h.stall (h.modCb _).noIssue

theorem Gathered.add_wf {g : Gathered} (h : g.st.MemWf) (bid : ℕ) (acc : LogAcc) (l1 spec : Bool) (lf : LF) (r : Req) : (g.add bid acc l1 spec lf r).st.MemWf := by
  unfold Gathered.add
  have ha := h.attempt bid acc l1 spec r
  split
  · exact h
  · split
    · exact h
    · split
      · exact ha.of_fst ‹_›
      · exact ha.of_fst ‹_›
      · exact ha.of_fst ‹_›
      · exact h.asked _ _
      · exact ha.of_fst ‹_›

theorem Gathered.foldl_wf {α : Type} {f : Gathered → α → Gathered} {g : Gathered} (h : g.st.MemWf)
    (hf : ∀ g e, g.st.MemWf → (f g e).st.MemWf) (l : List α) :
    (l.foldl f g).st.MemWf := by
  induction l generalizing g with
  | nil => exact h
  | cons e l ih => exact ih (hf g e h)

theorem Gathered.addTogether_wf {g : Gathered} (h : g.st.MemWf) (bid : ℕ) (acc : LogAcc) (lf : LF) (rs : List Req) : (g.addTogether bid acc lf rs).st.MemWf := by
  unfold Gathered.addTogether
  split
  · exact h
  · dsimp only
    split
    · exact h.fenceBegin _ _ _
    · have hs := (h.fenceFirst _ _ _).of_some ‹_›
      split
      · exact h.foldl fun _ _ hu => hu.askFor _ _ _
      · exact Gathered.foldl_wf hs (fun _ _ hg => Gathered.add_wf hg _ _ _ _ _ _) rs

theorem State.MemWf.collect (h : s.MemWf) (acc : LogAcc) (l1 spec : Bool) (lf : LF) (rs : List Req) : (s.collect acc l1 spec lf rs).st.MemWf := by
  unfold State.collect
  dsimp only
  split
  · exact Gathered.foldl_wf (h.preClean _ _) (fun _ _ hg => Gathered.addTogether_wf hg _ _ _ _) _
  · exact Gathered.foldl_wf h (fun _ _ hg => Gathered.add_wf hg _ _ _ _ _ _) rs

theorem State.MemWf.awaitReplay (h : s.MemWf) : s.awaitReplay.MemWf := ((h.countIssue _).modCb _).endTurn

theorem State.MemWf.dropSpec (h : s.MemWf) : s.dropSpec.MemWf := (h.modCore _ _).awaitReplay

theorem State.MemWf.access (h : s.MemWf) (i : Instr) (len : ℕ) (acc : LogAcc) (l1 own : Bool) (uni : Option (List ℕ)) (lf : LF) (d : Dst) (span : ℕ)
    (rs : List Req) (after : State → List (ℕ × Done) → State) (hafter : ∀ u e, u.MemWf → (after u e).MemWf) :
    (s.access i len acc l1 own uni lf d span rs after).MemWf := by
  have hc := h.collect acc l1 s.inShadow lf rs
  unfold State.access
  refine .ite h.awaitReplay (.ite h.awaitReplay (.ite h.dropSpec ?_))
  dsimp only
  split
  · refine .ite (h.asked _ _).stall (Gathered.hold_wf ?_ _)
    exact hc
  · exact hc.consume _ _ _
  · refine (hafter _ _ (((State.MemWf.write ?_ _ _ _).flagLanes _).logFaults _ _ _ _ _ _ _)).finishFaults _ _
    split
    · exact ((hc.countSectors _ _).advanceBut _ _).modCb _
    · exact (hc.countSectors _ _).advanceBut _ _

/-! ### Machine/MemoryOps.lean: memory instructions -/

theorem State.MemWf.lastUse (h : s.MemWf) (hint : Hint) (rs : List Req) (vs : List (ℕ × Done)) : (s.lastUse hint rs vs).MemWf :=
  .ite (h.foldl (fun _ _ hu => .ite (hu.l1Last _ _) hu)) h

theorem State.MemWf.prefetch (h : s.MemWf) (w : Who) (va : ℕ) (l1 : Bool) (sectors : List ℕ) :
    (s.prefetch w va l1 sectors).MemWf := by
  unfold State.prefetch
  refine (h.modCore _ _).ite_else fun hu => ?_
  dsimp only
  split
  · exact hu
  · refine (h.foldl (fun _ _ hw => .ite hw ?_)).ite_then fun hw => hw.l1Fill _ _ _
    split
    · exact (hw.loadAt _ _ _ _).of_fst ‹_›
    · exact (hw.loadAt _ _ _ _).of_fst ‹_›
    · exact hw

theorem execPref_wf (h : s.MemWf) (x : Opnds) (zx l1 : Bool) : OutcomeWf (execPref x zx l1 s) :=
  h.issue _ _ fun _ _ hu => (hu.foldl (fun _ _ hv => hv.prefetch _ _ _ _)).advance _

theorem State.MemWf.atomOp (h : s.MemWf) (i : Instr) (t : ATy) (op : AOp) (ord : AOrd) (returns flags : Bool) :
    OutcomeWf (s.atomOp i t op ord returns flags) :=
  h.issue _ _ fun _ _ hu => hu.access _ _ _ _ _ _ _ _ _ _ _ fun _ _ hv => .ite (hv.fenceLanes _ _ _ _) hv

theorem State.MemWf.hold (h : s.MemWf) (ex : List ℕ) (w : Wait) : (s.hold ex w).MemWf := (h.modCb _).endTurn

theorem State.MemWf.reissue (h : s.MemWf) (i : Instr) (len acc : ℕ) (ex : List ℕ) (cause why level va : ℕ) :
    (s.reissue i len acc ex cause why level va).MemWf :=
  ((h.logFaults _ _ _ _ _ _ _).modCb _).endTurn

theorem State.MemWf.onceStop (h : s.MemWf) (i : Instr) (len acc : ℕ) (ex : List ℕ) (va : ℕ) (lf : LF) (stop : Stop) :
    (s.onceStop i len acc ex va lf stop).MemWf := by
  unfold State.onceStop
  split
  · exact (h.advanceBut _ _).finishFaults _ _
  · exact h.reissue _ _ _ _ _ _ _ _
  · exact h.stall
  · exact h.consume _ _ _

theorem State.MemWf.pilotTake (h : s.MemWf) (d pa blk thr : ℕ) : (s.pilotTake d pa blk thr).MemWf := .ite h (.ite (h.modDie _ _) (h.modDie _ _))

theorem State.MemWf.pilotFree (h : s.MemWf) (d blk thr : ℕ) : (s.pilotFree d blk thr).MemWf := h.modDie _ _

theorem State.MemWf.waitcmpEnd (h : s.MemWf) (x : Opnds) (r : Bool) : (s.waitcmpEnd x r).MemWf := by
  unfold State.waitcmpEnd
  refine ((State.MemWf.advance ?_ _).write _ _ _).endTurn
  split
  · exact h.pilotFree _ _ _
  · exact h

theorem execWaitcmp_wf (h : s.MemWf) (x : Opnds) (t : ATy) (cc : Cc) : OutcomeWf (execWaitcmp x t cc s) := by
  unfold execWaitcmp
  refine h.issue _ _ fun _ _ hu => ?_
  dsimp only
  split
  · exact (hu.advance _).endTurn
  · split
    · exact hu.waitcmpEnd _ _
    · split
      · exact ((hu.advanceBut _ _).endTurn).finishFaults _ _
      · split
        · exact (((hu.translate _ _ _ _ _).of_fst ‹_›).onceStop _ _ _ _ _ _ _).endTurn
        · have h1 := (hu.translate _ _ _ _ _).of_fst ‹_›
          split
          · exact (((h1.loadAt _ _ _ _).of_fst ‹_›).onceStop _ _ _ _ _ _ _).endTurn
          · have h2 := (h1.loadAt _ _ _ _).of_fst ‹_›
            refine .ite ((h2.modCb _).waitcmpEnd _ _) (.ite ((h2.modCb _).waitcmpEnd _ _) ?_)
            exact ((h2.modCb _).hold _ _).pilotTake _ _ _ _

theorem State.MemWf.cmpKnown (h : s.MemWf) (blk thr : ℕ) (o : Bool) : (s.cmpKnown blk thr o).MemWf := (h.modBlk _ _).pilotFree _ _ _

theorem State.MemWf.unwatch (h : s.MemWf) (hit : Block → ℕ → ℕ → ℕ → Bool) : (s.unwatch hit).MemWf := by
  unfold State.unwatch
  refine h.foldl fun _ _ hu => ?_
  dsimp only
  split
  · exact hu
  · exact (hu.foldl (fun _ _ hw => hw.pilotFree _ _ _)).modBlk _ _

theorem State.MemWf.recheck (h : s.MemWf) (blk thr : ℕ) : (s.recheck blk thr).MemWf := by
  unfold State.recheck
  dsimp only
  split
  · split
    · have h1 := (h.loadAt _ _ _ _).of_fst ‹_›
      exact .ite (h1.cmpKnown _ _ _) h1
    · exact (h.loadAt _ _ _ _).of_fst ‹_›
  · exact h

theorem execWaitcmpPoll_wf (h : s.MemWf) (blk thr : ℕ) : OutcomeWf (execWaitcmpPoll blk thr s) := by
  unfold execWaitcmpPoll
  refine .next (.ite h ?_)
  dsimp only
  split
  · exact (h.recheck _ _).pilotTake _ _ _ _
  · exact h.recheck _ _

theorem execWaitcmpTimeout_wf (h : s.MemWf) (blk thr : ℕ) : OutcomeWf (execWaitcmpTimeout blk thr s) := by
  unfold execWaitcmpTimeout
  dsimp only
  split
  · exact .ite (.next (h.cmpKnown _ _ _)) (.next h)
  · exact .next h

theorem execFence_wf (h : s.MemWf) (x : Opnds) (m : BitVec 3) : OutcomeWf (execFence x m s) := by
  unfold execFence
  refine h.issue _ _ fun _ _ hu => ?_
  split
  · exact hu.advance _
  · exact (hu.advance _).fenceLanes _ _ _ _

theorem execPbar_wf (h : s.MemWf) (x : Opnds) (wait : Bool) : OutcomeWf (execPbar x wait s) := by
  unfold execPbar
  refine h.issue _ _ fun _ _ hu => ?_
  dsimp only
  split
  · exact hu.advance _
  · exact .ite hu.stall ((((hu.modHub _).advance _).modCb _).irrevoke _)

theorem State.MemWf.rangeOp (h : s.MemWf) (i : Instr) (k : ℕ) : OutcomeWf (s.rangeOp i k) :=
  h.issue _ _ fun _ _ hu => .ite (hu.advance _) (hu.access _ _ _ _ _ _ _ _ _ _ _ (fun _ _ hv => hv))

/-! ### Machine/ScratchOps.lean: scratchpad instructions -/

theorem State.MemWf.padLoad (h : s.MemWf) (bid size : ℕ) (as : List (ℕ × ℕ)) : (s.padLoad bid size as).1.MemWf := by
  unfold State.padLoad
  dsimp only
  split <;> exact (h.padServe _ _ _).of_fst ‹_›

theorem State.MemWf.padPut (h : s.MemWf) (bid : ℕ) (as : List (ℕ × ℕ × List Byte × List ℕ)) : (s.padPut bid as).MemWf := by
  unfold State.padPut
  split
  · exact h
  · exact h.padStore _ _

theorem State.MemWf.padStores (h : s.MemWf) (bid : ℕ) (as : List (ℕ × ℕ × List Byte)) : (s.padStores bid as).MemWf := h.padPut _ _

theorem State.MemWf.raiseAll (h : s.MemWf) (ts : List ℕ) (h0 : ℕ) : (s.raiseAll ts h0).MemWf := h.modCb _

theorem State.MemWf.padHold (h : s.MemWf) (vs : List (ℕ × ℕ × BitVec 6)) : (s.padHold vs).MemWf := (h.modCb _).endTurn

theorem State.MemWf.padLoaded (h : s.MemWf) (x : Opnds) (w : MWidth) (rs : List PadReq) (h0 : ℕ) (got : Except ℕ (List (ℕ × ℕ))) :
    (s.padLoaded x w rs h0 got).MemWf := by
  unfold State.padLoaded
  dsimp only
  split
  · exact h.consume _ _ _
  · exact (((h.advanceBut _ _).write _ _ _).raiseAll _ _).finishFaults _ _

theorem execLds_wf (h : s.MemWf) (x : Opnds) (w : MWidth) (zx : Bool) : OutcomeWf (execLds x w zx s) := by
  unfold execLds
  refine h.issue _ _ fun _ _ hu => .ite hu.stall ?_
  dsimp only
  split
  · have h1 := (hu.padLoad _ _ _).of_fst ‹_›
    exact .ite (h1.padLoaded _ _ _ _ _) (h1.padHold _)
  · exact ((hu.padLoad _ _ _).of_fst ‹_›).padLoaded _ _ _ _ _

theorem execSts_wf (h : s.MemWf) (x : Opnds) (w : MWidth) (zx : Bool) : OutcomeWf (execSts x w zx s) :=
  h.issue _ _ fun _ _ hu => .ite hu.stall (.ite ((hu.padStores _ _).padHold _) ((((hu.padStores _ _).advanceBut _ _).raiseAll _ _).finishFaults _ _))

theorem State.MemWf.atomsRead (h : s.MemWf) (size : ℕ) (good : List (ℕ × ℕ)) : (s.atomsRead size good).MemWf := h.modPad _ _

theorem execAtoms_wf (h : s.MemWf) (x : Opnds) (t : ATy) (op : AOp) : OutcomeWf (execAtoms x t op s) :=
  h.issue _ _ fun _ _ hu => .ite hu.stall (.ite ((hu.atomsRead _ _).consume _ _ _) (.ite ((hu.atomsRead _ _).consume _ _ _) (.ite
    (((hu.atomsRead _ _).padStore _ _).padHold _)
    (((((((hu.atomsRead _ _).padStore _ _).advanceBut _ _).write _ _ _).flagLanes _).raiseAll _ _).finishFaults _ _))))

theorem State.MemWf.uniformFault (h : s.MemWf) (x : Opnds) (lf : LF) : (s.uniformFault x lf).MemWf := (h.advanceBut _ _).finishFaults _ _

theorem State.MemWf.remoteDo (h : s.MemWf) (r : Rem) (tgt : ℕ) (ls : List (ℕ × ℕ × ℕ × List ℕ)) : OptionWf (s.remoteDo r tgt ls) := by
  unfold State.remoteDo
  dsimp only
  split
  · exact .some (h.uniformFault _ _)
  · refine .ite .none (.ite (.some ((h.padLoad _ _ _).padLoaded _ _ _ _ _)) ?_)
    split
    · exact .some ((((((h.padPut _ _).ite_else (fun hw => hw.irrevoke _)).ite_else (fun hw =>
        hw.irrevoke _)).raiseAll _ _).advanceBut _ _).finishFaults _ _)
    · refine .ite (.some ((((((h.padPut _ _).ite_else (fun hw => hw.irrevoke _)).ite_else
        (fun hw => hw.irrevoke _)).raiseAll _ _).arriveFrom _ _ _ _).ite_then (fun hw => (hw.advanceBut _ _).finishFaults _ _))) ?_
      exact .some ((((((h.padPut _ _).ite_else (fun hw => hw.irrevoke _)).ite_else (fun hw =>
        hw.irrevoke _)).raiseAll _ _).advanceBut _ _).finishFaults _ _)

theorem State.MemWf.linkGood (h : s.MemWf) (a c : ℕ) : (s.linkGood a c).MemWf := .ite h (h.modCluster _ _)

theorem State.MemWf.remoteSent (h : s.MemWf) (r : Rem) (tgt : ℕ) (ls : List (ℕ × ℕ × ℕ × List ℕ)) : OptionWf (s.remoteSent r tgt ls) :=
  (h.remoteDo _ _ _).map fun _ hu => hu.linkGood _ _

theorem State.MemWf.remoteOp (h : s.MemWf) (i : Instr) (peer : BitVec 2) (xr : Bool) : OutcomeWf (s.remoteOp i peer xr) := by
  unfold State.remoteOp
  refine h.issue _ _ fun _ _ hu => ?_
  dsimp only
  split
  · exact hu
  · refine .ite (hu.advance _) ?_
    split
    · exact hu.uniformFault _ _
    · exact hu.stall.ite_else fun hz => .ite ((hu.remoteSent _ _ _).getD hz) ((hu.hold _ _).modCore _ _)

theorem State.MemWf.remoteServe (h : s.MemWf) (q : RemoteReq) : OptionWf (s.remoteServe q) := by
  have hq : State.MemWf { s with sel := q.sel } := h
  unfold State.remoteServe
  refine .ite OptionWf.none ?_
  dsimp only
  split
  · exact OptionWf.none
  · refine .ite (OptionWf.some ?_) (.ite ?_ OptionWf.none)
    · exact (hq.uniformFault _ _).of_mem rfl
    · exact (hq.remoteSent _ _ _).map fun _ hu => hu.of_mem rfl

theorem State.MemWf.servePort (h : s.MemWf) (c n : ℕ) (qs kept : List RemoteReq) : (State.servePort c n qs kept s).MemWf := by
  fun_induction State.servePort c n qs kept s with
  | case1 => exact h
  | case2 => exact h
  | case3 _ _ _ _ _ _ ih => exact ih h
  | case4 _ _ _ _ _ _ _ hq ih => exact ih (((h.remoteServe _).of_some hq).modCore _ _)
  | case5 _ _ _ _ _ _ _ ih => exact ih h

/-! ### Machine/Barrier.lean: barriers and rings -/

theorem State.MemWf.holdEach (h : s.MemWf) (len : ℕ) (ex : List ℕ) (w : ℕ → Wait) : (s.holdEach len ex w).MemWf := (h.modCb _).endTurn

theorem execBbind_wf (h : s.MemWf) (x : Opnds) (n : BitVec 4) (all : Bool) : OutcomeWf (execBbind x n all s) := by
  unfold execBbind
  refine h.issue _ _ fun _ _ hu => ?_
  dsimp only
  split
  · exact hu.advance _
  · split
    · exact hu.uniformFault _ _
    · refine .ite hu.stall ?_
      split
      · exact ((hu.padLoad _ _ _).of_fst ‹_›).consume _ _ _
      · have h1 := (hu.padLoad _ _ _).of_fst ‹_›
        exact .ite (h1.uniformFault _ _) ((((h1.setBar _ _ _).modCb _).advance _).raiseAll _ _)

theorem State.MemWf.endWaits (h : s.MemWf) (bid n : ℕ) : (s.endWaits bid n).MemWf := (h.modBlk _ _).faultWaits _ _ _

theorem execBunbind_wf (h : s.MemWf) (x : Opnds) (n : BitVec 4) : OutcomeWf (execBunbind x n s) := by
  unfold execBunbind
  refine h.issue _ _ fun _ _ hu => .ite (hu.advance _) ?_
  dsimp only
  split
  · exact hu.uniformFault _ _
  · refine .ite hu.stall ?_
    exact (((((hu.barAccess _ _ _ (fun _ hw => hw.setBar _ _ _)).modCb _).advance _).raiseAll _ _).endWaits _ _).settle _

theorem State.MemWf.barrive (h : s.MemWf) (bid n : ℕ) (ex : List ℕ) (bytes : ℤ) : (s.barrive bid n ex bytes).1.MemWf := by
  unfold State.barrive
  dsimp only
  split
  · exact h
  · split
    · exact h
    · exact h.barUpdate _ _ _ _

theorem execBarr_wf (h : s.MemWf) (x : Opnds) (n : BitVec 4) : OutcomeWf (execBarr x n s) :=
  h.issue _ _ fun _ _ hu => .ite (hu.advance _) ((((hu.barrive _ _ _ _).advanceBut _ _).raiseAll _ _).finishFaults _ _)

theorem execBarrb_wf (h : s.MemWf) (x : Opnds) (n : BitVec 4) : OutcomeWf (execBarrb x n s) :=
  h.issue _ _ fun _ _ hu => .ite (hu.advance _) (.ite ((((hu.barrive _ _ _ _).raiseAll _ _).advanceBut _ _).finishFaults _ _)
    ((((hu.barrive _ _ _ _).raiseAll _ _).holdEach _ _ _).finishFaults _ _))

theorem execBwait_wf (h : s.MemWf) (x : Opnds) (n : BitVec 4) : OutcomeWf (execBwait x n s) := by
  unfold execBwait
  refine h.issue _ _ fun _ _ hu => (hu.advance _).ite_else fun hv => .ite hv ?_
  dsimp only
  split
  · exact hu.uniformFault _ _
  · exact .ite ((hu.raiseAll _ _).advance _) ((hu.raiseAll _ _).holdEach _ _ _)

theorem execBtest_wf (h : s.MemWf) (x : Opnds) (n : BitVec 4) : OutcomeWf (execBtest x n s) := by
  unfold execBtest
  refine h.issue _ _ fun _ _ hu => (hu.advance _).ite_else fun hv => ?_
  split
  · exact hu.uniformFault _ _
  · exact (hv.write _ _ _).raiseAll _ _

theorem State.MemWf.setTmo (h : s.MemWf) (bid n : ℕ) : (s.setTmo bid n).MemWf := by
  unfold State.setTmo
  split
  · exact h.barAccess _ _ _ fun _ hu => hu.putBar _ _ _ _
  · exact h

theorem State.MemWf.bwaittEnd (h : s.MemWf) (x : Opnds) (n : ℕ) (late : Bool) (rs : List (ℕ × Bool)) : (s.bwaittEnd x n late rs).MemWf :=
  ((h.advance _).write _ _ _).ite_then fun hu => hu.setTmo _ _

theorem execBwaitt_wf (h : s.MemWf) (x : Opnds) (n : BitVec 4) : OutcomeWf (execBwaitt x n s) := by
  unfold execBwaitt
  refine h.issue _ _ fun _ _ hu => ?_
  dsimp only
  split
  · exact hu.advance _
  · refine .ite (hu.bwaittEnd _ _ _ _) ?_
    split
    · exact hu.uniformFault _ _
    · exact .ite ((hu.raiseAll _ _).bwaittEnd _ _ _ _) ((hu.raiseAll _ _).holdEach _ _ _)

theorem execBwaittTimeout_wf (h : s.MemWf) (blk thr : ℕ) : OutcomeWf (execBwaittTimeout blk thr s) := by
  unfold execBwaittTimeout
  dsimp only
  split
  · exact .ite (.next ((h.modBlk _ _).setTmo _ _)) (.next h)
  · exact .next h

theorem execBexp_wf (h : s.MemWf) (x : Opnds) (n : BitVec 4) (now clrt : Bool) : OutcomeWf (execBexp x n now clrt s) := by
  unfold execBexp
  refine h.issue _ _ fun _ _ hu => .ite (hu.advance _) ?_
  dsimp only
  split
  · exact hu.uniformFault _ _
  · exact .ite (hu.uniformFault _ _) (((hu.barUpdate _ _ _ _).advance _).raiseAll _ _)

theorem execBblk_wf (h : s.MemWf) (x : Opnds) : OutcomeWf (execBblk x s) :=
  h.issue _ _ fun _ _ hu => .ite (hu.advance _) (((((hu.advanceBut _ _).modCb _).raiseAll _ _).endTurn).settle _)

theorem execRingBind_wf (h : s.MemWf) (x : Opnds) (n : BitVec 4) (d : BitVec 3) : OutcomeWf (execRingBind x n d s) := by
  unfold execRingBind
  refine h.issue _ _ fun _ _ hu => .ite (hu.advance _) ?_
  dsimp only
  split
  · exact hu.uniformFault _ _
  · exact ((hu.modCb _).advance _).raiseAll _ _

theorem State.MemWf.ringOp (h : s.MemWf) (i : Instr) (n : ℕ) (f : Opnds → State → ℕ → ℕ → ℕ → State)
    (hf : ∀ x u a b c, u.MemWf → (f x u a b c).MemWf) :
    OutcomeWf (s.ringOp i n f) := by
  unfold State.ringOp
  refine h.issue _ _ fun _ _ hu => .ite (hu.advance _) ?_
  dsimp only
  split
  · exact hu.uniformFault _ _
  · exact hf _ _ _ _ _ hu

theorem State.MemWf.ringWait (h : s.MemWf) (x : Opnds) (slot u k : ℕ) : (s.ringWait x slot u k).MemWf :=
  .ite h.stall (((h.advance _).write _ _ _).raiseAll _ _)

theorem State.MemWf.ringArrive (h : s.MemWf) (x : Opnds) (n slot : ℕ) (bytes : ℤ) (next : ℕ × ℕ) : (s.ringArrive x n slot bytes next).MemWf :=
  .ite (h.uniformFault _ _) ((((h.arrive _ _ _ _).modCb _).advance _).raiseAll _ _)

/-! ### Machine/Engine.lean: engine accesses -/

theorem State.MemWf.irrevokePeer (h : s.MemWf) (bid : ℕ) (vas : List ℕ) : (s.irrevokePeer bid vas).MemWf := .ite (h.irrevoke _) h

theorem State.MemWf.engStop (h : s.MemWf) (w : Who) (acc va : ℕ) (x : Stop) : (s.engStop w acc va x).1.MemWf := by
  unfold State.engStop
  split
  · split
    · exact h
    · exact h.modHub _
  · exact h

theorem State.MemWf.engPage (h : s.MemWf) (w : Who) (va n : ℕ) (acc : Access) : (s.engPage w va n acc).1.MemWf := by
  unfold State.engPage
  dsimp only
  split
  · exact h
  · split
    · exact ((h.translate _ _ _ _ _).of_fst ‹_›).engStop _ _ _ _
    · exact (h.translate _ _ _ _ _).of_fst ‹_›

theorem State.MemWf.engReadPage (h : s.MemWf) (w : Who) (p : Page) (va n : ℕ) : (s.engReadPage w p va n).1.MemWf := by
  unfold State.engReadPage
  dsimp only
  split
  · exact ((h.loadAt _ _ _ _).of_fst ‹_›).countPeer _ _ _
  · split <;> exact (h.loadAt _ _ _ _).of_fst ‹_›
  · exact ((h.loadAt _ _ _ _).of_fst ‹_›).engStop _ _ _ _

theorem State.MemWf.engReadPart (h : s.MemWf) (w : Who) (va n : ℕ) : (s.engReadPart w va n).1.MemWf := by
  unfold State.engReadPart
  split
  · exact (h.engPage _ _ _ _).of_fst ‹_›
  · exact ((h.engPage _ _ _ _).of_fst ‹_›).engReadPage _ _ _ _

theorem State.MemWf.engWaits (h : s.MemWf) (x : EngStop) : (s.engWaits x).MemWf := h.closeAnswers _

theorem State.MemWf.engRead (h : s.MemWf) (w : Who) (ps : List (ℕ × ℕ)) : (s.engRead w ps).1.MemWf := by
  induction ps generalizing s with
  | nil => exact h
  | cons p r ih =>
    unfold State.engRead
    split
    · exact ((h.engReadPart _ _ _).of_fst ‹_›).engWaits _
    · have hr := ih ((h.engReadPart _ _ _).of_fst ‹_›)
      split <;> exact hr.of_fst ‹_›

theorem State.MemWf.engCanWrite (h : s.MemWf) (w : Who) (bad : Bool) (ps : List (ℕ × ℕ)) : (s.engCanWrite w bad ps).1.MemWf := by
  induction ps generalizing s with
  | nil => exact h
  | cons p r ih =>
    unfold State.engCanWrite
    split
    · exact ((h.engPage _ _ _ _).of_fst ‹_›).engWaits _
    · have hp := (h.engPage _ _ _ _).of_fst ‹_›
      dsimp only
      split
      · exact ((hp.askPeer _ _).engStop _ _ _ _).engWaits _
      · exact ih hp

theorem State.MemWf.l1Drop (h : s.MemWf) (w : Who) (va : ℕ) : (s.l1Drop w va).MemWf := by
  unfold State.l1Drop
  split
  · exact h
  · exact h.modCore _ _

theorem State.MemWf.taintSent (h : s.MemWf) (a pa : ℕ) : (s.taintSent a pa).MemWf := h.modHub _

theorem State.MemWf.engStorePage (h : s.MemWf) (w : Who) (p : Page) (va : ℕ) (bs : List EByte) (writer : List (ℕ × ℕ)) :
    (s.engStorePage w p va bs writer).1.MemWf := by
  unfold State.engStorePage
  dsimp only
  split
  · exact (h.storeAt _ _ _ _ _).of_fst ‹_›
  · have h1 := (h.storeAt _ _ _ _ _).of_fst ‹_›
    split
    · exact ((((((h1.nameSent _ _ _).countPeer _ _ _).peerStore _ _).ite_then (fun hu =>
        hu.taintSent _ _)).writeBack _ _ _).poisonHome _ _).dropL2 _ _ _
    · exact ((h1.nameSent _ _ _).countPeer _ _ _).peerStore _ _

theorem State.MemWf.engWritePart (h : s.MemWf) (w : Who) (bid va : ℕ) (bs : List EByte) : (s.engWritePart w bid va bs).MemWf := by
  unfold State.engWritePart
  dsimp only
  split
  · exact (h.engPage _ _ _ _).of_fst ‹_›
  · have h1 := (h.engPage _ _ _ _).of_fst ‹_›
    split
    · exact (h1.engStorePage _ _ _ _ _).of_fst ‹_›
    · have h2 := (h1.engStorePage _ _ _ _ _).of_fst ‹_›
      exact .ite (h2.l1Drop _ _) (h2.l1Update _ _ _)

theorem State.MemWf.engWriteParts (h : s.MemWf) (w : Who) (bid : ℕ) (ps : List (ℕ × ℕ)) (bs : List EByte) : (s.engWriteParts w bid ps bs).MemWf := by
  induction ps generalizing s bs with
  | nil => exact h
  | cons p r ih => exact ih (h.engWritePart _ _ _ _) _

theorem State.MemWf.engWrite (h : s.MemWf) (w : Who) (bid va : ℕ) (bs : List EByte) : (s.engWrite w bid va bs).1.MemWf := by
  unfold State.engWrite
  dsimp only
  split
  · exact (h.engCanWrite _ _ _).of_fst ‹_›
  · exact ((h.engCanWrite _ _ _).of_fst ‹_›).engWriteParts _ _ _ _

theorem State.MemWf.engineFault (h : s.MemWf) (bid cause why level acc va : ℕ) (who : Waiter) :
    (s.engineFault bid cause why level acc va who).1.MemWf :=
  h.raiseRestart _ _ _

theorem State.MemWf.copyFault (h : s.MemWf) (bid : ℕ) : (s.copyFault bid).MemWf := h.kill _ _ _ _

/-! ### Machine/Bank.lean: bank commands -/

theorem State.MemWf.bankPages (h : s.MemWf) (w : Who) (hi : ℕ) (isD : Bool) (fuel va : ℕ) : (s.bankPages w hi isD fuel va).1.MemWf := by
  induction fuel generalizing s va with
  | zero => exact h
  | succ fuel ih =>
    unfold State.bankPages
    split
    · exact h
    · split
      · exact (h.translate _ _ _ _ _).of_fst ‹_›
      · have ht := (h.translate _ _ _ _ _).of_fst ‹_›
        have hr := fun va => ih ht va
        dsimp only
        rw [apply_ite Prod.fst, apply_ite Prod.fst]
        refine .ite ht (.ite ht ?_)
        split <;> exact (hr _).of_fst ‹_›

theorem State.MemWf.bankAllPages (h : s.MemWf) (w : Who) (ps : List (ℕ × ℕ × Bool)) : (s.bankAllPages w ps).1.MemWf := by
  induction ps generalizing s with
  | nil => exact h
  | cons p r ih =>
    unfold State.bankAllPages
    split
    · exact (h.bankPages _ _ _ _ _).of_fst ‹_›
    · have hr := ih ((h.bankPages _ _ _ _ _).of_fst ‹_›)
      split <;> exact hr.of_fst ‹_›

theorem State.MemWf.bankOp (h : s.MemWf) (i : Instr) (op : BankOp) (t : BkTy) (rnd : Rnd) : OutcomeWf (s.bankOp i op t rnd) := by
  unfold State.bankOp
  refine h.issue _ _ fun _ _ hu => ?_
  dsimp only
  split
  · exact hu.advance _
  · refine .ite (hu.uniformFault _ _) (.ite (hu.uniformFault _ _) (.ite (hu.uniformFault _ _) (.ite (hu.advance _) ?_)))
    split
    · exact ((hu.bankAllPages _ _).of_fst ‹_›).uniformFault _ _
    · exact ((hu.bankAllPages _ _).of_fst ‹_›).onceStop _ _ _ _ _ _ _
    · exact ((((hu.bankAllPages _ _).of_fst ‹_›).advance _).modDie _ _).irrevoke _

theorem execBkWait_wf (h : s.MemWf) (x : Opnds) : OutcomeWf (execBkWait x s) := by
  unfold execBkWait
  refine h.issue _ _ fun _ _ hu => ?_
  dsimp only
  split
  · exact hu.advance _
  · exact .ite hu.stall ((((hu.absorb _ _).advance _).modCb _).write _ _ _)

theorem State.MemWf.bankNote (h : s.MemWf) (c : BankCmd) (fl : Fp.Flags) (poison : Bool) : (s.bankNote c fl poison).MemWf := h.modBlk _ _

theorem State.MemWf.bankWrite (h : s.MemWf) (c : BankCmd) (va : ℕ) (bytes : List Byte) (bad : Bool) : (s.bankWrite c va bytes bad).MemWf :=
  (((h.stamp _).note _ _ _ _).homeWrite _ _ _).modBlk _ _

theorem State.MemWf.bankElement (h : s.MemWf) (c : BankCmd) (mem : Memory) (poison : Sparse Unit) (i : ℕ) : (s.bankElement c mem poison i).MemWf :=
  (h.bankWrite _ _ _ _).bankNote _ _ _

theorem State.MemWf.bankTangled (h : s.MemWf) (c : BankCmd) (mem : Memory) (poison : Sparse Unit) (is : List ℕ) : (s.bankTangled c mem poison is).MemWf := by
  induction is generalizing s with
  | nil => exact h
  | cons i is ih => exact ih (.ite (h.draw.bankElement _ _ _ _) (h.draw.bankElement _ _ _ _))

theorem State.MemWf.bankPerform (h : s.MemWf) (c : BankCmd) (es : List ℕ) : (s.bankPerform c es).MemWf := by
  unfold State.bankPerform
  dsimp only
  split
  · exact (h.bankWrite _ _ _ _).bankNote _ _ _
  · exact .ite (h.update.bankTangled _ _ _ _) (h.foldl (fun _ _ hu => hu.bankElement _ _ _ _))

theorem execBankCommandPerform_wf (h : s.MemWf) (die : ℕ) (turn : BankTurn) : OutcomeWf (execBankCommandPerform die turn s) := by
  unfold execBankCommandPerform
  dsimp only
  split
  · exact .next h
  · exact .ite (.next h) (.next (((h.foldl (fun _ _ hu => hu.absorb _ _)).bankPerform _ _).modDie _ _))

/-! ### Machine/Copy.lean: copies -/

theorem State.MemWf.supply (h : s.MemWf) (i : Instr) (kind : CopyKind) (s2g : Bool) (slot : Option ℕ) : OutcomeWf (s.supply i kind s2g slot) := by
  unfold State.supply
  refine h.issue _ _ fun _ _ hu => .ite hu.stall ?_
  dsimp only
  split
  · exact (hu.modCb _).advance _
  · exact (hu.modCb _).uniformFault _ _

theorem State.MemWf.engineArrive (h : s.MemWf) (bid : ℕ) (slot : Option ℕ) (external : Bool) : (s.engineArrive bid slot external).MemWf := by
  unfold State.engineArrive
  split
  · exact .ite (h.arrive _ _ _ _) h
  · exact h

theorem State.MemWf.engineLand (h : s.MemWf) (bid : ℕ) (slot : Option ℕ) (n : ℕ) (external : Bool) : (s.engineLand bid slot n external).MemWf := by
  unfold State.engineLand
  split
  · exact .ite (h.landBytes _ _ _ _) h
  · exact h

theorem execCopyAccept_wf (h : s.MemWf) (blk : ℕ) : OutcomeWf (execCopyAccept blk s) := by
  unfold execCopyAccept
  refine .ite (.next h) (.next ((State.MemWf.irrevokePeer ?_ _ _).engineArrive _ _ _))
  split
  · exact h.modBlk _ _
  · exact (h.modBlk _ _).modCore _ _

theorem State.MemWf.engPad (h : s.MemWf) (bid a n : ℕ) : (s.engPad bid a n).1.MemWf := by
  unfold State.engPad
  dsimp only
  split <;> exact h.modPad _ _

theorem State.MemWf.copyFails (h : s.MemWf) (bid k : ℕ) : (s.copyFails bid k).MemWf := ((h.modBlk _ _).modCore _ _).copyFault _

theorem State.MemWf.copyStop (h : s.MemWf) (bid k : ℕ) (stop : EngStop) : (s.copyStop bid k stop).MemWf := by
  unfold State.copyStop
  dsimp only
  split
  · exact h
  · exact h.copyFails _ _
  · exact .ite (h.copyFails _ _) ((h.engineFault _ _ _ _ _ _ _).modBlk _ _)

theorem State.MemWf.rowLanded (h : s.MemWf) (bid : ℕ) (c : Copy) (bytes : ℕ) : (s.rowLanded bid c bytes).MemWf :=
  .ite ((h.engineLand _ _ _ _).modBlk _ _) (((h.engineLand _ _ _ _).modBlk _ _).modCore _ _)

theorem execCopyBytesLand_wf (h : s.MemWf) (blk n : ℕ) : OutcomeWf (execCopyBytesLand blk n s) := by
  unfold execCopyBytesLand
  dsimp only
  split
  · exact .next h
  · refine .ite (.next (h.copyFails _ _)) (.ite (.next h) ?_)
    split
    · exact .next h
    · refine .ite (.ite (.next (h.copyFails _ _)) ?_) ?_
      · split
        · exact .next (((h.engRead _ _).of_fst ‹_›).copyStop _ _ _)
        · exact .next ((((h.engRead _ _).of_fst ‹_›).padStore _ _).rowLanded _ _ _)
      · split
        · have h1 := (h.engPad _ _ _).of_fst ‹_›
          exact .next (.ite (h1.consume _ _ _) (h1.rowLanded _ _ _))
        · have h2 := (h.engPad _ _ _).of_fst ‹_›
          split
          · exact .next (((h2.engWrite _ _ _ _).of_fst ‹_›).copyStop _ _ _)
          · exact .next (((h2.engWrite _ _ _ _).of_fst ‹_›).rowLanded _ _ _)

theorem execScbdWait_wf (h : s.MemWf) (x : Opnds) : OutcomeWf (execScbdWait x s) := by
  unfold execScbdWait
  refine h.issue _ _ fun _ _ hu => ?_
  split
  · exact hu.advance _
  · exact .ite hu.stall ((hu.advance _).write _ _ _)

/-! ### Machine/Bulk.lean: bulk commands -/

theorem State.MemWf.queueBulk (h : s.MemWf) (ts : List ℕ) (kind : BulkKind) : (s.queueBulk ts kind).MemWf := h.modDie _ _

theorem execCpyGl_wf (h : s.MemWf) (x : Opnds) : OutcomeWf (execCpyGl x s) := by
  unfold execCpyGl
  refine h.issue _ _ fun _ _ hu => ?_
  dsimp only
  split
  · exact hu.advance _
  · refine .ite (hu.uniformFault _ _) ?_
    split
    · exact hu.uniformFault _ _
    · exact .ite hu.stall (((hu.advance _).queueBulk _ _).irrevokePeer _ _)

theorem execCpyFan_wf (h : s.MemWf) (x : Opnds) (n : BitVec 4) (ns : Bool) : OutcomeWf (execCpyFan x n ns s) :=
  h.issue _ _ fun _ _ hu => .ite ((hu.advanceBut _ _).finishFaults _ _) (.ite hu.stall
    (((((hu.advanceBut _ _).queueBulk _ _).irrevokePeer _ _).engineArrive _ _ _).finishFaults _ _))

theorem State.MemWf.sealOp (h : s.MemWf) (i : Instr) (dec : Bool) : OutcomeWf (s.sealOp i dec) := by
  unfold State.sealOp
  refine h.issue _ _ fun _ _ hu => ?_
  dsimp only
  split
  · exact hu.advance _
  · split
    · exact hu.uniformFault _ _
    · exact .ite hu.stall (((hu.advance _).queueBulk _ _).irrevoke _)

theorem State.MemWf.modBulk (h : s.MemWf) (d k : ℕ) (f : BulkCmd → BulkCmd) : (s.modBulk d k f).MemWf := h.modDie _ _

theorem State.MemWf.dropBulk (h : s.MemWf) (d k : ℕ) : (s.dropBulk d k).MemWf := h.modDie _ _

theorem State.MemWf.bulkFault (h : s.MemWf) (d : ℕ) (c : BulkCmd) : (s.bulkFault d c).MemWf := (h.dropBulk _ _).copyFault _

theorem State.MemWf.bulkWait (h : s.MemWf) (d : ℕ) (c : BulkCmd) (cause why level acc va : ℕ) : (s.bulkWait d c cause why level acc va).MemWf :=
  (h.engineFault _ _ _ _ _ _ _).modBulk _ _ _

theorem State.MemWf.bulkCode (h : s.MemWf) (d : ℕ) (c : BulkCmd) (done code : ℕ) : (s.bulkCode d c done code).MemWf := h.modBulk _ _ _

theorem State.MemWf.bulkRelease (h : s.MemWf) (d : ℕ) (c : BulkCmd) : OptionWf (s.bulkRelease d c) :=
  .ite .none (.ite .none (.some (h.foldl (fun _ _ hu => hu.writeBack _ _ _))))

theorem State.MemWf.bulkStatus (h : s.MemWf) (d : ℕ) (c : BulkCmd) (va code : ℕ) : (s.bulkStatus d c va code).MemWf := by
  unfold State.bulkStatus
  dsimp only
  split
  · exact h
  · have h1 := (h.bulkRelease _ _).of_some ‹_›
    refine .ite (h1.bulkFault _ _) ?_
    split
    · exact ((h1.engWrite _ _ _ _).of_fst ‹_›).dropBulk _ _
    · exact (h1.engWrite _ _ _ _).of_fst ‹_›
    · exact ((h1.engWrite _ _ _ _).of_fst ‹_›).bulkFault _ _
    · exact ((h1.engWrite _ _ _ _).of_fst ‹_›).bulkWait _ _ _ _ _ _ _

theorem State.MemWf.copyBytes (h : s.MemWf) (w : Who) (bid src dst n : ℕ) : (s.copyBytes w bid src dst n).1.MemWf := by
  unfold State.copyBytes
  split
  · exact (h.engRead _ _).of_fst ‹_›
  · have h1 := (h.engRead _ _).of_fst ‹_›
    split
    · exact ((h1.engWrite _ _ _ _).of_fst ‹_›).closeAnswers _
    · exact h1.engWrite _ _ _ _

theorem State.MemWf.looseEntries (h : s.MemWf) (w : Who) (bid : ℕ) (buf : List Byte) (js : List ℕ) : (s.looseEntries w bid buf js).MemWf := by
  induction js generalizing s with
  | nil => exact h
  | cons j js ih => exact ih (.ite (h.draw.copyBytes _ _ _ _ _) h.draw)

theorem State.MemWf.gatherRun (h : s.MemWf) (d : ℕ) (c : BulkCmd) (buf : List Byte) (n fuel j : ℕ) : (State.gatherRun d c buf n fuel j s).MemWf := by
  induction fuel generalizing s j with
  | zero => exact h.bulkCode _ _ _ _
  | succ fuel ih =>
    unfold State.gatherRun
    dsimp only
    refine .ite ((h.looseEntries _ _ _ _).bulkCode _ _ _ _) ?_
    have hc := h.copyBytes (s.blk c.blk).engine c.blk (glEntry buf j).1 (glEntry buf j).2.1 (glEntry buf j).2.2.1
    split
    · exact ih (hc.of_fst ‹_›) _
    · exact (hc.of_fst ‹_›).modBulk _ _ _
    · exact ((hc.of_fst ‹_›).looseEntries _ _ _ _).bulkCode _ _ _ _
    · exact ((hc.of_fst ‹_›).modBulk _ _ _).bulkWait _ _ _ _ _ _ _

theorem State.MemWf.gather (h : s.MemWf) (d : ℕ) (c : BulkCmd) (list n : ℕ) : (s.gather d c list n).MemWf := by
  unfold State.gather
  dsimp only
  split
  · exact h.gatherRun _ _ _ _ _ _
  · split
    · exact (h.engRead _ _).of_fst ‹_›
    · exact ((h.engRead _ _).of_fst ‹_›).bulkCode _ _ _ _
    · exact ((h.engRead _ _).of_fst ‹_›).bulkWait _ _ _ _ _ _ _
    · have h1 := (h.engRead _ _).of_fst ‹_›
      exact .ite (h1.bulkCode _ _ _ _) ((h1.modBulk _ _ _).gatherRun _ _ _ _ _ _)

theorem State.MemWf.fanLane (h : s.MemWf) (w : Who) (bid : ℕ) (src dst : DWord) (len count : ℕ) (stride : ℤ) :
    (s.fanLane w bid src dst len count stride).1.MemWf := by
  unfold State.fanLane
  dsimp only
  split
  · exact (h.engRead _ _).of_fst ‹_›
  · have h1 := (h.engRead _ _).of_fst ‹_›
    split
    · exact (h1.engCanWrite _ _ _).of_fst ‹_›
    · exact ((h1.engCanWrite _ _ _).of_fst ‹_›).foldl fun _ _ hu => hu.engWriteParts _ _ _ _

theorem State.MemWf.fanRun (h : s.MemWf) (d : ℕ) (c : BulkCmd) (len count : ℕ) (stride : ℤ) (slot : Option ℕ) (lanes : List (DWord × DWord)) (j : ℕ) :
    (State.fanRun d c len count stride slot lanes j s).MemWf := by
  induction lanes generalizing s j with
  | nil => exact h.dropBulk _ _
  | cons e r ih =>
    unfold State.fanRun
    have hl := h.fanLane (s.blk c.blk).engine c.blk e.1 e.2 len count stride
    split
    · exact ih ((hl.of_fst ‹_›).engineLand _ _ _ _) _
    · exact (hl.of_fst ‹_›).modBulk _ _ _
    · exact (hl.of_fst ‹_›).bulkFault _ _
    · have h1 := hl.of_fst ‹_›
      exact .ite (h1.bulkFault _ _) ((h1.modBulk _ _ _).bulkWait _ _ _ _ _ _ _)

/-- How a sealing command stops: it waits, fails, or meets a fault (State.sealRun). -/
theorem State.MemWf.sealStop (h : s.MemWf) (d : ℕ) (c : BulkCmd) (j : ℕ) (x : EngStop) :
    State.MemWf (match x with
      | .wait => s.modBulk d c.k fun x => { x with done := j }
      | .fail code => s.bulkCode d c j code
      | .fault cause why level acc va => (s.modBulk d c.k fun x => { x with done := j }).bulkWait d c cause why level acc va) := by
  cases x with
  | wait => exact h.modBulk _ _ _
  | fail code => exact h.bulkCode _ _ _ _
  | fault cause why level acc va => exact (h.modBulk _ _ _).bulkWait _ _ _ _ _ _ _

theorem State.MemWf.sealRun (h : s.MemWf) (d : ℕ) (c : BulkCmd) (dec : Bool) (key src dst len tweak fuel j : ℕ) :
    (State.sealRun d c dec key src dst len tweak fuel j s).MemWf := by
  induction fuel generalizing s j with
  | zero => exact h.bulkCode _ _ _ _
  | succ fuel ih =>
    unfold State.sealRun
    dsimp only
    split
    · exact ((h.engRead _ _).of_fst ‹_›).sealStop _ _ _ _
    · have hr := (h.engRead _ _).of_fst ‹_›
      split
      · exact ((hr.engWrite _ _ _ _).of_fst ‹_›).sealStop _ _ _ _
      · exact ih ((hr.engWrite _ _ _ _).of_fst ‹_›) _

theorem State.MemWf.sealStart (h : s.MemWf) (d : ℕ) (c : BulkCmd) (dec : Bool) (buf : List Byte) : (s.sealStart d c dec buf).MemWf := by
  unfold State.sealStart
  refine .ite (h.bulkCode _ _ _ _) ?_
  dsimp only
  split
  · exact h.bulkCode _ _ _ _
  · exact h.sealRun _ _ _ _ _ _ _ _ _ _

theorem State.MemWf.sealing (h : s.MemWf) (d : ℕ) (c : BulkCmd) (dec : Bool) (desc : ℕ) : (s.sealing d c dec desc).MemWf := by
  unfold State.sealing
  dsimp only
  split
  · exact h.sealStart _ _ _ _
  · split
    · exact (h.engRead _ _).of_fst ‹_›
    · exact ((h.engRead _ _).of_fst ‹_›).bulkFault _ _
    · exact ((h.engRead _ _).of_fst ‹_›).bulkWait _ _ _ _ _ _ _
    · have h1 := (h.engRead _ _).of_fst ‹_›
      exact .ite (h1.bulkFault _ _) ((h1.modBulk _ _ _).sealStart _ _ _ _)

theorem State.MemWf.setKcopy (h : s.MemWf) (d : ℕ) (c : KernelCopy) (n : ℕ) : (s.setKcopy d c n).MemWf := h.modDie _ _

theorem State.MemWf.kcopyStep (h : s.MemWf) (d : ℕ) (c : KernelCopy) : (s.kcopyStep d c).MemWf := by
  unfold State.kcopyStep
  refine .ite (h.setKcopy _ _ _) ?_
  dsimp only
  split
  · exact h.askPeer _ _
  · exact h.setKcopy _ _ _
  · split
    · exact (h.engReadPage _ _ _ _).of_fst ‹_›
    · exact ((h.engReadPage _ _ _ _).of_fst ‹_›).setKcopy _ _ _
    · exact (((h.engReadPage _ _ _ _).of_fst ‹_›).engStorePage _ _ _ _ _).setKcopy _ _ _

theorem execBulkCommandPerform_wf (h : s.MemWf) (die k : ℕ) : OutcomeWf (execBulkCommandPerform die k s) := by
  unfold execBulkCommandPerform
  dsimp only
  split
  · refine OutcomeWf.next ?_
    cases (s.die die).kcopies.find? fun c => c.k == k with
    | none => exact h
    | some c => exact h.kcopyStep _ _
  · refine .ite (OutcomeWf.next h) ?_
    split
    · exact OutcomeWf.next (.ite (h.bulkFault _ _) (h.bulkStatus _ _ _ _))
    · refine .ite (OutcomeWf.next (.ite ((h.bulkCode _ _ _ _).modBulk _ _ _) (h.bulkFault _ _))) (OutcomeWf.next ?_)
      split
      · exact h.gather _ _ _ _
      · exact h.fanRun _ _ _ _ _ _ _ _
      · exact h.sealing _ _ _ _

/-! ### Machine/Control.lean: control flow -/

theorem State.MemWf.jump (h : s.MemWf) (len : ℕ) (ts : List (ℕ × DWord)) : (s.jump len ts).MemWf := ((h.advanceBut _ _).modCb _).finishFaults _ _

theorem State.MemWf.branch (h : s.MemWf) (len : ℕ) (ts : List (ℕ × DWord)) : (s.branch len ts).MemWf := State.MemWf.jump (.ite h.endTurn h) _ _

theorem execExit_wf (h : s.MemWf) (x : Opnds) : OutcomeWf (execExit x s) :=
  h.issue _ _ fun _ _ hu => ((hu.advanceBut _ _).foldl (fun _ _ hv => hv.endThread _ _ _)).settle _

theorem State.MemWf.changeMasks (h : s.MemWf) (len : ℕ) (ts : List ℕ) (n : ℕ) (f : ℕ → ℕ → ℕ) : (s.changeMasks len ts n f).MemWf :=
  ((h.advance _).modCb _).settle _

theorem execJpark_wf (h : s.MemWf) (x : Opnds) : OutcomeWf (execJpark x s) :=
  h.issue _ _ fun _ _ hu => ((((hu.advanceBut _ _).modCb _).modCb _).modCb _).settle _

theorem State.MemWf.file (h : s.MemWf) (bid t : ℕ) (pc : DWord) : (s.file bid t pc).MemWf := by
  unfold State.file
  refine .ite (h.modBlk _ _) ?_
  dsimp only
  split
  · exact h.modBlk _ _
  · exact (h.modPart _ _).modBlk _ _

theorem execReform_wf (h : s.MemWf) (x : Opnds) : OutcomeWf (execReform x s) :=
  h.issue _ _ fun _ _ hu => ((hu.advance _).foldl (fun _ _ hv => hv.file _ _ _)).settle _

theorem execBrd_wf (h : s.MemWf) (x : Opnds) : OutcomeWf (execBrd x s) :=
  h.issue _ _ fun _ _ hu => (((State.MemWf.advanceBut (.ite hu.endTurn hu) _ _).foldl (fun _ _ hv => .ite hv (hv.file _ _ _))).fault _ _).settle _

theorem execYield_wf (h : s.MemWf) (x : Opnds) : OutcomeWf (execYield x s) := by
  unfold execYield
  refine h.issue _ _ fun _ _ hu => ?_
  dsimp only
  split
  · exact hu.advance _
  · split <;> exact ((hu.advance _).endTurn).modCb _

theorem execBrk_wf (h : s.MemWf) (x : Opnds) : OutcomeWf (execBrk x s) :=
  h.issue _ _ fun _ _ hu => .ite (hu.advance _) ((hu.advanceBut _ _).finishFaults _ _)

/-! ### Machine/Convert.lean: conversions -/

theorem execFmtSet_wf (h : s.MemWf) (x : Opnds) (f : BitVec 4) : OutcomeWf (execFmtSet x f s) := by
  unfold execFmtSet
  refine h.issue _ _ fun _ _ hu => ?_
  split
  · exact hu.advance _
  · exact (hu.advance _).setFreg _ _

/-! ### Machine/Matrix.lean: matrix and accumulator instructions -/

theorem State.MemWf.setRow (h : s.MemWf) (t i : ℕ) (r : AccRow) : (s.setRow t i r).MemWf := (h.log _ _).modPart _ _

theorem State.MemWf.renormRow (h : s.MemWf) (tile thr shift op : ℕ) : (s.renormRow tile thr shift op).MemWf :=
  ((h.setRow _ _ _).modPart _ _).flagLanes _

theorem State.MemWf.eachRow (h : s.MemWf) (i : Instr) (f : Opnds → State → ℕ → State) (hf : ∀ x u a, u.MemWf → (f x u a).MemWf) :
    OutcomeWf (s.eachRow i f) :=
  h.issue _ _ fun _ _ hu => (hu.foldl (fun _ _ hv => hf _ _ _ hv)).advance _

theorem execObres_wf (h : s.MemWf) (x : Opnds) (n : BitVec 3) : OutcomeWf (execObres x n s) := by
  unfold execObres
  refine h.issue _ _ fun _ _ hu => .ite (hu.trapAll _ _) ?_
  dsimp only
  split
  · exact hu.advance _
  · exact .ite (hu.uniformFault _ _) (.ite (hu.uniformFault _ _) ((hu.modPart _ _).advance _))

theorem execObrel_wf (h : s.MemWf) (x : Opnds) (n : BitVec 3) : OutcomeWf (execObrel x n s) :=
  h.issue _ _ fun _ _ hu => .ite (hu.advance _) (.ite (hu.uniformFault _ _) (.ite hu.stall ((hu.modPart _ _).advance _)))

theorem State.MemWf.fillRead (h : s.MemWf) (bid a n : ℕ) : (s.fillRead bid a n).1.MemWf := by
  unfold State.fillRead
  dsimp only
  split <;> exact h.modPad _ _

theorem State.MemWf.startFill (h : s.MemWf) (n : ℕ) (f : Fill) : (s.startFill n f).MemWf := h.modPart _ _

theorem State.MemWf.joinMerge (h : s.MemWf) (peer a n : ℕ) : (s.joinMerge peer a n).MemWf := h.modCluster _ _

theorem State.MemWf.localFill (h : s.MemWf) (x : Opnds) (n a size : ℕ) : (s.localFill x n a size).MemWf := by
  unfold State.localFill
  dsimp only
  split
  · exact h.uniformFault _ _
  · refine .ite h.stall ?_
    split
    · exact ((h.fillRead _ _ _).of_fst ‹_›).consume _ _ _
    · exact ((((h.fillRead _ _ _).of_fst ‹_›).startFill _ _).raiseAll _ _).advance _

theorem State.MemWf.fillOp (h : s.MemWf) (i : Instr) (n : ℕ) (src : Opnds → State → ℕ → Option ℕ) : OutcomeWf (s.fillOp i n src) := by
  unfold State.fillOp
  refine h.issue _ _ fun _ _ hu => ?_
  dsimp only
  split
  · exact hu.advance _
  · refine (hu.uniformFault _ _).ite_else fun hw => .ite hu.stall ?_
    split
    · exact hu.localFill _ _ _ _
    · exact .ite hw (.ite (hu.localFill _ _ _ _) (((hu.joinMerge _ _ _).startFill _ _).advance _))

theorem State.MemWf.fillBuf (h : s.MemWf) (p blk lo : ℕ) (bs : List Byte) (bad : List ℕ) : (s.fillBuf p blk lo bs bad).MemWf :=
  (h.foldl (fun _ _ hu => hu.log _ _)).modPart _ _

theorem State.MemWf.fillDone (h : s.MemWf) (p : ℕ) (f : Fill) (got : Option (List Byte × List ℕ)) : (s.fillDone p f got).MemWf := by
  unfold State.fillDone
  dsimp only
  split
  · exact ((h.modPart _ _).tidyMerges _).modPart _ _
  · exact ((((h.modPart _ _).tidyMerges _).fillBuf _ _ _ _ _).ite_then (fun hu => hu.fillBuf _ _ _ _ _)).modPart _ _

theorem State.MemWf.shareMerge (h : s.MemWf) (peer a n tgt : ℕ) (got : List Byte × List ℕ) : (s.shareMerge peer a n tgt got).MemWf :=
  .ite h ((h.modCluster _ _).foldl (fun _ _ hu => .ite ((hu.linkGood _ _).modPart _ _) hu))

theorem execObFillComplete_wf (h : s.MemWf) (part n : ℕ) : OutcomeWf (execObFillComplete part n s) := by
  unfold execObFillComplete
  dsimp only
  split
  · exact .next h
  · split
    · exact .next (h.fillDone _ _ _)
    · refine .ite (.next (h.fillDone _ _ _)) ?_
      split
      · exact .next (h.fillDone _ _ _)
      · refine .ite (.next ((h.linkGood _ _).fillDone _ _ _)) (.ite (.next h) ?_)
        split
        · exact .next (((((h.linkGood _ _).fillRead _ _ _).of_fst ‹_›).fillDone _ _ _).consume _ _ _)
        · exact .next (((((h.linkGood _ _).fillRead _ _ _).of_fst ‹_›).shareMerge _ _ _ _ _).fillDone _ _ _)

theorem State.MemWf.addLane (h : s.MemWf) (tile c col0 op : ℕ) (l : LaneProds) : (s.addLane tile c col0 op l).MemWf := by
  unfold State.addLane
  dsimp only
  split
  · exact .ite ((h.setRow _ _ _).flagLanes _) h
  · exact ((State.MemWf.ite_then (.ite ((h.setRow _ _ _).flagLanes _) h) (fun hu => hu.renormRow _ _ _ _)).setRow _ _ _).flagLanes _

theorem State.MemWf.addLanes (h : s.MemWf) (x : Opnds) (q : MmaReq) (fs : List (ℕ × LF)) (ls : List LaneProds) : (s.addLanes x q fs ls).MemWf :=
  ((State.MemWf.foldl (.ite h (h.modPart _ _)) (fun _ _ hu => hu.addLane _ _ _ _ _)).advanceBut _ _).finishFaults _ _

theorem State.MemWf.mmaGo (h : s.MemWf) (x : Opnds) (q : MmaReq) (a b : ObRec) (m : Option ObRec) : (s.mmaGo x q a b m).MemWf := by
  unfold State.mmaGo
  refine .ite h.stall ?_
  dsimp only
  split
  · exact ((h.padLoad _ _ _).of_fst ‹_›).consume _ _ _
  · have h1 := (h.padLoad _ _ _).of_fst ‹_›
    exact .ite (h1.consume _ _ _) ((h1.addLanes _ _ _ _).raiseAll _ _)

theorem State.MemWf.mmaOp (h : s.MemWf) (i : Instr) (tile ra rb : ℕ) (rm : Option ℕ) : OutcomeWf (s.mmaOp i tile ra rb rm) := by
  unfold State.mmaOp
  refine h.issue _ _ fun _ _ hu => ?_
  dsimp only
  split
  · exact hu.advance _
  · refine .ite hu.stall (.ite (hu.uniformFault _ _) (.ite (hu.uniformFault _ _) ?_))
    exact (hu.uniformFault _ _).ite_else (fun hw => .ite hw (hu.mmaGo _ _ _ _ _))

theorem execAccLd_wf (h : s.MemWf) (x : Opnds) (t : BitVec 1) (k : AccForm) (n : BitVec 7) : OutcomeWf (execAccLd x t k n s) := by
  unfold execAccLd
  refine h.issue _ _ fun _ _ hu => ?_
  dsimp only
  split
  · exact hu.advance _
  · refine .ite hu.stall ?_
    split
    · exact ((hu.padLoad _ _ _).of_fst ‹_›).consume _ _ _
    · refine (((((hu.padLoad _ _ _).of_fst ‹_›).foldl (fun _ _ hz => ?_)).advanceBut _ _).raiseAll _ _).finishFaults _ _
      split
      · exact (hz.setRow _ _ _).flagLanes _
      · exact hz

theorem execAccSt_wf (h : s.MemWf) (x : Opnds) (t : BitVec 1) (k : AccForm) (ninf : Bool) (n : BitVec 7) : OutcomeWf (execAccSt x t k ninf n s) := by
  unfold execAccSt
  refine h.issue _ _ fun _ _ hu => ?_
  dsimp only
  split
  · exact hu.advance _
  · exact .ite hu.stall (((((hu.padStores _ _).flagLanes _).advanceBut _ _).raiseAll _ _).finishFaults _ _)

theorem execAccTmask_wf (h : s.MemWf) (x : Opnds) (t : BitVec 1) : OutcomeWf (execAccTmask x t s) := by
  unfold execAccTmask
  refine h.issue _ _ fun _ _ hu => ?_
  dsimp only
  split
  · exact hu.advance _
  · exact .ite (hu.uniformFault _ _) ((hu.foldl (fun _ _ hw => hw.setRow _ _ _)).advance _)

theorem execAccRmax_wf (h : s.MemWf) (x : Opnds) (t : BitVec 1) (n : BitVec 7) : OutcomeWf (execAccRmax x t n s) := by
  unfold execAccRmax
  refine h.issue _ _ fun _ _ hu => ?_
  dsimp only
  split
  · exact hu.advance _
  · exact .ite (hu.uniformFault _ _) (((hu.advance _).write _ _ _).flagLanes _)

theorem execAccMode_wf (h : s.MemWf) (x : Opnds) (t : BitVec 1) : OutcomeWf (execAccMode x t s) := by
  unfold execAccMode
  refine h.issue _ _ fun _ _ hu => ?_
  dsimp only
  split
  · exact hu.advance _
  · exact (hu.modPart _ _).advance _

/-! ### Machine/Shadow.lean: shadows -/

theorem State.MemWf.bufferPages (h : s.MemWf) (w : Who) (lo hi fuel va : ℕ) : (s.bufferPages w lo hi fuel va).1.MemWf := by
  induction fuel generalizing s va with
  | zero => exact h
  | succ fuel ih =>
    unfold State.bufferPages
    split
    · exact (h.translate _ _ _ _ _).of_fst ‹_›
    · have ht := (h.translate _ _ _ _ _).of_fst ‹_›
      dsimp only
      split
      · exact ht
      · split
        · exact ht
        · split
          · exact ht
          · have hr := fun va => ih ht va
            split
            · exact (hr _).of_fst ‹_›
            · exact hr _

theorem State.MemWf.forgetFrames (h : s.MemWf) (fs : List ℕ) : (s.forgetFrames fs).MemWf :=
  (h.foldl (fun _ _ hu => hu.foldl (fun _ _ hv => hv.dropL2 _ _ _))).modHub _

theorem State.MemWf.fillFrames (h : s.MemWf) (ps : List ShadowPg) (bs : List EByte) : (s.fillFrames ps bs).MemWf := by
  induction ps generalizing s bs with
  | nil => exact h
  | cons p r ih => exact ih (h.foldl fun _ _ hu => hu.homeWrite _ _ _) _

theorem State.MemWf.makeShadow (h : s.MemWf) (ex : List ℕ) (i base len pte : ℕ) (ps : List ShadowPg) (pool : List ℕ) (bs : List EByte) :
    (s.makeShadow ex i base len pte ps pool bs).MemWf :=
  ((((h.forgetFrames _).fillFrames _ _).modHub _).modDie _ _).hold _ _

theorem execShdwOpen_wf (h : s.MemWf) (x : Opnds) : OutcomeWf (execShdwOpen x s) := by
  unfold execShdwOpen
  refine h.issue _ _ fun _ _ hu => ?_
  dsimp only
  split
  · exact hu.advance _
  · split
    · exact (hu.advance _).write _ _ _
    · refine .ite (hu.uniformFault _ _) (.ite (hu.uniformFault _ _) ?_)
      split
      · exact ((hu.bufferPages _ _ _ _ _).of_fst ‹_›).onceStop _ _ _ _ _ _ _
      · exact ((hu.bufferPages _ _ _ _ _).of_fst ‹_›).uniformFault _ _
      · have h1 := (hu.bufferPages _ _ _ _ _).of_fst ‹_›
        split
        · exact .ite h1.stall ((h1.advance _).write _ _ _)
        · split
          · split
            · exact ((h1.translate _ _ _ _ _).of_fst ‹_›).onceStop _ _ _ _ _ _ _
            · have h2 := (h1.translate _ _ _ _ _).of_fst ‹_›
              split
              · exact ((h2.engRead _ _).of_fst ‹_›).makeShadow _ _ _ _ _ _ _ _
              · exact ((h2.engRead _ _).of_fst ‹_›).stall
              · exact ((h2.engRead _ _).of_fst ‹_›).uniformFault _ _
              · exact ((h2.engRead _ _).of_fst ‹_›).reissue _ _ _ _ _ _ _ _
          · exact (h1.advance _).write _ _ _

theorem execShadowCopyComplete_wf (h : s.MemWf) (die k : ℕ) : OutcomeWf (execShadowCopyComplete die k s) := by
  unfold execShadowCopyComplete
  dsimp only
  split
  · exact .next h
  · split
    · exact .next h
    · exact .next ((h.modDie _ _).modBlk _ _)

theorem State.MemWf.closeShadow (h : s.MemWf) (d i : ℕ) (sh : Shadow) : (s.closeShadow d i sh).MemWf := h.modDie _ _

theorem State.MemWf.dropShadow (h : s.MemWf) (d i : ℕ) (sh : Shadow) : (s.dropShadow d i sh).MemWf :=
  (((h.forgetFrames _).closeShadow _ _ _).modHub _).modDie _ _

theorem State.MemWf.remap (h : s.MemWf) (d leaf reps frame : ℕ) : (s.remap d leaf reps frame).MemWf := by
  unfold State.remap
  refine h.foldl (fun u _ hu => (hu.everywhere _ _).foldl (fun v _ hv => State.MemWf.foldl ?_ (fun w _ hw => ?_)))
  · exact Memory.wf_setByte hv _ _
  · split
    · exact hw.modCache _ _
    · exact hw

theorem State.MemWf.forgetRange (h : s.MemWf) (dom asn lo len : ℕ) : (s.forgetRange dom asn lo len).MemWf := h.update.update

theorem State.MemWf.observePoint (h : s.MemWf) (sh : Shadow) : (s.observePoint sh).MemWf := h.update.unwatch _

theorem State.MemWf.publish (h : s.MemWf) (d i : ℕ) (sh : Shadow) : (s.publish d i sh).MemWf :=
  (((((((((h.stamp _).foldl (fun _ _ hu => hu.absorb _ _)).sendHeld _).settleWhere _).foldl (fun _ _ hu => hu.foldl (fun _ _ hv =>
    (hv.writeBack _ _ _).dropClean _ _ _))).foldl (fun _ _ hu => hu.remap _ _ _ _)).forgetRange _ _ _ _).observePoint _).closeShadow _ _ _).modHub _

theorem State.MemWf.publOp (h : s.MemWf) (i : Instr) (drop : Bool) : OutcomeWf (s.publOp i drop) := by
  unfold State.publOp
  refine h.issue _ _ fun _ _ hu => ?_
  dsimp only
  split
  · exact hu.advance _
  · split
    · exact hu.uniformFault _ _
    · refine .ite hu.stall (.ite (((hu.advance _).irrevoke _).dropShadow _ _ _) ?_)
      exact ((hu.advance _).irrevoke _).publish _ _ _

theorem execShadowDrop_wf (h : s.MemWf) (die k : ℕ) : OutcomeWf (execShadowDrop die k s) := by
  unfold execShadowDrop
  refine .next ?_
  split
  · exact .ite (h.dropShadow _ _ _) h
  · exact h

/-! ### Machine/Queues.lean: queues -/

theorem State.MemWf.modQueue (h : s.MemWf) (q : ℕ) (f : Queue → Queue) : (s.modQueue q f).MemWf := h.modHub _

theorem State.MemWf.modExit (h : s.MemWf) (d e : ℕ) (f : ExitList → ExitList) : (s.modExit d e f).MemWf := h.modDie _ _

theorem storeTry_fst_wf {acc : State × List EngStore} (h : acc.1.MemWf) (d : ℕ) (x : EngStore) : (State.storeTry d acc x).1.MemWf := by
  unfold State.storeTry
  have hw := h.engWrite x.who 0 x.va (x.bytes.map fun b => (b, false))
  split
  · exact h
  · split
    · exact hw.of_fst ‹_›
    · exact hw.of_fst ‹_›
    · exact hw.of_fst ‹_›
    · exact (hw.of_fst ‹_›).raiseRestart _ _ _

theorem State.MemWf.runStores (h : s.MemWf) (d : ℕ) : (s.runStores d).MemWf := by
  unfold State.runStores
  refine .ite h (State.MemWf.modDie ?_ _ _)
  exact foldl_fst_wf (p := (s, [])) h fun _ _ hq => storeTry_fst_wf hq _ _

theorem State.MemWf.looseWrite (h : s.MemWf) (d key : ℕ) (w : Who) (va : ℕ) (bs : List Byte) : (s.looseWrite d key w va bs).MemWf :=
  (h.modDie _ _).runStores _

theorem State.MemWf.exitStatus (h : s.MemWf) (d e : ℕ) : (s.exitStatus d e).MemWf := h.looseWrite _ _ _ _ _

theorem State.MemWf.batchDone (h : s.MemWf) (d e count : ℕ) (ok : Bool) : (s.batchDone d e count ok).MemWf :=
  ((h.modExit _ _ _).update).exitStatus _ _

theorem State.MemWf.modWq (h : s.MemWf) (d q : ℕ) (f : WorkQueue → WorkQueue) : (s.modWq d q f).MemWf := h.modDie _ _

theorem State.MemWf.wqEnd (h : s.MemWf) (x : Opnds) (pd : BitVec 3) (served : List ℕ) : (s.wqEnd x pd served).MemWf :=
  ((h.advance _).write _ _ _).irrevoke _

/-- A push or pull that acts leads to a state with its memory in canonical form. -/
def WqGotWf (g : WqGot) : Prop := ∀ t, g = .acts t → t.MemWf

theorem WqGotWf.acts (h : s.MemWf) : WqGotWf (.acts s) := fun _ e => WqGot.acts.inj e ▸ h

theorem WqGotWf.waits : WqGotWf .waits := fun _ e => nomatch e

theorem WqGotWf.fencing : WqGotWf .fencing := fun _ e => nomatch e

theorem WqGotWf.ite {c : Prop} [Decidable c] {a b : WqGot} (ha : WqGotWf a) (hb : WqGotWf b) : WqGotWf (if c then a else b) := by
  split <;> assumption

theorem State.MemWf.pushAct (h : s.MemWf) (x : Opnds) (q : ℕ) (nw behind : Bool) (pd : BitVec 3) : WqGotWf (s.pushAct x q nw behind pd) := by
  have hend := WqGotWf.acts (h.wqEnd x pd [])
  unfold State.pushAct
  dsimp only
  refine .ite hend (.ite (.ite hend .waits) (.ite (.ite hend ?_) (.ite (.ite hend ?_) .waits)))
  all_goals
    split
    · exact .fencing
    · exact .acts ((((h.fenceFirst _ _ _).of_some ‹_›).modWq _ _ _).wqEnd _ _ _)

theorem State.MemWf.pullAct (h : s.MemWf) (x : Opnds) (q : ℕ) (nw behind : Bool) (pd : BitVec 3) : WqGotWf (s.pullAct x q nw behind pd) := by
  have hend := WqGotWf.acts (h.wqEnd x pd [])
  unfold State.pullAct
  dsimp only
  refine .ite (.ite hend .waits) (.ite (.ite hend ?_) (.ite (.ite hend ?_) .waits))
  all_goals exact .acts ((((h.modWq _ _ _).wqEnd _ _ _).write _ _ _).fenceLanes _ _ _ _)

theorem State.MemWf.wqAct (h : s.MemWf) (i : Instr) (behind : Bool) : WqGotWf (s.wqAct i behind) := by
  unfold State.wqAct
  split
  · exact h.pushAct _ _ _ _ _
  · exact h.pullAct _ _ _ _ _
  · exact .waits

theorem State.MemWf.wqOp (h : s.MemWf) (i : Instr) (q : ℕ) : OutcomeWf (s.wqOp i q) := by
  unfold State.wqOp
  refine h.issue _ _ (fun _ u hu => .ite (hu.advance _) (.ite (hu.uniformFault _ _) ?_))
  dsimp only
  split
  · exact hu.wqAct _ _ _ ‹_›
  · exact (hu.fenceBegin _ _ _).stall
  · exact (hu.hold _ _).modWq _ _ _

theorem State.MemWf.batchPush (h : s.MemWf) (d e : ℕ) (behind : Bool) : OptionWf (s.batchPush d e behind) := by
  unfold State.batchPush
  dsimp only
  split
  · exact .some h
  · exact .ite (.some (h.batchDone _ _ _ _)) (.ite .none (.some ((h.modWq _ _ _).modExit _ _ _)))

theorem State.MemWf.wqServe (h : s.MemWf) (d q : ℕ) : OptionWf (s.wqServe d q) := by
  unfold State.wqServe
  dsimp only
  split
  · exact OptionWf.none
  · split
    · split
      · have ha := State.MemWf.wqAct (h.modWq _ _ _).update _ _ _ ‹_›
        exact OptionWf.some ha.update
      · exact OptionWf.none
    · exact (h.modWq _ _ _).batchPush _ _ _

theorem State.MemWf.wqServeAll (h : s.MemWf) (d q n : ℕ) : (State.wqServeAll d q n s).MemWf := by
  induction n generalizing s with
  | zero => exact h
  | succ n ih =>
    unfold State.wqServeAll
    split
    · exact ih ((h.wqServe _ _).of_some ‹_›)
    · exact h

theorem State.MemWf.wqStat (h : s.MemWf) (i : Instr) (q : ℕ) (f : State → State) (hf : ∀ u, u.MemWf → (f u).MemWf) : OutcomeWf (s.wqStat i q f) :=
  h.issue _ _ fun _ _ hu => (hu.advance _).ite_else fun hv => .ite (hu.uniformFault _ _) (hf _ (hv.write _ _ _))

theorem execLqStat_wf (h : s.MemWf) (x : Opnds) : OutcomeWf (execLqStat x s) := by
  unfold execLqStat
  refine h.issue _ _ fun _ _ hu => ?_
  dsimp only
  split
  · exact hu.advance _
  · refine .ite ((hu.advance _).write _ _ _) (.ite ((hu.advance _).write _ _ _) (.ite ((hu.advance _).write _ _ _) ?_))
    exact hu.uniformFault _ _

theorem State.MemWf.exitAppend (h : s.MemWf) (d e token layer : ℕ) : (s.exitAppend d e token layer).1.MemWf := by
  unfold State.exitAppend
  dsimp only
  split
  · exact h.modExit _ _ _
  · exact (h.looseWrite _ _ _ _ _).modExit _ _ _

theorem execConftest_wf (h : s.MemWf) (x : Opnds) (e : BitVec 4) : OutcomeWf (execConftest x e s) := by
  unfold execConftest
  refine h.issue _ _ (fun _ u hu => ?_)
  dsimp only
  split
  · exact hu.advance _
  · refine .ite (hu.uniformFault _ _) (((State.MemWf.advance (.ite (State.MemWf.irrevoke ?_ _) ?_) _).write _ _ _).flagLanes _)
    all_goals
      refine foldl_fst_wf hu fun q r hq => ?_
      split
      · exact hq.exitAppend _ _ _ _
      · exact hq

theorem State.MemWf.lanesPerformed (h : s.MemWf) (bid : ℕ) (ts : List ℕ) : OptionWf (s.lanesPerformed bid ts) :=
  .ite .none (.ite .none (.some (h.foldl (fun _ _ hu => hu.writeBack _ _ _))))

theorem execBkfillReg_wf (h : s.MemWf) (x : Opnds) (e : BitVec 4) : OutcomeWf (execBkfillReg x e s) := by
  unfold execBkfillReg
  refine h.issue _ _ fun _ _ hu => ?_
  dsimp only
  split
  · exact hu.advance _
  · refine .ite (hu.uniformFault _ _) ?_
    split
    · exact ((hu.engRead _ _).of_fst ‹_›).stall
    · exact ((hu.engRead _ _).of_fst ‹_›).uniformFault _ _
    · exact ((hu.engRead _ _).of_fst ‹_›).reissue _ _ _ _ _ _ _ _
    · have h1 := (hu.engRead _ _).of_fst ‹_›
      exact .ite (h1.consume _ _ _) (.ite (h1.uniformFault _ _) ((((h1.modExit _ _ _).advance _).write _ _ _).irrevoke _))

theorem execBkfill_wf (h : s.MemWf) (x : Opnds) (e : BitVec 4) : OutcomeWf (execBkfill x e s) := by
  unfold execBkfill
  refine h.issue _ _ fun _ _ hu => ?_
  dsimp only
  split
  · exact hu.advance _
  · refine .ite (hu.uniformFault _ _) (hu.stall.ite_else (fun hw => ?_))
    split
    · exact hw
    · exact ((((((hu.lanesPerformed _ _).of_some ‹_›).modExit _ _ _).exitStatus _ _).advance _).write _ _ _).irrevoke _

theorem execBkwait_wf (h : s.MemWf) (x : Opnds) (e : BitVec 4) : OutcomeWf (execBkwait x e s) := by
  unfold execBkwait
  refine h.issue _ _ fun _ _ hu => ?_
  dsimp only
  split
  · exact hu.advance _
  · split
    · exact (hu.advance _).write _ _ _
    · refine .ite (hu.uniformFault _ _) ?_
      split
      · exact (hu.advance _).write _ _ _
      · exact .ite ((hu.advance _).write _ _ _) (.ite (hu.hold _ _) ((hu.advance _).write _ _ _))

/-! ### Machine/Launch.lean: launches and grids -/

theorem State.MemWf.lampLog (h : s.MemWf) (agent : ℕ) (event : LogEvent) (data : List ℕ) : (s.lampLog agent event data).MemWf := h.modHub _

theorem State.MemWf.takeSeq (h : s.MemWf) (q : ℕ) : (s.takeSeq q).1.MemWf := h.modQueue _ _

theorem State.MemWf.setStatus (h : s.MemWf) (q seq status : ℕ) : (s.setStatus q seq status).MemWf := h.modQueue _ _

theorem State.MemWf.countRefusal (h : s.MemWf) (q seq status : ℕ) : (s.countRefusal q seq status).MemWf := (h.setStatus _ _ _).modQueue _ _

theorem State.MemWf.accept (h : s.MemWf) (l : Launcher) (p : ℕ) (hdr : Option ℕ) : (s.accept l p hdr).1.MemWf := by
  unfold State.accept
  dsimp only
  split
  · exact (h.takeSeq _).setStatus _ _ _
  · split
    · exact (h.takeSeq _).ite_else fun hu => hu.countRefusal _ _ _
    · split
      · exact (h.takeSeq _).ite_else fun hu => hu.countRefusal _ _ _
      · split
        · exact (((h.takeSeq _).ite_else (fun hu => hu.countRefusal _ _ _)).update).modGrid _ _
        · exact ((h.takeSeq _).ite_else (fun hu => hu.countRefusal _ _ _)).update

theorem State.MemWf.readHeader (h : s.MemWf) (w : Who) (p : ℕ) : (s.readHeader w p).1.MemWf := by
  unfold State.readHeader
  split
  · exact h
  · split <;> exact (h.engRead _ _).of_fst ‹_›

theorem State.MemWf.haltQueue (h : s.MemWf) (q : ℕ) : (s.haltQueue q).MemWf := (h.modQueue _ _).lampLog _ _ _

theorem State.MemWf.packetTaken (h : s.MemWf) (q : ℕ) : (s.packetTaken q).MemWf := (h.modQueue _ _).looseWrite _ _ _ _ _

theorem State.MemWf.packetLost (h : s.MemWf) (q : ℕ) : (s.packetLost q).MemWf := ((h.takeSeq _).countRefusal _ _ _).packetTaken _

theorem State.MemWf.takePacket (h : s.MemWf) (q : ℕ) : (s.takePacket q).MemWf := by
  unfold State.takePacket
  refine .ite (h.packetLost _) ?_
  dsimp only
  split
  · exact (h.engRead _ _).of_fst ‹_›
  · exact ((h.engRead _ _).of_fst ‹_›).packetLost _
  · exact (((h.engRead _ _).of_fst ‹_›).raiseRestart _ _ _).modQueue _ _
  · have h1 := (h.engRead _ _).of_fst ‹_›
    refine .ite (h1.packetLost _) ?_
    split
    · exact (((h1.readHeader _ _).of_fst ‹_›).raiseRestart _ _ _).modQueue _ _
    · exact (h1.readHeader _ _).of_fst ‹_›
    · exact (((h1.readHeader _ _).of_fst ‹_›).accept _ _ _).packetTaken _

theorem State.MemWf.writeCount (h : s.MemWf) (q : ℕ) : (s.writeCount q).1.MemWf := by
  unfold State.writeCount
  split <;> exact (h.engRead _ _).of_fst ‹_›

theorem execLaunchPacketTake_wf (h : s.MemWf) (q : ℕ) : OutcomeWf (execLaunchPacketTake q s) := by
  unfold execLaunchPacketTake
  refine .ite (.next h) ?_
  split
  · exact .next (h.asked _ _)
  · have h1 := (h.writeCount _).of_fst ‹_›
    exact .ite (.next (h1.haltQueue _)) (.next (.ite ((h1.modQueue _ _).takePacket _) h))

theorem execDependenceResolved_wf (h : s.MemWf) (grid : ℕ) : OutcomeWf (execDependenceResolved grid s) := by
  unfold execDependenceResolved
  dsimp only
  split
  · exact .next h
  · exact .ite (.next h) (.next (h.modGrid _ _))

theorem execPriorityRise_wf (h : s.MemWf) (grid : ℕ) : OutcomeWf (execPriorityRise grid s) := by
  unfold execPriorityRise
  refine .next ?_
  split
  · exact .ite (h.modGrid _ _) h
  · exact h

theorem State.MemWf.blocksPerformed (h : s.MemWf) (d : ℕ) (ids : List ℕ) : OptionWf (s.blocksPerformed d ids) :=
  .ite .none (.ite .none (.some (h.foldl (fun _ _ hu => hu.writeBack _ _ _))))

theorem State.MemWf.childArrival (h : s.MemWf) (bid : ℕ) (slot : Option ℕ) : (s.childArrival bid slot).MemWf := by
  unfold State.childArrival
  dsimp only
  split
  · exact h
  · split
    · exact h.modBlk _ _
    · exact h.modBlk _ _
    · exact h.modBlk _ _
    · exact h
    · exact h
    · exact .ite (h.arrive _ _ _ _) h

theorem State.MemWf.gridDone (h : s.MemWf) (gid : ℕ) (g : Grid) : (s.gridDone gid g).MemWf := by
  unfold State.gridDone
  refine (h.modGrid _ _).ite_else fun hu => ?_
  dsimp only
  split
  · split
    · refine State.MemWf.ite_then ?_ fun hw => hw.batchDone _ _ _ _
      split
      · exact ((hu.ite_then (fun hz => hz.setStatus _ _ _)).modGrid _ _).childArrival _ _
      · exact hu.ite_then fun hz => hz.setStatus _ _ _
    · split
      · exact ((hu.ite_then (fun hw => hw.setStatus _ _ _)).modGrid _ _).childArrival _ _
      · exact hu.ite_then fun hw => hw.setStatus _ _ _
  · split
    · exact ((hu.ite_then (fun hw => hw.setStatus _ _ _)).modGrid _ _).childArrival _ _
    · exact hu.ite_then fun hw => hw.setStatus _ _ _

theorem State.MemWf.writeRecord (h : s.MemWf) (gid : ℕ) (g : Grid) (lo n : ℕ) (next : State → State) (hnext : ∀ u, u.MemWf → (next u).MemWf) :
    (s.writeRecord gid g lo n next).MemWf := by
  unfold State.writeRecord
  refine .ite (hnext _ h) ?_
  dsimp only
  split
  · exact hnext _ ((h.engWrite _ _ _ _).of_fst ‹_›)
  · exact (h.engWrite _ _ _ _).of_fst ‹_›
  · exact hnext _ ((h.engWrite _ _ _ _).of_fst ‹_›)
  · exact (((h.engWrite _ _ _ _).of_fst ‹_›).raiseRestart _ _ _).modGrid _ _

theorem execGridCompletion_wf (h : s.MemWf) (grid : ℕ) : OutcomeWf (execGridCompletion grid s) := by
  unfold execGridCompletion
  split
  · exact .next h
  · refine .ite (.next h) (.ite (.next ?_) (.ite (.next (h.writeRecord _ _ _ _ _ (fun _ hu => hu.modGrid _ _))) (.next h)))
    split
    · exact h
    · exact ((h.blocksPerformed _ _).of_some ‹_›).writeRecord _ _ _ _ _ fun _ hw => hw.gridDone _ _

theorem State.MemWf.launchOp (h : s.MemWf) (i : Instr) (slot : Option ℕ) : OutcomeWf (s.launchOp i slot) := by
  unfold State.launchOp
  refine h.issue _ _ fun _ _ hu => ?_
  dsimp only
  split
  · exact hu.advance _
  · split
    · exact hu.uniformFault _ _
    · split
      · exact hu.uniformFault _ _
      · split
        · exact (hu.fenceBegin _ _ _).stall
        · have h1 := (hu.fenceFirst _ _ _).of_some ‹_›
          split
          · exact ((h1.engRead _ _).of_fst ‹_›).stall
          · exact ((h1.engRead _ _).of_fst ‹_›).reissue _ _ _ _ _ _ _ _
          · exact ((((((h1.engRead _ _).of_fst ‹_›).takeSeq _).countRefusal _ _ _).advance _).write _ _ _).irrevoke _
          · have h2 := (h1.engRead _ _).of_fst ‹_›
            refine .ite (((((h2.takeSeq _).countRefusal _ _ _).advance _).write _ _ _).irrevoke _) ?_
            split
            · exact ((h2.readHeader _ _).of_fst ‹_›).reissue _ _ _ _ _ _ _ _
            · exact ((h2.readHeader _ _).of_fst ‹_›).stall
            · exact (((((h2.readHeader _ _).of_fst ‹_›).accept _ _ _).advance _).write _ _ _).irrevoke _

theorem State.MemWf.modBatch (h : s.MemWf) (d e : ℕ) (f : Batch → Batch) : (s.modBatch d e f).MemWf := h.modExit _ _ _

theorem State.MemWf.batchWait (h : s.MemWf) (d e : ℕ) (w : Who) (cause why level acc va : ℕ) : (s.batchWait d e w cause why level acc va).MemWf :=
  (h.raiseRestart _ _ _).modBatch _ _ _

theorem State.MemWf.batchLaunch (h : s.MemWf) (d e : ℕ) (b : Batch) (p : ℕ) : (s.batchLaunch d e b p).MemWf := by
  have hr := h.readHeader (s.exitWho d (s.exitList d e)) p
  unfold State.batchLaunch
  dsimp only
  split
  · exact .ite ((h.accept _ _ _).modBatch _ _ _) ((h.accept _ _ _).batchDone _ _ _ _)
  · split
    · exact hr.of_fst ‹_›
    · exact (hr.of_fst ‹_›).batchWait _ _ _ _ _ _ _ _
    · exact .ite (((hr.of_fst ‹_›).accept _ _ _).modBatch _ _ _) (((hr.of_fst ‹_›).accept _ _ _).batchDone _ _ _ _)
    · exact .ite (((hr.of_fst ‹_›).accept _ _ _).modBatch _ _ _) (((hr.of_fst ‹_›).accept _ _ _).batchDone _ _ _ _)

theorem State.MemWf.batchItemGo (h : s.MemWf) (d e p : ℕ) : (s.batchItemGo d e p).MemWf := by
  unfold State.batchItemGo
  refine .ite h ?_
  split
  · exact h.modWq _ _ _
  · have h1 := (h.batchPush _ _ _).of_some ‹_›
    split
    · exact .ite (h1.batchLaunch _ _ _ _) h1
    · exact h1

theorem State.MemWf.batchStep (h : s.MemWf) (d e : ℕ) : (s.batchStep d e).MemWf := by
  unfold State.batchStep
  dsimp only
  split
  · exact h
  · split
    · exact .ite (h.batchLaunch _ _ _ _) (h.batchItemGo _ _ _)
    · refine .ite (h.batchDone _ _ _ _) ?_
      split
      · exact (h.engRead _ _).of_fst ‹_›
      · exact ((h.engRead _ _).of_fst ‹_›).batchWait _ _ _ _ _ _ _ _
      · exact ((h.engRead _ _).of_fst ‹_›).batchDone _ _ _ _
      · have h1 := (h.engRead _ _).of_fst ‹_›
        exact .ite (h1.batchDone _ _ _ _) ((h1.modBatch _ _ _).batchItemGo _ _ _)

theorem execBackfillBatchForm_wf (h : s.MemWf) (die e : ℕ) : OutcomeWf (execBackfillBatchForm die e s) := by
  unfold execBackfillBatchForm
  refine .ite (.next h) (.next ?_)
  split
  · exact .ite h (h.batchStep _ _)
  · exact .ite ((h.modExit _ _ _).batchStep _ _) h

/-! ### Machine/Replay.lean: release of restartable faults -/

theorem State.MemWf.modLog (h : s.MemWf) (bid log entry thr : ℕ) (f : OplogLane → OplogLane) : (s.modLog bid log entry thr f).MemWf := h.modBlk _ _

theorem State.MemWf.tidyLogs (h : s.MemWf) (bid : ℕ) : (s.tidyLogs bid).MemWf := h.modBlk _ _

theorem State.MemWf.replayOrder (h : s.MemWf) (bid thr : ℕ) (acc : LogAcc) (share : ℕ) : (s.replayOrder bid thr acc share).MemWf := by
  unfold State.replayOrder
  dsimp only
  split
  · split
    · exact (h.completeFence _ _ _).of_some ‹_›
    · exact h.modBlk _ _
  · split
    · exact (h.completeFence _ _ _).of_some ‹_›
    · exact h.modBlk _ _
  · exact h

theorem State.MemWf.replayLane (h : s.MemWf) (bid log entry : ℕ) (e : OplogEntry) (l : OplogLane) : (s.replayLane bid log entry e l).1.MemWf := by
  unfold State.replayLane
  dsimp only
  split
  · exact (h.modLog _ _ _ _ _).modBlk _ _
  · split
    · exact ((((((((h.update.performOrdered _ _ _ _ _ _ _).update).ite_then (fun hu =>
        hu.l1Last _ _)).update).write _ _ _).flagLanes _).update).modLog _ _ _ _ _).replayOrder _ _ _ _
    · exact ((h.update.performOrdered _ _ _ _ _ _ _).update).modLog _ _ _ _ _
    · exact (((h.update.performOrdered _ _ _ _ _ _ _).update).raiseRestart _ _ _).modLog _ _ _ _ _
    · exact (h.update.performOrdered _ _ _ _ _ _ _).update
    · exact (((h.update.performOrdered _ _ _ _ _ _ _).update).modLog _ _ _ _ _).consume _ _ _

theorem State.MemWf.replayLanes (h : s.MemWf) (bid : ℕ) (ls : List (ℕ × ℕ × OplogEntry × OplogLane)) : (s.replayLanes bid ls).MemWf := by
  unfold State.replayLanes
  dsimp only
  split
  · exact h
  · refine (State.MemWf.countSectors ?_ _ _).laneFaults _ _ _ _
    refine foldl_fst_wf (p := (s, [], [])) h fun q l hq => ?_
    have hl := hq.replayLane bid l.1 l.2.1 l.2.2.1 l.2.2.2
    split <;> exact hl.of_fst ‹_›

theorem State.MemWf.cancelLanes (h : s.MemWf) (bid : ℕ) (ls : List (ℕ × ℕ × OplogEntry × OplogLane)) : (s.cancelLanes bid ls).MemWf := by
  unfold State.cancelLanes
  dsimp only
  split
  · exact h
  · exact (h.foldl (fun _ _ hu => hu.modLog _ _ _ _ _)).laneFaults _ _ _ _

theorem State.MemWf.byIssue (h : s.MemWf) (bid : ℕ) (ls : List (ℕ × ℕ × OplogEntry × OplogLane))
    (f : State → List (ℕ × ℕ × OplogEntry × OplogLane) → State) (hf : ∀ u e, u.MemWf → (f u e).MemWf) :
    (s.byIssue bid ls f).MemWf :=
  h.foldl fun _ _ hu => hf _ _ hu

theorem State.MemWf.replayStale (h : s.MemWf) (bid : ℕ) (mine : OplogLane → Bool) : (s.replayStale bid mine).MemWf := by
  unfold State.replayStale
  dsimp only
  split
  · exact h
  · exact ((h.byIssue _ _ _ (fun _ _ hu => hu.replayLanes _ _)).tidyLogs _).settle _

theorem State.MemWf.replayHere (h : s.MemWf) : s.replayHere.MemWf := h.replayStale _ _

theorem State.MemWf.releaseLanes (h : s.MemWf) (bid : ℕ) (x : Word) (cancel : Bool) : (s.releaseLanes bid x cancel).MemWf := by
  unfold State.releaseLanes
  refine .ite h ((State.MemWf.tidyLogs (.ite (State.MemWf.foldl ?_ fun _ _ hu => hu.laneFaults _ _ _ _) (State.MemWf.modBlk ?_ _ _)) _).settle _)
  all_goals exact h.byIssue _ _ _ fun _ _ hu => .ite (hu.cancelLanes _ _) (hu.replayLanes _ _)

theorem State.MemWf.releaseEngines (h : s.MemWf) (d : ℕ) (x : Word) (all : Bool) (core : ℕ → Bool) : (s.releaseEngines d x all core).MemWf :=
  ((h.update.modDie _ _).modHub _).update

theorem State.MemWf.releaseRecord (h : s.MemWf) (d : ℕ) (x : Word) (all : Bool) (core : ℕ → Bool) : (s.releaseRecord d x all core).MemWf :=
  (((h.dropFailed _).modDie _ _).foldl (fun _ _ hu => hu.releaseLanes _ _ _)).releaseEngines _ _ _ _

theorem State.MemWf.tellWaiter (h : s.MemWf) (d : ℕ) (who : Waiter) (x : Word) : (s.tellWaiter d who x).MemWf := by
  unfold State.tellWaiter
  dsimp only
  split
  · exact (h.modBlk _ _).modBlk _ _
  · exact h.modBlk _ _
  · exact h.modBlk _ _
  · exact h.modDie _ _
  · exact h.modQueue _ _
  · exact h.modGrid _ _
  · exact h.modBatch _ _ _
  · exact h.modDie _ _
  · exact h.modHub _

theorem State.MemWf.recordDeferred (h : s.MemWf) (die : ℕ) : OptionWf (s.recordDeferred die) := by
  unfold State.recordDeferred
  split
  · exact .none
  · split
    · exact .none
    · exact .some ((((h.recordFault _ _).of_fst ‹_›).modDie _ _).tellWaiter _ _ _)

theorem execFaultRecordDeferred_wf (h : s.MemWf) : OutcomeWf (execFaultRecordDeferred s) := by
  refine OutcomeWf.next (OptionWf.getD (fun t ht => ?_) h)
  obtain ⟨d, -, hd⟩ := List.exists_of_findSome?_eq_some ht
  exact (h.recordDeferred d).of_some hd

/-! ### Machine/Place.lean: placement -/

theorem State.MemWf.takeCore (h : s.MemWf) (bid : ℕ) : (s.takeCore bid).MemWf := (h.foldl (fun _ _ hu => hu.modPart _ _)).modCore _ _

theorem State.MemWf.placeBlock (h : s.MemWf) (gid : ℕ) (g : Grid) (pos core area : ℕ) : (s.placeBlock gid g pos core area).MemWf :=
  h.update.takeCore _

theorem State.MemWf.placeCohort (h : s.MemWf) (gid : ℕ) (g : Grid) (cores : List ℕ) (used : List (ℕ × ℕ × ℕ)) :
    (s.placeCohort gid g cores used).MemWf :=
  (((h.modQueue _ _).foldl (fun _ _ hu => hu.placeBlock _ _ _ _ _)).modGrid _ _).ite_then fun hu => hu.lampLog _ _ _

theorem State.MemWf.passOver (h : s.MemWf) (die gid : ℕ) : (s.passOver die gid).MemWf := h.foldl fun _ _ hu => .ite (hu.modGrid _ _) hu

theorem execBlockPlacement_wf (h : s.MemWf) (grid : ℕ) : OutcomeWf (execBlockPlacement grid s) := by
  unfold execBlockPlacement
  split
  · exact .next h
  · refine .ite (.next h) ?_
    split
    · exact .next h
    · exact .next ((h.passOver _ _).placeCohort _ _ _ _)

theorem execBlockCompletion_wf (h : s.MemWf) (blk : ℕ) : OutcomeWf (execBlockCompletion blk s) := by
  unfold execBlockCompletion
  refine .ite (.next ((h.replayStale _ _).ite_else (fun hu => hu.endKilled _))) (.ite (.next h) ?_)
  exact .next ((((h.releaseBlock _).freeBlock _).modBlk _ _).modGrid _ _)

/-! ### Machine/Preempt.lean: pre-emption, save and restore -/

theorem State.MemWf.clearWaits (h : s.MemWf) (bid : ℕ) (swap : Bool) : (s.clearWaits bid swap).MemWf := by
  unfold State.clearWaits
  exact ((h.dropRequests _).modDie _ _).modBlk _ _

theorem State.MemWf.dropBins (h : s.MemWf) (bid : ℕ) : (s.dropBins bid).MemWf := h.foldl fun _ _ hu => hu.modPart _ _

theorem State.MemWf.trapThreads (h : s.MemWf) (bid : ℕ) (ts : List ℕ) : (s.trapThreads bid ts).MemWf := h.modBlk _ _

theorem State.MemWf.leaveTrap (h : s.MemWf) (bid t : ℕ) : (s.leaveTrap bid t).MemWf := by
  unfold State.leaveTrap
  dsimp only
  split
  · exact h
  · split
    · exact (h.modBlk _ _).file _ _ _
    · exact h.modBlk _ _

theorem State.MemWf.takePreempt (h : s.MemWf) (bid : ℕ) : (s.takePreempt bid).MemWf :=
  .ite ((h.clearWaits _ _).modBlk _ _) ((((h.clearWaits _ _).dropBins _).trapThreads _ _).modBlk _ _)

theorem State.MemWf.requestPreempt (h : s.MemWf) (bid : ℕ) (swap : Bool) : (s.requestPreempt bid swap).MemWf := by
  unfold State.requestPreempt
  split
  · exact (h.modBlk _ _).takePreempt _
  · exact .ite h (h.modBlk _ _)
  · exact .ite h (h.modBlk _ _)
  · exact h.modBlk _ _
  · exact h.modBlk _ _
  · exact h.modBlk _ _
  · exact h
  · exact h

theorem State.MemWf.without (h : s.MemWf) (ids : List ℕ) : (s.without ids).MemWf := h.update

theorem execPreemptionTrap_wf (h : s.MemWf) (blk : ℕ) : OutcomeWf (execPreemptionTrap blk s) :=
  .ite (.next (h.foldl (fun _ _ hu => hu.requestPreempt _ _))) (.ite (.next (h.requestPreempt _ _)) (.next h))

theorem State.MemWf.stayResident (h : s.MemWf) (bid : ℕ) : (s.stayResident bid).MemWf := h.modBlk _ _

theorem State.MemWf.keepMatrix (h : s.MemWf) (bid : ℕ) : (s.keepMatrix bid).MemWf := h.modBlk _ _

theorem State.MemWf.writeBars (h : s.MemWf) (bid : ℕ) : (s.writeBars bid).MemWf :=
  h.foldl fun _ _ hu => Memory.wf_setBytes _ hu _

theorem State.MemWf.takeSwap (h : s.MemWf) (bid : ℕ) : (s.takeSwap bid).MemWf := .ite h (h.draw.modCluster _ _)

theorem State.MemWf.saveBlock (h : s.MemWf) (bid : ℕ) : (s.saveBlock bid).MemWf := by
  unfold State.saveBlock
  exact (((((h.writeBars _).keepMatrix _).takeSwap _).releaseBlock _).modDie _ _).modBlk _ _

theorem State.MemWf.saveReads (h : s.MemWf) (bid : ℕ) : (s.saveReads bid).1.MemWf := by
  have hbars := foldl_fst_wf (p := (s, none)) (l := (s.blk bid).slots)
    (f := fun (acc : State × Option ℕ) e => if acc.2.isSome then acc else acc.1.barRead bid e.2.addr) h fun q e hq => by
      split
      · exact hq
      · exact hq.barRead _ _
  unfold State.saveReads
  dsimp only
  split
  · exact hbars
  · exact hbars.modPad _ _

theorem execPreemptionSave_wf (h : s.MemWf) (blk : ℕ) : OutcomeWf (execPreemptionSave blk s) := by
  unfold execPreemptionSave
  refine .ite (.next h) ?_
  dsimp only
  split
  · exact .next (((h.saveReads _).of_fst ‹_›).consume _ _ _)
  · have h1 := (h.saveReads _).of_fst ‹_›
    exact .ite (.next (h1.stayResident _)) (.next (h1.saveBlock _))

theorem State.MemWf.startRestore (h : s.MemWf) (bid core : ℕ) : (s.startRestore bid core).MemWf := by
  unfold State.startRestore
  exact ((h.foldl (fun _ _ hu => .ite (hu.modCluster _ _) hu)).modBlk _ _).takeCore _

theorem execBlockRestore_wf (h : s.MemWf) (blk : ℕ) : OutcomeWf (execBlockRestore blk s) := by
  unfold execBlockRestore
  dsimp only
  split
  · exact .next h
  · exact .ite (.next (h.foldl (fun _ _ hu => hu.startRestore _ _))) (.next h)

theorem State.MemWf.reloadMatrix (h : s.MemWf) (bid : ℕ) : (s.reloadMatrix bid).MemWf := h.foldl fun _ _ hu => hu.modPart _ _

theorem State.MemWf.reloadScratch (h : s.MemWf) (bid : ℕ) : (s.reloadScratch bid).MemWf := by
  unfold State.reloadScratch
  refine State.MemWf.foldl ?_ fun _ _ hu => hu.padStore _ _
  dsimp only
  split
  · exact h
  · exact h.modPad _ _

theorem State.MemWf.refile (h : s.MemWf) (bid : ℕ) : (s.refile bid).MemWf := by
  unfold State.refile
  refine h.foldl fun _ _ hu => ?_
  dsimp only
  split
  · exact (hu.modBlk _ _).file _ _ _
  · exact hu

theorem State.MemWf.reloadBlock (h : s.MemWf) (bid : ℕ) : (s.reloadBlock bid).MemWf := by
  unfold State.reloadBlock
  exact (((((((((((h.reloadMatrix _).reloadScratch _).modCore _ _).modBlk _ _).clearWaits _ _).freeSwap _).refile _).foldl (fun _ _ hu => .ite
    (hu.arrive _ _ _ _) hu)).modBlk _ _).servePort _ _ _ _).replayStale _ _).settle _

theorem State.MemWf.takeHeld (h : s.MemWf) (bid : ℕ) : (s.takeHeld bid).MemWf := .ite (h.takePreempt _) h

theorem execRowZeroing_wf (h : s.MemWf) (blk : ℕ) : OutcomeWf (execRowZeroing blk s) := by
  unfold execRowZeroing
  refine .ite (.next h) ?_
  exact .next (State.MemWf.ite_then (.ite ((h.modPad _ _).modBlk _ _) ((h.modPad _ _).reloadBlock _)) (fun hu => (hu.openInterval _).takeHeld _))

theorem State.MemWf.undo (h : s.MemWf) (bid : ℕ) (e : JEntry) : (s.undo bid e).MemWf := by
  unfold State.undo
  dsimp only
  split
  · exact h.modBlk _ _
  · exact h.modPad _ _
  · exact h.modPart _ _
  · exact h.modPart _ _
  · exact h

theorem State.MemWf.reapply (h : s.MemWf) (bid : ℕ) (e : JEntry) : (s.reapply bid e).MemWf := by
  unfold State.reapply
  split
  · exact .ite h (h.barUpdate _ _ _ _)
  · exact h

theorem State.MemWf.reloadCheckpoint (h : s.MemWf) (bid : ℕ) (c : Checkpoint) : (s.reloadCheckpoint bid c).MemWf :=
  (h.foldl (fun _ _ hu => hu.modPart _ _)).modBlk _ _

theorem State.MemWf.retrail (h : s.MemWf) (bid : ℕ) : (s.retrail bid).MemWf := .ite h ((h.foldl (fun _ _ hu => hu.modPart _ _)).modBlk _ _)

theorem execRollback_wf (h : s.MemWf) (blk : ℕ) : OutcomeWf (execRollback blk s) := by
  unfold execRollback
  dsimp only
  split
  · exact .next h
  · refine .ite (.next h) (.ite (.next (h.kill _ _ _ _)) ?_)
    exact .next ((((((((((((((h.clearWaits _ _).dropBins _).modDie _ _).foldl (fun _ _ hu => hu.undo _ _)).reloadCheckpoint _ _).modBlk _ _).foldl
      (fun _ _ hu => hu.reapply _ _)).report _ _).retrail _).modBlk _ _).refile _).replayStale _ _).settle _).takeHeld _)

theorem execBinDraw_wf (h : s.MemWf) (part bin : ℕ) : OutcomeWf (execBinDraw part bin s) := by
  unfold execBinDraw
  dsimp only
  split
  · exact .next h
  · exact .next ((h.modPart _ _).modBlk _ _)

theorem execForcedDissolution_wf (h : s.MemWf) (blk k : ℕ) : OutcomeWf (execForcedDissolution blk k s) := by
  unfold execForcedDissolution
  dsimp only
  split
  · exact .next h
  · exact .ite (.next ((h.modBlk _ _).settle _)) (.next h)

theorem State.MemWf.networkDown (h : s.MemWf) (cl : ℕ) : (s.networkDown cl).MemWf :=
  ((((h.modCluster _ _).lampLog _ _ _).foldl (fun _ _ hu => hu.kill _ _ _ _)).foldl
    (fun _ _ hu => hu.modCore _ _)).foldl fun _ _ hu => hu.foldl fun _ _ hv => hv.fillDone _ _ _

theorem execClusterFlitRetry_wf (h : s.MemWf) (cluster link : ℕ) : OutcomeWf (execClusterFlitRetry cluster link s) :=
  .ite (.next h) (.next ((h.modCluster _ _).ite_then (fun hu => hu.networkDown _)))

/-! ### Machine/System.lean: system instructions -/

theorem State.MemWf.privilege (h : s.MemWf) (len : ℕ) (bad : List ℕ) : (s.privilege len bad).MemWf := h.finishFaults _ _

theorem execSyswr_wf (h : s.MemWf) (x : Opnds) (r : BitVec 10) : OutcomeWf (execSyswr x r s) :=
  h.issue _ _ fun _ _ hu => (((hu.advanceBut _ _).modCb _).ite_else (fun hv => hv.irrevoke _)).privilege _ _

theorem State.MemWf.lateTrap (h : s.MemWf) (bid t : ℕ) : (s.lateTrap bid t).MemWf := .ite ((h.modBlk _ _).ite_then (fun hu => hu.trapThreads _ _)) h

theorem State.MemWf.returnTo (h : s.MemWf) (bid t : ℕ) (past : Bool) : (s.returnTo bid t past).MemWf := (h.modBlk _ _).lateTrap _ _

theorem State.MemWf.tretOp (h : s.MemWf) (i : Instr) (mode0 : Bool) (stray : State → List ℕ → List (ℕ × LF)) (f : State → ℕ → State)
    (hf : ∀ u e, u.MemWf → (f u e).MemWf) :
    OutcomeWf (s.tretOp i mode0 stray f) :=
  h.issue _ _ fun _ _ hu => ((((hu.advanceBut _ _).foldl (fun _ _ hv => .ite (hf _ _ hv) (hv.leaveTrap _ _))).ite_then
    (fun hv => hv.faultUnbound _)).fault _ _).settle _

theorem State.MemWf.faultRd (h : s.MemWf) (i : Instr) (spend : Bool) (pick : Word → FbEntry → Bool) (f : FbEntry → Option FbEntry) :
    OutcomeWf (s.faultRd i spend pick f) := by
  unfold State.faultRd
  refine h.issue _ _ fun _ _ hu => ?_
  dsimp only
  split
  · exact hu.advance _
  · refine .ite (hu.uniformFault _ _) (((State.MemWf.advance ?_ _).write _ _ _).ite_then (fun hw => hw.irrevoke _))
    split
    · exact hu
    · exact hu.modDie _ _

theorem execFaultCancel_wf (h : s.MemWf) (x : Opnds) (m : CancelMode) : OutcomeWf (execFaultCancel x m s) := by
  unfold execFaultCancel
  refine h.issue _ _ fun _ _ hu => ?_
  dsimp only
  split
  · exact hu.advance _
  · refine .ite (hu.uniformFault _ _) ?_
    split
    · exact hu.stall
    · exact (((((hu.lanesPerformed _ _).of_some ‹_›).advance _).write _ _ _).irrevoke _).ite_else fun hz => hz.releaseRecord _ _ _ _

theorem State.MemWf.forgetPages (h : s.MemWf) (d : ℕ) (p : TlbPick) : (s.forgetPages d p).MemWf := ((h.unwatch _).modDie _ _).update

theorem execTlbinv_wf (h : s.MemWf) (x : Opnds) (m : TlbMode) : OutcomeWf (execTlbinv x m s) := by
  unfold execTlbinv
  refine h.issue _ _ fun _ _ hu => ?_
  dsimp only
  split
  · exact hu.advance _
  · exact .ite (hu.trapAll _ _) (.ite (hu.uniformFault _ _) (.ite hu.stall (((hu.advance _).irrevoke _).forgetPages _ _)))

/-! ### Machine/Fabric.lean: leases, migration events and keys -/

theorem State.MemWf.setBorrow (h : s.MemWf) (slot : ℕ) (b : Borrow) : (s.setBorrow slot b).MemWf := (h.modHub _).ite_then fun hu => hu.update

theorem State.MemWf.emptyLease (h : s.MemWf) (slot : ℕ) : (s.emptyLease slot).MemWf := by
  unfold State.emptyLease
  exact ((h.foldl (fun _ _ hu => (hu.cleanRange _ _ _ _).dropL2 _ _ _)).update).modHub _

theorem State.MemWf.tryAck (h : s.MemWf) (slot : ℕ) : (s.tryAck slot).MemWf := .ite ((h.modHub _).send _) (.ite ((h.modHub _).send _) h)

theorem State.MemWf.tryAcks (h : s.MemWf) : s.tryAcks.MemWf := h.foldl fun _ _ hu => hu.tryAck _

theorem State.MemWf.releaseLease (h : s.MemWf) (slot : ℕ) : (s.releaseLease slot).MemWf := ((h.setBorrow _ _).emptyLease _).tryAck _

theorem State.MemWf.leaseOp (h : s.MemWf) (i : Instr) (f : Opnds → State → ℕ → List ℕ → ℕ → State)
    (hf : ∀ x u a b c, u.MemWf → (f x u a b c).MemWf) :
    OutcomeWf (s.leaseOp i f) := by
  unfold State.leaseOp
  refine h.issue _ _ fun _ _ hu => ?_
  split
  · exact hu.advance _
  · exact .ite (hu.uniformFault _ _) (hf _ _ _ _ _ hu)

theorem State.MemWf.leaseGive (h : s.MemWf) (x : Opnds) (l : ℕ) (ex : List ℕ) (slot : ℕ) : (s.leaseGive x l ex slot).MemWf :=
  ((h.advance _).write _ _ _).irrevoke _

theorem execLeaseQRel_wf (h : s.MemWf) (x : Opnds) : OutcomeWf (execLeaseQRel x s) :=
  h.leaseOp _ _ fun _ _ _ _ _ hu => (((hu.advance _).write _ _ _).irrevoke _).ite_then fun hv => hv.releaseLease _

theorem execLeaseQWaitTimeout_wf (h : s.MemWf) (blk thr : ℕ) : OutcomeWf (execLeaseQWaitTimeout blk thr s) := by
  unfold execLeaseQWaitTimeout
  split
  · exact .ite (.next (h.modBlk _ _)) (.next h)
  · exact .next h

theorem execMigAckTake_wf (h : s.MemWf) (x : Opnds) : OutcomeWf (execMigAckTake x s) := by
  unfold execMigAckTake
  refine h.issue _ _ fun _ _ hu => ?_
  dsimp only
  split
  · exact hu.advance _
  · exact .ite (hu.uniformFault _ _) ((((hu.modHub _).advance _).write _ _ _).irrevoke _)

theorem State.MemWf.migAck (h : s.MemWf) (i : Instr) (f : PeerEntry → PeerEntry) : OutcomeWf (s.migAck i f) := by
  unfold State.migAck
  refine h.issue _ _ fun _ _ hu => ?_
  dsimp only
  split
  · exact hu.advance _
  · exact .ite (hu.uniformFault _ _) ((((hu.modHub _).advance _).write _ _ _).irrevoke _)

theorem execMigrationEventDeferred_wf (h : s.MemWf) (k : ℕ) : OutcomeWf (execMigrationEventDeferred k s) := by
  unfold execMigrationEventDeferred
  split
  · exact .next h
  · exact .ite (.next h) (.next (h.modHub _))

theorem State.MemWf.drawKey (h : s.MemWf) : s.drawKey.1.MemWf :=
  foldl_fst_wf (p := (s, 0)) h fun _ _ hq => hq.draw

theorem State.MemWf.installKey (h : s.MemWf) (dom : ℕ) (u : KeyUse) (key : ℕ) : (s.installKey dom u key).1.MemWf := by
  unfold State.installKey
  dsimp only
  split
  · exact h.modHub _
  · split
    · exact h
    · exact h.draw.modHub _

theorem State.MemWf.keyGive (h : s.MemWf) (x : Opnds) (l v status : ℕ) : (s.keyGive x l v status).MemWf := ((h.advance _).write _ _ _).irrevoke _

theorem State.MemWf.keyNew (h : s.MemWf) (x : Opnds) (l : ℕ) (u : KeyUse) (key : ℕ) : (s.keyNew x l u key).MemWf := by
  unfold State.keyNew
  split <;> exact ((h.installKey _ _ _).of_fst ‹_›).keyGive _ _ _ _

theorem execKeyhGen_wf (h : s.MemWf) (x : Opnds) (u : KeyUse) : OutcomeWf (execKeyhGen x u s) := by
  unfold execKeyhGen
  refine h.issue _ _ fun _ _ hu => ?_
  dsimp only
  split
  · exact hu.advance _
  · split
    · exact hu.drawKey.keyNew _ _ _ _
    · exact hu.keyGive _ _ _ _

theorem execKeyhImp_wf (h : s.MemWf) (x : Opnds) (u : KeyUse) : OutcomeWf (execKeyhImp x u s) := by
  unfold execKeyhImp
  refine h.issue _ _ fun _ _ hu => ?_
  dsimp only
  split
  · exact hu.advance _
  · split
    · split
      · exact hu.uniformFault _ _
      · split
        · exact ((hu.load _ _ _ _ _).of_fst ‹_›).onceStop _ _ _ _ _ _ _
        · have h1 := (hu.load _ _ _ _ _).of_fst ‹_›
          split
          · exact ((h1.countSectors _ _).modCb _).keyGive _ _ _ _
          · exact .ite (((h1.countSectors _ _).modCb _).keyGive _ _ _ _) (((h1.countSectors _ _).modCb _).keyNew _ _ _ _)
    · exact hu.keyGive _ _ _ _

theorem State.MemWf.revokeKey (h : s.MemWf) (h0 : ℕ) : (s.revokeKey h0).MemWf := h.modHub _

theorem execKeyhRev_wf (h : s.MemWf) (x : Opnds) : OutcomeWf (execKeyhRev x s) := by
  unfold execKeyhRev
  refine h.issue _ _ fun _ _ hu => ?_
  dsimp only
  split
  · exact hu.advance _
  · split
    · exact hu.keyGive _ _ _ _
    · exact .ite hu.stall ((hu.revokeKey _).keyGive _ _ _ _)

theorem execKeyhQry_wf (h : s.MemWf) (x : Opnds) : OutcomeWf (execKeyhQry x s) := by
  unfold execKeyhQry
  refine h.issue _ _ fun _ _ hu => ?_
  dsimp only
  split
  · exact hu.advance _
  · split <;> exact hu.keyGive _ _ _ _

/-! ### Machine/Snuff.lean: granules changing owner -/

theorem State.MemWf.purge (h : s.MemWf) (lo n : ℕ) : (s.purge lo n).MemWf :=
  ((h.update.update.unwatch _).foldl (fun _ _ hu => hu.dropL2 _ _ _)).modHub _

theorem State.MemWf.zeroRange (h : s.MemWf) (lo n : ℕ) : (s.zeroRange lo n).MemWf := by
  unfold State.zeroRange
  refine State.MemWf.stamp ?_ _
  exact Memory.wf_filter h _

theorem State.MemWf.giveGranule (h : s.MemWf) (g code : ℕ) : (s.giveGranule g code).MemWf := ((h.purge _ _).zeroRange _ _).modHub _

theorem State.MemWf.snuffRun (h : s.MemWf) (q o n g done : ℕ) : (State.snuffRun q o n g done s).1.MemWf := by
  induction n generalizing s g done with
  | zero => exact h
  | succ n ih =>
    unfold State.snuffRun
    dsimp only
    split
    · exact h
    · split
      · exact ih (h.giveGranule _ _) _ _
      · exact h

theorem execSnuff_wf (h : s.MemWf) (x : Opnds) : OutcomeWf (execSnuff x s) := by
  unfold execSnuff
  refine h.issue _ _ fun _ _ hu => ?_
  dsimp only
  split
  · exact hu.advance _
  · refine .ite (hu.uniformFault _ _) (.ite (hu.uniformFault _ _) (.ite (hu.uniformFault _ _) (.ite hu.stall ?_)))
    exact (((hu.snuffRun _ _ _ _ _).advance _).write _ _ _).irrevoke _

theorem State.MemWf.zeroFrame (h : s.MemWf) (e : ℕ × ℕ) : (s.zeroFrame e).MemWf := (((h.purge _ _).zeroRange _ _).modHub _).modDie _ _

theorem execSnuffEngineZero_wf (h : s.MemWf) (granule : ℕ) : OutcomeWf (execSnuffEngineZero granule s) := by
  unfold execSnuffEngineZero
  refine .ite (.next h) ?_
  split
  · exact .next ((h.giveGranule _ _).modHub _)
  · exact .next (h.foldl (fun _ _ hw => hw.zeroFrame _))

/-! ### Machine/Warm.lean: warm reset -/

theorem State.MemWf.killAll (h : s.MemWf) (ids : List ℕ) (cause : ℕ) : (s.killAll ids cause).MemWf := h.foldl fun _ _ hu => hu.kill _ _ _ _

theorem State.MemWf.emptyCaches (h : s.MemWf) (d : ℕ) : (s.emptyCaches d).MemWf := ((h.cleanRange _ _ _ _).dropL2 _ _ _).update

theorem State.MemWf.discardWork (h : s.MemWf) (d : ℕ) : (s.discardWork d).MemWf := (h.modDie _ _).foldl fun _ _ hu => (hu.modBlk _ _).endKilled _

theorem State.MemWf.startReset (h : s.MemWf) (d : ℕ) : (s.startReset d).MemWf := ((h.modDie _ _).killAll _ _).discardWork _

theorem State.MemWf.diectl (h : s.MemWf) (i : Instr) (f : Opnds → State → ℕ → ℕ → State) (hf : ∀ x u a b, u.MemWf → (f x u a b).MemWf) :
    OutcomeWf (s.diectl i f) := by
  unfold State.diectl
  refine h.issue _ _ fun _ _ hu => ?_
  split
  · exact hu.advance _
  · exact .ite (hu.uniformFault _ _) ((hf _ _ _ _ hu).irrevoke _)

theorem execDiectlReset_wf (h : s.MemWf) (x : Opnds) : OutcomeWf (execDiectlReset x s) :=
  h.diectl _ _ fun _ _ _ _ hu => ((hu.advance _).write _ _ _).ite_then fun hv => hv.startReset _

theorem State.MemWf.dropLine (h : s.MemWf) (line : ℕ) : (s.dropLine line).MemWf := by
  unfold State.dropLine
  exact (h.foldl (fun _ _ hu => (hu.cleanRange _ _ _ _).dropL2 _ _ _)).modHub _

theorem State.MemWf.endStep (h : s.MemWf) (die step : ℕ) (p : Held → Bool) : (s.endStep die step p).MemWf := .ite h (h.modDie _ _)

theorem State.MemWf.resetWriteBack (h : s.MemWf) (die : ℕ) : (s.resetWriteBack die).MemWf := by
  unfold State.resetWriteBack
  refine .ite ((h.emptyCaches _).endStep _ _ _) (.ite h ?_)
  exact ((h.foldl (fun _ _ hu => .ite hu (hu.cleanRange _ _ _ _))).foldl (fun _ _ hu => hu.dropLine _)).endStep _ _ _

theorem execWarmResetWriteBack_wf (h : s.MemWf) : OutcomeWf (execWarmResetWriteBack s) := by
  refine OutcomeWf.next ?_
  cases s.underReset with
  | none => exact h
  | some d => exact h.resetWriteBack _

theorem State.MemWf.dieReset (h : s.MemWf) (d : ℕ) : (s.dieReset d).MemWf := ((h.modDie _ _).update).modHub _

theorem State.MemWf.resetRetrain (h : s.MemWf) (ok : Bool) (die : ℕ) : (s.resetRetrain ok die).MemWf :=
  .ite ((h.dieReset _).modDie _ _) (.ite h (.ite (h.modDie _ _) (h.modDie _ _)))

theorem execWarmResetRetrain_wf (h : s.MemWf) (ok : Bool) : OutcomeWf (execWarmResetRetrain ok s) := by
  refine OutcomeWf.next ?_
  cases s.underReset with
  | none => exact h
  | some d => exact h.resetRetrain _ _

theorem State.MemWf.releaseDeferred (h : s.MemWf) (d : ℕ) (cause : Half) : (s.releaseDeferred d cause).MemWf :=
  h.foldl fun _ _ hu => ((hu.modDie _ _).tellWaiter _ _ _).releaseRecord _ _ _ _

theorem State.MemWf.releaseCause (h : s.MemWf) (d : ℕ) (cause : Half) : (s.releaseCause d cause).MemWf :=
  (h.foldl (fun _ _ hu => hu.releaseRecord _ _ _ _)).releaseDeferred _ _

theorem State.MemWf.recheckHome (h : s.MemWf) (die : ℕ) : (s.recheckHome die).MemWf := by
  unfold State.recheckHome
  refine h.foldl fun _ _ hu => ?_
  split
  · exact .ite (hu.recheck _ _) hu
  · exact hu

theorem State.MemWf.resetReadmit (h : s.MemWf) (die : ℕ) : (s.resetReadmit die).MemWf :=
  .ite h (((((h.modDie _ _).setClock _ _).sendHeld _).foldl (fun _ _ hu => hu.releaseCause _ _)).recheckHome _)

theorem execWarmResetReadmit_wf (h : s.MemWf) : OutcomeWf (execWarmResetReadmit s) := by
  refine OutcomeWf.next ?_
  cases s.underReset with
  | none => exact h
  | some d => exact h.resetReadmit _

/-! ### Machine/Power.lean: images, ports and power -/

theorem State.MemWf.activate (h : s.MemWf) (k : Staging) : (s.activate k).MemWf := h.modHub _

theorem execManifestReceived_wf (h : s.MemWf) (bytes : List Byte) : OutcomeWf (execManifestReceived bytes s) := by
  unfold execManifestReceived
  refine .ite (.next h) ?_
  dsimp only
  split
  · exact .next h
  · exact .next ((h.foldl (fun _ _ hw => hw.giveGranule _ _)).modHub _)

theorem execChunkReceived_wf (h : s.MemWf) (i : ℕ) (bytes : List Byte) : OutcomeWf (execChunkReceived i bytes s) := by
  unfold execChunkReceived
  dsimp only
  split
  · exact .next h
  · refine .ite (.next h) (.ite (.next ((h.homeWrite _ _ _).modHub _)) (.ite (.next ((h.homeWrite _ _ _).activate _)) ?_))
    exact .next ((h.homeWrite _ _ _).modHub _)

theorem State.MemWf.multicast (h : s.MemWf) (p : ℕ → Bool) : (s.multicast p).MemWf := by
  unfold State.multicast
  split
  · exact h
  · exact h.foldl fun _ _ hu => hu.send _

theorem execChunkBitmapRead_wf (h : s.MemWf) (m : BitmapRead) : OutcomeWf (execChunkBitmapRead m s) := by
  unfold execChunkBitmapRead
  refine .next ?_
  split
  · exact h.send _
  · exact .ite (h.multicast _) h

theorem State.MemWf.distribute (h : s.MemWf) (manifest : List Byte) (chunks : List (ℕ × List Byte)) : (s.distribute manifest chunks).MemWf :=
  .ite h (((h.modHub _).send _).multicast _)

theorem State.MemWf.readBitmaps (h : s.MemWf) : s.readBitmaps.MemWf := .ite h (h.foldl (fun _ _ hu => hu.send _))

theorem State.MemWf.holdLink (h : s.MemWf) (a b : ℕ) (live : Bool) (seq : Word) : (s.holdLink a b live seq).MemWf := (h.modHub _).send _

theorem State.MemWf.startDrain (h : s.MemWf) (link : ℕ) : (s.startDrain link).MemWf := h.modHub _

theorem State.MemWf.resend (h : s.MemWf) (r : FabricReq) : (s.resend r).MemWf := (h.modHub _).send _

theorem State.MemWf.forgetLost (h : s.MemWf) : s.forgetLost.MemWf := (h.modHub _).foldl fun _ _ hu => hu.resend _

theorem State.MemWf.portDown (h : s.MemWf) (port : ℕ) : (s.portDown port).MemWf := ((h.modHub _).holdLink _ _ _ _).startDrain _

theorem State.MemWf.portIde (h : s.MemWf) (port handle : ℕ) : (s.portIde port handle).MemWf := by
  unfold State.portIde
  split
  · exact h
  · exact .ite h (h.modHub _)

theorem State.MemWf.cutOff (h : s.MemWf) (d : ℕ) : (s.cutOff d).MemWf :=
  .ite (((((h.killAll _ _).discardWork _).writeBack _ _ _).emptyCaches _).modDie _ _) h

theorem execBirluxLinkDown_wf (h : s.MemWf) (link : ℕ) : OutcomeWf (execBirluxLinkDown link s) :=
  .ite (.next h) (.next (((h.modHub _).lampLog _ _ _).foldl (fun _ _ hu => hu.cutOff _)))

theorem State.MemWf.flushPersistent (h : s.MemWf) : s.flushPersistent.MemWf := by
  unfold State.flushPersistent
  refine (State.MemWf.modHub ?_ _).send _
  exact Memory.wf_foldl s.hub.durable _ (fun _ e hm => Memory.wf_setByte hm e.1 e.2) h

theorem State.MemWf.haltPackage (h : s.MemWf) (p : Power) (event : LogEvent) (data : List ℕ) : (s.haltPackage p event data).MemWf := by
  unfold State.haltPackage
  exact (((((((h.modHub _).killAll _ _).sendHeld _).foldl (fun _ _ hu => hu.writeBack _ _ _)).flushPersistent).foldl (fun _ _ hu => .ite hu
    (hu.portDown _))).lampLog _ _ _).modHub _

theorem State.MemWf.haltOp (h : s.MemWf) (i : Instr) (p : Power) : OutcomeWf (s.haltOp i p) := by
  unfold State.haltOp
  refine h.issue _ _ fun _ _ hu => .ite (hu.advance _) (.ite (hu.uniformFault _ _) ?_)
  split
  · exact hu.stall
  · exact ((hu.lanesPerformed _ _).of_some ‹_›).haltPackage _ _ _

theorem State.MemWf.setMhz (h : s.MemWf) (d m : ℕ) : (s.setMhz d m).MemWf := h.update.modDie _ _

theorem execPowerInterval_wf (h : s.MemWf) (watts : ℕ) : OutcomeWf (execPowerInterval watts s) :=
  .next ((h.foldl (fun _ _ hu => hu.setMhz _ _)).ite_else (fun hu => hu.lampLog _ _ _))

theorem execThermalTrip_wf (h : s.MemWf) (die : ℕ) (r : Reading) : OutcomeWf (execThermalTrip die r s) := by
  unfold execThermalTrip
  refine .ite (.next h) (.ite (.next (h.haltPackage _ _ _)) ?_)
  refine .ite (.ite (.next h) (.next (((h.modDie _ _).setMhz _ _).lampLog _ _ _))) (.ite (.next (h.modDie _ _)) ?_)
  exact .next h

theorem execColdBoot_wf (h : s.MemWf) : OutcomeWf (execColdBoot s) := by
  unfold execColdBoot
  refine .ite (OutcomeWf.next h) (.ite (OutcomeWf.next (h.modHub _)) (OutcomeWf.next ?_))
  exact Memory.wf_filter h.drawKey _

theorem State.MemWf.drawSalt (h : s.MemWf) : s.drawSalt.1.MemWf :=
  foldl_fst_wf (p := (s, [])) h fun _ _ hq => hq.draw

theorem execSpdmMessage_wf (h : s.MemWf) (m : Spdm) : OutcomeWf (execSpdmMessage m s) := by
  unfold execSpdmMessage
  dsimp only
  split
  · exact .next (h.drawSalt.send _)
  · exact .next (.ite (h.modHub _) h)

/-! ### Machine/EvCore.lean: events of a core -/

theorem execBankRetirement_wf (h : s.MemWf) (core bank : ℕ) : OutcomeWf (execBankRetirement core bank s) := by
  refine .ite (.next h) (.ite (.ite (.next ((h.modCore _ _).lampLog _ _ _)) (.next h)) ?_)
  exact .next ((h.modPad _ _).lampLog _ _ _)

theorem State.MemWf.shareWalk (h : s.MemWf) (w : Who) (va : ℕ) (cores : List ℕ) : (s.shareWalk w va cores).MemWf := by
  unfold State.shareWalk
  split
  · exact h
  · exact h.foldl fun _ _ hu => hu.installLeaf _ _ _

theorem execTranslationWalk_wf (h : s.MemWf) (core dom asn : ℕ) (va : DWord) (acc : Access) :
    OutcomeWf (execTranslationWalk core dom asn va acc s) := by
  unfold execTranslationWalk
  dsimp only
  split
  · exact .next h
  · split
    · exact .next ((((h.modDie _ _).walkFor _ _ _ _).of_fst ‹_›).modDie _ _)
    · exact .next ((((h.modDie _ _).walkFor _ _ _ _).of_fst ‹_›).modDie _ _)
    · exact .next ((((h.modDie _ _).walkFor _ _ _ _).of_fst ‹_›).shareWalk _ _ _)

/-! ### Machine/EvLease.lean: events of leases and peers -/

theorem State.MemWf.moveLease (h : s.MemWf) (k : ℕ) (f : Lease → Lease) : (s.moveLease k f).MemWf := h.modHub _

theorem State.MemWf.setOwners (h : s.MemWf) (gs : List ℕ) (code : ℕ) : (s.setOwners gs code).MemWf := h.modHub _

theorem execLeaseAccept_wf (h : s.MemWf) (k : ℕ) : OutcomeWf (execLeaseAccept k s) := .ite (.next h) (.next (h.moveLease _ _))

theorem State.MemWf.endOffer (h : s.MemWf) (k : ℕ) : (s.endOffer k).MemWf := (h.moveLease _ _).setOwners _ _

theorem execLeaseDecline_wf (h : s.MemWf) (k : ℕ) : OutcomeWf (execLeaseDecline k s) := .ite (.next h) (.next (h.endOffer _))

theorem State.MemWf.recall (h : s.MemWf) (k : ℕ) : (s.recall k).MemWf := (h.moveLease _ _).send _

theorem execBorrowerAck_wf (h : s.MemWf) (k : ℕ) : OutcomeWf (execBorrowerAck k s) := .ite (.next h) (.next (h.moveLease _ _))

theorem execExtentZeroed_wf (h : s.MemWf) (k : ℕ) : OutcomeWf (execExtentZeroed k s) :=
  .ite (.next h) (.next ((h.foldl (fun _ _ hu => hu.giveGranule _ _)).moveLease _ _))

theorem State.MemWf.peerWrite (h : s.MemWf) (pa : ℕ) (bs : List Byte) : (s.peerWrite pa bs).MemWf :=
  (h.foldl (fun _ _ hu => hu.dropL2 _ _ _)).homeWrite _ _ _

theorem State.MemWf.peerServe (h : s.MemWf) (port page pa : ℕ) (ask : PeerAsk) : (s.peerServe port page pa ask).1.MemWf := by
  unfold State.peerServe
  dsimp only
  split
  · exact h
  · exact h
  · exact h.peerWrite _ _
  · dsimp only
    split
    · exact h.peerWrite _ _
    · exact h

theorem State.MemWf.dropAsk (h : s.MemWf) (port tag : ℕ) : (s.dropAsk port tag).MemWf := .ite (h.modHub _) h

theorem State.MemWf.waitAsk (h : s.MemWf) (a : PeerWait) : (s.waitAsk a).MemWf := .ite h (h.modHub _)

theorem execPeerTranslationRequest_wf (h : s.MemWf) (port id gen inc page tag : ℕ) (what : PeerAsk) :
    OutcomeWf (execPeerTranslationRequest port id gen inc page tag what s) := by
  unfold execPeerTranslationRequest
  refine .ite (.next (h.dropAsk _ _)) ?_
  dsimp only
  split
  · exact .next ((h.dropAsk _ _).send _)
  · refine .ite (.next (h.waitAsk _)) ?_
    exact .next ((((h.dropAsk _ _).peerServe _ _ _ _).modHub _).foldl (fun _ _ hw => hw.send _))

theorem execBisnpReceived_wf (h : s.MemWf) (slot : ℕ) : OutcomeWf (execBisnpReceived slot s) :=
  .ite (.next h) (.next (((h.setBorrow _ _).emptyLease _).tryAck _))

theorem execReleaseConfirmed_wf (h : s.MemWf) (slot : ℕ) : OutcomeWf (execReleaseConfirmed slot s) := .ite (.next h) (.next (h.setBorrow _ _))

theorem State.MemWf.loseBorrow (h : s.MemWf) (slot : ℕ) : (s.loseBorrow slot).MemWf :=
  .ite h (((((h.foldl (fun _ _ hu => hu.dropL2 _ _ _)).update).modHub _).setBorrow _ _).killAll _ _)

theorem State.MemWf.loseLender (h : s.MemWf) (port : ℕ) : (s.loseLender port).MemWf := h.foldl fun _ _ hu => hu.loseBorrow _

theorem State.MemWf.losePeer (h : s.MemWf) (port : ℕ) : (s.losePeer port).MemWf := (h.loseLender _).foldl fun _ _ hu => hu.moveLease _ _

theorem State.MemWf.endRequest (h : s.MemWf) (slot page : ℕ) : (s.endRequest slot page).MemWf := h.modHub _

theorem State.MemWf.learnPage (h : s.MemWf) (slot page inc phys : ℕ) : (s.learnPage slot page inc phys).MemWf := (h.endRequest _ _).modHub _

theorem execPeerTranslationReply_wf (h : s.MemWf) (slot page inc : ℕ) (phys : Option ℕ) :
    OutcomeWf (execPeerTranslationReply slot page inc phys s) := by
  unfold execPeerTranslationReply
  refine .ite (.next (h.endRequest _ _)) ?_
  split
  · exact .ite (.next h) (.next (.ite ((h.endRequest _ _).tryAck _) (h.learnPage _ _ _ _)))
  · exact .next (.ite (h.loseLender _) (.ite (h.loseBorrow _) ((h.endRequest _ _).tryAck _)))

theorem State.MemWf.endData (h : s.MemWf) (r : FabricReq) : (s.endData r).MemWf := h.modHub _

theorem State.MemWf.dataReply (h : s.MemWf) (slot tag inc : ℕ) (ok : Bool) : (s.dataReply slot tag inc ok).MemWf := by
  unfold State.dataReply
  dsimp only
  split
  · exact h
  · refine .ite (State.MemWf.tryAck ?_ _) (.ite (h.loseLender _) (.ite (h.loseBorrow _) ((h.modHub _).tryAck _)))
    split
    · exact (h.endData _).stepHome _ _ _ _ _ _ _
    · exact h.endData _

theorem execLinkStateUpdate_wf (h : s.MemWf) (a b : ℕ) (live : Bool) (seq : Word) : OutcomeWf (execLinkStateUpdate a b live seq s) := by
  refine .ite (.next h) (.ite (.next ((h.holdLink _ _ _ _).forgetLost)) ?_)
  exact .next (((h.holdLink _ _ _ _).startDrain _).ite_then (fun hu => hu.losePeer _))

theorem State.MemWf.drainReq (h : s.MemWf) (refused : List ℕ) (r : FabricReq) : (s.drainReq refused r).MemWf := by
  unfold State.drainReq
  dsimp only
  split
  · exact h
  · exact .ite h (.ite ((h.modHub _).send _) (.ite (h.modHub _) (.ite (h.resend _) h)))

theorem execDrainProbe_wf (h : s.MemWf) (source round : ℕ) (tags : List ℕ) : OutcomeWf (execDrainProbe source round tags s) :=
  .next (((h.foldl (fun _ _ hu => hu.send _)).modHub _).send _)

/-! ### Machine/EvPod.lean: events of a pod -/

theorem execHeartbeatReceived_wf (h : s.MemWf) (r : Rank) (_sender : ℕ) : OutcomeWf (execHeartbeatReceived r _sender s) := .next (h.modHub _)

theorem State.MemWf.stand (h : s.MemWf) : s.stand.MemWf := (h.modHub _).send _

theorem State.MemWf.countVotes (h : s.MemWf) : s.countVotes.MemWf := .ite ((h.modHub _).send _) h

theorem State.MemWf.standCount (h : s.MemWf) : s.standCount.MemWf := h.stand.countVotes

theorem execVoteRequest_wf (h : s.MemWf) (r : Rank) (sender : ℕ) : OutcomeWf (execVoteRequest r sender s) :=
  .ite (.next (((h.modHub _).modHub _).send _)) (.next (h.modHub _))

theorem execVoteGrant_wf (h : s.MemWf) (term : Word) (sender : ℕ) : OutcomeWf (execVoteGrant term sender s) :=
  .ite (.next ((h.modHub _).countVotes)) (.next h)

theorem execFmRefusal_wf (h : s.MemWf) (r : Rank) : OutcomeWf (execFmRefusal r s) := .next (h.modHub _)

theorem State.MemWf.kernelWrite (h : s.MemWf) (pa : ℕ) (b : Byte) (coherent : Bool) : (s.kernelWrite pa b coherent).MemWf :=
  .ite h (.ite ((h.cohere _ _ _).coherentStore _ _ _ _) (h.sendHome _ _ _ _ _))

theorem State.MemWf.kernelRead (h : s.MemWf) (pa : ℕ) : (s.kernelRead pa).MemWf := .ite h ((h.cohere _ _ _).fetchSector _ _)

theorem State.MemWf.homeRead (h : s.MemWf) (pa : ℕ) : (s.homeRead pa).MemWf := by
  unfold State.homeRead
  refine .ite h (State.MemWf.ask ?_ _ _ _)
  split
  · exact h.request _ _ _ _
  · exact h

theorem State.MemWf.kernelFence (h : s.MemWf) : s.kernelFence.MemWf := h.settleWhere _

theorem State.MemWf.kernelAmo (h : s.MemWf) (pa : ℕ) (step : PeerStep) (coherent release : Bool) : (s.kernelAmo pa step coherent release).MemWf := by
  unfold State.kernelAmo
  refine State.MemWf.ite_else (.ite h.kernelFence h) fun hu => .ite ?_ ?_
  · dsimp only
    split
    · exact ((hu.cohere _ _ _).ite_else (fun hw => hw.fetchSector _ _)).coherentStore _ _ _ _
    · exact (hu.cohere _ _ _).ite_else fun hw => hw.fetchSector _ _
  · split
    · exact hu.request _ _ _ _
    · exact hu.stepHome _ _ _ _ _ _ _

theorem State.MemWf.kernelCopy (h : s.MemWf) (die src dst n : ℕ) : (s.kernelCopy die src dst n).MemWf := .ite h (h.modDie _ _)

theorem State.MemWf.clearAlias (h : s.MemWf) (slot : ℕ) : (s.clearAlias slot).MemWf := Memory.wf_filter h _

theorem execConfigWrite_wf (h : s.MemWf) (w : CfgWrite) : OutcomeWf (execConfigWrite w s) := by
  unfold execConfigWrite
  refine .next ?_
  dsimp only
  split
  · exact .ite (h.modDie _ _) h
  · exact .ite (h.modQueue _ _) h
  · exact .ite (h.modWq _ _ _) h
  · exact h.modHub _
  · exact h.modHub _
  · exact .ite (h.modCore _ _) h
  · exact .ite (h.modHub _) h
  · exact .ite (h.modDie _ _) h
  · exact h.modHub _
  · exact h.modHub _
  · exact h.modHub _
  · exact h.modHub _
  · exact h.kernelWrite _ _ _
  · exact h.kernelRead _
  · exact h.homeRead _
  · exact h.kernelFence
  · exact h.kernelAmo _ _ _ _
  · exact h.kernelCopy _ _ _ _
  · exact h.portIde _ _
  · exact .ite (h.send _) h
  · exact h.distribute _ _
  · exact h.readBitmaps
  · exact h.modHub _
  · exact .ite ((h.setBorrow _ _).clearAlias _) h
  · refine .ite ?_ h
    split
    · exact h.activate _
    · exact h

theorem State.MemWf.refuseDelivery (h : s.MemWf) (d : Delivery) : (s.refuseDelivery d).MemWf := .ite (h.modHub _) ((h.raiseRestart _ _ _).modHub _)

theorem State.MemWf.arriveDelivery (h : s.MemWf) (d : Delivery) : (s.arriveDelivery d).MemWf :=
  (h.deliver _).ite_else fun hu => .ite (.ite h (h.refuseDelivery _)) (.ite hu h)

theorem execWriteDelivery_wf (h : s.MemWf) (agent : ℕ) : OutcomeWf (execWriteDelivery agent s) := by
  unfold execWriteDelivery
  dsimp only
  split
  · exact .next h
  · exact .next ((h.arriveDelivery _).tryAcks)

theorem State.MemWf.persistDone (h : s.MemWf) (e : Persist) : (s.persistDone e).MemWf :=
  (h.foldl (fun _ _ hu => hu.foldl (fun _ _ hv => hv.writeBack _ _ _))).modHub _

theorem execPersistentStoreComplete_wf (h : s.MemWf) (k : ℕ) : OutcomeWf (execPersistentStoreComplete k s) := by
  unfold execPersistentStoreComplete
  split
  · exact .next h
  · exact .ite (.next h) (.next (h.persistDone _))

/-! ### Machine/EvTime.lean: events of time -/

theorem State.MemWf.nextSlot (h : s.MemWf) : s.nextSlot.MemWf :=
  (((h.update.modHub _).ite_then (fun hu => hu.foldl (fun _ _ hv => hv.dropFailed _))).sendHeld _).tryAcks

/-! ### Machine/Dispatch.lean: every instruction and event -/

theorem exec_wf (h : s.MemWf) (i : Instr) : OutcomeWf (exec i s) := by
  cases i <;> unfold exec
  case nop => exact h.issue _ _ fun _ _ hu => hu.advance _
  case iadd | isub | imul | imulhi | imin | imax => exact intOp2_wf h _ _ _
  case imad | lut3 | bfe | bfi | icmp | sel | lea | imadWide | prmt | isad | fcmp | fclass | fscale | fdot2 | cvt | fmtGet | flagsGet | pack | unpack
    | xlane | fhz | scbdQ | accStat => exact h.alu _ _ _
  case iabs | ineg | not | popc | clz | brev | mov => exact bitOp1_wf h _ _ _ _
  case shl | shr | sar | rot => exact shiftOp_wf h _ _ _
  case and | or | xor => exact bitOp2_wf h _ _ _
  case iaddc => exact h.issue _ _ fun _ _ hu => ((hu.advance _).write _ _ _).write _ _ _
  case fadd | fsub | fmul | fmin | fmax | fdiv => exact fpOp2_wf h _ _ _ _
  case ffma => exact fpOp3_wf h _ _ _ _
  case frcp | frsq | fsqrt | ffrac | fround => exact fpOp1_wf h _ _ _ _
  case fex2 | flg2 | fsin | fcos => exact fpFun_wf h _ _ _ _
  case cvtNfEnc | cvtNfDec | unpkNf => exact h.issue _ _ fun _ _ hu => .ite (hu.trapAll _ _) (((hu.advance _).write _ _ _).flagLanes _)
  case cvtNfb => exact h.issue _ _ fun _ _ hu => ((hu.advance _).write _ _ _).flagLanes _
  case fmtSet => exact execFmtSet_wf h _ _
  case flagsClr | presig => exact h.issue _ _ fun _ _ hu => (hu.advance _).modCb _
  case sadd | ssub | smul => exact scalInt_wf h _ _ _
  case sand | sor | sxor => exact scalBits_wf h _ _ _
  case sshl | sshr => exact scalShift_wf h _ _ _
  case scmp | smov | rfl | ballot | agree | spstat | scbdCnt => exact h.once _ _ _
  case sld | ldl | stl | ldc => exact h.issue _ _ fun _ _ hu => hu.access _ _ _ _ _ _ _ _ _ _ _ fun _ _ hv => hv
  case lred => exact execLred_wf h _ _ _
  case bra | brx | ret => exact h.issue _ _ fun _ _ hu => hu.branch _ _
  case call => exact h.issue _ _ fun _ _ hu => (hu.write _ _ _).jump _ _
  case exit => exact execExit_wf h _
  case jenr | jenrSet | jstrike => exact h.issue _ _ fun _ _ hu => hu.changeMasks _ _ _ _
  case jpark => exact execJpark_wf h _
  case jstrikeAll => exact h.issue _ _ fun _ _ hu => ((hu.advance _).modCb _).settle _
  case reform => exact execReform_wf h _
  case brd => exact execBrd_wf h _
  case yield => exact execYield_wf h _
  case trap => exact h.issue _ _ fun _ _ hu => (hu.advanceBut _ _).finishFaults _ _
  case brk => exact execBrk_wf h _
  case nap => exact h.issue _ _ fun _ _ hu => ((hu.advance _).endTurn).ite_else fun hv => hv.modCb _
  case napExpiry => exact .ite (.next (h.modBlk _ _)) (.next h)
  case ld | st => exact h.issue _ _ fun _ _ hu => hu.access _ _ _ _ _ _ _ _ _ _ _ fun _ _ hv => hv.lastUse _ _ _
  case pref => exact execPref_wf h _ _ _
  case lds => exact execLds_wf h _ _ _
  case sts => exact execSts_wf h _ _ _
  case atoms => exact execAtoms_wf h _ _ _
  case ldsRem | stsRem | stsRemArr => exact h.remoteOp _ _ _
  case atom | red => exact h.atomOp _ _ _ _ _ _
  case waitcmp => exact execWaitcmp_wf h _ _ _
  case fence => exact execFence_wf h _ _
  case pbar => exact execPbar_wf h _ _
  case cleanR | invR | flushR => exact h.rangeOp _ _
  case bbind => exact execBbind_wf h _ _ _
  case bunbind => exact execBunbind_wf h _ _
  case barr => exact execBarr_wf h _ _
  case barrb => exact execBarrb_wf h _ _
  case bwait => exact execBwait_wf h _ _
  case btest => exact execBtest_wf h _ _
  case bwaitt => exact execBwaitt_wf h _ _
  case bwaittTimeout => exact execBwaittTimeout_wf h _ _
  case bblk => exact execBblk_wf h _
  case bexp => exact execBexp_wf h _ _ _ _
  case ringBind => exact execRingBind_wf h _ _ _
  case ringAcq | ringGet => exact h.ringOp _ _ _ fun _ _ _ _ _ hu => hu.ringWait _ _ _ _
  case ringPut | ringRel => exact h.ringOp _ _ _ fun _ _ _ _ _ hu => hu.ringArrive _ _ _ _ _
  case cpy | cpyX | cpyC => exact h.supply _ _ _ _
  case cpyGl => exact execCpyGl_wf h _
  case cpyFan => exact execCpyFan_wf h _ _ _
  case publ | publDrop => exact h.publOp _ _
  case scbdWait => exact execScbdWait_wf h _
  case shdwOpen => exact execShdwOpen_wf h _
  case cpySealEnc | cpySealDec => exact h.sealOp _ _
  case bkAdd | bkMul | bkFma | bkRed | bkScale | bkCmp | bkFill => exact h.bankOp _ _ _ _
  case bkWait => exact execBkWait_wf h _
  case obres => exact execObres_wf h _ _
  case obrel => exact execObrel_wf h _ _
  case obld | obldX => exact h.fillOp _ _ _
  case mma | mmas => exact h.mmaOp _ _ _ _ _
  case accZero => exact h.issue _ _ fun _ _ hu => (hu.foldl (fun _ _ hv => hv.setRow _ _ _)).advance _
  case accLd => exact execAccLd_wf h _ _ _ _
  case accSt => exact execAccSt_wf h _ _ _ _ _
  case accRenorm => exact h.eachRow _ _ fun _ _ _ hu => .ite hu (hu.renormRow _ _ _ _)
  case accTmask => exact execAccTmask_wf h _ _
  case accScale => exact h.eachRow _ _ fun _ _ _ hu => .ite hu ((hu.setRow _ _ _).flagLanes _)
  case accRmax => exact execAccRmax_wf h _ _ _
  case accMode => exact execAccMode_wf h _ _
  case conftest => exact execConftest_wf h _ _
  case bkfill => exact execBkfill_wf h _ _
  case bkfillReg => exact execBkfillReg_wf h _ _
  case bkwait => exact execBkwait_wf h _ _
  case wqPush | wqPull => exact h.wqOp _ _
  case wqStatCnt => exact h.wqStat _ _ _ fun _ hu => hu
  case wqStatClose => exact h.wqStat _ _ _ fun _ hu => (hu.modWq _ _ _).wqServeAll _ _ _
  case wqStatOpen => exact h.wqStat _ _ _ fun _ hu => hu.modWq _ _ _
  case launch | launchArr => exact h.launchOp _ _
  case lqStat => exact execLqStat_wf h _
  case leaseQStat => exact h.leaseOp _ _ fun _ _ _ _ _ hu => hu.leaseGive _ _ _ _
  case leaseQWait => exact h.leaseOp _ _ fun _ _ _ _ _ hu => .ite (hu.leaseGive _ _ _ _) (hu.hold _ _)
  case leaseQRel => exact execLeaseQRel_wf h _
  case keyhGen => exact execKeyhGen_wf h _ _
  case keyhImp => exact execKeyhImp_wf h _ _
  case keyhRev => exact execKeyhRev_wf h _
  case keyhQry => exact execKeyhQry_wf h _
  case migAckTake => exact execMigAckTake_wf h _
  case migAckRearm | migAckQuiet => exact h.migAck _ _
  case sysrd | oplogRd => exact h.issue _ _ fun _ _ hu => ((hu.advanceBut _ _).write _ _ _).privilege _ _
  case syswr => exact execSyswr_wf h _ _
  case tret | tretNext => exact h.tretOp _ _ _ _ fun _ _ hu => hu.returnTo _ _ _
  case tretStrike => exact h.tretOp _ _ _ _ fun _ _ hu => hu.strike _ _
  case faultRdSeq | faultRdTake | faultRdFree => exact h.faultRd _ _ _ _
  case faultCancel => exact execFaultCancel_wf h _ _
  case tlbinv => exact execTlbinv_wf h _ _
  case diectlReset => exact execDiectlReset_wf h _
  case diectlStat => exact h.diectl _ _ fun _ _ _ _ hu => (hu.advance _).write _ _ _
  case snuff => exact execSnuff_wf h _
  case haltOff | haltReboot => exact h.haltOp _ _
  case bankPass => exact .next (h.modPad _ _)
  case rowRebuild => exact .ite (.next h) (.next (h.modPad _ _))
  case rowZeroing => exact execRowZeroing_wf h _
  case blockPlacement => exact execBlockPlacement_wf h _
  case blockCompletion => exact execBlockCompletion_wf h _
  case preemptionTrap => exact execPreemptionTrap_wf h _
  case preemptionSave => exact execPreemptionSave_wf h _
  case preemptionTimeout => exact .ite (.next ((h.clearWaits _ _).modBlk _ _)) (.next h)
  case blockRestore => exact execBlockRestore_wf h _
  case rollback => exact execRollback_wf h _
  case afterglowRelease => exact .next (h.modBlk _ _)
  case binDraw => exact execBinDraw_wf h _ _
  case forcedDissolution => exact execForcedDissolution_wf h _ _
  case copyAccept => exact execCopyAccept_wf h _
  case copyBytesLand => exact execCopyBytesLand_wf h _ _
  case obFillComplete => exact execObFillComplete_wf h _ _
  case heldAccessRelease | remoteAccessAtTarget => exact .next (h.servePort _ _ _ _)
  case swapEntryValid => exact .ite (.next h) (.next ((h.modCluster _ _).servePort _ _ _ _))
  case waitcmpRecheck => exact .next (.ite (h.recheck _ _) h)
  case waitcmpPoll => exact execWaitcmpPoll_wf h _ _
  case waitcmpTimeout => exact execWaitcmpTimeout_wf h _ _
  case launchPacketTake => exact execLaunchPacketTake_wf h _
  case dependenceResolved => exact execDependenceResolved_wf h _
  case priorityRise => exact execPriorityRise_wf h _
  case gridCompletion => exact execGridCompletion_wf h _
  case wqWaitServed => exact .next ((h.wqServe _ _).getD h)
  case bulkCommandPerform => exact execBulkCommandPerform_wf h _ _
  case bankCommandPerform => exact execBankCommandPerform_wf h _ _
  case shadowCopyComplete => exact execShadowCopyComplete_wf h _ _
  case snuffEngineZero => exact execSnuffEngineZero_wf h _
  case backfillBatchForm => exact execBackfillBatchForm_wf h _ _
  case migrationEventDeferred => exact execMigrationEventDeferred_wf h _
  case writeDelivery => exact execWriteDelivery_wf h _
  case persistentStoreComplete => exact execPersistentStoreComplete_wf h _
  case leaseQWaitTimeout => exact execLeaseQWaitTimeout_wf h _ _
  case warmResetRetrain => exact execWarmResetRetrain_wf h _
  case faultRecordDeferred => exact execFaultRecordDeferred_wf h
  case slotBoundary => exact .next h.nextSlot
  case coldBoot => exact execColdBoot_wf h
  case bankRetirement => exact execBankRetirement_wf h _ _
  case forceAfterglow => exact .next ((h.modHub _).lampLog _ _ _)
  case clusterFlitRetry => exact execClusterFlitRetry_wf h _ _
  case translationWalk => exact execTranslationWalk_wf h _ _ _ _ _
  case l2Eviction => exact .next (h.evictLine _ _)
  case directoryEntryDrop => exact .ite (.next h) (.next (h.dropLine _))
  case leaseOffer => exact .ite (.next h) (.next ((h.moveLease _ _).setOwners _ _))
  case leaseAccept => exact execLeaseAccept_wf h _
  case leaseDecline => exact execLeaseDecline_wf h _
  case offerTimeout => exact .ite (.next h) (.next (h.endOffer _))
  case leaseExpiry | leaseRecall => exact .ite (.next h) (.next (h.recall _))
  case recallTimeout => exact .ite (.next h) (.next (h.moveLease _ _))
  case extentZeroed => exact execExtentZeroed_wf h _
  case borrowerAck => exact execBorrowerAck_wf h _
  case bisnpReceived => exact execBisnpReceived_wf h _
  case releaseConfirmed => exact execReleaseConfirmed_wf h _
  case borrowEntryClear => exact .ite (.next h) (.next (h.setBorrow _ _))
  case peerTranslationRequest => exact execPeerTranslationRequest_wf h _ _ _ _ _ _ _
  case peerTranslationReply => exact execPeerTranslationReply_wf h _ _ _ _
  case lenderLost => exact .next (h.loseLender _)
  case slotFrameBoundary => exact .next (.ite h.nextSlot h)
  case powerInterval => exact execPowerInterval_wf h _
  case thermalTrip => exact execThermalTrip_wf h _ _
  case imageUpdate => exact .ite (.next h) (.next ((h.modHub _).lampLog _ _ _))
  case imageConfirm => exact .ite (.next (h.modHub _)) (.next h)
  case powerLoss => exact .next (h.flushPersistent.modHub _)
  case warmResetWriteBack => exact execWarmResetWriteBack_wf h
  case warmResetReadmit => exact execWarmResetReadmit_wf h
  case birluxLinkDown => exact execBirluxLinkDown_wf h _
  case portTrainingFail => exact .ite (.next h) (.next (h.portDown _))
  case reorderRelease => exact .ite (.next h) (.next (h.update.modHub _))
  case heartbeatSend => exact .ite (.next ((h.modHub _).send _)) (.next h)
  case heartbeatReceived => exact execHeartbeatReceived_wf h _ _
  case electionTimeout => exact .ite (.next h.standCount) (.next h)
  case voteRequest => exact execVoteRequest_wf h _ _
  case voteGrant => exact execVoteGrant_wf h _ _
  case candidateTimeout => exact .ite (.next (.ite h.standCount (h.modHub _))) (.next h)
  case fmRefusal => exact execFmRefusal_wf h _
  case manifestReceived => exact execManifestReceived_wf h _
  case chunkReceived => exact execChunkReceived_wf h _ _
  case linkStateUpdate => exact execLinkStateUpdate_wf h _ _ _ _
  case drainRound => exact .next (h.foldl (fun _ _ hu => hu.drainReq _ _))
  case drainProbe => exact execDrainProbe_wf h _ _ _
  case queueEnable => exact .next (.ite h (h.modQueue _ _))
  case domainHandlerWrite => exact .ite (.next h) (.next (h.modHub _))
  case configWrite => exact execConfigWrite_wf h _
  case warmResetByP => exact .next (.ite h (h.startReset _))
  case spdmMessage => exact execSpdmMessage_wf h _
  case portRetrain => exact .ite (.next h) (.next (((h.modHub _).forgetLost).holdLink _ _ _ _))
  case chunkBitmapRead => exact execChunkBitmapRead_wf h _
  case shadowDrop => exact execShadowDrop_wf h _ _

/-! ### Machine/Sched.lean: scheduling and fetch -/

theorem State.MemWf.noteReady (h : s.MemWf) (c q : ℕ) (ok : ℕ → Ctx → List ℕ → Bool) : (s.noteReady c q ok).MemWf :=
  h.foldl fun _ _ hu => hu.modBlk _ _

theorem State.MemWf.choose (h : s.MemWf) (c : ℕ) (x : Try) : (s.choose c x).MemWf := h.update.modBlk _ _

theorem State.MemWf.fetchFault (h : s.MemWf) (cause why level : ℕ) : (s.fetchFault cause why level).MemWf := (h.raiseRestart _ _ _).modCb _

theorem State.MemWf.fetchPage (h : s.MemWf) : s.fetchPage.1.MemWf := by
  unfold State.fetchPage
  dsimp only
  split
  · exact (h.translate _ _ _ _ _).of_fst ‹_›
  · have h1 := (h.translate _ _ _ _ _).of_fst ‹_›
    split
    · exact h1
    · split
      · exact (h1.loadAt _ _ _ _).of_fst ‹_›
      · exact ((h1.loadAt _ _ _ _).of_fst ‹_›).modCore _ _

theorem State.MemWf.illEncoded (h : s.MemWf) (op len cause : ℕ) : (s.illEncoded op len cause).MemWf := .ite h.noIssue ((h.countIssue _).trapAll _ _)

/-- A fetch leaves the memory in canonical form, and so does what happens instead of it. -/
def FetchWf (p : State × Fetched) : Prop := p.1.MemWf ∧ ∀ t, p.2 = .stop t → t.MemWf

theorem FetchWf.stop (h : s.MemWf) (g : t.MemWf) : FetchWf (s, .stop t) := ⟨h, fun _ e => Fetched.stop.inj e ▸ g⟩

theorem FetchWf.ok (h : s.MemWf) (i : Instr) : FetchWf (s, .ok i) := ⟨h, fun _ e => nomatch e⟩

theorem FetchWf.ite {c : Prop} [Decidable c] {p q : State × Fetched} (h : FetchWf p) (g : FetchWf q) : FetchWf (if c then p else q) := by
  split <;> assumption

theorem State.MemWf.fetchNow (h : s.MemWf) : FetchWf s.fetchNow := by
  have hp := h.fetchPage
  unfold State.fetchNow
  dsimp only
  refine .ite (.stop h ((h.fault _ _).settle _)) (.ite (.stop h (((h.countIssue _).fault _ _).settle _)) ?_)
  split
  · have h1 := hp.of_fst ‹_›
    exact .stop h1 ((h1.fault _ _).settle _)
  · have h1 := hp.of_fst ‹_›
    exact .stop h1 (h1.fetchFault _ _ _)
  · have h1 := hp.of_fst ‹_›
    exact .stop h1 h1.noIssue
  · have h1 := hp.of_fst ‹_›
    exact .stop h1 (h1.consume _ _ _)
  · have h1 := hp.of_fst ‹_›
    split
    · exact .stop h1 (h1.illEncoded _ _ _)
    · refine .ite (.stop h1 (h1.illEncoded _ _ _)) ?_
      split
      · exact .ok h1 _
      · exact .stop h1 (h1.illEncoded _ _ _)
      · exact .stop h1 (h1.illEncoded _ _ _)
      · exact .stop h1 (h1.illEncoded _ _ _)

theorem State.MemWf.fetch (h : s.MemWf) : FetchWf s.fetch := by
  have h1 := h.completeFences s.sel.blk s.sel.act
  exact .ite (.ite (.stop h1 h1.noIssue) h1.fetchNow) h.fetchNow

theorem mapNext_wf {f : State → State} {o : Host.Outcome State Fault Refusal} (h : OutcomeWf o) (hf : ∀ u : State, u.MemWf → (f u).MemWf) :
    OutcomeWf (mapNext f o) := by
  cases o with
  | next t => exact .next (hf t (h t rfl))
  | fault r => exact .fault r
  | refused r => exact .refused r

theorem State.MemWf.tick (h : s.MemWf) : s.tick.MemWf := h.update

/-! ### Machine/Afterglow.lean: trailing copies of a block -/

theorem State.MemWf.swapTiles (h : s.MemWf) (bid : ℕ) : (s.swapTiles bid).MemWf := h.foldl fun _ _ hu => hu.modPart _ _

theorem State.MemWf.asTrailer (h : s.MemWf) (bid : ℕ) : (s.asTrailer bid).MemWf := by
  unfold State.asTrailer
  split
  · exact (h.modBlk _ _).swapTiles _
  · exact h

theorem State.MemWf.keepTrail (h : s.MemWf) (bid : ℕ) (v : State) : (s.keepTrail bid v).MemWf := h.modBlk _ _

theorem State.MemWf.released (h : s.MemWf) (bid : ℕ) : (s.released bid).MemWf := (h.foldl (fun _ _ hu => hu.modPart _ _)).modBlk _ _

theorem State.MemWf.trailIssue (h : s.MemWf) (bid : ℕ) (it : TrailItem) : (s.trailIssue bid it).MemWf := by
  unfold State.trailIssue
  refine .ite (h.consume _ _ _) (.ite (h.consume _ _ _) ?_)
  dsimp only
  split
  · exact h.keepTrail _ _
  · split
    · exact h.keepTrail _ _
    · exact h

theorem State.MemWf.trailRun (h : s.MemWf) (bid : ℕ) (ctx : Ctx) (n : ℕ) : (s.trailRun bid ctx n).MemWf := by
  unfold State.trailRun
  dsimp only
  split
  · exact h
  · exact (h.foldl (fun _ _ hu => hu.trailIssue _ _)).modBlk _ _

theorem State.MemWf.catchUp (h : s.MemWf) (bid : ℕ) : (s.catchUp bid).MemWf := by
  unfold State.catchUp
  split
  · exact h
  · exact h.foldl fun _ _ hu => hu.trailRun _ _ _

/-- What follows the leader's issue, from `s` to `a`, keeps the memory of `a`. -/
theorem State.MemWf.trailAfter {a : State} (h : a.MemWf) (s : State) (i : Instr) : (s.trailAfter a i).MemWf := by
  unfold State.trailAfter
  refine State.MemWf.trailRun ?_ _ _ _
  split
  · exact h.modBlk _ _
  · exact h

theorem State.MemWf.holdOut (h : s.MemWf) : s.holdOut.MemWf := .ite h.noIssue (h.modCb _)

theorem State.MemWf.clearOut (h : s.MemWf) : s.clearOut.MemWf := h.modCb _

theorem State.MemWf.stayOut (h : s.MemWf) (old : State) : (s.stayOut old).MemWf := h.modCb _

theorem State.MemWf.joinTrail {a : State} (h : s.MemWf) (ha : a.MemWf) (i : Instr) (b : State) : (s.joinTrail i a b).MemWf :=
  .ite (h.consume _ _ _) (.ite (h.consume _ _ _) ((ha.foldl fun _ _ hu => hu.modPart _ _).keepTrail _ _))

theorem runBoth_wf (h : s.MemWf) (i : Instr) : OutcomeWf (runBoth i s) := by
  have h1 := h.clearOut.catchUp s.sel.blk
  unfold runBoth
  dsimp only
  refine .ite (OutcomeWf.next h1) ?_
  have hx := exec_wf h1 i
  split
  · have ha := hx.of_next ‹_›
    exact OutcomeWf.next (.ite (ha.stayOut _) (h1.joinTrail ha _ _))
  · exact hx

theorem runGlow_wf (h : s.MemWf) (i : Instr) : OutcomeWf (runGlow i s) := by
  unfold runGlow
  refine .ite (.ite (OutcomeWf.next h.holdOut) (runBoth_wf h i)) (.ite (runBoth_wf h i) ?_)
  have hx := exec_wf h i
  split
  · have ha := hx.of_next ‹_›
    exact OutcomeWf.next (.ite ha (ha.trailAfter _ _))
  · exact hx

theorem State.MemWf.followOne (h : s.MemWf) (old : State) (bid : ℕ) : (s.followOne old bid).MemWf := h.modBlk _ _

theorem State.MemWf.follow (h : s.MemWf) {old : State} (skip : Option ℕ) (ho : old.MemWf) : (s.follow old skip).MemWf := by
  unfold State.follow
  dsimp only
  split
  · exact h.closeAnswers _
  · refine .ite (ho.foldl fun _ _ hu => ?_) ((h.closeAnswers _).foldl fun _ _ hu => .ite (hu.followOne _ _) hu)
    exact .ite (hu.catchUp _) hu

/-! ### Machine/Policy.lean: the moves of a step -/

theorem Packet.run_wf (h : s.MemWf) (p : Packet) : OutcomeWf (Packet.run s p) := by
  unfold Packet.run
  split
  · exact execPeerTranslationRequest_wf h _ _ _ _ _ _ _
  · exact execPeerTranslationReply_wf h _ _ _ _
  · exact .next (h.dataReply _ _ _ _)
  · exact execBisnpReceived_wf h _
  · exact execReleaseConfirmed_wf h _
  · exact execLeaseAccept_wf h _
  · exact execLeaseDecline_wf h _
  · exact execBorrowerAck_wf h _
  · exact execHeartbeatReceived_wf h _ _
  · exact execVoteRequest_wf h _ _
  · exact execVoteGrant_wf h _ _
  · exact execFmRefusal_wf h _
  · exact execManifestReceived_wf h _
  · exact execChunkReceived_wf h _ _
  · exact execChunkBitmapRead_wf h _
  · exact execLinkStateUpdate_wf h _ _ _ _
  · exact execDrainProbe_wf h _ _ _

theorem State.MemWf.happen (h : s.MemWf) (move : Move) : OutcomeWf (s.happen move) := by
  unfold State.happen
  split
  · exact exec_wf h _
  · exact execTranslationWalk_wf h _ _ _ _ _
  · exact Packet.run_wf h _
  · exact .next (h.runStores _)
  · exact .next (.ite (h.prefetch _ _ _ _) h)
  · exact .next h
  · exact .next h
  · exact .next h

theorem State.MemWf.newClock (h : s.MemWf) : s.newClock.MemWf := h.tick.update

theorem State.MemWf.defaultMove (h : s.MemWf) : s.defaultMove.1.MemWf := by
  unfold State.defaultMove
  dsimp only
  split
  · split <;> exact h.update
  · exact h.update
  · split <;> exact h.update
  · exact h.update

theorem State.MemWf.nextMove (h : s.MemWf) : s.nextMove.1.MemWf := by
  unfold State.nextMove
  split
  · split
    · exact h
    · exact h.update
  · split
    · exact h
    · exact h.defaultMove

/-! ### Machine/Step.lean: one step -/

theorem runInstr_wf (h : s.MemWf) (i : Instr) : OutcomeWf (runInstr i s) := by
  unfold runInstr
  split
  · exact exec_wf h _
  · exact runGlow_wf h _

theorem runChosen_wf (h : s.MemWf) : OutcomeWf (runChosen s) := by
  unfold runChosen
  refine .ite (OutcomeWf.next (h.replayHere.follow _ h)) ?_
  have hf := h.fetch
  split
  · next hstop =>
    rw [hstop] at hf
    exact OutcomeWf.next ((hf.2 _ rfl).follow _ h)
  · next hok =>
    rw [hok] at hf
    exact mapNext_wf (runInstr_wf hf.1 _) fun _ hu => hu.follow _ hf.1

theorem beginIssue_wf (h : s.MemWf) (c q : ℕ) (held : List (ℕ × ℕ)) : (beginIssue c q held s).MemWf :=
  (State.MemWf.update (.ite h.newClock h)).noteReady _ _ _

theorem State.MemWf.putOff (h : s.MemWf) (later : List (ℕ × ℕ)) : (s.putOff later).MemWf := .ite h h.update

theorem runTries_wf (h : s.MemWf) (c : ℕ) (later : List (ℕ × ℕ)) (xs : List Try) : OutcomeWf (runTries c later xs s) := by
  induction xs generalizing s with
  | nil => exact OutcomeWf.next h
  | cons x xs ih =>
    have hx := runChosen_wf ((h.choose c x).putOff later)
    unfold runTries
    refine .ite (ih h) ?_
    split
    · have ht := hx.of_next ‹_›
      exact .ite (ih ht) (OutcomeWf.next ht)
    · exact hx

theorem runIssue_wf (h : s.MemWf) (c q : ℕ) (held later : List (ℕ × ℕ)) : OutcomeWf (runIssue c q held later s) :=
  runTries_wf (beginIssue_wf h _ _ _) _ _ _

theorem runMove_wf (h : s.MemWf) (m : Move) : OutcomeWf (runMove m s) := by
  have h1 : State.MemWf (if s.roundDone then s.newClock else s) := .ite h.newClock h
  exact mapNext_wf (h1.happen m) fun _ hu => hu.follow _ h1

theorem step_wf (h : s.MemWf) : OutcomeWf (step s) := by
  have hn := h.nextMove
  unfold step
  split
  have h1 := hn.of_fst ‹_›
  refine .ite (OutcomeWf.next h1) ?_
  split
  · exact runIssue_wf h1 _ _ _ _
  · exact runIssue_wf h1 _ _ _ _
  · exact runIssue_wf h1 _ _ _ _
  · exact .ite (OutcomeWf.fault _) (runMove_wf h1 _)
  · exact runMove_wf h1 _

end

/-- Settles O60: each operation above keeps memory canonical, so `step` does (`step_wf`); what writes memory sets bytes one by one or drops some. -/
theorem memoryStaysCanonical : Obligations.MemoryStaysCanonical := by
  unfold Obligations.MemoryStaysCanonical
  exact fun _ _ h e => (step_wf h).of_next e

end Sys2Proof.Machine

/-! # Encoding and decoding (R12 to R30)

Each table of field codes reads its own codes back and reads nothing else (the codecs); the tables of `fn` then do so for whole
instructions, in both directions (`parse_opFn`, `parse_of_opFn`); and the fields of R13 do so for words and bytes. -/

namespace Sys2Proof

/-! ### Codecs: every value has its code, every code that is read is its value's -/

theorem ITy.code_lt (t : ITy) : t.code < 16 := by cases t <;> decide

@[simp] theorem ityOf_code (t : ITy) : ityOf t.code = some t := by cases t <;> rfl

theorem code_of_ityOf {n : Nat} {t : ITy} (h : ityOf n = some t) : t.code = n := by
  unfold ityOf at h; split at h <;> cases h <;> rfl

theorem Cc.code_lt (t : Cc) : t.code < 8 := by cases t <;> decide

@[simp] theorem ccOf_code (t : Cc) : ccOf t.code = some t := by cases t <;> rfl

theorem code_of_ccOf {n : Nat} {t : Cc} (h : ccOf n = some t) : t.code = n := by
  unfold ccOf at h; split at h <;> cases h <;> rfl

theorem FTy.code_lt (t : FTy) : t.code < 8 := by cases t <;> decide

@[simp] theorem ftyOf_code (t : FTy) : ftyOf t.code = some t := by cases t <;> rfl

theorem code_of_ftyOf {n : Nat} {t : FTy} (h : ftyOf n = some t) : t.code = n := by
  unfold ftyOf at h; split at h <;> cases h <;> rfl

theorem FFmt.code_lt (t : FFmt) : t.code < 4 := by cases t <;> decide

@[simp] theorem ffmtOf_code (t : FFmt) : ffmtOf t.code = some t := by cases t <;> rfl

theorem code_of_ffmtOf {n : Nat} {t : FFmt} (h : ffmtOf n = some t) : t.code = n := by
  unfold ffmtOf at h; split at h <;> cases h <;> rfl

theorem CTy.code_lt (t : CTy) : t.code < 16 := by cases t <;> decide

@[simp] theorem ctyOf_code (t : CTy) : ctyOf t.code = some t := by cases t <;> rfl

theorem code_of_ctyOf {n : Nat} {t : CTy} (h : ctyOf n = some t) : t.code = n := by
  unfold ctyOf at h; split at h <;> cases h <;> rfl

theorem PackTy.code_lt (t : PackTy) : t.code < 8 := by cases t <;> decide

@[simp] theorem packTyOf_code (t : PackTy) : packTyOf t.code = some t := by cases t <;> rfl

theorem code_of_packTyOf {n : Nat} {t : PackTy} (h : packTyOf n = some t) : t.code = n := by
  unfold packTyOf at h; split at h <;> cases h <;> rfl

theorem UnpTy.code_lt (t : UnpTy) : t.code < 8 := by cases t <;> decide

@[simp] theorem unpTyOf_code (t : UnpTy) : unpTyOf t.code = some t := by cases t <;> rfl

theorem code_of_unpTyOf {n : Nat} {t : UnpTy} (h : unpTyOf n = some t) : t.code = n := by
  unfold unpTyOf at h; split at h <;> cases h <;> rfl

theorem Seg.code_lt (t : Seg) : t.code < 8 := by cases t <;> decide

@[simp] theorem segOf_code (t : Seg) : segOf t.code = some t := by cases t <;> rfl

theorem code_of_segOf {n : Nat} {t : Seg} (h : segOf n = some t) : t.code = n := by
  unfold segOf at h; split at h <;> cases h <;> rfl

theorem RedOp.code_lt (t : RedOp) : t.code < 16 := by cases t <;> decide

@[simp] theorem redOpOf_code (t : RedOp) : redOpOf t.code = some t := by cases t <;> rfl

theorem code_of_redOpOf {n : Nat} {t : RedOp} (h : redOpOf n = some t) : t.code = n := by
  unfold redOpOf at h; split at h <;> cases h <;> rfl

theorem MWidth.code_lt (t : MWidth) : t.code < 8 := by cases t <;> decide

@[simp] theorem mwidthOf_code (t : MWidth) : mwidthOf t.code = some t := by cases t <;> rfl

theorem code_of_mwidthOf {n : Nat} {t : MWidth} (h : mwidthOf n = some t) : t.code = n := by
  unfold mwidthOf at h; split at h <;> cases h <;> rfl

theorem Hint.code_lt (t : Hint) : t.code < 4 := by cases t <;> decide

@[simp] theorem hintOf_code (t : Hint) : hintOf t.code = some t := by cases t <;> rfl

theorem code_of_hintOf {n : Nat} {t : Hint} (h : hintOf n = some t) : t.code = n := by
  unfold hintOf at h; split at h <;> cases h <;> rfl

theorem AOp.code_lt (t : AOp) : t.code < 16 := by cases t <;> decide

@[simp] theorem aopOf_code (t : AOp) : aopOf t.code = some t := by cases t <;> rfl

theorem code_of_aopOf {n : Nat} {t : AOp} (h : aopOf n = some t) : t.code = n := by
  unfold aopOf at h; split at h <;> cases h <;> rfl

theorem BkTy.code_lt (t : BkTy) : t.code < 8 := by cases t <;> decide

@[simp] theorem bkTyOf_code (t : BkTy) : bkTyOf t.code = some t := by cases t <;> rfl

theorem code_of_bkTyOf {n : Nat} {t : BkTy} (h : bkTyOf n = some t) : t.code = n := by
  unfold bkTyOf at h; split at h <;> cases h <;> rfl

theorem BkRedOp.code_lt (t : BkRedOp) : t.code < 8 := by cases t <;> decide

@[simp] theorem bkRedOf_code (t : BkRedOp) : bkRedOf t.code = some t := by cases t <;> rfl

theorem code_of_bkRedOf {n : Nat} {t : BkRedOp} (h : bkRedOf n = some t) : t.code = n := by
  unfold bkRedOf at h; split at h <;> cases h <;> rfl

theorem AccForm.code_lt (t : AccForm) : t.code < 4 := by cases t <;> decide

@[simp] theorem accFormOf_code (t : AccForm) : accFormOf t.code = some t := by cases t <;> rfl

theorem code_of_accFormOf {n : Nat} {t : AccForm} (h : accFormOf n = some t) : t.code = n := by
  unfold accFormOf at h; split at h <;> cases h <;> rfl

theorem KeyUse.code_lt (t : KeyUse) : t.code < 4 := by cases t <;> decide

@[simp] theorem keyUseOf_code (t : KeyUse) : keyUseOf t.code = some t := by cases t <;> rfl

theorem code_of_keyUseOf {n : Nat} {t : KeyUse} (h : keyUseOf n = some t) : t.code = n := by
  unfold keyUseOf at h; split at h <;> cases h <;> rfl

theorem CancelMode.code_lt (t : CancelMode) : t.code < 4 := by cases t <;> decide

@[simp] theorem cancelOf_code (t : CancelMode) : cancelOf t.code = some t := by cases t <;> rfl

theorem code_of_cancelOf {n : Nat} {t : CancelMode} (h : cancelOf n = some t) : t.code = n := by
  unfold cancelOf at h; split at h <;> cases h <;> rfl

theorem Rnd.code_lt (t : Rnd) : t.code < 4 := by cases t <;> decide

@[simp] theorem rndOf_code (t : Rnd) : rndOf t.code = t := by cases t <;> rfl

theorem code_rndOf : ∀ {n : Nat}, n < 4 → (rndOf n).code = n := by decide

theorem Fcc.code_lt (t : Fcc) : t.code < 8 := by cases t <;> decide

@[simp] theorem fccOf_code (t : Fcc) : fccOf t.code = t := by cases t <;> rfl

theorem code_fccOf : ∀ {n : Nat}, n < 8 → (fccOf n).code = n := by decide

theorem BlkLen.code_lt (t : BlkLen) : t.code < 4 := by cases t <;> decide

@[simp] theorem blkLenOf_code (t : BlkLen) : blkLenOf t.code = t := by cases t <;> rfl

theorem code_blkLenOf : ∀ {n : Nat}, n < 4 → (blkLenOf n).code = n := by decide

theorem AgreeMode.code_lt (t : AgreeMode) : t.code < 4 := by cases t <;> decide

@[simp] theorem agreeOf_code (t : AgreeMode) : agreeOf t.code = t := by cases t <;> rfl

theorem code_agreeOf : ∀ {n : Nat}, n < 4 → (agreeOf n).code = n := by decide

theorem XMode.code_lt (t : XMode) : t.code < 4 := by cases t <;> decide

@[simp] theorem xmodeOf_code (t : XMode) : xmodeOf t.code = t := by cases t <;> rfl

theorem code_xmodeOf : ∀ {n : Nat}, n < 4 → (xmodeOf n).code = n := by decide

theorem ATy.code_lt (t : ATy) : t.code < 8 := by cases t <;> decide

@[simp] theorem atyOf_code (t : ATy) : atyOf t.code = t := by cases t <;> rfl

theorem code_atyOf : ∀ {n : Nat}, n < 8 → (atyOf n).code = n := by decide

theorem AOrd.code_lt (t : AOrd) : t.code < 4 := by cases t <;> decide

@[simp] theorem aordOf_code (t : AOrd) : aordOf t.code = t := by cases t <;> rfl

theorem code_aordOf : ∀ {n : Nat}, n < 4 → (aordOf n).code = n := by decide

theorem CpElem.code_lt (t : CpElem) : t.code < 4 := by cases t <;> decide

@[simp] theorem cpElemOf_code (t : CpElem) : cpElemOf t.code = t := by cases t <;> rfl

theorem code_cpElemOf : ∀ {n : Nat}, n < 4 → (cpElemOf n).code = n := by decide

theorem TlbMode.code_lt (t : TlbMode) : t.code < 4 := by cases t <;> decide

@[simp] theorem tlbOf_code (t : TlbMode) : tlbOf t.code = t := by cases t <;> rfl

theorem code_tlbOf : ∀ {n : Nat}, n < 4 → (tlbOf n).code = n := by decide

theorem Special.code_lt (x : Special) : x.code < 18 := by
  cases x with
  | wf k => revert k; decide
  | _ => decide

@[simp] theorem specialOf_code (x : Special) : specialOf x.code = some x := by
  cases x with
  | wf k => revert k; decide
  | _ => rfl

theorem code_of_specialOf {n : Nat} {x : Special} (h : specialOf n = some x) : x.code = n := by
  unfold specialOf at h; split at h <;> cases h <;> rfl

/-! ### Fields of a number -/

theorem bitOf_lt (b : Bool) : bitOf b < 2 := by cases b <;> decide

@[simp] theorem bitOf_le_one (b : Bool) : bitOf b ≤ 1 := by cases b <;> decide

theorem bitOf_beq_one : ∀ {n : Nat}, n < 2 → bitOf (n == 1) = n := by decide

@[simp] theorem bitOf_eq_one (b : Bool) : (bitOf b == 1) = b := by cases b <;> rfl

theorem add_mul_div_of_dvd {m k : Nat} (a b : Nat) (hm : 0 < m) (h : m ∣ k) : (a + k * b) / m = a / m + k / m * b := by
  obtain ⟨c, rfl⟩ := h
  rw [Nat.mul_assoc, Nat.add_mul_div_left _ _ hm, Nat.mul_div_cancel_left _ hm]

theorem add_mul_mod_of_dvd {m k : Nat} (a b : Nat) (h : m ∣ k) : (a + k * b) % m = a % m := by
  obtain ⟨c, rfl⟩ := h
  rw [Nat.mul_assoc, Nat.add_mul_mod_self_left]

theorem ofNat_add_of_dvd {w b : Nat} (a : Nat) (h : 2 ^ w ∣ b) : BitVec.ofNat w (a + b) = BitVec.ofNat w a := by
  obtain ⟨c, rfl⟩ := h
  exact BitVec.eq_of_toNat_eq (by simp)

theorem bitOf_mod_two (n : Nat) : bitOf (n % 2 == 1) = n % 2 := bitOf_beq_one (Nat.mod_lt _ (by decide))

theorem code_fmodsOf (fn : Nat) : (fmodsOf fn).code = 8 * (fn / 8 % 128) := by
  have hr : (rndOf (fn / 8 % 4)).code = fn / 8 % 4 := code_rndOf (Nat.mod_lt _ (by decide))
  simp only [fmodsOf, FMods.code, bitOf_mod_two, hr]
  omega


/-! ### What a table reads keeps every bit of `fn` -/

theorem opFn_of {i : Instr} {op n fn : Nat} (h : i.opFn = some (op, n)) (e : n = fn) : i.opFn = some (op, fn) := e ▸ h

section
variable {op fn : Nat} {x : Opnds} {i : Instr}

theorem parseInt_opFn (hfn : fn < 2048) (h : parseInt op fn x = some i) : i.opFn = some (op, fn) ∧ i.opnds? = some x := by
  unfold parseInt at h
  split at h
  · cases h
  rename_i t ht
  have ht := code_of_ityOf ht
  have hsat := bitOf_mod_two (fn / 16)
  have hclamp : fn / 32 % 8 / 2 = 0 → bitOf (fn / 32 % 8 == 1) = fn / 32 % 8 := fun h => bitOf_beq_one (by omega)
  dsimp only at h
  split at h
  case h_31 => cases h
  all_goals
    simp only [Option.ite_none_right_eq_some, Option.map_eq_some_iff, Bool.and_eq_true, Bool.not_eq_true', beq_iff_eq,
      beq_eq_false_iff_ne, Option.some.injEq] at h
  case h_23 =>
    obtain ⟨hc, cc, hcc, rfl⟩ := h
    exact ⟨opFn_of rfl (by have := code_of_ccOf hcc; omega), rfl⟩
  case h_29 =>
    obtain ⟨rfl, hc, rfl⟩ := h
    exact ⟨opFn_of rfl (by have : ITy.b32.code = 8 := rfl; omega), rfl⟩
  all_goals
    obtain ⟨hc, rfl⟩ := h
    exact ⟨opFn_of rfl (by bv_omega), rfl⟩

theorem parseFp_opFn (h : parseFp op fn x = some i) : i.opFn = some (op, fn) ∧ i.opnds? = some x := by
  unfold parseFp at h
  split at h
  · split at h
    · rename_i t ht
      simp only [Option.ite_none_right_eq_some, beq_iff_eq, Option.some.injEq] at h
      obtain ⟨hc, rfl⟩ := h
      have ht := code_of_ffmtOf ht
      have hcc : (fccOf (fn / 8 % 8)).code = fn / 8 % 8 := code_fccOf (Nat.mod_lt _ (by decide))
      exact ⟨opFn_of rfl (by simp only [bitOf_mod_two]; omega), rfl⟩
    · cases h
  · split at h
    · rename_i t ht
      simp only [Option.ite_none_right_eq_some, beq_iff_eq, Option.some.injEq] at h
      obtain ⟨hc, rfl⟩ := h
      have ht := code_of_ffmtOf ht
      exact ⟨opFn_of rfl (by omega), rfl⟩
    · cases h
  · split at h
    · cases h
    rename_i t ht
    have ht := code_of_ftyOf ht
    have hm := code_fmodsOf fn
    simp only [Option.ite_none_left_eq_some, bne_iff_ne, ne_eq, not_not] at h
    obtain ⟨hc, h⟩ := h
    split at h <;> cases h <;> exact ⟨opFn_of rfl (by omega), rfl⟩

theorem parseCvt_opFn (hfn : fn < 2048) (h : parseCvt op fn x = some i) : i.opFn = some (op, fn) ∧ i.opnds? = some x := by
  have hr (n : Nat) : (rndOf (n % 4)).code = n % 4 := code_rndOf (Nat.mod_lt _ (by decide))
  unfold parseCvt at h
  split at h
  · split at h
    · rename_i d t hd ht
      cases h
      have hd := code_of_ctyOf hd
      have ht := code_of_ctyOf ht
      exact ⟨opFn_of rfl (by simp only [bitOf_mod_two, hr]; omega), rfl⟩
    · cases h
  · split at h
    · rename_i t ht
      have ht := code_of_ffmtOf ht
      split at h <;> cases h <;> rename_i hc <;> rw [beq_iff_eq] at hc <;>
        exact ⟨opFn_of rfl (by simp only [bitOf_mod_two, BitVec.toNat_ofNat]; omega), rfl⟩
    · cases h
  · split at h
    · rename_i t ht
      simp only [Option.ite_none_right_eq_some, beq_iff_eq, Option.some.injEq] at h
      obtain ⟨hc, rfl⟩ := h
      have ht := code_of_ffmtOf ht
      have hb : (blkLenOf (fn % 4)).code = fn % 4 := code_blkLenOf (Nat.mod_lt _ (by decide))
      exact ⟨opFn_of rfl (by simp only [BitVec.toNat_ofNat]; omega), rfl⟩
    · cases h
  case h_9 =>
    split at h
    · rename_i t ht
      simp only [Option.ite_none_right_eq_some, beq_iff_eq, Option.some.injEq] at h
      obtain ⟨hc, rfl⟩ := h
      have ht := code_of_packTyOf ht
      exact ⟨opFn_of rfl (by simp only [hr]; omega), rfl⟩
    · cases h
  case h_10 =>
    split at h
    · rename_i t ht
      simp only [Option.ite_none_right_eq_some, beq_iff_eq, Option.some.injEq] at h
      obtain ⟨hc, rfl⟩ := h
      have ht := code_of_unpTyOf ht
      exact ⟨opFn_of rfl (by simp only [bitOf_mod_two]; omega), rfl⟩
    · cases h
  case h_11 => cases h
  all_goals
    have h1 := bitOf_mod_two (fn / 16)
    have h2 := bitOf_mod_two (fn / 32)
    simp only [Option.ite_none_right_eq_some, beq_iff_eq, Option.some.injEq] at h
    obtain ⟨hc, rfl⟩ := h
    exact ⟨opFn_of rfl (by bv_omega), rfl⟩

theorem parseScalar_opFn (hfn : fn < 2048) (h : parseScalar op fn x = some i) : i.opFn = some (op, fn) ∧ i.opnds? = some x := by
  unfold parseScalar at h
  split at h
  · split at h
    · rename_i w hw
      simp only [Option.ite_none_right_eq_some, beq_iff_eq, Option.some.injEq] at h
      obtain ⟨hc, rfl⟩ := h
      have hw := code_of_mwidthOf hw
      exact ⟨opFn_of rfl (by omega), rfl⟩
    · cases h
  · simp only [beq_iff_eq] at h
    split at h
    · cases h; subst_vars; exact ⟨rfl, rfl⟩
    · simp only [Option.ite_none_right_eq_some, Option.some.injEq] at h
      obtain ⟨rfl, rfl⟩ := h
      exact ⟨rfl, rfl⟩
  · simp only [Option.ite_none_right_eq_some, beq_iff_eq, Option.some.injEq] at h
    obtain ⟨rfl, rfl⟩ := h
    exact ⟨rfl, rfl⟩
  · simp only [Option.ite_none_right_eq_some, beq_iff_eq, Option.some.injEq] at h
    obtain ⟨hc, rfl⟩ := h
    have hm : (agreeOf (fn % 4)).code = fn % 4 := code_agreeOf (Nat.mod_lt _ (by decide))
    exact ⟨opFn_of rfl (by omega), rfl⟩
  · split at h
    · rename_i w hw
      simp only [Option.ite_none_right_eq_some, beq_iff_eq, Option.some.injEq] at h
      obtain ⟨hc, rfl⟩ := h
      have hw := code_of_segOf hw
      have hm : (xmodeOf (fn % 4)).code = fn % 4 := code_xmodeOf (Nat.mod_lt _ (by decide))
      exact ⟨opFn_of rfl (by simp only [bitOf_mod_two]; omega), rfl⟩
    · cases h
  · split at h
    · rename_i t o ht ho
      simp only [Option.ite_none_right_eq_some, beq_iff_eq, Option.some.injEq] at h
      obtain ⟨hc, rfl⟩ := h
      have ht := code_of_ityOf ht
      have ho := code_of_redOpOf ho
      exact ⟨opFn_of rfl (by omega), rfl⟩
    · cases h
  · split at h
    · cases h
    rename_i t ht
    have ht := code_of_ityOf ht
    have hsat := bitOf_mod_two (fn / 16)
    have hclamp : fn / 32 % 8 / 2 = 0 → bitOf (fn / 32 % 8 == 1) = fn / 32 % 8 := fun h => bitOf_beq_one (by omega)
    simp only [Option.ite_none_left_eq_some, bne_iff_ne, ne_eq, not_not] at h
    obtain ⟨hc, h⟩ := h
    split at h
    case h_11 => cases h
    all_goals
      simp only [Option.ite_none_right_eq_some, Option.map_eq_some_iff, Bool.and_eq_true, Bool.not_eq_true', beq_iff_eq,
        beq_eq_false_iff_ne, Option.some.injEq] at h
    case h_8 =>
      obtain ⟨hd, rfl⟩ := h
      have harith : bitOf (fn / 32 % 8 / 2 == 1) = fn / 32 % 8 / 2 := bitOf_beq_one (by omega)
      exact ⟨opFn_of rfl (by simp only [bitOf_mod_two, harith]; omega), rfl⟩
    case h_9 =>
      obtain ⟨hd, cc, hcc, rfl⟩ := h
      exact ⟨opFn_of rfl (by have := code_of_ccOf hcc; omega), rfl⟩
    all_goals
      obtain ⟨hd, rfl⟩ := h
      exact ⟨opFn_of rfl (by omega), rfl⟩

theorem parseCtl_opFn (h : parseCtl op fn x = some i) : i.opFn = some (op, fn) ∧ i.opnds? = some x := by
  unfold parseCtl at h
  dsimp only at h
  split at h
  case h_15 => cases h
  case h_12 =>
    simp only [Option.ite_none_right_eq_some, beq_iff_eq, Option.some.injEq] at h
    obtain ⟨hc, rfl⟩ := h
    exact ⟨opFn_of rfl (by simp only [BitVec.toNat_ofNat]; omega), rfl⟩
  case h_6 | h_8 =>
    simp only [beq_iff_eq] at h
    split at h
    · cases h; subst_vars; exact ⟨rfl, rfl⟩
    · simp only [Option.ite_none_right_eq_some, Option.some.injEq] at h
      obtain ⟨rfl, rfl⟩ := h
      exact ⟨rfl, rfl⟩
  all_goals
    simp only [Option.ite_none_right_eq_some, beq_iff_eq, Option.some.injEq] at h
    obtain ⟨rfl, rfl⟩ := h
    exact ⟨rfl, rfl⟩

theorem parseMem_opFn (h : parseMem op fn x = some i) : i.opFn = some (op, fn) ∧ i.opnds? = some x := by
  have hzx := bitOf_mod_two (fn / 8)
  have hxr := bitOf_mod_two (fn / 64)
  unfold parseMem at h
  dsimp only at h
  split at h
  · simp only [Option.ite_none_right_eq_some, beq_iff_eq, Option.some.injEq] at h
    obtain ⟨hc, rfl⟩ := h
    exact ⟨opFn_of rfl (by simp only [BitVec.toNat_ofNat]; omega), rfl⟩
  · split at h
    · rename_i o ho
      simp only [Option.ite_none_right_eq_some, beq_iff_eq, Option.some.injEq] at h
      obtain ⟨hc, rfl⟩ := h
      have ho := code_of_aopOf ho
      have ht : (atyOf (fn % 8)).code = fn % 8 := code_atyOf (Nat.mod_lt _ (by decide))
      exact ⟨opFn_of rfl (by omega), rfl⟩
    · cases h
  · simp only [Option.ite_none_right_eq_some, Bool.and_eq_true, beq_iff_eq, decide_eq_true_eq, Option.some.injEq] at h
    obtain ⟨hc, rfl⟩ := h
    have hl1 : bitOf (fn / 16 % 4 == 1) = fn / 16 % 4 := bitOf_beq_one (by omega)
    exact ⟨opFn_of rfl (by omega), rfl⟩
  · split at h
    · cases h
    rename_i w hw
    have hw := code_of_mwidthOf hw
    split at h
    case h_10 => cases h
    case h_1 | h_2 =>
      simp only [Option.ite_none_right_eq_some, Option.map_eq_some_iff, beq_iff_eq] at h
      obtain ⟨hc, t, ht, rfl⟩ := h
      exact ⟨opFn_of rfl (by have := code_of_hintOf ht; omega), rfl⟩
    case h_9 =>
      simp only [Option.ite_none_left_eq_some, bne_iff_ne, ne_eq, not_not] at h
      obtain ⟨hc, h⟩ := h
      split at h
      · simp only [Option.ite_none_right_eq_some, beq_iff_eq, Option.some.injEq] at h
        obtain ⟨hd, rfl⟩ := h
        exact ⟨opFn_of rfl (by simp only [BitVec.toNat_ofNat]; omega), rfl⟩
      · cases h
        exact ⟨opFn_of rfl (by simp only [BitVec.toNat_ofNat]; omega), rfl⟩
    all_goals
      simp only [Option.ite_none_right_eq_some, beq_iff_eq, Option.some.injEq] at h
      obtain ⟨hc, rfl⟩ := h
      exact ⟨opFn_of rfl (by bv_omega), rfl⟩

theorem parseDie_opFn (h : parseDie op fn x = some i) : i.opFn = some (op, fn) ∧ i.opnds? = some x := by
  have ht : (atyOf (fn % 8)).code = fn % 8 := code_atyOf (Nat.mod_lt _ (by decide))
  have hr : (aordOf (fn / 128 % 4)).code = fn / 128 % 4 := code_aordOf (Nat.mod_lt _ (by decide))
  unfold parseDie at h
  dsimp only at h
  split at h
  case h_10 => cases h
  case h_1 | h_2 =>
    split at h
    · rename_i o ho
      simp only [Option.ite_none_right_eq_some, beq_iff_eq, Option.some.injEq] at h
      obtain ⟨hc, rfl⟩ := h
      exact ⟨opFn_of rfl (by have := code_of_aopOf ho; omega), rfl⟩
    · cases h
  case h_3 =>
    simp only [Option.ite_none_right_eq_some, Option.map_eq_some_iff, beq_iff_eq] at h
    obtain ⟨hc, cc, hcc, rfl⟩ := h
    exact ⟨opFn_of rfl (by have := code_of_ccOf hcc; omega), rfl⟩
  case h_5 =>
    simp only [Option.ite_none_right_eq_some, beq_iff_eq, Option.some.injEq] at h
    obtain ⟨hc, rfl⟩ := h
    exact ⟨opFn_of rfl (bitOf_beq_one (by omega)), rfl⟩
  all_goals
    simp only [Option.ite_none_right_eq_some, beq_iff_eq, Option.some.injEq] at h
    obtain ⟨hc, rfl⟩ := h
    exact ⟨opFn_of rfl (by bv_omega), rfl⟩

theorem parseBar_opFn (h : parseBar op fn x = some i) : i.opFn = some (op, fn) ∧ i.opnds? = some x := by
  have h1 := bitOf_mod_two (fn / 16)
  have h2 := bitOf_mod_two (fn / 32)
  unfold parseBar at h
  dsimp only at h
  split at h
  case h_15 => cases h
  all_goals
    simp only [Option.ite_none_right_eq_some, beq_iff_eq, Option.some.injEq] at h
    obtain ⟨hc, rfl⟩ := h
    exact ⟨opFn_of rfl (by bv_omega), rfl⟩

theorem parseCpy_opFn (h : parseCpy op fn x = some i) : i.opFn = some (op, fn) ∧ i.opnds? = some x := by
  have hns := bitOf_mod_two (fn / 16)
  have hs := bitOf_mod_two (fn / 32)
  have he : (cpElemOf (fn / 64 % 4)).code = fn / 64 % 4 := code_cpElemOf (Nat.mod_lt _ (by decide))
  unfold parseCpy at h
  dsimp only at h
  split at h
  case h_10 => cases h
  case h_6 | h_7 | h_9 =>
    simp only [beq_iff_eq] at h
    repeat' split at h
    all_goals cases h
    all_goals subst_vars; exact ⟨rfl, rfl⟩
  all_goals
    simp only [Option.ite_none_right_eq_some, Bool.and_eq_true, Bool.not_eq_true', beq_iff_eq, beq_eq_false_iff_ne,
      Option.some.injEq] at h
    obtain ⟨hc, rfl⟩ := h
    exact ⟨opFn_of rfl (by bv_omega), rfl⟩

theorem parseBank_opFn (h : parseBank op fn x = some i) : i.opFn = some (op, fn) ∧ i.opnds? = some x := by
  have hr : (rndOf (fn / 8 % 4)).code = fn / 8 % 4 := code_rndOf (Nat.mod_lt _ (by decide))
  unfold parseBank at h
  simp only [beq_iff_eq] at h
  split at h
  · simp only [Option.ite_none_right_eq_some, Option.some.injEq] at h
    obtain ⟨rfl, rfl⟩ := h
    subst_vars
    exact ⟨rfl, rfl⟩
  split at h
  · cases h
  rename_i t ht
  have ht := code_of_bkTyOf ht
  simp only [Option.ite_none_left_eq_some, bne_iff_ne, ne_eq, not_not] at h
  obtain ⟨hc, h⟩ := h
  split at h
  case h_8 => cases h
  all_goals
    simp only [Option.ite_none_right_eq_some, Option.map_eq_some_iff, Option.some.injEq] at h
  case h_4 =>
    obtain ⟨o, ho, rfl⟩ := h
    exact ⟨opFn_of rfl (by have := code_of_bkRedOf ho; omega), rfl⟩
  case h_6 =>
    obtain ⟨cc, hcc, rfl⟩ := h
    exact ⟨opFn_of rfl (by have := code_of_ccOf hcc; omega), rfl⟩
  case h_7 =>
    obtain ⟨hrn, hd, rfl⟩ := h
    have : Rnd.rn.code = 0 := rfl
    rw [hrn] at hr
    exact ⟨opFn_of rfl (by omega), rfl⟩
  all_goals
    obtain ⟨hd, rfl⟩ := h
    exact ⟨opFn_of rfl (by omega), rfl⟩

theorem parseMat_opFn (hfn : fn < 2048) (h : parseMat op fn x = some i) : i.opFn = some (op, fn) ∧ i.opnds? = some x := by
  have h2 := bitOf_mod_two (fn / 2)
  have h8 := bitOf_mod_two (fn / 8)
  unfold parseMat at h
  dsimp only at h
  split at h
  case h_15 => cases h
  case h_3 =>
    simp only [Option.ite_none_left_eq_some, bne_iff_ne, ne_eq, not_not, beq_iff_eq] at h
    obtain ⟨hc, h⟩ := h
    split at h <;> cases h <;> exact ⟨opFn_of rfl (by bv_omega), rfl⟩
  case h_7 =>
    simp only [Option.ite_none_right_eq_some, Option.map_eq_some_iff, beq_iff_eq] at h
    obtain ⟨hc, k, hk, rfl⟩ := h
    have := code_of_accFormOf hk
    exact ⟨opFn_of rfl (by bv_omega), rfl⟩
  case h_8 =>
    simp only [Option.map_eq_some_iff] at h
    obtain ⟨k, hk, rfl⟩ := h
    have := code_of_accFormOf hk
    exact ⟨opFn_of rfl (by bv_omega), rfl⟩
  all_goals
    simp only [Option.ite_none_right_eq_some, beq_iff_eq, Option.some.injEq] at h
    obtain ⟨hc, rfl⟩ := h
    exact ⟨opFn_of rfl (by bv_omega), rfl⟩

theorem parseQueue_opFn (h : parseQueue op fn x = some i) : i.opFn = some (op, fn) ∧ i.opnds? = some x := by
  have h32 := bitOf_mod_two (fn / 32)
  unfold parseQueue at h
  dsimp only at h
  split at h
  case h_12 => cases h
  case h_2 | h_7 =>
    simp only [Option.ite_none_left_eq_some, bne_iff_ne, ne_eq, not_not, beq_iff_eq] at h
    obtain ⟨hc, h⟩ := h
    split at h <;> cases h <;> exact ⟨opFn_of rfl (by bv_omega), rfl⟩
  case h_6 => 
    split at h <;> cases h <;> exact ⟨opFn_of rfl (by bv_omega), rfl⟩
  case h_9 | h_11 =>
    split at h <;> cases h <;> exact ⟨rfl, rfl⟩
  case h_10 =>
    simp only [Option.ite_none_left_eq_some, bne_iff_ne, ne_eq, not_not] at h
    obtain ⟨hc, h⟩ := h
    split at h
    · cases h
    rename_i u hu
    have hu := code_of_keyUseOf hu
    have hseal : KeyUse.seal.code = 0 := rfl
    have h4 : fn % 4 = 0 ∨ fn % 4 = 1 ∨ fn % 4 = 2 ∨ fn % 4 = 3 := by omega
    rcases h4 with h4 | h4 | h4 | h4
    all_goals
      simp only [h4, Option.ite_none_right_eq_some, beq_iff_eq, Option.some.injEq] at h
    case inl | inr.inl =>
      subst h
      exact ⟨opFn_of rfl (by omega), rfl⟩
    all_goals
      obtain ⟨rfl, rfl⟩ := h
      exact ⟨opFn_of rfl (by omega), rfl⟩
  all_goals
    simp only [Option.ite_none_right_eq_some, beq_iff_eq, Option.some.injEq] at h
    obtain ⟨hc, rfl⟩ := h
    exact ⟨opFn_of rfl (by bv_omega), rfl⟩

theorem parseSys_opFn (h : parseSys op fn x = some i) : i.opFn = some (op, fn) ∧ i.opnds? = some x := by
  unfold parseSys at h
  split at h
  case h_12 => cases h
  case h_3 | h_6 | h_8 =>
    split at h <;> cases h <;> exact ⟨rfl, rfl⟩
  case h_11 =>
    simp only [beq_iff_eq] at h
    repeat' split at h
    all_goals cases h
    all_goals subst_vars; exact ⟨rfl, rfl⟩
  case h_7 =>
    simp only [Option.ite_none_right_eq_some, Option.map_eq_some_iff] at h
    obtain ⟨hc, m, hm, rfl⟩ := h
    exact ⟨opFn_of rfl (code_of_cancelOf hm), rfl⟩
  case h_10 =>
    simp only [Option.ite_none_right_eq_some, beq_iff_eq, Option.some.injEq] at h
    obtain ⟨hc, rfl⟩ := h
    exact ⟨opFn_of rfl (code_tlbOf (by omega)), rfl⟩
  all_goals
    simp only [Option.ite_none_right_eq_some, beq_iff_eq, Option.some.injEq] at h
    obtain ⟨hc, rfl⟩ := h
    exact ⟨opFn_of rfl (by bv_omega), rfl⟩

theorem of_ite_eq_some {α : Type} {c p : Prop} [Decidable c] {a b : Option α} {r : α} (ha : c → a = some r → p)
    (hb : ¬c → b = some r → p) (h : (if c then a else b) = some r) : p := by
  split at h
  · exact ha ‹_› h
  · exact hb ‹_› h

/-- What an opcode and `fn` are read as has that opcode, that `fn` and the operands given: no bit of `fn` is dropped. -/
theorem parse_opFn (hfn : fn < 2048) (h : parse op fn x = some i) : i.opFn = some (op, fn) ∧ i.opnds? = some x := by
  have hnop : op = 0 → (if fn = 0 then some (Instr.nop x) else none) = some i → i.opFn = some (op, fn) ∧ i.opnds? = some x := by
    intro hop h
    simp only [Option.ite_none_right_eq_some, Option.some.injEq] at h
    obtain ⟨rfl, rfl⟩ := h
    subst hop
    exact ⟨rfl, rfl⟩
  have hlut : op = 18 → (if fn / 2 % 4 = 0 then some (Instr.lut3 x (fn % 2 == 1) (BitVec.ofNat 8 (fn / 8))) else none) = some i →
      i.opFn = some (op, fn) ∧ i.opnds? = some x := by
    intro hop h
    simp only [Option.ite_none_right_eq_some, Option.some.injEq] at h
    obtain ⟨hc, rfl⟩ := h
    subst hop
    exact ⟨opFn_of rfl (by simp only [bitOf_mod_two, BitVec.toNat_ofNat]; omega), rfl⟩
  simp only [parse, beq_iff_eq] at h
  revert h
  exact of_ite_eq_some hnop fun _ => of_ite_eq_some hlut fun _ => of_ite_eq_some (fun _ => parseInt_opFn hfn) fun _ =>
    of_ite_eq_some (fun _ => parseFp_opFn) fun _ => of_ite_eq_some (fun _ => parseCvt_opFn hfn) fun _ =>
    of_ite_eq_some (fun _ => parseScalar_opFn hfn) fun _ => of_ite_eq_some (fun _ => parseCtl_opFn) fun _ =>
    of_ite_eq_some (fun _ => parseMem_opFn) fun _ => of_ite_eq_some (fun _ => parseDie_opFn) fun _ =>
    of_ite_eq_some (fun _ => parseBar_opFn) fun _ => of_ite_eq_some (fun _ => parseCpy_opFn) fun _ =>
    of_ite_eq_some (fun _ => parseBank_opFn) fun _ => of_ite_eq_some (fun _ => parseMat_opFn hfn) fun _ =>
    of_ite_eq_some (fun _ => parseQueue_opFn) fun _ => parseSys_opFn

end

/-! ### What an instruction's `fn` holds is read back -/

section
variable {op fn : Nat} {x : Opnds} {i : Instr}

theorem fmodsOf_add_code {n : Nat} (m : FMods) (h : n < 8) : fmodsOf (n + m.code) = m ∧ (n + m.code) % 8 = n ∧ (n + m.code) / 1024 = 0 := by
  have hr := m.rnd.code_lt
  have hs := bitOf_lt m.sat
  have ha := bitOf_lt m.absa
  have hn := bitOf_lt m.nega
  have hb := bitOf_lt m.negb
  have hc := bitOf_lt m.negc
  have h8 : (n + m.code) / 8 % 4 = m.rnd.code := by unfold FMods.code; omega
  have h32 : (n + m.code) / 32 % 2 = bitOf m.sat := by unfold FMods.code; omega
  have h64 : (n + m.code) / 64 % 2 = bitOf m.absa := by unfold FMods.code; omega
  have h128 : (n + m.code) / 128 % 2 = bitOf m.nega := by unfold FMods.code; omega
  have h256 : (n + m.code) / 256 % 2 = bitOf m.negb := by unfold FMods.code; omega
  have h512 : (n + m.code) / 512 % 2 = bitOf m.negc := by unfold FMods.code; omega
  refine ⟨?_, by unfold FMods.code; omega, by unfold FMods.code; omega⟩
  simp only [fmodsOf, h8, h32, h64, h128, h256, h512, bitOf_eq_one, rndOf_code]

theorem remOnly_of_remExtOk {only : Bool} {e : Ext} (h : remExtOk only e = true) : e.remOnly = only := by
  cases e with
  | e128 lo hi =>
    simp only [remExtOk, Bool.and_eq_true, beq_iff_eq] at h
    exact h.1.2
  | _ => cases only <;> simp_all [remExtOk, Ext.remOnly]

theorem parse_of_opFn_arith (hi : i.opFn = some (op, fn)) (hx : i.opnds? = some x) (hop : op < 0x40) : parse op fn x = some i ∧ op < 256 ∧ fn < 2048 := by
  cases i
  case nop | prmt => cases hi; cases hx; exact ⟨rfl, by decide⟩
  case iadd | isub | imul | imad | iabs | ineg | imadWide | isad | shl | shr | sar =>
    rename_i t s
    cases hi; cases hx
    have := t.code_lt
    have := bitOf_lt s
    exact ⟨by simp (disch := omega) [parse, parseInt, Nat.mod_eq_of_lt, Nat.div_eq_of_lt, add_mul_div_of_dvd, add_mul_mod_of_dvd], by omega⟩
  case imulhi | imin | imax | rot | and | or | xor | not | popc | clz | brev | bfe | bfi | sel | mov =>
    rename_i t
    cases hi; cases hx
    have := t.code_lt
    exact ⟨by simp (disch := omega) [parse, parseInt, Nat.mod_eq_of_lt, Nat.div_eq_of_lt], by omega⟩
  case lut3 =>
    rename_i w tbl
    cases hi; cases hx
    have := bitOf_lt w
    have := tbl.isLt
    exact ⟨by simp (disch := omega) [parse, Nat.mod_eq_of_lt, Nat.div_eq_of_lt, add_mul_div_of_dvd, add_mul_mod_of_dvd], by omega⟩
  case icmp =>
    rename_i t cc
    cases hi; cases hx
    have := t.code_lt
    have := cc.code_lt
    exact ⟨by simp (disch := omega) [parse, parseInt, Nat.mod_eq_of_lt, Nat.div_eq_of_lt, add_mul_div_of_dvd, add_mul_mod_of_dvd], by omega⟩
  case iaddc | lea =>
    rename_i t k
    cases hi; cases hx
    have := t.code_lt
    have := k.isLt
    exact ⟨by simp (disch := omega) [parse, parseInt, Nat.mod_eq_zero_of_dvd, Nat.mod_eq_of_lt, Nat.div_eq_of_lt, add_mul_div_of_dvd, add_mul_mod_of_dvd], by omega⟩
  case fcmp =>
    rename_i t cc sig ab
    cases hi; cases hx
    have := t.code_lt
    have := cc.code_lt
    have := bitOf_lt sig
    have := bitOf_lt ab
    exact ⟨by simp (disch := omega) [parse, parseFp, Nat.mod_eq_of_lt, Nat.div_eq_of_lt, add_mul_div_of_dvd, add_mul_mod_of_dvd], by omega⟩
  case fclass =>
    rename_i t
    cases hi; cases hx
    have := t.code_lt
    exact ⟨by simp (disch := omega) [parse, parseFp, Nat.mod_eq_of_lt, Nat.div_eq_of_lt], by omega⟩
  case fadd | fsub | fmul | ffma | fmin | fmax | frcp | frsq | fsqrt | fex2 | flg2 | fsin | fcos | fdiv | ffrac | fround | fscale | fdot2 =>
    rename_i t m
    cases hi; cases hx
    obtain ⟨hm, ht, h0⟩ := fmodsOf_add_code m t.code_lt
    exact ⟨by simp [parse, parseFp, ht, h0, hm], by omega⟩
  all_goals cases hi <;> omega

theorem parse_of_opFn_scalar (hi : i.opFn = some (op, fn)) (hx : i.opnds? = some x) (hlo : 0x40 ≤ op) (hhi : op < 0x70) :
    parse op fn x = some i ∧ op < 256 ∧ fn < 2048 := by
  cases i
  case flagsGet | flagsClr | ballot | bra | brx | call | ret | exit | jenr | jenrSet | jpark | jstrike | jstrikeAll | reform | brd | yield | brk
      | nap => cases hi; cases hx; exact ⟨rfl, by decide⟩
  case cvt =>
    rename_i d t r s
    cases hi; cases hx
    have := d.code_lt
    have := t.code_lt
    have := r.code_lt
    have := bitOf_lt s
    exact ⟨by simp (disch := omega) [parse, parseCvt, Nat.mod_eq_of_lt, Nat.div_eq_of_lt, add_mul_div_of_dvd, add_mul_mod_of_dvd], by omega⟩
  case cvtNfEnc =>
    rename_i f t sc k
    cases hi; cases hx
    have := f.isLt
    have := t.code_lt
    have := bitOf_lt sc
    have := k.isLt
    exact ⟨by simp (disch := omega) [parse, parseCvt, Nat.mod_eq_of_lt, Nat.div_eq_of_lt, add_mul_div_of_dvd, add_mul_mod_of_dvd, ofNat_add_of_dvd], by omega⟩
  case cvtNfDec =>
    rename_i f t sc k
    cases hi; cases hx
    have := f.isLt
    have := t.code_lt
    have := bitOf_lt sc
    have := k.isLt
    exact ⟨by simp (disch := omega) [parse, parseCvt, Nat.mod_eq_of_lt, Nat.div_eq_of_lt, add_mul_div_of_dvd, add_mul_mod_of_dvd, ofNat_add_of_dvd], by omega⟩
  case cvtNfb =>
    rename_i b f t
    cases hi; cases hx
    have := b.code_lt
    have := f.isLt
    have := t.code_lt
    exact ⟨by simp (disch := omega) [parse, parseCvt, Nat.mod_eq_of_lt, Nat.div_eq_of_lt, add_mul_div_of_dvd, add_mul_mod_of_dvd, ofNat_add_of_dvd], by omega⟩
  case unpkNf =>
    rename_i f bf sc k
    cases hi; cases hx
    have := f.isLt
    have := bitOf_lt bf
    have := bitOf_lt sc
    have := k.isLt
    exact ⟨by simp (disch := omega) [parse, parseCvt, Nat.mod_eq_of_lt, Nat.div_eq_of_lt, add_mul_div_of_dvd, add_mul_mod_of_dvd, ofNat_add_of_dvd], by omega⟩
  case fmtSet | fmtGet =>
    rename_i f
    cases hi; cases hx
    have := f.isLt
    exact ⟨by simp (disch := omega) [parse, parseCvt, Nat.div_eq_of_lt], by omega⟩
  case pack =>
    rename_i t r
    cases hi; cases hx
    have := t.code_lt
    have := r.code_lt
    exact ⟨by simp (disch := omega) [parse, parseCvt, Nat.mod_eq_of_lt, Nat.div_eq_of_lt, add_mul_div_of_dvd], by omega⟩
  case unpack =>
    rename_i hi' t
    cases hi; cases hx
    have := t.code_lt
    have := bitOf_lt hi'
    exact ⟨by simp (disch := omega) [parse, parseCvt, Nat.mod_eq_of_lt, Nat.div_eq_of_lt, add_mul_div_of_dvd], by omega⟩
  case sadd | ssub | smul | sshl =>
    rename_i t s
    cases hi; cases hx
    have := t.code_lt
    have := bitOf_lt s
    exact ⟨by simp (disch := omega) [parse, parseScalar, Nat.mod_eq_of_lt, Nat.div_eq_of_lt, add_mul_div_of_dvd, add_mul_mod_of_dvd], by omega⟩
  case sand | sor | sxor | smov =>
    rename_i t
    cases hi; cases hx
    have := t.code_lt
    exact ⟨by simp (disch := omega) [parse, parseScalar, Nat.mod_eq_of_lt, Nat.div_eq_of_lt], by omega⟩
  case sshr =>
    rename_i t c a
    cases hi; cases hx
    have := t.code_lt
    have := bitOf_lt c
    have := bitOf_lt a
    exact ⟨by simp (disch := omega) [parse, parseScalar, Nat.mod_eq_of_lt, Nat.div_eq_of_lt, add_mul_div_of_dvd, add_mul_mod_of_dvd], by omega⟩
  case scmp =>
    rename_i t cc
    cases hi; cases hx
    have := t.code_lt
    have := cc.code_lt
    exact ⟨by simp (disch := omega) [parse, parseScalar, Nat.mod_eq_of_lt, Nat.div_eq_of_lt, add_mul_div_of_dvd, add_mul_mod_of_dvd], by omega⟩
  case sld =>
    rename_i w
    cases hi; cases hx
    have := w.code_lt
    exact ⟨by simp (disch := omega) [parse, parseScalar, Nat.mod_eq_of_lt, Nat.div_eq_of_lt], by omega⟩
  case rfl =>
    rename_i w
    cases hi; cases hx
    cases w <;> exact ⟨rfl, by decide⟩
  case agree =>
    rename_i m
    cases hi; cases hx
    have := m.code_lt
    exact ⟨by simp (disch := omega) [parse, parseScalar, Nat.mod_eq_of_lt, Nat.div_eq_of_lt], by omega⟩
  case xlane =>
    rename_i m w wide
    cases hi; cases hx
    have := m.code_lt
    have := w.code_lt
    have := bitOf_lt wide
    exact ⟨by simp (disch := omega) [parse, parseScalar, Nat.mod_eq_of_lt, Nat.div_eq_of_lt, add_mul_div_of_dvd, add_mul_mod_of_dvd], by omega⟩
  case lred =>
    rename_i o t
    cases hi; cases hx
    have := t.code_lt
    have := o.code_lt
    exact ⟨by simp (disch := omega) [parse, parseScalar, Nat.mod_eq_of_lt, Nat.div_eq_of_lt, add_mul_div_of_dvd], by omega⟩
  case trap =>
    rename_i n
    cases hi; cases hx
    have := n.isLt
    exact ⟨by simp (disch := omega) [parse, parseCtl, Nat.div_eq_of_lt], by omega⟩
  all_goals cases hi <;> omega
theorem parse_of_opFn_memory (hi : i.opFn = some (op, fn)) (hx : i.opnds? = some x) (hf : i.formOk = true) (hlo : 0x70 ≤ op) (hhi : op < 0xA0) :
    parse op fn x = some i ∧ op < 256 ∧ fn < 2048 := by
  cases i
  case cleanR | invR | flushR | fhz | bblk => cases hi; cases hx; exact ⟨rfl, by decide⟩
  case ld | st =>
    rename_i w zx t
    cases hi; cases hx
    have := w.code_lt
    have := bitOf_lt zx
    have := t.code_lt
    exact ⟨by simp (disch := omega) [parse, parseMem, Nat.mod_eq_of_lt, Nat.div_eq_of_lt, add_mul_div_of_dvd, add_mul_mod_of_dvd], by omega⟩
  case ldl | stl | ldc =>
    rename_i w
    cases hi; cases hx
    have := w.code_lt
    exact ⟨by simp (disch := omega) [parse, parseMem, Nat.mod_eq_of_lt, Nat.div_eq_of_lt], by omega⟩
  case pref =>
    rename_i zx l1
    cases hi; cases hx
    have := bitOf_lt zx
    have := bitOf_lt l1
    exact ⟨by simp (disch := omega) [parse, parseMem, Nat.mod_eq_of_lt, Nat.div_eq_of_lt, add_mul_div_of_dvd, add_mul_mod_of_dvd], by omega⟩
  case lds | sts =>
    rename_i w zx
    cases hi; cases hx
    have := w.code_lt
    have := bitOf_lt zx
    exact ⟨by simp (disch := omega) [parse, parseMem, Nat.mod_eq_of_lt, Nat.div_eq_of_lt, add_mul_div_of_dvd], by omega⟩
  case atoms =>
    rename_i t o
    cases hi; cases hx
    have := t.code_lt
    have := o.code_lt
    exact ⟨by simp (disch := omega) [parse, parseMem, Nat.mod_eq_of_lt, Nat.div_eq_of_lt, add_mul_div_of_dvd], by omega⟩
  case spstat =>
    rename_i k
    cases hi; cases hx
    have := k.isLt
    exact ⟨by simp (disch := omega) [parse, parseMem, Nat.div_eq_of_lt], by omega⟩
  case ldsRem =>
    rename_i w zx p xr
    cases hi; cases hx
    have := w.code_lt
    have := bitOf_lt zx
    have := p.isLt
    have := bitOf_lt xr
    exact ⟨by simp (disch := omega) [parse, parseMem, Nat.mod_eq_of_lt, Nat.div_eq_of_lt, add_mul_div_of_dvd, add_mul_mod_of_dvd, ofNat_add_of_dvd], by omega⟩
  case stsRem =>
    rename_i w zx p xr
    cases hi; cases hx
    have hr := remOnly_of_remExtOk (Bool.and_eq_true_iff.1 hf).2
    have := w.code_lt
    have := bitOf_lt zx
    have := p.isLt
    have := bitOf_lt xr
    exact ⟨by simp (disch := omega) [parse, parseMem, hr, Nat.mod_eq_of_lt, Nat.div_eq_of_lt, add_mul_div_of_dvd, add_mul_mod_of_dvd, ofNat_add_of_dvd], by omega⟩
  case stsRemArr =>
    rename_i zx p xr
    cases hi; cases hx
    have hr := remOnly_of_remExtOk hf
    have := bitOf_lt zx
    have := p.isLt
    have := bitOf_lt xr
    exact ⟨by simp (disch := omega) [parse, parseMem, hr, mwidthOf, Nat.mod_eq_of_lt, Nat.div_eq_of_lt, add_mul_div_of_dvd, add_mul_mod_of_dvd, ofNat_add_of_dvd], by omega⟩
  case atom | red =>
    rename_i t o r
    cases hi; cases hx
    have := t.code_lt
    have := o.code_lt
    have := r.code_lt
    exact ⟨by simp (disch := omega) [parse, parseDie, Nat.mod_eq_of_lt, Nat.div_eq_of_lt, add_mul_div_of_dvd, add_mul_mod_of_dvd], by omega⟩
  case waitcmp =>
    rename_i t cc
    cases hi; cases hx
    have := t.code_lt
    have := cc.code_lt
    exact ⟨by simp (disch := omega) [parse, parseDie, Nat.mod_eq_of_lt, Nat.div_eq_of_lt, add_mul_div_of_dvd], by omega⟩
  case fence =>
    rename_i m
    cases hi; cases hx
    have := m.isLt
    exact ⟨by simp (disch := omega) [parse, parseDie, Nat.div_eq_of_lt], by omega⟩
  case pbar =>
    rename_i w
    cases hi; cases hx
    have := bitOf_lt w
    exact ⟨by simp (disch := omega) [parse, parseDie, Nat.div_eq_of_lt], by omega⟩
  case bbind =>
    rename_i n all
    cases hi; cases hx
    have := n.isLt
    have := bitOf_lt all
    exact ⟨by simp (disch := omega) [parse, parseBar, Nat.mod_eq_of_lt, Nat.div_eq_of_lt, add_mul_div_of_dvd, ofNat_add_of_dvd], by omega⟩
  case bunbind | barr | barrb | bwait | btest | bwaitt | ringAcq | ringPut | ringGet | ringRel =>
    rename_i n
    cases hi; cases hx
    have := n.isLt
    exact ⟨by simp (disch := omega) [parse, parseBar, Nat.div_eq_of_lt], by omega⟩
  case bexp =>
    rename_i n now clrt
    cases hi; cases hx
    have := n.isLt
    have := bitOf_lt now
    have := bitOf_lt clrt
    exact ⟨by simp (disch := omega) [parse, parseBar, Nat.mod_eq_of_lt, Nat.div_eq_of_lt, add_mul_div_of_dvd, ofNat_add_of_dvd], by omega⟩
  case ringBind =>
    rename_i n d
    cases hi; cases hx
    have := n.isLt
    have := d.isLt
    exact ⟨by simp (disch := omega) [parse, parseBar, Nat.div_eq_of_lt, add_mul_div_of_dvd, ofNat_add_of_dvd], by omega⟩
  all_goals cases hi <;> omega

theorem parse_of_opFn_engine (hi : i.opFn = some (op, fn)) (hx : i.opnds? = some x) (hlo : 0xA0 ≤ op) (hhi : op < 0xD0) :
    parse op fn x = some i ∧ op < 256 ∧ fn < 2048 := by
  cases i
  case cpyGl | publ | publDrop | scbdCnt | scbdQ | scbdWait | shdwOpen | cpySealEnc | cpySealDec | bkWait => cases hi; cases hx; exact ⟨rfl, by decide⟩
  case cpy =>
    rename_i n ns s2g
    cases hi; cases hx
    have := n.isLt
    have := bitOf_lt ns
    have := bitOf_lt s2g
    exact ⟨by simp (disch := omega) [parse, parseCpy, Nat.mod_eq_of_lt, Nat.div_eq_of_lt, add_mul_div_of_dvd, ofNat_add_of_dvd], by omega⟩
  case cpyX =>
    rename_i n ns e
    cases hi; cases hx
    have := n.isLt
    have := bitOf_lt ns
    have := e.code_lt
    exact ⟨by simp (disch := omega) [parse, parseCpy, Nat.mod_eq_of_lt, Nat.div_eq_of_lt, add_mul_div_of_dvd, add_mul_mod_of_dvd, ofNat_add_of_dvd], by omega⟩
  case cpyC =>
    rename_i n ns e
    cases hi; cases hx
    have := n.isLt
    have := bitOf_lt ns
    have := e.code_lt
    have hns : (n.toNat + 16 * bitOf ns + 32 + 64 * e.code) / 16 % 2 = bitOf ns := by omega
    have hs2g : (n.toNat + 16 * bitOf ns + 32 + 64 * e.code) / 32 % 2 = 1 := by omega
    have he : (n.toNat + 16 * bitOf ns + 32 + 64 * e.code) / 64 % 4 = e.code := by omega
    exact ⟨by simp (disch := omega) [parse, parseCpy, hns, hs2g, he, Nat.div_eq_of_lt, ofNat_add_of_dvd], by omega⟩
  case cpyFan =>
    rename_i n ns
    cases hi; cases hx
    have := n.isLt
    have := bitOf_lt ns
    exact ⟨by simp (disch := omega) [parse, parseCpy, Nat.mod_eq_of_lt, Nat.div_eq_of_lt, add_mul_div_of_dvd, ofNat_add_of_dvd], by omega⟩
  case bkAdd | bkMul | bkFma | bkScale =>
    rename_i t r
    cases hi; cases hx
    have := t.code_lt
    have := r.code_lt
    exact ⟨by simp (disch := omega) [parse, parseBank, Nat.mod_eq_of_lt, Nat.div_eq_of_lt, add_mul_div_of_dvd], by omega⟩
  case bkRed | bkCmp =>
    rename_i t r o
    cases hi; cases hx
    have := t.code_lt
    have := r.code_lt
    have := o.code_lt
    exact ⟨by simp (disch := omega) [parse, parseBank, Nat.mod_eq_of_lt, Nat.div_eq_of_lt, add_mul_div_of_dvd, add_mul_mod_of_dvd], by omega⟩
  case bkFill =>
    rename_i t
    cases hi; cases hx
    have := t.code_lt
    exact ⟨by simp (disch := omega) [parse, parseBank, Nat.mod_eq_of_lt, Nat.div_eq_of_lt, rndOf], by omega⟩
  case obres | obrel | obld =>
    rename_i n
    cases hi; cases hx
    have := n.isLt
    exact ⟨by simp (disch := omega) [parse, parseMat, Nat.div_eq_of_lt], by omega⟩
  case obldX =>
    rename_i n
    cases hi; cases hx
    have := n.isLt
    exact ⟨by simp (disch := omega) [parse, parseMat, Nat.div_eq_of_lt, ofNat_add_of_dvd], by omega⟩
  case mma =>
    rename_i t a b
    cases hi; cases hx
    have := t.isLt
    have := a.isLt
    have := b.isLt
    exact ⟨by simp (disch := omega) [parse, parseMat, Nat.div_eq_of_lt, add_mul_div_of_dvd, ofNat_add_of_dvd], by omega⟩
  case mmas =>
    rename_i t a b m
    cases hi; cases hx
    have := t.isLt
    have := a.isLt
    have := b.isLt
    have := m.isLt
    exact ⟨by simp (disch := omega) [parse, parseMat, Nat.div_eq_of_lt, add_mul_div_of_dvd, ofNat_add_of_dvd], by omega⟩
  case accZero =>
    rename_i t all
    cases hi; cases hx
    have := t.isLt
    have := bitOf_lt all
    exact ⟨by simp (disch := omega) [parse, parseMat, Nat.mod_eq_of_lt, Nat.div_eq_of_lt, add_mul_div_of_dvd, ofNat_add_of_dvd], by omega⟩
  case accLd =>
    rename_i t k n
    cases hi; cases hx
    have := t.isLt
    have := k.code_lt
    have := n.isLt
    exact ⟨by simp (disch := omega) [parse, parseMat, Nat.mod_eq_of_lt, Nat.div_eq_of_lt, add_mul_div_of_dvd, add_mul_mod_of_dvd, ofNat_add_of_dvd], by omega⟩
  case accSt =>
    rename_i t k ninf n
    cases hi; cases hx
    have := t.isLt
    have := k.code_lt
    have := bitOf_lt ninf
    have := n.isLt
    exact ⟨by simp (disch := omega) [parse, parseMat, Nat.mod_eq_of_lt, Nat.div_eq_of_lt, add_mul_div_of_dvd, add_mul_mod_of_dvd, ofNat_add_of_dvd], by omega⟩
  case accStat | accRmax =>
    rename_i t n
    cases hi; cases hx
    have := t.isLt
    have := n.isLt
    exact ⟨by simp (disch := omega) [parse, parseMat, Nat.div_eq_of_lt, add_mul_div_of_dvd, ofNat_add_of_dvd], by omega⟩
  case accRenorm | accTmask | accScale | accMode =>
    rename_i t
    cases hi; cases hx
    have := t.isLt
    exact ⟨by simp (disch := omega) [parse, parseMat, Nat.div_eq_of_lt], by omega⟩
  all_goals cases hi <;> omega

theorem parse_of_opFn_service (hi : i.opFn = some (op, fn)) (hx : i.opnds? = some x) (hlo : 0xD0 ≤ op) :
    parse op fn x = some i ∧ op < 256 ∧ fn < 2048 := by
  cases i
  case lqStat | leaseQStat | leaseQWait | leaseQRel | keyhRev | keyhQry | migAckTake | migAckRearm | migAckQuiet | tret | tretNext
      | tretStrike | presig | faultRdSeq | faultRdTake | faultRdFree | diectlReset | diectlStat | snuff | haltOff | haltReboot =>
    cases hi; cases hx; exact ⟨rfl, by decide⟩
  case conftest | bkwait | bkfill | launch =>
    rename_i e
    cases hi; cases hx
    have := e.isLt
    exact ⟨by simp (disch := omega) [parse, parseQueue, Nat.div_eq_of_lt], by omega⟩
  case bkfillReg | launchArr =>
    rename_i e
    cases hi; cases hx
    have := e.isLt
    exact ⟨by simp (disch := omega) [parse, parseQueue, Nat.div_eq_of_lt, ofNat_add_of_dvd], by omega⟩
  case wqPush | wqPull =>
    rename_i q nw pd
    cases hi; cases hx
    have := q.isLt
    have := bitOf_lt nw
    have := pd.isLt
    exact ⟨by simp (disch := omega) [parse, parseQueue, Nat.mod_eq_of_lt, Nat.div_eq_of_lt, add_mul_div_of_dvd, ofNat_add_of_dvd], by omega⟩
  case wqStatCnt =>
    rename_i q
    cases hi; cases hx
    have := q.isLt
    exact ⟨by simp (disch := omega) [parse, parseQueue, Nat.div_eq_of_lt], by omega⟩
  case wqStatClose | wqStatOpen =>
    rename_i q
    cases hi; cases hx
    have := q.isLt
    exact ⟨by simp (disch := omega) [parse, parseQueue, Nat.div_eq_of_lt, Nat.add_div_of_dvd_left, ofNat_add_of_dvd], by omega⟩
  case keyhGen | keyhImp =>
    rename_i u
    cases hi; cases hx
    have := u.code_lt
    exact ⟨by simp (disch := omega) [parse, parseQueue, Nat.mod_eq_of_lt, Nat.div_eq_of_lt, add_mul_div_of_dvd], by omega⟩
  case sysrd | syswr =>
    rename_i r
    cases hi; cases hx
    have := r.isLt
    exact ⟨by simp (disch := omega) [parse, parseSys, Nat.div_eq_of_lt], by omega⟩
  case oplogRd =>
    rename_i e w
    cases hi; cases hx
    have := e.isLt
    have := w.isLt
    exact ⟨by simp (disch := omega) [parse, parseSys, Nat.div_eq_of_lt, add_mul_div_of_dvd, ofNat_add_of_dvd], by omega⟩
  case faultCancel | tlbinv =>
    rename_i m
    cases hi; cases hx
    have := m.code_lt
    exact ⟨by simp (disch := omega) [parse, parseSys, Nat.div_eq_of_lt], by omega⟩
  all_goals cases hi <;> omega

/-- An instruction of a form that its entry lists is read back from its opcode and `fn`. -/
theorem parse_of_opFn (hi : i.opFn = some (op, fn)) (hx : i.opnds? = some x) (hf : i.formOk = true) : parse op fn x = some i ∧ op < 256 ∧ fn < 2048 := by
  obtain h | h | h | h | h : op < 0x40 ∨ (0x40 ≤ op ∧ op < 0x70) ∨ (0x70 ≤ op ∧ op < 0xA0) ∨ (0xA0 ≤ op ∧ op < 0xD0) ∨ 0xD0 ≤ op := by omega
  · exact parse_of_opFn_arith hi hx h
  · exact parse_of_opFn_scalar hi hx h.1 h.2
  · exact parse_of_opFn_memory hi hx hf h.1 h.2
  · exact parse_of_opFn_engine hi hx h.1 h.2
  · exact parse_of_opFn_service hi hx h

end

/-! ### The form of an instruction does not depend on which operands it names -/

/-- A source that names an immediate, whichever. -/
def Src.isImm : Src → Bool
  | .imm _ => true
  | _ => false

/-- Operands that an instruction's form does not tell apart (R26): the same extension, and immediates in the same fields. -/
structure Opnds.SameForm (x y : Opnds) : Prop where
  ext : x.ext = y.ext
  a : x.a.isImm = y.a.isImm
  b : x.b.isImm = y.b.isImm
  c : x.c.isImm = y.c.isImm

namespace Opnds

variable {x y : Opnds}

theorem namesImm_eq (x : Opnds) : x.namesImm = (x.a.isImm || x.b.isImm || x.c.isImm) := by
  simp only [namesImm, List.any_cons, List.any_nil, Bool.or_false, Bool.or_assoc]; rfl

theorem openForm_eq (x : Opnds) (k : Sig) :
    x.openForm k = (x.short || (x.a.isImm && k.a.imm) || (x.b.isImm && k.b.imm) || (x.c.isImm && k.c.imm)) := rfl

theorem SameForm.short (h : x.SameForm y) : x.short = y.short := by simp only [Opnds.short, h.ext]

theorem SameForm.only96 (h : x.SameForm y) : x.only96 = y.only96 := by simp only [Opnds.only96, h.ext]

theorem SameForm.immForm (h : x.SameForm y) : x.immForm = y.immForm := by
  simp only [Opnds.immForm, namesImm_eq, h.short, h.a, h.b, h.c]

theorem SameForm.openForm (h : x.SameForm y) (k : Sig) : x.openForm k = y.openForm k := by
  simp only [openForm_eq, h.short, h.a, h.b, h.c]

end Opnds

theorem map_ite_congr {α β : Type} {f : α → β} {c : Prop} [Decidable c] {a b a' b' : Option α} (ha : a.map f = a'.map f)
    (hb : b.map f = b'.map f) : (if c then a else b).map f = (if c then a' else b').map f := by
  split <;> assumption

/-- Whether an opcode and `fn` name a legal form is the same for operands of one form. -/
theorem parse_formOk {op fn : Nat} {x y : Opnds} (h : x.SameForm y) : (parse op fn x).map Instr.formOk = (parse op fn y).map Instr.formOk := by
  unfold parse
  refine map_ite_congr (map_ite_congr rfl rfl) (map_ite_congr (map_ite_congr (congrArg some h.immForm) rfl) ?_)
  repeat' with_reducible refine map_ite_congr ?_ ?_
  all_goals simp only [parseInt, parseFp, parseCvt, parseScalar, parseCtl, parseMem, parseDie, parseBar, parseCpy, parseBank, parseMat,
    parseQueue, parseSys, h.ext]
  all_goals (repeat' split)
  all_goals simp only [Option.map_some, Option.map_none, Option.map_map, Function.comp_def]
  all_goals
    delta Instr.formOk
    simp only [h.immForm, h.openForm, h.short, h.only96, h.ext]
  all_goals rfl

/-! ### Field codes of operands -/

@[simp] theorem dstOf_code (d : Dst) : dstOf d.code = some d := by
  cases d with
  | v n => simp [Dst.code, dstOf, n.isLt]
  | s n =>
    have := n.isLt
    simp (disch := omega) [Dst.code, dstOf, if_pos]
  | p n =>
    have := n.isLt
    simp (disch := omega) [Dst.code, dstOf, if_neg, if_pos]
  | j n =>
    have := n.isLt
    simp (disch := omega) [Dst.code, dstOf, if_neg, if_pos]
  | discard => rfl

theorem code_of_dstOf {n : Nat} {d : Dst} (h : dstOf n = some d) : d.code = n := by
  unfold dstOf at h
  repeat' split at h
  all_goals
    cases h
  all_goals
    simp only [Dst.code, BitVec.toNat_ofNat]
    omega

theorem Dst.code_lt (d : Dst) : d.code < 512 := by
  cases d <;> simp only [Dst.code] <;> omega

theorem Src.code_lt (a : Src) : a.code < 1024 := by
  cases a with
  | special x => have := x.code_lt; simp only [Src.code]; omega
  | imm k => simp only [Src.code]; omega
  | _ => simp only [Src.code]; omega

@[simp] theorem srcOf_code (a : Src) : srcOf a.code = some a := by
  cases a with
  | v n => simp [Src.code, srcOf, n.isLt]
  | special x =>
    have := x.code_lt
    simp (disch := omega) [Src.code, srcOf, if_neg, if_pos]
  | null => rfl
  | imm k => revert k; decide
  | _ n =>
    have := n.isLt
    simp (disch := omega) [Src.code, srcOf, if_neg, if_pos]

theorem code_of_srcOf {n : Nat} {a : Src} : srcOf n = some a → a.code = n := by
  have hspecial (_ : ¬n < 0x150) (h : (specialOf (n - 0x150)).map .special = some a) : a.code = n := by
    obtain ⟨x, hx, rfl⟩ := Option.map_eq_some_iff.1 h
    have := code_of_specialOf hx
    simp only [Src.code]
    omega
  unfold srcOf
  refine of_ite_eq_some (fun _ h => ?_) fun _ => of_ite_eq_some (fun _ h => ?_) fun _ => of_ite_eq_some (fun _ h => ?_) fun _ =>
    of_ite_eq_some (fun _ h => ?_) fun h150 => of_ite_eq_some (fun _ => hspecial h150) fun _ => of_ite_eq_some (fun _ h => ?_) fun _ =>
    of_ite_eq_some (fun _ h => nomatch h) fun _ => of_ite_eq_some (fun _ h => ?_) fun _ => of_ite_eq_some (fun _ h => nomatch h) fun _ =>
    of_ite_eq_some (fun _ h => ?_) fun _ => of_ite_eq_some (fun _ h => ?_) fun _ => of_ite_eq_some (fun _ h => ?_) fun _ h => nomatch h
  all_goals
    cases h
    simp only [Src.code, BitVec.toNat_ofNat, Fin.val_zero, Fin.val_one, Fin.val_two]
    omega

/-- The opcode check takes every selector for an immediate (R29), and every other source for itself. -/
theorem srcLax_isImm {n : Nat} {a : Src} (h : srcOf n = some a) : (srcLax n).isImm = a.isImm := by
  have hc := code_of_srcOf h
  unfold srcLax
  split
  · cases a with
    | imm k => rfl
    | special x => have := x.code_lt; simp only [Src.code] at hc; omega
    | _ => simp only [Src.code] at hc; omega
  · rw [h]; rfl

theorem Guard.code_lt (g : Guard) : g.code < 16 := by
  unfold Guard.code; split <;> omega

@[simp] theorem guardOf_code (g : Guard) : guardOf g.code = g := by
  obtain ⟨neg, p⟩ := g
  have := p.isLt
  cases neg <;> simp (disch := omega) [guardOf, Guard.code, Nat.div_eq_of_lt, ofNat_add_of_dvd]

theorem code_guardOf {n : Nat} (h : n < 16) : (guardOf n).code = n := by
  simp only [guardOf, Guard.code, BitVec.toNat_ofNat, beq_iff_eq]
  split <;> omega

theorem Ext.len_lt (e : Ext) : e.len < 3 := by cases e <;> simp [Ext.len]

@[simp] theorem extOf_len_hi (e : Ext) : extOf e.len e.hi = some e := by
  cases e with
  | e64 => rfl
  | e96 w => simp [Ext.len, Ext.hi, extOf]
  | e128 lo hi =>
    have := lo.isLt
    simp (disch := omega) [Ext.len, Ext.hi, extOf, ofNat_add_of_dvd, add_mul_div_of_dvd, Nat.div_eq_of_lt]

/-- What an extension was read from, where the bits are no more than its form has. -/
theorem len_hi_of_extOf {len hi : Nat} {e : Ext} (h : extOf len hi = some e) (hhi : 2 ^ 64 * hi < 2 ^ (8 * e.bytes)) :
    e.len = len ∧ e.hi = hi := by
  unfold extOf at h
  split at h <;> cases h <;> refine ⟨rfl, ?_⟩ <;> simp only [Ext.bytes, Ext.hi, BitVec.toNat_ofNat] at hhi ⊢ <;> omega

theorem lenBytes_len (e : Ext) : lenBytes e.len = some e.bytes := by cases e <;> rfl

theorem lenBytes_of_extOf {len hi : Nat} {e : Ext} (h : extOf len hi = some e) : lenBytes len = some e.bytes := by
  unfold extOf at h
  split at h <;> cases h <;> rfl

theorem Ext.hi_lt (e : Ext) : 2 ^ 64 * e.hi + 2 ^ 64 ≤ 2 ^ (8 * e.bytes) := by
  cases e with
  | e64 => decide
  | e96 w => have := w.isLt; simp only [Ext.hi, Ext.bytes]; omega
  | e128 lo hi => have := lo.isLt; have := hi.isLt; simp only [Ext.hi, Ext.bytes]; omega

/-! ### The first word -/

/-- The fields fit where R13 puts them. -/
structure Raw.Fits (r : Raw) : Prop where
  op : r.op < 256
  guard : r.guard < 16
  dst : r.dst < 512
  sa : r.sa < 1024
  sb : r.sb < 1024
  sc : r.sc < 1024
  fn : r.fn < 2048

theorem rawOf_bits {r : Raw} (h : r.Fits) : rawOf r.bits = some r := by
  obtain ⟨hop, hg, hd, ha, hb, hc, hfn⟩ := h
  have hl := r.ext.len_lt
  have e0 : r.bits % 4 = r.ext.len := by unfold Raw.bits; omega
  have e1 : r.bits / 4 % 256 = r.op := by unfold Raw.bits; omega
  have e2 : r.bits / 1024 % 16 = r.guard := by unfold Raw.bits; omega
  have e3 : r.bits / 2 ^ 14 % 512 = r.dst := by unfold Raw.bits; omega
  have e4 : r.bits / 2 ^ 23 % 1024 = r.sa := by unfold Raw.bits; omega
  have e5 : r.bits / 2 ^ 33 % 1024 = r.sb := by unfold Raw.bits; omega
  have e6 : r.bits / 2 ^ 43 % 1024 = r.sc := by unfold Raw.bits; omega
  have e7 : r.bits / 2 ^ 53 % 2048 = r.fn := by unfold Raw.bits; omega
  have e8 : r.bits / 2 ^ 64 = r.ext.hi := by unfold Raw.bits; omega
  simp only [rawOf, e0, e1, e2, e3, e4, e5, e6, e7, e8, extOf_len_hi]

theorem Raw.bits_lt {r : Raw} (h : r.Fits) : r.bits < 2 ^ (8 * r.ext.bytes) := by
  obtain ⟨hop, hg, hd, ha, hb, hc, hfn⟩ := h
  have := r.ext.len_lt
  have := r.ext.hi_lt
  unfold Raw.bits
  omega

/-- Bits that are no more than their `len` announces are those of the fields read from them. -/
theorem bits_of_rawOf {n : Nat} {r : Raw} (h : rawOf n = some r) (hn : n < 2 ^ (8 * r.ext.bytes)) :
    r.bits = n ∧ r.Fits ∧ lenBytes (n % 4) = some r.ext.bytes := by
  unfold rawOf at h
  split at h
  · cases h
  rename_i e he
  cases h
  dsimp only at hn
  obtain ⟨hl, hh⟩ := len_hi_of_extOf he (by omega)
  refine ⟨?_, by constructor <;> dsimp only <;> omega, lenBytes_of_extOf he⟩
  simp only [Raw.bits, hl, hh]
  omega

@[simp] theorem Opnds.opnds?_raw (x : Opnds) (op fn : Nat) : (x.raw op fn).opnds? = some x := by
  simp [Raw.opnds?, Opnds.raw]

theorem Opnds.fits_raw {op fn : Nat} (x : Opnds) (hop : op < 256) (hfn : fn < 2048) : (x.raw op fn).Fits :=
  ⟨hop, x.g.code_lt, x.d.code_lt, x.a.code_lt, x.b.code_lt, x.c.code_lt, hfn⟩

/-- The fields are those of the operands read from them. -/
theorem Raw.eq_raw {r : Raw} {x : Opnds} (h : r.opnds? = some x) (hr : r.Fits) : r = x.raw r.op r.fn := by
  unfold Raw.opnds? at h
  split at h
  · rename_i d a b c hd ha hb hc
    cases h
    simp only [Opnds.raw, code_guardOf hr.guard, code_of_dstOf hd, code_of_srcOf ha, code_of_srcOf hb, code_of_srcOf hc]
  · cases h

theorem Raw.lax_sameForm {r : Raw} {x : Opnds} (h : r.opnds? = some x) : r.lax.SameForm x := by
  unfold Raw.opnds? at h
  split at h
  · rename_i d a b c hd ha hb hc
    cases h
    exact ⟨rfl, srcLax_isImm ha, srcLax_isImm hb, srcLax_isImm hc⟩
  · cases h

/-- What the fields are decoded to: the form is checked before the operands are known (R29), which makes no difference to it. -/
theorem Raw.decode_eq_ok {r : Raw} {i : Instr} :
    r.decode = .ok i ↔ ∃ x, r.opnds? = some x ∧ parse r.op r.fn x = some i ∧ i.wf = true := by
  have key {x : Opnds} (hx : r.opnds? = some x) := parse_formOk (op := r.op) (fn := r.fn) (Raw.lax_sameForm hx)
  simp only [Instr.wf, Bool.and_eq_true]
  unfold Raw.decode
  constructor
  · intro h
    split at h
    · cases h
    rename_i j hj
    split at h
    · cases h
    rename_i hf
    split at h
    · cases h
    rename_i x hx
    split at h
    · cases h
    rename_i k hk
    split at h
    · rename_i ho
      cases h
      have := key hx
      simp only [hj, hk, Option.map_some, Option.some.injEq] at this
      exact ⟨x, hx, hk, by rw [← this]; simpa using hf, ho⟩
    · cases h
  · rintro ⟨x, hx, hp, hf, ho⟩
    have := key hx
    rw [hp, Option.map_some, hf, Option.map_eq_some_iff] at this
    obtain ⟨j, hj, hjf⟩ := this
    simp [hj, hjf, hx, hp, ho]

/-! ### Bytes -/

@[simp] theorem length_leBytes (n v : Nat) : (leBytes n v).length = n := by
  induction n generalizing v with
  | zero => rfl
  | succ n ih => simp [leBytes, ih]

theorem leNat_leBytes {n v : Nat} (h : v < 256 ^ n) : leNat (leBytes n v) = v := by
  induction n generalizing v with
  | zero => simp only [Nat.pow_zero, Nat.lt_one_iff] at h; subst h; rfl
  | succ n ih =>
    rw [Nat.pow_succ] at h
    simp only [leBytes, leNat, ih (v := v / 256) (by omega), BitVec.toNat_ofNat]
    omega

theorem leBytes_leNat (bs : List Byte) : leBytes bs.length (leNat bs) = bs := by
  induction bs with
  | nil => rfl
  | cons b bs ih =>
    have := b.isLt
    have h : (b.toNat + 256 * leNat bs) / 256 = leNat bs := by omega
    simp only [List.length_cons, leBytes, leNat, h, ih]
    simp (disch := omega) [ofNat_add_of_dvd]

theorem leNat_lt (bs : List Byte) : leNat bs < 256 ^ bs.length := by
  induction bs with
  | nil => decide
  | cons b bs ih =>
    have := b.isLt
    simp only [leNat, List.length_cons, Nat.pow_succ]
    omega

/-- `len` stands in the first byte (R13). -/
theorem leNat_take_one_mod (bs : List Byte) {n : Nat} (hn : 0 < n) : leNat (bs.take 1) % 4 = leNat (bs.take n) % 4 := by
  cases bs with
  | nil => simp
  | cons b bs =>
    obtain ⟨m, rfl⟩ := Nat.exists_eq_add_of_lt hn
    simp only [Nat.zero_add, List.take_succ_cons, List.take_zero, leNat]
    omega

theorem Ext.pow_bytes (e : Ext) : 256 ^ e.bytes = 2 ^ (8 * e.bytes) := by cases e <;> rfl

theorem Ext.bytes_pos (e : Ext) : 0 < e.bytes := by cases e <;> simp [Ext.bytes]

theorem Ext.bytes_le (e : Ext) : e.bytes ≤ 16 := by cases e <;> simp [Ext.bytes]

/-! ### Whole instructions -/

theorem opFn_of_opnds {i : Instr} {x : Opnds} (h : i.opnds? = some x) : ∃ op fn, i.opFn = some (op, fn) := by
  cases i <;> cases h <;> exact ⟨_, _, rfl⟩

theorem opnds_of_wf {i : Instr} (h : i.wf = true) : ∃ x, i.opnds? = some x := by
  simp only [Instr.wf, Instr.operandsOk, Bool.and_eq_true] at h
  cases hx : i.opnds? with
  | none => simp [hx] at h
  | some x => exact ⟨x, rfl⟩

/-- The encoding of an instruction, as bytes of its fields. -/
theorem encode_eq {i : Instr} {x : Opnds} {op fn : Nat} (hx : i.opnds? = some x) (hi : i.opFn = some (op, fn)) :
    encode i = some (leBytes x.ext.bytes (x.raw op fn).bits) := by
  simp only [encode, encodeBits, hi, hx]

/-- Bytes of the fields of an instruction are read as that instruction, whatever follows. -/
theorem decode_leBytes {r : Raw} (h : r.Fits) (rest : List Byte) : decode (leBytes r.ext.bytes r.bits ++ rest) = r.decode := by
  have hv : leNat (leBytes r.ext.bytes r.bits) = r.bits := leNat_leBytes (by rw [Ext.pow_bytes]; exact r.bits_lt h)
  have ht : (leBytes r.ext.bytes r.bits ++ rest).take r.ext.bytes = leBytes r.ext.bytes r.bits := by simp
  have hl : r.bits % 4 = r.ext.len := by
    have := r.ext.len_lt
    unfold Raw.bits; omega
  simp only [decode, leNat_take_one_mod _ r.ext.bytes_pos, ht, hv, hl, lenBytes_len, decodeBits, rawOf_bits h]

/-- What bytes are decoded from: their fields. -/
theorem decode_eq_ok {bs : List Byte} {i : Instr} (hlen : 16 ≤ bs.length) (h : decode bs = .ok i) :
    ∃ r : Raw, r.Fits ∧ leBytes r.ext.bytes r.bits = bs.take r.ext.bytes ∧ r.decode = .ok i := by
  unfold decode at h
  split at h
  · cases h
  rename_i n hn
  unfold decodeBits at h
  split at h
  · cases h
  rename_i r hr
  have hpos : 0 < n := by
    unfold lenBytes at hn; split at hn <;> cases hn <;> decide
  rw [leNat_take_one_mod bs hpos] at hn
  have hnr : n = r.ext.bytes := by
    unfold rawOf at hr
    split at hr
    · cases hr
    rename_i e he
    cases hr
    rw [lenBytes_of_extOf he] at hn
    exact (Option.some.inj hn).symm
  subst hnr
  have hl : (bs.take r.ext.bytes).length = r.ext.bytes := by
    have := r.ext.bytes_le
    simp; omega
  have hlt := leNat_lt (bs.take r.ext.bytes)
  rw [hl, Ext.pow_bytes] at hlt
  obtain ⟨hb, hf, -⟩ := bits_of_rawOf hr hlt
  refine ⟨r, hf, ?_, h⟩
  have := leBytes_leNat (bs.take r.ext.bytes)
  rwa [hl, ← hb] at this

theorem decode_encode (i : Instr) (rest : List Byte) (h : i.wf = true) :
    ∃ bs x, encode i = some bs ∧ i.opnds? = some x ∧ bs.length = x.ext.bytes ∧ decode (bs ++ rest) = .ok i := by
  obtain ⟨x, hx⟩ := opnds_of_wf h
  obtain ⟨op, fn, hi⟩ := opFn_of_opnds hx
  obtain ⟨hp, hop, hfn⟩ := parse_of_opFn hi hx (Bool.and_eq_true_iff.1 h).1
  refine ⟨_, x, encode_eq hx hi, hx, length_leBytes _ _, ?_⟩
  rw [show x.ext.bytes = (x.raw op fn).ext.bytes from rfl, decode_leBytes (x.fits_raw hop hfn)]
  exact Raw.decode_eq_ok.2 ⟨x, x.opnds?_raw op fn, hp, h⟩

theorem encode_decode {i : Instr} {bs : List Byte} (hlen : 16 ≤ bs.length) (h : decode bs = .ok i) :
    i.wf = true ∧ ∃ x, i.opnds? = some x ∧ encode i = some (bs.take x.ext.bytes) := by
  obtain ⟨r, hf, hb, hd⟩ := decode_eq_ok hlen h
  obtain ⟨x, hx, hp, hw⟩ := Raw.decode_eq_ok.1 hd
  obtain ⟨hi, hix⟩ := parse_opFn hf.fn hp
  have hr := Raw.eq_raw hx hf
  have he : r.ext = x.ext := by rw [hr]; rfl
  refine ⟨hw, x, hix, ?_⟩
  rw [encode_eq hix hi, ← hr, ← he, hb]

/-- Settles O53: the fields of R13 hold what the instruction's tables gave them, each table reads its own codes back (`parse_of_opFn`), and the
check of the form, made before the operands are read, does not depend on them (`parse_formOk`). -/
theorem decodeInvertsEncode : Obligations.DecodeInvertsEncode := by
  unfold Obligations.DecodeInvertsEncode
  exact decode_encode

/-- Settles O54: the tables check every bit of `fn` that they do not read (`parse_opFn`), and no two values of a field name the same operand. -/
theorem encodeInvertsDecode : Obligations.EncodeInvertsDecode := by
  unfold Obligations.EncodeInvertsDecode
  exact fun i bs hlen h => encode_decode hlen h

/-! ### The fields of R13 and the tables of R17, R24 and R77 -/

/-- The fields of an encoding, read at the places that R13 gives them. -/
theorem field_of_bits {r : Raw} (h : r.Fits) :
    field r.bits 0 2 = r.ext.len ∧ field r.bits 2 8 = r.op ∧ field r.bits 10 4 = r.guard ∧ field r.bits 14 9 = r.dst
    ∧ field r.bits 23 10 = r.sa ∧ field r.bits 33 10 = r.sb ∧ field r.bits 43 10 = r.sc ∧ field r.bits 53 11 = r.fn := by
  obtain ⟨hop, hg, hd, ha, hb, hc, hfn⟩ := h
  have hl := r.ext.len_lt
  unfold field Raw.bits
  omega

theorem field_guard (g : Guard) {n : Nat} (h : field n 10 4 = g.code) : field n 10 3 = g.p.toNat ∧ field n 13 1 = bitOf g.neg := by
  have hp := g.p.isLt
  have hn := bitOf_lt g.neg
  have hc : g.code = g.p.toNat + 8 * bitOf g.neg := by
    obtain ⟨neg, p⟩ := g
    cases neg <;> rfl
  unfold field at h ⊢
  omega

theorem encode_fields {i : Instr} {x : Opnds} {op fn : Nat} {bs : List Byte} (hw : i.wf = true) (he : encode i = some bs)
    (hx : i.opnds? = some x) (hi : i.opFn = some (op, fn)) :
    let w := leNat bs
    field w 0 2 = x.ext.len ∧ field w 2 8 = op ∧ field w 10 3 = x.g.p.toNat ∧ field w 13 1 = bitOf x.g.neg ∧ field w 14 9 = x.d.code
    ∧ field w 23 10 = x.a.code ∧ field w 33 10 = x.b.code ∧ field w 43 10 = x.c.code ∧ field w 53 11 = fn := by
  obtain ⟨-, hop, hfn⟩ := parse_of_opFn hi hx (Bool.and_eq_true_iff.1 hw).1
  have hf := x.fits_raw hop hfn
  have hv : leNat bs = (x.raw op fn).bits := by
    rw [encode_eq hx hi] at he
    cases he
    exact leNat_leBytes (by rw [Ext.pow_bytes]; exact Raw.bits_lt hf)
  obtain ⟨hlen, hop, hg, hd, ha, hb, hc, hfn⟩ := field_of_bits hf
  obtain ⟨hp, hn⟩ := field_guard x.g hg
  simp only [hv]
  exact ⟨hlen, hop, hp, hn, hd, ha, hb, hc, hfn⟩

theorem decode_illegalLen {b : Byte} (bs : List Byte) (h : b.toNat % 4 = 3) : decode (b :: bs) = .illegalLen := by
  have : leNat ((b :: bs).take 1) % 4 = 3 := by simp only [List.take_succ_cons, List.take_zero, leNat]; omega
  simp only [decode, this, lenBytes]

theorem dstOf_none {n : Nat} (hlo : 0x150 ≤ n) (hhi : n ≤ 0x1FE) : dstOf n = none := by
  simp (disch := omega) only [dstOf, if_neg]

/-- R17's table. -/
theorem dstOf_eq {n : Nat} (hn : n < 512) : dstOf n =
    if n ≤ 0xFF then some (.v (.ofNat 8 n))
    else if n ≤ 0x13F then some (.s (.ofNat 6 (n - 0x100)))
    else if n ≤ 0x147 then some (.p (.ofNat 3 (n - 0x140)))
    else if n ≤ 0x14F then some (.j (.ofNat 3 (n - 0x148)))
    else if n ≤ 0x1FE then none
    else some .discard := by
  have hlast : (if n = 0x1FF then some Dst.discard else none) = if n ≤ 0x1FE then none else some .discard := by
    rw [← ite_not]
    exact if_congr (by omega) rfl rfl
  unfold dstOf
  exact if_congr (by omega) rfl (if_congr (by omega) rfl (if_congr (by omega) rfl (if_congr (by omega) rfl hlast)))

theorem Raw.decode_illegalOperand {r : Raw} {i : Instr} (hlo : 0x150 ≤ r.dst) (hhi : r.dst ≤ 0x1FE) (hp : parse r.op r.fn r.lax = some i)
    (hf : i.formOk = true) : r.decode = .illegalOperand r.op := by
  simp [Raw.decode, hp, hf, Raw.opnds?, dstOf_none hlo hhi]

/-- Settles O55. -/
theorem fieldEncodings : Obligations.FieldEncodings := by
  unfold Obligations.FieldEncodings
  refine ⟨fun i x op fn bs hw he hx hi => encode_fields hw he hx hi, fun b bs h => decode_illegalLen bs h, fun n hn => dstOf_eq hn,
    fun r i hlo hhi hp hf => Raw.decode_illegalOperand hlo hhi hp hf, rfl, fun k => srcOf_code (.inline k), by decide, by decide⟩

/-- Settles O56. -/
theorem sanityWords : Obligations.SanityWords := by
  unfold Obligations.SanityWords
  decide

end Sys2Proof
/-! # Steps and decoded instructions -/

namespace Sys2Proof.Machine

variable {s u v w : State}

/-- The bytes at the selected program counter are fetched and decoded, where no trap or fault stands before it (R112, R28). -/
theorem State.fetch_of_decode {n : Nat} {i : Instr} {e : ILine} (hfence : ∀ t ∈ v.sel.act, (v.cb.thr t).wait.fenceScope = none)
    (hcanon : canonical v.sel.pc = true) (halign : v.sel.pc.toNat % 4 = 0) (hpage : v.fetchPage = (w, .ok e))
    (hlen : lenBytes (leNat (e.code v.sel.pc.toNat 1) % 4) = some n) (hblock : v.sel.pc.toNat % 32 + n ≤ 32)
    (hdec : decode (e.code v.sel.pc.toNat n) = .ok i) : v.fetch = (w, .ok i) := by
  have hnow : v.fetchNow = (w, .ok i) := by
    simp only [fetchNow, hcanon, halign, hpage, hlen, hdec, if_neg (Nat.not_lt.2 hblock)]
    rfl
  have hany : (v.sel.act.any fun t => (v.cb.thr t).wait.fenceScope.isSome) = false :=
    List.any_eq_false.2 fun t ht => by simp [hfence t ht]
  simp only [fetch, hany, hnow, Bool.false_eq_true, if_false]

/-- A subset whose instruction was fetched executes it; in a block with two copies leader and trailer do (R143). -/
theorem runChosen_of_fetch {i : Instr} {a : State} (hstale : v.staleHere = false) (hfetch : v.fetch = (w, .ok i))
    (hrun : (w.cb.trail = none ∧ exec i w = .next a) ∨ (w.cb.trail.isSome = true ∧ runGlow i w = .next a)) :
    runChosen v = .next (a.follow w (some w.sel.blk)) := by
  have hi : runInstr i w = .next a := by
    unfold runInstr
    obtain ⟨ht, ha⟩ | ⟨ht, ha⟩ := hrun
    · rw [ht]; exact ha
    · obtain ⟨g, hg⟩ := Option.isSome_iff_exists.1 ht
      rw [hg]; exact ha
  simp only [runChosen, hstale, hfetch, hi, mapNext, Bool.false_eq_true, if_false]

@[simp] theorem State.putOff_nil (s : State) : s.putOff [] = s := rfl

/-- The first subset of a partition's tries that issues ends them; one that stalls is passed over (R127, R129). -/
theorem runTries_cons {c : Nat} {x : Try} {rest : List Try} {t : State} (hready : s.stillReady c x = true)
    (hrun : runChosen (s.choose c x) = .next t) :
    runTries c [] (x :: rest) s = if t.sel.stalled then runTries c [] rest t else .next t := by
  simp only [runTries, hready, State.putOff_nil, hrun, Bool.not_true, Bool.false_eq_true, if_false]

theorem step_of_issue {c q : Nat} (hmove : s.nextMove = (u, .issue c q)) (hpower : u.hub.power = .on) : step s = runIssue c q [] [] u := by
  simp only [step, hmove, hpower, bne_self_eq_false, Bool.false_and, Bool.false_eq_true, if_false]

theorem step_of_event {e : Instr} (hmove : s.nextMove = (u, .event e)) (he : e.opFn = none)
    (hpower : u.hub.power = .on ∨ e.unpowered = true) : step s = runMove (.event e) u := by
  have hon : (u.hub.power != .on && !(Move.event e).unpowered) = false := by
    obtain h | h := hpower <;> simp [h, Move.unpowered]
  simp only [step, hmove, hon, he, Option.isSome_none, Bool.false_eq_true, if_false]

theorem State.nextMove_of_agenda {m : Move} {rest : List Move} (h : s.agenda = m :: rest) (hb : s.before m = none) :
    s.nextMove = ({ s with agenda := rest }, m) := by
  simp only [nextMove, h, hb]

/-- What is overdue comes first, where the agenda does not name it itself (R137). -/
theorem State.nextMove_of_overdue {e : Instr} (h : s.overdue = some e) (ha : ∀ m rest, s.agenda = m :: rest → m ≠ .event e) :
    s.nextMove = (s, .event e) := by
  unfold nextMove
  split
  · rename_i m rest hm
    have hb : s.before m = some (.event e) := by
      simp only [before, h, beq_iff_eq, if_neg (ha m rest hm)]
    simp only [hb]
  · simp only [h]

/-- Settles O57. -/
theorem stepRunsDecoded : Obligations.StepRunsDecoded := by
  unfold Obligations.StepRunsDecoded
  refine ⟨?_, fun s u e hmove he hpower => step_of_event hmove he hpower,
    fun s => ⟨fun m rest h hb => State.nextMove_of_agenda h hb, fun e h ha => State.nextMove_of_overdue h ha⟩⟩
  intro s u w c q n i x rest e hmove hpower r v htries hready hstale hfence hcanon halign hpage hlen hblock hdec a hrun
  have hchosen := runChosen_of_fetch hstale (State.fetch_of_decode hfence hcanon halign hpage hlen hblock hdec) hrun
  have hstep : step s = runTries c [] (x :: rest) r := by
    rw [step_of_issue hmove hpower, ← htries]
    rfl
  rw [hstep, runTries_cons hready hchosen]
  exact ⟨fun h => by simp only [h, Bool.false_eq_true, if_false], fun h => by simp only [h, if_true]⟩

end Sys2Proof.Machine

section
/-! Instruction frames. `bk.wait` does more than the frame of a core-local instruction admits: before it answers, its die takes in the
writes that the completed bank commands have seen (`State.absorb`, R312 and R378). A store of another die, in flight to that home and
covered by the bundle's bank clock, is therefore performed by the instruction, and memory changes under it. -/

namespace Sys2Proof.Machine

/-- One byte, stored by die 1 and on its way to its home on die 0, in the current slot of domain 0. -/
def coveredWrite : Delivery :=
  { external := false, src := 1, blk := 1, thr := 0, target := 0, pa := 0x100, bytes := [1], stamp := [0, 1, 0, 0, 0, 0], inc := 0, waitSeq := none
    poison := false, va := none, pc := 0 }

/-- The block of one thread on die 0, about to issue at its entry, whose bank commands have seen what die 1 has stored. -/
def awaitingBank : State :=
  let s := ((State.reset.withFetchWord 64 0).setClock 1 coveredWrite.stamp).modHub fun h => { h with inflight := [coveredWrite] }
  { s.modBlk 0 fun b => b.modBundle 0 fun u => { u with bankSeen := coveredWrite.stamp } with
    sel := { blk := 0, ctx := .home 0, pc := 0x400000, act := [0] } }

/-- `bk.wait s4`, in every lane. -/
def bankWait : Opnds := { g := { neg := false, p := 7 }, ext := .e64, d := .s 4, a := .null, b := .null, c := .null }

/-- The instruction is issued at once. -/
theorem awaitingBank_ready : awaitingBank.ready (.bkWait bankWait) = true ∧ awaitingBank.cb.state.issues = true := by decide +kernel

/-- A byte of memory in the state that an instruction ends in. -/
def byteAfter (pa : Nat) : Host.Outcome State Fault Refusal → Option Byte
  | .next t => some (t.mem.byte pa)
  | _ => none

/-- The write in flight has reached its home. -/
theorem bankWait_performs_coveredWrite : byteAfter coveredWrite.pa (exec (.bkWait bankWait) awaitingBank) = some 1 := by decide +kernel

theorem awaitingBank_byte : awaitingBank.mem.byte coveredWrite.pa = 0 := by decide +kernel

/-- Refutes O52: `bk.wait` has its die take in a covered write in flight, and a byte of memory changes. -/
theorem not_instructionFrames : ¬ Obligations.InstructionFrames := by
  unfold Obligations.InstructionFrames
  intro h
  obtain ⟨hready, hissues⟩ := awaitingBank_ready
  obtain ⟨t, ht, hleaves⟩ := h awaitingBank (.bkWait bankWait) bankWait 1 false false rfl hready hissues
  have hafter := bankWait_performs_coveredWrite
  rw [ht, byteAfter, hleaves.mem, awaitingBank_byte] at hafter
  exact absurd hafter (by decide)

end Sys2Proof.Machine
end

section
/-! What the lanes of an issue share: `nop`, `lred`, `cvt.nfb` and `iaddc` compute as other instructions do, though they write or raise in
another order or not at all; and the writes of formats and flags (R27, R79, R89, R91, R92, R158). -/

namespace Sys2Proof.Machine

/-! ### States that differ in the interval journal alone -/

theorem Block.keeps.symm {b c : Block} (h : b.keeps c) : c.keeps b := by
  unfold Block.keeps at h ⊢
  rw [h]

theorem Block.keeps.trans {b c d : Block} (h : b.keeps c) (g : c.keeps d) : b.keeps d := by
  unfold Block.keeps at h g ⊢
  rw [g, h]

namespace State

variable {s t u : State} {x : Opnds} {n : Nat}

theorem within.symm (h : s.within t) : t.within s :=
  ⟨h.sel.symm, h.mem.symm, h.poison.symm, h.cores.symm, h.parts.symm, h.clusters.symm, h.dies.symm, h.hub.symm, h.grids.symm,
    fun k hk => (h.other k (h.sel ▸ hk)).symm⟩

/-- The same state, but for the interval journal of the issuing block (R145), which records register rows in the order of their writes. -/
structure alike (t u : State) : Prop where
  within : t.within u
  thr : ∀ l, u.cb.thr l = t.cb.thr l
  length : u.cb.threads.length = t.cb.threads.length
  bundles : u.cb.bundles = t.cb.bundles
  drawn : u.cb.drawn = t.cb.drawn
  keeps : t.cb.keeps u.cb

theorem alike.symm (h : t.alike u) : u.alike t :=
  ⟨h.within.symm, fun l => (h.thr l).symm, h.length.symm, h.bundles.symm, h.drawn.symm, h.keeps.symm⟩

theorem alike.bundle (h : t.alike u) (k : Nat) : u.cb.bundle k = t.cb.bundle k := by simp only [Block.bundle, h.bundles]

theorem alike.sfile (h : t.alike u) : u.sfile = t.sfile := by simp only [State.sfile, h.within.sel, h.bundle, h.drawn]

theorem alike.sbad (h : t.alike u) : u.sbad = t.sbad := by simp only [State.sbad, h.within.sel, h.bundle, h.drawn]

theorem alike.sreg (h : t.alike u) (k : Nat) : u.sreg k = t.sreg k := by simp only [State.sreg, h.sfile]

theorem alike.keepsOutside (h : t.alike u) (ht : s.keepsOutside t) : s.keepsOutside u := by
  obtain ⟨hmem, hpoison, hcores, hclusters, hdies, hhub, hgrids, hsel, hblk, hpart⟩ := ht
  have w := h.within
  have hp : ∀ p, u.part p = t.part p := fun p => by simp only [part, w.parts]
  refine ⟨fun a => by rw [w.mem, hmem], w.poison.trans hpoison, w.cores.trans hcores, w.clusters.trans hclusters, w.dies.trans hdies,
    w.hub.trans hhub, w.grids.trans hgrids, w.sel.trans hsel, fun k hk => ?_, fun p => ?_⟩
  · rw [w.other k (by rwa [hsel]), hblk k hk]
  · rw [hp]; exact hpart p

/-- What an issue has computed does not show in the journal. -/
theorem alike.computed {f : Nat → Nat × BitVec 6} (h : t.alike u) (ht : s.computed t x n f) : s.computed u x n f := by
  obtain ⟨hholds, hflags, hmoves, hout, hblock, hlanes, hscalars⟩ := ht
  refine ⟨?_, ?_, ?_, h.keepsOutside hout, hblock.trans h.keeps, ?_, ?_⟩
  · simpa only [holds, h.thr, h.sreg] using hholds
  · simpa only [flagsRise, h.thr] using hflags
  · simpa only [movesOn, h.thr] using hmoves
  · simpa only [keepsLanes, h.thr, h.length] using hlanes
  · simpa only [keepsScalars, h.sreg, h.sbad, h.sfile, h.bundle, h.drawn] using hscalars

/-! ### Writes and flags that come to the same -/

theorem flagLanes_length (s : State) (fs : List (Nat × BitVec 6)) : (s.flagLanes fs).cb.threads.length = s.cb.threads.length := by
  simp only [flagLanes, cb_modCb]
  generalize s.cb = b
  induction fs generalizing b with
  | nil => rfl
  | cons e fs ih =>
    rw [List.foldl_cons, ih]
    split
    · rfl
    · exact Block.modThr_length _ _ _

theorem flagLanes_bundles (s : State) (fs : List (Nat × BitVec 6)) : (s.flagLanes fs).cb.bundles = s.cb.bundles := by rw [flagLanes_cb]

theorem flagLanes_drawn (s : State) (fs : List (Nat × BitVec 6)) : (s.flagLanes fs).cb.drawn = s.cb.drawn := by rw [flagLanes_cb]

theorem flagLanes_keeps (s : State) (fs : List (Nat × BitVec 6)) : s.cb.keeps (s.flagLanes fs).cb := by rw [flagLanes_cb]; rfl

/-- Flags that are all clear change nothing. -/
theorem alike_flagLanes_zero (s : State) (L : List Nat) (hL : L.Nodup) : s.alike (s.flagLanes (L.map fun l => (l, 0))) where
  within := s.within_flagLanes _
  thr l := by rw [flagLanes_thr s L hL fun _ => 0]; simp [Thread.flag]
  length := s.flagLanes_length _
  bundles := s.flagLanes_bundles _
  drawn := s.flagLanes_drawn _
  keeps := s.flagLanes_keeps _

/-- After a lane's flags, those of lanes that raise none change nothing. -/
theorem flagLanes_cons_zero (s : State) (e : Nat × BitVec 6) (fs : List (Nat × BitVec 6)) (h : ∀ f ∈ fs, f.2 = 0) :
    s.flagLanes (e :: fs) = s.flagLanes [e] := by
  have hskip : ∀ b : Block, fs.foldl (fun b f => if f.2 = 0 then b else b.modThr f.1 fun t => t.flag f.2) b = b := by
    induction fs with
    | nil => exact fun _ => rfl
    | cons f fs ih =>
      intro b
      rw [List.foldl_cons, if_pos (h f (by simp)), ih fun g hg => h g (by simp [hg])]
  simp only [flagLanes, List.foldl_cons, List.foldl_nil, hskip]

/-- A destination of the vector file leaves every scalar file as it was. -/
theorem write_files_of_vector (s : State) {d : Dst} (hd : ∀ m, d ≠ .s m) (n : Nat) (vals : List (Nat × Nat)) :
    (s.write d n vals).cb.bundles = s.cb.bundles ∧ (s.write d n vals).cb.drawn = s.cb.drawn := by
  obtain h | ⟨m, _, hm, _⟩ := s.write_files d n vals
  · exact h
  · exact absurd hm (hd m)

/-- The lanes' values may be written to a vector destination in any order. -/
theorem alike_write_of_same_lanes (s : State) {d : Dst} (hd : ∀ m, d ≠ .s m) (n : Nat) {L M : List Nat} (hL : L.Nodup) (hM : M.Nodup)
    (hLM : ∀ l, l ∈ M ↔ l ∈ L) (h : Nat → Nat) :
    (s.write d n (L.map fun l => (l, h l))).alike (s.write d n (M.map fun l => (l, h l))) where
  within := (s.within_write _ _ _).symm.trans (s.within_write _ _ _)
  thr l := by rw [write_thr s d n M hM, write_thr s d n L hL]; simp only [hLM]
  length := by rw [write_length, write_length]
  bundles := by rw [(s.write_files_of_vector hd n _).1, (s.write_files_of_vector hd n _).1]
  drawn := by rw [(s.write_files_of_vector hd n _).2, (s.write_files_of_vector hd n _).2]
  keeps := (s.write_cb _ _ _).symm.trans (s.write_cb _ _ _)

/-- Flags may be raised in any order. -/
theorem alike.flagLanes_of_same_lanes (h : t.alike u) {L M : List Nat} (hL : L.Nodup) (hM : M.Nodup) (hLM : ∀ l, l ∈ M ↔ l ∈ L)
    (f : Nat → BitVec 6) : (t.flagLanes (L.map fun l => (l, f l))).alike (u.flagLanes (M.map fun l => (l, f l))) where
  within := ((t.within_flagLanes _).symm.trans h.within).trans (u.within_flagLanes _)
  thr l := by rw [flagLanes_thr u M hM, flagLanes_thr t L hL]; simp only [hLM, h.thr, h.length]
  length := by rw [flagLanes_length, flagLanes_length, h.length]
  bundles := by rw [flagLanes_bundles, flagLanes_bundles, h.bundles]
  drawn := by rw [flagLanes_drawn, flagLanes_drawn, h.drawn]
  keeps := ((t.flagLanes_keeps _).symm.trans h.keeps).trans (u.flagLanes_keeps _)

/-- A write in no lane changes nothing. -/
theorem alike_write_nil (s : State) (d : Dst) (n : Nat) : s.alike (s.write d n []) where
  within := s.within_write _ _ _
  thr l := by simpa using write_thr s d n [] List.nodup_nil (fun _ => 0) l
  length := s.write_length _ _ _
  bundles := by
    obtain h | ⟨_, _, _, h, _⟩ := s.write_files d n []
    · exact h.1
    · cases h
  drawn := by
    obtain h | ⟨_, _, _, h, _⟩ := s.write_files d n []
    · exact h.2
    · cases h
  keeps := s.write_cb _ _ _

/-! ### Instructions that compute -/

theorem ready_selOk {i : Instr} (h : s.ready i = true) : s.selOk = true := by
  unfold ready at h
  split at h
  · cases h
  · simp only [Bool.and_eq_true] at h
    obtain ⟨⟨⟨⟨⟨⟨⟨hsel, _⟩, _⟩, _⟩, _⟩, _⟩, _⟩, _⟩ := h
    exact hsel

/-- An issue that advances and writes, and raises no flags. -/
theorem computes_unflagged (hsel : s.selOk = true) (hctx : s.ctxOk = true) (x : Opnds) (n : Nat) (f : Nat → Nat) :
    s.computed ((s.begun.advance x.ext.bytes).write x.d n ((s.exe x.g).map fun l => (l, f l))) x n fun l => (f l, 0) :=
  (alike_flagLanes_zero _ _ (exe_nodup hsel x.g)).symm.computed (computes hsel hctx x n fun l => (f l, 0))

/-- An issue that advances and has no destination. -/
theorem computes_advance (hsel : s.selOk = true) (hctx : s.ctxOk = true) (x : Opnds) (n : Nat) :
    s.computed (s.begun.advance x.ext.bytes) { x with d := .discard } n fun _ => (0, 0) :=
  computes_unflagged hsel hctx { x with d := .discard } n fun _ => 0

/-- An issue that no lane executes advances, and that is all that it could compute. -/
theorem computes_of_exe_nil (hsel : s.selOk = true) (hctx : s.ctxOk = true) (hexe : s.exe x.g = []) (n : Nat) (f : Nat → Nat × BitVec 6) :
    s.computed (s.begun.advance x.ext.bytes) x n f := by
  have h := computes hsel hctx x n f
  rw [hexe] at h
  exact ((alike_write_nil _ x.d n).symm.computed ((alike_flagLanes_zero _ [] List.nodup_nil).symm.computed h))

/-! ### `nop`, `lred` and `iaddc` -/

theorem nop_computes (hctx : s.ctxOk = true) (h : s.ready (.nop x) = true) :
    ∃ t, exec (.nop x) s = .next t ∧ s.computed t { x with d := .discard } 1 fun _ => (0, 0) :=
  ⟨_, (exec_nop s x).trans (issue_ready rfl h _), computes_advance (ready_selOk h) hctx x 1⟩

/-- The sum of `iaddc` in a lane, with its carry in (R79). -/
def carrySum (s : State) (x : Opnds) (ty : ITy) (cp : BitVec 3) (l : Nat) : Nat :=
  s.src x.ext ty.op l x.a + s.src x.ext ty.op l x.b + (if (s.cb.thr l).pred cp then 1 else 0)

theorem iaddc_computes (hctx : s.ctxOk = true) {ty : ITy} {cp : BitVec 3} (h : s.ready (.iaddc x ty cp) = true) :
    ∃ t u, exec (.iaddc x ty cp) s = .next t ∧ s.computed u x ty.regs (fun l => (s.carrySum x ty cp l % 2 ^ ty.bits, 0))
      ∧ t = u.write (.p cp) 1 ((s.exe x.g).map fun l => (l, s.carrySum x ty cp l / 2 ^ ty.bits)) := by
  refine ⟨_, _, (exec_iaddc s x ty cp).trans (issue_ready rfl h _), computes_unflagged (ready_selOk h) hctx x ty.regs fun l => s.carrySum x ty cp l % 2 ^ ty.bits, ?_⟩
  simp only [begun_exe, begun_src, begun_cb, List.map_map, Function.comp_def, carrySum]

theorem begun_src_eq (s : State) : s.begun.src = s.src := by
  funext e ty l a
  exact s.begun_src e ty l a

/-- The operand type of `lred` (R158). -/
def redOp (op : RedOp) (ty : ITy) : OpTy :=
  match op with
  | .fadd | .fmin | .fmax => .fp .f32
  | _ => ty.op

/-- The value and flags of `lred` over the executing lanes (R158). -/
def lredOver (s : State) (x : Opnds) (op : RedOp) (ty : ITy) : Nat × Fp.Flags :=
  lredVal op ty ((s.exe x.g).map fun u => s.src x.ext (redOp op ty) u x.a)

/-- The effect of `lred` where a lane executes. -/
theorem execLred_of_cons {op : RedOp} {ty : ITy} (h : s.ready (.lred x op ty) = true) {l : Nat} {ls : List Nat} (hexe : s.exe x.g = l :: ls) :
    exec (.lred x op ty) s = .next (((s.begun.advance x.ext.bytes).write x.d ty.regs
      ((s.exe x.g).map fun u => (u, (s.lredOver x op ty).1))).flagLanes [(l, (s.lredOver x op ty).2)]) := by
  rw [exec_lred, execLred.eq_def, issue_ready rfl h, begun_exe, begun_src_eq, lredOver, hexe]
  rfl

theorem lred_computes (hctx : s.ctxOk = true) {op : RedOp} {ty : ITy} (h : s.ready (.lred x op ty) = true) :
    ∃ t, exec (.lred x op ty) s = .next t ∧ s.computed t x ty.regs fun l =>
      ((s.lredOver x op ty).1, if s.first x.g = some l then (s.lredOver x op ty).2 else 0) := by
  have hsel := ready_selOk h
  cases hexe : s.exe x.g with
  | nil =>
    refine ⟨s.begun.advance x.ext.bytes, ?_, computes_of_exe_nil hsel hctx hexe _ _⟩
    rw [exec_lred, execLred.eq_def, issue_ready rfl h, begun_exe, hexe]
  | cons l ls =>
    refine ⟨_, execLred_of_cons h hexe, ?_⟩
    have hnodup : l ∉ ls := (List.nodup_cons.1 (hexe ▸ exe_nodup hsel x.g)).1
    have hcomp := computes hsel hctx x ty.regs fun l => ((s.lredOver x op ty).1, if s.first x.g = some l then (s.lredOver x op ty).2 else 0)
    have hfirst : s.first x.g = some l := by rw [first, hexe]; rfl
    have hzero : ∀ f ∈ ls.map (fun u => (u, if s.first x.g = some u then (s.lredOver x op ty).2 else 0)), f.2 = 0 := by
      intro f hf
      obtain ⟨u, hu, rfl⟩ := List.mem_map.1 hf
      have hne : l ≠ u := fun e => hnodup (e ▸ hu)
      simp [hfirst, hne]
    have hlanes : (s.exe x.g).map (fun u => (u, if s.first x.g = some u then (s.lredOver x op ty).2 else 0)) =
        (l, (s.lredOver x op ty).2) :: ls.map fun u => (u, if s.first x.g = some u then (s.lredOver x op ty).2 else 0) := by
      rw [hexe, List.map_cons, if_pos hfirst]
    rwa [hlanes, flagLanes_cons_zero _ _ _ hzero] at hcomp

/-! ### `cvt.nfb` (R89) -/

theorem nodup_eraseDups : ∀ ks : List Nat, ks.eraseDups.Nodup
  | [] => List.nodup_nil
  | k :: ks => by
    rw [List.eraseDups_cons, List.nodup_cons]
    refine ⟨fun h => ?_, nodup_eraseDups _⟩
    simpa using List.mem_eraseDups.1 h
termination_by ks => ks.length
decreasing_by exact Nat.lt_succ_of_le (List.length_filter_le _ _)

/-- Lanes taken block by block: those of the first lane's block first. -/
def byBlocks (block : Nat → Nat) (ls : List Nat) : List Nat :=
  (ls.map block).eraseDups.flatMap fun k => ls.filter fun l => block l == k

theorem mem_byBlocks {block : Nat → Nat} {ls : List Nat} {l : Nat} : l ∈ byBlocks block ls ↔ l ∈ ls := by
  simp only [byBlocks, List.mem_flatMap, List.mem_eraseDups, List.mem_map, List.mem_filter, beq_iff_eq]
  constructor
  · rintro ⟨_, _, hl, _⟩
    exact hl
  · exact fun hl => ⟨block l, ⟨l, hl, rfl⟩, hl, rfl⟩

theorem nodup_byBlocks (block : Nat → Nat) {ls : List Nat} (h : ls.Nodup) : (byBlocks block ls).Nodup := by
  refine List.nodup_flatMap.2 ⟨fun k _ => h.filter _, (nodup_eraseDups _).imp fun {j k} hjk l hj hk => hjk ?_⟩
  simp only [List.mem_filter, beq_iff_eq] at hj hk
  exact hj.2.symm.trans hk.2

/-- The home lanes' block of a lane. -/
def blockOf (b : BlkLen) (l : Nat) : Nat := homeLane l / blkLen b

/-- The executing lanes of a lane's block. -/
def mates (s : State) (x : Opnds) (b : BlkLen) (l : Nat) : List Nat := (s.exe x.g).filter fun u => blockOf b u == blockOf b l

/-- A lane's element. -/
def nfbVal (s : State) (x : Opnds) (ty : FFmt) (l : Nat) : Fp.Val := Fp.unpack ty (s.src x.ext (.fp (ffmtTy ty)) l x.a)

/-- The scale of some lanes, and how many trials it took. -/
def nfbScale (s : State) (x : Opnds) (fr : BitVec 4) (ty : FFmt) (ls : List Nat) : Nat × Nat :=
  Nf.chooseScale (s.freg fr.toNat) (ls.map (s.nfbVal x ty)) (min (s.src x.ext .b32 ((s.exe x.g).headD 0) x.b) 255)

/-- What `cvt.nfb` computes in a lane, from the lanes of its block. -/
def nfbLane (s : State) (x : Opnds) (fr : BitVec 4) (ty : FFmt) (ls : List Nat) (l : Nat) : Nat × Fp.Flags :=
  let fm := Nf.fmtOf (s.freg fr.toNat)
  let scale := s.nfbScale x fr ty ls
  let tag := (scale.1 + 256 * scale.2) * 65536
  if scale.1 = 255 then (fm.nanOrZero + tag, if ls.head? = some l then Fp.inv else 0)
  else ((Nf.encode fm (s.nfbVal x ty l) (127 - (scale.1 : Int))).1 + tag, (Nf.encode fm (s.nfbVal x ty l) (127 - (scale.1 : Int))).2)

/-- The results of `cvt.nfb`, in the order in which it takes the lanes. -/
def nfbResults (s : State) (x : Opnds) (b : BlkLen) (fr : BitVec 4) (ty : FFmt) : List (Nat × Nat × Fp.Flags) :=
  (byBlocks (blockOf b) (s.exe x.g)).map fun l => (l, s.nfbLane x fr ty (s.mates x b l) l)

/-- Block by block, each lane's result is that of its own block. -/
theorem nfbResults_eq_flatMap (s : State) (x : Opnds) (b : BlkLen) (fr : BitVec 4) (ty : FFmt) :
    s.nfbResults x b fr ty = ((s.exe x.g).map (blockOf b)).eraseDups.flatMap fun k =>
      let ls := (s.exe x.g).filter fun l => blockOf b l == k
      ls.map fun l => (l, s.nfbLane x fr ty ls l) := by
  rw [nfbResults, byBlocks, List.map_flatMap]
  refine List.flatMap_congr fun k _ => List.map_congr_left fun l hl => ?_
  have hk : blockOf b l = k := by simpa using (List.mem_filter.1 hl).2
  rw [mates, hk]

theorem begun_freg_eq (s : State) : s.begun.freg = s.freg := funext s.begun_freg

/-- A lane's result as the instruction makes it. -/
theorem nfbLane_pair (s : State) (x : Opnds) (fr : BitVec 4) (ty : FFmt) (ls : List Nat) (l : Nat) :
    (let fm := Nf.fmtOf (s.freg fr.toNat)
      let p := s.nfbScale x fr ty ls
      let tag := (p.1 + 256 * p.2) * 65536
      if p.1 = 255 then (l, fm.nanOrZero + tag, if some l == ls.head? then Fp.inv else 0)
      else
        let e := Nf.encode fm (s.nfbVal x ty l) (127 - (p.1 : Int))
        (l, e.1 + tag, e.2)) = (l, s.nfbLane x fr ty ls l) := by
  simp only [nfbLane, beq_iff_eq, eq_comm (a := some l)]
  split <;> rfl

theorem exec_cvtNfb_of_ready {b : BlkLen} {fr : BitVec 4} {ty : FFmt} (h : s.ready (.cvtNfb x b fr ty) = true) :
    exec (.cvtNfb x b fr ty) s = .next (((s.begun.advance x.ext.bytes).write x.d 1
      ((s.nfbResults x b fr ty).map fun r => (r.1, r.2.1))).flagLanes ((s.nfbResults x b fr ty).map fun r => (r.1, r.2.2))) := by
  rw [exec_cvtNfb, execCvtNfb, issue_ready rfl h, nfbResults_eq_flatMap, begun_exe, begun_src_eq, begun_freg_eq]
  refine congrArg (fun rs : List (Nat × Nat × Fp.Flags) => Host.Outcome.next (((s.begun.advance x.ext.bytes).write x.d 1
    (rs.map fun r => (r.1, r.2.1))).flagLanes (rs.map fun r => (r.1, r.2.2)))) ?_
  refine List.flatMap_congr fun k _ => ?_
  refine List.map_congr_left fun l _ => ?_
  exact s.nfbLane_pair x fr ty _ l

theorem okDst_of_wf {i : Instr} (hx : i.opnds? = some x) (h : i.wf = true) : i.sig.d.okDst x.d = true := by
  obtain ⟨_, hok⟩ := Bool.and_eq_true_iff.1 h
  simp only [Instr.operandsOk, hx, Bool.and_eq_true] at hok
  obtain ⟨⟨⟨⟨hdst, _⟩, _⟩, _⟩, _⟩ := hok
  exact hdst

/-- The destination is a v register, or discard. -/
theorem cvtNfb_dst_of_wf {b : BlkLen} {fr : BitVec 4} {ty : FFmt} (h : (Instr.cvtNfb x b fr ty).wf = true) (m : BitVec 6) : x.d ≠ .s m := by
  intro hd
  have hdst : (Kind.vecNull 1).okDst x.d = true := okDst_of_wf rfl h
  rw [hd] at hdst
  cases hdst

theorem cvtNfb_computes (hctx : s.ctxOk = true) {b : BlkLen} {fr : BitVec 4} {ty : FFmt} (h : s.ready (.cvtNfb x b fr ty) = true)
    (hwf : (Instr.cvtNfb x b fr ty).wf = true) :
    ∃ t, exec (.cvtNfb x b fr ty) s = .next t ∧ s.computed t x 1 fun l => s.nfbLane x fr ty (s.mates x b l) l := by
  have hsel := ready_selOk h
  have hL := exe_nodup hsel x.g
  have hM := nodup_byBlocks (blockOf b) hL
  refine ⟨_, exec_cvtNfb_of_ready h, ?_⟩
  simp only [nfbResults, List.map_map, Function.comp_def]
  exact ((alike_write_of_same_lanes _ (cvtNfb_dst_of_wf hwf) 1 hL hM (fun _ => mem_byBlocks) _).flagLanes_of_same_lanes hL hM
    (fun _ => mem_byBlocks) _).computed (computes hsel hctx x 1 fun l => s.nfbLane x fr ty (s.mates x b l) l)

/-! ### `fmt.set` (R91) -/

theorem within_setFreg (s : State) (k : Nat) (w : Half) : s.within (s.setFreg k w) := by
  unfold setFreg
  cases s.sel.ctx with
  | home _ => exact s.within_modCb _
  | drawn _ => exact s.within_modCb _

theorem setFreg_thr (s : State) (k : Nat) (w : Half) (l : Nat) : (s.setFreg k w).cb.thr l = s.cb.thr l := by
  unfold setFreg
  cases s.sel.ctx with
  | home b => simp
  | drawn j => simp only [cb_modCb, Block.modDrawn]; split <;> rfl

/-- A format register is no scalar register. -/
theorem setFreg_sreg (s : State) (k : Nat) (w : Half) (j : Nat) : (s.setFreg k w).sreg j = s.sreg j := by
  have hsel : (s.setFreg k w).sel = s.sel := (s.within_setFreg k w).sel
  have hfile : (s.setFreg k w).sfile = s.sfile := by
    simp only [sfile, hsel]
    unfold setFreg
    cases s.sel.ctx with
    | home b => simp only [cb_modCb, Block.bundle_modBundle]; split <;> rfl
    | drawn i =>
      simp only [cb_modCb, Block.modDrawn]
      cases hd : Sparse.look s.cb.drawn i with
      | none => simp only [hd]
      | some d => simp
  simp only [sreg, hfile]

theorem setFreg_freg (s : State) (hctx : s.ctxOk = true) (k : Nat) (w : Half) (j : Nat) :
    (s.setFreg k w).freg j = if j = k then w else s.freg j := by
  have hsel : (s.setFreg k w).sel = s.sel := (s.within_setFreg k w).sel
  have hfile : (s.setFreg k w).ffile = Sparse.putOr s.ffile k w 0 := by
    simp only [ffile, hsel]
    unfold setFreg
    unfold ctxOk at hctx
    cases hc : s.sel.ctx with
    | home b =>
      rw [hc] at hctx
      simp only [decide_eq_true_eq] at hctx
      simp [Block.bundle_modBundle, hctx]
    | drawn i =>
      rw [hc] at hctx
      obtain ⟨d, hd⟩ := Option.isSome_iff_exists.1 hctx
      simp [Block.modDrawn, hd]
  simp only [freg, hfile, Sparse.getOr_putOr]

theorem advance_ctxOk (s : State) (len : Nat) : (s.begun.advance len).ctxOk = s.ctxOk := by simp [ctxOk, advance]

theorem advance_freg (s : State) (len k : Nat) : (s.begun.advance len).freg k = s.freg k := by simp [freg, ffile, advance]

theorem advance_sreg (s : State) (len k : Nat) : (s.begun.advance len).sreg k = s.sreg k := by simp [sreg, sfile, advance]

/-- The advance keeps the registers of every thread. -/
theorem advance_thr_regs (s : State) (len l : Nat) :
    ((s.begun.advance len).cb.thr l).v = (s.cb.thr l).v ∧ ((s.begun.advance len).cb.thr l).p = (s.cb.thr l).p
      ∧ ((s.begun.advance len).cb.thr l).nflags = (s.cb.thr l).nflags := by
  rw [advance_thr, begun_cb]
  split <;> exact ⟨rfl, rfl, rfl⟩

theorem advance_movesOn (hsel : s.selOk = true) : s.movesOn (s.begun.advance x.ext.bytes) x := by
  intro l hl
  rw [advance_thr, begun_sel, begun_cb, if_pos ⟨hl, act_lt hsel hl⟩]
  exact ⟨rfl, rfl⟩

/-- The effect of `fmt.set` where a lane executes. -/
theorem exec_fmtSet_of_first {f : BitVec 4} {l : Nat} (h : s.ready (.fmtSet x f) = true) (hl : s.first x.g = some l) :
    exec (.fmtSet x f) s = .next ((s.begun.advance x.ext.bytes).setFreg f.toNat (.ofNat 16 (s.src x.ext .b32 l x.a))) := by
  rw [exec_fmtSet, execFmtSet, issue_ready rfl h, begun_first, hl, begun_src_eq]

theorem fmtSet_writes {f : BitVec 4} {l : Nat} (h : s.ready (.fmtSet x f) = true) (hctx : s.ctxOk = true) (hl : s.first x.g = some l) :
    ∃ t, exec (.fmtSet x f) s = .next t ∧ t.freg f.toNat = BitVec.ofNat 16 (s.src x.ext .b32 l x.a)
      ∧ (∀ k, k ≠ f.toNat → t.freg k = s.freg k) ∧ (∀ k, t.sreg k = s.sreg k) ∧ s.movesOn t x ∧ s.keepsOutside t
      ∧ ∀ l, (t.cb.thr l).v = (s.cb.thr l).v ∧ (t.cb.thr l).p = (s.cb.thr l).p ∧ (t.cb.thr l).nflags = (s.cb.thr l).nflags := by
  have hadv : (s.begun.advance x.ext.bytes).ctxOk = true := (s.advance_ctxOk _).trans hctx
  refine ⟨_, exec_fmtSet_of_first h hl, ?_, fun k hk => ?_, fun k => ?_, fun k hk => ?_, ?_, fun k => ?_⟩
  · rw [setFreg_freg _ hadv, if_pos rfl]
  · rw [setFreg_freg _ hadv, if_neg hk, advance_freg]
  · rw [setFreg_sreg, advance_sreg]
  · rw [setFreg_thr]
    exact advance_movesOn (ready_selOk h) k hk
  · exact ((within_advance _ _).trans (within_setFreg _ _ _)).keepsOutside
  · rw [setFreg_thr]
    exact s.advance_thr_regs _ k

/-! ### `flags.clr` (R92) -/

/-- Numeric flags of lanes are cleared. -/
def clearFlags (s : State) (L : List Nat) (m : Nat → BitVec 6) : State :=
  s.modCb fun b => L.foldl (fun b l => b.modThr l fun t => { t with nflags := t.nflags &&& ~~~(m l) }) b

theorem clearFlags_thr (s : State) {L : List Nat} (hL : L.Nodup) (m : Nat → BitVec 6) (l : Nat) :
    (s.clearFlags L m).cb.thr l = if l ∈ L ∧ l < s.cb.threads.length then
      { s.cb.thr l with nflags := (s.cb.thr l).nflags &&& ~~~(m l) } else s.cb.thr l := by
  rw [clearFlags, cb_modCb]
  exact Block.foldl_modThr_thr s.cb L hL (fun l t => { t with nflags := t.nflags &&& ~~~(m l) }) l

theorem exec_flagsClr_of_ready (h : s.ready (.flagsClr x) = true) :
    exec (.flagsClr x) s = .next ((s.begun.advance x.ext.bytes).clearFlags (s.exe x.g) fun l => .ofNat 6 (s.src x.ext .b32 l x.a)) := by
  rw [exec_flagsClr, execFlagsClr, issue_ready rfl h, begun_exe, begun_src_eq]
  simp only [List.foldl_map, clearFlags]

theorem flagsClr_clears (h : s.ready (.flagsClr x) = true) :
    ∃ t, exec (.flagsClr x) s = .next t
      ∧ (∀ l ∈ s.exe x.g, (t.cb.thr l).nflags = (s.cb.thr l).nflags &&& ~~~(BitVec.ofNat 6 (s.src x.ext .b32 l x.a)))
      ∧ (∀ l, l ∉ s.exe x.g → (t.cb.thr l).nflags = (s.cb.thr l).nflags) ∧ s.movesOn t x ∧ s.keepsOutside t
      ∧ ∀ l, (t.cb.thr l).v = (s.cb.thr l).v ∧ (t.cb.thr l).p = (s.cb.thr l).p := by
  have hsel := ready_selOk h
  have hthr := (s.begun.advance x.ext.bytes).clearFlags_thr (exe_nodup hsel x.g) fun l => .ofNat 6 (s.src x.ext .b32 l x.a)
  have hlen : (s.begun.advance x.ext.bytes).cb.threads.length = s.cb.threads.length := by simp [advance]
  have hregs := s.advance_thr_regs x.ext.bytes
  refine ⟨_, exec_flagsClr_of_ready h, fun l hl => ?_, fun l hl => ?_, fun l hl => ?_, ?_, fun l => ?_⟩
  · obtain ⟨_, _, hflags⟩ := hregs l
    rw [hthr, if_pos ⟨hl, hlen ▸ act_lt hsel (exe_sub hl)⟩, hflags]
  · obtain ⟨_, _, hflags⟩ := hregs l
    rw [hthr, if_neg fun hn => hl hn.1, hflags]
  · rw [hthr]
    have hmoves := advance_movesOn (x := x) hsel l hl
    split
    · exact hmoves
    · exact hmoves
  · exact ((within_advance _ _).trans (within_modCb _ _)).keepsOutside
  · obtain ⟨hv, hp, _⟩ := hregs l
    rw [hthr]
    split
    · exact ⟨hv, hp⟩
    · exact ⟨hv, hp⟩

end State

theorem sharedResults : SharedResults := fun _ _ hctx =>
  ⟨State.nop_computes hctx, fun _ _ => State.lred_computes hctx, fun _ _ _ => State.cvtNfb_computes hctx,
    fun _ _ => State.iaddc_computes hctx⟩

theorem formatAndFlagWrites : FormatAndFlagWrites := fun _ _ =>
  ⟨fun _ _ => State.fmtSet_writes, State.flagsClr_clears⟩

/-- Settles O5: each of the six is the advance with the writes of its lanes, whose order shows in the interval journal alone. -/
theorem sharedAndFormatResults : Obligations.SharedAndFormatResults := by
  unfold Obligations.SharedAndFormatResults
  exact ⟨sharedResults, formatAndFlagWrites⟩

end Sys2Proof.Machine
end

section
/-! The atomic step (R281) and the state after reset (R46, R279, R362, R414). -/

namespace Sys2Proof.Machine

/-! ### The atomic step (R281) -/

theorem bitAt_eq_testBit (n i : Nat) : bitAt n i = n.testBit i := by
  rw [bitAt, Nat.testBit_eq_decide_div_mod_eq]
  exact beq_eq_decide _ _

theorem readInt_signed {w : Nat} (a : BitVec w) : readInt w true a.toNat = a.toInt := by
  have hmsb : bitAt a.toNat (w - 1) = a.msb := by rw [bitAt_eq_testBit, BitVec.msb_eq_getLsbD_last, BitVec.getLsbD]
  simp only [readInt, Nat.mod_eq_of_lt a.isLt, Bool.true_and, hmsb, BitVec.toInt_eq_msb_cond]

theorem readInt_unsigned {w : Nat} (a : BitVec w) : readInt w false a.toNat = a.toNat := by
  simp [readInt, Nat.mod_eq_of_lt a.isLt]

/-- Comparison of two values under a type's sign. -/
theorem readInt_lt_iff {w : Nat} (signed : Bool) (a b : BitVec w) :
    readInt w signed a.toNat < readInt w signed b.toNat ↔ (if signed then a.slt b else a.ult b) = true := by
  cases signed with
  | true => simp [readInt_signed, BitVec.slt]
  | false => simp [readInt_unsigned, BitVec.ult]

/-- `fadd` rounds the exact sum once, to nearest even. -/
theorem atomStep_fadd (ty : ATy) (old b c : Nat) :
    atomStep ty .fadd old b c = (some (finish .f32 .rn false (Fp.add .rn (Fp.unpack .f32 old) (Fp.unpack .f32 b))).1,
      (finish .f32 .rn false (Fp.add .rn (Fp.unpack .f32 old) (Fp.unpack .f32 b))).2) := by
  simp [atomStep, finish, BitVec.or_comm]

/-- Only `fadd` has flags. -/
theorem atomStep_flags {op : AOp} (h : op ≠ .fadd) (ty : ATy) (old b c : Nat) : (atomStep ty op old b c).2 = 0 := by
  cases op with
  | fadd => exact absurd rfl h
  | add | min | max | and | or | xor | exch | cas => rfl

/-- Settles O12: the integer operations are those of the type's bit vectors, compared under its sign (`readInt_lt_iff`); `fadd` is one rounding. -/
theorem atomicSteps : Obligations.AtomicSteps := by
  unfold Obligations.AtomicSteps
  refine ⟨fun ty old b c => ⟨?add, ?min, ?max, ?and, ?or, ?xor, rfl, ?cas, fun op hop => atomStep_flags hop ..⟩,
    fun old b c => atomStep_fadd .f32 .., rfl, rfl, rfl, rfl, rfl, rfl, rfl, rfl, rfl, rfl, rfl, rfl⟩
  case add => rw [BitVec.toNat_add]; rfl
  case min => simp only [atomStep, readInt_lt_iff, apply_ite BitVec.toNat]
  case max => simp only [atomStep, readInt_lt_iff, apply_ite BitVec.toNat]
  case and => rw [BitVec.toNat_and]; rfl
  case or => rw [BitVec.toNat_or]; rfl
  case xor => rw [BitVec.toNat_xor]; rfl
  case cas => simp only [atomStep, BitVec.toNat_inj]

/-! ### Reset -/

theorem granuleOwner_reset (g : Nat) :
    State.reset.granuleOwner g = if 2 ^ 42 - 2 ^ 26 ≤ 65536 * g ∧ 65536 * g < 2 ^ 42 then 0x14 else 0x12 := by
  have hnone : Sparse.getOr State.reset.hub.owner g 0x12 = 0x12 := rfl
  simp only [State.granuleOwner, hnone, Bool.and_eq_true, decide_eq_true_eq]

/-- A table that lists nothing reads as its default everywhere. -/
theorem core_reset (c : Nat) : State.reset.core c = Core.reset := rfl

theorem die_reset (d : Nat) : State.reset.die d = Die.reset := rfl

/-- Settles O59: every table is empty at reset, so each part reads as its default. -/
theorem resetValues : Obligations.ResetValues := by
  unfold Obligations.ResetValues
  refine ⟨State.reset_mem_wf, rfl, fun _ => rfl, granuleOwner_reset, rfl, rfl, fun _ => rfl, fun _ => ⟨rfl, rfl⟩, rfl, rfl, ?dies, ?cores, ?dieReset,
    fun _ _ _ => ⟨rfl, rfl⟩, fun _ => ⟨rfl, rfl, rfl, rfl⟩⟩
  case dies =>
    intro d
    rw [die_reset]
    exact ⟨rfl, rfl, rfl, rfl, rfl, rfl, fun _ => ⟨rfl, rfl⟩⟩
  case cores =>
    intro c
    rw [core_reset]
    exact ⟨rfl, rfl, fun _ => rfl⟩
  case dieReset =>
    intro d
    exact ⟨rfl, rfl, rfl⟩

end Sys2Proof.Machine
end

section
/-! Floating-point instructions (R82 to R86): each computes, in each executing lane, its value and flags from the lane's own operands. -/

namespace Sys2Proof.Machine

namespace State

variable {s : State} {x : Opnds} {i : Instr}

/-- An instruction that computes from each lane's own operands completes with its results and changes nothing else. -/
theorem alu_computes (hctx : s.ctxOk = true) (hx : i.opnds? = some x) (h : s.ready i = true) (n : Nat) {g : Opnds → State → Nat → Nat × BitVec 6}
    {f : Nat → Nat × BitVec 6} (hg : ∀ l, g x s.begun l = f l) : ∃ t, s.alu i n g = .next t ∧ s.computed t x n f := by
  obtain rfl : g x s.begun = f := funext hg
  exact ⟨_, alu_ready hx h n g, computes (ready_selOk h) hctx x n _⟩

end State

section
variable {s : State} {x : Opnds} {i : Instr} {t : FTy} {m : FMods} (hctx : s.ctxOk = true) (hx : i.opnds? = some x) (h : s.ready i = true)
include hctx hx h

theorem fpOp1_computes (f : Fp.Val → Fp.Exact × Fp.Flags) :
    ∃ u, fpOp1 s i t m f = .next u ∧ s.computed u x 1 fun l => perElem t fun k => finish t.fmt m.rnd m.sat (f (fpArg s x t m l x.a true m.nega k)) :=
  State.alu_computes hctx hx h 1 fun l => by simp only [State.begun_src, fpArg, Bool.true_and]

theorem fpOp2_computes (f : Fp.Val → Fp.Val → Fp.Exact × Fp.Flags) :
    ∃ u, fpOp2 s i t m f = .next u ∧ s.computed u x 1 fun l => perElem t fun k => finish t.fmt m.rnd m.sat
      (f (fpArg s x t m l x.a true m.nega k) (fpArg s x t m l x.b false m.negb k)) :=
  State.alu_computes hctx hx h 1 fun l => by simp only [State.begun_src, fpArg, Bool.true_and, Bool.false_and]

theorem fpOp3_computes (f : Fp.Val → Fp.Val → Fp.Val → Fp.Exact × Fp.Flags) :
    ∃ u, fpOp3 s i t m f = .next u ∧ s.computed u x 1 fun l => perElem t fun k => finish t.fmt m.rnd m.sat
      (f (fpArg s x t m l x.a true m.nega k) (fpArg s x t m l x.b false m.negb k) (fpArg s x t m l x.c false m.negc k)) :=
  State.alu_computes hctx hx h 1 fun l => by simp only [State.begun_src, fpArg, Bool.true_and, Bool.false_and]

theorem fpFun_computes (f : FFmt → Rnd → Fp.Val → Nat × Fp.Flags) :
    ∃ u, fpFun s i t m f = .next u ∧ s.computed u x 1 fun l => perElem t fun k =>
      ((if m.sat then Fp.saturate t.fmt (f t.fmt m.rnd (fpArg s x t m l x.a true m.nega k)).1 else (f t.fmt m.rnd (fpArg s x t m l x.a true m.nega k)).1),
        (f t.fmt m.rnd (fpArg s x t m l x.a true m.nega k)).2) :=
  State.alu_computes hctx hx h 1 fun l => by simp only [State.begun_src, fpArg, Bool.true_and]

end

/-- The class, or with a predicate destination the test of the mask (R86). -/
def classResult (s : State) (x : Opnds) (t : FFmt) (l : Nat) : Nat × BitVec 6 :=
  let c := Fp.classOf t (s.src x.ext (.fp (ffmtTy t)) l x.a)
  match x.d with
  | .p _ => ((if c &&& s.src x.ext .b32 l x.b = 0 then 0 else 1), 0)
  | _ => (c, 0)

section
variable {s : State} {x : Opnds} (hctx : s.ctxOk = true)
include hctx

theorem fscale_computes {t : FTy} {m : FMods} (h : s.ready (.fscale x t m) = true) :
    ∃ u, exec (.fscale x t m) s = .next u ∧ s.computed u x 1 fun l => perElem t fun k => finish t.fmt m.rnd m.sat
      (Fp.scale (fpArg s x t m l x.a true m.nega k) (readInt 32 true (s.src x.ext .b32 l x.b))) := by
  rw [exec_fscale, execFscale]
  exact State.alu_computes hctx rfl h 1 fun l => by simp only [State.begun_src, fpArg, Bool.true_and]

theorem fdot2_computes {t : FTy} {m : FMods} (h : s.ready (.fdot2 x t m) = true) :
    ∃ u, exec (.fdot2 x t m) s = .next u ∧ s.computed u x 1 fun l => finish .f32 m.rnd m.sat
      (Fp.dot2 m.rnd (fpArg s x t m l x.a true m.nega 0) (fpArg s x t m l x.b false m.negb 0)
        (fpArg s x t m l x.a true m.nega 1) (fpArg s x t m l x.b false m.negb 1)
        (Fp.unpack .f32 (signMods .f32 false m.negc (s.src x.ext (.fp .f32) l x.c)))) := by
  rw [exec_fdot2, execFdot2]
  exact State.alu_computes hctx rfl h 1 fun l => by simp only [State.begun_src, fpArg, Bool.true_and, Bool.false_and]

theorem fcmp_computes {t : FFmt} {cc : Fcc} {sig absa : Bool} (h : s.ready (.fcmp x t cc sig absa) = true) :
    ∃ u, exec (.fcmp x t cc sig absa) s = .next u ∧ s.computed u x 1 fun l =>
      let r := Fp.cmp cc sig (Fp.unpack t (signMods t absa false (s.src x.ext (.fp (ffmtTy t)) l x.a)))
        (Fp.unpack t (signMods t absa false (s.src x.ext (.fp (ffmtTy t)) l x.b)))
      ((if r.1 then 1 else 0), r.2) := by
  rw [exec_fcmp, execFcmp.eq_def]
  exact State.alu_computes hctx rfl h 1 fun l => by simp only [State.begun_src]; rfl

theorem fclass_computes {t : FFmt} (h : s.ready (.fclass x t) = true) :
    ∃ u, exec (.fclass x t) s = .next u ∧ s.computed u x 1 (classResult s x t) := by
  rw [exec_fclass, execFclass.eq_def]
  exact State.alu_computes hctx rfl h 1 fun l => by
    simp only [State.begun_src, classResult]
    cases x.d with
    | p q => simp only [bne_iff_ne, ite_not]; rfl
    | v q | s q | j q => rfl
    | discard => rfl

end

/-- Settles O2: every form is one of four readers of operands under the modifiers, or has a lemma of its own above. -/
theorem floatResults : Obligations.FloatResults := by
  unfold Obligations.FloatResults
  intro s i x f hf h hctx
  cases i with
  | fadd y t m => cases hf; rw [exec_fadd]; exact fpOp2_computes hctx rfl h _
  | fsub y t m => cases hf; rw [exec_fsub]; exact fpOp2_computes hctx rfl h _
  | fmul y t m => cases hf; rw [exec_fmul]; exact fpOp2_computes hctx rfl h _
  | fmin y t m => cases hf; rw [exec_fmin]; exact fpOp2_computes hctx rfl h _
  | fmax y t m => cases hf; rw [exec_fmax]; exact fpOp2_computes hctx rfl h _
  | fdiv y t m => cases hf; rw [exec_fdiv]; exact fpOp2_computes hctx rfl h _
  | frcp y t m => cases hf; rw [exec_frcp]; exact fpOp1_computes hctx rfl h _
  | frsq y t m => cases hf; rw [exec_frsq]; exact fpOp1_computes hctx rfl h _
  | fsqrt y t m => cases hf; rw [exec_fsqrt]; exact fpOp1_computes hctx rfl h _
  | ffrac y t m => cases hf; rw [exec_ffrac]; exact fpOp1_computes hctx rfl h _
  | fround y t m => cases hf; rw [exec_fround]; exact fpOp1_computes hctx rfl h _
  | fex2 y t m => cases hf; rw [exec_fex2]; exact fpFun_computes hctx rfl h _
  | flg2 y t m => cases hf; rw [exec_flg2]; exact fpFun_computes hctx rfl h _
  | fsin y t m => cases hf; rw [exec_fsin]; exact fpFun_computes hctx rfl h _
  | fcos y t m => cases hf; rw [exec_fcos]; exact fpFun_computes hctx rfl h _
  | ffma y t m => cases hf; rw [exec_ffma]; exact fpOp3_computes hctx rfl h _
  | fscale y t m => cases hf; exact fscale_computes hctx h
  | fdot2 y t m => cases hf; exact fdot2_computes hctx h
  | fcmp y t cc sig absa => cases hf; exact fcmp_computes hctx h
  | fclass y t => cases hf; exact fclass_computes hctx h
  | _ => cases hf

end Sys2Proof.Machine
end

section
/-! Branches, calls and returns (R48, R94 to R96, R129): a branch may end its subset's turn, a call writes its link, and each active lane
lands at its target or after the instruction. -/

namespace Sys2Proof.Machine

/-! ### A thread whose destination is written -/

/-- A thread after the `n` registers, or the predicate, of a destination in it are written (R17, R18, R75). -/
def Thread.written (t : Thread) (d : Dst) (n v : Nat) : Thread :=
  match d with
  | .v m => t.setVs m.toNat (toWords n v)
  | .p m => t.setPred m (v != 0)
  | _ => t

theorem Thread.written_vreg (t : Thread) {d : Dst} {n k : Nat} (v : Nat) (hk : ∀ m : BitVec 8, d = .v m → ¬(m.toNat ≤ k ∧ k < m.toNat + n)) :
    (t.written d n v).vreg k = t.vreg k ∧ (k ∈ (t.written d n v).bad ↔ k ∈ t.bad) := by
  cases d with
  | v m =>
    have hout : ¬(m.toNat ≤ k ∧ k < m.toNat + (toWords n v).length) := by rw [length_toWords]; exact hk m rfl
    exact ⟨by rw [written, vreg_setVs, if_neg hout], bad_setVs _ _ _ _ hout⟩
  | p m => simp only [written, setPred]; split <;> exact ⟨rfl, .rfl⟩
  | s m => exact ⟨rfl, .rfl⟩
  | j m => exact ⟨rfl, .rfl⟩
  | discard => exact ⟨rfl, .rfl⟩

theorem Thread.written_pred (t : Thread) {d : Dst} {q : BitVec 3} (n v : Nat) (hq : d ≠ .p q) : (t.written d n v).pred q = t.pred q := by
  cases d with
  | v m => rw [written, setVs_keeps]; rfl
  | p m => rw [written, pred_setPred, if_neg fun h => hq (congrArg Dst.p h.symm)]
  | s m => rfl
  | j m => rfl
  | discard => rfl

theorem Thread.written_keeps (t : Thread) (d : Dst) (n v : Nat) : t.keeps (t.written d n v) := by
  cases d with
  | v m => rw [Thread.keeps, written, setVs_keeps]
  | p m => simp only [written, setPred]; split <;> rfl
  | s m => rfl
  | j m => rfl
  | discard => rfl

/-- The written group holds the words of the value. -/
theorem Thread.written_vreg_group (t : Thread) (m : BitVec 8) {n k : Nat} (v : Nat) (hk : k < n) :
    (t.written (.v m) n v).vreg (m.toNat + k) = wordOf v k := by
  rw [written, vreg_setVs, length_toWords, if_pos (by omega), Nat.add_sub_cancel_left, getD_toWords hk]

theorem Block.look_modDrawn (b : Block) (k : Nat) (f : Drawn → Drawn) (j : Nat) :
    Sparse.look (b.modDrawn k f).drawn j = if j = k then (Sparse.look b.drawn j).map f else Sparse.look b.drawn j := by
  unfold modDrawn
  split
  next d hd =>
    rw [Sparse.look_put]
    split
    next h => rw [h, hd]; rfl
    next => rfl
  next hd =>
    split
    next h => rw [h, hd]; rfl
    next => rfl

namespace State

variable {s t u : State} {x : Opnds} {i : Instr} {n : Nat}

theorem write_thr_written (s : State) (d : Dst) (n : Nat) {L : List Nat} (hL : L.Nodup) (h : Nat → Nat) (l : Nat) :
    (s.write d n (L.map fun k => (k, h k))).cb.thr l =
      if l ∈ L ∧ l < s.cb.threads.length then (s.cb.thr l).written d n (h l) else s.cb.thr l :=
  write_thr s d n L hL h l

/-- A write in executing lanes keeps every lane but for its destination there. -/
theorem keepsLanes_write (s : State) (x : Opnds) (n : Nat) {L : List Nat} (hL : L.Nodup) (hsub : ∀ l ∈ L, l ∈ s.exe x.g) (h : Nat → Nat) :
    s.keepsLanes (s.write x.d n (L.map fun l => (l, h l))) x n := by
  have hthr := s.write_thr_written x.d n hL h
  refine ⟨fun l k hk => ?_, fun l q hq => ?_, fun l hl => ?_, fun l => ?_, s.write_length _ _ _⟩
  · rw [hthr]
    split
    next hl => exact Thread.written_vreg _ _ fun m hm => hk m hm (hsub l hl.1)
    next => exact ⟨rfl, .rfl⟩
  · rw [hthr]
    split
    next hl => exact Thread.written_pred _ _ _ fun hd => hq hd (hsub l hl.1)
    next => rfl
  · rw [hthr, if_neg fun hn => hl (exe_sub (hsub l hn.1))]
  · rw [hthr]
    split
    next => exact Thread.written_keeps _ _ _ _
    next => rfl

/-! ### The turn (R129) -/

/-- Only the turns of bundles differ. -/
structure turned (s t : State) : Prop where
  within : s.within t
  threads : t.cb.threads = s.cb.threads
  keeps : s.cb.keeps t.cb
  files : s.keepsFiles t

theorem sameTurn (o : Option Drawn) : ∃ m, o = o.map fun d => { d with turn := m } := by
  cases o with
  | none => exact ⟨0, rfl⟩
  | some d => exact ⟨d.turn, rfl⟩

theorem turned.refl (s : State) : s.turned s := ⟨.refl s, rfl, rfl, fun _ => rfl, fun _ => sameTurn _⟩

theorem turned_endTurn (s : State) : s.turned s.endTurn := by
  unfold endTurn
  cases s.sel.ctx with
  | home n =>
    refine ⟨s.within_modCb _, by simp, by rw [cb_modCb]; rfl, fun k => ?_, fun k => ?_⟩
    · rw [cb_modCb, Block.bundle_modBundle]
      split <;> rfl
    · rw [cb_modCb]
      exact sameTurn _
  | drawn n =>
    have hshape : ∀ f, s.cb.modDrawn n f = { s.cb with drawn := (s.cb.modDrawn n f).drawn } := fun f => by
      unfold Block.modDrawn; split <;> rfl
    refine ⟨s.within_modCb _, ?_, ?_, fun k => ?_, fun k => ?_⟩
    · rw [cb_modCb, hshape]
    · rw [cb_modCb, hshape]; rfl
    · rw [cb_modCb, hshape]; rfl
    · rw [cb_modCb, Block.look_modDrawn]
      split
      next => exact ⟨64, rfl⟩
      next => exact sameTurn _

theorem turned.thr (h : s.turned t) (l : Nat) : t.cb.thr l = s.cb.thr l := by rw [Block.thr, Block.thr, h.threads]

theorem turned.exe (h : s.turned t) (g : Guard) : t.exe g = s.exe g := by simp only [State.exe, h.within.sel, h.thr]

theorem turned.keepsLanes (h : s.turned t) (hu : t.keepsLanes u x n) : s.keepsLanes u x n := by
  simpa only [State.keepsLanes, h.within.sel, h.thr, h.exe, h.threads] using hu

/-! ### Where the lanes land -/

/-- Where an active lane goes: a branching one to its target, or nowhere where that is not canonical (R48); another past the instruction. -/
def landing (pc : DWord) (len : Nat) (L : List Nat) (f : Nat → DWord) (l : Nat) : DWord :=
  if l ∈ L then if canonical (f l) then f l else pc else pc + .ofNat 64 len

/-- The lanes of a branch have landed, and its faults are yet to be raised. -/
def landed (s : State) (len : Nat) (ts : List (Nat × DWord)) : State :=
  (s.advanceBut len ((ts.filter fun e => !canonical e.2).map (·.1))).modCb fun b =>
    (ts.filter fun e => canonical e.2).foldl (fun b e => b.modThr e.1 fun t => { t with pc := e.2 }) b

theorem jump_eq_landed (s : State) (len : Nat) (L : List Nat) (f : Nat → DWord) :
    s.jump len (L.map fun l => (l, f l)) = (s.landed len (L.map fun l => (l, f l))).finishFaults len
      ((L.filter fun l => !canonical (f l)).map fun l => (l, { cause := 0x12, addr := f l })) := by
  rw [jump, ← landed, List.filter_map, List.map_map]
  rfl

theorem within_landed (s : State) (len : Nat) (ts : List (Nat × DWord)) : s.within (s.landed len ts) :=
  (s.within_modCb _).trans (within_modCb _ _)

/-- Landing changes the threads alone. -/
theorem landed_cb (s : State) (len : Nat) (ts : List (Nat × DWord)) : (s.landed len ts).cb = { s.cb with threads := (s.landed len ts).cb.threads } := by
  simp only [landed, advanceBut, cb_modCb]
  rw [Block.foldl_modThr_eq]
  rfl

theorem landed_keeps (s : State) (len : Nat) (ts : List (Nat × DWord)) : s.cb.keeps (s.landed len ts).cb := by
  rw [landed_cb]
  rfl

theorem finishFaults_nil (s : State) (len : Nat) : s.finishFaults len [] = s := rfl

theorem advanceBut_thr (s : State) (len : Nat) (bad : List Nat) (l : Nat) :
    (s.advanceBut len bad).cb.thr l = if l ∈ s.sel.act ∧ l < s.cb.threads.length then
      { s.cb.thr l with pc := if bad.contains l then s.sel.pc else s.sel.pc + .ofNat 64 len, wait := .none, group := 0 } else s.cb.thr l := by
  rw [advanceBut, cb_modCb, Block.thr_modThrs]

theorem landed_thr (s : State) (len : Nat) {L : List Nat} (hL : L.Nodup) (hact : ∀ l ∈ L, l ∈ s.sel.act) (f : Nat → DWord) (l : Nat) :
    (s.landed len (L.map fun l => (l, f l))).cb.thr l = if l ∈ s.sel.act ∧ l < s.cb.threads.length then
      { s.cb.thr l with pc := landing s.sel.pc len L f l, wait := .none, group := 0 } else s.cb.thr l := by
  have hlen : (s.advanceBut len ((L.filter fun l => !canonical (f l)).map id)).cb.threads.length = s.cb.threads.length := by simp [advanceBut]
  simp only [landed, List.filter_map, Function.comp_def, List.map_map, List.foldl_map, cb_modCb]
  have hfold := Block.foldl_modThr_thr (s.advanceBut len ((L.filter fun l => !canonical (f l)).map id)).cb (L.filter fun l => canonical (f l))
    (hL.filter _) (fun l t => { t with pc := f l }) l
  refine hfold.trans ?_
  rw [advanceBut_thr, hlen]
  by_cases hl : l ∈ L
  · by_cases hc : canonical (f l) = true
    · by_cases hlt : l < s.cb.threads.length
      · simp [landing, hl, hc, hact l hl, hlt]
      · simp [hlt]
    · simp [landing, hl, hc]
  · simp [landing, hl]

/-- Landing keeps the registers and predicates of every lane, and every lane that is not active. -/
theorem keepsLanes.landed (h : s.keepsLanes t x n) (ht : t.sel = s.sel) (len : Nat) {L : List Nat} (hL : L.Nodup)
    (hact : ∀ l ∈ L, l ∈ s.sel.act) (f : Nat → DWord) : s.keepsLanes (t.landed len (L.map fun l => (l, f l))) x n := by
  obtain ⟨hvreg, hpred, hother, hrest, hlength⟩ := h
  have hthr := t.landed_thr len hL (ht ▸ hact) f
  refine ⟨fun l k hk => ?_, fun l q hq => ?_, fun l hl => ?_, fun l => ?_, ?_⟩
  · rw [hthr]
    split
    next => exact hvreg l k hk
    next => exact hvreg l k hk
  · rw [hthr]
    split
    next => exact hpred l q hq
    next => exact hpred l q hq
  · rw [hthr, if_neg fun hn => hl (ht ▸ hn.1), hother l hl]
  · rw [hthr]
    have hkept := hrest l
    split
    next => unfold Thread.keeps at hkept ⊢; rw [hkept]
    next => exact hkept
  · rw [← hlength, State.landed, cb_modCb, Block.foldl_modThr_length]
    simp [advanceBut]

/-! ### The four transfers (R94 to R96) -/

/-- The destination of a transfer: `call` alone has one, its link (R96). -/
def linkDst : Instr → Dst
  | .call x => x.d
  | _ => .discard

/-- The link is written, and the lanes are yet to land. -/
def linked (s a : State) (i : Instr) (x : Opnds) (f : Nat → DWord) : State :=
  a.write (linkDst i) 2 (((s.exe x.g).filter fun l => canonical (f l)).map fun l => (l, (s.sel.pc + 12).toNat))

theorem branch_turned (s : State) (len : Nat) (ts : List (Nat × DWord)) : ∃ a, s.turned a ∧ s.branch len ts = a.jump len ts := by
  unfold branch
  split
  next => exact ⟨_, s.turned_endTurn, rfl⟩
  next => exact ⟨_, .refl s, rfl⟩

/-- A branch may end its turn, and jumps. -/
theorem exec_transfer_of_branch {f : Nat → DWord} {ts : Opnds → State → List (Nat × DWord)} (hx : i.opnds? = some x) (h : s.ready i = true)
    (hexec : exec i s = s.issue i fun x s => s.branch x.ext.bytes (ts x s)) (hts : ts x s.begun = (s.exe x.g).map fun l => (l, f l)) :
    ∃ a, s.begun.turned a ∧ exec i s = .next (a.jump x.ext.bytes ((s.exe x.g).map fun l => (l, f l))) := by
  obtain ⟨a, ha, hjump⟩ := s.begun.branch_turned x.ext.bytes (ts x s.begun)
  exact ⟨a, ha, by rw [hexec, issue_ready hx h, hjump, hts]⟩

theorem indirect_begun (s : State) (x : Opnds) :
    indirect x s.begun = (s.exe x.g).map fun l => (l, .ofNat 64 (s.src x.ext .b64 l x.a)) := by
  rw [indirect, begun_exe, begun_src_eq]

/-- A transfer may end its turn, writes its link, and jumps. -/
theorem exec_transfer {f : Nat → DWord} (hf : branchTarget s i = some (x, f)) (h : s.ready i = true) :
    ∃ a, s.begun.turned a ∧ exec i s = .next ((s.linked a i x f).jump x.ext.bytes ((s.exe x.g).map fun l => (l, f l))) := by
  cases i with
  | bra y =>
    cases hf
    exact exec_transfer_of_branch (ts := fun x s => (s.exe x.g).map fun l => (l, relTarget s.sel.pc x.ext)) rfl h (exec_bra s x)
      (by rw [begun_exe, begun_sel])
  | brx y =>
    cases hf
    exact exec_transfer_of_branch rfl h (exec_brx s x) (s.indirect_begun x)
  | ret y =>
    cases hf
    exact exec_transfer_of_branch rfl h (exec_ret s x) (s.indirect_begun x)
  | call y =>
    cases hf
    refine ⟨s.begun, .refl _, ?_⟩
    rw [exec_call, execCall, issue_ready rfl h, begun_exe, begun_sel, linked]
    simp only [List.filter_map, List.map_map]
    rfl
  | _ => cases hf

/-- The destination of a legal transfer is its link. -/
theorem linkDst_of_wf {f : Nat → DWord} (hf : branchTarget s i = some (x, f)) (hwf : i.wf = true) : x.d = linkDst i ∧ ∀ m, x.d ≠ .s m := by
  have discards (hd : Kind.null.okDst x.d = true) : x.d = .discard ∧ ∀ m, x.d ≠ .s m := by
    cases hx : x.d with
    | discard => exact ⟨rfl, fun _ => Dst.noConfusion⟩
    | v m | s m | p m | j m => rw [hx] at hd; cases hd
  cases i with
  | bra y => cases hf; exact discards (okDst_of_wf rfl hwf)
  | brx y => cases hf; exact discards (okDst_of_wf rfl hwf)
  | ret y => cases hf; exact discards (okDst_of_wf rfl hwf)
  | call y =>
    cases hf
    refine ⟨rfl, fun m hm => ?_⟩
    have hd : (Kind.vecNull 2).okDst x.d = true := okDst_of_wf rfl hwf
    rw [hm] at hd
    cases hd
  | _ => cases hf

theorem begun_keepsLanes : s.begun.keepsLanes t x n ↔ s.keepsLanes t x n := by
  simp only [State.keepsLanes, begun_exe, begun_sel, begun_cb]

theorem begun_keepsFiles : s.begun.keepsFiles t ↔ s.keepsFiles t := by
  simp only [keepsFiles, begun_cb]

theorem keepsFiles_of_same (h : s.keepsFiles t) (hbundles : u.cb.bundles = t.cb.bundles) (hdrawn : u.cb.drawn = t.cb.drawn) : s.keepsFiles u := by
  simpa only [keepsFiles, Block.bundle, hbundles, hdrawn] using h

theorem keepsFiles.landed (h : s.keepsFiles t) (len : Nat) (ts : List (Nat × DWord)) : s.keepsFiles (t.landed len ts) := by
  refine keepsFiles_of_same h ?_ ?_
  · rw [landed_cb]
  · rw [landed_cb]

/-! ### The link of a call (R96) -/

section
variable {a : State} {f : Nat → DWord} (ha : s.begun.turned a)
include ha

theorem linked_within : s.begun.within (s.linked a i x f) := ha.within.trans (within_write _ _ _ _)

theorem linked_sel : (s.linked a i x f).sel = s.sel := (linked_within ha).sel.trans s.begun_sel

theorem linked_length : (s.linked a i x f).cb.threads.length = s.cb.threads.length := by
  rw [linked, write_length, ha.threads, begun_cb]

theorem linked_keeps : s.cb.keeps (s.linked a i x f).cb := (s.begun_cb ▸ ha.keeps).trans (write_cb _ _ _ _)

/-- Each active lane has landed. -/
theorem linked_landed_thr (hsel : s.selOk = true) {l : Nat} (hl : l ∈ s.sel.act) :
    ((s.linked a i x f).landed x.ext.bytes ((s.exe x.g).map fun l => (l, f l))).cb.thr l =
      { (s.linked a i x f).cb.thr l with pc := landing s.sel.pc x.ext.bytes (s.exe x.g) f l, wait := .none, group := 0 } := by
  have hact : ∀ l ∈ s.exe x.g, l ∈ (s.linked a i x f).sel.act := fun l hl => by rw [linked_sel ha]; exact exe_sub hl
  rw [landed_thr _ _ (exe_nodup hsel x.g) hact, linked_sel ha, linked_length ha, if_pos ⟨hl, act_lt hsel hl⟩]

theorem turned_exe (g : Guard) : a.exe g = s.exe g := (ha.exe g).trans (s.begun_exe g)

theorem linked_keepsLanes (hsel : s.selOk = true) (hd : x.d = linkDst i) : s.keepsLanes (s.linked a i x f) x 2 := by
  rw [linked, ← hd]
  refine begun_keepsLanes.1 (ha.keepsLanes (a.keepsLanes_write x 2 ((exe_nodup hsel x.g).filter _) (fun l hl => ?_) fun _ => (s.sel.pc + 12).toNat))
  rw [turned_exe ha]
  exact (List.mem_filter.1 hl).1

theorem linked_files (hd : ∀ m, linkDst i ≠ .s m) : s.keepsFiles (s.linked a i x f) := by
  obtain ⟨hbundles, hdrawn⟩ := a.write_files_of_vector hd 2 (((s.exe x.g).filter fun l => canonical (f l)).map fun l => (l, (s.sel.pc + 12).toNat))
  exact keepsFiles_of_same (begun_keepsFiles.1 ha.files) hbundles hdrawn

/-- A lane that goes to its target has the address after the call. -/
theorem linked_vreg (hsel : s.selOk = true) {m : BitVec 8} (hd : linkDst i = .v m) {l k : Nat} (hl : l ∈ s.exe x.g) (hc : canonical (f l) = true)
    (hk : k < 2) : ((s.linked a i x f).cb.thr l).vreg (m.toNat + k) = wordOf (s.sel.pc + 12).toNat k := by
  have hlt : l < a.cb.threads.length := by rw [ha.threads, begun_cb]; exact act_lt hsel (exe_sub hl)
  rw [linked, a.write_thr_written _ 2 ((exe_nodup hsel x.g).filter _) fun _ => (s.sel.pc + 12).toNat, if_pos ⟨List.mem_filter.2 ⟨hl, hc⟩, hlt⟩, hd]
  exact Thread.written_vreg_group _ m _ hk

end

end State

open State

theorem branchResults : BranchResults := by
  intro s i x f hf h hwf hcanon
  have hsel := ready_selOk h
  obtain ⟨hd, hvector⟩ := linkDst_of_wf hf hwf
  obtain ⟨a, ha, hexec⟩ := exec_transfer hf h
  have hnone : (s.exe x.g).filter (fun l => !canonical (f l)) = [] := by simpa [List.filter_eq_nil_iff] using hcanon
  rw [jump_eq_landed, hnone, List.map_nil, finishFaults_nil] at hexec
  refine ⟨_, hexec, fun l hl => ?target, fun l hl hn => ?past, fun l hl => ?wait, fun m hm l hl k hk => ?link, ?outside, ?block, ?lanes, ?files⟩
  case target => rw [linked_landed_thr ha hsel (exe_sub hl), landing, if_pos hl, if_pos (hcanon l hl)]
  case past => rw [linked_landed_thr ha hsel hl, landing, if_neg hn]
  case wait => rw [linked_landed_thr ha hsel hl]
  case link =>
    rw [linked_landed_thr ha hsel (exe_sub hl)]
    exact linked_vreg ha hsel (hd ▸ hm) hl (hcanon l hl) hk
  case outside => exact ((linked_within ha).trans (within_landed _ _ _)).keepsOutside
  case block => exact (linked_keeps ha).trans (landed_keeps _ _ _)
  case lanes => exact (linked_keepsLanes ha hsel hd).landed (linked_sel ha) _ (exe_nodup hsel x.g) (fun l => exe_sub) f
  case files => exact (linked_files ha (hd ▸ hvector)).landed _ _

theorem branchFetchFault : BranchFetchFault := by
  intro s i x f l hf h hl hbad
  have hsel := ready_selOk h
  obtain ⟨a, ha, hexec⟩ := exec_transfer hf h
  rw [jump_eq_landed] at hexec
  refine ⟨_, hexec, ?_, fun k hk hc => ?_⟩
  · rw [linked_landed_thr ha hsel (exe_sub hl), landing, if_pos hl, if_neg (by simp [hbad])]
  · rw [linked_landed_thr ha hsel (exe_sub hk), landing, if_pos hk, if_pos hc]

/-- Settles O6: a transfer may end its turn, writes its link, and lands its lanes (`exec_transfer`), which keeps all else. -/
theorem controlTransfers : Obligations.ControlTransfers := by
  unfold Obligations.ControlTransfers
  exact ⟨branchResults, branchFetchFault⟩

end Sys2Proof.Machine
end

section
/-! Blocks placed, zeroed and completed (R53, R120, R121, R145, R149, R199, R320). -/

namespace Sys2Proof

theorem Sparse.look_eq_none_of_forall {α : Type} {m : Sparse α} {k : Nat} (h : ∀ e ∈ m, e.1 ≠ k) : Sparse.look m k = none := by
  induction m with
  | nil => rfl
  | cons e r ih =>
    obtain ⟨a, v⟩ := e
    have hne : a ≠ k := h (a, v) (by simp)
    rw [Sparse.look, if_neg hne.symm, ih fun e he => h e (by simp [he])]

end Sys2Proof

namespace Sys2Proof.Machine

/-! ### Rows zeroed (R199) -/

namespace Scratchpad

theorem mem_data_zeroRow {sp : Scratchpad} {row : Nat} {e : Nat × Word} : e ∈ (sp.zeroRow row).data ↔ e ∈ sp.data ∧ rowOf e.1 ≠ row := by
  simp [zeroRow]

theorem mem_data_zeroRows {sp : Scratchpad} {rows : List Nat} {e : Nat × Word} :
    e ∈ (rows.foldl zeroRow sp).data ↔ e ∈ sp.data ∧ rowOf e.1 ∉ rows := by
  induction rows generalizing sp with
  | nil => simp
  | cons r rows ih => rw [List.foldl_cons, ih, mem_data_zeroRow, List.mem_cons, not_or, and_assoc]

/-- A word of a zeroed row is 0. -/
theorem raw_zeroRows (sp : Scratchpad) {rows : List Nat} {w : Nat} (hw : rowOf w ∈ rows) : (rows.foldl zeroRow sp).raw w = 0 := by
  have hnone : Sparse.look (rows.foldl zeroRow sp).data w = none :=
    Sparse.look_eq_none_of_forall fun e he hew => (mem_data_zeroRows.1 he).2 (hew ▸ hw)
  rw [raw, Sparse.getOr, hnone]
  rfl

end Scratchpad

/-- Every address of a block's scratchpad lies in one of its rows (R184). -/
theorem Block.rowOf_word_mem (b : Block) {a : Nat} (ha : a / 1024 < b.rows.length) : rowOf (b.word a) ∈ b.rows := by
  have hrow : rowOf (b.word a) = b.rows[a / 1024] := by
    rw [rowOf, word, List.getD_eq_getElem _ _ ha]
    omega
  rw [hrow]
  exact List.getElem_mem ha

namespace State

variable {s t u : State}

/-! ### An interval that opens (R145) -/

theorem openInterval_blk (s : State) (b : Nat) : (s.openInterval b).blk b =
    { s.blk b with check := some (s.checkpointOf b), journal := [], logged := 0, irrevocable := false, rollbacks := 0 } := by
  rw [openInterval, blk_modBlk_same]
  rfl

theorem openInterval_mem (s : State) (b : Nat) : (s.openInterval b).mem = s.mem := rfl

theorem openInterval_core (s : State) (b c : Nat) : (s.openInterval b).core c = s.core c := rfl

theorem takeHeld_of_not_held {b : Nat} (h : (s.blk b).preemptHeld = false) : s.takeHeld b = s := by
  rw [takeHeld, h]
  rfl

/-! ### What the end of a block leaves alone (R120, R150) -/

/-- Memory and the launches are as they were. -/
def sameWork (s t : State) : Prop := t.mem = s.mem ∧ t.grids = s.grids

theorem sameWork.refl (s : State) : s.sameWork s := ⟨rfl, rfl⟩

theorem sameWork.trans (h : s.sameWork t) (g : t.sameWork u) : s.sameWork u := ⟨g.1.trans h.1, g.2.trans h.2⟩

theorem sameWork.foldl {α : Type} (f : State → α → State) (hf : ∀ (s : State) e, s.sameWork (f s e)) (l : List α) (s : State) :
    s.sameWork (l.foldl f s) := by
  induction l generalizing s with
  | nil => exact .refl s
  | cons e l ih => exact (hf s e).trans (ih _)

theorem sameWork_ite {c : Prop} [Decidable c] (ht : s.sameWork t) (hu : s.sameWork u) : s.sameWork (if c then t else u) := by
  split
  · exact ht
  · exact hu

theorem sameWork_modPart (s : State) (p : Nat) (f : Partition → Partition) : s.sameWork (s.modPart p f) := ⟨rfl, rfl⟩

theorem sameWork_modCore (s : State) (c : Nat) (f : Core → Core) : s.sameWork (s.modCore c f) := ⟨rfl, rfl⟩

theorem sameWork_modCluster (s : State) (c : Nat) (f : Cluster → Cluster) : s.sameWork (s.modCluster c f) := ⟨rfl, rfl⟩

theorem sameWork_modDie (s : State) (d : Nat) (f : Die → Die) : s.sameWork (s.modDie d f) := ⟨rfl, rfl⟩

theorem sameWork_modHub (s : State) (f : Hub → Hub) : s.sameWork (s.modHub f) := ⟨rfl, rfl⟩

theorem sameWork_dropRequests (s : State) (b : Nat) : s.sameWork (s.dropRequests b) := by
  simp only [dropRequests]
  exact .foldl _ (by exact fun s _ => sameWork_ite (s.sameWork_modCore _ _) (.refl s)) _ s

theorem sameWork_tidyMerges (s : State) (c : Nat) : s.sameWork (s.tidyMerges c) := by
  simp only [tidyMerges]
  exact sameWork_ite (.refl s) (s.sameWork_modCluster _ _)

theorem sameWork_releaseBlock (s : State) (b : Nat) : s.sameWork (s.releaseBlock b) := by
  simp only [releaseBlock]
  refine sameWork.trans ?_ (sameWork_tidyMerges _ _)
  refine sameWork.trans ?_ (sameWork_modDie _ _ _)
  refine sameWork.trans ?_ (sameWork_dropRequests _ _)
  refine sameWork.trans ?_ (sameWork_modCore _ _ _)
  exact .foldl _ (by exact fun s _ => s.sameWork_modPart _ _) _ s

theorem sameWork_freeSwap (s : State) (b : Nat) : s.sameWork (s.freeSwap b) := by
  simp only [freeSwap]
  exact .foldl _ (by exact fun s _ => sameWork_ite (s.sameWork_modCluster _ _) (.refl s)) _ s

theorem sameWork_freeBlock (s : State) (b : Nat) : s.sameWork (s.freeBlock b) := by
  simp only [freeBlock]
  refine sameWork.trans ?_ (sameWork_modDie _ _ _)
  exact (sameWork_ite (s.sameWork_modHub _) (.refl s)).trans (sameWork_freeSwap _ _)

theorem look_modGrid_same {gid : Nat} {g : Grid} (h : Sparse.look s.grids gid = some g) (f : Grid → Grid) :
    Sparse.look (s.modGrid gid f).grids gid = some (f g) := by
  rw [modGrid, h]
  exact Sparse.look_put_same _ _ _

end State

open State

/-! ### The events -/

variable {s : State}

theorem blockPlacement_places {gid : Nat} {g : Grid} {cores : List Nat} {used : List (Nat × Nat × Nat)} (hg : Sparse.look s.grids gid = some g)
    (hserves : s.dieServes g.die = true) (hnext : s.placeable g.die = some (gid, g)) (hspot : s.gridSpot g = some (cores, used)) :
    exec (.blockPlacement gid) s = .next ((s.passOver g.die gid).placeCohort gid g cores used) := by
  have hgo : ¬((!s.dieServes g.die || (s.placeable g.die).map (·.1) != some gid) = true) := by simp [hserves, hnext]
  rw [exec_blockPlacement, execBlockPlacement, hg]
  dsimp only
  rw [if_neg hgo, hspot]

/-- The block's rows are zeroed. -/
def zeroed (s : State) (b : Nat) : State := s.modPad (s.blk b).core fun sp => (s.blk b).rows.foldl (fun sp r => sp.zeroRow r) sp

/-- A placed block runs, in its first interval. -/
theorem rowZeroing_of_placed {b : Nat} (h : (s.blk b).state = .placed) :
    exec (.rowZeroing b) s = .next ((((zeroed s b).modBlk b fun b => { b with state := .running }).openInterval b).takeHeld b) := by
  rw [exec_rowZeroing, execRowZeroing]
  simp [h, zeroed]

theorem rowZeroing_of_restored {b : Nat} (h : (s.blk b).state = .restored) (hrun : (((zeroed s b).reloadBlock b).blk b).state = .running) :
    exec (.rowZeroing b) s = .next ((((zeroed s b).reloadBlock b).openInterval b).takeHeld b) := by
  have hzeroed : execRowZeroing b s = .next (if (((zeroed s b).reloadBlock b).blk b).state == .running then
      (((zeroed s b).reloadBlock b).openInterval b).takeHeld b else (zeroed s b).reloadBlock b) := by
    simp [execRowZeroing, h, zeroed]
  rw [exec_rowZeroing, hzeroed, if_pos (by rw [hrun]; rfl)]

theorem zeroed_blk (s : State) (b n : Nat) : (zeroed s b).blk n = s.blk n := rfl

theorem zeroed_raw (s : State) (b : Nat) {a : Nat} (ha : a / 1024 < (s.blk b).rows.length) :
    ((zeroed s b).core (s.blk b).core).scratch.raw ((s.blk b).word a) = 0 := by
  rw [zeroed, core_modPad_same]
  exact Scratchpad.raw_zeroRows _ (Block.rowOf_word_mem _ ha)

theorem rowZeroing_starts {b : Nat} (h : (s.blk b).state = .placed) (hheld : (s.blk b).preemptHeld = false) :
    ∃ t, exec (.rowZeroing b) s = .next t ∧ (t.blk b).state = .running ∧ (t.blk b).check.isSome = true ∧ (t.blk b).irrevocable = false
      ∧ (t.blk b).threads = (s.blk b).threads ∧ t.mem = s.mem
      ∧ ∀ a, a / 1024 < (s.blk b).rows.length → (t.core (s.blk b).core).scratch.raw ((s.blk b).word a) = 0 := by
  refine ⟨_, rowZeroing_of_placed h, ?_⟩
  have hblk := ((zeroed s b).modBlk b fun b => { b with state := .running }).openInterval_blk b
  rw [blk_modBlk_same, zeroed_blk] at hblk
  rw [takeHeld_of_not_held (by rw [hblk]; exact hheld), hblk]
  exact ⟨rfl, rfl, rfl, rfl, rfl, fun a ha => zeroed_raw s b ha⟩

/-- A killed block's completion waits for everything that it issued (R149, R273). -/
theorem blockCompletion_of_draining {b : Nat} (h : (s.blk b).draining = true) :
    exec (.blockCompletion b) s = .next (if (s.replayStale b fun _ => true).unfinished b then s.replayStale b fun _ => true
      else (s.replayStale b fun _ => true).endKilled b) := by
  rw [exec_blockCompletion, execBlockCompletion, if_pos h]

theorem blockCompletion_completes {b : Nat} (h : (s.blk b).draining = false) (hended : s.blockEnded b = true) :
    ∃ t, exec (.blockCompletion b) s = .next t ∧ (t.blk b).state = .completed ∧ t.mem = s.mem
      ∧ ∀ g, Sparse.look s.grids (s.blk b).grid = some g →
        Sparse.look t.grids (s.blk b).grid = some { g with ended := g.ended + 1, struck := g.struck + (s.blk b).struck } := by
  obtain ⟨hmem, hgrids⟩ := (s.sameWork_releaseBlock b).trans (sameWork_freeBlock _ b)
  rw [exec_blockCompletion, execBlockCompletion, if_neg (by simp [h]), if_neg (by simp [hended])]
  refine ⟨_, rfl, ?_, ?_, fun g hg => look_modGrid_same ?_ _⟩
  · rw [blk_modGrid, blk_modBlk_same]
  · rw [modGrid_mem, modBlk_mem, hmem]
  · rw [modBlk_grids, hgrids, hg]

/-- Settles O39, event by event. -/
theorem blockEvents : Obligations.BlockEvents := by
  unfold Obligations.BlockEvents
  refine fun s => ⟨fun gid g die cores used hg hdie hserves hnext hspot => ?_, fun b => rowZeroing_starts, fun b => rowZeroing_of_restored,
    fun b => blockCompletion_of_draining, fun b hdrain hended _ => blockCompletion_completes hdrain hended⟩
  subst hdie
  exact blockPlacement_places hg hserves hnext hspot

end Sys2Proof.Machine
end

section
/-! Instructions that act once per issue (R132, R151, R152, R154 to R156, R164, R309): the value of the lowest executing lane is every lane's. -/

namespace Sys2Proof.Machine

namespace State

variable {s : State} {x : Opnds} {i : Instr}

theorem begun_exe_eq (s : State) : s.begun.exe = s.exe := funext s.begun_exe

theorem begun_core_eq (s : State) : s.begun.core = s.core := funext s.begun_core

/-- An instruction that acts once per issue completes with the one value that it takes from the lowest executing lane's view, and changes
nothing else (R16, R151). -/
theorem once_computes (hctx : s.ctxOk = true) (hx : i.opnds? = some x) (h : s.ready i = true) (n : Nat) {g : Opnds → State → Nat → Nat}
    {f : Nat → Nat} (hg : g x s.begun = f) :
    ∃ t, s.once i n g = .next t ∧ s.computed t x n fun _ => (((s.first x.g).map f).getD 0, 0) := by
  subst hg
  have hsel := ready_selOk h
  unfold once
  rw [issue_ready hx h, begun_first]
  cases hfirst : s.first x.g with
  | none => exact ⟨_, rfl, computes_of_exe_nil hsel hctx (List.head?_eq_none_iff.1 hfirst) n _⟩
  | some l =>
    refine ⟨_, rfl, ?_⟩
    rw [begun_exe]
    exact computes_unflagged hsel hctx x n fun _ => g x s.begun l

end State

section
variable {s : State} {x : Opnds} {i : Instr} {t : ITy} (hctx : s.ctxOk = true) (hx : i.opnds? = some x) (h : s.ready i = true)
include hctx hx h

theorem scalInt_computes (f : Int → Int → Nat) :
    ∃ u, scalInt s i t f = .next u ∧ s.computed u x t.regs fun _ => (((s.first x.g).map fun l =>
      f (ival t (s.src x.ext t.op l x.a)) (ival t (s.src x.ext t.op l x.b))).getD 0, 0) :=
  State.once_computes hctx hx h t.regs (by simp only [s.begun_src_eq])

theorem scalBits_computes (f : Nat → Nat → Nat) :
    ∃ u, scalBits s i t f = .next u ∧ s.computed u x t.regs fun _ => (((s.first x.g).map fun l =>
      f (s.src x.ext t.op l x.a) (s.src x.ext t.op l x.b)).getD 0, 0) :=
  State.once_computes hctx hx h t.regs (by simp only [s.begun_src_eq])

theorem scalShift_computes (f : Nat → Nat → Nat) :
    ∃ u, scalShift s i t f = .next u ∧ s.computed u x t.regs fun _ => (((s.first x.g).map fun l =>
      f (s.src x.ext t.op l x.a) (s.src x.ext .b32 l x.b)).getD 0, 0) :=
  State.once_computes hctx hx h t.regs (by simp only [s.begun_src_eq])

end

/-- Settles O4: each form is `once` of what the lowest executing lane reads, which the count of the issue leaves as it was. -/
theorem uniformResults : Obligations.UniformResults := by
  unfold Obligations.UniformResults
  intro s i x n f hf h hctx
  cases i with
  | sadd y t sat => cases hf; rw [exec_sadd, execSadd]; exact scalInt_computes hctx rfl h _
  | ssub y t sat => cases hf; rw [exec_ssub, execSsub]; exact scalInt_computes hctx rfl h _
  | smul y t sat => cases hf; rw [exec_smul, execSmul]; exact scalInt_computes hctx rfl h _
  | sand y t => cases hf; rw [exec_sand, execSand]; exact scalBits_computes hctx rfl h _
  | sor y t => cases hf; rw [exec_sor, execSor]; exact scalBits_computes hctx rfl h _
  | sxor y t => cases hf; rw [exec_sxor, execSxor]; exact scalBits_computes hctx rfl h _
  | sshl y t c => cases hf; rw [exec_sshl, execSshl]; exact scalShift_computes hctx rfl h _
  | sshr y t c a => cases hf; rw [exec_sshr, execSshr]; cases a <;> exact scalShift_computes hctx rfl h _
  | scmp y t cc => cases hf; rw [exec_scmp, execScmp]; exact State.once_computes hctx rfl h _ (by simp only [s.begun_src_eq])
  | smov y t => cases hf; rw [exec_smov, execSmov]; exact State.once_computes hctx rfl h _ (by simp only [s.begun_src_eq])
  | rfl y w => cases hf; rw [exec_rfl, execRfl]; exact State.once_computes hctx rfl h _ (by simp only [s.begun_src_eq])
  | ballot y => cases hf; rw [exec_ballot, execBallot]; exact State.once_computes hctx rfl h _ (by simp only [s.begun_src_eq, s.begun_exe_eq])
  | agree y m => cases hf; rw [exec_agree, execAgree]; exact State.once_computes hctx rfl h _ (by simp only [s.begun_src_eq, s.begun_exe_eq])
  | spstat y sel => cases hf; rw [exec_spstat, execSpstat]; exact State.once_computes hctx rfl h _ (by simp only [s.begun_core_eq, s.begun_cc])
  | scbdCnt y => cases hf; rw [exec_scbdCnt, execScbdCnt]; exact State.once_computes hctx rfl h _ (by simp only [s.begun_cb])
  | _ => cases hf

end Sys2Proof.Machine
end

section
/-! Collective copies are supplied (R294 to R296), a wait for the scoreboard ends (R309), and bulk commands enter their die's queue (R299 to
R302). -/

namespace Sys2Proof.Machine

namespace State

variable {s : State} {x : Opnds} {i : Instr}

/-! ### Slices (R295, R296) -/

theorem modCb_congr {f g : Block → Block} (h : f s.cb = g s.cb) : s.modCb f = s.modCb g :=
  congrArg (fun b => { s with blocks := Sparse.put s.blocks s.sel.blk b }) h

/-- The slice as its lanes' operands describe it. -/
def fullSlice (s : State) (x : Opnds) (kind : CopyKind) (s2g : Bool) (slot : Option Nat) : Slice :=
  let n := s.cb.roleBundle s.sel.ctx
  let l := (s.exe x.g).headD (s.sel.act.headD 0)
  let q := match x.c with
    | .s m => m.toNat
    | _ => 0
  { bundle := n, thr := l, k := (s.cb.bundle n).slices, kind := kind, s2g := s2g, slot := slot
    g := .ofNat 64 (s.src x.ext .b64 l x.a), sc := s.src x.ext .b32 l x.b, len := (s.sreg q).toNat
    rows := (s.sreg (q + 1)).toNat, gstride := (s.sreg (q + 2)).toInt, sstride := (s.sreg (q + 3)).toNat }

/-- A slice that moves nothing stands in its bundle's place. -/
def movesNothing (c : Slice) : Slice := { c with g := 0, sc := 0, len := 0, rows := 0, gstride := 0, sstride := 0 }

/-- The fault of a slice: another form than its copy's, or a check of R295. -/
def sliceFault (s : State) (sl : Slice) : Option LF :=
  if (s.cb.slices.find? fun c => c.k == sl.k).any fun c => !c.sameForm sl then some { cause := 0x1C } else s.sliceCheck s.sel.blk sl

/-- A bundle's slice stands among those of its block. -/
def suppliedWith (s : State) (n : Nat) (sl : Slice) : State :=
  s.modCb fun b => { b.modBundle n (fun u => { u with slices := u.slices + 1 }) with slices := b.slices ++ [sl] }

/-- What supplying a slice does. -/
def supplyEffect (s : State) (x : Opnds) (kind : CopyKind) (s2g : Bool) (slot : Option Nat) : State :=
  let full := s.fullSlice x kind s2g slot
  let bad := if (s.exe x.g).isEmpty then none else s.sliceFault full
  if 4 ≤ full.k - s.cb.accepted then s.stall
  else
    let t := s.suppliedWith full.bundle (if (s.exe x.g).isEmpty || bad.isSome then movesNothing full else full)
    match bad with
    | none => t.advance x.ext.bytes
    | some f => t.uniformFault x f

theorem supply_eq {kind : CopyKind} {s2g : Bool} {slot : Option Nat} (hx : i.opnds? = some x) (h : s.ready i = true) :
    s.supply i kind s2g slot = .next (s.begun.supplyEffect x kind s2g slot) := by
  unfold supply
  rw [issue_ready hx h]
  rfl

theorem sliceOf_eq (s : State) (x : Opnds) (kind : CopyKind) (s2g : Bool) (slot : Option Nat) : s.sliceOf x kind s2g slot =
    if (s.exe x.g).isEmpty then movesNothing (s.fullSlice x kind s2g slot) else s.fullSlice x kind s2g slot := rfl

theorem begun_sliceOf (s : State) (x : Opnds) (kind : CopyKind) (s2g : Bool) (slot : Option Nat) :
    s.begun.sliceOf x kind s2g slot = s.sliceOf x kind s2g slot := by
  obtain ⟨_, h⟩ := s.begun_eq
  rw [h]
  rfl

theorem sliceOf_bundle (s : State) (x : Opnds) (kind : CopyKind) (s2g : Bool) (slot : Option Nat) :
    (s.sliceOf x kind s2g slot).bundle = s.cb.roleBundle s.sel.ctx := by
  rw [sliceOf_eq]
  split <;> rfl

theorem sliceOf_k (s : State) (x : Opnds) (kind : CopyKind) (s2g : Bool) (slot : Option Nat) :
    (s.sliceOf x kind s2g slot).k = (s.cb.bundle (s.cb.roleBundle s.sel.ctx)).slices := by
  rw [sliceOf_eq]
  split <;> rfl

/-- The slice passes the checks of R295, and has the form of those supplied to its copy before (R296). -/
def sliceFits (s : State) (sl : Slice) : Prop :=
  s.sliceCheck s.sel.blk sl = none ∧ ∀ c, s.cb.slices.find? (fun c => c.k == sl.k) = some c → c.sameForm sl = true

theorem sliceFault_of_fits {sl : Slice} (h : s.sliceFits sl) : s.sliceFault sl = none := by
  obtain ⟨hcheck, hform⟩ := h
  have hsame : (s.cb.slices.find? fun c => c.k == sl.k).any (fun c => !c.sameForm sl) = false := by
    cases hc : s.cb.slices.find? fun c => c.k == sl.k with
    | none => rfl
    | some c => rw [Option.any_some, hform c hc, Bool.not_true]
  rw [sliceFault, hsame, hcheck]
  rfl

/-- A slice that fits, or that no lane describes, is supplied as it is. -/
theorem supplyEffect_of_fits {kind : CopyKind} {s2g : Bool} {slot : Option Nat} (hroom : (s.sliceOf x kind s2g slot).k - s.cb.accepted < 4)
    (hfits : s.exe x.g ≠ [] → s.sliceFits (s.sliceOf x kind s2g slot)) :
    s.supplyEffect x kind s2g slot =
      (s.suppliedWith (s.sliceOf x kind s2g slot).bundle (s.sliceOf x kind s2g slot)).advance x.ext.bytes := by
  rw [sliceOf_k] at hroom
  rw [sliceOf_bundle, sliceOf_eq, supplyEffect]
  dsimp only
  rw [if_neg (by exact Nat.not_le.2 hroom)]
  cases hexe : s.exe x.g with
  | nil => rfl
  | cons l ls =>
    have hfull : s.sliceOf x kind s2g slot = s.fullSlice x kind s2g slot := by rw [sliceOf_eq, hexe]; rfl
    have hnone : s.sliceFault (s.fullSlice x kind s2g slot) = none := by
      rw [← hfull]
      exact sliceFault_of_fits (hfits (by rw [hexe]; exact List.cons_ne_nil _ _))
    rw [List.isEmpty_cons, hnone]
    rfl

theorem supply_of_fits {kind : CopyKind} {s2g : Bool} {slot : Option Nat} (hx : i.opnds? = some x) (h : s.ready i = true)
    (hroom : (s.sliceOf x kind s2g slot).k - s.cb.accepted < 4) (hfits : s.exe x.g ≠ [] → s.sliceFits (s.sliceOf x kind s2g slot)) :
    s.supply i kind s2g slot = .next ((s.begun.modCb fun b =>
      { b.modBundle (s.sliceOf x kind s2g slot).bundle (fun u => { u with slices := u.slices + 1 }) with
        slices := s.cb.slices ++ [s.sliceOf x kind s2g slot] }).advance x.ext.bytes) := by
  rw [supply_eq hx h, supplyEffect_of_fits (by simpa [begun_sliceOf] using hroom), begun_sliceOf, suppliedWith, modCb_congr]
  · rw [begun_cb]
  · simpa [sliceFits, begun_sliceOf] using hfits

/-! ### The scoreboard (R309) -/

theorem scbdWait_of_empty (h : s.ready (.scbdWait x) = true) (hexe : s.exe x.g ≠ []) (hfree : s.sbOf s.sel.blk = []) :
    exec (.scbdWait x) s = .next ((s.begun.advance x.ext.bytes).write x.d 1 ((s.exe x.g).map fun t => (t, 0))) := by
  rw [exec_scbdWait, execScbdWait, issue_ready rfl h, begun_exe]
  cases hl : s.exe x.g with
  | nil => exact absurd hl hexe
  | cons l ls =>
    dsimp only
    rw [begun_sel, begun_sbOf, hfree]
    rfl

/-! ### Bulk commands (R299 to R302) -/

theorem bulkFull_of_room (h : (s.die s.cd).bulk.length < 64) : s.begun.bulkFull = false := by
  rw [begun_bulkFull, bulkFull, decide_eq_false (by omega)]

theorem alignedAt_eq_none {a : DWord} {n : Nat} (hc : canonical a = true) (ha : a.toNat % n = 0) : alignedAt a n = none := by
  simp [alignedAt, hc, ha]

theorem cpyGl_enters (h : s.ready (.cpyGl x) = true) {l : Nat} {ls : List Nat} (hexe : s.exe x.g = l :: ls)
    (hroom : (s.die s.cd).bulk.length < 64) {list status : DWord} {n : Nat} (hlist : list = .ofNat 64 (s.src x.ext .b64 l x.a))
    (hstatus : status = .ofNat 64 (s.src x.ext .b64 l x.c)) (hn : n = s.src x.ext .b32 l x.b) (hok : bulkOk (.gather list n status)) :
    exec (.cpyGl x) s = .next (((s.begun.advance x.ext.bytes).queueBulk (l :: ls) (.gather list n status)).irrevokePeer s.sel.blk
      (status.toNat :: s.begun.glDests list.toNat n)) := by
  obtain ⟨hcount, hlc, hla, hsc, hsa⟩ := hok
  rw [exec_cpyGl, execCpyGl, issue_ready rfl h, begun_exe, hexe]
  dsimp only
  rw [begun_src_eq, ← hlist, ← hstatus, ← hn, if_neg (by omega), alignedAt_eq_none hlc hla, alignedAt_eq_none hsc hsa,
    bulkFull_of_room hroom, begun_sel]
  rfl

theorem sealOp_enters {dec : Bool} (hx : i.opnds? = some x) (h : s.ready i = true) {l : Nat} {ls : List Nat} (hexe : s.exe x.g = l :: ls)
    (hroom : (s.die s.cd).bulk.length < 64) (hok : bulkOk (.sealed dec (.ofNat 64 (s.src x.ext .b64 l x.a) + disp x.ext))) :
    s.sealOp i dec = .next (((s.begun.advance x.ext.bytes).queueBulk (l :: ls)
      (.sealed dec (.ofNat 64 (s.src x.ext .b64 l x.a) + disp x.ext))).irrevoke s.sel.blk) := by
  obtain ⟨hc, ha⟩ := hok
  rw [sealOp, issue_ready hx h, begun_exe, hexe]
  dsimp only
  rw [begun_src_eq, alignedAt_eq_none hc ha, bulkFull_of_room hroom, begun_sel]
  rfl

/-- A lane's source and first destination in a fan-out copy (R301). -/
def fanAddrs (s : State) (x : Opnds) (t : Nat) : DWord × DWord := (.ofNat 64 (s.src x.ext .b64 t x.a), .ofNat 64 (s.src x.ext .b64 t x.b))

/-- The first and last byte of every destination of a fan-out copy (R147, R301). -/
def fanDests (s : State) (x : Opnds) (size count : Nat) (stride : Int) (ts : List Nat) : List Nat :=
  ts.flatMap fun t => (List.range count).flatMap fun (i : Nat) =>
    [wrap 64 ((s.fanAddrs x t).2.toNat + i * stride), (wrap 64 ((s.fanAddrs x t).2.toNat + i * stride) + size - 1) % 2 ^ 64]

/-- The fault of a lane of a fan-out copy whose shape stands in scalar registers from `q` (R301). -/
def fanFault (s : State) (x : Opnds) (q : Nat) (n : BitVec 4) (slot : Option Nat) (t : Nat) : Option LF :=
  let size := (s.sreg q).toNat
  let count := (s.sreg (q + 1)).toNat
  if 65536 < size || count == 0 || 64 < count || s.sreg (q + 3) != 0 then some { cause := 0x1C }
  else if !fanCanonical (s.fanAddrs x t).1 (s.fanAddrs x t).2 size count (s.sreg (q + 2)).toInt then
    some { cause := 0x11, addr := (s.fanAddrs x t).1 }
  else if slot.any fun k => !s.arriveOk s.sel.blk k 0 then some (slotLF n.toNat)
  else none

/-- The lanes without a fault enter their copies in the die's queue; the others take their faults. -/
def fanEffect (s : State) (x : Opnds) (size count : Nat) (stride : Int) (slot : Option Nat) (check : Nat → Option LF) : State :=
  let ex := s.exe x.g
  let fs := ex.filterMap fun t => (check t).map fun f => (t, f)
  let good := ex.filter fun t => (check t).isNone
  if good.isEmpty then (s.advanceBut x.ext.bytes (fs.map (·.1))).finishFaults x.ext.bytes fs
  else if s.bulkFull then s.stall
  else
    (((((s.advanceBut x.ext.bytes (fs.map (·.1))).queueBulk good (.fan (good.map (s.fanAddrs x)) size count stride slot)).irrevokePeer s.sel.blk
      (s.fanDests x size count stride good)).engineArrive s.sel.blk slot false).finishFaults x.ext.bytes fs)

theorem cpyFan_eq {n : BitVec 4} {ns : Bool} {q : BitVec 6} (h : s.ready (.cpyFan x n ns) = true) (hc : x.c = .s q) :
    exec (.cpyFan x n ns) s = .next (s.begun.fanEffect x (s.sreg q.toNat).toNat (s.sreg (q.toNat + 1)).toNat (s.sreg (q.toNat + 2)).toInt
      (if ns then none else some n.toNat) (s.begun.fanFault x q.toNat n (if ns then none else some n.toNat))) := by
  rw [exec_cpyFan, execCpyFan, issue_ready rfl h, hc, ← s.begun_sreg q.toNat, ← s.begun_sreg (q.toNat + 1), ← s.begun_sreg (q.toNat + 2)]
  rfl

theorem fanEffect_of_clean {size count : Nat} {stride : Int} {slot : Option Nat} {check : Nat → Option LF}
    (hexe : s.exe x.g ≠ []) (hroom : s.bulkFull = false) (hclean : ∀ t ∈ s.exe x.g, check t = none) :
    s.fanEffect x size count stride slot check =
      (((s.advanceBut x.ext.bytes []).queueBulk (s.exe x.g) (.fan ((s.exe x.g).map (s.fanAddrs x)) size count stride slot)).irrevokePeer
        s.sel.blk (s.fanDests x size count stride (s.exe x.g))).engineArrive s.sel.blk slot false := by
  have hfs : (s.exe x.g).filterMap (fun t => (check t).map fun f => (t, f)) = [] :=
    List.filterMap_eq_nil_iff.2 fun t ht => by rw [hclean t ht]; rfl
  have hgood : (s.exe x.g).filter (fun t => (check t).isNone) = s.exe x.g :=
    List.filter_eq_self.2 fun t ht => by rw [hclean t ht]; rfl
  rw [fanEffect, hgood, hfs, if_neg (by simpa using hexe), if_neg (by simp [hroom])]
  rfl

theorem fanFault_eq_none {q : Nat} {n : BitVec 4} {slot : Option Nat} {t : Nat} (hsize : (s.sreg q).toNat ≤ 65536) (hlo : 1 ≤ (s.sreg (q + 1)).toNat)
    (hhi : (s.sreg (q + 1)).toNat ≤ 64) (hzero : s.sreg (q + 3) = 0)
    (hcanon : fanCanonical (s.fanAddrs x t).1 (s.fanAddrs x t).2 (s.sreg q).toNat (s.sreg (q + 1)).toNat (s.sreg (q + 2)).toInt = true)
    (hslot : ∀ k ∈ slot, s.arriveOk s.sel.blk k 0 = true) : s.fanFault x q n slot t = none := by
  have hshape : ¬((decide (65536 < (s.sreg q).toNat) || (s.sreg (q + 1)).toNat == 0 || decide (64 < (s.sreg (q + 1)).toNat)
      || s.sreg (q + 3) != 0) = true) := by
    simp [hzero]
    omega
  have hbound : ¬((slot.any fun k => !s.arriveOk s.sel.blk k 0) = true) := by
    cases slot with
    | none => exact Bool.false_ne_true
    | some k => simp [hslot k rfl]
  simp only [fanFault]
  rw [if_neg hshape, if_neg (by simp [hcanon]), if_neg hbound]

theorem begun_fanAddrs (s : State) (x : Opnds) : s.begun.fanAddrs x = s.fanAddrs x := by
  funext t
  simp only [fanAddrs, begun_src]

end State

open State

theorem copiesAreSupplied : CopiesAreSupplied := by
  refine fun s => ⟨?_, fun x => scbdWait_of_empty⟩
  intro i x kind s2g slot hform h sl hroom hfits
  cases i with
  | cpy y n ns d => cases hform; rw [exec_cpy, execCpy]; exact supply_of_fits rfl h hroom hfits
  | cpyX y n ns e => cases hform; rw [exec_cpyX, execCpyX]; exact supply_of_fits rfl h hroom hfits
  | cpyC y n ns e => cases hform; rw [exec_cpyC, execCpyC]; exact supply_of_fits rfl h hroom hfits
  | _ => cases hform

theorem bulkCommandsEnter : BulkCommandsEnter := by
  refine fun s => ⟨?queue, ?fan⟩
  case queue =>
    intro i x kind vas hissue h hexe hok hroom
    obtain ⟨l, ls, hl⟩ := List.exists_cons_of_ne_nil hexe
    cases i with
    | cpyGl y =>
      cases hissue
      rw [hl] at hok ⊢
      exact cpyGl_enters h hl hroom rfl rfl rfl hok
    | cpySealEnc y =>
      cases hissue
      rw [hl] at hok ⊢
      rw [exec_cpySealEnc, execCpySealEnc]
      exact sealOp_enters rfl h hl hroom hok
    | cpySealDec y =>
      cases hissue
      rw [hl] at hok ⊢
      rw [exec_cpySealDec, execCpySealDec]
      exact sealOp_enters rfl h hl hroom hok
    | _ => cases hissue
  case fan =>
    intro x n ns q h hc hexe hroom size count stride slot addrs hsize hlo hhi hzero hcanon hslot dests
    have hclean : ∀ t ∈ s.begun.exe x.g, s.begun.fanFault x q.toNat n slot t = none := by
      intro t ht
      rw [begun_exe] at ht
      refine fanFault_eq_none ?_ ?_ ?_ ?_ ?_ ?_
      · simpa using hsize
      · simpa using hlo
      · simpa using hhi
      · simpa using hzero
      · rw [begun_fanAddrs, begun_sreg, begun_sreg, begun_sreg]
        exact hcanon t ht
      · simpa using hslot
    rw [cpyFan_eq h hc, fanEffect_of_clean (by rwa [begun_exe]) (bulkFull_of_room hroom) hclean]
    simp only [fanDests, begun_exe, begun_sel, begun_fanAddrs]
    rfl

/-- Settles O20: a slice that fits is supplied as it is (`supply_of_fits`), and a bulk command whose checks pass enters the queue. -/
theorem copyResults : Obligations.CopyResults := by
  unfold Obligations.CopyResults
  exact ⟨copiesAreSupplied, bulkCommandsEnter⟩

end Sys2Proof.Machine
end

section
/-! Return from the handlers (R179) and `presig` (R180). -/

namespace Sys2Proof.Machine

namespace State

variable {s : State} {x : Opnds} {i : Instr}

/-- What a return from a handler does: `stray` are the lanes that have nowhere to return, and the others leave the supervisor handler as `f`
says, or the pre-emption handler under mode 0. -/
def returned (s : State) (x : Opnds) (mode0 : Bool) (lost : List (Nat × LF)) (f : State → Nat → State) : State :=
  let ex := s.exe x.g
  let level (t : Nat) : Nat := (s.cb.thr t).level
  let bad := ex.filter fun t => !(level t == 2 || (level t == 1 && mode0))
  let good := ex.filter fun t => !bad.contains t && !lost.any fun e => e.1 == t
  let u := good.foldl (fun u t => if level t == 2 then f u t else u.leaveTrap s.sel.blk t) (s.begun.advanceBut x.ext.bytes ex)
  let w := if mode0 && good.any (fun t => level t == 1) then u.faultUnbound s.sel.blk else u
  (w.fault x.ext.bytes (sortBy (fun (e : Nat × LF) => homeLane e.1) (lost ++ bad.map fun t => (t, { cause := 0x1A })))).settle s.sel.blk

theorem tretOp_of_ready {mode0 : Bool} {stray : State → List Nat → List (Nat × LF)} {f : State → Nat → State} (hx : i.opnds? = some x)
    (h : s.ready i = true) : s.tretOp i mode0 stray f = .next (s.returned x mode0 (stray s.begun (s.exe x.g)) f) := by
  rw [tretOp, issue_ready hx h]
  simp only [begun_exe, begun_cb, begun_sel]
  rfl

theorem begun_strays (s : State) (past : Bool) : s.begun.strays past = s.strays past := by
  funext ts
  simp only [strays, begun_cb]

theorem presig_of_ready (h : s.ready (.presig x) = true) :
    exec (.presig x) s = .next ((s.begun.advance x.ext.bytes).modCb fun b => b.modThrs
      ((s.exe x.g).filter fun t => s.cb.state == .preempting && !s.cb.savedByHw && (s.cb.thr t).level == 1) fun _ t => { t with signalled := true }) := by
  rw [exec_presig, execPresig, issue_ready rfl h]
  simp only [begun_exe, begun_cb]

end State

open State

theorem handlerReturns : HandlerReturns := fun _ _ => ⟨rfl, rfl, rfl, rfl, rfl, rfl, rfl, rfl, rfl, rfl⟩

theorem handlerInstructions : HandlerInstructions := by
  refine fun s x => ⟨fun h => ?tret, fun h => ?next, fun h => ?strike, presig_of_ready⟩
  case tret =>
    rw [exec_tret, execTret, tretOp_of_ready rfl h, begun_strays]
    rfl
  case next =>
    rw [exec_tretNext, execTretNext, tretOp_of_ready rfl h, begun_strays]
    rfl
  case strike =>
    rw [exec_tretStrike, execTretStrike, tretOp_of_ready rfl h]
    rfl

/-- Settles O31: the three returns are one operation (`tretOp_of_ready`), which reads of the lanes what stood before the issue. -/
theorem handlerResults : Obligations.HandlerResults := by
  unfold Obligations.HandlerResults
  exact ⟨handlerReturns, handlerInstructions⟩

end Sys2Proof.Machine
end

section
/-! Encoding traps (R28 to R31, R59, R126): what stands before an instruction's own effect. -/

namespace Sys2Proof.Machine

/-! ### Every instruction is an issue -/

/-- The outcome is that of an issue of the instruction: what stands before its own effect is the same for all (R29, R265). -/
def IsIssue (s : State) (i : Instr) (o : Host.Outcome State Fault Refusal) : Prop := ∃ f, o = s.issue i f

section
variable (s : State) (i : Instr)

theorem isIssue_issue (f : Opnds → State → State) : IsIssue s i (s.issue i f) := ⟨f, rfl⟩

theorem isIssue_alu (n : Nat) (f : Opnds → State → Nat → Nat × BitVec 6) : IsIssue s i (s.alu i n f) := isIssue_issue s i _

theorem isIssue_once (n : Nat) (f : Opnds → State → Nat → Nat) : IsIssue s i (s.once i n f) := isIssue_issue s i _

theorem isIssue_intOp2 (t : ITy) (f : Int → Int → Nat) : IsIssue s i (intOp2 s i t f) := isIssue_alu s i _ _

theorem isIssue_bitOp1 (t : ITy) (n : Nat) (f : Nat → Nat) : IsIssue s i (bitOp1 s i t n f) := isIssue_alu s i _ _

theorem isIssue_bitOp2 (t : ITy) (f : Nat → Nat → Nat) : IsIssue s i (bitOp2 s i t f) := isIssue_alu s i _ _

theorem isIssue_shiftOp (t : ITy) (f : Nat → Nat → Nat) : IsIssue s i (shiftOp s i t f) := isIssue_alu s i _ _

theorem isIssue_fpOp1 (t : FTy) (m : FMods) (f : Fp.Val → Fp.Exact × Fp.Flags) : IsIssue s i (fpOp1 s i t m f) := isIssue_alu s i _ _

theorem isIssue_fpOp2 (t : FTy) (m : FMods) (f : Fp.Val → Fp.Val → Fp.Exact × Fp.Flags) : IsIssue s i (fpOp2 s i t m f) :=
  isIssue_alu s i _ _

theorem isIssue_fpOp3 (t : FTy) (m : FMods) (f : Fp.Val → Fp.Val → Fp.Val → Fp.Exact × Fp.Flags) : IsIssue s i (fpOp3 s i t m f) :=
  isIssue_alu s i _ _

theorem isIssue_fpFun (t : FTy) (m : FMods) (f : FFmt → Rnd → Fp.Val → Nat × Fp.Flags) : IsIssue s i (fpFun s i t m f) :=
  isIssue_alu s i _ _

theorem isIssue_scalInt (t : ITy) (f : Int → Int → Nat) : IsIssue s i (scalInt s i t f) := isIssue_once s i _ _

theorem isIssue_scalBits (t : ITy) (f : Nat → Nat → Nat) : IsIssue s i (scalBits s i t f) := isIssue_once s i _ _

theorem isIssue_scalShift (t : ITy) (f : Nat → Nat → Nat) : IsIssue s i (scalShift s i t f) := isIssue_once s i _ _

theorem isIssue_bankOp (op : BankOp) (t : BkTy) (rnd : Rnd) : IsIssue s i (s.bankOp i op t rnd) := isIssue_issue s i _

theorem isIssue_ringOp (n : Nat) (f : Opnds → State → Nat → Nat → Nat → State) : IsIssue s i (s.ringOp i n f) := isIssue_issue s i _

theorem isIssue_rangeOp (k : Nat) : IsIssue s i (s.rangeOp i k) := isIssue_issue s i _

theorem isIssue_remoteOp (p : BitVec 2) (xr : Bool) : IsIssue s i (s.remoteOp i p xr) := isIssue_issue s i _

theorem isIssue_supply (kind : CopyKind) (s2g : Bool) (slot : Option Nat) : IsIssue s i (s.supply i kind s2g slot) := isIssue_issue s i _

theorem isIssue_wqStat (q : Nat) (f : State → State) : IsIssue s i (s.wqStat i q f) := isIssue_issue s i _

theorem isIssue_tretOp (m : Bool) (stray : State → List Nat → List (Nat × LF)) (f : State → Nat → State) :
    IsIssue s i (s.tretOp i m stray f) := isIssue_issue s i _

theorem isIssue_faultRd (spend : Bool) (pick : Word → FbEntry → Bool) (f : FbEntry → Option FbEntry) :
    IsIssue s i (s.faultRd i spend pick f) := isIssue_issue s i _

theorem isIssue_leaseOp (f : Opnds → State → Nat → List Nat → Nat → State) : IsIssue s i (s.leaseOp i f) := isIssue_issue s i _

theorem isIssue_atomOp (t : ATy) (op : AOp) (ord : AOrd) (returns flags : Bool) : IsIssue s i (s.atomOp i t op ord returns flags) :=
  isIssue_issue s i _

theorem isIssue_sealOp (dec : Bool) : IsIssue s i (s.sealOp i dec) := isIssue_issue s i _

theorem isIssue_fillOp (n : Nat) (src : Opnds → State → Nat → Option Nat) : IsIssue s i (s.fillOp i n src) := isIssue_issue s i _

theorem isIssue_mmaOp (tile ra rb : Nat) (rm : Option Nat) : IsIssue s i (s.mmaOp i tile ra rb rm) := isIssue_issue s i _

theorem isIssue_eachRow (f : Opnds → State → Nat → State) : IsIssue s i (s.eachRow i f) := isIssue_issue s i _

theorem isIssue_publOp (drop : Bool) : IsIssue s i (s.publOp i drop) := isIssue_issue s i _

theorem isIssue_wqOp (q : Nat) : IsIssue s i (s.wqOp i q) := isIssue_issue s i _

theorem isIssue_launchOp (slot : Option Nat) : IsIssue s i (s.launchOp i slot) := isIssue_issue s i _

theorem isIssue_migAck (f : PeerEntry → PeerEntry) : IsIssue s i (s.migAck i f) := isIssue_issue s i _

theorem isIssue_diectl (f : Opnds → State → Nat → Nat → State) : IsIssue s i (s.diectl i f) := isIssue_issue s i _

theorem isIssue_haltOp (p : Power) : IsIssue s i (s.haltOp i p) := isIssue_issue s i _

end

/-- Each meaning is an issue of its own instruction, directly or through an operation that several share. -/
theorem exec_isIssue {i : Instr} {x : Opnds} (hx : i.opnds? = some x) (s : State) : IsIssue s i (exec i s) := by
  cases i <;> cases hx <;> unfold exec
  case iadd | isub | imul | imulhi | imin | imax => exact isIssue_intOp2 ..
  case imad | lut3 | bfe | bfi | icmp | sel | lea | imadWide | prmt | isad | fcmp | fclass | fscale | fdot2 | cvt | fmtGet | flagsGet | pack
    | unpack | xlane | fhz | scbdQ | accStat => exact isIssue_alu ..
  case iabs | ineg | not | popc | clz | brev | mov => exact isIssue_bitOp1 ..
  case shl | shr | sar | rot => exact isIssue_shiftOp ..
  case and | or | xor => exact isIssue_bitOp2 ..
  case fadd | fsub | fmul | fmin | fmax | fdiv => exact isIssue_fpOp2 ..
  case ffma => exact isIssue_fpOp3 ..
  case frcp | frsq | fsqrt | ffrac | fround => exact isIssue_fpOp1 ..
  case fex2 | flg2 | fsin | fcos => exact isIssue_fpFun ..
  case sadd | ssub | smul => exact isIssue_scalInt ..
  case sand | sor | sxor => exact isIssue_scalBits ..
  case sshl | sshr => exact isIssue_scalShift ..
  case scmp | smov | rfl | ballot | agree | spstat | scbdCnt => exact isIssue_once ..
  case ldsRem | stsRem | stsRemArr => exact isIssue_remoteOp ..
  case atom | red => exact isIssue_atomOp ..
  case cleanR | invR | flushR => exact isIssue_rangeOp ..
  case ringAcq | ringPut | ringGet | ringRel => exact isIssue_ringOp ..
  case cpy | cpyX | cpyC => exact isIssue_supply ..
  case publ | publDrop => exact isIssue_publOp ..
  case cpySealEnc | cpySealDec => exact isIssue_sealOp ..
  case bkAdd | bkMul | bkFma | bkRed | bkScale | bkCmp | bkFill => exact isIssue_bankOp ..
  case obld | obldX => exact isIssue_fillOp ..
  case mma | mmas => exact isIssue_mmaOp ..
  case accRenorm | accScale => exact isIssue_eachRow ..
  case wqPush | wqPull => exact isIssue_wqOp ..
  case wqStatCnt | wqStatClose | wqStatOpen => exact isIssue_wqStat ..
  case launch | launchArr => exact isIssue_launchOp ..
  case leaseQStat | leaseQWait | leaseQRel => exact isIssue_leaseOp ..
  case migAckRearm | migAckQuiet => exact isIssue_migAck ..
  case tret | tretNext | tretStrike => exact isIssue_tretOp ..
  case faultRdSeq | faultRdTake | faultRdFree => exact isIssue_faultRd ..
  case diectlReset | diectlStat => exact isIssue_diectl ..
  case haltOff | haltReboot => exact isIssue_haltOp ..
  all_goals exact isIssue_issue ..

/-! ### The checks of an issue, in their order (R28, R29, R59, R126, R146) -/

/-- An issue that need not wait: some lane is active, none waits for a replay, no scalar register that the instruction names is pending, and
an access finds room in the operand log (R131, R265). -/
structure State.free (s : State) (i : Instr) (x : Opnds) : Prop where
  opnds : i.opnds? = some x
  act : s.sel.act ≠ []
  pending : s.pendingLog = []
  scalars : s.pendingScalars.any (fun e => e.blocks i x) = false
  room : i.mayFault = true → s.logFull = false

/-- Where nothing makes the issue wait, its checks decide in their order, on the state before it. -/
theorem State.free.issue {s : State} {i : Instr} {x : Opnds} (h : s.free i x) (f : Opnds → State → State) : s.issue i f =
    if !s.roleOk i.opcode then .next (s.begun.trapAll x.ext.bytes 6)
    else if !s.launchOk i x then .next (s.begun.trapAll x.ext.bytes 2)
    else if i.format?.any fun f => !(Nf.fmtOf (s.freg f)).legal then .next (s.begun.trapAll x.ext.bytes 5)
    else if s.badRead i then .next (s.begun.consume s.sel.blk 1 0)
    else .next (f x s.begun) := by
  obtain ⟨hx, hact, hpend, hscal, hroom⟩ := h
  obtain ⟨a, as, ha⟩ := List.exists_cons_of_ne_nil hact
  have hlog : ¬((i.mayFault && s.logFull) = true) := by simpa using hroom
  unfold State.issue
  rw [hx, ha]
  dsimp only
  rw [if_neg (by simp [hpend]), if_neg (by simp [hscal]), if_neg hlog]
  simp only [State.countIssue_roleOk, State.countIssue_launchOk, State.countIssue_freg, State.countIssue_badRead, State.countIssue_sel]
  rfl

section
variable {s : State} {i : Instr} {x : Opnds} (h : s.free i x)
include h

theorem State.free.exec_of_role (hrole : s.roleOk i.opcode = false) : exec i s = .next (s.begun.trapAll x.ext.bytes 6) := by
  obtain ⟨f, hf⟩ := exec_isIssue h.opnds s
  rw [hf, h.issue, hrole]
  rfl

theorem State.free.exec_of_launch (hrole : s.roleOk i.opcode = true) (hlaunch : s.launchOk i x = false) :
    exec i s = .next (s.begun.trapAll x.ext.bytes 2) := by
  obtain ⟨f, hf⟩ := exec_isIssue h.opnds s
  rw [hf, h.issue, hrole, hlaunch]
  rfl

theorem State.free.exec_of_format (hrole : s.roleOk i.opcode = true) (hlaunch : s.launchOk i x = true)
    (hformat : i.format?.any (fun f => !(Nf.fmtOf (s.freg f)).legal) = true) : exec i s = .next (s.begun.trapAll x.ext.bytes 5) := by
  obtain ⟨f, hf⟩ := exec_isIssue h.opnds s
  rw [hf, h.issue, hrole, hlaunch, hformat]
  rfl

/-- A read of a register with an uncorrectable error presupposes that the checks before it pass (R146). -/
theorem State.free.exec_of_badRead (hbad : s.badRead i = true) : exec i s = .next (s.begun.consume s.sel.blk 1 0) := by
  obtain ⟨f, hf⟩ := exec_isIssue h.opnds s
  have hchecks := hbad
  unfold State.badRead at hchecks
  rw [h.opnds] at hchecks
  simp only [Bool.and_eq_true, Bool.not_eq_true'] at hchecks
  obtain ⟨⟨⟨hrole, hlaunch⟩, hformat⟩, _⟩ := hchecks
  rw [hf, h.issue, hrole, hlaunch, hformat, hbad]
  rfl

end

/-! ### The fetch (R28, R29, R48, R266) -/

section
variable {s w : State} {e : ILine} (hcanon : canonical s.sel.pc = true)
include hcanon

theorem fetchNow_of_misaligned (hpc : s.sel.pc.toNat % 4 ≠ 0) : s.fetchNow.2 =
    .stop (((s.countIssue 1).fault 4 (s.sel.act.map fun t => (t, { cause := 4, addr := s.sel.pc }))).settle s.sel.blk) := by
  unfold State.fetchNow
  dsimp only
  rw [if_neg (by simp [hcanon]), if_pos (by simpa using hpc)]
  simp only [State.countIssue_sel]

/-- What a fetch makes of the block of the instruction stream that it has reached. -/
def fetchedFrom (w : State) (pc : DWord) (e : ILine) : State × Fetched :=
  let op := leNat (e.code pc.toNat 2) / 4 % 256
  match lenBytes (leNat (e.code pc.toNat 1) % 4) with
  | none => (w, .stop (w.illEncoded op 4 3))
  | some n =>
    if 32 < pc.toNat % 32 + n then (w, .stop (w.illEncoded op n 4))
    else
      match decode (e.code pc.toNat n) with
      | .ok i => (w, .ok i)
      | .illegalLen => (w, .stop (w.illEncoded op 4 3))
      | .illegalOpcode => (w, .stop (w.illEncoded op n 1))
      | .illegalOperand op => (w, .stop (w.illEncoded op n (if w.roleOk op then 2 else 6)))

theorem fetchNow_of_page (hpc : s.sel.pc.toNat % 4 = 0) (hpage : s.fetchPage = (w, .ok e)) : s.fetchNow = fetchedFrom w s.sel.pc e := by
  unfold State.fetchNow
  dsimp only
  rw [if_neg (by simp [hcanon]), if_neg (by simp [hpc]), hpage]
  rfl

end

section
variable {w : State} {pc : DWord} {e : ILine} {n : Nat}

theorem fetchedFrom_of_illegalLen (h : leNat (e.code pc.toNat 1) % 4 = 3) :
    fetchedFrom w pc e = (w, .stop (w.illEncoded (leNat (e.code pc.toNat 2) / 4 % 256) 4 3)) := by
  rw [fetchedFrom, h]
  rfl

variable (hlen : lenBytes (leNat (e.code pc.toNat 1) % 4) = some n)
include hlen

theorem fetchedFrom_of_crossing (h : 32 < pc.toNat % 32 + n) :
    fetchedFrom w pc e = (w, .stop (w.illEncoded (leNat (e.code pc.toNat 2) / 4 % 256) n 4)) := by
  rw [fetchedFrom, hlen]
  exact if_pos h

theorem fetchedFrom_of_illegalOpcode (h : pc.toNat % 32 + n ≤ 32) (hdecode : decode (e.code pc.toNat n) = .illegalOpcode) :
    fetchedFrom w pc e = (w, .stop (w.illEncoded (leNat (e.code pc.toNat 2) / 4 % 256) n 1)) := by
  rw [fetchedFrom, hlen]
  dsimp only
  rw [if_neg (Nat.not_lt.2 h), hdecode]

theorem fetchedFrom_of_illegalOperand (h : pc.toNat % 32 + n ≤ 32) {op : Nat} (hdecode : decode (e.code pc.toNat n) = .illegalOperand op) :
    fetchedFrom w pc e = (w, .stop (w.illEncoded op n (if w.roleOk op then 2 else 6))) := by
  rw [fetchedFrom, hlen]
  dsimp only
  rw [if_neg (Nat.not_lt.2 h), hdecode]

end

/-- What may not issue in a fault shadow waits there; anything else traps (R28, R266). -/
theorem illEncoded_eq (w : State) (op len cause : Nat) : w.illEncoded op len cause =
    if w.pendingLog ≠ [] ∧ opInShadow op = false then w.noIssue else (w.countIssue 1).trapAll len cause := by
  rw [State.illEncoded]
  simp only [Bool.and_eq_true, Bool.not_eq_true', List.isEmpty_eq_false_iff]

/-- Settles O58: a fetch ends at the first of its checks that fails (`fetchNow_of_page`), and every instruction is an issue (`exec_isIssue`),
whose checks decide in their order (`State.free.issue`). -/
theorem encodingTraps : Obligations.EncodingTraps := by
  unfold Obligations.EncodingTraps
  refine ⟨fun s hcanon => ⟨fetchNow_of_misaligned hcanon, fun w e hpc hpage => ?fetch⟩, fun s i x hx hact hpend hscal hroom => ?issue⟩
  case issue =>
    have hfree : s.free i x := ⟨hx, hact, hpend, hscal, hroom⟩
    exact ⟨hfree.exec_of_role, hfree.exec_of_launch, hfree.exec_of_format⟩
  case fetch =>
    intro trap op
    have htrap : ∀ op len cause, trap op len cause = (w, .stop (w.illEncoded op len cause)) := fun op len cause => by
      rw [illEncoded_eq]
    simp only [fetchNow_of_page hcanon hpc hpage, htrap]
    exact ⟨fetchedFrom_of_illegalLen, fun n hlen => ⟨fetchedFrom_of_crossing hlen, fun hfit =>
      ⟨fetchedFrom_of_illegalOpcode hlen hfit, fun _ => fetchedFrom_of_illegalOperand hlen hfit⟩⟩⟩
end Sys2Proof.Machine
end

section
/-! Pre-emption (R138 to R142, R242, R248). What an interruption of a block leaves alone is said here once, for the pre-emption trap and for
rollback. -/

namespace Sys2Proof.Machine

namespace State

variable {s u : State}

/-- A fold keeps what each of its steps keeps. -/
theorem foldl_keeps {α β γ : Type} (π : γ → β) (f : γ → α → γ) (hf : ∀ s e, π (f s e) = π s) (l : List α) (s : γ) :
    π (l.foldl f s) = π s := by
  induction l generalizing s with
  | nil => rfl
  | cons e l ih => exact (ih _).trans (hf s e)

/-! ### The waits that an interruption ends (R246, R287, R329, R338, R401) -/

/-- The threads of a block, with the waits ended that an interruption ends. -/
def waitsEnded (b : Block) (swap : Bool) : List Thread :=
  b.threads.map fun t => { t with
    wait := if t.wait.ends swap then .none else t.wait
    group := if ((b.threads.filter fun t => t.wait.ends swap).map fun t => (t.pc, t.group)).contains (t.pc, t.group) then 0 else t.group }

theorem dropRequests_blocks (s : State) (b : Nat) : (s.dropRequests b).blocks = s.blocks := by
  refine foldl_keeps State.blocks _ (fun s k => ?_) _ s
  dsimp only
  split <;> rfl

theorem dropBins_blocks (s : State) (b : Nat) : (s.dropBins b).blocks = s.blocks := by
  rw [dropBins]
  exact foldl_keeps State.blocks _ (by exact fun _ _ => rfl) _ s

theorem dropRequests_blk (s : State) (b n : Nat) : (s.dropRequests b).blk n = s.blk n := by rw [blk, blk, dropRequests_blocks]

theorem dropBins_blk (s : State) (b n : Nat) : (s.dropBins b).blk n = s.blk n := by rw [blk, blk, dropBins_blocks]

theorem clearWaits_blk (s : State) (b : Nat) (swap : Bool) :
    (s.clearWaits b swap).blk b = { s.blk b with threads := waitsEnded (s.blk b) swap } := by
  simp only [clearWaits, blk_modBlk_same, blk_modDie, dropRequests_blk, waitsEnded]

theorem clearWaits_mem (s : State) (b : Nat) (swap : Bool) : (s.clearWaits b swap).mem = s.mem := by
  simp only [clearWaits, modBlk_mem, modDie_mem, (s.sameWork_dropRequests b).1]

@[simp] theorem waitsEnded_length (b : Block) (swap : Bool) : (waitsEnded b swap).length = b.threads.length := by simp [waitsEnded]

/-- An interruption ends waits, and no register of a thread changes. -/
theorem waitsEnded_v (b : Block) (swap : Bool) : (waitsEnded b swap).map (·.v) = b.threads.map (·.v) := by simp [waitsEnded]

/-! ### The pre-emption trap (R139) -/

/-- The threads of a block that take the pre-emption trap at once: all but those in the supervisor handler. -/
def trapped (b : Block) : List Nat := b.open.filter fun t => (b.thr t).level != 2

/-- A block with a handler takes the trap: its threads run the handler, and its 100 µs begin. -/
theorem takePreempt_blk {b : Nat} (h : (s.blk b).hdr.handler ≠ 0) : ∃ clk, (s.takePreempt b).blk b =
    { ({ s.blk b with threads := waitsEnded (s.blk b) (s.blk b).swapOut } : Block).modThrs (trapped (s.blk b))
        (fun _ t => t.enterTrap (s.blk b).hdr.handler clk) with
      state := .preempting, preemptHeld := false, savedByHw := false
      preemptDue := some ((s.die ((s.blk b).core / 48)).clk + (s.die ((s.blk b).core / 48)).hundredMicros)
      trapDue := (s.blk b).open.filter fun t => ((s.blk b).thr t).level == 2 } := by
  rw [takePreempt, if_neg h, blk_modBlk_same, trapThreads, blk_modBlk_same, dropBins_blk, clearWaits_blk]
  exact ⟨_, rfl⟩

/-- A running block takes a request to pre-empt it. -/
theorem requestPreempt_of_running {b : Nat} (swap : Bool) (h : (s.blk b).state = .running) :
    s.requestPreempt b swap = (s.modBlk b fun x => { x with swapOut := swap }).takePreempt b := by
  rw [requestPreempt, h]

/-- What a running block with a handler is, once its pre-emption is requested. -/
theorem requestPreempt_blk {b : Nat} (swap : Bool) (hrun : (s.blk b).state = .running) (h : (s.blk b).hdr.handler ≠ 0) :
    ∃ clk, (s.requestPreempt b swap).blk b =
    { ({ s.blk b with swapOut := swap, threads := waitsEnded (s.blk b) swap } : Block).modThrs (trapped (s.blk b))
        (fun _ t => t.enterTrap (s.blk b).hdr.handler clk) with
      state := .preempting, preemptHeld := false, savedByHw := false
      preemptDue := some ((s.die ((s.blk b).core / 48)).clk + (s.die ((s.blk b).core / 48)).hundredMicros)
      trapDue := (s.blk b).open.filter fun t => ((s.blk b).thr t).level == 2 } := by
  have hswap : ((s.modBlk b fun x => { x with swapOut := swap }).blk b) = { s.blk b with swapOut := swap } := blk_modBlk_same ..
  rw [requestPreempt_of_running swap hrun]
  obtain ⟨clk, htrap⟩ := takePreempt_blk (s := s.modBlk b fun x => { x with swapOut := swap }) (b := b) (by rw [hswap]; exact h)
  refine ⟨clk, htrap.trans ?_⟩
  rw [hswap]
  rfl

/-- A thread of a block that is interrupted keeps its registers. -/
theorem thr_waitsEnded_v (b : Block) (swap : Bool) (k : Nat) :
    (({ b with threads := waitsEnded b swap } : Block).thr k).v = (b.thr k).v := by
  simp only [Block.thr, waitsEnded, List.getD_eq_getElem?_getD, List.getElem?_map]
  cases b.threads[k]? <;> rfl

end State

open State

variable {s u : State} {b : Nat}

/-! ### The events -/

theorem preemptionTrap_of_victim (h : (s.victims ((s.blk b).core / 48)).contains b = true) :
    exec (.preemptionTrap b) s = .next ((s.members b).foldl (fun s m => s.requestPreempt m false) s) := by
  rw [exec_preemptionTrap, execPreemptionTrap, if_pos h]

/-- A block whose bundles all wait on `waitcmp` is swapped out: its open threads run its handler. -/
theorem preemptionTrap_swaps_out (hv : (s.victims ((s.blk b).core / 48)).contains b = false) (hrun : (s.blk b).state = .running)
    (hwait : (s.blk b).allWaitcmp = true) (hh : (s.blk b).hdr.handler ≠ 0) :
    ∃ t, exec (.preemptionTrap b) s = .next t ∧ (t.blk b).state = .preempting ∧ (t.blk b).swapOut = true
      ∧ ∀ k ∈ (s.blk b).open, ((s.blk b).thr k).level ≠ 2 → k < (s.blk b).threads.length →
        ((t.blk b).thr k).pc = (s.blk b).hdr.handler ∧ ((t.blk b).thr k).level = 1 ∧ ((t.blk b).thr k).v = ((s.blk b).thr k).v := by
  refine ⟨s.requestPreempt b true, ?_, ?_⟩
  · rw [exec_preemptionTrap, execPreemptionTrap, if_neg (by rw [hv]; exact Bool.false_ne_true), if_pos (by simp [hrun, hwait])]
  obtain ⟨clk, hblk⟩ := requestPreempt_blk true hrun hh
  rw [hblk]
  refine ⟨rfl, rfl, fun k hk hlevel hlen => ?_⟩
  have hthr : (({ s.blk b with swapOut := true, threads := waitsEnded (s.blk b) true } : Block).modThrs (trapped (s.blk b))
      fun _ t => t.enterTrap (s.blk b).hdr.handler clk).thr k =
      ((({ s.blk b with swapOut := true, threads := waitsEnded (s.blk b) true } : Block).thr k).enterTrap (s.blk b).hdr.handler clk) := by
    rw [Block.thr_modThrs, if_pos ⟨by simp [trapped, hk, hlevel], by simpa using hlen⟩]
  have hregs := thr_waitsEnded_v (s.blk b) true k
  exact ⟨congrArg Thread.pc hthr, congrArg Thread.level hthr, (congrArg Thread.v hthr).trans hregs⟩

/-- After its 100 µs the hardware saves the block where it stands (R140). -/
theorem preemptionTimeout_stops {due : Nat} (hstate : (s.blk b).state = .preempting) (hdue : (s.blk b).preemptDue = some due)
    (hle : due ≤ (s.die ((s.blk b).core / 48)).clk) :
    ∃ t, exec (.preemptionTimeout b) s = .next t ∧ (t.blk b).savedByHw = true ∧ (t.blk b).preemptDue = none
      ∧ (t.blk b).state = .preempting ∧ t.mem = s.mem := by
  rw [exec_preemptionTimeout, execPreemptionTimeout, if_pos (by simp [hstate, hdue, hle])]
  refine ⟨_, rfl, ?_⟩
  rw [blk_modBlk_same, clearWaits_blk]
  exact ⟨rfl, rfl, hstate, by rw [modBlk_mem, clearWaits_mem]⟩

theorem requestPreempt_gives_hundredMicros (swap : Bool) (hrun : (s.blk b).state = .running) (hh : (s.blk b).hdr.handler ≠ 0) :
    ((s.requestPreempt b swap).blk b).state = .preempting
    ∧ ((s.requestPreempt b swap).blk b).preemptDue =
      some ((s.die ((s.blk b).core / 48)).clk + 100 * (s.die ((s.blk b).core / 48)).mhz) := by
  obtain ⟨clk, hblk⟩ := requestPreempt_blk swap hrun hh
  rw [hblk]
  exact ⟨rfl, rfl⟩

/-- A block that the save takes is saved, and has left its rows. -/
theorem saveBlock_blk (u : State) (b : Nat) : ((u.saveBlock b).blk b).state = .saved ∧ ((u.saveBlock b).blk b).rows = [] := by
  rw [saveBlock, blk_modBlk_same]
  exact ⟨rfl, rfl⟩

theorem preemptionSave_of_read (hd : s.drained b = true) (hr : s.saveReads b = (u, none)) (hswap : (u.blk b).swapOut = false) :
    exec (.preemptionSave b) s = .next (u.saveBlock b) := by
  rw [exec_preemptionSave, execPreemptionSave, hd, hr]
  simp [hswap]

theorem preemptionSave_of_error {trig : Nat} (hd : s.drained b = true) (hr : s.saveReads b = (u, some trig)) :
    exec (.preemptionSave b) s = .next (u.consume b trig 0) := by
  rw [exec_preemptionSave, execPreemptionSave, hd, hr]
  rfl

theorem blockRestore_of_spots {spots : List (Nat × Nat)}
    (hs : (s.restorable ((s.blk b).core / 48)).bind s.restoreSpot = some spots) (hb : ∃ c, (b, c) ∈ spots)
    (hserves : s.dieServes ((s.blk b).core / 48) = true) :
    exec (.blockRestore b) s = .next (spots.foldl (fun s e => s.startRestore e.1 e.2) s) := by
  obtain ⟨c, hc⟩ := hb
  have hturn : (spots.any fun e => e.1 == b) = true := List.any_eq_true.2 ⟨(b, c), hc, by simp⟩
  rw [exec_blockRestore, execBlockRestore, hs]
  simp [hturn, hserves]

/-- A saved member's swap entry becomes valid (R248). -/
theorem swapEntryValid_marks (hsaved : (s.blk b).state = .saved) (hport : (s.core (s.blk b).core).port = []) :
    ∃ t, exec (.swapEntryValid b) s = .next t ∧ t.blocks = s.blocks
      ∧ ∀ e ∈ (t.cluster ((s.blk b).core / 4)).swap, e.blk = b → e.valid = true := by
  refine ⟨s.modCluster ((s.blk b).core / 4) fun k => { k with
    swap := k.swap.map fun e => if e.blk == b then { e with valid := true } else e }, ?_, rfl, fun e he hblk => ?_⟩
  · rw [exec_swapEntryValid, execSwapEntryValid, if_neg (by simp [hsaved])]
    simp only [core_modCluster, hport]
    rfl
  · rw [cluster_modCluster_same, List.mem_map] at he
    obtain ⟨e', _, rfl⟩ := he
    by_cases h : e'.blk = b
    · simp [h]
    · simp [h] at hblk

/-- Settles O40, event by event. -/
theorem preemptionEvents : Obligations.PreemptionEvents := by
  unfold Obligations.PreemptionEvents
  refine fun s b => ⟨preemptionTrap_of_victim, preemptionTrap_swaps_out, fun _ => preemptionTimeout_stops,
    fun swap => requestPreempt_gives_hundredMicros swap, fun u hd => ⟨fun hr hswap => ?_, fun _ hr => preemptionSave_of_error hd hr⟩,
    fun _ => blockRestore_of_spots, swapEntryValid_marks⟩
  exact ⟨_, preemptionSave_of_read hd hr hswap, rfl, saveBlock_blk u b⟩

end Sys2Proof.Machine
end

section
/-! What a rollback undoes (R145, R148): the entries of the journal. -/

namespace Sys2Proof

/-! ### Tables that are cut and put together -/

theorem Sparse.look_append {α : Type} (m n : Sparse α) (k : Nat) :
    Sparse.look (m ++ n : List (Nat × α)) k = (Sparse.look m k).or (Sparse.look n k) := by
  induction m with
  | nil => rfl
  | cons e m ih =>
    obtain ⟨a, v⟩ := e
    rw [List.cons_append, Sparse.look, Sparse.look, ih]
    split <;> rfl

theorem Sparse.look_filter_key {α : Type} (m : Sparse α) (p : Nat → Bool) (k : Nat) :
    Sparse.look (m.filter fun e => p e.1) k = if p k then Sparse.look m k else none := by
  induction m with
  | nil => simp
  | cons e m ih =>
    obtain ⟨a, v⟩ := e
    by_cases hk : k = a
    · subst hk
      by_cases hp : p k = true
      · simp [hp, Sparse.look]
      · rw [List.filter_cons_of_neg (by simpa using hp), ih, if_neg hp, if_neg hp]
    · by_cases hp : p a = true
      · rw [List.filter_cons_of_pos (by simpa using hp), Sparse.look, if_neg hk, ih, Sparse.look, if_neg hk]
      · rw [List.filter_cons_of_neg (by simpa using hp), ih, Sparse.look, if_neg hk]

end Sys2Proof

namespace Sys2Proof.Machine

/-- The bytes of a range as entries of a table: those that are not 0. -/
def rangeEntries (lo : Nat) (bs : List Byte) : Sparse Byte := (bs.zipIdx lo).filterMap fun e => if e.1 = 0 then none else some (e.2, e.1)

theorem look_rangeEntries_outside {lo a : Nat} {bs : List Byte} (h : a < lo ∨ lo + bs.length ≤ a) :
    Sparse.look (rangeEntries lo bs) a = none := by
  refine Sparse.look_eq_none_of_forall fun e he hkey => ?_
  obtain ⟨⟨x, i⟩, hx, hxe⟩ := List.mem_filterMap.1 he
  obtain ⟨hge, hlt, -⟩ := List.mem_zipIdx hx
  split at hxe
  · cases hxe
  · cases hxe
    dsimp only at hkey
    omega

theorem getOr_rangeEntries_cons (lo a : Nat) (x : Byte) (bs : List Byte) :
    Sparse.getOr (rangeEntries lo (x :: bs)) a 0 = if a = lo then x else Sparse.getOr (rangeEntries (lo + 1) bs) a 0 := by
  rw [rangeEntries, List.zipIdx_cons]
  by_cases hx : x = 0
  · rw [List.filterMap_cons_none (by rw [if_pos hx])]
    change Sparse.getOr (rangeEntries (lo + 1) bs) a 0 = _
    split
    next ha =>
      subst ha
      rw [Sparse.getOr, look_rangeEntries_outside (.inl (Nat.lt_succ_self a)), hx]
      rfl
    next => rfl
  · rw [List.filterMap_cons_some (by rw [if_neg hx]), Sparse.getOr, Sparse.look]
    split <;> rfl

theorem getOr_rangeEntries (lo a : Nat) (bs : List Byte) (h : lo ≤ a) : Sparse.getOr (rangeEntries lo bs) a 0 = bs.getD (a - lo) 0 := by
  induction bs generalizing lo with
  | nil => rfl
  | cons x bs ih =>
    rw [getOr_rangeEntries_cons]
    rcases Nat.eq_or_lt_of_le h with rfl | hlt
    · simp
    · rw [if_neg hlt.ne', ih _ hlt, show a - lo = a - (lo + 1) + 1 by omega, List.getD_cons_succ]

theorem look_putRange (m : Sparse Byte) (lo a : Nat) (bs : List Byte) : Sparse.look (putRange m lo bs) a =
    ((if a < lo then Sparse.look m a else none).or (Sparse.look (rangeEntries lo bs) a)).or
      (if lo + bs.length ≤ a then Sparse.look m a else none) := by
  rw [putRange, Sparse.look_append, Sparse.look_append, Sparse.look_filter_key m (fun k => decide (k < lo)),
    Sparse.look_filter_key m (fun k => decide (lo + bs.length ≤ k))]
  simp only [decide_eq_true_eq]
  rfl

/-- What is put into a range of a buffer stands there. -/
theorem getOr_putRange_inside (m : Sparse Byte) {lo a : Nat} {bs : List Byte} (hlo : lo ≤ a) (hhi : a < lo + bs.length) :
    Sparse.getOr (putRange m lo bs) a 0 = bs.getD (a - lo) 0 := by
  rw [← getOr_rangeEntries lo a bs hlo, Sparse.getOr, look_putRange, if_neg (Nat.not_lt.2 hlo), if_neg (Nat.not_le.2 hhi),
    Option.none_or, Option.or_none, Sparse.getOr]

/-- The rest of the buffer is as it was. -/
theorem getOr_putRange_outside (m : Sparse Byte) {lo a : Nat} {bs : List Byte} (h : a < lo ∨ lo + bs.length ≤ a) :
    Sparse.getOr (putRange m lo bs) a 0 = Sparse.getOr m a 0 := by
  rw [Sparse.getOr, look_putRange, look_rangeEntries_outside h, Option.or_none]
  rcases h with h | h
  · rw [if_pos h, if_neg (by omega), Option.or_none, Sparse.getOr]
  · rw [if_neg (by omega), if_pos h, Option.none_or, Sparse.getOr]

/-! ### One entry undone -/

theorem mem_homeLanes {l n : Nat} : l ∈ (List.range 128).map (128 * n + ·) ↔ homeBundle l = n := by
  simp only [List.mem_map, List.mem_range, homeBundle]
  constructor
  · rintro ⟨h, hh, rfl⟩
    omega
  · intro hn
    exact ⟨l % 128, by omega, by omega⟩

namespace State

variable (s : State) (b : Nat)

theorem undo_vrow_thr (n k l : Nat) (old : List Word) : ((s.undo b (.vrow n k old)).blk b).thr l =
    if homeBundle l = n ∧ l < (s.blk b).threads.length then ((s.blk b).thr l).setV k (old.getD (homeLane l) 0) else (s.blk b).thr l := by
  rw [undo, blk_modBlk_same, Block.thr_modThrs]
  simp only [mem_homeLanes]

theorem undo_trow_part (q tile row : Nat) (old : AccRow) :
    (s.undo b (.trow q tile row old)).part (4 * (s.blk b).core + q) = (s.part (4 * (s.blk b).core + q)).modTile tile fun y => { y with
      rows := Sparse.putOr y.rows row old AccRow.reset } := part_modPart_same ..

theorem undo_obuf_buf (q kib : Nat) (old : List Byte) (bad : List Nat) :
    ((s.undo b (.obuf q kib old bad)).part (4 * (s.blk b).core + q)).buf =
      putRange (s.part (4 * (s.blk b).core + q)).buf (1024 * kib) old := by
  rw [undo, part_modPart_same]

theorem undo_srow_scratch (row : Nat) (old : List Word) (bad : List Nat) :
    ((s.undo b (.srow row old bad)).core (s.blk b).core).scratch = (s.core (s.blk b).core).scratch.restoreRow row old bad := by
  rw [undo, core_modPad_same]

end State

/-- A tile of a partition after an update of one. -/
theorem Partition.tile_modTile (p : Partition) (i tile : Nat) (f : Tile → Tile) :
    (p.modTile tile f).tile i = if i = tile then f (p.tile tile) else p.tile i := Sparse.getOr_putOr ..

open State

theorem undoRestores : Machine.UndoRestores := by
  refine fun s b => ⟨fun n k old l hl => ⟨fun hn => ?vrow, fun hn => ?otherRow⟩, fun q tile row old => ⟨?trow, fun i j hij => ?otherTile⟩,
    fun q kib old bad hlen => ⟨fun j hj => ?obuf, fun a ha => ?otherKib⟩, fun row old bad => ⟨s.undo_srow_scratch b row old bad, rfl⟩⟩
  case vrow =>
    have hthr := s.undo_vrow_thr b n k l old
    rw [if_pos ⟨hn, hl⟩] at hthr
    rw [hthr]
    exact ⟨by rw [Thread.vreg_setV, if_pos rfl], fun j hj => by rw [Thread.vreg_setV, if_neg hj]⟩
  case otherRow =>
    rw [undo_vrow_thr, if_neg fun h => hn h.1]
  case trow =>
    dsimp only
    rw [undo_trow_part, Partition.tile_modTile, if_pos rfl]
    exact Sparse.getOr_putOr_same ..
  case otherTile =>
    dsimp only
    rw [undo_trow_part, Partition.tile_modTile]
    by_cases hi : i = tile
    · subst hi
      rw [if_pos rfl]
      exact Sparse.getOr_putOr_ne _ (fun hj => hij ⟨rfl, hj⟩) ..
    · rw [if_neg hi]
  case obuf =>
    dsimp only
    rw [undo_obuf_buf, getOr_putRange_inside _ (by omega) (by omega), Nat.add_sub_cancel_left]
  case otherKib =>
    dsimp only
    rw [undo_obuf_buf, getOr_putRange_outside _ (by omega)]

end Sys2Proof.Machine
end

section
/-! Consumption, reform bins, forced dissolution and afterglow (R135, R136, R143, R146, R150). -/

namespace Sys2Proof

/-! ### Lists in the order of a key -/

theorem mem_insertBy {α : Type} (f : α → Nat) {a x : α} {l : List α} : a ∈ insertBy f x l ↔ a = x ∨ a ∈ l := by
  induction l with
  | nil => simp [insertBy]
  | cons y ys ih =>
    rw [insertBy]
    split
    · simp
    · simp only [List.mem_cons, ih]
      tauto

theorem mem_foldl_insertBy {α : Type} (f : α → Nat) {a : α} {l acc : List α} :
    a ∈ l.foldl (fun acc x => insertBy f x acc) acc ↔ a ∈ acc ∨ a ∈ l := by
  induction l generalizing acc with
  | nil => simp
  | cons x l ih =>
    rw [List.foldl_cons, ih, mem_insertBy, List.mem_cons]
    tauto

/-- Sorting keeps the members of a list. -/
theorem mem_sortBy {α : Type} (f : α → Nat) {a : α} {l : List α} : a ∈ sortBy f l ↔ a ∈ l := by
  rw [sortBy, mem_foldl_insertBy]
  simp

end Sys2Proof

namespace Sys2Proof.Machine

open State

variable {s : State} {b : Nat}

/-! ### An error is consumed (R146) -/

theorem consume_of_revocable (trig : Nat) (a : DWord) (hi : (s.blk b).state.issues = true) (hr : (s.blk b).irrevocable = false)
    (hn : (s.blk b).rollbacks < 3) : s.consume b trig a = s.modBlk b fun b => { b with
      state := .rollingBack, trig := trig, trigAddr := a, preemptHeld := b.preemptHeld || b.state == .preempting
      preemptDue := none, savedByHw := false, trapDue := [] } := by
  simp [State.consume, hi, hr, Nat.not_le.2 hn]

/-- A consumption in a revocable interval starts a rollback. -/
theorem consume_rolls_back (trig : Nat) (a : DWord) (hi : (s.blk b).state.issues = true) (hr : (s.blk b).irrevocable = false)
    (hn : (s.blk b).rollbacks < 3) : ((s.consume b trig a).blk b).state = .rollingBack ∧ ((s.consume b trig a).blk b).trig = trig
      ∧ ((s.consume b trig a).blk b).trigAddr = a ∧ (s.consume b trig a).mem = s.mem ∧ (s.consume b trig a).dies = s.dies := by
  rw [consume_of_revocable trig a hi hr hn, blk_modBlk_same]
  exact ⟨rfl, rfl, rfl, rfl, rfl⟩

theorem consume_of_irrevocable (trig : Nat) (a : DWord) (hi : (s.blk b).state.issues = true) (hr : (s.blk b).irrevocable = true) :
    s.consume b trig a = s.kill b 0x40 trig a := by
  simp [State.consume, hi, hr]

theorem consume_of_fourth (trig : Nat) (a : DWord) (hi : (s.blk b).state.issues = true) (hr : (s.blk b).irrevocable = false)
    (hn : 3 ≤ (s.blk b).rollbacks) : s.consume b trig a = s.kill b 0x41 trig a := by
  simp [State.consume, hi, hr, hn]

/-! ### Bins (R135, R136) -/

theorem binDraw_draws {part bin : Nat} {x : Bin}
    (h : ((s.binsDue part).take (8 - (s.drawnOn part).length)).find? (fun e => e.1 == bin) = some (bin, x)) :
    ∃ t k d, exec (.binDraw part bin) s = .next t ∧ Sparse.look (t.blk x.blk).drawn k = some d ∧ d.part = part
      ∧ (∀ m, m ∈ d.members ↔ m ∈ x.threads.map (·.1))
      ∧ (∀ m ∈ d.members, m < (s.blk x.blk).threads.length →
        ((t.blk x.blk).thr m).ctx = some k ∧ ((t.blk x.blk).thr m).pc = x.pc ∧ ((t.blk x.blk).thr m).status = .running)
      ∧ Sparse.look (t.part part).bins bin = none := by
  rw [exec_binDraw, execBinDraw, h]
  refine ⟨_, (s.blk x.blk).drawn.keys.foldl max 0 + 1, ?bundle, rfl, ?drawn, ?partition, fun m => ?members, fun m hm hlen => ?thread, ?bins⟩
  case drawn =>
    rw [blk_modBlk_same, blk_modPart]
    exact Sparse.look_put_same ..
  case partition => rfl
  case members => exact mem_sortBy homeLane
  case thread =>
    have hthr := Block.thr_modThrs (s.blk x.blk) m (sortBy homeLane (x.threads.map (·.1))) fun _ t => { t with
      status := .running, ctx := some ((s.blk x.blk).drawn.keys.foldl max 0 + 1), pc := x.pc, wait := .none, group := 0 }
    rw [if_pos ⟨hm, hlen⟩] at hthr
    rw [blk_modBlk_same, blk_modPart]
    exact ⟨congrArg Thread.ctx hthr, congrArg Thread.pc hthr, congrArg Thread.status hthr⟩
  case bins =>
    rw [part_modBlk, part_modPart_same]
    exact Sparse.look_del_same ..

theorem forcedDissolution_dissolves {k : Nat} {d : Drawn} (hd : Sparse.look (s.blk b).drawn k = some d)
    (hdue : ∃ e, s.dissolvable d.part = some (b, k, e)) :
    exec (.forcedDissolution b k) s = .next ((s.modBlk b fun x =>
      { (x.homeLogs d).modThrs d.members (fun _ t => if t.ctx == some k then { t with ctx := none } else t) with
        drawn := Sparse.del (x.homeLogs d).drawn k }).settle b) := by
  obtain ⟨e, he⟩ := hdue
  rw [exec_forcedDissolution, execForcedDissolution, hd]
  dsimp only
  rw [he, if_pos (by simp)]

/-! ### Afterglow (R143) -/

theorem mem_of_added (n : Nat) (l : List Nat) : n ∈ if l.contains n then l else l ++ [n] := by
  split
  next h => simpa using h
  next => simp

theorem forceAfterglow_die (s : State) (n : Nat) :
    ∃ t, exec (.forceAfterglow true n) s = .next t ∧ n ∈ t.hub.forcedDies ∧ t.hub.forcedDoms = s.hub.forcedDoms := by
  rw [exec_forceAfterglow, execForceAfterglow]
  exact ⟨_, rfl, mem_of_added n s.hub.forcedDies, rfl⟩

theorem forceAfterglow_domain (s : State) (n : Nat) :
    ∃ t, exec (.forceAfterglow false n) s = .next t ∧ n ∈ t.hub.forcedDoms ∧ t.hub.forcedDies = s.hub.forcedDies := by
  rw [exec_forceAfterglow, execForceAfterglow]
  exact ⟨_, rfl, mem_of_added n s.hub.forcedDoms, rfl⟩

/-- The operations in a block's release queues issue; no other wait ends. -/
theorem afterglowRelease_frees (s : State) (b : Nat) : ∃ t, exec (.afterglowRelease b) s = .next t ∧ ∀ k, (t.blk b).thr k =
    { (s.blk b).thr k with wait := if ((s.blk b).thr k).wait = .outgoing false then .outgoing true else ((s.blk b).thr k).wait } := by
  rw [exec_afterglowRelease, execAfterglowRelease]
  refine ⟨_, rfl, fun k => ?_⟩
  rw [blk_modBlk_same]
  simp only [Block.thr, List.getD_eq_getElem?_getD, List.getElem?_map]
  cases (s.blk b).threads[k]? with
  | none => rfl
  | some t =>
    simp only [Option.map_some, Option.getD_some]
    by_cases h : t.wait = .outgoing false <;> simp [h]

end Sys2Proof.Machine
end

section
/-! Rollback (R148): the block goes back to its checkpoint, with its journal undone, and runs. -/

namespace Sys2Proof.Machine

namespace State

variable {s t u : State} {b : Nat}

theorem foldl_fixed_of_mem {α β : Type} {f : β → α → β} {s : β} {l : List α} (h : ∀ e ∈ l, f s e = s) : l.foldl f s = s := by
  induction l with
  | nil => rfl
  | cons e l ih => rw [List.foldl_cons, h e (by simp), ih fun e he => h e (by simp [he])]

/-! ### The data that a journal restores (R145) -/

/-- Two states have the same vector registers in a block, and the same scratchpads, tiles and operand buffers. -/
structure sameData (b : Nat) (s t : State) : Prop where
  core : (t.blk b).core = (s.blk b).core
  length : (t.blk b).threads.length = (s.blk b).threads.length
  regs : ∀ k, ((t.blk b).thr k).v = ((s.blk b).thr k).v
  pads : ∀ c, (t.core c).scratch = (s.core c).scratch
  mats : ∀ p, (t.part p).tiles = (s.part p).tiles ∧ (t.part p).buf = (s.part p).buf

/-- What an entry of the journal restores depends on the data alone. -/
theorem sameData.undo (h : s.sameData b t) (e : JEntry) : (s.undo b e).sameData b (t.undo b e) := by
  cases e with
  | vrow n k old =>
    refine ⟨?_, ?_, fun l => ?_, h.pads, h.mats⟩
    · simp only [State.undo, blk_modBlk_same, Block.modThrs_core, h.core]
    · simp only [State.undo, blk_modBlk_same, Block.modThrs_length, h.length]
    · rw [undo_vrow_thr, undo_vrow_thr, h.length]
      split
      · simp only [Thread.setV, h.regs]
      · exact h.regs l
  | srow row old bad =>
    refine ⟨h.core, h.length, h.regs, fun c => ?_, h.mats⟩
    simp only [State.undo, State.modPad, core_modCore, h.core]
    split
    · simp only [h.pads]
    · exact h.pads c
  | trow q tile row old =>
    refine ⟨h.core, h.length, h.regs, h.pads, fun p => ?_⟩
    simp only [State.undo, part_modPart, h.core]
    split
    · obtain ⟨htiles, hbuf⟩ := h.mats (4 * (s.blk b).core + q)
      simp only [Partition.modTile, Partition.tile, htiles, hbuf, and_self]
    · exact h.mats p
  | obuf q kib old bad =>
    refine ⟨h.core, h.length, h.regs, h.pads, fun p => ?_⟩
    simp only [State.undo, part_modPart, h.core]
    split
    · obtain ⟨htiles, hbuf⟩ := h.mats (4 * (s.blk b).core + q)
      simp only [htiles, hbuf, and_self]
    · exact h.mats p
  | external n v a => exact h

theorem sameData.undos (h : s.sameData b t) (l : List JEntry) :
    (l.foldl (fun u e => u.undo b e) s).sameData b (l.foldl (fun u e => u.undo b e) t) := by
  induction l generalizing s t with
  | nil => exact h
  | cons e l ih => exact ih (h.undo e)

/-- Undoing an entry changes nothing of the block but its threads. -/
theorem undo_blk (s : State) (b : Nat) (e : JEntry) :
    (s.undo b e).blk b = { s.blk b with threads := ((s.undo b e).blk b).threads } := by
  cases e with
  | vrow n k old => simp only [undo, blk_modBlk_same, Block.modThrs]
  | srow row old bad => rfl
  | trow q tile row old => rfl
  | obuf q kib old bad => rfl
  | external n v a => rfl

theorem undos_blk (l : List JEntry) (s : State) (b : Nat) : (l.foldl (fun u e => u.undo b e) s).blk b =
    { s.blk b with threads := ((l.foldl (fun u e => u.undo b e) s).blk b).threads } := by
  induction l generalizing s with
  | nil => rfl
  | cons e l ih =>
    rw [List.foldl_cons, ih, undo_blk]

theorem undo_mem (s : State) (b : Nat) (e : JEntry) : (s.undo b e).mem = s.mem := by cases e <;> rfl

theorem undos_mem (l : List JEntry) (s : State) (b : Nat) : (l.foldl (fun u e => u.undo b e) s).mem = s.mem :=
  foldl_keeps State.mem _ (fun s e => s.undo_mem b e) l s

/-! ### The steps of a rollback -/

/-- The block's waits are over, it is out of the reform bins, and its faults that wait for a record are dropped. -/
def interrupted (s : State) (b : Nat) : State :=
  ((s.clearWaits b false).dropBins b).modDie ((s.blk b).core / 48) fun d => { d with
    deferred := d.deferred.filter fun e => e.who.blk != some b }

theorem interrupted_blk (s : State) (b : Nat) : (s.interrupted b).blk b = { s.blk b with threads := waitsEnded (s.blk b) false } := by
  rw [interrupted, blk_modDie, dropBins_blk, clearWaits_blk]

theorem dropBins_mem (s : State) (b : Nat) : (s.dropBins b).mem = s.mem := by
  rw [dropBins]
  exact foldl_keeps State.mem _ (by exact fun _ _ => rfl) _ s

theorem dropBins_core (s : State) (b c : Nat) : (s.dropBins b).core c = s.core c := by
  rw [dropBins]
  exact foldl_keeps (fun s : State => s.core c) _ (by exact fun _ _ => rfl) _ s

theorem interrupted_mem (s : State) (b : Nat) : (s.interrupted b).mem = s.mem := by
  rw [interrupted, modDie_mem, dropBins_mem, clearWaits_mem]

theorem dropRequests_parts (s : State) (b : Nat) : (s.dropRequests b).parts = s.parts := by
  refine foldl_keeps State.parts _ (fun s k => ?_) _ s
  dsimp only
  split <;> rfl

/-- Dropping requests from a port leaves the scratchpad. -/
theorem dropRequests_scratch (s : State) (b c : Nat) : ((s.dropRequests b).core c).scratch = (s.core c).scratch := by
  refine foldl_keeps (fun s : State => (s.core c).scratch) _ (fun s k => ?_) _ s
  dsimp only
  split
  · rw [core_modCore]
    split
    next hc => rw [hc]
    next => rfl
  · rfl

/-- Emptying the bins leaves the tiles and the operand buffers. -/
theorem dropBins_mats (s : State) (b p : Nat) :
    (((s.dropBins b).part p).tiles, ((s.dropBins b).part p).buf) = ((s.part p).tiles, (s.part p).buf) := by
  refine foldl_keeps (fun s : State => ((s.part p).tiles, (s.part p).buf)) _ (fun s q => ?_) _ s
  rw [part_modPart]
  split
  next hp => rw [hp]
  next => rfl

theorem clearWaits_parts (s : State) (b : Nat) (swap : Bool) : (s.clearWaits b swap).parts = s.parts := by
  simp only [clearWaits, modBlk_parts, modDie_parts, dropRequests_parts]

theorem clearWaits_core (s : State) (b c : Nat) (swap : Bool) : (s.clearWaits b swap).core c = (s.dropRequests b).core c := by
  simp only [clearWaits, core_modBlk, core_modDie]

theorem sameData_interrupted (s : State) (b : Nat) : s.sameData b (s.interrupted b) where
  core := by rw [interrupted_blk]
  length := by rw [interrupted_blk, waitsEnded_length]
  regs k := by rw [interrupted_blk]; exact thr_waitsEnded_v ..
  pads c := by
    rw [interrupted, core_modDie, dropBins_core, clearWaits_core, dropRequests_scratch]
  mats p := by
    have hparts : (s.clearWaits b false).part p = s.part p := by rw [part, part, clearWaits_parts]
    have hmats := (s.clearWaits b false).dropBins_mats b p
    rw [hparts] at hmats
    rw [interrupted, part_modDie]
    exact Prod.mk.inj hmats

end State

end Sys2Proof.Machine
end

section
/-! The end of a rollback (R148): the block stands at its checkpoint, and nothing that waits goes on at once. -/

namespace Sys2Proof.Machine

/-! ### Blocks in which nothing waits -/

/-- Every thread runs and waits for nothing, no mask is set and no access waits for its replay, in home bundles alone. -/
structure Block.quiet (x : Block) : Prop where
  running : ∀ k, (x.thr k).status = .running
  waits : ∀ k, (x.thr k).wait = .none
  masks : ∀ k, (x.bundle k).j = []
  logs : ∀ k, (x.bundle k).oplog = []
  drawn : x.drawn = []

namespace Block.quiet

variable {x : Block} (h : x.quiet)

include h

theorem canRelease (k n : Nat) : x.canRelease k n = false := by simp [Block.canRelease, Block.mask, h.masks]

theorem releaseMasks (k : Nat) : x.releaseMasks k = x :=
  State.foldl_fixed_of_mem fun n _ => by rw [Block.tryRelease, h.canRelease]; rfl

theorem releaseAll (n : Nat) : (List.range n).foldl (fun b k => b.releaseMasks k) x = x := State.foldl_fixed_of_mem fun k _ => h.releaseMasks k

theorem deadlocked (k : Nat) : x.deadlocked k = false := by simp [Block.deadlocked, h.running]

theorem tidyDrawn : x.tidyDrawn = x := by
  have hdrawn := h.drawn
  cases x
  dsimp only at hdrawn
  subst hdrawn
  rfl

theorem oplog (n : Nat) : x.oplog n = [] := by
  rw [Block.oplog]
  split
  · exact h.logs n
  · rw [h.drawn]
    rfl

theorem logLanes (p : OplogLane → Bool) : x.logLanes p = [] := by simp [Block.logLanes, h.oplog]

/-- The bundles of the block are not all at a `bblk`. -/
theorem not_at_bblk : (x.state == .running && !x.open.isEmpty
    && x.open.all (fun t => (x.thr t).status == .running && (x.thr t).wait == .bblk)) = false := by
  cases hopen : x.open with
  | nil => simp
  | cons t ts => simp [h.waits]

end Block.quiet

namespace State

variable {s t u : State} {b : Nat}

/-- A block, the cores, the partitions and memory are as they were. -/
structure sameAt (b : Nat) (s t : State) : Prop where
  blk : t.blk b = s.blk b
  cores : t.cores = s.cores
  parts : t.parts = s.parts
  mem : t.mem = s.mem

theorem sameAt.refl (b : Nat) (s : State) : s.sameAt b s := ⟨rfl, rfl, rfl, rfl⟩

theorem sameAt.trans (h : s.sameAt b t) (g : t.sameAt b u) : s.sameAt b u :=
  ⟨g.blk.trans h.blk, g.cores.trans h.cores, g.parts.trans h.parts, g.mem.trans h.mem⟩

theorem sameAt.core (h : s.sameAt b t) (k : Nat) : t.core k = s.core k := congrArg (Sparse.getOr · k Core.reset) h.cores

theorem sameAt.part (h : s.sameAt b t) (p : Nat) : t.part p = s.part p := congrArg (Sparse.getOr · p Partition.reset) h.parts

theorem sameAt_modBlk {f : Block → Block} (h : f (s.blk b) = s.blk b) : s.sameAt b (s.modBlk b f) :=
  ⟨(blk_modBlk_same ..).trans h, rfl, rfl, rfl⟩

theorem sameAt_modDie (s : State) (b d : Nat) (f : Die → Die) : s.sameAt b (s.modDie d f) := ⟨rfl, rfl, rfl, rfl⟩

theorem sameAt_report (s : State) (b d : Nat) (r : FbRec) : s.sameAt b (s.report d r) := by
  rw [report]
  split <;> exact sameAt_modDie ..

theorem deadlock_of_quiet (h : (s.blk b).quiet) (k : Nat) : s.deadlock b k = s := by
  simp [deadlock, h.deadlocked]

theorem blockBarrier_of_quiet (h : (s.blk b).quiet) : s.blockBarrier b = s := by
  rw [blockBarrier, h.not_at_bblk]
  rfl

/-- Where nothing waits in a block, nothing follows. -/
theorem settle_of_quiet (h : (s.blk b).quiet) : s.sameAt b (s.settle b) := by
  have hrelease : ∀ (u : State) (n : Nat), s.sameAt b u →
      s.sameAt b (u.modBlk b fun x => (List.range n).foldl (fun x k => x.releaseMasks k) x) :=
    fun u n hu => hu.trans (sameAt_modBlk (by rw [hu.blk]; exact h.releaseAll n))
  have htidy : ∀ u : State, s.sameAt b u → s.sameAt b (u.modBlk b Block.tidyDrawn) :=
    fun u hu => hu.trans (sameAt_modBlk (by rw [hu.blk]; exact h.tidyDrawn))
  have hdead : ∀ (u : State) (n : Nat), s.sameAt b u → (List.range n).foldl (fun u k => u.deadlock b k) u = u :=
    fun u n hu => foldl_fixed_of_mem fun k _ => deadlock_of_quiet (by rw [hu.blk]; exact h) k
  have hfirst := hrelease s (s.blk b).bundles.length (.refl b s)
  have hlast := htidy _ (hrelease _ (s.blk b).bundles.length hfirst)
  rw [settle, hdead _ _ hfirst, blockBarrier_of_quiet (by rw [hlast.blk]; exact h)]
  exact hlast

theorem replayStale_of_quiet (h : (s.blk b).quiet) (p : OplogLane → Bool) : s.replayStale b p = s := by
  rw [replayStale, h.logLanes]

theorem refile_of_quiet (h : (s.blk b).quiet) : s.refile b = s := by
  rw [refile]
  refine foldl_fixed_of_mem fun k _ => ?_
  simp [h.running]

/-! ### The block at its checkpoint (R145, R148) -/

theorem reapply_of_not_external {e : JEntry} (he : ∀ n v a, e ≠ .external n v a) : s.reapply b e = s := by
  cases e with
  | external n v a => exact absurd rfl (he n v a)
  | vrow n k old => rfl
  | srow row old bad => rfl
  | trow q tile row old => rfl
  | obuf q kib old bad => rfl

theorem retrail_of_none (h : (s.blk b).trail = none) : s.retrail b = s := by simp [retrail, h]

/-- The records of a block's partitions as they were at the checkpoint. -/
def reloadRecords (s : State) (b : Nat) (c : Checkpoint) : State :=
  (s.blk b).mats.foldl (fun u q => u.modPart (4 * (s.blk b).core + q) fun p => { p with
    records := Sparse.getOr c.records q [], seq := Sparse.getOr c.seqs q 0 }) s

theorem reloadRecords_blk (s : State) (b : Nat) (c : Checkpoint) : (s.reloadRecords b c).blk b = s.blk b :=
  foldl_keeps (fun u : State => u.blk b) _ (by exact fun _ _ => rfl) _ s

theorem reloadRecords_core (s : State) (b k : Nat) (c : Checkpoint) : (s.reloadRecords b c).core k = s.core k :=
  foldl_keeps (fun u : State => u.core k) _ (by exact fun _ _ => rfl) _ s

theorem reloadRecords_mem (s : State) (b : Nat) (c : Checkpoint) : (s.reloadRecords b c).mem = s.mem :=
  foldl_keeps State.mem _ (by exact fun _ _ => rfl) _ s

/-- Records have neither tiles nor an operand buffer. -/
theorem reloadRecords_mats (s : State) (b p : Nat) (c : Checkpoint) :
    ((s.reloadRecords b c).part p).tiles = (s.part p).tiles ∧ ((s.reloadRecords b c).part p).buf = (s.part p).buf := by
  refine Prod.mk.inj (foldl_keeps (fun u : State => ((u.part p).tiles, (u.part p).buf)) _ (fun u q => ?_) _ s)
  rw [part_modPart]
  split
  next hp => rw [hp]
  next => rfl

/-- The block's context as it was at the checkpoint: all but the vector registers. -/
def reloadContext (x : Block) (c : Checkpoint) (clk : Nat) : Block :=
  let accepted := ((List.range x.accepted).filter x.preIssued).length
  { x with
    threads := (c.threads.zipIdx).map fun t => { t.1 with v := (x.thr t.2).v, bad := (x.thr t.2).bad, wait := t.1.wait.startClock clk }
    bundles := c.bundles, drawn := c.drawn, slots := c.slots, rings := c.rings
    slices := c.slices.filter fun y => decide (accepted ≤ y.k), accepted := accepted
    struck := (c.threads.filter fun t => t.status == .struck).length }

theorem reloadCheckpoint_blk (s : State) (b : Nat) (c : Checkpoint) :
    (s.reloadCheckpoint b c).blk b = reloadContext (s.blk b) c (s.die ((s.blk b).core / 48)).clk := by
  have hrecords := s.reloadRecords_blk b c
  rw [reloadRecords] at hrecords
  rw [reloadCheckpoint, blk_modBlk_same, hrecords]
  rfl

theorem reloadCheckpoint_core (s : State) (b k : Nat) (c : Checkpoint) : (s.reloadCheckpoint b c).core k = s.core k :=
  s.reloadRecords_core b k c

theorem reloadCheckpoint_mem (s : State) (b : Nat) (c : Checkpoint) : (s.reloadCheckpoint b c).mem = s.mem :=
  s.reloadRecords_mem b c

theorem reloadCheckpoint_mats (s : State) (b p : Nat) (c : Checkpoint) :
    ((s.reloadCheckpoint b c).part p).tiles = (s.part p).tiles ∧ ((s.reloadCheckpoint b c).part p).buf = (s.part p).buf :=
  s.reloadRecords_mats b p c

/-! ### The whole rollback -/

/-- The journal is undone. -/
def undone (s : State) (b : Nat) : State := (s.blk b).journal.foldl (fun u e => u.undo b e) (s.interrupted b)

/-- The block is back at its checkpoint, which is taken up. -/
def reloaded (s : State) (b : Nat) (c : Checkpoint) : State :=
  ((s.undone b).reloadCheckpoint b c).modBlk b fun x => { x with check := none }

/-- The rollback is recorded (R270). -/
def recorded (s : State) (b : Nat) (c : Checkpoint) : State :=
  (s.reloaded b c).report ((s.blk b).core / 48) (.rollback
    { cause := 0x60, trig := (s.blk b).trig, count := (s.blk b).rollbacks + 1, core := (s.blk b).core % 48, die := (s.blk b).core / 48
      wid := (s.blk b).wid, addr := (s.blk b).trigAddr, done := (s.blk b).hdr.done })

/-- The block runs, in an interval that its checkpoint opens. -/
def resumed (s : State) (b : Nat) (c : Checkpoint) : State :=
  (s.recorded b c).modBlk b fun x => { x with
    state := .running, check := some ((s.recorded b c).checkpointOf b), journal := [], logged := 0, irrevocable := false
    rollbacks := (s.blk b).rollbacks + 1 }

/-- Undoing the journal of the interrupted block gives the data that undoing it at once gives. -/
theorem sameData_undone (s : State) (b : Nat) : ((s.blk b).journal.foldl (fun u e => u.undo b e) s).sameData b (s.undone b) :=
  (sameData_interrupted s b).undos _

theorem undone_blk (s : State) (b : Nat) : (s.undone b).blk b = { s.blk b with threads := ((s.undone b).blk b).threads } := by
  rw [undone, undos_blk, interrupted_blk]

theorem undone_mem (s : State) (b : Nat) : (s.undone b).mem = s.mem := by rw [undone, undos_mem, interrupted_mem]

theorem recorded_same (s : State) (b : Nat) (c : Checkpoint) : (s.reloaded b c).sameAt b (s.recorded b c) := sameAt_report ..

theorem reloaded_blk (s : State) (b : Nat) (c : Checkpoint) : ∃ clk, (s.reloaded b c).blk b =
    { reloadContext { s.blk b with threads := ((s.undone b).blk b).threads } c clk with check := none } := by
  rw [reloaded, blk_modBlk_same, reloadCheckpoint_blk, ← undone_blk]
  exact ⟨_, rfl⟩

/-- What the block is once it runs again. -/
theorem resumed_blk (s : State) (b : Nat) (c : Checkpoint) : ∃ clk check, (s.resumed b c).blk b =
    { reloadContext { s.blk b with threads := ((s.undone b).blk b).threads } c clk with
      state := .running, check := check, journal := [], logged := 0, irrevocable := false, rollbacks := (s.blk b).rollbacks + 1 } := by
  obtain ⟨clk, hblk⟩ := s.reloaded_blk b c
  rw [resumed, blk_modBlk_same, (s.recorded_same b c).blk, hblk]
  exact ⟨clk, _, rfl⟩

end State

end Sys2Proof.Machine
end

section
/-! ROLLBACK, and regrouping as a whole (R135, R136, R143, R145, R146, R148, R150). -/

namespace Sys2Proof.Machine

open State

variable {s : State} {b : Nat} {c : Checkpoint}

/-- A thread of a checkpoint comes back with the vector registers that the journal has restored. -/
theorem reloadContext_thr (x : Block) (c : Checkpoint) (clk k : Nat) : (reloadContext x c clk).thr k =
    (c.threads[k]?.map fun t => { t with v := (x.thr k).v, bad := (x.thr k).bad, wait := t.wait.startClock clk }).getD (Thread.start 0) := by
  rw [Block.thr, List.getD_eq_getElem?_getD]
  simp only [reloadContext, List.getElem?_map, List.getElem?_zipIdx, Option.map_map, Nat.zero_add]
  rfl

theorem reloadContext_thr_v (x : Block) (c : Checkpoint) (clk : Nat) {k : Nat} (hk : k < c.threads.length) :
    ((reloadContext x c clk).thr k).v = (x.thr k).v := by
  rw [reloadContext_thr, List.getElem?_eq_getElem hk]
  rfl

theorem reloadContext_pcs (x : Block) (c : Checkpoint) (clk : Nat) :
    (reloadContext x c clk).threads.map (·.pc) = c.threads.map (·.pc) := by
  simp only [reloadContext, List.map_map]
  change c.threads.zipIdx.map ((·.pc) ∘ Prod.fst) = _
  rw [← List.map_map, List.zipIdx_map_fst]

/-- Where the threads of the checkpoint run, with no wait, no mask and no access that waits for its replay, nothing waits in the block. -/
theorem quiet_reloadContext (x : Block) (clk : Nat) (hthreads : c.threads.all (fun t => t.wait == .none && t.status == .running) = true)
    (hbundles : ∀ x ∈ c.bundles, x.oplog = [] ∧ x.j = []) (hdrawn : c.drawn = []) : (reloadContext x c clk).quiet := by
  have hthr : ∀ k, ((reloadContext x c clk).thr k).status = .running ∧ ((reloadContext x c clk).thr k).wait = .none := fun k => by
    rw [reloadContext_thr]
    cases hk : c.threads[k]? with
    | none => exact ⟨rfl, rfl⟩
    | some t =>
      have ht := List.all_eq_true.1 hthreads t (List.mem_of_getElem? hk)
      simp only [Bool.and_eq_true, beq_iff_eq] at ht
      exact ⟨ht.2, by simp [ht.1, Wait.startClock]⟩
  have hbundle : ∀ k, ((reloadContext x c clk).bundle k).oplog = [] ∧ ((reloadContext x c clk).bundle k).j = [] := fun k => by
    rw [Block.bundle, List.getD_eq_getElem?_getD]
    change ((c.bundles[k]?).getD (Bundle.start 0)).oplog = [] ∧ ((c.bundles[k]?).getD (Bundle.start 0)).j = []
    cases hk : c.bundles[k]? with
    | none => exact ⟨rfl, rfl⟩
    | some y => exact hbundles y (List.mem_of_getElem? hk)
  exact ⟨fun k => (hthr k).1, fun k => (hthr k).2, fun k => (hbundle k).2, fun k => (hbundle k).1, hdrawn⟩

/-- Where no arrival came from outside and the block has no trailer, a rollback ends as its checkpoint says. -/
theorem rollback_of_checkpoint (hcheck : (s.blk b).check = some c) (hstate : (s.blk b).state = .rollingBack)
    (hwork : s.engineWork b false = false) (hext : ∀ n v a, .external n v a ∉ (s.blk b).journal) (htrail : (s.blk b).trail = none)
    (hbad : c.bad = false) : exec (.rollback b) s = .next ((((((s.resumed b c).refile b).replayStale b fun _ => true).settle b)).takeHeld b) := by
  have hreapply : (s.blk b).journal.reverse.foldl (fun u e => u.reapply b e) (s.reloaded b c) = s.reloaded b c :=
    foldl_fixed_of_mem fun e he => reapply_of_not_external fun n v a h => hext n v a (h ▸ List.mem_reverse.1 he)
  have hretrail : (s.recorded b c).retrail b = s.recorded b c := retrail_of_none (by
    obtain ⟨clk, hblk⟩ := s.reloaded_blk b c
    rw [(s.recorded_same b c).blk, hblk]
    exact htrail)
  unfold reloaded undone interrupted at hreapply
  unfold recorded reloaded undone interrupted at hretrail
  rw [exec_rollback, execRollback, hcheck]
  dsimp only
  rw [if_neg (by simp [hstate, hwork]), if_neg (by simp [hbad]), hreapply, hretrail]
  rfl

theorem rollback_of_bad (hcheck : (s.blk b).check = some c) (hstate : (s.blk b).state = .rollingBack)
    (hwork : s.engineWork b false = false) (hbad : c.bad = true) :
    exec (.rollback b) s = .next (s.kill b 0x40 (s.blk b).trig (s.blk b).trigAddr) := by
  rw [exec_rollback, execRollback, hcheck]
  dsimp only
  rw [if_neg (by simp [hstate, hwork]), if_pos hbad]

/-- The end of a rollback leaves the block, the cores, the partitions and memory as they were once it runs. -/
theorem resumed_settles (hq : ((s.resumed b c).blk b).quiet) (hheld : ((s.resumed b c).blk b).preemptHeld = false) :
    (s.resumed b c).sameAt b ((((((s.resumed b c).refile b).replayStale b fun _ => true).settle b)).takeHeld b) := by
  have hsettle := settle_of_quiet hq
  rw [refile_of_quiet hq, replayStale_of_quiet hq, takeHeld_of_not_held (by rw [hsettle.blk, hheld])]
  exact hsettle

theorem resumed_core (s : State) (b k : Nat) (c : Checkpoint) : (s.resumed b c).core k = (s.undone b).core k := by
  rw [resumed, core_modBlk, (s.recorded_same b c).core, reloaded, core_modBlk, reloadCheckpoint_core]

theorem resumed_mem (s : State) (b : Nat) (c : Checkpoint) : (s.resumed b c).mem = s.mem := by
  rw [resumed, modBlk_mem, (s.recorded_same b c).mem, reloaded, modBlk_mem, reloadCheckpoint_mem, undone_mem]

theorem resumed_mats (s : State) (b p : Nat) (c : Checkpoint) :
    ((s.resumed b c).part p).tiles = ((s.undone b).part p).tiles ∧ ((s.resumed b c).part p).buf = ((s.undone b).part p).buf := by
  have hpart : (s.resumed b c).part p = ((s.undone b).reloadCheckpoint b c).part p := by
    rw [resumed, part_modBlk, (s.recorded_same b c).part, reloaded, part_modBlk]
  rw [hpart]
  exact reloadCheckpoint_mats ..

/-- A block whose operations have completed goes back to its checkpoint and runs, with the data that its journal logged. -/
theorem rollback_restores (hcheck : (s.blk b).check = some c) (hstate : (s.blk b).state = .rollingBack)
    (hwork : s.engineWork b false = false) (hheld : (s.blk b).preemptHeld = false)
    (hthreads : c.threads.all (fun t => t.wait == .none && t.status == .running) = true)
    (hext : ∀ n v a, .external n v a ∉ (s.blk b).journal) (htrail : (s.blk b).trail = none) (hbad : c.bad = false)
    (hbundles : ∀ x ∈ c.bundles, x.oplog = [] ∧ x.j = []) (hdrawn : c.drawn = []) :
    let u := (s.blk b).journal.foldl (fun u e => u.undo b e) s
    ∃ t, exec (.rollback b) s = .next t ∧ (t.blk b).state = .running ∧ (t.blk b).rollbacks = (s.blk b).rollbacks + 1
      ∧ (t.blk b).bundles = c.bundles ∧ (t.blk b).threads.map (·.pc) = c.threads.map (·.pc) ∧ (t.blk b).irrevocable = false
      ∧ (∀ k < c.threads.length, ((t.blk b).thr k).v = ((u.blk b).thr k).v)
      ∧ (t.core (s.blk b).core).scratch = (u.core (s.blk b).core).scratch
      ∧ (∀ p, (t.part p).tiles = (u.part p).tiles ∧ (t.part p).buf = (u.part p).buf) ∧ t.mem = s.mem := by
  intro u
  obtain ⟨clk, check, hblk⟩ := s.resumed_blk b c
  obtain ⟨running, waits, masks, logs, drawn⟩ :=
    quiet_reloadContext { s.blk b with threads := ((s.undone b).blk b).threads } clk hthreads hbundles hdrawn
  have hquiet : ((s.resumed b c).blk b).quiet := by
    rw [hblk]
    exact ⟨running, waits, masks, logs, drawn⟩
  have hend := resumed_settles hquiet (by rw [hblk]; exact hheld)
  have hdata := sameData_undone s b
  refine ⟨_, rollback_of_checkpoint hcheck hstate hwork hext htrail hbad, ?_⟩
  rw [hend.blk, hend.core, hend.mem, resumed_core, resumed_mem, hblk]
  refine ⟨rfl, rfl, rfl, reloadContext_pcs _ c clk, rfl, fun k hk => ?regs, hdata.pads _, fun p => ?mats, rfl⟩
  case regs =>
    have hregs := reloadContext_thr_v { s.blk b with threads := ((s.undone b).blk b).threads } c clk hk
    rw [← hdata.regs k]
    exact hregs
  case mats =>
    obtain ⟨htiles, hbuf⟩ := resumed_mats s b p c
    rw [hend.part, htiles, hbuf]
    exact hdata.mats p

theorem regroupSteps : Machine.RegroupSteps := by
  refine fun s b => ⟨fun c => rollback_restores, fun c => rollback_of_bad, fun i x hx hact hpend hscal hroom => ?consumed,
    fun trig a hi => ⟨fun hr hn => consume_rolls_back trig a hi hr hn, fun hr => consume_of_irrevocable trig a hi hr,
      fun hr hn => consume_of_fourth trig a hi hr hn⟩,
    fun part bin x => binDraw_draws, fun k d => forcedDissolution_dissolves, fun n => ⟨forceAfterglow_die s n, forceAfterglow_domain s n⟩,
    fun _ => afterglowRelease_frees s b⟩
  case consumed => exact State.free.exec_of_badRead ⟨hx, hact, hpend, hscal, hroom⟩

/-- Settles O41, event by event, with the undo of each kind of journal entry. -/
theorem regroupEvents : Obligations.RegroupEvents := ⟨regroupSteps, undoRestores⟩

end Sys2Proof.Machine
end

section
/-! Barrier records: an update of a record that can be read, and what a phase's completion leaves (R165 to R170, R186). -/

namespace Sys2Proof.Machine

theorem Wait.onSlot_release (w : Wait) (clk n : Nat) : (w.release clk n).onSlot n = false := by
  cases w with
  | barrb k r => by_cases h : k = n <;> simp [Wait.release, Wait.onSlot, h]
  | bwait k r => by_cases h : k = n <;> simp [Wait.release, Wait.onSlot, h]
  | bwaitt k due o => cases o <;> by_cases h : k = n <;> simp [Wait.release, Wait.onSlot, h]
  | _ => rfl

/-- A phase of slot `n` has completed: the slot counts it and forgets who arrived, and the waits on it end, those of `bwaitt` as their bound
stands at `clk` (R166, R170). -/
def Block.endPhase (b : Block) (n clk : Nat) (sl : Slot) : Block :=
  { b with
    slots := Sparse.put b.slots n { sl with arrived := [], updated := false, phases := sl.phases + 1 }
    threads := b.threads.map fun t =>
      { t with wait := t.wait.release clk n, intr := t.intr.map fun i => { i with wait := i.wait.release 0 n } } }

theorem Block.endPhase_look (b : Block) (n clk : Nat) (sl : Slot) : Sparse.look (b.endPhase n clk sl).slots n =
    some { sl with arrived := [], updated := false, phases := sl.phases + 1 } := Sparse.look_put_same ..

theorem Block.endPhase_onSlot (b : Block) (n clk k : Nat) (sl : Slot) : ((b.endPhase n clk sl).thr k).wait.onSlot n = false := by
  simp only [Block.thr, Block.endPhase, List.getD_eq_getElem?_getD, List.getElem?_map]
  cases b.threads[k]? with
  | none => rfl
  | some t => exact Wait.onSlot_release ..

/-- A record after an arrival that is no member's, with a count of bytes (R166). -/
def BarRec.arrived (r : BarRec) (bytes : Int) : BarRec := { r with pending := r.pending - 1, bytes := r.bytes + bytes }

namespace State

variable {s : State} {b n : Nat} {sl : Slot} {r : BarRec}

/-! ### Reads of a record's words -/

/-- Words that can be read and are not poisoned trigger no consumption (R185, R196). -/
theorem padServe_of_sound {c : Block} {reqs : List SpReq} {ws : List Nat} (h : ∀ w ∈ ws,
    ((s.core c.core).scratch.read w).isSome = true ∧ (s.core c.core).scratch.poisoned w = false) : (s.padServe c reqs ws).2 = none := by
  have hread : (ws.any fun w => ((s.core c.core).scratch.read w).isNone) = false :=
    List.any_eq_false.2 fun w hw => by simp [Option.isSome_iff_ne_none.1 (h w hw).1]
  have hclean : (ws.any (s.core c.core).scratch.poisoned) = false :=
    List.any_eq_false.2 fun w hw => by simp [(h w hw).2]
  simp [padServe, hread, hclean]

theorem barRead_of_sound {a : Nat} (h : s.padSound b 16 [(0, a)]) : (s.barRead b a).2 = none :=
  padServe_of_sound fun _ hw => by
    obtain ⟨w, hmem, rfl⟩ := List.mem_map.1 hw
    exact h _ (List.mem_singleton.2 rfl) w hmem

theorem padLoad_of_sound {size : Nat} {rs : List (Nat × Nat)} (h : s.padSound b size rs) :
    ∃ vs, s.padLoad b size rs = ((s.padLoad b size rs).1, .ok vs) := by
  have hserve := padServe_of_sound (s := s) (c := s.blk b) (reqs := loadReqs (s.blk b) size (rs.map fun e => (e.2, homeLane e.1)) [])
    (ws := ((rs.flatMap fun e => wordsOf e.2 size).eraseDups).map (s.blk b).word) fun _ hw => by
      obtain ⟨w, hmem, rfl⟩ := List.mem_map.1 hw
      obtain ⟨e, he, hword⟩ := List.mem_flatMap.1 (List.mem_eraseDups.1 hmem)
      exact h e he w hword
  refine ⟨rs.map fun e => (e.1, ofBytes (scratchBytes (s.core (s.blk b).core).scratch (s.blk b) e.2 size)), ?_⟩
  simp only [padLoad]
  generalize s.padServe _ _ _ = p at hserve ⊢
  obtain ⟨t, trig⟩ := p
  cases hserve
  rfl

theorem begun_padSound {size : Nat} {rs : List (Nat × Nat)} (h : s.padSound b size rs) : s.begun.padSound b size rs := by
  simpa only [padSound, begun_blk, begun_core] using h

/-- The state in which an update of the record at `a` acts, where the record can be read: a block that is not saved has read it (R186). -/
def atRecord (s : State) (b a : Nat) : State := if (s.blk b).state = .saved then s else (s.barRead b a).1

theorem atRecord_blk (s : State) (b a k : Nat) : (s.atRecord b a).blk k = s.blk k := by
  rw [atRecord]
  split <;> rfl

theorem atRecord_die (s : State) (b a k : Nat) : (s.atRecord b a).die k = s.die k := by
  rw [atRecord]
  split <;> rfl

theorem barAccess_of_sound {a : Nat} (h : s.padSound b 16 [(0, a)]) (go : State → State) : s.barAccess b a go = go (s.atRecord b a) := by
  have hread := barRead_of_sound h
  rw [barAccess, atRecord]
  by_cases hsaved : (s.blk b).state = .saved
  · simp [hsaved]
  · simp only [beq_iff_eq, hsaved, if_false]
    generalize s.barRead b a = p at hread ⊢
    obtain ⟨t, trig⟩ := p
    cases hread
    rfl

/-! ### Updates of a record -/

theorem phasesOf_of_barOf (h : s.barOf b n = some (sl, r)) : s.phasesOf b n = sl.phases := by rw [phasesOf, h]; rfl

theorem phasesOf_modBlk {f : Block → Block} (h : Sparse.look (f (s.blk b)).slots n = some sl) : (s.modBlk b f).phasesOf b n = sl.phases := by
  simp only [phasesOf, barOf, blk_modBlk_same, h]
  split <;> rfl

/-- The bound of a `bwaitt` on the slot has passed, and its clocks count (R170). -/
def lateOn (s : State) (b n : Nat) : Bool :=
  (s.blk b).state != .saved && (s.blk b).threads.any fun t => t.wait.late (s.die ((s.blk b).core / 48)).clk n

/-- The record of a phase that completes, from the record updated (R166). -/
def nextPhase (s : State) (b n : Nat) (r : BarRec) : BarRec :=
  { r with phase := !r.phase, pending := r.expected, tmo := r.tmo || s.lateOn b n }

/-- An update that leaves nothing pending completes the phase (R166). -/
theorem barUpdate_completes (hbar : s.barOf b n = some (sl, r)) (hsound : s.padSound b 16 [(0, sl.addr)]) {f : BarRec → BarRec} {g : Slot → Slot}
    (hzero : (f r).pending = 0 ∧ (f r).bytes = 0) :
    ∃ clk, s.barUpdate b n f g =
      ((s.atRecord b sl.addr).putBar b n (g sl) (s.nextPhase b n (f r))).modBlk b fun c => c.endPhase n clk (g sl) := by
  rw [barUpdate, hbar]
  dsimp only
  rw [barAccess_of_sound hsound, if_pos hzero, atRecord_blk, atRecord_die]
  exact ⟨_, rfl⟩

/-- Any other update rewrites the record (R166). -/
theorem barUpdate_pends (hbar : s.barOf b n = some (sl, r)) (hsound : s.padSound b 16 [(0, sl.addr)]) {f : BarRec → BarRec} {g : Slot → Slot}
    (hsome : ¬((f r).pending = 0 ∧ (f r).bytes = 0)) :
    s.barUpdate b n f g = ((s.atRecord b sl.addr).putBar b n (g sl) (f r)).modBlk b fun c =>
      { c with slots := Sparse.put c.slots n { g sl with updated := true } } := by
  rw [barUpdate, hbar]
  dsimp only
  rw [barAccess_of_sound hsound, if_neg hsome]

/-- An update completes a phase of its slot just when it leaves nothing pending (R166). -/
theorem phasesOf_barUpdate (hbar : s.barOf b n = some (sl, r)) (hsound : s.padSound b 16 [(0, sl.addr)]) (f : BarRec → BarRec) (g : Slot → Slot) :
    (s.barUpdate b n f g).phasesOf b n = (g sl).phases + if (f r).pending = 0 ∧ (f r).bytes = 0 then 1 else 0 := by
  by_cases hzero : (f r).pending = 0 ∧ (f r).bytes = 0
  · obtain ⟨clk, h⟩ := barUpdate_completes hbar hsound (g := g) hzero
    rw [h, if_pos hzero]
    exact phasesOf_modBlk (f := fun c => c.endPhase n clk (g sl)) (Block.endPhase_look ..)
  · rw [barUpdate_pends hbar hsound hzero, if_neg hzero]
    exact phasesOf_modBlk (sl := { g sl with updated := true }) (Sparse.look_put_same ..)

theorem arrive_eq_barUpdate (s : State) (b n : Nat) (bytes : Int) : s.arrive b n bytes false = s.barUpdate b n (·.arrived bytes) id := rfl

end State

open State

/-- Settles O18: the last arrival completes the phase (`barUpdate_completes`), and what the completion does to the block, `Block.endPhase`,
lets no wait on the slot stand. -/
theorem phaseCompletes : Obligations.PhaseCompletes := by
  unfold Obligations.PhaseCompletes
  intro s b n sl r bytes hbar hpending hbytes hsound late read
  refine ⟨_, rfl, ?_⟩
  have hzero : (r.arrived bytes).pending = 0 ∧ (r.arrived bytes).bytes = 0 := ⟨by simp [BarRec.arrived, hpending], hbytes⟩
  have hnext : s.nextPhase b n (r.arrived bytes) = { r with bytes := 0, phase := !r.phase, pending := r.expected, tmo := r.tmo || late } := by
    rw [nextPhase, hzero.2]
    rfl
  obtain ⟨clk, hdone⟩ := barUpdate_completes hbar hsound (f := (·.arrived bytes)) (g := id) hzero
  rw [arrive_eq_barUpdate, hdone, hnext]
  refine ⟨?slot, rfl, rfl, fun k => ?waits⟩
  case slot => rw [blk_modBlk_same]; exact Block.endPhase_look ..
  case waits => rw [blk_modBlk_same]; exact Block.endPhase_onSlot ..

end Sys2Proof.Machine
end

section
/-! Barriers and rings bound, changed and used (R168 to R175, R412). -/

namespace Sys2Proof.Machine

namespace State

variable {s : State} {x : Opnds} {n : BitVec 4} {sl : Slot} {r : BarRec}

/-! ### Binding (R168, R169, R412) -/

theorem bbind_of_free {all : Bool} {l : Nat} {ls : List Nat} {a : Nat} (h : s.ready (.bbind x n all) = true) (hexe : s.exe x.g = l :: ls)
    (ha : a = s.src x.ext .b32 l x.a) (hclear : s.padClear s.sel.blk 16 false [(l, a)]) (hsound : s.padSound s.sel.blk 16 [(l, a)])
    (hfree : (Sparse.look s.cb.slots n.toNat).isNone = true) (hr : r = s.barAt s.sel.blk a) (hbound : r.bound = false) (hrsvd : r.rsvd = false)
    (hcount : r.pending ≤ r.expected) :
    exec (.bbind x n all) s = .next (((((s.begun.padLoad s.sel.blk 16 [(l, a)]).1.setBar s.sel.blk a
        { r with bound := true, slot := n.toNat, tmo := false }).modCb fun b => { b with
          slots := Sparse.put b.slots n.toNat
            { addr := a, members := if all then s.cb.open else [], arrived := [], updated := false, phases := 0, base := false } }).advance
      x.ext.bytes).raiseAll (l :: ls) 1) := by
  obtain ⟨hcheck, hbusy⟩ := hclear _ (List.mem_singleton.2 rfl)
  change s.cb.padCheck a 16 false _ = none at hcheck
  obtain ⟨vs, hload⟩ := padLoad_of_sound (begun_padSound hsound)
  generalize (s.begun.padLoad s.sel.blk 16 [(l, a)]).1 = u at hload ⊢
  have hok : ((Sparse.look s.cb.slots n.toNat).isSome || r.bound || r.rsvd || decide (r.expected < r.pending)) = false := by
    simp [Option.isNone_iff_eq_none.1 hfree, hbound, hrsvd, hcount]
  rw [exec_bbind, execBbind, issue_ready rfl h, begun_exe, hexe]
  simp only [begun_src, begun_sel, begun_cb, begun_sbBusy, begun_barAt, ← ha, ← hr, hcheck, hbusy, hload, hok]
  rfl

theorem bunbind_of_unnamed (h : s.ready (.bunbind x n) = true) (hexe : s.exe x.g ≠ []) (hbar : s.barOf s.sel.blk n.toNat = some (sl, r))
    (hcopies : s.copyNames s.sel.blk n.toNat = false) :
    exec (.bunbind x n) s = .next (((((s.begun.barAccess s.sel.blk sl.addr fun u =>
          u.setBar s.sel.blk sl.addr { r with bound := false, slot := 0 }).modCb fun b => { b with
          slots := Sparse.del b.slots n.toNat
          rings := b.rings.filter fun g => !(g.first ≤ n.toNat && n.toNat < g.first + 2 * g.depth) }).advance x.ext.bytes).raiseAll
        (s.exe x.g) 1).endWaits s.sel.blk n.toNat |>.settle s.sel.blk) := by
  rw [exec_bunbind, execBunbind, issue_ready rfl h]
  simp only [begun_exe, begun_sel, begun_barOf, begun_copyNames, hbar, hcopies]
  rw [if_neg (by simpa using hexe), if_neg Bool.false_ne_true]

theorem bexp_of_inRange {now clrt : Bool} {d p : Int} (h : s.ready (.bexp x n now clrt) = true) (hexe : s.exe x.g ≠ [])
    (hbar : s.barOf s.sel.blk n.toNat = some (sl, r)) (hd : d = s.barBytes x) (hp : p = if now then r.pending + d else r.pending)
    (hrange : BarRec.inRange (r.expected + d) p r.bytes = true) :
    exec (.bexp x n now clrt) s = .next (((s.begun.barUpdate s.sel.blk n.toNat (fun r => { r with
      expected := (r.expected + d).toNat, pending := p.toNat, tmo := r.tmo && !clrt }) id).advance x.ext.bytes).raiseAll (s.exe x.g) 1) := by
  rw [exec_bexp, execBexp, issue_ready rfl h]
  simp only [begun_exe, begun_sel, begun_barOf, begun_barBytes, hbar, ← hd, ← hp, hrange]
  rw [if_neg (by simpa using hexe), if_neg (by simp)]

/-! ### Arrivals and waits (R166, R170) -/

/-- What the arrival of lanes does to a record and to its slot (R166). -/
def arrival (s : State) (b n : Nat) (ex : List Nat) (bytes : Int) : State :=
  s.barUpdate b n (fun r => { r with pending := r.pending - ex.length, bytes := r.bytes + bytes })
    (fun sl => { sl with members := sl.members ++ ex.filter fun t => !sl.members.contains t, arrived := sl.arrived ++ ex })

/-- Lanes none of which has arrived in this phase arrive, all of them, where the counts stay in range. -/
theorem barrive_of_new {b k : Nat} {ex : List Nat} {bytes : Int} (hexe : ex ≠ []) (hbar : s.barOf b k = some (sl, r))
    (hnew : ∀ t ∈ ex, t ∉ sl.arrived) (hrange : BarRec.inRange r.expected (r.pending - ex.length) (r.bytes + bytes) = true) :
    s.barrive b k ex bytes = (s.arrival b k ex bytes, ex, []) := by
  have hgood : ex.filter (fun t => !sl.arrived.contains t) = ex := List.filter_eq_self.2 fun t ht => by simpa using hnew t ht
  have hbad : ex.filter (fun t => sl.arrived.contains t) = [] := List.filter_eq_nil_iff.2 fun t ht => by simpa using hnew t ht
  rw [barrive, hbar]
  dsimp only
  rw [hgood, hbad, if_neg (by simp [hexe, hrange])]
  rfl

/-- Those who arrive find the phase completed just when nothing is left pending (R166). -/
theorem phasesOf_arrival {b k : Nat} (hbar : s.barOf b k = some (sl, r)) (hsound : s.padSound b 16 [(0, sl.addr)]) (ex : List Nat) (bytes : Int) :
    (s.arrival b k ex bytes).phasesOf b k = sl.phases + if r.pending - ex.length = 0 ∧ r.bytes + bytes = 0 then 1 else 0 :=
  phasesOf_barUpdate hbar hsound _ _

section
variable (hexe : s.exe x.g ≠ []) (hbar : s.barOf s.sel.blk n.toNat = some (sl, r))
include hexe hbar

theorem barr_of_new (hnew : ∀ t ∈ s.exe x.g, t ∉ sl.arrived)
    (hrange : BarRec.inRange r.expected (r.pending - (s.exe x.g).length) (r.bytes + s.barBytes x) = true) (h : s.ready (.barr x n) = true) :
    exec (.barr x n) s = .next (((s.begun.arrival s.sel.blk n.toNat (s.exe x.g) (s.barBytes x)).advanceBut x.ext.bytes []).raiseAll
      (s.exe x.g) 1) := by
  rw [exec_barr, execBarr, issue_ready rfl h]
  simp only [begun_exe, begun_sel, begun_barBytes]
  rw [if_neg (by simpa using hexe), barrive_of_new hexe ((s.begun_barOf ..).trans hbar) hnew hrange]
  rfl

theorem barrb_of_new (hsound : s.padSound s.sel.blk 16 [(0, sl.addr)]) (hnew : ∀ t ∈ s.exe x.g, t ∉ sl.arrived)
    (hrange : BarRec.inRange r.expected (r.pending - (s.exe x.g).length) (r.bytes + s.barBytes x) = true) (h : s.ready (.barrb x n) = true)
    (hwait : ∃ t ∈ s.exe x.g, (s.cb.thr t).wait ≠ .barrb n.toNat true) :
    exec (.barrb x n) s = .next
      (let arrived := (s.begun.arrival s.sel.blk n.toNat (s.exe x.g) (s.barBytes x)).raiseAll (s.exe x.g) 1
      if r.pending - (s.exe x.g).length = 0 ∧ r.bytes + s.barBytes x = 0 then arrived.advanceBut x.ext.bytes []
        else arrived.holdEach x.ext.bytes (s.exe x.g) fun _ => .barrb n.toNat false) := by
  have hbegun : s.begun.barOf s.sel.blk n.toNat = some (sl, r) := (s.begun_barOf ..).trans hbar
  have harrive := barrive_of_new hexe hbegun hnew hrange
  have hphases := phasesOf_arrival hbegun (begun_padSound hsound) (s.exe x.g) (s.barBytes x)
  rw [exec_barrb, execBarrb, issue_ready rfl h]
  simp only [begun_exe, begun_sel, begun_barBytes, begun_cb, harrive, begun_phasesOf, hphases, phasesOf_of_barOf hbar]
  rw [if_neg (by simpa [hexe] using hwait)]
  by_cases hzero : r.pending - (s.exe x.g).length = 0 ∧ r.bytes + s.barBytes x = 0
  · rw [if_pos (by simp [hzero]), if_pos hzero]
    rfl
  · rw [if_neg (by simp [hexe, hzero]), if_neg hzero]
    rfl

theorem bwait_of_passed (h : s.ready (.bwait x n) = true) (hpast : ∀ t ∈ s.exe x.g, r.phase ≠ s.waitPhase x t)
    (hwait : ∃ t ∈ s.exe x.g, (s.cb.thr t).wait ≠ .bwait n.toNat true) :
    exec (.bwait x n) s = .next ((s.begun.raiseAll (s.exe x.g) 1).advance x.ext.bytes) := by
  rw [exec_bwait, execBwait, issue_ready rfl h]
  simp only [begun_exe, begun_sel, begun_cb, begun_barOf, begun_waitPhase, hbar]
  rw [if_neg (by simpa using hexe), if_neg (by simpa using hwait), if_pos (by simpa using hpast)]

theorem btest_of_bound (h : s.ready (.btest x n) = true) :
    exec (.btest x n) s = .next (((s.begun.advance x.ext.bytes).write x.d 1 ((s.exe x.g).map fun t => (t, if r.phase then 1 else 0))).raiseAll
      (s.exe x.g) 1) := by
  rw [exec_btest, execBtest, issue_ready rfl h]
  simp only [begun_exe, begun_sel, begun_barOf, hbar]
  rw [if_neg (by simpa using hexe)]

theorem bwaitt_of_passed (h : s.ready (.bwaitt x n) = true) (hpast : ∀ t ∈ s.exe x.g, r.phase ≠ s.waitPhase x t)
    (hwait : ∀ t ∈ s.exe x.g, (s.cb.thr t).wait = .none) :
    exec (.bwaitt x n) s = .next (((s.begun.raiseAll (s.exe x.g) 1).advance x.ext.bytes).write x.d 1 ((s.exe x.g).map fun t => (t, 1))) := by
  obtain ⟨l, ls, hl⟩ := List.exists_cons_of_ne_nil hexe
  have hnow : ∀ t ∈ l :: ls, (r.phase != s.waitPhase x t) = true := fun t ht => by simpa using hpast t (hl ▸ ht)
  have hnot : ((l :: ls).any fun t => !(r.phase != s.waitPhase x t)) = false := List.any_eq_false.2 fun t ht => by simp [hnow t ht]
  have hone : ((l :: ls).map fun t => (t, r.phase != s.waitPhase x t)) = (l :: ls).map fun t => (t, true) :=
    List.map_congr_left fun t ht => by rw [hnow t ht]
  have hstart : (s.cb.thr l).wait.boundDone s.clk = none := by rw [hwait l (by simp [hl])]; rfl
  rw [exec_bwaitt, execBwaitt, issue_ready rfl h, begun_exe, hl]
  simp only [begun_sel, begun_cb, begun_clk, begun_barOf, begun_waitPhase, hbar]
  rw [if_neg (by simp [hstart]), if_pos (by simp only [List.all_eq_true.2 hnow, Bool.or_true]), hnot, hone, bwaittEnd, List.map_map]
  rfl

end

theorem bblk_of_ready (h : s.ready (.bblk x) = true) (hexe : s.exe x.g ≠ []) :
    exec (.bblk x) s = .next ((((s.begun.advanceBut x.ext.bytes (s.exe x.g)).modCb fun b => b.modThrs (s.exe x.g) fun _ t =>
      { t with wait := .bblk, parkLen := x.ext.bytes, group := 1 + s.sel.act.headD 0 }).raiseAll (s.exe x.g) 1).endTurn.settle s.sel.blk) := by
  rw [exec_bblk, execBblk, issue_ready rfl h]
  simp only [begun_exe, begun_sel]
  rw [if_neg (by simpa using hexe)]

/-! ### Rings (R175) -/

theorem ringBind_of_free {d : BitVec 3} (h : s.ready (.ringBind x n d) = true) (hexe : s.exe x.g ≠ [])
    (hfree : ∀ k < 2 * (d.toNat + 1), (Sparse.look s.cb.slots (n.toNat + k)).isSome = true
      ∧ ∀ g ∈ s.cb.rings, ¬(g.first ≤ n.toNat + k ∧ n.toNat + k < g.first + 2 * g.depth)) :
    exec (.ringBind x n d) s = .next (((s.begun.modCb fun b => { b with
      rings := b.rings ++ [{ first := n.toNat, depth := d.toNat + 1 }]
      slots := b.slots.map fun e =>
        if ((List.range (2 * (d.toNat + 1))).map (n.toNat + ·)).contains e.1 then
          (e.1, { e.2 with base := (s.barAt s.sel.blk e.2.addr).phase }) else e
      bundles := b.bundles.map fun u => { u with rings := Sparse.del u.rings n.toNat } }).advance x.ext.bytes).raiseAll (s.exe x.g) 1) := by
  have hnone : ((List.range (2 * (d.toNat + 1))).map (n.toNat + ·)).find? (fun k => (Sparse.look s.cb.slots k).isNone
      || s.cb.rings.any fun g => decide (g.first ≤ k) && decide (k < g.first + 2 * g.depth)) = none := by
    refine List.find?_eq_none.2 fun k hk => ?_
    obtain ⟨j, hj, rfl⟩ := List.mem_map.1 hk
    obtain ⟨hslot, hout⟩ := hfree j (List.mem_range.1 hj)
    simpa [Option.isSome_iff_ne_none.1 hslot] using hout
  rw [exec_ringBind, execRingBind, issue_ready rfl h]
  simp only [begun_exe, begun_sel, begun_cb, begun_barAt, hnone]
  rw [if_neg (by simpa using hexe)]

/-- A ring instruction acts on the ring that it names, with the counts of its bundle. -/
theorem ringOp_of_ring {i : Instr} {k pc cc : Nat} {g : Ring} {f : Opnds → State → Nat → Nat → Nat → State} (hx : i.opnds? = some x)
    (h : s.ready i = true) (hexe : s.exe x.g ≠ []) (hring : s.cb.rings.find? (fun g => g.first == k) = some g)
    (hcounts : Sparse.getOr (s.cb.bundle (s.cb.roleBundle s.sel.ctx)).rings k (0, 0) = (pc, cc)) :
    s.ringOp i k f = .next (f x s.begun g.depth pc cc) := by
  rw [ringOp, issue_ready hx h]
  simp only [begun_exe, begun_cb, begun_sel, hring, ringBundle, hcounts]
  rw [if_neg (by simpa using hexe)]

theorem ringWait_of_done {slot u k : Nat} (h : u = 0 ∨ s.ringPhase slot u = true) :
    s.begun.ringWait x slot u k = ((s.begun.advance x.ext.bytes).write x.d 1 ((s.exe x.g).map fun t => (t, k))).raiseAll (s.exe x.g) 1 := by
  have hdone : (u != 0 && !s.ringPhase slot u) = false := by
    obtain rfl | hphase := h
    · rfl
    · rw [hphase, Bool.not_true, Bool.and_false]
  rw [ringWait, begun_ringPhase, hdone, begun_exe]
  rfl

theorem ringArrive_of_ok {k slot : Nat} {bytes : Int} {next : Nat × Nat} (h : s.arriveOk s.sel.blk slot bytes = true) :
    s.begun.ringArrive x k slot bytes next = (((s.begun.arrive s.sel.blk slot bytes false).modCb fun b =>
      b.modBundle (s.cb.roleBundle s.sel.ctx) fun u => { u with rings := Sparse.put u.rings k next }).advance x.ext.bytes).raiseAll (s.exe x.g) 1 := by
  rw [ringArrive, begun_sel, begun_arriveOk, h, begun_exe, begun_ringBundle]
  rfl

end State

open State

theorem barrierBinding : BarrierBinding := by
  refine fun s x n => ⟨?bind, fun sl r h hexe => bunbind_of_unnamed h hexe, ?exp⟩
  case bind =>
    intro all l ls h hexe a r hclear hsound hfree hbound hrsvd hcount
    rw [hexe]
    exact bbind_of_free h hexe rfl hclear hsound hfree rfl hbound hrsvd hcount
  case exp =>
    intro now clrt sl r h hexe hbar d p hrange
    exact bexp_of_inRange h hexe hbar rfl rfl hrange

theorem barrierOperations : BarrierOperations := by
  intro s x n sl r ex len hexe hbar hsound arrived
  exact ⟨fun hnew hrange => ⟨barr_of_new hexe hbar hnew hrange, barrb_of_new hexe hbar hsound hnew hrange⟩, bwait_of_passed hexe hbar,
    btest_of_bound hexe hbar, bwaitt_of_passed hexe hbar, fun h => bblk_of_ready h hexe⟩

theorem ringResults : RingResults := by
  intro s x n ex bid len hexe
  refine ⟨fun d h hfree => ringBind_of_free h hexe hfree, fun g pc cc hring hcounts => ⟨?acq, ?get, ?put, ?rel⟩⟩
  case acq =>
    intro h hdone
    rw [exec_ringAcq, execRingAcq, ringOp_of_ring rfl h hexe hring hcounts, ringWait_of_done hdone]
  case get =>
    intro h hphase
    rw [exec_ringGet, execRingGet, ringOp_of_ring rfl h hexe hring hcounts, ringWait_of_done (.inr hphase)]
  case put =>
    intro h hok
    rw [exec_ringPut, execRingPut, ringOp_of_ring rfl h hexe hring hcounts, begun_barBytes, ringArrive_of_ok hok]
  case rel =>
    intro h hok
    rw [exec_ringRel, execRingRel, ringOp_of_ring rfl h hexe hring hcounts, ringArrive_of_ok hok]

/-- Settles O19: a record that can be read is updated at once (`barUpdate_pends`, `barUpdate_completes`), and the ring instructions are two
shared operations, one that waits (`ringWait_of_done`) and one that arrives (`ringArrive_of_ok`). -/
theorem barrierResults : Obligations.BarrierResults := by
  unfold Obligations.BarrierResults
  exact ⟨barrierBinding, barrierOperations, ringResults⟩

end Sys2Proof.Machine
end

section
/-! System registers and the operand log (R178, R181), and the privilege of service instructions (R275). -/

namespace Sys2Proof.Machine

namespace State

variable {s : State} {x : Opnds} {i : Instr}

/-! ### Service instructions outside a service domain (R275) -/

theorem begun_uniformFault (s : State) (x : Opnds) (lf : LF) : s.begun.uniformFault x lf =
    (s.begun.advanceBut x.ext.bytes (s.exe x.g)).finishFaults x.ext.bytes ((s.exe x.g).map fun t => (t, lf)) := by
  rw [uniformFault, begun_exe]

/-- The end of a service instruction whose executing lanes may not issue it: PRIVILEGE in each, and no effect. -/
def unprivileged (s : State) (x : Opnds) : State :=
  (s.begun.advanceBut x.ext.bytes (s.exe x.g)).finishFaults x.ext.bytes ((s.exe x.g).map fun t => (t, { cause := 0x1A }))

/-- An instruction that looks first at the privilege of its lanes has no effect where they have none. -/
theorem issue_of_unprivileged {eff : Opnds → State → State} (hx : i.opnds? = some x) (h : s.ready i = true) (hexe : s.exe x.g ≠ [])
    (hserv : s.service (s.exe x.g) = false) (heff : ∀ l ls, s.begun.exe x.g = l :: ls → s.begun.service (l :: ls) = false →
      eff x s.begun = s.begun.uniformFault x { cause := 0x1A }) : s.issue i eff = .next (s.unprivileged x) := by
  obtain ⟨l, ls, hl⟩ := List.exists_cons_of_ne_nil hexe
  rw [issue_ready hx h, heff l ls (by rw [begun_exe, hl]) (by rw [begun_service, ← hl, hserv]), begun_uniformFault]
  rfl

section
variable (hx : i.opnds? = some x) (h : s.ready i = true) (hexe : s.exe x.g ≠ []) (hserv : s.service (s.exe x.g) = false)
include hx h hexe hserv

theorem faultRd_of_unprivileged (spend : Bool) (pick : Word → FbEntry → Bool) (f : FbEntry → Option FbEntry) :
    s.faultRd i spend pick f = .next (s.unprivileged x) :=
  issue_of_unprivileged hx h hexe hserv fun _ _ hl hu => by simp only [hl, hu, Bool.not_false, if_true]

theorem migAck_of_unprivileged (f : PeerEntry → PeerEntry) : s.migAck i f = .next (s.unprivileged x) :=
  issue_of_unprivileged hx h hexe hserv fun _ _ hl hu => by simp only [hl, hu, Bool.not_false, if_true]

theorem leaseOp_of_unprivileged (f : Opnds → State → Nat → List Nat → Nat → State) : s.leaseOp i f = .next (s.unprivileged x) :=
  issue_of_unprivileged hx h hexe hserv fun _ _ hl hu => by simp only [hl, hu, Bool.not_false, if_true]

theorem diectl_of_unprivileged (f : Opnds → State → Nat → Nat → State) : s.diectl i f = .next (s.unprivileged x) :=
  issue_of_unprivileged hx h hexe hserv fun _ _ hl hu => by simp only [hl, hu, Bool.not_false, if_true]

end

section
variable (hexe : s.exe x.g ≠ []) (hserv : s.service (s.exe x.g) = false)
include hexe hserv

theorem faultCancel_of_unprivileged {m : CancelMode} (h : s.ready (.faultCancel x m) = true) :
    exec (.faultCancel x m) s = .next (s.unprivileged x) := by
  rw [exec_faultCancel, execFaultCancel]
  exact issue_of_unprivileged rfl h hexe hserv fun _ _ hl hu => by simp only [hl, hu, Bool.not_false, if_true]

theorem migAckTake_of_unprivileged (h : s.ready (.migAckTake x) = true) : exec (.migAckTake x) s = .next (s.unprivileged x) := by
  rw [exec_migAckTake, execMigAckTake]
  exact issue_of_unprivileged rfl h hexe hserv fun _ _ hl hu => by simp only [hl, hu, Bool.not_false, if_true]

/-- `tlbinv` looks at the bits of its operand that must be 0 first (R278). -/
theorem tlbinv_of_unprivileged {m : TlbMode} (hid : tlbIdOk s x m = true) (h : s.ready (.tlbinv x m) = true) :
    exec (.tlbinv x m) s = .next (s.unprivileged x) := by
  rw [exec_tlbinv, execTlbinv]
  refine issue_of_unprivileged rfl h hexe hserv fun l ls hl hu => ?_
  have hfirst : (s.exe x.g).headD 0 = l := by rw [← begun_exe, hl]; rfl
  cases m with
  | all => simp only [hl, hu, Bool.not_false, if_true, Bool.false_eq_true, if_false]
  | dom | as | va =>
    simp only [tlbIdOk, hfirst, decide_eq_true_eq] at hid
    rw [hl]
    dsimp only
    rw [if_neg (by simpa using hid), hu]
    rfl

end

end State

open State

/-- Settles O32: each of the instructions looks at the privilege of its lanes before it does anything else, but for `tlbinv`, which looks at its
operand first. -/
theorem servicePrivilege : Obligations.ServicePrivilege := by
  unfold Obligations.ServicePrivilege
  intro s i x hform h hexe hserv
  cases i with
  | faultRdSeq y => cases hform; rw [exec_faultRdSeq, execFaultRdSeq]; exact faultRd_of_unprivileged rfl h hexe hserv ..
  | faultRdTake y => cases hform; rw [exec_faultRdTake, execFaultRdTake]; exact faultRd_of_unprivileged rfl h hexe hserv ..
  | faultRdFree y => cases hform; rw [exec_faultRdFree, execFaultRdFree]; exact faultRd_of_unprivileged rfl h hexe hserv ..
  | faultCancel y m => cases hform; exact faultCancel_of_unprivileged hexe hserv h
  | migAckTake y => cases hform; exact migAckTake_of_unprivileged hexe hserv h
  | migAckRearm y => cases hform; rw [exec_migAckRearm, execMigAckRearm]; exact migAck_of_unprivileged rfl h hexe hserv _
  | migAckQuiet y => cases hform; rw [exec_migAckQuiet, execMigAckQuiet]; exact migAck_of_unprivileged rfl h hexe hserv _
  | leaseQStat y => cases hform; rw [exec_leaseQStat, execLeaseQStat]; exact leaseOp_of_unprivileged rfl h hexe hserv _
  | leaseQWait y => cases hform; rw [exec_leaseQWait, execLeaseQWait]; exact leaseOp_of_unprivileged rfl h hexe hserv _
  | leaseQRel y => cases hform; rw [exec_leaseQRel, execLeaseQRel]; exact leaseOp_of_unprivileged rfl h hexe hserv _
  | diectlReset y => cases hform; rw [exec_diectlReset, execDiectlReset]; exact diectl_of_unprivileged rfl h hexe hserv _
  | diectlStat y => cases hform; rw [exec_diectlStat, execDiectlStat]; exact diectl_of_unprivileged rfl h hexe hserv _
  | tlbinv y m =>
    obtain ⟨hid, hy⟩ := Option.ite_none_right_eq_some.1 hform
    cases hy
    exact tlbinv_of_unprivileged hexe hserv hid h
  | _ => cases hform

/-- Settles O30: which lanes may act, and on what, is read before the issue. -/
theorem systemRegisters : Obligations.SystemRegisters := by
  unfold Obligations.SystemRegisters
  intro s x r bad ex len good traps
  refine ⟨fun h hbad => ?read, fun h hbad => ?write, fun e w h hbad => ?log⟩
  case read =>
    rw [exec_sysrd, execSysrd, issue_ready rfl h]
    simp only [begun_exe, begun_cb, begun_sysValue, ex, ← hbad]
    rfl
  case write =>
    rw [exec_syswr, execSyswr, issue_ready rfl h]
    simp only [begun_exe, begun_cb, begun_src, begun_sel, ex, ← hbad]
    rfl
  case log =>
    rw [exec_oplogRd, execOplogRd, issue_ready rfl h]
    simp only [begun_exe, begun_cb, ex, ← hbad]
    rfl

end Sys2Proof.Machine
end

section
/-! What a core's scratchpad does by itself (R186, R191, R195, R197). -/

namespace Sys2Proof.Machine

namespace Scratchpad

theorem drain_lost (sp : Scratchpad) (busy : List Nat) : (sp.drain busy).lost = sp.lost := by
  refine List.foldlRecOn _ _ (motive := fun t : Scratchpad => t.lost = sp.lost) rfl fun t ht g _ => ?_
  dsimp only
  split
  · exact ht
  · split <;> exact ht

@[simp] theorem isLost_drain (sp : Scratchpad) (busy : List Nat) (gr : Nat) : (sp.drain busy).isLost gr = sp.isLost gr := by
  rw [isLost, isLost, drain_lost]

@[simp] theorem isLost_rebuildRow_same (sp : Scratchpad) (gr : Nat) : (sp.rebuildRow gr).isLost gr = false := by
  simp [isLost, rebuildRow]

@[simp] theorem pq_drainGroup_same (sp : Scratchpad) (g : Nat) : (sp.drainGroup g).pq g = [] := by
  simp [pq, drainGroup, Sparse.getOr]

end Scratchpad

open State

@[simp] theorem State.core_lampLog (s : State) (agent : Nat) (e : LogEvent) (data : List Nat) (c : Nat) :
    (s.lampLog agent e data).core c = s.core c := rfl

variable {s : State} {core : Nat}

/-- A lost row of a group that is not degraded is rebuilt (R195). -/
theorem rowRebuild_of_lost {g row : Nat} (hg : g < 16) (hlost : (s.core core).scratch.isLost (16 * row + g) = true)
    (hwhole : (s.core core).scratch.degraded g = false) :
    exec (.rowRebuild core g row) s = .next (s.modPad core fun sp => (sp.rebuildRow (16 * row + g)).drain [g]) := by
  simp [execRowRebuild, hlost, hwhole, Nat.not_le.2 hg]

section
variable {bank : Nat} (hbank : bank < 256) (hworn : s.hub.bankthr ≤ Sparse.getOr (s.core core).scratch.corrected bank 0)
include hbank hworn

/-- The first worn bank of its group is retired, once the group's queue has drained (R197). -/
theorem bankRetirement_of_whole (hwhole : (s.core core).scratch.degraded (bank / 16) = false) :
    exec (.bankRetirement core bank) s = .next ((s.modPad core fun sp =>
      { sp.drainGroup (bank / 16) with retired := Sparse.put sp.retired (bank / 16) bank }).lampLog 4 .bankRetired [core, bank]) := by
  have hnone : Sparse.look (s.core core).scratch.retired (bank / 16) = none := by simpa [Scratchpad.degraded] using hwhole
  simp [execBankRetirement, Nat.not_le.2 hbank, Nat.not_lt.2 hworn, hwhole, hnone, Scratchpad.drainGroup]

/-- With another bank of its group retired, a worn bank takes its core out of service (R197). -/
theorem bankRetirement_of_degraded (hdeg : (s.core core).scratch.degraded (bank / 16) = true)
    (hother : Sparse.look (s.core core).scratch.retired (bank / 16) ≠ some bank) (hin : (s.core core).inService = true) :
    exec (.bankRetirement core bank) s =
      .next ((s.modCore core fun k => { k with inService := false }).lampLog 4 .coreOut [core, bank]) := by
  simp [execBankRetirement, Nat.not_le.2 hbank, Nat.not_lt.2 hworn, hdeg, hother, hin]

end

/-- Settles O38, event by event. -/
theorem scratchEvents : Obligations.ScratchEvents := by
  unfold Obligations.ScratchEvents
  refine fun s core => ⟨⟨_, rfl, ?pass, rfl, rfl⟩,
    fun g row hg hlost hwhole => ⟨_, rowRebuild_of_lost hg hlost hwhole, ?row, ?kept, rfl, rfl⟩,
    fun bank hbank hworn => ⟨fun hwhole => ⟨_, bankRetirement_of_whole hbank hworn hwhole, ?retired, ?drained, rfl, rfl⟩,
      fun hdeg hother hin => ⟨_, bankRetirement_of_degraded hbank hworn hdeg hother hin, ?out, rfl, rfl⟩⟩⟩
  case pass | row => rw [core_modPad_same]
  case kept => simp
  case retired => rw [core_lampLog, core_modPad_same, Sparse.look_put_same]
  case drained =>
    rw [core_lampLog, core_modPad_same]
    exact (s.core core).scratch.pq_drainGroup_same (bank / 16)
  case out => rw [core_lampLog, core_modCore_same]

end Sys2Proof.Machine
end

section
/-! The parity of a group row under a store (R189, R191): the parity word, with the row's queued delta, changes by what the row changes by. -/

namespace Sys2Proof.Machine

/-! ### Exclusive ors over a list -/

theorem foldl_xor_init {α : Type} (f : α → Word) (l : List α) (a b : Word) :
    l.foldl (fun x w => x ^^^ f w) (a ^^^ b) = l.foldl (fun x w => x ^^^ f w) a ^^^ b := by
  induction l generalizing a with
  | nil => rfl
  | cons w l ih => rw [List.foldl_cons, List.foldl_cons, ← ih, BitVec.xor_assoc, BitVec.xor_assoc, BitVec.xor_comm b]

/-- One term of an exclusive or changes: so does the whole, by the same difference. -/
theorem foldl_xor_change {α : Type} {f g : α → Word} {l : List α} {k : α} (hnodup : l.Nodup) (hk : k ∈ l)
    (hsame : ∀ w, w ≠ k → f w = g w) (a : Word) :
    l.foldl (fun x w => x ^^^ f w) a = l.foldl (fun x w => x ^^^ g w) a ^^^ (g k ^^^ f k) := by
  have hcongr (m : List α) (hm : k ∉ m) (b : Word) : m.foldl (fun x w => x ^^^ f w) b = m.foldl (fun x w => x ^^^ g w) b :=
    List.foldl_ext _ _ _ fun x w hw => by rw [hsame w fun h => hm (h ▸ hw)]
  induction l generalizing a with
  | nil => cases hk
  | cons w l ih =>
    obtain ⟨hw, hl⟩ := List.nodup_cons.1 hnodup
    rw [List.foldl_cons, List.foldl_cons]
    rcases List.mem_cons.1 hk with rfl | hk
    · rw [hcongr l hw, ← foldl_xor_init, BitVec.xor_assoc a, ← BitVec.xor_assoc (g k), BitVec.xor_self, BitVec.zero_xor]
    · rw [ih hl hk, hsame w fun h => hw (h ▸ hk)]

/-! ### The words of a group row -/

theorem groupRow_mod (w : Nat) : groupRow w % 16 = groupOf w := by
  simp only [groupRow, groupOf, rowOf]
  omega

theorem groupRow_div (w : Nat) : groupRow w / 16 = rowOf w := by
  simp only [groupRow, groupOf, rowOf]
  omega

theorem groupWords_nodup (gr : Nat) : (groupWords gr).Nodup :=
  List.nodup_range.map fun _ _ h => Nat.add_left_cancel h

theorem mem_groupWords_groupRow (w : Nat) : w ∈ groupWords (groupRow w) := by
  simp only [groupWords, groupRow_div, groupRow_mod, rowOf, groupOf, List.mem_map, List.mem_range]
  exact ⟨w % 16, Nat.mod_lt _ (by decide), by omega⟩

/-! ### A row's deltas in a parity queue (R191) -/

/-- The exclusive or of a row's deltas in a parity queue. -/
def rowDelta (row : Nat) (q : List (Nat × Word)) : Word := (q.filter fun e => e.1 == row).foldl (fun x e => x ^^^ e.2) 0

/-- A parity queue with a row's delta added: to the row's entry, or as an entry of its own. -/
def withDelta (row : Nat) (d : Word) (q : List (Nat × Word)) : List (Nat × Word) :=
  if q.any fun e => e.1 == row then q.map fun e => if e.1 == row then (e.1, e.2 ^^^ d) else e else q ++ [(row, d)]

theorem rowDelta_drop (row : Nat) (q : List (Nat × Word)) : rowDelta row (q.filter fun e => e.1 != row) = 0 := by
  have hnone : (q.filter fun e => e.1 != row).filter (fun e => e.1 == row) = [] := by simp [List.filter_eq_nil_iff]
  rw [rowDelta, hnone]
  rfl

section
variable {row : Nat} {q : List (Nat × Word)} (hone : (q.filter fun e => e.1 == row).length ≤ 1)
include hone

/-- A row that has at most one entry: its delta is the entry's. -/
theorem rowDelta_eq_find : rowDelta row q = ((q.find? fun e => e.1 == row).map (·.2)).getD 0 := by
  rw [rowDelta, ← List.head?_filter]
  generalize q.filter (fun e => e.1 == row) = m at hone
  match m with
  | [] => rfl
  | [_] => exact BitVec.zero_xor
  | _ :: _ :: _ => simp at hone

theorem rowDelta_withDelta (d : Word) : rowDelta row (withDelta row d q) = rowDelta row q ^^^ d := by
  by_cases hany : ∃ e ∈ q, e.1 = row
  · obtain ⟨e, hq⟩ : ∃ e, q.filter (fun e => e.1 == row) = [e] := by
      obtain ⟨e, he, hrow⟩ := hany
      exact List.length_eq_one_iff.1 (Nat.le_antisymm hone (List.length_pos_of_mem (List.mem_filter.2 ⟨he, by simp [hrow]⟩)))
    have hrow : e.1 = row := by
      have he : e ∈ q.filter fun e => e.1 == row := hq ▸ List.mem_singleton_self e
      exact eq_of_beq (List.mem_filter.1 he).2
    have hkey : ((fun e : Nat × Word => e.1 == row) ∘ fun e => if e.1 == row then (e.1, e.2 ^^^ d) else e) = fun e => e.1 == row := by
      funext e
      simp only [Function.comp_apply]
      split <;> rfl
    rw [withDelta, if_pos (by simpa [List.any_eq_true] using hany), rowDelta, rowDelta, List.filter_map, hkey, hq]
    simp [hrow]
  · have hnil : q.filter (fun e => e.1 == row) = [] := by
      rw [List.filter_eq_nil_iff]
      exact fun e he h => hany ⟨e, he, by simpa using h⟩
    rw [withDelta, if_neg (by simpa [List.any_eq_true] using hany)]
    simp [rowDelta, List.filter_append, hnil]

end

/-! ### A store of one word (R189) -/

namespace Scratchpad

variable {sp : Scratchpad} {r : SpStore}

theorem inRetired_of_whole {w : Nat} (h : sp.degraded (groupOf w) = false) : sp.inRetired w = false := by
  have hnone : Sparse.look sp.retired (groupOf w) = none := by simpa [degraded] using h
  rw [inRetired, hnone]
  rfl

theorem raw_put {w : Nat} (h : sp.inRetired w = false) (new : Word × Bool) (v : Nat) :
    (sp.put w new).raw v = if v = w then new.1 else sp.raw v := by
  simp only [raw, put, h, Bool.false_eq_true, if_false]
  exact Sparse.getOr_putOr ..

/-- What a store of one word changes its row by. -/
def delta (sp : Scratchpad) (r : SpStore) : Word := sp.raw r.word ^^^ (sp.newWord r).1

theorem fullRow_single (r : SpStore) : fullRow [r] = false := by
  have h : [r.word].eraseDups = [r.word] := rfl
  simp [fullRow, h]

section
variable (hwhole : sp.degraded (groupOf r.word) = false) (hgood : sp.bad r.word = false)
include hwhole hgood

theorem read_of_good : sp.read r.word = some (sp.raw r.word, sp.poisoned r.word) := by
  simp [read, inRetired_of_whole hwhole, hgood]

theorem peek_of_good : sp.peek r.word = sp.raw r.word := by
  rw [peek, read_of_good hwhole hgood]
  rfl

/-- The update at once takes the row's queued delta into the parity word with the store's; the other adds the store's to the queue. -/
theorem writeRow_single (sync : Bool) : sp.writeRow (groupRow r.word) sync [r] =
    if sync then ({ sp.put r.word (sp.newWord r) with
      parity := Sparse.putOr sp.parity (groupRow r.word) (sp.par (groupRow r.word)
        ^^^ (((sp.pq (groupOf r.word)).find? fun e => e.1 == rowOf r.word).map (·.2)).getD 0 ^^^ sp.delta r) 0 } : Scratchpad).dropEntry
      (groupRow r.word)
    else { sp.put r.word (sp.newWord r) with
      queue := Sparse.putOr sp.queue (groupOf r.word) (withDelta (rowOf r.word) (sp.delta r) (sp.pq (groupOf r.word))) [] } := by
  have hdelta : (0 : Word) ^^^ (sp.raw r.word ^^^ (sp.newWord r).1) = sp.delta r := BitVec.zero_xor
  simp only [writeRow, fullRow_single, List.any_cons, List.any_nil, List.foldl_cons, List.foldl_nil, inRetired_of_whole hwhole,
    read_of_good hwhole hgood, peek_of_good hwhole hgood, hdelta, groupRow_mod, groupRow_div]
  rfl

theorem raw_writeRow (sync : Bool) (v : Nat) :
    (sp.writeRow (groupRow r.word) sync [r]).raw v = if v = r.word then (sp.newWord r).1 else sp.raw v := by
  rw [← raw_put (inRetired_of_whole hwhole), writeRow_single hwhole hgood]
  cases sync <;> rfl

/-- The parity word with the row's queued delta changes by what the row changes by. -/
theorem parity_writeRow (hone : ((sp.pq (groupOf r.word)).filter fun e => e.1 == rowOf r.word).length ≤ 1) (sync : Bool) :
    let t := sp.writeRow (groupRow r.word) sync [r]
    t.par (groupRow r.word) ^^^ rowDelta (rowOf r.word) (t.pq (groupOf r.word))
      = sp.par (groupRow r.word) ^^^ rowDelta (rowOf r.word) (sp.pq (groupOf r.word)) ^^^ sp.delta r := by
  rw [writeRow_single hwhole hgood]
  cases sync with
  | true =>
    rw [rowDelta_eq_find hone]
    simp [par, pq, dropEntry, groupRow_mod, groupRow_div, rowDelta_drop]
  | false =>
    simp only [Bool.false_eq_true, if_false, par, pq, Sparse.getOr_putOr_same]
    rw [← pq, rowDelta_withDelta hone, ← BitVec.xor_assoc]
    rfl

end

end Scratchpad

open Scratchpad

/-- Settles O16: the row's exclusive or and its parity change by the same difference. -/
theorem storeKeepsParity : Obligations.StoreKeepsParity := by
  unfold Obligations.StoreKeepsParity
  intro sp r sync gr queued sum hwhole _ hgood hone hsum t
  simp only [gr, groupRow_mod, groupRow_div] at hwhole hone
  have hraw := raw_writeRow hwhole hgood sync
  refine ⟨?parity, ?word, fun w hw => ?others⟩
  case parity =>
    have hrow : sum t = sum sp ^^^ sp.delta r := by
      have h := foldl_xor_change (groupWords_nodup gr) (mem_groupWords_groupRow r.word) (fun w hw => (hraw w).trans (if_neg hw)) 0
      rwa [hraw, if_pos rfl] at h
    have hqueued (u : Scratchpad) : queued u = rowDelta (rowOf r.word) (u.pq (groupOf r.word)) := by
      rw [← groupRow_div, ← groupRow_mod]
      rfl
    calc sum t = sum sp ^^^ sp.delta r := hrow
      _ = sp.par gr ^^^ rowDelta (rowOf r.word) (sp.pq (groupOf r.word)) ^^^ sp.delta r := by rw [← hqueued, ← hsum]
      _ = t.par gr ^^^ rowDelta (rowOf r.word) (t.pq (groupOf r.word)) := (parity_writeRow hwhole hgood hone sync).symm
      _ = t.par gr ^^^ queued t := by rw [hqueued]
  case word => exact (hraw r.word).trans (if_pos rfl)
  case others => exact (hraw w).trans (if_neg hw)

end Sys2Proof.Machine
end

section
/-! Remote accesses of scratchpad (R243 to R247): what an access whose checks pass leaves, and the fault where there is no member. -/

namespace Sys2Proof.Machine

/-! ### Checks that pass (R161) -/

/-- The record that a fault would have plays no part in a check that passes. -/
theorem Block.padCheck_eq_none_of {b : Block} {a size : Nat} {clob : Bool} {lf : LF} (h : b.padCheck a size clob lf = none) (lf' : LF) :
    b.padCheck a size clob lf' = none := by
  revert h
  simp only [padCheck]
  repeat' split
  all_goals simp

theorem PadReq.good_of_clear {rs : List PadReq} (h : ∀ r ∈ rs, r.bad = none) : PadReq.good rs = rs.map fun r => (r.thr, r.addr) := by
  rw [PadReq.good, ← List.filterMap_eq_map]
  exact List.filterMap_congr fun r hr => by rw [h r hr]; rfl

theorem PadReq.faults_of_clear {rs : List PadReq} (h : ∀ r ∈ rs, r.bad = none) : PadReq.faults rs = [] :=
  List.filterMap_eq_nil_iff.2 fun r hr => by rw [h r hr]; rfl

namespace State

variable {s : State} {r : Rem} {tgt : Nat}

/-- The executing lanes of a remote access with their scratch addresses; none where it only arrives (R243). -/
def remAt (s : State) (r : Rem) : List (Nat × Nat) := if r.only then [] else (s.exe r.x.g).map fun t => (t, s.remAddr r t)

/-- The requests that an access makes at its target, each with its check. -/
def remReqs (s : State) (r : Rem) (tgt : Nat) : List PadReq :=
  if r.only then [] else (s.remLanes r).map fun e =>
    { thr := e.1, addr := e.2.1, bad := (s.blk tgt).padCheck e.2.1 r.w.size r.store (widthLF r.w r.store) }

theorem remReqs_at (s : State) (r : Rem) (tgt : Nat) : (s.remReqs r tgt).map (fun q => (q.thr, q.addr)) = s.remAt r := by
  rw [remReqs, remAt]
  split
  · rfl
  · simp [remLanes]

/-- How an access that has stored ends: it arrives at the slot it names with a count of bytes, and its lanes go on while their block issues
(R196, R247). -/
def remArrived (u : State) (r : Rem) (who tgt : Nat) (bytes : Int) : State :=
  match r.slot with
  | none => u.advanceBut r.x.ext.bytes []
  | some n =>
    let v := u.arriveFrom who tgt n bytes
    if v.cb.state.issues then v.advanceBut r.x.ext.bytes [] else v

theorem padLoad_vals_of_sound {b size : Nat} {rs : List (Nat × Nat)} (h : s.padSound b size rs) :
    s.padLoad b size rs = ((s.padLoad b size rs).1, .ok (rs.map fun e => (e.1, ofBytes (s.padBytes b e.2 size)))) := by
  obtain ⟨vs, hvs⟩ := padLoad_of_sound h
  revert hvs
  simp only [padLoad]
  split
  · simp
  · exact fun _ => rfl

/-- Where every lane passes its checks, all of them store. -/
theorem remLanes_kept {α : Type} (s : State) (r : Rem) (f : Nat × Nat × Nat × List Nat → α) :
    ((s.remLanes r).filter fun e => (s.remAt r).any fun g => g.1 == e.1).map f = if r.only then [] else (s.remLanes r).map f := by
  rw [remAt]
  split
  · simp
  · rw [List.filter_eq_self.2]
    intro e he
    obtain ⟨l, hl, rfl⟩ := List.mem_map.1 he
    exact List.any_eq_true.2 ⟨(l, s.remAddr r l), List.mem_map_of_mem hl, by simp⟩

theorem remLanes_thr (s : State) (r : Rem) : (s.remLanes r).map (·.1) = s.exe r.x.g := by
  simp [remLanes, Function.comp_def]

theorem remAt_bytes (s : State) (r : Rem) :
    (if r.only then 0 else -(((s.remAt r).length * r.w.size : Nat) : Int)) = -(((s.remAt r).length * r.w.size : Nat) : Int) := by
  rw [remAt]
  split <;> simp

theorem slot_bound (hslot : ∀ n ∈ r.slot, (Sparse.look (s.blk tgt).slots n).isSome = true) :
    (r.slot.filter fun n => (Sparse.look (s.blk tgt).slots n).isNone) = none := by
  rw [Option.filter_eq_none_iff]
  intro n hn
  rw [Option.isNone_eq_false_iff.2 (hslot n hn)]
  exact Bool.false_ne_true

section
variable (hclear : s.padClear tgt r.w.size r.store (s.remAt r)) (hslot : ∀ n ∈ r.slot, (Sparse.look (s.blk tgt).slots n).isSome = true)
include hclear

theorem remReqs_clear : ∀ q ∈ s.remReqs r tgt, q.bad = none := by
  intro q hq
  obtain ⟨hcheck, -⟩ := hclear (q.thr, q.addr) (s.remReqs_at r tgt ▸ List.mem_map_of_mem hq)
  rw [remReqs] at hq
  split at hq
  · cases hq
  · obtain ⟨e, -, rfl⟩ := List.mem_map.1 hq
    exact Block.padCheck_eq_none_of hcheck _

theorem remReqs_good : PadReq.good (s.remReqs r tgt) = s.remAt r :=
  (PadReq.good_of_clear (remReqs_clear hclear)).trans (s.remReqs_at r tgt)

theorem remAt_free : ((s.remAt r).any fun e => s.sbBusy tgt e.2 r.w.size) = false :=
  List.any_eq_false.2 fun e he => by simp [(hclear e he).2]

include hslot

/-- The load's end: each lane's value, read as the bytes stand. -/
theorem remoteDo_loads (hst : r.store = false) (honly : r.only = false) (hsound : s.padSound tgt r.w.size (s.remAt r)) :
    s.remoteDo r tgt (s.remLanes r) = some (s.padGot (s.padLoad tgt r.w.size (s.remAt r)).1 r.x r.w tgt 2 (s.remAt r)) := by
  have hload := padLoad_vals_of_sound hsound
  rw [remoteDo, slot_bound hslot]
  dsimp only
  rw [← remReqs, remReqs_good hclear, remAt_free hclear, if_neg Bool.false_ne_true, if_pos (by rw [hst, honly]; rfl), hload]
  simp [padLoaded, padGot, PadReq.faults_of_clear (remReqs_clear hclear), finishFaults_nil, Function.comp_def]

/-- The store's end: the bytes are there, and then it arrives. -/
theorem remoteDo_stores (hdoes : r.store = true ∨ r.only = true) :
    let u := s.remStored r tgt (s.remAt r)
    let bytes : Int := -(((s.remAt r).length * r.w.size : Nat) : Int)
    (∀ n ∈ r.slot, u.arriveOk tgt n bytes = true) → s.remoteDo r tgt (s.remLanes r) = some (u.remArrived r s.sel.blk tgt bytes) := by
  intro u bytes hok
  have hnoload : ¬(!r.store && !r.only) = true := by rcases hdoes with h | h <;> simp [h]
  rw [remoteDo, slot_bound hslot]
  dsimp only
  rw [← remReqs, remReqs_good hclear, remAt_free hclear, if_neg Bool.false_ne_true, if_neg hnoload, remLanes_kept, remLanes_thr, remAt_bytes,
    PadReq.faults_of_clear (remReqs_clear hclear)]
  change (match r.slot with
    | none => some (u.advanceBut r.x.ext.bytes [])
    | some n =>
      if u.arriveOk tgt n bytes then
        some (if (u.arriveFrom s.sel.blk tgt n bytes).cb.state.issues then (u.arriveFrom s.sel.blk tgt n bytes).advanceBut r.x.ext.bytes []
          else u.arriveFrom s.sel.blk tgt n bytes)
      else _) = _
  clear_value u bytes
  rw [remArrived]
  cases hn : r.slot with
  | none => rfl
  | some n => exact if_pos (hok n hn)

end

/-! ### The count of the issue -/

theorem begun_remAt (s : State) (r : Rem) : s.begun.remAt r = s.remAt r := by
  simp only [remAt, begun_exe, begun_remAddr]

theorem begun_padClear {size : Nat} {clob : Bool} {rs : List (Nat × Nat)} (h : s.padClear tgt size clob rs) : s.begun.padClear tgt size clob rs := by
  simpa only [padClear, begun_blk, begun_sbBusy] using h

theorem begun_padGot (s u : State) (x : Opnds) (w : MWidth) (b h : Nat) (rs : List (Nat × Nat)) :
    s.begun.padGot u x w b h rs = s.padGot u x w b h rs := by
  simp only [padGot, begun_padBytes]

/-! ### What the links' retries and a load leave alone (R240, R244) -/

theorem linkGood_keeps (s : State) (a c : Nat) :
    (s.linkGood a c).blocks = s.blocks ∧ (s.linkGood a c).cores = s.cores ∧ (s.linkGood a c).mem = s.mem := by
  rw [linkGood]
  split <;> exact ⟨rfl, rfl, rfl⟩

theorem within_padGot (s u : State) (x : Opnds) (w : MWidth) (b h : Nat) (rs : List (Nat × Nat)) : u.within (s.padGot u x w b h rs) := by
  rw [padGot, raiseAll, advanceBut]
  exact ((within_modCb _ _).trans (within_write _ _ _ _)).trans (within_modCb _ _)

theorem padLoad_mem (s : State) (b size : Nat) (rs : List (Nat × Nat)) : (s.padLoad b size rs).1.mem = s.mem := by
  simp only [padLoad]
  split <;> next h => exact congrArg (·.1.mem) h.symm

/-! ### The issue (R245, R246) -/

/-- Nothing stands before a remote access that may be made: it is made at once, or faults where its core holds no member. -/
theorem exec_remote {i : Instr} {c : Nat} (hrem : remInstr s i = some (r, c)) (h : s.ready i = true) (hexe : s.exe r.x.g ≠ [])
    (hahead : ∀ tgt, s.memberAt s.sel.blk c = some tgt →
      (s.blk tgt).state.issues = true ∧ portBehind (s.core c).port s.sel = false ∧ s.fillAhead r c (s.remLanes r) = false) :
    exec i s = .next (match s.memberAt s.sel.blk c with
      | none => s.begun.uniformFault r.x { widthLF r.w r.store with cause := 0x1B }
      | some tgt => (s.begun.remoteSent r tgt (s.remLanes r)).getD s.begun.stall) := by
  obtain ⟨peer, xr, hexec, hcore, hx, hof⟩ : ∃ peer xr, exec i s = s.remoteOp i peer xr ∧ s.peerCore peer xr = c ∧ i.opnds? = some r.x
      ∧ Rem.of i = some r := by
    cases i with
    | ldsRem x w zx peer xr => cases hrem; exact ⟨peer, xr, rfl, rfl, rfl, rfl⟩
    | stsRem x w zx peer xr => cases hrem; exact ⟨peer, xr, rfl, rfl, rfl, rfl⟩
    | stsRemArr x zx peer xr => cases hrem; exact ⟨peer, xr, rfl, rfl, rfl, rfl⟩
    | _ => cases hrem
  rw [hexec, remoteOp, issue_ready hx h, hof]
  simp only [begun_exe, begun_peerCore, begun_sel, begun_memberAt, begun_remLanes, begun_fillAhead, begun_remoteGo, begun_core, hcore]
  rw [if_neg (by simpa using hexe)]
  cases hmember : s.memberAt s.sel.blk c with
  | none => rfl
  | some tgt =>
    obtain ⟨hissues, hport, hfill⟩ := hahead tgt hmember
    simp [hfill, remoteGo, hissues, hport]

end State

open State

/-- An access that nothing holds up is made at once (`exec_remote`). -/
theorem remoteAccesses : RemoteAccesses := by
  intro s i r c tgt hrem h hexe hmember hissues hport hfill rs hclear hslot
  have hexec := exec_remote hrem h hexe fun m hm => by
    cases hmember.symm.trans hm
    exact ⟨hissues, hport, hfill⟩
  rw [hmember] at hexec
  dsimp only [remoteSent] at hexec
  have hrs : rs = s.begun.remAt r := (s.begun_remAt r).symm
  rw [hrs] at hclear ⊢
  replace hclear := begun_padClear hclear
  replace hslot : ∀ n ∈ r.slot, (Sparse.look (s.begun.blk tgt).slots n).isSome = true := by rwa [begun_blk]
  refine ⟨fun hst honly _ hsound => ?loads, fun hdoes => ?stores⟩
  case loads =>
    have hdo := remoteDo_loads hclear hslot hst honly (begun_padSound hsound)
    rw [begun_remLanes, begun_padGot] at hdo
    rw [hdo] at hexec
    obtain ⟨hblocks, hcores, hmem⟩ := linkGood_keeps (s.padGot (s.begun.padLoad tgt r.w.size (s.begun.remAt r)).1 r.x r.w tgt 2 (s.begun.remAt r))
      s.begun.cc (s.begun.blk tgt).core
    exact ⟨_, hexec, hblocks, hcores, (hmem.trans (within_padGot ..).mem).trans ((padLoad_mem ..).trans s.begun_mem)⟩
  case stores =>
    intro u bytes hok
    have hdo := remoteDo_stores hclear hslot hdoes hok
    rw [begun_remLanes, begun_sel] at hdo
    rw [hdo] at hexec
    exact ⟨_, hexec, linkGood_keeps (u.remArrived r s.sel.blk tgt bytes) _ _⟩

theorem remotePeerFault : RemotePeerFault := by
  intro s i r c hrem h hexe hmember
  rw [exec_remote hrem h hexe fun m hm => (by cases hmember.symm.trans hm), hmember]
  exact congrArg _ (s.begun_uniformFault ..)

/-- Settles O17: an access whose checks pass loads (`remoteDo_loads`), or stores and arrives (`remoteDo_stores`); with no member on the core,
every executing lane faults. -/
theorem remoteResults : Obligations.RemoteResults := ⟨remoteAccesses, remotePeerFault⟩

end Sys2Proof.Machine
end

section
/-! Products of a row (R206, R207, R221): alignment truncates toward zero, and each mantissa gains the sum of its column's aligned products. -/

namespace Sys2Proof.Machine

/-! ### Alignment (R206) -/

theorem sign_mul_natAbs_div (m : Int) (d : Nat) : m.sign * (m.natAbs / d : Nat) = m.tdiv d := by
  obtain ⟨a, rfl | rfl⟩ := m.eq_nat_or_neg
  · rcases Nat.eq_zero_or_pos a with rfl | ha
    · simp
    · rw [Int.sign_natCast_of_ne_zero ha.ne', one_mul, Int.natAbs_natCast, Int.ofNat_tdiv]
  · rcases Nat.eq_zero_or_pos a with rfl | ha
    · simp
    · rw [Int.sign_neg, Int.sign_natCast_of_ne_zero ha.ne', neg_one_mul, Int.natAbs_neg, Int.natAbs_natCast, Int.ofNat_tdiv, Int.neg_tdiv]

/-- A magnitude with the sign of the value that it comes from. -/
theorem ite_neg_eq_sign_mul (m : Int) (q : Nat) (h : m = 0 → q = 0) : (if m < 0 then -(q : Int) else (q : Int)) = m.sign * q := by
  rcases lt_trichotomy m 0 with hm | rfl | hm
  · rw [if_pos hm, Int.sign_eq_neg_one_of_neg hm, neg_one_mul]
  · simp [h]
  · rw [if_neg hm.not_gt, Int.sign_eq_one_of_pos hm, one_mul]

/-- Alignment at an exponent that is not above the value's is exact. -/
theorem align_of_le {p : Fp.Dyadic} {e : Int} (h : e ≤ p.e) : align p e = (p.m * (2 ^ (p.e - e).toNat : Nat), false) := by
  simp only [align, if_pos h, decide_eq_false (Int.not_lt.2 h), Bool.false_and]
  rw [ite_neg_eq_sign_mul _ _ fun h0 => by simp [h0], Nat.cast_mul, ← mul_assoc, Int.sign_mul_natAbs]

/-- Alignment above the value's exponent divides with truncation toward zero, and loses bits where there is a remainder. -/
theorem align_of_lt {p : Fp.Dyadic} {e : Int} (h : p.e < e) :
    align p e = (p.m.tdiv (2 ^ (e - p.e).toNat : Nat), p.m.natAbs % 2 ^ (e - p.e).toNat != 0) := by
  simp only [align, if_neg (Int.not_le.2 h), decide_eq_true h, Bool.true_and]
  rw [ite_neg_eq_sign_mul _ _ fun h0 => by simp [h0], sign_mul_natAbs_div]

theorem align_up (m : Int) (k n : Nat) :
    align { m := m, e := k } (k + n : Nat) = (m.tdiv (2 ^ n : Nat), m.natAbs % 2 ^ n != 0) := by
  rcases Nat.eq_zero_or_pos n with rfl | hn
  · rw [align_of_le (by simp)]
    simp [Nat.mod_one]
  · rw [align_of_lt (by simpa using hn)]
    simp

theorem align_down (m : Int) (k n : Nat) : align { m := m, e := (k + n : Nat) } k = (m * (2 ^ n : Nat), false) := by
  rw [align_of_le (by simp)]
  simp

theorem alignTruncates : AlignTruncates := by
  intro m n k r
  have hr : r = (m.tdiv (2 ^ n : Nat), m.natAbs % 2 ^ n != 0) := align_up m k n
  have hdiv := Int.tdiv_mul_add_tmod m (2 ^ n : Nat)
  have hpos : 0 < 2 ^ n := Nat.two_pow_pos n
  rw [hr]
  dsimp only
  refine ⟨?magnitude, ?near, ?nonneg, ?nonpos, ?lost, align_down m k n⟩
  case magnitude =>
    rw [Int.natAbs_tdiv, Int.natAbs_natCast]
    exact Nat.div_mul_le_self ..
  case near =>
    rw [show m.tdiv (2 ^ n : Nat) * (2 ^ n : Nat) - m = -m.tmod (2 ^ n : Nat) by omega, Int.natAbs_neg, Int.natAbs_tmod, Int.natAbs_natCast]
    exact Nat.mod_lt _ hpos
  case nonneg => exact fun h => Int.tdiv_nonneg h (Int.natCast_nonneg _)
  case nonpos =>
    intro h
    rw [← neg_nonneg, ← Int.neg_tdiv]
    exact Int.tdiv_nonneg (neg_nonneg.2 h) (Int.natCast_nonneg _)
  case lost =>
    have hrem : m.tmod (2 ^ n : Nat) = 0 ↔ m.natAbs % 2 ^ n = 0 := by rw [← Int.natAbs_eq_zero, Int.natAbs_tmod, Int.natAbs_natCast]
    rw [bne_iff_ne, ne_eq, ← hrem]
    omega

/-! ### Rows -/

namespace AccRow

theorem mant_setMant (r : AccRow) (j k : Nat) (x : Int) : (r.setMant j x).mant k = if k = j then (BitVec.ofInt 48 x).toInt else r.mant k := by
  rw [mant, setMant, Sparse.getOr_putOr]
  split <;> rfl

/-- Each column from `c` on gains its sum. -/
def addSums (r : AccRow) (c : Nat) (sums : List Int) : AccRow :=
  (sums.zipIdx c).foldl (fun r e => r.setMant e.2 (r.mant e.2 + e.1)) r

theorem addSums_cons (r : AccRow) (c : Nat) (x : Int) (sums : List Int) :
    r.addSums c (x :: sums) = (r.setMant c (r.mant c + x)).addSums (c + 1) sums := rfl

theorem addSums_keeps (r : AccRow) (c : Nat) (sums : List Int) : r.addSums c sums = { r with m := (r.addSums c sums).m } := by
  induction sums generalizing r c with
  | nil => rfl
  | cons x sums ih => rw [addSums_cons, ih]; rfl

theorem mant_addSums (r : AccRow) (c k : Nat) (sums : List Int) : (r.addSums c sums).mant k =
    if c ≤ k ∧ k < c + sums.length then (BitVec.ofInt 48 (r.mant k + sums.getD (k - c) 0)).toInt else r.mant k := by
  induction sums generalizing r c with
  | nil => rw [if_neg (by simp)]; rfl
  | cons x sums ih =>
    rw [addSums_cons, ih, mant_setMant, List.length_cons]
    rcases lt_trichotomy k c with h | rfl | h
    · rw [if_neg (by omega), if_neg h.ne, if_neg (by omega)]
    · rw [if_neg (by omega), if_pos rfl, if_pos (by omega), Nat.sub_self, List.getD_cons_zero]
    · rw [if_neg h.ne', show k - c = k - (c + 1) + 1 by omega, List.getD_cons_succ]
      exact if_congr (by omega) rfl rfl

end AccRow

/-- The sum of each column's products, aligned at a row's exponent (R206). -/
def LaneProds.sums (l : LaneProds) (e : Int) : List Int := l.cols.map fun ps => (ps.map fun p => (align p e).1).sum

/-- Some product of the lane loses bits at a row's exponent (R206). -/
def LaneProds.loses (l : LaneProds) (e : Int) : Bool := l.cols.any fun ps => ps.any fun p => (align p e).2

theorem LaneProds.getD_sums (l : LaneProds) (e : Int) (j : Nat) :
    (l.sums e).getD j 0 = ((l.cols.getD j []).map fun p => (align p e).1).sum := by
  rw [sums, List.getD_eq_getElem?_getD, List.getD_eq_getElem?_getD, List.getElem?_map]
  cases l.cols[j]? <;> rfl

namespace State

variable {s : State}

theorem quiet.mp {t : State} (h : s.quiet t s.sel.blk) : t.mp = s.mp := by
  rw [State.mp, State.mp, cb, h.sel, h.self]
  rfl

theorem mp_flagLanes (s : State) (fs : List (Nat × BitVec 6)) : (s.flagLanes fs).mp = s.mp := by
  rw [mp, flagLanes_cb, (s.within_flagLanes fs).sel]
  rfl

theorem accRow_flagLanes (s : State) (fs : List (Nat × BitVec 6)) (t i : Nat) : (s.flagLanes fs).accRow t i = s.accRow t i := by
  rw [accRow, mp_flagLanes, part, (s.within_flagLanes fs).parts]
  rfl

theorem accRow_setRow (s : State) (t i : Nat) (r : AccRow) : (s.setRow t i r).accRow t i = r := by
  have hmp : (s.setRow t i r).mp = s.mp := (s.quiet_log s.sel.blk _).mp
  rw [accRow, hmp, setRow, part_modPart_same, Partition.tile_modTile, if_pos rfl]
  exact Sparse.getOr_putOr_same ..

/-- A lane whose products are finite, and whose row holds a value and need not renormalise, adds its aligned sums to its row (R206, R221). -/
theorem addLane_of_shift_zero {tile c col0 op : Nat} {l : LaneProds} {t : Int} (hbad : l.bad = false) (htop : l.top = some t)
    (hshift : (s.accRow tile (homeLane l.thr)).shift t c = 0) (hempty : (s.accRow tile (homeLane l.thr)).empty = false) :
    let r := s.accRow tile (homeLane l.thr)
    s.addLane tile c col0 op l = (s.setRow tile (homeLane l.thr)
      { r.addSums col0 (l.sums r.e) with rtrc := (r.addSums col0 (l.sums r.e)).rtrc || l.loses r.e }).flagLanes
        [(l.thr, if l.loses r.e then Fp.trc else 0)] := by
  simp [addLane, hbad, htop, hshift, hempty, AccRow.addSums, LaneProds.sums, LaneProds.loses, List.zipIdx_map, List.foldl_map,
    Function.comp_def]

end State

open State

theorem rowTakesSums : RowTakesSums := by
  intro s tile c col0 op l t j hbad htop hj _ r hshift hempty r'
  have hr' : r' = { r.addSums col0 (l.sums r.e) with rtrc := (r.addSums col0 (l.sums r.e)).rtrc || l.loses r.e } := by
    simp only [r', addLane_of_shift_zero hbad htop hshift hempty, accRow_flagLanes, accRow_setRow, r]
  have hmant (k : Nat) : r'.mant k = (r.addSums col0 (l.sums r.e)).mant k := by rw [hr']; rfl
  have hlen : (l.sums r.e).length = l.cols.length := List.length_map ..
  refine ⟨?exponent, ?inside, fun k hk => ?outside⟩
  case exponent => rw [hr', AccRow.addSums_keeps]
  case inside => rw [hmant, AccRow.mant_addSums, if_pos (by omega), Nat.add_sub_cancel_left, LaneProds.getD_sums]
  case outside => rw [hmant, AccRow.mant_addSums, if_neg (by omega)]

/-- Settles O24: a row takes the sums of its columns (`AccRow.mant_addSums`), and alignment is division that truncates toward zero
(`align_up`). -/
theorem productSums : Obligations.ProductSums := ⟨rowTakesSums, alignTruncates⟩

end Sys2Proof.Machine
end

section
/-! Operand-buffer records and products (R212, R215 to R217, R220, R221). -/

namespace Sys2Proof.Machine

/-- A field that an entry leaves unused holds null. -/
theorem Kind.eq_null_of_okSrc {e : Ext} {a : Src} (h : Kind.null.okSrc e a = true) : a = .null := by
  cases a <;> simp_all [Kind.null, Kind.okSrc]

/-- A destination that an entry leaves unused is discard. -/
theorem Kind.eq_discard_of_okDst {d : Dst} (h : Kind.null.okDst d = true) : d = .discard := by
  cases d <;> simp_all [Kind.null, Kind.okDst]

namespace State

variable {s : State} {x : Opnds} {i : Instr} {l : Nat}

theorem exe_of_first (h : s.first x.g = some l) : ∃ ls, s.exe x.g = l :: ls := List.head?_eq_some_iff.1 h

/-! ### Records reserved and freed (R215, R216) -/

/-- The descriptor that `obres` reads, and the format that stands in the register it names (R215). -/
def obDesc (s : State) (x : Opnds) : Nat := s.src x.ext (.int 128 false) (s.sel.act.headD 0) x.a

/-- The record that `obres` makes: RESERVED, or READY where it stands for metadata (R215). -/
def obMade (s : State) (x : Opnds) : ObRec :=
  let r : ObRec := { state := .reserved, desc := .ofNat 128 (s.obDesc x), fmt := s.freg (field (s.obDesc x) 20 4) }
  if r.type = 15 then { r with state := .ready } else r

section
variable {n : BitVec 3} (hl : s.first x.g = some l)
include hl

/-- What `obres` does is decided by the record's state, its format and its descriptor (R59, R215). -/
theorem obres_eq (h : s.ready (.obres x n) = true) : exec (.obres x n) s = .next (
    if ((s.begun.part s.mp).ob n.toNat).state == .free && (s.obMade x).narrow && !(Nf.fmtOf (s.freg (field (s.obDesc x) 20 4))).legal then
      s.begun.trapAll x.ext.bytes 5
    else if !((s.begun.part s.mp).ob n.toNat).state == .free then s.begun.uniformFault x { cause := 0x30 }
    else if s.begun.obDescBad n.toNat (s.obMade x) then s.begun.uniformFault x { cause := 0x31 }
    else (s.begun.modPart s.mp fun p => p.setOb n.toNat (s.obMade x)).advance x.ext.bytes) := by
  obtain ⟨ls, hexe⟩ := exe_of_first hl
  rw [exec_obres, execObres, issue_ready rfl h, begun_exe, hexe, begun_mp, begun_sel, begun_src_eq]
  simp only [begun_freg]
  rfl

theorem obres_reserves (h : s.ready (.obres x n) = true) (hfree : ((s.begun.part s.mp).ob n.toNat).state = .free)
    (hlegal : (s.obMade x).narrow = true → (Nf.fmtOf (s.freg (field (s.obDesc x) 20 4))).legal = true)
    (hdesc : s.begun.obDescBad n.toNat (s.obMade x) = false) :
    exec (.obres x n) s = .next ((s.begun.modPart s.mp fun p => p.setOb n.toNat (s.obMade x)).advance x.ext.bytes) := by
  have hformat : ¬(((s.begun.part s.mp).ob n.toNat).state == .free && (s.obMade x).narrow
      && !(Nf.fmtOf (s.freg (field (s.obDesc x) 20 4))).legal) = true := by
    simpa [hfree] using hlegal
  rw [obres_eq hl h, if_neg hformat, if_neg (by simp [hfree]), if_neg (by simp [hdesc])]

/-- What `obrel` does is decided by the record's state (R216). -/
theorem obrel_eq (h : s.ready (.obrel x n) = true) : exec (.obrel x n) s = .next (
    if ((s.begun.part s.mp).ob n.toNat).state == .free then s.begun.uniformFault x { cause := 0x30 }
    else if ((s.begun.part s.mp).ob n.toNat).state == .filling then s.begun.stall
    else (s.begun.modPart s.mp fun p => p.setOb n.toNat { (s.begun.part s.mp).ob n.toNat with state := .free }).advance x.ext.bytes) := by
  obtain ⟨ls, hexe⟩ := exe_of_first hl
  rw [exec_obrel, execObrel, issue_ready rfl h, begun_exe, hexe, begun_mp]
  simp only [List.isEmpty_cons, Bool.false_eq_true, if_false]

end

/-- A form that takes no operand has its fields unused (R18, R19). -/
theorem unused_of_wf (hx : i.opnds? = some x) (hform : i.formOk = x.short) (hsig : i.sig = {}) (h : i.wf = true) :
    x.short = true ∧ x.d = .discard ∧ x.a = .null ∧ x.b = .null ∧ x.c = .null := by
  obtain ⟨hshort, hok⟩ := Bool.and_eq_true_iff.1 h
  simp only [Instr.operandsOk, hx, hsig, Bool.and_eq_true] at hok
  obtain ⟨⟨⟨⟨hd, ha⟩, hb⟩, hc⟩, -⟩ := hok
  exact ⟨hform ▸ hshort, Kind.eq_discard_of_okDst hd, Kind.eq_null_of_okSrc ha, Kind.eq_null_of_okSrc hb, Kind.eq_null_of_okSrc hc⟩

/-! ### Fills (R217) -/

/-- A fill from the block's own scratchpad whose range passes its checks and can be read starts with the bytes that stand there. -/
theorem localFill_of_read {n a size : Nat} {u : State} {bs : List Byte} {bad : List Nat}
    (hrange : s.cb.padRange a size 16 false { cause := 0 } = none) (hfree : s.sbBusy s.sel.blk a size = false)
    (hread : s.fillRead s.sel.blk a size = (u, some (bs, bad))) :
    s.localFill x n a size = ((u.startFill n { blk := s.sel.blk, ob := n, bytes := bs, poison := bad, remote := none, len := size
                                               thrs := s.exe x.g }).raiseAll (s.exe x.g) 1).advance x.ext.bytes := by
  simp only [localFill, hrange, hfree, hread, Bool.false_eq_true, if_false]

section
variable {n : Nat} {src : Opnds → State → Nat → Option Nat} (hx : i.opnds? = some x) (h : s.ready i = true) (hl : s.first x.g = some l)
  (hfree : ((s.begun.part s.mp).ob n).state ≠ .free) (hfilling : ((s.begun.part s.mp).ob n).state ≠ .filling)
  (htype : ((s.begun.part s.mp).ob n).type ≠ 15)
include hx h hl hfree hfilling htype

/-- `obld.x`: the fill is from the address that the form names. -/
theorem fillOp_of_address {a : Nat} (ha : src x s.begun l = some a) :
    s.fillOp i n src = .next (s.begun.localFill x n a ((s.begun.part s.mp).ob n).size) := by
  simp [fillOp, issue_ready hx h, hl, hfree, hfilling, htype, ha]

/-- `obld`: the fill is from where the record is backed. -/
theorem fillOp_of_backed (hnone : src x s.begun l = none) (hbacked : ((s.begun.part s.mp).ob n).backed = true) :
    s.fillOp i n src = .next (
      let r := (s.begun.part s.mp).ob n
      if r.bcore = s.cc % 4 then s.begun.localFill x n r.baddr r.size
      else ((s.begun.joinMerge r.bcore r.baddr r.size).startFill n
        { blk := s.sel.blk, ob := n, bytes := [], poison := [], remote := some (r.bcore, r.baddr), len := r.size
          thrs := s.exe x.g }).advance x.ext.bytes) := by
  simp [fillOp, issue_ready hx h, hl, hfree, hfilling, htype, hnone, hbacked]

end

end State

open State

theorem recordResults : RecordResults := by
  intro s x n l hl ob
  refine ⟨obres_reserves hl, fun h hfree hfilling => ?frees, fun h hfilling => ?waits, fun h hfree => ?faults, rfl, unused_of_wf rfl rfl rfl,
    fun hfree hfilling htype => ⟨?address, ?own, ?peer⟩⟩
  case frees => rw [obrel_eq hl h, if_neg (by simpa using hfree), if_neg (by simpa using hfilling)]
  case waits => rw [obrel_eq hl h, if_neg (by simp [ob, hfilling]), if_pos (by simpa using hfilling)]
  case faults => rw [obrel_eq hl h, if_pos (by simpa using hfree), begun_uniformFault]
  case address =>
    intro a u bs bad h ha ⟨hrange, hbusy⟩ hread
    rw [exec_obldX, execObldX, fillOp_of_address rfl h hl hfree hfilling htype (by rw [begun_src_eq, ← ha]),
      localFill_of_read (by rwa [begun_cb]) (by rwa [begun_sel, begun_sbBusy]) (by rwa [begun_sel]), begun_exe, begun_sel]
  case own =>
    intro u bs bad h hbacked hown ⟨hrange, hbusy⟩ hread
    rw [exec_obld, execObld, fillOp_of_backed rfl h hl hfree hfilling htype rfl hbacked]
    dsimp only
    rw [if_pos hown, localFill_of_read (by rwa [begun_cb]) (by rwa [begun_sel, begun_sbBusy]) (by rwa [begun_sel]), begun_exe, begun_sel]
  case peer =>
    intro h hbacked hpeer
    rw [exec_obld, execObld, fillOp_of_backed rfl h hl hfree hfilling htype rfl hbacked]
    exact congrArg _ (if_neg hpeer)

end Sys2Proof.Machine
end

section
/-! Matrix products (R206 to R210, R217, R218, R220, R221): `mma` and `mmas` whose checks pass add their lanes' products. -/

namespace Sys2Proof.Machine

/-- A lane whose elements of A are in range, and whose metadata are in the allocation and in order, passes its own checks (R221). -/
theorem MmaReq.laneCheck_eq_none {q : MmaReq} {b : Block} {a : ObRec} {m : Option ObRec} {nibble : Nat → Nat → Nat} {t : Nat}
    (hfits : a.fits (homeLane t) q.lastA = true) (hbytes : ∀ r ∈ m, ∀ k ∈ q.metaBytes r (homeLane t), k < b.scratchSize)
    (horder : m.isSome = true → ∀ g ∈ q.groups, nibble (homeLane t) g % 4 < nibble (homeLane t) g / 4) :
    q.laneCheck b a m nibble t = none := by
  simp only [laneCheck, hfits, Bool.not_true, Bool.false_eq_true, if_false]
  cases m with
  | none => rfl
  | some r =>
    have hfound : (q.metaBytes r (homeLane t)).find? (fun k => decide (b.scratchSize ≤ k)) = none :=
      List.find?_eq_none.2 fun k hk => by simpa using hbytes r rfl k hk
    have hbad : ¬(q.groups.any fun g => decide (nibble (homeLane t) g / 4 ≤ nibble (homeLane t) g % 4)) = true := by
      simpa using horder rfl
    dsimp only
    rw [hfound]
    exact if_neg hbad

theorem passed_of_clear {α : Type} {ts : List Nat} {check : Nat → Option α} (h : ∀ t ∈ ts, check t = none) :
    ((ts.map fun t => (t, check t)).filter fun r => r.2.isNone).map (·.1) = ts := by
  rw [List.filter_map, List.map_map, List.filter_eq_self.2 fun t ht => by simp [h t ht]]
  exact List.map_id _

theorem failed_of_clear {α : Type} {ts : List Nat} {check : Nat → Option α} (h : ∀ t ∈ ts, check t = none) :
    (ts.map fun t => (t, check t)).filterMap (fun r => r.2.map fun f => (r.1, f)) = [] := by
  rw [List.filterMap_eq_nil_iff]
  intro r hr
  obtain ⟨t, ht, rfl⟩ := List.mem_map.1 hr
  rw [h t ht]
  rfl

/-- The bytes of metadata that lanes read (R218). -/
def MmaReq.metas (q : MmaReq) (m : Option ObRec) (ts : List Nat) : List (Nat × Nat) :=
  match m with
  | some m => ts.flatMap fun t => (q.metaBytes m (homeLane t)).map fun k => (t, k)
  | none => []

namespace State

variable {s : State} {x : Opnds} {i : Instr} {q : MmaReq} {a b : ObRec} {m : Option ObRec} {l : Nat}

/-- The product that an instruction whose lowest executing lane is `l` asks for (R220). -/
def mmaReq (s : State) (x : Opnds) (tile ra rb : Nat) (rm : Option Nat) (l : Nat) : MmaReq :=
  { tile := tile, ra := ra, rb := rb, rm := rm, n := (mmShape x.ext).1, k := (mmShape x.ext).2
    kofs := s.src x.ext .b32 l x.a, col0 := s.src x.ext .b32 l x.b }

/-- The nibble of a dense group as a lane's check sees it: one in order where there is no metadata. -/
def nibbleOf (s : State) (m : Option ObRec) (i g : Nat) : Nat :=
  match m with
  | some m => s.metaNibble m i g
  | none => 4

/-- Some element that a lane multiplies is poisoned (R217). -/
def mmaPoisoned (s : State) (q : MmaReq) (a b : ObRec) (m : Option ObRec) (t : Nat) : Bool :=
  (s.mmaPairs q m t).any fun e =>
    (s.part s.mp).elemPoison a (homeLane t) e.1 || (List.range q.n).any fun j => (s.part s.mp).elemPoison b j e.2

/-- A product once the lanes that pass their checks, those that fail, and the bytes of metadata are known (R221). -/
def mmaEnd (s : State) (x : Opnds) (q : MmaReq) (a b : ObRec) (m : Option ObRec) (good : List Nat) (fs : List (Nat × LF))
    (metas : List (Nat × Nat)) : State :=
  if metas.any fun e => s.sbBusy s.sel.blk e.2 1 then s.stall
  else
    match s.padLoad s.sel.blk 1 metas with
    | (s1, .error trig) => s1.consume s.sel.blk trig 0
    | (s1, .ok _) =>
      if good.any (s.mmaPoisoned q a b m) then s1.consume s.sel.blk 0 0
      else (s1.addLanes x q fs (good.map fun t => laneProds (s.part s.mp) a b q.n t (s.mmaPairs q m t))).raiseAll
        (metas.map (·.1)).eraseDups 1

theorem mmaGo_eq (s : State) (x : Opnds) (q : MmaReq) (a b : ObRec) (m : Option ObRec) :
    let rs := (s.exe x.g).map fun t => (t, q.laneCheck s.cb a m (s.nibbleOf m) t)
    s.mmaGo x q a b m = s.mmaEnd x q a b m ((rs.filter fun r => r.2.isNone).map (·.1)) (rs.filterMap fun r => r.2.map fun f => (r.1, f))
      (q.metas m ((s.exe x.g).filter fun t => (q.laneCheck s.cb a m (fun _ _ => 4) t).isNone)) := rfl

theorem begun_metaNibble (s : State) : s.begun.metaNibble = s.metaNibble := by
  obtain ⟨_, h⟩ := s.begun_eq
  rw [h]
  rfl

theorem begun_mmaPairs (s : State) (q : MmaReq) (m : Option ObRec) (t : Nat) : s.begun.mmaPairs q m t = s.mmaPairs q m t := by
  simp only [mmaPairs, begun_metaNibble]

/-- The records are ready, the shape is in range, and no lane fails a check: all lanes go on (R221). -/
theorem mmaOp_of_ok {tile ra rb : Nat} {rm : Option Nat} (hx : i.opnds? = some x) (h : s.ready i = true) (hl : s.first x.g = some l)
    (hok : s.mmaOk x (s.mmaReq x tile ra rb rm l) ((s.begun.part s.mp).ob ra) ((s.begun.part s.mp).ob rb) (rm.map (s.begun.part s.mp).ob)) :
    s.mmaOp i tile ra rb rm = .next (s.begun.mmaGo x (s.mmaReq x tile ra rb rm l) ((s.begun.part s.mp).ob ra) ((s.begun.part s.mp).ob rb)
      (rm.map (s.begun.part s.mp).ob)) := by
  obtain ⟨ha, hb, htypeA, htypeB, hm, hcols, hkofs, hfits, -⟩ := hok
  have hfilling : (rm.map (s.begun.part s.mp).ob).any (fun r => r.state == .filling) = false :=
    (Option.any_eq_false _ _).2 fun r hr => by rw [(hm r hr).1]; rfl
  have hopen : (rm.map (s.begun.part s.mp).ob).any (fun r => r.state == .free || r.state == .reserved) = false :=
    (Option.any_eq_false _ _).2 fun r hr => by rw [(hm r hr).1]; rfl
  have htype : (rm.map (s.begun.part s.mp).ob).any (fun r => r.type != 15) = false :=
    (Option.any_eq_false _ _).2 fun r hr => by rw [(hm r hr).2]; rfl
  have hrange : ¬(decide (128 < (s.mmaReq x tile ra rb rm l).col0 + (s.mmaReq x tile ra rb rm l).n)
      || ((rm.map (s.begun.part s.mp).ob).isSome && (s.mmaReq x tile ra rb rm l).kofs % 4 != 0)) = true := by
    simpa only [Bool.or_eq_true, decide_eq_true_eq, Bool.and_eq_true, bne_iff_ne, not_or, not_and, not_not, Nat.not_lt] using ⟨hcols, hkofs⟩
  have hall : ¬(!(List.range (s.mmaReq x tile ra rb rm l).n).all fun j => ((s.begun.part s.mp).ob rb).fits j
      ((s.mmaReq x tile ra rb rm l).kofs + (s.mmaReq x tile ra rb rm l).k - 1)) = true := by
    simpa using hfits
  rw [mmaOp, issue_ready hx h, begun_first, hl, begun_mp, begun_src_eq]
  dsimp only
  rw [hfilling, hopen, htype, if_neg (by simp [ha, hb]), if_neg (by simp [ha, hb, htypeA, htypeB]), if_neg (by simp [ha, hb])]
  exact congrArg _ ((if_neg hrange).trans (if_neg hall))

/-- Where every lane passes, and reads sound elements and metadata that no copy in flight holds, all their products are added. -/
theorem mmaGo_of_sound (hlanes : ∀ t ∈ s.exe x.g, a.fits (homeLane t) q.lastA = true ∧ ∀ r ∈ m,
      (∀ k ∈ q.metaBytes r (homeLane t), k < s.cb.scratchSize)
      ∧ ∀ g ∈ q.groups, s.metaNibble r (homeLane t) g % 4 < s.metaNibble r (homeLane t) g / 4)
    (hbusy : ∀ e ∈ q.metas m (s.exe x.g), s.sbBusy s.sel.blk e.2 1 = false) (hsound : s.padSound s.sel.blk 1 (q.metas m (s.exe x.g)))
    (hclean : ∀ t ∈ s.exe x.g, ∀ e ∈ s.mmaPairs q m t,
      (s.part s.mp).elemPoison a (homeLane t) e.1 = false ∧ ∀ j < q.n, (s.part s.mp).elemPoison b j e.2 = false) :
    s.mmaGo x q a b m = ((s.padLoad s.sel.blk 1 (q.metas m (s.exe x.g))).1.addLanes x q []
      ((s.exe x.g).map fun t => laneProds (s.part s.mp) a b q.n t (s.mmaPairs q m t))).raiseAll
        ((q.metas m (s.exe x.g)).map (·.1)).eraseDups 1 := by
  have hcheck (t : Nat) (ht : t ∈ s.exe x.g) : q.laneCheck s.cb a m (s.nibbleOf m) t = none := by
    obtain ⟨hfits, hmeta⟩ := hlanes t ht
    refine MmaReq.laneCheck_eq_none hfits (fun r hr => (hmeta r hr).1) fun hm => ?_
    obtain ⟨r, rfl⟩ := Option.isSome_iff_exists.1 hm
    exact (hmeta r rfl).2
  have hread (t : Nat) (ht : t ∈ s.exe x.g) : q.laneCheck s.cb a m (fun _ _ => 4) t = none := by
    obtain ⟨hfits, hmeta⟩ := hlanes t ht
    exact MmaReq.laneCheck_eq_none hfits (fun r hr => (hmeta r hr).1) fun _ _ _ => by decide
  have hpoison : ¬(s.exe x.g).any (s.mmaPoisoned q a b m) = true := by
    simpa [mmaPoisoned, ← forall_and] using hclean
  obtain ⟨vs, hload⟩ := padLoad_of_sound hsound
  rw [mmaGo_eq, passed_of_clear hcheck, failed_of_clear hcheck, List.filter_eq_self.2 fun t ht => by rw [hread t ht]; rfl, mmaEnd,
    if_neg (by simpa using hbusy), hload]
  exact if_neg hpoison

end State

open State

theorem matrixProducts : MatrixProducts := by
  intro s x i t ra rb rm l hform h hl p a b m q hok metas hbusy hsound hclean
  have hx : i.opnds? = some x := by
    rcases hform with ⟨rfl, -⟩ | ⟨k, rfl, -⟩ <;> rfl
  have hexec : exec i s = s.mmaOp i t.toNat ra.toNat rb.toNat (rm.map (·.toNat)) := by
    rcases hform with ⟨rfl, rfl⟩ | ⟨k, rfl, rfl⟩ <;> rfl
  have hm : m = (rm.map (·.toNat)).map (s.begun.part s.mp).ob := by rw [Option.map_map]; rfl
  have hmetas : metas = q.metas m (s.exe x.g) := rfl
  have ⟨_, _, _, _, _, _, _, _, hlanes⟩ := hok
  have hgo := mmaGo_of_sound (s := s.begun) (x := x) (q := q) (a := a) (b := b) (m := m)
    (by simpa only [begun_exe, begun_cb, begun_metaNibble] using hlanes)
    (by simpa only [begun_exe, ← hmetas, begun_sel, begun_sbBusy] using hbusy)
    (by simpa only [begun_exe, ← hmetas, begun_sel] using begun_padSound hsound)
    (by simpa only [begun_exe, begun_mmaPairs, begun_mp] using hclean)
  simp only [begun_mmaPairs, begun_exe, begun_sel, begun_mp] at hgo
  rw [hexec, mmaOp_of_ok hx h hl (hm ▸ hok), ← hm]
  exact congrArg _ hgo

/-- Settles O23: a record's state and descriptor decide what happens to it (`obres_eq`, `obrel_eq`, `fillOp_of_backed`), and a product whose
checks pass goes on in every executing lane (`mmaOp_of_ok`, `mmaGo_of_sound`). -/
theorem matrixResults : Obligations.MatrixResults := ⟨recordResults, matrixProducts⟩

end Sys2Proof.Machine
end

section
/-! The accumulator's own instructions, and rows loaded and stored (R222 to R231). -/

namespace Sys2Proof.Machine

/-- The record that a fault would have plays no part in a check that passes. -/
theorem Block.padRange_eq_none_of {b : Block} {a len align : Nat} {clob : Bool} {lf : LF} (h : b.padRange a len align clob lf = none) (lf' : LF) :
    b.padRange a len align clob lf' = none := by
  revert h
  simp only [Block.padRange]
  repeat' split
  all_goals simp

namespace State

variable {s : State} {x : Opnds} {i : Instr} {l : Nat}

/-! ### Rows changed one by one (R222, R227 to R229) -/

theorem eachRow_of_ready (hx : i.opnds? = some x) (h : s.ready i = true) (f : Opnds → State → Nat → State) :
    s.eachRow i f = .next (((s.exe x.g).foldl (f x) s.begun).advance x.ext.bytes) := by
  rw [eachRow, issue_ready hx h, begun_exe]

theorem accZero_of_ready {t : BitVec 1} {all : Bool} (h : s.ready (.accZero x t all) = true) : exec (.accZero x t all) s = .next
    (((if all ∧ s.exe x.g ≠ [] then List.range 128 else (s.exe x.g).map homeLane).foldl (fun u i => u.setRow t.toNat i AccRow.reset)
      s.begun).advance x.ext.bytes) := by
  rw [exec_accZero, execAccZero, issue_ready rfl h, begun_exe]
  simp

/-- `acc.tmask` is decided by its first column (R228). -/
theorem accTmask_eq {t : BitVec 1} (hl : s.first x.g = some l) (h : s.ready (.accTmask x t) = true) : exec (.accTmask x t) s = .next (
    let col0 := s.src x.ext .b32 l x.b
    if 127 < col0 then s.begun.uniformFault x { cause := 0x34 }
    else ((s.exe x.g).foldl (fun u k => u.setRow t.toNat (homeLane k) ((List.range (min 64 (128 - col0))).foldl (fun (r : AccRow) j =>
      r.setMask (col0 + j) (!bitAt (u.src x.ext .b64 k x.a) j)) (u.accRow t.toNat (homeLane k)))) s.begun).advance x.ext.bytes) := by
  rw [exec_accTmask, execAccTmask, issue_ready rfl h, begun_first, hl, begun_exe, begun_src_eq]

/-! ### The largest element, and the mode (R230, R231) -/

theorem accRmax_of_range {t : BitVec 1} {n : BitVec 7} (hl : s.first x.g = some l) (h : s.ready (.accRmax x t n) = true)
    (hcols : s.src x.ext .b32 l x.a + n.toNat + 1 ≤ 128) :
    let most (k : Nat) := (s.begun.accRow t.toNat (homeLane k)).maxOut (s.src x.ext .b32 l x.a) (n.toNat + 1)
    exec (.accRmax x t n) s = .next (((s.begun.advance x.ext.bytes).write x.d 1 ((s.exe x.g).map fun k => (k, (most k).1))).flagLanes
      ((s.exe x.g).map fun k => (k, (most k).2))) := by
  rw [exec_accRmax, execAccRmax, issue_ready rfl h, begun_first, hl, begun_exe, begun_src_eq]
  dsimp only
  rw [if_neg (by omega), List.map_map, List.map_map]
  rfl

/-! ### Rows loaded and stored (R223 to R225) -/

theorem begun_accReqs (s : State) (x : Opnds) (k : AccForm) (n col0 : Nat) (store : Bool) :
    s.begun.accReqs x k n col0 store = s.accReqs x k n col0 store := by
  obtain ⟨_, h⟩ := s.begun_eq
  rw [h]
  rfl

section
variable {k : AccForm} {n col0 : Nat} {store : Bool}

theorem accReqs_at (s : State) (x : Opnds) (k : AccForm) (n col0 : Nat) (store : Bool) :
    (s.accReqs x k n col0 store).map (fun r => (r.thr, r.addr)) = s.padAt x false := by
  rw [accReqs, List.map_map]
  rfl

variable (hcols : col0 + n ≤ 128) (hrange : ∀ e ∈ s.padAt x false, s.cb.padRange e.2 (k.length n) k.sizes.2.2 store { cause := 0 } = none)
include hcols hrange

theorem accReqs_clear : ∀ r ∈ s.accReqs x k n col0 store, r.bad = none := by
  intro r hr
  obtain ⟨t, ht, rfl⟩ := List.mem_map.1 hr
  have hpass := Block.padRange_eq_none_of (hrange (t, s.spAddr x false t) (List.mem_map_of_mem ht)) { cause := 0, store := store }
  dsimp only
  rw [hpass]
  exact if_neg (Nat.not_lt.2 hcols)

theorem accReqs_good : PadReq.good (s.accReqs x k n col0 store) = s.padAt x false :=
  (PadReq.good_of_clear (accReqs_clear hcols hrange)).trans (s.accReqs_at ..)

theorem accReqs_faults : PadReq.faults (s.accReqs x k n col0 store) = [] := PadReq.faults_of_clear (accReqs_clear hcols hrange)

end

/-- The row that a lane loads from its address, with its flags; none where a raw image is not one (R223, R225). -/
def loadedRow (s : State) (t : Nat) (k : AccForm) (col0 num : Nat) (e : Nat × Nat) : Option (AccRow × Fp.Flags) :=
  let img := ofBytes (s.padBytes s.sel.blk e.2 (k.length num))
  match k with
  | .raw => (loadRaw (s.accRow t (homeLane e.1)) col0 num img).map fun r => (r, 0)
  | .f32 => some (loadValues col0 ((List.range num).map fun j => Fp.unpack .f32 (field img (32 * j) 32)))
  | .bf16 => some (loadValues col0 ((List.range num).map fun j => Fp.unpack .bf16 (field img (16 * j) 16)))

/-- The rows of lanes are set in turn. -/
def setRows (s : State) (t : Nat) (row : Nat × Nat → Option (AccRow × Fp.Flags)) (rs : List (Nat × Nat)) : State :=
  rs.foldl (fun u e => match row e with
    | some (r, fl) => (u.setRow t (homeLane e.1) r).flagLanes [(e.1, fl)]
    | none => u) s

/-- The bytes that lanes read. -/
def rowCells (size : Nat) (rs : List (Nat × Nat)) : List (Nat × Nat) := rs.flatMap fun e => (List.range size).map fun b => (e.1, e.2 + b)

/-- `acc.ld` once the lanes that pass their checks, and the faults of the others, are known (R223). -/
def accLdEnd (s : State) (x : Opnds) (t : Nat) (k : AccForm) (num col0 : Nat) (good : List (Nat × Nat)) (fs : List (Nat × LF)) : State :=
  if good.any fun e => s.sbBusy s.sel.blk e.2 (k.length num) then s.stall
  else
    match s.padLoad s.sel.blk 1 (rowCells (k.length num) good) with
    | (u, .error trig) => u.consume s.sel.blk trig 0
    | (u, .ok _) =>
      let bad := (good.filter fun e => (s.loadedRow t k col0 num e).isNone).map fun e => (e.1, ({ cause := 0x34 } : LF))
      let fs := sortBy (fun e => homeLane e.1) (fs ++ bad)
      (((u.setRows t (s.loadedRow t k col0 num) good).advanceBut x.ext.bytes (fs.map (·.1))).raiseAll (good.map (·.1)) 1).finishFaults
        x.ext.bytes fs

theorem accLd_eq {t : BitVec 1} {k : AccForm} {n : BitVec 7} (hl : s.first x.g = some l) (h : s.ready (.accLd x t k n) = true) :
    let rs := s.accReqs x k (n.toNat + 1) (s.src x.ext .b32 l x.c) false
    exec (.accLd x t k n) s = .next (s.begun.accLdEnd x t.toNat k (n.toNat + 1) (s.src x.ext .b32 l x.c) (PadReq.good rs) (PadReq.faults rs)) := by
  rw [exec_accLd, execAccLd, issue_ready rfl h, begun_first, hl, begun_src_eq]
  simp only [begun_accReqs]
  rfl

theorem accLdEnd_of_sound {t : Nat} {k : AccForm} {num col0 : Nat} {good : List (Nat × Nat)}
    (hbusy : ∀ e ∈ good, s.sbBusy s.sel.blk e.2 (k.length num) = false) (hsound : s.padSound s.sel.blk 1 (rowCells (k.length num) good))
    (hrows : ∀ e ∈ good, (s.loadedRow t k col0 num e).isSome = true) :
    s.accLdEnd x t k num col0 good [] = (((s.padLoad s.sel.blk 1 (rowCells (k.length num) good)).1.setRows t (s.loadedRow t k col0 num) good).advanceBut
      x.ext.bytes []).raiseAll (good.map (·.1)) 1 := by
  have hbad : good.filter (fun e => (s.loadedRow t k col0 num e).isNone) = [] :=
    List.filter_eq_nil_iff.2 fun e he => by simpa [Option.isSome_iff_ne_none] using hrows e he
  obtain ⟨vs, hload⟩ := padLoad_of_sound hsound
  rw [accLdEnd, if_neg (by simpa using hbusy), hload]
  dsimp only
  rw [hbad]
  rfl

/-- `acc.st` once the lanes that pass their checks, and the faults of the others, are known (R224). -/
def accStEnd (s : State) (x : Opnds) (t : Nat) (k : AccForm) (ninf : Bool) (num col0 : Nat) (good : List (Nat × Nat)) (fs : List (Nat × LF)) : State :=
  let out (e : Nat × Nat) : List Byte × Fp.Flags := (s.accRow t (homeLane e.1)).image k ninf col0 num
  if good.any fun e => s.sbBusy s.sel.blk e.2 (k.length num) then s.stall
  else
    let u := (s.padStores s.sel.blk (good.map fun e => (e.1, e.2, (out e).1))).flagLanes (good.map fun e => (e.1, (out e).2))
    ((u.advanceBut x.ext.bytes (fs.map (·.1))).raiseAll (good.map (·.1)) 1).finishFaults x.ext.bytes fs

theorem accSt_eq {t : BitVec 1} {k : AccForm} {ninf : Bool} {n : BitVec 7} (hl : s.first x.g = some l)
    (h : s.ready (.accSt x t k ninf n) = true) :
    let rs := s.accReqs x k (n.toNat + 1) (s.src x.ext .b32 l x.c) true
    exec (.accSt x t k ninf n) s = .next (s.begun.accStEnd x t.toNat k ninf (n.toNat + 1) (s.src x.ext .b32 l x.c) (PadReq.good rs)
      (PadReq.faults rs)) := by
  rw [exec_accSt, execAccSt, issue_ready rfl h, begun_first, hl, begun_src_eq]
  simp only [begun_accReqs, List.map_map]
  rfl

end State

open State

theorem accumulatorResults : AccumulatorResults := by
  intro s x t len ex row
  refine ⟨fun all => ⟨rfl, accZero_of_ready⟩, rfl, rfl, fun h => ?renorm, fun l hl h hcol => ?range, fun l col0 hl h hcol0 hcol => ?mask,
    fun h => ?scale, fun n l hl h hcols => accRmax_of_range hl h hcols, fun l hl h => ?mode⟩
  case renorm => rw [exec_accRenorm, execAccRenorm, eachRow_of_ready rfl h]
  case range => rw [accTmask_eq hl h, if_pos hcol, begun_uniformFault]
  case mask =>
    subst hcol0
    rw [accTmask_eq hl h, if_neg (Nat.not_lt.2 hcol)]
  case scale => rw [exec_accScale, execAccScale, eachRow_of_ready rfl h]
  case mode => rw [exec_accMode, execAccMode, issue_ready rfl h, begun_first, hl, begun_src_eq, begun_mp]

theorem rowTransfers : RowTransfers := by
  intro s x t k n l hl num col0 rs opens
  refine ⟨?load, ?store⟩
  case load =>
    intro h ⟨hcols, hrs⟩ cells img row hsound hrows
    have hrange (e : Nat × Nat) (he : e ∈ s.padAt x false) := (hrs e he).1
    have hbusy (e : Nat × Nat) (he : e ∈ s.padAt x false) := (hrs e he).2
    have hrow : s.begun.loadedRow t.toNat k col0 num = row := by
      funext e
      simp only [loadedRow, begun_sel, begun_padBytes]
      rfl
    rw [accLd_eq hl h, accReqs_good hcols hrange, accReqs_faults hcols hrange,
      accLdEnd_of_sound (by simpa only [begun_sel, begun_sbBusy] using hbusy) (by rw [begun_sel]; exact begun_padSound hsound)
        (by rw [hrow]; exact hrows), hrow, begun_sel]
    rfl
  case store =>
    intro ninf h ⟨hcols, hrs⟩ out
    have hrange (e : Nat × Nat) (he : e ∈ s.padAt x false) := (hrs e he).1
    have hbusy (e : Nat × Nat) (he : e ∈ s.padAt x false) := (hrs e he).2
    rw [accSt_eq hl h, accReqs_good hcols hrange, accReqs_faults hcols hrange, accStEnd, if_neg (by simpa using hbusy), begun_sel]
    rfl

/-- Settles O25: rows change one by one in the executing lanes (`eachRow_of_ready`), and a transfer whose lanes pass their checks moves every
lane's row (`accLdEnd_of_sound`, `accSt_eq`). -/
theorem tileResults : Obligations.TileResults := ⟨accumulatorResults, rowTransfers⟩

end Sys2Proof.Machine
end

section
/-! What copies, fills and remote accesses do by themselves (R212, R217, R240, R244, R246, R256, R296). -/

namespace Sys2Proof.Machine

/-- The first and last byte of each row of a slice on the global side (R147). -/
def Slice.ends (c : Slice) : List Nat := (List.range c.rows).flatMap fun r => [c.rowVa r, (c.rowVa r + c.globalLen - 1) % 2 ^ 64]

/-- A record in use reads as it was set (R212). -/
theorem Partition.ob_setOb {r : ObRec} (p : Partition) (n : Nat) (h : r.state ≠ .free) : (p.setOb n r).ob n = r := by
  rw [setOb, if_neg (by simpa using h)]
  exact Sparse.getOr_put_same ..

namespace State

variable {s : State} {b p : Nat} {f : Fill}

/-! ### Copies (R256, R296) -/

/-- A copy whose slices are `work`, in the form of `c0`, starts: it leaves the slices that wait, and the scoreboard holds its range (R256, R296). -/
def copyStarts (s : State) (b : Nat) (c0 : Slice) (work : List Slice) : State :=
  let k := (s.blk b).accepted
  let u := s.modBlk b fun (x : Block) => { x with
    accepted := x.accepted + 1
    slices := x.slices.filter fun c => c.k != k
    copies := if work.isEmpty then x.copies else x.copies ++
      [({ k := k, kind := c0.kind, s2g := c0.s2g, slot := c0.slot, slices := work, landed := 0, waitSeq := none, cancelled := false } : Copy)] }
  match work with
  | [] => u
  | w :: ws => u.modCore (s.blk b).core fun y => { y with
      sb := y.sb ++ [{ blk := b, copy := k, s2g := c0.s2g, lo := ws.foldl (fun m c => min m c.sc) w.sc
                       hi := (ws.foldl (fun m c => max m c.padEnd) w.padEnd) - 1 }] }

theorem copyAccept_eq (hres : (s.blk b).state.resident = true) (hready : (s.blk b).copyReady = true)
    (hroom : (s.core (s.blk b).core).sb.length < 32) {c0 : Slice} {rest work : List Slice}
    (hmine : ((s.blk b).slices.filter fun c => c.k == (s.blk b).accepted) = c0 :: rest)
    (hwork : (c0 :: rest).filter (fun c => !c.empty) = work) :
    exec (.copyAccept b) s = .next (((s.copyStarts b c0 work).irrevokePeer b (if c0.s2g then work.flatMap Slice.ends else [])).engineArrive b
      c0.slot ((s.blk b).preIssued (s.blk b).accepted)) := by
  rw [exec_copyAccept, execCopyAccept]
  dsimp only
  rw [if_neg (by simp [hres, hready, hroom]), hmine, hwork]
  rfl

theorem copyBytesLand_plain {n : Nat} {c : Copy} {sl : Slice} {r : Nat} {u : State} {bs : List EByte}
    (hfind : (s.blk b).copies.find? (fun c => c.k == n) = some c) (hcancelled : c.cancelled = false) (hwait : c.waitSeq = none)
    (hres : (s.blk b).state.resident = true) (hrow : rowAt c.slices c.landed = some (sl, r)) (hdir : c.s2g = false) (hkind : sl.kind = .plain)
    (hclob : (s.blk b).clobbers (sl.rowPad r) sl.len = false)
    (hread : s.engRead (s.blk b).engine (sectorParts (sl.rowVa r) sl.globalLen) = (u, .ok bs)) :
    exec (.copyBytesLand b n) s =
      .next ((u.padStore b (mergeReqs (padReqs (s.blk b) (sl.len / 4 + 2) (sl.rowPad r) bs))).rowLanded b c sl.len) := by
  rw [exec_copyBytesLand, execCopyBytesLand]
  dsimp only
  rw [hfind]
  dsimp only
  rw [if_neg (by simp [hcancelled]), if_neg (by simp [hwait, hres]), hrow]
  dsimp only
  rw [if_pos (by rw [hdir]; rfl), if_neg (by simp [hclob]), hread, hkind]

/-! ### The end of a fill (R212, R217) -/

theorem linkGood_parts (s : State) (a c : Nat) : (s.linkGood a c).parts = s.parts := by
  rw [linkGood]
  split <;> rfl

theorem tidyMerges_keeps (s : State) (c : Nat) :
    (s.tidyMerges c).parts = s.parts ∧ (s.tidyMerges c).blocks = s.blocks ∧ (s.tidyMerges c).mem = s.mem := by
  rw [tidyMerges]
  split <;> exact ⟨rfl, rfl, rfl⟩

theorem fillRead_keeps (s : State) (b a n : Nat) : (s.fillRead b a n).1.parts = s.parts ∧ (s.fillRead b a n).1.blocks = s.blocks := by
  simp only [fillRead]
  split <;> exact ⟨rfl, rfl⟩

/-- The bytes of a fill stand in the buffer; what it logs first changes no partition. -/
theorem fillBuf_part (s : State) (p b lo : Nat) (bs : List Byte) (bad : List Nat) : (s.fillBuf p b lo bs bad).part p =
    { s.part p with buf := putRange (s.part p).buf lo bs, bufPoison := putBad (s.part p).bufPoison lo bs.length bad } := by
  rw [fillBuf, part_modPart_same]
  dsimp only
  rw [part, (quiet_foldl _ (fun s _ => s.quiet_log b _) _ s).parts]
  rfl

theorem fillBuf_trail (s : State) (p b lo : Nat) (bs : List Byte) (bad : List Nat) : ((s.fillBuf p b lo bs bad).blk b).trail = (s.blk b).trail := by
  rw [fillBuf, blk_modPart, (quiet_foldl _ (fun s _ => s.quiet_log b _) _ s).self]

/-- The fill goes on no longer, and the merge entries that nothing waits for are free (R212, R250). -/
def fillEnded (s : State) (p n : Nat) : State := (s.modPart p fun q => { q with fills := q.fills.filter fun g => g.ob != n }).tidyMerges (p / 16)

theorem fillEnded_part (s : State) (p n : Nat) :
    (s.fillEnded p n).part p = { s.part p with fills := (s.part p).fills.filter fun g => g.ob != n } := by
  rw [fillEnded, part, (tidyMerges_keeps _ _).1]
  exact s.part_modPart_same ..

/-- A fill that fails leaves its record FAILED and its bytes where they were (R212). -/
theorem fillDone_none_part (s : State) (p : Nat) (f : Fill) : (s.fillDone p f none).part p =
    ((s.fillEnded p f.ob).part p).setOb f.ob { (s.part p).ob f.ob with state := .failed } := part_modPart_same ..

theorem fillDone_none_keeps (s : State) (p : Nat) (f : Fill) : (s.fillDone p f none).blocks = s.blocks ∧ (s.fillDone p f none).mem = s.mem := by
  obtain ⟨-, hblocks, hmem⟩ := (s.modPart p fun q => { q with fills := q.fills.filter fun g => g.ob != f.ob }).tidyMerges_keeps (p / 16)
  exact ⟨hblocks, hmem⟩

theorem fillDone_none_ob (s : State) (p : Nat) (f : Fill) :
    ((s.fillDone p f none).part p).ob f.ob = { (s.part p).ob f.ob with state := .failed } := by
  rw [fillDone_none_part, Partition.ob_setOb _ _ (by simp)]

/-- The bytes of a fill in the buffer: in the trailer's half too, where its block has a trailer (R143, R233). -/
def fillWritten (s : State) (p b lo : Nat) (bs : List Byte) (bad : List Nat) : State :=
  if ((s.fillBuf p b lo bs bad).blk b).trail.isSome then (s.fillBuf p b lo bs bad).fillBuf p b (lo + 131072) bs bad else s.fillBuf p b lo bs bad

/-- The trailer's half does not reach into the leader's: the bytes stand in the record's own range. -/
theorem fillWritten_buf (s : State) (p b lo : Nat) {bs : List Byte} (bad : List Nat) (hfit : (s.blk b).trail = none ∨ bs.length ≤ 131072)
    {k : Nat} (hk : k < bs.length) : Sparse.getOr ((s.fillWritten p b lo bs bad).part p).buf (lo + k) 0 = bs.getD k 0 := by
  have hown : Sparse.getOr (putRange (s.part p).buf lo bs) (lo + k) 0 = bs.getD k 0 := by
    rw [getOr_putRange_inside _ (Nat.le_add_right ..) (by omega), Nat.add_sub_cancel_left]
  rw [fillWritten, fillBuf_trail]
  cases htrail : (s.blk b).trail with
  | none => rw [if_neg (by simp), fillBuf_part]; exact hown
  | some t =>
    have hlen : bs.length ≤ 131072 := hfit.resolve_left (by simp [htrail])
    rw [if_pos (Option.isSome_some ..), fillBuf_part, fillBuf_part, ← hown]
    exact getOr_putRange_outside _ (.inl (by omega))

theorem fillDone_some_part (s : State) (p : Nat) (f : Fill) (bs : List Byte) (bad : List Nat) : (s.fillDone p f (some (bs, bad))).part p =
    (((s.fillEnded p f.ob).fillWritten p f.blk (256 * ((s.part p).ob f.ob).base) bs bad).part p).setOb f.ob
      { (s.part p).ob f.ob with state := .ready } := part_modPart_same ..

/-- A fill that ends leaves its record READY and its bytes in the record's range of the buffer (R212, R217). -/
theorem fillDone_some (s : State) (p : Nat) (f : Fill) (bs : List Byte) (bad : List Nat) (hfit : (s.blk f.blk).trail = none ∨ bs.length ≤ 131072) :
    ((s.fillDone p f (some (bs, bad))).part p).ob f.ob = { (s.part p).ob f.ob with state := .ready }
    ∧ ∀ k < bs.length, Sparse.getOr ((s.fillDone p f (some (bs, bad))).part p).buf (256 * ((s.part p).ob f.ob).base + k) 0 = bs.getD k 0 := by
  rw [fillDone_some_part]
  refine ⟨Partition.ob_setOb _ _ (by simp), fun k hk => ?_⟩
  have hblk : (s.fillEnded p f.ob).blk f.blk = s.blk f.blk := by
    rw [fillEnded, blk, (tidyMerges_keeps _ _).2.1]
    rfl
  exact fillWritten_buf _ p f.blk _ bad (by rwa [hblk]) hk

/-- The fills that join a merged read are given its bytes: no record changes (R217, R250). -/
theorem shareMerge_keeps (s : State) (peer a n tgt : Nat) (got : List Byte × List Nat) :
    (s.shareMerge peer a n tgt got).blocks = s.blocks ∧ ∀ k, ((s.shareMerge peer a n tgt got).part k).records = (s.part k).records := by
  rw [shareMerge]
  dsimp only
  split
  · exact ⟨rfl, fun _ => rfl⟩
  · refine List.foldlRecOn (motive := fun u : State => u.blocks = s.blocks ∧ ∀ k, (u.part k).records = (s.part k).records) _ _
      ⟨rfl, fun _ => rfl⟩ ?_
    intro u ⟨hblocks, hrecords⟩ e _
    split
    · refine ⟨(u.linkGood_keeps _ _).1.trans hblocks, fun k => ?_⟩
      rw [← hrecords k, part_modPart, part, part, linkGood_parts]
      split
      · subst_vars; rfl
      · rfl
    · exact ⟨hblocks, hrecords⟩

/-! ### The events -/

section
variable {part n peer a : Nat} (hfind : (s.part part).fills.find? (fun f => f.ob == n) = some f)
include hfind

theorem fill_ob : f.ob = n := by simpa using List.find?_some hfind

theorem obFillComplete_of_local (hlocal : f.remote = none) :
    exec (.obFillComplete part n) s = .next (s.fillDone part f (some (f.bytes, f.poison))) := by
  rw [exec_obFillComplete, execObFillComplete, hfind]
  dsimp only
  rw [hlocal]

section
variable (hremote : f.remote = some (peer, a))
include hremote

/-- A fill from a member that cannot be reached, is gone, or has no such range ends FAILED (R217, R246, R251). -/
theorem obFillComplete_of_lost (hlost : (s.cluster (part / 16)).down = true ∨ s.memberAt f.blk (part / 16 * 4 + peer) = none
      ∨ ∃ m, s.memberAt f.blk (part / 16 * 4 + peer) = some m ∧ ((s.blk m).state.resident = false
        ∨ ((s.blk m).padRange a f.len 16 false { cause := 0 }).isSome = true)) :
    ∃ u, (u = s ∨ u = s.linkGood (part / 4) (part / 16 * 4 + peer)) ∧ exec (.obFillComplete part n) s = .next (u.fillDone part f none) := by
  rw [exec_obFillComplete, execObFillComplete, hfind]
  dsimp only
  rw [hremote]
  dsimp only
  cases hdown : (s.cluster (part / 16)).down with
  | true => exact ⟨s, .inl rfl, rfl⟩
  | false =>
    rw [if_neg Bool.false_ne_true]
    rcases hlost.resolve_left (by simp [hdown]) with hnone | ⟨m, hsome, hgone⟩
    · rw [hnone]
      exact ⟨s, .inl rfl, rfl⟩
    · rw [hsome]
      dsimp only
      exact ⟨_, .inr rfl, if_pos (by simpa using hgone)⟩

/-- A fill from a member that can be read ends with what the read gives (R217, R246). -/
theorem obFillComplete_of_reached {m : Nat} (hup : (s.cluster (part / 16)).down = false)
    (hmember : s.memberAt f.blk (part / 16 * 4 + peer) = some m) (hres : (s.blk m).state.resident = true)
    (hrange : ((s.blk m).padRange a f.len 16 false { cause := 0 }).isSome = false) (hissues : (s.blk m).state.issues = true)
    (hbusy : s.sbBusy m a f.len = false) : exec (.obFillComplete part n) s = .next (
      match (s.linkGood (part / 4) (part / 16 * 4 + peer)).fillRead m a f.len with
      | (u, none) => (u.fillDone part f none).consume f.blk 2 0
      | (u, some got) => (u.shareMerge peer a f.len m got).fillDone part f (some got)) := by
  rw [exec_obFillComplete, execObFillComplete, hfind]
  dsimp only
  rw [hremote]
  dsimp only
  rw [hup, if_neg Bool.false_ne_true, hmember]
  dsimp only
  rw [if_neg (by rw [hres, hrange]; exact Bool.false_ne_true), if_neg (by rw [hissues, hbusy]; exact Bool.false_ne_true)]
  generalize (s.linkGood _ _).fillRead _ _ _ = got
  obtain ⟨u, _ | g⟩ := got <;> rfl

end

end

theorem heldAccess_performed {c : Nat} {q : RemoteReq} {t : State} (hport : (s.core c).port = [q]) (hserve : s.remoteServe q = some t) :
    exec (.remoteAccessAtTarget c) s = .next (t.modCore c fun k => { k with port := k.port.erase q })
    ∧ exec (.heldAccessRelease c) s = .next (t.modCore c fun k => { k with port := k.port.erase q }) := by
  have honce : State.servePort c 1 [q] [] s = t.modCore c fun k => { k with port := k.port.erase q } := by
    rw [servePort, if_neg (by simp [portBehind]), hserve]
    rfl
  rw [exec_remoteAccessAtTarget, execRemoteAccessAtTarget, exec_heldAccessRelease, execHeldAccessRelease, hport, List.length_singleton, honce]
  exact ⟨rfl, rfl⟩

end State

open State

/-- Settles O42: a copy starts (`copyAccept_eq`) and lands a row (`copyBytesLand_plain`), a fill ends with its bytes in the record's range of the
buffer (`fillDone_some`) or FAILED (`fillDone_none_part`), and a held access is performed (`heldAccess_performed`). -/
theorem movementEvents : Obligations.MovementEvents := by
  unfold Obligations.MovementEvents
  intro s b
  refine ⟨?accept, fun n c sl r u bs hfind hcancelled hwait hres hrow hdir hkind hclob hread =>
    copyBytesLand_plain hfind hcancelled hwait hres hrow hdir hkind hclob hread, ?own, ?peer, fun c q t => heldAccess_performed, ?retry⟩
  case accept =>
    intro hres hready hroom k mine c0 rest hmine work u
    have hexec := copyAccept_eq hres hready hroom hmine (work := work) (by rw [← hmine])
    clear_value work
    refine ⟨fun hnone => ?_, fun x xs hsome => ?_⟩
    · subst hnone
      rw [hexec, List.flatMap_nil, ite_self]
      rfl
    · subst hsome
      exact hexec
  case own =>
    intro part n f hfind hlocal _ ob _ hlen hfit
    obtain rfl := fill_ob hfind
    obtain ⟨hready, hbytes⟩ := s.fillDone_some part f f.bytes f.poison (hfit.imp_right hlen.trans_le)
    exact ⟨_, obFillComplete_of_local hfind hlocal, hready, fun k hk => hbytes k (hk.trans_eq hlen.symm)⟩
  case peer =>
    intro part n f peer a hfind hremote c ob own
    obtain rfl := fill_ob hfind
    refine ⟨fun hlost => ?lost, fun m hup hmember hres hrange hissues hbusy => ?reached⟩
    case lost =>
      obtain ⟨u, hu, hexec⟩ := obFillComplete_of_lost hfind hremote hlost
      have hkeeps : u.parts = s.parts ∧ u.blocks = s.blocks ∧ u.mem = s.mem := by
        rcases hu with rfl | rfl
        · exact ⟨rfl, rfl, rfl⟩
        · obtain ⟨hblocks, -, hmem⟩ := s.linkGood_keeps (part / 4) (part / 16 * 4 + peer)
          exact ⟨linkGood_parts .., hblocks, hmem⟩
      obtain ⟨hparts, hblocks, hmem⟩ := hkeeps
      have hpart : u.part part = s.part part := by rw [State.part, hparts]; rfl
      refine ⟨_, hexec, ?_, ?_, ?_, (u.fillDone_none_keeps part f).1.trans hblocks, (u.fillDone_none_keeps part f).2.trans hmem⟩
      · rw [fillDone_none_ob, hpart]
      · rw [fillDone_none_part, fillEnded_part, hpart]
        rfl
      · rw [fillDone_none_part, fillEnded_part]
        exact fun g hg => by simpa using (List.mem_filter.1 hg).2
    case reached =>
      have hexec := obFillComplete_of_reached hfind hremote hup hmember hres hrange hissues hbusy
      refine ⟨fun u hread => ?torn, fun u bs bad hread _ htrail _ hlen => ?whole⟩
      case torn =>
        rw [hread] at hexec
        exact ⟨hexec, u.fillDone_none_ob part f⟩
      case whole =>
        rw [hread] at hexec
        dsimp only at hexec
        obtain ⟨hu, hublocks⟩ : u.parts = s.parts ∧ u.blocks = s.blocks := by
          have h := fillRead_keeps own m a f.len
          rw [hread] at h
          exact ⟨h.1.trans (linkGood_parts ..), h.2.trans (s.linkGood_keeps ..).1⟩
        obtain ⟨hblocks, hrecords⟩ := u.shareMerge_keeps peer a f.len m (bs, bad)
        generalize u.shareMerge peer a f.len m (bs, bad) = v at hexec hblocks hrecords
        have hpart : u.part part = s.part part := by rw [State.part, hu]; rfl
        have hob : (v.part part).ob f.ob = ob := by rw [Partition.ob, hrecords, hpart]; rfl
        have htrail' : (v.blk f.blk).trail = none := by 
          rw [State.blk, hblocks, hublocks]
          exact htrail
        obtain ⟨hready, hbytes⟩ := v.fillDone_some part f bs bad (.inl htrail')
        rw [hob] at hready hbytes
        exact ⟨_, hexec, hready, fun k hk => hbytes k (hk.trans_eq hlen.symm)⟩
  case retry =>
    intro cl link hup n u
    rw [exec_clusterFlitRetry, execClusterFlitRetry]
    exact if_neg (by simp [hup])

end Sys2Proof.Machine
end

section
/-! Write-backs (R255, R293, R354, R364, R373, R378): what they leave alone, and what they leave at the homes. -/

namespace Sys2Proof

theorem Sparse.mem_of_look {α : Type} {m : Sparse α} {k : Nat} {v : α} (h : Sparse.look m k = some v) : (k, v) ∈ m := by
  induction m with
  | nil => cases h
  | cons e m ih =>
    obtain ⟨a, w⟩ := e
    rw [Sparse.look] at h
    split at h
    next hk =>
      cases h
      rw [hk]
      exact List.mem_cons_self
    next => exact List.mem_cons_of_mem _ (ih h)

/-- In a table whose keys rise strictly, what stands under a key is all that stands there. -/
theorem Sparse.look_of_mem {α : Type} {m : Sparse α} (hm : Sparse.sorted m = true) {e : Nat × α} (he : e ∈ m) :
    Sparse.look m e.1 = some e.2 := by
  rw [Sparse.sorted_iff_pairwise] at hm
  induction m with
  | nil => cases he
  | cons x m ih =>
    obtain ⟨hlt, hm⟩ := List.pairwise_cons.1 hm
    rcases List.mem_cons.1 he with rfl | he
    · exact if_pos rfl
    · exact (if_neg (hlt e he).ne').trans (ih hm he)

theorem Sparse.look_ne_none_of_mem {α : Type} {m : Sparse α} {e : Nat × α} (he : e ∈ m) : Sparse.look m e.1 ≠ none := by
  induction m with
  | nil => cases he
  | cons x m ih =>
    rw [Sparse.look]
    split
    · simp
    next hne => exact ih ((List.mem_cons.1 he).resolve_left fun hx => hne (hx ▸ rfl))

theorem Sparse.look_foldl_put_none {α β : Type} {m : Sparse α} {k : Nat} (h : Sparse.look m k = none) {l : List β} {key : β → Nat}
    {val : β → α} (hl : ∀ e ∈ l, key e ≠ k) : Sparse.look (l.foldl (fun m e => Sparse.put m (key e) (val e)) m) k = none := by
  induction l generalizing m with
  | nil => exact h
  | cons e l ih =>
    refine ih ?_ fun y hy => hl y (List.mem_cons_of_mem _ hy)
    rw [Sparse.look_put_ne m (hl e List.mem_cons_self).symm, h]

end Sys2Proof

namespace Sys2Proof.Machine

/-- Bytes written in a row, all of which hold one value at an address, leave that value there, if it is written or stood there. -/
theorem Memory.byte_foldl_setByte {a : Nat} {b : Byte} {l : List (Nat × Byte)} (hval : ∀ e ∈ l, e.1 = a → e.2 = b) {m : Memory}
    (h : (a, b) ∈ l ∨ m.byte a = b) : Memory.byte (l.foldl (fun (m : Memory) e => m.setByte e.1 e.2) m) a = b := by
  induction l generalizing m with
  | nil => simpa using h
  | cons e l ih =>
    refine ih (fun y hy => hval y (List.mem_cons_of_mem _ hy)) ?_
    by_cases he : e.1 = a
    · right
      rw [← hval e List.mem_cons_self he, ← he, Memory.byte_setByte_same]
    · refine h.imp (fun hmem => ?_) fun hm => ?_
      · refine (List.mem_cons.1 hmem).resolve_left fun hx => he ?_
        rw [← hx]
      · rw [Memory.byte_setByte_ne m (Ne.symm he), hm]

/-- What `State.l2Refresh` makes of a byte that a cache holds. -/
def refreshed (p : Sparse Unit) (l : Sparse L2Byte) (e : Nat × Byte) : Sparse L2Byte :=
  match Sparse.look l e.1 with
  | some x =>
    if x.masked && (Sparse.look p (e.1 / 64)).isSome then Sparse.put l e.1 { x with val := e.2 }
    else Sparse.put l e.1 { val := e.2, masked := false, writers := [] }
  | none => l

theorem look_refreshed_none {a : Nat} {p : Sparse Unit} {es : List (Nat × Byte)} {l : Sparse L2Byte} (h : Sparse.look l a = none) :
    Sparse.look (es.foldl (refreshed p) l) a = none := by
  induction es generalizing l with
  | nil => exact h
  | cons e es ih =>
    refine ih ?_
    rw [refreshed]
    split
    next x hx =>
      have hne : a ≠ e.1 := fun ha => by rw [← ha, h] at hx; cases hx
      split
      · rw [Sparse.look_put_ne _ hne, h]
      · rw [Sparse.look_put_ne _ hne, h]
    next => exact h

namespace State

variable {s t u : State}

/-! ### A cache changed -/

theorem cache_modCache (s : State) (d e : Nat) (f : L2Cache → L2Cache) :
    (s.modCache d f).cache e = if e = d then f (s.cache d) else s.cache e := by
  by_cases hd : d = 5
  · subst hd
    by_cases he : e = 5
    · subst he; rfl
    · simp [modCache, cache, he]
  · by_cases he : e = 5
    · subst he; simp [modCache, cache, hd, Ne.symm hd]
    · simp only [modCache, cache, hd, he, if_false, die_modDie]
      split <;> rfl

@[simp] theorem modCache_sel (s : State) (d : Nat) (f : L2Cache → L2Cache) : (s.modCache d f).sel = s.sel := by
  unfold modCache; split <;> rfl

@[simp] theorem modCache_mem (s : State) (d : Nat) (f : L2Cache → L2Cache) : (s.modCache d f).mem = s.mem := by
  unfold modCache; split <;> rfl

@[simp] theorem modCache_inflight (s : State) (d : Nat) (f : L2Cache → L2Cache) : (s.modCache d f).hub.inflight = s.hub.inflight := by
  unfold modCache; split <;> rfl

@[simp] theorem modCache_applied (s : State) (d : Nat) (f : L2Cache → L2Cache) : (s.modCache d f).hub.applied = s.hub.applied := by
  unfold modCache; split <;> rfl

@[simp] theorem modCache_heldEvict (s : State) (d : Nat) (f : L2Cache → L2Cache) : (s.modCache d f).hub.heldEvict = s.hub.heldEvict := by
  unfold modCache; split <;> rfl

/-! ### What brings no byte into a cache -/

/-- What issues is the same, and no cache holds a byte that it did not hold. -/
structure fillsNone (s t : State) : Prop where
  sel : t.sel = s.sel
  l2 : ∀ d a, s.l2 d a = none → t.l2 d a = none

namespace fillsNone

theorem refl (s : State) : s.fillsNone s := ⟨rfl, fun _ _ h => h⟩

theorem trans (h : s.fillsNone t) (g : t.fillsNone u) : s.fillsNone u := ⟨g.sel.trans h.sel, fun d a ha => g.l2 d a (h.l2 d a ha)⟩

theorem ite {c : Prop} [Decidable c] (ht : s.fillsNone t) (hu : s.fillsNone u) : s.fillsNone (if c then t else u) := by
  split
  · exact ht
  · exact hu

variable (h : s.fillsNone t)
include h

theorem foldl {α : Type} {f : State → α → State} {l : List α} (hf : ∀ u e, s.fillsNone u → s.fillsNone (f u e)) :
    s.fillsNone (l.foldl f t) := by
  induction l generalizing t with
  | nil => exact h
  | cons e l ih => exact ih (hf t e h)

/-- Where neither what issues nor a cache differs. -/
theorem update (hsel : u.sel = t.sel := by rfl) (hl2 : ∀ d a, u.l2 d a = t.l2 d a := by exact fun _ _ => rfl) : s.fillsNone u :=
  ⟨hsel.trans h.sel, fun d a ha => (hl2 d a).trans (h.l2 d a ha)⟩

theorem modHub {f : Hub → Hub} (hf : (f t.hub).pcache = t.hub.pcache := by rfl) : s.fillsNone (t.modHub f) :=
  h.update rfl (t.l2_of_hub f hf)

theorem modCache {d : Nat} {f : L2Cache → L2Cache} (hf : ∀ a, t.l2 d a = none → Sparse.look (f (t.cache d)).bytes a = none) :
    s.fillsNone (t.modCache d f) where
  sel := (modCache_sel t d f).trans h.sel
  l2 e a ha := by
    rw [State.l2, cache_modCache]
    split
    next he => exact hf a (he ▸ h.l2 e a ha)
    next => exact h.l2 e a ha

/-- An entry that a cache holds takes a new value. -/
theorem modCache_put {d k : Nat} {x y : L2Byte} (hx : t.l2 d k = some x) :
    s.fillsNone (t.modCache d fun c => { c with bytes := Sparse.put c.bytes k y }) :=
  h.modCache fun a ha => (Sparse.look_put_ne _ (fun hak => by rw [hak, hx] at ha; cases ha) y).trans ha

theorem setClock (a : Nat) (c : List Nat) : s.fillsNone (t.setClock a c) := h.modHub

theorem note (a : Nat) (pas st : List Nat) (w : Nat) : s.fillsNone (t.note a pas st w) := h.modHub

theorem request (slot page : Nat) (what : Asked) (engine : Bool) : s.fillsNone (t.request slot page what engine) :=
  h.update rfl fun _ _ => rfl

theorem tellLender (es : List (Nat × Byte)) (writers : Nat → List (Nat × Nat)) : s.fillsNone (t.tellLender es writers) := by
  refine h.foldl fun u k hu => ?_
  dsimp only
  split
  · exact hu.request _ _ _ _
  · exact hu

theorem homePut (es : List (Nat × Byte)) (writers : Nat → List (Nat × Nat)) : s.fillsNone (t.homePut es writers) :=
  (h.update (u := t.homeSet es)).tellLender es writers

theorem poisonHome (pa n : Nat) : s.fillsNone (t.poisonHome pa n) := h.update

theorem l2Taint (d : Nat) (es : List (Nat × Byte)) : s.fillsNone (t.l2Taint d es) := h.modCache fun _ ha => ha

theorem l2Refresh (d : Nat) (es : List (Nat × Byte)) : s.fillsNone (t.l2Refresh d es) :=
  h.modCache fun _ ha => look_refreshed_none ha

theorem unmask (d : Delivery) (pa : Nat) (b : Byte) : s.fillsNone (t.unmask d pa b) := by
  refine .ite ?_ h
  split
  next hx => exact .ite (h.modCache_put hx) h
  next => exact h

/-- A delivery changes bytes that caches hold, and fills none. -/
theorem deliver (d : Delivery) : s.fillsNone (t.deliver d) := by
  have hhome (u : State) (es : List (Nat × Byte)) (w : Nat → List (Nat × Nat)) (hu : s.fillsNone u) : s.fillsNone
      (if homeAgent d.pa != d.target then u
        else if d.poison then es.foldl (fun s e => s.poisonHome e.1 1) (u.homePut es w) else u.homePut es w) :=
    .ite hu (.ite ((hu.homePut es w).foldl fun _ _ hv => hv.poisonHome _ _) (hu.homePut es w))
  have hcopy (u : State) (es : List (Nat × Byte)) (hu : s.fillsNone u) : s.fillsNone (if d.target < 4 then u.l2Refresh d.target es else u) :=
    .ite (hu.l2Refresh _ _) hu
  have htaint (u : State) (es : List (Nat × Byte)) (hu : s.fillsNone u) : s.fillsNone
      (if (decide (d.target < 4) && d.poison) = true then u.l2Taint d.target es else u) := .ite (hu.l2Taint _ _) hu
  exact ((htaint _ _ (hcopy _ _ (hhome _ _ _ (h.modHub.note _ _ _ _)))).foldl fun _ _ hu => hu.unmask _ _ _).setClock _ _

theorem settleFor (fuel a : Nat) (c : List Nat) : s.fillsNone (settleFor fuel t a c) := by
  induction fuel generalizing t with
  | zero => exact h
  | succ fuel ih =>
    rw [State.settleFor]
    split
    · exact ih (h.deliver _)
    · exact h

theorem absorb (a : Nat) (c : List Nat) : s.fillsNone (t.absorb a c) := (h.settleFor _ a c).setClock _ _

theorem settleWhere (p : Delivery → Bool) : s.fillsNone (t.settleWhere p) := h.foldl fun _ _ hu => hu.settleFor _ _ _

theorem applyHome (w : Nat) (st : List Nat) (es : List (Nat × Byte)) (writers : Nat → List (Nat × Nat)) :
    s.fillsNone (t.applyHome w st es writers) :=
  h.foldl fun _ _ hu => .ite ((((hu.absorb _ _).note _ _ _ _).homePut _ _).l2Refresh _ _) (((hu.absorb _ _).note _ _ _ _).homePut _ _)

theorem sendMasked (d : Nat) (es : List (Nat × Byte)) (writers : Nat → List (Nat × Nat)) : s.fillsNone (t.sendMasked d es writers) := by
  rw [State.sendMasked]
  dsimp only
  split
  · exact h.settleWhere _
  · exact ((h.settleWhere _).setClock _ _).applyHome _ _ _ _

/-- Bytes that a cache held lose their mask bits, whatever has happened to it since. -/
theorem modCache_clean {d : Nat} {ms : List (Nat × L2Byte)} (hms : ∀ e ∈ ms, s.l2 d e.1 ≠ none) :
    s.fillsNone (t.modCache d fun c => c.clean ms) where
  sel := (modCache_sel t d _).trans h.sel
  l2 e a ha := by
    rw [State.l2, cache_modCache]
    split
    next he =>
      subst he
      exact Sparse.look_foldl_put_none (key := Prod.fst) (h.l2 e a ha) fun x hx hxa => hms x hx (hxa ▸ ha)
    next => exact h.l2 e a ha

end fillsNone

/-- Bytes that a cache holds masked, it holds. -/
theorem l2_ne_none_of_maskedIn {d lo n : Nat} {e : Nat × L2Byte} (he : e ∈ s.maskedIn d lo n) : s.l2 d e.1 ≠ none :=
  Sparse.look_ne_none_of_mem (List.mem_filter.1 he).1

theorem fillsNone_writeBack (s : State) (d lo n : Nat) : s.fillsNone (s.writeBack d lo n) := by
  rw [writeBack]
  split
  · exact .refl s
  next e ms hms =>
    refine ((fillsNone.refl s).sendMasked _ _ _).modCache_clean fun x hx => ?_
    exact l2_ne_none_of_maskedIn (List.mem_filter.1 (hms.symm ▸ hx : x ∈ (s.maskedIn d lo n).filter fun e => !s.refuses e.1)).1

theorem fillsNone_holdMasked (s : State) (d lo n : Nat) (maint : List (Nat × Nat)) : s.fillsNone (s.holdMasked d lo n maint) :=
  (fillsNone.refl s).modHub.modCache_clean fun _ => l2_ne_none_of_maskedIn

theorem fillsNone_cleanRange (s : State) (d lo n : Nat) (maint : List (Nat × Nat)) : s.fillsNone (s.cleanRange d lo n maint) :=
  .ite (s.fillsNone_writeBack d lo n) (s.fillsNone_holdMasked d lo n maint)

/-! ### Bytes of a range leave a cache (R293) -/

theorem l2_dropL2 (s : State) (d lo n e a : Nat) :
    (s.dropL2 d lo n).l2 e a = if e = d ∧ lo ≤ a ∧ a < lo + n then none else s.l2 e a := by
  rw [State.l2, dropL2, cache_modCache]
  by_cases he : e = d
  · subst he
    rw [if_pos rfl]
    dsimp only
    rw [Sparse.look_filter_key _ fun k => !(decide (lo ≤ k) && decide (k < lo + n))]
    by_cases ha : lo ≤ a ∧ a < lo + n
    · simp [ha]
    · rw [if_pos (by simp; omega), if_neg fun h => ha h.2, State.l2]
  · rw [if_neg he, if_neg fun h => he h.1, State.l2]

theorem fillsNone_dropL2 (s : State) (d lo n : Nat) : s.fillsNone (s.dropL2 d lo n) where
  sel := modCache_sel s d _
  l2 e a h := by
    rw [l2_dropL2, h, ite_self]

/-- Lanes whose accesses have been performed are the ones that issue (R335). -/
theorem lanesPerformed_sel {bid : Nat} {ts : List Nat} (h : s.lanesPerformed bid ts = some u) : u.sel = s.sel := by
  rw [lanesPerformed] at h
  dsimp only at h
  split at h
  · cases h
  · split at h
    · cases h
    · cases h
      exact ((fillsNone.refl s).foldl fun v l hv => hv.trans (v.fillsNone_writeBack _ l 256)).sel

end State
end Sys2Proof.Machine
end

section
/-! The fault buffer and the translation caches as service lanes see them (R273, R276 to R278). -/

namespace Sys2Proof.Machine

namespace State

variable {s : State} {x : Opnds} {i : Instr}

theorem modDie_eq_of_eq_at {d : Nat} {f g : Die → Die} (h : f (s.die d) = g (s.die d)) : s.modDie d f = s.modDie d g := by
  rw [modDie, modDie, h]

/-! ### `fault.rd` (R276) -/

/-- The fault buffer once `f` has acted on the entry read. -/
def fbAfter (s : State) (e : FbEntry) (f : FbEntry → Option FbEntry) : List FbEntry :=
  (s.die s.cd).fb.filterMap fun y => if y.seq == e.seq then f y else some y

theorem fbAfter_some (s : State) (e : FbEntry) : s.fbAfter e some = (s.die s.cd).fb := by
  simp only [fbAfter, ite_self, List.filterMap_some]

theorem fbAfter_taken (s : State) (e : FbEntry) : s.fbAfter e (fun y => some { y with taken := true }) =
    (s.die s.cd).fb.map fun y => { y with taken := y.taken || y.seq == e.seq } := by
  rw [fbAfter, ← List.filterMap_eq_map]
  refine List.filterMap_congr fun y _ => ?_
  cases hy : y.seq == e.seq with
  | true => simp only [if_true, Bool.or_true, Function.comp_apply, hy]
  | false => simp only [Bool.false_eq_true, if_false, Bool.or_false, Function.comp_apply, hy]

/-- The end of a `fault.rd` in lane `l` that has selected an entry, or none, and has left the buffer so. -/
def fbRead (s : State) (x : Opnds) (l : Nat) (hit : Option FbEntry) (left : List FbEntry) : State :=
  ((s.begun.modDie s.cd fun d => { d with fb := left }).advance x.ext.bytes).write x.d 12
    [(l, (hit.map FbEntry.bits).getD 0 + left.length * 2 ^ 320 + (s.die s.cd).overflow.toNat * 2 ^ 352)]

theorem within_fbRead (s : State) (x : Opnds) (l : Nat) (hit : Option FbEntry) (left : List FbEntry) :
    (s.begun.modDie s.cd fun d => { d with fb := left }).within (s.fbRead x l hit left) :=
  (within_advance _ _).trans (within_write _ _ _ _)

/-- A read that leaves the buffer as it was changes no die's. -/
theorem fb_fbRead_same (s : State) (x : Opnds) (l : Nat) (hit : Option FbEntry) (k : Nat) :
    ((s.fbRead x l hit (s.die s.cd).fb).die k).fb = (s.die k).fb := by
  rw [die, (s.within_fbRead x l hit _).dies, ← die, die_modDie]
  split
  next hk => rw [hk]
  next => rw [begun_die]

section
variable {l : Nat} {ls : List Nat} (hexe : s.exe x.g = l :: ls) (hserv : s.service (l :: ls) = true)
include hexe hserv

theorem faultRd_of_found {spend : Bool} {pick : Word → FbEntry → Bool} {f : FbEntry → Option FbEntry} {e : FbEntry} (hx : i.opnds? = some x)
    (h : s.ready i = true) (hfind : (s.die s.cd).fb.find? (pick (.ofNat 32 (s.src x.ext .b32 l x.a))) = some e) :
    s.faultRd i spend pick f = .next (if spend then (s.fbRead x l (some e) (s.fbAfter e f)).irrevoke s.sel.blk
      else s.fbRead x l (some e) (s.fbAfter e f)) := by
  have hbuf : (s.begun.modDie s.cd fun d => { d with fb := d.fb.filterMap fun y => if y.seq == e.seq then f y else some y }) =
      s.begun.modDie s.cd fun d => { d with fb := s.fbAfter e f } := modDie_eq_of_eq_at (by rw [begun_die]; rfl)
  rw [faultRd, issue_ready hx h]
  simp only [begun_exe, hexe, begun_service, hserv, begun_src, begun_cd, begun_die, hfind, begun_sel, hbuf, die_modDie_same]
  rw [if_neg (by simp), fbRead]

theorem faultCancel_of_performed {m : CancelMode} {u : State} (h : s.ready (.faultCancel x m) = true)
    (hperf : s.begun.lanesPerformed s.sel.blk (l :: ls) = some u) :
    let q : Word := .ofNat 32 (s.src x.ext .b32 l x.a)
    let ok := (s.die s.cd).fb.any fun e => e.seq == q && e.body.kind == 2
    let t := u.gives x 1 l (if ok then 0 else 1)
    exec (.faultCancel x m) s = .next (if !ok then t
      else t.releaseRecord s.cd q (m == .all) fun c => m == .all || (m == .core && bitAt (s.src x.ext .b64 l x.b) c)) := by
  have hsel : u.sel.blk = s.sel.blk := by rw [lanesPerformed_sel hperf, begun_sel]
  rw [exec_faultCancel, execFaultCancel, issue_ready rfl h]
  simp only [begun_exe, hexe, begun_service, hserv, begun_sel, hperf, begun_src, begun_cd, begun_die, Bool.not_true, Bool.false_eq_true, if_false,
    gives, hsel]

/-- A `tlbinv` whose operand names no bit that must be 0 removes the entries that its mode names, where no access is on its way through one. -/
theorem tlbinv_of_legal {m : TlbMode} (h : s.ready (.tlbinv x m) = true) :
    let a := s.src x.ext (if m == .va then .b64 else .b32) l x.a
    let c := s.src x.ext .b32 l x.c
    let p := tlbPick m a (s.src x.ext (.int 64 false) l x.b) c
    (m = .dom → a < 16) → (m = .as → a < 4096) → (m = .va → c < 4096) → s.usedPage s.cd p = false →
      exec (.tlbinv x m) s = .next (((s.begun.advance x.ext.bytes).irrevoke s.sel.blk).forgetPages s.cd p) := by
  intro a c p hdom has hva hfree
  have hfree' : ¬(s.usedPage s.cd p = true) := by rw [hfree]; simp
  rw [exec_tlbinv, execTlbinv, issue_ready rfl h]
  simp only [begun_exe, hexe, begun_service, hserv, begun_src, begun_cd, begun_sel, begun_usedPage]
  rw [if_neg ?legal, if_neg (by simp), if_neg hfree']
  case legal =>
    cases m with
    | all => exact Bool.false_ne_true
    | dom => exact fun h => absurd (hdom rfl) (Nat.not_lt.2 (of_decide_eq_true h))
    | as => exact fun h => absurd (has rfl) (Nat.not_lt.2 (of_decide_eq_true h))
    | va => exact fun h => absurd (hva rfl) (Nat.not_lt.2 (of_decide_eq_true h))

end

end State

open State

/-- Settles O33: the three reads are one operation (`faultRd_of_found`), told apart by what they do to the entry found. -/
theorem faultBufferResults : Obligations.FaultBufferResults := by
  unfold Obligations.FaultBufferResults
  intro s x l ls hexe hserv len q read
  refine ⟨fun e h hfind => ?seq, fun e h hfind => ?take, fun e h hfind => ?free, fun m u h hperf => ?cancel, fun m h => ?inv⟩
  case seq =>
    refine ⟨s.fbRead x l (some e) (s.die s.cd).fb, ?_, rfl, (within_fbRead ..).mem.trans s.begun_mem, fb_fbRead_same s x l _⟩
    rw [exec_faultRdSeq, execFaultRdSeq, faultRd_of_found hexe hserv rfl h hfind, fbAfter_some, if_neg Bool.false_ne_true]
  case take =>
    have hbuf : (s.begun.modDie s.cd fun d => { d with fb := d.fb.map fun y => { y with taken := y.taken || y.seq == e.seq } }) =
        s.begun.modDie s.cd fun d => { d with fb := s.fbAfter e fun y => some { y with taken := true } } :=
      modDie_eq_of_eq_at (by rw [begun_die, fbAfter_taken])
    have hlen : (s.fbAfter e fun y => some { y with taken := true }).length = (s.die s.cd).fb.length := by rw [fbAfter_taken, List.length_map]
    rw [exec_faultRdTake, execFaultRdTake, faultRd_of_found hexe hserv rfl h hfind, if_pos rfl, hbuf, fbRead, hlen, Option.map_some,
      Option.getD_some]
  case free =>
    rw [exec_faultRdFree, execFaultRdFree, faultRd_of_found hexe hserv rfl h hfind, if_pos rfl]
    rfl
  case cancel => exact faultCancel_of_performed hexe hserv h hperf
  case inv => exact tlbinv_of_legal hexe hserv h

end Sys2Proof.Machine
end

section
/-! Masked bytes at their homes (R255, R354, R373, R375): what a write-back leaves there while no write is on its way. -/

namespace Sys2Proof.Machine

namespace State

variable {s : State} {a : Nat} {b : Byte}

/-! ### While no write is on its way (R378) -/

section
variable (hquiet : s.hub.inflight = [])
include hquiet

theorem settleFor_of_quiet (fuel k : Nat) (c : List Nat) : settleFor fuel s k c = s := by
  cases fuel with
  | zero => rfl
  | succ fuel => rw [settleFor, hquiet]; rfl

theorem absorb_of_quiet (k : Nat) (c : List Nat) : s.absorb k c = s.setClock k (clockMax (s.vclock k) c) := by
  rw [absorb, answer, settleFor_of_quiet hquiet]

theorem settleWhere_of_quiet (p : Delivery → Bool) : s.settleWhere p = s := by
  rw [settleWhere, hquiet]; rfl

theorem sendMasked_of_quiet (d : Nat) {es : List (Nat × Byte)} (hes : es ≠ []) (writers : Nat → List (Nat × Nat)) :
    s.sendMasked d es writers = (s.stamp d).1.applyHome d (s.stamp d).2 es writers := by
  obtain ⟨e, es, rfl⟩ := List.exists_cons_of_ne_nil hes
  have hall : (e :: es).filter (fun e => !(([] : List Delivery).any fun f => f.carries d e)) = e :: es := List.filter_eq_self.2 fun _ _ => rfl
  rw [sendMasked, settleWhere_of_quiet hquiet, hquiet]
  dsimp only
  rw [hall]

end

/-! ### One home takes its bytes (R373, R375) -/

/-- What stands at the homes, what is on its way there, and what the views hold. -/
def homes (s : State) : Memory × List Delivery × List Applied := (s.mem, s.hub.inflight, s.hub.applied)

theorem homes_modCache (s : State) (d : Nat) (f : L2Cache → L2Cache) : (s.modCache d f).homes = s.homes := by
  rw [homes, modCache_mem, modCache_inflight, modCache_applied, homes]

theorem homes_tellLender (s : State) (es : List (Nat × Byte)) (writers : Nat → List (Nat × Nat)) : (s.tellLender es writers).homes = s.homes :=
  foldl_keeps homes _ (fun u k => by dsimp only; split <;> rfl) _ s

/-- What of one agent's write its home `h` does not hold already, or something greater (R375). -/
def newAt (s : State) (w : Nat) (st : List Nat) (es : List (Nat × Byte)) (h : Nat) : List (Nat × Byte) :=
  (es.filter fun e => homeAgent e.1 == h).filter fun e => !s.stale h e.1 st w

/-- The part of `State.applyHome` at one home. -/
def applyAt (w : Nat) (st : List Nat) (es : List (Nat × Byte)) (writers : Nat → List (Nat × Nat)) (s : State) (h : Nat) : State :=
  let s := s.absorb h st
  let u := (s.note h ((s.newAt w st es h).map (·.1)) st w).homePut (s.newAt w st es h) writers
  if h < 4 && h != w then u.l2Refresh h ((s.newAt w st es h).filter fun e => !((u.l2 h e.1).any (·.masked))) else u

theorem applyHome_eq_foldl (s : State) (w : Nat) (st : List Nat) (es : List (Nat × Byte)) (writers : Nat → List (Nat × Nat)) :
    s.applyHome w st es writers = ((es.map fun e => homeAgent e.1).eraseDups).foldl (applyAt w st es writers) s := rfl

section
variable {w h : Nat} {st : List Nat} {es : List (Nat × Byte)} {writers : Nat → List (Nat × Nat)}

/-- What stands at the homes, what is on its way and what the views hold once home `h` has taken its part of a write. -/
def homesAfter (s : State) (w : Nat) (st : List Nat) (es : List (Nat × Byte)) (h : Nat) : Memory × List Delivery × List Applied :=
  let new := s.newAt w st es h
  (new.foldl (fun (m : Memory) e => m.setByte e.1 e.2) s.mem, s.hub.inflight,
    ((new.map (·.1)).map fun pa => { agent := h, pa := pa, stamp := st, writer := w })
      ++ s.hub.applied.filter fun e => !(e.agent == h && (new.map (·.1)).contains e.pa))

theorem homes_homePut : ((s.note h ((s.newAt w st es h).map (·.1)) st w).homePut (s.newAt w st es h) writers).homes = s.homesAfter w st es h := by
  rw [homePut, homes_tellLender]
  rfl

theorem homes_applyAt (hquiet : s.hub.inflight = []) : (applyAt w st es writers s h).homes = s.homesAfter w st es h := by
  rw [applyAt, absorb_of_quiet hquiet]
  split
  · rw [l2Refresh, homes_modCache, homes_homePut]
    rfl
  · rw [homes_homePut]
    rfl

/-- A home that has had no write takes all that is for it. -/
theorem mem_newAt (hnew : ∀ e ∈ s.hub.applied, e.agent ≠ h) {e : Nat × Byte} : e ∈ s.newAt w st es h ↔ e ∈ es ∧ homeAgent e.1 = h := by
  have hstale (pa : Nat) : s.stale h pa st w = false := by
    have hnone : (s.hub.applied.find? fun e => e.agent == h && e.pa == pa) = none :=
      List.find?_eq_none.2 fun x hx => by simp [hnew x hx]
    rw [stale, hnone]
  simp [newAt, hstale]

/-- Bytes that hold one value at an address stand there once each home has taken its part, or still stand there. -/
theorem byte_foldl_applyAt (hval : ∀ e ∈ es, e.1 = a → e.2 = b) (hes : (a, b) ∈ es) {hs : List Nat} (hnodup : hs.Nodup)
    (hquiet : s.hub.inflight = []) (hnew : ∀ e ∈ s.hub.applied, e.agent ∉ hs) (hbyte : homeAgent a ∈ hs ∨ s.mem.byte a = b) :
    (hs.foldl (applyAt w st es writers) s).mem.byte a = b := by
  induction hs generalizing s with
  | nil => simpa using hbyte
  | cons h hs ih =>
    obtain ⟨hh, hnodup⟩ := List.nodup_cons.1 hnodup
    have hfresh : ∀ e ∈ s.hub.applied, e.agent ≠ h := fun e he hag => hnew e he (hag ▸ List.mem_cons_self)
    have hhomes := homes_applyAt (w := w) (h := h) (st := st) (es := es) (writers := writers) hquiet
    simp only [homes, homesAfter, Prod.mk.injEq] at hhomes
    obtain ⟨hmem, hinflight, happlied⟩ := hhomes
    refine ih hnodup (hinflight.trans hquiet) (fun e he => ?_) ?_
    · rw [happlied] at he
      rcases List.mem_append.1 he with he | he
      · simp only [List.mem_map] at he
        obtain ⟨_, -, rfl⟩ := he
        exact hh
      · exact fun hin => hnew e (List.mem_filter.1 he).1 (List.mem_cons_of_mem _ hin)
    · rw [hmem]
      by_cases hhome : homeAgent a ∈ hs
      · exact .inl hhome
      · refine .inr (Memory.byte_foldl_setByte (fun e he => hval e ((mem_newAt hfresh).1 he).1) (hbyte.imp (fun hin => ?_) id))
        exact (mem_newAt hfresh).2 ⟨hes, (List.mem_cons.1 hin).resolve_right hhome⟩

end

/-! ### A write-back (R255, R293) -/

section
variable {d : Nat}

theorem byte_sendMasked {es : List (Nat × Byte)} (hval : ∀ e ∈ es, e.1 = a → e.2 = b) (hes : (a, b) ∈ es) (hquiet : s.hub.inflight = [])
    (hnew : s.hub.applied = []) (writers : Nat → List (Nat × Nat)) : (s.sendMasked d es writers).mem.byte a = b := by
  rw [sendMasked_of_quiet hquiet d (List.ne_nil_of_mem hes), applyHome_eq_foldl]
  refine byte_foldl_applyAt hval hes (nodup_eraseDups _) hquiet (fun e he => ?_) (.inl ?_)
  · rw [show (s.stamp d).1.hub.applied = [] from hnew] at he
    cases he
  · exact List.mem_eraseDups.2 (List.mem_map.2 ⟨_, hes, rfl⟩)

theorem mem_maskedIn {lo n : Nat} {x : L2Byte} (hx : s.l2 d a = some x) (hmasked : x.masked = true) (hlo : lo ≤ a) (hhi : a < lo + n) :
    (a, x) ∈ s.maskedIn d lo n :=
  List.mem_filter.2 ⟨Sparse.mem_of_look hx, by simp [hlo, hhi, hmasked]⟩

/-- A masked byte stands at its home once it has been written back, where nothing that was on its way could precede it. -/
theorem byte_writeBack {lo n : Nat} {x : L2Byte} (hsorted : Sparse.sorted (s.cache d).bytes = true) (hx : s.l2 d a = some x)
    (hmem : (a, x) ∈ s.maskedIn d lo n) (haccepts : s.refuses a = false) (hquiet : s.hub.inflight = []) (hnew : s.hub.applied = []) :
    (s.writeBack d lo n).mem.byte a = x.val := by
  have hms : (a, x) ∈ (s.maskedIn d lo n).filter fun e => !s.refuses e.1 := List.mem_filter.2 ⟨hmem, by rw [haccepts]; rfl⟩
  have hval : ∀ e ∈ ((s.maskedIn d lo n).filter fun e => !s.refuses e.1).map fun e => (e.1, e.2.val), e.1 = a → e.2 = x.val := by
    intro e he hea
    obtain ⟨y, hy, rfl⟩ := List.mem_map.1 he
    have hlook := Sparse.look_of_mem hsorted (List.mem_filter.1 (List.mem_filter.1 hy).1).1
    rw [show y.1 = a from hea] at hlook
    rw [Option.some.inj (hlook.symm.trans hx)]
  rw [writeBack]
  split
  next hnil => rw [hnil] at hms; cases hms
  next => rw [modCache_mem, byte_sendMasked hval (List.mem_map.2 ⟨_, hms, rfl⟩) hquiet hnew]

end

end State

end Sys2Proof.Machine
end

section
/-! Memory goes on by itself: walks, evictions, directory drops, deferred records, deliveries and persistent stores (R255, R261, R262, R271,
R292, R348, R354, R370). -/

namespace Sys2Proof.Machine

namespace State

variable {s : State}

/-! ### A line leaves the L2 (R255, R354) -/

section
variable {die line a : Nat}

@[simp] theorem leaveDir_l2 (s : State) (d line k a : Nat) : (s.leaveDir d line).l2 k a = s.l2 k a := by
  rw [leaveDir]
  split
  · rfl
  · exact s.l2_of_hub _ rfl k a

@[simp] theorem leaveDir_mem (s : State) (d line : Nat) : (s.leaveDir d line).mem = s.mem := by
  rw [leaveDir]; split <;> rfl

@[simp] theorem leaveDir_heldEvict (s : State) (d line : Nat) : (s.leaveDir d line).hub.heldEvict = s.hub.heldEvict := by
  rw [leaveDir]; split <;> rfl

theorem l2_evictLine (hlo : 256 * line ≤ a) (hhi : a < 256 * line + 256) : (s.evictLine die line).l2 die a = none := by
  rw [evictLine, leaveDir_l2, l2_dropL2, if_pos ⟨rfl, hlo, hhi⟩]

theorem mem_evictLine (s : State) (die line : Nat) : (s.evictLine die line).mem = (s.cleanRange die (256 * line) 256 []).mem := by
  rw [evictLine, leaveDir_mem, dropL2, modCache_mem]

theorem heldEvict_evictLine (s : State) (die line : Nat) :
    (s.evictLine die line).hub.heldEvict = (s.cleanRange die (256 * line) 256 []).hub.heldEvict := by
  rw [evictLine, leaveDir_heldEvict, dropL2, modCache_heldEvict]

/-- Where every home serves its bytes, they are written back. -/
theorem cleanRange_of_served {d lo n : Nat} (h : ∀ e ∈ s.maskedIn d lo n, s.served d e.1 = true) (maint : List (Nat × Nat)) :
    s.cleanRange d lo n maint = s.writeBack d lo n := if_pos (List.all_eq_true.2 h)

/-- Where a home does not serve one, all are held. -/
theorem cleanRange_of_unserved {d lo n : Nat} (h : ∃ e ∈ s.maskedIn d lo n, s.served d e.1 = false) (maint : List (Nat × Nat)) :
    s.cleanRange d lo n maint = s.holdMasked d lo n maint := by
  obtain ⟨e, he, hserved⟩ := h
  refine if_neg fun hall => ?_
  rw [List.all_eq_true.1 hall e he] at hserved
  cases hserved

theorem refuses_of_served {d pa : Nat} (h : s.served d pa = true) : s.refuses pa = false := by
  simp only [served, Bool.and_eq_true, Bool.not_eq_true'] at h
  exact h.1.1

theorem held_holdMasked {d lo n : Nat} {x : L2Byte} (hx : (a, x) ∈ s.maskedIn d lo n) (maint : List (Nat × Nat)) :
    ∃ h ∈ (s.holdMasked d lo n maint).hub.heldEvict, h.holder = d ∧ h.pa = a ∧ h.val = x.val := by
  rw [holdMasked, modCache_heldEvict]
  exact ⟨_, List.mem_append_right _ (List.mem_map.2 ⟨_, hx, rfl⟩), rfl, rfl, rfl⟩

end

/-! ### A directory entry is dropped (R348) -/

/-- A line leaves one cache, its masked bytes for their homes. -/
def dropFrom (line : Nat) (s : State) (k : Nat) : State := (s.cleanRange k (256 * line) 256 []).dropL2 k (256 * line) 256

theorem dropLine_eq (s : State) (line : Nat) :
    s.dropLine line = (caches.foldl (dropFrom line) s).modHub fun h => { h with dir := Sparse.del h.dir line } := rfl

theorem fillsNone_dropFrom (line : Nat) (s : State) (k : Nat) : s.fillsNone (dropFrom line s k) :=
  (s.fillsNone_cleanRange k (256 * line) 256 []).trans (fillsNone_dropL2 _ _ _ _)

/-- What one cache has dropped, the write-backs of the others do not bring back. -/
theorem l2_foldl_dropFrom {line a d : Nat} (hlo : 256 * line ≤ a) (hhi : a < 256 * line + 256) {ks : List Nat} (hd : d ∈ ks) :
    (ks.foldl (dropFrom line) s).l2 d a = none := by
  induction ks generalizing s with
  | nil => cases hd
  | cons k ks ih =>
    by_cases hks : d ∈ ks
    · exact ih hks
    · have hk : d = k := (List.mem_cons.1 hd).resolve_right hks
      have hgone : (dropFrom line s k).l2 d a = none := by rw [dropFrom, l2_dropL2, if_pos ⟨hk, hlo, hhi⟩]
      exact ((fillsNone.refl (dropFrom line s k)).foldl fun u e hu => hu.trans (fillsNone_dropFrom line u e)).l2 d a hgone

theorem dir_dropLine (s : State) (line : Nat) : Sparse.look (s.dropLine line).hub.dir line = none := by
  rw [dropLine_eq, modHub_hub, Sparse.look_del_same]

theorem l2_dropLine {line a d : Nat} (hlo : 256 * line ≤ a) (hhi : a < 256 * line + 256) (hd : d ∈ caches) : (s.dropLine line).l2 d a = none := by
  rw [dropLine_eq]
  exact (l2_of_hub _ _ rfl d a).trans (l2_foldl_dropFrom hlo hhi hd)

/-! ### A fault that waited is recorded (R271) -/

theorem recordDeferred_of_empty {die : Nat} (h : (s.die die).deferred = []) : s.recordDeferred die = none := by
  rw [recordDeferred, h]

/-- The event looks at the dies in their order. -/
theorem exec_faultRecordDeferred_of_some {die : Nat} {t : State} (hdie : die < 4) (hbefore : ∀ d < die, s.recordDeferred d = none)
    (h : s.recordDeferred die = some t) : exec .faultRecordDeferred s = .next t := by
  have hsome : (List.range 4).findSome? s.recordDeferred = some t := by
    refine List.findSome?_eq_some_iff.2 ⟨List.range die, die, List.range' (die + 1) (3 - die), ?_, h, fun d hd => hbefore d (List.mem_range.1 hd)⟩
    interval_cases die <;> rfl
  rw [exec_faultRecordDeferred, execFaultRecordDeferred, hsome, Option.getD_some]

/-! ### A write reaches its target (R354, R364, R365, R370) -/

theorem mayApply_iff {d : Delivery} : s.mayApply d = true ↔ homeAgent d.pa ≠ d.target ∨
    (s.refuses d.pa = false ∧ d.inc = s.incOf d.target ∧ s.slotOk (s.chargeOf d.pa) d.pa = true) := by
  simp [mayApply, and_assoc]

theorem arriveDelivery_of_mayApply {d : Delivery} (h : s.mayApply d = true) : s.arriveDelivery d = s.deliver d := by
  rw [arriveDelivery]
  rcases mayApply_iff.1 h with hhome | ⟨hrefuses, hinc, -⟩
  · exact if_pos (by simpa using hhome)
  · split
    · rfl
    · exact if_neg (by simp [hrefuses, hinc])

theorem arriveDelivery_of_refused {d : Delivery} (hhome : homeAgent d.pa = d.target) (hsrc : d.src < 4)
    (h : s.refuses d.pa = true ∨ d.inc ≠ s.incOf d.target) : s.arriveDelivery d = s.refuseDelivery d := by
  rw [arriveDelivery, if_neg (by simp [hhome]), if_pos (by simpa using h), if_neg (by simp [hsrc])]

end State

open State

/-- Settles O44: what a line that leaves a cache leaves at its homes is `byte_writeBack` and `held_holdMasked`; that a dropped line stays out of
every cache is `l2_foldl_dropFrom`; the other events are what they do. -/
theorem memoryEvents : Obligations.MemoryEvents := by
  unfold Obligations.MemoryEvents
  refine fun s => ⟨fun core dom asn va acc r hfind => ?walk, fun die line => ?evict, fun line hline hserves => ?drop,
    fun die f rest u x hdie hbefore hfirst hrecord => ?deferred, fun agent d => ?delivery, fun k e hfind hage hserved => ?persist⟩
  case walk =>
    intro w u
    rw [exec_translationWalk, execTranslationWalk, hfind]
    dsimp only
    refine ⟨fun t p h => ?_, fun t h => ?_, fun t x h hx => ?_⟩
    · rw [h]
    · rw [h]
    · rw [h]
      cases x with
      | wait => exact absurd rfl hx
      | _ => rfl
  case evict =>
    refine ⟨s.evictLine die line, rfl, fun a => l2_evictLine, fun _ hsorted a x hlo hhi hx hmasked => ?_⟩
    have hmem := mem_maskedIn hx hmasked hlo hhi
    refine ⟨fun hall hquiet hnew => ?_, fun hheld => ?_⟩
    · rw [mem_evictLine, cleanRange_of_served hall]
      exact byte_writeBack hsorted hx hmem (refuses_of_served (hall _ hmem)) hquiet hnew
    · rw [heldEvict_evictLine, cleanRange_of_unserved hheld]
      exact held_holdMasked hmem []
  case drop =>
    refine ⟨s.dropLine line, ?_, s.dir_dropLine line, fun d hd a hlo hhi => ?_⟩
    · rw [exec_directoryEntryDrop, execDirectoryEntryDrop, hserves, if_neg (by simpa using Option.ne_none_iff_isSome.2 hline)]
    · exact l2_dropLine hlo hhi hd
  case deferred =>
    refine exec_faultRecordDeferred_of_some hdie (fun d hd => recordDeferred_of_empty (hbefore d hd)) ?_
    rw [recordDeferred, hfirst]
    dsimp only
    rw [hrecord]
  case delivery =>
    intro mine hfind
    have htarget : d.target = agent := by simpa using (List.mem_filter.1 (List.mem_of_find?_eq_some hfind)).2
    have hexec : exec (.writeDelivery agent) s = .next (s.arriveDelivery d).tryAcks := by
      rw [exec_writeDelivery, execWriteDelivery, hfind]
    refine ⟨fun h => ?_, mayApply_iff, fun hhome hsrc h => ?_⟩
    · rw [hexec, arriveDelivery_of_mayApply h]
    · rw [hexec, arriveDelivery_of_refused (hhome.trans htarget.symm) hsrc (htarget ▸ h)]
  case persist =>
    rw [exec_persistentStoreComplete, execPersistentStoreComplete, hfind]
    refine if_neg ?_
    simp only [Bool.or_eq_true, List.any_eq_true, Bool.and_eq_true, beq_iff_eq, decide_eq_true_eq, Bool.not_eq_true', not_or]
    refine ⟨fun ⟨f, hf, ⟨hblk, hthr⟩, hlt⟩ => Nat.not_lt.2 (hage f hf hblk hthr) hlt, fun ⟨c, hc, hno⟩ => ?_⟩
    rw [hserved c hc] at hno
    cases hno

end Sys2Proof.Machine
end

section
/-! A granule changes its owner (R353): what a purge, and the zeroing after it, take away and leave alone. -/

namespace Sys2Proof.Machine

namespace State

variable {s : State}

/-! ### What a purge leaves alone -/

@[simp] theorem modCache_cores (s : State) (d : Nat) (f : L2Cache → L2Cache) : (s.modCache d f).cores = s.cores := by
  unfold modCache; split <;> rfl

@[simp] theorem modCache_blocks (s : State) (d : Nat) (f : L2Cache → L2Cache) : (s.modCache d f).blocks = s.blocks := by
  unfold modCache; split <;> rfl

/-- The lanes of one block leave the watches that are hit. -/
def unwatchBlock (hit : Block → Nat → Nat → Nat → Bool) (s : State) (e : Nat × Block) : State :=
  let out (t : Thread) : Bool := match t.watching.1 with
    | .waitcmp _ none pte va pa _ _ _ =>
      let size := pageBytes (field pte.toNat 14 4)
      hit e.2 va size (pa / size * size)
    | _ => false
  match (List.range e.2.threads.length).filter fun t => out (e.2.thr t) with
  | [] => s
  | ts => (ts.foldl (fun s t => s.pilotFree (e.2.core / 48) e.1 t) s).modBlk e.1 fun b => b.modThrs ts fun _ t =>
      match t.intr with
      | none => { t with wait := .none }
      | some i => { t with intr := some { i with wait := .none } }

theorem unwatch_eq (s : State) (hit : Block → Nat → Nat → Nat → Bool) : s.unwatch hit = s.blocks.foldl (unwatchBlock hit) s := rfl

/-- The registers of a thread that a program computes with, and its program counter. -/
def context (b k : Nat) (s : State) : Sparse Word × BitVec 7 × DWord :=
  (((s.blk b).thr k).v, ((s.blk b).thr k).p, ((s.blk b).thr k).pc)

theorem context_of_blocks {t : State} (h : t.blocks = s.blocks) (b k : Nat) : t.context b k = s.context b k := by
  simp only [context, blk, h]

theorem context_modThrs {b k j : Nat} {ts : List Nat} {f : Nat → Thread → Thread}
    (hf : ∀ i t, (f i t).v = t.v ∧ (f i t).p = t.p ∧ (f i t).pc = t.pc) : (s.modBlk j fun b => b.modThrs ts f).context b k = s.context b k := by
  simp only [context, blk_modBlk]
  split
  next hj =>
    subst hj
    rw [Block.thr_modThrs]
    split
    · obtain ⟨hv, hp, hpc⟩ := hf k ((s.blk b).thr k)
      rw [hv, hp, hpc]
    · rfl
  next => rfl

/-- Lanes leave their watches; memory, cores, hub and what the lanes compute with do not change. -/
theorem unwatchBlock_keeps (hit : Block → Nat → Nat → Nat → Bool) (s : State) (e : Nat × Block) (b k : Nat) :
    (unwatchBlock hit s e).mem = s.mem ∧ (unwatchBlock hit s e).cores = s.cores ∧ (unwatchBlock hit s e).context b k = s.context b k := by
  rw [unwatchBlock]
  dsimp only
  split
  · exact ⟨rfl, rfl, rfl⟩
  next ts _ =>
    let free (s : State) (t : Nat) : State := s.pilotFree (e.2.core / 48) e.1 t
    refine ⟨foldl_keeps mem free (fun _ _ => rfl) _ s, foldl_keeps cores free (fun _ _ => rfl) _ s,
      (context_modThrs fun i t => ?_).trans (foldl_keeps (context b k) free (fun _ _ => rfl) _ s)⟩
    split <;> exact ⟨rfl, rfl, rfl⟩

theorem unwatch_mem (s : State) (hit : Block → Nat → Nat → Nat → Bool) : (s.unwatch hit).mem = s.mem :=
  foldl_keeps mem (unwatchBlock hit) (fun u e => (unwatchBlock_keeps hit u e 0 0).1) s.blocks s

theorem unwatch_cores (s : State) (hit : Block → Nat → Nat → Nat → Bool) : (s.unwatch hit).cores = s.cores :=
  foldl_keeps cores (unwatchBlock hit) (fun u e => (unwatchBlock_keeps hit u e 0 0).2.1) s.blocks s

theorem unwatch_context (s : State) (hit : Block → Nat → Nat → Nat → Bool) (b k : Nat) : (s.unwatch hit).context b k = s.context b k :=
  foldl_keeps (context b k) (unwatchBlock hit) (fun u e => (unwatchBlock_keeps hit u e b k).2.2) s.blocks s

theorem dropL2_mem (s : State) (d lo n : Nat) : (s.dropL2 d lo n).mem = s.mem := modCache_mem _ _ _
theorem dropL2_cores (s : State) (d lo n : Nat) : (s.dropL2 d lo n).cores = s.cores := modCache_cores _ _ _
theorem dropL2_blocks (s : State) (d lo n : Nat) : (s.dropL2 d lo n).blocks = s.blocks := modCache_blocks _ _ _

/-- Bytes of a range that leave several caches. -/
theorem l2_foldl_dropL2 (lo n : Nat) (ks : List Nat) (s : State) (e a : Nat) :
    (ks.foldl (fun s d => s.dropL2 d lo n) s).l2 e a = if e ∈ ks ∧ lo ≤ a ∧ a < lo + n then none else s.l2 e a := by
  induction ks generalizing s with
  | nil => simp
  | cons k ks ih =>
    rw [List.foldl_cons, ih, l2_dropL2]
    by_cases ha : lo ≤ a ∧ a < lo + n
    · by_cases hk : e = k <;> simp [ha, hk]
    · simp [ha]

/-- No translation cache, L1 or instruction cache keeps anything of a page that overlaps a range. -/
def uncached (s : State) (lo n : Nat) : State :=
  let gone (e : TlbLeaf) : Bool := bitAt e.pte.toNat 1 && Machine.meets lo n e.physical.1 e.physical.2
  { s with
    dies := s.dies.map fun (e : Nat × Die) => (e.1, { e.2 with tlb := e.2.tlb.filter fun l => !gone l })
    cores := s.cores.map fun (e : Nat × Core) => (e.1, { e.2 with
      tlb := e.2.tlb.filter fun l => !gone l
      l1 := e.2.l1.filter fun l => !Machine.meets lo n (l.pa - (256 * l.line - l.page)) l.size
      icache := e.2.icache.filter fun l => !Machine.meets lo n l.pa l.size }) }

/-- The hub keeps no directory entry, write or view of a range. -/
def purgedHub (lo n : Nat) (h : Hub) : Hub :=
  { h with
    dir := h.dir.filter fun e => !Machine.meets lo n (256 * e.1) 256
    inflight := h.inflight.filter fun e => !Machine.meets lo n e.pa e.bytes.length
    applied := h.applied.filter fun e => !(lo ≤ e.pa && e.pa < lo + n)
    heldEvict := h.heldEvict.filter fun e => !(lo ≤ e.pa && e.pa < lo + n) }

theorem purge_eq (s : State) (lo n : Nat) : s.purge lo n =
    (caches.foldl (fun s d => s.dropL2 d lo n) ((s.uncached lo n).unwatch fun _ _ size pa => Machine.meets lo n pa size)).modHub (purgedHub lo n) :=
  rfl

theorem purge_mem (s : State) (lo n : Nat) : (s.purge lo n).mem = s.mem := by
  rw [purge_eq, modHub_mem, foldl_keeps mem _ fun _ _ => dropL2_mem _ _ _ _, unwatch_mem]
  rfl

theorem purge_context (s : State) (lo n b k : Nat) : (s.purge lo n).context b k = s.context b k := by
  rw [purge_eq, context_of_blocks (modHub_blocks _ _),
    foldl_keeps (context b k) _ fun _ _ => context_of_blocks (dropL2_blocks _ _ _ _) b k, unwatch_context]
  rfl

/-! ### What a purge takes away -/

theorem meets_eq_false_iff {lo len va n : Nat} : Machine.meets lo len va n = false ↔ ¬(va < lo + len ∧ lo < va + n) := by
  rw [Machine.meets, ← Bool.not_eq_true, Bool.and_eq_true, decide_eq_true_eq, decide_eq_true_eq]

theorem purge_l2 {lo n d a : Nat} (hd : d ∈ caches) (hlo : lo ≤ a) (hhi : a < lo + n) : (s.purge lo n).l2 d a = none := by
  rw [purge_eq, l2_of_hub _ _ rfl, l2_foldl_dropL2, if_pos ⟨hd, hlo, hhi⟩]

theorem purge_l1 {lo n : Nat} {c : Nat × Core} (hc : c ∈ (s.purge lo n).cores) {y : L1Line} (hy : y ∈ c.2.l1) :
    Machine.meets lo n (y.pa - (256 * y.line - y.page)) y.size = false := by
  rw [purge_eq, modHub_cores, foldl_keeps cores _ fun _ _ => dropL2_cores _ _ _ _, unwatch_cores] at hc
  obtain ⟨e, -, rfl⟩ := List.mem_map.1 hc
  simpa using (List.mem_filter.1 hy).2

theorem purge_inflight {lo n : Nat} {e : Delivery} (he : e ∈ (s.purge lo n).hub.inflight) : Machine.meets lo n e.pa e.bytes.length = false := by
  rw [purge_eq, modHub_hub] at he
  simpa using (List.mem_filter.1 he).2

/-! ### A granule that is given -/

theorem byte_zeroRange (s : State) (lo n a : Nat) :
    (s.zeroRange lo n).mem.byte a = if lo ≤ a ∧ a < lo + n then 0 else s.mem.byte a := by
  show Memory.byte (s.mem.filter fun e => !(decide (lo ≤ e.1) && decide (e.1 < lo + n))) a = _
  rw [Memory.byte, Sparse.getOr, Sparse.look_filter_key _ fun k => !(decide (lo ≤ k) && decide (k < lo + n))]
  by_cases h : lo ≤ a ∧ a < lo + n
  · simp [h]
  · rw [if_pos (by simp; omega), if_neg h]
    rfl

theorem zeroRange_cores (s : State) (lo n : Nat) : (s.zeroRange lo n).cores = s.cores := rfl

theorem zeroRange_blocks (s : State) (lo n : Nat) : (s.zeroRange lo n).blocks = s.blocks := rfl

theorem zeroRange_l2 (s : State) (lo n d a : Nat) : (s.zeroRange lo n).l2 d a = s.l2 d a := by
  rw [zeroRange, stamp]
  exact l2_of_hub _ _ rfl d a

theorem zeroRange_inflight (s : State) (lo n : Nat) : (s.zeroRange lo n).hub.inflight = s.hub.inflight := rfl

/-- No granule that can change owner lies in the hub's reserved range (R347, R349). -/
theorem not_reserved_of_granuleReal {g : Nat} (h : granuleReal g = true) : ¬(2 ^ 42 - 2 ^ 26 ≤ 65536 * g ∧ 65536 * g < 2 ^ 42) := by
  intro hg
  rw [granuleReal, granuleBase, placeOf, if_neg (by omega), if_neg (by simp; omega), if_neg (by simp; omega), if_neg (by simp; omega)] at h
  cases h

theorem granuleOwner_giveGranule {g : Nat} (h : granuleReal g = true) (code : Nat) : (s.giveGranule g code).granuleOwner g = code := by
  rw [granuleOwner, if_neg (by simpa using not_reserved_of_granuleReal h)]
  exact Sparse.getOr_putOr_same _ _ _ _

end State

open State

/-- Settles O36: a purge empties every cache of the granule (`purge_l2`, `purge_l1`, `purge_inflight`), and the zeroing takes the bytes at its
home. -/
theorem granuleGiven : Obligations.GranuleGiven := by
  unfold Obligations.GranuleGiven
  intro s g code
  refine ⟨fun a => ?_, fun d hd a hlo hhi => ?_, fun c hc y hy => ?_, fun e he => ?_,
    fun h => granuleOwner_giveGranule h code, fun e he => ?_, fun b k => ?_⟩
  · rw [giveGranule, modHub_mem, byte_zeroRange, purge_mem]
    rfl
  · rw [giveGranule, l2_of_hub _ _ rfl, zeroRange_l2]
    exact purge_l2 hd hlo hhi
  · rw [giveGranule, modHub_cores, zeroRange_cores] at hc
    exact purge_l1 hc hy
  · rw [giveGranule, modHub_hub] at he
    exact meets_eq_false_iff.1 (purge_inflight (zeroRange_inflight _ _ _ ▸ he))
  · simpa using (List.mem_filter.1 he).2
  · have h : (s.giveGranule g code).context b k = s.context b k := by
      rw [giveGranule, context_of_blocks (modHub_blocks _ _), context_of_blocks (zeroRange_blocks _ _ _), purge_context]
    simpa only [context, Prod.mk.injEq] using h

end Sys2Proof.Machine
end

section
/-! Shadows opened, published and dropped (R304, R305, R307). -/

namespace Sys2Proof.Machine

namespace State

variable {s : State} {x : Opnds} {l : Nat} {ls : List Nat}

/-! ### `shdw.open` (R305) -/

/-- The lanes get a handle and advance. -/
def givenHandle (s : State) (x : Opnds) (ex : List Nat) (h : Nat) : State := (s.advance x.ext.bytes).write x.d 1 (ex.map fun t => (t, h))

/-- Lanes that a copy kept waiting get the handle it left them. -/
theorem shdwOpen_of_copied (h : s.ready (.shdwOpen x) = true) (hl : s.exe x.g = l :: ls) {v : Word} (hwait : (s.cb.thr l).wait = .shadow (some v)) :
    exec (.shdwOpen x) s = .next (s.begun.givenHandle x (l :: ls) v.toNat) := by
  rw [exec_shdwOpen, execShdwOpen, issue_ready rfl h, begun_exe, hl, begun_cb]
  dsimp only
  rw [hwait]
  rfl

/-- What `shdw.open` does once every page of its buffer is known (R305 steps 3 to 5). -/
def openPaged (s : State) (x : Opnds) (ex : List Nat) (w : Who) (base n : Nat) (ps : List ShadowPg) : State :=
  match s.openShadow w.dom w.asn base n with
  | some (d, i, sh) => if sh.copying.isSome then s.stall else s.givenHandle x ex (shadowHandle d i sh.gen)
  | none =>
    match s.freeShadow s.cd, takeFrames (s.die s.cd).pool ps with
    | some i, some (fs, pool) =>
      match s.translate w base 1 .read false with
      | (s, .error e) => s.onceStop (.shdwOpen x) x.ext.bytes 0 ex base { cause := 0 } e
      | (s, .ok p) =>
        match s.engRead w (sectorParts base n) with
        | (s, .ok bs) => s.makeShadow ex i base n p.pte fs pool bs
        | (s, .error .wait) => s.stall
        | (s, .error (.fail _)) => s.uniformFault x { cause := 0x13, addr := .ofNat 64 base }
        | (s, .error (.fault c why level acc va)) => s.reissue (.shdwOpen x) x.ext.bytes acc ex c why level va
    | _, _ => s.givenHandle x ex 0

/-- A buffer of whole pages, none of which R305 refuses. -/
theorem shdwOpen_of_paged {base n : Nat} {s1 : State} {ps : List ShadowPg} {e : Nat} (h : s.ready (.shdwOpen x) = true) (hl : s.exe x.g = l :: ls)
    (hwait : (s.cb.thr l).wait = .none) (hbase : s.src x.ext .b64 l x.a = base) (hn : s.src x.ext .b32 l x.b = n)
    (haligned : base % 4096 = 0) (hpos : n ≠ 0) (hwhole : n % 4096 = 0) (hsmall : n ≤ 2 ^ 26)
    (hfirst : canonical (.ofNat 64 base) = true) (hlast : canonical (.ofNat 64 (base + n - 1)) = true)
    (hpages : s.begun.bufferPages s.cb.who base (base + n) (n / 4096) base = (s1, .ok (some (ps, e)))) :
    exec (.shdwOpen x) s = .next (s1.openPaged x (l :: ls) s.cb.who base n ps) := by
  have hsize : (base % 4096 != 0 || n == 0 || n % 4096 != 0 || decide (2 ^ 26 < n)) = false := by
    simpa [haligned, hpos, hwhole] using hsmall
  have hcanonical : (!canonical (.ofNat 64 base) || !canonical (.ofNat 64 (base + n - 1))) = false := by rw [hfirst, hlast]; rfl
  rw [exec_shdwOpen, execShdwOpen, issue_ready rfl h, begun_exe, hl, begun_cb]
  dsimp only
  rw [hwait, begun_src_eq, hbase, hn, hsize, hcanonical, hpages]
  rfl

variable {w : Who} {base n : Nat} {ps fs : List ShadowPg} {ex pool : List Nat}

theorem openPaged_of_open {d i : Nat} {sh : Shadow} (hsh : s.openShadow w.dom w.asn base n = some (d, i, sh)) (hcopied : sh.copying = none) :
    s.openPaged x ex w base n ps = s.givenHandle x ex (shadowHandle d i sh.gen) := by
  rw [openPaged, hsh]
  exact if_neg (by rw [hcopied]; simp)

theorem openPaged_of_full (hsh : s.openShadow w.dom w.asn base n = none)
    (hfull : s.freeShadow s.cd = none ∨ takeFrames (s.die s.cd).pool ps = none) : s.openPaged x ex w base n ps = s.givenHandle x ex 0 := by
  rw [openPaged, hsh]
  dsimp only
  split
  next hi hfs => exact absurd hfull (by simp [hi, hfs])
  next => rfl

theorem openPaged_of_room {i : Nat} {s2 s3 : State} {p : Page} {bs : List EByte} (hsh : s.openShadow w.dom w.asn base n = none)
    (hi : s.freeShadow s.cd = some i) (hfs : takeFrames (s.die s.cd).pool ps = some (fs, pool))
    (hpage : s.translate w base 1 .read false = (s2, .ok p)) (hread : s2.engRead w (sectorParts base n) = (s3, .ok bs)) :
    s.openPaged x ex w base n ps = s3.makeShadow ex i base n p.pte fs pool bs := by
  simp only [openPaged, hsh, hi, hfs, hpage, hread]

/-! ### `publ` and `publ.drop` (R307) -/

@[simp] theorem begun_blocked (s : State) (a : Nat) (c : List Nat) : s.begun.blocked a c = s.blocked a c := by
  obtain ⟨_, h⟩ := s.begun_eq; rw [h]; rfl

@[simp] theorem begun_vclock (s : State) (a : Nat) : s.begun.vclock a = s.vclock a := by
  rw [vclock, begun_hub, vclock]

variable {i : Instr} {drop : Bool} (hx : i.opnds? = some x) (h : s.ready i = true) (hl : s.exe x.g = l :: ls)
include hx h hl

theorem publOp_of_unnamed (hnone : s.namedShadow (s.src x.ext .b32 l x.a) = none) : s.publOp i drop =
    .next ((s.begun.advanceBut x.ext.bytes (l :: ls)).finishFaults x.ext.bytes ((l :: ls).map fun t => (t, { cause := 0x1E }))) := by
  rw [publOp, issue_ready hx h, begun_exe, hl]
  dsimp only
  rw [begun_src_eq, begun_namedShadow, hnone]
  dsimp only
  rw [begun_uniformFault, hl]

/-- Nothing of the block that precedes a publication is on its way to the shadow's frames, and nothing keeps it from its homes (R307 step 1). -/
theorem publOp_of_named {d k : Nat} {sh : Shadow} (hsh : s.namedShadow (s.src x.ext .b32 l x.a) = some (d, k, sh))
    (hsent : ∀ e ∈ s.hub.inflight, e.blk = s.sel.blk → e.external = false → e.thr ∈ l :: ls → e.pa / 4096 ∉ framesOf sh.pages)
    (hengines : s.begun.aliasBusy sh (s.cb.shdwwin.toNat + (256 * d + k) * 2 ^ 26) = false)
    (hblocked : drop = false → ∀ a < 6, s.blocked a (s.vclock s.cd) = false) (hserved : ∀ f ∈ framesOf sh.pages, s.refuses (4096 * f) = false) :
    s.publOp i drop = .next (if drop then ((s.begun.advance x.ext.bytes).irrevoke s.sel.blk).dropShadow d k sh
      else ((s.begun.advance x.ext.bytes).irrevoke s.sel.blk).publish d k sh) := by
  have hnone : (s.hub.inflight.any fun e => e.blk == s.sel.blk && !e.external && (l :: ls).contains e.thr
      && (framesOf sh.pages).contains (e.pa / 4096)) = false := by
    refine List.any_eq_false.2 fun e he hmeets => ?_
    simp only [Bool.and_eq_true, beq_iff_eq, Bool.not_eq_true', List.contains_iff_mem] at hmeets
    obtain ⟨⟨⟨hblk, hext⟩, hthr⟩, hframe⟩ := hmeets
    exact hsent e he hblk hext hthr hframe
  have hhomes : ((framesOf sh.pages).any fun f => s.refuses (4096 * f)) = false := List.any_eq_false.2 fun f hf => by simp [hserved f hf]
  have hagents : (!drop && (List.range 6).any fun a => s.blocked a (s.vclock s.cd)) = false := by
    cases drop with
    | true => rfl
    | false => exact List.any_eq_false.2 fun a ha => by simp [hblocked rfl a (List.mem_range.1 ha)]
  rw [publOp, issue_ready hx h, begun_exe, hl]
  dsimp only
  rw [begun_src_eq, begun_namedShadow, hsh]
  simp only [begun_hub, begun_sel, begun_cb, hengines, begun_refuses, begun_blocked, begun_vclock, begun_cd, hnone, hhomes, hagents]
  rfl

end State

open State

theorem shadowOpens : ShadowOpens := by
  intro s x l ls h hl
  refine ⟨fun v hwait => shdwOpen_of_copied h hl hwait, fun s1 ps e hwait haligned hpos hwhole hsmall hfirst hlast hpages => ?_⟩
  rw [shdwOpen_of_paged h hl hwait rfl rfl haligned hpos hwhole hsmall hfirst hlast hpages]
  refine ⟨fun d i sh hsh hcopied => ?_, fun hsh => ⟨fun hfull => ?_, fun i fs pool s2 p s3 bs hi hfs hpage hread => ?_⟩⟩
  · rw [openPaged_of_open hsh hcopied]
    rfl
  · rw [openPaged_of_full hsh hfull]
    rfl
  · rw [openPaged_of_room hsh hi hfs hpage hread]

theorem publication : Publication := by
  intro s x l ls i drop hi h hl
  obtain ⟨hx, hexec⟩ : i.opnds? = some x ∧ exec i s = s.publOp i drop := by
    rcases hi with ⟨rfl, rfl⟩ | ⟨rfl, rfl⟩ <;> exact ⟨rfl, rfl⟩
  rw [hexec]
  exact ⟨fun d k sh hsh hsent hengines hblocked hserved => publOp_of_named hx h hl hsh hsent hengines hblocked hserved,
    publOp_of_unnamed hx h hl⟩

/-- Settles O21: once its pages are known, `shdw.open` looks for an open shadow of the buffer, and then for room (`openPaged`). -/
theorem shadowResults : Obligations.ShadowResults := ⟨shadowOpens, publication⟩

end Sys2Proof.Machine
end

section
/-! Bank commands issued, their status waited for, and what they compute in an element (R310 to R312). -/

namespace Sys2Proof.Machine

namespace State

variable {s : State} {i : Instr} {x : Opnds} {l : Nat} {ls : List Nat}

/-! ### A command enters its die's queue (R310, R311) -/

/-- Every range of a command is canonical and aligned (R311). -/
def rangesOk (op : BankOp) (t : BkTy) (rs : List (Nat × Nat × Bool)) : Prop :=
  ∀ r ∈ rs, canonical (.ofNat 64 r.1) = true ∧ (r.2.1 ≠ 0 → canonical (.ofNat 64 (r.1 + r.2.1 - 1)) = true) ∧ r.1 % bankAlign op t r.2.2 = 0

theorem far_eq_none {op : BankOp} {t : BkTy} {rs : List (Nat × Nat × Bool)} (h : rangesOk op t rs) :
    (rs.find? fun r => !canonical (.ofNat 64 r.1) || (r.2.1 != 0 && !canonical (.ofNat 64 (r.1 + r.2.1 - 1)))) = none := by
  refine List.find?_eq_none.2 fun r hr => ?_
  obtain ⟨hfirst, hlast, -⟩ := h r hr
  by_cases hn : r.2.1 = 0
  · simp [hfirst, hn]
  · simp [hfirst, hlast hn]

theorem odd_eq_none {op : BankOp} {t : BkTy} {rs : List (Nat × Nat × Bool)} (h : rangesOk op t rs) :
    (rs.find? fun r => r.1 % bankAlign op t r.2.2 != 0) = none :=
  List.find?_eq_none.2 fun r hr => by simp [(h r hr).2.2]

/-- The ranges of a bank command, from its scalar registers and its number of elements. -/
def bankOpRanges (s : State) (q : BitVec 6) (op : BankOp) (t : BkTy) (n : Nat) : List (Nat × Nat × Bool) :=
  bankRanges op t n (s.spair q.toNat).toNat (s.spair (q.toNat + 2)).toNat (s.spair (q.toNat + 4)).toNat (s.spair (q.toNat + 6)).toNat

/-- A command's entry in its die's queue, made once its pages are known. -/
def queueBank (s : State) (x : Opnds) (l : Nat) (ls : List Nat) (op : BankOp) (t : BkTy) (rnd : Rnd) (n d a b c : Nat)
    (ps : List (Nat × Nat × Nat)) : State :=
  (s.advance x.ext.bytes).modDie s.cd fun y => { y with
    bank := y.bank ++ [{ k := y.bankNext, blk := s.sel.blk, bundle := s.cb.roleBundle s.sel.ctx, thrs := l :: ls, pages := ps, op := op
                         t := t, rnd := rnd, n := n, d := .ofNat 64 d, a := .ofNat 64 a, b := .ofNat 64 b, c := .ofNat 64 c
                         scalar := .ofNat 32 (s.src x.ext .b32 l x.c), done := [], after := s.earlierSteps (bankRanges op t n d a b c) }]
    bankNext := y.bankNext + 1 }

section
variable {op : BankOp} {t : BkTy} {q : BitVec 6} (rnd : Rnd) (hx : i.opnds? = some x) (h : s.ready i = true) (hq : x.a = .s q)
  (hl : s.exe x.g = l :: ls) (hn : s.src x.ext .b32 l x.b ≤ 2 ^ 24)
  (hranges : rangesOk op t (s.bankOpRanges q op t (s.src x.ext .b32 l x.b)))
include hx h hq hl hn hranges

theorem bankOp_of_empty (hzero : s.src x.ext .b32 l x.b = 0) : s.bankOp i op t rnd = .next (s.begun.advance x.ext.bytes) := by
  have hfar := far_eq_none hranges
  have hodd := odd_eq_none hranges
  rw [bankOpRanges] at hfar hodd
  rw [bankOp, issue_ready hx h, begun_exe, hl, hq]
  dsimp only
  simp only [begun_src, begun_spair, hfar, hodd]
  rw [if_neg (Nat.not_lt.2 hn), if_pos hzero]
  rfl

theorem bankOp_of_pages {s1 : State} {ps : List (Nat × Nat × Nat)} (hzero : s.src x.ext .b32 l x.b ≠ 0)
    (hpages : s.begun.bankAllPages s.cb.who (s.bankOpRanges q op t (s.src x.ext .b32 l x.b)) = (s1, .ok ps)) :
    s.bankOp i op t rnd = .next ((s1.queueBank x l ls op t rnd (s.src x.ext .b32 l x.b) (s.spair q.toNat).toNat (s.spair (q.toNat + 2)).toNat
      (s.spair (q.toNat + 4)).toNat (s.spair (q.toNat + 6)).toNat ps).irrevoke s1.sel.blk) := by
  have hfar := far_eq_none hranges
  have hodd := odd_eq_none hranges
  rw [bankOpRanges] at hfar hodd hpages
  rw [bankOp, issue_ready hx h, begun_exe, hl, hq]
  dsimp only
  simp only [begun_src, begun_spair, begun_cb, hfar, hodd, hpages]
  rw [if_neg (Nat.not_lt.2 hn), if_neg hzero]
  rfl

end

/-! ### `bk.wait` (R312) -/

/-- What `bk.wait` does once no command of the bundle is left: the die takes in what the commands' writes left, and the lanes get the status. -/
def bankStatusTaken (s : State) (x : Opnds) (ex : List Nat) (n : Nat) : State :=
  ((((s.absorb s.cd (s.cb.bundle n).bankSeen).advance x.ext.bytes).modCb fun b => b.modBundle n fun u =>
    { u with bankStatus := 0, bankSeen := Bundle.unseen }).write x.d 1 (ex.map fun t => (t, (s.cb.bundle n).bankStatus.toNat)))

theorem bkWait_of_done (h : s.ready (.bkWait x) = true) (hexe : s.exe x.g ≠ [])
    (hdone : ∀ c ∈ (s.die s.cd).bank, c.blk = s.sel.blk → c.bundle ≠ s.cb.roleBundle s.sel.ctx)
    (happlied : s.blocked s.cd (s.cb.bundle (s.cb.roleBundle s.sel.ctx)).bankSeen = false) :
    exec (.bkWait x) s = .next (s.begun.bankStatusTaken x (s.exe x.g) (s.cb.roleBundle s.sel.ctx)) := by
  have hnone : ((s.die s.cd).bank.any fun c => c.blk == s.sel.blk && c.bundle == s.cb.roleBundle s.sel.ctx) = false :=
    List.any_eq_false.2 fun c hc hmine => by
      simp only [Bool.and_eq_true, beq_iff_eq] at hmine
      exact hdone c hc hmine.1 hmine.2
  obtain ⟨l, ls, hl⟩ := List.exists_cons_of_ne_nil hexe
  rw [exec_bkWait, execBkWait, issue_ready rfl h, begun_exe, hl]
  dsimp only
  simp only [begun_cb, begun_sel, begun_die, begun_cd, hnone, happlied, begun_blocked]
  rw [bankStatusTaken, begun_cb, begun_cd]
  rfl

end State

open State

theorem exec_eq_bankOp {i : Instr} {x : Opnds} {op : BankOp} {t : BkTy} {rnd : Rnd} (h : bankForm i = some (x, op, t, rnd)) (s : State) :
    i.opnds? = some x ∧ exec i s = s.bankOp i op t rnd := by
  cases i <;> cases h <;> exact ⟨rfl, rfl⟩

theorem bankResults : BankResults := by
  intro s
  refine ⟨fun i x op t rnd q l ls hform h hq hl => ?_, fun x h hexe hdone happlied => ?_⟩
  · obtain ⟨hx, hexec⟩ := exec_eq_bankOp hform s
    intro n d a b c rs hn hranges
    rw [hexec]
    exact ⟨fun hzero => bankOp_of_empty rnd hx h hq hl hn hranges hzero,
      fun s1 ps hzero hpages => bankOp_of_pages rnd hx h hq hl hn hranges hzero hpages⟩
  · rw [bkWait_of_done h hexe hdone happlied, bankStatusTaken, begun_cb, begun_cd]

/-! ### Elements (R310) -/

/-- A comparison with a NaN holds only under `ne`. -/
theorem cmp_of_nan {a b : Fp.Val} (h : a.isNan = true ∨ b.isNan = true) (cc : Cc) (sig : Bool) : (Fp.cmp cc.fcc sig a b).1 = decide (cc = .ne) := by
  have hun : (a.isNan || b.isNan) = true := by simpa using h
  cases cc <;> simp [Fp.cmp, Cc.fcc, hun]

theorem bankValue_s32 (a b c x : BitVec 32) (rnd : Rnd) :
    bankValue .add .s32 rnd x.toNat a.toNat b.toNat c.toNat = ((a + b).toNat, 0)
    ∧ bankValue .mul .s32 rnd x.toNat a.toNat b.toNat c.toNat = ((a * b).toNat, 0)
    ∧ ∀ cc, bankValue (.cmp cc) .s32 rnd x.toNat a.toNat b.toNat c.toNat = (if cmpInt cc a.toInt b.toInt then 1 else 0, 0) := by
  refine ⟨?_, ?_, fun cc => ?_⟩
  · rw [BitVec.toNat_add]; rfl
  · rw [BitVec.toNat_mul]; rfl
  · rw [← readInt_signed a, ← readInt_signed b]; rfl

/-- A fill gives the bits of x that its element has. -/
theorem bankValue_fill {t : BkTy} (ht : t.fp = none) (x : BitVec 32) (rnd : Rnd) (a b c : Nat) :
    bankValue .fill t rnd x.toNat a b c = ((x.setWidth (8 * t.size)).toNat, 0) := by
  simp only [bankValue, ht, BitVec.toNat_setWidth]

theorem bankElements : BankElements := by
  refine ⟨fun a b c x rnd => ?_, fun a b c x rnd t f hf => ?_⟩
  · obtain ⟨hadd, hmul, hcmp⟩ := bankValue_s32 a b c x rnd
    refine ⟨hadd, hmul, hcmp, ?_, bankValue_fill (t := .b16) rfl x rnd _ _ _, bankValue_fill (t := .b8) rfl x rnd _ _ _⟩
    rw [bankValue_fill (t := .b32) rfl, show 8 * BkTy.b32.size = 32 from rfl, BitVec.setWidth_eq]
  · refine ⟨?_, ?_, ?_, ?_, fun cc hnan => ?_⟩
    all_goals simp only [bankValue, hf]
    rw [cmp_of_nan hnan]
    exact if_congr decide_eq_true_iff rfl rfl

/-- Settles O22: a command whose checks pass meets its pages alone (`bankOp_of_pages`), and a wait with nothing left takes the status
(`bkWait_of_done`). -/
theorem bankCommandResults : Obligations.BankCommandResults := ⟨bankResults, bankElements⟩

end Sys2Proof.Machine
end

section
/-! The engines of a die go on: bulk and bank commands, shadows, and the snuff engine (R299, R305, R307, R311, R353). -/

namespace Sys2Proof.Machine

/-! ### A turn of a bank command (R311) -/

/-- The elements that a turn takes: all that are left, the first n of them, or those picked. -/
theorem BankCmd.turn_eq (c : BankCmd) (k n : Nat) (pick : List Nat) : c.turn ⟨k, n, pick⟩ =
    if c.whole = true ∨ (pick = [] ∧ n = 0) then c.rest
    else if pick = [] then c.rest.take n else (pick.filter c.rest.contains).eraseDups := by
  cases pick with
  | nil => by_cases hw : c.whole = true <;> by_cases hn : n = 0 <;> simp [BankCmd.turn, hw, hn]
  | cons p pick => by_cases hw : c.whole = true <;> simp [BankCmd.turn, hw]

namespace State

variable {s : State} {die k : Nat}

/-! ### Bulk commands (R299) -/

/-- A command that has not ended goes on as its kind does (R300 to R302). -/
def bulkGoesOn (s : State) (die : Nat) (c : BulkCmd) : State :=
  match c.kind with
  | .gather list n _ => s.gather die c list.toNat n
  | .fan lanes len count stride slot => fanRun die c len count stride slot (lanes.drop c.done) c.done s
  | .sealed dec desc => s.sealing die c dec desc.toNat

section
variable {c : BulkCmd} (hfind : (s.die die).bulk.find? (fun c => c.k == k) = some c) (hwait : c.waitSeq = none) (hgo : c.cancelled = false)
include hfind hwait hgo

theorem bulkCommandPerform_of_code {code : Nat} (h : c.code = some code) :
    exec (.bulkCommandPerform die k) s = .next (s.bulkStatus die c c.status code) := by
  rw [exec_bulkCommandPerform, execBulkCommandPerform, hfind]
  dsimp only
  rw [hwait, h, hgo]
  rfl

theorem bulkCommandPerform_of_running (h : c.code = none) : exec (.bulkCommandPerform die k) s = .next (s.bulkGoesOn die c) := by
  rw [exec_bulkCommandPerform, execBulkCommandPerform, hfind]
  dsimp only
  rw [hwait, h, hgo]
  rfl

end

/-! ### Bank commands (R311) -/

section
variable {c : BankCmd} {n : Nat} {pick : List Nat} (hfind : (s.die die).bank.find? (fun c => c.k == k) = some c)
include hfind

theorem bankCommandPerform_of_overlapped (h : ∃ e ∈ (s.die die).bank, e.k < k ∧ e.blk = c.blk ∧ e.bundle = c.bundle ∧ e.overlaps c = true) :
    exec (.bankCommandPerform die ⟨k, n, pick⟩) s = .next s := by
  have hk : c.k = k := by simpa using List.find?_some hfind
  obtain ⟨e, he, hlt, hblk, hbundle, hover⟩ := h
  have hwaits : s.bankWaits die c = true := by
    rw [bankWaits, Bool.or_eq_true]
    exact .inl (List.any_eq_true.2 ⟨e, he, by simp [hk, hlt, hblk, hbundle, hover]⟩)
  rw [exec_bankCommandPerform, execBankCommandPerform, hfind]
  exact if_pos (by rw [hwaits]; rfl)

/-- A command that waits for nothing, whose homes serve it, performs the elements of its turn. -/
theorem bankCommandPerform_of_served (hes : c.turn ⟨k, n, pick⟩ ≠ []) (hwaits : s.bankWaits die c = false)
    (hserved : ∀ p ∈ c.pieces, s.bankServed die c p.1 = true) : exec (.bankCommandPerform die ⟨k, n, pick⟩) s =
      .next (((((c.pieces.map fun p => homeAgent p.1).eraseDups).foldl (fun s h => s.absorb h (s.vclock die)) s).bankPerform c
        (c.turn ⟨k, n, pick⟩)).modDie die fun x => { x with
          bank := if (c.turn ⟨k, n, pick⟩).length = c.rest.length then x.bank.filter fun e => e.k != k
            else x.bank.map fun e => if e.k = k then { e with done := c.done ++ c.turn ⟨k, n, pick⟩ } else e }) := by
  have hall : (c.pieces.any fun p => !s.bankServed die c p.1) = false := List.any_eq_false.2 fun p hp => by simp [hserved p hp]
  rw [exec_bankCommandPerform, execBankCommandPerform, hfind]
  exact if_neg (by rw [hwaits, hall]; simpa using hes)

end

/-! ### Shadows (R305, R307) -/

/-- The lanes that wait for a copy have its handle once it is complete, and its entry is copying no more. -/
theorem shadowCopyComplete_gives {sh : Shadow} {b : Nat} {ts : List Nat} (hsh : Sparse.look (s.die die).shadows k = some sh)
    (hcopying : sh.copying = some (b, ts)) : ∃ t, exec (.shadowCopyComplete die k) s = .next t
      ∧ Sparse.look (t.die die).shadows k = some { sh with copying := none } ∧ t.mem = s.mem
      ∧ ∀ l ∈ ts, l < (s.blk b).threads.length → ((s.blk b).thr l).wait = .shadow none →
        (t.blk b).thr l = { (s.blk b).thr l with wait := .shadow (some (.ofNat 32 (shadowHandle die k sh.gen))) } := by
  rw [exec_shadowCopyComplete, execShadowCopyComplete, hsh]
  dsimp only
  rw [hcopying]
  refine ⟨_, rfl, ?_, rfl, fun l hl hlt hwait => ?_⟩
  · rw [die_modBlk, die_modDie_same, Sparse.look_put_same]
  · rw [blk_modBlk_same, blk_modDie, Block.thr_modThrs, if_pos ⟨hl, hlt⟩, if_pos (by rw [hwait]; rfl)]

theorem dropL2_pool (s : State) (e lo n d : Nat) : ((s.dropL2 e lo n).die d).pool = (s.die d).pool := by
  rw [dropL2, modCache]
  split
  · rfl
  · rw [die_modDie]
    split
    next hd => rw [hd]
    next => rfl

theorem forgetFrames_pool (s : State) (fs : List Nat) (d : Nat) : ((s.forgetFrames fs).die d).pool = (s.die d).pool := by
  rw [forgetFrames, die_modHub]
  exact foldl_keeps (fun u : State => (u.die d).pool) _
    (fun u e => foldl_keeps (fun u : State => (u.die d).pool) _ (fun u f => dropL2_pool u e (4096 * f) 4096 d) fs u) caches s

theorem forgetFrames_mem (s : State) (fs : List Nat) : (s.forgetFrames fs).mem = s.mem := by
  rw [forgetFrames, modHub_mem]
  exact foldl_keeps mem _ (fun u e => foldl_keeps mem _ (fun u f => dropL2_mem u e (4096 * f) 4096) fs u) caches s

/-- A dropped shadow's frames are the pool's again, and its entry is closed. -/
theorem dropShadow_frees (s : State) (die k : Nat) (sh : Shadow) : ((s.dropShadow die k sh).die die).pool = (s.die die).pool ++ framesOf sh.pages
    ∧ Sparse.look ((s.dropShadow die k sh).die die).shadows k = some { sh with opened := false, pages := [], copying := none }
    ∧ (s.dropShadow die k sh).mem = s.mem := by
  simp only [dropShadow, closeShadow, die_modDie_same, die_modHub, modDie_mem, modHub_mem, forgetFrames_pool, forgetFrames_mem,
    Sparse.look_put_same, and_self]

theorem shadowDrop_of_open {sh : Shadow} (hsh : Sparse.look (s.die die).shadows k = some sh) (hopen : sh.opened = true) (hcopied : sh.copying = none) :
    exec (.shadowDrop die k) s = .next (s.dropShadow die k sh) := by
  rw [exec_shadowDrop, execShadowDrop, hsh]
  dsimp only
  rw [if_pos (by rw [hopen, hcopied]; rfl)]

/-! ### The snuff engine (R307, R353) -/

section
variable {g : Nat} (hidle : s.granuleBusy g = false)
include hidle

theorem snuffEngineZero_gives {e : Nat × Nat} (h : s.hub.zeroing.find? (fun e => e.1 == g) = some e) :
    exec (.snuffEngineZero g) s = .next ((s.giveGranule g e.2).modHub fun h => { h with zeroing := h.zeroing.erase e }) := by
  rw [exec_snuffEngineZero, execSnuffEngineZero, if_neg (by simp [hidle]), h]

theorem snuffEngineZero_zeroes (h : s.hub.zeroing.find? (fun e => e.1 == g) = none) :
    exec (.snuffEngineZero g) s = .next ((s.hub.zeroFrames.filter fun e => e.2 / 16 == g).foldl zeroFrame s) := by
  rw [exec_snuffEngineZero, execSnuffEngineZero, if_neg (by simp [hidle]), h]

end

end State

open State

/-- Settles O46, event by event. -/
theorem engineEvents : Obligations.EngineEvents := by
  unfold Obligations.EngineEvents
  refine fun s die k => ⟨fun c hfind hwait hgo => ⟨fun code => bulkCommandPerform_of_code hfind hwait hgo, fun hcode => ?bulk⟩,
    fun c n pick hfind => ?bank, fun sh b ts hsh hcopying => shadowCopyComplete_gives hsh hcopying, fun sh hsh hopen hcopied => ?drop,
    fun g hidle => ⟨fun e => snuffEngineZero_gives hidle, snuffEngineZero_zeroes hidle⟩⟩
  case bulk =>
    rw [bulkCommandPerform_of_running hfind hwait hgo hcode, bulkGoesOn]
    refine ⟨fun list n st hkind => ?_, fun lanes len count stride slot hkind => ?_, fun dec desc hkind => ?_⟩ <;> rw [hkind]
  case bank =>
    intro rest es seen hes
    have hturn : c.turn ⟨k, n, pick⟩ = es := BankCmd.turn_eq c k n pick
    refine ⟨bankCommandPerform_of_overlapped hfind, fun hwaits hserved => ?_⟩
    rw [bankCommandPerform_of_served hfind (by rwa [hturn]) hwaits hserved, hturn]
    rfl
  case drop =>
    obtain ⟨hpool, hlook, hmem⟩ := dropShadow_frees s die k sh
    exact ⟨_, shadowDrop_of_open hsh hopen hcopied, hpool, hlook, hmem⟩

end Sys2Proof.Machine
end

section
/-! Clocks, images and cold boot (R292, R359 to R362). -/

namespace Sys2Proof.Machine

namespace State

variable {s : State}

@[simp] theorem lampLog_mem (s : State) (a : Nat) (e : LogEvent) (l : List Nat) : (s.lampLog a e l).mem = s.mem := rfl
@[simp] theorem lampLog_cores (s : State) (a : Nat) (e : LogEvent) (l : List Nat) : (s.lampLog a e l).cores = s.cores := rfl
@[simp] theorem lampLog_die (s : State) (a : Nat) (e : LogEvent) (l : List Nat) (d : Nat) : (s.lampLog a e l).die d = s.die d := rfl

/-! ### A die's clock (R359, R360) -/

@[simp] theorem setMhz_mem (s : State) (d m : Nat) : (s.setMhz d m).mem = s.mem := rfl
@[simp] theorem setMhz_cores (s : State) (d m : Nat) : (s.setMhz d m).cores = s.cores := rfl

theorem setMhz_die (s : State) (d m k : Nat) : (s.setMhz d m).die k = if k = d then { s.die d with mhz := m } else s.die k :=
  die_modDie _ k d _

/-- Each die named takes the clock that `f` gives it. -/
theorem die_foldl_setMhz (f : Die → Nat) {ds : List Nat} (hnodup : ds.Nodup) (s : State) (k : Nat) :
    (ds.foldl (fun s d => s.setMhz d (f (s.die d))) s).die k = if k ∈ ds then { s.die k with mhz := f (s.die k) } else s.die k := by
  induction ds generalizing s with
  | nil => rfl
  | cons d ds ih =>
    obtain ⟨hd, hnodup⟩ := List.nodup_cons.1 hnodup
    rw [List.foldl_cons, ih hnodup, setMhz_die]
    by_cases hk : k = d
    · subst hk; simp [hd]
    · simp [hk]

/-- The clock that a die has after an interval of this power. -/
def clockAfter (watts : Nat) (x : Die) : Nat :=
  if !x.hot.isEmpty then x.mhz
  else if 3000 < watts then max 1000 (x.mhz - 50)
  else if watts < 2900 then min 2200 (x.mhz + 50)
  else x.mhz

/-- The dies whose clock changes. -/
def clocksMoved (s : State) (watts : Nat) : List Nat := (List.range 4).filter fun d => clockAfter watts (s.die d) != (s.die d).mhz

/-- The package once every clock that changes has changed. -/
def clocksSet (s : State) (watts : Nat) : State := (s.clocksMoved watts).foldl (fun s d => s.setMhz d (clockAfter watts (s.die d))) s

theorem powerInterval_eq (s : State) (watts : Nat) : exec (.powerInterval watts) s =
    .next (if (s.clocksMoved watts).isEmpty then s.clocksSet watts else (s.clocksSet watts).lampLog 4 .power [watts]) := rfl

theorem mhz_clocksSet (watts : Nat) {d : Nat} (hd : d < 4) : ((s.clocksSet watts).die d).mhz = clockAfter watts (s.die d) := by
  have hnodup : (s.clocksMoved watts).Nodup := List.nodup_range.filter _
  rw [clocksSet, die_foldl_setMhz _ hnodup]
  split
  next => rfl
  next hstays =>
    by_contra hne
    exact hstays (List.mem_filter.2 ⟨List.mem_range.2 hd, by simpa using Ne.symm hne⟩)

theorem powerInterval_moves (s : State) (watts : Nat) : ∃ t, exec (.powerInterval watts) s = .next t ∧ t.mem = s.mem ∧ t.cores = s.cores
    ∧ ∀ d < 4, (t.die d).mhz = clockAfter watts (s.die d) := by
  have hmem : (s.clocksSet watts).mem = s.mem := foldl_keeps mem _ (fun _ _ => setMhz_mem _ _ _) _ s
  have hcores : (s.clocksSet watts).cores = s.cores := foldl_keeps cores _ (fun _ _ => setMhz_cores _ _ _) _ s
  rw [powerInterval_eq]
  split
  · exact ⟨_, rfl, hmem, hcores, fun d hd => mhz_clocksSet watts hd⟩
  · exact ⟨_, rfl, hmem, hcores, fun d hd => mhz_clocksSet watts hd⟩

/-! ### Temperature (R360) -/

section
variable {die sensor c : Nat} (hdie : die < 4) (hsensor : sensor < 3)
include hdie hsensor

theorem thermalTrip_halts (hc : 115 < c) : exec (.thermalTrip die ⟨sensor, c⟩) s = .next (s.haltPackage .off .thermal [die, sensor, c]) := by
  rw [exec_thermalTrip, execThermalTrip, if_neg (by simp; omega)]
  exact if_pos hc

theorem thermalTrip_holds (hlo : 105 < c) (hhi : c ≤ 115) (hnew : sensor ∉ (s.die die).hot) : ∃ t, exec (.thermalTrip die ⟨sensor, c⟩) s = .next t
    ∧ (t.die die).hot = (s.die die).hot ++ [sensor] ∧ (t.die die).mhz = 1000 ∧ t.mem = s.mem := by
  rw [exec_thermalTrip, execThermalTrip, if_neg (by simp; omega)]
  dsimp only
  rw [if_neg (Nat.not_lt.2 hhi), if_pos hlo, if_neg (by simpa using hnew)]
  refine ⟨_, rfl, ?_, ?_, rfl⟩ <;> rw [lampLog_die, setMhz_die, if_pos rfl, die_modDie_same]

theorem thermalTrip_cools (hc : c < 100) : ∃ t, exec (.thermalTrip die ⟨sensor, c⟩) s = .next t
    ∧ (t.die die).hot = (s.die die).hot.filter (· != sensor) ∧ (t.die die).mhz = (s.die die).mhz ∧ t.mem = s.mem := by
  rw [exec_thermalTrip, execThermalTrip, if_neg (by simp; omega)]
  dsimp only
  rw [if_neg (by omega), if_neg (by omega), if_pos hc]
  refine ⟨_, rfl, ?_, ?_, rfl⟩ <;> rw [die_modDie_same]

end

/-! ### A loss of power (R292, R360) -/

theorem powerLoss_flushes (s : State) : ∃ t, exec .powerLoss s = .next t ∧ t.hub.power = .off ∧ t.hub.persists = [] ∧ t.blocks = s.blocks
    ∧ t.mem = s.hub.durable.foldl (fun (m : Memory) (e : Nat × Byte) => m.setByte e.1 e.2) s.mem := by
  rw [exec_powerLoss, execPowerLoss, flushPersistent, send]
  refine ⟨_, rfl, rfl, rfl, ?_, ?_⟩
  · simp only [modHub_blocks]
  · simp only [modHub_mem]

/-! ### Images (R361) -/

theorem imageUpdate_refused {i : Image} (h : s.hub.imageOk i = false) : exec (.imageUpdate i) s = .next s := by
  rw [exec_imageUpdate, execImageUpdate, h]
  rfl

/-- An accepted image goes to the bank that is not active. -/
theorem imageUpdate_accepted {i : Image} (h : s.hub.imageOk i = true) : ∃ t, exec (.imageUpdate i) s = .next t ∧ t.mem = s.mem
    ∧ t.hub.pending = true ∧ t.hub.activeB = s.hub.activeB
    ∧ t.hub.bankA = (if s.hub.activeB then some i else s.hub.bankA) ∧ t.hub.bankB = (if s.hub.activeB then s.hub.bankB else some i) := by
  rw [exec_imageUpdate, execImageUpdate, h]
  refine ⟨_, rfl, rfl, rfl, ?_⟩
  cases hb : s.hub.activeB <;> simp [lampLog, hb]

/-! ### Cold boot (R360 to R362) -/

theorem coldBoot_fails (hoff : s.hub.power ≠ .on) (hbad : s.hub.chooseBank.bootOk = false) :
    exec .coldBoot s = .next (s.modHub fun h => { h.chooseBank with running := none, power := .off }) := by
  rw [exec_coldBoot, execColdBoot, if_neg (by simpa using hoff), hbad]
  rfl

/-- A draw of a key leaves the hub and memory as they are. -/
theorem drawKey_keeps (s : State) : s.drawKey.1.hub = s.hub ∧ s.drawKey.1.mem = s.mem := by
  have h := foldl_keeps (fun p : State × Nat => (p.1.hub, p.1.mem)) (fun (acc : State × Nat) k => (acc.1.draw.1, acc.2 + acc.1.draw.2.toNat * 2 ^ (64 * k)))
    (fun _ _ => rfl) (List.range 4) (s, 0)
  exact Prod.mk.inj h

/-- An address of a device on one of the package's ports. -/
def onDevice (pa : Nat) : Bool :=
  match placeOf pa with
  | .device _ => true
  | _ => false

theorem byte_filter_onDevice (m : Memory) (a : Nat) : Memory.byte (m.filter fun e => onDevice e.1) a = if onDevice a then m.byte a else 0 := by
  rw [Memory.byte, Sparse.getOr, Sparse.look_filter_key m onDevice]
  split <;> rfl

/-- The empty machine that a cold boot starts: the stores of R360 and what the devices hold are kept. -/
def started (s : State) (key : Nat) : State :=
  { State.reset with
    hub := s.hub.chooseBank.coldBoot key
    mem := s.mem.filter fun e => onDevice e.1
    poison := s.poison.filter fun e => onDevice (64 * e.1)
    blockNext := s.blockNext, gridNext := s.gridNext, agenda := s.agenda, nextFree := s.nextFree }

theorem coldBoot_starts (hoff : s.hub.power ≠ .on) (hok : s.hub.chooseBank.bootOk = true) :
    exec .coldBoot s = .next (s.drawKey.1.started s.drawKey.2) := by
  rw [exec_coldBoot, execColdBoot, if_neg (by simpa using hoff), hok]
  rfl

/-- The choice of a bank changes neither the log nor the stores of R360. -/
theorem chooseBank_keeps (h : Hub) : h.chooseBank.log = h.log ∧ h.chooseBank.store = h.store ∧ h.chooseBank.rollback = h.rollback := by
  rw [Hub.chooseBank]
  repeat' split
  all_goals exact ⟨rfl, rfl, rfl⟩

end State

open State

/-- Settles O49, event by event. -/
theorem powerEvents : Obligations.PowerEvents := by
  unfold Obligations.PowerEvents
  refine fun s => ⟨fun watts => ?clocks, fun die sensor c hdie hsensor => ⟨thermalTrip_halts hdie hsensor, thermalTrip_holds hdie hsensor,
    thermalTrip_cools hdie hsensor⟩, powerLoss_flushes s, fun i => ?image, fun htrying hrunning => ?confirm,
    fun hoff hbad => ⟨_, coldBoot_fails hoff hbad, rfl, rfl, rfl, rfl⟩, fun hoff hok => ?boot⟩
  case clocks =>
    obtain ⟨t, hexec, hmem, hcores, hclocks⟩ := powerInterval_moves s watts
    refine ⟨t, hexec, hmem, hcores, fun d hd => (hclocks d hd).trans ?_⟩
    rw [clockAfter]
    exact if_congr (by simp) rfl rfl
  case image =>
    cases himage : s.hub.imageOk i with
    | false => exact ⟨s, imageUpdate_refused himage, rfl, fun _ => rfl, fun h => nomatch h⟩
    | true =>
      obtain ⟨t, hexec, hmem, hbanks⟩ := imageUpdate_accepted himage
      exact ⟨t, hexec, hmem, fun h => (nomatch h), fun _ => hbanks⟩
  case confirm =>
    rw [exec_imageConfirm, execImageConfirm, htrying, hrunning]
    exact ⟨_, rfl, rfl, rfl, rfl⟩
  case boot =>
    obtain ⟨hhub, hmem⟩ := s.drawKey_keeps
    obtain ⟨hlog, hstore, hrollback⟩ := chooseBank_keeps s.hub
    refine ⟨_, coldBoot_starts hoff hok, rfl, rfl, rfl, ?_, ?_, ?_, fun a => ?_⟩
    · exact (congrArg (·.chooseBank.log) hhub).trans hlog
    · exact (congrArg (·.chooseBank.store) hhub).trans hstore
    · exact (congrArg (·.chooseBank.rollback) hhub).trans hrollback
    · rw [started, byte_filter_onDevice, hmem, onDevice]
      cases placeOf a <;> rfl

end Sys2Proof.Machine
end

section
/-! What issues stays what it was through accesses of memory (R103, R253 to R263, R297), fences (R289) and the stores of engines (R315, R333). -/

namespace Sys2Proof.Machine

namespace State

variable (s : State)

/-! ### Operations made of others -/

/-- What issues is the same after a fold each of whose steps leaves it alone. -/
theorem foldl_sel {α : Type} {f : State → α → State} (hf : ∀ u e, (f u e).sel = u.sel) (l : List α) : (l.foldl f s).sel = s.sel := by
  induction l generalizing s with
  | nil => rfl
  | cons e l ih => exact (ih (f s e)).trans (hf s e)

/-- What holds of the first of a pair holds of it by its name. -/
theorem sel_of_fst {s t : State} {α : Type} {p : State × α} {y : α} (h : p.1.sel = s.sel) (hp : p = (t, y)) : t.sel = s.sel := by
  rw [hp] at h
  exact h

/-! ### Memory at its homes (R255, R348, R354, R370 to R378) -/

@[simp] theorem answer_sel (a : Nat) (c : List Nat) : (s.answer a c).sel = s.sel := ((fillsNone.refl s).settleFor _ a c).sel

@[simp] theorem absorb_sel (a : Nat) (c : List Nat) : (s.absorb a c).sel = s.sel := ((fillsNone.refl s).absorb a c).sel

@[simp] theorem sendMasked_sel (d : Nat) (es : List (Nat × Byte)) (ws : Nat → List (Nat × Nat)) : (s.sendMasked d es ws).sel = s.sel :=
  ((fillsNone.refl s).sendMasked d es ws).sel

@[simp] theorem applyHome_sel (w : Nat) (st : List Nat) (es : List (Nat × Byte)) (ws : Nat → List (Nat × Nat)) :
    (s.applyHome w st es ws).sel = s.sel := ((fillsNone.refl s).applyHome w st es ws).sel

@[simp] theorem homePut_sel (es : List (Nat × Byte)) (ws : Nat → List (Nat × Nat)) : (s.homePut es ws).sel = s.sel :=
  ((fillsNone.refl s).homePut es ws).sel

@[simp] theorem l2Refresh_sel (d : Nat) (es : List (Nat × Byte)) : (s.l2Refresh d es).sel = s.sel := modCache_sel s d _

@[simp] theorem writeBack_sel (d lo n : Nat) : (s.writeBack d lo n).sel = s.sel := (s.fillsNone_writeBack d lo n).sel

@[simp] theorem cleanRange_sel (d lo n : Nat) (maint : List (Nat × Nat)) : (s.cleanRange d lo n maint).sel = s.sel :=
  (s.fillsNone_cleanRange d lo n maint).sel

@[simp] theorem dropL2_sel (d lo n : Nat) : (s.dropL2 d lo n).sel = s.sel := modCache_sel s d _

@[simp] theorem note_sel (a : Nat) (pas st : List Nat) (w : Nat) : (s.note a pas st w).sel = s.sel := rfl

@[simp] theorem stamp_sel (a : Nat) : (s.stamp a).1.sel = s.sel := rfl

@[simp] theorem request_sel (slot page : Nat) (what : Asked) (engine : Bool) : (s.request slot page what engine).sel = s.sel := rfl

@[simp] theorem takeView_sel (d h : Nat) (pas : List Nat) : (s.takeView d h pas).sel = s.sel := by
  rw [takeView]
  split
  · rfl
  · exact foldl_sel _ (fun u st => u.absorb_sel d st) _

@[simp] theorem ask_sel (d pa n : Nat) : (s.ask d pa n).sel = s.sel := by
  rw [ask]
  split <;> simp

@[simp] theorem spread_sel (a pa : Nat) (bytes : List Byte) (writer : List (Nat × Nat)) : (s.spread a pa bytes writer).sel = s.sel := by
  rw [spread, modHub_sel, note_sel, stamp_sel]

@[simp] theorem nameSent_sel (d : Nat) (va pc : DWord) : (s.nameSent d va pc).sel = s.sel := rfl

@[simp] theorem sendWrite_sel (a pa : Nat) (bytes : List Byte) (writer : List (Nat × Nat)) : (s.sendWrite a pa bytes writer).sel = s.sel := by
  simp only [sendWrite]
  repeat' split
  all_goals simp

@[simp] theorem sendHome_sel (a pa : Nat) (bytes : List Byte) (wide : Bool) (writer : List (Nat × Nat)) :
    (s.sendHome a pa bytes wide writer).sel = s.sel := by
  rw [sendHome]
  split <;> simp

@[simp] theorem sendHeld_sel (p : Held → Bool) : (s.sendHeld p).sel = s.sel := by
  rw [sendHeld]
  dsimp only
  split
  · rfl
  · exact foldl_sel _ (fun u k => u.sendMasked_sel k _ _) _

@[simp] theorem cohere_sel (d pa : Nat) (write : Bool) : (s.cohere d pa write).sel = s.sel := by
  rw [cohere]
  split
  · rfl
  · simp only [modHub_sel, ask_sel]
    refine (foldl_sel _ (fun u k => ?_) _).trans (s.sendHeld_sel _)
    split <;> simp

@[simp] theorem leaveDir_sel (d line : Nat) : (s.leaveDir d line).sel = s.sel := by
  rw [leaveDir]
  split <;> rfl

@[simp] theorem makeRoom_sel (d pa : Nat) : (s.makeRoom d pa).sel = s.sel := by
  rw [makeRoom]
  split
  · rfl
  · split <;> simp [evictLine]

@[simp] theorem fetchSector_sel (d pa : Nat) : (s.fetchSector d pa).sel = s.sel := by
  simp only [fetchSector, takeView_sel, modCache_sel]
  split <;> simp

@[simp] theorem l2Store_sel (d pa : Nat) (bytes : List Byte) (writer : List (Nat × Nat)) : (s.l2Store d pa bytes writer).sel = s.sel :=
  modCache_sel s d _

@[simp] theorem everywhere_sel (d : Nat) (pas : List Nat) : (s.everywhere d pas).sel = s.sel :=
  foldl_sel (s.stamp d).1 (fun u a => u.note_sel a pas (s.stamp d).2 d) (List.range 6)

@[simp] theorem coherentStore_sel (d pa : Nat) (bytes : List Byte) (writer : List (Nat × Nat)) :
    (s.coherentStore d pa bytes writer).sel = s.sel := by
  rw [coherentStore, everywhere_sel, l2Store_sel]

@[simp] theorem poisonHome_sel (pa n : Nat) : (s.poisonHome pa n).sel = s.sel := rfl

@[simp] theorem taintSent_sel (a pa : Nat) : (s.taintSent a pa).sel = s.sel := rfl

/-! ### Translation (R257 to R263) -/

@[simp] theorem orEntry_sel (d at_ bit : Nat) : (s.orEntry d at_ bit).sel = s.sel := by
  rw [orEntry]
  refine (foldl_sel _ (fun u k => ?_) _).trans (everywhere_sel _ d _)
  split <;> simp

@[simp] theorem installLeaf_sel (w : Who) (e : TlbLeaf) (ptrs : List TlbLeaf) : (s.installLeaf w e ptrs).sel = s.sel := by
  rw [installLeaf]
  split <;> rfl

@[simp] theorem useLeaf_sel (w : Who) (e : TlbLeaf) : (s.useLeaf w e).sel = s.sel := by
  rw [useLeaf]
  repeat' split
  all_goals simp

@[simp] theorem queueWalk_sel (w : Who) (va n : Nat) (acc : Access) : (s.queueWalk w va n acc).sel = s.sel := rfl

@[simp] theorem walkFor_sel (w : Who) (va n : Nat) (acc : Access) : (s.walkFor w va n acc).1.sel = s.sel := by
  rw [walkFor]
  dsimp only
  repeat' split
  all_goals simp

@[simp] theorem translate_sel (w : Who) (va n : Nat) (acc : Access) (spec : Bool) : (s.translate w va n acc spec).1.sel = s.sel := by
  rw [translate]
  dsimp only
  repeat' split
  all_goals simp

/-! ### Loads and stores by page (R255, R292, R391 to R399) -/

@[simp] theorem countPeer_sel (w : Who) (p : Page) (va : Nat) : (s.countPeer w p va).sel = s.sel := by
  rw [countPeer]
  dsimp only
  repeat' split
  all_goals rfl

@[simp] theorem askPeer_sel (w : Who) (p : Page) : (s.askPeer w p).sel = s.sel := by
  rw [askPeer]
  repeat' split
  all_goals rfl

@[simp] theorem askData_sel (w : Who) (p : Page) (pa : Nat) (what : Asked) : (s.askData w p pa what).sel = s.sel := by
  rw [askData]
  repeat' split
  all_goals simp

@[simp] theorem takeAnswer_sel (p : Page) (what : Asked) : (s.takeAnswer p what).sel = s.sel := by
  rw [takeAnswer]
  split <;> rfl

@[simp] theorem closeAnswers_sel (keep : Bool) : (s.closeAnswers keep).sel = s.sel := by
  rw [closeAnswers]
  split <;> rfl

@[simp] theorem loadAt_sel (w : Who) (p : Page) (pa n : Nat) : (s.loadAt w p pa n).1.sel = s.sel := by
  rw [loadAt]
  dsimp only
  repeat' split
  all_goals simp

@[simp] theorem persist_sel (pa : Nat) (bytes : List Byte) (writer : List (Nat × Nat)) : (s.persist pa bytes writer).sel = s.sel := by
  rw [persist]
  split <;> rfl

@[simp] theorem noteWriters_sel (slot : Nat) : (s.noteWriters slot).sel = s.sel := by
  rw [noteWriters]
  split <;> rfl

@[simp] theorem putAt_sel (w : Who) (p : Page) (pa : Nat) (bytes : List Byte) (writer : List (Nat × Nat)) :
    (s.putAt w p pa bytes writer).sel = s.sel := by
  rw [putAt]
  repeat' split
  all_goals simp

@[simp] theorem storeAt_sel (w : Who) (p : Page) (pa : Nat) (bytes : List Byte) (writer : List (Nat × Nat)) :
    (s.storeAt w p pa bytes writer).1.sel = s.sel := by
  rw [storeAt]
  split <;> simp

@[simp] theorem irrevoke_sel (bid : Nat) : (s.irrevoke bid).sel = s.sel := rfl

@[simp] theorem peerStore_sel (p : Page) (writer : List (Nat × Nat)) : (s.peerStore p writer).sel = s.sel := by
  rw [peerStore]
  split
  · exact foldl_sel _ (fun u (x : Nat × Nat) => u.irrevoke_sel x.1) _
  · rfl

@[simp] theorem l1Update_sel (w : Who) (va : Nat) (bytes : List Byte) : (s.l1Update w va bytes).sel = s.sel := by
  rw [l1Update]
  split <;> rfl

@[simp] theorem l1Drop_sel (w : Who) (va : Nat) : (s.l1Drop w va).sel = s.sel := by
  rw [l1Drop]
  split <;> rfl

@[simp] theorem recordFault_sel (d : Nat) (r : RestartRec) : (s.recordFault d r).1.sel = s.sel := by
  rw [recordFault]
  repeat' split
  all_goals rfl

@[simp] theorem raiseRestart_sel (d : Nat) (r : RestartRec) (who : Waiter) : (s.raiseRestart d r who).1.sel = s.sel := by
  rw [raiseRestart]
  split
  next t seq h => exact sel_of_fst (s.recordFault_sel d r) h
  next t h => exact (modDie_sel t d _).trans (sel_of_fst (s.recordFault_sel d r) h)

/-! ### Fences (R289) -/

@[simp] theorem fenceBack_sel (bid t e : Nat) : (s.fenceBack bid t e).sel = s.sel := by
  rw [fenceBack]
  split
  · exact foldl_sel _ (fun u l => u.writeBack_sel _ l 256) _
  · rfl

theorem completeFence_sel {s u : State} {bid t e : Nat} (h : s.completeFence bid t e = some u) : u.sel = s.sel := by
  rw [completeFence] at h
  dsimp only at h
  split at h
  · cases h
  · cases h
    rw [modBlk_sel]
    split <;> simp [acquirePoint]

/-- Lanes that are fenced before a step are the ones that issue. -/
theorem fenceFirst_sel {s u : State} {bid m : Nat} {ts : List Nat} (h : s.fenceFirst bid ts m = some u) : u.sel = s.sel := by
  have hfold (l : List Nat) (o : Option State) (ho : ∀ v ∈ o, v.sel = s.sel) :
      ∀ v ∈ l.foldl (fun (o : Option State) t => o.bind fun s => s.completeFence bid t (max ((s.blk bid).thr t).h m)) o, v.sel = s.sel := by
    induction l generalizing o with
    | nil => exact ho
    | cons t l ih =>
      refine ih _ fun v hv => ?_
      obtain ⟨u, hu, hv⟩ := Option.bind_eq_some_iff.1 hv
      exact (completeFence_sel hv).trans (ho u hu)
  exact hfold ts (some s) (fun v hv => by cases hv; rfl) u h

/-! ### Accesses of engines (R297, R413) -/

@[simp] theorem engStop_sel (w : Who) (acc va : Nat) (x : Stop) : (s.engStop w acc va x).1.sel = s.sel := by
  unfold engStop
  split
  · split <;> rfl
  · rfl

@[simp] theorem engPage_sel (w : Who) (va n : Nat) (acc : Access) : (s.engPage w va n acc).1.sel = s.sel := by
  rw [engPage]
  dsimp only
  split
  · rfl
  · split
    · exact (engStop_sel _ w _ va _).trans (sel_of_fst (s.translate_sel w va n acc false) ‹_›)
    · exact sel_of_fst (s.translate_sel w va n acc false) ‹_›

@[simp] theorem engReadPage_sel (w : Who) (p : Page) (va n : Nat) : (s.engReadPage w p va n).1.sel = s.sel := by
  have hload {t : State} {y : Except Stop (List Byte)} (h : s.loadAt w p (p.pa + (va - p.va)) n = (t, y)) : t.sel = s.sel :=
    sel_of_fst (s.loadAt_sel w p _ n) h
  rw [engReadPage]
  dsimp only
  split
  · exact (countPeer_sel _ w p va).trans (hload ‹_›)
  · split <;> exact hload ‹_›
  · exact (engStop_sel _ w 0 va _).trans (hload ‹_›)

@[simp] theorem engReadPart_sel (w : Who) (va n : Nat) : (s.engReadPart w va n).1.sel = s.sel := by
  rw [engReadPart]
  split
  · exact sel_of_fst (s.engPage_sel w va n .read) ‹_›
  · exact (engReadPage_sel _ w _ va n).trans (sel_of_fst (s.engPage_sel w va n .read) ‹_›)

@[simp] theorem engWaits_sel (x : EngStop) : (s.engWaits x).sel = s.sel := s.closeAnswers_sel _

@[simp] theorem engRead_sel (w : Who) (ps : List (Nat × Nat)) : (s.engRead w ps).1.sel = s.sel := by
  induction ps generalizing s with
  | nil => rfl
  | cons p ps ih =>
    rw [engRead]
    split
    · exact (engWaits_sel _ _).trans (sel_of_fst (s.engReadPart_sel w p.1 p.2) ‹_›)
    next t bs hpart =>
      have ht : t.sel = s.sel := sel_of_fst (s.engReadPart_sel w p.1 p.2) hpart
      split <;> exact (sel_of_fst (ih t) ‹_›).trans ht

@[simp] theorem engCanWrite_sel (w : Who) (bad : Bool) (ps : List (Nat × Nat)) : (s.engCanWrite w bad ps).1.sel = s.sel := by
  induction ps generalizing s with
  | nil => rfl
  | cons p ps ih =>
    rw [engCanWrite]
    split
    · exact (engWaits_sel _ _).trans (sel_of_fst (s.engPage_sel w p.1 p.2 .write) ‹_›)
    next t page hpage =>
      have ht : t.sel = s.sel := sel_of_fst (s.engPage_sel w p.1 p.2 .write) hpage
      dsimp only
      split
      · rw [engWaits_sel, engStop_sel, askPeer_sel, ht]
      · exact (ih t).trans ht

@[simp] theorem engStorePage_sel (w : Who) (p : Page) (va : Nat) (bs : List EByte) (writer : List (Nat × Nat)) :
    (s.engStorePage w p va bs writer).1.sel = s.sel := by
  have hstore {t : State} {y : Option Stop} (h : s.storeAt w p (p.pa + (va - p.va)) (bs.map (·.1)) writer = (t, y)) : t.sel = s.sel :=
    sel_of_fst (s.storeAt_sel w p _ _ writer) h
  rw [engStorePage]
  dsimp only
  split
  · exact hstore ‹_›
  next t ht =>
    split
    · simp only [dropL2_sel, poisonHome_sel, writeBack_sel]
      split <;> simp [hstore ht]
    · simp [hstore ht]

@[simp] theorem engWritePart_sel (w : Who) (bid va : Nat) (bs : List EByte) : (s.engWritePart w bid va bs).sel = s.sel := by
  rw [engWritePart]
  split
  · exact sel_of_fst (s.engPage_sel w va bs.length .write) ‹_›
  next t p hpage =>
    have ht : t.sel = s.sel := sel_of_fst (s.engPage_sel w va bs.length .write) hpage
    split
    next u x hstore => exact (sel_of_fst (t.engStorePage_sel w p va bs _) hstore).trans ht
    next u hstore =>
      have hu : u.sel = s.sel := (sel_of_fst (t.engStorePage_sel w p va bs _) hstore).trans ht
      split
      · rw [l1Drop_sel, hu]
      · rw [l1Update_sel, hu]

@[simp] theorem engWriteParts_sel (w : Who) (bid : Nat) (ps : List (Nat × Nat)) (bs : List EByte) :
    (s.engWriteParts w bid ps bs).sel = s.sel := by
  induction ps generalizing s bs with
  | nil => rfl
  | cons p ps ih => exact (ih _ _).trans (s.engWritePart_sel w bid p.1 _)

@[simp] theorem engWrite_sel (w : Who) (bid va : Nat) (bs : List EByte) : (s.engWrite w bid va bs).1.sel = s.sel := by
  have hcan {t : State} {y : Option EngStop} (h : s.engCanWrite w (bs.any (·.2)) (sectorParts va bs.length) = (t, y)) : t.sel = s.sel :=
    sel_of_fst (s.engCanWrite_sel w _ _) h
  rw [engWrite]
  split
  · exact hcan ‹_›
  · exact (engWriteParts_sel _ w bid _ bs).trans (hcan ‹_›)

/-! ### Stores of engines that act for no block (R273, R315, R333) -/

theorem storeTry_sel (d : Nat) (acc : State × List EngStore) (x : EngStore) : (storeTry d acc x).1.sel = acc.1.sel := by
  have hwrite {t : State} {y : Option EngStop} (h : acc.1.engWrite x.who 0 x.va (x.bytes.map fun b => (b, false)) = (t, y)) :
      t.sel = acc.1.sel := sel_of_fst (acc.1.engWrite_sel x.who 0 x.va _) h
  rw [storeTry]
  split
  · rfl
  · split
    · exact hwrite ‹_›
    · exact hwrite ‹_›
    · exact hwrite ‹_›
    · exact (raiseRestart_sel _ d _ _).trans (hwrite ‹_›)

@[simp] theorem runStores_sel (d : Nat) : (s.runStores d).sel = s.sel := by
  have hfold (l : List EngStore) (acc : State × List EngStore) : (l.foldl (storeTry d) acc).1.sel = acc.1.sel := by
    induction l generalizing acc with
    | nil => rfl
    | cons x l ih => exact (ih _).trans (storeTry_sel d acc x)
  rw [runStores]
  split
  · rfl
  · exact hfold _ (s, [])

@[simp] theorem looseWrite_sel (d key : Nat) (w : Who) (va : Nat) (bs : List Byte) : (s.looseWrite d key w va bs).sel = s.sel :=
  runStores_sel _ d

@[simp] theorem exitStatus_sel (d e : Nat) : (s.exitStatus d e).sel = s.sel := s.looseWrite_sel d _ _ _ _

@[simp] theorem modExit_sel (d e : Nat) (f : ExitList → ExitList) : (s.modExit d e f).sel = s.sel := rfl

/-! ### Packets and their headers (R318, R324) -/

@[simp] theorem readHeader_sel (w : Who) (p : Nat) : (s.readHeader w p).1.sel = s.sel := by
  rw [readHeader]
  split
  · rfl
  · split <;> exact sel_of_fst (s.engRead_sel w _) ‹_›

end State
end Sys2Proof.Machine
end

section
/-! Work queues take, give and count items (R328 to R331), and `lq.stat` gives a launch queue's words (R326). -/

namespace Sys2Proof.Machine

namespace State

variable {s u : State} {x : Opnds} {i : Instr} {q k : Nat} {nw : Bool} {pd : BitVec 3}

/-! ### A push or pull that acts at its issue (R329, R330) -/

theorem wqOp_of_acts (hx : i.opnds? = some x) (h : s.ready i = true) (hexe : s.exe x.g ≠ []) (hown : s.wqOwned q = true)
    (hact : s.begun.wqAct i ((s.wqWaiters s.cd q).any fun e => e.isPush == Instr.isPush i) = .acts u) : s.wqOp i q = .next u := by
  rw [wqOp, issue_ready hx h]
  simp only [begun_exe, begun_wqOwned, begun_wqWaiters, begun_cd, hact]
  rw [if_neg (by simpa using hexe), if_neg (by simp [hown])]

theorem behind_of_wqFirst (h : s.wqFirst i q) : ((s.wqWaiters s.cd q).any fun e => e.isPush == Instr.isPush i) = false :=
  List.any_eq_false.2 fun e he => by simpa using h e he

theorem pushAct_of_closed {behind : Bool} (h : (s.wq s.cd q).closed = true) : s.pushAct x q nw behind pd = .acts (s.wqEnd x pd []) := by
  rw [pushAct]
  exact if_pos h

/-- An open queue with room takes the items of a push whose lanes can be fenced. -/
theorem pushAct_of_room (hexe : s.exe x.g ≠ []) (hopen : (s.wq s.cd q).closed = false)
    (hroom : (s.exe x.g).length ≤ 1024 - (s.wq s.cd q).items.length) (hfence : s.fenceFirst s.sel.blk (s.exe x.g) 3 = some u) :
    s.pushAct x q nw false pd = .acts ((u.modWq s.cd q fun y => { y with
      items := y.items ++ (s.exe x.g).map fun t => .ofNat 64 (s.src x.ext .b64 t x.a) }).wqEnd x pd (s.exe x.g)) := by
  rw [pushAct]
  dsimp only
  rw [if_neg (by simp [hopen]), if_neg Bool.false_ne_true, if_pos hroom, if_neg (by simpa using hexe), hfence]

/-- A queue with items enough gives a pull its oldest. -/
theorem pullAct_of_items (hexe : s.exe x.g ≠ []) (hk : k = if Dst.isScalar x.d then 1 else (s.exe x.g).length)
    (hitems : k ≤ (s.wq s.cd q).items.length) :
    let served := if Dst.isScalar x.d then s.exe x.g else (s.exe x.g).take k
    s.pullAct x q nw false pd = .acts ((((s.modWq s.cd q fun y => { y with items := y.items.drop k }).wqEnd x pd served).write x.d 2
      ((served.zip ((s.wq s.cd q).items.take k)).map fun e => (e.1, e.2.toNat))).fenceLanes s.sel.blk s.sel.act (s.exe x.g) fun _ => 3) := by
  have hpos : k ≠ 0 := by
    rw [hk]
    split
    · exact Nat.one_ne_zero
    · exact fun h => hexe (List.length_eq_zero_iff.1 h)
  rw [pullAct]
  dsimp only
  rw [← hk, if_neg Bool.false_ne_true, if_pos hitems, if_neg hpos]

/-! ### What a queue holds (R326, R331) -/

/-- The count that `wq.stat` gives is of the moment at which it acts. -/
theorem wqStat_of_owned {f : State → State} (hx : i.opnds? = some x) (h : s.ready i = true) (hexe : s.exe x.g ≠ [])
    (hown : s.wqOwned q = true) : s.wqStat i q f =
      .next (f ((s.begun.advance x.ext.bytes).write x.d 1 ((s.exe x.g).map fun t => (t, (s.wq s.cd q).items.length)))) := by
  rw [wqStat, issue_ready hx h]
  simp only [begun_exe, begun_wqOwned, begun_wq, begun_cd]
  rw [if_neg (by simpa using hexe), if_neg (by simp [hown])]

/-- `lq.stat` names the block's own queue, one that does not exist, or another, for which a service thread may ask. -/
theorem exec_lqStat_of_lane {l : Nat} {ls : List Nat} (h : s.ready (.lqStat x) = true) (hexe : s.exe x.g = l :: ls) :
    let n := s.src x.ext .b32 l x.a
    let give (v : Nat) : State := (s.begun.advance x.ext.bytes).write x.d 4 [(l, v)]
    exec (.lqStat x) s = .next (if n = 0xFFFFFFFF then give (s.lqWords (s.queueOf s.cb))
      else if 64 ≤ n then give 0
      else if n = s.queueOf s.cb || s.service (l :: ls) then give (s.lqWords n)
      else s.begun.uniformFault x { cause := 0x1A }) := by
  rw [exec_lqStat, execLqStat, issue_ready rfl h]
  simp only [begun_exe, hexe, begun_src, begun_queueOf, begun_cb, begun_lqWords, begun_service]

end State

open State

theorem workQueueItems : WorkQueueItems := by
  intro s x q nw pd hexe hown w ex
  refine ⟨fun h hclosed => ?closed, fun u h hfirst hopen hroom hfence => ?room, fun k h hfirst hk hitems => ?pull⟩
  case closed =>
    refine wqOp_of_acts rfl h hexe hown (pushAct_of_closed ?_)
    rw [begun_wq, begun_cd]
    exact hclosed
  case room =>
    have hpush := pushAct_of_room (s := s.begun) (x := x) (q := q.toNat) (nw := nw) (pd := pd) (u := u)
    simp only [begun_exe, begun_wq, begun_cd, begun_src, begun_sel] at hpush
    refine wqOp_of_acts rfl h hexe hown ?_
    rw [behind_of_wqFirst hfirst]
    exact hpush hexe hopen hroom hfence
  case pull =>
    have hpull := pullAct_of_items (s := s.begun) (x := x) (q := q.toNat) (nw := nw) (pd := pd) (k := k)
    simp only [begun_exe, begun_wq, begun_cd, begun_sel] at hpull
    refine wqOp_of_acts rfl h hexe hown ?_
    rw [behind_of_wqFirst hfirst]
    exact hpull hexe hk hitems

theorem queueStatus : QueueStatus := by
  intro s x q hexe
  refine ⟨fun hown => ⟨fun h => ?_, fun h => ?_, fun h => ?_⟩,
    fun l ls h hl => ⟨fun hself => ?_, fun hfar hother => ?_, fun hnear hmay => ?_⟩⟩
  · rw [exec_wqStatCnt, execWqStatCnt]
    exact wqStat_of_owned rfl h hexe hown
  · rw [exec_wqStatOpen, execWqStatOpen]
    exact wqStat_of_owned rfl h hexe hown
  · rw [exec_wqStatClose, execWqStatClose]
    exact wqStat_of_owned rfl h hexe hown
  · rw [exec_lqStat_of_lane h hl, if_pos hself]
  · rw [exec_lqStat_of_lane h hl, if_neg hother, if_pos hfar]
  · rw [exec_lqStat_of_lane h hl, if_neg (by omega), if_neg (by omega), if_pos (by simpa using hmay)]

/-- Settles O26: an issue that is first of its kind acts at its queue at once (`wqOp_of_acts`), and what it does there depends on the
queue's items alone. -/
theorem queueResults : Obligations.QueueResults := ⟨workQueueItems, queueStatus⟩

end Sys2Proof.Machine
end

section
/-! Exit lists (R333 to R335, R338), and the test that a token passes (R334). -/

namespace Sys2Proof.Machine

/-! ### The test of a token (R334) -/

theorem snanFlags_of_numbers {a b c : Fp.Val} (ha : a.isNan = false) (hb : b.isNan = false) (hc : c.isNan = false) :
    Fp.snanFlags [a, b, c] = 0 := by
  have hnone {v : Fp.Val} (hv : v.isNan = false) : v.snan = false := by
    cases v with
    | nan _ => cases hv
    | inf _ | zero _ | num _ _ _ => rfl
  simp [Fp.snanFlags, hnone ha, hnone hb, hnone hc]

section
variable {m l t : Nat} {a b c : Fp.Val} (ha : Fp.unpack .f32 m = a) (hb : Fp.unpack .f32 l = b) (hc : Fp.unpack .f32 t = c)
include ha hb hc

theorem exitPass_of_nan (h : a.isNan = true ∨ b.isNan = true ∨ c.isNan = true) : exitPass m l t = (false, Fp.snanFlags [a, b, c]) := by
  have hnan : (([a, b, c].any Fp.Val.isNan || (a.isInf && b.isInf && a.neg == b.neg)) = true) := by simp [h]
  rw [exitPass, ha, hb, hc]
  exact if_pos hnan

/-- A margin of equal infinities is none. -/
theorem exitPass_of_equal_infs (hna : a.isNan = false) (hnb : b.isNan = false) (hnc : c.isNan = false)
    (h : a.isInf = true ∧ b.isInf = true ∧ a.neg = b.neg) : exitPass m l t = (false, 0) := by
  obtain ⟨hia, hib, hneg⟩ := h
  rw [exitPass, ha, hb, hc, ← snanFlags_of_numbers hna hnb hnc]
  exact if_pos (by simp [hia, hib, hneg])

/-- What a token's margin decides: it is at the top of its range, at the bottom, or finite. -/
theorem exitPass_of_margin (hna : a.isNan = false) (hnb : b.isNan = false) (hnc : c.isNan = false)
    (h : ¬(a.isInf = true ∧ b.isInf = true ∧ a.neg = b.neg)) : exitPass m l t =
      if c.isInf then (c.neg || ((a.isInf && !a.neg) || (b.isInf && b.neg)), 0)
      else if (a.isInf && !a.neg) || (b.isInf && b.neg) then (true, 0)
      else if (a.isInf && a.neg) || (b.isInf && !b.neg) then (decide (c.dyadic.m ≤ 0), 0)
      else (Fp.expAtLeast (a.dyadic.add { m := -b.dyadic.m, e := b.dyadic.e }) c.dyadic, 0) := by
  rw [exitPass, ha, hb, hc]
  exact if_neg (by simpa [hna, hnb, hnc] using h)

end

theorem exitTest : ExitTest := by
  refine ⟨fun m l t => ?values, by decide +kernel, by decide +kernel⟩
  case values =>
    intro a b c r top bottom
    refine ⟨exitPass_of_nan rfl rfl rfl, fun hna hnb hnc => ⟨exitPass_of_equal_infs rfl rfl rfl hna hnb hnc, fun hdiff => ?_⟩⟩
    have hr := exitPass_of_margin (m := m.toNat) (l := l.toNat) (t := t.toNat) rfl rfl rfl hna hnb hnc hdiff
    have htop : top ↔ ((a.isInf && !a.neg) || (b.isInf && b.neg)) = true := by simp [top]
    have hbottom : bottom ↔ ((a.isInf && a.neg) || (b.isInf && !b.neg)) = true := by simp [bottom]
    have hboth : bottom → ¬top := by
      rintro (⟨ha, hneg⟩ | ⟨hb, hpos⟩) (⟨ha', hpos'⟩ | ⟨hb', hneg'⟩)
      · rw [hneg] at hpos'; cases hpos'
      · exact hdiff ⟨ha, hb', hneg.trans hneg'.symm⟩
      · exact hdiff ⟨ha', hb, hpos'.trans hpos.symm⟩
      · rw [hpos] at hneg'; cases hneg'
    refine ⟨fun hinf hneg => hr.trans ?_, fun h => hr.trans ?_, fun h hinf hneg => hr.trans ?_, fun h hfin => hr.trans ?_,
      fun hntop hnbottom hfin => hr.trans ?_⟩
    · rw [if_pos hinf, hneg, Bool.true_or]
    · rw [htop.1 h, Bool.or_true, if_pos rfl, ite_self]
    · rw [if_pos hinf, hneg, Bool.eq_false_iff.2 (mt htop.2 h), Bool.or_false]
    · rw [if_neg (Bool.eq_false_iff.1 hfin), if_neg (mt htop.2 (hboth h)), if_pos (hbottom.1 h)]
    · rw [if_neg (Bool.eq_false_iff.1 hfin), if_neg (mt htop.2 hntop), if_neg (mt hbottom.2 hnbottom)]

/-! ### The list's own instructions (R335, R338) -/

namespace State

variable {s u : State} {x : Opnds} {e : BitVec 4} {l : Nat} {ls : List Nat}

theorem gives_of_sel (hsel : u.sel = s.sel) (n v : Nat) : u.gives x n l v = ((u.advance x.ext.bytes).write x.d n [(l, v)]).irrevoke s.sel.blk := by
  rw [gives, hsel]

theorem not_any_poisoned {bs : List EByte} (h : ∀ y ∈ bs, y.2 = false) : ¬(bs.any (·.2) = true) := by
  simpa using h

section
variable (hexe : s.exe x.g = l :: ls)
include hexe

theorem bkfillReg_of_read {b : List EByte} (h : s.ready (.bkfillReg x e) = true) (hcan : canonical (.ofNat 64 (s.src x.ext .b64 l x.a)) = true)
    (hread : s.begun.engRead s.cb.who (sectorParts (s.src x.ext .b64 l x.a) 64) = (u, .ok b)) (hclean : ∀ y ∈ b, y.2 = false)
    (hdesc : exitDescOk (ofBytes (b.map (·.1))) = true) (hfree : (s.exitList s.cd e.toNat).free s.cb = true) :
    exec (.bkfillReg x e) s = .next ((u.modExit s.cd e.toNat fun _ =>
      exitOf (s.cb.hdr.domain, s.cb.asn, s.queueOf s.cb) (ofBytes (b.map (·.1)))).gives x 1 l 0) := by
  have hsel : u.sel = s.sel := (sel_of_fst (engRead_sel s.begun _ _) hread).trans s.begun_sel
  rw [exec_bkfillReg, execBkfillReg, issue_ready rfl h]
  simp only [begun_exe, hexe, begun_src, begun_cb, begun_cd, begun_queueOf, begun_exitList, begun_sel, hread]
  rw [if_neg (by simp [hcan]), if_neg (not_any_poisoned hclean), if_neg (by simp [hdesc, hfree]), gives_of_sel (s := s) (by rw [modExit_sel, hsel])]

theorem bkfill_of_performed (hmine : (s.exitList s.cd e.toNat).mine s.cb = true) (h : s.ready (.bkfill x e) = true)
    (hidle : s.engineBusy (l :: ls) = false) (hstored : s.storing s.cd e.toNat = false)
    (hperf : s.begun.lanesPerformed s.sel.blk (l :: ls) = some u) :
    let n := (s.exitList s.cd e.toNat).fill - (s.exitList s.cd e.toNat).handed
    exec (.bkfill x e) s = .next (((u.modExit s.cd e.toNat fun y => { y with
      handed := y.fill
      handedAt := if n = 0 then y.handedAt else y.handedAt ++ [(y.handed, s.hub.time)] }).exitStatus s.cd e.toNat).gives x 1 l n) := by
  have hsel : u.sel = s.sel := (lanesPerformed_sel hperf).trans s.begun_sel
  rw [exec_bkfill, execBkfill, issue_ready rfl h]
  simp only [begun_exe, hexe, begun_cb, begun_cd, begun_exitList, begun_engineBusy, begun_storing, begun_sel, begun_hub, hperf]
  rw [if_neg (by simp [hmine]), if_neg (by simp [hidle, hstored]), gives_of_sel (s := s) (by rw [exitStatus_sel, modExit_sel, hsel])]

/-- A `bkwait` that has waited gives what came of its record. -/
theorem bkwait_of_heard {n k v : Nat} (h : s.ready (.bkwait x e) = true) (hwait : (s.cb.thr l).wait = .exits n k (some v)) :
    exec (.bkwait x e) s = .next ((s.begun.advance x.ext.bytes).write x.d 1 [(l, v)]) := by
  rw [exec_bkwait, execBkwait, issue_ready rfl h]
  simp only [begun_exe, hexe, begun_cb, hwait]

section
variable (hmine : (s.exitList s.cd e.toNat).mine s.cb = true) (h : s.ready (.bkwait x e) = true) (hwait : (s.cb.thr l).wait = .none)
include hmine h hwait

theorem bkwait_of_absent (hfind : (s.exitList s.cd e.toNat).find (s.src x.ext .b32 l x.a) = none) :
    exec (.bkwait x e) s = .next ((s.begun.advance x.ext.bytes).write x.d 1 [(l, 3)]) := by
  rw [exec_bkwait, execBkwait, issue_ready rfl h]
  simp only [begun_exe, hexe, begun_cb, begun_cd, begun_exitList, begun_src, hwait, hmine, hfind, Bool.not_true, Bool.false_eq_true, if_false]

/-- A `bkwait` at its issue takes the record of its token by what has become of it: done, handed over, or filled. -/
theorem bkwait_of_found {k : Nat} (hfind : (s.exitList s.cd e.toNat).find (s.src x.ext .b32 l x.a) = some k) :
    let li := s.exitList s.cd e.toNat
    let give (v : Nat) : State := (s.begun.advance x.ext.bytes).write x.d 1 [(l, v)]
    exec (.bkwait x e) s = .next (
      if k < li.done then give (if li.failedBatches.any fun b => b.1 ≤ k && k < b.1 + b.2 then 1 else 0)
      else if k < li.handed then s.begun.hold (l :: ls) (.exits e.toNat k none)
      else give 2) := by
  rw [exec_bkwait, execBkwait, issue_ready rfl h]
  simp only [begun_exe, hexe, begun_cb, begun_cd, begun_exitList, begun_src, hwait, hmine, hfind, Bool.not_true, Bool.false_eq_true, if_false]

end

end

end State

open State

theorem exitListResults : ExitListResults := by
  intro s x e l ls hexe d li
  refine ⟨fun b h hcan u hread hclean hdesc hfree => bkfillReg_of_read hexe h hcan hread hclean hdesc hfree, fun hmine =>
    ⟨fun u h hidle hstored hperf => bkfill_of_performed hexe hmine h hidle hstored hperf, fun h => ⟨fun n k v hwait =>
      bkwait_of_heard hexe h hwait, fun hwait hfind => ?absent, fun k hwait hfind => ⟨fun hdone => ?done, fun hdone hhanded => ?unhanded⟩⟩,
    fun h => ?tokens⟩⟩
  case absent => exact bkwait_of_absent hexe hmine h hwait hfind
  case done =>
    rw [bkwait_of_found hexe hmine h hwait hfind]
    exact congrArg _ (if_pos hdone)
  case unhanded =>
    rw [bkwait_of_found hexe hmine h hwait hfind]
    exact congrArg _ ((if_neg (Nat.not_lt.2 hdone)).trans (if_neg (Nat.not_lt.2 hhanded)))
  case tokens =>
    rw [exec_conftest, execConftest, issue_ready rfl h]
    simp only [begun_exe, hexe, begun_cb, begun_cd, begun_exitList, begun_src, begun_sel]
    rw [if_neg (by rw [hmine]; exact Bool.false_ne_true)]
    simp only [List.foldl_map, List.map_map, Function.comp_def]
    rfl

/-- Settles O27: a list of the block's own does what its instruction says, and a token's test is a look at the three values
(`exitPass_of_margin`). -/
theorem exitResults : Obligations.ExitResults := ⟨exitListResults, exitTest⟩

end Sys2Proof.Machine
end

section
/-! Child launches (R318, R324, R372): the launch engine's answer to a block that launches. -/

namespace Sys2Proof.Machine

namespace State

variable (s : State)

/-! ### What acceptance leaves alone (R318) -/

@[simp] theorem modQueue_sel (q : Nat) (f : Queue → Queue) : (s.modQueue q f).sel = s.sel := rfl

@[simp] theorem accept_sel (l : Launcher) (p : Nat) (hdr : Option Nat) : (s.accept l p hdr).1.sel = s.sel := by
  have hcount (u : State) (n st : Nat) : (if st = 0 then u else u.countRefusal l.queue n st).sel = u.sel := by
    split <;> rfl
  rw [accept]
  dsimp only
  split
  · rfl
  · split
    · exact hcount _ _ _
    · split
      · exact hcount _ _ _
      · split
        · exact (modGrid_sel _ _ _).trans (hcount _ _ _)
        · exact hcount _ _ _

/-! ### The instruction (R324) -/

variable {s f u v : State} {x : Opnds} {i : Instr} {slot : Option Nat} {l : Nat} {ls : List Nat}

/-- Once its lanes are fenced and its packet and header are read, a launch has the engine's answer. -/
theorem launchOp_of_read {bs : List EByte} {hdr : Option Nat} (hx : i.opnds? = some x) (h : s.ready i = true) (hexe : s.exe x.g = l :: ls)
    (haddr : alignedAt (.ofNat 64 (s.src x.ext .b64 l x.a)) 128 = none) (hslot : ∀ k ∈ slot, (Sparse.look s.cb.slots k).isSome = true)
    (hfence : s.begun.fenceFirst s.sel.blk (l :: ls) 3 = some f)
    (hread : f.engRead s.cb.who (sectorParts (s.src x.ext .b64 l x.a) 128) = (u, .ok bs)) (hclean : ∀ b ∈ bs, b.2 = false)
    (hhdr : u.readHeader s.cb.who (ofBytes (bs.map (·.1))) = (v, .ok hdr)) :
    let r := v.accept { queue := s.queueOf s.cb, die := s.cd, who := s.cb.engine, depth := s.cb.hdr.depth + 1
                        parent := some (s.cb.grid, s.sel.blk, slot), batch := none } (ofBytes (bs.map (·.1))) hdr
    s.launchOp i slot = .next (r.1.gives x 2 l (r.2.1 + r.2.2 * 2 ^ 32)) := by
  intro r
  have hbound : (slot.filter fun n => (Sparse.look s.cb.slots n).isNone) = none := by
    rw [Option.filter_eq_none_iff]
    exact fun k hk => by simpa [Option.isSome_iff_ne_none] using hslot k hk
  have hsel : r.1.sel = s.sel := by
    rw [accept_sel, sel_of_fst (u.readHeader_sel _ _) hhdr, sel_of_fst (f.engRead_sel _ _) hread, fenceFirst_sel hfence, begun_sel]
  rw [launchOp, issue_ready hx h]
  simp only [begun_exe, hexe, begun_src, begun_cb, begun_cd, begun_sel, begun_queueOf, haddr, hbound, hfence, hread]
  rw [if_neg (not_any_poisoned hclean), hhdr, gives_of_sel (s := s) hsel]

end State

open State

/-- Settles O28: both forms hand their request to the engine in one way (`launchOp_of_read`). -/
theorem childLaunches : Obligations.ChildLaunches := by
  unfold Obligations.ChildLaunches
  intro s x n i slot l ls f u v bs hdr hi h hexe va hcan halign hlt hslot hfence hread hclean hhdr
  have haddr : alignedAt (.ofNat 64 va) 128 = none := alignedAt_eq_none hcan (by rw [BitVec.toNat_ofNat, Nat.mod_eq_of_lt hlt, halign])
  obtain ⟨rfl, rfl⟩ | ⟨rfl, rfl⟩ := hi
  · rw [exec_launch, execLaunch]
    exact launchOp_of_read rfl h hexe haddr hslot hfence hread hclean hhdr
  · rw [exec_launchArr, execLaunchArr]
    exact launchOp_of_read rfl h hexe haddr hslot hfence hread hclean hhdr

end Sys2Proof.Machine
end

section
/-! Acceptance (R318 to R320, R324): a packet's number, what refuses it, and the grid that it becomes. -/

namespace Sys2Proof.Machine

namespace State

variable (s : State)

/-! ### A queue updated -/

@[simp] theorem queue_modQueue_same (q : Nat) (f : Queue → Queue) : (s.modQueue q f).queue q = f (s.queue q) := by
  simp [queue, modQueue]

theorem queue_modQueue_ne {j q : Nat} (h : j ≠ q) (f : Queue → Queue) : (s.modQueue q f).queue j = s.queue j := by
  simp [queue, modQueue, Sparse.getOr_put_ne _ h]

theorem queue_of_hub {t u : State} (h : u.hub = t.hub) (q : Nat) : u.queue q = t.queue q := by rw [queue, queue, h]

theorem look_modGrid_ne {g k : Nat} (h : k ≠ g) (f : Grid → Grid) : Sparse.look (s.modGrid g f).grids k = Sparse.look s.grids k := by
  rw [modGrid]
  split
  · exact Sparse.look_put_ne _ h _
  · rfl

/-! ### The number and the judgement (R318) -/

variable (l : Launcher) (p : Nat) (hdr : Option Nat)

/-- The status of a request that is no skip packet, found once it has its number. -/
def verdict : Nat := (s.takeSeq l.queue).1.refusal l p hdr

/-- The request has its number, and its refusal, if it is refused, is counted. -/
def judged : State :=
  if s.verdict l p hdr = 0 then (s.takeSeq l.queue).1
  else (s.takeSeq l.queue).1.countRefusal l.queue (s.queue l.queue).seqNext.toNat (s.verdict l p hdr)

@[simp] theorem judged_grids : (s.judged l p hdr).grids = s.grids := by
  rw [judged]
  split <;> rfl

@[simp] theorem judged_gridNext : (s.judged l p hdr).gridNext = s.gridNext := by
  rw [judged]
  split <;> rfl

theorem judged_queue_ne {k : Nat} (h : k ≠ l.queue) : (s.judged l p hdr).queue k = s.queue k := by
  rw [judged]
  split <;> simp [countRefusal, setStatus, takeSeq, queue_modQueue_ne _ h]

theorem judged_queue : ∃ h, (s.judged l p hdr).queue l.queue = { s.queue l.queue with
    seqNext := if (s.queue l.queue).seqNext = 0xFFFFFFFF then 1 else (s.queue l.queue).seqNext + 1
    wrapped := (s.queue l.queue).wrapped || (s.queue l.queue).seqNext == 0xFFFFFFFF
    refused := (s.queue l.queue).refused + (if s.verdict l p hdr ≠ 0 then 1 else 0)
    lastRefusal := if s.verdict l p hdr ≠ 0 then s.verdict l p hdr else (s.queue l.queue).lastRefusal
    history := h } := by
  rw [judged]
  split
  next h => exact ⟨_, by simp [takeSeq, h]; rfl⟩
  next h => exact ⟨_, by simp [countRefusal, setStatus, takeSeq]; rfl⟩

/-! ### What acceptance answers (R318) -/

/-- The request's grid stands under the next number, and the parent of an accepted child counts it (R318, R324). -/
def registered (u : State) (l : Launcher) (g : Grid) (st : Nat) : State :=
  let v := { u with grids := Sparse.put u.grids u.gridNext g, gridNext := u.gridNext + 1 }
  match l.parent with
  | some (pg, _, _) => if st = 0 then v.modGrid pg fun g => { g with children := g.children + 1, openChildren := g.openChildren + 1 } else v
  | none => v

theorem registered_hub (u : State) (g : Grid) (st : Nat) : (u.registered l g st).hub = u.hub := by
  rw [registered]
  split
  · split
    · exact modGrid_hub _ _ _
    · rfl
  · rfl

variable {s l p hdr} {x : Nat}

theorem accept_skip (hp : field p 0 8 = 0) :
    s.accept l p hdr = ((s.takeSeq l.queue).1.setStatus l.queue (s.queue l.queue).seqNext.toNat 0, 0, (s.queue l.queue).seqNext.toNat) := by
  rw [accept]
  exact if_pos hp

theorem accept_unread (hp : field p 0 8 ≠ 0) :
    s.accept l p none = (s.judged l p none, s.verdict l p none, (s.queue l.queue).seqNext.toNat) := by
  rw [accept]
  exact if_neg hp

theorem accept_read (hp : field p 0 8 ≠ 0) : s.accept l p (some x) =
    (if s.verdict l p (some x) != 0 && !goodAddr (Header.of x).done.toNat 32 then s.judged l p (some x)
      else (s.judged l p (some x)).registered l ((s.judged l p (some x)).newGrid l p (Header.of x) (s.queue l.queue).seqNext.toNat
        (s.verdict l p (some x))) (s.verdict l p (some x)), s.verdict l p (some x), (s.queue l.queue).seqNext.toNat) := by
  have hn : (s.queue l.queue).seqNext.toNat = (s.takeSeq l.queue).2 := rfl
  unfold accept judged verdict
  rw [hn]
  generalize s.takeSeq l.queue = r
  obtain ⟨t, n⟩ := r
  dsimp only
  rw [if_neg hp]
  generalize t.refusal l p (some x) = st
  split
  · rfl
  · rw [registered]
    cases l.parent with
    | none => rfl
    | some y => cases st <;> rfl

/-- Of a request that is no skip packet, the hub knows what its queue does. -/
theorem accept_hub (hp : field p 0 8 ≠ 0) : (s.accept l p hdr).1.hub = (s.judged l p hdr).hub := by
  cases hdr with
  | none => rw [accept_unread hp]
  | some x =>
    rw [accept_read hp]
    dsimp only
    split
    · rfl
    · exact registered_hub l _ _ _

theorem accept_number : (s.accept l p hdr).2.2 = (s.queue l.queue).seqNext.toNat := by
  by_cases hp : field p 0 8 = 0
  · rw [accept_skip hp]
  · cases hdr with
    | none => rw [accept_unread hp]
    | some x => rw [accept_read hp]

/-! ### Requests that place no block (R318) -/

theorem verdict_of_bad (h : ∀ x ∈ hdr, headerBad x = true) : s.verdict l p hdr = 2 := by
  unfold verdict refusal
  refine if_pos ?_
  cases hdr with
  | none => exact Bool.or_true _
  | some x => exact (congrArg _ (h x rfl)).trans (Bool.or_true _)

theorem headerBad_of_done (h : goodAddr (Header.of x).done.toNat 32 = false) : headerBad x = true := by
  simp [headerBad, h]

/-! ### Requests that become a grid (R318, R320, R324) -/

theorem accept_recorded (hp : field p 0 8 ≠ 0) (hdone : goodAddr (Header.of x).done.toNat 32 = true) :
    s.accept l p (some x) = ((s.judged l p (some x)).registered l ((s.judged l p (some x)).newGrid l p (Header.of x)
      (s.queue l.queue).seqNext.toNat (s.verdict l p (some x))) (s.verdict l p (some x)), s.verdict l p (some x),
      (s.queue l.queue).seqNext.toNat) := by
  rw [accept_read hp, if_neg (by simp [hdone])]

variable {u : State} {g h : Grid} {st : Nat}

/-- The grid stands under its number, unless that is its parent's. -/
theorem look_registered_self (hparent : ∀ y ∈ l.parent, y.1 ≠ u.gridNext) :
    Sparse.look (u.registered l g st).grids u.gridNext = some g := by
  rw [registered]
  split
  next pg _ _ hy =>
    split
    · rw [look_modGrid_ne _ (hparent _ hy).symm]
      exact Sparse.look_put_same _ _ _
    · exact Sparse.look_put_same _ _ _
  next => exact Sparse.look_put_same _ _ _

theorem look_registered_parent {y : Nat × Nat × Option Nat} (hy : l.parent = some y) (hne : y.1 ≠ u.gridNext)
    (hh : Sparse.look u.grids y.1 = some h) : Sparse.look (u.registered l g st).grids y.1 =
      some (if st = 0 then { h with children := h.children + 1, openChildren := h.openChildren + 1 } else h) := by
  have hput : Sparse.look (Sparse.put u.grids u.gridNext g) y.1 = some h := (Sparse.look_put_ne _ hne g).trans hh
  rw [registered, hy]
  dsimp only
  split
  · exact look_modGrid_same hput _
  · exact hput

end State

open State

theorem requestCounted : RequestCounted := by
  intro s l p hdr q st r
  have hnext : q.seqNext ≠ 0 → (if q.seqNext = 0xFFFFFFFF then 1 else q.seqNext + 1) ≠ 0 := by
    intro _
    split
    · decide
    next h => exact fun h0 => h (by bv_omega)
  suffices (r.1.queue l.queue).seqNext = (if q.seqNext = 0xFFFFFFFF then 1 else q.seqNext + 1)
      ∧ (r.1.queue l.queue).refused = q.refused + (if field p 0 8 ≠ 0 ∧ st ≠ 0 then 1 else 0)
      ∧ ∀ k, k ≠ l.queue → r.1.queue k = s.queue k by
    obtain ⟨hseq, hrefused, hother⟩ := this
    exact ⟨accept_number, hseq, hseq ▸ hnext, hrefused, hother⟩
  by_cases hp : field p 0 8 = 0
  · rw [show r = _ from accept_skip hp]
    exact ⟨by simp [takeSeq, setStatus, q], by simp [takeSeq, setStatus, hp, q], fun k hk => by
      simp [takeSeq, setStatus, queue_modQueue_ne _ hk]⟩
  · obtain ⟨_, hq⟩ := s.judged_queue l p hdr
    have hr (k : Nat) : r.1.queue k = (s.judged l p hdr).queue k := queue_of_hub (accept_hub hp) k
    refine ⟨by rw [hr, hq], ?_, fun k hk => (hr k).trans (s.judged_queue_ne l p hdr hk)⟩
    rw [hr, hq]
    exact congrArg (q.refused + ·) (if_congr (by simp [hp]; rfl) rfl rfl)

theorem requestWithoutGrid : RequestWithoutGrid := by
  intro s l p
  refine ⟨fun hdr hp => ?skip, fun hp => ?unread, fun x hp hdone => ?unrecorded⟩
  case skip =>
    rw [accept_skip hp]
    exact ⟨rfl, rfl⟩
  case unread =>
    rw [accept_unread hp]
    have hst : s.verdict l p none = 2 := verdict_of_bad fun x hx => absurd hx (Option.not_mem_none x)
    exact ⟨hst, judged_grids s l p none⟩
  case unrecorded =>
    have hst : s.verdict l p (some x) = 2 := verdict_of_bad fun y hy => by
      cases hy
      exact headerBad_of_done hdone
    rw [accept_read hp, hst, if_pos (by simp [hdone])]
    exact ⟨rfl, judged_grids s l p (some x)⟩

theorem requestBecomesGrid : RequestBecomesGrid := by
  intro s l p x hp hdone st r
  have hr : r = _ := accept_recorded hp hdone
  have hnum := s.judged_gridNext l p (some x)
  obtain ⟨_, hq⟩ := s.judged_queue l p (some x)
  refine ⟨by rw [hr]; rfl, fun hparent => ?self, fun y g hy hne hg => ?parent⟩
  case self =>
    rw [← hnum] at hparent ⊢
    rw [hr]
    refine ⟨_, look_registered_self hparent, rfl, rfl, rfl, rfl, rfl, rfl, rfl, ?_, rfl, if_congr ?_ rfl rfl⟩
    · rw [newGrid, hq]
    · rw [Bool.and_eq_true, decide_eq_true_eq, Bool.not_eq_true', List.isEmpty_eq_false_iff]
      rfl
  case parent =>
    rw [hr]
    rw [← hnum] at hne
    exact look_registered_parent hy hne (by rw [judged_grids]; exact hg)

/-- Settles O29: a request has its number and its judgement (`judged`), and then, where its completion record has an address, its grid
(`registered`). -/
theorem acceptance : Obligations.Acceptance := ⟨requestCounted, requestWithoutGrid, requestBecomesGrid⟩

end Sys2Proof.Machine
end

section
/-! Launches go on by themselves (R314 to R325, R329, R336): the events of launch queues, grids, work queues and exit lists. -/

namespace Sys2Proof.Machine

namespace State

variable {s u v x : State}

/-! ### Launch queues (R314, R315) -/

theorem queueEnable_starts {q : Nat} (hq : q < 64) : ∃ t, exec (.queueEnable q) s = .next t
    ∧ (t.queue q).cfg = { (s.queue q).cfg with en := true } ∧ (t.queue q).read = 0
    ∧ (t.queue q).seqNext = 1 ∧ (t.queue q).halted = false ∧ t.blocks = s.blocks ∧ t.mem = s.mem := by
  rw [exec_queueEnable, execQueueEnable, if_neg (by omega)]
  refine ⟨_, rfl, ?_, ?_, ?_, ?_, rfl, rfl⟩ <;> rw [queue_modQueue_same]

section
variable {q w : Nat} (hen : (s.queue q).cfg.en = true) (hgo : (s.queue q).halted = false) (hfree : (s.queue q).waitSeq = none)
  (hserves : s.dieServes (s.queue q).cfg.die = true) (hcount : s.writeCount q = (u, some w))
include hen hgo hfree hserves hcount

/-- What an enabled queue makes of the write count that its engine reads. -/
theorem launchPacketTake_of_count : exec (.launchPacketTake q) s = .next
    (if w < (s.queue q).seen.toNat ∨ (s.queue q).read.toNat + 2 ^ (s.queue q).cfg.lsize < w then u.haltQueue q
      else if (s.queue q).read.toNat < w then (u.modQueue q fun k => { k with seen := .ofNat 64 w }).takePacket q else s) := by
  rw [exec_launchPacketTake, execLaunchPacketTake]
  rw [if_neg (by simp [hen, hgo, hfree, hserves]), hcount]
  dsimp only
  simp only [Bool.or_eq_true, decide_eq_true_eq]
  exact (apply_ite Host.Outcome.next _ _ _).symm

end

/-- A packet that is read, with its header, is handled, and the read count advances. -/
theorem takePacket_of_read {q : Nat} {bs : List EByte} {hdr : Option Nat} (hcancel : (s.queue q).cancelled = false)
    (hread : s.engRead (s.queueWho q)
      (sectorParts (((s.queue q).cfg.ring.toNat + 128 * ((s.queue q).read.toNat % 2 ^ (s.queue q).cfg.lsize)) % 2 ^ 64) 128) = (v, .ok bs))
    (hclean : ∀ b ∈ bs, b.2 = false) (hhdr : v.readHeader (s.queueWho q) (ofBytes (bs.map (·.1))) = (x, .ok hdr)) :
    s.takePacket q = (x.accept
      { queue := q, die := (s.queueWho q).die, who := s.queueWho q, depth := 1, parent := none, batch := none } (ofBytes (bs.map (·.1)))
      hdr).1.packetTaken q := by
  rw [takePacket]
  dsimp only
  rw [if_neg (by simp [hcancel]), hread]
  dsimp only
  rw [if_neg (not_any_poisoned hclean), hhdr]

/-! ### Grids (R319, R320, R323) -/

theorem active_of_finished {g : Grid} (h : g.finished = true) : g.state = .active := by
  simp only [Grid.finished, Bool.and_eq_true, beq_iff_eq] at h
  obtain ⟨⟨⟨hactive, -⟩, -⟩, -⟩ := h
  exact hactive

section
variable {gid : Nat} {g : Grid} (hg : Sparse.look s.grids gid = some g)
include hg

theorem dependenceResolved_of_known (hwait : g.state = .waiting) (hknown : ∀ d ∈ g.deps, (s.depStatus d).isSome = true) :
    exec (.dependenceResolved gid) s = .next (s.modGrid gid fun g' => { g' with
      state := .active, status := if (g.deps.map s.depStatus).all (· == some 0) then 0 else 5
      total := if (g.deps.map s.depStatus).all (· == some 0) then g'.total else 0 }) := by
  rw [exec_dependenceResolved, execDependenceResolved, hg]
  dsimp only
  refine if_neg ?_
  have hsome : (g.deps.map s.depStatus).any Option.isNone = false := by
    rw [List.any_map]
    exact List.any_eq_false.2 fun d hd => by simp [Option.isSome_iff_ne_none.1 (hknown d hd)]
  rw [hwait, hsome]
  decide

theorem priorityRise_of_canRise (h : s.canRise g = true) :
    exec (.priorityRise gid) s = .next (s.modGrid gid fun g => { g with rise := g.rise + 1 }) := by
  rw [exec_priorityRise, execPriorityRise, hg]
  exact congrArg _ (if_pos h)

section
variable (hfree : g.waitSeq = none) (hdie : s.dieSilent g.die = false)
include hfree hdie

theorem gridCompletion_of_finished (h : g.finished = true) : exec (.gridCompletion gid) s =
    .next (s.writeRecord gid g 8 24 fun u => u.modGrid gid fun y => { y with state := .recorded }) := by
  have hactive : (g.state == .recorded) = false := by rw [active_of_finished h]; rfl
  rw [exec_gridCompletion, execGridCompletion, hg]
  dsimp only
  rw [if_neg (by simp [hfree, hdie]), hactive, if_neg Bool.false_ne_true, if_pos h]

theorem gridCompletion_of_recorded (h : g.state = .recorded)
    (hperf : s.blocksPerformed g.die (recordWriter gid :: s.blocksOf gid) = some u) :
    exec (.gridCompletion gid) s = .next (u.writeRecord gid g 0 8 fun v => v.gridDone gid g) := by
  rw [exec_gridCompletion, execGridCompletion, hg]
  dsimp only
  rw [if_neg (by simp [hfree, hdie]), h, if_pos (beq_self_eq_true _), hperf]

end
end

/-! ### Domain handlers (R322) -/

theorem domainHandlerWrite_writes {dom : Nat} {pc : DWord} (hdom : dom < 16) (hpc : pc = 0 ∨ (canonical pc = true ∧ pc.toNat % 4 = 0)) :
    exec (.domainHandlerWrite dom pc) s = .next (s.modHub fun h => { h with dh := Sparse.putOr h.dh dom pc 0 }) := by
  rw [exec_domainHandlerWrite, execDomainHandlerWrite, if_neg]
  obtain rfl | ⟨hcan, halign⟩ := hpc
  · simp [hdom]
  · simp [hdom, hcan, halign]

/-! ### Work queues (R329) -/

section
variable {die q : Nat} {rest : List WqWaiter}

theorem wqWaitServed_of_issue {sel : Sel} {i : Instr} (hw : s.wqWaiters die q = .issue sel i :: rest)
    (hact : ({ s.modWq die q fun y => { y with waiting := rest } with sel := sel }).wqAct i false = .acts u) :
    exec (.wqWaitServed die q) s = .next { u with sel := s.sel } := by
  rw [exec_wqWaitServed, execWqWaitServed, wqServe, hw]
  dsimp only
  rw [hact]
  rfl

theorem wqWaitServed_of_batch {e : Nat} (hw : s.wqWaiters die q = .batch e :: rest)
    (hpush : (s.modWq die q fun y => { y with waiting := rest }).batchPush die e false = some u) :
    exec (.wqWaitServed die q) s = .next u := by
  rw [exec_wqWaitServed, execWqWaitServed, wqServe, hw]
  dsimp only
  rw [hpush]
  rfl

end

/-! ### Batches of an exit list (R336) -/

section
variable {die e : Nat} {b : Batch}

@[simp] theorem exitList_modExit_same (f : ExitList → ExitList) : (s.modExit die e f).exitList die e = f (s.exitList die e) := by
  simp [exitList, modExit]

/-- While nothing else waits to push, a batch's item goes to its queue at once, and its launch is made. -/
theorem batchItemGo_of_room {p : Nat} (hfirst : ∀ w ∈ s.wqWaiters die (s.exitList die e).wq, w.isPush = false)
    (hpush : s.batchPush die e false = some v) (hb : (v.exitList die e).batch = some b) (hpushed : b.pushed = true) :
    s.batchItemGo die e p = v.batchLaunch die e b p := by
  have habsent : ¬((s.wq die (s.exitList die e).wq).waiting.contains (.batch e) = true) := fun hin =>
    Bool.false_ne_true ((hfirst (.batch e) (List.mem_filter.2 ⟨List.contains_iff_mem.1 hin, rfl⟩)).symm.trans rfl)
  have hnone : (s.wqWaiters die (s.exitList die e).wq).any WqWaiter.isPush = false := List.any_eq_false.2 fun w hw => by simp [hfirst w hw]
  rw [batchItemGo]
  rw [if_neg habsent, hnone, hpush]
  dsimp only
  rw [hb]
  exact if_pos hpushed

theorem batch_of_batchDue {l : ExitList} (h : s.batchDue l = true) : l.batch = none := by
  simp only [batchDue, Bool.and_eq_true, Option.isNone_iff_eq_none] at h
  obtain ⟨⟨⟨-, hnone⟩, -⟩, -⟩ := h
  exact hnone

/-- A new batch whose packet is read has its item pushed. -/
theorem batchStep_of_read {bs : List EByte} (hb : (s.exitList die e).batch = some b) (hpkt : b.pkt = none) (hcancel : b.cancelled = false)
    (hread : s.engRead (s.exitWho die (s.exitList die e)) (sectorParts (s.exitList die e).pkt.toNat 128) = (u, .ok bs))
    (hclean : ∀ y ∈ bs, y.2 = false) (hkind : field (ofBytes (bs.map (·.1))) 0 8 = 1) :
    s.batchStep die e = (u.modBatch die e fun b => { b with pkt := some (ofBytes (bs.map (·.1))) }).batchItemGo die e (ofBytes (bs.map (·.1))) := by
  rw [batchStep]
  dsimp only
  rw [hb]
  dsimp only
  rw [hpkt]
  dsimp only
  rw [if_neg (by simp [hcancel]), hread]
  dsimp only
  rw [if_neg (by simp [not_any_poisoned hclean, hkind])]

section
variable (hdie : s.dieSilent die = false)
include hdie

theorem backfillBatchForm_of_due (hdue : s.batchDue (s.exitList die e) = true) : exec (.backfillBatchForm die e) s =
    .next ((s.modExit die e fun l => { l with batch := some l.nextBatch }).batchStep die e) := by
  rw [exec_backfillBatchForm, execBackfillBatchForm]
  rw [if_neg (by simp [hdie]), batch_of_batchDue hdue]
  exact congrArg _ (if_pos hdue)

theorem backfillBatchForm_of_pushed {p : Nat} (hb : (s.exitList die e).batch = some b) (hgrid : b.grid = none) (hfree : b.waitSeq = none)
    (hpkt : b.pkt = some p) (hpushed : b.pushed = true) : exec (.backfillBatchForm die e) s = .next (s.batchLaunch die e b p) := by
  rw [exec_backfillBatchForm, execBackfillBatchForm]
  rw [if_neg (by simp [hdie]), hb]
  dsimp only
  rw [if_neg (by simp [hgrid, hfree]), batchStep, hb]
  dsimp only
  rw [hpkt]
  exact congrArg _ (if_pos hpushed)

end

theorem batchPush_of_room {o : Nat × Nat × Nat} (hb : (s.exitList die e).batch = some b) (howner : (s.exitList die e).owner = some o)
    (hmine : (s.wq die (s.exitList die e).wq).owner = some (o.1, o.2.1)) (hopen : (s.wq die (s.exitList die e).wq).closed = false)
    (hroom : (s.wq die (s.exitList die e).wq).items.length < 1024) :
    s.batchPush die e false = some ((s.modWq die (s.exitList die e).wq fun w => { w with
      items := w.items ++ [batchItem b.first b.count e] }).modExit die e fun l => { l with batch := some { b with pushed := true } }) := by
  rw [batchPush]
  rw [hb]
  dsimp only
  rw [if_neg (by simp [hopen, howner, hmine]), if_neg (by simp [hroom])]

end

end State

open State

/-- Settles O45, event by event. -/
theorem launchEvents : Obligations.LaunchEvents := by
  unfold Obligations.LaunchEvents
  refine fun s => ⟨fun q hq => queueEnable_starts hq, fun q u w hen hgo hfree hserves hcount => ?packets, fun gid g hg => ?grids,
    fun dom pc hdom hpc => ⟨_, domainHandlerWrite_writes hdom hpc, Sparse.getOr_putOr_same _ _ _ _, rfl, rfl⟩,
    fun die q w rest u hw => ?waiting, fun die e hdie => ?batches⟩
  case packets =>
    have htake := launchPacketTake_of_count hen hgo hfree hserves hcount
    refine ⟨fun hbad => ?_, fun hseen hw => ?_, ?_⟩
    · rw [htake, if_pos hbad]
    · have hpos := Nat.two_pow_pos (s.queue q).cfg.lsize
      rw [htake, if_neg (by omega), if_neg (by omega)]
    · intro v bs x hdr hseen hnew hroom m hcancel hread hclean hhdr
      rw [htake, if_neg (by omega), if_pos hnew]
      exact congrArg _ (takePacket_of_read hcancel hread hclean hhdr)
  case grids =>
    refine ⟨fun hwait hknown => ?_, fun hrise => ?_, fun hfree hdie => ⟨gridCompletion_of_finished hg hfree hdie, fun u =>
      gridCompletion_of_recorded hg hfree hdie⟩⟩
    · refine ⟨_, dependenceResolved_of_known hg hwait hknown, modGrid_mem _ _ _, modGrid_blocks _ _ _, ?_⟩
      rw [look_modGrid_same hg, List.all_map]
      rfl
    · exact ⟨_, priorityRise_of_canRise hg hrise, look_modGrid_same hg _, modGrid_blocks _ _ _, modGrid_mem _ _ _⟩
  case waiting =>
    refine ⟨fun sel i hi hact => ?_, fun e he hpush => ?_⟩
    · subst hi
      exact wqWaitServed_of_issue hw hact
    · subst he
      exact wqWaitServed_of_batch hw hpush
  case batches =>
    refine ⟨?_, fun b p => backfillBatchForm_of_pushed hdie,
      fun b hb o howner hmine hopen hroom => batchPush_of_room hb howner hmine hopen hroom⟩
    intro hdue m u bs v b hread hclean hkind r hfirst hpush hb hpushed
    have hnew : (m.exitList die e).batch = some (s.exitList die e).nextBatch := by rw [exitList_modExit_same]
    rw [backfillBatchForm_of_due hdie hdue, batchStep_of_read hnew rfl rfl hread hclean hkind, batchItemGo_of_room hfirst hpush hb hpushed]

end Sys2Proof.Machine
end

section
/-! Leases, migration events and dies as service lanes see them (R363, R400, R401). -/

namespace Sys2Proof.Machine

namespace State

variable {s : State} {x : Opnds} {i : Instr} {l : Nat} {ls : List Nat}

section
variable (hexe : s.exe x.g = l :: ls) (hserv : s.service (l :: ls) = true)
include hexe hserv

/-! ### The lowest service lane acts -/

theorem leaseOp_of_served {f : Opnds → State → Nat → List Nat → Nat → State} (hx : i.opnds? = some x) (h : s.ready i = true) :
    s.leaseOp i f = .next (f x s.begun l (l :: ls) (s.src x.ext .b32 l x.a % 2 ^ 16)) := by
  rw [leaseOp, issue_ready hx h]
  simp only [begun_exe, hexe, begun_service, hserv, begun_src, Bool.not_true, Bool.false_eq_true, if_false]

theorem migAck_of_served {f : PeerEntry → PeerEntry} (hx : i.opnds? = some x) (h : s.ready i = true) :
    let n := s.src x.ext .b32 l x.a
    s.migAck i f = .next ((s.begun.modHub fun h => { h with peers := h.peers.map fun e => if e.mig == .posted n then f e else e }).gives x 1 l
      (if s.hub.peers.any (fun e => e.mig == .posted n) then 0 else 1)) := by
  rw [migAck, issue_ready hx h]
  simp only [begun_exe, hexe, begun_service, hserv, begun_src, begun_hub, Bool.not_true, Bool.false_eq_true, if_false]
  rfl

theorem diectl_of_served {f : Opnds → State → Nat → Nat → State} (hx : i.opnds? = some x) (h : s.ready i = true) :
    s.diectl i f = .next ((f x s.begun l (s.src x.ext .b32 l x.a)).irrevoke s.sel.blk) := by
  rw [diectl, issue_ready hx h]
  simp only [begun_exe, hexe, begun_service, hserv, begun_src, begun_sel, Bool.not_true, Bool.false_eq_true, if_false]

/-! ### The instructions (R363, R400, R401) -/

omit hexe hserv in
theorem leaseGive_begun (x : Opnds) (l : Nat) (ls : List Nat) (slot : Nat) : s.begun.leaseGive x l (l :: ls) slot =
    s.begun.gives x 4 l (if s.leaseMine slot (l :: ls) then s.borrowBits slot else 0) := by
  rw [leaseGive, begun_leaseMine, begun_borrowBits, gives]

/-- A wait whose bound is zero has ended at its issue. -/
theorem leaseQWait_of_due (h : s.ready (.leaseQWait x) = true) (hbound : x.b ≠ .null) (hzero : s.src x.ext .b32 l x.b = 0)
    (hwait : (s.cb.thr l).wait = .none) :
    let slot := s.src x.ext .b32 l x.a % 2 ^ 16
    exec (.leaseQWait x) s = .next (s.begun.gives x 4 l (if s.leaseMine slot (l :: ls) then s.borrowBits slot else 0)) := by
  have hnull : (x.b == .null) = false := by simpa using hbound
  rw [exec_leaseQWait, execLeaseQWait, leaseOp_of_served hexe hserv rfl h]
  simp only [begun_borrow, begun_src, begun_hub, begun_cb, hwait, hzero, hnull, leaseGive_begun]
  rw [if_pos (by simp)]

theorem migAckTake_of_served (h : s.ready (.migAckTake x) = true) : exec (.migAckTake x) s =
    .next ((s.begun.modHub fun h => { h with mig := h.mig.drop 1 }).gives x 8 l ((s.hub.mig.head?.map MigEvent.bits).getD 0)) := by
  rw [exec_migAckTake, execMigAckTake, issue_ready rfl h]
  simp only [begun_exe, hexe, begun_service, hserv, begun_hub, Bool.not_true, Bool.false_eq_true, if_false]
  rfl

end

end State

open State

/-- Settles O34: each form acts for the lowest of its service lanes (`leaseOp_of_served`, `migAck_of_served`, `diectl_of_served`). -/
theorem serviceResults : Obligations.ServiceResults := by
  unfold Obligations.ServiceResults
  intro s x l ls hexe hserv len slot entry
  refine ⟨fun h => ?stat, fun h hbound hzero hwait => leaseQWait_of_due hexe hserv h hbound hzero hwait, fun h => ?rel,
    migAckTake_of_served hexe hserv, ?ack, fun h => ?dieStat, fun h => ?dieReset⟩
  case stat => rw [exec_leaseQStat, execLeaseQStat, leaseOp_of_served hexe hserv rfl h, leaseGive_begun]
  case rel =>
    rw [exec_leaseQRel, execLeaseQRel, leaseOp_of_served hexe hserv rfl h]
    simp only [begun_leaseMine, begun_borrow]
    rfl
  case ack =>
    rintro i f (⟨rfl, rfl⟩ | ⟨rfl, rfl⟩) h n
    · rw [exec_migAckRearm, execMigAckRearm, migAck_of_served hexe hserv rfl h]
    · rw [exec_migAckQuiet, execMigAckQuiet, migAck_of_served hexe hserv rfl h]
  case dieStat =>
    rw [exec_diectlStat, execDiectlStat, diectl_of_served hexe hserv rfl h]
    simp only [begun_die, gives, begun_sel]
  case dieReset =>
    rw [exec_diectlReset, execDiectlReset, diectl_of_served hexe hserv rfl h]
    simp only [begun_resetAnswer]
    rfl

end Sys2Proof.Machine
end

section
/-! `snuff` moves granules between owners, and `halt` stops the package (R349, R350, R353, R366). -/

namespace Sys2Proof.Machine

namespace State

variable {s : State} {x : Opnds} {l : Nat} {ls : List Nat}

/-! ### What issues stays what it was while granules change owner (R353) -/

theorem unwatchBlock_sel (hit : Block → Nat → Nat → Nat → Bool) (s : State) (e : Nat × Block) : (unwatchBlock hit s e).sel = s.sel := by
  rw [unwatchBlock]
  dsimp only
  split
  · rfl
  · exact foldl_keeps sel _ (by exact fun _ _ => rfl) _ s

@[simp] theorem unwatch_sel (s : State) (hit : Block → Nat → Nat → Nat → Bool) : (s.unwatch hit).sel = s.sel :=
  foldl_keeps sel (unwatchBlock hit) (unwatchBlock_sel hit) s.blocks s

@[simp] theorem purge_sel (s : State) (lo n : Nat) : (s.purge lo n).sel = s.sel := by
  rw [purge_eq, modHub_sel, foldl_keeps sel _ fun u d => u.dropL2_sel d lo n, unwatch_sel]
  rfl

theorem zeroRange_sel (s : State) (lo n : Nat) : (s.zeroRange lo n).sel = s.sel := rfl

@[simp] theorem giveGranule_sel (s : State) (g code : Nat) : (s.giveGranule g code).sel = s.sel := by
  rw [giveGranule, modHub_sel, zeroRange_sel, purge_sel]

@[simp] theorem snuffRun_sel (q o n g done : Nat) (s : State) : (snuffRun q o n g done s).1.sel = s.sel := by
  induction n generalizing s g done with
  | zero => rfl
  | succ n ih =>
    rw [snuffRun]
    split
    · rfl
    · dsimp only
      split
      · rw [ih, giveGranule_sel]
      · rfl

/-! ### The instructions -/

section
variable (hexe : s.exe x.g = l :: ls)
include hexe

theorem snuff_of_idle (h : s.ready (.snuff x) = true) (hserv : s.service (l :: ls) = true) :
    let a := s.src x.ext .b64 l x.a
    let n := s.src x.ext .b32 l x.b
    let r := snuffRun s.cb.hdr.domain (s.src x.ext .b32 l x.c) n (a / 65536) 0 s.begun
    1 ≤ n → n ≤ 65536 → a % 65536 = 0 → (∀ k < n, s.granuleBusy (a / 65536 + k) = false) →
      exec (.snuff x) s = .next (r.1.gives x 2 l (r.2.1 + r.2.2 * 2 ^ 32)) := by
  intro a n r hlo hhi halign hidle
  have hbusy : ¬(((List.range n).any fun k => s.granuleBusy (a / 65536 + k)) = true) := by
    simpa [List.any_eq_true, List.mem_range] using hidle
  rw [exec_snuff, execSnuff, issue_ready rfl h]
  simp only [begun_exe, hexe, begun_src, begun_service, begun_cb, begun_granuleBusy, hserv]
  rw [if_neg (by simp; omega), if_neg (by simp), if_neg (by simpa using halign), if_neg hbusy, gives, snuffRun_sel]

theorem haltOp_of_performed {i : Instr} {p : Power} {u : State} (hx : i.opnds? = some x) (h : s.ready i = true)
    (hdom : (s.die s.cd).svcdom.getLsbD s.cb.hdr.domain = true) (hlevel : ∀ t ∈ l :: ls, (s.cb.thr t).level = 2)
    (hperf : s.begun.lanesPerformed s.sel.blk (l :: ls) = some u) :
    s.haltOp i p = .next (u.haltPackage p .halt [if p == .off then 0 else 1]) := by
  have hall : ((l :: ls).all fun t => (s.cb.thr t).level == 2) = true := List.all_eq_true.2 fun t ht => by simpa using hlevel t ht
  rw [haltOp, issue_ready hx h]
  simp only [begun_exe, hexe, begun_die, begun_cd, begun_cb, hdom, hall, begun_sel, hperf, List.isEmpty_cons, Bool.and_self, Bool.not_true,
    Bool.false_eq_true, if_false]

end

end State

open State

/-- Settles O35: a `snuff` none of whose granules is in use goes through them in order; the two forms of `halt` are one operation. -/
theorem snuffAndHalt : Obligations.SnuffAndHalt := by
  unfold Obligations.SnuffAndHalt
  intro s x l ls hexe
  refine ⟨snuff_of_idle hexe, ?_⟩
  rintro i p u (⟨rfl, rfl⟩ | ⟨rfl, rfl⟩) h hdom hlevel hperf
  · exact ⟨haltOp_of_performed hexe rfl h hdom hlevel hperf, rfl⟩
  · exact ⟨haltOp_of_performed hexe rfl h hdom hlevel hperf, rfl⟩

end Sys2Proof.Machine
end

section
/-! Keys made, imported, described and revoked under their handles (R355 to R357). -/

namespace Sys2Proof.Machine

namespace State

variable {s : State} {x : Opnds} {k : KeyUse} {l : Nat} {ls : List Nat}

/-- A draw of a key leaves the issuing block as it is. -/
theorem drawKey_cb (s : State) : s.drawKey.1.cb = s.cb :=
  foldl_keeps (fun p : State × Nat => p.1.cb) _ (by exact fun _ _ => rfl) (List.range 4) (s, 0)

section
variable (hexe : s.exe x.g = l :: ls)
include hexe

theorem keyhGen_of_barred (h : s.ready (.keyhGen x k) = true) (hbar : s.keyBar k (l :: ls) ≠ 0) :
    exec (.keyhGen x k) s = .next (s.begun.keyGive x l 0 (s.keyBar k (l :: ls))) := by
  rw [exec_keyhGen, execKeyhGen, issue_ready rfl h]
  simp only [begun_exe, hexe, begun_keyBar]

theorem keyhGen_of_free (h : s.ready (.keyhGen x k) = true) (hbar : s.keyBar k (l :: ls) = 0) :
    exec (.keyhGen x k) s = .next (s.begun.drawKey.1.keyNew x l k s.begun.drawKey.2) := by
  rw [exec_keyhGen, execKeyhGen, issue_ready rfl h]
  simp only [begun_exe, hexe, begun_keyBar, hbar]

theorem keyhImp_of_barred (h : s.ready (.keyhImp x k) = true) (hbar : s.keyBar k (l :: ls) ≠ 0) :
    exec (.keyhImp x k) s = .next (s.begun.keyGive x l 0 (s.keyBar k (l :: ls))) := by
  rw [exec_keyhImp, execKeyhImp, issue_ready rfl h]
  simp only [begun_exe, hexe, begun_keyBar]

/-- A blob that is read, opens under the domain's transport key and names the use asked for gives its key. -/
theorem keyhImp_of_unwrapped {u : State} {bs : List Byte} {sh key : Nat} (h : s.ready (.keyhImp x k) = true) (hbar : s.keyBar k (l :: ls) = 0)
    (haddr : addrCheck (.ofNat 64 (s.src x.ext .b64 l x.a)) 64 { cause := 0 } = none)
    (hread : s.begun.load s.cb.who (s.src x.ext .b64 l x.a) 64 true false = (u, .ok (bs, sh))) :
    let v := (u.countSectors s.cb.who [s.src x.ext .b64 l x.a]).modCb fun b => b.raise l sh
    ((Sparse.look v.hub.transport v.cb.hdr.domain).bind fun k => Crypto.unwrap k (bs.take 40)) = some key →
      ofBytes ((bs.drop 40).take 2) = useCode k → exec (.keyhImp x k) s = .next (v.keyNew x l k key) := by
  intro v hkey huse
  rw [exec_keyhImp, execKeyhImp, issue_ready rfl h]
  simp only [begun_exe, hexe, begun_keyBar, hbar, begun_src, begun_cb, haddr, hread]
  rw [hkey]
  dsimp only
  rw [if_neg (by simpa using huse)]

theorem keyhRev_of_dead (h : s.ready (.keyhRev x) = true) (hdead : s.keyOf (s.src x.ext .b32 l x.a) s.cb.hdr.domain none = none) :
    exec (.keyhRev x) s = .next (s.begun.keyGive x l 0 3) := by
  rw [exec_keyhRev, execKeyhRev, issue_ready rfl h]
  simp only [begun_exe, hexe, begun_src, begun_cb, begun_keyOf, hdead]

theorem keyhQry_of_dead (h : s.ready (.keyhQry x) = true) (hdead : s.keyOf (s.src x.ext .b32 l x.a) s.cb.hdr.domain none = none) :
    exec (.keyhQry x) s = .next (s.begun.keyGive x l 0 3) := by
  rw [exec_keyhQry, execKeyhQry, issue_ready rfl h]
  simp only [begun_exe, hexe, begun_src, begun_cb, begun_keyOf, hdead]

section
variable {y : KeySlot} (hlive : s.keyOf (s.src x.ext .b32 l x.a) s.cb.hdr.domain none = some y)
include hlive

theorem keyhRev_of_idle (h : s.ready (.keyhRev x) = true) (hidle : s.keyInUse (s.src x.ext .b32 l x.a) = false) :
    exec (.keyhRev x) s = .next ((s.begun.revokeKey (s.src x.ext .b32 l x.a)).keyGive x l 0 0) := by
  rw [exec_keyhRev, execKeyhRev, issue_ready rfl h]
  simp only [begun_exe, hexe, begun_src, begun_cb, begun_keyOf, hlive, begun_keyInUse, hidle, Bool.false_eq_true, if_false]

theorem keyhQry_of_live (h : s.ready (.keyhQry x) = true) :
    exec (.keyhQry x) s = .next (s.begun.keyGive x l (s.src x.ext .b32 l x.a) (y.use * 2 ^ 16)) := by
  rw [exec_keyhQry, execKeyhQry, issue_ready rfl h]
  simp only [begun_exe, hexe, begun_src, begun_cb, begun_keyOf, hlive]

end

end

end State

open State

/-- Settles O37, by what stands before a new key, and by whether a handle is live. -/
theorem keyResults : Obligations.KeyResults := by
  unfold Obligations.KeyResults
  intro s x l ls hexe dom pair made
  refine ⟨fun k h => ?gen, fun k h hbar => keyhImp_of_barred hexe h hbar,
    fun k u bs sh key h hbar haddr hread => keyhImp_of_unwrapped hexe h hbar haddr hread, fun hdead => ?dead, fun y hlive => ?live⟩
  case gen =>
    split
    next hbar =>
      rw [keyhGen_of_free hexe h hbar, keyNew, drawKey_cb, begun_cb]
      rfl
    next hbar => exact keyhGen_of_barred hexe h hbar
  case dead => exact ⟨fun h => keyhRev_of_dead hexe h hdead, fun h => keyhQry_of_dead hexe h hdead⟩
  case live => exact ⟨fun h hidle => keyhRev_of_idle hexe hlive h hidle, fun h => keyhQry_of_live hexe hlive h⟩

end Sys2Proof.Machine
end

section
/-! Packets released in the order of their numbers (R389), the election (R402, R403), and the drain of a dead link (R405, R406). -/

namespace Sys2Proof.Machine

/-! ### The reorder buffer (R389) -/

/-- A packet that bears the next number is released, where no other waits. -/
theorem Reorder.run_of_next {r : Reorder} (hheld : r.held = []) (p : Packet) :
    Reorder.run (r.held.length + 1) { r with held := r.held ++ [(r.next, p)] } = ({ next := r.next + 1, held := [] }, [p]) := by
  simp [Reorder.run, hheld]

/-- Where no packet bears the next number, none is released. -/
theorem Reorder.run_of_none {r : Reorder} (h : ∀ e ∈ r.held, e.1 ≠ r.next) (n : Nat) : Reorder.run n r = (r, []) := by
  have hnone : (r.held.find? fun e => e.1 == r.next) = none := List.find?_eq_none.2 fun e he => by simpa using h e he
  cases n with
  | zero => rfl
  | succ n => rw [Reorder.run, hnone]

namespace State

variable {s : State}

section
variable {src : Nat} {r : Reorder} {seq : BitVec 24} (hsrc : Sparse.look s.hub.reorder src = some r)
include hsrc

theorem reorderRelease_of_dropped (p : Packet) (h : 2 ^ 23 ≤ (seq - r.next).toNat ∨ (∃ e ∈ r.held, e.1 = seq)
    ∨ 4096 ≤ (s.hub.reorder.map fun e => e.2.held.length).sum) : exec (.reorderRelease src ⟨seq, p⟩) s = .next s := by
  rw [exec_reorderRelease, execReorderRelease, hsrc]
  exact if_pos (by simpa [or_assoc] using h)

/-- A packet that is taken: what is released, and what the buffer then holds. -/
theorem reorderRelease_of_taken (p : Packet) (hahead : (seq - r.next).toNat < 2 ^ 23) (hfresh : ∀ e ∈ r.held, e.1 ≠ seq)
    (hroom : (s.hub.reorder.map fun e => e.2.held.length).sum < 4096) :
    let t := Reorder.run (r.held.length + 1) { r with held := r.held ++ [(seq, p)] }
    exec (.reorderRelease src ⟨seq, p⟩) s =
      .next ({ s with agenda := t.2.map Move.packet ++ s.agenda }.modHub fun h => { h with reorder := Sparse.put h.reorder src t.1 }) := by
  rw [exec_reorderRelease, execReorderRelease, hsrc]
  refine if_neg ?_
  simp only [Option.getD_some, Bool.or_eq_true, List.any_eq_true, decide_eq_true_eq, beq_iff_eq, not_or, not_exists, not_and]
  exact ⟨⟨Nat.not_le.2 hahead, hfresh⟩, Nat.not_le.2 hroom⟩

end

/-! ### The election (R402, R403) -/

theorem rankLt_term_le {a b : Rank} (h : rankLt a b = true) : a.term ≤ b.term := by
  simp only [rankLt, Bool.or_eq_true, Bool.and_eq_true, decide_eq_true_eq, beq_iff_eq] at h
  rcases h with hlt | ⟨heq, -⟩
  · exact BitVec.le_of_lt hlt
  · exact heq ▸ BitVec.le_refl _

theorem adopt_term {h : Hub} {t : Word} (hle : h.term ≤ t) : (h.adopt t).term = t := by
  rw [Hub.adopt]
  split
  next => rfl
  next hlt => exact BitVec.le_antisymm hle (BitVec.not_lt.1 hlt)

theorem adopt_time (h : Hub) (t : Word) : (h.adopt t).time = h.time := by
  rw [Hub.adopt]; split <;> rfl

/-- A higher rank makes the package a follower in its term. -/
theorem stepDown_of_rankLt {h : Hub} {r : Rank} (hr : rankLt h.ownRank r = true) :
    (h.stepDown r).role = .follower ∧ (h.stepDown r).term = r.term ∧ (h.stepDown r).time = h.time := by
  rw [Hub.stepDown, if_pos hr]
  exact ⟨rfl, adopt_term (rankLt_term_le hr), adopt_time h r.term⟩

theorem heartbeatReceived_of_rankLt {r : Rank} (hr : rankLt s.hub.ownRank r = true) (n : Nat) :
    ∃ t, exec (.heartbeatReceived r n) s = .next t ∧ t.hub.role = .follower ∧ t.hub.term = r.term ∧ t.hub.heard = s.hub.time ∧ t.mem = s.mem := by
  obtain ⟨hrole, hterm, htime⟩ := stepDown_of_rankLt hr
  refine ⟨_, rfl, ?_⟩
  rw [modHub_hub, if_pos (by rw [hrole]; rfl)]
  exact ⟨hrole, hterm, htime, rfl⟩

/-- What the count of votes leaves alone: all but the role, the rank, the last heartbeat, and what is sent besides. -/
theorem countVotes_keeps (s : State) : s.countVotes.hub.term = s.hub.term ∧ s.countVotes.hub.vote = s.hub.vote ∧ s.countVotes.mem = s.mem
    ∧ ∀ m ∈ s.hub.sent, m ∈ s.countVotes.hub.sent := by
  rw [countVotes]
  split
  · exact ⟨rfl, rfl, rfl, fun _ => List.mem_append_left _⟩
  · exact ⟨rfl, rfl, rfl, fun _ => id⟩

theorem standCount_stands (s : State) : s.standCount.hub.term = s.hub.term + 1 ∧ s.standCount.hub.vote = some s.hub.pkgId
    ∧ (.voteRequest s.stand.hub.ownRank) ∈ s.standCount.hub.sent ∧ s.standCount.mem = s.mem := by
  obtain ⟨hterm, hvote, hmem, hsent⟩ := s.stand.countVotes_keeps
  exact ⟨hterm, hvote, hsent _ (List.mem_append_right _ (List.mem_singleton.2 rfl)), hmem⟩

theorem voteRequest_of_later {r : Rank} {n : Nat} (hterm : s.hub.term < r.term) (hn : n ∈ s.hub.roster) :
    ∃ t, exec (.voteRequest r n) s = .next t ∧ t.hub.term = r.term ∧ t.hub.vote = some n
      ∧ t.hub.sent = s.hub.sent ++ [.voteGrant r.term n] ∧ t.mem = s.mem := by
  have hadopt : s.hub.adopt r.term = { s.hub with term := r.term, vote := none, votes := [] } := if_pos hterm
  refine ⟨((s.modHub fun h => h.adopt r.term).modHub fun h => { h with vote := some n }).send (.voteGrant (s.hub.adopt r.term).term n), ?_, ?_⟩
  · rw [exec_voteRequest, execVoteRequest]
    exact if_pos (by simp [hadopt, hn])
  · simp only [send, modHub_hub, modHub_mem, hadopt, and_self]

/-! ### Kernels (R404) -/

theorem chunkReceived_of_ok {k : Staging} {i : Nat} {bs : List Byte} (hstaging : s.hub.staging = some k) (hok : chunkOk k.manifest i bs = true)
    (hlen : bs.length ≤ chunkSize k.manifest) :
    let k' : Staging := { k with got := Sparse.put k.got i bs.length }
    let u := s.homeWrite (k.base + i * chunkSize k.manifest) bs false
    exec (.chunkReceived i bs) s = .next (if k'.full = false then u.modHub fun h => { h with staging := some k' }
      else if u.hub.running = none then u.activate k'
      else u.modHub fun h => { h with staging := some k', ready := true }) := by
  intro k' u
  rw [exec_chunkReceived, execChunkReceived, hstaging]
  dsimp only
  rw [if_neg (by simp [hok, hlen])]
  simp only [Bool.not_eq_true', Option.isNone_iff_eq_none, apply_ite Host.Outcome.next]
  rfl

/-! ### Links and drains (R405, R406) -/

/-- What the requests sent again leave alone. -/
theorem forgetLost_keeps (s : State) :
    s.forgetLost.hub.links = s.hub.links ∧ s.forgetLost.hub.ports = s.hub.ports ∧ s.forgetLost.mem = s.mem ∧ s.forgetLost.blocks = s.blocks := by
  have h := foldl_keeps (fun s : State => (s.hub.links, s.hub.ports, s.mem, s.blocks)) resend (by exact fun _ _ => rfl)
    (s.hub.reqs.filter fun r => (r.lost && (s.borrow r.slot).state != 4) && r.what.isWrite)
    (s.modHub fun h => { h with reqs := h.reqs.filter fun r => !(r.lost && (s.borrow r.slot).state != 4) || r.what.isWrite })
  simp only [Prod.mk.injEq] at h
  exact h

theorem linkStateUpdate_of_newer {a b : Nat} {seq : Word} (hnew : ∀ l ∈ s.hub.links, l.a = a → l.b = b → l.seq < seq) :
    exec (.linkStateUpdate a b true seq) s = .next (s.holdLink a b true seq).forgetLost := by
  rw [exec_linkStateUpdate, execLinkStateUpdate, if_neg, if_pos rfl]
  simp only [List.any_eq_true, Bool.and_eq_true, beq_iff_eq, decide_eq_true_eq, not_exists, not_and]
  exact fun l hl ⟨ha, hb⟩ hle => absurd (hnew l hl ha hb) (BitVec.not_lt.2 hle)

section
variable {refused : List Nat} {r : FabricReq} {l k : Nat} (hr : r.drain = some (l, k))
include hr

theorem drainReq_of_early (hk : k ≠ 0) (htime : s.hub.time < r.since + 10000) : s.drainReq refused r = s := by
  rw [drainReq, hr]
  exact if_pos (by simp [hk, htime])

theorem drainReq_of_round (hk : k < 4) (htime : k = 0 ∨ r.since + 10000 ≤ s.hub.time) : s.drainReq refused r =
    (s.modHub fun h => { h with reqs := h.reqs.map fun y =>
      if y.tag == r.tag then { r with drain := some (l, k + 1), since := s.hub.time } else y }).send (.probe r.dest (k + 1) [r.tag]) := by
  rw [drainReq, hr]
  dsimp only
  rw [if_neg (by simp; omega), if_pos hk]

section
variable (hk : 4 ≤ k) (htime : r.since + 10000 ≤ s.hub.time)
include hk htime

theorem drainReq_of_cut (hpath : s.pathLeft = false) : s.drainReq refused r =
    s.modHub fun h => { h with reqs := h.reqs.map fun y => if y.tag == r.tag then { r with drain := none, lost := true } else y } := by
  rw [drainReq, hr]
  dsimp only
  rw [if_neg (by simp; omega), if_neg (by omega), if_pos (by simp [hpath])]

theorem drainReq_of_refused (hpath : s.pathLeft = true) (htag : r.tag ∈ refused) : s.drainReq refused r = s.resend r := by
  rw [drainReq, hr]
  dsimp only
  rw [if_neg (by simp; omega), if_neg (by omega), if_neg (by simp [hpath]), if_pos (by simpa using htag)]

end
end

/-- What is sent in a row is sent, after what was sent before, and nothing else changes. -/
theorem foldl_send (ms : List Sent) (s : State) : ms.foldl send s = s.modHub fun h => { h with sent := h.sent ++ ms } := by
  induction ms generalizing s with
  | nil => simp [modHub]
  | cons m ms ih => rw [List.foldl_cons, ih]; simp [send, modHub]

/-- The tags of a probe that name a request performed for its source. -/
def probedDone (s : State) (n : Nat) (tags : List Nat) : List Nat :=
  tags.filter fun t => s.hub.performed.any fun p => p.source == n && p.tag == t && !p.refused

/-- The responses kept of the requests that a probe names. -/
def probedHeld (s : State) (n : Nat) (tags : List Nat) : List Performed :=
  s.hub.performed.filter fun p => p.source == n && (s.probedDone n tags).contains p.tag && decide (s.hub.time ≤ p.time + 50000)

/-- The requests that a probe of round 4 refuses for good. -/
def probedRefused (s : State) (n : Nat) (tags : List Nat) : List Performed :=
  ((tags.filter fun t => !(s.probedDone n tags).contains t).filter fun t =>
    !(s.hub.performed.any fun p => p.source == n && p.tag == t)).map fun t =>
      { source := n, tag := t, time := s.hub.time, refused := true, answer := [] }

theorem drainProbe_of_last (s : State) (n : Nat) (tags : List Nat) : ∃ t, exec (.drainProbe n 4 tags) s = .next t ∧ t.mem = s.mem
    ∧ t.hub.performed = s.hub.performed ++ s.probedRefused n tags ∧ ∀ y ∈ (s.probedHeld n tags).flatMap (·.answer), y ∈ t.hub.sent := by
  refine ⟨_, rfl, ?_⟩
  rw [foldl_send]
  exact ⟨rfl, rfl, fun y hy => List.mem_append_left _ (List.mem_append_right _ hy)⟩

/-- Every request that a probe of round 4 names stands as performed or as refused. -/
theorem probed_stands {n : Nat} {tags : List Nat} {g : Nat} (hg : g ∈ tags) :
    ∃ p ∈ s.hub.performed ++ s.probedRefused n tags, p.source = n ∧ p.tag = g := by
  by_cases hknown : ∃ p ∈ s.hub.performed, p.source = n ∧ p.tag = g
  · obtain ⟨p, hp, hpg⟩ := hknown
    exact ⟨p, List.mem_append_left _ hp, hpg⟩
  · refine ⟨{ source := n, tag := g, time := s.hub.time, refused := true, answer := [] }, List.mem_append_right _ (List.mem_map.2 ⟨g, ?_, rfl⟩), rfl, rfl⟩
    have hnone : ∀ p ∈ s.hub.performed, p.source = n → ¬p.tag = g := fun p hp hs ht => hknown ⟨p, hp, hs, ht⟩
    simp only [List.mem_filter, probedDone, Bool.not_eq_true', List.contains_eq_mem, decide_eq_false_iff_not, List.any_eq_false, Bool.and_eq_true,
      beq_iff_eq, not_and, List.any_eq_true, not_exists]
    exact ⟨⟨hg, fun _ p hp hs => absurd hs.2 (hnone p hp hs.1)⟩, fun p hp hs => hnone p hp hs⟩

theorem mem_probedHeld {n : Nat} {tags : List Nat} {p : Performed} (hp : p ∈ s.hub.performed) (hsource : p.source = n) (htag : p.tag ∈ tags)
    (hdone : p.refused = false) (htime : s.hub.time ≤ p.time + 50000) : p ∈ s.probedHeld n tags := by
  have hmem : p.tag ∈ s.probedDone n tags := List.mem_filter.2 ⟨htag, List.any_eq_true.2 ⟨p, hp, by simp [hsource, hdone]⟩⟩
  exact List.mem_filter.2 ⟨hp, by simp [hsource, hmem, htime]⟩

end State

open State

/-- The first part of O51: what the pod's messages bring about. -/
theorem podMessages : PodMessages := by
  unfold PodMessages
  intro s h
  refine ⟨fun src r p hsrc => ⟨fun hheld hroom => ?next, fun seq => reorderRelease_of_dropped hsrc p, fun seq hseq hahead hfresh hroom => ?later⟩,
    fun hrole htime => ?beat, fun r n hr => ⟨heartbeatReceived_of_rankLt hr n, ?refusal⟩, ⟨fun hrole hprio htime => ?follower, fun hrole htime => ?candidate,
      s.standCount_stands⟩, fun r n => voteRequest_of_later, fun n hrole hn => ?grant, fun m => ⟨fun hm => ?staged, fun g hok hnew hfree => ?manifest⟩,
    fun k i bs => chunkReceived_of_ok, fun n => ⟨?bitmap, fun got hrole => ?missing⟩, fun a b seq hnew => ?link, fun link refused => rfl,
    fun refused r l k hr => ⟨fun hk htime => drainReq_of_round hr hk htime,
      fun hk htime => ⟨fun hpath => drainReq_of_cut hr hk htime hpath, fun hpath => drainReq_of_refused hr hk htime hpath⟩,
      fun hk htime => drainReq_of_early hr hk htime⟩, fun n tags => ?probe⟩
  case next =>
    have htaken := reorderRelease_of_taken hsrc p (seq := r.next) (by simp) (by simp [hheld]) hroom
    rw [Reorder.run_of_next hheld] at htaken
    exact ⟨_, htaken, rfl, rfl, Sparse.look_put_same _ _ _⟩
  case later =>
    have htaken := reorderRelease_of_taken hsrc p hahead (fun e he => (hfresh e he).1) hroom
    have hnone : ∀ e ∈ r.held ++ [(seq, p)], e.1 ≠ r.next := fun e he => by
      rcases List.mem_append.1 he with he | he
      · exact (hfresh e he).2
      · rw [List.mem_singleton.1 he]; exact hseq
    rw [Reorder.run_of_none (r := { r with held := r.held ++ [(seq, p)] }) hnone] at htaken
    exact ⟨_, htaken, rfl, rfl, Sparse.look_put_same _ _ _⟩
  case beat =>
    refine ⟨(s.modHub fun h => { h with heard := h.time }).send (.heartbeat s.hub.ownRank), ?_, rfl, rfl⟩
    rw [exec_heartbeatSend, execHeartbeatSend]
    exact if_pos (by simp only [Bool.and_eq_true, beq_iff_eq, decide_eq_true_eq]; exact ⟨hrole, htime⟩)
  case refusal =>
    obtain ⟨hrole, hterm, -⟩ := stepDown_of_rankLt hr
    exact ⟨_, rfl, hrole, hterm, rfl⟩
  case follower =>
    rw [exec_electionTimeout, execElectionTimeout]
    exact if_pos (by simpa using ⟨⟨hrole, hprio⟩, htime⟩)
  case candidate =>
    have hdue : exec .candidateTimeout s =
        .next (if s.hub.prio != 0 then s.standCount else s.modHub fun h => { h with role := .follower, votes := [], heard := h.time }) := by
      rw [exec_candidateTimeout, execCandidateTimeout]
      exact if_pos (by simpa using ⟨hrole, htime⟩)
    exact ⟨fun hprio => by rw [hdue, if_pos (by simpa using hprio)], fun hprio => by rw [hdue, if_neg (by simpa using hprio)]⟩
  case grant =>
    rw [exec_voteGrant, execVoteGrant]
    exact if_pos (by simpa using ⟨⟨hrole, rfl⟩, hn⟩)
  case staged =>
    rw [exec_manifestReceived, execManifestReceived]
    refine if_pos ?_
    simpa [Option.any_eq_true] using hm
  case manifest =>
    have hother : ¬s.hub.staging.any (fun k => k.manifest == m) = true := by simpa [Option.any_eq_true] using hnew
    rw [exec_manifestReceived, execManifestReceived, if_neg (by simp [hok, hother])]
    dsimp only
    rw [hfree]
  case bitmap =>
    rw [exec_chunkBitmapRead, execChunkBitmapRead]
    dsimp only
    cases s.hub.staging <;> rfl
  case missing =>
    rw [exec_chunkBitmapRead, execChunkBitmapRead]
    exact congrArg _ (if_pos (by simpa using hrole))
  case link =>
    obtain ⟨hlinks, -, hmem, hblocks⟩ := forgetLost_keeps (s.holdLink a b true seq)
    exact ⟨_, linkStateUpdate_of_newer hnew, by rw [hlinks]; rfl, hmem, hblocks⟩
  case probe =>
    obtain ⟨t, hexec, hmem, hperf, hsent⟩ := s.drainProbe_of_last n tags
    exact ⟨t, _, hexec, hperf, hmem, fun g hg => hperf ▸ probed_stands hg, fun p hp hsource htag hdone htime y hy =>
      hsent y (List.mem_flatMap.2 ⟨p, mem_probedHeld hp hsource htag hdone htime, hy⟩)⟩

/-- The second part of O51: a write of the configuration space changes the register that it names, and P's writes of memory are those of an
agent. -/
theorem configurationWrites : ConfigurationWrites := by
  unfold ConfigurationWrites
  refine fun s => ⟨fun p v n => ⟨rfl, rfl, rfl⟩, fun d m hd => ?svcdom, fun q c hq => ?queue, fun d q o hd hq => ?workQueue,
    fun c a n hc => ?journal, fun pa b hreach => ⟨?coherent, ?atHome⟩, fun pa b c hreach => ?barred, fun f c => ?command, fun r => rfl,
    fun d k hd => ?transport⟩
  case svcdom => exact congrArg _ (if_pos hd)
  case queue => exact congrArg _ (if_pos hq)
  case workQueue => exact congrArg _ (if_pos (by simp [hd, hq]))
  case journal => exact congrArg _ (if_pos hc)
  case coherent => exact congrArg _ ((if_neg (by simp [hreach])).trans (if_pos rfl))
  case atHome => exact congrArg _ ((if_neg (by simp [hreach])).trans (if_neg Bool.false_ne_true))
  case barred => exact congrArg _ (if_pos (by simp [hreach]))
  case command =>
    rw [exec_configWrite, execConfigWrite]
    simp only [beq_iff_eq]
  case transport => exact congrArg _ (if_pos hd)

/-- Settles O51: the two parts. -/
theorem podEvents : Obligations.PodEvents := ⟨podMessages, configurationWrites⟩

end Sys2Proof.Machine
end

section
/-! Leases at their borrower (R392 to R396), and migration events posted (R399). -/

namespace Sys2Proof.Machine

namespace State

variable {s : State}

/-! ### The borrow table (R395, R396) -/

/-- A change of an entry changes no memory. -/
theorem setBorrow_mem (s : State) (slot : Nat) (b : Borrow) : (s.setBorrow slot b).mem = s.mem := by
  rw [setBorrow]
  dsimp only
  split <;> rfl

theorem borrows_clear (s : State) (slot : Nat) : (s.setBorrow slot Borrow.empty).hub.borrows = Sparse.del s.hub.borrows slot := by
  rw [setBorrow]
  dsimp only
  split <;> rfl

theorem borrow_eq_getOr (s : State) (slot : Nat) : s.borrow slot = Sparse.getOr s.hub.borrows slot Borrow.empty := rfl

theorem borrow_clear_same (s : State) (slot : Nat) : (s.setBorrow slot Borrow.empty).borrow slot = Borrow.empty := by
  rw [borrow_eq_getOr, borrows_clear, Sparse.getOr, Sparse.look_del_same]
  rfl

theorem borrow_clear_ne {slot j : Nat} (hj : j ≠ slot) : (s.setBorrow slot Borrow.empty).borrow j = s.borrow j := by
  rw [borrow_eq_getOr, borrows_clear, Sparse.getOr, Sparse.look_del_ne _ hj]
  rfl

/-- An entry that is emptied leaves memory and the other entries as they were. -/
theorem exists_cleared {o : Host.Outcome State Fault Refusal} {slot : Nat} (ho : o = .next (s.setBorrow slot Borrow.empty)) :
    ∃ t, o = .next t ∧ t.borrow slot = Borrow.empty ∧ t.mem = s.mem ∧ ∀ j, j ≠ slot → t.borrow j = s.borrow j :=
  ⟨_, ho, s.borrow_clear_same slot, s.setBorrow_mem slot _, fun _ => borrow_clear_ne⟩

section
variable {slot : Nat}

theorem bisnpReceived_of_held (h : (s.borrow slot).state = 1) : exec (.bisnpReceived slot) s =
    .next (((s.setBorrow slot { s.borrow slot with state := 2, acked := false }).emptyLease slot).tryAck slot) := by
  rw [exec_bisnpReceived, execBisnpReceived, if_neg (by simp [h])]

theorem releaseConfirmed_of_acked (h : (s.borrow slot).state = 3) (hacked : (s.borrow slot).acked = true) :
    exec (.releaseConfirmed slot) s = .next (s.setBorrow slot Borrow.empty) := by
  rw [exec_releaseConfirmed, execReleaseConfirmed]
  exact if_neg (by simp [h, hacked])

theorem borrowEntryClear_of_lost (h : (s.borrow slot).state = 4) : exec (.borrowEntryClear slot) s = .next (s.setBorrow slot Borrow.empty) := by
  rw [exec_borrowEntryClear, execBorrowEntryClear, if_neg (by simp [h])]

/-! ### Answers for a page (R392, R393, R396) -/

section
variable {page : Nat} (hfilled : (s.borrow slot).state ≠ 0) (hkept : (s.borrow slot).state ≠ 4)
include hfilled hkept

theorem reply_of_asked (hasked : ∃ r ∈ s.hub.reqs, r.what = .page ∧ r.slot = slot ∧ r.page = page) (p : Nat) :
    exec (.peerTranslationReply slot page (s.borrow slot).inc (some p)) s = .next (if (s.borrow slot).state = 3
      then (s.endRequest slot page).tryAck slot else s.learnPage slot page (s.borrow slot).inc p) := by
  obtain ⟨r, hr, hwhat, hslot, hpage⟩ := hasked
  have hany : (s.hub.reqs.any fun r => r.what == .page && r.slot == slot && r.page == page) = true :=
    List.any_eq_true.2 ⟨r, hr, by simp [hwhat, hslot, hpage]⟩
  rw [exec_peerTranslationReply, execPeerTranslationReply]
  rw [if_neg (by simp [hfilled, hkept]), if_neg (by simp [hany])]

theorem reply_of_refused (inc : Nat) : exec (.peerTranslationReply slot page inc none) s = .next (
    if (s.borrow slot).inc < inc then s.loseLender (s.borrow slot).port
    else if inc = (s.borrow slot).inc && !((s.borrow slot).state == 3 && (s.borrow slot).acked) then s.loseBorrow slot
    else (s.endRequest slot page).tryAck slot) := by
  rw [exec_peerTranslationReply, execPeerTranslationReply]
  exact if_neg (by simp [hfilled, hkept])

end

/-- An answer that is learned stands first in the peer translation cache, and its request is outstanding no more. -/
theorem learnPage_learns (s : State) (slot page inc p : Nat) : (s.learnPage slot page inc p).mem = s.mem
    ∧ (s.learnPage slot page inc p).blocks = s.blocks
    ∧ (∃ e, (s.learnPage slot page inc p).hub.peers.head? = some e ∧ e.slot = slot ∧ e.page = page ∧ e.phys = p ∧ e.inc = inc)
    ∧ ∀ r ∈ (s.learnPage slot page inc p).hub.reqs, ¬(r.what = .page ∧ r.slot = slot ∧ r.page = page) := by
  refine ⟨rfl, rfl, ⟨_, rfl, rfl, rfl, rfl, rfl⟩, fun r hr ⟨hwhat, hslot, hpage⟩ => ?_⟩
  have hkept : r ∈ s.hub.reqs.filter fun r => !(r.what == .page && r.slot == slot && r.page == page) := hr
  simpa [hwhat, hslot, hpage] using (List.mem_filter.1 hkept).2

/-! ### Answers with data (R392 to R394) -/

section
variable {tag : Nat} {r : FabricReq}
  (hr : s.hub.reqs.find? (fun r => r.tag == tag && r.slot == slot && r.what != .page && !r.lost) = some r)
include hr

theorem dataReply_of_performed (hplain : ∀ p off step, r.what ≠ .atomic 5 p off step) (inc : Nat) :
    s.dataReply slot tag inc true = (s.endData r).tryAck slot := by
  rw [dataReply, hr]
  dsimp only
  rw [if_pos rfl]
  split
  next p off step hwhat => exact absurd hwhat (hplain p off step)
  next => rfl

theorem dataReply_of_refused (inc : Nat) : s.dataReply slot tag inc false = (
    if (s.borrow slot).inc < inc then s.loseLender (s.borrow slot).port
    else if inc = (s.borrow slot).inc && !((s.borrow slot).state == 3 && (s.borrow slot).acked) then s.loseBorrow slot
    else (s.modHub fun h => { h with reqs := h.reqs.filter fun y => y.tag != tag }).tryAck slot) := by
  rw [dataReply, hr]
  exact if_neg Bool.false_ne_true

end

end

/-! ### Migration events (R399) -/

theorem migrationEventDeferred_posts {k : Nat} {e : PeerEntry} (he : s.hub.peers[k]? = some e) (hfrozen : e.mig = .unposted)
    (hroom : s.hub.mig.length < 256) : ∃ t, exec (.migrationEventDeferred k) s = .next t
      ∧ t.hub.peers[k]? = some { e with mig := .posted s.hub.mgNext } ∧ t.mem = s.mem
      ∧ ∃ m, t.hub.mig = s.hub.mig ++ [m] ∧ m.seq = s.hub.mgNext ∧ m.slot = e.slot ∧ m.count = e.count ∧ m.dom = e.dom ∧ m.asn = e.asn := by
  rw [exec_migrationEventDeferred, execMigrationEventDeferred, he]
  dsimp only
  rw [if_neg (by simp [hfrozen, hroom])]
  refine ⟨_, rfl, ?_, rfl, _, rfl, rfl, rfl, rfl, rfl, rfl⟩
  rw [modHub_hub, getElem?_modAt, if_pos rfl, he]
  rfl

end State

open State

/-- Settles O48, event by event: a refusal is judged by the incarnation it carries (`reply_of_refused`, `dataReply_of_refused`). -/
theorem borrowerEvents : Obligations.BorrowerEvents := by
  unfold Obligations.BorrowerEvents
  refine fun s slot => ⟨bisnpReceived_of_held, fun h hacked => exists_cleared (releaseConfirmed_of_acked h hacked),
    fun h => exists_cleared (borrowEntryClear_of_lost h), fun hfilled hkept page => ⟨fun p h hasked => ?releasing, fun p h hasked => ?learned,
      fun inc hinc => ?lender, fun hlive => ?lost, fun h hacked => ?acked⟩,
    fun tag r hr => ⟨fun hplain inc => congrArg _ (dataReply_of_performed hr hplain inc), fun inc hinc => ?dataLender, fun hlive => ?dataLost⟩,
    fun port => rfl, fun k e => migrationEventDeferred_posts⟩
  case releasing => rw [reply_of_asked hfilled hkept hasked, if_pos h]
  case learned => exact ⟨_, by rw [reply_of_asked hfilled hkept hasked, if_neg h], s.learnPage_learns slot page _ p⟩
  case lender => rw [reply_of_refused hfilled hkept, if_pos hinc]
  case lost => rw [reply_of_refused hfilled hkept, if_neg (Nat.lt_irrefl _), if_pos (by simpa [imp_iff_not_or] using hlive)]
  case acked => rw [reply_of_refused hfilled hkept, if_neg (Nat.lt_irrefl _), if_neg (by simp [h, hacked])]
  case dataLender => exact congrArg _ ((dataReply_of_refused hr inc).trans (if_pos hinc))
  case dataLost =>
    refine congrArg _ ((dataReply_of_refused hr _).trans ?_)
    rw [if_neg (Nat.lt_irrefl _), if_pos (by simpa [imp_iff_not_or] using hlive)]

end Sys2Proof.Machine
end

section
/-! Leases at their lender. A lease's extent lies in the pool where it was offered (R351), but the statement asks nothing of the table's entries
beyond what names them. Where an entry's extent lies in the addresses of a borrow slot (R387), an atomic step that a peer asks for is a write to
another package: a request goes out to that package before the peer is answered (`State.tellLender`, R392), and what the package sends is not
the old data and the translation alone. -/

namespace Sys2Proof.Machine

/-- A lease held, whose extent is that of borrow slot 0. -/
def lentOn : Lease :=
  { state := 2, size := 1, port := 9, gen := 1, id := 77, base := aliasBase 0, expiry := 0, since := 0, sharers := [] }

/-- The package has lent on what it may have borrowed; every slot is the package kernel's. -/
def lendingOn : State := State.reset.modHub fun h => { h with leases := [(0, lentOn)], slots := List.replicate 64 0x10 }

/-- A step that stores: 0 is exchanged for 1. -/
def exchangeOne : PeerStep := { ty := .n32, op := .cas, b := 0, c := 1 }

/-- The request names the lease, carries the package's incarnation, and its slot serves it. -/
theorem lendingOn_serves : lendingOn.hub.performed = []
    ∧ lendingOn.hub.leases.find? (fun e => e.2.id == 77 && e.2.gen == 1 && (e.2.state == 2 || e.2.state == 3) && e.2.port == 9) = some (0, lentOn)
    ∧ 4096 * 0 + 4096 ≤ pageBytes lentOn.size ∧ PeerAsk.inPage (.atomic 0 exchangeOne) = true
    ∧ lendingOn.askServed (lentOn.base + 4096 * 0) (.atomic 0 exchangeOne) = true ∧ lendingOn.hub.sent = [] := by decide +kernel

/-- How many messages the package has sent in the state that an event ends in. -/
def sentAfter : Host.Outcome State Fault Refusal → Option Nat
  | .next t => some t.hub.sent.length
  | _ => none

/-- The write to the lender of borrow slot 0, the old data, and the translation. -/
theorem lendingOn_sends : sentAfter (exec (.peerTranslationRequest 9 77 1 lendingOn.hub.incarnation 0 0 (.atomic 0 exchangeOne)) lendingOn) = some 3 := by
  decide +kernel

/-- Refutes O47: an atomic step in a lease whose extent lies at a borrowed address sends a write to that peer too. -/
theorem not_lenderEvents : ¬ Obligations.LenderEvents := by
  unfold Obligations.LenderEvents
  intro h
  obtain ⟨hperformed, hfind, hpage, hin, hserved, hsent⟩ := lendingOn_serves
  obtain ⟨-, -, -, -, -, hpeer⟩ := h lendingOn 0
  obtain ⟨hheld, -⟩ := hpeer 9 77 1 lendingOn.hub.incarnation 0 0 (by rw [hperformed]; exact fun _ hp => absurd hp List.not_mem_nil)
  obtain ⟨-, hanswer⟩ := hheld (0, lentOn) hfind rfl hpage
  obtain ⟨t, ht, -, -, -, -, -, -, hatomic⟩ := hanswer (.atomic 0 exchangeOne) hin hserved
  obtain ⟨hmessages, -⟩ := hatomic 0 exchangeOne rfl
  have hcount := lendingOn_sends
  rw [ht, sentAfter, hmessages, hsent] at hcount
  exact absurd hcount (by simp)

end Sys2Proof.Machine
end

section
/-! What accesses of the homes leave alone (R255, R354, R370 to R378): blocks, the warm resets of the dies, the directory, and the time and the
slots of the package. -/

namespace Sys2Proof.Machine

namespace State

/-- How far a die is in its warm reset, and its incarnation (R363, R364). -/
def resetOf (s : State) (d : Nat) : ResetState × Half := ((s.die d).warm, (s.die d).incarnation)

/-- Blocks, the warm resets, the directory, and the time and the slots of the package. -/
def outside (s : State) : Sparse Block × (Nat → ResetState × Half) × Sparse DirLine × Nat × Nat × List Nat × Option (List Nat) :=
  (s.blocks, s.resetOf, s.hub.dir, s.hub.time, s.hub.slot, s.hub.slots, s.hub.slotsNext)

theorem resetOf_modDie (s : State) (d : Nat) {f : Die → Die} (hf : ∀ x, (f x).warm = x.warm ∧ (f x).incarnation = x.incarnation) :
    (s.modDie d f).resetOf = s.resetOf := by
  funext k
  simp only [resetOf, die_modDie]
  split
  next hk =>
    obtain ⟨hwarm, hinc⟩ := hf (s.die d)
    rw [hwarm, hinc, hk]
  next => rfl

variable (s : State)

/-! ### Bytes at their homes and in the caches (R255, R370) -/

@[simp] theorem outside_modCache (d : Nat) (f : L2Cache → L2Cache) : (s.modCache d f).outside = s.outside := by
  rw [modCache]
  split
  · rfl
  · have hreset := resetOf_modDie s d (f := fun x => { x with l2 := f x.l2 }) fun _ => ⟨rfl, rfl⟩
    rw [outside, hreset]
    rfl

@[simp] theorem outside_setClock (a : Nat) (c : List Nat) : (s.setClock a c).outside = s.outside := rfl

@[simp] theorem outside_stamp (a : Nat) : (s.stamp a).1.outside = s.outside := rfl

@[simp] theorem outside_note (a : Nat) (pas st : List Nat) (w : Nat) : (s.note a pas st w).outside = s.outside := rfl

@[simp] theorem outside_homeSet (es : List (Nat × Byte)) : (s.homeSet es).outside = s.outside := rfl

@[simp] theorem outside_poisonHome (pa n : Nat) : (s.poisonHome pa n).outside = s.outside := rfl

@[simp] theorem outside_homePut (es : List (Nat × Byte)) (writers : Nat → List (Nat × Nat)) : (s.homePut es writers).outside = s.outside := by
  refine foldl_keeps outside _ (fun u k => ?_) _ (s.homeSet es)
  dsimp only
  split <;> rfl

@[simp] theorem outside_l2Refresh (d : Nat) (es : List (Nat × Byte)) : (s.l2Refresh d es).outside = s.outside := s.outside_modCache d _

@[simp] theorem outside_dropL2 (d lo n : Nat) : (s.dropL2 d lo n).outside = s.outside := s.outside_modCache d _

@[simp] theorem outside_unmask (d : Delivery) (pa : Nat) (b : Byte) : (s.unmask d pa b).outside = s.outside := by
  rw [unmask]
  repeat' split
  all_goals simp

/-! ### Writes between agents (R370, R375, R378) -/

@[simp] theorem outside_deliver (d : Delivery) : (s.deliver d).outside = s.outside := by
  have hpoison (u : State) (es : List (Nat × Byte)) : (es.foldl (fun s e => s.poisonHome e.1 1) u).outside = u.outside :=
    foldl_keeps outside _ (by exact fun _ _ => rfl) es u
  have hunmask (u : State) (es : List (Nat × Byte)) : (es.foldl (fun s e => s.unmask d e.1 e.2) u).outside = u.outside :=
    foldl_keeps outside _ (by exact fun u e => u.outside_unmask d e.1 e.2) es u
  rw [deliver, outside_setClock, hunmask]
  repeat' split
  all_goals simp only [hpoison, l2Taint, outside_modCache, outside_l2Refresh, outside_homePut, outside_note]
  all_goals rfl

@[simp] theorem outside_settleFor (fuel a : Nat) (c : List Nat) : (settleFor fuel s a c).outside = s.outside := by
  induction fuel generalizing s with
  | zero => rfl
  | succ fuel ih =>
    rw [settleFor]
    split
    · rw [ih, outside_deliver]
    · rfl

@[simp] theorem outside_answer (a : Nat) (c : List Nat) : (s.answer a c).outside = s.outside := s.outside_settleFor _ a c

@[simp] theorem outside_settleWhere (p : Delivery → Bool) : (s.settleWhere p).outside = s.outside :=
  foldl_keeps outside _ (by exact fun u d => u.outside_answer d.target d.stamp) _ s

@[simp] theorem outside_absorb (a : Nat) (c : List Nat) : (s.absorb a c).outside = s.outside := s.outside_answer a c

@[simp] theorem outside_takeView (d h : Nat) (pas : List Nat) : (s.takeView d h pas).outside = s.outside := by
  rw [takeView]
  split
  · rfl
  · exact foldl_keeps outside _ (by exact fun u st => u.outside_absorb d st) _ _

@[simp] theorem outside_ask (d pa n : Nat) : (s.ask d pa n).outside = s.outside := by
  rw [ask]
  split <;> simp

@[simp] theorem outside_applyHome (w : Nat) (st : List Nat) (es : List (Nat × Byte)) (writers : Nat → List (Nat × Nat)) :
    (s.applyHome w st es writers).outside = s.outside := by
  rw [applyHome_eq_foldl]
  refine foldl_keeps outside _ (fun u h => ?_) _ s
  rw [applyAt]
  split <;> simp

/-! ### Write-backs (R255, R293, R354, R364) -/

@[simp] theorem outside_sendMasked (d : Nat) (es : List (Nat × Byte)) (writers : Nat → List (Nat × Nat)) :
    (s.sendMasked d es writers).outside = s.outside := by
  rw [sendMasked]
  dsimp only
  split <;> simp

@[simp] theorem outside_writeBack (d lo n : Nat) : (s.writeBack d lo n).outside = s.outside := by
  rw [writeBack]
  split
  · rfl
  · rw [outside_modCache, outside_sendMasked]

@[simp] theorem outside_holdMasked (d lo n : Nat) (maint : List (Nat × Nat)) : (s.holdMasked d lo n maint).outside = s.outside :=
  outside_modCache _ d _

@[simp] theorem outside_cleanRange (d lo n : Nat) (maint : List (Nat × Nat)) : (s.cleanRange d lo n maint).outside = s.outside := by
  rw [cleanRange]
  split <;> simp

@[simp] theorem outside_sendHeld (p : Held → Bool) : (s.sendHeld p).outside = s.outside := by
  rw [sendHeld]
  dsimp only
  split
  · rfl
  · exact foldl_keeps outside _ (by exact fun u k => u.outside_sendMasked k _ _) _ _

theorem outside_dropFrom (line k : Nat) : (dropFrom line s k).outside = s.outside := by
  rw [dropFrom, outside_dropL2, outside_cleanRange]

end State
end Sys2Proof.Machine
end

section
/-! What leaves the warm resets alone (R364 step 5): where each die is in its warm reset, and its incarnation, are as before when an access is
performed, a record is released, or an armed wait is re-checked. -/

namespace Sys2Proof.Machine

/-! Each theorem is elaborated before the next is begun: side by side, the many here would each keep a thread's stack. -/
set_option Elab.async false

/-- How far each die is in its warm reset, and its incarnation (R363, R364). -/
def State.Resets (s : State) (ρ : Nat → ResetState × Half) : Prop := s.resetOf = ρ

/-- A next state, where there is one, has the dies so far in their warm resets. -/
def OptionResets (ρ : Nat → ResetState × Half) (o : Option State) : Prop := ∀ t, o = some t → t.Resets ρ

section
variable {s t : State} {α : Type} {ρ : Nat → ResetState × Half}

theorem State.Resets.of_outside (h : s.Resets ρ) (e : t.outside = s.outside) : t.Resets ρ :=
  (show t.outside.2.1 = s.outside.2.1 from congrArg (fun x => x.2.1) e).trans h

/-- A record update that keeps the dies. -/
theorem State.Resets.update {sel : Sel} {blocks : Sparse Block} {blockNext : Nat} {cores : Sparse Core} {parts : Sparse Partition} {clusters : Sparse Cluster}
    {hub : Hub} {mem : Memory} {poison : Sparse Unit} {grids : Sparse Grid} {gridNext : Nat} {agenda : List Move} {evTurn : Bool} {evNext : Nat}
    {clocked : List Nat} {nextFree : Nat} (h : s.Resets ρ) :
    State.Resets { sel, blocks, blockNext, cores, parts, clusters, dies := s.dies, hub, mem, poison, grids, gridNext, agenda, evTurn, evNext, clocked, nextFree } ρ := h

theorem State.Resets.ite {c : Prop} [Decidable c] (h : s.Resets ρ) (g : t.Resets ρ) : (if c then s else t).Resets ρ := by
  split <;> assumption

/-- A condition decides whether a change is made. -/
theorem State.Resets.ite_then {c : Prop} [Decidable c] (h : s.Resets ρ) (g : s.Resets ρ → t.Resets ρ) : (if c then t else s).Resets ρ := .ite (g h) h

/-- A condition decides whether a change is left out. -/
theorem State.Resets.ite_else {c : Prop} [Decidable c] (h : s.Resets ρ) (g : s.Resets ρ → t.Resets ρ) : (if c then s else t).Resets ρ := .ite h (g h)

theorem State.Resets.foldl {f : State → α → State} {l : List α} (h : s.Resets ρ) (hf : ∀ u e, u.Resets ρ → (f u e).Resets ρ) :
    (l.foldl f s).Resets ρ := by
  induction l generalizing s with
  | nil => exact h
  | cons e l ih => exact ih (hf s e h)

theorem State.Resets.of_fst {p : State × α} {a : α} (h : p.1.Resets ρ) (e : p = (t, a)) : t.Resets ρ := by
  subst e; exact h

theorem foldl_fst_resets {β : Type} {f : State × β → α → State × β} {l : List α} {p : State × β} (h : p.1.Resets ρ)
    (hf : ∀ q e, q.1.Resets ρ → (f q e).1.Resets ρ) : (l.foldl f p).1.Resets ρ := by
  induction l generalizing p with
  | nil => exact h
  | cons e l ih => exact ih (hf p e h)

theorem OptionResets.of_some {o : Option State} (h : OptionResets ρ o) (e : o = some t) : t.Resets ρ := h t e

theorem OptionResets.none : OptionResets ρ none := fun _ e => nomatch e

theorem OptionResets.some (h : s.Resets ρ) : OptionResets ρ (some s) := fun _ e => Option.some.inj e ▸ h

theorem OptionResets.bind {o : Option State} {f : State → Option State} (h : OptionResets ρ o)
    (hf : ∀ u : State, u.Resets ρ → OptionResets ρ (f u)) : OptionResets ρ (o.bind f) := by
  cases o with
  | none => exact OptionResets.none
  | some t => exact hf t (h t rfl)

theorem OptionResets.foldl {f : Option State → α → Option State} {l : List α} {o : Option State} (h : OptionResets ρ o)
    (hf : ∀ u e, OptionResets ρ u → OptionResets ρ (f u e)) : OptionResets ρ (l.foldl f o) := by
  induction l generalizing o with
  | nil => exact h
  | cons e l ih => exact ih (hf o e h)

theorem OptionResets.ite {c : Prop} [Decidable c] {o p : Option State} (h : OptionResets ρ o) (g : OptionResets ρ p) :
    OptionResets ρ (if c then o else p) := by
  split <;> assumption

end

section
variable {s : State} {ρ : Nat → ResetState × Half}

/-! ### Machine/Access.lean: updates of one part of the state -/

theorem State.Resets.modBlk (h : s.Resets ρ) (n : Nat) (f : Block → Block) : (s.modBlk n f).Resets ρ := h.update

theorem State.Resets.modCore (h : s.Resets ρ) (c : Nat) (f : Core → Core) : (s.modCore c f).Resets ρ := h.update

theorem State.Resets.modPart (h : s.Resets ρ) (p : Nat) (f : Partition → Partition) : (s.modPart p f).Resets ρ := h.update

theorem State.Resets.modCluster (h : s.Resets ρ) (c : Nat) (f : Cluster → Cluster) : (s.modCluster c f).Resets ρ := h.update

theorem State.Resets.modDie (h : s.Resets ρ) (d : Nat) {f : Die → Die}
    (hf : ∀ x, (f x).warm = x.warm ∧ (f x).incarnation = x.incarnation := by exact fun _ => ⟨rfl, rfl⟩) : (s.modDie d f).Resets ρ :=
  (s.resetOf_modDie d hf).trans h

theorem State.Resets.modHub (h : s.Resets ρ) (f : Hub → Hub) : (s.modHub f).Resets ρ := h.update

theorem State.Resets.modGrid (h : s.Resets ρ) (g : Nat) (f : Grid → Grid) : (s.modGrid g f).Resets ρ := by
  unfold State.modGrid
  split
  · exact h.update
  · exact h

theorem State.Resets.modPad (h : s.Resets ρ) (c : Nat) (f : Scratchpad → Scratchpad) : (s.modPad c f).Resets ρ := h.modCore _ _

theorem State.Resets.modCb (h : s.Resets ρ) (f : Block → Block) : (s.modCb f).Resets ρ := h.modBlk _ _

theorem State.Resets.send (h : s.Resets ρ) (m : Sent) : (s.send m).Resets ρ := h.modHub _

/-! ### Machine/Ops.lean: operations that instructions share -/

theorem State.Resets.log (h : s.Resets ρ) (bid : Nat) (e : JEntry) : (s.log bid e).Resets ρ := .ite h (.ite (h.modBlk _ _) (h.modBlk _ _))

theorem State.Resets.logRegs (h : s.Resets ρ) (bid n span : Nat) (ts : List Nat) : (s.logRegs bid n span ts).Resets ρ :=
  h.foldl fun _ _ hu => hu.foldl fun _ _ hv => hv.log _ _

theorem State.Resets.irrevoke (h : s.Resets ρ) (bid : Nat) : (s.irrevoke bid).Resets ρ := h.modBlk _ _

theorem State.Resets.padStore (h : s.Resets ρ) (bid : Nat) (rs : List SpStore) : (s.padStore bid rs).Resets ρ :=
  (h.foldl (fun _ _ hu => hu.log _ _)).modPad _ _

theorem State.Resets.padServe (h : s.Resets ρ) (b : Block) (reqs : List SpReq) (words : List Nat) : (s.padServe b reqs words).1.Resets ρ := h.modPad _ _

theorem State.Resets.setBar (h : s.Resets ρ) (bid a : Nat) (r : BarRec) : (s.setBar bid a r).Resets ρ := h.padStore _ _

theorem State.Resets.putBar (h : s.Resets ρ) (bid n : Nat) (sl : Slot) (r : BarRec) : (s.putBar bid n sl r).Resets ρ := by
  unfold State.putBar
  exact .ite h.update (h.setBar _ _ _)

theorem State.Resets.report (h : s.Resets ρ) (d : Nat) (r : FbRec) : (s.report d r).Resets ρ := .ite (h.modDie _) (h.modDie _)

theorem State.Resets.dropRequests (h : s.Resets ρ) (bid : Nat) : (s.dropRequests bid).Resets ρ := h.foldl fun _ _ hu => .ite (hu.modCore _ _) hu

theorem State.Resets.dropWaiters (h : s.Resets ρ) (bid : Nat) : (s.dropWaiters bid).Resets ρ := h.modDie _

theorem State.Resets.tidyMerges (h : s.Resets ρ) (cl : Nat) : (s.tidyMerges cl).Resets ρ := .ite h (h.modCluster _ _)

theorem State.Resets.releaseBlock (h : s.Resets ρ) (bid : Nat) : (s.releaseBlock bid).Resets ρ :=
  ((((h.foldl (fun _ _ hu => hu.modPart _ _)).modCore _ _).dropRequests _).dropWaiters _).tidyMerges _

theorem State.Resets.freeSwap (h : s.Resets ρ) (bid : Nat) : (s.freeSwap bid).Resets ρ := h.foldl fun _ _ hu => .ite (hu.modCluster _ _) hu

theorem State.Resets.freeBlock (h : s.Resets ρ) (bid : Nat) : (s.freeBlock bid).Resets ρ := by
  unfold State.freeBlock
  exact (State.Resets.freeSwap (.ite (h.modHub _) h) _).modDie _

theorem State.Resets.endKilled (h : s.Resets ρ) (bid : Nat) : (s.endKilled bid).Resets ρ := by
  unfold State.endKilled
  exact (((h.releaseBlock _).freeBlock _).modBlk _ _).modGrid _ _

theorem State.Resets.kill (h : s.Resets ρ) (bid cause trig : Nat) (addr : DWord) : (s.kill bid cause trig addr).Resets ρ := by
  unfold State.kill
  refine .ite h (.ite ((((((h.report _ _).modBlk _ _).modBlk _ _).modGrid _ _).dropWaiters _).dropRequests _) ?_)
  exact ((((h.report _ _).modBlk _ _).modBlk _ _).modGrid _ _).endKilled _

theorem State.Resets.consume (h : s.Resets ρ) (bid trig : Nat) (addr : DWord) : (s.consume bid trig addr).Resets ρ :=
  .ite h (.ite (h.kill _ _ _ _) (.ite (h.kill _ _ _ _) (h.modBlk _ _)))

theorem State.Resets.barRead (h : s.Resets ρ) (bid a : Nat) : (s.barRead bid a).1.Resets ρ := h.padServe _ _ _

theorem State.Resets.barAccess (h : s.Resets ρ) (bid a : Nat) (go : State → State) (hgo : ∀ u, u.Resets ρ → (go u).Resets ρ) :
    (s.barAccess bid a go).Resets ρ := by
  unfold State.barAccess
  refine .ite (hgo _ h) ?_
  split
  · exact ((h.barRead _ _).of_fst ‹_›).consume _ _ _
  · exact hgo _ ((h.barRead _ _).of_fst ‹_›)

theorem State.Resets.barUpdate (h : s.Resets ρ) (bid n : Nat) (f : BarRec → BarRec) (g : Slot → Slot) : (s.barUpdate bid n f g).Resets ρ := by
  unfold State.barUpdate
  dsimp only
  split
  · exact h
  · exact h.barAccess _ _ _ fun _ hu => .ite ((hu.putBar _ _ _ _).modBlk _ _) ((hu.putBar _ _ _ _).modBlk _ _)

theorem State.Resets.departBarriers (h : s.Resets ρ) (bid t : Nat) : (s.departBarriers bid t).Resets ρ := h.foldl fun _ _ hu => .ite (hu.barUpdate _ _ _ _) hu

theorem State.Resets.endThread (h : s.Resets ρ) (bid t : Nat) (st : LaneStatus) : (s.endThread bid t st).Resets ρ := (h.modBlk _ _).departBarriers _ _

theorem State.Resets.strike (h : s.Resets ρ) (bid t : Nat) : (s.strike bid t).Resets ρ := (h.modBlk _ _).endThread _ _ _

theorem State.Resets.laneFaults (h : s.Resets ρ) (bid : Nat) (pc : DWord) (len : Nat) (fs : List (Nat × LF)) : (s.laneFaults bid pc len fs).Resets ρ := by
  unfold State.laneFaults
  dsimp only
  split
  · exact h
  · refine .ite h (.ite ((h.foldl (fun _ _ hu => hu.report _ _)).kill _ _ _ _) ?_)
    refine .ite ((h.foldl (fun _ _ hu => hu.report _ _)).kill _ _ _ _) ?_
    exact ((h.foldl (fun _ _ hu => hu.report _ _)).modBlk _ _).foldl (fun _ _ hu => .ite (hu.modBlk _ _) (hu.strike _ _))

theorem State.Resets.deadlock (h : s.Resets ρ) (bid bundle : Nat) : (s.deadlock bid bundle).Resets ρ := .ite (h.foldl (fun _ _ hu => hu.laneFaults _ _ _ _)) h

theorem State.Resets.openInterval (h : s.Resets ρ) (bid : Nat) : (s.openInterval bid).Resets ρ := (h.modDie _).modBlk _ _

theorem State.Resets.blockBarrier (h : s.Resets ρ) (bid : Nat) : (s.blockBarrier bid).Resets ρ := .ite ((h.modBlk _ _).openInterval _) h

theorem State.Resets.settle (h : s.Resets ρ) (bid : Nat) : (s.settle bid).Resets ρ :=
  ((((h.modBlk _ _).foldl (fun _ _ hu => hu.deadlock _ _)).modBlk _ _).modBlk _ _).blockBarrier _

/-! ### Machine/Operands.lean: operand handling and the frame of an issue -/

theorem State.Resets.setSregs (h : s.Resets ρ) (n : Nat) (ws : List Word) : (s.setSregs n ws).Resets ρ := by
  unfold State.setSregs
  dsimp only
  split <;> exact h.modCb _

theorem State.Resets.write (h : s.Resets ρ) (d : Dst) (span : Nat) (vals : List (Nat × Nat)) : (s.write d span vals).Resets ρ := by
  unfold State.write
  dsimp only
  split
  · exact (h.logRegs _ _ _ _).modCb _
  · exact h.modCb _
  · split
    · exact h
    · exact h.setSregs _ _
  · exact h
  · exact h

theorem State.Resets.flagLanes (h : s.Resets ρ) (fs : List (Nat × BitVec 6)) : (s.flagLanes fs).Resets ρ := h.modCb _

/-! ### Machine/Home.lean: lines at their home -/

theorem State.Resets.setClock (h : s.Resets ρ) (a : Nat) (c : List Nat) : (s.setClock a c).Resets ρ :=
  h.of_outside (by simp)

theorem State.Resets.stamp (h : s.Resets ρ) (a : Nat) : (s.stamp a).1.Resets ρ :=
  h.of_outside (by simp)

theorem State.Resets.note (h : s.Resets ρ) (a : Nat) (pas st : List Nat) (writer : Nat) : (s.note a pas st writer).Resets ρ :=
  h.of_outside (by simp)

theorem State.Resets.modCache (h : s.Resets ρ) (a : Nat) (f : L2Cache → L2Cache) : (s.modCache a f).Resets ρ :=
  h.of_outside (by simp)

theorem State.Resets.request (h : s.Resets ρ) (slot page : Nat) (what : Asked) (engine : Bool) : (s.request slot page what engine).Resets ρ :=
  (h.modHub _).send _

theorem State.Resets.homeSet (h : s.Resets ρ) (es : List (Nat × Byte)) : (s.homeSet es).Resets ρ :=
  h.of_outside (by simp)

theorem State.Resets.homePut (h : s.Resets ρ) (es : List (Nat × Byte)) (writers : Nat → List (Nat × Nat)) :
    (s.homePut es writers).Resets ρ :=
  h.of_outside (by simp)

theorem State.Resets.poisonHome (h : s.Resets ρ) (pa n : Nat) : (s.poisonHome pa n).Resets ρ :=
  h.of_outside (by simp)

theorem State.Resets.l2Refresh (h : s.Resets ρ) (d : Nat) (es : List (Nat × Byte)) : (s.l2Refresh d es).Resets ρ :=
  h.of_outside (by simp)

theorem State.Resets.unmask (h : s.Resets ρ) (d : Delivery) (pa : Nat) (b : Byte) : (s.unmask d pa b).Resets ρ :=
  h.of_outside (by simp)

theorem State.Resets.deliver (h : s.Resets ρ) (d : Delivery) : (s.deliver d).Resets ρ :=
  h.of_outside (by simp)

theorem State.Resets.settleFor (h : s.Resets ρ) (fuel a : Nat) (c : List Nat) : (State.settleFor fuel s a c).Resets ρ :=
  h.of_outside (by simp)

theorem State.Resets.answer (h : s.Resets ρ) (a : Nat) (c : List Nat) : (s.answer a c).Resets ρ :=
  h.of_outside (by simp)

theorem State.Resets.settleWhere (h : s.Resets ρ) (p : Delivery → Bool) : (s.settleWhere p).Resets ρ :=
  h.of_outside (by simp)

theorem State.Resets.absorb (h : s.Resets ρ) (a : Nat) (c : List Nat) : (s.absorb a c).Resets ρ :=
  h.of_outside (by simp)

theorem State.Resets.takeView (h : s.Resets ρ) (d home : Nat) (pas : List Nat) : (s.takeView d home pas).Resets ρ :=
  h.of_outside (by simp)

theorem State.Resets.ask (h : s.Resets ρ) (d pa n : Nat) : (s.ask d pa n).Resets ρ :=
  h.of_outside (by simp)

theorem State.Resets.applyHome (h : s.Resets ρ) (w : Nat) (st : List Nat) (es : List (Nat × Byte)) (writers : Nat → List (Nat × Nat)) :
    (s.applyHome w st es writers).Resets ρ :=
  h.of_outside (by simp)

theorem State.Resets.spread (h : s.Resets ρ) (a pa : Nat) (bytes : List Byte) (writer : List (Nat × Nat)) : (s.spread a pa bytes writer).Resets ρ :=
  ((h.stamp _).note _ _ _ _).modHub _

theorem State.Resets.nameSent (h : s.Resets ρ) (d : Nat) (va pc : DWord) : (s.nameSent d va pc).Resets ρ := h.modHub _

theorem State.Resets.sendWrite (h : s.Resets ρ) (a pa : Nat) (bytes : List Byte) (writer : List (Nat × Nat)) : (s.sendWrite a pa bytes writer).Resets ρ :=
  (h.spread _ _ _ _).ite_then fun hu => (hu.homePut _ _).ite_then fun hv => hv.l2Refresh _ _

theorem State.Resets.stepWrite (h : s.Resets ρ) (pa : Nat) (bytes : List Byte) (writer : List (Nat × Nat)) : (s.stepWrite pa bytes writer).Resets ρ :=
  ((h.spread _ _ _ _).homeSet _).ite_then fun hu => hu.l2Refresh _ _

theorem State.Resets.sendHome (h : s.Resets ρ) (a pa : Nat) (bytes : List Byte) (wide : Bool) (writer : List (Nat × Nat)) :
    (s.sendHome a pa bytes wide writer).Resets ρ :=
  .ite ((h.sendWrite _ _ _ _).absorb _ _) ((h.stamp _).applyHome _ _ _ _)

theorem State.Resets.sendMasked (h : s.Resets ρ) (d : Nat) (es : List (Nat × Byte)) (writers : Nat → List (Nat × Nat)) : (s.sendMasked d es writers).Resets ρ :=
  h.of_outside (by simp)

theorem State.Resets.writeBack (h : s.Resets ρ) (d lo n : Nat) : (s.writeBack d lo n).Resets ρ :=
  h.of_outside (by simp)

theorem State.Resets.sendHeld (h : s.Resets ρ) (p : Held → Bool) : (s.sendHeld p).Resets ρ :=
  h.of_outside (by simp)

theorem State.Resets.holdMasked (h : s.Resets ρ) (d lo n : Nat) (maint : List (Nat × Nat)) : (s.holdMasked d lo n maint).Resets ρ :=
  h.of_outside (by simp)

theorem State.Resets.cleanRange (h : s.Resets ρ) (d lo n : Nat) (maint : List (Nat × Nat)) : (s.cleanRange d lo n maint).Resets ρ :=
  h.of_outside (by simp)

theorem State.Resets.dropL2 (h : s.Resets ρ) (d lo n : Nat) : (s.dropL2 d lo n).Resets ρ :=
  h.of_outside (by simp)

theorem State.Resets.dropClean (h : s.Resets ρ) (d lo n : Nat) : (s.dropClean d lo n).Resets ρ := h.modCache _ _

theorem State.Resets.cohere (h : s.Resets ρ) (d pa : Nat) (write : Bool) : (s.cohere d pa write).Resets ρ := by
  refine .ite h ?_
  exact (((h.sendHeld _).foldl (fun _ _ hu => (hu.writeBack _ _ _).ite_then (fun hv => hv.dropL2 _ _ _))).ask _ _ _).modHub _

theorem State.Resets.leaveDir (h : s.Resets ρ) (d line : Nat) : (s.leaveDir d line).Resets ρ := by
  unfold State.leaveDir
  dsimp only
  split
  · exact h
  · exact h.modHub _

theorem State.Resets.evictLine (h : s.Resets ρ) (d line : Nat) : (s.evictLine d line).Resets ρ := ((h.cleanRange _ _ _ _).dropL2 _ _ _).leaveDir _ _

theorem State.Resets.makeRoom (h : s.Resets ρ) (d pa : Nat) : (s.makeRoom d pa).Resets ρ := by
  unfold State.makeRoom
  refine .ite h ?_
  split
  · exact h.evictLine _ _
  · exact h

theorem State.Resets.fetchSector (h : s.Resets ρ) (d pa : Nat) : (s.fetchSector d pa).Resets ρ :=
  (((h.sendHeld _).ite_else (fun hu => hu.answer _ _)).modCache _ _).takeView _ _ _

theorem State.Resets.l2Store (h : s.Resets ρ) (d pa : Nat) (bytes : List Byte) (writer : List (Nat × Nat)) : (s.l2Store d pa bytes writer).Resets ρ :=
  h.modCache _ _

theorem State.Resets.everywhere (h : s.Resets ρ) (d : Nat) (pas : List Nat) : (s.everywhere d pas).Resets ρ := (h.stamp _).foldl fun _ _ hu => hu.note _ _ _ _

theorem State.Resets.coherentStore (h : s.Resets ρ) (d pa : Nat) (bytes : List Byte) (writer : List (Nat × Nat)) :
    (s.coherentStore d pa bytes writer).Resets ρ :=
  (h.l2Store _ _ _ _).everywhere _ _

/-! ### Machine/Mem.lean: loads, stores and atomics -/

theorem State.Resets.orEntry (h : s.Resets ρ) (d at_ bit : Nat) : (s.orEntry d at_ bit).Resets ρ := by
  unfold State.orEntry
  refine (State.Resets.everywhere ?_ _ _).foldl (fun u _ hu => ?_)
  · exact h.update
  · dsimp only
    split
    · exact hu.modCache _ _
    · exact hu

theorem State.Resets.installLeaf (h : s.Resets ρ) (w : Who) (e : TlbLeaf) (ptrs : List TlbLeaf) : (s.installLeaf w e ptrs).Resets ρ := by
  unfold State.installLeaf
  dsimp only
  split
  · exact (h.modDie _).modCore _ _
  · exact h.modDie _

theorem State.Resets.useLeaf (h : s.Resets ρ) (w : Who) (e : TlbLeaf) : (s.useLeaf w e).Resets ρ := by
  unfold State.useLeaf
  split
  · exact .ite (h.modCore _ _) (h.installLeaf _ _ _)
  · exact h.installLeaf _ _ _

theorem State.Resets.queueWalk (h : s.Resets ρ) (w : Who) (va n : Nat) (acc : Access) : (s.queueWalk w va n acc).Resets ρ :=
  h.modDie _ fun x => by dsimp only; split_ifs <;> exact ⟨rfl, rfl⟩

theorem State.Resets.dropFailed (h : s.Resets ρ) (d : Nat) : (s.dropFailed d).Resets ρ := .ite (h.modDie _) h

theorem State.Resets.kernelServed (h : s.Resets ρ) : s.kernelServed.Resets ρ := h.modHub _

theorem State.Resets.walkFor (h : s.Resets ρ) (w : Who) (va n : Nat) (acc : Access) : (s.walkFor w va n acc).1.Resets ρ := by
  unfold State.walkFor
  dsimp only
  split
  · split
    · exact h
    · exact h.queueWalk _ _ _ _
  · exact h
  · split
    · exact h
    · exact (State.Resets.ite_then (.ite (h.orEntry _ _ _) h) (fun hu => hu.orEntry _ _ _)).installLeaf _ _ _

theorem State.Resets.translate (h : s.Resets ρ) (w : Who) (va n : Nat) (acc : Access) (spec : Bool) : (s.translate w va n acc spec).1.Resets ρ := by
  unfold State.translate
  dsimp only
  split
  · exact h
  · split
    · split
      · exact h
      · exact h.useLeaf _ _
    · split
      · exact h
      · exact h.walkFor _ _ _ _

theorem State.Resets.countPeer (h : s.Resets ρ) (w : Who) (p : Page) (va : Nat) : (s.countPeer w p va).Resets ρ := by
  unfold State.countPeer
  refine .ite h ?_
  dsimp only
  split
  · exact h
  · exact .ite (h.modHub _) (.ite (h.modHub _) (h.modHub _))

theorem State.Resets.askPeer (h : s.Resets ρ) (w : Who) (p : Page) : (s.askPeer w p).Resets ρ := .ite h (.ite (.ite (h.modHub _) h) (h.request _ _ _ _))

theorem State.Resets.askData (h : s.Resets ρ) (w : Who) (p : Page) (pa : Nat) (what : Asked) : (s.askData w p pa what).Resets ρ := by
  unfold State.askData
  refine .ite h ?_
  split
  · exact h.request _ _ _ _
  · exact h.askPeer _ _

theorem State.Resets.takeAnswer (h : s.Resets ρ) (p : Page) (what : Asked) : (s.takeAnswer p what).Resets ρ := .ite h (h.modHub _)

theorem State.Resets.loadAt (h : s.Resets ρ) (w : Who) (p : Page) (pa n : Nat) : (s.loadAt w p pa n).1.Resets ρ := by
  unfold State.loadAt
  dsimp only
  split
  · split
    · exact h.askData _ _ _ _
    · split <;> exact (h.takeAnswer _ _).ask _ _ _
  · split
    · exact h.askData _ _ _ _
    · split
      · split
        · split <;> exact (((h.takeAnswer _ _).makeRoom _ _).cohere _ _ _).fetchSector _ _
        · split <;> exact ((h.takeAnswer _ _).makeRoom _ _).fetchSector _ _
      · split <;> exact h

theorem State.Resets.persist (h : s.Resets ρ) (pa : Nat) (bytes : List Byte) (writer : List (Nat × Nat)) : (s.persist pa bytes writer).Resets ρ :=
  .ite (h.modHub _) h

theorem State.Resets.noteWriters (h : s.Resets ρ) (slot : Nat) : (s.noteWriters slot).Resets ρ := .ite (h.modHub _) h

theorem State.Resets.putAt (h : s.Resets ρ) (w : Who) (p : Page) (pa : Nat) (bytes : List Byte) (writer : List (Nat × Nat)) :
    (s.putAt w p pa bytes writer).Resets ρ :=
  State.Resets.ite_then (.ite ((h.persist _ _ _).sendHome _ _ _ _ _) (.ite ((((h.persist _ _ _).makeRoom _ _).cohere _ _ _).coherentStore _ _ _ _)
    ((((h.persist _ _ _).makeRoom _ _).l2Store _ _ _ _).ite_then (fun hu => hu.sendWrite _ _ _ _)))) fun hu => hu.noteWriters _

theorem State.Resets.storeAt (h : s.Resets ρ) (w : Who) (p : Page) (pa : Nat) (bytes : List Byte) (writer : List (Nat × Nat)) :
    (s.storeAt w p pa bytes writer).1.Resets ρ := by
  unfold State.storeAt
  split
  · exact h.askPeer _ _
  · exact h.putAt _ _ _ _ _

theorem State.Resets.ownBack (h : s.Resets ρ) (d pa : Nat) : (s.ownBack d pa).Resets ρ := (h.cleanRange _ _ _ _).dropL2 _ _ _

theorem State.Resets.stepHome (h : s.Resets ρ) (d pa n : Nat) (coh quiet : Bool) (f : List Byte → Option (List Byte)) (writer : List (Nat × Nat)) :
    (s.stepHome d pa n coh quiet f writer).1.Resets ρ := by
  unfold State.stepHome
  dsimp only
  split
  · split
    · exact (((h.cohere _ _ _).writeBack _ _ _).dropL2 _ _ _).answer _ _
    · split
      · exact ((((h.cohere _ _ _).writeBack _ _ _).dropL2 _ _ _).answer _ _).takeView _ _ _
      · exact (((((((((h.cohere _ _ _).writeBack _ _ _).dropL2 _ _ _).answer _ _).persist _ _ _).stamp _).absorb _ _).homeSet _).everywhere _
          _).takeView _ _ _
  · split
    · exact (((h.sendHeld _).writeBack _ _ _).dropL2 _ _ _).answer _ _
    · split
      · exact ((((h.sendHeld _).writeBack _ _ _).dropL2 _ _ _).answer _ _).takeView _ _ _
      · exact ((((((((h.sendHeld _).writeBack _ _ _).dropL2 _ _ _).answer _ _).persist _ _ _).stamp _).absorb _ _).stepWrite _ _ _).takeView _ _ _

theorem State.Resets.atomicAt (h : s.Resets ρ) (w : Who) (p : Page) (pa n : Nat) (step : PeerStep) (quiet : Bool) (writer : List (Nat × Nat)) :
    (s.atomicAt w p pa n step quiet writer).1.Resets ρ := by
  unfold State.atomicAt
  dsimp only
  split
  · split
    · exact (State.Resets.askData (.ite (h.ownBack _ _) h) _ _ _ _).ite_then fun hu => hu.noteWriters _
    · exact ((h.takeAnswer _ _).stepHome _ _ _ _ _ _ _).ite_then fun hu => hu.noteWriters _
  · split
    · exact h.askPeer _ _
    · split
      · split
        · split
          · exact ((h.makeRoom _ _).cohere _ _ _).fetchSector _ _
          · split
            · exact ((h.makeRoom _ _).cohere _ _ _).fetchSector _ _
            · exact ((((h.makeRoom _ _).cohere _ _ _).fetchSector _ _).persist _ _ _).coherentStore _ _ _ _
        · split
          · exact (h.makeRoom _ _).fetchSector _ _
          · split
            · exact (h.makeRoom _ _).fetchSector _ _
            · exact (((h.makeRoom _ _).fetchSector _ _).persist _ _ _).l2Store _ _ _ _
      · split
        · split
          · exact (h.makeRoom _ _).cohere _ _ _
          · split
            · exact (h.makeRoom _ _).cohere _ _ _
            · exact (((h.makeRoom _ _).cohere _ _ _).persist _ _ _).coherentStore _ _ _ _
        · split
          · exact h.makeRoom _ _
          · split
            · exact h.makeRoom _ _
            · exact ((h.makeRoom _ _).persist _ _ _).l2Store _ _ _ _

theorem State.Resets.l1Sound (h : s.Resets ρ) (w : Who) (va : Nat) : (s.l1Sound w va).Resets ρ := by
  unfold State.l1Sound
  split
  · exact h
  · exact .ite (h.modCore _ _) h

theorem State.Resets.l1Fill (h : s.Resets ρ) (w : Who) (p : Page) (va : Nat) : (s.l1Fill w p va).Resets ρ := by
  unfold State.l1Fill
  dsimp only
  split
  · exact h
  · exact .ite h (h.modCore _ _)

theorem State.Resets.l1Last (h : s.Resets ρ) (w : Who) (va : Nat) : (s.l1Last w va).Resets ρ := by
  unfold State.l1Last
  split
  · exact h
  · exact h.modCore _ _

theorem State.Resets.l1Update (h : s.Resets ρ) (w : Who) (va : Nat) (bytes : List Byte) : (s.l1Update w va bytes).Resets ρ := by
  unfold State.l1Update
  split
  · exact h
  · exact h.modCore _ _

theorem State.Resets.load (h : s.Resets ρ) (w : Who) (va n : Nat) (l1 spec : Bool) : (s.load w va n l1 spec).1.Resets ρ := by
  unfold State.load
  dsimp only
  split
  · exact h.l1Sound _ _
  · exact h.l1Sound _ _
  · split
    · exact ((h.l1Sound _ _).translate _ _ _ _ _).of_fst ‹_›
    · have h1 := ((h.l1Sound _ _).translate _ _ _ _ _).of_fst ‹_›
      split
      · have h2 := (h1.loadAt _ _ _ _).of_fst ‹_›
        exact .ite (h2.l1Fill _ _ _) h2
      · exact (h1.loadAt _ _ _ _).of_fst ‹_›
      · have h2 := (h1.loadAt _ _ _ _).of_fst ‹_›
        exact .ite (h2.l1Fill _ _ _) h2

theorem State.Resets.countSectors (h : s.Resets ρ) (w : Who) (vas : List Nat) : (s.countSectors w vas).Resets ρ := by
  unfold State.countSectors
  refine .ite h (h.foldl (fun _ _ hu => ?_))
  split
  · exact hu.countPeer _ _ _
  · exact hu

theorem State.Resets.peerStore (h : s.Resets ρ) (p : Page) (writer : List (Nat × Nat)) : (s.peerStore p writer).Resets ρ :=
  .ite (h.foldl (fun _ _ hu => hu.irrevoke _)) h

theorem State.Resets.store (h : s.Resets ρ) (w : Who) (va : Nat) (bytes : List Byte) (writer : List (Nat × Nat)) : (s.store w va bytes writer).1.Resets ρ := by
  unfold State.store
  split
  · exact (h.translate _ _ _ _ _).of_fst ‹_›
  · have h1 := (h.translate _ _ _ _ _).of_fst ‹_›
    split
    · exact (h1.storeAt _ _ _ _ _).of_fst ‹_›
    · exact ((((h1.storeAt _ _ _ _ _).of_fst ‹_›).nameSent _ _ _).peerStore _ _).l1Update _ _ _

theorem State.Resets.atomic (h : s.Resets ρ) (w : Who) (va n : Nat) (step : PeerStep) (quiet : Bool) (writer : List (Nat × Nat)) :
    (s.atomic w va n step quiet writer).1.Resets ρ := by
  unfold State.atomic
  dsimp only
  split
  · exact (h.translate _ _ _ _ _).of_fst ‹_›
  · have h1 := (h.translate _ _ _ _ _).of_fst ‹_›
    split
    · exact (h1.atomicAt _ _ _ _ _ _ _).of_fst ‹_›
    · have h2 := (h1.atomicAt _ _ _ _ _ _ _).of_fst ‹_›
      dsimp only
      split
      · exact (h2.peerStore _ _).l1Update _ _ _
      · exact h2.peerStore _ _

theorem State.Resets.recordFault (h : s.Resets ρ) (d : Nat) (r : RestartRec) : (s.recordFault d r).1.Resets ρ := by
  unfold State.recordFault
  dsimp only
  split
  · exact h.modDie _
  · split
    · exact h.modDie _
    · exact h

theorem State.Resets.raiseRestart (h : s.Resets ρ) (d : Nat) (r : RestartRec) (who : Waiter) : (s.raiseRestart d r who).1.Resets ρ := by
  unfold State.raiseRestart
  split
  · exact (h.recordFault _ _).of_fst ‹_›
  · exact ((h.recordFault _ _).of_fst ‹_›).modDie _

/-! ### Machine/Perform.lean: logged and gathered accesses -/

theorem State.Resets.acquirePoint (h : s.Resets ρ) (c : Nat) : (s.acquirePoint c).Resets ρ := h.modCore _ _

theorem State.Resets.fenceBack (h : s.Resets ρ) (bid t e : Nat) : (s.fenceBack bid t e).Resets ρ := .ite (h.foldl (fun _ _ hu => hu.writeBack _ _ _)) h

theorem State.Resets.completeFence (h : s.Resets ρ) (bid t e : Nat) : OptionResets ρ (s.completeFence bid t e) :=
  .ite .none (.some (((h.fenceBack _ _ _).ite_then (fun hu => hu.acquirePoint _)).modBlk _ _))

theorem State.Resets.fenceFirst (h : s.Resets ρ) (bid : Nat) (ts : List Nat) (m : Nat) : OptionResets ρ (s.fenceFirst bid ts m) :=
  (OptionResets.some h).foldl fun _ _ ho => ho.bind fun _ hu => hu.completeFence _ _ _

theorem State.Resets.fenceBegin (h : s.Resets ρ) (bid : Nat) (ts : List Nat) (m : Nat) : (s.fenceBegin bid ts m).Resets ρ :=
  h.foldl fun _ _ hu => hu.fenceBack _ _ _

theorem State.Resets.loadParts (h : s.Resets ρ) (w : Who) (spec : Bool) (ps : List (Nat × Nat)) : (s.loadParts w spec ps).1.Resets ρ := by
  induction ps generalizing s with
  | nil => exact h
  | cons p r ih =>
    unfold State.loadParts
    split
    · exact (h.load _ _ _ _ _).of_fst ‹_›
    · have hl := ih ((h.load _ _ _ _ _).of_fst ‹_›)
      split <;> exact hl.of_fst ‹_›

theorem State.Resets.storeParts (h : s.Resets ρ) (w : Who) (bid t : Nat) (ps : List (Nat × List Byte)) : (s.storeParts w bid t ps).1.Resets ρ := by
  induction ps generalizing s with
  | nil => exact h
  | cons p r ih =>
    unfold State.storeParts
    split
    · exact (h.store _ _ _ _).of_fst ‹_›
    · exact ih (((h.store _ _ _ _).of_fst ‹_›).modBlk _ _)

theorem State.Resets.checkParts (h : s.Resets ρ) (w : Who) (ps : List (Nat × Nat)) : (s.checkParts w ps).1.Resets ρ := by
  induction ps generalizing s with
  | nil => exact h
  | cons p r ih =>
    unfold State.checkParts
    split
    · exact (h.translate _ _ _ _ _).of_fst ‹_›
    · exact ih ((h.translate _ _ _ _ _).of_fst ‹_›)

theorem State.Resets.maintainLine (h : s.Resets ρ) (d k pa : Nat) (lane : Nat × Nat) : (s.maintainLine d k pa lane).Resets ρ :=
  State.Resets.ite_then (.ite (h.dropClean _ _ _) (h.cleanRange _ _ _ _)) fun hu => hu.dropClean _ _ _

theorem State.Resets.rangePages (h : s.Resets ρ) (w : Who) (k : Nat) (vas : List Nat) : (s.rangePages w k vas).1.Resets ρ := by
  induction vas generalizing s with
  | nil => exact h
  | cons va r ih =>
    unfold State.rangePages
    dsimp only
    split
    · exact (h.translate _ _ _ _ _).of_fst ‹_›
    · have ht := (h.translate _ _ _ _ _).of_fst ‹_›
      split
      · exact ht
      · split <;> exact (ih ht).of_fst ‹_›

theorem State.Resets.maintain (h : s.Resets ρ) (w : Who) (k : Nat) (vas : List Nat) (lane : Nat × Nat) : (s.maintain w k vas lane).1.Resets ρ := by
  unfold State.maintain
  dsimp only
  split
  · exact (h.rangePages _ _ _).of_fst ‹_›
  · exact (((h.rangePages _ _ _).of_fst ‹_›).foldl (fun _ _ hu => hu.maintainLine _ _ _ _)).ite_else fun hu => hu.foldl fun _ _ hv => .ite hv
      (hv.modCore _ _)

theorem State.Resets.perform (h : s.Resets ρ) (bid t : Nat) (acc : LogAcc) (ea data data2 : Nat) (l1 spec : Bool) :
    (s.perform bid t acc ea data data2 l1 spec).1.Resets ρ := by
  unfold State.perform
  dsimp only
  split
  · split
    · exact (h.load _ _ _ _ _).of_fst ‹_›
    · exact ((h.load _ _ _ _ _).of_fst ‹_›).modBlk _ _
  · split
    · exact (h.translate _ _ _ _ _).of_fst ‹_›
    · have h1 := (h.translate _ _ _ _ _).of_fst ‹_›
      split
      · exact (h1.loadAt _ _ _ _).of_fst ‹_›
      · exact ((h1.loadAt _ _ _ _).of_fst ‹_›).modBlk _ _
  · split
    · exact (h.store _ _ _ _).of_fst ‹_›
    · exact ((h.store _ _ _ _).of_fst ‹_›).modBlk _ _
  · split
    · exact (h.loadParts _ _ _).of_fst ‹_›
    · exact ((h.loadParts _ _ _).of_fst ‹_›).modBlk _ _
  · split
    · exact (h.checkParts _ _).of_fst ‹_›
    · split <;> exact (((h.checkParts _ _).of_fst ‹_›).storeParts _ _ _ _).of_fst ‹_›
  · split
    · exact (h.atomic _ _ _ _ _ _).of_fst ‹_›
    · exact (((h.atomic _ _ _ _ _ _).of_fst ‹_›).irrevoke _).modBlk _ _
  · split
    · exact (h.maintain _ _ _ _).of_fst ‹_›
    · exact ((h.maintain _ _ _ _).of_fst ‹_›).modBlk _ _
  · exact h

theorem State.Resets.performOrdered (h : s.Resets ρ) (bid t : Nat) (acc : LogAcc) (ea data data2 : Nat) (l1 : Bool) :
    (s.performOrdered bid t acc ea data data2 l1).1.Resets ρ := by
  unfold State.performOrdered
  split
  · split
    · split
      · exact h.fenceBegin _ _ _
      · exact ((h.fenceFirst _ _ _).of_some ‹_›).perform _ _ _ _ _ _ _ _
    · exact (h.perform _ _ _ _ _ _ _ _).of_fst ‹_›
  · exact h.perform _ _ _ _ _ _ _ _

/-! ### Machine/MemoryOps.lean: memory instructions -/

theorem State.Resets.pilotFree (h : s.Resets ρ) (d blk thr : Nat) : (s.pilotFree d blk thr).Resets ρ := h.modDie _

theorem State.Resets.cmpKnown (h : s.Resets ρ) (blk thr : Nat) (o : Bool) : (s.cmpKnown blk thr o).Resets ρ := (h.modBlk _ _).pilotFree _ _ _

theorem State.Resets.recheck (h : s.Resets ρ) (blk thr : Nat) : (s.recheck blk thr).Resets ρ := by
  unfold State.recheck
  dsimp only
  split
  · split
    · have h1 := (h.loadAt _ _ _ _).of_fst ‹_›
      exact .ite (h1.cmpKnown _ _ _) h1
    · exact (h.loadAt _ _ _ _).of_fst ‹_›
  · exact h

/-! ### Machine/Queues.lean: queues -/

theorem State.Resets.modQueue (h : s.Resets ρ) (q : Nat) (f : Queue → Queue) : (s.modQueue q f).Resets ρ := h.modHub _

theorem State.Resets.modExit (h : s.Resets ρ) (d e : Nat) (f : ExitList → ExitList) : (s.modExit d e f).Resets ρ := h.modDie _

/-! ### Machine/Launch.lean: launches and grids -/

theorem State.Resets.modBatch (h : s.Resets ρ) (d e : Nat) (f : Batch → Batch) : (s.modBatch d e f).Resets ρ := h.modExit _ _ _

/-! ### Machine/Replay.lean: release of restartable faults -/

theorem State.Resets.modLog (h : s.Resets ρ) (bid log entry thr : Nat) (f : OplogLane → OplogLane) : (s.modLog bid log entry thr f).Resets ρ := h.modBlk _ _

theorem State.Resets.tidyLogs (h : s.Resets ρ) (bid : Nat) : (s.tidyLogs bid).Resets ρ := h.modBlk _ _

theorem State.Resets.replayOrder (h : s.Resets ρ) (bid thr : Nat) (acc : LogAcc) (share : Nat) : (s.replayOrder bid thr acc share).Resets ρ := by
  unfold State.replayOrder
  dsimp only
  split
  · split
    · exact (h.completeFence _ _ _).of_some ‹_›
    · exact h.modBlk _ _
  · split
    · exact (h.completeFence _ _ _).of_some ‹_›
    · exact h.modBlk _ _
  · exact h

theorem State.Resets.replayLane (h : s.Resets ρ) (bid log entry : Nat) (e : OplogEntry) (l : OplogLane) : (s.replayLane bid log entry e l).1.Resets ρ := by
  unfold State.replayLane
  dsimp only
  split
  · exact (h.modLog _ _ _ _ _).modBlk _ _
  · split
    · exact ((((((((h.update.performOrdered _ _ _ _ _ _ _).update).ite_then (fun hu =>
        hu.l1Last _ _)).update).write _ _ _).flagLanes _).update).modLog _ _ _ _ _).replayOrder _ _ _ _
    · exact ((h.update.performOrdered _ _ _ _ _ _ _).update).modLog _ _ _ _ _
    · exact (((h.update.performOrdered _ _ _ _ _ _ _).update).raiseRestart _ _ _).modLog _ _ _ _ _
    · exact (h.update.performOrdered _ _ _ _ _ _ _).update
    · exact (((h.update.performOrdered _ _ _ _ _ _ _).update).modLog _ _ _ _ _).consume _ _ _

theorem State.Resets.replayLanes (h : s.Resets ρ) (bid : Nat) (ls : List (Nat × Nat × OplogEntry × OplogLane)) : (s.replayLanes bid ls).Resets ρ := by
  unfold State.replayLanes
  dsimp only
  split
  · exact h
  · refine (State.Resets.countSectors ?_ _ _).laneFaults _ _ _ _
    refine foldl_fst_resets (p := (s, [], [])) h fun q l hq => ?_
    have hl := hq.replayLane bid l.1 l.2.1 l.2.2.1 l.2.2.2
    split <;> exact hl.of_fst ‹_›

theorem State.Resets.cancelLanes (h : s.Resets ρ) (bid : Nat) (ls : List (Nat × Nat × OplogEntry × OplogLane)) : (s.cancelLanes bid ls).Resets ρ := by
  unfold State.cancelLanes
  dsimp only
  split
  · exact h
  · exact (h.foldl (fun _ _ hu => hu.modLog _ _ _ _ _)).laneFaults _ _ _ _

theorem State.Resets.byIssue (h : s.Resets ρ) (bid : Nat) (ls : List (Nat × Nat × OplogEntry × OplogLane))
    (f : State → List (Nat × Nat × OplogEntry × OplogLane) → State) (hf : ∀ u e, u.Resets ρ → (f u e).Resets ρ) :
    (s.byIssue bid ls f).Resets ρ :=
  h.foldl fun _ _ hu => hf _ _ hu

theorem State.Resets.releaseLanes (h : s.Resets ρ) (bid : Nat) (x : Word) (cancel : Bool) : (s.releaseLanes bid x cancel).Resets ρ := by
  unfold State.releaseLanes
  refine .ite h ((State.Resets.tidyLogs (.ite (State.Resets.foldl ?_ fun _ _ hu => hu.laneFaults _ _ _ _) (State.Resets.modBlk ?_ _ _)) _).settle _)
  all_goals exact h.byIssue _ _ _ fun _ _ hu => .ite (hu.cancelLanes _ _) (hu.replayLanes _ _)

theorem State.Resets.releaseEngines (h : s.Resets ρ) (d : Nat) (x : Word) (all : Bool) (core : Nat → Bool) : (s.releaseEngines d x all core).Resets ρ :=
  ((h.update.modDie _).modHub _).update

theorem State.Resets.releaseRecord (h : s.Resets ρ) (d : Nat) (x : Word) (all : Bool) (core : Nat → Bool) : (s.releaseRecord d x all core).Resets ρ :=
  (((h.dropFailed _).modDie _).foldl (fun _ _ hu => hu.releaseLanes _ _ _)).releaseEngines _ _ _ _

theorem State.Resets.tellWaiter (h : s.Resets ρ) (d : Nat) (who : Waiter) (x : Word) : (s.tellWaiter d who x).Resets ρ := by
  unfold State.tellWaiter
  dsimp only
  split
  · exact (h.modBlk _ _).modBlk _ _
  · exact h.modBlk _ _
  · exact h.modBlk _ _
  · exact h.modDie _
  · exact h.modQueue _ _
  · exact h.modGrid _ _
  · exact h.modBatch _ _ _
  · exact h.modDie _
  · exact h.modHub _

/-! ### Machine/Warm.lean: warm reset -/

theorem State.Resets.releaseDeferred (h : s.Resets ρ) (d : Nat) (cause : Half) : (s.releaseDeferred d cause).Resets ρ :=
  h.foldl fun _ _ hu => ((hu.modDie _).tellWaiter _ _ _).releaseRecord _ _ _ _

theorem State.Resets.releaseCause (h : s.Resets ρ) (d : Nat) (cause : Half) : (s.releaseCause d cause).Resets ρ :=
  (h.foldl (fun _ _ hu => hu.releaseRecord _ _ _ _)).releaseDeferred _ _

theorem State.Resets.recheckHome (h : s.Resets ρ) (die : Nat) : (s.recheckHome die).Resets ρ := by
  unfold State.recheckHome
  refine h.foldl fun _ _ hu => ?_
  split
  · exact .ite (hu.recheck _ _) hu
  · exact hu

/-- The die readmitted is in service, with a new incarnation (R364 step 5). -/
theorem State.resetOf_resetReadmit {die : Nat} (hstep : (s.die die).warm.step = 5) :
    (s.resetReadmit die).resetOf die = ({ step := 0, tries := 0 }, (s.die die).incarnation + 1) := by
  have hnew : (s.modDie die fun x => { x with warm := { step := 0, tries := 0 }, incarnation := x.incarnation + 1 }).resetOf die
      = ({ step := 0, tries := 0 }, (s.die die).incarnation + 1) := by
    simp only [State.resetOf, State.die_modDie_same]
  rw [State.resetReadmit, if_neg (by simp [hstep])]
  exact (congrFun ((((State.Resets.setClock rfl _ _).sendHeld _).foldl fun _ _ hu => hu.releaseCause _ _).recheckHome _) die).trans hnew

end
end Sys2Proof.Machine
end

section
/-! O50: the warm reset of a die, step by step (R363 to R365), the links (R345, R346), the ports (R385, R405) and the slots (R354). -/

namespace Sys2Proof.Machine

namespace State
variable {s : State}

theorem exec_warmResetByP_of_served {d : Nat} (hd : d < 4) (hresetting : s.resetting = false) (hstep : (s.die d).warm.step = 0) :
    exec (.warmResetByP d) s = .next (s.startReset d) := by
  rw [exec_warmResetByP, execWarmResetByP, if_neg]
  simpa [hresetting, hstep] using Nat.le_of_lt_succ hd

/-! ### The steps of a warm reset (R364) -/

theorem exec_warmResetWriteBack_of_underReset {d : Nat} (hunder : s.underReset = some d) :
    exec .warmResetWriteBack s = .next (s.resetWriteBack d) := by
  rw [exec_warmResetWriteBack, execWarmResetWriteBack, hunder]; rfl

theorem exec_warmResetRetrain_of_underReset {d : Nat} (hunder : s.underReset = some d) (ok : Bool) :
    exec (.warmResetRetrain ok) s = .next (s.resetRetrain ok d) := by
  rw [exec_warmResetRetrain, execWarmResetRetrain, hunder]; rfl

theorem exec_warmResetReadmit_of_underReset {d : Nat} (hunder : s.underReset = some d) :
    exec .warmResetReadmit s = .next (s.resetReadmit d) := by
  rw [exec_warmResetReadmit, execWarmResetReadmit, hunder]; rfl

/-- A step that writes bytes back ends once its homes refuse all that is still held. -/
theorem endStep_of_refuses {d n : Nat} {p : Held → Bool} (h : ∀ e ∈ s.hub.heldEvict, p e = true → s.refuses e.pa = true) :
    s.endStep d n p = s.modDie d fun x => { x with warm := { x.warm with step := n } } := by
  rw [endStep, if_neg]
  simpa using h

/-- A step that writes bytes back goes on while one of them waits for its slot. -/
theorem endStep_of_waits {d n : Nat} {p : Held → Bool} (h : ∃ e ∈ s.hub.heldEvict, p e = true ∧ s.refuses e.pa = false) :
    s.endStep d n p = s := by
  rw [endStep, if_pos]
  simpa using h

theorem blocks_endStep (d n : Nat) (p : Held → Bool) : (s.endStep d n p).blocks = s.blocks := by
  rw [endStep]
  split <;> rfl

/-! ### Step 2: the lines of a die's homes leave the caches and the directory -/

theorem outside_foldl_dropFrom (line : Nat) (s : State) : (caches.foldl (dropFrom line) s).outside = s.outside :=
  foldl_keeps outside _ (by exact fun u k => u.outside_dropFrom line k) caches s

theorem dropLine_keeps (line : Nat) (s : State) :
    (s.dropLine line).blocks = s.blocks ∧ (s.dropLine line).resetOf = s.resetOf
      ∧ (s.dropLine line).hub.dir = s.hub.dir.filter fun e => e.1 != line := by
  have h := outside_foldl_dropFrom line s
  rw [dropLine_eq]
  generalize caches.foldl (dropFrom line) s = u at h ⊢
  simp only [outside, Prod.mk.injEq] at h
  obtain ⟨hblocks, hresets, hdir, -⟩ := h
  exact ⟨hblocks, hresets, by rw [modHub_hub, Sparse.del_eq_filter, hdir]⟩

theorem mem_dir_foldl_dropLine {lines : List Nat} {e : Nat × DirLine} (he : e ∈ (lines.foldl dropLine s).hub.dir) :
    e ∈ s.hub.dir ∧ e.1 ∉ lines := by
  induction lines generalizing s with
  | nil => exact ⟨he, List.not_mem_nil⟩
  | cons line lines ih =>
    rw [List.foldl_cons] at he
    obtain ⟨hdir, hnot⟩ := ih he
    obtain ⟨-, -, hfilter⟩ := dropLine_keeps line s
    rw [hfilter, List.mem_filter] at hdir
    exact ⟨hdir.1, List.not_mem_cons_of_ne_of_not_mem (bne_iff_ne.1 hdir.2) hnot⟩

/-- The other caches have written back what a die is the home of (R364 step 2). -/
def cleanedFor (s : State) (d : Nat) : State := caches.foldl (fun s k => if k = d then s else s.cleanRange k (hbmBase d) (2 ^ 37) []) s

/-- The lines of a die's homes that the directory holds. -/
def linesOf (s : State) (d : Nat) : List Nat := (s.hub.dir.filter fun e => homeAgent (256 * e.1) == d).map (·.1)

/-- What a die is the home of is in no other cache, and the directory has none of its lines (R364 step 2). -/
def homesEmptied (s : State) (d : Nat) : State := ((s.cleanedFor d).linesOf d).foldl dropLine (s.cleanedFor d)

theorem resetWriteBack_of_step_two {d : Nat} (hstep : (s.die d).warm.step = 2) :
    s.resetWriteBack d = (s.homesEmptied d).endStep d 3 fun e => homeAgent e.pa == d := by
  rw [resetWriteBack, if_neg (by simp [hstep]), if_neg (by simp [hstep])]
  rfl

theorem outside_cleanedFor (s : State) (d : Nat) : (s.cleanedFor d).outside = s.outside := by
  refine foldl_keeps outside _ (fun u k => ?_) caches s
  split
  · rfl
  · exact u.outside_cleanRange k _ _ _

theorem homesEmptied_keeps (s : State) (d : Nat) :
    (s.homesEmptied d).blocks = s.blocks ∧ (s.homesEmptied d).resetOf = s.resetOf := by
  have hlines := foldl_keeps (fun u : State => (u.blocks, u.resetOf)) dropLine
    (fun u line => by obtain ⟨hblocks, hresets, -⟩ := dropLine_keeps line u; simp only [hblocks, hresets])
    ((s.cleanedFor d).linesOf d) (s.cleanedFor d)
  have hclean := outside_cleanedFor s d
  simp only [outside, Prod.mk.injEq] at hlines hclean
  obtain ⟨hblocks, hresets⟩ := hlines
  obtain ⟨hcleanBlocks, hcleanResets, -⟩ := hclean
  exact ⟨hblocks.trans hcleanBlocks, hresets.trans hcleanResets⟩

theorem dir_homesEmptied (s : State) (d : Nat) : (s.homesEmptied d).hub.dir.all (fun e => homeAgent (256 * e.1) != d) = true := by
  refine List.all_eq_true.2 fun e he => ?_
  obtain ⟨hdir, hnot⟩ := mem_dir_foldl_dropLine he
  refine bne_iff_ne.2 fun hhome => hnot ?_
  exact List.mem_map.2 ⟨e, List.mem_filter.2 ⟨hdir, beq_iff_eq.2 hhome⟩, rfl⟩

/-! ### Step 4: the reset and the training -/

theorem die_dieReset (s : State) (d : Nat) : (s.dieReset d).die d = (s.die d).dieReset := s.die_modDie_same d Die.dieReset

theorem resetRetrain_of_step_three {d : Nat} (ok : Bool) (hstep : (s.die d).warm.step = 3) :
    s.resetRetrain ok d = (s.dieReset d).modDie d fun x => { x with warm := { (s.die d).warm with step := 4 } } :=
  if_pos (beq_iff_eq.2 hstep)

theorem resetRetrain_true_of_step_four {d : Nat} (hstep : (s.die d).warm.step = 4) :
    s.resetRetrain true d = s.modDie d fun x => { x with warm := { step := 5, tries := 0 } } := by
  simp [resetRetrain, hstep]

theorem resetRetrain_false_of_step_four {d : Nat} (hstep : (s.die d).warm.step = 4) :
    s.resetRetrain false d = s.modDie d fun x =>
      { x with warm := { step := if (s.die d).warm.tries = 2 then 6 else 4, tries := (s.die d).warm.tries + 1 } } := by
  simp [resetRetrain, hstep]

/-! ### Ports (R385) -/

theorem exec_portTrainingFail_of_up {p : Nat} (hp : p < 24) (hup : ∀ q, Sparse.look s.hub.ports p = some q → q.down = false) :
    exec (.portTrainingFail p) s = .next (s.portDown p) := by
  rw [exec_portTrainingFail, execPortTrainingFail, if_neg]
  simpa [Option.any_eq_true] using ⟨hp, hup⟩

theorem portDown_keeps (p : Nat) :
    Sparse.look (s.portDown p).hub.ports p = some { rate := 0, down := true, vexdun := false, ide := none }
      ∧ (s.portDown p).mem = s.mem ∧ (s.portDown p).blocks = s.blocks := by
  simp [portDown, holdLink, startDrain, send]

/-- A port in service at a rate, as its training leaves it. -/
def withPort (s : State) (p r : Nat) (v : Bool) : State :=
  s.modHub fun h => { h with ports := Sparse.put h.ports p { rate := r, down := false, vexdun := v, ide := none } }

theorem exec_portRetrain_of_down {p r : Nat} {v : Bool} (hp : p < 24) (hrate : (v = false ∧ 0 < r ∧ r ≤ 64) ∨ (v = true ∧ r = 128))
    (hdown : ∀ q, Sparse.look s.hub.ports p = some q → q.down = true) :
    ∃ a b seq, exec (.portRetrain p ⟨r, v⟩) s = .next ((s.withPort p r v).forgetLost.holdLink a b true seq) := by
  have hok : (if v then r == 128 else decide (0 < r) && decide (r ≤ 64)) = true := by
    rcases hrate with ⟨rfl, hpos, hle⟩ | ⟨rfl, rfl⟩
    · simp [hpos, hle]
    · rfl
  have hany : (Sparse.look s.hub.ports p).any (fun q => !q.down) = false := by
    cases hlook : Sparse.look s.hub.ports p with
    | none => rfl
    | some q => simp [hdown q hlook]
  refine ⟨(s.withPort p r v).forgetLost.hub.pkgId, portEnd p,
    (s.withPort p r v).forgetLost.linkSeq (s.withPort p r v).forgetLost.hub.pkgId (portEnd p), ?_⟩
  rw [exec_portRetrain, execPortRetrain, if_neg]
  · rfl
  · simp only [hok, hany]
    simpa using hp

/-! ### Slots (R354) -/

/-- The time goes on by a slot: the clocks, the slot and, at the end of a frame, the table (R7, R354). -/
def ticked (s : State) : State :=
  { s with dies := (List.range 4).foldl (fun ds d =>
      let x := Sparse.getOr ds d Die.reset
      Sparse.put ds d { x with clk := max x.clk (x.slotAt + x.mhz / 4), slotAt := x.slotAt + x.mhz / 4 }) s.dies }.modHub fun h =>
    { h with
      time := h.time + 250
      slot := (h.slot + 1) % 64
      slots := if h.slot == 63 then h.slotsNext.getD h.slots else h.slots
      slotsNext := if h.slot == 63 then none else h.slotsNext }

/-- In a slot of the package kernel the walks that have failed are forgotten (log entry 41). -/
def slotBegun (s : State) : State :=
  if s.ticked.hub.slots.getD s.ticked.hub.slot 31 == 0x10 then (List.range 4).foldl dropFailed s.ticked else s.ticked

theorem nextSlot_eq (s : State) : s.nextSlot = (s.slotBegun.sendHeld fun e => s.slotBegun.served e.holder e.pa).tryAcks := rfl

theorem dropFailed_keeps (s : State) (d : Nat) :
    ((s.dropFailed d).outside, (s.dropFailed d).mem, (s.dropFailed d).hub.heldEvict) = (s.outside, s.mem, s.hub.heldEvict) := by
  rw [dropFailed]
  split
  · have hresets := s.resetOf_modDie d (f := fun x => { x with walks := x.walks.filter fun r => r.failed.isNone }) fun _ => ⟨rfl, rfl⟩
    rw [outside, hresets]
    rfl
  · rfl

theorem slotBegun_keeps (s : State) :
    s.slotBegun.outside = s.ticked.outside ∧ s.slotBegun.mem = s.mem ∧ s.slotBegun.hub.heldEvict = s.hub.heldEvict := by
  rw [slotBegun]
  split
  · have h := foldl_keeps (fun u : State => (u.outside, u.mem, u.hub.heldEvict)) dropFailed (by exact fun u d => u.dropFailed_keeps d)
      (List.range 4) s.ticked
    simp only [Prod.mk.injEq] at h
    exact h
  · exact ⟨rfl, rfl, rfl⟩

theorem tryAck_keeps (s : State) (slot : Nat) : ((s.tryAck slot).outside, (s.tryAck slot).mem) = (s.outside, s.mem) := by
  rw [tryAck]
  split_ifs <;> rfl

theorem tryAcks_keeps (s : State) : s.tryAcks.outside = s.outside ∧ s.tryAcks.mem = s.mem :=
  Prod.mk.inj (foldl_keeps (fun u : State => (u.outside, u.mem)) tryAck (by exact fun u slot => u.tryAck_keeps slot) s.hub.borrows.keys s)

theorem sendHeld_of_none (p : Held → Bool) (hnone : s.hub.heldEvict = []) : s.sendHeld p = s := by
  rw [sendHeld, hnone]
  rfl

theorem outside_nextSlot (s : State) : s.nextSlot.outside = s.ticked.outside := by
  rw [nextSlot_eq, (tryAcks_keeps _).1, outside_sendHeld, s.slotBegun_keeps.1]

theorem mem_nextSlot (hnone : s.hub.heldEvict = []) : s.nextSlot.mem = s.mem := by
  obtain ⟨-, hmem, hheld⟩ := s.slotBegun_keeps
  rw [nextSlot_eq, (tryAcks_keeps _).2, sendHeld_of_none _ (hheld.trans hnone), hmem]

theorem exec_slotFrameBoundary_of_last (hslot : s.hub.slot = 63) : exec .slotFrameBoundary s = .next s.nextSlot := by
  rw [exec_slotFrameBoundary, execSlotFrameBoundary, if_pos (beq_iff_eq.2 hslot)]

/-- What the passing of a slot makes of the time and of the slots, and that the blocks stand. -/
theorem nextSlot_slots (s : State) :
    s.nextSlot.blocks = s.blocks ∧ s.nextSlot.hub.time = s.hub.time + 250 ∧ s.nextSlot.hub.slot = (s.hub.slot + 1) % 64
      ∧ s.nextSlot.hub.slots = (if s.hub.slot == 63 then s.hub.slotsNext.getD s.hub.slots else s.hub.slots)
      ∧ s.nextSlot.hub.slotsNext = if s.hub.slot == 63 then none else s.hub.slotsNext := by
  have h := s.outside_nextSlot
  simp only [outside, Prod.mk.injEq] at h
  obtain ⟨hblocks, -, -, htime, hslot, hslots, hnext⟩ := h
  exact ⟨hblocks, htime, hslot, hslots, hnext⟩

end State

open State

/-- Settles O50: each event of a warm reset is the step of the die under reset; what a step writes back, and what the readmission releases, leaves
the warm resets and the blocks alone (`outside`, `Resets`). -/
theorem resetEvents : Obligations.ResetEvents := by
  unfold Obligations.ResetEvents
  refine fun s d => ⟨exec_warmResetByP_of_served, fun hunder => ⟨fun hstep => ?writeBack, fun hstep => ?homes, fun hstep ok => ?reset,
    fun hstep => ⟨?trained, ?failed⟩, fun hstep => ?readmit⟩, fun l hl hup => ?link, fun p hp hup => ?port, fun p r v hp hrate hdown => ?retrain,
    ?slot, fun hslot => ?frame⟩
  case writeBack =>
    rw [exec_warmResetWriteBack_of_underReset hunder, resetWriteBack, if_pos (beq_iff_eq.2 hstep)]
  case homes =>
    obtain ⟨hblocks, hresets⟩ := s.homesEmptied_keeps d
    have hwarm : ((s.homesEmptied d).die d).warm = (s.die d).warm := congrArg Prod.fst (congrFun hresets d)
    refine ⟨s.homesEmptied d, _, (exec_warmResetWriteBack_of_underReset hunder).trans (congrArg _ (resetWriteBack_of_step_two hstep)), rfl,
      (blocks_endStep _ _ _).trans hblocks, s.dir_homesEmptied d, fun hrefused => ?_, fun ⟨e, he, hhome, hserved⟩ =>
        endStep_of_waits ⟨e, he, beq_iff_eq.2 hhome, hserved⟩⟩
    rw [endStep_of_refuses fun e he hhome => hrefused e he (beq_iff_eq.1 hhome)]
    refine ⟨by rw [die_modDie_same, hwarm], fun a ha => ?_⟩
    simp [refuses, ha]
  case reset =>
    refine ⟨_, (exec_warmResetRetrain_of_underReset hunder ok).trans (congrArg _ (resetRetrain_of_step_three ok hstep)), ?_⟩
    rw [die_modDie_same, die_dieReset]
    exact ⟨rfl, rfl, rfl, rfl, rfl⟩
  case trained =>
    refine ⟨_, (exec_warmResetRetrain_of_underReset hunder true).trans (congrArg _ (resetRetrain_true_of_step_four hstep)), ?_⟩
    rw [die_modDie_same]
    exact ⟨rfl, rfl, rfl, rfl⟩
  case failed =>
    refine ⟨_, (exec_warmResetRetrain_of_underReset hunder false).trans (congrArg _ (resetRetrain_false_of_step_four hstep)), ?_⟩
    rw [die_modDie_same]
    exact ⟨rfl, rfl, rfl⟩
  case readmit =>
    have h := resetOf_resetReadmit hstep
    exact ⟨_, exec_warmResetReadmit_of_underReset hunder, congrArg (fun x => x.1.step) h, congrArg Prod.snd h⟩
  case link =>
    rw [exec_birluxLinkDown, execBirluxLinkDown, if_neg]
    simpa [hup] using hl
  case port =>
    exact ⟨_, exec_portTrainingFail_of_up hp hup, portDown_keeps p⟩
  case retrain =>
    obtain ⟨a, b, seq, hexec⟩ := exec_portRetrain_of_down hp hrate hdown
    obtain ⟨-, hports, hmem, hblocks⟩ := forgetLost_keeps (s.withPort p r v)
    have hport : Sparse.look (s.withPort p r v).forgetLost.hub.ports p = some { rate := r, down := false, vexdun := v, ide := none } := by
      rw [hports]
      exact Sparse.look_put_same _ _ _
    generalize (s.withPort p r v).forgetLost = t at hexec hport hmem hblocks
    exact ⟨_, hexec, hport, hmem, hblocks⟩
  case slot =>
    obtain ⟨hblocks, htime, hslot, hslots, -⟩ := s.nextSlot_slots
    exact ⟨_, rfl, htime, hslot, hblocks, mem_nextSlot, fun hne => hslots.trans (if_neg (by simpa using hne))⟩
  case frame =>
    obtain ⟨hblocks, -, hzero, hslots, hnext⟩ := s.nextSlot_slots
    rw [hslot] at hzero hslots hnext
    exact ⟨_, exec_slotFrameBoundary_of_last hslot, hzero, hslots, hnext, hblocks, mem_nextSlot⟩

end Sys2Proof.Machine
end
